-- ==== Sys2Proof/Word.lean ====
section
/-! DEFINITION. The word types of the RZ-160 and their plainest arithmetic. -/

namespace Sys2Proof

/-- A byte of memory. -/
abbrev Byte := BitVec 8
/-- A code word: 32 bits, little-endian, aligned to 4 (R240). -/
abbrev Word := BitVec 32
/-- A 64-bit word. -/
abbrev Dword := BitVec 64
/-- A mask of lanes: bit l for lane l (R316). -/
abbrev LaneMask := BitVec 64

end Sys2Proof
end

