-- ==== Sys2Proof/Config.lean ====
section
/-! DEFINITION. What the spec leaves to the implementation, and the free values: constants without a body, so that
no proof can see what they are. Each is applied to the operands it depends on, or to the counter `State.free`. -/

namespace Sys2Proof.Config

/-- What a step draws a free value for; together with the counter it tells free values apart. -/
inductive Draw where
  /-- Whether an access uses the cached translation of a page number (R44). -/
  | tlb (vpn : Nat)
  /-- Byte i of what a remote window answers (R67). -/
  | window (pa : Nat)
  /-- A count of core cycles, the n-th of the step. -/
  | cycles (n : Nat)
  /-- A counter of an enclave whose value the model does not follow (R214). -/
  | counter (k : Nat)
  /-- The spill bytes that a translation needs (R212). -/
  | spill (n : Nat)
  /-- A spill access: whether, where and what (R212). -/
  | spillAt (n : Nat)
  /-- The size of die code (R210). -/
  | size (n : Nat)
  /-- A choice among several courses that the spec leaves to the hardware. -/
  | choice (n : Nat)
  /-- A choice within operation `op`, the same in all of its steps. -/
  | ofOp (op i : Nat)
  /-- A result that the spec does not state. -/
  | result (lane i : Nat)
  deriving DecidableEq, Repr

/-- A free 64-bit value: any value the spec leaves open, by what it is drawn for and the counter `State.free`, which
every step advances (assumption log 1). -/
opaque freeBits : Draw → Nat → BitVec 64
/-- A free number, by what it is drawn for and the counter (assumption log 1). -/
opaque freeNat : Draw → Nat → Nat
/-- The bits of the n-th key that the root of trust draws (R25, R28, R160; assumption log 5). -/
opaque keyBits : Nat → BitVec 256
/-- Byte i of a signature: by the key with the given number, with the algorithm (false ECDSA P-384, true
ML-DSA-65), over the message (R5, R383, R391; assumption log 5). -/
opaque signature : Nat → Bool → List Byte → Nat → Byte
/-- The payload that a flit of a type carries for a request, an answer or a contribution: whether it writes, its address, its bytes and
the numbers of an atomic (R157; assumption log 111). -/
opaque flitPayload : Nat → Bool → BitVec 64 → List Byte → List Nat → List Byte
/-- The nonce of a member's contribution to a meeting under a collective key (R163; assumption log 111). -/
opaque collNonce : Nat → Nat → BitVec 96
/-- Does a signature over an image verify under a boot key, of ECDSA P-384 (false) or ML-DSA-65 (R5; assumption log 5)? -/
opaque bootVerifies : Bool → List Byte → List Byte → List Byte → Bool
/-- The f32 approximation that SFU forms, by function number k and input (R311): fixed by its input on every die,
known only within the bounds of R311 (assumption log 6). -/
opaque sfu : Nat → BitVec 32 → BitVec 32

/-- What a RISC-V instruction of a general core computes with (R1): integer, floating-point and vector registers, the control and
status registers of a program and of the supervisor, the mode (0 HS, 1 VS, 2 VU, 3 U) and the pc. -/
structure RvCore where
  x : List (Nat × BitVec 64)
  f : List (Nat × BitVec 64)
  v : List (Nat × List Byte)
  csr : List (Nat × BitVec 64)
  sys : List (Nat × BitVec 64)
  mode : Nat
  pc : BitVec 64
  deriving DecidableEq, Repr

/-- The reads of memory that a RISC-V instruction outside the model's base set makes (assumption log 110). -/
opaque rvReads : RvCore → Word → List (BitVec 64 × Nat)
/-- Its writes, from the bytes read. -/
opaque rvWrites : RvCore → Word → List Byte → List (BitVec 64 × List Byte)
/-- The general core behind it, from the bytes read; none where it traps. -/
opaque rvNext : RvCore → Word → List Byte → Option RvCore
/-- The cause and value of its trap. -/
opaque rvTrap : RvCore → Word → List Byte → BitVec 64 × BitVec 64

/-- How many flights a compute die has for all launches (R1, R2). -/
def flightsPerDie : Nat := 8

/-- Where in the range of the partition register pages (R20) a partition's page lies, as the root of trust reports it at boot
(R43). -/
opaque registerPage : Nat → Nat
/-- The physical address of a partition's register page: in the range of R20. -/
def registerBase (part : Nat) : Nat := 0xF000000000 + registerPage part % 0x1000000 * 4096

end Sys2Proof.Config
end

