-- ==== Sys2Proof/Syntax.lean ====
section
/-! DEFINITION. The form of everything the RZ-160 does: one constructor of `Instr` per row of
spec/opcode_table.json. A Skedizon constructor holds the head word's modifiers, its form and its operand words; a
custom-0 constructor holds its registers; a device event holds what the outside world or the passing of time decides. -/

namespace Sys2Proof

/-- The fifteen value types (R244), in the order of their codes. -/
inductive Ty where
  | b1 | i8 | i16 | i32 | i64 | f16 | bf16 | f32 | f64 | p8x4 | p16x2 | fut | tmap | fmtb | acc
  deriving DecidableEq, Repr

/-- The nine scopes, in the order of MOD (R91). -/
inductive Scope where
  | lane | group | team | gang | hall | die | package | fabric | system
  deriving DecidableEq, Repr

/-- An operand word with its literal words (R242, R243, R250). -/
inductive Opnd where
  /-- A value: last use, keep hint, id. -/
  | val (last keep : Bool) (id : BitVec 28)
  /-- A signed 30-bit immediate (R249). -/
  | imm (v : BitVec 30)
  /-- A special operand: class and index (R251). -/
  | special (cls : BitVec 6) (idx : BitVec 24)
  /-- A branch target: a signed word offset from the head word (R254). -/
  | target (off : BitVec 28)
  /-- A long literal of one word (R250). -/
  | lit1 (w : Word)
  /-- A long literal of two words, the low word first (R250). -/
  | lit2 (lo hi : Word)
  /-- A table index (R255). -/
  | table (idx : BitVec 28)
  deriving DecidableEq, Repr

/-- The modifiers of a head word that do not choose the form (R241): G, NDEF, HINT and XHINT. -/
structure Ctl where
  guarded : Bool
  ndef : BitVec 2
  hint : BitVec 2
  xhint : BitVec 4
  deriving DecidableEq, Repr

/-- How IADD and ISUB treat the exact sum (R273). -/
inductive AddMode where | wrap | ss | us | cy
  deriving DecidableEq, Repr
/-- The halves and clamps of IMUL (R274). -/
inductive MulMode where | lo | hs | hu | ss
  deriving DecidableEq, Repr
/-- The modes of IMAD (R275). -/
inductive MadMode where | wrap | ss | us
  deriving DecidableEq, Repr
/-- The kinds of IMINMAX (R277). -/
inductive MinMax where | smin | smax | umin | umax
  deriving DecidableEq, Repr
/-- The kinds of LOGIC and PLOGIC (R278, R283). -/
inductive LogicKind where | and | or | xor | andn | not | tbl3
  deriving DecidableEq, Repr
/-- The kinds of SHIFT (R279). -/
inductive ShiftKind where | shl | shr | sar | rol | ror
  deriving DecidableEq, Repr
/-- The kinds of BITS (R280). -/
inductive BitsKind where | popc | clz | ctz | brev | extz | exts | ins
  deriving DecidableEq, Repr
/-- The conditions of ICMP, in the order of MOD (R282). -/
inductive IntCond where | eq | ne | slt | sle | sgt | sge | ult | ule | ugt | uge
  deriving DecidableEq, Repr
/-- The kinds of ADDR (R285). -/
inductive AddrKind where | sx | zx | i64 | sp | gw
  deriving DecidableEq, Repr
/-- The kinds of CVTI (R286); the type is the target. -/
inductive CvtiKind where
  | zx (t : Ty) | sx (t : Ty) | ss (t : Ty) | uu (t : Ty) | toB1 | fromB (t : Ty) | p8x4 | p16x2
  deriving DecidableEq, Repr
/-- The forms of BRM (R290): one, two or three predicate and target pairs, or the mask form. -/
inductive BrmKind where | one | two | three | mask
  deriving DecidableEq, Repr
/-- The kinds of FMINMAX (R306). -/
inductive FMinMax where | min | max | minnum | maxnum
  deriving DecidableEq, Repr
/-- The kinds of FSIGN (R307). -/
inductive FSignKind where | abs | neg | copysign | xorsign
  deriving DecidableEq, Repr
/-- The conditions of FCMP, in the order of MOD (R308). -/
inductive FCond where | eq | ne | lt | le | gt | ge | ord | uno
  deriving DecidableEq, Repr
/-- The functions of SFU (R311). -/
inductive SfuKind where | rcp | rsq | lg2 | ex2 | sinpi | cospi | tanh | sigm
  deriving DecidableEq, Repr
/-- The narrow formats of CVTF (R313), in the order of their SUB values. -/
inductive Narrow where | e5m2 | e4m3 | e3m2 | e2m3 | e2m1
  deriving DecidableEq, Repr
/-- The kinds of CVTF (R313). -/
inductive CvtfKind where
  | toF (t : Ty) | e8m10 | toNarrow (n : Narrow) | fromNarrow (n : Narrow)
  | s32 | u32 | s64 | u64 | s8 | s4 | sToF (t : Ty) | uToF (t : Ty) | bitsF | bitsBf16 | bitsI
  deriving DecidableEq, Repr
/-- The kinds of PACK (R314). -/
inductive PackKind where | i16x2 | i8x4 | e4m3x4 | e5m2x4 | bf16x2 | f16x2 | ext
  deriving DecidableEq, Repr
/-- The kinds of DOT (R315). -/
inductive DotKind where | ss | su | us | uu | f16x2 | bf16x2
  deriving DecidableEq, Repr
/-- The kinds of SHFL (R317). -/
inductive ShflKind where | idx | up | down | xor
  deriving DecidableEq, Repr
/-- The native kinds of VOTE (R318). -/
inductive VoteKind where | all | any | mask | eq | count
  deriving DecidableEq, Repr
/-- The kinds of SCAN and REDUCE (R319, R320). -/
inductive ScanKind where | add | smin | smax | umin | umax | and | or | xor
  deriving DecidableEq, Repr
/-- The kinds of MATCH (R321). -/
inductive MatchKind where | peers | lead | rank | groups
  deriving DecidableEq, Repr
/-- The kinds of FRND (R323). -/
inductive FrndKind where | mode | rne | rtz | rup | rdn | rna
  deriving DecidableEq, Repr
/-- The forms of LD, ST, LDS and STS (R328): plain by type, 16 bytes, a 4-bit or a 2-bit element, relaxed, and
acquire (loads) or release (stores). -/
inductive MemForm where
  | plain (t : Ty) | v2 | n4 | n2 | rlx (t : Ty) (scope : Scope) | sync (t : Ty) (scope : Scope)
  deriving DecidableEq, Repr
/-- The orders of ATOM and ATOMS (R333). -/
inductive AtomOrder where | rlx | acq | rel | ar
  deriving DecidableEq, Repr
/-- The memory types of ATOM and ATOMS (R333), in the order of their codes. -/
inductive AtomTy where | i32 | i64 | f32 | f64 | bf16x2 | f16x2 | i8 | i16
  deriving DecidableEq, Repr
/-- The kinds of COPY (R341): the four linear forms and the two tensor forms. -/
inductive CopyKind where | g2s | s2g | g2g | s2s | tsrc | tdst
  deriving DecidableEq, Repr

/-- A management master (R7): its class, 0 the baseboard controller, 1 the host, 2 to 9 a partition's operating
system. -/
abbrev Master := Nat

/-- A bring-up function (R11). -/
inductive FnId where
  | hbm (k : Nat) | hall (h : Nat) | link (p : Nat) | pcie | net (p : Nat) | cores
  deriving DecidableEq, Repr

/-- A boot key (R6): a public key of ECDSA P-384, or of ML-DSA-65, as its bytes. -/
structure BootKey where
  mldsa : Bool
  bytes : List Byte
  deriving DecidableEq, Repr

/-- What the management owner supplies to form a partition (R3, R6): general cores, halls, channel sets, network
port, boot key, and the tombstone slots as (first, count) ranges. -/
structure FormSpec where
  cores : List Nat
  halls : List Nat
  sets : List Nat
  port : Nat
  bootKey : Option BootKey
  slots : List (Nat × Nat)
  deriving DecidableEq, Repr

/-- The operations of RISC-V's AMOs. -/
inductive AmoOp where
  | swap | add | and | or | xor | min | max | minu | maxu
  deriving DecidableEq, Repr

/-- An ordinary access of a general core (R39, R119, R397): the size in bytes and the registers. -/
inductive HartAccess where
  | load (size : Nat) (signed : Bool) (rd : BitVec 5)
  | store (size : Nat) (rs : BitVec 5)
  | amo (op : AmoOp) (size : Nat) (rs rd : BitVec 5) (aq rl : Bool)
  | lr (size : Nat) (rd : BitVec 5) (aq rl : Bool)
  | sc (size : Nat) (rs rd : BitVec 5) (aq rl : Bool)
  /-- FENCE, with its predecessor and successor sets as reads and writes. -/
  | fence (predR predW succR succW : Bool)
  | fenceTso
  | fetch
  deriving DecidableEq, Repr

/-- The other end of a stream as the mutual attestation shows it (R155, R156): its F, its P and its identity; `done` once the keys are
established. -/
structure KeyPeer where
  f : Nat
  p : Nat
  dev : Nat
  done : Bool
  deriving DecidableEq, Repr

/-- What a member contributes to a collective (R352): the group and the number of the meeting, its key generation, and
what the members must agree on: form, operation word, count and root. -/
structure Contrib where
  group : Nat
  number : Nat
  gen : Nat
  form : Nat
  op : Nat
  count : Nat
  root : Nat
  deriving DecidableEq, Repr

/-- An atomic that a request asks the far package to perform (R333, R336): operation, memory type, mode word and operands. -/
structure AtomAsk where
  op : Nat
  t : AtomTy
  mode : BitVec 64
  v : Nat
  v2 : Nat
  deriving DecidableEq, Repr

/-- A flit of 256 bytes (R157, R158): the fields of its head, its encrypted payload and its tag, whether it came with its CRC, and
what the payload asks for or answers. A read carries as many data bytes as it asks for; the address of an answer is the SEQ of
its request. -/
structure Flit where
  stream : Nat
  /-- TYPE. -/
  kind : Nat
  keygen : BitVec 8
  /-- LEN: the payload's bytes. -/
  len : Nat
  seq : Nat
  /-- The encrypted payload, as far as it is not zero. -/
  cipher : List Byte
  tag : BitVec 128
  crcOk : Bool
  write : Bool
  va : BitVec 64
  data : List Byte
  atomic : Option AtomAsk
  deriving DecidableEq, Repr

/-- Everything the part does in one step: one constructor per row of spec/opcode_table.json. -/
inductive Instr where
  /-- RESET (R7, R36). -/
  | reset
  /-- FUNCTION_TRAINING_DONE (R11): a function enters READY, or FAILED with a reason. -/
  | functionTrainingDone (f : FnId) (ok : Bool) (reason : Nat)
  /-- HBM_STACK_FAILED (R12). -/
  | hbmStackFailed (k : Nat) (reason : Nat)
  /-- MANAGEMENT_CLAIM (R7): the claims of one arbitration round. -/
  | managementClaim (ms : List Master)
  /-- OWNERSHIP_HANDOVER (R9). -/
  | ownershipHandover (m successor : Master)
  /-- OWNERSHIP_ACCEPT (R9). -/
  | ownershipAccept (m : Master)
  /-- OWNERSHIP_REFUSE (R9). -/
  | ownershipRefuse (m : Master)
  /-- OWNERSHIP_RECLAIM (R9), by the baseboard controller. -/
  | ownershipReclaim
  /-- MANAGEMENT_WRITE (R8). -/
  | managementWrite (m : Master) (addr : Nat) (v : BitVec 64)
  /-- PARTITION_FORM (R3, R12). -/
  | partitionForm (m : Master) (p : Nat) (f : FormSpec)
  /-- BOOT_KEY_REPLACE (R6). -/
  | bootKeyReplace (m : Master) (p : Nat) (key : BootKey)
  /-- PARTITION_BOOT (R5). -/
  | partitionBoot (p : Nat) (image sig : List Byte) (entry : BitVec 64)
  /-- GET_CERTIFICATE (R6). -/
  | getCertificate (p slot : Nat)
  /-- PARTITION_WAY_MASK_WRITE (R69). -/
  | partitionWayMaskWrite (m : Master) (p d : Nat) (ways : BitVec 24)
  /-- FABRIC_NUMBER_WRITE (R155). -/
  | fabricNumberWrite (m : Master) (f p : Nat)
  /-- CLOCK_LOWER (R17), with the island-power sample. -/
  | clockLower (hall steps halfWatts : Nat)
  /-- REGISTER_WRITE (R70, R43, R401), by general core h. -/
  | registerWrite (h off : Nat) (v : BitVec 64)
  /-- XLT_INV_ENCLAVE (R43). -/
  | xltInvEnclave (h : Nat) (v : BitVec 64)
  /-- XLT_INV_PAGES (R43). -/
  | xltInvPages (h : Nat) (v : BitVec 64)
  /-- XLT_INV_PARTITION (R43). -/
  | xltInvPartition (h : Nat) (v : BitVec 64)
  /-- XLT_INV_DONE (R44). -/
  | xltInvDone (p : Nat)
  /-- FQ_BASE_WRITE (R46). -/
  | fqBaseWrite (h : Nat) (v : BitVec 64)
  /-- FQ_HEAD_WRITE (R46). -/
  | fqHeadWrite (h : Nat) (v : BitVec 64)
  /-- PREEMPT_GO (R403). -/
  | preemptGo (h : Nat) (v : BitVec 64)
  /-- KICK (R397): an AMOSWAP.D with its result register, or a plain store. -/
  | kick (h q : Nat) (v : BitVec 64) (rd : Option (BitVec 5))
  /-- LAUNCH_DISPATCH (R398). -/
  | launchDispatch (e : Nat)
  /-- DEP_READ_RESUME (R432). -/
  | depReadResume (l : Nat)
  /-- GANG_PLACE (R399). -/
  | gangPlace (l gang hall block : Nat)
  /-- GANG_RESTORE (R416). -/
  | gangRestore (l gang hall block : Nat)
  /-- TURN_START (R402). -/
  | turnStart (hall e : Nat)
  /-- TURN_DEFICIT_EXHAUSTED (R402): after so many core cycles of the turn. -/
  | turnDeficitExhausted (hall cycles : Nat)
  /-- RAKE_ACK (R409): the last unit of a gang acknowledges, after so many charged cycles. -/
  | rakeAck (l gang : Nat) (cycles : Nat)
  /-- HANDLER_HOLD_EXPIRY (R411). -/
  | handlerHoldExpiry (g : Nat)
  /-- LAUNCH_RETIRE (R103). -/
  | launchRetire (l : Nat)
  /-- HALL_TLB_WALK (R41). -/
  | hallTlbWalk (hall e : Nat) (va : BitVec 64)
  /-- MOVING_WAIT_END (R60). -/
  | movingWaitEnd (g p : Nat)
  /-- FAULT_RECORD_POST (R46). -/
  | faultRecordPost (p : Nat)
  /-- CORRECTION_SEARCH_DONE (R82). -/
  | correctionSearchDone (line : Nat)
  /-- PATROL_READ (R87). -/
  | patrolRead (line : Nat)
  /-- SCRUB_FRAME (R54). -/
  | scrubFrame (p : Nat)
  /-- CLEAN_POOL_WAIT_DONE (R55). -/
  | cleanPoolWaitDone (h : Nat) (interrupted : Bool)
  /-- FRAME_DRAIN_DONE (R53, R56). -/
  | frameDrainDone (frame : Nat)
  /-- ENCLAVE_RELEASE (R30). -/
  | enclaveRelease (e : Nat)
  /-- ENCLAVE_THREAD_INTERRUPT (R390). -/
  | enclaveThreadInterrupt (h : Nat) (cause : BitVec 64)
  /-- ENGINE_ISSUE_RESUME (R127). -/
  | engineIssueResume (g p : Nat)
  /-- ENGINE_GRANULE_LAND (R149): granule, row or step i of an operation. -/
  | engineGranuleLand (op i : Nat)
  /-- ENGINE_OP_COMPLETE (R132). -/
  | engineOpComplete (op : Nat)
  /-- YIELD_RESUME (R138). -/
  | yieldResume (g p : Nat)
  /-- TRANSLATION_DONE (R209). -/
  | translationDone (e : Nat) (hdr : BitVec 64) (fn width budget : Nat)
  /-- XCTL_COMPLETE (R381). -/
  | xctlComplete (g p : Nat)
  /-- EJECT_HANDOVER_DONE (R189). -/
  | ejectHandoverDone (g p : Nat)
  /-- COPY_BACK_DONE (R189). -/
  | copyBackDone (g p : Nat)
  /-- RECALL_DONE (R192). -/
  | recallDone (g p : Nat)
  /-- LANDING_TIMER_EXPIRY (R193). -/
  | landingTimerExpiry (g r : Nat)
  /-- FLIGHT_RELEASE (R152). -/
  | flightRelease (l die f : Nat)
  /-- CUT_COPY_DONE (R168). -/
  | cutCopyDone (k : Nat)
  /-- CUT_DRAIN_DONE (R169). -/
  | cutDrainDone (k : Nat) (ok : Bool)
  /-- REQUEST_FLIT (R158). -/
  | requestFlit (f : Flit)
  /-- RESPONSE_FLIT (R158). -/
  | responseFlit (f : Flit)
  /-- COLLECTIVE_FLIT (R158). -/
  | collectiveFlit (f : Flit) (c : Contrib)
  /-- TEARDOWN_FLIT (R159). -/
  | teardownFlit (stream : Nat)
  /-- FLIT_RETRY (R158): a retry request for one SEQ. -/
  | flitRetry (stream seq : Nat)
  /-- LINK_PORT_DOWN (R158). -/
  | linkPortDown (port : Nat)
  /-- STREAM_KEYING (R160). -/
  | streamKeying (stream e : Nat) (peer : KeyPeer)
  /-- IDE_STREAM_FAILURE (R161). -/
  | ideStreamFailure (k : Nat)
  /-- COLL_GROUP_BUILD_DONE (R162). -/
  | collGroupBuildDone (k : Nat) (digests : List (BitVec 384))
  /-- COLL_GROUP_REKEY (R163): the start of a re-key, or its end. -/
  | collGroupRekey (k : Nat) (done : Bool)
  /-- COLL_PEER_LOST (R164). -/
  | collPeerLost (k member : Nat)
  /-- NOP (R271). -/
  | nop (c : Ctl) (ops : List Opnd)
  /-- CONST (R272). -/
  | const (c : Ctl) (t : Ty) (ops : List Opnd)
  /-- IADD (R273). -/
  | iadd (c : Ctl) (m : AddMode) (t : Ty) (ops : List Opnd)
  /-- ISUB (R273). -/
  | isub (c : Ctl) (m : AddMode) (t : Ty) (ops : List Opnd)
  /-- IMUL (R274). -/
  | imul (c : Ctl) (m : MulMode) (t : Ty) (ops : List Opnd)
  /-- IMAD (R275). -/
  | imad (c : Ctl) (m : MadMode) (t : Ty) (ops : List Opnd)
  /-- IDIV (R276). -/
  | idiv (c : Ctl) (signed : Bool) (t : Ty) (ops : List Opnd)
  /-- IMINMAX (R277). -/
  | iminmax (c : Ctl) (k : MinMax) (t : Ty) (ops : List Opnd)
  /-- LOGIC (R278). -/
  | logic (c : Ctl) (k : LogicKind) (ops : List Opnd)
  /-- SHIFT (R279). -/
  | shift (c : Ctl) (k : ShiftKind) (ops : List Opnd)
  /-- BITS (R280). -/
  | bits (c : Ctl) (k : BitsKind) (ops : List Opnd)
  /-- CLMUL (R281). -/
  | clmul (c : Ctl) (hi wide : Bool) (ops : List Opnd)
  /-- ICMP (R282). -/
  | icmp (c : Ctl) (k : IntCond) (t : Ty) (ops : List Opnd)
  /-- PLOGIC (R283). -/
  | plogic (c : Ctl) (k : LogicKind) (ops : List Opnd)
  /-- SEL (R284). -/
  | sel (c : Ctl) (t : Ty) (ops : List Opnd)
  /-- ADDR (R285). -/
  | addr (c : Ctl) (k : AddrKind) (ops : List Opnd)
  /-- CVTI (R286). -/
  | cvti (c : Ctl) (k : CvtiKind) (ops : List Opnd)
  /-- PHI (R287). -/
  | phi (c : Ctl) (t : Ty) (ops : List Opnd)
  /-- BR (R288). -/
  | br (c : Ctl) (ops : List Opnd)
  /-- BRC (R289). -/
  | brc (c : Ctl) (ops : List Opnd)
  /-- BRM (R290). -/
  | brm (c : Ctl) (k : BrmKind) (ops : List Opnd)
  /-- JOIN (R291). -/
  | join (c : Ctl) (ops : List Opnd)
  /-- CALL (R292). -/
  | call (c : Ctl) (t : Ty) (ops : List Opnd)
  /-- CALLI (R292). -/
  | calli (c : Ctl) (t : Ty) (ops : List Opnd)
  /-- RET (R293). -/
  | ret (c : Ctl) (ops : List Opnd)
  /-- EXIT (R295). -/
  | exit (c : Ctl) (ops : List Opnd)
  /-- SETM_CTL (R299). -/
  | setmCtl (c : Ctl) (ops : List Opnd)
  /-- SETM_FLAGS (R299). -/
  | setmFlags (c : Ctl) (ops : List Opnd)
  /-- SETM_EN (R299). -/
  | setmEn (c : Ctl) (ops : List Opnd)
  /-- SETM_STEP (R299). -/
  | setmStep (c : Ctl) (ops : List Opnd)
  /-- SETM_STEPADD (R299). -/
  | setmStepadd (c : Ctl) (ops : List Opnd)
  /-- SETM_GUARD (R299). -/
  | setmGuard (c : Ctl) (ops : List Opnd)
  /-- GETM_CTL (R300). -/
  | getmCtl (c : Ctl) (ops : List Opnd)
  /-- GETM_STEP (R300). -/
  | getmStep (c : Ctl) (ops : List Opnd)
  /-- GETM_GUARD (R300). -/
  | getmGuard (c : Ctl) (ops : List Opnd)
  /-- GETM_GMASK (R300). -/
  | getmGmask (c : Ctl) (ops : List Opnd)
  /-- RDCYC_I64 (R301). -/
  | rdcycI64 (c : Ctl) (ops : List Opnd)
  /-- RDCYC_I32 (R301). -/
  | rdcycI32 (c : Ctl) (ops : List Opnd)
  /-- UNREACH (R296). -/
  | unreach (c : Ctl) (ops : List Opnd)
  /-- FADD (R305). -/
  | fadd (c : Ctl) (sub : Bool) (t : Ty) (ops : List Opnd)
  /-- FMUL (R305). -/
  | fmul (c : Ctl) (t : Ty) (ops : List Opnd)
  /-- FFMA (R305). -/
  | ffma (c : Ctl) (ms : Bool) (t : Ty) (ops : List Opnd)
  /-- FMINMAX (R306). -/
  | fminmax (c : Ctl) (k : FMinMax) (t : Ty) (ops : List Opnd)
  /-- FSIGN (R307). -/
  | fsign (c : Ctl) (k : FSignKind) (t : Ty) (ops : List Opnd)
  /-- FCMP (R308). -/
  | fcmp (c : Ctl) (k : FCond) (t : Ty) (ops : List Opnd)
  /-- FCLASS (R309). -/
  | fclass (c : Ctl) (t : Ty) (ops : List Opnd)
  /-- FDIV (R310). -/
  | fdiv (c : Ctl) (t : Ty) (ops : List Opnd)
  /-- FSQRT (R310). -/
  | fsqrt (c : Ctl) (t : Ty) (ops : List Opnd)
  /-- SFU (R311). -/
  | sfu (c : Ctl) (k : SfuKind) (t : Ty) (ops : List Opnd)
  /-- CVTF (R313). -/
  | cvtf (c : Ctl) (k : CvtfKind) (ops : List Opnd)
  /-- PACK (R314). -/
  | pack (c : Ctl) (k : PackKind) (ops : List Opnd)
  /-- DOT (R315). -/
  | dot (c : Ctl) (k : DotKind) (ops : List Opnd)
  /-- SHFL (R317). -/
  | shfl (c : Ctl) (k : ShflKind) (ops : List Opnd)
  /-- VOTE (R318). -/
  | vote (c : Ctl) (k : VoteKind) (ops : List Opnd)
  /-- VOTE_LEVEL (R222, R318). -/
  | voteLevel (c : Ctl) (ops : List Opnd)
  /-- SCAN (R319). -/
  | scan (c : Ctl) (k : ScanKind) (ex : Bool) (ops : List Opnd)
  /-- REDUCE (R320). -/
  | reduce (c : Ctl) (k : ScanKind) (ops : List Opnd)
  /-- MATCH (R321). -/
  | matchLanes (c : Ctl) (k : MatchKind) (ops : List Opnd)
  /-- LANEMASK_OWN (R322). -/
  | lanemaskOwn (c : Ctl) (ops : List Opnd)
  /-- LANEMASK_BEFORE (R322). -/
  | lanemaskBefore (c : Ctl) (ops : List Opnd)
  /-- LANEMASK_AFTER (R322). -/
  | lanemaskAfter (c : Ctl) (ops : List Opnd)
  /-- LANEMASK_SEG (R322). -/
  | lanemaskSeg (c : Ctl) (ops : List Opnd)
  /-- LANEMASK_WIDTH (R322). -/
  | lanemaskWidth (c : Ctl) (ops : List Opnd)
  /-- LANEMASK_ACT (R322). -/
  | lanemaskAct (c : Ctl) (ops : List Opnd)
  /-- FRND (R323). -/
  | frnd (c : Ctl) (k : FrndKind) (t : Ty) (ops : List Opnd)
  /-- FSCALE (R324). -/
  | fscale (c : Ctl) (exp : Bool) (t : Ty) (ops : List Opnd)
  /-- RNDBITS (R325). -/
  | rndbits (c : Ctl) (wide : Bool) (ops : List Opnd)
  /-- LD (R329). -/
  | ld (c : Ctl) (f : MemForm) (ops : List Opnd)
  /-- ST (R329, R331). -/
  | st (c : Ctl) (f : MemForm) (ops : List Opnd)
  /-- LDS (R329). -/
  | lds (c : Ctl) (f : MemForm) (ops : List Opnd)
  /-- STS (R329, R331). -/
  | sts (c : Ctl) (f : MemForm) (ops : List Opnd)
  /-- ATOM (R333, R334). -/
  | atom (c : Ctl) (o : AtomOrder) (t : AtomTy) (scope : Scope) (ops : List Opnd)
  /-- ATOMS (R333, R334). -/
  | atoms (c : Ctl) (o : AtomOrder) (t : AtomTy) (scope : Scope) (ops : List Opnd)
  /-- FENCE_ACQ (R337). -/
  | fenceAcq (c : Ctl) (scope : Scope) (ops : List Opnd)
  /-- FENCE_REL (R337). -/
  | fenceRel (c : Ctl) (scope : Scope) (ops : List Opnd)
  /-- FENCE_AR (R337). -/
  | fenceAr (c : Ctl) (scope : Scope) (ops : List Opnd)
  /-- FENCE_SC (R337). -/
  | fenceSc (c : Ctl) (scope : Scope) (ops : List Opnd)
  /-- BAR_SYNC (R338). -/
  | barSync (c : Ctl) (ops : List Opnd)
  /-- BAR_ARRIVE (R338). -/
  | barArrive (c : Ctl) (ops : List Opnd)
  /-- BAR_WAIT (R338). -/
  | barWait (c : Ctl) (ops : List Opnd)
  /-- BAR_EXPECT (R338). -/
  | barExpect (c : Ctl) (ops : List Opnd)
  /-- BAR_INIT (R338). -/
  | barInit (c : Ctl) (ops : List Opnd)
  /-- BAR_STATE (R338). -/
  | barState (c : Ctl) (ops : List Opnd)
  /-- BARM (R339). -/
  | barm (c : Ctl) (ops : List Opnd)
  /-- FLIGHT (R339). -/
  | flight (c : Ctl) (ops : List Opnd)
  /-- COPY (R341 to R343). -/
  | copy (c : Ctl) (k : CopyKind) (bar : Bool) (scope : Scope) (ops : List Opnd)
  /-- GATHER (R344). -/
  | gather (c : Ctl) (bar : Bool) (scope : Scope) (ops : List Opnd)
  /-- SCATTER (R344). -/
  | scatter (c : Ctl) (bar : Bool) (scope : Scope) (ops : List Opnd)
  /-- TMAP (R345). -/
  | tmap (c : Ctl) (sp : Bool) (ops : List Opnd)
  /-- FUT_TEST (R346). -/
  | futTest (c : Ctl) (ops : List Opnd)
  /-- FUT_WAIT (R346). -/
  | futWait (c : Ctl) (ops : List Opnd)
  /-- FUT_STATUS (R346). -/
  | futStatus (c : Ctl) (ops : List Opnd)
  /-- FUT_CANCEL (R346). -/
  | futCancel (c : Ctl) (ops : List Opnd)
  /-- FUT_ALL (R346). -/
  | futAll (c : Ctl) (ops : List Opnd)
  /-- YIELD (R347). -/
  | yield (c : Ctl) (ops : List Opnd)
  /-- PREF (R348). -/
  | pref (c : Ctl) (ops : List Opnd)
  /-- CACHE_DEMOTE (R349). -/
  | cacheDemote (c : Ctl) (ops : List Opnd)
  /-- CACHE_EVICT (R349). -/
  | cacheEvict (c : Ctl) (ops : List Opnd)
  /-- CACHE_ZERO (R349). -/
  | cacheZero (c : Ctl) (ops : List Opnd)
  /-- COLL_GROUP (R350). -/
  | collGroup (c : Ctl) (scope : Scope) (ops : List Opnd)
  /-- COLL_RED (R350). -/
  | collRed (c : Ctl) (scope : Scope) (ops : List Opnd)
  /-- COLL_BCAST (R350). -/
  | collBcast (c : Ctl) (scope : Scope) (ops : List Opnd)
  /-- COLL_BAR (R350). -/
  | collBar (c : Ctl) (scope : Scope) (ops : List Opnd)
  /-- FMTB (R358). -/
  | fmtb (c : Ctl) (ops : List Opnd)
  /-- FMTB_SC (R358). -/
  | fmtbSc (c : Ctl) (ops : List Opnd)
  /-- FMTB_SP (R358). -/
  | fmtbSp (c : Ctl) (ops : List Opnd)
  /-- COHORT (R359). -/
  | cohort (c : Ctl) (ops : List Opnd)
  /-- COHORT_CLEAR (R359). -/
  | cohortClear (c : Ctl) (ops : List Opnd)
  /-- MMA (R363). -/
  | mma (c : Ctl) (scope : Scope) (ops : List Opnd)
  /-- MMA_SP (R367). -/
  | mmaSp (c : Ctl) (scope : Scope) (ops : List Opnd)
  /-- MMA_UF (R370). -/
  | mmaUf (c : Ctl) (scope : Scope) (ops : List Opnd)
  /-- MMA_SPEC (R371). -/
  | mmaSpec (c : Ctl) (scope : Scope) (ops : List Opnd)
  /-- MMA_SPEC_SP (R371). -/
  | mmaSpecSp (c : Ctl) (scope : Scope) (ops : List Opnd)
  /-- MMA_SPEC_UF (R371). -/
  | mmaSpecUf (c : Ctl) (scope : Scope) (ops : List Opnd)
  /-- ACC_ZERO_F32 (R361). -/
  | accZeroF32 (c : Ctl) (ops : List Opnd)
  /-- ACC_ZERO_I32 (R361). -/
  | accZeroI32 (c : Ctl) (ops : List Opnd)
  /-- ACC_LOAD (R372). -/
  | accLoad (c : Ctl) (int : Bool) (scope : Scope) (ops : List Opnd)
  /-- ACC_STORE (R373). -/
  | accStore (c : Ctl) (scope : Scope) (ops : List Opnd)
  /-- SPEC_COMMIT (R371). -/
  | specCommit (c : Ctl) (ops : List Opnd)
  /-- SPEC_DISCARD (R371). -/
  | specDiscard (c : Ctl) (ops : List Opnd)
  /-- UNFOLD (R369). -/
  | unfold (c : Ctl) (ops : List Opnd)
  /-- SPBM (R368). -/
  | spbm (c : Ctl) (scope : Scope) (ops : List Opnd)
  /-- TRAP (R376). -/
  | trap (c : Ctl) (ops : List Opnd)
  /-- TRET (R377). -/
  | tret (c : Ctl) (ops : List Opnd)
  /-- TRET_SKIP (R377). -/
  | tretSkip (c : Ctl) (ops : List Opnd)
  /-- TMASK (R378). -/
  | tmask (c : Ctl) (ops : List Opnd)
  /-- LAUNCH (R380). -/
  | launch (c : Ctl) (ops : List Opnd)
  /-- XCTL_INV (R381). -/
  | xctlInv (c : Ctl) (ops : List Opnd)
  /-- XCTL_PF_CORE (R381). -/
  | xctlPfCore (c : Ctl) (ops : List Opnd)
  /-- XCTL_PF_HALL (R381). -/
  | xctlPfHall (c : Ctl) (ops : List Opnd)
  /-- XCTL_PIN_CORE (R381). -/
  | xctlPinCore (c : Ctl) (ops : List Opnd)
  /-- XCTL_PIN_HALL (R381). -/
  | xctlPinHall (c : Ctl) (ops : List Opnd)
  /-- XCTL_UNPIN_CORE (R381). -/
  | xctlUnpinCore (c : Ctl) (ops : List Opnd)
  /-- XCTL_UNPIN_HALL (R381). -/
  | xctlUnpinHall (c : Ctl) (ops : List Opnd)
  /-- SEAL_OPEN (R382). -/
  | sealOpen (c : Ctl) (ops : List Opnd)
  /-- SEAL_ABSORB (R382). -/
  | sealAbsorb (c : Ctl) (scope : Scope) (ops : List Opnd)
  /-- SEAL_CLOSE (R382). -/
  | sealClose (c : Ctl) (ops : List Opnd)
  /-- SEAL_ABORT (R382). -/
  | sealAbort (c : Ctl) (ops : List Opnd)
  /-- CNT_CTR (R385). -/
  | cntCtr (c : Ctl) (ops : List Opnd)
  /-- CNT_MON (R385). -/
  | cntMon (c : Ctl) (ops : List Opnd)
  /-- CUT_MARK_DY (R386). -/
  | cutMarkDy (c : Ctl) (ops : List Opnd)
  /-- CUT_MARK_FB (R386). -/
  | cutMarkFb (c : Ctl) (ops : List Opnd)
  /-- CUT_STATUS (R170). -/
  | cutStatus (c : Ctl) (ops : List Opnd)
  /-- RDCTX_TRAP (R379). -/
  | rdctxTrap (c : Ctl) (ops : List Opnd)
  /-- RDCTX_LANES (R379). -/
  | rdctxLanes (c : Ctl) (ops : List Opnd)
  /-- RDCTX_OPND (R379). -/
  | rdctxOpnd (c : Ctl) (ops : List Opnd)
  /-- RDCTX_LAUNCH (R379). -/
  | rdctxLaunch (c : Ctl) (ops : List Opnd)
  /-- RDCTX_ENCLAVE (R379). -/
  | rdctxEnclave (c : Ctl) (ops : List Opnd)
  /-- RDCTX_PLACE (R379). -/
  | rdctxPlace (c : Ctl) (ops : List Opnd)
  /-- ENC_CREATE (R28). -/
  | encCreate (rd rs1 rs2 : BitVec 5)
  /-- ENC_ADDPAGE (R28). -/
  | encAddpage (rd rs1 rs2 : BitVec 5)
  /-- ENC_MEASURE (R28). -/
  | encMeasure (rd rs1 : BitVec 5)
  /-- ENC_ENTER (R390). -/
  | encEnter (rd rs1 : BitVec 5)
  /-- ENC_EXIT (R390). -/
  | encExit (rd rs1 : BitVec 5)
  /-- ENC_REPORT (R391). -/
  | encReport (rd rs1 rs2 : BitVec 5)
  /-- ENC_REPORT_RK (R26, R391). -/
  | encReportRk (rd rs1 rs2 : BitVec 5)
  /-- ENC_DESTROY (R28). -/
  | encDestroy (rd rs1 : BitVec 5)
  /-- ENC_XCTL_INV (R392). -/
  | encXctlInv (rd rs1 rs2 : BitVec 5)
  /-- ENC_XCTL_PF_CORE (R392). -/
  | encXctlPfCore (rd rs1 rs2 : BitVec 5)
  /-- ENC_XCTL_PF_HALL (R392). -/
  | encXctlPfHall (rd rs1 rs2 : BitVec 5)
  /-- ENC_XCTL_PIN_CORE (R392). -/
  | encXctlPinCore (rd rs1 rs2 : BitVec 5)
  /-- ENC_XCTL_PIN_HALL (R392). -/
  | encXctlPinHall (rd rs1 rs2 : BitVec 5)
  /-- ENC_XCTL_UNPIN_CORE (R392). -/
  | encXctlUnpinCore (rd rs1 rs2 : BitVec 5)
  /-- ENC_XCTL_UNPIN_HALL (R392). -/
  | encXctlUnpinHall (rd rs1 rs2 : BitVec 5)
  /-- PAGE_OUT (R56). -/
  | pageOut (rd rs1 rs2 : BitVec 5)
  /-- PAGE_IN_CLEAN (R58). -/
  | pageInClean (rd rs1 rs2 : BitVec 5)
  /-- PAGE_IN_IMAGE (R59). -/
  | pageInImage (rd rs1 rs2 : BitVec 5)
  /-- PAGE_IN_SHARE (R58). -/
  | pageInShare (rd rs1 : BitVec 5)
  /-- PAGE_FREE (R53). -/
  | pageFree (rd rs1 : BitVec 5)
  /-- FAULT_RESOLVE (R49). -/
  | faultResolve (rd rs1 : BitVec 5)
  /-- FAULT_KILL (R50). -/
  | faultKill (rd rs1 rs2 : BitVec 5)
  /-- RISCV_LOAD_STORE (R39, R40, R52, R397). -/
  | riscvLoadStore (h : Nat) (va : BitVec 64) (a : HartAccess)
  /-- RESERVED_MAJOR_STUB (R265, R266): the raw words of a major from 0x78 to 0x7F. -/
  | reservedMajorStub (maj : BitVec 7) (sub : BitVec 5) (c : Ctl) (mod rsvz : BitVec 4) (ops : List Word)
  /-- IDE_STREAM_REQUEST (R120, R161); a read carries as many data bytes as it asks for. -/
  | ideStreamRequest (k : Nat) (write : Bool) (va : BitVec 64) (data : List Byte)
  /-- IDE_STREAM_COMPLETION (R67), with the bytes that the far end read. -/
  | ideStreamCompletion (op : Nat) (ok : Bool) (data : List Byte)
  /-- TDISP_BINDING (R161). -/
  | tdispBinding (k e : Nat) (run : Bool)
  /-- SPDM_GET_MEASUREMENTS (R5). -/
  | spdmGetMeasurements (p : Nat)
  deriving DecidableEq, Repr

end Sys2Proof
end

