-- ==== Sys2Proof/Machine/Forms.lean ====
section
/-! DEFINITION. The forms of the Skedizon instructions: the codes of a form (major, SUB and MOD: R264, R271, R304,
R328 to R350, R353, R375) and its shape (operand positions, results, guard, merge operand: R246, R270). One table
serves the well-formedness checks, the decoder, the encoder and the grafter's type check. -/

namespace Sys2Proof

/-! Codes of the small sets. -/

/-- The code of a type (R244). -/
def Ty.code : Ty → Nat
  | .b1 => 0 | .i8 => 1 | .i16 => 2 | .i32 => 3 | .i64 => 4 | .f16 => 5 | .bf16 => 6 | .f32 => 7
  | .f64 => 8 | .p8x4 => 9 | .p16x2 => 10 | .fut => 11 | .tmap => 12 | .fmtb => 13 | .acc => 14

/-- The type of a code (R244); 15 is never a type. -/
def Ty.ofCode : Nat → Option Ty
  | 0 => some .b1 | 1 => some .i8 | 2 => some .i16 | 3 => some .i32 | 4 => some .i64 | 5 => some .f16
  | 6 => some .bf16 | 7 => some .f32 | 8 => some .f64 | 9 => some .p8x4 | 10 => some .p16x2
  | 11 => some .fut | 12 => some .tmap | 13 => some .fmtb | 14 => some .acc | _ => none

/-- The width in bits of a type (R244); 0 for the opaque ones. -/
def Ty.width : Ty → Nat
  | .b1 => 1 | .i8 => 8 | .i16 => 16 | .i32 => 32 | .i64 => 64 | .f16 => 16 | .bf16 => 16 | .f32 => 32
  | .f64 => 64 | .p8x4 => 32 | .p16x2 => 32 | .fut => 64 | .tmap => 0 | .fmtb => 0 | .acc => 0

/-- Is the type a floating type? -/
def Ty.isFloat : Ty → Bool
  | .f16 | .bf16 | .f32 | .f64 => true
  | .b1 | .i8 | .i16 | .i32 | .i64 | .p8x4 | .p16x2 | .fut | .tmap | .fmtb | .acc => false

/-- The type index t of the integer forms, 1 to 6 (R273), if the type has one no greater than `top`. -/
def Ty.idx (top : Nat) (t : Ty) : Option Nat :=
  let n := match t with
    | .i8 => 1 | .i16 => 2 | .i32 => 3 | .i64 => 4 | .p8x4 => 5 | .p16x2 => 6
    | .b1 | .f16 | .bf16 | .f32 | .f64 | .fut | .tmap | .fmtb | .acc => 7
  if n ≤ top then some n else none

/-- The type of a type index, no greater than `top` (R273). -/
def Ty.ofIdx (top n : Nat) : Option Ty :=
  if n ≤ top then
    match n with
    | 1 => some .i8 | 2 => some .i16 | 3 => some .i32 | 4 => some .i64 | 5 => some .p8x4 | 6 => some .p16x2
    | _ => none
  else none

/-- The index c = code − 5 of a floating type (R304), if it is below `top`. -/
def Ty.fidx (top : Nat) (t : Ty) : Option Nat :=
  let n := match t with
    | .f16 => 0 | .bf16 => 1 | .f32 => 2 | .f64 => 3
    | .b1 | .i8 | .i16 | .i32 | .i64 | .p8x4 | .p16x2 | .fut | .tmap | .fmtb | .acc => 4
  if n < top then some n else none

/-- The floating type of an index (R304). -/
def Ty.ofFidx (top n : Nat) : Option Ty :=
  if n < top then
    match n with
    | 0 => some .f16 | 1 => some .bf16 | 2 => some .f32 | 3 => some .f64 | _ => none
  else none

/-- The type code, if it is no greater than `top`. -/
def Ty.codeTo (top : Nat) (t : Ty) : Option Nat := if t.code ≤ top then some t.code else none

/-- The type of a code no greater than `top`. -/
def Ty.ofCodeTo (top n : Nat) : Option Ty := if n ≤ top then Ty.ofCode n else none

/-- The number of a scope in MOD (R91). -/
def Scope.code : Scope → Nat
  | .lane => 0 | .group => 1 | .team => 2 | .gang => 3 | .hall => 4 | .die => 5 | .package => 6
  | .fabric => 7 | .system => 8

/-- The scope of a number (R91). -/
def Scope.ofCode : Nat → Option Scope
  | 0 => some .lane | 1 => some .group | 2 => some .team | 3 => some .gang | 4 => some .hall
  | 5 => some .die | 6 => some .package | 7 => some .fabric | 8 => some .system | _ => none

/-- The number of an IADD mode (R273). -/
def AddMode.code : AddMode → Nat | .wrap => 0 | .ss => 1 | .us => 2 | .cy => 3
/-- The IADD mode of a number (R273). -/
def AddMode.ofCode : Nat → Option AddMode
  | 0 => some .wrap | 1 => some .ss | 2 => some .us | 3 => some .cy | _ => none
/-- The largest type index of an IADD mode (R273). -/
def AddMode.top : AddMode → Nat | .wrap => 6 | .ss => 6 | .us => 6 | .cy => 4
/-- The number of an IMUL mode (R274). -/
def MulMode.code : MulMode → Nat | .lo => 0 | .hs => 1 | .hu => 2 | .ss => 3
/-- The IMUL mode of a number (R274). -/
def MulMode.ofCode : Nat → Option MulMode
  | 0 => some .lo | 1 => some .hs | 2 => some .hu | 3 => some .ss | _ => none
/-- The largest type index of an IMUL mode (R274). -/
def MulMode.top : MulMode → Nat | .lo => 6 | .hs => 4 | .hu => 4 | .ss => 6
/-- The number of an IMAD mode (R275). -/
def MadMode.code : MadMode → Nat | .wrap => 0 | .ss => 1 | .us => 2
/-- The IMAD mode of a number (R275). -/
def MadMode.ofCode : Nat → Option MadMode
  | 0 => some .wrap | 1 => some .ss | 2 => some .us | _ => none
/-- The number of an IMINMAX kind (R277). -/
def MinMax.code : MinMax → Nat | .smin => 0 | .smax => 1 | .umin => 2 | .umax => 3
/-- The IMINMAX kind of a number (R277). -/
def MinMax.ofCode : Nat → Option MinMax
  | 0 => some .smin | 1 => some .smax | 2 => some .umin | 3 => some .umax | _ => none
/-- The SUB of a LOGIC kind (R278). -/
def LogicKind.code : LogicKind → Nat
  | .and => 0 | .or => 1 | .xor => 2 | .andn => 3 | .not => 4 | .tbl3 => 5
/-- The LOGIC kind of a SUB (R278). -/
def LogicKind.ofCode : Nat → Option LogicKind
  | 0 => some .and | 1 => some .or | 2 => some .xor | 3 => some .andn | 4 => some .not | 5 => some .tbl3
  | _ => none
/-- The SUB of a SHIFT kind (R279). -/
def ShiftKind.code : ShiftKind → Nat | .shl => 0 | .shr => 1 | .sar => 2 | .rol => 3 | .ror => 4
/-- The SHIFT kind of a SUB (R279). -/
def ShiftKind.ofCode : Nat → Option ShiftKind
  | 0 => some .shl | 1 => some .shr | 2 => some .sar | 3 => some .rol | 4 => some .ror | _ => none
/-- The SUB of a BITS kind (R280). -/
def BitsKind.code : BitsKind → Nat
  | .popc => 0 | .clz => 1 | .ctz => 2 | .brev => 3 | .extz => 4 | .exts => 5 | .ins => 6
/-- The BITS kind of a SUB (R280). -/
def BitsKind.ofCode : Nat → Option BitsKind
  | 0 => some .popc | 1 => some .clz | 2 => some .ctz | 3 => some .brev | 4 => some .extz | 5 => some .exts
  | 6 => some .ins | _ => none
/-- The MOD of an ICMP condition (R282). -/
def IntCond.code : IntCond → Nat
  | .eq => 0 | .ne => 1 | .slt => 2 | .sle => 3 | .sgt => 4 | .sge => 5 | .ult => 6 | .ule => 7 | .ugt => 8
  | .uge => 9
/-- The ICMP condition of a MOD (R282). -/
def IntCond.ofCode : Nat → Option IntCond
  | 0 => some .eq | 1 => some .ne | 2 => some .slt | 3 => some .sle | 4 => some .sgt | 5 => some .sge
  | 6 => some .ult | 7 => some .ule | 8 => some .ugt | 9 => some .uge | _ => none
/-- The SUB of an ADDR kind (R285). -/
def AddrKind.code : AddrKind → Nat | .sx => 0 | .zx => 1 | .i64 => 2 | .sp => 3 | .gw => 4
/-- The ADDR kind of a SUB (R285). -/
def AddrKind.ofCode : Nat → Option AddrKind
  | 0 => some .sx | 1 => some .zx | 2 => some .i64 | 3 => some .sp | 4 => some .gw | _ => none
/-- The SUB of a CVTI kind (R286). -/
def CvtiKind.sub : CvtiKind → Option Nat
  | .zx t => (t.idx 4).map (· - 1)
  | .sx t => (t.idx 4).map (3 + ·)
  | .ss t => (t.idx 4).map (7 + ·)
  | .uu t => (t.idx 4).map (11 + ·)
  | .toB1 => some 0x10
  | .fromB t => (t.idx 4).map (0x10 + ·)
  | .p8x4 => some 0x15
  | .p16x2 => some 0x16
/-- The CVTI kind of a SUB (R286). -/
def CvtiKind.ofSub (n : Nat) : Option CvtiKind :=
  if n < 4 then (Ty.ofIdx 4 (n + 1)).map .zx
  else if n < 8 then (Ty.ofIdx 4 (n - 3)).map .sx
  else if n < 12 then (Ty.ofIdx 4 (n - 7)).map .ss
  else if n < 16 then (Ty.ofIdx 4 (n - 11)).map .uu
  else if n = 0x10 then some .toB1
  else if n < 0x15 then (Ty.ofIdx 4 (n - 0x10)).map .fromB
  else if n = 0x15 then some .p8x4
  else if n = 0x16 then some .p16x2
  else none
/-- The SUB of a BRM form (R290). -/
def BrmKind.code : BrmKind → Nat | .one => 0 | .two => 1 | .three => 2 | .mask => 3
/-- The BRM form of a SUB (R290). -/
def BrmKind.ofCode : Nat → Option BrmKind
  | 0 => some .one | 1 => some .two | 2 => some .three | 3 => some .mask | _ => none
/-- The number of an FMINMAX kind (R306). -/
def FMinMax.code : FMinMax → Nat | .min => 0 | .max => 1 | .minnum => 2 | .maxnum => 3
/-- The FMINMAX kind of a number (R306). -/
def FMinMax.ofCode : Nat → Option FMinMax
  | 0 => some .min | 1 => some .max | 2 => some .minnum | 3 => some .maxnum | _ => none
/-- The number of an FSIGN kind (R307). -/
def FSignKind.code : FSignKind → Nat | .abs => 0 | .neg => 1 | .copysign => 2 | .xorsign => 3
/-- The FSIGN kind of a number (R307). -/
def FSignKind.ofCode : Nat → Option FSignKind
  | 0 => some .abs | 1 => some .neg | 2 => some .copysign | 3 => some .xorsign | _ => none
/-- The MOD of an FCMP condition (R308). -/
def FCond.code : FCond → Nat
  | .eq => 0 | .ne => 1 | .lt => 2 | .le => 3 | .gt => 4 | .ge => 5 | .ord => 6 | .uno => 7
/-- The FCMP condition of a MOD (R308). -/
def FCond.ofCode : Nat → Option FCond
  | 0 => some .eq | 1 => some .ne | 2 => some .lt | 3 => some .le | 4 => some .gt | 5 => some .ge
  | 6 => some .ord | 7 => some .uno | _ => none
/-- The number of an SFU function (R311). -/
def SfuKind.code : SfuKind → Nat
  | .rcp => 0 | .rsq => 1 | .lg2 => 2 | .ex2 => 3 | .sinpi => 4 | .cospi => 5 | .tanh => 6 | .sigm => 7
/-- The SFU function of a number (R311). -/
def SfuKind.ofCode : Nat → Option SfuKind
  | 0 => some .rcp | 1 => some .rsq | 2 => some .lg2 | 3 => some .ex2 | 4 => some .sinpi | 5 => some .cospi
  | 6 => some .tanh | 7 => some .sigm | _ => none
/-- The place of a narrow format in CVTF's order (R313). -/
def Narrow.code : Narrow → Nat | .e5m2 => 0 | .e4m3 => 1 | .e3m2 => 2 | .e2m3 => 3 | .e2m1 => 4
/-- The narrow format of a place (R313). -/
def Narrow.ofCode : Nat → Option Narrow
  | 0 => some .e5m2 | 1 => some .e4m3 | 2 => some .e3m2 | 3 => some .e2m3 | 4 => some .e2m1 | _ => none
/-- The SUB of a CVTF kind (R313). -/
def CvtfKind.sub : CvtfKind → Option Nat
  | .toF t => t.fidx 4
  | .e8m10 => some 4
  | .toNarrow n => some (5 + n.code)
  | .fromNarrow n => some (0x0A + n.code)
  | .s32 => some 0x0F | .u32 => some 0x10 | .s64 => some 0x11 | .u64 => some 0x12
  | .s8 => some 0x13 | .s4 => some 0x14
  | .sToF t => (t.fidx 4).map (0x15 + ·)
  | .uToF t => (t.fidx 4).map (0x19 + ·)
  | .bitsF => some 0x1D | .bitsBf16 => some 0x1E | .bitsI => some 0x1F
/-- The CVTF kind of a SUB (R313). -/
def CvtfKind.ofSub (n : Nat) : Option CvtfKind :=
  if n < 4 then (Ty.ofFidx 4 n).map .toF
  else if n = 4 then some .e8m10
  else if n < 0x0A then (Narrow.ofCode (n - 5)).map .toNarrow
  else if n < 0x0F then (Narrow.ofCode (n - 0x0A)).map .fromNarrow
  else if n = 0x0F then some .s32
  else if n = 0x10 then some .u32
  else if n = 0x11 then some .s64
  else if n = 0x12 then some .u64
  else if n = 0x13 then some .s8
  else if n = 0x14 then some .s4
  else if n < 0x19 then (Ty.ofFidx 4 (n - 0x15)).map .sToF
  else if n < 0x1D then (Ty.ofFidx 4 (n - 0x19)).map .uToF
  else if n = 0x1D then some .bitsF
  else if n = 0x1E then some .bitsBf16
  else if n = 0x1F then some .bitsI
  else none
/-- The SUB of a PACK kind (R314). -/
def PackKind.code : PackKind → Nat
  | .i16x2 => 0 | .i8x4 => 1 | .e4m3x4 => 2 | .e5m2x4 => 3 | .bf16x2 => 4 | .f16x2 => 5 | .ext => 6
/-- The PACK kind of a SUB (R314). -/
def PackKind.ofCode : Nat → Option PackKind
  | 0 => some .i16x2 | 1 => some .i8x4 | 2 => some .e4m3x4 | 3 => some .e5m2x4 | 4 => some .bf16x2
  | 5 => some .f16x2 | 6 => some .ext | _ => none
/-- The SUB of a DOT kind (R315). -/
def DotKind.code : DotKind → Nat | .ss => 0 | .su => 1 | .us => 2 | .uu => 3 | .f16x2 => 4 | .bf16x2 => 5
/-- The DOT kind of a SUB (R315). -/
def DotKind.ofCode : Nat → Option DotKind
  | 0 => some .ss | 1 => some .su | 2 => some .us | 3 => some .uu | 4 => some .f16x2 | 5 => some .bf16x2
  | _ => none
/-- The SUB of a SHFL kind (R317). -/
def ShflKind.code : ShflKind → Nat | .idx => 0 | .up => 1 | .down => 2 | .xor => 3
/-- The SHFL kind of a SUB (R317). -/
def ShflKind.ofCode : Nat → Option ShflKind
  | 0 => some .idx | 1 => some .up | 2 => some .down | 3 => some .xor | _ => none
/-- The SUB of a native VOTE kind (R318). -/
def VoteKind.code : VoteKind → Nat | .all => 0 | .any => 1 | .mask => 2 | .eq => 3 | .count => 5
/-- The native VOTE kind of a SUB (R318). -/
def VoteKind.ofCode : Nat → Option VoteKind
  | 0 => some .all | 1 => some .any | 2 => some .mask | 3 => some .eq | 5 => some .count | _ => none
/-- The number of a SCAN kind (R319). -/
def ScanKind.code : ScanKind → Nat
  | .add => 0 | .smin => 1 | .smax => 2 | .umin => 3 | .umax => 4 | .and => 5 | .or => 6 | .xor => 7
/-- The SCAN kind of a number (R319). -/
def ScanKind.ofCode : Nat → Option ScanKind
  | 0 => some .add | 1 => some .smin | 2 => some .smax | 3 => some .umin | 4 => some .umax | 5 => some .and
  | 6 => some .or | 7 => some .xor | _ => none
/-- The SUB of a MATCH kind (R321). -/
def MatchKind.code : MatchKind → Nat | .peers => 0 | .lead => 1 | .rank => 2 | .groups => 3
/-- The MATCH kind of a SUB (R321). -/
def MatchKind.ofCode : Nat → Option MatchKind
  | 0 => some .peers | 1 => some .lead | 2 => some .rank | 3 => some .groups | _ => none
/-- The number of an FRND kind (R323). -/
def FrndKind.code : FrndKind → Nat | .mode => 0 | .rne => 1 | .rtz => 2 | .rup => 3 | .rdn => 4 | .rna => 5
/-- The FRND kind of a number (R323). -/
def FrndKind.ofCode : Nat → Option FrndKind
  | 0 => some .mode | 1 => some .rne | 2 => some .rtz | 3 => some .rup | 4 => some .rdn | 5 => some .rna
  | _ => none
/-- The number of an atomic order (R333). -/
def AtomOrder.code : AtomOrder → Nat | .rlx => 0 | .acq => 1 | .rel => 2 | .ar => 3
/-- The atomic order of a number (R333). -/
def AtomOrder.ofCode : Nat → Option AtomOrder
  | 0 => some .rlx | 1 => some .acq | 2 => some .rel | 3 => some .ar | _ => none
/-- The number of an atomic type (R333). -/
def AtomTy.code : AtomTy → Nat
  | .i32 => 0 | .i64 => 1 | .f32 => 2 | .f64 => 3 | .bf16x2 => 4 | .f16x2 => 5 | .i8 => 6 | .i16 => 7
/-- The atomic type of a number (R333). -/
def AtomTy.ofCode : Nat → Option AtomTy
  | 0 => some .i32 | 1 => some .i64 | 2 => some .f32 | 3 => some .f64 | 4 => some .bf16x2 | 5 => some .f16x2
  | 6 => some .i8 | 7 => some .i16 | _ => none
/-- The value type of an atomic's operands and result (R333). -/
def AtomTy.ty : AtomTy → Ty
  | .i32 => .i32 | .i64 => .i64 | .f32 => .f32 | .f64 => .f64 | .bf16x2 => .p16x2 | .f16x2 => .p16x2
  | .i8 => .i8 | .i16 => .i16
/-- The SUB and MOD of a load or store form (R327, R328); the elements of 4 and 2 bits are stores only. -/
def MemForm.codes (store : Bool) : MemForm → Option (Nat × Nat)
  | .plain t => if 1 ≤ t.code ∧ t.code ≤ 11 then some (t.code, 0) else none
  | .v2 => some (0x0C, 0)
  | .n4 => if store then some (0x0D, 0) else none
  | .n2 => if store then some (0x0E, 0) else none
  | .rlx t s => (t.idx 4).map fun n => (0x10 + n, s.code)
  | .sync t s => (t.idx 4).map fun n => (0x18 + n, s.code)
/-- The load or store form of a SUB and MOD (R327, R328). -/
def MemForm.ofCodes (store : Bool) (sub mod : Nat) : Option MemForm :=
  if sub < 0x10 then
    if mod = 0 then
      if 1 ≤ sub ∧ sub ≤ 11 then (Ty.ofCode sub).map .plain
      else if sub = 0x0C then some .v2
      else if sub = 0x0D ∧ store then some .n4
      else if sub = 0x0E ∧ store then some .n2
      else none
    else none
  else if sub < 0x18 then
    (Ty.ofIdx 4 (sub - 0x10)).bind fun t => (Scope.ofCode mod).map fun s => .rlx t s
  else (Ty.ofIdx 4 (sub - 0x18)).bind fun t => (Scope.ofCode mod).map fun s => .sync t s
/-- The SUB of a COPY kind (R341). -/
def CopyKind.code : CopyKind → Nat | .g2s => 0 | .s2g => 1 | .g2g => 2 | .s2s => 3 | .tsrc => 4 | .tdst => 5
/-- The COPY kind of a SUB (R341). -/
def CopyKind.ofCode : Nat → Option CopyKind
  | 0 => some .g2s | 1 => some .s2g | 2 => some .g2g | 3 => some .s2s | 4 => some .tsrc | 5 => some .tdst
  | _ => none

/-- What the head word says of a form: major, SUB and MOD (R241). -/
structure Key where
  maj : Nat
  sub : Nat
  mod : Nat
  deriving DecidableEq, Repr

/-- The codes of an instruction's form (R264); `none` where the form has no encoding, and for what is no Skedizon
instruction. -/
def Instr.key : Instr → Option Key
  | .nop _ _ => some ⟨0x00, 0, 0⟩
  | .const _ t _ => (t.codeTo 10).map (⟨0x01, ·, 0⟩)
  | .iadd _ m t _ => (t.idx m.top).map fun n => ⟨0x02, 8 * m.code + n, 0⟩
  | .isub _ m t _ => (t.idx m.top).map fun n => ⟨0x03, 8 * m.code + n, 0⟩
  | .imul _ m t _ => (t.idx m.top).map fun n => ⟨0x04, 8 * m.code + n, 0⟩
  | .imad _ m t _ => (t.idx 4).map fun n => ⟨0x05, 8 * m.code + n, 0⟩
  | .idiv _ signed t _ => (t.idx 4).map fun n => ⟨0x06, (if signed then 0 else 8) + n, 0⟩
  | .iminmax _ k t _ => (t.idx 6).map fun n => ⟨0x07, 8 * k.code + n, 0⟩
  | .logic _ k _ => some ⟨0x08, k.code, 0⟩
  | .shift _ k _ => some ⟨0x09, k.code, 0⟩
  | .bits _ k _ => some ⟨0x0A, k.code, 0⟩
  | .clmul _ hi wide _ => some ⟨0x0B, (if hi then 1 else 0) + (if wide then 2 else 0), 0⟩
  | .icmp _ k t _ => if t = .b1 then if k.code ≤ 1 then some ⟨0x0C, 0, k.code⟩ else none
    else (t.idx 4).map fun n => ⟨0x0C, n, k.code⟩
  | .plogic _ k _ => some ⟨0x0D, k.code, 0⟩
  | .sel _ t _ => (t.codeTo 13).map (⟨0x0E, ·, 0⟩)
  | .addr _ k _ => some ⟨0x0F, k.code, 0⟩
  | .cvti _ k _ => k.sub.map (⟨0x10, ·, 0⟩)
  | .phi _ t _ => some ⟨0x11, t.code, 0⟩
  | .br _ _ => some ⟨0x12, 0, 0⟩
  | .brc _ _ => some ⟨0x13, 0, 0⟩
  | .brm _ k _ => some ⟨0x14, k.code, 0⟩
  | .join _ _ => some ⟨0x15, 0, 0⟩
  | .call _ t _ => (t.codeTo 10).map (⟨0x16, ·, 0⟩)
  | .calli _ t _ => (t.codeTo 10).map (⟨0x17, ·, 0⟩)
  | .ret _ _ => some ⟨0x18, 0, 0⟩
  | .exit _ _ => some ⟨0x19, 0, 0⟩
  | .setmCtl _ _ => some ⟨0x1A, 0, 0⟩
  | .setmFlags _ _ => some ⟨0x1A, 1, 0⟩
  | .setmEn _ _ => some ⟨0x1A, 2, 0⟩
  | .setmStep _ _ => some ⟨0x1A, 3, 0⟩
  | .setmStepadd _ _ => some ⟨0x1A, 4, 0⟩
  | .setmGuard _ _ => some ⟨0x1A, 5, 0⟩
  | .getmCtl _ _ => some ⟨0x1B, 0, 0⟩
  | .getmStep _ _ => some ⟨0x1B, 1, 0⟩
  | .getmGuard _ _ => some ⟨0x1B, 2, 0⟩
  | .getmGmask _ _ => some ⟨0x1B, 3, 0⟩
  | .rdcycI64 _ _ => some ⟨0x1C, 0, 0⟩
  | .rdcycI32 _ _ => some ⟨0x1C, 1, 0⟩
  | .unreach _ _ => some ⟨0x1D, 0, 0⟩
  | .fadd _ sub t _ => (t.fidx 4).map fun n => ⟨0x20, (if sub then 13 else 5) + n, 0⟩
  | .fmul _ t _ => (t.fidx 4).map fun n => ⟨0x21, 5 + n, 0⟩
  | .ffma _ ms t _ => (t.fidx 4).map fun n => ⟨0x22, (if ms then 13 else 5) + n, 0⟩
  | .fminmax _ k t _ => (t.fidx 4).map fun n => ⟨0x23, 4 * k.code + n, 0⟩
  | .fsign _ k t _ => (t.fidx 4).map fun n => ⟨0x24, 4 * k.code + n, 0⟩
  | .fcmp _ k t _ => (t.fidx 4).map fun n => ⟨0x25, 5 + n, k.code⟩
  | .fclass _ t _ => (t.fidx 4).map fun n => ⟨0x26, 5 + n, 0⟩
  | .fdiv _ t _ => (t.fidx 4).map fun n => ⟨0x27, 5 + n, 0⟩
  | .fsqrt _ t _ => (t.fidx 4).map fun n => ⟨0x28, 5 + n, 0⟩
  | .sfu _ k t _ => (t.fidx 3).map fun n => ⟨0x29, 4 * k.code + n, 0⟩
  | .cvtf _ k _ => k.sub.map (⟨0x2A, ·, 0⟩)
  | .pack _ k _ => some ⟨0x2B, k.code, 0⟩
  | .dot _ k _ => some ⟨0x2C, k.code, 0⟩
  | .shfl _ k _ => some ⟨0x2D, k.code, 0⟩
  | .vote _ k _ => some ⟨0x2E, k.code, 0⟩
  | .voteLevel _ _ => some ⟨0x2E, 4, 0⟩
  | .scan _ k ex _ => some ⟨0x2F, k.code + (if ex then 8 else 0), 0⟩
  | .reduce _ k _ => some ⟨0x30, k.code, 0⟩
  | .matchLanes _ k _ => some ⟨0x31, k.code, 0⟩
  | .lanemaskOwn _ _ => some ⟨0x32, 0, 0⟩
  | .lanemaskBefore _ _ => some ⟨0x32, 1, 0⟩
  | .lanemaskAfter _ _ => some ⟨0x32, 2, 0⟩
  | .lanemaskSeg _ _ => some ⟨0x32, 3, 0⟩
  | .lanemaskWidth _ _ => some ⟨0x32, 4, 0⟩
  | .lanemaskAct _ _ => some ⟨0x32, 5, 0⟩
  | .frnd _ k t _ => (t.fidx 4).map fun n => ⟨0x33, 4 * k.code + n, 0⟩
  | .fscale _ exp t _ => (t.fidx 4).map fun n => ⟨0x34, (if exp then 4 else 0) + n, 0⟩
  | .rndbits _ wide _ => some ⟨0x35, if wide then 1 else 0, 0⟩
  | .ld _ f _ => (f.codes false).map fun p => ⟨0x40, p.1, p.2⟩
  | .st _ f _ => (f.codes true).map fun p => ⟨0x41, p.1, p.2⟩
  | .lds _ f _ => (f.codes false).map fun p => ⟨0x42, p.1, p.2⟩
  | .sts _ f _ => (f.codes true).map fun p => ⟨0x43, p.1, p.2⟩
  | .atom _ o t scope _ => some ⟨0x44, 8 * o.code + t.code, scope.code⟩
  | .atoms _ o t scope _ => some ⟨0x45, 8 * o.code + t.code, scope.code⟩
  | .fenceAcq _ scope _ => some ⟨0x46, 1, scope.code⟩
  | .fenceRel _ scope _ => some ⟨0x46, 2, scope.code⟩
  | .fenceAr _ scope _ => some ⟨0x46, 3, scope.code⟩
  | .fenceSc _ scope _ => some ⟨0x46, 4, scope.code⟩
  | .barSync _ _ => some ⟨0x47, 0, 2⟩
  | .barArrive _ _ => some ⟨0x47, 1, 2⟩
  | .barWait _ _ => some ⟨0x47, 2, 2⟩
  | .barExpect _ _ => some ⟨0x47, 3, 2⟩
  | .barInit _ _ => some ⟨0x47, 4, 2⟩
  | .barState _ _ => some ⟨0x47, 5, 2⟩
  | .barm _ _ => some ⟨0x48, 0, 2⟩
  | .flight _ _ => some ⟨0x49, 0, 5⟩
  | .copy _ k bar scope _ => some ⟨0x4A, k.code + (if bar then 8 else 0), scope.code⟩
  | .gather _ bar scope _ => some ⟨0x50, if bar then 8 else 0, scope.code⟩
  | .scatter _ bar scope _ => some ⟨0x50, if bar then 9 else 1, scope.code⟩
  | .tmap _ sp _ => some ⟨0x4B, if sp then 1 else 0, 0⟩
  | .futTest _ _ => some ⟨0x4C, 0, 0⟩
  | .futWait _ _ => some ⟨0x4C, 1, 0⟩
  | .futStatus _ _ => some ⟨0x4C, 2, 0⟩
  | .futCancel _ _ => some ⟨0x4C, 3, 0⟩
  | .futAll _ _ => some ⟨0x4C, 4, 0⟩
  | .yield _ _ => some ⟨0x4D, 0, 0⟩
  | .pref _ _ => some ⟨0x4E, 0, 0⟩
  | .cacheDemote _ _ => some ⟨0x4F, 0, 0⟩
  | .cacheEvict _ _ => some ⟨0x4F, 1, 0⟩
  | .cacheZero _ _ => some ⟨0x4F, 2, 0⟩
  | .collGroup _ scope _ => some ⟨0x51, 0, scope.code⟩
  | .collRed _ scope _ => some ⟨0x51, 1, scope.code⟩
  | .collBcast _ scope _ => some ⟨0x51, 2, scope.code⟩
  | .collBar _ scope _ => some ⟨0x51, 3, scope.code⟩
  | .fmtb _ _ => some ⟨0x60, 0, 0⟩
  | .fmtbSc _ _ => some ⟨0x60, 1, 0⟩
  | .fmtbSp _ _ => some ⟨0x60, 2, 0⟩
  | .cohort _ _ => some ⟨0x61, 0, 0⟩
  | .cohortClear _ _ => some ⟨0x61, 1, 0⟩
  | .mma _ scope _ => some ⟨0x62, 0, scope.code⟩
  | .mmaSp _ scope _ => some ⟨0x62, 1, scope.code⟩
  | .mmaUf _ scope _ => some ⟨0x62, 2, scope.code⟩
  | .mmaSpec _ scope _ => some ⟨0x62, 4, scope.code⟩
  | .mmaSpecSp _ scope _ => some ⟨0x62, 5, scope.code⟩
  | .mmaSpecUf _ scope _ => some ⟨0x62, 6, scope.code⟩
  | .accZeroF32 _ _ => some ⟨0x63, 0, 0⟩
  | .accZeroI32 _ _ => some ⟨0x63, 1, 0⟩
  | .accLoad _ int scope _ => some ⟨0x63, if int then 3 else 2, scope.code⟩
  | .accStore _ scope _ => some ⟨0x63, 4, scope.code⟩
  | .specCommit _ _ => some ⟨0x64, 0, 0⟩
  | .specDiscard _ _ => some ⟨0x64, 1, 0⟩
  | .unfold _ _ => some ⟨0x65, 0, 0⟩
  | .spbm _ scope _ => some ⟨0x66, 0, scope.code⟩
  | .trap _ _ => some ⟨0x70, 0, 0⟩
  | .tret _ _ => some ⟨0x70, 1, 0⟩
  | .tretSkip _ _ => some ⟨0x70, 3, 0⟩
  | .tmask _ _ => some ⟨0x70, 2, 0⟩
  | .launch _ _ => some ⟨0x71, 0, 0⟩
  | .xctlInv _ _ => some ⟨0x72, 0, 0⟩
  | .xctlPfCore _ _ => some ⟨0x72, 2, 0⟩
  | .xctlPfHall _ _ => some ⟨0x72, 3, 0⟩
  | .xctlPinCore _ _ => some ⟨0x72, 4, 0⟩
  | .xctlPinHall _ _ => some ⟨0x72, 5, 0⟩
  | .xctlUnpinCore _ _ => some ⟨0x72, 6, 0⟩
  | .xctlUnpinHall _ _ => some ⟨0x72, 7, 0⟩
  | .sealOpen _ _ => some ⟨0x73, 0, 0⟩
  | .sealAbsorb _ scope _ => some ⟨0x73, 1, scope.code⟩
  | .sealClose _ _ => some ⟨0x73, 2, 0⟩
  | .sealAbort _ _ => some ⟨0x73, 3, 0⟩
  | .cntCtr _ _ => some ⟨0x74, 0, 0⟩
  | .cntMon _ _ => some ⟨0x74, 1, 0⟩
  | .cutMarkDy _ _ => some ⟨0x75, 0, 5⟩
  | .cutMarkFb _ _ => some ⟨0x75, 1, 7⟩
  | .cutStatus _ _ => some ⟨0x75, 2, 0⟩
  | .rdctxTrap _ _ => some ⟨0x76, 0, 0⟩
  | .rdctxLanes _ _ => some ⟨0x76, 1, 0⟩
  | .rdctxOpnd _ _ => some ⟨0x76, 2, 0⟩
  | .rdctxLaunch _ _ => some ⟨0x76, 3, 0⟩
  | .rdctxEnclave _ _ => some ⟨0x76, 4, 0⟩
  | .rdctxPlace _ _ => some ⟨0x76, 5, 0⟩
  | .reset | .functionTrainingDone .. | .hbmStackFailed .. | .managementClaim .. | .ownershipHandover ..
  | .ownershipAccept .. | .ownershipRefuse .. | .ownershipReclaim | .managementWrite .. | .partitionForm ..
  | .bootKeyReplace .. | .partitionBoot .. | .getCertificate .. | .partitionWayMaskWrite .. | .fabricNumberWrite ..
  | .clockLower .. | .registerWrite .. | .xltInvEnclave .. | .xltInvPages .. | .xltInvPartition .. | .xltInvDone ..
  | .fqBaseWrite .. | .fqHeadWrite .. | .preemptGo .. | .kick .. | .launchDispatch .. | .depReadResume ..
  | .gangPlace .. | .gangRestore .. | .turnStart .. | .turnDeficitExhausted .. | .rakeAck .. | .handlerHoldExpiry ..
  | .launchRetire .. | .hallTlbWalk .. | .movingWaitEnd .. | .faultRecordPost .. | .correctionSearchDone ..
  | .patrolRead .. | .scrubFrame .. | .cleanPoolWaitDone .. | .frameDrainDone .. | .enclaveRelease ..
  | .enclaveThreadInterrupt .. | .engineIssueResume .. | .engineGranuleLand .. | .engineOpComplete ..
  | .yieldResume .. | .translationDone .. | .xctlComplete .. | .ejectHandoverDone .. | .copyBackDone ..
  | .recallDone .. | .landingTimerExpiry .. | .flightRelease .. | .cutCopyDone .. | .cutDrainDone ..
  | .requestFlit .. | .responseFlit .. | .collectiveFlit .. | .teardownFlit .. | .flitRetry .. | .linkPortDown ..
  | .streamKeying .. | .ideStreamFailure .. | .collGroupBuildDone .. | .collGroupRekey .. | .collPeerLost ..
  | .encCreate .. | .encAddpage .. | .encMeasure .. | .encEnter .. | .encExit .. | .encReport .. | .encReportRk ..
  | .encDestroy .. | .encXctlInv .. | .encXctlPfCore .. | .encXctlPfHall .. | .encXctlPinCore ..
  | .encXctlPinHall .. | .encXctlUnpinCore .. | .encXctlUnpinHall .. | .pageOut .. | .pageInClean ..
  | .pageInImage .. | .pageInShare .. | .pageFree .. | .faultResolve .. | .faultKill .. | .riscvLoadStore ..
  | .reservedMajorStub .. | .ideStreamRequest .. | .ideStreamCompletion .. | .tdispBinding ..
  | .spdmGetMeasurements .. => none

/-- The modifiers of the head word (R241); none for what is no Skedizon instruction. -/
def Instr.ctl : Instr → Ctl
  | .nop c _ | .const c _ _ | .iadd c _ _ _ | .isub c _ _ _ | .imul c _ _ _ | .imad c _ _ _ | .idiv c _ _ _
  | .iminmax c _ _ _ | .logic c _ _ | .shift c _ _ | .bits c _ _ | .clmul c _ _ _ | .icmp c _ _ _
  | .plogic c _ _ | .sel c _ _ | .addr c _ _ | .cvti c _ _ | .phi c _ _ | .br c _ | .brc c _ | .brm c _ _
  | .join c _ | .call c _ _ | .calli c _ _ | .ret c _ | .exit c _ | .setmCtl c _ | .setmFlags c _
  | .setmEn c _ | .setmStep c _ | .setmStepadd c _ | .setmGuard c _ | .getmCtl c _ | .getmStep c _
  | .getmGuard c _ | .getmGmask c _ | .rdcycI64 c _ | .rdcycI32 c _ | .unreach c _ | .fadd c _ _ _
  | .fmul c _ _ | .ffma c _ _ _ | .fminmax c _ _ _ | .fsign c _ _ _ | .fcmp c _ _ _ | .fclass c _ _
  | .fdiv c _ _ | .fsqrt c _ _ | .sfu c _ _ _ | .cvtf c _ _ | .pack c _ _ | .dot c _ _ | .shfl c _ _
  | .vote c _ _ | .voteLevel c _ | .scan c _ _ _ | .reduce c _ _ | .matchLanes c _ _ | .lanemaskOwn c _
  | .lanemaskBefore c _ | .lanemaskAfter c _ | .lanemaskSeg c _ | .lanemaskWidth c _ | .lanemaskAct c _
  | .frnd c _ _ _ | .fscale c _ _ _ | .rndbits c _ _ | .ld c _ _ | .st c _ _ | .lds c _ _ | .sts c _ _
  | .atom c _ _ _ _ | .atoms c _ _ _ _ | .fenceAcq c _ _ | .fenceRel c _ _ | .fenceAr c _ _ | .fenceSc c _ _
  | .barSync c _ | .barArrive c _ | .barWait c _ | .barExpect c _ | .barInit c _ | .barState c _ | .barm c _
  | .flight c _ | .copy c _ _ _ _ | .gather c _ _ _ | .scatter c _ _ _ | .tmap c _ _ | .futTest c _
  | .futWait c _ | .futStatus c _ | .futCancel c _ | .futAll c _ | .yield c _ | .pref c _ | .cacheDemote c _
  | .cacheEvict c _ | .cacheZero c _ | .collGroup c _ _ | .collRed c _ _ | .collBcast c _ _ | .collBar c _ _
  | .fmtb c _ | .fmtbSc c _ | .fmtbSp c _ | .cohort c _ | .cohortClear c _ | .mma c _ _ | .mmaSp c _ _
  | .mmaUf c _ _ | .mmaSpec c _ _ | .mmaSpecSp c _ _ | .mmaSpecUf c _ _ | .accZeroF32 c _ | .accZeroI32 c _
  | .accLoad c _ _ _ | .accStore c _ _ | .specCommit c _ | .specDiscard c _ | .unfold c _ | .spbm c _ _
  | .trap c _ | .tret c _ | .tretSkip c _ | .tmask c _ | .launch c _ | .xctlInv c _ | .xctlPfCore c _
  | .xctlPfHall c _ | .xctlPinCore c _ | .xctlPinHall c _ | .xctlUnpinCore c _ | .xctlUnpinHall c _
  | .sealOpen c _ | .sealAbsorb c _ _ | .sealClose c _ | .sealAbort c _ | .cntCtr c _ | .cntMon c _
  | .cutMarkDy c _ | .cutMarkFb c _ | .cutStatus c _ | .rdctxTrap c _ | .rdctxLanes c _ | .rdctxOpnd c _
  | .rdctxLaunch c _ | .rdctxEnclave c _ | .rdctxPlace c _ => c
  | .reset | .functionTrainingDone .. | .hbmStackFailed .. | .managementClaim .. | .ownershipHandover ..
  | .ownershipAccept .. | .ownershipRefuse .. | .ownershipReclaim | .managementWrite .. | .partitionForm ..
  | .bootKeyReplace .. | .partitionBoot .. | .getCertificate .. | .partitionWayMaskWrite .. | .fabricNumberWrite ..
  | .clockLower .. | .registerWrite .. | .xltInvEnclave .. | .xltInvPages .. | .xltInvPartition .. | .xltInvDone ..
  | .fqBaseWrite .. | .fqHeadWrite .. | .preemptGo .. | .kick .. | .launchDispatch .. | .depReadResume ..
  | .gangPlace .. | .gangRestore .. | .turnStart .. | .turnDeficitExhausted .. | .rakeAck .. | .handlerHoldExpiry ..
  | .launchRetire .. | .hallTlbWalk .. | .movingWaitEnd .. | .faultRecordPost .. | .correctionSearchDone ..
  | .patrolRead .. | .scrubFrame .. | .cleanPoolWaitDone .. | .frameDrainDone .. | .enclaveRelease ..
  | .enclaveThreadInterrupt .. | .engineIssueResume .. | .engineGranuleLand .. | .engineOpComplete ..
  | .yieldResume .. | .translationDone .. | .xctlComplete .. | .ejectHandoverDone .. | .copyBackDone ..
  | .recallDone .. | .landingTimerExpiry .. | .flightRelease .. | .cutCopyDone .. | .cutDrainDone ..
  | .requestFlit .. | .responseFlit .. | .collectiveFlit .. | .teardownFlit .. | .flitRetry .. | .linkPortDown ..
  | .streamKeying .. | .ideStreamFailure .. | .collGroupBuildDone .. | .collGroupRekey .. | .collPeerLost ..
  | .encCreate .. | .encAddpage .. | .encMeasure .. | .encEnter .. | .encExit .. | .encReport .. | .encReportRk ..
  | .encDestroy .. | .encXctlInv .. | .encXctlPfCore .. | .encXctlPfHall .. | .encXctlPinCore ..
  | .encXctlPinHall .. | .encXctlUnpinCore .. | .encXctlUnpinHall .. | .pageOut .. | .pageInClean ..
  | .pageInImage .. | .pageInShare .. | .pageFree .. | .faultResolve .. | .faultKill .. | .riscvLoadStore ..
  | .reservedMajorStub .. | .ideStreamRequest .. | .ideStreamCompletion .. | .tdispBinding ..
  | .spdmGetMeasurements .. => ⟨false, 0, 0, 0⟩

/-- The operand words (R242); none for what is no Skedizon instruction. -/
def Instr.ops : Instr → List Opnd
  | .nop _ ops | .const _ _ ops | .iadd _ _ _ ops | .isub _ _ _ ops | .imul _ _ _ ops | .imad _ _ _ ops
  | .idiv _ _ _ ops | .iminmax _ _ _ ops | .logic _ _ ops | .shift _ _ ops | .bits _ _ ops | .clmul _ _ _ ops
  | .icmp _ _ _ ops | .plogic _ _ ops | .sel _ _ ops | .addr _ _ ops | .cvti _ _ ops | .phi _ _ ops
  | .br _ ops | .brc _ ops | .brm _ _ ops | .join _ ops | .call _ _ ops | .calli _ _ ops | .ret _ ops
  | .exit _ ops | .setmCtl _ ops | .setmFlags _ ops | .setmEn _ ops | .setmStep _ ops | .setmStepadd _ ops
  | .setmGuard _ ops | .getmCtl _ ops | .getmStep _ ops | .getmGuard _ ops | .getmGmask _ ops
  | .rdcycI64 _ ops | .rdcycI32 _ ops | .unreach _ ops | .fadd _ _ _ ops | .fmul _ _ ops | .ffma _ _ _ ops
  | .fminmax _ _ _ ops | .fsign _ _ _ ops | .fcmp _ _ _ ops | .fclass _ _ ops | .fdiv _ _ ops | .fsqrt _ _ ops
  | .sfu _ _ _ ops | .cvtf _ _ ops | .pack _ _ ops | .dot _ _ ops | .shfl _ _ ops | .vote _ _ ops
  | .voteLevel _ ops | .scan _ _ _ ops | .reduce _ _ ops | .matchLanes _ _ ops | .lanemaskOwn _ ops
  | .lanemaskBefore _ ops | .lanemaskAfter _ ops | .lanemaskSeg _ ops | .lanemaskWidth _ ops
  | .lanemaskAct _ ops | .frnd _ _ _ ops | .fscale _ _ _ ops | .rndbits _ _ ops | .ld _ _ ops | .st _ _ ops
  | .lds _ _ ops | .sts _ _ ops | .atom _ _ _ _ ops | .atoms _ _ _ _ ops | .fenceAcq _ _ ops
  | .fenceRel _ _ ops | .fenceAr _ _ ops | .fenceSc _ _ ops | .barSync _ ops | .barArrive _ ops
  | .barWait _ ops | .barExpect _ ops | .barInit _ ops | .barState _ ops | .barm _ ops | .flight _ ops
  | .copy _ _ _ _ ops | .gather _ _ _ ops | .scatter _ _ _ ops | .tmap _ _ ops | .futTest _ ops
  | .futWait _ ops | .futStatus _ ops | .futCancel _ ops | .futAll _ ops | .yield _ ops | .pref _ ops
  | .cacheDemote _ ops | .cacheEvict _ ops | .cacheZero _ ops | .collGroup _ _ ops | .collRed _ _ ops
  | .collBcast _ _ ops | .collBar _ _ ops | .fmtb _ ops | .fmtbSc _ ops | .fmtbSp _ ops | .cohort _ ops
  | .cohortClear _ ops | .mma _ _ ops | .mmaSp _ _ ops | .mmaUf _ _ ops | .mmaSpec _ _ ops
  | .mmaSpecSp _ _ ops | .mmaSpecUf _ _ ops | .accZeroF32 _ ops | .accZeroI32 _ ops | .accLoad _ _ _ ops
  | .accStore _ _ ops | .specCommit _ ops | .specDiscard _ ops | .unfold _ ops | .spbm _ _ ops | .trap _ ops
  | .tret _ ops | .tretSkip _ ops | .tmask _ ops | .launch _ ops | .xctlInv _ ops | .xctlPfCore _ ops
  | .xctlPfHall _ ops | .xctlPinCore _ ops | .xctlPinHall _ ops | .xctlUnpinCore _ ops | .xctlUnpinHall _ ops
  | .sealOpen _ ops | .sealAbsorb _ _ ops | .sealClose _ ops | .sealAbort _ ops | .cntCtr _ ops
  | .cntMon _ ops | .cutMarkDy _ ops | .cutMarkFb _ ops | .cutStatus _ ops | .rdctxTrap _ ops
  | .rdctxLanes _ ops | .rdctxOpnd _ ops | .rdctxLaunch _ ops | .rdctxEnclave _ ops | .rdctxPlace _ ops => ops
  | .reset | .functionTrainingDone .. | .hbmStackFailed .. | .managementClaim .. | .ownershipHandover ..
  | .ownershipAccept .. | .ownershipRefuse .. | .ownershipReclaim | .managementWrite .. | .partitionForm ..
  | .bootKeyReplace .. | .partitionBoot .. | .getCertificate .. | .partitionWayMaskWrite .. | .fabricNumberWrite ..
  | .clockLower .. | .registerWrite .. | .xltInvEnclave .. | .xltInvPages .. | .xltInvPartition .. | .xltInvDone ..
  | .fqBaseWrite .. | .fqHeadWrite .. | .preemptGo .. | .kick .. | .launchDispatch .. | .depReadResume ..
  | .gangPlace .. | .gangRestore .. | .turnStart .. | .turnDeficitExhausted .. | .rakeAck .. | .handlerHoldExpiry ..
  | .launchRetire .. | .hallTlbWalk .. | .movingWaitEnd .. | .faultRecordPost .. | .correctionSearchDone ..
  | .patrolRead .. | .scrubFrame .. | .cleanPoolWaitDone .. | .frameDrainDone .. | .enclaveRelease ..
  | .enclaveThreadInterrupt .. | .engineIssueResume .. | .engineGranuleLand .. | .engineOpComplete ..
  | .yieldResume .. | .translationDone .. | .xctlComplete .. | .ejectHandoverDone .. | .copyBackDone ..
  | .recallDone .. | .landingTimerExpiry .. | .flightRelease .. | .cutCopyDone .. | .cutDrainDone ..
  | .requestFlit .. | .responseFlit .. | .collectiveFlit .. | .teardownFlit .. | .flitRetry .. | .linkPortDown ..
  | .streamKeying .. | .ideStreamFailure .. | .collGroupBuildDone .. | .collGroupRekey .. | .collPeerLost ..
  | .encCreate .. | .encAddpage .. | .encMeasure .. | .encEnter .. | .encExit .. | .encReport .. | .encReportRk ..
  | .encDestroy .. | .encXctlInv .. | .encXctlPfCore .. | .encXctlPfHall .. | .encXctlPinCore ..
  | .encXctlPinHall .. | .encXctlUnpinCore .. | .encXctlUnpinHall .. | .pageOut .. | .pageInClean ..
  | .pageInImage .. | .pageInShare .. | .pageFree .. | .faultResolve .. | .faultKill .. | .riscvLoadStore ..
  | .reservedMajorStub .. | .ideStreamRequest .. | .ideStreamCompletion .. | .tdispBinding ..
  | .spdmGetMeasurements .. => []

/-- The instruction of codes (R264, R271, R304, R328 to R350, R353, R375), or `none` where the SUB is unassigned or
MOD lies outside the major's range (R257). -/
def Instr.ofKey (q : Key) (c : Ctl) (ops : List Opnd) : Option Instr :=
  let n := q.sub
  let plain : Option Instr → Option Instr := fun i => if q.mod = 0 then i else none
  let one : Instr → Option Instr := fun i => if n = 0 ∧ q.mod = 0 then some i else none
  let inScope : (Scope → Option Instr) → Option Instr := (Scope.ofCode q.mod).bind
  match q.maj with
  | 0x00 => one (.nop c ops)
  | 0x01 => plain <| (Ty.ofCodeTo 10 n).map fun t => .const c t ops
  | 0x02 => plain <| (AddMode.ofCode (n / 8)).bind fun m => (Ty.ofIdx m.top (n % 8)).map fun t => .iadd c m t ops
  | 0x03 => plain <| (AddMode.ofCode (n / 8)).bind fun m => (Ty.ofIdx m.top (n % 8)).map fun t => .isub c m t ops
  | 0x04 => plain <| (MulMode.ofCode (n / 8)).bind fun m => (Ty.ofIdx m.top (n % 8)).map fun t => .imul c m t ops
  | 0x05 => plain <| (MadMode.ofCode (n / 8)).bind fun m => (Ty.ofIdx 4 (n % 8)).map fun t => .imad c m t ops
  | 0x06 => plain <|
      if n < 8 then (Ty.ofIdx 4 n).map fun t => .idiv c true t ops
      else if n < 16 then (Ty.ofIdx 4 (n - 8)).map fun t => .idiv c false t ops
      else none
  | 0x07 => plain <| (MinMax.ofCode (n / 8)).bind fun k => (Ty.ofIdx 6 (n % 8)).map fun t => .iminmax c k t ops
  | 0x08 => plain <| (LogicKind.ofCode n).map fun k => .logic c k ops
  | 0x09 => plain <| (ShiftKind.ofCode n).map fun k => .shift c k ops
  | 0x0A => plain <| (BitsKind.ofCode n).map fun k => .bits c k ops
  | 0x0B => plain <| if n < 4 then some (.clmul c (n % 2 == 1) (n / 2 == 1) ops) else none
  | 0x0C => (IntCond.ofCode q.mod).bind fun k =>
      if n = 0 then if q.mod ≤ 1 then some (.icmp c k .b1 ops) else none
      else (Ty.ofIdx 4 n).map fun t => .icmp c k t ops
  | 0x0D => plain <| (LogicKind.ofCode n).map fun k => .plogic c k ops
  | 0x0E => plain <| (Ty.ofCodeTo 13 n).map fun t => .sel c t ops
  | 0x0F => plain <| (AddrKind.ofCode n).map fun k => .addr c k ops
  | 0x10 => plain <| (CvtiKind.ofSub n).map fun k => .cvti c k ops
  | 0x11 => plain <| (Ty.ofCode n).map fun t => .phi c t ops
  | 0x12 => one (.br c ops)
  | 0x13 => one (.brc c ops)
  | 0x14 => plain <| (BrmKind.ofCode n).map fun k => .brm c k ops
  | 0x15 => one (.join c ops)
  | 0x16 => plain <| (Ty.ofCodeTo 10 n).map fun t => .call c t ops
  | 0x17 => plain <| (Ty.ofCodeTo 10 n).map fun t => .calli c t ops
  | 0x18 => one (.ret c ops)
  | 0x19 => one (.exit c ops)
  | 0x1A => plain <|
      match n with
      | 0 => some (.setmCtl c ops) | 1 => some (.setmFlags c ops) | 2 => some (.setmEn c ops)
      | 3 => some (.setmStep c ops) | 4 => some (.setmStepadd c ops) | 5 => some (.setmGuard c ops) | _ => none
  | 0x1B => plain <|
      match n with
      | 0 => some (.getmCtl c ops) | 1 => some (.getmStep c ops) | 2 => some (.getmGuard c ops)
      | 3 => some (.getmGmask c ops) | _ => none
  | 0x1C => plain <| match n with | 0 => some (.rdcycI64 c ops) | 1 => some (.rdcycI32 c ops) | _ => none
  | 0x1D => one (.unreach c ops)
  | 0x20 => plain <|
      if n < 9 then (if 5 ≤ n then Ty.ofFidx 4 (n - 5) else none).map fun t => .fadd c false t ops
      else (if 13 ≤ n then Ty.ofFidx 4 (n - 13) else none).map fun t => .fadd c true t ops
  | 0x21 => plain <| (if 5 ≤ n then Ty.ofFidx 4 (n - 5) else none).map fun t => .fmul c t ops
  | 0x22 => plain <|
      if n < 9 then (if 5 ≤ n then Ty.ofFidx 4 (n - 5) else none).map fun t => .ffma c false t ops
      else (if 13 ≤ n then Ty.ofFidx 4 (n - 13) else none).map fun t => .ffma c true t ops
  | 0x23 => plain <| (FMinMax.ofCode (n / 4)).bind fun k => (Ty.ofFidx 4 (n % 4)).map fun t => .fminmax c k t ops
  | 0x24 => plain <| (FSignKind.ofCode (n / 4)).bind fun k => (Ty.ofFidx 4 (n % 4)).map fun t => .fsign c k t ops
  | 0x25 => (FCond.ofCode q.mod).bind fun k =>
      (if 5 ≤ n then Ty.ofFidx 4 (n - 5) else none).map fun t => .fcmp c k t ops
  | 0x26 => plain <| (if 5 ≤ n then Ty.ofFidx 4 (n - 5) else none).map fun t => .fclass c t ops
  | 0x27 => plain <| (if 5 ≤ n then Ty.ofFidx 4 (n - 5) else none).map fun t => .fdiv c t ops
  | 0x28 => plain <| (if 5 ≤ n then Ty.ofFidx 4 (n - 5) else none).map fun t => .fsqrt c t ops
  | 0x29 => plain <| (SfuKind.ofCode (n / 4)).bind fun k => (Ty.ofFidx 3 (n % 4)).map fun t => .sfu c k t ops
  | 0x2A => plain <| (CvtfKind.ofSub n).map fun k => .cvtf c k ops
  | 0x2B => plain <| (PackKind.ofCode n).map fun k => .pack c k ops
  | 0x2C => plain <| (DotKind.ofCode n).map fun k => .dot c k ops
  | 0x2D => plain <| (ShflKind.ofCode n).map fun k => .shfl c k ops
  | 0x2E => plain <| if n = 4 then some (.voteLevel c ops) else (VoteKind.ofCode n).map fun k => .vote c k ops
  | 0x2F => plain <| if n < 16 then (ScanKind.ofCode (n % 8)).map fun k => .scan c k (n / 8 == 1) ops else none
  | 0x30 => plain <| (ScanKind.ofCode n).map fun k => .reduce c k ops
  | 0x31 => plain <| (MatchKind.ofCode n).map fun k => .matchLanes c k ops
  | 0x32 => plain <|
      match n with
      | 0 => some (.lanemaskOwn c ops) | 1 => some (.lanemaskBefore c ops) | 2 => some (.lanemaskAfter c ops)
      | 3 => some (.lanemaskSeg c ops) | 4 => some (.lanemaskWidth c ops) | 5 => some (.lanemaskAct c ops)
      | _ => none
  | 0x33 => plain <| (FrndKind.ofCode (n / 4)).bind fun k => (Ty.ofFidx 4 (n % 4)).map fun t => .frnd c k t ops
  | 0x34 => plain <| if n < 8 then (Ty.ofFidx 4 (n % 4)).map fun t => .fscale c (n / 4 == 1) t ops else none
  | 0x35 => plain <| match n with | 0 => some (.rndbits c false ops) | 1 => some (.rndbits c true ops) | _ => none
  | 0x40 => (MemForm.ofCodes false n q.mod).map fun f => .ld c f ops
  | 0x41 => (MemForm.ofCodes true n q.mod).map fun f => .st c f ops
  | 0x42 => (MemForm.ofCodes false n q.mod).map fun f => .lds c f ops
  | 0x43 => (MemForm.ofCodes true n q.mod).map fun f => .sts c f ops
  | 0x44 => inScope fun s =>
      (AtomOrder.ofCode (n / 8)).bind fun o => (AtomTy.ofCode (n % 8)).map fun t => .atom c o t s ops
  | 0x45 => inScope fun s =>
      (AtomOrder.ofCode (n / 8)).bind fun o => (AtomTy.ofCode (n % 8)).map fun t => .atoms c o t s ops
  | 0x46 => inScope fun s =>
      match n with
      | 1 => some (.fenceAcq c s ops) | 2 => some (.fenceRel c s ops) | 3 => some (.fenceAr c s ops)
      | 4 => some (.fenceSc c s ops) | _ => none
  | 0x47 =>
      if q.mod = 2 then
        match n with
        | 0 => some (.barSync c ops) | 1 => some (.barArrive c ops) | 2 => some (.barWait c ops)
        | 3 => some (.barExpect c ops) | 4 => some (.barInit c ops) | 5 => some (.barState c ops) | _ => none
      else none
  | 0x48 => if n = 0 ∧ q.mod = 2 then some (.barm c ops) else none
  | 0x49 => if n = 0 ∧ q.mod = 5 then some (.flight c ops) else none
  | 0x4A => inScope fun s =>
      if n < 16 then (CopyKind.ofCode (n % 8)).map fun k => .copy c k (n / 8 == 1) s ops else none
  | 0x4B => plain <| match n with | 0 => some (.tmap c false ops) | 1 => some (.tmap c true ops) | _ => none
  | 0x4C => plain <|
      match n with
      | 0 => some (.futTest c ops) | 1 => some (.futWait c ops) | 2 => some (.futStatus c ops)
      | 3 => some (.futCancel c ops) | 4 => some (.futAll c ops) | _ => none
  | 0x4D => one (.yield c ops)
  | 0x4E => one (.pref c ops)
  | 0x4F => plain <|
      match n with
      | 0 => some (.cacheDemote c ops) | 1 => some (.cacheEvict c ops) | 2 => some (.cacheZero c ops) | _ => none
  | 0x50 => inScope fun s =>
      match n with
      | 0 => some (.gather c false s ops) | 1 => some (.scatter c false s ops)
      | 8 => some (.gather c true s ops) | 9 => some (.scatter c true s ops) | _ => none
  | 0x51 => inScope fun s =>
      match n with
      | 0 => some (.collGroup c s ops) | 1 => some (.collRed c s ops) | 2 => some (.collBcast c s ops)
      | 3 => some (.collBar c s ops) | _ => none
  | 0x60 => plain <|
      match n with | 0 => some (.fmtb c ops) | 1 => some (.fmtbSc c ops) | 2 => some (.fmtbSp c ops) | _ => none
  | 0x61 => plain <| match n with | 0 => some (.cohort c ops) | 1 => some (.cohortClear c ops) | _ => none
  | 0x62 => inScope fun s =>
      match n with
      | 0 => some (.mma c s ops) | 1 => some (.mmaSp c s ops) | 2 => some (.mmaUf c s ops)
      | 4 => some (.mmaSpec c s ops) | 5 => some (.mmaSpecSp c s ops) | 6 => some (.mmaSpecUf c s ops)
      | _ => none
  | 0x63 =>
      match n with
      | 0 => plain (some (.accZeroF32 c ops)) | 1 => plain (some (.accZeroI32 c ops))
      | 2 => inScope fun s => some (.accLoad c false s ops)
      | 3 => inScope fun s => some (.accLoad c true s ops)
      | 4 => inScope fun s => some (.accStore c s ops)
      | _ => none
  | 0x64 => plain <| match n with | 0 => some (.specCommit c ops) | 1 => some (.specDiscard c ops) | _ => none
  | 0x65 => one (.unfold c ops)
  | 0x66 => inScope fun s => if n = 0 then some (.spbm c s ops) else none
  | 0x70 => plain <|
      match n with
      | 0 => some (.trap c ops) | 1 => some (.tret c ops) | 2 => some (.tmask c ops) | 3 => some (.tretSkip c ops)
      | _ => none
  | 0x71 => one (.launch c ops)
  | 0x72 => plain <|
      match n with
      | 0 => some (.xctlInv c ops) | 2 => some (.xctlPfCore c ops) | 3 => some (.xctlPfHall c ops)
      | 4 => some (.xctlPinCore c ops) | 5 => some (.xctlPinHall c ops) | 6 => some (.xctlUnpinCore c ops)
      | 7 => some (.xctlUnpinHall c ops) | _ => none
  | 0x73 =>
      match n with
      | 0 => plain (some (.sealOpen c ops)) | 1 => inScope fun s => some (.sealAbsorb c s ops)
      | 2 => plain (some (.sealClose c ops)) | 3 => plain (some (.sealAbort c ops)) | _ => none
  | 0x74 => plain <| match n with | 0 => some (.cntCtr c ops) | 1 => some (.cntMon c ops) | _ => none
  | 0x75 =>
      if n = 0 ∧ q.mod = 5 then some (.cutMarkDy c ops)
      else if n = 1 ∧ q.mod = 7 then some (.cutMarkFb c ops)
      else if n = 2 ∧ q.mod = 0 then some (.cutStatus c ops)
      else none
  | 0x76 => plain <|
      match n with
      | 0 => some (.rdctxTrap c ops) | 1 => some (.rdctxLanes c ops) | 2 => some (.rdctxOpnd c ops)
      | 3 => some (.rdctxLaunch c ops) | 4 => some (.rdctxEnclave c ops) | 5 => some (.rdctxPlace c ops)
      | _ => none
  | _ => none

/-- Is the major assigned in 0x00 to 0x77 (R264)? -/
def majAssigned (maj : Nat) : Bool :=
  decide (maj ≤ 0x1D) || (decide (0x20 ≤ maj) && decide (maj ≤ 0x35)) ||
  (decide (0x40 ≤ maj) && decide (maj ≤ 0x51)) || (decide (0x60 ≤ maj) && decide (maj ≤ 0x66)) ||
  (decide (0x70 ≤ maj) && decide (maj ≤ 0x76))

/-- A MOD that the major and SUB accept (R257, R327, R353, R375). -/
def goodMod (maj sub : Nat) : Nat :=
  match maj with
  | 0x47 => 2 | 0x48 => 2 | 0x49 => 5
  | 0x75 => if sub = 0 then 5 else if sub = 1 then 7 else 0
  | _ => 0

/-! Shapes. -/

/-- What an operand position accepts (R246, R249, R250). -/
inductive Pos where
  /-- One type. -/
  | ty (t : Ty)
  /-- A value of one of the types, independent of the other positions. -/
  | any (ts : List Ty)
  /-- The common type of the form's positions of this kind, one of the list (R269). -/
  | same (ts : List Ty)
  /-- A 64-bit slot that takes types 0 to 10 (R253, R293). -/
  | slot
  /-- An immediate only, of the range. -/
  | imm (lo hi : Int)
  /-- An immediate only, of the list. -/
  | immOf (vs : List Int)
  /-- An immediate or a long literal of the type (R272, R285). -/
  | const (t : Ty)
  /-- A branch target (R254). -/
  | target
  /-- A table index (R255). -/
  | table
  deriving DecidableEq, Repr

/-- The type of a result (R246). -/
inductive Res where
  | ty (t : Ty)
  /-- The common type of the `same` positions (R269). -/
  | same
  /-- By the type of the first operand. -/
  | by (ps : List (Ty × Ty))
  deriving DecidableEq, Repr

/-- The shape of a form: fixed positions, a position that repeats from `least` to `most` times, the results in order,
the NDEF values allowed, and whether the form takes a guard and a merge operand. -/
structure Shape where
  pos : List Pos
  rest : Pos
  least : Nat
  most : Nat
  res : List Res
  ndefs : List Nat
  guardable : Bool
  merge : Bool
  deriving DecidableEq, Repr

/-- A shape with a fixed operand count that defines all its results, guardable with merge. -/
def Shape.fixed (pos : List Pos) (res : List Res) : Shape := ⟨pos, .target, 0, 0, res, [res.length], true, true⟩
/-- The same, unguardable. -/
def Shape.bare (pos : List Pos) (res : List Res) : Shape := ⟨pos, .target, 0, 0, res, [res.length], false, false⟩
/-- A shape of one type throughout. -/
def Shape.uni (n : Nat) (t : Ty) : Shape := .fixed (List.replicate n (.ty t)) [.ty t]

/-- The integer types. -/
def intTys : List Ty := [.i8, .i16, .i32, .i64]
/-- The integer and packed types. -/
def wordTys : List Ty := [.i8, .i16, .i32, .i64, .p8x4, .p16x2]
/-- The floating types. -/
def floatTys : List Ty := [.f16, .bf16, .f32, .f64]
/-- The types of codes 0 to 10. -/
def plainTys : List Ty := [.b1, .i8, .i16, .i32, .i64, .f16, .bf16, .f32, .f64, .p8x4, .p16x2]
/-- The types of codes 0 to 14. -/
def allTys : List Ty := plainTys ++ [.fut, .tmap, .fmtb, .acc]

/-- The immediate in an operand word, if it is one. -/
def Opnd.immVal : Opnd → Option Int
  | .imm v => some v.toInt
  | .val .. | .special .. | .target _ | .lit1 _ | .lit2 .. | .table _ => none

/-- The op words of a memory type (R334). -/
def AtomTy.opWords : AtomTy → List Int
  | .i32 | .i64 => [0, 1, 2, 3, 4, 5, 6, 7, 8, 9, 13, 14]
  | .i8 | .i16 => [0, 1, 2, 3, 4, 5, 6, 7, 8, 9]
  | .f32 | .f64 | .bf16x2 | .f16x2 => [8, 10, 11, 12]

/-- The op words of `coll.red` (R350): the kind in bits 3 to 0, the type in bits 7 to 4. -/
def collOpWords : List Int :=
  [0x00, 0x01, 0x02, 0x03, 0x04, 0x05, 0x10, 0x11, 0x12, 0x13, 0x14, 0x15, 0x20, 0x21, 0x22, 0x30, 0x31, 0x32,
   0x40, 0x41, 0x42, 0x50, 0x51, 0x52]

/-- The scale immediates of ADDR (R285). -/
def addrScales : List Int := [1, 2, 4, 8, 16, 32, 64, 128]
/-- The segment widths of SHFL and LANEMASK.SEG (R317, R322). -/
def segWidths : List Int := [1, 2, 4, 8, 16, 32, 64]

/-- The shape of an ATOM or ATOMS form (R333, R334): the op word decides the operand count. -/
def atomShape (addr : Ty) (t : AtomTy) (ops : List Opnd) : Shape :=
  let vals := if ops.head?.bind Opnd.immVal = some 9 then 2 else 1
  ⟨[.immOf t.opWords, .ty addr] ++ List.replicate vals (.ty t.ty), .target, 0, 0, [.ty t.ty], [0, 1], true, true⟩

/-- The shape of a load form (R328). -/
def loadShape (addr : Ty) : MemForm → Shape
  | .plain t | .rlx t _ | .sync t _ => .fixed [.ty addr] [.ty t]
  | .v2 => .fixed [.ty addr] [.ty .i64, .ty .i64]
  | .n4 | .n2 => .fixed [.ty addr] [.ty .i8]

/-- The shape of a store form (R328, R331). -/
def storeShape (addr : Ty) : MemForm → Shape
  | .plain t | .rlx t _ | .sync t _ => .fixed [.ty addr, .ty t] []
  | .v2 => .fixed [.ty addr, .ty .i64, .ty .i64] []
  | .n4 => .fixed [.ty addr, .ty .i8, .imm 0 1] []
  | .n2 => .fixed [.ty addr, .ty .i8, .imm 0 3] []

/-- The shape of a COPY form (R341). -/
def copyShape (k : CopyKind) (bar : Bool) : Shape :=
  let b : List Pos := if bar then [.ty .i32] else []
  let lin : Ty → Ty → Shape := fun d s => .fixed ([.ty d, .ty s, .ty .i32] ++ b) [.ty .fut]
  match k with
  | .g2s => lin .i32 .i64
  | .s2g => lin .i64 .i32
  | .g2g => lin .i64 .i64
  | .s2s => lin .i32 .i32
  | .tsrc | .tdst =>
      ⟨[.ty .tmap, .ty .tmap] ++ b, .ty .i32, 0, if bar then 4 else 5, [.ty .fut], [1], true, true⟩

/-- The shape of a LOGIC form over positions of one kind (R278, R283). -/
def logicShape (x : Pos) (r : Res) : LogicKind → Shape
  | .and | .or | .xor | .andn => .fixed [x, x] [r]
  | .not => .fixed [x] [r]
  | .tbl3 => .fixed [x, x, x, .imm 0 255] [r]

/-- The shape of an instruction's form (R246). What is no Skedizon instruction has the empty shape. -/
def Instr.shape : Instr → Shape
  | .nop .. => .fixed [] []
  | .const _ t _ => .fixed [.const t] [.ty t]
  | .iadd _ m t _ | .isub _ m t _ =>
      match m with
      | .cy => .fixed [.ty t, .ty t, .ty .b1] [.ty t, .ty .b1]
      | .wrap | .ss | .us => .uni 2 t
  | .imul _ _ t _ => .uni 2 t
  | .imad _ _ t _ => .uni 3 t
  | .idiv _ _ t _ => ⟨[.ty t, .ty t], .target, 0, 0, [.ty t, .ty t], [1, 2], true, true⟩
  | .iminmax _ _ t _ => .uni 2 t
  | .logic _ k _ => logicShape (.same wordTys) .same k
  | .shift .. => .fixed [.same wordTys, .ty .i32] [.same]
  | .bits _ k _ =>
      match k with
      | .popc | .clz | .ctz => .fixed [.same intTys] [.ty .i32]
      | .brev => .fixed [.same intTys] [.same]
      | .extz | .exts => .fixed [.same intTys, .ty .i32, .ty .i32] [.same]
      | .ins => .fixed [.same intTys, .same intTys, .ty .i32, .ty .i32] [.same]
  | .clmul _ _ wide _ => .uni 2 (if wide then .i64 else .i32)
  | .icmp _ _ t _ => .fixed [.ty t, .ty t] [.ty .b1]
  | .plogic _ k _ => logicShape (.ty .b1) (.ty .b1) k
  | .sel _ t _ => .fixed [.ty .b1, .ty t, .ty t] [.ty t]
  | .addr _ k _ =>
      match k with
      | .sx | .zx => .fixed [.ty .i64, .ty .i32, .immOf addrScales, .const .i64] [.ty .i64]
      | .i64 => .fixed [.ty .i64, .ty .i64, .immOf addrScales, .const .i64] [.ty .i64]
      | .sp => .fixed [.ty .i32, .ty .i32, .immOf addrScales, .const .i32] [.ty .i32]
      | .gw => .fixed [.ty .i32, .ty .i32] [.ty .i32]
  | .cvti _ k _ =>
      match k with
      | .zx t | .sx t | .ss t | .uu t => .fixed [.any wordTys] [.ty t]
      | .toB1 => .fixed [.any intTys] [.ty .b1]
      | .fromB t => .fixed [.ty .b1] [.ty t]
      | .p8x4 => .fixed [.any [.i32, .p8x4, .p16x2]] [.ty .p8x4]
      | .p16x2 => .fixed [.any [.i32, .p8x4, .p16x2]] [.ty .p16x2]
  | .phi _ t _ => ⟨[], .ty t, 2, 7, [.ty t], [1], false, false⟩
  | .br .. => .bare [.target] []
  | .brc .. => .bare [.ty .b1, .target] []
  | .brm _ k _ =>
      match k with
      | .one => .bare [.ty .b1, .target] []
      | .two => .bare [.ty .b1, .target, .ty .b1, .target] []
      | .three => .bare [.ty .b1, .target, .ty .b1, .target, .ty .b1, .target] []
      | .mask => .bare [.ty .i32, .target, .target, .target, .target] []
  | .join .. => .bare [.table] []
  | .call _ t _ => ⟨[.table], .slot, 0, 6, [.ty t, .ty t, .ty t], if t = .b1 then [0, 1, 2, 3] else [1, 2, 3],
      false, false⟩
  | .calli _ t _ => ⟨[.ty .i32], .slot, 0, 6, [.ty t, .ty t, .ty t], if t = .b1 then [0, 1, 2, 3] else [1, 2, 3],
      false, false⟩
  | .ret .. => ⟨[], .slot, 0, 3, [], [0], false, false⟩
  | .exit .. => .bare [] []
  | .setmCtl .. | .setmFlags .. | .setmEn .. => .bare [.ty .i32, .ty .i32] []
  | .setmStep .. | .setmStepadd .. => .bare [.ty .i32] []
  | .setmGuard .. => .bare [.ty .b1] []
  | .getmCtl .. | .getmStep .. => .fixed [] [.ty .i32]
  | .getmGuard .. => .fixed [] [.ty .b1]
  | .getmGmask .. => .fixed [] [.ty .i64]
  | .rdcycI64 .. => .bare [] [.ty .i64]
  | .rdcycI32 .. => .bare [] [.ty .i32]
  | .unreach .. => .bare [] []
  | .fadd _ _ t _ | .fmul _ t _ | .fminmax _ _ t _ | .fdiv _ t _ => .uni 2 t
  | .ffma _ _ t _ => .uni 3 t
  | .fsign _ k t _ =>
      match k with
      | .abs | .neg => .uni 1 t
      | .copysign | .xorsign => .uni 2 t
  | .fcmp _ _ t _ => .fixed [.ty t, .ty t] [.ty .b1]
  | .fclass _ t _ => .fixed [.ty t] [.ty .i32]
  | .fsqrt _ t _ | .sfu _ _ t _ => .uni 1 t
  | .cvtf _ k _ =>
      match k with
      | .toF t => .fixed [.any floatTys] [.ty t]
      | .e8m10 => .fixed [.any floatTys] [.ty .f32]
      | .toNarrow _ => .fixed [.any floatTys] [.ty .i8]
      | .fromNarrow _ => .fixed [.ty .i8] [.ty .f32]
      | .s32 | .u32 => .fixed [.any floatTys] [.ty .i32]
      | .s64 | .u64 => .fixed [.any floatTys] [.ty .i64]
      | .s8 | .s4 => .fixed [.any floatTys] [.ty .i8]
      | .sToF t | .uToF t => .fixed [.any intTys] [.ty t]
      | .bitsF => .fixed [.any [.i16, .i32, .i64]] [.by [(.i16, .f16), (.i32, .f32), (.i64, .f64)]]
      | .bitsBf16 => .fixed [.ty .i16] [.ty .bf16]
      | .bitsI => .fixed [.any floatTys] [.by [(.f16, .i16), (.bf16, .i16), (.f32, .i32), (.f64, .i64)]]
  | .pack _ k _ =>
      match k with
      | .i16x2 => .fixed [.ty .i16, .ty .i16] [.ty .p16x2]
      | .i8x4 => .fixed [.ty .i8, .ty .i8, .ty .i8, .ty .i8] [.ty .p8x4]
      | .e4m3x4 | .e5m2x4 => .fixed [.ty .f32, .ty .f32, .ty .f32, .ty .f32] [.ty .p8x4]
      | .bf16x2 | .f16x2 => .fixed [.ty .f32, .ty .f32] [.ty .p16x2]
      | .ext => .fixed [.any [.p8x4, .p16x2], .imm 0 3] [.by [(.p8x4, .i8), (.p16x2, .i16)]]
  | .dot _ k _ =>
      match k with
      | .ss | .su | .us | .uu => .fixed [.ty .p8x4, .ty .p8x4, .ty .i32] [.ty .i32]
      | .f16x2 | .bf16x2 => .fixed [.ty .p16x2, .ty .p16x2, .ty .f32] [.ty .f32]
  | .shfl .. =>
      ⟨[.same (plainTys ++ [.fut]), .ty .i32], .immOf segWidths, 0, 1, [.same, .ty .b1], [1, 2], true, true⟩
  | .vote _ k _ =>
      match k with
      | .all | .any | .eq => .fixed [.ty .b1] [.ty .b1]
      | .mask => .fixed [.ty .b1] [.ty .i64]
      | .count => .fixed [.ty .b1] [.ty .i32]
  | .voteLevel .. => .fixed [.ty .b1] [.ty .b1]
  | .scan _ k _ _ =>
      match k with
      | .add | .smin | .smax => ⟨[.same (intTys ++ floatTys)], .target, 0, 0, [.same], [1], true, false⟩
      | .umin | .umax | .and | .or | .xor => ⟨[.same intTys], .target, 0, 0, [.same], [1], true, false⟩
  | .reduce _ k _ =>
      match k with
      | .add | .smin | .smax => .fixed [.same (intTys ++ floatTys)] [.same]
      | .umin | .umax | .and | .or | .xor => .fixed [.same intTys] [.same]
  | .matchLanes _ k _ =>
      match k with
      | .peers => .fixed [.any (plainTys ++ [.fut])] [.ty .i64]
      | .lead | .rank | .groups => .fixed [.any (plainTys ++ [.fut])] [.ty .i32]
  | .lanemaskOwn .. | .lanemaskBefore .. | .lanemaskAfter .. | .lanemaskWidth .. | .lanemaskAct .. =>
      .fixed [] [.ty .i64]
  | .lanemaskSeg .. => .fixed [.immOf segWidths] [.ty .i64]
  | .frnd _ _ t _ => .uni 1 t
  | .fscale _ exp t _ => if exp then .fixed [.ty t] [.ty .i32] else .fixed [.ty t, .ty .i32] [.ty t]
  | .rndbits _ wide _ => .fixed [.ty .i32] [.ty (if wide then .i64 else .i32)]
  | .ld _ f _ => loadShape .i64 f
  | .st _ f _ => storeShape .i64 f
  | .lds _ f _ => loadShape .i32 f
  | .sts _ f _ => storeShape .i32 f
  | .atom _ _ t _ ops => atomShape .i64 t ops
  | .atoms _ _ t _ ops => atomShape .i32 t ops
  | .fenceAcq .. | .fenceRel .. | .fenceAr .. | .fenceSc .. => .bare [] []
  | .barSync .. => .bare [.ty .i32] []
  | .barArrive .. => .bare [.ty .i32] [.ty .b1]
  | .barWait .. => .bare [.ty .i32, .ty .b1] []
  | .barExpect .. | .barInit .. => .bare [.ty .i32, .ty .i32] []
  | .barState .. => .fixed [.ty .i32] [.ty .i64]
  | .barm .. => .bare [.ty .i64] []
  | .flight .. => .bare [.ty .i32] []
  | .copy _ k bar _ _ => copyShape k bar
  | .gather _ bar _ _ =>
      .fixed ([.ty .i32, .ty .i64, .ty .i32, .ty .i32, .imm (-536870912) 536870911] ++
        if bar then [.ty .i32] else []) [.ty .fut]
  | .scatter _ bar _ _ =>
      .fixed ([.ty .i64, .ty .i32, .ty .i32, .ty .i32, .imm (-536870912) 536870911] ++
        if bar then [.ty .i32] else []) [.ty .fut]
  | .tmap _ sp _ => .fixed [.ty (if sp then .i32 else .i64)] [.ty .tmap]
  | .futTest .. => .fixed [.ty .fut] [.ty .b1]
  | .futWait .. | .futCancel .. => .fixed [.ty .fut] []
  | .futStatus .. => .fixed [.ty .fut] [.ty .i32]
  | .futAll .. => ⟨[], .ty .fut, 1, 7, [.ty .fut], [1], true, true⟩
  | .yield .. => .bare [.ty .fut, .target] []
  | .pref .. | .cacheDemote .. | .cacheEvict .. => .fixed [.ty .i64, .ty .i32] []
  | .cacheZero .. => .fixed [.ty .i64] []
  | .collGroup .. => .fixed [.ty .i64, .ty .i32] [.ty .fut, .ty .i32]
  | .collRed .. => .fixed [.immOf collOpWords, .ty .i32, .ty .i64, .ty .i64, .ty .i32] [.ty .fut]
  | .collBcast .. => .fixed [.ty .i32, .ty .i32, .ty .i64, .ty .i64, .ty .i32] [.ty .fut]
  | .collBar .. => .fixed [.ty .i32] [.ty .fut]
  | .fmtb .. => .bare [.table] [.ty .fmtb]
  | .fmtbSc .. => .bare [.table, .ty .i32, .ty .i32] [.ty .fmtb]
  | .fmtbSp .. => .bare [.ty .i32] [.ty .fmtb]
  | .cohort .. => .bare [.ty .i32, .ty .i32, .ty .i32] []
  | .cohortClear .. => .bare [] []
  | .mma .. | .mmaSpec .. => .bare [.ty .fmtb, .ty .acc, .ty .i32, .ty .i32] [.ty .fut, .ty .acc]
  | .mmaSp .. | .mmaSpecSp .. => .bare [.ty .fmtb, .ty .acc, .ty .i32, .ty .i32, .ty .i32] [.ty .fut, .ty .acc]
  | .mmaUf .. | .mmaSpecUf .. =>
      .bare [.ty .fmtb, .ty .acc, .ty .tmap, .ty .i32, .ty .i32, .ty .i32] [.ty .fut, .ty .acc]
  | .accZeroF32 .. | .accZeroI32 .. => .bare [] [.ty .acc]
  | .accLoad .. => .bare [.ty .tmap, .ty .i32, .ty .i32] [.ty .fut, .ty .acc]
  | .accStore .. => .bare [.ty .tmap, .ty .acc, .ty .i32, .ty .i32, .ty .i32] [.ty .fut]
  | .specCommit .. | .specDiscard .. => .bare [.ty .acc] [.ty .acc]
  | .unfold .. => .bare [.ty .tmap, .ty .i64, .ty .i32] [.ty .tmap]
  | .spbm .. => .bare [.ty .i32, .ty .i32, .ty .fmtb, .ty .i32] [.ty .fut]
  | .trap .. => .bare [.imm 0x10 0x7F] []
  | .tret .. => .bare [] []
  | .tmask .. => .bare [.ty .i32] [.ty .i32]
  | .tretSkip .. => ⟨[], .any allTys, 0, 3, [], [0], false, false⟩
  | .launch .. => .bare [.ty .i32, .ty .i64] [.ty .i32]
  | .xctlInv .. | .xctlPfCore .. | .xctlPfHall .. | .xctlUnpinCore .. | .xctlUnpinHall .. =>
      .bare [.ty .i64, .ty .i32] []
  | .xctlPinCore .. | .xctlPinHall .. => .bare [.ty .i64, .ty .i32] [.ty .i32]
  | .sealOpen .. => .bare [.ty .i32, .ty .i64] [.ty .i32]
  | .sealAbsorb .. => .fixed [.ty .i32, .ty .i64, .ty .i32] [.ty .fut]
  | .sealClose .. | .sealAbort .. => .bare [.ty .i32] []
  | .cntCtr .. => .fixed [.ty .i32] [.ty .i64]
  | .cntMon .. => .fixed [.ty .i32, .ty .i32] [.ty .i64]
  | .cutMarkDy .. | .cutMarkFb .. => .bare [.ty .i32, .ty .i64] [.ty .fut]
  | .cutStatus .. => .fixed [.ty .fut] [.ty .i64]
  | .rdctxTrap .. | .rdctxLanes .. | .rdctxLaunch .. => .fixed [] [.ty .i64]
  | .rdctxOpnd .. => .fixed [.imm 0 6] [.ty .i64]
  | .rdctxEnclave .. | .rdctxPlace .. => .fixed [] [.ty .i32]
  | .reset | .functionTrainingDone .. | .hbmStackFailed .. | .managementClaim .. | .ownershipHandover ..
  | .ownershipAccept .. | .ownershipRefuse .. | .ownershipReclaim | .managementWrite .. | .partitionForm ..
  | .bootKeyReplace .. | .partitionBoot .. | .getCertificate .. | .partitionWayMaskWrite .. | .fabricNumberWrite ..
  | .clockLower .. | .registerWrite .. | .xltInvEnclave .. | .xltInvPages .. | .xltInvPartition .. | .xltInvDone ..
  | .fqBaseWrite .. | .fqHeadWrite .. | .preemptGo .. | .kick .. | .launchDispatch .. | .depReadResume ..
  | .gangPlace .. | .gangRestore .. | .turnStart .. | .turnDeficitExhausted .. | .rakeAck .. | .handlerHoldExpiry ..
  | .launchRetire .. | .hallTlbWalk .. | .movingWaitEnd .. | .faultRecordPost .. | .correctionSearchDone ..
  | .patrolRead .. | .scrubFrame .. | .cleanPoolWaitDone .. | .frameDrainDone .. | .enclaveRelease ..
  | .enclaveThreadInterrupt .. | .engineIssueResume .. | .engineGranuleLand .. | .engineOpComplete ..
  | .yieldResume .. | .translationDone .. | .xctlComplete .. | .ejectHandoverDone .. | .copyBackDone ..
  | .recallDone .. | .landingTimerExpiry .. | .flightRelease .. | .cutCopyDone .. | .cutDrainDone ..
  | .requestFlit .. | .responseFlit .. | .collectiveFlit .. | .teardownFlit .. | .flitRetry .. | .linkPortDown ..
  | .streamKeying .. | .ideStreamFailure .. | .collGroupBuildDone .. | .collGroupRekey .. | .collPeerLost ..
  | .encCreate .. | .encAddpage .. | .encMeasure .. | .encEnter .. | .encExit .. | .encReport .. | .encReportRk ..
  | .encDestroy .. | .encXctlInv .. | .encXctlPfCore .. | .encXctlPfHall .. | .encXctlPinCore ..
  | .encXctlPinHall .. | .encXctlUnpinCore .. | .encXctlUnpinHall .. | .pageOut .. | .pageInClean ..
  | .pageInImage .. | .pageInShare .. | .pageFree .. | .faultResolve .. | .faultKill .. | .riscvLoadStore ..
  | .reservedMajorStub .. | .ideStreamRequest .. | .ideStreamCompletion .. | .tdispBinding ..
  | .spdmGetMeasurements .. => .bare [] []

/-! Operands against positions. -/

/-- Does a special operand's index lie within its class (R251)? The indices of classes 2 and 3 need the object's
tables. -/
def specialOk (cls : BitVec 6) (idx : BitVec 24) : Bool :=
  match cls.toNat with
  | 0 => idx.toNat ≤ 6 | 1 => idx.toNat ≤ 5 | 2 => true | 3 => true | 4 => idx.toNat ≤ 15 | 5 => idx.toNat ≤ 3
  | _ => false

/-- The type of a special operand, where neither its position nor the object's tables decide it (R251). -/
def specialTy (cls : BitVec 6) (idx : BitVec 24) : Option Ty :=
  match cls.toNat with
  | 0 => some (if idx.toNat = 6 then .i64 else .i32)
  | 1 => some .i32 | 3 => some .i32 | 5 => some .i32 | _ => none

/-- Is the operand a value or a special, which have a type of their own? -/
def Opnd.isTyped : Opnd → Bool
  | .val .. | .special .. => true
  | .imm _ | .target _ | .lit1 _ | .lit2 .. | .table _ => false

/-- Does a position of the type take an operand of this kind (R246, R249, R250)? -/
def Ty.takes (t : Ty) : Opnd → Bool
  | .val .. => true
  | .special .. => 0 < t.width
  | .imm _ => 0 < t.width && !t.isFloat
  | .lit1 _ => 0 < t.width && t.width < 64
  | .lit2 .. => t.width == 64
  | .target _ | .table _ => false

/-- The operand against the types a position allows; `tyOf` gives the operand's own type where it is known. -/
def Opnd.within (tyOf : Opnd → Option Ty) (ts : List Ty) (o : Opnd) : Bool :=
  if o.isTyped then
    match tyOf o with
    | some t => ts.contains t
    | none => ts.any (·.takes o)
  else ts.any (·.takes o)

/-- Does the position accept the operand (R246)? A value whose type is not known fits every position: that of an id without
a definition is BAD_VALUE's concern, and that of a stub's result is nowhere given (assumption log 92). `same` is the common
type of R269: `none` when no operand has a type of its own. -/
def Pos.accepts (tyOf : Opnd → Option Ty) (same : Option (Option Ty)) : Pos → Opnd → Bool
  | .ty t, o => o.within tyOf [t]
  | .any ts, o => o.isTyped && o.within tyOf ts
  | .same ts, o =>
      match same with
      | none => false
      | some none => o.within tyOf ts
      | some (some t) => ts.contains t && o.within tyOf [t]
  | .slot, o =>
      match o with
      | .val .. | .special .. => o.within tyOf plainTys
      | .imm _ | .lit2 .. => true
      | .target _ | .lit1 _ | .table _ => false
  | .imm lo hi, o =>
      match o.immVal with
      | some v => decide (lo ≤ v) && decide (v ≤ hi)
      | none => false
  | .immOf vs, o =>
      match o.immVal with
      | some v => vs.contains v
      | none => false
  | .const t, o =>
      match o with
      | .imm _ | .lit1 _ | .lit2 .. => t.takes o
      | .val .. | .special .. | .target _ | .table _ => false
  | .target, o => match o with | .target _ => true | .val .. | .imm _ | .special .. | .lit1 _ | .lit2 .. | .table _ => false
  | .table, o => match o with | .table _ => true | .val .. | .imm _ | .special .. | .lit1 _ | .lit2 .. | .target _ => false

/-- Is the position one of the common type? -/
def Pos.isSame : Pos → Bool
  | .same _ => true
  | .ty _ | .any _ | .slot | .imm .. | .immOf _ | .const _ | .target | .table => false

/-- The position of operand i (R246). -/
def Shape.posAt (sh : Shape) (i : Nat) : Pos := sh.pos.getD i sh.rest

/-- The operands of a form beside their positions. -/
def Shape.place (sh : Shape) (ops : List Opnd) : List (Pos × Opnd) :=
  (List.range ops.length).zipWith (fun i o => (sh.posAt i, o)) ops

/-- The common type of the `same` positions: that of the first operand there that has a type (R269). -/
def Shape.sameTy (tyOf : Opnd → Option Ty) (sh : Shape) (ops : List Opnd) : Option (Option Ty) :=
  let typed := ((sh.place ops).filter fun po => po.1.isSame && po.2.isTyped).map fun po => tyOf po.2
  match typed.find? Option.isSome with
  | some t => some t
  | none => typed.head?

/-- Do the operands fit the form's positions, in number, kind and type? -/
def Shape.fits (tyOf : Opnd → Option Ty) (sh : Shape) (ops : List Opnd) : Bool :=
  decide (sh.pos.length + sh.least ≤ ops.length) && decide (ops.length ≤ sh.pos.length + sh.most) &&
  (sh.place ops).all fun po => po.1.accepts tyOf (sh.sameTy tyOf ops) po.2

/-- The type of a result, where it is known: from the common type, or from the first operand's type. -/
def Res.type (same : Option Ty) (src : Option Ty) : Res → Option Ty
  | .ty t => some t
  | .same => same
  | .by ps => src.bind fun t => (ps.find? fun p => p.1 == t).map Prod.snd

/-- The types of the results of a form on operands, as far as they are known. -/
def Shape.resTy (tyOf : Opnd → Option Ty) (sh : Shape) (ops : List Opnd) : List (Option Ty) :=
  let same := (sh.sameTy tyOf ops).bind id
  let src := ops.head?.bind tyOf
  sh.res.map (Res.type same src)

/-- Is the position one of immediates only? -/
def Pos.isImm : Pos → Bool
  | .imm .. | .immOf _ => true
  | .ty _ | .any _ | .same _ | .slot | .const _ | .target | .table => false

/-- Is an operand word the immediate that the form may take after its fixed operands, and so no merge operand (R317)? -/
def Shape.claims (sh : Shape) (ops : List Opnd) (m : Opnd) : Bool :=
  sh.rest.isImm && decide (sh.pos.length < ops.length) && decide (ops.length ≤ sh.pos.length + sh.most) && m.immVal.isSome

/-- The operands of the form and the merge operand, if they fit (R246, R270). An operand word that fits the form is
the form's own; a merge operand is one word more, under G = 1 and NDEF = 1. -/
def Shape.split (tyOf : Opnd → Option Ty) (sh : Shape) (c : Ctl) (ops : List Opnd) :
    Option (List Opnd × Option Opnd) :=
  if sh.fits tyOf ops then some (ops, none)
  else if sh.guardable && sh.merge && c.guarded && c.ndef == 1 then
    match ops.getLast? with
    | none => none
    | some m =>
        if sh.claims ops m then none
        else if sh.fits tyOf ops.dropLast then
          match (sh.resTy tyOf ops.dropLast).head? with
          | some (some t) => if m.within tyOf [t] then some (ops.dropLast, some m) else none
          | some none => if m.within tyOf allTys then some (ops.dropLast, some m) else none
          | none => none
        else none
  else none

end Sys2Proof
end

