-- ==== Sys2Proof/WellFormed.lean ====
section
/-! DEFINITION. The well-formed instructions: those that have an encoding (R240 to R255, R264 to R270). What depends
on the function around an instruction (value types, dominance, targets, table bounds) is the grafter's check. -/

namespace Sys2Proof

/-- Why an instruction is ill-formed. -/
inductive IllFormed where
  /-- The form has no codes: a type or kind the major does not have (R265). -/
  | noForm
  /-- G = 1 on an unguardable form (R256). -/
  | guard
  /-- NDEF does not fit the form (R265). -/
  | ndef
  /-- The operand words do not fit the form in number or kind (R246, R270). -/
  | operands
  /-- A special operand's class or index is unassigned (R251). -/
  | special
  /-- More than seven operand words (R241). -/
  | tooMany
  /-- A stub whose major is not reserved, or whose words are no operand words (R266). -/
  | stub
  deriving DecidableEq, Repr

/-- Literal words that an operand word calls for, read as R266 reads them: by the count of a long literal. -/
def litCount (w : Word) : Nat := if w.toNat / 2 ^ 28 = 13 then w.toNat / 2 ^ 26 % 4 else 0

/-- Does an operand name an assigned special (R251)? Other operands do not matter here. -/
def Opnd.specialFine : Opnd → Bool
  | .special cls idx => specialOk cls idx
  | .val .. | .imm _ | .target _ | .lit1 _ | .lit2 .. | .table _ => true

/-- The operand words at the head of a list, each with its literal words (R240); `none` when the words run out. -/
def takeOpnds : Nat → List Word → Option (List (List Word) × List Word)
  | 0, ws => some ([], ws)
  | _ + 1, [] => none
  | n + 1, w :: ws =>
      if ws.length < litCount w then none
      else
        match takeOpnds n (ws.drop (litCount w)) with
        | none => none
        | some (gs, rest) => some ((w :: ws.take (litCount w)) :: gs, rest)

/-- How many operand words a stub's words make up, if they are whole (R266). -/
def stubCount (ws : List Word) : Option Nat :=
  (List.range 8).find? fun n => (takeOpnds n ws).any fun p => p.2.isEmpty

/-- What is wrong with a Skedizon instruction, if anything. -/
def Instr.checkForm (i : Instr) : Option IllFormed :=
  if i.key.isNone then some .noForm
  else if i.ctl.guarded && !i.shape.guardable then some .guard
  else if !i.shape.ndefs.contains i.ctl.ndef.toNat then some .ndef
  else if 7 < i.ops.length then some .tooMany
  else if !i.ops.all Opnd.specialFine then some .special
  else if (i.shape.split (fun _ => none) i.ctl i.ops).isNone then some .operands
  else none

/-- What is wrong with an instruction, if anything. Events, custom-0 instructions and accesses of a general core are
well-formed as they stand. -/
def Instr.check (i : Instr) : Option IllFormed :=
  match i with
  | .reservedMajorStub maj _ _ _ _ ops =>
      if 0x78 ≤ maj.toNat ∧ (stubCount ops).isSome then none else some .stub
  | .reset | .functionTrainingDone .. | .hbmStackFailed .. | .managementClaim .. | .ownershipHandover ..
  | .ownershipAccept .. | .ownershipRefuse .. | .ownershipReclaim | .managementWrite .. | .partitionForm ..
  | .bootKeyReplace .. | .partitionBoot .. | .getCertificate .. | .partitionWayMaskWrite .. | .fabricNumberWrite ..
  | .clockLower .. | .registerWrite .. | .xltInvEnclave .. | .xltInvPages .. | .xltInvPartition .. | .xltInvDone ..
  | .fqBaseWrite .. | .fqHeadWrite .. | .preemptGo .. | .kick .. | .launchDispatch .. | .depReadResume ..
  | .gangPlace .. | .gangRestore .. | .turnStart .. | .turnDeficitExhausted .. | .rakeAck .. | .handlerHoldExpiry ..
  | .launchRetire .. | .hallTlbWalk .. | .movingWaitEnd .. | .faultRecordPost .. | .correctionSearchDone ..
  | .patrolRead .. | .scrubFrame .. | .cleanPoolWaitDone .. | .frameDrainDone .. | .enclaveRelease ..
  | .enclaveThreadInterrupt .. | .engineIssueResume .. | .engineGranuleLand .. | .engineOpComplete ..
  | .yieldResume .. | .translationDone .. | .xctlComplete .. | .ejectHandoverDone .. | .copyBackDone ..
  | .recallDone .. | .landingTimerExpiry .. | .flightRelease .. | .cutCopyDone .. | .cutDrainDone ..
  | .requestFlit .. | .responseFlit .. | .collectiveFlit .. | .teardownFlit .. | .flitRetry .. | .linkPortDown ..
  | .streamKeying .. | .ideStreamFailure .. | .collGroupBuildDone .. | .collGroupRekey .. | .collPeerLost ..
  | .encCreate .. | .encAddpage .. | .encMeasure .. | .encEnter .. | .encExit .. | .encReport .. | .encReportRk ..
  | .encDestroy .. | .encXctlInv .. | .encXctlPfCore .. | .encXctlPfHall .. | .encXctlPinCore ..
  | .encXctlPinHall .. | .encXctlUnpinCore .. | .encXctlUnpinHall .. | .pageOut .. | .pageInClean ..
  | .pageInImage .. | .pageInShare .. | .pageFree .. | .faultResolve .. | .faultKill .. | .riscvLoadStore ..
  | .ideStreamRequest .. | .ideStreamCompletion .. | .tdispBinding .. | .spdmGetMeasurements .. => none
  | .nop .. | .const .. | .iadd .. | .isub .. | .imul .. | .imad .. | .idiv .. | .iminmax .. | .logic .. | .shift ..
  | .bits .. | .clmul .. | .icmp .. | .plogic .. | .sel .. | .addr .. | .cvti .. | .phi .. | .br .. | .brc ..
  | .brm .. | .join .. | .call .. | .calli .. | .ret .. | .exit .. | .setmCtl .. | .setmFlags .. | .setmEn ..
  | .setmStep .. | .setmStepadd .. | .setmGuard .. | .getmCtl .. | .getmStep .. | .getmGuard .. | .getmGmask ..
  | .rdcycI64 .. | .rdcycI32 .. | .unreach .. | .fadd .. | .fmul .. | .ffma .. | .fminmax .. | .fsign .. | .fcmp ..
  | .fclass .. | .fdiv .. | .fsqrt .. | .sfu .. | .cvtf .. | .pack .. | .dot .. | .shfl .. | .vote ..
  | .voteLevel .. | .scan .. | .reduce .. | .matchLanes .. | .lanemaskOwn .. | .lanemaskBefore ..
  | .lanemaskAfter .. | .lanemaskSeg .. | .lanemaskWidth .. | .lanemaskAct .. | .frnd .. | .fscale .. | .rndbits ..
  | .ld .. | .st .. | .lds .. | .sts .. | .atom .. | .atoms .. | .fenceAcq .. | .fenceRel .. | .fenceAr ..
  | .fenceSc .. | .barSync .. | .barArrive .. | .barWait .. | .barExpect .. | .barInit .. | .barState .. | .barm ..
  | .flight .. | .copy .. | .gather .. | .scatter .. | .tmap .. | .futTest .. | .futWait .. | .futStatus ..
  | .futCancel .. | .futAll .. | .yield .. | .pref .. | .cacheDemote .. | .cacheEvict .. | .cacheZero ..
  | .collGroup .. | .collRed .. | .collBcast .. | .collBar .. | .fmtb .. | .fmtbSc .. | .fmtbSp .. | .cohort ..
  | .cohortClear .. | .mma .. | .mmaSp .. | .mmaUf .. | .mmaSpec .. | .mmaSpecSp .. | .mmaSpecUf .. | .accZeroF32 ..
  | .accZeroI32 .. | .accLoad .. | .accStore .. | .specCommit .. | .specDiscard .. | .unfold .. | .spbm ..
  | .trap .. | .tret .. | .tretSkip .. | .tmask .. | .launch .. | .xctlInv .. | .xctlPfCore .. | .xctlPfHall ..
  | .xctlPinCore .. | .xctlPinHall .. | .xctlUnpinCore .. | .xctlUnpinHall .. | .sealOpen .. | .sealAbsorb ..
  | .sealClose .. | .sealAbort .. | .cntCtr .. | .cntMon .. | .cutMarkDy .. | .cutMarkFb .. | .cutStatus ..
  | .rdctxTrap .. | .rdctxLanes .. | .rdctxOpnd .. | .rdctxLaunch .. | .rdctxEnclave .. | .rdctxPlace .. => i.checkForm

/-- Is the instruction well-formed? -/
def Instr.wf (i : Instr) : Bool := i.check.isNone

end Sys2Proof
end

