-- ==== Sys2Proof/Decode.lean ====
section
/-! DEFINITION. From words to instructions and back: the Skedizon decoder (R240 to R243, R264 to R268), total on any
words and rejecting by name; the decoder of the custom-0 instructions (R387, R389); and the encoder, written from the
same tables. -/

namespace Sys2Proof

/-- The head word's fields (R241). -/
structure Head where
  maj : BitVec 7
  sub : BitVec 5
  nops : BitVec 3
  g : Bool
  ndef : BitVec 2
  mod : BitVec 4
  hint : BitVec 2
  xhint : BitVec 4
  rsvz : BitVec 4
  deriving DecidableEq, Repr

/-- The fields of a head word (R241). -/
def Head.ofWord (w : Word) : Head :=
  let n := w.toNat
  ⟨BitVec.ofNat 7 (n / 2 ^ 25), BitVec.ofNat 5 (n / 2 ^ 20), BitVec.ofNat 3 (n / 2 ^ 17), n / 2 ^ 16 % 2 == 1,
   BitVec.ofNat 2 (n / 2 ^ 14), BitVec.ofNat 4 (n / 2 ^ 10), BitVec.ofNat 2 (n / 2 ^ 8), BitVec.ofNat 4 (n / 2 ^ 4),
   BitVec.ofNat 4 n⟩

/-- The head word of fields (R241, R271). -/
def Head.word (h : Head) : Word :=
  BitVec.ofNat 32 (h.maj.toNat * 2 ^ 25 + h.sub.toNat * 2 ^ 20 + h.nops.toNat * 2 ^ 17 + h.g.toNat * 2 ^ 16 +
    h.ndef.toNat * 2 ^ 14 + h.mod.toNat * 2 ^ 10 + h.hint.toNat * 2 ^ 8 + h.xhint.toNat * 2 ^ 4 + h.rsvz.toNat)

/-- The modifiers in a head word. -/
def Head.ctl (h : Head) : Ctl := ⟨h.g, h.ndef, h.hint, h.xhint⟩

/-- The words of an operand (R242, R243, R250). -/
def Opnd.words : Opnd → List Word
  | .val last keep id => [BitVec.ofNat 32 (last.toNat * 2 ^ 29 + keep.toNat * 2 ^ 28 + id.toNat)]
  | .imm v => [BitVec.ofNat 32 (2 ^ 30 + v.toNat)]
  | .special cls idx => [BitVec.ofNat 32 (2 * 2 ^ 30 + cls.toNat * 2 ^ 24 + idx.toNat)]
  | .target off => [BitVec.ofNat 32 (12 * 2 ^ 28 + off.toNat)]
  | .lit1 w => [BitVec.ofNat 32 (13 * 2 ^ 28 + 1 * 2 ^ 26), w]
  | .lit2 lo hi => [BitVec.ofNat 32 (13 * 2 ^ 28 + 2 * 2 ^ 26), lo, hi]
  | .table idx => [BitVec.ofNat 32 (14 * 2 ^ 28 + idx.toNat)]

/-- The operand of an operand word and its literal words; `none` is MALFORMED (R242, R243, R250, R251). -/
def Opnd.ofWords : List Word → Option Opnd
  | [] => none
  | w :: lits =>
      let n := w.toNat
      match n / 2 ^ 30 with
      | 0 => some (.val (n / 2 ^ 29 % 2 == 1) (n / 2 ^ 28 % 2 == 1) (BitVec.ofNat 28 n))
      | 1 => some (.imm (BitVec.ofNat 30 n))
      | 2 =>
          let cls := BitVec.ofNat 6 (n / 2 ^ 24)
          let idx := BitVec.ofNat 24 n
          if specialOk cls idx then some (.special cls idx) else none
      | _ =>
          match n / 2 ^ 28 % 4 with
          | 0 => some (.target (BitVec.ofNat 28 n))
          | 1 =>
              if n % 2 ^ 26 = 0 then
                match n / 2 ^ 26 % 4, lits with
                | 1, [a] => some (.lit1 a)
                | 2, [a, b] => some (.lit2 a b)
                | _, _ => none
              else none
          | 2 => some (.table (BitVec.ofNat 28 n))
          | _ => none

/-- What a word sequence is (R265). -/
inductive Fetched where
  /-- An instruction. -/
  | ok (i : Instr)
  /-- ILLEGAL_ENCODING at execution: unassigned SUB, RSVZ nonzero, G or MOD misused. -/
  | illegal (h : Head)
  /-- UNDEFINED_MAJOR at translation. -/
  | undefinedMajor
  /-- MALFORMED at translation. -/
  | malformed
  deriving DecidableEq, Repr

/-- Is the instruction well formed but for its guard bit (R266)? -/
def Instr.fitsForm (i : Instr) : Bool :=
  i.shape.ndefs.contains i.ctl.ndef.toNat && (i.shape.split (fun _ => none) i.ctl i.ops).isSome

/-- What a head word with its operand words is (R265, R266). -/
def classify (h : Head) (gs : List (List Word)) : Fetched :=
  let maj := h.maj.toNat
  let sub := h.sub.toNat
  if 0x78 ≤ maj then .ok (.reservedMajorStub h.maj h.sub h.ctl h.mod h.rsvz gs.flatten)
  else if !majAssigned maj then .undefinedMajor
  else
    match Instr.ofKey ⟨maj, sub, goodMod maj sub⟩ h.ctl [] with
    | none => .illegal h
    | some _ =>
        match gs.mapM Opnd.ofWords with
        | none => .malformed
        | some ops =>
            match Instr.ofKey ⟨maj, sub, h.mod.toNat⟩ h.ctl ops with
            | some i =>
                if i.fitsForm then
                  if h.rsvz = 0 ∧ (h.g = true → i.shape.guardable = true) then .ok i else .illegal h
                else .malformed
            | none =>
                match Instr.ofKey ⟨maj, sub, goodMod maj sub⟩ h.ctl ops with
                | some i => if i.fitsForm then .illegal h else .malformed
                | none => .malformed

/-- The instruction at the head of a word list, and the words after it (R240). Words that run out are MALFORMED. -/
def decode : List Word → Fetched × List Word
  | [] => (.malformed, [])
  | w :: ws =>
      let h := Head.ofWord w
      match takeOpnds h.nops.toNat ws with
      | none => (if 0x78 ≤ h.maj.toNat ∨ majAssigned h.maj.toNat then .malformed else .undefinedMajor, [])
      | some (gs, rest) => (classify h gs, rest)

/-! The custom-0 instructions (R387, R389, R392). -/

/-- FUNCT7, FUNCT3, RD, RS1 and RS2 of a custom-0 instruction (R387, R389). -/
def Instr.custom : Instr → Option (Nat × Nat × BitVec 5 × BitVec 5 × BitVec 5)
  | .encCreate rd a b => some (0x00, 0, rd, a, b)
  | .encAddpage rd a b => some (0x01, 0, rd, a, b)
  | .encMeasure rd a => some (0x02, 0, rd, a, 0)
  | .encEnter rd a => some (0x03, 0, rd, a, 0)
  | .encExit rd a => some (0x04, 0, rd, a, 0)
  | .encReport rd a b => some (0x05, 0, rd, a, b)
  | .encReportRk rd a b => some (0x06, 0, rd, a, b)
  | .encDestroy rd a => some (0x07, 0, rd, a, 0)
  | .encXctlInv rd a b => some (0x08, 0, rd, a, b)
  | .encXctlPfCore rd a b => some (0x08, 2, rd, a, b)
  | .encXctlPfHall rd a b => some (0x08, 3, rd, a, b)
  | .encXctlPinCore rd a b => some (0x08, 4, rd, a, b)
  | .encXctlPinHall rd a b => some (0x08, 5, rd, a, b)
  | .encXctlUnpinCore rd a b => some (0x08, 6, rd, a, b)
  | .encXctlUnpinHall rd a b => some (0x08, 7, rd, a, b)
  | .pageOut rd a b => some (0x10, 0, rd, a, b)
  | .pageInClean rd a b => some (0x11, 0, rd, a, b)
  | .pageInImage rd a b => some (0x12, 0, rd, a, b)
  | .pageInShare rd a => some (0x13, 0, rd, a, 0)
  | .pageFree rd a => some (0x14, 0, rd, a, 0)
  | .faultResolve rd a => some (0x18, 0, rd, a, 0)
  | .faultKill rd a b => some (0x19, 0, rd, a, b)
  | .reset | .functionTrainingDone .. | .hbmStackFailed .. | .managementClaim .. | .ownershipHandover ..
  | .ownershipAccept .. | .ownershipRefuse .. | .ownershipReclaim | .managementWrite .. | .partitionForm ..
  | .bootKeyReplace .. | .partitionBoot .. | .getCertificate .. | .partitionWayMaskWrite .. | .fabricNumberWrite ..
  | .clockLower .. | .registerWrite .. | .xltInvEnclave .. | .xltInvPages .. | .xltInvPartition .. | .xltInvDone ..
  | .fqBaseWrite .. | .fqHeadWrite .. | .preemptGo .. | .kick .. | .launchDispatch .. | .depReadResume ..
  | .gangPlace .. | .gangRestore .. | .turnStart .. | .turnDeficitExhausted .. | .rakeAck .. | .handlerHoldExpiry ..
  | .launchRetire .. | .hallTlbWalk .. | .movingWaitEnd .. | .faultRecordPost .. | .correctionSearchDone ..
  | .patrolRead .. | .scrubFrame .. | .cleanPoolWaitDone .. | .frameDrainDone .. | .enclaveRelease ..
  | .enclaveThreadInterrupt .. | .engineIssueResume .. | .engineGranuleLand .. | .engineOpComplete ..
  | .yieldResume .. | .translationDone .. | .xctlComplete .. | .ejectHandoverDone .. | .copyBackDone ..
  | .recallDone .. | .landingTimerExpiry .. | .flightRelease .. | .cutCopyDone .. | .cutDrainDone ..
  | .requestFlit .. | .responseFlit .. | .collectiveFlit .. | .teardownFlit .. | .flitRetry .. | .linkPortDown ..
  | .streamKeying .. | .ideStreamFailure .. | .collGroupBuildDone .. | .collGroupRekey .. | .collPeerLost ..
  | .nop .. | .const .. | .iadd .. | .isub .. | .imul .. | .imad .. | .idiv .. | .iminmax .. | .logic .. | .shift ..
  | .bits .. | .clmul .. | .icmp .. | .plogic .. | .sel .. | .addr .. | .cvti .. | .phi .. | .br .. | .brc ..
  | .brm .. | .join .. | .call .. | .calli .. | .ret .. | .exit .. | .setmCtl .. | .setmFlags .. | .setmEn ..
  | .setmStep .. | .setmStepadd .. | .setmGuard .. | .getmCtl .. | .getmStep .. | .getmGuard .. | .getmGmask ..
  | .rdcycI64 .. | .rdcycI32 .. | .unreach .. | .fadd .. | .fmul .. | .ffma .. | .fminmax .. | .fsign .. | .fcmp ..
  | .fclass .. | .fdiv .. | .fsqrt .. | .sfu .. | .cvtf .. | .pack .. | .dot .. | .shfl .. | .vote ..
  | .voteLevel .. | .scan .. | .reduce .. | .matchLanes .. | .lanemaskOwn .. | .lanemaskBefore ..
  | .lanemaskAfter .. | .lanemaskSeg .. | .lanemaskWidth .. | .lanemaskAct .. | .frnd .. | .fscale .. | .rndbits ..
  | .ld .. | .st .. | .lds .. | .sts .. | .atom .. | .atoms .. | .fenceAcq .. | .fenceRel .. | .fenceAr ..
  | .fenceSc .. | .barSync .. | .barArrive .. | .barWait .. | .barExpect .. | .barInit .. | .barState .. | .barm ..
  | .flight .. | .copy .. | .gather .. | .scatter .. | .tmap .. | .futTest .. | .futWait .. | .futStatus ..
  | .futCancel .. | .futAll .. | .yield .. | .pref .. | .cacheDemote .. | .cacheEvict .. | .cacheZero ..
  | .collGroup .. | .collRed .. | .collBcast .. | .collBar .. | .fmtb .. | .fmtbSc .. | .fmtbSp .. | .cohort ..
  | .cohortClear .. | .mma .. | .mmaSp .. | .mmaUf .. | .mmaSpec .. | .mmaSpecSp .. | .mmaSpecUf .. | .accZeroF32 ..
  | .accZeroI32 .. | .accLoad .. | .accStore .. | .specCommit .. | .specDiscard .. | .unfold .. | .spbm ..
  | .trap .. | .tret .. | .tretSkip .. | .tmask .. | .launch .. | .xctlInv .. | .xctlPfCore .. | .xctlPfHall ..
  | .xctlPinCore .. | .xctlPinHall .. | .xctlUnpinCore .. | .xctlUnpinHall .. | .sealOpen .. | .sealAbsorb ..
  | .sealClose .. | .sealAbort .. | .cntCtr .. | .cntMon .. | .cutMarkDy .. | .cutMarkFb .. | .cutStatus ..
  | .rdctxTrap .. | .rdctxLanes .. | .rdctxOpnd .. | .rdctxLaunch .. | .rdctxEnclave .. | .rdctxPlace ..
  | .riscvLoadStore .. | .reservedMajorStub .. | .ideStreamRequest .. | .ideStreamCompletion .. | .tdispBinding ..
  | .spdmGetMeasurements .. => none

/-- The custom-0 instruction of a word, or `none`: an illegal instruction (R387). -/
def decodeCustom (w : Word) : Option Instr :=
  let n := w.toNat
  let rd : BitVec 5 := BitVec.ofNat 5 (n / 2 ^ 7)
  let a : BitVec 5 := BitVec.ofNat 5 (n / 2 ^ 15)
  let b : BitVec 5 := BitVec.ofNat 5 (n / 2 ^ 20)
  let f3 := n / 2 ^ 12 % 8
  let plain : Instr → Option Instr := fun i => if f3 = 0 then some i else none
  let unary : Instr → Option Instr := fun i => if f3 = 0 ∧ b = 0 then some i else none
  if n % 2 ^ 7 = 0x0B then
    match n / 2 ^ 25 with
    | 0x00 => plain (.encCreate rd a b)
    | 0x01 => plain (.encAddpage rd a b)
    | 0x02 => unary (.encMeasure rd a)
    | 0x03 => unary (.encEnter rd a)
    | 0x04 => unary (.encExit rd a)
    | 0x05 => plain (.encReport rd a b)
    | 0x06 => plain (.encReportRk rd a b)
    | 0x07 => unary (.encDestroy rd a)
    | 0x08 =>
        match f3 with
        | 0 => some (.encXctlInv rd a b)
        | 2 => some (.encXctlPfCore rd a b)
        | 3 => some (.encXctlPfHall rd a b)
        | 4 => some (.encXctlPinCore rd a b)
        | 5 => some (.encXctlPinHall rd a b)
        | 6 => some (.encXctlUnpinCore rd a b)
        | 7 => some (.encXctlUnpinHall rd a b)
        | _ => none
    | 0x10 => plain (.pageOut rd a b)
    | 0x11 => plain (.pageInClean rd a b)
    | 0x12 => plain (.pageInImage rd a b)
    | 0x13 => unary (.pageInShare rd a)
    | 0x14 => unary (.pageFree rd a)
    | 0x18 => unary (.faultResolve rd a)
    | 0x19 => plain (.faultKill rd a b)
    | _ => none
  else none

/-- The word of a custom-0 instruction's fields (R387). -/
def customWord (f7 f3 : Nat) (rd a b : BitVec 5) : Word :=
  BitVec.ofNat 32 (f7 * 2 ^ 25 + b.toNat * 2 ^ 20 + a.toNat * 2 ^ 15 + f3 * 2 ^ 12 + rd.toNat * 2 ^ 7 + 0x0B)

/-! The encoder. -/

/-- The head word of a Skedizon instruction with these codes (R241). -/
def Instr.head (i : Instr) (q : Key) : Head :=
  ⟨BitVec.ofNat 7 q.maj, BitVec.ofNat 5 q.sub, BitVec.ofNat 3 i.ops.length, i.ctl.guarded, i.ctl.ndef,
   BitVec.ofNat 4 q.mod, i.ctl.hint, i.ctl.xhint, 0⟩

/-- The words of an instruction (R240 to R243, R387); `none` for what has none. -/
def encode (i : Instr) : Option (List Word) :=
  match i with
  | .reservedMajorStub maj sub c mod rsvz ops =>
      (stubCount ops).map fun n =>
        (Head.word ⟨maj, sub, BitVec.ofNat 3 n, c.guarded, c.ndef, mod, c.hint, c.xhint, rsvz⟩) :: ops
  | .reset | .functionTrainingDone .. | .hbmStackFailed .. | .managementClaim .. | .ownershipHandover ..
  | .ownershipAccept .. | .ownershipRefuse .. | .ownershipReclaim | .managementWrite .. | .partitionForm ..
  | .bootKeyReplace .. | .partitionBoot .. | .getCertificate .. | .partitionWayMaskWrite .. | .fabricNumberWrite ..
  | .clockLower .. | .registerWrite .. | .xltInvEnclave .. | .xltInvPages .. | .xltInvPartition .. | .xltInvDone ..
  | .fqBaseWrite .. | .fqHeadWrite .. | .preemptGo .. | .kick .. | .launchDispatch .. | .depReadResume ..
  | .gangPlace .. | .gangRestore .. | .turnStart .. | .turnDeficitExhausted .. | .rakeAck .. | .handlerHoldExpiry ..
  | .launchRetire .. | .hallTlbWalk .. | .movingWaitEnd .. | .faultRecordPost .. | .correctionSearchDone ..
  | .patrolRead .. | .scrubFrame .. | .cleanPoolWaitDone .. | .frameDrainDone .. | .enclaveRelease ..
  | .enclaveThreadInterrupt .. | .engineIssueResume .. | .engineGranuleLand .. | .engineOpComplete ..
  | .yieldResume .. | .translationDone .. | .xctlComplete .. | .ejectHandoverDone .. | .copyBackDone ..
  | .recallDone .. | .landingTimerExpiry .. | .flightRelease .. | .cutCopyDone .. | .cutDrainDone ..
  | .requestFlit .. | .responseFlit .. | .collectiveFlit .. | .teardownFlit .. | .flitRetry .. | .linkPortDown ..
  | .streamKeying .. | .ideStreamFailure .. | .collGroupBuildDone .. | .collGroupRekey .. | .collPeerLost ..
  | .nop .. | .const .. | .iadd .. | .isub .. | .imul .. | .imad .. | .idiv .. | .iminmax .. | .logic .. | .shift ..
  | .bits .. | .clmul .. | .icmp .. | .plogic .. | .sel .. | .addr .. | .cvti .. | .phi .. | .br .. | .brc ..
  | .brm .. | .join .. | .call .. | .calli .. | .ret .. | .exit .. | .setmCtl .. | .setmFlags .. | .setmEn ..
  | .setmStep .. | .setmStepadd .. | .setmGuard .. | .getmCtl .. | .getmStep .. | .getmGuard .. | .getmGmask ..
  | .rdcycI64 .. | .rdcycI32 .. | .unreach .. | .fadd .. | .fmul .. | .ffma .. | .fminmax .. | .fsign .. | .fcmp ..
  | .fclass .. | .fdiv .. | .fsqrt .. | .sfu .. | .cvtf .. | .pack .. | .dot .. | .shfl .. | .vote ..
  | .voteLevel .. | .scan .. | .reduce .. | .matchLanes .. | .lanemaskOwn .. | .lanemaskBefore ..
  | .lanemaskAfter .. | .lanemaskSeg .. | .lanemaskWidth .. | .lanemaskAct .. | .frnd .. | .fscale .. | .rndbits ..
  | .ld .. | .st .. | .lds .. | .sts .. | .atom .. | .atoms .. | .fenceAcq .. | .fenceRel .. | .fenceAr ..
  | .fenceSc .. | .barSync .. | .barArrive .. | .barWait .. | .barExpect .. | .barInit .. | .barState .. | .barm ..
  | .flight .. | .copy .. | .gather .. | .scatter .. | .tmap .. | .futTest .. | .futWait .. | .futStatus ..
  | .futCancel .. | .futAll .. | .yield .. | .pref .. | .cacheDemote .. | .cacheEvict .. | .cacheZero ..
  | .collGroup .. | .collRed .. | .collBcast .. | .collBar .. | .fmtb .. | .fmtbSc .. | .fmtbSp .. | .cohort ..
  | .cohortClear .. | .mma .. | .mmaSp .. | .mmaUf .. | .mmaSpec .. | .mmaSpecSp .. | .mmaSpecUf .. | .accZeroF32 ..
  | .accZeroI32 .. | .accLoad .. | .accStore .. | .specCommit .. | .specDiscard .. | .unfold .. | .spbm ..
  | .trap .. | .tret .. | .tretSkip .. | .tmask .. | .launch .. | .xctlInv .. | .xctlPfCore .. | .xctlPfHall ..
  | .xctlPinCore .. | .xctlPinHall .. | .xctlUnpinCore .. | .xctlUnpinHall .. | .sealOpen .. | .sealAbsorb ..
  | .sealClose .. | .sealAbort .. | .cntCtr .. | .cntMon .. | .cutMarkDy .. | .cutMarkFb .. | .cutStatus ..
  | .rdctxTrap .. | .rdctxLanes .. | .rdctxOpnd .. | .rdctxLaunch .. | .rdctxEnclave .. | .rdctxPlace ..
  | .encCreate .. | .encAddpage .. | .encMeasure .. | .encEnter .. | .encExit .. | .encReport .. | .encReportRk ..
  | .encDestroy .. | .encXctlInv .. | .encXctlPfCore .. | .encXctlPfHall .. | .encXctlPinCore ..
  | .encXctlPinHall .. | .encXctlUnpinCore .. | .encXctlUnpinHall .. | .pageOut .. | .pageInClean ..
  | .pageInImage .. | .pageInShare .. | .pageFree .. | .faultResolve .. | .faultKill .. | .riscvLoadStore ..
  | .ideStreamRequest .. | .ideStreamCompletion .. | .tdispBinding .. | .spdmGetMeasurements .. =>
      match i.custom with
      | some (f7, f3, rd, a, b) => some [customWord f7 f3 rd a b]
      | none => i.key.map fun q => (i.head q).word :: (i.ops.map Opnd.words).flatten

/-- Is this an event of the outside world, of time or of the machine's own units, rather than an instruction that a path or a
general core fetches and decodes? A general core's loads and stores are RISC-V's own and come as events. -/
def Instr.isEvent : Instr → Bool
  | .reset | .functionTrainingDone .. | .hbmStackFailed .. | .managementClaim .. | .ownershipHandover ..
  | .ownershipAccept .. | .ownershipRefuse .. | .ownershipReclaim | .managementWrite .. | .partitionForm ..
  | .bootKeyReplace .. | .partitionBoot .. | .getCertificate .. | .partitionWayMaskWrite .. | .fabricNumberWrite ..
  | .clockLower .. | .registerWrite .. | .xltInvEnclave .. | .xltInvPages .. | .xltInvPartition .. | .xltInvDone ..
  | .fqBaseWrite .. | .fqHeadWrite .. | .preemptGo .. | .kick .. | .launchDispatch .. | .depReadResume ..
  | .gangPlace .. | .gangRestore .. | .turnStart .. | .turnDeficitExhausted .. | .rakeAck .. | .handlerHoldExpiry ..
  | .launchRetire .. | .hallTlbWalk .. | .movingWaitEnd .. | .faultRecordPost .. | .correctionSearchDone ..
  | .patrolRead .. | .scrubFrame .. | .cleanPoolWaitDone .. | .frameDrainDone .. | .enclaveRelease ..
  | .enclaveThreadInterrupt .. | .engineIssueResume .. | .engineGranuleLand .. | .engineOpComplete ..
  | .yieldResume .. | .translationDone .. | .xctlComplete .. | .ejectHandoverDone .. | .copyBackDone ..
  | .recallDone .. | .landingTimerExpiry .. | .flightRelease .. | .cutCopyDone .. | .cutDrainDone ..
  | .requestFlit .. | .responseFlit .. | .collectiveFlit .. | .teardownFlit .. | .flitRetry .. | .linkPortDown ..
  | .streamKeying .. | .ideStreamFailure .. | .collGroupBuildDone .. | .collGroupRekey .. | .collPeerLost ..
  | .riscvLoadStore .. | .ideStreamRequest .. | .ideStreamCompletion .. | .tdispBinding .. | .spdmGetMeasurements .. => true
  | .encCreate .. | .encAddpage .. | .encMeasure .. | .encEnter .. | .encExit .. | .encReport .. | .encReportRk ..
  | .encDestroy .. | .encXctlInv .. | .encXctlPfCore .. | .encXctlPfHall .. | .encXctlPinCore .. | .encXctlPinHall ..
  | .encXctlUnpinCore .. | .encXctlUnpinHall .. | .pageOut .. | .pageInClean .. | .pageInImage .. | .pageInShare ..
  | .pageFree .. | .faultResolve .. | .faultKill .. | .reservedMajorStub .. | .nop .. | .const .. | .iadd ..
  | .isub .. | .imul .. | .imad .. | .idiv .. | .iminmax .. | .logic .. | .shift .. | .bits .. | .clmul .. | .icmp ..
  | .plogic .. | .sel .. | .addr .. | .cvti .. | .phi .. | .br .. | .brc .. | .brm .. | .join .. | .call ..
  | .calli .. | .ret .. | .exit .. | .setmCtl .. | .setmFlags .. | .setmEn .. | .setmStep .. | .setmStepadd ..
  | .setmGuard .. | .getmCtl .. | .getmStep .. | .getmGuard .. | .getmGmask .. | .rdcycI64 .. | .rdcycI32 ..
  | .unreach .. | .fadd .. | .fmul .. | .ffma .. | .fminmax .. | .fsign .. | .fcmp .. | .fclass .. | .fdiv ..
  | .fsqrt .. | .sfu .. | .cvtf .. | .pack .. | .dot .. | .shfl .. | .vote .. | .voteLevel .. | .scan .. | .reduce ..
  | .matchLanes .. | .lanemaskOwn .. | .lanemaskBefore .. | .lanemaskAfter .. | .lanemaskSeg .. | .lanemaskWidth ..
  | .lanemaskAct .. | .frnd .. | .fscale .. | .rndbits .. | .ld .. | .st .. | .lds .. | .sts .. | .atom ..
  | .atoms .. | .fenceAcq .. | .fenceRel .. | .fenceAr .. | .fenceSc .. | .barSync .. | .barArrive .. | .barWait ..
  | .barExpect .. | .barInit .. | .barState .. | .barm .. | .flight .. | .copy .. | .gather .. | .scatter ..
  | .tmap .. | .futTest .. | .futWait .. | .futStatus .. | .futCancel .. | .futAll .. | .yield .. | .pref ..
  | .cacheDemote .. | .cacheEvict .. | .cacheZero .. | .collGroup .. | .collRed .. | .collBcast .. | .collBar ..
  | .fmtb .. | .fmtbSc .. | .fmtbSp .. | .cohort .. | .cohortClear .. | .mma .. | .mmaSp .. | .mmaUf .. | .mmaSpec ..
  | .mmaSpecSp .. | .mmaSpecUf .. | .accZeroF32 .. | .accZeroI32 .. | .accLoad .. | .accStore .. | .specCommit ..
  | .specDiscard .. | .unfold .. | .spbm .. | .trap .. | .tret .. | .tretSkip .. | .tmask .. | .launch ..
  | .xctlInv .. | .xctlPfCore .. | .xctlPfHall .. | .xctlPinCore .. | .xctlPinHall .. | .xctlUnpinCore ..
  | .xctlUnpinHall .. | .sealOpen .. | .sealAbsorb .. | .sealClose .. | .sealAbort .. | .cntCtr .. | .cntMon ..
  | .cutMarkDy .. | .cutMarkFb .. | .cutStatus .. | .rdctxTrap .. | .rdctxLanes .. | .rdctxOpnd .. | .rdctxLaunch ..
  | .rdctxEnclave .. | .rdctxPlace .. => false

/-- Is a word one of the custom-0 instructions' words (R387)? As a Skedizon head word it has RSVZ nonzero, so no word
is both a custom-0 instruction and a well-formed Skedizon instruction (R241). -/
def isCustomWord (w : Nat) : Bool := w % 2 ^ 7 == 0x0B

/-- `n` words of a number, the least significant first. -/
def wordsOf : Nat → Nat → List Word
  | 0, _ => []
  | n + 1, w => BitVec.ofNat 32 w :: wordsOf n (w / 2 ^ 32)

/-- The instruction whose bits are w, numbered as spec/opcode_table.json numbers them; words above nbits are zero. The
longest instruction has a head word, seven operand words and fourteen literal words. -/
def decodeTableWord (nbits w : Nat) : Option Instr :=
  let v := w % 2 ^ nbits
  if isCustomWord v then decodeCustom (BitVec.ofNat 32 v)
  else
    match (decode (wordsOf 22 v)).1 with
    | .ok i => some i
    | .illegal _ | .undefinedMajor | .malformed => none

end Sys2Proof
end

