-- ==== Sys2Proof/Machine/State.lean ====
section
/-! DEFINITION. The state of the RZ-160 package as plain data: everything the spec gives the machine, one structure
for each of its agents and objects. Tables are lists of (key, value) pairs with rising keys. -/

namespace Sys2Proof.Machine

/-! Values and lanes. -/

/-- The value of a lane (R244): up to 64 bits, or one of the opaque types. A value that is absent is poison (R237). -/
inductive Val where
  /-- Types of codes 0 to 11, zero-extended. -/
  | bits (v : BitVec 64)
  /-- A tensor map: the 128 descriptor bytes and, for the unfolding kind, geometry word and output shape (R139, R369). -/
  | tmap (desc : List Byte) (unfolding : Option (BitVec 64 × BitVec 32))
  /-- A format block: its 32 bytes (R357). -/
  | fmtb (block : List Byte)
  /-- An accumulator tile of the core, and the speculative tile of a shadowed one (R361, R371). -/
  | acc (tile : Nat) (spec : Option Nat)
  deriving DecidableEq, Repr

/-- A call frame of a lane: the function, the translation it entered (R218), the return point, the values by id
(R245) and the argument slots (R253). -/
structure Frame where
  fn : Nat
  tr : Nat
  ret : BitVec 48
  vals : List (Nat × Val)
  args : List (BitVec 64)
  deriving DecidableEq, Repr

/-- A lane: its call frames, innermost first (R292), and the edge by which it reached the JOIN where it last arrived
(R287): the address of the instruction the edge leaves and the edge's place among those that instruction gives. -/
structure Lane where
  frames : List Frame
  edge : Option (BitVec 48 × Nat)
  deriving DecidableEq, Repr

/-! Paths and groups. -/

/-- Where a path runs (R182, R189, R192). -/
inductive Place where
  | core
  /-- Ejected; the hand-over copy is under way. -/
  | handing (gallery : Nat)
  | gallery (gallery : Nat)
  /-- Ejected; at its landing's JOIN, the copy-back is under way. -/
  | copying (gallery : Nat)
  /-- Ejected; the recall copy is under way. -/
  | recalling (gallery : Nat)
  deriving DecidableEq, Repr

/-- What a group's lanes are arriving at (R148, R152). -/
inductive Meet where
  | bar (b : Nat)
  | flight (f : Nat)
  deriving DecidableEq, Repr

/-- How far a path has come with an instruction that waits (R148, R147, R152, R154, R360). -/
inductive Stage where
  | none
  /-- The path's lanes have executed the arrive; the group's arrival has not taken effect. -/
  | arriving (m : Meet)
  /-- The group's arrive took effect, or the wait began, in this phase of the barrier. -/
  | waiting (m : Meet) (phase : Nat)
  /-- Its lanes wait at a mask barrier. -/
  | masked
  /-- Released from a flight or a mask barrier. -/
  | released
  /-- A cut mark waits for its collective barrier, the operation of this number (R386). -/
  | joining (op : Nat)
  /-- A cut mark departs once the cutting of this number has been copied (R168). -/
  | cutting (k : Nat)
  /-- A joint MMA has issued: the results of this path (R360). -/
  | issued (results : List Val)
  /-- A failed rendezvous raises HANDLE_INVALID here (R360). -/
  | failed
  /-- Waits for the translation of the function it enters (R209). -/
  | translating (fn : Nat)
  deriving DecidableEq, Repr

/-- What a trap carries: its code, the lanes, the flags raised, and the operand values of the path's lanes (R379, R405). -/
structure TrapInfo where
  code : Nat
  lanes : LaneMask
  flags : BitVec 6
  opnds : List (Nat × List (BitVec 64))
  deriving DecidableEq, Repr

/-- A path of a group (R182). -/
structure Path where
  pc : BitVec 48
  mask : LaneMask
  /-- Bits [63:0] of the mode word (R297, R298). -/
  mode : BitVec 64
  /-- Pending landings by record number, innermost first (R186). -/
  pend : List Nat
  /-- The edge its lanes last took, where one edge holds for all: the instruction it leaves and the place of the edge
  among those that instruction gives, fall-through first (R287). `none`: each lane's own edge. -/
  last : Option (BitVec 48 × Nat)
  place : Place
  stage : Stage
  /-- Parked by YIELD: the continuation (R138). -/
  yield : Option (BitVec 48)
  /-- Recalled: its lanes are never ejected again for this divergence (R192). -/
  recalled : Bool
  /-- Lanes whose access the instruction at pc has performed, and what they read (R217). -/
  done : LaneMask
  got : List (Nat × List Val)
  /-- The arms still to be divided of a BRM at pc, lane by lane (R183). -/
  arms : List (Nat × Nat)
  /-- The trap of an ejected path that is being recalled for it (R198). -/
  owed : Option TrapInfo
  deriving DecidableEq, Repr

/-- A landing in progress (R186): the lanes that are to meet, those that have arrived, the modes of the arriving arms,
whether its timer runs (R193), the landings outside it, where its owner runs, the numbers of the core paths that
have arrived, each of which still counts as a core path of the group (R182, R184), and whether its waiting lanes are in the handler of
their JOIN_TIMEOUT, until which they do not depart (R194). -/
structure LandRec where
  uid : Nat
  id : Nat
  join : BitVec 48
  /-- The call depth of the branch, and the path that branched. -/
  depth : Nat
  owner : Nat
  need : LaneMask
  arrived : LaneMask
  modes : List (LaneMask × BitVec 64)
  timer : Bool
  outer : List Nat
  place : Place
  waits : List Nat
  away : Bool
  deriving DecidableEq, Repr

/-- A landing-stack entry (R182): its landing (none for R431), pending lanes, their virtual PC, the owning path, the
mode copy, its pending landings, the edge its lanes took, the BRM arms they still have to divide, where its owner
runs, and the number of the path that it becomes: the owner's, but for a recalled path's entry its own (R192). -/
structure Entry where
  rcd : Option Nat
  lanes : LaneMask
  pc : BitVec 48
  owner : Nat
  mode : BitVec 64
  pend : List Nat
  last : Option (BitVec 48 × Nat)
  arms : List (Nat × Nat)
  place : Place
  runs : Nat
  deriving DecidableEq, Repr

/-- The path state of a group, running or frozen (R182, R406): paths, landing stack (innermost last), landings in
progress (innermost last), lanes that have executed an arrive not yet in effect (R148), and lanes waiting at a mask
barrier with their masks (R154). -/
structure Ctx where
  paths : List (Nat × Path)
  stack : List Entry
  recs : List LandRec
  meets : List (Meet × LaneMask)
  barm : List (Nat × BitVec 64)
  deriving DecidableEq, Repr

/-- The handler context of a group (R406, R377, R379, R431). -/
structure Handler where
  code : BitVec 8
  lanes : LaneMask
  pc : BitVec 48
  flags : BitVec 6
  /-- The operand values of the trapping instruction, lane by lane (R379). -/
  opnds : List (Nat × List (BitVec 64))
  /-- The trapping path. -/
  path : Nat
  frozen : Ctx
  /-- Lanes that left by TRET, and by TRET.SKIP. -/
  trets : LaneMask
  skips : LaneMask
  /-- The mode copy of the last handler path (R406). -/
  mode : BitVec 64
  deriving DecidableEq, Repr

/-- A resident or saved group (R171, R176). -/
structure Group where
  team : Nat
  index : Nat
  role : Nat
  slot : Nat
  width : Nat
  lanes : List (Nat × Lane)
  exited : LaneMask
  ctx : Ctx
  handler : Option Handler
  /-- GUARD bits [127:64] of the mode word (R297). -/
  guard : LaneMask
  /-- The delivery mask (R378). -/
  tmask : BitVec 16
  /-- The cohort register (R359). -/
  cohort : BitVec 32
  /-- The next path number and landing record number. -/
  fresh : Nat
  /-- Pre-emption stops the group's issue (R408); `held` while its handler is held (R411). -/
  stopped : Bool
  held : Bool
  deriving DecidableEq, Repr

/-! Teams, launches and engine operations. -/

/-- A named barrier (R146): the state word's fields, the marks, OUT, the phases passed, and the operations whose bytes
each phase has counted (R149). -/
structure Bar where
  pend : Int
  arrived : Nat
  phases : Nat
  expect : Nat
  marks : List Nat
  out : Nat
  counted : List Nat
  observed : List (Nat × List Nat)
  deriving DecidableEq, Repr

/-- A future slot (R132): use count, status (R133) and operation. -/
structure Slot where
  gen : Nat
  status : BitVec 8
  op : Nat
  deriving DecidableEq, Repr

/-- A member waiting at a cohort latch (R360). -/
structure LatchWait where
  group : Nat
  path : Nat
  pos : Nat
  size : Nat
  sub : Nat
  ops : List Val
  mode : BitVec 64
  deriving DecidableEq, Repr

/-- A team (R171, R172): its launch, linear index, gang member and core; its scratchpad (R62), barriers, future slots
and latches. `resident` is false while it waits for a core. -/
structure Team where
  launch : Nat
  index : Nat
  member : Nat
  core : Nat
  resident : Bool
  spad : List Host.Cell
  bars : List (Nat × Bar)
  slots : List (Nat × Slot)
  issues : Nat
  latches : List (Nat × List LatchWait)
  deriving DecidableEq, Repr

/-- An accumulator tile (R361): INT32 kind, elements row-major (absent ones 0), the team that holds it, and the tile whose
elements it takes when an operation that writes that one completes (R362, R371). -/
structure Tile where
  int : Bool
  els : List (Nat × BitVec 32)
  team : Nat
  copy : Option (Nat × Nat)
  deriving DecidableEq, Repr

/-- A seal context (R382): algorithm, record address, the bytes absorbed, whether it is closed, and the absorption in progress
with the bytes it has fed. -/
structure Seal where
  mldsa : Bool
  rcd : BitVec 64
  bytes : List Byte
  closed : Bool
  busy : Option Nat
  part : List Byte
  deriving DecidableEq, Repr

/-- How far a launch has come (R394, R398, R103). -/
inductive LaunchPhase where
  | queued | dispatched | ended | retired
  deriving DecidableEq, Repr

/-- What becomes of a gang (R399, R416). -/
inductive GangState where
  | waiting | placed | stopping | saved | finished
  deriving DecidableEq, Repr

/-- A gang of a launch: state, hall and block, when it was pre-empted, and its teams' keys; and, while it is saved, its groups
as they stopped, the tiles that await another's elements (R371), and how many live tiles each team's frame holds: of these,
restore takes only what the frame has no place for (R414, R416); and the operations that its frames hold. -/
structure Gang where
  state : GangState
  hall : Nat
  block : Nat
  age : Nat
  teams : List Nat
  kept : List (Nat × Group)
  copies : List (Nat × Nat × Nat)
  live : List (Nat × Nat)
  ops : List Nat
  deriving DecidableEq, Repr

/-- A launch (R393 to R396): the descriptor copy, the parameter copy (R252), sequence and queue. -/
structure Launch where
  enclave : Nat
  seq : BitVec 64
  queue : Nat
  desc : List Byte
  place : List Byte
  params : List Byte
  phase : LaunchPhase
  status : BitVec 16
  detail : BitVec 8
  addr : BitVec 48
  cycles : Nat
  ejections : Nat
  gangs : List (Nat × Gang)
  seals : List (Nat × Seal)
  /-- Groups that have arrived at a flight on a die, and flights whose last arrival has come (R151, R152). -/
  flights : List ((Nat × Nat) × List Nat)
  dispatchNo : Nat
  /-- The completion object is written; it is abandoned (R432). -/
  written : Bool
  abandoned : Bool
  /-- The number of its code object. -/
  obj : Nat
  deriving DecidableEq, Repr

/-- An engine operation (R127 to R137, R415): class, team and group, slot and its GEN, the issuing major and SUB, the operand
values as issued, the mode word at issue, effective scope, barrier, what has landed, flags, status, stop request, HINT,
and, while it is speculative, the lanes that have observed it (R371). -/
structure EngOp where
  cls : Nat
  team : Nat
  group : Nat
  slot : Nat
  gen : Nat
  maj : Nat
  sub : Nat
  vals : List Val
  mode : BitVec 64
  scope : Nat
  bar : Option Nat
  /-- Members by position of an MMA: (group, path, values) (R360); the operations that a combined future names (R136); a
  collective's group and meeting (R352). -/
  members : List (Nat × Nat × List Val)
  /-- The id of the future, the coordinate y of stochastic rounding (R234, R343). -/
  id : Nat
  landed : List Nat
  total : Nat
  bytes : Nat
  flags : BitVec 6
  status : BitVec 8
  cancel : Bool
  spec : Bool
  /-- An element was clipped (R144); the members of a collective barrier named different cuttings (R167). -/
  clipped : Bool
  hint : BitVec 2
  watch : List (Nat × LaneMask)
  /-- How many steps have started, in walk order (R129, R410). -/
  started : Nat
  /-- The rows of a gather or scatter, once it has read its indices (R344). -/
  rows : List Int
  /-- The granules of the source that it reads whole, each twice its number plus 1 in scratchpad; and the granules and blocks that it
  has read, which are read as one (R121, R122). -/
  whole : List Nat
  seen : List (Nat × List Byte)
  deriving DecidableEq, Repr

/-! Code objects and translations. -/

/-- A function table entry (R204). -/
structure FnEntry where
  entry : BitVec 64
  len : Nat
  nval : Nat
  land0 : Nat
  nland : Nat
  kind : Nat
  width : Nat
  deriving DecidableEq, Repr

/-- A loaded code object (R200 to R207). One that has been unloaded (R218) stays for the launches accepted before. -/
structure CodeObj where
  loaded : Bool
  enclave : Nat
  header : BitVec 64
  fns : List FnEntry
  lands : List (Nat × Nat × Nat)
  fmtbs : List (List Byte)
  params : List (Nat × Ty × Nat)
  trapFn : Option Nat
  deriving DecidableEq, Repr

/-- A translation of one function in a hall's cache (R209, R210): what it was made for (a hall lies on one die, so the
hall fixes the stepping), the number of the code object it was made from, the code words, the value types by id (R246), and
the fault if it has one (R211). Translations stand in order of their last entry. -/
structure Trans where
  enclave : Nat
  obj : Nat
  fn : Nat
  entry : BitVec 48
  width : Nat
  budget : Nat
  hall : Nat
  words : List Word
  types : List (Option Ty)
  lands : List (Nat × Nat × Nat)
  fault : Option (Nat × BitVec 48)
  /-- Installed in the cache: entries made from now on use it (R218). -/
  live : Bool
  /-- Its pins (R216): at a core, or at the hall's cache (none), and by which launch, or by a CPU thread (none). -/
  pins : List (Option Nat × Option Nat)
  deriving DecidableEq, Repr

/-- A translation in progress (R209, R219). -/
structure Building where
  enclave : Nat
  obj : Nat
  fn : Nat
  width : Nat
  budget : Nat
  hall : Nat
  marked : Bool
  deriving DecidableEq, Repr

/-! Enclaves, partitions, the page ownership table. -/

/-- The states of an enclave (R27). -/
inductive EncState where
  | none | building | measured | dying
  deriving DecidableEq, Repr

/-- A monitor (R13): least, greatest and number of samples, and the 16 bins. -/
structure Monitor where
  min : BitVec 32
  max : BitVec 32
  count : BitVec 64
  bins : List (Nat × BitVec 64)
  deriving DecidableEq, Repr

/-- The registers of a general core that are not its integer registers (R1): floating-point, vector, and a program's control and
status registers, as far as they are not zero. -/
structure MoreRegs where
  f : List (Nat × BitVec 64)
  v : List (Nat × List Byte)
  csr : List (Nat × BitVec 64)
  deriving DecidableEq, Repr

/-- A CPU thread of an enclave (R390): whether it has started, whether it is dead (R52), and its sealed registers and pc. -/
structure Thread where
  started : Bool
  dead : Bool
  regs : List (Nat × BitVec 64)
  pc : BitVec 64
  more : MoreRegs
  deriving DecidableEq, Repr

/-- An enclave (R24 to R28). -/
structure Enclave where
  state : EncState
  part : Nat
  root : BitVec 40
  keySlot : Nat
  gen : BitVec 8
  h : BitVec 32
  m : BitVec 384
  /-- Key numbers: memory, previous generation, paging, scrambler (R25). -/
  keyMem : Nat
  keyPrev : Option Nat
  keyPage : Nat
  keyScr : Nat
  seq : BitVec 64
  /-- Launches waiting in each queue, head first (R398), and DISP (R397). -/
  queues : List (Nat × List Nat)
  disp : List (Nat × BitVec 32)
  robin : Nat
  weight : BitVec 8
  /-- Counters by number and core (R214, R385), and the ladder counters 16 to 18. -/
  counters : List (Nat × BitVec 64)
  monitors : List (Nat × Monitor)
  handles : List Nat
  threads : List (Nat × Thread)
  pageKeyed : Bool
  deriving DecidableEq, Repr

/-- The states of a POT entry (R38). -/
inductive PotState where
  | free | scrubbing | clean | owned | paged | sharedRo | moving | fixed
  deriving DecidableEq, Repr

/-- A POT entry (R37). -/
structure PotEntry where
  version : BitVec 32
  evpn : BitVec 36
  owner : BitVec 16
  state : PotState
  keygen : BitVec 8
  part : BitVec 3
  meas : Bool
  poison : Bool
  deriving DecidableEq, Repr

/-- The translation fault kinds (R47). -/
inductive FaultKind where
  | notPresent | writeProtect | malformedPte | potMismatch | integrity | keyStale
  deriving DecidableEq, Repr

/-- The access kinds (R40, R47). -/
inductive AccessKind where
  | load | store | atomic | code | engRead | engWrite
  deriving DecidableEq, Repr

/-- Who waits on a fault record (R45, R49, R432). -/
inductive Waiter where
  /-- Lanes of a path of a group. -/
  | path (group path : Nat)
  /-- An engine operation. -/
  | eng (op : Nat)
  /-- The DEP read of a queue head; the completion write of a launch. -/
  | dep (launch : Nat)
  | done (launch : Nat)
  /-- A frame write of a gang's team. -/
  | save (team : Nat)
  /-- A cutting's copy. -/
  | cut (k : Nat)
  deriving DecidableEq, Repr

/-- A fault record (R47, R48): formed, perhaps posted, with the accesses that wait for it. -/
structure FaultRec where
  kind : FaultKind
  nc : Bool
  level : Nat
  size : Nat
  access : AccessKind
  enclave : Nat
  core : Nat
  slot : Nat
  va : BitVec 48
  /-- The sequence number once posted (R46). -/
  seq : Option (BitVec 64)
  merges : Nat
  waiters : List Waiter
  /-- The launch that raised it (R50). -/
  raiser : Option Nat
  deriving DecidableEq, Repr

/-- An invalidation in progress (R44). -/
structure Inval where
  enclave : Option Nat
  first : Nat
  pages : Option Nat
  deriving DecidableEq, Repr

/-- A partition (R3, R5, R6, R46, R43, R70, R401). -/
structure Part where
  formed : Bool
  cores : List Nat
  halls : List Nat
  sets : List Nat
  port : Nat
  bootKey : Option BootKey
  /-- SHA-384 of the boot key (R6). -/
  bootDigest : BitVec 384
  sealKey : Nat
  booted : Bool
  rejected : Bool
  firstMeas : BitVec 384
  fqBase : BitVec 64
  fqTail : BitVec 32
  fqHead : BitVec 32
  faultSeq : BitVec 64
  /-- Fault records by number in order of forming: pending, waiting in a hall, or open NC (R48, R50). -/
  recs : List (Nat × FaultRec)
  /-- Faults that wait for one of the 1,024 records to close (R48). -/
  queue : List FaultRec
  xltAddr : BitVec 64
  xltCtl : BitVec 64
  inval : Option Inval
  l2Class : List (Nat × BitVec 64)
  wayMask : List (Nat × BitVec 24)
  quantum : BitVec 16
  sel : BitVec 16
  preemptGo : Bool
  preemptEnc : BitVec 16
  /-- The gangs that GO pre-empts, by launch and number (R403). -/
  preempted : List (Nat × Nat)
  /-- The scrub queue, as runs (first, count), and the clean pool in order (R54, R55). -/
  scrub : List (Nat × Nat)
  pool : List Nat
  monitors : List (Nat × Monitor)
  /-- Correction searches of the partition's lines that corrected, and that poisoned (R82, R89). -/
  searched : Monitor × Monitor
  /-- General cores with a fault interrupt pending (R46). -/
  extIrq : List Nat
  deriving DecidableEq, Repr

/-- A cached translation in a TLB (R41), by the number of the TLB: 0 to 159 an accelerator core's, 160 to 799 a gallery core's,
800 to 819 a hall's. -/
structure TlbEntry where
  unit : Nat
  enclave : Nat
  vpn : Nat
  ppn : Nat
  size : Nat
  w : Bool
  x : Bool
  cls : Nat
  deriving DecidableEq, Repr

/-- An L2 line (R65, R66, R73): die, line address, way, world, dirty, protected, recency, and how many bits of it an error has
flipped (R79). -/
structure L2Line where
  die : Nat
  line : Nat
  way : Nat
  world : Nat
  dirty : Bool
  prot : Bool
  used : Nat
  err : Nat
  deriving DecidableEq, Repr

/-- A line in a general core's cache (R68): general core, line address, world, dirty. -/
structure CoreLine where
  hart : Nat
  line : Nat
  world : Nat
  dirty : Bool
  deriving DecidableEq, Repr

/-- A line as HBM stores it (R80, R81): the 64 bytes that were encrypted, the number of the generation's keys, the generation, the
VERSION that the MAC binds, and which of the 576 stored bits have flipped since. -/
structure Sealed where
  data : List Byte
  key : Nat
  gen : BitVec 8
  version : BitVec 32
  flips : List Nat
  deriving DecidableEq, Repr

/-- A carve-out line whose stored copy is not the current one (R88): by how many writes it is behind, and the bits that have
flipped. -/
structure CarveLine where
  behind : Nat
  flips : List Nat
  deriving DecidableEq, Repr

/-- The monitors of the data path for one partition or enclave (R14, R89): HBM read latency; the corrected soft errors of memory,
with the lines read and the corrections since its last sample; and the same for the on-chip arrays. -/
structure PathMon where
  latency : Monitor
  soft : Monitor
  reads : Nat
  fixed : Nat
  chip : Monitor
  chipReads : Nat
  chipFixed : Nat
  deriving DecidableEq, Repr

/-! General cores. -/

/-- The modes of a general core (R387; the privileged architecture is RISC-V's, R1). -/
inductive HartMode where
  | hs | vs | vu | u
  deriving DecidableEq, Repr

/-- What the custom-0 instruction at a general core's pc waits for: a frame of the clean pool (R55), or its frame in MOVING
(R56). -/
inductive HartWait where
  | nothing | pool | drain
  deriving DecidableEq, Repr

/-- Where a general core is inside of an enclave (R390): enclave and thread, the address of the ENC.ENTER and its result
register, and the registers outside. -/
structure Inside where
  enclave : Nat
  thread : Nat
  enter : BitVec 64
  rd : BitVec 5
  outer : List (Nat × BitVec 64)
  outerMore : MoreRegs
  deriving DecidableEq, Repr

/-- A general core: registers x1 to x31 that are not zero, its other registers, the supervisor's control and status registers that no
field below holds, pc, mode, the trap registers of RISC-V's HS-mode with the status bits SPP, SPV, SPIE and SIE (R1, R52, R387), the
thread that it runs, whether it is held in reset (R5), what it waits for, and what a far end has answered to the instruction at its
pc (R67). -/
structure Hart where
  regs : List (Nat × BitVec 64)
  more : MoreRegs
  sys : List (Nat × BitVec 64)
  pc : BitVec 64
  mode : HartMode
  sepc : BitVec 64
  scause : BitVec 64
  stval : BitVec 64
  stvec : BitVec 64
  spp : Bool
  spv : Bool
  spie : Bool
  sie : Bool
  inside : Option Inside
  inReset : Bool
  wait : HartWait
  answer : Option (List Byte)
  deriving DecidableEq, Repr

/-! Management, links, collectives, cuttings. -/

/-- The statuses of a management access (R8). -/
inductive MgmtStatus where
  | ok | notOwner
  deriving DecidableEq, Repr

/-- Device-level management (R7, R9): owner, named successor, the status of the last write, the partitions reported for a
failed stack (R12), whether the status ROOT_INTEGRITY stands (R88), and state that no other rule names, by address. -/
structure Mgmt where
  owner : Option Nat
  successor : Option Nat
  lastStatus : MgmtStatus
  reported : List Nat
  rootIntegrity : Bool
  words : List (Nat × BitVec 64)
  deriving DecidableEq, Repr

/-- What a partition's SPDM responder returns (R5, R6): the chain of the device attestation key; the certificates of the seal
key, which name the partition and the boot key's digest; or measurements. -/
inductive Reply where
  | chain
  | sealKey (part : Nat) (digest : BitVec 384) (key : Nat)
  | measurements (ms : List (BitVec 384))
  deriving DecidableEq, Repr

/-- The state of a bring-up function (R11). -/
inductive FnState where
  | absent | training | ready | failed (reason : Nat)
  deriving DecidableEq, Repr

/-- The state of a stream (R156, R161). -/
inductive StreamState where
  | down | keying | up
  deriving DecidableEq, Repr

/-- A stream context (R156, R158): enclave, peer, port, state, generation, sequences, the retry requests sent for the SEQ that is
expected, whether its tag has failed once, the SEQ that the peer asked for again last and how often, the retries among the
flits that the monitor counts (R14), and the key's number. -/
structure Stream where
  enclave : Nat
  peer : Nat
  port : Nat
  state : StreamState
  keygen : BitVec 8
  tx : Nat
  rx : Nat
  retries : Nat
  tagFailed : Bool
  asked : Nat × Nat
  retried : Nat
  key : Nat
  deriving DecidableEq, Repr

/-- A PCIe IDE selective stream with its TDISP binding (R161), and what the last read over it was given. -/
structure Ide where
  enclave : Nat
  state : StreamState
  run : Bool
  answer : List Byte
  deriving DecidableEq, Repr

/-- The stream that a request goes by: a link stream, or an IDE stream. -/
inductive Via where
  | link (stream : Nat)
  | ide (k : Nat)
  deriving DecidableEq, Repr

/-- Who waits for a far end: a lane of a path of a group, or a general core. -/
inductive Asker where
  | lane (group path lane : Nat)
  | hart (h : Nat)
  deriving DecidableEq, Repr

/-- A read, write or atomic that waits for a far end (R67, R120): its stream, the SEQ of its flit, who waits, for which enclave, its
address at the far end, the virtual page that translated to it, and its bytes. -/
structure FarReq where
  via : Via
  seq : Nat
  who : Asker
  enclave : Nat
  va : BitVec 64
  page : Nat
  write : Bool
  data : List Byte
  deriving DecidableEq, Repr

/-- The state of a collective group (R162 to R164, R351). -/
inductive CollState where
  | building | valid | invalid | lost
  deriving DecidableEq, Repr

/-- A contribution to a meeting of a collective group (R163, R352): the member, what it states, and its bytes so far. -/
structure CollMsg where
  member : Nat
  about : Contrib
  data : List Byte
  deriving DecidableEq, Repr

/-- A collective group of an enclave: members in list order, state, current generation, whether a re-key runs, the
operation that builds it, how many collectives have been issued on it (R352), the contributions present, the digest of the list
(R162), the numbers of the live generations' keys, and the meetings that are decided while their result is being written: status,
and the generation that the result is sealed under (R163). -/
structure Coll where
  enclave : Nat
  handle : Nat
  members : List Nat
  state : CollState
  gen : Nat
  rekey : Bool
  build : Nat
  issued : Nat
  inbox : List CollMsg
  digest : BitVec 384
  keys : List (Nat × Nat)
  decided : List (Nat × BitVec 8 × Nat)
  deriving DecidableEq, Repr

/-- A cutting (R167 to R170): its enclave and launch, the flight where it is taken (die and flight; none at a collective
barrier), the descriptor's address and fields, the futures' operations, and how far it has come: copied to DEST, drained to
storage by so many bytes, ended. -/
structure Cut where
  enclave : Nat
  launch : Nat
  spot : Option (Nat × Nat)
  desc : BitVec 64
  dest : BitVec 64
  lba : Nat
  dkey : List Byte
  used : Nat
  cutId : BitVec 32
  copied : Bool
  /-- The enclave's count of cuttings had no room (R168). -/
  refused : Bool
  ops : List Nat
  drained : Nat
  ended : Bool
  deriving DecidableEq, Repr

/-- A rake's collection for one gang (R408, R409): the acknowledgements awaited. -/
structure Rake where
  launch : Nat
  gang : Nat
  waits : Nat
  deriving DecidableEq, Repr

/-- What becomes of a frame in MOVING (R53, R56): it is freed, or sealed out into a buffer with a slot and a version, for a
general core. -/
inductive Move where
  | free
  | out (slot buf version hart : Nat) (rd : BitVec 5)
  deriving DecidableEq, Repr

/-- How a hall's turn stands (R402): an enclave holds it, its gangs leave to end it, or it is over. -/
inductive Hold where
  | holds | leaves | past
  deriving DecidableEq, Repr

/-- Which agent moves in the next step: an input of the machine. -/
inductive Turn where
  /-- An event of the outside world or of time. -/
  | event (i : Instr)
  /-- A path of a group issues. -/
  | path (group path : Nat)
  /-- A general core executes the instruction at its pc. -/
  | hart (h : Nat)
  deriving DecidableEq, Repr

/-- The state of the package. -/
structure State where
  /-- The model's own: which agents move next; the group, path and general core that execute; the counter of free
  values (assumption log 1). -/
  turns : List Turn
  cur : Option (Nat × Nat)
  curHart : Nat
  free : Nat
  /-- The number of the next launch, team, group, operation or other object. -/
  next : Nat
  mgmt : Mgmt
  funcs : List (FnId × FnState)
  fabricF : Nat
  fabricP : Nat
  clocks : List (Nat × Nat)
  deficits : List ((Nat × Nat) × Int)
  /-- The enclave whose turn a hall had last, and how the turn stands. -/
  holders : List (Nat × Nat × Hold)
  cycles : List (Nat × BitVec 64)
  gcycles : List (Nat × BitVec 64)
  keys : Nat
  parts : List (Nat × Part)
  encls : List (Nat × Enclave)
  /-- POT entries that differ from their default (R36 to R38), and the partition of page number runs (first, count,
  partition). -/
  pot : List (Nat × PotEntry)
  potParts : List (Nat × Nat × Nat)
  lineMask : List (Nat × BitVec 64)
  /-- The number of the keys of slot 0: the clean key (R25). -/
  cleanKey : Nat
  /-- Lines of HBM whose stored bits are not those that their contents in `mem` give under the frame's key, VERSION and KEYGEN: an
  older line under a dirty copy, or one that has been changed from outside (R80 to R82, R86). -/
  hbm : List (Nat × Sealed)
  /-- Carve-out lines that are not as the root of trust wrote them last (R88). -/
  carve : List (Nat × CarveLine)
  searches : List Nat
  mem : List Host.Cell
  /-- Reservations of load-reserves of the general cores: general core, physical address and length (R119). -/
  resv : List (Nat × Nat × Nat)
  tlb : List TlbEntry
  /-- Walks in progress (R41): hall, enclave and virtual page number. -/
  walks : List (Nat × Nat × Nat)
  /-- Paths whose translation met a frame in MOVING (R40, R60). -/
  moving : List (Nat × Nat)
  /-- General cores whose request waits for the root of trust, and those whose instruction waits for a frame of the clean pool, in
  the order of arrival (R55, R60). -/
  requests : List Nat
  poolWaits : List Nat
  /-- Accesses that FAULT.RESOLVE has let replay, by the core or gallery core that they stalled, in their order (R49). -/
  replays : List (Nat × Waiter)
  /-- Frames in MOVING, by page number. -/
  moves : List (Nat × Move)
  l2 : List L2Line
  /-- The caches of the general cores. -/
  coreLines : List CoreLine
  /-- The monitors of the data path, of partition p at p and of enclave e at 8 + e. -/
  pathMons : List (Nat × PathMon)
  harts : List (Nat × Hart)
  /-- Accelerator cores whose scratchpad, accumulator store or register file holds a double-bit error (R79). -/
  coreErrs : List Nat
  /-- Accelerator cores whose arrays hold a single-bit error (R79). -/
  coreFlips : List Nat
  launches : List (Nat × Launch)
  teams : List (Nat × Team)
  groups : List (Nat × Group)
  /-- Accumulator tiles by core × 32 + tile (R361). -/
  tiles : List (Nat × Tile)
  ops : List (Nat × EngOp)
  objs : List (Nat × CodeObj)
  trans : List (Nat × Trans)
  building : List (Nat × Building)
  streams : List (Nat × Stream)
  ides : List (Nat × Ide)
  far : List (Nat × FarReq)
  /-- The packages of the fabric whose F the root of trust has learned, with the identity that each attested (R155). -/
  peers : List (Nat × Nat)
  /-- The last flits sent on each port (R158). -/
  replay : List (Nat × List Flit)
  colls : List (Nat × Coll)
  cuts : List (Nat × Cut)
  rakes : List (Nat × Rake)
  /-- XCTL operations in progress by path (R381). -/
  xctls : List (Nat × Nat)
  /-- The partitions' storage namespaces, as far as cuttings have been drained to them (R169). -/
  storage : List (Nat × List Host.Cell)
  /-- What each partition's SPDM responder last returned. -/
  replies : List (Nat × Reply)
  deriving DecidableEq, Repr

/-- Why the machine stops with a fault. -/
inductive Fault where
  /-- Raised by `exec` given a Skedizon instruction in a state where no path executes; `step` never raises it. Safe. -/
  | noExecutor
  deriving DecidableEq, Repr

/-- Why an instruction has no meaning here. -/
inductive Refusal where
  /-- Raised by `exec` for an instruction without a meaning yet. Safe. -/
  | notModelled (mnemonic : String)
  deriving DecidableEq, Repr

/-- A general core at reset (assumption log 4): held until its partition boots (R5). -/
def Hart.reset : Hart := ⟨[], ⟨[], [], []⟩, [], 0, .hs, 0, 0, 0, 0, false, false, false, false, none, true, .nothing, none⟩

/-- The package right after reset (R7, R36, R38). -/
def State.reset : State where
  turns := []
  cur := none
  curHart := 0
  free := 0
  next := 0
  mgmt := ⟨none, none, .ok, [], false, []⟩
  funcs := []
  fabricF := 0
  fabricP := 1
  clocks := []
  deficits := []
  holders := []
  cycles := []
  gcycles := []
  keys := 3
  parts := []
  encls := []
  pot := []
  potParts := []
  lineMask := []
  cleanKey := 0
  hbm := []
  carve := []
  searches := []
  mem := []
  resv := []
  tlb := []
  walks := []
  moving := []
  requests := []
  poolWaits := []
  replays := []
  moves := []
  l2 := []
  coreLines := []
  pathMons := []
  harts := []
  coreErrs := []
  coreFlips := []
  launches := []
  teams := []
  groups := []
  tiles := []
  ops := []
  objs := []
  trans := []
  building := []
  streams := []
  ides := []
  far := []
  peers := []
  replay := []
  colls := []
  cuts := []
  rakes := []
  xctls := []
  storage := []
  replies := []

end Sys2Proof.Machine
end

