-- ==== Sys2Proof/Machine/Table.lean ====
section
/-! DEFINITION. Tables of (key, value) pairs, byte memories in one canonical form, and little-endian numbers. -/

namespace Sys2Proof.Machine

/-! Tables. -/

/-- The value of a key, if the table has one. -/
def mget {κ α : Type} [DecidableEq κ] (m : List (κ × α)) (k : κ) : Option α :=
  match m with
  | [] => none
  | (k', v) :: rest => if k' = k then some v else mget rest k

/-- The table with a key's value set: in its place, or at the end. -/
def mset {κ α : Type} [DecidableEq κ] (m : List (κ × α)) (k : κ) (v : α) : List (κ × α) :=
  match m with
  | [] => [(k, v)]
  | (k', v') :: rest => if k' = k then (k, v) :: rest else (k', v') :: mset rest k v

/-- The table without a key. -/
def mdel {κ α : Type} [DecidableEq κ] (m : List (κ × α)) (k : κ) : List (κ × α) :=
  match m with
  | [] => []
  | (k', v') :: rest => if k' = k then mdel rest k else (k', v') :: mdel rest k

/-- The table with a key's value changed, if it has one. -/
def mupd {κ α : Type} [DecidableEq κ] (m : List (κ × α)) (k : κ) (f : α → α) : List (κ × α) :=
  match mget m k with
  | some v => mset m k (f v)
  | none => m

/-! Byte memories: addresses strictly rising, no entry equal to 0, what an unlisted address reads as. -/

/-- What an unlisted byte reads as: memory is scrubbed to zeros before it can be used (R54; assumption log 3), and a
team's scratchpad starts as zeros (R63). -/
def unlistedByte : Byte := 0

/-- The byte at an address. -/
def readByte (m : List Host.Cell) (a : Nat) : Byte :=
  match m with
  | [] => unlistedByte
  | (b, v) :: rest => if b = a then v else if a < b then unlistedByte else readByte rest a

/-- The memory with a byte written, in canonical form. -/
def writeByte (m : List Host.Cell) (a : Nat) (v : Byte) : List Host.Cell :=
  match m with
  | [] => if v = unlistedByte then [] else [(a, v)]
  | (b, w) :: rest =>
      if b = a then (if v = unlistedByte then rest else (a, v) :: rest)
      else if a < b then (if v = unlistedByte then (b, w) :: rest else (a, v) :: (b, w) :: rest)
      else (b, w) :: writeByte rest a v

/-- Do the entries rise, above a bound, without an entry equal to the unlisted byte? -/
def cellsAbove (lo : Nat) : List Host.Cell → Bool
  | [] => true
  | (a, v) :: rest => decide (lo ≤ a) && decide (v ≠ unlistedByte) && cellsAbove (a + 1) rest

/-- The canonical form of a memory. -/
def Memory.wf (m : List Host.Cell) : Bool := cellsAbove 0 m

/-- `n` bytes from an address. -/
def readBytes (m : List Host.Cell) (a : Nat) : Nat → List Byte
  | 0 => []
  | n + 1 => readByte m a :: readBytes m (a + 1) n

/-- The memory with bytes written from an address on. -/
def writeBytes (m : List Host.Cell) (a : Nat) : List Byte → List Host.Cell
  | [] => m
  | v :: vs => writeBytes (writeByte m a v) (a + 1) vs

/-- The memory without the entries from an address on, `n` bytes: they read as unlisted. -/
def clearBytes (m : List Host.Cell) (a n : Nat) : List Host.Cell :=
  m.filter fun c => decide (c.1 < a) || decide (a + n ≤ c.1)

/-! Little-endian numbers (R240, R329). -/

/-- The number of bytes, the first the least significant. -/
def leNat : List Byte → Nat
  | [] => 0
  | b :: bs => b.toNat + 256 * leNat bs

/-- `n` bytes of a number, the least significant first. -/
def leBytes : Nat → Nat → List Byte
  | 0, _ => []
  | n + 1, v => BitVec.ofNat 8 v :: leBytes n (v / 256)

/-- The number in `n` bytes at an address. -/
def readLE (m : List Host.Cell) (a n : Nat) : Nat := leNat (readBytes m a n)

/-- The number in the bytes [off, off + n) of a list; bytes beyond the list read as zero. -/
def fieldAt (bs : List Byte) (off n : Nat) : Nat := leNat ((bs.drop off).take n)

/-- Bits [hi : lo] of a number. -/
def bitsOf (v hi lo : Nat) : Nat := v / 2 ^ lo % 2 ^ (hi + 1 - lo)

/-- The bytes of a list with those from an offset on replaced. -/
def putBytes (bs : List Byte) (off : Nat) (vs : List Byte) : List Byte :=
  bs.take off ++ vs ++ bs.drop (off + vs.length)

/-- A list padded with zero bytes to a length. -/
def padTo (n : Nat) (bs : List Byte) : List Byte := bs ++ List.replicate (n - bs.length) 0

/-- The bytes of a bit vector's number, the least significant first. -/
def bvBytes {w : Nat} (n : Nat) (v : BitVec w) : List Byte := leBytes n v.toNat

/-- The number of a two's-complement reading of the low w bits. -/
def signedOf (w v : Nat) : Int :=
  let n := v % 2 ^ w
  if 0 < w ∧ 2 ^ (w - 1) ≤ n then (n : Int) - 2 ^ w else n

/-- The low w bits of an integer, as a number. -/
def wrapTo (w : Nat) (i : Int) : Nat := (i % (2 ^ w : Int)).toNat

/-! Masks. -/

/-- The lanes of a mask, ascending (R316). -/
def lanesOf (m : LaneMask) : List Nat := (List.range 64).filter fun l => m.getLsbD l

/-- The mask of lanes. -/
def maskOf (ls : List Nat) : LaneMask := ls.foldl (fun m l => m ||| (1#64 <<< l)) 0

/-- The mask of lanes 0 to w − 1. -/
def widthMask (w : Nat) : LaneMask := BitVec.ofNat 64 (2 ^ w - 1)

/-- How many lanes a mask holds. -/
def maskCount (m : LaneMask) : Nat := (lanesOf m).length

/-- Is every lane of the first mask in the second? -/
def maskSub (a b : LaneMask) : Bool := a &&& ~~~b == 0

end Sys2Proof.Machine
end

