-- ==== Sys2Proof/Machine/Crypto.lean ====
section
/-! DEFINITION. The algorithms that the spec names by their standards: SHA-384 (R5, R29, R162, R383), AES-256 with the
modes XTS (R80), CMAC (R81) and GCM (R56, R157, R169). The standards are FIPS 180-4, FIPS 197, IEEE 1619, NIST SP 800-38B and
NIST SP 800-38D (assumption log 5). Keys and messages are byte strings in the order of the standards. -/

namespace Sys2Proof.Machine

/-! Constants from roots of primes (FIPS 180-4). -/

/-- Is a number prime? -/
def isPrime (n : Nat) : Bool := 2 ≤ n && (List.range n).all fun d => d < 2 || n % d != 0

/-- The k-th root of a number, rounded down, of so many bits. -/
def rootOf (k n : Nat) : Nat → Nat
  | 0 => 0
  | bits + 1 =>
      let high := rootOf k (n / 2 ^ k) bits * 2
      if (high + 1) ^ k ≤ n then high + 1 else high

/-- The first 64 bits behind the point of the k-th root of a number. -/
def rootBits (k n : Nat) : BitVec 64 := BitVec.ofNat 64 (rootOf k (n * 2 ^ (64 * k)) 72)

/-- The first eighty primes. -/
def primes80 : List Nat := (List.range 410).filter isPrime

/-- The word of each round of SHA-384: from the cube roots of the first eighty primes. -/
def shaRoundWords : List (BitVec 64) := primes80.map (rootBits 3)

/-- The words that SHA-384 begins with: from the square roots of the ninth to the sixteenth prime. -/
def shaStart : List (BitVec 64) := ((primes80.drop 8).take 8).map (rootBits 2)

/-! SHA-384. -/

/-- The number of bytes, the first the most significant. -/
def beNat (bs : List Byte) : Nat := bs.foldl (fun n b => 256 * n + b.toNat) 0

/-- n bytes of a number, the most significant first. -/
def beBytes (n v : Nat) : List Byte := (leBytes n v).reverse

/-- The exclusive or of three rotations, or of two and a shift where the last amount counts a shift. -/
def shaMix (x : BitVec 64) (a b c : Nat) (shifts : Bool) : BitVec 64 :=
  x.rotateRight a ^^^ x.rotateRight b ^^^ if shifts then x >>> c else x.rotateRight c

/-- The next word of a block's schedule, from those before it, the last first. -/
def shaNext (ws : List (BitVec 64)) : BitVec 64 :=
  let w := fun k => ws.getD (k - 1) 0
  shaMix (w 2) 19 61 6 true + w 7 + shaMix (w 15) 1 8 7 true + w 16

/-- The schedule of a block, the last word first. -/
def shaSchedule (block : List Byte) : List (BitVec 64) :=
  let first := (List.range 16).map fun k => BitVec.ofNat 64 (beNat ((block.drop (8 * k)).take 8))
  (List.range 64).foldl (fun ws _ => shaNext ws :: ws) first.reverse

/-- One round: the eight working words with a schedule word and the round's own. -/
def shaRound (v : List (BitVec 64)) (w k : BitVec 64) : List (BitVec 64) :=
  match v with
  | [a, b, c, d, e, f, g, h] =>
      let t := h + shaMix e 14 18 41 false + ((e &&& f) ^^^ (~~~e &&& g)) + k + w
      let u := shaMix a 28 34 39 false + ((a &&& b) ^^^ (a &&& c) ^^^ (b &&& c))
      [t + u, a, b, c, d + t, e, f, g]
  | _ => v

/-- The chaining words after a block of 128 bytes. -/
def shaBlock (h : List (BitVec 64)) (block : List Byte) : List (BitVec 64) :=
  let v := ((shaSchedule block).reverse.zip shaRoundWords).foldl (fun v wk => shaRound v wk.1 wk.2) h
  h.zipWith (· + ·) v

/-- The chaining words after n whole blocks of a byte string. -/
def shaBlocks : Nat → List (BitVec 64) → List Byte → List (BitVec 64)
  | 0, h, _ => h
  | n + 1, h, bs => shaBlocks n (shaBlock h (bs.take 128)) (bs.drop 128)

/-- A message with its padding: the bit one, zeros, and its length in bits. -/
def shaPadded (bs : List Byte) : List Byte :=
  let zeros := (240 - (bs.length + 1) % 128) % 128
  bs ++ 0x80 :: leBytes zeros 0 ++ beBytes 16 (8 * bs.length)

/-- The chaining words as a number, the first the most significant. -/
def shaNat (h : List (BitVec 64)) : Nat := h.foldl (fun n w => 2 ^ 64 * n + w.toNat) 0

/-- SHA-384 of a byte string; byte 0 of a digest, as it is stored, is the low byte of the vector. -/
@[irreducible] def sha384 (bs : List Byte) : BitVec 384 :=
  let p := shaPadded bs
  BitVec.ofNat 384 (leNat (beBytes 48 (shaNat ((shaBlocks (p.length / 128) shaStart p).take 6))))

/-- The chaining words of SHA-384 after the whole blocks of a byte string. -/
@[irreducible] def sha384State (bs : List Byte) : BitVec 512 :=
  BitVec.ofNat 512 (leNat (beBytes 64 (shaNat (shaBlocks (bs.length / 128) shaStart bs))))

/-! AES-256 (FIPS 197). Bytes are numbers below 256; a block's sixteen bytes stand column by column. -/

/-- A byte times x, modulo x⁸ + x⁴ + x³ + x + 1. -/
def aesDouble (a : Nat) : Nat := if a < 128 then 2 * a else Nat.xor (2 * a) 0x11B

/-- The product of two bytes, over the bits of the second. -/
def aesTimes (a : Nat) : Nat → Nat → Nat
  | 0, _ => 0
  | bits + 1, b => Nat.xor (if b % 2 = 1 then a else 0) (aesTimes (aesDouble a) bits (b / 2))

/-- The byte that undoes a byte's multiplication; 0 for 0: the power 254. -/
def aesInverse (a : Nat) : Nat :=
  let sq := fun x => aesTimes x 8 x
  let a2 := sq a
  let a4 := sq a2
  let a8 := sq a4
  let a16 := sq a8
  let a32 := sq a16
  let a64 := sq a32
  [a4, a8, a16, a32, a64, sq a64].foldl (fun p x => aesTimes p 8 x) a2

/-- A byte turned left. -/
def turnByte (a k : Nat) : Nat := (a * 2 ^ k + a / 2 ^ (8 - k)) % 256

/-- The substitution of a byte. -/
def aesSub (a : Nat) : Nat :=
  let b := aesInverse a
  [turnByte b 1, turnByte b 2, turnByte b 3, turnByte b 4, 0x63].foldl Nat.xor b

/-- The byte that a substitution came from. -/
def aesUnsub (a : Nat) : Nat := ((List.range 256).find? fun b => aesSub b == a).getD 0

/-- The exclusive or of two byte strings. -/
def xorAll (a b : List Nat) : List Nat := a.zipWith Nat.xor b

/-- The next four bytes of the key schedule, number i, from those before it, the last first. -/
def aesNextWord (i : Nat) (ws : List (List Nat)) : List Nat :=
  let t := ws.headD []
  let u :=
    if i % 8 = 0 then
      xorAll ((t.drop 1 ++ t.take 1).map aesSub) [(List.range (i / 8 - 1)).foldl (fun r _ => aesDouble r) 1, 0, 0, 0]
    else if i % 8 = 4 then t.map aesSub else t
  xorAll (ws.getD 7 []) u

/-- The fifteen round keys of a key of 32 bytes. -/
def aesKeys (key : List Nat) : List (List Nat) :=
  let first := (List.range 8).map fun k => (key.drop (4 * k)).take 4
  let all := ((List.range 52).foldl (fun ws i => aesNextWord (i + 8) ws :: ws) first.reverse).reverse
  (List.range 15).map fun r => ((all.drop (4 * r)).take 4).flatten

/-- Row r of a block turns left by r places, or right. -/
def aesShift (left : Bool) (b : List Nat) : List Nat :=
  (List.range 16).map fun k =>
    let r := k % 4
    b.getD ((k + if left then 4 * r else 16 - 4 * r) % 16) 0

/-- Each column times a polynomial with the coefficients m. -/
def aesColumns (m : List Nat) (b : List Nat) : List Nat :=
  (List.range 16).map fun k =>
    let c := k / 4 * 4
    let r := k % 4
    ((List.range 4).map fun j => aesTimes (b.getD (c + j) 0) 8 (m.getD ((j + 4 - r) % 4) 0)).foldl Nat.xor 0

/-- The cipher on a block of sixteen bytes. -/
def aesBlock (key b : List Nat) : List Nat :=
  let ks := aesKeys key
  let round := fun b r => xorAll (aesColumns [2, 3, 1, 1] (aesShift true (b.map aesSub))) (ks.getD r [])
  let b := (List.range 13).foldl (fun b r => round b (r + 1)) (xorAll b (ks.headD []))
  xorAll (aesShift true (b.map aesSub)) (ks.getD 14 [])

/-- The inverse of the cipher. -/
def aesUnblock (key b : List Nat) : List Nat :=
  let ks := aesKeys key
  let first := (aesShift false (xorAll b (ks.getD 14 []))).map aesUnsub
  let b := (List.range 13).foldl (fun b r =>
    (aesShift false (aesColumns [14, 11, 13, 9] (xorAll b (ks.getD (13 - r) [])))).map aesUnsub) first
  xorAll b (ks.headD [])

/-- The bytes of n times 8 bits of a number, the first the least significant. -/
def natBytes (n v : Nat) : List Nat := (leBytes n v).map BitVec.toNat

/-- The number of bytes, the first the least significant. -/
def bytesNat (bs : List Nat) : Nat := bs.foldr (fun b n => b + 256 * n) 0

/-- The cipher on a 128-bit number whose low byte is the first. -/
@[irreducible] def aesLE (key v : Nat) : Nat := bytesNat (aesBlock (natBytes 32 key) (natBytes 16 v))

/-- Its inverse. -/
@[irreducible] def aesUnLE (key v : Nat) : Nat := bytesNat (aesUnblock (natBytes 32 key) (natBytes 16 v))

/-! XTS (IEEE 1619). -/

/-- The tweak of block j of a data unit. -/
def xtsTweak (k2 unit : Nat) : Nat → Nat
  | 0 => aesLE k2 unit
  | j + 1 =>
      let t := 2 * xtsTweak k2 unit j
      if t < 2 ^ 128 then t else Nat.xor (t - 2 ^ 128) 0x87

/-- The data unit of 64 bytes under a cipher of its blocks. -/
def xtsUnit (f : Nat → Nat) (k2 unit v : Nat) : Nat :=
  ((List.range 4).map fun j =>
    let t := xtsTweak k2 unit j
    Nat.xor (f (Nat.xor (v / 2 ^ (128 * j) % 2 ^ 128) t)) t * 2 ^ (128 * j)).sum

/-- Encrypts a data unit, whose low byte is its first. -/
def xtsSeal (k1 k2 unit v : Nat) : Nat := xtsUnit (aesLE k1) k2 unit v

/-- Decrypts a data unit. -/
def xtsOpen (k1 k2 unit v : Nat) : Nat := xtsUnit (aesUnLE k1) k2 unit v

/-! CMAC (NIST SP 800-38B). -/

/-- The cipher on a 128-bit number whose high byte is the first. -/
def aesBE (key v : Nat) : Nat := beNat (leBytes 16 (aesLE key (leNat (beBytes 16 v))))

/-- A number of the field doubled. -/
def cmacDouble (v : Nat) : Nat := if 2 * v < 2 ^ 128 then 2 * v else Nat.xor (2 * v - 2 ^ 128) 0x87

/-- CMAC of a message that is a whole number of blocks, as a number whose high byte is the first. -/
def cmacBlocks (key : Nat) : List Nat → Nat → Nat
  | [], x => x
  | [m], x => aesBE key (Nat.xor (Nat.xor x m) (cmacDouble (aesBE key 0)))
  | m :: ms, x => cmacBlocks key ms (aesBE key (Nat.xor x m))

/-- CMAC of a message of whole blocks: its sixteen bytes. -/
def cmac (key : Nat) (msg : List Byte) : List Byte :=
  beBytes 16 (cmacBlocks key ((List.range (msg.length / 16)).map fun k => beNat ((msg.drop (16 * k)).take 16)) 0)

/-! GCM (NIST SP 800-38D). -/

/-- The product in the field of GHASH, over n bits of the first factor. -/
def ghashTimes (x : Nat) : Nat → Nat → Nat → Nat
  | 0, _, z => z
  | n + 1, v, z =>
      ghashTimes x n (if v % 2 = 0 then v / 2 else Nat.xor (v / 2) (0xE1 * 2 ^ 120)) (if x.testBit n then Nat.xor z v else z)

/-- The blocks of a byte string, the last padded with zeros. -/
def padBlocks (bs : List Byte) : List Nat :=
  (List.range ((bs.length + 15) / 16)).map fun k => beNat (padTo 16 ((bs.drop (16 * k)).take 16))

/-- The block that counter mode numbers n, of a nonce. -/
def gcmBlock (nonce : BitVec 96) (n : Nat) : Nat := nonce.toNat * 2 ^ 32 + n % 2 ^ 32

/-- Byte i of the key stream of a key and a nonce: counter mode adds it to the plaintext by exclusive or. -/
@[irreducible] def gcmStream (key : BitVec 256) (nonce : BitVec 96) (i : Nat) : Byte :=
  (beBytes 16 (aesBE key.toNat (gcmBlock nonce (2 + i / 16)))).getD (i % 16) 0

/-- The tag of associated data and ciphertext; byte 0 of a tag, as it is stored, is the low byte of the vector. -/
@[irreducible] def gcmTag (key : BitVec 256) (nonce : BitVec 96) (aad cipher : List Byte) : BitVec 128 :=
  let lengths := 8 * aad.length * 2 ^ 64 + 8 * cipher.length
  let h := aesBE key.toNat 0
  let y := (padBlocks aad ++ padBlocks cipher ++ [lengths]).foldl (fun y b => ghashTimes (Nat.xor y b) 128 h 0) 0
  BitVec.ofNat 128 (leNat (beBytes 16 (Nat.xor y (aesBE key.toNat (gcmBlock nonce 1)))))

end Sys2Proof.Machine
end

