-- ==== Sys2Proof/Machine/Lines.lean ====
section
/-! DEFINITION. Physical memory: the POT (R36 to R38), monitors (R13), the lines of HBM with their encryption and MAC (R76, R80 to
R83, R86), and the caches (R65 to R75, R79). `State.mem` holds what a coherent read gives; where HBM holds something else, `State.hbm`
says what. -/

namespace Sys2Proof.Machine

/-! Monitors (R13). -/

/-- The bin of a sample (R13). -/
def binOf (v : Nat) : Nat := if v < 2 then 0 else min 15 (Nat.log2 v)

/-- A monitor without samples (R385). -/
def Monitor.empty : Monitor := ⟨0xFFFFFFFF, 0, 0, []⟩

/-- A monitor with one sample more (R13). The bins saturate at 32 bits, as the rule says; so does the count, of which it does
not say what it does beyond 32 bits (assumption log 95). -/
def Monitor.sample (m : Monitor) (v : Nat) : Monitor :=
  let w := BitVec.ofNat 32 (if v < 0xFFFFFFFF then v else 0xFFFFFFFF)
  let up : BitVec 64 → BitVec 64 := fun c => if c = 0xFFFFFFFF then c else c + 1
  ⟨if w < m.min then w else m.min, if m.max < w then w else m.max, up m.count,
   mset m.bins (binOf v) (up ((mget m.bins (binOf v)).getD 0))⟩

/-! The POT. -/

/-- The partition of a page number, as partition formation set it (R37, R38); 0 before one has (assumption log 96). -/
def State.potPart (s : State) (page : Nat) : BitVec 3 :=
  match s.potParts.find? fun r => decide (r.1 ≤ page) && decide (page < r.1 + r.2.1) with
  | some r => BitVec.ofNat 3 r.2.2
  | none => 0

/-- The state that a page number's entry holds at reset (R36, R37). -/
def potDefault (page : Nat) : PotState :=
  if page < 0xBE00000 then .scrubbing else if page < 0xC000000 then .fixed else if page < 0x10000000 then .free
  else .fixed

/-- The POT entry of a page number (R36); beyond 0xFFF_FFFF it reads as FIXED (R40). -/
def State.potOf (s : State) (page : Nat) : PotEntry :=
  match mget s.pot page with
  | some e => e
  | none => ⟨0, 0, 0, potDefault page, 0, s.potPart page, false, false⟩

/-- The state with a POT entry written. -/
def State.setPot (s : State) (page : Nat) (e : PotEntry) : State := { s with pot := mset s.pot page e }

/-- Is the page an operating-system frame of the partition (R40)? -/
def State.osFrame (s : State) (part page : Nat) : Bool :=
  let e := s.potOf page
  e.owner == 0 && e.state == .owned && e.part.toNat == part

/-- An enclave, if the identifier names one. -/
def State.encl (s : State) (e : Nat) : Enclave :=
  (mget s.encls e).getD
    ⟨.none, 0, 0, 0, 0, 0, 0, 0, none, 0, 0, 0, [], [], 0, 1, [], [], [], [], false⟩

/-- The state with an enclave's record changed. -/
def State.setEncl (s : State) (e : Nat) (x : Enclave) : State := { s with encls := mset s.encls e x }

/-- A partition before it is formed. -/
def Part.empty : Part :=
  ⟨false, [], [], [], 0, none, 0, 0, false, false, 0, 0, 0, 0, 1, [], [], 0, 0, none, [], [], 64, 0, false, 0, [], [], [],
   [], (Monitor.empty, Monitor.empty), []⟩

/-- A partition. -/
def State.part (s : State) (p : Nat) : Part := (mget s.parts p).getD Part.empty

/-- The state with a partition's record changed. -/
def State.setPart (s : State) (p : Nat) (x : Part) : State := { s with parts := mset s.parts p x }

/-! Physical lines. -/

/-- The 64-byte lines that n bytes at a physical address touch. -/
def linesAt (pa n : Nat) : List Nat :=
  if n = 0 then [] else (List.range ((pa + n - 1) / 64 - pa / 64 + 1)).map (pa / 64 + ·)

/-- Does an access of n bytes cover a line whole? -/
def covers (pa n line : Nat) : Bool := decide (pa ≤ line * 64) && decide (line * 64 + 64 ≤ pa + n)

/-- The HBM channel set of a physical address (R76). -/
def hbmSet (pa : Nat) : Nat := bitsOf pa 39 35

/-- The HBM channel of a physical address (R76). -/
def hbmChannel (pa : Nat) : Nat := 16 * hbmSet pa + Nat.xor (bitsOf pa 11 8) (bitsOf pa 15 12)

/-- Is a line marked in its frame's poison mask (R83)? -/
def State.linePoisoned (s : State) (line : Nat) : Bool :=
  ((mget s.lineMask (line / 64)).getD 0).getLsbD (line % 64)

/-! Encryption and the line MAC (R80, R81). -/

/-- A key of a generation by the number of its keys (R80): K1 and K2 for XTS, and KM for the MAC. -/
def lineKey (key i : Nat) : Nat := (Config.keyBits (key + i)).toNat

/-- The MAC of a line (R81): seven bytes over its ciphertext, address, VERSION and KEYGEN. -/
def lineMac (key line : Nat) (version : BitVec 32) (gen : BitVec 8) (cipher : Nat) : Nat :=
  leNat ((cmac (lineKey key 2)
    (leBytes 64 cipher ++ leBytes 8 line ++ bvBytes 4 version ++ bvBytes 1 gen ++ leBytes 3 0)).take 7)

/-- The 576 stored bits of a line (R80, R81): ciphertext, MAC and KEYGEN. -/
def Sealed.bits (b : Sealed) (line : Nat) : BitVec 576 :=
  let cipher := xtsSeal (lineKey b.key 0) (lineKey b.key 1) line (leNat b.data)
  let whole := BitVec.ofNat 576
    (cipher + 2 ^ 512 * lineMac b.key line b.version b.gen cipher + 2 ^ 568 * b.gen.toNat)
  b.flips.foldl (fun x i => x ^^^ (1#576 <<< i)) whole

/-- The number of the keys under which an owner's frames of a generation are stored, while the memory controllers hold them (R25,
R80). -/
def State.keysOf (s : State) (owner : Nat) (gen : BitVec 8) : Option Nat :=
  let e := s.encl owner
  if owner = 0 then if gen = 0 then some s.cleanKey else none
  else if gen = e.gen then some e.keyMem
  else if gen = e.gen - 1 then e.keyPrev
  else none

/-- `Valid` of R82: do stored bits of a line carry the expected KEYGEN and MAC? The expected VERSION and KEYGEN are those of the
frame's POT entry: a translation that carried others is gone before the entry changes (R42). -/
def State.validBits (s : State) (line : Nat) (x : BitVec 576) : Bool :=
  let e := s.potOf (line / 64)
  match s.keysOf e.owner.toNat e.keygen with
  | none => false
  | some k =>
      let cipher := x.toNat % 2 ^ 512
      decide (bitsOf x.toNat 575 568 = e.keygen.toNat) &&
        decide (bitsOf x.toNat 567 512 = lineMac k line e.version e.keygen cipher)

/-- `Decrypt` of R82. -/
def State.openBits (s : State) (line : Nat) (x : BitVec 576) : List Byte :=
  let e := s.potOf (line / 64)
  let k := (s.keysOf e.owner.toNat e.keygen).getD 0
  leBytes 64 (xtsOpen (lineKey k 0) (lineKey k 1) line (x.toNat % 2 ^ 512))

/-- A line as a write of its contents would store it now. -/
def State.sealedNow (s : State) (line : Nat) : Option Sealed :=
  let e := s.potOf (line / 64)
  (s.keysOf e.owner.toNat e.keygen).map fun k => ⟨readBytes s.mem (line * 64) 64, k, e.keygen, e.version, []⟩

/-- Bits with one flipped. -/
def flipBit (x : BitVec 576) (i : Nat) : BitVec 576 := x ^^^ (1#576 <<< i)

/-- The flips of one bit that the correction search finds valid (R82): all 576 are tried. -/
def State.searchHits (s : State) (line : Nat) (x : BitVec 576) : List Nat :=
  (List.range 576).filter fun i => s.validBits line (flipBit x i)

/-- The world of a frame's lines (R66). -/
def State.worldOf (s : State) (page : Nat) : Nat := (s.potOf page).owner.toNat

/-! Copies of lines in caches (R65, R68, R79). -/

/-- Does a dirty L2 line hold a double-bit error (R79)? -/
def State.lost (s : State) (line : Nat) : Bool := s.l2.any fun l => l.line == line && l.dirty && l.err == 2

/-- Has a line a copy in a cache that can serve a read? -/
def State.cached (s : State) (line : Nat) : Bool :=
  (s.l2.any fun l => l.line == line && l.err != 2) || s.coreLines.any fun c => c.line == line

/-- How a line answers an access (R79, R82, R83): `damaged` needs a correction search; `stale` is valid in HBM with other contents
than the last that were written through; `lost` is a dirty copy with a double-bit error. -/
inductive LineState where
  | fine | poisoned | searching | damaged | stale | lost
  deriving DecidableEq, Repr

/-- The state of a line. Only a line without a cached copy is read from HBM and checked. -/
def State.lineState (s : State) (line : Nat) : LineState :=
  if s.linePoisoned line then .poisoned
  else if s.lost line then .lost
  else if s.searches.contains line then .searching
  else if s.cached line then .fine
  else
    match mget s.hbm line with
    | none => .fine
    | some b =>
        let x := b.bits line
        if s.validBits line x = false then .damaged
        else if s.openBits line x = readBytes s.mem (line * 64) 64 then .fine
        else .stale

/-- The worst state among the lines of an access: poisoned first, then those that must be waited for. A write of a whole
line does not read it (R86). -/
def State.linesState (s : State) (write : Bool) (pa n : Nat) : LineState :=
  let ls := (linesAt pa n).map fun line =>
    let x := s.lineState line
    if write && covers pa n line && (x == .damaged || x == .stale) then .fine else x
  (([.poisoned, .lost, .searching, .damaged, .stale] : List LineState).find? ls.contains).getD .fine

/-- Removes every cached line of a frame without write-back (R75). -/
def State.dropLines (s : State) (page : Nat) : State :=
  { s with
    l2 := s.l2.filter fun l => l.line / 64 != page
    coreLines := s.coreLines.filter fun c => c.line / 64 != page }

/-- Removes every cached copy of a line. -/
def State.dropLine (s : State) (line : Nat) : State :=
  { s with l2 := s.l2.filter fun l => l.line != line, coreLines := s.coreLines.filter fun c => c.line != line }

/-- The page number bits that a cached translation of a size covers. -/
def sizeSpan (size : Nat) : Nat := if size = 1 then 4 else if size = 2 then 9 else if size = 3 then 18 else 0

/-- Removes every cached translation of a frame from the TLBs (R42). -/
def State.dropFrame (s : State) (page : Nat) : State :=
  { s with tlb := s.tlb.filter fun t =>
      let span := 2 ^ sizeSpan t.size
      t.ppn / span != page / span }

/-- Poisons a line (R83): its mask bit and POT POISON are set, cached translations go. -/
def State.poisonLine (s : State) (line : Nat) : State :=
  let page := line / 64
  let mask := (mget s.lineMask page).getD 0
  let e := s.potOf page
  let s := s.dropLine line
  ({ s with lineMask := mset s.lineMask page (mask ||| (1#64 <<< (line % 64))), hbm := mdel s.hbm line }.setPot page
    { e with poison := true }).dropFrame page

/-- A line's contents are what HBM holds. -/
def State.refresh (s : State) (line : Nat) : State :=
  match mget s.hbm line with
  | none => s
  | some b => { s with mem := writeBytes s.mem (line * 64) (s.openBits line (b.bits line)), hbm := mdel s.hbm line }

/-- An access meets the lines that it cannot use as they are: a damaged line's correction search begins (R82), a lost one is
poisoned (R79), and a stale one is read. -/
def State.meetLine (s : State) (line : Nat) : State :=
  match s.lineState line with
  | .damaged => { s with searches := s.searches ++ [line] }
  | .lost => s.poisonLine line
  | .stale => s.refresh line
  | .fine | .poisoned | .searching => s

/-- The lines of an access that stops are met. -/
def State.startSearch (s : State) (pa n : Nat) : State := (linesAt pa n).foldl State.meetLine s

/-! The monitors of the data path (R14, R89). -/

/-- The data path's monitors before any sample. -/
def PathMon.empty : PathMon := ⟨Monitor.empty, Monitor.empty, 0, 0, Monitor.empty, 0, 0⟩

/-- The data path's monitors of a partition, or of enclave e at 8 + e. -/
def State.pathMon (s : State) (k : Nat) : PathMon := (mget s.pathMons k).getD PathMon.empty

/-- The monitors that a line is counted in: those of its frame's partition and of its owner. -/
def State.lineMons (s : State) (line : Nat) : List Nat :=
  let e := s.potOf (line / 64)
  e.part.toNat :: if e.owner = 0 then [] else [8 + e.owner.toNat]

/-- Changes the monitors that a line is counted in. -/
def State.onMons (s : State) (line : Nat) (f : PathMon → PathMon) : State :=
  { s with pathMons := (s.lineMons line).foldl (fun m k => mset m k (f ((mget m k).getD PathMon.empty))) s.pathMons }

/-- A line is read from HBM: a sample of the latency, which no rule gives, and after every 2^30 lines one of the corrections. -/
def PathMon.readLine (m : PathMon) (latency : Nat) : PathMon :=
  let m := { m with latency := m.latency.sample latency, reads := m.reads + 1 }
  if m.reads < 2 ^ 30 then m else { m with soft := m.soft.sample m.fixed, reads := 0, fixed := 0 }

/-- A read of an on-chip array, with n others since the last that the model sees (assumption log 97); after every 2^30 a sample of
the corrections. -/
def PathMon.readArray (m : PathMon) (n : Nat) (corrected : Bool) : PathMon :=
  let m := { m with chipReads := m.chipReads + 1 + n, chipFixed := m.chipFixed + corrected.toNat }
  if m.chipReads < 2 ^ 30 then m
  else { m with chip := m.chip.sample m.chipFixed, chipReads := m.chipReads % 2 ^ 30, chipFixed := 0 }

/-- An array of a partition's halls is read. -/
def State.readArray (s : State) (part : Nat) (corrected : Bool) : State :=
  let m := (s.pathMon part).readArray (Config.freeNat (.counter 900) s.free) corrected
  { s with pathMons := mset s.pathMons part m }

/-- A line is read from HBM. -/
def State.readHbm (s : State) (line : Nat) : State :=
  s.onMons line fun m => m.readLine (Config.freeNat (.cycles (5000 + line)) s.free)

/-- A correction search has ended (R82, R89): its outcome is counted for the line's partition, and a correction in the monitors of
corrected errors. -/
def State.countSearch (s : State) (line : Nat) (fixed : Bool) : State :=
  let part := (s.potOf (line / 64)).part.toNat
  let p := s.part part
  let s := if fixed then s.onMons line fun m => { m with fixed := m.fixed + 1 } else s
  s.setPart part { p with
    searched := if fixed then (p.searched.1.sample 1, p.searched.2) else (p.searched.1, p.searched.2.sample 1) }

/-- The end of a line's correction search (R82): one valid flip is made and written back, anything else poisons the line. -/
def State.settleSearch (s : State) (line : Nat) : State :=
  match mget s.hbm line with
  | none => s
  | some b =>
      match s.searchHits line (b.bits line) with
      | [i] =>
          ({ s with
            mem := writeBytes s.mem (line * 64) (s.openBits line (flipBit (b.bits line) i))
            hbm := mdel s.hbm line } : State).countSearch line true
      | _ => (s.poisonLine line).countSearch line false

/-- The root of trust reads a line with the check of R82, to its end. -/
def State.settleLine (s : State) (line : Nat) : State :=
  match s.lineState line with
  | .damaged => s.settleSearch line
  | .lost => s.poisonLine line
  | .stale => s.refresh line
  | .fine | .poisoned | .searching => s

/-! The L2 (R65 to R73). -/

/-- The set of a physical address (R65). -/
def l2Set (pa : Nat) : Nat := Nat.xor (pa / 64 % 65536) (pa / 2 ^ 22 % 65536)

/-- The die of a hall: five halls a die (R65). -/
def dieOf (hall : Nat) : Nat := hall / 5

/-- The ways a fill may take (R71). -/
def Part.fillWays (p : Part) (d c : Nat) : BitVec 24 :=
  let part := (mget p.wayMask d).getD 0
  let cls := fun k => ((mget p.l2Class (4 * d + k)).getD 0).extractLsb' 0 24 &&& part
  if cls c != 0 then cls c else if cls 0 != 0 then cls 0 else part

/-- What a hint means for a class (R72): 0 normal, 1 keep, 2 stream. -/
def Part.hintOf (p : Part) (d c : Nat) (hint : BitVec 2) : Nat :=
  if hint.toNat = 3 then
    let ins := bitsOf ((mget p.l2Class (4 * d + c)).getD 0).toNat 25 24
    if ins = 3 then 0 else ins
  else hint.toNat

/-- Is line `a` a better victim than `b` (R73)? -/
def L2Line.before (a b : L2Line) : Bool := if a.prot = b.prot then decide (a.used < b.used) else b.prot

/-- The victim among the lines of a set. -/
def victimOf : List L2Line → Option L2Line
  | [] => none
  | l :: rest =>
      match victimOf rest with
      | none => some l
      | some v => if l.before v then some l else some v

/-- Before a line is first written in a cache: HBM goes on holding what it held (R65, R86). -/
def State.keepOld (s : State) (line : Nat) : State :=
  if (mget s.hbm line).isSome then s
  else
    match s.sealedNow line with
    | none => s
    | some b => { s with hbm := mset s.hbm line b }

/-- The directory (R68): a dirty copy of a line is written back, so that another cache can read it. -/
def State.share (s : State) (line : Nat) : State :=
  if (s.l2.any fun l => l.line == line && l.dirty) || s.coreLines.any fun c => c.line == line && c.dirty then
    { s with
      l2 := s.l2.map fun l => if l.line == line then { l with dirty := false } else l
      coreLines := s.coreLines.map fun c => if c.line == line then { c with dirty := false } else c
      hbm := mdel s.hbm line }
  else s

/-- The directory (R68): every copy of a line but those named goes, so that one cache can write it. -/
def State.claim (s : State) (line : Nat) (mine : L2Line → Bool) (core : CoreLine → Bool) : State :=
  { s with
    l2 := s.l2.filter fun l => l.line != line || mine l
    coreLines := s.coreLines.filter fun c => c.line != line || core c }

/-- A cache without a copy of a line gets it: from HBM unless it is written whole or another cache has it (R86), and with the
directory's leave. -/
def State.obtain (s : State) (line : Nat) (write whole : Bool) : State :=
  let s := if (write && whole) || s.cached line then s else s.readHbm line
  if write then s.claim line (fun _ => false) fun _ => false else s.share line

/-- A line enters an L2 in a way (R73), in place of another, which is written back if it is dirty. -/
def State.fillWay (s : State) (new : L2Line) (old : Option L2Line) : State :=
  let s := if new.dirty then s.keepOld new.line else s
  match old with
  | none => { s with l2 := s.l2 ++ [new] }
  | some v => { s with
      l2 := s.l2.map fun x => if x = v then new else x
      hbm := if v.dirty then mdel s.hbm v.line else s.hbm }

/-- Touches a line of a die's L2 for an access of a world, filling it if it misses (R66, R71 to R73, R79). Recency is a count; among
lines of nearly equal age the model takes the least recently used (assumption log 8), and of several invalid ways the one of the
lowest number (assumption log 98). A write that leaves no line is performed at the memory controllers. -/
def State.l2Touch (s : State) (part d line world cls : Nat) (hint : BitVec 2) (write whole : Bool) : State :=
  let p := s.part part
  let h := p.hintOf d cls hint
  let now := s.l2.foldl (fun n l => max n (l.used + 1)) 1
  let used := if h = 2 then 0 else now
  let mine := fun (l : L2Line) => l.die == d && l.line == line && l.world == world && l.err != 2
  match s.l2.find? mine with
  | some l =>
      let s := s.readArray part (l.err == 1)
      let s := if write then (s.claim line mine fun _ => false).keepOld line else s
      { s with l2 := s.l2.map fun x =>
          if mine x then { x with prot := h == 1, used := used, dirty := x.dirty || write, err := 0 } else x }
  | none =>
      let s : State := { s with l2 := s.l2.filter fun l => !(l.die == d && l.line == line) }
      let s := s.obtain line write whole
      let ways := (List.range 24).filter fun w => (p.fillWays d cls).getLsbD w
      let inSet := s.l2.filter fun l => l.die == d && l2Set (l.line * 64) == l2Set (line * 64)
      match ways.find? fun w => !(inSet.any fun l => l.way == w) with
      | some w => s.fillWay ⟨d, line, w, world, write, h == 1, used, 0⟩ none
      | none =>
          match victimOf (inSet.filter fun l => ways.contains l.way) with
          | none => if write then { s with hbm := mdel s.hbm line } else s
          | some v => s.fillWay ⟨d, line, v.way, world, write, h == 1, used, 0⟩ (some v)

/-- Touches every line of an access in a die's L2 (R65 to R73). -/
def State.touch (s : State) (part d pa n world cls : Nat) (hint : BitVec 2) (write : Bool) : State :=
  (linesAt pa n).foldl (fun s line => s.l2Touch part d line world cls hint write (covers pa n line)) s

/-- Touches a line of a general core's cache (R68). The spec gives neither the size of these caches nor which line they replace: a
line that comes may put out another (assumption log 99). -/
def State.coreTouch (s : State) (h line : Nat) (write whole : Bool) : State :=
  let world := (s.potOf (line / 64)).owner.toNat
  let mine := fun (c : CoreLine) => c.hart == h && c.line == line && c.world == world
  if s.coreLines.any mine then
    if write then
      let s := (s.claim line (fun _ => false) mine).keepOld line
      { s with coreLines := s.coreLines.map fun c => if mine c then { c with dirty := true } else c }
    else s
  else
    let s := s.obtain line write whole
    let s := if write then s.keepOld line else s
    let out := s.coreLines[Config.freeNat (.choice (6000 + line)) s.free]?.filter fun c => c.hart == h
    { s with
      coreLines := (s.coreLines.filter fun c => some c != out) ++ [⟨h, line, world, write⟩]
      hbm := match out with
        | none => s.hbm
        | some c => if c.dirty then mdel s.hbm c.line else s.hbm }

/-- Touches every line of an access in a general core's cache. -/
def State.coreTouchAll (s : State) (h pa n : Nat) (write : Bool) : State :=
  (linesAt pa n).foldl (fun s line => s.coreTouch h line write (covers pa n line)) s

/-! Writes. -/

/-- Writes bytes at a physical address; a reservation of the bytes is lost. -/
def State.store (s : State) (pa : Nat) (bs : List Byte) : State :=
  { s with
    mem := writeBytes s.mem pa bs
    resv := s.resv.filter fun r => decide (r.2.1 + r.2.2 ≤ pa) || decide (pa + bs.length ≤ r.2.1) }

/-- Writes bytes at a physical address past the caches, at the memory controllers: every cached copy of their lines goes, and the
lines are stored under the frame's current key, VERSION and KEYGEN, with a fresh MAC (R80, R81, R86). -/
def State.poke (s : State) (pa : Nat) (bs : List Byte) : State :=
  let ls := linesAt pa bs.length
  ({ s with
    l2 := s.l2.filter fun l => !ls.contains l.line
    coreLines := s.coreLines.filter fun c => !ls.contains c.line
    hbm := s.hbm.filter fun q => !ls.contains q.1 } : State).store pa bs

end Sys2Proof.Machine
end

