-- ==== Sys2Proof/Machine/Access.lean ====
section
/-! DEFINITION. Translation: the walk and its checks (R32 to R35, R40), the TLBs (R41), and fault records (R45 to R48). -/

namespace Sys2Proof.Machine

/-! The walk (R32 to R35) and translation (R40). -/

/-- What goes wrong in a translation: kind, NC, level and page size (R47). -/
structure FaultInfo where
  kind : FaultKind
  nc : Bool
  level : Nat
  size : Nat
  deriving DecidableEq, Repr

/-- A leaf as the walk found it: page number, size code, W, X and CLASS. -/
structure Leaf where
  ppn : Nat
  size : Nat
  w : Bool
  x : Bool
  cls : Nat
  deriving DecidableEq, Repr

/-- The outcome of a walk. -/
inductive Walk where
  | leaf (l : Leaf)
  | fault (f : FaultInfo)
  /-- A table line is under a correction search, or needs one: physical address of the entry. -/
  | wait (pa : Nat)
  deriving DecidableEq, Repr

/-- The size code of a leaf at a level (R47): 7 at level 1. -/
def levelSize (level : Nat) : Nat := if level = 2 then 3 else if level = 3 then 2 else if level = 4 then 0 else 7

/-- The page number bits that a leaf at a level covers (R40). -/
def levelSpan (level : Nat) : Nat := if level = 2 then 18 else if level = 3 then 9 else 0

/-- Is the 16-entry group around a level-4 leaf one 64 KiB translation (R35)? The entries of the group are read as they stand; what
a poisoned or damaged line among the other entries does, the spec does not say (assumption log 94). -/
def State.isC64 (s : State) (table idx : Nat) : Bool :=
  let base := idx / 16 * 16
  let pte := fun i => readLE s.mem (table + (base + i) * 8) 8
  let first := pte 0
  (List.range 16).all fun i =>
    let q := pte i
    bitsOf q 0 0 == 1 && bitsOf q 6 6 == 1 && bitsOf q 1 1 == bitsOf first 1 1 && bitsOf q 2 2 == bitsOf first 2 2 &&
    bitsOf q 5 4 == bitsOf first 5 4 && bitsOf q 51 12 == bitsOf first 51 12 + i && bitsOf first 51 12 % 16 == 0

/-- The walk from a table at a level (R40); the fuel counts the levels left. -/
def State.walkFrom (s : State) (part va : Nat) : Nat → Nat → Nat → Walk
  | 0, _, level => .fault ⟨.malformedPte, false, level, levelSize level⟩
  | fuel + 1, table, level =>
      let idx := va / 2 ^ (12 + 9 * (4 - level)) % 512
      let at_ := table + idx * 8
      match s.linesState false at_ 8 with
      | .poisoned => .fault ⟨.integrity, false, level, levelSize level⟩
      | .searching | .damaged | .stale | .lost => .wait at_
      | .fine =>
          let pte := readLE s.mem at_ 8
          let bad : Walk := .fault ⟨.malformedPte, false, level, levelSize level⟩
          if bitsOf pte 0 0 = 0 then .fault ⟨.notPresent, false, level, levelSize level⟩
          else if bitsOf pte 55 52 ≠ 0 ∨ bitsOf pte 11 7 ≠ 0 then bad
          else if level < 4 ∧ bitsOf pte 3 3 = 0 then
            if bitsOf pte 6 1 ≠ 0 ∨ s.osFrame part (bitsOf pte 51 12) = false then bad
            else s.walkFrom part va fuel (bitsOf pte 51 12 * 4096) (level + 1)
          else if level = 1 then bad
          else
            let span := levelSpan level
            if bitsOf pte 51 12 % 2 ^ span ≠ 0 then bad
            else
              let ppn := bitsOf pte 51 12 + va / 4096 % 2 ^ span
              let size := if level = 4 ∧ bitsOf pte 6 6 = 1 ∧ s.isC64 table idx then 1 else levelSize level
              .leaf ⟨ppn, size, bitsOf pte 1 1 == 1, bitsOf pte 2 2 == 1, bitsOf pte 5 4⟩

/-- Is a 64-bit address canonical (R18)? -/
def canonical (va : BitVec 64) : Bool := (va.extractLsb' 0 48).signExtend 64 == va

/-- Bits [47:0] of an address. -/
def low48 (va : BitVec 64) : Nat := va.toNat % 2 ^ 48

/-- The outcome of a translation (R40). -/
inductive Found where
  | ok (pa : Nat) (leaf : Leaf)
  /-- A leaf in a remote window (1 to 14) or the system window (15). -/
  | window (w : Nat) (pa : Nat)
  /-- The frame is in MOVING: the access waits. -/
  | moving
  /-- The access waits for a correction search. -/
  | search (pa n : Nat)
  | fault (f : FaultInfo)
  deriving DecidableEq, Repr

/-- Does the access kind need W (R40)? -/
def AccessKind.writes : AccessKind → Bool
  | .store | .atomic | .engWrite => true
  | .load | .code | .engRead => false

/-- Is the access kind a read that a SHARED_RO frame allows (R40)? -/
def AccessKind.shares : AccessKind → Bool
  | .load | .engRead => true
  | .store | .atomic | .code | .engWrite => false

/-- The checks after a leaf (R40), for an access of n bytes that does not leave its 4 KiB page. -/
def State.checkLeaf (s : State) (e : Nat) (va : BitVec 64) (k : AccessKind) (n : Nat) (l : Leaf) : Found :=
  let pa := l.ppn * 4096 + va.toNat % 4096
  let bad : FaultKind → Found := fun kind => .fault ⟨kind, false, 0, l.size⟩
  if l.ppn / 2 ^ 36 % 16 ≠ 0 then .window (l.ppn / 2 ^ 36 % 16) pa
  else
    let ent := s.potOf l.ppn
    let enc := s.encl e
    if ent.state = .moving then .moving
    else
      let shared := ent.state == .sharedRo && ent.part.toNat == enc.part && k.shares
      let mine := ent.state == .owned && ent.owner.toNat == e && ent.part.toNat == enc.part &&
        ent.evpn.toNat == low48 va / 4096
      if !shared && !mine then bad .potMismatch
      else if !shared && ent.keygen != enc.gen then bad .keyStale
      else if k.writes && !l.w then bad .writeProtect
      else if k = .code ∧ l.x = false then bad .writeProtect
      else
        match s.linesState k.writes pa n with
        | .poisoned => bad .integrity
        | .searching | .damaged | .stale | .lost => .search pa n
        | .fine => .ok pa l

/-- The number of a hall's TLB (R41). -/
def hallTlb (hall : Nat) : Nat := 800 + hall

/-- The hall of an accelerator core, 0 to 159, of a gallery core, 160 to 799 (R1), or of a hall's own TLB. -/
def unitHall (unit : Nat) : Nat := if unit < 160 then unit / 8 else if unit < 800 then (unit - 160) / 32 else unit - 800

/-- The number of a gallery core of a hall. -/
def galleryUnit (hall gallery : Nat) : Nat := 160 + 32 * hall + gallery

/-- A cached translation that covers a page, in a unit's private TLB or in its hall's (R41). -/
def State.tlbHit (s : State) (unit e vpn : Nat) : Option Leaf :=
  (s.tlb.find? fun t =>
    let span := sizeSpan t.size
    (t.unit == unit || t.unit == hallTlb (unitHall unit)) && t.enclave == e && t.vpn / 2 ^ span == vpn / 2 ^ span).map fun t =>
    let span := sizeSpan t.size
    ⟨t.ppn / 2 ^ span * 2 ^ span + vpn % 2 ^ span, t.size, t.w, t.x, t.cls⟩

/-- Translates an access of n bytes within one page (R40), by a core's or gallery core's number. Where its TLBs still hold a
translation, a free value decides whether the access uses it or a walk (R44; assumption log 7). -/
def State.translate (s : State) (unit : Option Nat) (e : Nat) (va : BitVec 64) (k : AccessKind) (n : Nat) : Found :=
  if canonical va = false then .fault ⟨.notPresent, true, 0, 7⟩
  else
    let walked : Found :=
      match s.walkFrom (s.encl e).part (low48 va) 4 ((s.encl e).root.toNat * 4096) 1 with
      | .leaf l => s.checkLeaf e va k n l
      | .fault f => .fault f
      | .wait pa => .search pa 8
    match unit with
    | none => walked
    | some u =>
        match s.tlbHit u e (low48 va / 4096) with
        | none => walked
        | some l => if (Config.freeBits (.tlb (low48 va / 4096)) s.free).getLsbD 0 then s.checkLeaf e va k n l else walked

/-- The pieces of an access that lie within one page each: (offset, length) (R330). -/
def pagePieces (va n : Nat) : List (Nat × Nat) :=
  let first := 4096 - va % 4096
  if n ≤ first then [(0, n)] else [(0, first), (first, n - first)]

/-! Fault records (R45 to R48). -/

/-- Is a fault fatal (R47)? -/
def FaultKind.fatal : FaultKind → Bool
  | .potMismatch | .integrity => true
  | .notPresent | .writeProtect | .malformedPte | .keyStale => false

/-- The code of a fault kind (R47). -/
def FaultKind.num : FaultKind → Nat
  | .notPresent => 1 | .writeProtect => 2 | .malformedPte => 3 | .potMismatch => 4 | .integrity => 5 | .keyStale => 6

/-- The code of an access kind (R47). -/
def AccessKind.num : AccessKind → Nat
  | .load => 1 | .store => 2 | .atomic => 3 | .code => 4 | .engRead => 5 | .engWrite => 6

/-- Does a pending record merge a fault of an enclave on a page (R48)? -/
def FaultRec.takes (r : FaultRec) (e : Nat) (va : BitVec 48) : Bool :=
  !r.kind.fatal && !r.nc && r.enclave == e && r.va.toNat / 4096 == va.toNat / 4096

/-- Forms a record for a fault, or merges the fault into a pending one, whatever its kind (R48); beyond 1,024 pending records the
fault waits in its hall. -/
def State.formFault (s : State) (part : Nat) (r : FaultRec) : State :=
  let p := s.part part
  match p.recs.find? fun q => q.2.takes r.enclave r.va && !r.nc with
  | some q =>
      let r' : FaultRec := { q.2 with merges := q.2.merges + 1, waiters := q.2.waiters ++ r.waiters }
      s.setPart part { p with recs := mset p.recs q.1 r' }
  | none =>
      if r.kind.fatal || r.nc || (p.recs.filter fun q => !q.2.kind.fatal && !q.2.nc).length < 1024 then
        let s' := s.setPart part { p with recs := p.recs ++ [(s.next, r)] }
        { s' with next := s.next + 1 }
      else s.setPart part { p with queue := p.queue ++ [r] }

/-- The four words of a record as bytes (R47). -/
def FaultRec.bytes (r : FaultRec) (seq : BitVec 64) : List Byte :=
  leBytes 6 r.va.toNat ++ leBytes 1 r.access.num ++ leBytes 1 (if r.nc then 128 else 0) ++
  leBytes 2 r.enclave ++ leBytes 4 (r.core + 256 * r.slot) ++ leBytes 2 (min r.merges 65535) ++
  leBytes 1 r.kind.num ++ leBytes 7 (r.size + 16 * r.level + if r.kind.fatal then 128 else 0) ++
  leBytes 8 seq.toNat

end Sys2Proof.Machine
end

