-- ==== Sys2Proof/Machine/View.lean ====
section
/-! DEFINITION. What an executing path sees: the objects it belongs to, the launch descriptor's fields (R393), its lanes'
values, and its place in a function's words. -/

namespace Sys2Proof.Machine

/-! The launch descriptor (R393). -/

/-- n bytes of the descriptor at an offset, as a number. -/
def Launch.field (l : Launch) (off n : Nat) : Nat := fieldAt l.desc off n
/-- CODE: the header address. -/
def Launch.code (l : Launch) : BitVec 64 := BitVec.ofNat 64 (l.field 0 8)
/-- FUNC: the kernel's function index. -/
def Launch.func (l : Launch) : Nat := l.field 8 4
/-- WIDTH. -/
def Launch.width (l : Launch) : Nat := l.field 0x0C 1
/-- NGROUPS: G. -/
def Launch.ngroups (l : Launch) : Nat := l.field 0x0D 1
/-- GANG: s. -/
def Launch.gangSize (l : Launch) : Nat := l.field 0x0E 1
/-- NFLIGHT. -/
def Launch.nflight (l : Launch) : Nat := l.field 0x0F 1
/-- NTEAM: the extent in dimension 0 (x), 1 (y) or 2 (z). -/
def Launch.nteam (l : Launch) (d : Nat) : Nat := l.field (0x10 + 4 * d) 4
/-- The number of teams. -/
def Launch.teamCount (l : Launch) : Nat := l.nteam 0 * l.nteam 1 * l.nteam 2
/-- ROLES: the group count of role r. -/
def Launch.roleCount (l : Launch) (r : Nat) : Nat := l.field (0x1C + r) 1
/-- BUDGETS: the budget of role r. -/
def Launch.budget (l : Launch) (r : Nat) : Nat := l.field (0x20 + r) 1
/-- EJECT: E. -/
def Launch.eject (l : Launch) : Nat := l.field 0x24 1
/-- JOINWAIT: T_join (R193). -/
def Launch.joinwait (l : Launch) : Nat := l.field 0x25 1
/-- CTL bit 0: the watchdog (R193). -/
def Launch.watchdog (l : Launch) : Bool := l.field 0x26 1 % 2 == 1
/-- CTL bits [2:1]: the priority. -/
def Launch.priority (l : Launch) : Nat := bitsOf (l.field 0x26 1) 2 1
/-- NBAR (R145). -/
def Launch.nbar (l : Launch) : Nat := l.field 0x27 1
/-- SPAD: A in KiB (R62). -/
def Launch.spadKiB (l : Launch) : Nat := l.field 0x28 2
/-- A in bytes. -/
def Launch.spadBytes (l : Launch) : Nat := l.spadKiB * 1024
/-- PLEN. -/
def Launch.plen (l : Launch) : Nat := l.field 0x2C 4
/-- PLACE: the placement map's address. -/
def Launch.placeAddr (l : Launch) : BitVec 64 := BitVec.ofNat 64 (l.field 0x30 8)
/-- PARAM. -/
def Launch.paramAddr (l : Launch) : BitVec 64 := BitVec.ofNat 64 (l.field 0x38 8)
/-- DONE: the completion object's address. -/
def Launch.doneAddr (l : Launch) : BitVec 64 := BitVec.ofNat 64 (l.field 0x40 8)
/-- DEP0 or DEP1. -/
def Launch.dep (l : Launch) (i : Nat) : BitVec 64 := BitVec.ofNat 64 (l.field (0x48 + 8 * i) 8)
/-- SEED. -/
def Launch.seed (l : Launch) : BitVec 64 := BitVec.ofNat 64 (l.field 0x58 8)
/-- SAVE. -/
def Launch.save (l : Launch) : BitVec 64 := BitVec.ofNat 64 (l.field 0x60 8)
/-- SSTRIDE. -/
def Launch.sstride (l : Launch) : Nat := l.field 0x68 4
/-- SPILL. -/
def Launch.spill (l : Launch) : Nat := l.field 0x6C 4
/-- SEALREC. -/
def Launch.sealRec (l : Launch) : BitVec 64 := BitVec.ofNat 64 (l.field 0x70 8)
/-- P(g) of the placement map (R179). -/
def Launch.placeOf (l : Launch) (g : Nat) : Nat := fieldAt l.place (8 + g) 1

/-- The role of group k (R176): roles take groups in order. -/
def Launch.roleOf (l : Launch) (k : Nat) : Nat :=
  if k < l.roleCount 0 then 0
  else if k < l.roleCount 0 + l.roleCount 1 then 1
  else if k < l.roleCount 0 + l.roleCount 1 + l.roleCount 2 then 2
  else 3

/-! Objects by number. -/

/-- A launch; one that does not exist reads as an ended one. -/
def State.launch (s : State) (n : Nat) : Launch :=
  (mget s.launches n).getD ⟨0, 0, 0, [], [], [], .ended, 0, 0, 0, 0, 0, [], [], [], 0, false, false, 0⟩
/-- The state with a launch changed. -/
def State.setLaunch (s : State) (n : Nat) (x : Launch) : State := { s with launches := mset s.launches n x }
/-- A team. -/
def State.team (s : State) (n : Nat) : Team := (mget s.teams n).getD ⟨0, 0, 0, 0, false, [], [], [], 0, []⟩
/-- The state with a team changed. -/
def State.setTeam (s : State) (n : Nat) (x : Team) : State := { s with teams := mset s.teams n x }
/-- The path state of a group without lanes. -/
def Ctx.empty : Ctx := ⟨[], [], [], [], []⟩
/-- A group. -/
def State.group (s : State) (n : Nat) : Group :=
  (mget s.groups n).getD ⟨0, 0, 0, 0, 0, [], 0, Ctx.empty, none, 0, 0, 0, 0, false, false⟩
/-- The state with a group changed. -/
def State.setGroup (s : State) (n : Nat) (x : Group) : State := { s with groups := mset s.groups n x }
/-- A translation; one that does not exist has no words. -/
def State.translation (s : State) (n : Nat) : Trans :=
  (mget s.trans n).getD ⟨0, 0, 0, 0, 0, 0, 0, [], [], [], none, false, []⟩
/-- The code object of an enclave with a header address and its number, if it is loaded. -/
def State.objOf (s : State) (e : Nat) (hdr : BitVec 64) : Option (Nat × CodeObj) :=
  s.objs.find? fun o => o.2.loaded && o.2.enclave == e && o.2.header == hdr

/-! Lanes. -/

/-- A lane without a frame. -/
def Lane.empty : Lane := ⟨[], none⟩
/-- A lane of a group. -/
def Group.lane (g : Group) (l : Nat) : Lane := (mget g.lanes l).getD Lane.empty
/-- The group with a lane changed. -/
def Group.setLane (g : Group) (l : Nat) (x : Lane) : Group := { g with lanes := mset g.lanes l x }
/-- The innermost frame of a lane. -/
def Lane.top (x : Lane) : Frame := x.frames.headD ⟨0, 0, 0, [], []⟩
/-- The lane with its innermost frame changed. -/
def Lane.setTop (x : Lane) (f : Frame) : Lane := { x with frames := f :: x.frames.tail }
/-- A value of the innermost frame; `none` is poison (R237). -/
def Lane.val (x : Lane) (id : Nat) : Option Val := mget x.top.vals id
/-- The lane with a value defined (R245). -/
def Lane.define (x : Lane) (id : Nat) (v : Val) : Lane := x.setTop { x.top with vals := mset x.top.vals id v }
/-- The lane with a value ended (R247): it reads as poison. -/
def Lane.erase (x : Lane) (id : Nat) : Lane := x.setTop { x.top with vals := mdel x.top.vals id }
/-- The call depth of a lane: nested calls (R294). -/
def Lane.depth (x : Lane) : Nat := x.frames.length - 1

/-! The executing path. -/

/-- The executing path with all it belongs to. -/
structure Exe where
  s : State
  gid : Nat
  pid : Nat
  g : Group
  p : Path
  deriving DecidableEq, Repr

/-- The executing path of the state, if there is one. -/
def State.exe? (s : State) : Option Exe :=
  match s.cur with
  | none => none
  | some (gid, pid) =>
      match mget s.groups gid with
      | none => none
      | some g => (mget g.ctx.paths pid).map fun p => ⟨s, gid, pid, g, p⟩

/-- The step of an instruction of a path: `k` gives the next state. Without an executing path there is none. -/
def onPath (s : State) (k : Exe → State) : Host.Outcome State Fault Refusal :=
  match s.exe? with
  | none => .fault .noExecutor
  | some x => .next (k x)

/-- The team. -/
def Exe.team (x : Exe) : Team := x.s.team x.g.team
/-- The launch. -/
def Exe.launch (x : Exe) : Launch := x.s.launch x.team.launch
/-- The enclave's identifier. -/
def Exe.eid (x : Exe) : Nat := x.launch.enclave
/-- The enclave. -/
def Exe.encl (x : Exe) : Enclave := x.s.encl x.eid
/-- The hall of the home core: eight cores a hall (R1). -/
def Exe.hall (x : Exe) : Nat := x.team.core / 8
/-- The core or gallery core that runs the path (R41, R45). -/
def Exe.unit (x : Exe) : Nat :=
  match x.p.place with
  | .core => x.team.core
  | .handing q | .gallery q | .copying q | .recalling q => galleryUnit x.hall q
/-- The lanes of the path, ascending. -/
def Exe.lanes (x : Exe) : List Nat := lanesOf x.p.mask
/-- The lowest lane of the path. -/
def Exe.first (x : Exe) : Nat := x.lanes.headD 0
/-- The translation that the path executes (R218). -/
def Exe.tr (x : Exe) : Trans := x.s.translation (x.g.lane x.first).top.tr
/-- The call depth of the path. -/
def Exe.depth (x : Exe) : Nat := (x.g.lane x.first).depth
/-- The active lanes of an instruction (R269): those of the path, and under G = 1 those whose guard is true. -/
def Exe.activeMask (x : Exe) (c : Ctl) : LaneMask := if c.guarded then x.p.mask &&& x.g.guard else x.p.mask
/-- The active lanes, ascending. -/
def Exe.active (x : Exe) (c : Ctl) : List Nat := lanesOf (x.activeMask c)
/-- The state with the executing group changed. -/
def Exe.put (x : Exe) (g : Group) : State := x.s.setGroup x.gid g
/-- The group with a path of its running context changed. -/
def Group.setPath (g : Group) (pid : Nat) (p : Path) : Group :=
  { g with ctx := { g.ctx with paths := mset g.ctx.paths pid p } }
/-- The group without a path of its running context. -/
def Group.delPath (g : Group) (pid : Nat) : Group :=
  { g with ctx := { g.ctx with paths := mdel g.ctx.paths pid } }
/-- The group with every lane of a list changed. -/
def Group.mapLanes (g : Group) (ls : List Nat) (f : Nat → Lane → Lane) : Group :=
  ls.foldl (fun g l => g.setLane l (f l (g.lane l))) g

/-! Places in a function's words (R240, R245). -/

/-- Words of an instruction's code: the head word, the operand words and their literal words. -/
def instrSize (i : Instr) : Nat :=
  match i with
  | .reservedMajorStub _ _ _ _ _ ops => 1 + ops.length
  | _ => 1 + (i.ops.map fun o => o.words.length).sum

/-- The address after n words from a pc; virtual PCs have 48 bits. -/
def pcAdd (pc : BitVec 48) (words : Nat) : BitVec 48 := pc + BitVec.ofNat 48 (4 * words)

/-- The target of a branch (R254): the head's address plus 4 times the signed offset. -/
def pcTarget (pc : BitVec 48) (off : BitVec 28) : BitVec 48 := pc + off.signExtend 48 * 4

/-- A head word of a function: its offset in words, its fields, its size in words, and the first id it defines. -/
structure HeadAt where
  off : Nat
  size : Nat
  base : Nat
  head : Head
  what : Fetched
  deriving DecidableEq, Repr

/-- The heads of a word list from an offset, with ids numbered from `base` (R240, R245); the fuel is the word count. -/
def headsFrom : Nat → Nat → Nat → List Word → List HeadAt
  | 0, _, _, _ => []
  | _ + 1, _, _, [] => []
  | fuel + 1, off, base, w :: ws =>
      let d := decode (w :: ws)
      let h := Head.ofWord w
      let size := (w :: ws).length - d.2.length
      ⟨off, size, base, h, d.1⟩ :: headsFrom fuel (off + size) (base + h.ndef.toNat) d.2

/-- The heads of a translated function. -/
def Trans.heads (t : Trans) : List HeadAt := headsFrom t.words.length 0 0 t.words

/-- The word offset of an address in the function. -/
def Trans.offset (t : Trans) (pc : BitVec 48) : Nat := (pc - t.entry).toNat / 4

/-- The first value id that the instruction `off` words further on defines, when the one here defines `base` (R245);
the fuel is the offset. -/
def baseFrom : Nat → Nat → List Word → Nat → Nat
  | 0, _, _, base => base
  | _ + 1, _, [], base => base
  | fuel + 1, off, w :: ws, base =>
      let rest := (decode (w :: ws)).2
      let size := (w :: ws).length - rest.length
      if off < size then base else baseFrom fuel (off - size) rest (base + (Head.ofWord w).ndef.toNat)

/-- The first value id that the instruction at an address defines. -/
def Trans.baseAt (t : Trans) (pc : BitVec 48) : Nat := baseFrom (t.offset pc) (t.offset pc) t.words 0

/-- What the words at an address are. -/
def Trans.fetch (t : Trans) (pc : BitVec 48) : Fetched × List Word := decode (t.words.drop (t.offset pc))

/-- Words of the instruction at an address. -/
def Trans.sizeAt (t : Trans) (pc : BitVec 48) : Nat :=
  (t.words.drop (t.offset pc)).length - (t.fetch pc).2.length

/-- The address after the function's last word. -/
def Trans.endAt (t : Trans) : BitVec 48 := pcAdd t.entry t.words.length

/-- The type of a value id of the function (R246). -/
def Trans.typeOf (t : Trans) (id : Nat) : Option Ty := (t.types.getD id none)

end Sys2Proof.Machine
end

