-- ==== Sys2Proof/Machine/Flow.lean ====
section
/-! DEFINITION. The control-flow graph of a function (R246, R254, R268): its instructions in address order, the edges
between them, the edges that a block's PHIs read on (R287), and the hand-over sets of an arm (R189). -/

namespace Sys2Proof.Machine

/-! Instructions of a function. -/

/-- The head words to try in place of one that raises ILLEGAL_ENCODING: without RSVZ, guard and MOD where these are its
defect. Such an instruction must otherwise be well formed (R266), and keeps its place in the graph. -/
def cleanHeads (h : Head) : List Head :=
  let m := BitVec.ofNat 4 (goodMod h.maj.toNat h.sub.toNat)
  [{ h with rsvz := 0 }, { h with rsvz := 0, g := false }, { h with rsvz := 0, mod := m },
   { h with rsvz := 0, g := false, mod := m }]

/-- The instruction at the head of a word list, as the graph sees it; none for an unassigned SUB. -/
def instrAt : List Word → Option Instr
  | [] => none
  | w :: rest => (cleanHeads (Head.ofWord w)).findSome? fun h =>
      match (decode (h.word :: rest)).1 with
      | .ok i => some i
      | .illegal _ | .undefinedMajor | .malformed => none

/-- An instruction of a function: its offset and size in words, the first id it defines and how many, what its words are,
and the instruction. -/
structure Node where
  off : Nat
  size : Nat
  base : Nat
  ndef : Nat
  what : Fetched
  instr : Option Instr
  deriving DecidableEq, Repr

/-- The instructions of a word list from an offset, with ids numbered from `base` (R240, R245); the fuel is the word
count. -/
def nodesFrom : Nat → Nat → Nat → List Word → List Node
  | 0, _, _, _ => []
  | _ + 1, _, _, [] => []
  | fuel + 1, off, base, w :: ws =>
      let d := decode (w :: ws)
      let n := (Head.ofWord w).ndef.toNat
      let size := (w :: ws).length - d.2.length
      ⟨off, size, base, n, d.1, instrAt (w :: ws)⟩ :: nodesFrom fuel (off + size) (base + n) d.2

/-- The instructions of a word list. -/
def nodesOf (ws : List Word) : List Node := nodesFrom ws.length 0 0 ws

/-- The instructions of a translated function. -/
def Trans.nodes (t : Trans) : List Node := nodesOf t.words

/-! Edges. -/

/-- Does an instruction end its block without a fall-through edge (R268)? -/
def terminates : Instr → Bool
  | .br .. | .ret .. | .exit .. | .unreach .. | .yield .. | .trap .. | .tret .. | .tretSkip .. => true
  | _ => false

/-- The branch targets of an operand list, in operand order (R254). -/
def targetsOf (ops : List Opnd) : List (BitVec 28) :=
  ops.filterMap fun o =>
    match o with
    | .target d => some d
    | .val .. | .imm _ | .special .. | .lit1 _ | .lit2 .. | .table _ => none

/-- Has an instruction branch targets? A stub's operand words are not read (R266). -/
def targetsIn (i : Instr) : List (BitVec 28) :=
  match i with
  | .br .. | .brc .. | .brm .. | .yield .. => targetsOf i.ops
  | _ => []

/-- Does the node fall through? -/
def Node.falls (n : Node) : Bool := !(n.instr.any terminates)

/-- The word offsets of the node's targets, in operand order. -/
def Node.targets (n : Node) : List Int :=
  match n.instr with
  | none => []
  | some i => (targetsIn i).map fun d => (n.off : Int) + d.toInt

/-- The edges out of a node: their place among those it gives, fall-through 0, and where they lead (R287). -/
def Node.edges (n : Node) : List (Nat × Nat) :=
  (if n.falls then [(0, n.off + n.size)] else []) ++
    ((n.targets.mapIdx fun k t => (k + 1, t)).filter fun e => decide (0 ≤ e.2)).map fun e => (e.1, e.2.toNat)

/-- Is the node a PHI? -/
def Node.isPhi (n : Node) : Bool :=
  match n.instr with
  | some (.phi ..) => true
  | _ => false

/-- Is the node a JOIN? -/
def Node.isJoin (n : Node) : Bool :=
  match n.instr with
  | some (.join ..) => true
  | _ => false

/-- The edges into an offset, in the order of a PHI's operands (R287): by the address of the instruction left, then by the
place among those it gives. -/
def edgesInto (ns : List Node) (h : Nat) : List (Nat × Nat) :=
  (ns.map fun n => (n.edges.filter fun e => e.2 == h).map fun e => (n.off, e.1)).flatten

/-- Does a block begin at an offset: at the entry, or where more leads than the fall-through of the instruction before? -/
def startsBlock (ns : List Node) (off : Nat) : Bool :=
  match ns.find? fun n => n.off + n.size == off with
  | none => true
  | some n => edgesInto ns off != [(n.off, 0)]

/-- Where the edges lead on which the PHI at an offset reads: to the head of its block, which is the block's first PHI or the
JOIN directly before it; none where the PHI stands elsewhere (R287). The fuel counts the PHIs before it. -/
def phiHead (ns : List Node) : Nat → Nat → Option Nat
  | 0, _ => none
  | fuel + 1, off =>
      if startsBlock ns off then some off
      else
        match ns.find? fun n => n.off + n.size == off with
        | none => none
        | some n => if n.isPhi then phiHead ns fuel n.off else if n.isJoin then some n.off else none

/-- The place among a PHI's operands of the edge that leaves the instruction at an address in a given place. -/
def Trans.edgeIndex (t : Trans) (pc : BitVec 48) (edge : BitVec 48 × Nat) : Option Nat :=
  let ns := t.nodes
  (phiHead ns (ns.length + 1) (t.offset pc)).bind fun h =>
    (edgesInto ns h).findIdx? fun e => e == (t.offset edge.1, edge.2)

/-- The PHIs of a block from the one at an offset on. -/
def phiRun (ns : List Node) (off : Nat) : List Node :=
  match ns.dropWhile fun n => n.off != off with
  | [] => []
  | n :: rest => if n.isPhi then n :: rest.takeWhile fun m => m.isPhi && !startsBlock ns m.off else []

/-- The type and the operands of a PHI. -/
def Node.phi (n : Node) : Ty × List Opnd :=
  match n.instr with
  | some (.phi _ t ops) => (t, ops)
  | _ => (.i32, [])

/-- Do PHIs at an address read on the edges into the JOIN directly before them? -/
def Trans.phiAfterJoin (t : Trans) (pc : BitVec 48) : Bool :=
  let ns := t.nodes
  !(phiRun ns (t.offset pc)).isEmpty && !startsBlock ns (t.offset pc)

/-- The address after an instruction, past the last PHI of its block if it is a PHI (R287, R377). -/
def Trans.behind (t : Trans) (pc : BitVec 48) : BitVec 48 :=
  match (phiRun t.nodes (t.offset pc)).getLast? with
  | some n => pcAdd t.entry (n.off + n.size)
  | none => pcAdd pc (t.sizeAt pc)

/-! Reachable instructions and hand-over sets. -/

/-- The offsets reached along edges from a work list, but not beyond those where `stop` holds. -/
def reachFrom (ns : List Node) (stop : Nat → Bool) : Nat → List Nat → List Nat → List Nat
  | 0, seen, _ => seen
  | _ + 1, seen, [] => seen
  | fuel + 1, seen, o :: work =>
      if seen.contains o || stop o then reachFrom ns stop fuel seen work
      else
        match ns.find? fun n => n.off == o with
        | none => reachFrom ns stop fuel seen work
        | some n => reachFrom ns stop fuel (o :: seen) (n.edges.map Prod.snd ++ work)

/-- The offsets reached from some offsets without passing the stops. -/
def reach (ns : List Node) (stop : Nat → Bool) (start : List Nat) : List Nat :=
  reachFrom ns stop (start.length + 8 * ns.length + 1) [] start

/-- The ids that an operand list reads. -/
def idsOf (ops : List Opnd) : List Nat :=
  ops.filterMap fun o =>
    match o with
    | .val _ _ id => some id.toNat
    | .imm _ | .special .. | .target _ | .lit1 _ | .lit2 .. | .table _ => none

/-- The ids that a node reads. -/
def Node.reads (n : Node) : List Nat :=
  match n.instr with
  | none => []
  | some i => idsOf i.ops

/-- The ids that a node defines. -/
def Node.defs (n : Node) : List Nat := (List.range n.ndef).map (n.base + ·)

/-- A list without repetitions. -/
def noRepeats (l : List Nat) : List Nat := l.foldl (fun r x => if r.contains x then r else r ++ [x]) []

/-- The ids that the PHIs of the block that begins at an offset, or of the JOIN there, read when it is entered by an edge (R287). -/
def phiReads (ns : List Node) (h : Nat) (edge : Nat × Nat) : List Nat :=
  let first := match ns.find? fun n => n.off == h with
    | some n => if n.isJoin then n.off + n.size else h
    | none => h
  if !startsBlock ns h || (first != h && startsBlock ns first) then []
  else
    match (edgesInto ns h).findIdx? (· == edge) with
    | none => []
    | some k => idsOf ((phiRun ns first).filterMap fun n => n.phi.2[k]?)

/-- The ids that instructions read, PHIs on the edges that leave these instructions but for those to one offset. -/
def readsOf (ns body : List Node) (but : Option Nat) : List Nat :=
  (body.map fun n =>
    (if n.isPhi then [] else n.reads) ++
      ((n.edges.filter fun e => some e.2 != but).map fun e => phiReads ns e.2 (n.off, e.1)).flatten).flatten

/-- Live_in of an arm that a branch enters by some of its edges and that meets the rest at a JOIN (R189): the values read in it that it
does not define. An edge is the place among those of the branch and the offset it leads to. -/
def liveIn (ns : List Node) (br : Nat) (arm : List (Nat × Nat)) (join : Nat) : List Nat :=
  let inArm := reach ns (· == join) (arm.map Prod.snd)
  let body := ns.filter fun n => inArm.contains n.off
  let defs := (body.map Node.defs).flatten
  let entry := (arm.map fun e => if e.2 = join then [] else phiReads ns e.2 (br, e.1)).flatten
  noRepeats ((entry ++ readsOf ns body (some join)).filter fun v => !defs.contains v)

/-- Is a value live behind a JOIN: is it read, from there or by the JOIN's own PHIs, before it is defined anew? -/
def liveBehind (ns : List Node) (join v : Nat) : Bool :=
  let home := (ns.find? fun n => n.defs.contains v).map Node.off
  let seen := reach ns (fun o => some o == home) [join]
  let met := ns.filter fun n => seen.contains n.off
  let again := ns.filter fun n => !n.isPhi && some n.off == home && met.any fun m => m.edges.any fun e => e.2 == n.off
  let own := match ns.find? fun n => n.off == join with
    | none => []
    | some n => if startsBlock ns (n.off + n.size) then [] else (phiRun ns (n.off + n.size)).flatMap Node.reads
  (own ++ readsOf ns met none ++ (again.map Node.reads).flatten).contains v

/-- Defined of an arm (R189): the values it defines that are live behind the JOIN. -/
def definedIn (ns : List Node) (arm : List (Nat × Nat)) (join : Nat) : List Nat :=
  let inArm := reach ns (· == join) (arm.map Prod.snd)
  let body := ns.filter fun n => inArm.contains n.off
  noRepeats ((body.map Node.defs).flatten.filter fun v => liveBehind ns join v)

/-- May an arm be ejected as far as its hand-over sets go (R183): at most 64 values each, none of type acc? -/
def Trans.handsOver (t : Trans) (br : Nat) (arm : List (Nat × Nat)) (join : Nat) : Bool :=
  let ns := t.nodes
  let a := liveIn ns br arm join
  let b := definedIn ns arm join
  decide (a.length ≤ 64) && decide (b.length ≤ 64) && (a ++ b).all fun v => t.typeOf v != some .acc

/-- The landing of a branch of the function: its JOIN's address and its id (R205). -/
def Trans.landing (t : Trans) (pc : BitVec 48) : Option (BitVec 48 × Nat) :=
  (t.lands.find? fun l => l.1 == 4 * t.offset pc).map fun l => (t.entry + BitVec.ofNat 48 l.2.1, l.2.2)

end Sys2Proof.Machine
end

