-- ==== Sys2Proof/Machine/Flags.lean ====
section
/-! DEFINITION. The mode word (R297 to R300) and the sticky flags (R235). A path holds bits [63:0]; GUARD, bits
[127:64], is the group's. -/

namespace Sys2Proof.Machine

/-! The flags, in the bit order of FLAGS and EN (R232, R297). -/

/-- NX: a rounded result differs from its exact value. -/
def flagNX : BitVec 6 := 1
/-- UF: a result is tiny and inexact, or flushed. -/
def flagUF : BitVec 6 := 2
/-- OF: a result exceeds the largest finite value, or a clamp. -/
def flagOF : BitVec 6 := 4
/-- DZ: a division of a finite nonzero value by zero. -/
def flagDZ : BitVec 6 := 8
/-- NV: an invalid operation. -/
def flagNV : BitVec 6 := 16
/-- PO: a poison read. -/
def flagPO : BitVec 6 := 32

/-- A flag, if a condition holds. -/
def flagIf (b : Bool) (f : BitVec 6) : BitVec 6 := if b then f else 0

/-! The fields. -/

/-- The reset value of bits [63:0] (R297). -/
def modeReset : BitVec 64 := 0

/-- RM (R232). -/
def modeRM (m : BitVec 64) : Nat := (m.extractLsb' 0 3).toNat
/-- SAT. -/
def modeSat (m : BitVec 64) : Bool := m.getLsbD 3
/-- NANM: payload-preserving when set (R228). -/
def modeNanm (m : BitVec 64) : Bool := m.getLsbD 4
/-- DEN: bit 0 flushes results, bit 1 flushes inputs (R232). -/
def modeDen (m : BitVec 64) : Nat := (m.extractLsb' 5 2).toNat
/-- Does DEN flush results? -/
def modeFlushRes (m : BitVec 64) : Bool := m.getLsbD 5
/-- Does DEN flush inputs? -/
def modeFlushIn (m : BitVec 64) : Bool := m.getLsbD 6
/-- FLAGS. -/
def modeFlags (m : BitVec 64) : BitVec 6 := m.extractLsb' 8 6
/-- EN. -/
def modeEn (m : BitVec 64) : BitVec 6 := m.extractLsb' 16 6
/-- STEP. -/
def modeStep (m : BitVec 64) : BitVec 32 := m.extractLsb' 32 32

/-- The mode word with n bits from lo on replaced. -/
def modePut (m : BitVec 64) (lo n : Nat) (v : Nat) : BitVec 64 :=
  (m &&& ~~~(BitVec.ofNat 64 (2 ^ n - 1) <<< lo)) ||| (BitVec.ofNat 64 (v % 2 ^ n) <<< lo)

/-- The mode word with FLAGS replaced. -/
def modeSetFlags (m : BitVec 64) (f : BitVec 6) : BitVec 64 := modePut m 8 6 f.toNat
/-- The mode word with flags raised: sticky (R235). -/
def modeRaise (m : BitVec 64) (f : BitVec 6) : BitVec 64 := m ||| ((f.setWidth 64) <<< 8)
/-- The mode word with EN replaced. -/
def modeSetEn (m : BitVec 64) (f : BitVec 6) : BitVec 64 := modePut m 16 6 f.toNat
/-- The mode word with STEP replaced. -/
def modeSetStep (m : BitVec 64) (v : BitVec 32) : BitVec 64 := modePut m 32 32 v.toNat
/-- Bits [6:0] replaced under a mask, except that RM never becomes 6 or 7 (R299). -/
def modeSetCtl (m : BitVec 64) (mask v : BitVec 7) : BitVec 64 :=
  let old : BitVec 7 := m.extractLsb' 0 7
  let new := (old &&& ~~~mask) ||| (v &&& mask)
  let new := if 6 ≤ (new.extractLsb' 0 3).toNat then (new &&& ~~~7#7) ||| (old &&& 7#7) else new
  modePut m 0 7 new.toNat

/-- The enabled ones among raised flags (R236). -/
def modeTraps (m : BitVec 64) (f : BitVec 6) : BitVec 6 := f &&& modeEn m

/-- The least lane of a mask, 64 if there is none. -/
def leastLane (m : LaneMask) : Nat := (lanesOf m).headD 64

/-- The mode word at a landing (R298): FLAGS is the OR of the arriving copies, the other bits are those of the arm with
the lowest arriving lane. -/
def modeMerge (arms : List (LaneMask × BitVec 64)) : BitVec 64 :=
  let flags := arms.foldl (fun f a => f ||| modeFlags a.2) 0
  let rest := arms.foldl (fun (best : Nat × BitVec 64) a => if leastLane a.1 < best.1 then (leastLane a.1, a.2) else best)
    (65, modeReset)
  modeSetFlags rest.2 flags

end Sys2Proof.Machine
end

