-- ==== Sys2Proof/Machine/Operands.lean ====
section
/-! DEFINITION. Operands: the bits that an operand word gives a lane (R242 to R255), poison (R237), special operands
(R172, R251), and the places of an instruction's operands (R246). -/

namespace Sys2Proof.Machine

/-! Values. -/

/-- The bits of a value; the opaque types have none. -/
def Val.toBits : Val → BitVec 64
  | .bits v => v
  | .tmap .. | .fmtb _ | .acc .. => 0

/-- A value as a number. -/
def Val.num (v : Val) : Nat := v.toBits.toNat

/-- The value of a number in a type: its low bits. -/
def ofTy (t : Ty) (n : Nat) : Val := .bits (BitVec.ofNat 64 (n % 2 ^ t.width))

/-- The b1 value of a truth. -/
def Val.ofBool (b : Bool) : Val := .bits (if b then 1 else 0)

/-- Is a b1 value true? -/
def Val.isTrue (v : Val) : Bool := v.toBits != 0

/-- The poison bits of a type (R237). -/
def poisonBits : Ty → BitVec 64
  | .b1 => 0
  | .i8 => 0xA5
  | .i16 => 0xA5A5
  | .i32 | .p8x4 | .p16x2 => 0xA5A5A5A5
  | .i64 | .fut => 0xA5A5A5A5A5A5A5A5
  | .f16 => 0x7E5A
  | .bf16 => 0x7FA5
  | .f32 => 0x7FC0A5A5
  | .f64 => 0x7FF8A5A5A5A5A5A5
  | .tmap | .fmtb | .acc => 0

/-- The poison value of a type (R237). -/
def poisonOf : Ty → Val
  | .tmap => .tmap (List.replicate 128 0xA5) none
  | .fmtb => .fmtb (List.replicate 32 0xA5)
  | .acc => .acc 0xA5A5A5A5 none
  | .b1 => .bits 0
  | .i8 => .bits (poisonBits .i8)
  | .i16 => .bits (poisonBits .i16)
  | .i32 => .bits (poisonBits .i32)
  | .i64 => .bits (poisonBits .i64)
  | .f16 => .bits (poisonBits .f16)
  | .bf16 => .bits (poisonBits .bf16)
  | .f32 => .bits (poisonBits .f32)
  | .f64 => .bits (poisonBits .f64)
  | .p8x4 => .bits (poisonBits .p8x4)
  | .p16x2 => .bits (poisonBits .p16x2)
  | .fut => .bits (poisonBits .fut)

/-! Special operands (R172, R251). -/

/-- The type of a `#param` special by the parameter table (R207). -/
def Exe.paramTy (x : Exe) (off : Nat) : Option Ty :=
  match mget x.s.objs x.tr.obj with
  | none => none
  | some o =>
      let own := o.params.find? fun q => q.1 == x.tr.fn && q.2.2 == off
      match own with
      | some q => some q.2.1
      | none => (o.params.find? fun q => q.2.2 == off).map fun q => q.2.1

/-- Byte i of the launch's parameter copy (R252). -/
def Launch.paramByte (l : Launch) (i : Nat) : Byte := if i < l.plen then l.params.getD i 0 else 0

/-- The bytes a type takes in memory: one for b1. -/
def bytesOf (t : Ty) : Nat := if t = .b1 then 1 else t.width / 8

/-- A `#param` operand of a type (R252): a b1 is true when its byte is nonzero. -/
def Launch.param (l : Launch) (t : Ty) (off : Nat) : Val :=
  let n := leNat ((List.range (bytesOf t)).map fun i => l.paramByte (off + i))
  if t = .b1 then .ofBool (n != 0) else ofTy t n

/-- Coordinate d of the team in the grid (R173): x, y, z of the linear index. -/
def Exe.teamCoord (x : Exe) (d : Nat) : Nat :=
  let t := x.team.index
  let nx := x.launch.nteam 0
  let ny := x.launch.nteam 1
  if d = 0 then t % nx else if d = 1 then t / nx % ny else t / (nx * ny)

/-- The grid lane index of a lane (R173). -/
def Exe.gridLane (x : Exe) (l : Nat) : Nat :=
  x.team.index * x.launch.ngroups * x.g.width + x.g.index * x.g.width + l

/-- The value of a special operand in a lane, and whether the read is a poison read (an argument slot not passed:
R253). -/
def Exe.special (x : Exe) (t : Ty) (l : Nat) (cls idx : Nat) : Val × Bool :=
  let i32 : Nat → Val × Bool := fun n => (ofTy .i32 n, false)
  match cls with
  | 0 =>
      match idx with
      | 0 => i32 l
      | 1 => i32 x.g.width
      | 2 => i32 x.g.index
      | 3 => i32 x.launch.ngroups
      | 4 => i32 x.g.role
      | 5 => i32 x.team.member
      | _ => (ofTy .i64 (x.gridLane l), false)
  | 1 => if idx < 3 then i32 (x.teamCoord idx) else i32 (x.launch.nteam (idx - 3))
  | 2 => (x.launch.param ((x.paramTy idx).getD t) idx, false)
  | 3 => i32 idx
  | 4 =>
      match (x.g.lane l).top.args[idx]? with
      | some v => (ofTy t v.toNat, false)
      | none => (poisonOf t, true)
  | _ =>
      match idx with
      | 0 => i32 x.launch.spadBytes
      | 1 => i32 x.launch.nbar
      | 2 => i32 x.launch.eject
      | _ => i32 x.launch.joinwait

/-! Reading. -/

/-- An immediate in a position of a type (R249). -/
def ofImm (t : Ty) (v : BitVec 30) : Val :=
  if t = .b1 then .ofBool (v != 0) else ofTy t (v.signExtend 64).toNat

/-- What a lane reads in a position of a type, and whether that is a poison read (R237, R242, R249, R250). -/
def Exe.read (x : Exe) (t : Ty) (l : Nat) : Opnd → Val × Bool
  | .val _ _ id =>
      match (x.g.lane l).val id.toNat with
      | some v => (v, false)
      | none => (poisonOf t, true)
  | .imm v => (ofImm t v, false)
  | .lit1 w => (if t = .b1 then .ofBool (w.getLsbD 0) else ofTy t w.toNat, false)
  | .lit2 lo hi => (ofTy t (lo.toNat + 2 ^ 32 * hi.toNat), false)
  | .special cls idx => x.special t l cls.toNat idx.toNat
  | .target _ | .table _ => (.bits 0, false)

/-- The type of an operand that has one of its own (R246, R251). -/
def Exe.tyOf (x : Exe) : Opnd → Option Ty
  | .val _ _ id => x.tr.typeOf id.toNat
  | .special cls idx => if cls = 2 then x.paramTy idx.toNat else specialTy cls idx
  | .imm _ | .target _ | .lit1 _ | .lit2 .. | .table _ => none

/-- The type in which a position reads an operand. -/
def posTy (tyOf : Opnd → Option Ty) (same : Option Ty) (o : Opnd) : Pos → Ty
  | .ty t | .const t => t
  | .any ts => (tyOf o).getD (ts.headD .i32)
  | .same ts => same.getD (ts.headD .i32)
  | .slot => (tyOf o).getD .i64
  | .imm .. | .immOf _ | .target | .table => .i32

/-- An instruction's operands as a path reads them: its own, with their types, its merge operand, and the types of its
results. -/
structure Plan where
  own : List (Ty × Opnd)
  merge : Option Opnd
  res : List Ty
  deriving DecidableEq, Repr

/-- The plan of an instruction in the executing path (R246, R269, R270). -/
def Exe.plan (x : Exe) (i : Instr) : Plan :=
  let sh := i.shape
  let tyOf := x.tyOf
  let split := (sh.split tyOf i.ctl i.ops).getD (i.ops, none)
  let same := (sh.sameTy tyOf split.1).bind id
  ⟨(sh.place split.1).map fun po => (posTy tyOf same po.2 po.1, po.2), split.2,
   ((sh.resTy tyOf split.1).take i.ctl.ndef.toNat).map fun t => t.getD .i32⟩

/-- What a lane reads in the operands of a plan. -/
def Exe.reads (x : Exe) (q : Plan) (l : Nat) : List (Val × Bool) := q.own.map fun q => x.read q.1 l q.2

/-- The values that a lane reads in the operands of a plan. -/
def Exe.vals (x : Exe) (q : Plan) (l : Nat) : List Val := (x.reads q l).map Prod.fst

/-- Does a lane read poison in any operand of a plan? -/
def Exe.readsPoison (x : Exe) (q : Plan) (l : Nat) : Bool := (x.reads q l).any Prod.snd

/-- The ids that an instruction's operand words end (R247). -/
def opndEnds : Opnd → Option Nat
  | .val last _ id => if last then some id.toNat else none
  | .imm _ | .special .. | .target _ | .lit1 _ | .lit2 .. | .table _ => none

/-- The ids that a list of operand words ends. -/
def endsOf (ops : List Opnd) : List Nat := ops.filterMap opndEnds

/-- What RDCTX.OPND shows of a value (R379): its bits, or the first eight bytes of its value-record form. -/
def Val.shown : Val → BitVec 64
  | .bits v => v
  | .tmap desc _ => BitVec.ofNat 64 (fieldAt desc 0 8)
  | .fmtb block => BitVec.ofNat 64 (fieldAt block 0 8)
  | .acc tile _ => BitVec.ofNat 64 tile

/-- What a lane read in each operand word of an instruction (R379); 0 for a word that is no value, immediate, literal or
special. -/
def Exe.shownOps (x : Exe) (i : Instr) (l : Nat) : List (BitVec 64) :=
  let q := x.plan i
  (x.vals q l).map Val.shown ++
    match q.merge with
    | some m => [(x.read (q.res.headD .i32) l m).1.shown]
    | none => []

end Sys2Proof.Machine
end

