-- ==== Sys2Proof/Machine/Window.lean ====
section
/-! DEFINITION. The remote and system windows (R20, R67): the streams behind them (R155, R156, R161) and the flits that their traffic
takes (R157, R158). -/

namespace Sys2Proof

open Machine

/-! Flits (R157). -/

/-- The bytes 0x00 to 0x0F of a flit. -/
def Flit.head (f : Flit) : List Byte :=
  leBytes 2 f.stream ++ leBytes 1 f.kind ++ bvBytes 1 f.keygen ++ leBytes 2 f.len ++ leBytes 2 0 ++ leBytes 8 f.seq

/-- The 224 bytes of its encrypted payload. -/
def Flit.payload (f : Flit) : List Byte := (padTo 224 f.cipher).take 224

/-- The 256 bytes of a flit. -/
def Flit.bytes (f : Flit) : List Byte := f.head ++ f.payload ++ bvBytes 16 f.tag

/-- The numbers of an atomic that a request asks for. -/
def AtomAsk.nums (a : AtomAsk) : List Nat := [a.op, a.t.code, a.mode.toNat, a.v, a.v2]

end Sys2Proof

namespace Sys2Proof.Machine

/-- A sample for monitor k of an enclave and of its partition (R15). -/
def State.sampleEncl (s : State) (e k v : Nat) : State :=
  let x := s.encl e
  let s := s.setEncl e { x with monitors := mset x.monitors k (((mget x.monitors k).getD Monitor.empty).sample v) }
  let p := s.part x.part
  s.setPart x.part { p with monitors := mset p.monitors k (((mget p.monitors k).getD Monitor.empty).sample v) }

/-- The package that a remote window names (R155). -/
def State.windowPeer (s : State) (w : Nat) : Nat := (s.fabricF + w) % 15

/-- The number of the enclave's stream in UP to a package, if the fabric holds the package (R155, R156). -/
def State.streamUp (s : State) (e peer : Nat) : Option Nat :=
  if s.fabricP ≤ peer then none
  else (s.streams.find? fun q => q.2.enclave == e && q.2.peer == peer && q.2.state == .up).map Prod.fst

/-- Is a window of an enclave reachable: a stream in UP to its package, or, for the system window, an IDE stream in UP whose
device interface is in RUN (R155, R161)? -/
def State.windowUp (s : State) (e w : Nat) : Bool :=
  if w = 15 then s.ides.any fun d => d.2.enclave == e && d.2.state == .up && d.2.run
  else (s.streamUp e (s.windowPeer w)).isSome

/-! Tags and flits (R157). -/

/-- The nonce of a flit; the direction is 0 from the lower package number to the higher. -/
def flitNonce (stream : Nat) (keygen : BitVec 8) (src dst seq : Nat) : BitVec 96 :=
  BitVec.ofNat 96 (stream % 2 ^ 16 * 2 ^ 80 + keygen.toNat * 2 ^ 72 + (if src ≤ dst then 0 else 2 ^ 64) + seq % 2 ^ 64)

/-- Does the tag of a flit that has come on a stream verify? -/
def State.tagOk (s : State) (t : Stream) (f : Flit) : Bool :=
  f.tag == gcmTag (Config.keyBits t.key) (flitNonce f.stream f.keygen t.peer s.fabricF f.seq) f.head f.payload

/-- A flit of the stream's generation, encrypted and with its tag; unused payload bytes encrypt zeros. A teardown flit is not
encrypted and has no tag. -/
def State.flit (s : State) (n : Nat) (t : Stream) (kind : Nat) (write : Bool) (va : BitVec 64) (data : List Byte)
    (atomic : Option AtomAsk) : Flit :=
  let key := Config.keyBits t.key
  let nonce := flitNonce n t.keygen s.fabricF t.peer t.tx
  let plain := (Config.flitPayload kind write va data (atomic.elim [] AtomAsk.nums)).take 224
  let plainF : Flit := ⟨n, kind, t.keygen, 0, t.tx, [], 0, true, write, va, data, atomic⟩
  if kind = 4 then plainF
  else
    let f : Flit := { plainF with
      len := plain.length, cipher := (padTo 224 plain).mapIdx fun i b => b ^^^ gcmStream key nonce i }
    { f with tag := gcmTag key nonce f.head f.payload }

/-- The last 512 flits of a replay buffer (R158). -/
def lastFlits (l : List Flit) : List Flit := l.drop (l.length - 512)

/-- Sends a new flit on a stream: it takes the transmit sequence, which advances, and enters its port's replay buffer (R158). A
sample of the retries is taken every 2^20 flits (R14). -/
def State.sendFlit (s : State) (n kind : Nat) (write : Bool) (va : BitVec 64) (data : List Byte) (atomic : Option AtomAsk) :
    State :=
  match mget s.streams n with
  | none => s
  | some t =>
      let f := s.flit n t kind write va data atomic
      let due := (t.tx + 1) % 2 ^ 20 = 0
      let s := if due then s.sampleEncl t.enclave 5 t.retried else s
      { s with
        streams := mset s.streams n { t with tx := t.tx + 1, retried := if due then 0 else t.retried }
        replay := mset s.replay t.port (lastFlits ((mget s.replay t.port).getD [] ++ [f])) }

/-- Must a stream be keyed afresh before it carries more (R160)? The last 2^20 numbers of a generation are kept free for what is
already under way (assumption log 112). -/
def Stream.spent (t : Stream) : Bool := decide (2 ^ 40 - 2 ^ 20 ≤ t.tx)

/-! Requests (R67). -/

/-- The stream by which an enclave's access through a window goes, with the SEQ that its flit takes. -/
def State.viaOf (s : State) (e w : Nat) : Option (Via × Nat) :=
  if w = 15 then
    (s.ides.find? fun d => d.2.enclave == e && d.2.state == .up && d.2.run).map fun d => (.ide d.1, 0)
  else (s.streamUp e (s.windowPeer w)).map fun n => (.link n, ((mget s.streams n).map Stream.tx).getD 0)

/-- Does an access through a window wait for its stream to be keyed afresh? -/
def State.windowWaits (s : State) (e w : Nat) : Bool :=
  w != 15 && (s.streamUp e (s.windowPeer w)).any fun n => (mget s.streams n).any Stream.spent

/-- An access through a window becomes one link transaction, at an address of the far end, and who makes it waits for the answer. -/
def State.sendFar (s : State) (e w pa page : Nat) (who : Asker) (write : Bool) (data : List Byte) (atomic : Option AtomAsk) :
    State :=
  match s.viaOf e w with
  | none => s
  | some (via, seq) =>
      let s := match via with
        | .link n => s.sendFlit n 1 write (BitVec.ofNat 64 (pa % 2 ^ 48)) data atomic
        | .ide _ => s
      { s with far := s.far ++ [(s.next, ⟨via, seq, who, e, BitVec.ofNat 64 pa, page, write, data⟩)], next := s.next + 1 }

/-- Sends the requests of an access of several bytes, 224 to a flit; their answers are the free bytes that the access takes at once
(assumption log 70). -/
def State.askWindow (s : State) (e w pa : Nat) (write : Bool) (bs : List Byte) : State :=
  match s.viaOf e w with
  | some (.link n, _) =>
      (List.range ((bs.length + 223) / 224)).foldl (fun s i =>
        s.sendFlit n 1 write (BitVec.ofNat 64 ((pa + 224 * i) % 2 ^ 48)) ((bs.drop (224 * i)).take 224) none) s
  | some (.ide _, _) | none => s

/-- The free bytes that a window answers with. -/
def State.windowBytes (s : State) (pa n : Nat) : List Byte :=
  (List.range n).map fun i => (Config.freeBits (.window (pa + i)) s.free).setWidth 8

/-- Who waits for a far end, as a group. -/
def Asker.group : Asker → Option Nat
  | .lane g _ _ => some g
  | .hart _ => none

/-- Does somebody wait for a far end? -/
def State.asked (s : State) (who : Asker) : Bool := s.far.any fun q => q.2.who == who

/-- The launch status LINK_KEY (R396). -/
def stLinkKey : Nat := 0x16

end Sys2Proof.Machine
end

