-- ==== Sys2Proof/Machine/Ops.lean ====
section
/-! DEFINITION. The shared operations: memory accesses of engines and of the launch machinery, counters and monitors, the
ends of launches (R395, R417, R432), landings (R182 to R186, R291), taking a trap and leaving its handler (R404 to R407,
R431), and the completion of an instruction (R217). -/

namespace Sys2Proof.Machine

/-! Counters (R214, R385). -/

/-- The key of counter k of a core; the ladder counters 16 to 18 are the enclave's (R223). -/
def counterKey (k core : Nat) : Nat := if 16 ≤ k then k else core * 32 + k

/-- Adds to an enclave's counter, saturating at 64 bits (R214). -/
def State.bump (s : State) (e k core n : Nat) : State :=
  let x := s.encl e
  let old := ((mget x.counters (counterKey k core)).getD 0).toNat
  s.setEncl e { x with counters := mset x.counters (counterKey k core) (BitVec.ofNat 64 (min (old + n) (2 ^ 64 - 1))) }

/-! Memory. -/

/-- What stopped an access of several pages, and at which address. -/
structure Stop where
  va : BitVec 64
  found : Found
  deriving DecidableEq, Repr

/-- The physical pieces of an access of n bytes (R330): each piece's address and length, or what stops the first that
does not translate. -/
def State.locate (s : State) (unit : Option Nat) (e : Nat) (va : BitVec 64) (k : AccessKind) (n : Nat) :
    Except Stop (List (Found × Nat)) :=
  (pagePieces va.toNat n).mapM fun pc =>
    let a := va + BitVec.ofNat 64 pc.1
    match s.translate unit e a k pc.2 with
    | .ok pa leaf => .ok (.ok pa leaf, pc.2)
    | .window w pa => .ok (.window w pa, pc.2)
    | .moving => .error ⟨a, .moving⟩
    | .search pa m => .error ⟨a, .search pa m⟩
    | .fault f => .error ⟨a, .fault f⟩

/-- Ranges longer than two pages, page by page. -/
def pageRuns : Nat → BitVec 64 → Nat → List (BitVec 64 × Nat)
  | 0, _, _ => []
  | fuel + 1, va, n =>
      if n = 0 then []
      else
        let first := min n (4096 - va.toNat % 4096)
        (va, first) :: pageRuns fuel (va + BitVec.ofNat 64 first) (n - first)

/-- How an access of an engine, the grafter or the launch machinery goes on behind its translation: nothing is sent through a window
that is down (R155, R159) or whose stream is to be keyed afresh. -/
def State.throughWindow (s : State) (e : Nat) (va : BitVec 64) (f : Found) : Except Stop Found :=
  match f with
  | .ok pa leaf => .ok (.ok pa leaf)
  | .window w pa =>
      if s.windowUp e w = false then .error ⟨va, .window w pa⟩
      else if s.windowWaits e w then .error ⟨va, .moving⟩
      else .ok (.window w pa)
  | .moving => .error ⟨va, .moving⟩
  | .search pa m => .error ⟨va, .search pa m⟩
  | .fault f => .error ⟨va, .fault f⟩

/-- What an access of an engine or of the machinery does besides: its lines are touched in the L2 of the core's die, by the
leaf's class (R65, R71), or, for an engine of the I/O die, through the directory alone (R68); through a window, it is sent (R67,
R156). -/
def State.hwTouch (s : State) (unit : Option Nat) (e : Nat) (va : BitVec 64) (k : AccessKind) (bs : List Byte) : State :=
  (pageRuns (bs.length / 4096 + 2) va bs.length).foldl (fun s r =>
    match s.translate unit e r.1 k r.2 with
    | .ok pa leaf =>
        match unit with
        | some u => s.touch (s.encl e).part (dieOf (unitHall u)) pa r.2 (s.worldOf (pa / 4096)) leaf.cls 0 k.writes
        | none => if k.writes then s else (linesAt pa r.2).foldl (fun s line => s.obtain line false false) s
    | .window w pa => s.askWindow e w pa k.writes ((bs.drop (r.1 - va).toNat).take r.2)
    | .moving | .search .. | .fault _ => s) s

/-- Reads n bytes of enclave memory for an engine, the grafter or the launch machinery (R40): what a window answers is free. -/
def State.hwRead (s : State) (unit : Option Nat) (e : Nat) (va : BitVec 64) (k : AccessKind) (n : Nat) :
    Except Stop (List Byte) :=
  (pageRuns (n / 4096 + 2) va n).foldlM (fun acc r =>
    (s.throughWindow e r.1 (s.translate unit e r.1 k r.2)).map fun f =>
      match f with
      | .ok pa _ => acc ++ readBytes s.mem pa r.2
      | .window _ pa => acc ++ s.windowBytes pa r.2
      | .moving | .search .. | .fault _ => acc) []

/-- The same with what the read does besides. -/
def State.hwTake (s : State) (unit : Option Nat) (e : Nat) (va : BitVec 64) (k : AccessKind) (n : Nat) :
    Except Stop (State × List Byte) :=
  (s.hwRead unit e va k n).map fun bs => (s.hwTouch unit e va k (leBytes n 0), bs)

/-- Writes bytes of enclave memory for an engine or the launch machinery (R40), every page of it or none: through the L2 of the
core's die, or, for an engine of the I/O die, at the memory controllers. A write to a window leaves the package. -/
def State.hwWrite (s : State) (unit : Option Nat) (e : Nat) (va : BitVec 64) (bs : List Byte) : Except Stop State :=
  let runs := pageRuns (bs.length / 4096 + 2) va bs.length
  match runs.mapM (fun r =>
      (s.throughWindow e r.1 (s.translate unit e r.1 .engWrite r.2)).map fun f =>
        match f with
        | .ok pa _ => some (pa, (r.1 - va).toNat, r.2)
        | .window .. | .moving | .search .. | .fault _ => none) with
  | .error e => .error e
  | .ok places =>
      .ok <| places.foldl (fun s q =>
        match q with
        | none => s
        | some (pa, off, n) =>
            let part := (bs.drop off).take n
            if unit.isSome then s.store pa part else s.poke pa part) (s.hwTouch unit e va .engWrite bs)

/-- The core and slot fields of a record for an access on no core (R432). -/
def noCore : Nat × Nat := (0xFF, 0x3F)

/-- The launch that a waiter belongs to. -/
def State.launchOf (s : State) : Waiter → Option Nat
  | .path g _ => (mget s.groups g).map fun x => (s.team x.team).launch
  | .eng op => (mget s.ops op).map fun o => (s.team o.team).launch
  | .dep n | .done n => some n
  | .save t => (mget s.teams t).map Team.launch
  | .cut k => (mget s.cuts k).map Cut.launch

/-- Makes an access wait for what stopped it: a fault forms or joins a record, a damaged line is searched, a frame in
MOVING is waited for. -/
def State.waitOn (s : State) (e : Nat) (at_ : Nat × Nat) (k : AccessKind) (w : Waiter) (st : Stop) : State :=
  match st.found with
  | .fault f =>
      s.formFault (s.encl e).part
        ⟨f.kind, f.nc, f.level, f.size, k, e, at_.1, at_.2, st.va.setWidth 48, none, 0, [w], s.launchOf w⟩
  | .search pa n => s.startSearch pa n
  | .ok .. | .window .. | .moving => s

/-! Turns on halls (R402). -/

/-- The teams that stand on the cores of a hall. -/
def State.hallTeams (s : State) (hall : Nat) : List Team :=
  (s.teams.filter fun t => t.2.resident && t.2.core / 8 == hall).map Prod.snd

/-- How many cores some teams occupy. -/
def coresOf (ts : List Team) : Nat := (ts.foldl (fun l t => if l.contains t.core then l else t.core :: l) []).length

/-- The cores of a hall that an enclave occupies. -/
def State.coresHeld (s : State) (hall e : Nat) : Nat :=
  coresOf ((s.hallTeams hall).filter fun t => (s.launch t.launch).enclave == e)

/-- The deficit of an enclave on a hall. -/
def State.deficit (s : State) (hall e : Nat) : Int := (mget s.deficits (hall, e)).getD 0

/-- n core cycles pass on a hall: each enclave's deficit falls by the cores that it occupies, and each launch is charged the
cycles of its own cores. -/
def State.elapse (s : State) (hall n : Nat) : State :=
  let es := ((s.hallTeams hall).map fun t => (s.launch t.launch).enclave).eraseDups
  let charge : Launch → Nat → Launch := fun x l =>
    { x with cycles := x.cycles + n * coresOf ((s.hallTeams hall).filter fun t => t.launch == l) }
  { s with
    deficits := es.foldl (fun d e => mset d (hall, e) (s.deficit hall e - (n * s.coresHeld hall e : Nat))) s.deficits
    launches := s.launches.map fun l => (l.1, charge l.2 l.1) }

/-- The same for the cycles since the hall was last charged, which no rule gives. -/
def State.elapsed (s : State) (hall : Nat) : State := s.elapse hall (Config.freeNat (.cycles (1000 + hall)) s.free)

/-- Has an enclave gangs that wait for a core of a hall? One of weight 0 is not placed (R401). -/
def State.awaits (s : State) (hall e : Nat) : Bool :=
  let x := s.encl e
  x.weight != 0 && (s.part x.part).halls.contains hall && s.launches.any fun l =>
    l.2.enclave == e && l.2.phase == .dispatched && l.2.gangs.any fun g => g.2.state == .waiting || g.2.state == .saved

/-- How a hall's turn stands after gangs have left cores: it is over when its enclave has nothing left on the hall, or when its
gangs have left to end it; a credit that remains is lost. -/
def State.endTurn (s : State) (h : Nat × Nat × Hold) : State :=
  let e := h.2.1
  let gone := s.coresHeld h.1 e == 0 && (h.2.2 == .leaves || !s.awaits h.1 e)
  if h.2.2 == .past || !gone then s
  else { s with
    deficits := mset s.deficits (h.1, e) (min (s.deficit h.1 e) 0)
    holders := mset s.holders h.1 (e, .past) }

/-- Every turn that is over ends. -/
def State.endTurns (s : State) : State := s.holders.foldl State.endTurn s

/-! The ends of launches. -/

/-- Does a waiter belong to a launch? -/
def State.waiterOf (s : State) (l : Nat) (w : Waiter) : Bool := s.launchOf w == some l

/-- The completion object (R395). -/
def Launch.doneBytes (l : Launch) : List Byte :=
  leBytes 2 l.status.toNat ++ leBytes 1 1 ++ leBytes 1 l.detail.toNat ++ leBytes 4 0 ++
  leBytes 8 (if l.detail = 0 then 0 else l.addr.toNat) ++ leBytes 8 l.seq.toNat ++
  leBytes 8 (min l.cycles (2 ^ 64 - 1))

/-- Writes the completion object of a launch, or makes the write wait, or abandons it (R395, R432): so too behind a window that is
down (assumption log 113). -/
def State.writeDone (s : State) (l : Nat) : State :=
  let x := s.launch l
  if x.written || x.abandoned then s
  else
    match s.hwWrite none x.enclave x.doneAddr x.doneBytes with
    | .ok s => s.setLaunch l { x with written := true }
    | .error st =>
        match st.found with
        | .fault f =>
            let s := s.waitOn x.enclave noCore .engWrite (.done l) st
            if f.kind.fatal then s.setLaunch l { x with abandoned := true } else s
        | .window .. => s.setLaunch l { x with abandoned := true }
        | .ok .. | .moving | .search .. => s.waitOn x.enclave noCore .engWrite (.done l) st

/-- The length of a signature (R383). -/
def sigLen (mldsa : Bool) : Nat := if mldsa then 3309 else 96

/-- A seal record (R383): KIND, CAUSE and the context of a launch. -/
def State.sealRecord (s : State) (l : Nat) (kind cause : Nat) (c : Seal) : List Byte :=
  let x := s.launch l
  let body := leBytes 4 0x5A52534C ++ leBytes 1 kind ++ leBytes 1 c.mldsa.toNat ++ leBytes 2 x.enclave ++
    leBytes 8 x.seq.toNat ++ leBytes 8 c.bytes.length ++ leBytes 4 cause ++ leBytes 4 (sigLen c.mldsa) ++
    bvBytes 48 (s.encl x.enclave).m ++ bvBytes 48 (sha384 c.bytes) ++ leBytes 16 0
  let key := (s.part (s.encl x.enclave).part).sealKey
  body ++ (List.range (sigLen c.mldsa)).map fun i => Config.signature key c.mldsa body i

/-- Writes a seal record at the context's address. A record that cannot be translated is not written; the spec names no
wait for it (assumption log 9). -/
def State.writeSeal (s : State) (l kind cause : Nat) (c : Seal) : State :=
  match s.hwWrite none (s.launch l).enclave c.rcd (s.sealRecord l kind cause c) with
  | .ok s => s
  | .error _ => s

/-- Writes a record for every context of a launch: complete for the closed ones when it retires normally, an abort
otherwise (R384). -/
def State.writeSeals (s : State) (l : Nat) (normal : Bool) (cause : Nat) : State :=
  (s.launch l).seals.foldl (fun s c =>
    if normal then if c.2.closed then s.writeSeal l 0 0 c.2 else s.writeSeal l 1 1 c.2
    else s.writeSeal l 1 cause c.2) s

/-- The teams of a launch. -/
def State.teamsOf (s : State) (l : Nat) : List Nat := (s.teams.filter fun t => t.2.launch == l).map Prod.fst

/-- Frees the cores of some teams: their groups, tiles and operations go. -/
def State.dropTeams (s : State) (ts : List Nat) : State :=
  { s with
    groups := s.groups.filter fun g => !ts.contains g.2.team
    tiles := s.tiles.filter fun t => !ts.contains t.2.team
    ops := s.ops.filter fun o => !ts.contains o.2.team
    teams := s.teams.filter fun t => !ts.contains t.1
    xctls := s.xctls.filter fun c => !ts.contains (s.group c.1).team
    moving := s.moving.filter fun c => !ts.contains (s.group c.1).team
    far := s.far.filter fun c => !c.2.who.group.any fun g => ts.contains (s.group g).team }

/-- Ends the pins of a launch (R216). -/
def State.unpinLaunch (s : State) (l : Nat) : State :=
  { s with trans := s.trans.map fun t => (t.1, { t.2 with pins := t.2.pins.filter fun q => q.2 != some l }) }

/-- PREEMPT.GO clears once no gang that it pre-empts is on its way off its cores (R403). -/
def State.clearGo (s : State) (part : Nat) : State :=
  let p := s.part part
  let busy := p.preempted.any fun g => (s.launches.any fun l => l.1 == g.1 && (mget l.2.gangs g.2).any fun x => x.state == .stopping)
  if p.preemptGo && !busy then s.setPart part { p with preemptGo := false, preempted := [] } else s

/-- Takes a launch off its cores, its queue, the fault records and the rake, with its ejection sample (R14, R417). The
accesses of the launch leave every record; the records themselves stay open (R50, R51). -/
def State.vacate (s : State) (l : Nat) : State :=
  let x := s.launch l
  let part := (s.encl x.enclave).part
  let p := s.part part
  let keep : FaultRec → FaultRec := fun r => { r with waiters := r.waiters.filter fun w => !s.waiterOf l w }
  let s' := s.setPart part { p with recs := p.recs.map fun r => (r.1, keep r.2), queue := p.queue.map keep }
  let s' := ((s.teamsOf l).map fun t => (s.team t).core / 8).eraseDups.foldl State.elapsed s'
  let s' := (s'.dropTeams (s.teamsOf l)).unpinLaunch l
  let s' := s'.sampleEncl x.enclave 3 x.ejections
  let e := s'.encl x.enclave
  let s' := s'.setEncl x.enclave { e with queues := e.queues.map fun q => (q.1, q.2.filter (· != l)) }
  let drains := (s'.cuts.filter fun c => c.2.launch == l).flatMap fun c => c.2.ops
  ({ s' with
    rakes := s'.rakes.filter fun r => r.2.launch != l
    cuts := s'.cuts.filter fun c => c.2.launch != l
    ops := s'.ops.filter fun o => !drains.contains o.1 } : State).endTurns

/-- The cause of an abort record by how a launch ended (R417): the class, and its byte [15:8]. -/
def endCause (status detail trap : Nat) : Nat :=
  if status = 0x10 ∨ status = 0x11 then 2 + 256 * detail
  else if status = 0x12 ∨ status = 0x13 ∨ status = 0x14 ∨ status = 0x15 then 3 + 256 * status
  else if status = 0x18 ∨ status = 0x19 ∨ status = 0x0D then 4 + 256 * trap
  else 5 + 256 * status

/-! Collectives that end with their launch (R135, R417). -/

/-- PENDING (R133). -/
def futPending : BitVec 8 := 1

/-- A collective operation's group: its key and the number of the meeting. -/
def EngOp.meeting (o : EngOp) : Nat × Nat :=
  match o.members with
  | m :: _ => (m.1, m.2.1)
  | [] => (0, 0)

/-- The meeting is over. -/
def Coll.close (c : Coll) (number : Nat) : Coll :=
  { c with inbox := c.inbox.filter fun m => m.about.number != number, decided := mdel c.decided number }

/-- Sends a contribution to every other member, 224 bytes a flit (R157). -/
def State.collSend (s : State) (e number : Nat) (members : List Nat) (bs : List Byte) : State :=
  (members.filter (· != s.fabricF)).foldl (fun s m =>
    match s.streamUp e m with
    | none => s
    | some n =>
        (List.range (max 1 ((bs.length + 223) / 224))).foldl (fun s i =>
          s.sendFlit n 3 true (BitVec.ofNat 64 number) ((bs.drop (224 * i)).take 224) none) s) s

/-- A collective in flight is cancelled as its launch ends: its members learn it by a notice of form 4, and a group that it was to
build never becomes valid (R135). One whose result is begun has all contributions, and the members complete with it
(assumption log 125). -/
def State.quitColl (s : State) (k : Nat) (o : EngOp) : State :=
  let q := o.meeting
  let key := if o.sub = 0 then k else q.1
  match mget s.colls key with
  | none => s
  | some c =>
      let c' : Coll := if o.sub = 0 then { c with state := .invalid } else c.close q.2
      if (mget c.decided q.2).isSome then s
      else ({ s with colls := mset s.colls key c' } : State).collSend c.enclave (if o.sub = 0 then 0 else q.2) c.members [4]

/-- The collectives in flight of a launch are cancelled. -/
def State.quitColls (s : State) (l : Nat) : State :=
  (s.ops.filter fun o => o.2.cls == 3 && o.2.status == futPending && (s.team o.2.team).launch == l).foldl
    (fun s o => s.quitColl o.1 o.2) s

/-- Ends a launch other than by retiring normally (R417): operations are cancelled, abort records written, cores and
tiles freed, and the completion object released with its status, DETAIL and ADDR (R395). `trap` is the code of the trap
that ended it. -/
def State.endLaunch (s : State) (l status detail : Nat) (addr : BitVec 48) (trap : Nat) : State :=
  let x := s.launch l
  if x.phase = .ended ∨ x.phase = .retired then s
  else
    let s := s.setLaunch l { x with phase := .ended, status := BitVec.ofNat 16 status, detail := BitVec.ofNat 8 detail,
                                    addr := addr, gangs := x.gangs.map fun g => (g.1, { g.2 with state := .finished }) }
    let s := (s.quitColls l).writeSeals l false (endCause status detail trap)
    let s := s.vacate l
    (s.writeDone l).clearGo (s.encl x.enclave).part

/-- A single-bit error of a core's arrays is corrected in place when it is met, and counted for the core's partition (R79, R89). -/
def State.coreRead (s : State) (core : Nat) : State :=
  if s.coreFlips.contains core then
    let s : State := { s with coreFlips := s.coreFlips.filter (· != core) }
    match s.parts.find? fun p => p.2.halls.contains (core / 8) with
    | none => s
    | some p => s.readArray p.1 true
  else s

/-- A double-bit error of a core's arrays is met (R79): every launch with a team on the core ends with INTEGRITY. -/
def State.arrayFault (s : State) (core : Nat) : State :=
  let ls := ((s.teams.filter fun t => t.2.resident && t.2.core == core).map fun t => t.2.launch).eraseDups
  let s : State := { s with coreErrs := s.coreErrs.filter (· != core) }
  ls.foldl (fun s l => s.endLaunch l 0x11 5 0 0) s

/-- The launch statuses used here (R396). -/
def stTranslation : Nat := 0x0C
/-- NO_HANDLER. -/
def stNoHandler : Nat := 0x0D
/-- DOUBLE_TRAP. -/
def stDoubleTrap : Nat := 0x18
/-- UNHANDLED_TRAP. -/
def stUnhandled : Nat := 0x19
/-- CALL_DEPTH. -/
def stCallDepth : Nat := 0x1A

/-! Fault records that stall. -/

/-- The groups of a launch where a path waits to depart from a cutting's barrier (R168). -/
def State.cutGroups (s : State) (k : Nat) : List Group :=
  match mget s.cuts k with
  | none => []
  | some c =>
      ((s.groups.filter fun g =>
        (s.team g.2.team).launch == c.launch &&
          g.2.ctx.paths.any fun p =>
            p.2.stage == .cutting k || c.spot.any fun f => dieOf ((s.team g.2.team).core / 8) == f.1 &&
              p.2.stage == .waiting (.flight f.2) 0).map Prod.snd)

/-- The cores of those groups. -/
def State.cutCores (s : State) (k : Nat) : List Nat := (s.cutGroups k).map fun g => (s.team g.team).core

/-- The core or gallery core that runs a path of a group. -/
def State.unitOf (s : State) (g : Group) (p : Path) : Nat :=
  let core := (s.team g.team).core
  match p.place with
  | .core => core
  | .handing q | .gallery q | .copying q | .recalling q => galleryUnit (core / 8) q

/-- The cores and gallery cores that an access stalls (R45, R168): none for the launch machinery's. -/
def State.waiterCores (s : State) : Waiter → List Nat
  | .path g p =>
      match mget s.groups g with
      | none => []
      | some gr => ((mget gr.ctx.paths p).map (s.unitOf gr)).toList
  | .eng op => ((mget s.ops op).map fun o => (s.team o.team).core).toList
  | .save t => [(s.team t).core]
  | .cut k => s.cutCores k
  | .dep _ | .done _ => []

/-- Every record of a partition that holds accesses: pending, waiting, or NC. -/
def Part.allRecs (p : Part) : List FaultRec := p.recs.map Prod.snd ++ p.queue

/-- Does an access of a core or gallery core wait on a record (R45)? -/
def State.coreStalled (s : State) (core : Nat) : Bool :=
  s.parts.any fun p => p.2.allRecs.any fun r => r.waiters.any fun w => (s.waiterCores w).contains core

/-- Does an access of this path wait on a record? -/
def State.pathStalled (s : State) (g p : Nat) : Bool :=
  s.parts.any fun q => q.2.allRecs.any fun r => r.waiters.contains (.path g p)

/-- The accesses of a core that are to be replayed, first the next (R49). One whose path or operation is gone is none. -/
def State.replaysOf (s : State) (core : Nat) : List Waiter :=
  (s.replays.filter fun q => q.1 == core && (s.waiterCores q.2).contains core).map Prod.snd

/-- Must an access let another of its core replay first (R49)? -/
def State.replayLater (s : State) (core : Nat) (w : Waiter) : Bool := ((s.replaysOf core).head?).any (· != w)

/-- An access is made: it is no longer to be replayed. -/
def State.replayed (s : State) (w : Waiter) : State := { s with replays := s.replays.filter fun q => q.2 != w }

/-- The launches with an access in the stall of a core or gallery core (R47). -/
def State.stalledLaunches (s : State) (core : Nat) : List Nat :=
  (s.parts.map fun p => (p.2.allRecs.map fun r => (r.waiters.filterMap fun w =>
    if (s.waiterCores w).contains core then s.launchOf w else none)).flatten).flatten

/-- Raises a translation fault of a launch's access (R45 to R48): a resolvable one stalls; a fatal one forms an
information record and ends every launch with an access in the stall of the core, or gallery core, where it arose, this one
included. -/
def State.faultAccess (s : State) (l : Nat) (core slot : Nat) (k : AccessKind) (w : Waiter) (va : BitVec 64)
    (f : FaultInfo) : State :=
  let x := s.launch l
  let r : FaultRec := ⟨f.kind, f.nc, f.level, f.size, k, x.enclave, core, slot, va.setWidth 48, none, 0,
    if f.kind.fatal then [] else [w], some l⟩
  let s' := s.formFault (s.encl x.enclave).part r
  if f.kind.fatal then
    (l :: s.stalledLaunches ((s.waiterCores w).headD core)).foldl (fun s n =>
      s.endLaunch n (if f.kind = .integrity then 0x11 else 0x10) f.kind.num (va.setWidth 48) 0) s'
  else s'

/-! Translations of functions (R209, R210). -/

/-- The entry of a function of a code object in its table (R204). -/
def State.fnEntry (s : State) (obj fn : Nat) : Option FnEntry := (mget s.objs obj).bind fun o => o.fns[fn]?

/-- The installed translation of a function of a code object for a hall, width and budget, found by its ENTRY (R210). A
translation fault stands for the function on every hall, for every width and budget, until it is invalidated (R211). -/
def State.findTrans (s : State) (e obj fn width budget hall : Nat) : Option (Nat × Trans) :=
  match s.fnEntry obj fn with
  | none => none
  | some f =>
      s.trans.find? fun t => t.2.live && t.2.enclave == e && t.2.entry == f.entry.setWidth 48 &&
        (t.2.fault.isSome || (t.2.width == width && t.2.budget == budget && t.2.hall == hall))

/-- The state after an entry of a translation: it is the most recently used one (R210). -/
def State.useTrans (s : State) (n : Nat) : State :=
  match mget s.trans n with
  | none => s
  | some t => { s with trans := mdel s.trans n ++ [(n, t)] }

/-- Asks a hall's grafter for a translation, unless it is at work on it (R209). -/
def State.askTrans (s : State) (e obj fn width budget hall : Nat) : State :=
  let b : Building := ⟨e, obj, fn, width, budget, hall, false⟩
  if s.building.any fun q => q.2 == b then s
  else { s with building := s.building ++ [(s.next, b)], next := s.next + 1 }

/-- A path of a group waits for a function's translation: the first time, the entry counts as a miss (R209, R214). -/
def State.awaitTrans (s : State) (gid pid fn : Nat) (p : Path) : State :=
  let g := s.group gid
  let team := s.team g.team
  let l := s.launch team.launch
  let s := s.askTrans l.enclave l.obj fn g.width (l.budget g.role) (team.core / 8)
  if p.stage = .translating fn ∨ p.stage = .failed then s
  else (s.setGroup gid (g.setPath pid { p with stage := .translating fn })).bump l.enclave 1 team.core 1

/-- Counts the entry of a function: a hit, unless the entry had to wait (R214). -/
def State.countEntry (s : State) (e core : Nat) (stage : Stage) : State :=
  match stage with
  | .translating _ => s
  | .none | .arriving _ | .waiting .. | .masked | .released | .joining _ | .cutting _ | .issued _ | .failed => s.bump e 0 core 1

/-! Landings. -/

/-- The number of core paths (R182): those that run, and those that wait at a landing (R184). -/
def Ctx.corePaths (c : Ctx) : Nat :=
  let here := (c.paths.filter fun p => p.2.place == .core).map Prod.fst
  ((c.recs.map LandRec.waits).flatten.foldl (fun l p => if l.contains p then l else l ++ [p]) here).length

/-- The number of ejected paths. -/
def Ctx.ejected (c : Ctx) : Nat := (c.paths.filter fun p => p.2.place != .core).length

/-- A landing in progress. -/
def Ctx.rcd (c : Ctx) (u : Nat) : Option LandRec := c.recs.find? fun r => r.uid == u

/-- The context with a landing changed. -/
def Ctx.setRcd (c : Ctx) (r : LandRec) : Ctx := { c with recs := c.recs.map fun q => if q.uid = r.uid then r else q }

/-- The context without a landing: no path, entry or landing names it any more. -/
def Ctx.dropRcd (c : Ctx) (u : Nat) : Ctx :=
  { c with
    recs := (c.recs.filter fun q => q.uid != u).map fun q => { q with outer := q.outer.filter (· != u) }
    paths := c.paths.map fun p => (p.1, { p.2 with pend := p.2.pend.filter (· != u) })
    stack := c.stack.map fun e =>
      { e with pend := e.pend.filter (· != u), rcd := if e.rcd = some u then none else e.rcd } }

/-- Is a path of this number running? -/
def Ctx.running (c : Ctx) (p : Nat) : Bool := (mget c.paths p).isSome

/-- The last landing that a path owns. -/
def Ctx.lastOwned (c : Ctx) (o : Nat) : Option LandRec := (c.recs.filter fun r => r.owner == o).getLast?

/-- Is a landing-stack entry a path's, for lanes that a landing awaits? -/
def Entry.dueAt (o : Nat) (r : Option LandRec) (e : Entry) : Bool := e.owner == o && r.all fun r => e.pend.contains r.uid

/-- The last landing-stack entry that a path owns for a landing: an entry that a recall has put above it for an outer landing is
not it (R192). -/
def Ctx.dueEntry (c : Ctx) (o : Nat) (r : Option LandRec) : Option Entry := (c.stack.filter (Entry.dueAt o r)).getLast?

/-- Removes the last entry of a kind. -/
def dropLastOf (mine : Entry → Bool) : List Entry → List Entry
  | [] => []
  | e :: rest => if mine e ∧ !rest.any mine then rest else e :: dropLastOf mine rest

/-- A path that begins at a pc. -/
def Path.start (pc : BitVec 48) (mask : LaneMask) (mode : BitVec 64) (pend : List Nat)
    (last : Option (BitVec 48 × Nat)) (place : Place) : Path :=
  ⟨pc, mask, mode, pend, last, place, .none, none, false, 0, [], [], none⟩

/-- The lanes of a path arrive at a landing (R186): they are counted, with their copy of the mode word (R298). -/
def LandRec.arrive (r : LandRec) (pid : Nat) (place : Place) (mask : LaneMask) (mode : BitVec 64) : LandRec :=
  { r with
    arrived := r.arrived ||| mask
    modes := r.modes ++ [(mask, mode)]
    waits := if place = .core ∧ !r.waits.contains pid then r.waits ++ [pid] else r.waits }

/-- One step of a path number whose path no longer runs: its pending arm runs (R185), its landing completes (R186), or a
landing without lanes is forgotten; `none` when nothing is to be done. -/
def Ctx.settleOne (c : Ctx) (o : Nat) : Option Ctx :=
  let entry : Option Ctx := (c.dueEntry o (c.lastOwned o)).map fun e =>
    { c with
      paths := mset c.paths e.runs { Path.start e.pc e.lanes e.mode e.pend e.last e.place with arms := e.arms }
      stack := dropLastOf (Entry.dueAt o (c.lastOwned o)) c.stack }
  match c.lastOwned o with
  | none => entry
  | some r =>
      if r.need = 0 then some (c.dropRcd r.uid)
      else if entry.isSome then entry
      else if maskSub r.need r.arrived && !r.away then
        let mode := modeMerge (r.modes.map fun a => (a.1 &&& r.need, a.2))
        let again := r.outer.head?.bind fun u => (c.rcd u).filter fun q => q.id == r.id && q.depth == r.depth
        match again with
        | some q => some ((c.dropRcd r.uid).setRcd (q.arrive o r.place r.need mode))
        | none =>
            some { c.dropRcd r.uid with
              paths := mset c.paths o (Path.start (pcAdd r.join 2) r.need mode r.outer none r.place) }
      else none

/-- The path numbers that own a landing or an entry and neither run nor wait in another path's entry (R192). -/
def Ctx.idleOwners (c : Ctx) : List Nat :=
  ((c.recs.map fun r => r.owner) ++ (c.stack.map fun e => e.owner)).filter fun o =>
    !c.running o && !c.stack.any fun e => e.runs == o && e.owner != o

/-- Everything that follows from an arrival or an exit (R185, R186); the fuel bounds the landings and entries. -/
def Ctx.settle : Nat → Ctx → Ctx
  | 0, c => c
  | fuel + 1, c =>
      match c.idleOwners.findSome? c.settleOne with
      | none => c
      | some c => Ctx.settle fuel c

/-- The context after everything that follows. -/
def Ctx.settled (c : Ctx) : Ctx := c.settle (2 * (c.recs.length + c.stack.length) + 2)

/-- Takes lanes that have exited out of every landing, entry and meeting (R148, R186, R295). -/
def Ctx.without (c : Ctx) (lanes : LaneMask) : Ctx :=
  let stack := (c.stack.map fun e => { e with lanes := e.lanes &&& ~~~lanes }).filter fun e => e.lanes != 0
  let paths := (c.paths.map fun p => (p.1, { p.2 with mask := p.2.mask &&& ~~~lanes })).filter fun p => p.2.mask != 0
  ⟨paths, stack, c.recs.map fun r => { r with need := r.need &&& ~~~lanes, arrived := r.arrived &&& ~~~lanes },
   (c.meets.map fun m => (m.1, m.2 &&& ~~~lanes)).filter fun m => m.2 != 0,
   c.barm.filter fun b => !lanes.getLsbD b.1⟩

/-! Taking a trap. -/

/-- The trap code LANDING_OVERFLOW. -/
def trapOverflow : Nat := 7
/-- The trap code HANDLE_INVALID. -/
def trapHandle : Nat := 0x0C

/-- Does the launch of a group have a code object with a trap entry (R208)? -/
def State.trapFn (s : State) (l : Launch) : Option Nat := (mget s.objs l.obj).bind CodeObj.trapFn

/-- The depth at which a handler lane's frames begin: the frame of the trap entry is pushed on the lane's own. -/
def pushFrame (fn tr : Nat) (x : Lane) : Lane := { x with frames := ⟨fn, tr, 0, [], []⟩ :: x.frames }

/-- Takes a trap in a group (R404 to R407): inside a handler it is a double trap; with its bit in the delivery mask clear
it ends the launch with UNHANDLED_TRAP; without a trap entry it ends it with NO_HANDLER; otherwise the group's path state
is frozen and the trap entry function starts at its entry as one core path of the trapping lanes, with the trapping
path's copy of the mode word as it was before the instruction. While the trap entry has no translation (R218), what traps
waits for one, as `wait` tells. -/
def State.takeTrapOr (s : State) (gid pid : Nat) (p : Path) (t : TrapInfo) (wait : Nat → State) : State :=
  let g := s.group gid
  let team := s.team g.team
  let l := s.launch team.launch
  if g.handler.isSome then s.endLaunch team.launch stDoubleTrap 0 0 t.code
  else if t.code < 0x10 ∧ g.tmask.getLsbD t.code = false then s.endLaunch team.launch stUnhandled t.code p.pc t.code
  else
    match s.trapFn l with
    | none => s.endLaunch team.launch stNoHandler 0 0 t.code
    | some fn =>
        match s.findTrans l.enclave l.obj fn g.width (l.budget g.role) (team.core / 8) with
        | none => wait fn
        | some (n, tr) =>
            let frozen : Ctx := { g.ctx with paths := mupd g.ctx.paths pid fun q => { q with stage := .none } }
            let h : Handler := ⟨BitVec.ofNat 8 t.code, t.lanes, p.pc, t.flags, t.opnds, pid, frozen, 0, 0, p.mode⟩
            let g := g.mapLanes (lanesOf t.lanes) fun _ => pushFrame fn n
            let path := Path.start tr.entry t.lanes p.mode [] none .core
            let g := { g with ctx := ⟨[(g.fresh, path)], [], [], [], []⟩, handler := some h, fresh := g.fresh + 1 }
            let s := ((s.setGroup gid g).countEntry l.enclave team.core p.stage).useTrans n
            if t.code = 0x0E then s.bump l.enclave 17 team.core 1 else s

/-- Takes a trap in a path, which waits for the trap entry's translation where there is none. -/
def State.takeTrap (s : State) (gid pid : Nat) (p : Path) (t : TrapInfo) : State :=
  s.takeTrapOr gid pid p t fun fn => s.awaitTrans gid pid fn p

/-- Would a recall overflow the landing stack (R192)? -/
def Ctx.recallOverflows (c : Ctx) : Bool := decide (2 ≤ c.corePaths) && decide (32 ≤ c.stack.length)

/-- Begins the recall of an ejected path (R192), perhaps for a trap of its (R198): its values are copied back; where the landing stack
is full, LANDING_OVERFLOW is taken in the path's lanes instead and the path stays on its gallery core. -/
def State.recall (s : State) (gid pid : Nat) (p : Path) (k : Nat) (opnds : List (Nat × List (BitVec 64))) (owed : Option TrapInfo) :
    State :=
  let g := s.group gid
  if g.ctx.recallOverflows then s.takeTrap gid pid p ⟨trapOverflow, p.mask, 0, opnds⟩
  else s.setGroup gid (g.setPath pid { p with place := .recalling k, owed := owed })

/-- Raises a trap at the instruction of a path (R198, R405): an ejected path is first recalled, and takes the trap once it is on the
core. -/
def State.raiseTrap (s : State) (gid pid : Nat) (p : Path) (t : TrapInfo) : State :=
  match p.place with
  | .core => s.takeTrap gid pid p t
  | .gallery k | .handing k | .copying k | .recalling k => s.recall gid pid p k t.opnds (some t)

/-! Leaving a handler. -/

/-- A landing-stack entry of lanes that part from others at a pc, to run as a path's pending arm (R431). -/
def Entry.parted (pend : List Nat) (lanes : LaneMask) (pc : BitVec 48) (owner : Nat) (mode : BitVec 64) (at_ : BitVec 48)
    (place : Place) : Entry :=
  ⟨pend.head?, lanes, pc, owner, mode, pend, some (at_, 0), [], place, owner⟩

/-- A context with one entry more; `none`: the landing stack is full. -/
def Ctx.push (c : Ctx) (e : Entry) : Option Ctx := if 32 ≤ c.stack.length then none else some { c with stack := c.stack ++ [e] }

/-- Is an entry that of a handler's lanes: of a recalled path that took a trap (R192, R198)? -/
def Entry.holds (e : Entry) (lanes : LaneMask) : Bool := e.lanes &&& lanes != 0

/-- Where the lanes that left a handler go on (R377, R431): in the restored context, the trapping path, or the entry that it has
become, keeps the lanes that executed TRET, at the trapping instruction; the lanes that skipped it part from it at the next head
word. `none`: the landing stack is full. -/
def partSkips (h : Handler) (next : BitVec 48) (fresh : Nat) (skips : LaneMask) (c : Ctx) : Option Ctx :=
  if skips = 0 then some c
  else
    match mget c.paths h.path with
    | some p =>
        if p.mask &&& ~~~skips = 0 then
          some { c with paths := mset c.paths h.path (Path.start next p.mask p.mode p.pend (some (h.pc, 0)) p.place) }
        else
          let c : Ctx := { c with paths := mset c.paths h.path { p with mask := p.mask &&& ~~~skips } }
          if p.pend = [] ∧ c.corePaths = 1 ∧ p.place = .core then
            some { c with paths := mset c.paths fresh (Path.start next skips p.mode [] (some (h.pc, 0)) .core) }
          else c.push (Entry.parted p.pend skips next h.path p.mode h.pc p.place)
    | none =>
        match c.stack.find? (·.holds h.lanes) with
        | none => some c
        | some e =>
            let on := fun (f : Entry → Entry) => { c with stack := c.stack.map fun q => if q.holds h.lanes then f q else q }
            if e.lanes &&& ~~~skips = 0 then some (on fun q => { q with pc := next, last := some (h.pc, 0), arms := [] })
            else (on fun q => { q with lanes := q.lanes &&& ~~~skips }).push (Entry.parted e.pend skips next e.runs e.mode h.pc e.place)

/-- Where the lanes go on that left the handler of a JOIN_TIMEOUT (R194): they have arrived at the landing and wait at it again,
with the handler's copy of the mode word, and its timer starts from zero. Lanes that skip the JOIN do not wait for it: they
leave the landing for the ones outside it, as the waiting path where none of its lanes waits any more (assumption log 118). -/
def backToJoin (h : Handler) (next : BitVec 48) (fresh : Nat) (skips : LaneMask) (c : Ctx) : Option Ctx :=
  match c.recs.find? (·.away) with
  | none => some c
  | some r =>
      let left := r.arrived &&& h.lanes &&& ~~~skips
      let r' : LandRec := { r with
        away := false, timer := true, need := r.need &&& ~~~skips, arrived := r.arrived &&& ~~~skips
        modes := (h.lanes, h.mode) :: r.modes.filter fun m => m.1 &&& h.lanes == 0
        waits := if left = 0 then [] else r.waits }
      let c := c.setRcd r'
      let w := r.waits.headD fresh
      if skips = 0 then some c
      else if left = 0 ∧ c.running w = false then
        some { c with paths := mset c.paths w (Path.start next skips h.mode r.outer (some (h.pc, 0)) .core) }
      else if r.outer = [] ∧ c.corePaths = 1 then
        some { c with paths := mset c.paths fresh (Path.start next skips h.mode [] (some (h.pc, 0)) .core) }
      else c.push (Entry.parted r.outer skips next w h.mode h.pc .core)

/-- The group leaves its handler when no handler lane is left in it (R377, R406, R431): the lanes drop the handler's
frame, the frozen path state returns with the handler's copy of the mode word, exited lanes leave it, and the skipping
lanes part. A full landing stack is a double trap. -/
def State.leaveHandler (s : State) (gid : Nat) : State :=
  let g := s.group gid
  match g.handler with
  | none => s
  | some h =>
      let live := h.lanes &&& ~~~g.exited
      if maskSub live (h.trets ||| h.skips) = false then s
      else
        let tr := s.translation ((g.lane ((lanesOf h.lanes).headD 0)).frames.getD 1 ⟨0, 0, 0, [], []⟩).tr
        let next := tr.behind h.pc
        let ended := if next = tr.endAt then h.skips else 0
        let frozen : Ctx := if h.code = 6 then h.frozen else { h.frozen with
          paths := mupd h.frozen.paths h.path fun p => { p with mode := h.mode }
          stack := h.frozen.stack.map fun e => if e.holds h.lanes then { e with mode := h.mode } else e }
        let gone := (h.lanes &&& g.exited) ||| ended
        let g := g.mapLanes (lanesOf h.lanes) fun _ x => { x with frames := x.frames.tail }
        match (if h.code = 6 then backToJoin else partSkips) h next g.fresh (h.skips &&& ~~~gone) (frozen.without gone) with
        | none => s.endLaunch (s.team g.team).launch stDoubleTrap 0 0 trapOverflow
        | some c =>
            s.setGroup gid { g with ctx := c, handler := none, exited := g.exited ||| ended, fresh := g.fresh + 1 }

/-! Completing an instruction. -/

/-- The path at the next head word (R217). -/
def Path.past (p : Path) (next : BitVec 48) : Path :=
  { p with pc := next, last := some (p.pc, 0), stage := .none, done := 0, got := [], arms := [] }

/-- Ends values in a lane. -/
def Lane.eraseAll (x : Lane) (ids : List Nat) : Lane := ids.foldl Lane.erase x

/-- Defines consecutive results in a lane. -/
def Lane.defineAll (x : Lane) (base : Nat) : List Val → Lane
  | [] => x
  | v :: vs => (x.define base v).defineAll (base + 1) vs

/-- Leaves consecutive results poison in a lane. -/
def Lane.poisonAll (x : Lane) (base : Nat) : Nat → Lane
  | 0 => x
  | n + 1 => (x.erase base).poisonAll (base + 1) n

/-- Leaves consecutive results of an inactive lane poison, or false where its type is b1 and the entry says so. -/
def Lane.idleAll (x : Lane) (base : Nat) : List Bool → Lane
  | [] => x
  | b :: bs => (if b then x.define base (.ofBool false) else x.erase base).idleAll (base + 1) bs

/-- Is the form a cross-lane instruction (R316)? -/
def isCrossLane : Instr → Bool
  | .shfl .. | .vote .. | .voteLevel .. | .scan .. | .reduce .. | .matchLanes .. | .lanemaskOwn .. | .lanemaskBefore ..
  | .lanemaskAfter .. | .lanemaskSeg .. | .lanemaskWidth .. | .lanemaskAct .. => true
  | _ => false

/-- Does an inactive lane define false for a b1 result, and not poison (R282, R283, R308, R316; assumption log 34)? -/
def idlesFalse : Instr → Bool
  | .icmp .. | .plogic .. | .fcmp .. => true
  | i => isCrossLane i

/-- Which results of an instruction an inactive lane defines false. -/
def falseResults (i : Instr) (q : Plan) : List Bool :=
  (List.range i.ctl.ndef.toNat).map fun k => idlesFalse i && q.res[k]? == some .b1

/-- What an inactive lane's results become (R256, R270): the merge operand, or poison, or false. -/
def Exe.inactive (x : Exe) (i : Instr) (q : Plan) (base l : Nat) (y : Lane) : Lane :=
  match q.merge with
  | none => y.idleAll base (falseResults i q)
  | some m =>
      let r := x.read (q.res.headD .i32) l m
      if r.2 then y.poisonAll base i.ctl.ndef.toNat else (y.define base r.1).poisonAll (base + 1) (i.ctl.ndef.toNat - 1)

/-- The lane as it stood at a depth of call frames. -/
def Lane.upTo (y : Lane) (d : Nat) : Lane := { y with frames := y.frames.drop (y.frames.length - d) }

/-- Changes the lane at a depth of call frames. -/
def Lane.within (y : Lane) (d : Nat) (f : Lane → Lane) : Lane :=
  { y with frames := y.frames.take (y.frames.length - d) ++ (f (y.upTo d)).frames }

/-- The functions and return points of a lane's call frames. -/
def Lane.calls (y : Lane) : List (Nat × BitVec 48) := y.frames.map fun f => (f.fn, f.ret)

/-- How many call frames the lanes of the executing path have. -/
def Exe.frameDepth (x : Exe) : Nat := (x.g.lane x.first).frames.length

/-- The lanes outside of the path that a cross-lane instruction's results reach (R184, R316): those with the call frame that the
path executes in, which have not defined the results themselves: what they have defined does not depend on the course that the
divergence takes (R190; assumption log 93). -/
def Exe.outside (x : Exe) (i : Instr) : List Nat :=
  if isCrossLane i then
    (lanesOf (widthMask x.g.width &&& ~~~(x.p.mask ||| x.g.exited))).filter fun l =>
      let y := (x.g.lane l).upTo x.frameDepth
      y.calls == (x.g.lane x.first).calls && (y.val (x.tr.baseAt x.p.pc)).isNone
  else []

/-- The results of a lane outside of the path. -/
def Exe.writeOutside (x : Exe) (i : Instr) (res : List (Nat × List Val)) (l : Nat) (y : Lane) : Lane :=
  y.within x.frameDepth fun y =>
    match mget res l with
    | some vs => y.defineAll (x.tr.baseAt x.p.pc) (vs.take i.ctl.ndef.toNat)
    | none => ({ x with g := x.g.setLane l y } : Exe).inactive i (x.plan i) (x.tr.baseAt x.p.pc) l y

/-- The group after an instruction's results are written (R245, R247, R256): operands with L end in every lane of the
path, then each active lane takes its results and the others their fate. -/
def Exe.write (x : Exe) (i : Instr) (res : List (Nat × List Val)) : Group :=
  let q := x.plan i
  let base := x.tr.baseAt x.p.pc
  let n := i.ctl.ndef.toNat
  (x.g.mapLanes x.lanes fun l y =>
    let y' := y.eraseAll (endsOf i.ops)
    match mget res l with
    | some vs => y'.defineAll base (vs.take n)
    | none => x.inactive i q base l y').mapLanes (x.outside i) (x.writeOutside i res)

/-- The state after the executing instruction completes with a group and a mode word (R217): the path stands at the next
head word, and VINSTR counts (R214). -/
def Exe.complete (x : Exe) (i : Instr) (g : Group) (mode : BitVec 64) : State :=
  (x.put (g.setPath x.pid ({ x.p with mode := mode }.past (pcAdd x.p.pc (instrSize i))))).bump x.eid 4 x.team.core 1

/-- Completes an instruction with results and raised flags. -/
def Exe.commit (x : Exe) (i : Instr) (res : List (Nat × List Val)) (flags : BitVec 6) : State :=
  x.complete i (x.write i res) (modeRaise x.p.mode flags)

/-- Raises a trap at the executing instruction, in some lanes (R405). -/
def Exe.trap (x : Exe) (i : Instr) (code : Nat) (lanes : List Nat) (flags : BitVec 6) : State :=
  x.s.raiseTrap x.gid x.pid x.p ⟨code, maskOf lanes, flags, x.lanes.map fun l => (l, x.shownOps i l)⟩

/-- Goes on with an instruction that the gallery does not run; an ejected path is recalled before it executes (R188,
R192). -/
def Exe.onCore (x : Exe) (i : Instr) (k : Exe → State) : State :=
  match x.p.place with
  | .core => k x
  | .handing n | .gallery n | .copying n | .recalling n =>
      x.s.recall x.gid x.pid x.p n (x.lanes.map fun l => (l, x.shownOps i l)) none

/-! Instructions that act lane by lane. -/

/-- What one lane of an instruction comes to: results with flags, or a failed check: its place among the checks of the
instruction's entry, and its trap code. -/
inductive LaneOut where
  | done (res : List Val) (flags : BitVec 6)
  | trap (rank code : Nat)
  deriving DecidableEq, Repr

/-- What an instruction comes to: results with flags, or a trap in some lanes (R405). -/
inductive Verdict where
  | done (res : List (Nat × List Val)) (flags : BitVec 6)
  | trap (code : Nat) (lanes : List Nat) (flags : BitVec 6)
  deriving DecidableEq, Repr

/-- The failed check of a lane, if any. -/
def LaneOut.failed : LaneOut → Option (Nat × Nat)
  | .done .. => none
  | .trap rank code => some (rank, code)

/-- The flags of a lane. -/
def LaneOut.flags : LaneOut → BitVec 6
  | .done _ f => f
  | .trap .. => 0

/-- The results of a lane. -/
def LaneOut.res : LaneOut → List Val
  | .done vs _ => vs
  | .trap .. => []

/-- The verdict on the outcomes of the active lanes (R405): the check that comes first in the entry's order traps, in the
lanes that fail it; then FP_FLAG in the lanes that raise an enabled flag (R236). -/
def verdictOf (mode : BitVec 64) (outs : List (Nat × LaneOut)) : Verdict :=
  let bad := outs.filterMap fun o => o.2.failed.map fun f => (o.1, f)
  match bad with
  | b :: rest =>
      let first := rest.foldl (fun (m : Nat × Nat) q => if q.2.1 < m.1 then q.2 else m) b.2
      .trap first.2 ((bad.filter fun q => q.2 == first).map Prod.fst) 0
  | [] =>
      let hit := outs.filter fun o => modeTraps mode o.2.flags != 0
      let all := fun (os : List (Nat × LaneOut)) => os.foldl (fun f o => f ||| o.2.flags) 0
      if hit.isEmpty then .done (outs.map fun o => (o.1, o.2.res)) (all outs)
      else .trap 4 (hit.map Prod.fst) (all hit)

/-- Adds PO to a lane's flags if it read poison. -/
def LaneOut.withPO (poison : Bool) : LaneOut → LaneOut
  | .done vs f => .done vs (f ||| flagIf poison flagPO)
  | .trap r c => .trap r c

/-- The verdict on an instruction that acts lane by lane: `poison` tells which lanes read poison, `f` gives the outcome of
a lane from every active lane's operand values and its own (R237, R405). -/
def Exe.judgeWith (x : Exe) (i : Instr) (poison : Nat → Bool) (f : List (Nat × List Val) → Nat → List Val → LaneOut) :
    Verdict :=
  let bad := (x.active i.ctl).filter poison
  if !bad.isEmpty && (modeEn x.p.mode &&& flagPO) != 0 then .trap 3 bad 0
  else
    let all := (x.active i.ctl).map fun l => (l, x.vals (x.plan i) l)
    verdictOf x.p.mode (all.map fun lv => (lv.1, (f all lv.1 lv.2).withPO (poison lv.1)))

/-- The same for an instruction that reads every operand in every active lane. -/
def Exe.judge (x : Exe) (i : Instr) (f : List (Nat × List Val) → Nat → List Val → LaneOut) : Verdict :=
  x.judgeWith i (x.readsPoison (x.plan i)) f

/-- The next state by a verdict. -/
def Exe.obey (x : Exe) (i : Instr) : Verdict → State
  | .done res flags => x.commit i res flags
  | .trap code lanes flags => x.trap i code lanes flags

/-- The step of an instruction that acts lane by lane. -/
def Exe.lanewise (x : Exe) (i : Instr) (f : List (Nat × List Val) → Nat → List Val → LaneOut) : State :=
  x.obey i (x.judge i f)

/-- The type of an instruction's operand k as it is read. -/
def Exe.opTy (x : Exe) (i : Instr) (k : Nat) : Ty := ((x.plan i).own.getD k (.i32, .table 0)).1

/-- Operand k of a lane's operand values. -/
def argOf (vs : List Val) (k : Nat) : Val := vs.getD k (.bits 0)

/-- Operand k as a number. -/
def numOf (vs : List Val) (k : Nat) : Nat := (argOf vs k).num

/-- What an instruction that reads its operands once, from the lowest active lane, comes to (R128): every active lane
takes the same results. -/
inductive OnceOut where
  | done (res : List Val) (flags : BitVec 6)
  | trap (code : Nat)
  deriving DecidableEq, Repr

/-- The operand values of the lowest active lane, or of the lowest lane when none is active. -/
def Exe.onceVals (x : Exe) (i : Instr) : List Val := x.vals (x.plan i) ((x.active i.ctl).headD x.first)

/-- The lane that reads poison in the operands read once, if it does (R405). -/
def Exe.oncePoison (x : Exe) (i : Instr) : Bool := x.readsPoison (x.plan i) ((x.active i.ctl).headD x.first)

/-- Does the poison-trap enable make a poison read of the operands read once a trap (R237)? -/
def Exe.onceTraps (x : Exe) (i : Instr) : Bool := x.oncePoison i && (modeEn x.p.mode &&& flagPO) != 0

/-- The flags of a poison read of the operands read once. -/
def Exe.onceFlags (x : Exe) (i : Instr) : BitVec 6 := flagIf (x.oncePoison i) flagPO

/-- The state with results that are the same in every active lane. -/
def Exe.commitAll (x : Exe) (i : Instr) (res : List Val) (flags : BitVec 6) : State :=
  x.commit i ((x.active i.ctl).map fun l => (l, res)) flags

/-- The same executing path over a changed state, where the group and the path are unchanged. -/
def Exe.upon (x : Exe) (s : State) : Exe := { x with s := s }

end Sys2Proof.Machine
end

