-- ==== Sys2Proof/Machine/Barrier.lean ====
section
/-! DEFINITION. Named barriers (R145 to R149, R338), flights (R151, R152, R339), the mask barrier (R154, R339), and
arrivals inside a trap handler (R340). -/

namespace Sys2Proof.Machine

/-! Lanes of a group. -/

/-- The lanes of a group that can still execute: those of the running context that have not exited (R148), in a handler
the handler's lanes that have not left it (R340). -/
def Group.live (g : Group) : LaneMask :=
  match g.handler with
  | none => widthMask g.width &&& ~~~g.exited
  | some h => h.lanes &&& ~~~(g.exited ||| h.trets ||| h.skips)

/-- Have all lanes of the group executed EXIT? -/
def Group.allExited (g : Group) : Bool := widthMask g.width &&& ~~~g.exited == 0

/-- The context with every path changed. -/
def Ctx.mapPaths (c : Ctx) (f : Path → Path) : Ctx := { c with paths := c.paths.map fun p => (p.1, f p.2) }

/-- The group with every path of its running and frozen contexts changed. -/
def Group.mapPaths (g : Group) (f : Path → Path) : Group :=
  { g with
    ctx := g.ctx.mapPaths f
    handler := g.handler.map fun h => { h with frozen := h.frozen.mapPaths f } }

/-- The state with a path of a group as its executing path. -/
def State.exeOf (s : State) (gid pid : Nat) : Option Exe := { s with cur := some (gid, pid) }.exe?

/-- Raises a trap at the instruction where a path of a group waits, in the path's lanes. -/
def State.trapAt (s : State) (gid pid code : Nat) : State :=
  match s.exeOf gid pid with
  | none => s
  | some x =>
      match (x.tr.fetch x.p.pc).1 with
      | .ok i => s.raiseTrap gid pid x.p ⟨code, x.p.mask, 0, x.lanes.map fun l => (l, x.shownOps i l)⟩
      | .illegal _ | .undefinedMajor | .malformed => s

/-- The path that holds the lowest lane among those that satisfy a test (R405). -/
def Ctx.lowestPath (c : Ctx) (f : Path → Bool) : Option Nat :=
  ((c.paths.filter fun p => f p.2).foldl (fun (best : Option (Nat × Nat)) p =>
    match best with
    | none => some (leastLane p.2.mask, p.1)
    | some b => if leastLane p.2.mask < b.1 then some (leastLane p.2.mask, p.1) else best) none).map Prod.snd

/-! Checks of operands that are read once. -/

/-- A trap in every lane of the path, guard ignored. -/
def Exe.trapAll (x : Exe) (i : Instr) (code : Nat) : State := x.trap i code x.lanes 0

/-- The lane that operands read once are read from: the lowest active lane. -/
def Exe.onceLane (x : Exe) (i : Instr) : Nat := (x.active i.ctl).headD x.first

/-- Goes on with an instruction unless the read of its operands, once, is a poison read that traps (R237, R405). -/
def Exe.once (x : Exe) (i : Instr) (k : List Val → State) : State :=
  if x.onceTraps i then x.trap i 3 [x.onceLane i] 0 else k (x.onceVals i)

/-! The barrier (R146, R147). -/

/-- A barrier of a team of g groups when the team starts (R145). -/
def Bar.start (g : Nat) : Bar := ⟨0, 0, 0, g, [], 0, [], []⟩

/-- A barrier of a team. -/
def Team.bar (t : Team) (b : Nat) : Bar := (mget t.bars b).getD (Bar.start 1)

/-- The state with a barrier of a team changed. -/
def State.setBar (s : State) (team b : Nat) (x : Bar) : State :=
  let t := s.team team
  s.setTeam team { t with bars := mset t.bars b x }

/-- PHASE: the parity of the phases passed. -/
def Bar.phase (b : Bar) : Bool := b.phases % 2 == 1

/-- The state word (R146). -/
def Bar.word (b : Bar) : BitVec 64 :=
  BitVec.ofNat 64 (wrapTo 32 b.pend * 2 ^ 32 + b.arrived % 64 * 2 ^ 20 + b.phases % 2 * 2 ^ 16 + b.expect % 64)

/-- TryComplete. -/
def Bar.tryComplete (b : Bar) : Bar :=
  if b.arrived = b.expect ∧ b.pend = 0 then
    { b with phases := b.phases + 1, arrived := 0, marks := [], counted := [],
             observed := mset b.observed b.phases b.counted }
  else b

/-- Arrive of group k; `none`: BAR_OVERFLOW. -/
def Bar.arrive (b : Bar) (k : Nat) : Option Bar :=
  if b.arrived = b.expect then none
  else
    let b' : Bar := { b with arrived := b.arrived + 1, marks := if b.marks.contains k then b.marks else b.marks ++ [k] }
    some b'.tryComplete

/-- Expect of n bytes; `none`: BAR_OVERFLOW. -/
def Bar.expectBytes (b : Bar) (n : Nat) : Option Bar :=
  if 0x7FFFFFFF < b.pend + n then none else some { b with pend := b.pend + n }.tryComplete

/-- Init to n arrivals; `none`: BAR_OVERFLOW. -/
def Bar.init (b : Bar) (n : Nat) : Option Bar :=
  if b.arrived ≠ 0 ∨ b.pend ≠ 0 ∨ b.out ≠ 0 then none else some { b with expect := n }

/-- A granule of n bytes of an operation lands (R149). -/
def Bar.land (b : Bar) (op n : Nat) : Bar :=
  let b' : Bar := { b with pend := b.pend - n, out := b.out - n,
                           counted := if b.counted.contains op then b.counted else b.counted ++ [op] }
  b'.tryComplete

/-- The flags of the operations whose bytes a phase of a barrier counted (R149). -/
def State.phaseFlags (s : State) (b : Bar) (phase : Nat) : BitVec 6 :=
  ((mget b.observed phase).getD []).foldl (fun f op => f ||| ((mget s.ops op).map EngOp.flags).getD 0) 0

/-! Flights. -/

/-- The participants of a flight of a launch on a die: its groups there with a lane that has not exited (R152). -/
def State.flightParty (s : State) (l die : Nat) : List Nat :=
  (s.groups.filter fun g =>
    let t := s.team g.2.team
    t.launch == l && t.resident && dieOf (t.core / 8) == die && !g.2.allExited).map Prod.fst

/-- The groups that have arrived at a flight of a launch on a die. -/
def Launch.flight (l : Launch) (die f : Nat) : List Nat := (mget l.flights (die, f)).getD []

/-! The group's arrive (R148). -/

/-- The group's lanes no longer arrive at m: its paths there will execute the arrive afresh. -/
def Ctx.cancelMeet (c : Ctx) (m : Meet) : Ctx :=
  let c' : Ctx := { c with meets := mdel c.meets m }
  c'.mapPaths fun p => if p.stage = .arriving m then { p with stage := .none } else p

/-- The group's arrive at m took effect in a phase: its paths there wait. -/
def Ctx.meetDone (c : Ctx) (m : Meet) (phase : Nat) : Ctx :=
  let c' : Ctx := { c with meets := mdel c.meets m }
  c'.mapPaths fun p => if p.stage = .arriving m then { p with stage := .waiting m phase } else p

/-- Once every live lane has executed its arrive at m, the group's arrive takes effect; if the phase is full, BAR_OVERFLOW
is raised where the lanes wait, and the arrival does not take effect (R148, R340). -/
def State.meetStep (s : State) (gid : Nat) (m : Meet) : State :=
  let g := s.group gid
  let mask := (mget g.ctx.meets m).getD 0
  let full : State :=
    match g.ctx.lowestPath fun p => p.stage == .arriving m with
    | none => s
    | some pid => (s.setGroup gid { g with ctx := g.ctx.cancelMeet m }).trapAt gid pid 0x0A
  if mask = 0 ∨ maskSub g.live mask = false then s
  else
    match m with
    | .bar b =>
        let bar := (s.team g.team).bar b
        match bar.arrive g.index with
        | none => full
        | some bar' => (s.setGroup gid { g with ctx := g.ctx.meetDone m bar.phases }).setBar g.team b bar'
    | .flight f =>
        let t := s.team g.team
        let die := dieOf (t.core / 8)
        let l := s.launch t.launch
        if (s.flightParty t.launch die).length ≤ (l.flight die f).length then full
        else
          (s.setGroup gid { g with ctx := g.ctx.meetDone m 0 }).setLaunch t.launch
            { l with flights := mset l.flights (die, f) (l.flight die f ++ [gid]) }

/-- The path's lanes execute their arrive at m (R148). -/
def Exe.arriveAt (x : Exe) (m : Meet) : State :=
  let g := x.g.setPath x.pid { x.p with stage := .arriving m }
  let c : Ctx := { g.ctx with meets := mset g.ctx.meets m ((mget g.ctx.meets m).getD 0 ||| x.p.mask) }
  (x.put { g with ctx := c }).meetStep x.gid m

/-- The executing path departs from phase n of a barrier: it observes the operations whose bytes that phase counted
(R149). -/
def Exe.depart (x : Exe) (i : Instr) (b n : Nat) (res : List Val) : State :=
  x.commitAll i res (x.onceFlags i ||| x.s.phaseFlags (x.team.bar b) n)

/-- The step of an arrive at a barrier, with (sync) or without (arrive) the wait for its phase. -/
def Exe.barArrive (x : Exe) (i : Instr) (sync : Bool) : State :=
  let leave : Exe → Nat → Nat → State := fun x b n =>
    if sync then
      if (x.team.bar b).phases = n then x.s else x.depart i b n []
    else x.commitAll i [.ofBool (n % 2 == 1)] (x.onceFlags i)
  match x.p.stage with
  | .arriving _ => x.s
  | .waiting (.bar b) n => leave x b n
  | _ =>
      x.once i fun vs =>
        let b := numOf vs 0
        if x.launch.nbar ≤ b then x.trapAll i trapHandle
        else
          let s := x.arriveAt (.bar b)
          match s.exeOf x.gid x.pid with
          | none => s
          | some y =>
              match y.p.stage with
              | .waiting (.bar b) n => leave { y with s := s } b n
              | _ => s

/-- BAR.SYNC (R338). -/
def execBarSync (c : Ctl) (ops : List Opnd) (s : State) : Host.Outcome State Fault Refusal :=
  onPath s fun x => x.barArrive (.barSync c ops) true

/-- BAR.ARRIVE (R338): every lane receives the parity. -/
def execBarArrive (c : Ctl) (ops : List Opnd) (s : State) : Host.Outcome State Fault Refusal :=
  onPath s fun x => x.barArrive (.barArrive c ops) false

/-- The step of BAR.WAIT (R147, R148): each lane waits on its own parity; the path goes on when all have departed, with what was
observed by the lanes that returned at once, too (R149). -/
def Exe.barWait (x : Exe) (i : Instr) : State :=
  let q := x.plan i
  let lanes := x.active i.ctl
  let reads := lanes.map fun l => (l, x.reads q l)
  let first := x.onceLane i
  let bad := reads.filter fun r => (r.1 == first && ((r.2[0]?).map Prod.snd).getD false) ||
    ((r.2[1]?).map Prod.snd).getD false
  let b := numOf (x.onceVals i) 0
  let bar := x.team.bar b
  let blocks := reads.any fun r => (argOf (r.2.map Prod.fst) 1).isTrue == bar.phase
  let leave : Nat → State := fun n =>
    let early := reads.any fun r => (argOf (r.2.map Prod.fst) 1).isTrue != (n % 2 == 1)
    x.commitAll i [] (flagIf (!bad.isEmpty) flagPO ||| x.s.phaseFlags bar n |||
      if early then x.s.phaseFlags bar (n - 1) else 0)
  match x.p.stage with
  | .waiting _ n => if bar.phases = n then x.s else leave n
  | _ =>
      if !bad.isEmpty && (modeEn x.p.mode &&& flagPO) != 0 then x.trap i 3 (bad.map Prod.fst) 0
      else if x.launch.nbar ≤ b then x.trapAll i trapHandle
      else if blocks then x.put (x.g.setPath x.pid { x.p with stage := .waiting (.bar b) bar.phases })
      else leave (bar.phases - 1)

/-- BAR.WAIT (R338). -/
def execBarWait (c : Ctl) (ops : List Opnd) (s : State) : Host.Outcome State Fault Refusal :=
  onPath s fun x => x.barWait (.barWait c ops)

/-- BAR.EXPECT (R338): once per path. -/
def execBarExpect (c : Ctl) (ops : List Opnd) (s : State) : Host.Outcome State Fault Refusal :=
  onPath s fun x =>
    let i := Instr.barExpect c ops
    x.once i fun vs =>
      let b := numOf vs 0
      if x.launch.nbar ≤ b then x.trapAll i trapHandle
      else
        match (x.team.bar b).expectBytes (numOf vs 1) with
        | none => x.trapAll i 0x0A
        | some bar => ({ x with s := x.s.setBar x.g.team b bar } : Exe).commitAll i [] (x.onceFlags i)

/-- BAR.INIT (R338): once per path. -/
def execBarInit (c : Ctl) (ops : List Opnd) (s : State) : Host.Outcome State Fault Refusal :=
  onPath s fun x =>
    let i := Instr.barInit c ops
    x.once i fun vs =>
      let b := numOf vs 0
      let n := numOf vs 1
      if x.launch.nbar ≤ b ∨ n = 0 ∨ 48 < n then x.trapAll i trapHandle
      else
        match (x.team.bar b).init n with
        | none => x.trapAll i 0x0A
        | some bar => ({ x with s := x.s.setBar x.g.team b bar } : Exe).commitAll i [] (x.onceFlags i)

/-- Does an instruction name a barrier by a value that no active lane gives? -/
def Exe.nameless (x : Exe) (i : Instr) (k : Nat) : Bool :=
  (x.active i.ctl).isEmpty &&
    match (x.plan i).own[k]?.map Prod.snd with
    | some (.val ..) => true
    | _ => false

/-- BAR.STATE (R338): the state word of R146. A name is checked whatever the guard (R145); a name by value needs an active
lane. -/
def execBarState (c : Ctl) (ops : List Opnd) (s : State) : Host.Outcome State Fault Refusal :=
  onPath s fun x =>
    let i := Instr.barState c ops
    if x.nameless i 0 then x.commit i [] 0
    else
      x.once i fun vs =>
        let b := numOf vs 0
        if x.launch.nbar ≤ b then x.trapAll i trapHandle
        else x.commitAll i [.bits (x.team.bar b).word] (x.onceFlags i)

/-- The step of FLIGHT (R152, R339): an arrive, then a wait for the release. -/
def Exe.flight (x : Exe) (i : Instr) : State :=
  match x.p.stage with
  | .arriving _ | .waiting .. => x.s
  | .released => x.commitAll i [] (x.onceFlags i)
  | _ =>
      x.once i fun vs =>
        if x.launch.nflight ≤ numOf vs 0 then x.trapAll i trapHandle else x.arriveAt (.flight (numOf vs 0))

/-- FLIGHT (R339). -/
def execFlight (c : Ctl) (ops : List Opnd) (s : State) : Host.Outcome State Fault Refusal :=
  onPath s fun x => x.flight (.flight c ops)

/-! The mask barrier (R154). -/

/-- The group's lanes at the mask barrier leave it, to execute it afresh. -/
def Ctx.cancelMask (c : Ctx) : Ctx :=
  let c' : Ctx := { c with barm := [] }
  c'.mapPaths fun p => if p.stage = .masked then { p with stage := .none } else p

/-- BARM_MISMATCH in the lanes that have executed the BARM: in those of the path with the lowest lane; the others execute
it afresh after the handler (R154, R405). -/
def State.maskMismatch (s : State) (gid : Nat) (also : Option Nat) : State :=
  let g := s.group gid
  let c : Ctx := { g.ctx with paths := g.ctx.paths.map fun p => if also = some p.1 then (p.1, { p.2 with stage := .masked }) else p }
  match c.lowestPath fun p => p.stage == .masked with
  | none => s
  | some pid => (s.setGroup gid { g with ctx := c.cancelMask }).trapAt gid pid 8

/-- Does a BARM of these lanes and masks mismatch (R154, R340): a mask that does not name its lane, differing masks, a
named lane that has exited, is out of the width or out of the handler? -/
def Group.maskBad (g : Group) (ms : List (Nat × BitVec 64)) : Bool :=
  let all := g.ctx.barm ++ ms
  ms.any (fun m => !m.2.getLsbD m.1 || (m.2 &&& ~~~g.live) != 0) || all.any fun m => all.any fun n => m.2 != n.2

/-- The step of BARM. It is microcoded, and counted in LADDER_MC (R222, R223). -/
def Exe.barm (x : Exe) (i : Instr) : State :=
  match x.p.stage with
  | .masked => x.s
  | .released => x.commitAll i [] (flagIf (x.lanes.any (x.readsPoison (x.plan i))) flagPO)
  | _ =>
      let bad := x.lanes.filter (x.readsPoison (x.plan i))
      if !bad.isEmpty && (modeEn x.p.mode &&& flagPO) != 0 then x.trap i 3 bad 0
      else
        let ms := x.lanes.map fun l => (l, (argOf (x.vals (x.plan i) l) 0).toBits)
        let s := x.s.bump x.eid 16 x.team.core 1
        if x.g.maskBad ms then s.maskMismatch x.gid (some x.pid)
        else
          let g := x.g.setPath x.pid { x.p with stage := .masked }
          let c : Ctx := { g.ctx with barm := g.ctx.barm ++ ms }
          let here := maskOf (c.barm.map Prod.fst)
          if maskSub ((c.barm.map Prod.snd).headD 0) here then
            let c' : Ctx := ({ c with barm := [] } : Ctx).mapPaths fun p =>
              if p.stage = .masked then { p with stage := .released } else p
            let g' : Group := { g with ctx := c' }
            ({ x with s := s, g := g' } : Exe).commitAll i [] (flagIf (!bad.isEmpty) flagPO)
          else s.setGroup x.gid { g with ctx := c }

/-- BARM (R339). -/
def execBarm (c : Ctl) (ops : List Opnd) (s : State) : Host.Outcome State Fault Refusal :=
  onPath s fun x => x.barm (.barm c ops)

/-! When lanes leave (R148, R154). -/

/-- What follows for the group's meetings when lanes have exited or left the handler: arrives that waited only for them
take effect, and a mask barrier that names one of them is mismatched. -/
def State.meetAll (s : State) (gid : Nat) : State :=
  let g := s.group gid
  let s := (g.ctx.meets.map Prod.fst).foldl (fun s m => s.meetStep gid m) s
  let g := s.group gid
  if g.ctx.barm.any fun m => (m.2 &&& ~~~g.live) != 0 then s.maskMismatch gid none else s

end Sys2Proof.Machine
end

