-- ==== Sys2Proof/Machine/Control.lean ====
section
/-! DEFINITION. Control flow: PHI, branches, divergence and ejection (R183, R189), landings (R186, R192), calls and
returns, EXIT, the mode word and the cycle counter (R287 to R301). -/

namespace Sys2Proof.Machine

/-- The path at a target, by the edge in a given place of the instruction left. -/
def Path.goto (p : Path) (pc : BitVec 48) (place : Nat) : Path := { p.past pc with last := some (p.pc, place) }

/-- Counts n completed virtual instructions (R214). -/
def Exe.count (x : Exe) (s : State) (n : Nat) : State := s.bump x.eid 4 x.team.core n

/-! PHI. -/

/-- The edge by which a lane of the path last entered its block (R287). -/
def Exe.edgeOf (x : Exe) (l : Nat) : Option (BitVec 48 × Nat) :=
  match x.p.last with
  | some e => some e
  | none => (x.g.lane l).edge

/-- The place of a lane's edge among the operands of the PHIs at the pc. -/
def Exe.phiPlace (x : Exe) (l : Nat) : Option Nat := (x.edgeOf l).bind fun e => x.tr.edgeIndex x.p.pc e

/-- What a lane reads in one PHI. -/
def Exe.phiRead (x : Exe) (l : Nat) (place : Option Nat) (q : Ty × List Opnd) : Val × Bool :=
  match place.bind fun k => q.2[k]? with
  | some o => x.read q.1 l o
  | none => (poisonOf q.1, true)

/-- The ids that end in a lane at the PHIs: those with L in the operands of its edge. -/
def phiEnds (place : Option Nat) (run : List (Ty × List Opnd)) : List Nat :=
  run.filterMap fun q => (place.bind fun k => q.2[k]?).bind opndEnds

/-- Is a value a shadowed acc (R371)? -/
def Val.shadowed : Val → Bool
  | .acc _ sp => sp.isSome
  | .bits _ | .tmap .. | .fmtb _ => false

/-- Words of a PHI. -/
def phiSize (q : Ty × List Opnd) : Nat := 1 + (q.2.map fun o => o.words.length).sum

/-- The step of a block's PHIs, which act as one instruction (R287): all read, then all define. Only the speculative forms and SPEC
take a shadowed acc: a PHI that reads one raises HANDLE_INVALID (R371; assumption log 121). -/
def Exe.phis (x : Exe) (run : List (Ty × List Opnd)) : State :=
  let reads := x.lanes.map fun l => (l, run.map (x.phiRead l (x.phiPlace l)))
  let bad := reads.filter fun r => r.2.any Prod.snd
  let shadowed := reads.filter fun r => r.2.any fun v => v.1.shadowed
  let trap := fun (code : Nat) (ls : List (Nat × List (Val × Bool))) =>
    x.s.raiseTrap x.gid x.pid x.p
      ⟨code, maskOf (ls.map Prod.fst), 0, reads.map fun r => (r.1, r.2.map fun v => v.1.shown)⟩
  if !bad.isEmpty && (modeEn x.p.mode &&& flagPO) != 0 then trap 3 bad
  else if !shadowed.isEmpty then trap 0x0C shadowed
  else
    let base := x.tr.baseAt x.p.pc
    let g := x.g.mapLanes x.lanes fun l y =>
      (y.eraseAll (phiEnds (x.phiPlace l) run)).defineAll base (((mget reads l).getD []).map Prod.fst)
    let next := pcAdd x.p.pc (run.map phiSize).sum
    let last := next - BitVec.ofNat 48 (4 * phiSize (run.getLastD (.i32, [])))
    let p : Path := { x.p.past next with
      mode := modeRaise x.p.mode (flagIf (!bad.isEmpty) flagPO), last := some (last, 0) }
    x.count (x.put (g.setPath x.pid p)) run.length

/-- PHI (R287), with the PHIs that follow it. -/
def execPhi (_c : Ctl) (t : Ty) (ops : List Opnd) (s : State) : Host.Outcome State Fault Refusal :=
  onPath s fun x =>
    x.phis ((t, ops) :: ((phiRun x.tr.nodes (x.tr.offset x.p.pc)).drop 1).map Node.phi)

/-! Branches. -/

/-- BR (R288). -/
def execBr (_c : Ctl) (ops : List Opnd) (s : State) : Host.Outcome State Fault Refusal :=
  onPath s fun x =>
    let t := pcTarget x.p.pc ((targetsOf ops).headD 0)
    let g := x.g.mapLanes x.lanes fun _ y => y.eraseAll (endsOf ops)
    x.count (x.put (g.setPath x.pid (x.p.goto t 1))) 1

/-- An arm of a divergence: its number in priority order, its lanes, and where they go by which edge. -/
structure Arm where
  num : Nat
  lanes : LaneMask
  pc : BitVec 48
  place : Nat
  deriving DecidableEq, Repr

/-- The non-empty arms in priority order (R290): arm k goes to target k, the arm after the last target falls through. -/
def armsOf (x : Exe) (i : Instr) (sel : List (Nat × Nat)) : List Arm :=
  let targets := (targetsOf i.ops).map (pcTarget x.p.pc)
  let all := (List.range (targets.length + 1)).map fun k =>
    let lanes := maskOf ((sel.filter fun q => q.2 == k).map Prod.fst)
    match targets[k]? with
    | some t => (⟨k, lanes, t, k + 1⟩ : Arm)
    | none => ⟨k, lanes, pcAdd x.p.pc (instrSize i), 0⟩
  all.filter fun a => a.lanes != 0

/-- A divergence on its way: the group so far, the gallery cores in use, the ejections made, and the lanes that left with
arms still to divide. -/
structure Split where
  g : Group
  busy : List Nat
  ejections : Nat
  later : LaneMask
  deriving DecidableEq, Repr

/-- The gallery core on which a path is. -/
def Place.galleryCore : Place → Option Nat
  | .core => none
  | .handing k | .gallery k | .copying k | .recalling k => some k

/-- The gallery cores that a group's paths hold, frozen ones too (R187, R198). -/
def Group.galleries (g : Group) : List Nat :=
  let of := fun (c : Ctx) => c.paths.filterMap fun p => p.2.place.galleryCore
  of g.ctx ++ ((g.handler.map fun h => of h.frozen).getD [])

/-- The gallery cores of a hall in use (R187). -/
def State.galleryBusy (s : State) (hall : Nat) : List Nat :=
  ((s.groups.filter fun g => (s.team g.2.team).resident && (s.team g.2.team).core / 8 == hall).map fun g =>
    g.2.galleries).flatten

/-- An idle one of a hall's 32 gallery cores. -/
def idleGallery (busy : List Nat) : Option Nat := (List.range 32).find? fun k => !busy.contains k

/-- The lanes of arms. -/
def armLanes (as : List Arm) : LaneMask := as.foldl (fun m a => m ||| a.lanes) 0

/-- The path that leaves the branch with some arms: at its target with one, at the branch, to divide them, with more. -/
def leaver (p : Path) (as : List Arm) : Path :=
  match as with
  | [a] => { p.goto a.pc a.place with mask := a.lanes, recalled := false }
  | _ =>
      { p with mask := armLanes as,
               arms := (as.map fun a => (lanesOf a.lanes).map fun l => (l, a.num)).flatten }

/-- The gallery core to which a minority is ejected, if it is (R183). Lanes that a recall has brought back are not ejected
again for the divergence that they still divide (R192). -/
def Exe.ejectTo (x : Exe) (sp : Split) (p : Path) (join : BitVec 48) (as : List Arm) : Option Nat :=
  let e := x.launch.eject
  if e = 0 ∨ e < maskCount (armLanes as) then none
  else if x.g.handler.isSome ∨ p.place ≠ .core ∨ 4 ≤ sp.g.ctx.ejected ∨ (p.recalled ∧ p.arms ≠ []) then none
  else if x.tr.handsOver (x.tr.offset x.p.pc) (as.map fun a => (a.place, x.tr.offset a.pc)) (x.tr.offset join) then idleGallery sp.busy
  else none

/-- A minority leaves a path with its arms, on the course that R183 chooses: to the gallery, as a second core path, or onto
the landing stack; `none`: the stack is full. -/
def Exe.leave (x : Exe) (u : Nat) (join : BitVec 48) (sp : Split) (p : Path) (as : List Arm) : Option Split :=
  let q := leaver p as
  let later := if as.length ≤ 1 then sp.later else sp.later ||| armLanes as
  let g := sp.g
  let add : Path → Split := fun q =>
    { sp with g := { g.setPath g.fresh q with fresh := g.fresh + 1 }, later := later }
  match x.ejectTo sp p join as with
  | some k => some { add { q with place := .handing k } with busy := k :: sp.busy, ejections := sp.ejections + 1 }
  | none =>
      if g.ctx.corePaths = 1 ∧ g.ctx.stack = [] ∧ p.place = .core then some (add q)
      else if 32 ≤ g.ctx.stack.length then none
      else
        let e : Entry := ⟨some u, q.mask, q.pc, x.pid, q.mode, q.pend, q.last, q.arms, q.place, x.pid⟩
        some { sp with g := { g with ctx := { g.ctx with stack := g.ctx.stack ++ [e] } }, later := later }

/-- Divides a path's arms two by two (R183): of the first arm and the rest, the lesser leaves, the arm when they are
equal. -/
def Exe.divide (x : Exe) (u : Nat) (join : BitVec 48) : List Arm → Split → Path → Option (Split × Path)
  | [], sp, p => some (sp, p)
  | [a], sp, p => some (sp, { p.goto a.pc a.place with mask := a.lanes })
  | a :: b :: rest, sp, p =>
      if maskCount a.lanes ≤ maskCount (armLanes (b :: rest)) then
        match x.leave u join sp p [a] with
        | none => none
        | some sp => x.divide u join (b :: rest) sp p
      else
        (x.leave u join sp p (b :: rest)).map fun sp => (sp, { p.goto a.pc a.place with mask := a.lanes })

/-- The step of a branch by its arms, with the flags it raises: `again` when the path carries arms of a BRM whose division
has begun. -/
def Exe.branch (x : Exe) (i : Instr) (arms : List Arm) (flags : BitVec 6) (again : Bool) : State :=
  let p : Path := { x.p with mode := modeRaise x.p.mode flags }
  let land := (x.tr.landing x.p.pc).getD (x.p.pc, 0)
  let single := arms.length ≤ 1
  let u := if again then p.pend.headD 0 else x.g.fresh
  let r : LandRec := ⟨u, land.2, land.1, x.depth, x.pid, x.p.mask, 0, [], false, x.p.pend, x.p.place, [], false⟩
  let g := if again || single then x.g
    else { x.g with fresh := x.g.fresh + 1, ctx := { x.g.ctx with recs := x.g.ctx.recs ++ [r] } }
  let p := if again || single then p else { p with pend := u :: p.pend }
  match x.divide u land.1 arms ⟨g, if x.launch.eject = 0 then [] else x.s.galleryBusy x.hall, 0, 0⟩ p with
  | none => x.trapAll i trapOverflow
  | some (sp, p) =>
      let g := sp.g.mapLanes (lanesOf (x.p.mask &&& ~~~sp.later)) fun _ y => y.eraseAll (endsOf i.ops)
      let s := x.put (g.setPath x.pid p)
      let l := x.launch
      let s := if sp.ejections = 0 then s else s.setLaunch x.team.launch { l with ejections := l.ejections + sp.ejections }
      if again then s else x.count s 1

/-- The step of a branch whose lanes choose their arms (R289, R290): `pick` gives a lane's arm from its operands. -/
def Exe.choose (x : Exe) (i : Instr) (pick : List Val → Nat) : State :=
  if x.p.arms ≠ [] then
    x.branch i (armsOf x i (x.p.arms.filter fun a => x.p.mask.getLsbD a.1)) 0 true
  else
    let bad := x.lanes.filter (x.readsPoison (x.plan i))
    if !bad.isEmpty && (modeEn x.p.mode &&& flagPO) != 0 then x.trap i 3 bad 0
    else x.branch i (armsOf x i (x.lanes.map fun l => (l, pick (x.vals (x.plan i) l)))) (flagIf (!bad.isEmpty) flagPO) false

/-- BRC (R289). -/
def execBrc (c : Ctl) (ops : List Opnd) (s : State) : Host.Outcome State Fault Refusal :=
  onPath s fun x => x.choose (.brc c ops) fun vs => if (argOf vs 0).isTrue then 0 else 1

/-- The arm that a lane of BRM takes (R290): the first whose predicate is true, or fall-through. -/
def brmPick (k : BrmKind) (vs : List Val) : Nat :=
  let first := fun (n : Nat) (p : Nat → Bool) => ((List.range n).find? p).getD n
  match k with
  | .one => first 1 fun j => (argOf vs (2 * j)).isTrue
  | .two => first 2 fun j => (argOf vs (2 * j)).isTrue
  | .three => first 3 fun j => (argOf vs (2 * j)).isTrue
  | .mask => first 4 fun j => (numOf vs 0).testBit j

/-- BRM (R290). -/
def execBrm (c : Ctl) (k : BrmKind) (ops : List Opnd) (s : State) : Host.Outcome State Fault Refusal :=
  onPath s fun x => x.choose (.brm c k ops) (brmPick k)

/-! Landings. -/

/-- The landings of a context that complete in another that follows from it. -/
def landingsDone (c c' : Ctx) : Nat :=
  (c.recs.filter fun r => r.need != 0 && !c'.recs.any fun q => q.uid == r.uid).length

/-- Takes n samples of the join wait (R14, R193): free numbers of units of 1,024 cycles. -/
def State.sampleJoins (s : State) (e : Nat) : Nat → State
  | 0 => s
  | n + 1 => (s.sampleJoins e n).sampleEncl e 2 (Config.freeNat (.cycles (100 + n)) s.free)

/-- The landings of a context at which the first lanes have arrived since another, with their timers started (R193). -/
def Ctx.timed (c c' : Ctx) : Ctx :=
  { c' with recs := c'.recs.map fun r =>
      { r with timer := r.timer || (r.arrived != 0 && (c.rcd r.uid).any fun q => q.arrived == 0) } }

/-- Everything that follows in a group from an arrival or an exit: arms run and landings complete (R185, R186). A handler has
no landing timer (R406). -/
def State.settleGroup (s : State) (gid : Nat) : State :=
  let g := s.group gid
  let c := g.ctx.settled
  let l := s.launch (s.team g.team).launch
  if g.handler.isSome then s.setGroup gid { g with ctx := c }
  else
    (s.setGroup gid { g with ctx := if l.joinwait = 0 then c else g.ctx.timed c }).sampleJoins l.enclave (landingsDone g.ctx c)

/-- The pending landing that a JOIN names: the innermost one of the path, by id and call depth (R186, R291). -/
def Exe.landingHere (x : Exe) (id : Nat) : Option LandRec :=
  (x.p.pend.head?.bind x.g.ctx.rcd).filter fun r => r.id == id && r.depth == x.depth

/-- The edge by which the path's lanes came to the JOIN at its pc: right after a completed landing, that of the JOIN
before. -/
def Exe.joinEdge (x : Exe) : BitVec 48 × Nat := x.p.last.getD (x.p.pc - 8, 0)

/-- The path's lanes arrive at a landing (R186), and what follows. -/
def Exe.land (x : Exe) (r : LandRec) : State :=
  let edge := if x.tr.phiAfterJoin (x.p.pc + 8) then x.joinEdge else (x.p.pc, 0)
  let g := x.g.mapLanes x.lanes fun _ y => { y with edge := some edge }
  let g := g.delPath x.pid
  let r' : LandRec := { r.arrive x.pid x.p.place x.p.mask x.p.mode with
    timer := r.timer || (r.arrived == 0 && decide (x.launch.joinwait ≠ 0) && x.g.handler.isNone) }
  x.count ((x.put { g with ctx := g.ctx.setRcd r' }).settleGroup x.gid) 1

/-- The step of JOIN (R291): the lanes arrive at their innermost landing, an ejected path's at the landing of its ejection when its
copy-back is done (R189); otherwise the path passes. -/
def Exe.join (x : Exe) (i : Instr) (id : Nat) : State :=
  match x.landingHere id with
  | some r =>
      match x.p.place with
      | .core => x.land r
      | .handing k | .gallery k | .copying k | .recalling k =>
          if r.owner = x.pid then x.land r else x.put (x.g.setPath x.pid { x.p with place := .copying k })
  | none =>
      let next := pcAdd x.p.pc (instrSize i)
      let p : Path := { x.p.past next with
        last := some (if x.tr.phiAfterJoin next then x.joinEdge else (x.p.pc, 0)) }
      x.count (x.put (x.g.setPath x.pid p)) 1

/-- The landing id of JOIN's operand. -/
def joinId (ops : List Opnd) : Nat :=
  match ops with
  | .table id :: _ => id.toNat
  | _ => 0

/-- JOIN (R291). -/
def execJoin (c : Ctl) (ops : List Opnd) (s : State) : Host.Outcome State Fault Refusal :=
  onPath s fun x => x.join (.join c ops) (joinId ops)

/-! Events of ejected paths. They go on while a handler has the group frozen (R198). -/

/-- Acts on a group's frozen context as on its running one, or on the running one if no handler runs. -/
def State.onFrozen (s : State) (gid : Nat) (f : State → State) : State :=
  let g := s.group gid
  match g.handler with
  | none => f s
  | some h =>
      let s' := f (s.setGroup gid { g with ctx := h.frozen, handler := none })
      let g' := s'.group gid
      s'.setGroup gid { g' with ctx := g.ctx, handler := some { h with frozen := g'.ctx } }

/-- Acts on a path of a group that is in a given place, in whichever context it is. -/
def State.onPlaced (s : State) (gid pid : Nat) (f : Exe → State) : State :=
  s.onFrozen gid fun s =>
    match s.exeOf gid pid with
    | none => s
    | some x => f { x with s := s }

/-- EJECT_HANDOVER_DONE (R189): the copy of Live_in is done; the ejected lanes execute. -/
def execEjectHandoverDone (g p : Nat) (s : State) : Host.Outcome State Fault Refusal :=
  .next <| s.onPlaced g p fun x =>
    match x.p.place with
    | .handing k => x.put (x.g.setPath x.pid { x.p with place := .gallery k })
    | .core | .gallery _ | .copying _ | .recalling _ => x.s

/-- COPY_BACK_DONE (R189): the copy of Defined is done; the ejected lanes arrive at their landing. -/
def execCopyBackDone (g p : Nat) (s : State) : Host.Outcome State Fault Refusal :=
  .next <| s.onPlaced g p fun x =>
    match x.p.place with
    | .copying _ =>
        match x.p.pend.head?.bind x.g.ctx.rcd with
        | some r => x.land r
        | none => x.s
    | .core | .handing _ | .gallery _ | .recalling _ => x.s

/-- The group after a recalled path has come back to the core (R192): as its second core path, or as an entry of the path
whose landing the ejection has, below the entries nested in it. -/
def Exe.recalled (x : Exe) : Group :=
  let p : Path := { x.p with place := .core, recalled := true, owed := none }
  let c := x.g.ctx
  let mine : Entry → Bool := fun e => e.owner == x.pid
  let c : Ctx := { c with
    recs := c.recs.map fun r => if r.owner = x.pid then { r with place := .core } else r
    stack := c.stack.map fun e => if mine e then { e with place := .core } else e }
  if c.corePaths < 2 then { x.g with ctx := { c with paths := mset c.paths x.pid p } }
  else
    let at_ := x.p.pend.findSome? fun u => (c.rcd u).filter fun r => r.owner != x.pid
    let owner := (at_.map LandRec.owner).getD x.pid
    let e : Entry := ⟨at_.map LandRec.uid, p.mask, p.pc, owner, p.mode, p.pend, p.last, p.arms, .core, x.pid⟩
    { x.g with ctx := { c with
        paths := mdel c.paths x.pid
        stack := c.stack.filter (fun e => !mine e) ++ [e] ++ c.stack.filter mine } }

/-- An ejected path of a restored group is ejected again to an idle gallery core of its hall, or, where there is none, comes
back to the core as a recalled path (R199). Where neither a gallery core nor an entry of the landing stack is free, it waits for
one of the two, at no gallery core: place 32 (assumption log 119). -/
def Exe.reeject (x : Exe) : State :=
  match idleGallery (x.s.galleryBusy x.hall) with
  | some k => x.put (x.g.setPath x.pid { x.p with place := .handing k, owed := none })
  | none =>
      if x.g.ctx.recallOverflows then x.put (x.g.setPath x.pid { x.p with place := .recalling 32, owed := none })
      else (({ x with p := { x.p with owed := none } } : Exe).put x.recalled).settleGroup x.gid

/-- The recall of a path is done, in its running or frozen context: it comes back to the core, and takes the trap that it was recalled
for (R198). Where the landing stack has filled meanwhile, it stays on its gallery core and its instruction tries again. -/
def Exe.recallDone (x : Exe) (k : Nat) : State :=
  if k = 32 then x.reeject
  else if x.g.ctx.recallOverflows then x.put (x.g.setPath x.pid { x.p with place := .gallery k, owed := none })
  else
    let s := (x.put x.recalled).settleGroup x.gid
    match x.p.owed with
    | none => s
    | some t => s.takeTrapOr x.gid x.pid { x.p with place := .core } t fun fn => x.s.awaitTrans x.gid x.pid fn x.p

/-- RECALL_DONE (R192): the copy of the live values is done. A path that has a trap to take waits while a handler runs. -/
def execRecallDone (g p : Nat) (s : State) : Host.Outcome State Fault Refusal :=
  .next <|
    let owes := ((s.group g).handler.bind fun h => mget h.frozen.paths p).any fun q => q.owed.isSome
    if owes then s
    else
      s.onPlaced g p fun x =>
        match x.p.place with
        | .recalling k => x.recallDone k
        | .core | .handing _ | .gallery _ | .copying _ => x.s

/-! Calls. -/

/-- The nested calls of the path's lanes (R294); a handler's frame is none. -/
def Exe.calls (x : Exe) : Nat := x.depth - (if x.g.handler.isSome then 1 else 0)

/-- The arguments that a lane passes: its operand values from one on, zero-extended (R253). -/
def argSlots (vs : List Val) (from_ : Nat) : List (BitVec 64) := (vs.drop from_).map Val.toBits

/-- The lanes of the path enter a function of KIND 0 (R292 to R294, R209): beyond 255 nested calls the launch ends; without
a translation the path waits for one; a cached translation fault ends the launch. -/
def Exe.enter (x : Exe) (i : Instr) (fn from_ : Nat) (flags : BitVec 6) : State :=
  let l := x.launch
  if 255 ≤ x.calls then x.s.endLaunch x.team.launch stCallDepth 0 0 0
  else
    match x.s.findTrans x.eid l.obj fn x.g.width (l.budget x.g.role) x.hall with
    | none => x.s.awaitTrans x.gid x.pid fn x.p
    | some (n, t) =>
        match t.fault with
        | some f => x.s.endLaunch x.team.launch stTranslation f.1 f.2 0
        | none =>
            let q := x.plan i
            let ret := pcAdd x.p.pc (instrSize i)
            let g := x.g.mapLanes x.lanes fun lane y =>
              let y := y.eraseAll (endsOf i.ops)
              { y with frames := ⟨fn, n, ret, [], argSlots (x.vals q lane) from_⟩ :: y.frames }
            let p : Path := { x.p.past t.entry with mode := modeRaise x.p.mode flags }
            x.count (((x.put (g.setPath x.pid p)).countEntry x.eid x.team.core x.p.stage).useTrans n) 1

/-- Goes on with an instruction unless a lane reads poison and that traps; the flags it raises otherwise. -/
def Exe.unlessPoison (x : Exe) (i : Instr) (k : BitVec 6 → State) : State :=
  let bad := (x.active i.ctl).filter (x.readsPoison (x.plan i))
  if !bad.isEmpty && (modeEn x.p.mode &&& flagPO) != 0 then x.trap i 3 bad 0
  else k (flagIf (!bad.isEmpty) flagPO)

/-- CALL (R292). -/
def execCall (c : Ctl) (t : Ty) (ops : List Opnd) (s : State) : Host.Outcome State Fault Refusal :=
  onPath s fun x => x.unlessPoison (.call c t ops) fun f => x.enter (.call c t ops) (joinId ops) 1 f

/-- The function that an index names, if it is of KIND 0 (R204). -/
def Exe.device (x : Exe) (fn : Nat) : Bool :=
  match mget x.s.objs x.launch.obj with
  | none => false
  | some o => (o.fns[fn]?.map FnEntry.kind) == some 0

/-- CALLI (R292): every active lane must hold one index, which names a function of KIND 0. -/
def execCalli (c : Ctl) (t : Ty) (ops : List Opnd) (s : State) : Host.Outcome State Fault Refusal :=
  onPath s fun x =>
    let i := Instr.calli c t ops
    x.unlessPoison i fun f =>
      let fns := x.lanes.map fun l => numOf (x.vals (x.plan i) l) 0
      let fn := fns.headD 0
      if fns.any (· != fn) || !x.device fn then x.trapAll i trapHandle else x.enter i fn 1 f

/-- A lane after RET: its callee's frame is gone, and the call's results are what RET passed (R293). -/
def Lane.returned (y : Lane) (base n : Nat) (types : Nat → Ty) (vs : List Val) : Lane :=
  (List.range n).foldl (fun y k =>
    match vs[k]? with
    | some v => y.define (base + k) (ofTy (types k) v.num)
    | none => y.erase (base + k)) { y with frames := y.frames.tail }

/-- RET (R293): the lanes go on behind the call that they return from. -/
def execRet (c : Ctl) (ops : List Opnd) (s : State) : Host.Outcome State Fault Refusal :=
  onPath s fun x =>
    let i := Instr.ret c ops
    x.unlessPoison i fun f =>
      let ret := (x.g.lane x.first).top.ret
      let caller := x.s.translation ((x.g.lane x.first).frames.getD 1 ⟨0, 0, 0, [], []⟩).tr
      let call := (caller.nodes.find? fun n => n.off + n.size == caller.offset ret).getD ⟨0, 0, 0, 0, .malformed, none⟩
      let types := fun k => (caller.typeOf (call.base + k)).getD .i64
      let g := x.g.mapLanes x.lanes fun l y => y.returned call.base call.ndef types (x.vals (x.plan i) l)
      let p : Path := { x.p.past ret with
        mode := modeRaise x.p.mode f, last := some (pcAdd caller.entry call.off, 0) }
      x.count (x.put (g.setPath x.pid p)) 1

/-! EXIT. -/

/-- Has every lane of a gang executed EXIT, and every operation of its teams completed (R103), but for the drains of cuttings,
which hold no core (R170)? -/
def State.gangOver (s : State) (teams : List Nat) : Bool :=
  (s.groups.all fun g => !teams.contains g.2.team || g.2.allExited) &&
    s.ops.all fun o => !teams.contains o.2.team || o.2.status != 1 || o.2.cls == 6

/-- A placed gang that has nothing left to do frees its cores (R181, R186); the drains of its cuttings go on. -/
def State.finishGangs (s : State) (l : Nat) : State :=
  (s.launch l).gangs.foldl (fun s g =>
    if g.2.state = .placed ∧ s.gangOver g.2.teams then
      let s := s.elapsed g.2.hall
      let x := s.launch l
      let drains := s.ops.filter fun o => g.2.teams.contains o.2.team && o.2.status == 1
      let s := (s.setLaunch l { x with gangs := mset x.gangs g.1 { g.2 with state := .finished } }).dropTeams g.2.teams
      ({ s with ops := drains.foldl (fun os o => mset os o.1 o.2) s.ops } : State).endTurns
    else s) s

/-! Cohort latches (R359, R360): the failure of a rendezvous. -/

/-- VALID of a cohort register. -/
def cohortValid (r : BitVec 32) : Bool := r.getLsbD 0
/-- POS. -/
def cohortPos (r : BitVec 32) : Nat := bitsOf r.toNat 5 3
/-- SIZE. -/
def cohortSize (r : BitVec 32) : Nat := bitsOf r.toNat 8 6
/-- LATCH. -/
def cohortLatch (r : BitVec 32) : Nat := bitsOf r.toNat 11 9

/-- The members waiting at a latch of a team. -/
def Team.latch (t : Team) (n : Nat) : List LatchWait := (mget t.latches n).getD []

/-- A rendezvous fails (R360): the latch is empty, and HANDLE_INVALID is raised in every member that waits at it. -/
def State.failLatch (s : State) (team n : Nat) : State :=
  let t := s.team team
  let waits := t.latch n
  let s := s.setTeam team { t with latches := mdel t.latches n }
  waits.foldl (fun s w =>
    let g := s.group w.group
    match mget g.ctx.paths w.path with
    | none => s
    | some p => (s.setGroup w.group (g.setPath w.path { p with stage := .failed })).trapAt w.group w.path trapHandle) s

/-- Has a member of a latch that has not arrived, at a position that the waiting members need, exited whole? -/
def State.latchDead (s : State) (team n : Nat) : Bool :=
  let waits := (s.team team).latch n
  waits.any fun w =>
    s.groups.any fun g => g.2.team == team && cohortValid g.2.cohort && cohortLatch g.2.cohort == n && g.2.allExited &&
      decide (cohortPos g.2.cohort < w.size) && !waits.any fun v => v.pos == cohortPos g.2.cohort

/-- Every latch of a team that can no longer fill fails. -/
def State.checkLatches (s : State) (team : Nat) : State :=
  ((s.team team).latches.map Prod.fst).foldl (fun s n => if s.latchDead team n then s.failLatch team n else s) s

/-- What follows when lanes of a group have exited or left its handler: meetings go on without them, latches that they could
fill fail, the handler is left when none of its lanes remains, and the gang may be over. -/
def State.afterLeave (s : State) (gid : Nat) : State :=
  let l := (s.team (s.group gid).team).launch
  let s := (s.meetAll gid).checkLatches (s.group gid).team
  let inside := (s.group gid).handler.isSome
  let s := s.leaveHandler gid
  let s := if inside && (s.group gid).handler.isNone then (s.settleGroup gid).meetAll gid else s
  s.finishGangs l

/-- EXIT (R295). -/
def execExit (_c : Ctl) (_ops : List Opnd) (s : State) : Host.Outcome State Fault Refusal :=
  onPath s fun x =>
    let g : Group := { x.g with
      exited := x.g.exited ||| x.p.mask, ctx := x.g.ctx.without x.p.mask
      handler := x.g.handler.map fun h => { h with mode := x.p.mode } }
    (x.count ((x.put g).settleGroup x.gid) 1).afterLeave x.gid

/-- UNREACH (R296): trap 0x0D in every lane of the path. -/
def execUnreach (c : Ctl) (ops : List Opnd) (s : State) : Host.Outcome State Fault Refusal :=
  onPath s fun x => x.trapAll (.unreach c ops) 0x0D

/-- RESERVED_MAJOR_STUB (R265, R267): trap 0x02 in every lane of the path; no operand is read. -/
def execReservedMajorStub (_maj : BitVec 7) (_sub : BitVec 5) (_c : Ctl) (_mod _rsvz : BitVec 4) (_ops : List Word)
    (s : State) : Host.Outcome State Fault Refusal :=
  onPath s fun x => x.s.raiseTrap x.gid x.pid x.p ⟨2, x.p.mask, 0, x.lanes.map fun l => (l, [])⟩

/-! The mode word. -/

/-- The step of a SETM form whose operands are read once (R299): `f` changes the path's copy; a poison read sets PO. -/
def Exe.setm (x : Exe) (i : Instr) (f : List Val → BitVec 64 → BitVec 64) : State :=
  x.once i fun vs => x.complete i (x.write i []) (modeRaise (f vs x.p.mode) (x.onceFlags i))

/-- SETM_CTL (R299). -/
def execSetmCtl (c : Ctl) (ops : List Opnd) (s : State) : Host.Outcome State Fault Refusal :=
  onPath s fun x => x.setm (.setmCtl c ops) fun vs m =>
    modeSetCtl m (BitVec.ofNat 7 (numOf vs 0)) (BitVec.ofNat 7 (numOf vs 1))

/-- SETM_FLAGS (R299). -/
def execSetmFlags (c : Ctl) (ops : List Opnd) (s : State) : Host.Outcome State Fault Refusal :=
  onPath s fun x => x.setm (.setmFlags c ops) fun vs m =>
    modeSetFlags m ((modeFlags m &&& ~~~BitVec.ofNat 6 (numOf vs 0)) ||| BitVec.ofNat 6 (numOf vs 1))

/-- SETM_EN (R299). -/
def execSetmEn (c : Ctl) (ops : List Opnd) (s : State) : Host.Outcome State Fault Refusal :=
  onPath s fun x => x.setm (.setmEn c ops) fun vs m =>
    let mask := BitVec.ofNat 6 (numOf vs 0)
    modeSetEn m ((modeEn m &&& ~~~mask) ||| (BitVec.ofNat 6 (numOf vs 1) &&& mask))

/-- SETM_STEP (R299). -/
def execSetmStep (c : Ctl) (ops : List Opnd) (s : State) : Host.Outcome State Fault Refusal :=
  onPath s fun x => x.setm (.setmStep c ops) fun vs m => modeSetStep m (BitVec.ofNat 32 (numOf vs 0))

/-- SETM_STEPADD (R299). -/
def execSetmStepadd (c : Ctl) (ops : List Opnd) (s : State) : Host.Outcome State Fault Refusal :=
  onPath s fun x => x.setm (.setmStepadd c ops) fun vs m => modeSetStep m (modeStep m + BitVec.ofNat 32 (numOf vs 0))

/-- SETM_GUARD (R299): each lane's guard; a poison operand reads as false. -/
def execSetmGuard (c : Ctl) (ops : List Opnd) (s : State) : Host.Outcome State Fault Refusal :=
  onPath s fun x =>
    let i := Instr.setmGuard c ops
    x.unlessPoison i fun f =>
      let on := maskOf (x.lanes.filter fun l => (argOf (x.vals (x.plan i) l) 0).isTrue)
      let g := x.write i []
      x.complete i { g with guard := (g.guard &&& ~~~x.p.mask) ||| on } (modeRaise x.p.mode f)

/-- GETM_CTL (R300): bits [31:0] of the path's copy. -/
def execGetmCtl (c : Ctl) (ops : List Opnd) (s : State) : Host.Outcome State Fault Refusal :=
  onPath s fun x => x.commitAll (.getmCtl c ops) [.bits (x.p.mode.setWidth 32 |>.setWidth 64)] 0

/-- GETM_STEP (R300). -/
def execGetmStep (c : Ctl) (ops : List Opnd) (s : State) : Host.Outcome State Fault Refusal :=
  onPath s fun x => x.commitAll (.getmStep c ops) [.bits ((modeStep x.p.mode).setWidth 64)] 0

/-- GETM_GUARD (R300): the lane's own guard. -/
def execGetmGuard (c : Ctl) (ops : List Opnd) (s : State) : Host.Outcome State Fault Refusal :=
  onPath s fun x => x.commit (.getmGuard c ops)
    ((x.active c).map fun l => (l, [.ofBool (x.g.guard.getLsbD l)])) 0

/-- GETM_GMASK (R300): the guards of the path's lanes. -/
def execGetmGmask (c : Ctl) (ops : List Opnd) (s : State) : Host.Outcome State Fault Refusal :=
  onPath s fun x => x.commitAll (.getmGmask c ops) [.bits (x.g.guard &&& x.p.mask)] 0

/-! The cycle counter (R301). -/

/-- A 64-bit counter after n cycles more, which do not carry it past its top: counts of one core never fall (R301). -/
def advance (old : BitVec 64) (n : Nat) : BitVec 64 := BitVec.ofNat 64 (old.toNat + n % (2 ^ 64 - old.toNat))

/-- The count of the core that executes the path, after a free number of cycles since it was last read, and the state that
holds it. -/
def Exe.cycles (x : Exe) : BitVec 64 × State :=
  let n := Config.freeNat (.cycles 0) x.s.free
  match x.p.place.galleryCore with
  | none =>
      let v := advance ((mget x.s.cycles x.team.core).getD 0) n
      (v, { x.s with cycles := mset x.s.cycles x.team.core v })
  | some k =>
      let v := advance ((mget x.s.gcycles (x.hall * 32 + k)).getD 0) n
      (v, { x.s with gcycles := mset x.s.gcycles (x.hall * 32 + k) v })

/-- RDCYC_I64 (R301). -/
def execRdcycI64 (c : Ctl) (ops : List Opnd) (s : State) : Host.Outcome State Fault Refusal :=
  onPath s fun x => (x.upon x.cycles.2).commitAll (.rdcycI64 c ops) [.bits x.cycles.1] 0

/-- RDCYC_I32 (R301): the low 32 bits. -/
def execRdcycI32 (c : Ctl) (ops : List Opnd) (s : State) : Host.Outcome State Fault Refusal :=
  onPath s fun x => (x.upon x.cycles.2).commitAll (.rdcycI32 c ops) [ofTy .i32 x.cycles.1.toNat] 0

end Sys2Proof.Machine
end

