-- ==== Sys2Proof/Machine/Fp.lean ====
section
/-! DEFINITION. Number formats and rounding: the formats (R224 to R227), exact values, the NaN results (R228), Convert
(R232), RoundMag and its generator (R233, R234), and exact arithmetic on values (R305, R310, R238, R239). -/

namespace Sys2Proof.Machine

/-- How a format encodes NaN (R224). -/
inductive NanKind where
  /-- Exponent all ones, mantissa nonzero. -/
  | ieee
  /-- Every bit below the sign set: E4M3. -/
  | top
  /-- No NaN. -/
  | never
  deriving DecidableEq, Repr

/-- A floating format (R224): exponent and mantissa bits, low bits that are ignored (E8M10), infinity, NaN. -/
structure FpFmt where
  ebits : Nat
  mbits : Nat
  low : Nat
  inf : Bool
  nan : NanKind
  deriving DecidableEq, Repr

/-- FP64. -/
def fmtF64 : FpFmt := ⟨11, 52, 0, true, .ieee⟩
/-- FP32. -/
def fmtF32 : FpFmt := ⟨8, 23, 0, true, .ieee⟩
/-- E8M10: FP32 with 13 ignored bits (R227). -/
def fmtE8M10 : FpFmt := ⟨8, 10, 13, true, .ieee⟩
/-- BF16. -/
def fmtBF16 : FpFmt := ⟨8, 7, 0, true, .ieee⟩
/-- FP16. -/
def fmtF16 : FpFmt := ⟨5, 10, 0, true, .ieee⟩
/-- E5M2. -/
def fmtE5M2 : FpFmt := ⟨5, 2, 0, true, .ieee⟩
/-- E4M3. -/
def fmtE4M3 : FpFmt := ⟨4, 3, 0, false, .top⟩
/-- E3M2. -/
def fmtE3M2 : FpFmt := ⟨3, 2, 0, false, .never⟩
/-- E2M3. -/
def fmtE2M3 : FpFmt := ⟨2, 3, 0, false, .never⟩
/-- E2M1. -/
def fmtE2M1 : FpFmt := ⟨2, 1, 0, false, .never⟩

/-- The format of a floating type; FP32 for any other. -/
def fmtOf (t : Ty) : FpFmt :=
  match t with
  | .f16 => fmtF16
  | .bf16 => fmtBF16
  | .f64 => fmtF64
  | .f32 | .b1 | .i8 | .i16 | .i32 | .i64 | .p8x4 | .p16x2 | .fut | .tmap | .fmtb | .acc => fmtF32

/-- The format of a narrow container (R313). -/
def fmtNarrow : Narrow → FpFmt
  | .e5m2 => fmtE5M2 | .e4m3 => fmtE4M3 | .e3m2 => fmtE3M2 | .e2m3 => fmtE2M3 | .e2m1 => fmtE2M1

/-- The bias. -/
def FpFmt.bias (f : FpFmt) : Nat := 2 ^ (f.ebits - 1) - 1
/-- The bits of an encoding. -/
def FpFmt.bits (f : FpFmt) : Nat := 1 + f.ebits + f.mbits + f.low
/-- The stored exponent of all ones. -/
def FpFmt.eOnes (f : FpFmt) : Nat := 2 ^ f.ebits - 1
/-- The stored exponent and mantissa of the largest finite value, as one number (R224). -/
def FpFmt.maxCode (f : FpFmt) : Nat :=
  match f.nan with
  | .ieee => f.eOnes * 2 ^ f.mbits - 1
  | .top => (f.eOnes + 1) * 2 ^ f.mbits - 2
  | .never => (f.eOnes + 1) * 2 ^ f.mbits - 1
/-- The exponent of the smallest normal. -/
def FpFmt.emin (f : FpFmt) : Int := 1 - (f.bias : Int)
/-- The exponent of the largest finite value. -/
def FpFmt.emax (f : FpFmt) : Int := (f.maxCode / 2 ^ f.mbits : Nat) - (f.bias : Int)
/-- The word of a sign and a stored exponent with mantissa. -/
def FpFmt.word (f : FpFmt) (neg : Bool) (code : Nat) : Nat :=
  (neg.toNat * 2 ^ (f.ebits + f.mbits) + code) * 2 ^ f.low
/-- The word of an infinity. -/
def FpFmt.infWord (f : FpFmt) (neg : Bool) : Nat := f.word neg (f.eOnes * 2 ^ f.mbits)
/-- The word of the largest finite value of a sign. -/
def FpFmt.maxWord (f : FpFmt) (neg : Bool) : Nat := f.word neg f.maxCode

/-- A value: NaN with the sign, width and bits of the mantissa it came with (width 0 for a NaN that no operand gave), an
infinity, or ±m × 2^e, to which `sticky` adds a positive part below one unit of m. -/
inductive Num where
  | nan (neg : Bool) (width man : Nat)
  | inf (neg : Bool)
  | fin (neg : Bool) (m : Nat) (e : Int) (sticky : Bool)
  deriving DecidableEq, Repr

/-- The NaN that no operand gave. -/
def Num.nanNew : Num := .nan false 0 0
/-- A zero. -/
def Num.zero (neg : Bool) : Num := .fin neg 0 0 false
/-- Is it NaN? -/
def Num.isNan : Num → Bool
  | .nan .. => true
  | .inf _ | .fin .. => false
/-- Is it an infinity? -/
def Num.isInf : Num → Bool
  | .inf _ => true
  | .nan .. | .fin .. => false
/-- Is it a zero? -/
def Num.isZero : Num → Bool
  | .fin _ m _ sticky => m == 0 && !sticky
  | .nan .. | .inf _ => false
/-- Its sign. -/
def Num.neg : Num → Bool
  | .nan s _ _ => s
  | .inf s => s
  | .fin s _ _ _ => s
/-- The value of the opposite sign; a NaN keeps its own. -/
def Num.opp : Num → Num
  | .nan s w m => .nan s w m
  | .inf s => .inf (!s)
  | .fin s m e t => .fin (!s) m e t

/-- The value of an encoding (R224, R227); `flush` reads a subnormal as zero with its sign (R232). -/
def FpFmt.value (f : FpFmt) (flush : Bool) (w : Nat) : Num :=
  let v := w / 2 ^ f.low % 2 ^ (1 + f.ebits + f.mbits)
  let neg := v / 2 ^ (f.ebits + f.mbits) == 1
  let exp := v / 2 ^ f.mbits % 2 ^ f.ebits
  let man := v % 2 ^ f.mbits
  let number : Num :=
    if exp = 0 then if flush then .zero neg else .fin neg man (f.emin - f.mbits) false
    else .fin neg (2 ^ f.mbits + man) ((exp : Int) - f.bias - f.mbits) false
  match f.nan with
  | .ieee => if exp = f.eOnes then if man = 0 then .inf neg else .nan neg f.mbits man else number
  | .top => if exp = f.eOnes ∧ man = 2 ^ f.mbits - 1 then .nan neg f.mbits man else number
  | .never => number

/-- The NaN result (R228): canonical, or the operand's payload under NaN mode 1. -/
def FpFmt.nanWord (f : FpFmt) (payload : Bool) (neg : Bool) (width man : Nat) : Nat :=
  match f.nan with
  | .top | .never => f.word false (2 ^ (f.ebits + f.mbits) - 1)
  | .ieee =>
      let canon := f.word false (f.eOnes * 2 ^ f.mbits + 2 ^ (f.mbits - 1))
      if payload then
        let kept := if width ≤ f.mbits then man * 2 ^ (f.mbits - width) else man / 2 ^ (width - f.mbits)
        if kept % 2 ^ (f.mbits - 1) = 0 then canon
        else f.word neg (f.eOnes * 2 ^ f.mbits + 2 ^ (f.mbits - 1) + kept % 2 ^ (f.mbits - 1))
      else canon

/-! Rounding. -/

/-- What a rounding reads of the mode word, and the generator's word z (R232, R233). -/
structure Rounding where
  rm : Nat
  sat : Bool
  flush : Bool
  payload : Bool
  z : Nat
  deriving DecidableEq, Repr

/-- RNE without flushing or saturation. -/
def Rounding.plain : Rounding := ⟨0, false, false, false, 0⟩

/-- One round of the generator's mixing. -/
def mixRound (z : BitVec 64) : BitVec 64 :=
  let z := z ^^^ (z >>> 32)
  z * 0xDA942042E4DD58B5

/-- The generator (R233). -/
def generator (seed x y step : BitVec 64) : BitVec 64 :=
  let z := seed ^^^ (x * 0x9E3779B97F4A7C15) ^^^ (y * 0xD1B54A32D192ED03) ^^^ (step * 0x8CB92BA72F3D8DD7)
  let z := mixRound (mixRound (mixRound z))
  z ^^^ (z >>> 29)

/-- The number of factors 2 of a number, up to a bound. -/
def twos : Nat → Nat → Nat
  | 0, _ => 0
  | fuel + 1, n => if n % 2 = 0 then 1 + twos fuel (n / 2) else 0

/-- Does RoundMag go away from zero (R233)? The magnitude is q + (rem plus a sticky part) / 2^k spacings, not exact. -/
def roundsUp (r : Rounding) (neg : Bool) (q rem k : Nat) (sticky : Bool) : Bool :=
  let half := 2 ^ k / 2
  let twice := 2 * rem
  let above := decide (2 ^ k < twice) || (twice == 2 ^ k && sticky)
  let tie := twice == 2 ^ k && !sticky && half * 2 == 2 ^ k
  match r.rm with
  | 0 => above || (tie && q % 2 == 1)
  | 1 => false
  | 2 => !neg
  | 3 => neg
  | 4 => above || tie
  | _ =>
      let d := if sticky then 32 else min 32 (k - twos k rem)
      decide (2 ^ d ≤ rem * 2 ^ d / 2 ^ k + r.z % 2 ^ d)

/-- RoundMag (R233): the magnitude m × 2^e, with its sticky part, in spacings of 2^sp, and whether that differs. -/
def roundMag (r : Rounding) (neg : Bool) (m : Nat) (e : Int) (sticky : Bool) (sp : Int) : Nat × Bool :=
  if sp ≤ e then (m * 2 ^ (e - sp).toNat, sticky)
  else
    let k := (sp - e).toNat
    if Nat.log2 m + 66 < k then (if (m = 0 ∧ sticky = false) then (0, false)
      else (if roundsUp r neg 0 0 1 true then 1 else 0, true))
    else
      let q := m / 2 ^ k
      let rem := m % 2 ^ k
      if rem = 0 ∧ sticky = false then (q, false)
      else (if roundsUp r neg q rem k sticky then q + 1 else q, true)

/-- Does a floating format hold every value of another, so that a conversion to it widens or changes nothing (R232)? -/
def FpFmt.holds (d s : FpFmt) : Bool :=
  decide (s.mbits ≤ d.mbits) && decide (s.emax ≤ d.emax) && decide (d.emin - d.mbits ≤ s.emin - s.mbits)

/-- Convert to a floating format (R232): the word and the flags. -/
def FpFmt.convert (f : FpFmt) (r : Rounding) : Num → Nat × BitVec 6
  | .nan neg width man =>
      match f.nan with
      | .never => (f.word false 0, flagNV)
      | .ieee | .top => (f.nanWord r.payload neg width man, 0)
  | .inf neg =>
      if r.sat then (f.maxWord neg, flagOF)
      else if f.inf then (f.infWord neg, 0)
      else
        match f.nan with
        | .top => (f.nanWord false false 0 0, flagNV)
        | .ieee | .never => (f.maxWord neg, flagOF)
  | .fin neg m e sticky =>
      let tooBig : Nat × BitVec 6 :=
        let w :=
          if r.sat || (!f.inf && f.nan == .never) then f.maxWord neg
          else if f.nan = .top then f.nanWord false false 0 0
          else if r.rm = 0 ∨ r.rm = 4 ∨ 5 ≤ r.rm ∨ (r.rm = 2 ∧ neg = false) ∨ (r.rm = 3 ∧ neg = true) then f.infWord neg
          else f.maxWord neg
        (w, flagOF ||| flagNX)
      if m = 0 ∧ sticky = false then (f.word neg 0, 0)
      else if f.emax < Nat.log2 m + e then tooBig
      else
        let sp := max (Nat.log2 m + e) f.emin - f.mbits
        let q := roundMag r neg m e sticky sp
        let tiny := q.1 != 0 && decide (q.1 < 2 ^ f.mbits) && sp == f.emin - f.mbits
        let flags := flagIf q.2 flagNX ||| flagIf (tiny && q.2) flagUF
        let code := (sp + f.mbits + f.bias - 1).toNat * 2 ^ f.mbits + q.1
        if tiny && r.flush then (f.word neg 0, flags ||| flagUF ||| flagNX)
        else if f.maxCode < code then (tooBig.1, flags ||| tooBig.2)
        else (f.word neg code, flags)

/-- Convert to an integer of w bits (R232, R313): its two's-complement bits and the flags. -/
def convertInt (w : Nat) (signed : Bool) (r : Rounding) : Num → Nat × BitVec 6
  | .nan .. => (0, flagNV)
  | .inf neg => (if neg then (if signed then 2 ^ (w - 1) else 0) else if signed then 2 ^ (w - 1) - 1 else 2 ^ w - 1, flagOF)
  | .fin neg m e sticky =>
      let limit := if neg then (if signed then 2 ^ (w - 1) else 0) else if signed then 2 ^ (w - 1) - 1 else 2 ^ w - 1
      let lim := if neg then (if signed then 2 ^ (w - 1) else 0) else limit
      if m = 0 ∧ sticky = false then (0, 0)
      else if (w : Int) < Nat.log2 m + e then (lim % 2 ^ w, flagOF ||| flagNX)
      else
        let q := roundMag r neg m e sticky 0
        if lim < q.1 then (lim % 2 ^ w, flagOF ||| flagNX)
        else ((if neg then 2 ^ w - q.1 else q.1) % 2 ^ w, flagIf q.2 flagNX)

/-! Exact arithmetic. -/

/-- An exact finite value as (signed integer, exponent). -/
def Num.signed : Num → Int × Int
  | .fin neg m e _ => (if neg then -(m : Int) else m, e)
  | .nan .. | .inf _ => (0, 0)

/-- The exact sum of two scaled integers. -/
def addScaled (a b : Int × Int) : Int × Int :=
  if a.1 = 0 then b
  else if b.1 = 0 then a
  else
    let e := min a.2 b.2
    (a.1 * 2 ^ (a.2 - e).toNat + b.1 * 2 ^ (b.2 - e).toNat, e)

/-- The value of a scaled integer; `zeroNeg` is the sign of a zero. -/
def Num.ofScaled (zeroNeg : Bool) (a : Int × Int) : Num :=
  if a.1 = 0 then .zero zeroNeg else .fin (a.1 < 0) a.1.natAbs a.2 false

/-- The first NaN of a list of operands (R228). -/
def firstNan (xs : List Num) : Option Num := xs.find? Num.isNan

/-- The exact sum with its zero rule (R305), and NV: the operands are not NaN. -/
def Num.addNums (rm : Nat) (a b : Num) : Num × BitVec 6 :=
  match a, b with
  | .inf s, .inf t => if s = t then (.inf s, 0) else (.nanNew, flagNV)
  | .inf s, _ => (.inf s, 0)
  | _, .inf t => (.inf t, 0)
  | _, _ =>
      let zeroNeg := if a.isZero && b.isZero && a.neg == b.neg then a.neg else rm == 3
      (.ofScaled zeroNeg (addScaled a.signed b.signed), 0)

/-- FADD's exact result (R305). -/
def Num.add (rm : Nat) (a b : Num) : Num × BitVec 6 :=
  match firstNan [a, b] with
  | some n => (n, 0)
  | none => Num.addNums rm a b

/-- The exact product of two values that are not NaN, and NV. -/
def Num.mulNums (a b : Num) : Num × BitVec 6 :=
  let neg := a.neg != b.neg
  if a.isInf || b.isInf then if a.isZero || b.isZero then (.nanNew, flagNV) else (.inf neg, 0)
  else
    match a, b with
    | .fin _ m e _, .fin _ n d _ => (.fin neg (m * n) (e + d) false, 0)
    | _, _ => (.nanNew, 0)

/-- FMUL's exact result (R305). -/
def Num.mul (a b : Num) : Num × BitVec 6 :=
  match firstNan [a, b] with
  | some n => (n, 0)
  | none => Num.mulNums a b

/-- FFMA's exact result (R305): 0 × ∞ sets NV even beside a NaN addend. -/
def Num.fma (rm : Nat) (a b c : Num) : Num × BitVec 6 :=
  match firstNan [a, b] with
  | some n => (n, 0)
  | none =>
      let p := Num.mulNums a b
      match c with
      | .nan .. => (c, p.2)
      | .inf _ | .fin .. =>
          if p.1.isNan then p
          else
            let s := Num.addNums rm p.1 c
            (s.1, p.2 ||| s.2)

/-- FDIV's exact result (R310); 128 quotient bits and a sticky part. -/
def Num.div (a b : Num) : Num × BitVec 6 :=
  match firstNan [a, b] with
  | some n => (n, 0)
  | none =>
      let neg := a.neg != b.neg
      match a, b with
      | .inf _, .inf _ => (.nanNew, flagNV)
      | .inf _, _ => (.inf neg, 0)
      | _, .inf _ => (.zero neg, 0)
      | .fin _ m e _, .fin _ n d _ =>
          if n = 0 then if m = 0 then (.nanNew, flagNV) else (.inf neg, flagDZ)
          else if m = 0 then (.zero neg, 0)
          else
            let k := 128 + Nat.log2 n
            (.fin neg (m * 2 ^ k / n) (e - d - k) (m * 2 ^ k % n != 0), 0)
      | _, _ => (.nanNew, 0)

/-- The integer square root, bit by bit from 2^fuel down. -/
def isqrt : Nat → Nat → Nat → Nat
  | 0, _, r => r
  | fuel + 1, n, r => if (r + 2 ^ fuel) * (r + 2 ^ fuel) ≤ n then isqrt fuel n (r + 2 ^ fuel) else isqrt fuel n r

/-- FSQRT's exact result (R310); 128 root bits and a sticky part. -/
def Num.sqrt (a : Num) : Num × BitVec 6 :=
  match a with
  | .nan .. => (a, 0)
  | .inf neg => if neg then (.nanNew, flagNV) else (a, 0)
  | .fin neg m e _ =>
      if m = 0 then (a, 0)
      else if neg then (.nanNew, flagNV)
      else
        let k := 256 - Nat.log2 m + (if (e - (256 - Nat.log2 m : Nat)) % 2 = 0 then 0 else 1)
        let n := m * 2 ^ k
        let root := isqrt 130 n 0
        (.fin false root ((e - k) / 2) (root * root != n), 0)

/-- Is a below b in value, −0 and +0 equal? Neither is NaN. -/
def Num.lt (a b : Num) : Bool :=
  match a, b with
  | .inf s, .inf t => s && !t
  | .inf s, _ => s
  | _, .inf t => !t
  | _, _ =>
      let x := a.signed
      let y := b.signed
      (addScaled x (-y.1, y.2)).1 < 0

/-- Are a and b equal in value? Neither is NaN. -/
def Num.same (a b : Num) : Bool := !a.lt b && !b.lt a

/-- Is a below b with −0 below +0 (R306)? Neither is NaN. -/
def Num.below (a b : Num) : Bool := a.lt b || (a.isZero && b.isZero && a.neg && !b.neg)

/-- The exact sum of terms (R239, R315): NaN for a NaN term or infinities of both signs, the latter with NV; else the
infinity; else the exact sum, whose zero is −0 when every term is −0, or under RDN when any of them is nonzero. -/
def sumTerms (rm : Nat) (ts : List Num) : Num × BitVec 6 :=
  let pos := ts.any fun t => t.isInf && !t.neg
  let min := ts.any fun t => t.isInf && t.neg
  match firstNan ts with
  | some n => (n, flagIf (pos && min) flagNV)
  | none =>
      if pos && min then (.nanNew, flagNV)
      else if pos then (.inf false, 0)
      else if min then (.inf true, 0)
      else
        let zeroNeg := (!ts.isEmpty && ts.all fun t => t.isZero && t.neg) || (rm == 3 && ts.any fun t => !t.isZero)
        (.ofScaled zeroNeg ((ts.map Num.signed).foldl addScaled (0, 0)), 0)

/-- floor(log2 |x|) of a finite nonzero value. -/
def Num.log2 : Num → Int
  | .fin _ m e _ => Nat.log2 m + e
  | .nan .. | .inf _ => 0

/-- The integer value of a number of w bits, read signed or unsigned. -/
def Num.ofInt (w : Nat) (signed : Bool) (v : Nat) : Num :=
  let i : Int := if signed then signedOf w v else (v % 2 ^ w : Nat)
  .ofScaled false (i, 0)

end Sys2Proof.Machine
end

