-- ==== Sys2Proof/Machine/Approx.lean ====
section
/-! DEFINITION. The approximations of SFU (R311): the exact value of each function, close enough to tell what lies within the error
bound, and the value that the hardware forms, which is free within the bound. -/

namespace Sys2Proof.Machine

/-! Fixed point: an integer stands for itself divided by 2^100. -/

/-- The bits behind the point. -/
def fxBits : Nat := 100
/-- One. -/
def fxOne : Int := 2 ^ fxBits
/-- A product. -/
def fxMul (a b : Int) : Int := a * b / fxOne
/-- ±m × 2^e, rounded down. -/
def fxOf (neg : Bool) (m : Nat) (e : Int) : Int :=
  let v : Int := if 0 ≤ e + fxBits then (m : Int) * 2 ^ (e + fxBits).toNat else (m : Int) / 2 ^ (-(e + fxBits)).toNat
  if neg then -v else v
/-- The natural logarithm of 2. -/
def fxLn2 : Int := 878668439483319573618263538048
/-- The base 2 logarithm of e. -/
def fxLog2e : Int := 1828833234529184422442202814989
/-- π. -/
def fxPi : Int := 3982441812995697363688351113952

/-- The terms of the exponential series from the k-th on. -/
def fxExpTail (x : Int) : Nat → Nat → Int → Int
  | 0, _, _ => 0
  | n + 1, k, t => t + fxExpTail x n (k + 1) (fxMul t x / ((k : Int) + 1))

/-- The terms of the sine or cosine series from the one of degree k on; `y` is the square of the argument. -/
def fxTrigTail (y : Int) : Nat → Nat → Int → Int
  | 0, _, _ => 0
  | n + 1, k, t => t + fxTrigTail y n (k + 2) (-(fxMul t y) / (((k : Int) + 1) * ((k : Int) + 2)))

/-- A real number as n × 2^e. -/
abbrev Real2 := Int × Int

/-- 2 to the power of a fixed-point number. -/
def exp2Of (z : Int) : Real2 :=
  let f := z % fxOne
  (fxExpTail (fxMul f fxLn2) 40 0 fxOne, z / fxOne - fxBits)

/-- A real number in fixed point. -/
def Real2.fx (v : Real2) : Int := if 0 ≤ v.2 + fxBits then v.1 * 2 ^ (v.2 + fxBits).toNat else v.1 / 2 ^ (-(v.2 + fxBits)).toNat

/-- The bits of the base 2 logarithm of a fixed-point number in [1, 2), by repeated squaring. -/
def fxLogBits : Nat → Int → Int → Int
  | 0, _, _ => 0
  | n + 1, x, w =>
      let y := fxMul x x
      if 2 * fxOne ≤ y then w + fxLogBits n (y / 2) (w / 2) else fxLogBits n y (w / 2)

/-- e to the power of minus a magnitude, which beyond 128 is as good as 0. -/
def fxDecay (m : Nat) (e : Int) : Int :=
  if 128 ≤ e + (Nat.log2 m : Nat) then 0
  else (exp2Of (-(fxMul (fxOf false m e) fxLog2e))).fx

/-- The exact value of a function of ±m × 2^e with m not 0, but for an error far below the bound. -/
def sfuExact (k : SfuKind) (neg : Bool) (m : Nat) (e : Int) : Real2 :=
  let sign : Int → Int := fun n => if neg then -n else n
  match k with
  | .rcp => (sign (2 ^ 128 / (m : Int)), -e - 128)
  | .rsq =>
      let odd := (e % 2).toNat
      ((isqrt 128 (2 ^ 240 / (m * 2 ^ odd)) 0 : Nat), -120 - (e - odd) / 2)
  | .lg2 =>
      let b := Nat.log2 m
      (((b : Int) + e) * fxOne + fxLogBits 70 (fxOf false m (-(b : Int))) (fxOne / 2), -(fxBits : Int))
  | .ex2 => if 12 ≤ e + (Nat.log2 m : Nat) then (1, sign 4096) else exp2Of (fxOf neg m e)
  | .sinpi | .cospi =>
      let t := fxMul (fxOf neg m e % (2 * fxOne)) fxPi
      let y := fxMul t t
      (if k = .sinpi then fxTrigTail y 40 1 t else fxTrigTail y 40 0 fxOne, -(fxBits : Int))
  | .tanh =>
      let q := fxDecay m (e + 1)
      (sign ((fxOne - q) * fxOne / (fxOne + q)), -(fxBits : Int))
  | .sigm =>
      let q := fxDecay m e
      ((if neg then q else fxOne) * fxOne / (fxOne + q), -(fxBits : Int))

/-- The size of the last place of an FP32 value next to a real number: its exponent. -/
def ulpExp (v : Real2) : Int := max (v.2 + (Nat.log2 v.1.natAbs : Nat)) (-126) - 23

/-- The error bound of R311, as n × 2^e. -/
def sfuBound (k : SfuKind) (m : Nat) (e : Int) (v : Real2) : Real2 :=
  let near := fun (n : Int) => (n, ulpExp v)
  let b := e + (Nat.log2 m : Nat)
  match k with
  | .rcp | .rsq => near 1
  | .lg2 => if b = -1 ∨ b = 0 ∨ (b = 1 ∧ m = 2 ^ Nat.log2 m) then (1, -22) else near 2
  | .ex2 => near 2
  | .sinpi | .cospi | .sigm => (1, -22)
  | .tanh => (1, -21)

/-- Do two real numbers differ by at most a third, and a billionth of it, for which the exact value's own error stands? -/
def closeTo (y v b : Real2) : Bool :=
  let lo := min y.2 (min v.2 (b.2 - 30))
  let at_ := fun (q : Real2) => q.1 * 2 ^ (q.2 - lo).toNat
  decide ((at_ y - at_ v).natAbs ≤ (at_ (b.1 * (2 ^ 30 + 1), b.2 - 30)).natAbs)

/-- The FP32 approximation that SFU forms of a value (R311): the free one where it lies within the error bound, and else the
exact value rounded. An infinity stands for the first value beyond the largest finite one. -/
def sfuApprox (k : SfuKind) (neg : Bool) (m : Nat) (e : Int) : Num :=
  let v := sfuExact k neg m e
  let b := sfuBound k m e v
  let input := (fmtF32.convert Rounding.plain (.fin neg m e false)).1
  let y := fmtF32.value false (Config.sfu k.code (BitVec.ofNat 32 input)).toNat
  let fits := match y with
    | .nan .. => false
    | .inf s => closeTo (if s then -1 else 1, 128) v b
    | .fin s n q _ => closeTo (if s then -(n : Int) else n, q) v b
  if fits then y
  else fmtF32.value false (fmtF32.convert Rounding.plain (.fin (decide (v.1 < 0)) v.1.natAbs v.2 false)).1

end Sys2Proof.Machine
end

