-- ==== Sys2Proof/Machine/Scalar.lean ====
section
/-! DEFINITION. The meanings of the scalar and address instructions (R269 to R286): what a lane computes, and the step of
each. -/

namespace Sys2Proof.Machine

/-! Elements (R269): a packed value holds several, any other value one. -/

/-- How many elements a type holds. -/
def elemCount (t : Ty) : Nat := if t = .p8x4 then 4 else if t = .p16x2 then 2 else 1

/-- The width of an element of a type. -/
def elemWidth (t : Ty) : Nat := if t = .p8x4 then 8 else if t = .p16x2 then 16 else t.width

/-- Element j of a number in elements of w bits. -/
def elemOf (w v j : Nat) : Nat := v / 2 ^ (w * j) % 2 ^ w

/-- The number of a list of elements of w bits. -/
def ofElems (w : Nat) : List Nat → Nat
  | [] => 0
  | e :: es => e % 2 ^ w + 2 ^ w * ofElems w es

/-- Acts on each element of a type: `f` gives a result element and its flags. -/
def onElems (t : Ty) (f : Nat → Nat × BitVec 6) : LaneOut :=
  let rs := (List.range (elemCount t)).map f
  .done [ofTy t (ofElems (elemWidth t) (rs.map Prod.fst))] (rs.foldl (fun a r => a ||| r.2) 0)

/-- An integer clamped to a range, with OF when that changes it (R269). -/
def clampTo (lo hi e : Int) : Int × BitVec 6 :=
  if e < lo then (lo, flagOF) else if hi < e then (hi, flagOF) else (e, 0)

/-- An integer clamped to w bits, signed or unsigned, as an element. -/
def clampElem (w : Nat) (signed : Bool) (e : Int) : Nat × BitVec 6 :=
  let r := if signed then clampTo (-2 ^ (w - 1)) (2 ^ (w - 1) - 1) e else clampTo 0 (2 ^ w - 1) e
  (wrapTo w r.1, r.2)

/-! NOP and CONST. -/

/-- NOP (R271): no effect. -/
def execNop (c : Ctl) (ops : List Opnd) (s : State) : Host.Outcome State Fault Refusal :=
  onPath s fun x => x.commit (.nop c ops) [] 0

/-- CONST (R272): the operand in each active lane. -/
def execConst (c : Ctl) (t : Ty) (ops : List Opnd) (s : State) : Host.Outcome State Fault Refusal :=
  onPath s fun x => x.lanewise (.const c t ops) fun _ _ vs => .done [argOf vs 0] 0

/-! Integer arithmetic. -/

/-- A lane of IADD or ISUB (R273). -/
def addLane (sub : Bool) (m : AddMode) (t : Ty) (vs : List Val) : LaneOut :=
  let w := elemWidth t
  let op : Int → Int → Int := fun a b => if sub then a - b else a + b
  match m with
  | .wrap => onElems t fun j => (wrapTo w (op (elemOf w (numOf vs 0) j) (elemOf w (numOf vs 1) j)), 0)
  | .ss => onElems t fun j =>
      clampElem w true (op (signedOf w (elemOf w (numOf vs 0) j)) (signedOf w (elemOf w (numOf vs 1) j)))
  | .us => onElems t fun j => clampElem w false (op (elemOf w (numOf vs 0) j) (elemOf w (numOf vs 1) j))
  | .cy =>
      let e := op (op (numOf vs 0) (numOf vs 1)) (if (argOf vs 2).isTrue then 1 else 0)
      .done [ofTy t (wrapTo w e), .ofBool (decide (e < 0) || decide (2 ^ w ≤ e))] 0

/-- IADD (R273). -/
def execIadd (c : Ctl) (m : AddMode) (t : Ty) (ops : List Opnd) (s : State) : Host.Outcome State Fault Refusal :=
  onPath s fun x => x.lanewise (.iadd c m t ops) fun _ _ vs => addLane false m t vs

/-- ISUB (R273). -/
def execIsub (c : Ctl) (m : AddMode) (t : Ty) (ops : List Opnd) (s : State) : Host.Outcome State Fault Refusal :=
  onPath s fun x => x.lanewise (.isub c m t ops) fun _ _ vs => addLane true m t vs

/-- A lane of IMUL (R274). -/
def mulLane (m : MulMode) (t : Ty) (vs : List Val) : LaneOut :=
  let w := elemWidth t
  let a : Nat → Nat := fun j => elemOf w (numOf vs 0) j
  let b : Nat → Nat := fun j => elemOf w (numOf vs 1) j
  match m with
  | .lo => onElems t fun j => (a j * b j % 2 ^ w, 0)
  | .hs => onElems t fun j => (wrapTo w (signedOf w (a j) * signedOf w (b j) / 2 ^ w), 0)
  | .hu => onElems t fun j => (a j * b j / 2 ^ w, 0)
  | .ss => onElems t fun j => clampElem w true (signedOf w (a j) * signedOf w (b j))

/-- IMUL (R274). -/
def execImul (c : Ctl) (m : MulMode) (t : Ty) (ops : List Opnd) (s : State) : Host.Outcome State Fault Refusal :=
  onPath s fun x => x.lanewise (.imul c m t ops) fun _ _ vs => mulLane m t vs

/-- A lane of IMAD (R275). -/
def madLane (m : MadMode) (t : Ty) (vs : List Val) : LaneOut :=
  let w := t.width
  let sg : Nat → Int := fun k => signedOf w (numOf vs k)
  match m with
  | .wrap => .done [ofTy t ((numOf vs 0 * numOf vs 1 + numOf vs 2) % 2 ^ w)] 0
  | .ss => let r := clampElem w true (sg 0 * sg 1 + sg 2); .done [ofTy t r.1] r.2
  | .us =>
      let r := clampElem w false ((numOf vs 0 * numOf vs 1 + numOf vs 2 : Nat) : Int)
      .done [ofTy t r.1] r.2

/-- IMAD (R275). -/
def execImad (c : Ctl) (m : MadMode) (t : Ty) (ops : List Opnd) (s : State) : Host.Outcome State Fault Refusal :=
  onPath s fun x => x.lanewise (.imad c m t ops) fun _ _ vs => madLane m t vs

/-- A lane of IDIV (R276): quotient and remainder; a zero divisor traps under the DZ enable and sets DZ otherwise. -/
def divLane (dz signed : Bool) (t : Ty) (vs : List Val) : LaneOut :=
  let w := t.width
  let a := numOf vs 0
  let b := numOf vs 1
  if b = 0 then
    if dz then .trap 0 5 else .done [ofTy t (2 ^ w - 1), ofTy t a] flagDZ
  else if signed then
    let x := signedOf w a
    let y := signedOf w b
    .done [ofTy t (wrapTo w (x.tdiv y)), ofTy t (wrapTo w (x - x.tdiv y * y))] 0
  else .done [ofTy t (a / b), ofTy t (a % b)] 0

/-- IDIV (R276). -/
def execIdiv (c : Ctl) (signed : Bool) (t : Ty) (ops : List Opnd) (s : State) : Host.Outcome State Fault Refusal :=
  onPath s fun x => x.lanewise (.idiv c signed t ops) fun _ _ vs =>
    divLane ((modeEn x.p.mode &&& flagDZ) != 0) signed t vs

/-- The lesser or greater of two elements by a kind (R277). -/
def minMaxElem (k : MinMax) (w a b : Nat) : Nat :=
  match k with
  | .smin => if signedOf w b < signedOf w a then b else a
  | .smax => if signedOf w a < signedOf w b then b else a
  | .umin => if b < a then b else a
  | .umax => if a < b then b else a

/-- A lane of IMINMAX (R277). -/
def minMaxLane (k : MinMax) (t : Ty) (vs : List Val) : LaneOut :=
  let w := elemWidth t
  onElems t fun j => (minMaxElem k w (elemOf w (numOf vs 0) j) (elemOf w (numOf vs 1) j), 0)

/-- IMINMAX (R277). -/
def execIminmax (c : Ctl) (k : MinMax) (t : Ty) (ops : List Opnd) (s : State) : Host.Outcome State Fault Refusal :=
  onPath s fun x => x.lanewise (.iminmax c k t ops) fun _ _ vs => minMaxLane k t vs

/-! Logic, shifts and bit fields. -/

/-- The function of three operands that a table gives, bit by bit (R278). -/
def table3 (table a b c : BitVec 64) : BitVec 64 :=
  let pick : Nat → BitVec 64 := fun n =>
    if table.getLsbD n then
      (if n % 2 = 1 then a else ~~~a) &&& (if n / 2 % 2 = 1 then b else ~~~b) &&& (if n / 4 = 1 then c else ~~~c)
    else 0
  (List.range 8).foldl (fun r n => r ||| pick n) 0

/-- The bits of a LOGIC kind (R278). -/
def logicBits (k : LogicKind) (vs : List Val) : BitVec 64 :=
  let a := (argOf vs 0).toBits
  let b := (argOf vs 1).toBits
  match k with
  | .and => a &&& b
  | .or => a ||| b
  | .xor => a ^^^ b
  | .andn => a &&& ~~~b
  | .not => ~~~a
  | .tbl3 => table3 (argOf vs 3).toBits a b (argOf vs 2).toBits

/-- A lane of LOGIC (R278). -/
def logicLane (k : LogicKind) (t : Ty) (vs : List Val) : LaneOut := .done [ofTy t (logicBits k vs).toNat] 0

/-- LOGIC (R278). -/
def execLogic (c : Ctl) (k : LogicKind) (ops : List Opnd) (s : State) : Host.Outcome State Fault Refusal :=
  onPath s fun x => x.lanewise (.logic c k ops) fun _ _ vs => logicLane k (x.opTy (.logic c k ops) 0) vs

/-- An element shifted (R279). -/
def shiftElem (k : ShiftKind) (w a n : Nat) : Nat :=
  match k with
  | .shl => if w ≤ n then 0 else a * 2 ^ n % 2 ^ w
  | .shr => if w ≤ n then 0 else a / 2 ^ n
  | .sar => wrapTo w (signedOf w a / 2 ^ (min n w))
  | .rol => (a * 2 ^ (n % w) + a / 2 ^ (w - n % w)) % 2 ^ w
  | .ror => (a / 2 ^ (n % w) + a * 2 ^ (w - n % w)) % 2 ^ w

/-- A lane of SHIFT (R279). -/
def shiftLane (k : ShiftKind) (t : Ty) (vs : List Val) : LaneOut :=
  let w := elemWidth t
  onElems t fun j => (shiftElem k w (elemOf w (numOf vs 0) j) (numOf vs 1), 0)

/-- SHIFT (R279). -/
def execShift (c : Ctl) (k : ShiftKind) (ops : List Opnd) (s : State) : Host.Outcome State Fault Refusal :=
  onPath s fun x => x.lanewise (.shift c k ops) fun _ _ vs => shiftLane k (x.opTy (.shift c k ops) 0) vs

/-- The one bits among the low w bits of a number. -/
def popCount : Nat → Nat → Nat
  | 0, _ => 0
  | w + 1, v => v % 2 + popCount w (v / 2)

/-- The leading zeros of w bits (R280). -/
def leadZeros (w v : Nat) : Nat := if v % 2 ^ w = 0 then w else w - 1 - Nat.log2 (v % 2 ^ w)

/-- The trailing zeros of w bits (R280). -/
def trailZeros : Nat → Nat → Nat
  | 0, _ => 0
  | w + 1, v => if v % 2 = 1 then 0 else 1 + trailZeros w (v / 2)

/-- The low w bits in reverse (R280). -/
def bitReverse (w v : Nat) : Nat := ofElems 1 ((List.range w).map fun i => v / 2 ^ (w - 1 - i) % 2)

/-- A field of w bits from pos of length len (R280): where it ends. -/
def fieldEnd (w pos len : Nat) : Nat := min (pos + len) w

/-- A lane of BITS (R280); `t` is the type of a. -/
def bitsLane (k : BitsKind) (t : Ty) (vs : List Val) : LaneOut :=
  let w := t.width
  let a := numOf vs 0
  match k with
  | .popc => .done [ofTy .i32 (popCount w a)] 0
  | .clz => .done [ofTy .i32 (leadZeros w a)] 0
  | .ctz => .done [ofTy .i32 (trailZeros w a)] 0
  | .brev => .done [ofTy t (bitReverse w a)] 0
  | .extz =>
      let pos := numOf vs 1
      let e := fieldEnd w pos (numOf vs 2)
      .done [ofTy t (if e ≤ pos then 0 else a / 2 ^ pos % 2 ^ (e - pos))] 0
  | .exts =>
      let pos := numOf vs 1
      let e := fieldEnd w pos (numOf vs 2)
      .done [ofTy t (if e ≤ pos then 0 else wrapTo w (signedOf (e - pos) (a / 2 ^ pos)))] 0
  | .ins =>
      let pos := numOf vs 2
      let e := fieldEnd w pos (numOf vs 3)
      .done [ofTy t (if e ≤ pos then a
        else a % 2 ^ pos + numOf vs 1 % 2 ^ (e - pos) * 2 ^ pos + a / 2 ^ e * 2 ^ e)] 0

/-- BITS (R280). -/
def execBits (c : Ctl) (k : BitsKind) (ops : List Opnd) (s : State) : Host.Outcome State Fault Refusal :=
  onPath s fun x => x.lanewise (.bits c k ops) fun _ _ vs => bitsLane k (x.opTy (.bits c k ops) 0) vs

/-- The carry-less product of the low w bits of two numbers (R281). -/
def clmulOf (w a b : Nat) : Nat :=
  (List.range w).foldl (fun p i => if b / 2 ^ i % 2 = 1 then Nat.xor p (a * 2 ^ i) else p) 0

/-- A lane of CLMUL (R281). -/
def clmulLane (hi wide : Bool) (vs : List Val) : LaneOut :=
  let t : Ty := if wide then .i64 else .i32
  let p := clmulOf t.width (numOf vs 0) (numOf vs 1)
  .done [ofTy t (if hi then p / 2 ^ t.width else p)] 0

/-- CLMUL (R281). -/
def execClmul (c : Ctl) (hi wide : Bool) (ops : List Opnd) (s : State) : Host.Outcome State Fault Refusal :=
  onPath s fun x => x.lanewise (.clmul c hi wide ops) fun _ _ vs => clmulLane hi wide vs

/-! Compares, predicates and select. -/

/-- An integer condition on w bits (R282). -/
def intCond (k : IntCond) (w a b : Nat) : Bool :=
  match k with
  | .eq => a == b
  | .ne => a != b
  | .slt => decide (signedOf w a < signedOf w b)
  | .sle => decide (signedOf w a ≤ signedOf w b)
  | .sgt => decide (signedOf w b < signedOf w a)
  | .sge => decide (signedOf w b ≤ signedOf w a)
  | .ult => decide (a < b)
  | .ule => decide (a ≤ b)
  | .ugt => decide (b < a)
  | .uge => decide (b ≤ a)

/-- ICMP (R282). -/
def execIcmp (c : Ctl) (k : IntCond) (t : Ty) (ops : List Opnd) (s : State) : Host.Outcome State Fault Refusal :=
  onPath s fun x => x.lanewise (.icmp c k t ops) fun _ _ vs =>
    .done [.ofBool (intCond k t.width (numOf vs 0) (numOf vs 1))] 0

/-- PLOGIC (R283). -/
def execPlogic (c : Ctl) (k : LogicKind) (ops : List Opnd) (s : State) : Host.Outcome State Fault Refusal :=
  onPath s fun x => x.lanewise (.plogic c k ops) fun _ _ vs => logicLane k .b1 vs

/-- Does a lane of SEL read poison: in its condition, or in the operand that the condition selects (R237, R284)? The other
operand is not read in that lane (assumption log 10). -/
def selPoison (x : Exe) (q : Plan) (l : Nat) : Bool :=
  match x.reads q l with
  | [c, a, b] => c.2 || (if c.1.isTrue then a.2 else b.2)
  | _ => false

/-- SEL (R284). -/
def execSel (c : Ctl) (t : Ty) (ops : List Opnd) (s : State) : Host.Outcome State Fault Refusal :=
  onPath s fun x => x.obey (.sel c t ops) <| x.judgeWith (.sel c t ops) (selPoison x (x.plan (.sel c t ops))) fun _ _ vs =>
    .done [if (argOf vs 0).isTrue then argOf vs 1 else argOf vs 2] 0

/-! Addresses and integer conversion. -/

/-- A lane of ADDR (R285). -/
def addrLane (k : AddrKind) (vs : List Val) : LaneOut :=
  let n := numOf vs
  match k with
  | .sx => .done [ofTy .i64 (wrapTo 64 (n 0 + signedOf 32 (n 1) * n 2 + n 3))] 0
  | .zx | .i64 => .done [ofTy .i64 (n 0 + n 1 * n 2 + n 3)] 0
  | .sp => .done [ofTy .i32 (n 0 + n 1 * n 2 + n 3)] 0
  | .gw => .done [ofTy .i32 (0x01000000 + n 0 * 0x00100000 + n 1)] 0

/-- ADDR (R285). -/
def execAddr (c : Ctl) (k : AddrKind) (ops : List Opnd) (s : State) : Host.Outcome State Fault Refusal :=
  onPath s fun x => x.lanewise (.addr c k ops) fun _ _ vs => addrLane k vs

/-- A lane of CVTI (R286); `t` is the source type, a packed source read as an i32. -/
def cvtiLane (k : CvtiKind) (t : Ty) (vs : List Val) : LaneOut :=
  let w := t.width
  let v := numOf vs 0
  match k with
  | .zx d => .done [ofTy d v] 0
  | .sx d => .done [ofTy d (wrapTo d.width (signedOf w v))] 0
  | .ss d => let r := clampElem d.width true (signedOf w v); .done [ofTy d r.1] r.2
  | .uu d => let r := clampElem d.width false v; .done [ofTy d r.1] r.2
  | .toB1 => .done [.ofBool (v != 0)] 0
  | .fromB d => .done [ofTy d (if (argOf vs 0).isTrue then 1 else 0)] 0
  | .p8x4 => .done [ofTy .p8x4 v] 0
  | .p16x2 => .done [ofTy .p16x2 v] 0

/-- CVTI (R286). -/
def execCvti (c : Ctl) (k : CvtiKind) (ops : List Opnd) (s : State) : Host.Outcome State Fault Refusal :=
  onPath s fun x => x.lanewise (.cvti c k ops) fun _ _ vs => cvtiLane k (x.opTy (.cvti c k ops) 0) vs

end Sys2Proof.Machine
end

