-- ==== Sys2Proof/Machine/Vector.lean ====
section
/-! DEFINITION. Floating-point, conversion and cross-lane instructions (R303 to R325): what a lane computes, and the step
of each. -/

namespace Sys2Proof.Machine

/-! Operands and results (R303). -/

/-- What a rounding reads of a mode word; `z` is the generator's word. -/
def roundingOf (m : BitVec 64) (z : Nat) : Rounding := ⟨modeRM m, modeSat m, modeFlushRes m, modeNanm m, z⟩

/-- The rounding of a lane's result: under STO the generator runs on the seed, the grid lane index, the result's value id
and STEP (R234). -/
def Exe.rounding (x : Exe) (l : Nat) : Rounding :=
  let m := x.p.mode
  roundingOf m <|
    if modeRM m = 5 then
      (generator x.launch.seed (BitVec.ofNat 64 (x.gridLane l)) (BitVec.ofNat 64 (x.tr.baseAt x.p.pc))
        ((modeStep m).setWidth 64)).toNat
    else 0

/-- The value of an operand of a floating type, flushed where DEN says so. -/
def fpIn (t : Ty) (m : BitVec 64) (v : Nat) : Num := (fmtOf t).value (modeFlushIn m) v

/-- A result of a floating type through Convert, with the flags of the operation. -/
def fpOut (t : Ty) (r : Rounding) (n : Num × BitVec 6) : LaneOut :=
  let c := (fmtOf t).convert r n.1
  .done [ofTy t c.1] (n.2 ||| c.2)

/-- The word of an operand, a subnormal replaced by its zero where DEN flushes inputs. -/
def flushed (t : Ty) (m : BitVec 64) (v : Nat) : Nat :=
  let f := fmtOf t
  if modeFlushIn m ∧ v / 2 ^ f.mbits % 2 ^ f.ebits = 0 then v / 2 ^ (f.ebits + f.mbits) * 2 ^ (f.ebits + f.mbits) else v

/-- The step of an instruction that rounds once: `f` gives the exact result from the mode's RM and the operands. -/
def Exe.arith (x : Exe) (i : Instr) (t : Ty) (f : Nat → List Num → Num × BitVec 6) : State :=
  x.lanewise i fun _ l vs =>
    fpOut t (x.rounding l) (f (modeRM x.p.mode) (vs.map fun v => fpIn t x.p.mode v.num))

/-- Operand k of a list of values. -/
def numAt (vs : List Num) (k : Nat) : Num := vs.getD k (.zero false)

/-! Arithmetic. -/

/-- FADD (R305). -/
def execFadd (c : Ctl) (sub : Bool) (t : Ty) (ops : List Opnd) (s : State) : Host.Outcome State Fault Refusal :=
  onPath s fun x => x.arith (.fadd c sub t ops) t fun rm vs =>
    Num.add rm (numAt vs 0) (if sub then (numAt vs 1).opp else numAt vs 1)

/-- FMUL (R305). -/
def execFmul (c : Ctl) (t : Ty) (ops : List Opnd) (s : State) : Host.Outcome State Fault Refusal :=
  onPath s fun x => x.arith (.fmul c t ops) t fun _ vs => Num.mul (numAt vs 0) (numAt vs 1)

/-- FFMA (R305). -/
def execFfma (c : Ctl) (ms : Bool) (t : Ty) (ops : List Opnd) (s : State) : Host.Outcome State Fault Refusal :=
  onPath s fun x => x.arith (.ffma c ms t ops) t fun rm vs =>
    Num.fma rm (numAt vs 0) (numAt vs 1) (if ms then (numAt vs 2).opp else numAt vs 2)

/-- FDIV (R310). -/
def execFdiv (c : Ctl) (t : Ty) (ops : List Opnd) (s : State) : Host.Outcome State Fault Refusal :=
  onPath s fun x => x.arith (.fdiv c t ops) t fun _ vs => Num.div (numAt vs 0) (numAt vs 1)

/-- FSQRT (R310). -/
def execFsqrt (c : Ctl) (t : Ty) (ops : List Opnd) (s : State) : Host.Outcome State Fault Refusal :=
  onPath s fun x => x.arith (.fsqrt c t ops) t fun _ vs => Num.sqrt (numAt vs 0)

/-- The NaN result among two operand values, the first NaN of them (R228). -/
def nanOf (t : Ty) (m : BitVec 64) (xs : List Num) : Nat :=
  match firstNan xs with
  | some (.nan neg w man) => (fmtOf t).nanWord (modeNanm m) neg w man
  | _ => (fmtOf t).nanWord false false 0 0

/-- A FMINMAX result word (R306): no rounding, no flag. -/
def fminmaxWord (k : FMinMax) (t : Ty) (m : BitVec 64) (a b : Nat) : Nat :=
  let x := fpIn t m a
  let y := fpIn t m b
  let least := if y.below x then b else a
  let most := if x.below y then b else a
  match k with
  | .min => if x.isNan || y.isNan then nanOf t m [x, y] else flushed t m least
  | .max => if x.isNan || y.isNan then nanOf t m [x, y] else flushed t m most
  | .minnum =>
      if x.isNan && y.isNan then nanOf t m [x, y]
      else flushed t m (if x.isNan then b else if y.isNan then a else least)
  | .maxnum =>
      if x.isNan && y.isNan then nanOf t m [x, y]
      else flushed t m (if x.isNan then b else if y.isNan then a else most)

/-- FMINMAX (R306). -/
def execFminmax (c : Ctl) (k : FMinMax) (t : Ty) (ops : List Opnd) (s : State) : Host.Outcome State Fault Refusal :=
  onPath s fun x => x.lanewise (.fminmax c k t ops) fun _ _ vs =>
    .done [ofTy t (fminmaxWord k t x.p.mode (numOf vs 0) (numOf vs 1))] 0

/-- A FSIGN result word (R307). -/
def fsignWord (k : FSignKind) (t : Ty) (a b : Nat) : Nat :=
  let top := 2 ^ (t.width - 1)
  let body := a % top
  let sa := a / top % 2
  let sb := b / top % 2
  match k with
  | .abs => body
  | .neg => body + (1 - sa) * top
  | .copysign => body + sb * top
  | .xorsign => body + (sa + sb) % 2 * top

/-- FSIGN (R307). -/
def execFsign (c : Ctl) (k : FSignKind) (t : Ty) (ops : List Opnd) (s : State) : Host.Outcome State Fault Refusal :=
  onPath s fun x => x.lanewise (.fsign c k t ops) fun _ _ vs => .done [ofTy t (fsignWord k t (numOf vs 0) (numOf vs 1))] 0

/-- A floating condition and whether it is an invalid operation (R308). -/
def fcmpOf (k : FCond) (a b : Num) : Bool × BitVec 6 :=
  let uno := a.isNan || b.isNan
  match k with
  | .eq => (!uno && a.same b, 0)
  | .ne => (uno || !a.same b, 0)
  | .lt => (!uno && a.lt b, flagIf uno flagNV)
  | .le => (!uno && !b.lt a, flagIf uno flagNV)
  | .gt => (!uno && b.lt a, flagIf uno flagNV)
  | .ge => (!uno && !a.lt b, flagIf uno flagNV)
  | .ord => (!uno, 0)
  | .uno => (uno, 0)

/-- FCMP (R308). -/
def execFcmp (c : Ctl) (k : FCond) (t : Ty) (ops : List Opnd) (s : State) : Host.Outcome State Fault Refusal :=
  onPath s fun x => x.lanewise (.fcmp c k t ops) fun _ _ vs =>
    let r := fcmpOf k (fpIn t x.p.mode (numOf vs 0)) (fpIn t x.p.mode (numOf vs 1))
    .done [.ofBool r.1] r.2

/-- The bit of an encoding's class (R309). -/
def fclassBit (f : FpFmt) (v : Nat) : Nat :=
  match f.value false v with
  | .nan .. => 8
  | .inf neg => if neg then 0 else 7
  | .fin neg m _ _ =>
      if m = 0 then (if neg then 3 else 4)
      else if m < 2 ^ f.mbits then (if neg then 2 else 5)
      else if neg then 1 else 6

/-- FCLASS (R309): the raw encoding. -/
def execFclass (c : Ctl) (t : Ty) (ops : List Opnd) (s : State) : Host.Outcome State Fault Refusal :=
  onPath s fun x => x.lanewise (.fclass c t ops) fun _ _ vs => .done [ofTy .i32 (2 ^ fclassBit (fmtOf t) (numOf vs 0))] 0

/-! Special functions (R311). -/

/-- Is a finite value an integer? -/
def Num.isInt : Num → Bool
  | .fin _ m e _ => decide (0 ≤ e) || m % 2 ^ (-e).toNat == 0
  | .nan .. | .inf _ => false

/-- The value one. -/
def Num.one (neg : Bool) : Num := .fin neg 1 0 false

/-- Is a finite value an integer and a half? -/
def Num.isHalf (a : Num) : Bool :=
  match a with
  | .fin neg m e s => (Num.fin neg m (e + 1) s).isInt && !a.isInt
  | .nan .. | .inf _ => false

/-- The exact special results of R311, with their flags, for a value that is not NaN. -/
def sfuSpecial (k : SfuKind) (a : Num) : Option (Num × BitVec 6) :=
  let below := a.neg && !a.isZero
  match k with
  | .rcp => if a.isZero then some (.inf a.neg, flagDZ) else if a.isInf then some (.zero a.neg, 0) else none
  | .rsq =>
      if a.isZero then some (.inf a.neg, flagDZ)
      else if below then some (.nanNew, flagNV)
      else if a.isInf then some (.zero false, 0) else none
  | .lg2 =>
      if a.isZero then some (.inf true, flagDZ)
      else if below then some (.nanNew, flagNV)
      else if a.isInf then some (a, 0)
      else if a.same (.one false) then some (.zero false, 0) else none
  | .ex2 =>
      if a.isZero then some (.one false, 0) else if a.isInf then some (if a.neg then .zero false else a, 0) else none
  | .sinpi => if a.isInf then some (.nanNew, flagNV) else if a.isInt then some (.zero a.neg, 0) else none
  | .cospi => if a.isInf then some (.nanNew, flagNV) else if a.isHalf then some (.zero false, 0) else none
  | .tanh => if a.isZero then some (a, 0) else if a.isInf then some (.one a.neg, 0) else none
  | .sigm => if a.isInf then some (if a.neg then .zero false else .one false, 0) else none

/-- A lane of SFU (R311): the f32 approximation is a free value within its error bound (assumption log 6); f16 and bf16
results are rounded from it by RNE. Beyond the special results every result sets NX, and UF where it is tiny. -/
def sfuLane (k : SfuKind) (t : Ty) (m : BitVec 64) (v : Nat) : LaneOut :=
  let a := fpIn t m v
  let r : Rounding := { roundingOf m 0 with rm := 0 }
  if a.isNan then .done [ofTy t (nanOf t m [a])] 0
  else
    match sfuSpecial k a with
    | some (y, f) => .done [ofTy t ((fmtOf t).convert { r with sat := false } y).1] f
    | none =>
        let y := match a with
          | .fin neg m e _ => sfuApprox k neg m e
          | .inf _ | .nan .. => a
        let w := (fmtOf t).convert r y
        let tiny := w.1 / 2 ^ (fmtOf t).mbits % 2 ^ (fmtOf t).ebits == 0 && w.1 % 2 ^ (fmtOf t).mbits != 0
        .done [ofTy t w.1] (w.2 ||| flagNX ||| flagIf y.isInf flagOF ||| flagIf tiny flagUF)

/-- SFU (R311). -/
def execSfu (c : Ctl) (k : SfuKind) (t : Ty) (ops : List Opnd) (s : State) : Host.Outcome State Fault Refusal :=
  onPath s fun x => x.lanewise (.sfu c k t ops) fun _ _ vs => sfuLane k t x.p.mode (numOf vs 0)

/-! Conversion (R313, R314). -/

/-- The value of a narrow encoding in an i8 container (R313). -/
def narrowIn (n : Narrow) (m : BitVec 64) (v : Nat) : Num := (fmtNarrow n).value (modeFlushIn m) v

/-- What a conversion rounds by: Convert takes effect only where the target does not hold every value of the source (R232), so
an infinity that is widened, or kept in its own type, is not saturated. -/
def Rounding.into (r : Rounding) (d s : FpFmt) : Rounding := if d.holds s then { r with sat := false } else r

/-- A lane of CVTF (R313); `t` is the type of the source. -/
def cvtfLane (k : CvtfKind) (t : Ty) (m : BitVec 64) (r : Rounding) (v : Nat) : LaneOut :=
  let a := fpIn t m v
  let out : Ty → Nat × BitVec 6 → LaneOut := fun d w => .done [ofTy d w.1] w.2
  match k with
  | .toF d => fpOut d (r.into (fmtOf d) (fmtOf t)) (a, 0)
  | .e8m10 => out .f32 (fmtE8M10.convert (r.into fmtE8M10 (fmtOf t)) a)
  | .toNarrow n => out .i8 ((fmtNarrow n).convert r a)
  | .fromNarrow n => fpOut .f32 (r.into (fmtOf .f32) (fmtNarrow n)) (narrowIn n m v, 0)
  | .s32 => out .i32 (convertInt 32 true r a)
  | .u32 => out .i32 (convertInt 32 false r a)
  | .s64 => out .i64 (convertInt 64 true r a)
  | .u64 => out .i64 (convertInt 64 false r a)
  | .s8 => out .i8 (convertInt 8 true r a)
  | .s4 => out .i8 (convertInt 4 true r a)
  | .sToF d => fpOut d r (.ofInt t.width true v, 0)
  | .uToF d => fpOut d r (.ofInt t.width false v, 0)
  | .bitsF => .done [ofTy (match t with | .i16 => .f16 | .i64 => .f64 | _ => .f32) v] 0
  | .bitsBf16 => .done [ofTy .bf16 v] 0
  | .bitsI => .done [ofTy (match t with | .f16 | .bf16 => .i16 | .f64 => .i64 | _ => .i32) v] 0

/-- CVTF (R313). -/
def execCvtf (c : Ctl) (k : CvtfKind) (ops : List Opnd) (s : State) : Host.Outcome State Fault Refusal :=
  onPath s fun x => x.lanewise (.cvtf c k ops) fun _ l vs =>
    cvtfLane k (x.opTy (.cvtf c k ops) 0) x.p.mode (x.rounding l) (numOf vs 0)

/-- The elements of a converting PACK, each through Convert on its own (R314). -/
def packWith (f : FpFmt) (d : Ty) (m : BitVec 64) (r : Rounding) (vs : List Val) : LaneOut :=
  let es := vs.map fun v => f.convert r (fpIn .f32 m v.num)
  .done [ofTy d (ofElems (elemWidth d) (es.map Prod.fst))] (es.foldl (fun a e => a ||| e.2) 0)

/-- A lane of PACK (R314); `t` is the type of the first operand. -/
def packLane (k : PackKind) (t : Ty) (m : BitVec 64) (r : Rounding) (vs : List Val) : LaneOut :=
  match k with
  | .i16x2 => .done [ofTy .p16x2 (ofElems 16 (vs.map Val.num))] 0
  | .i8x4 => .done [ofTy .p8x4 (ofElems 8 (vs.map Val.num))] 0
  | .e4m3x4 => packWith fmtE4M3 .p8x4 m r vs
  | .e5m2x4 => packWith fmtE5M2 .p8x4 m r vs
  | .bf16x2 => packWith fmtBF16 .p16x2 m r vs
  | .f16x2 => packWith fmtF16 .p16x2 m r vs
  | .ext =>
      let w := elemWidth t
      .done [ofTy (if w = 8 then .i8 else .i16) (elemOf w (numOf vs 0) (numOf vs 1))] 0

/-- PACK (R314). -/
def execPack (c : Ctl) (k : PackKind) (ops : List Opnd) (s : State) : Host.Outcome State Fault Refusal :=
  onPath s fun x => x.lanewise (.pack c k ops) fun _ l vs =>
    packLane k (x.opTy (.pack c k ops) 0) x.p.mode (x.rounding l) vs

/-! Dot products (R315). -/

/-- The integer dot product: c + Σ a_j × b_j modulo 2^32. -/
def dotInt (sa sb : Bool) (vs : List Val) : Nat :=
  let e : Bool → Nat → Nat → Int := fun sg v j => if sg then signedOf 8 (elemOf 8 v j) else elemOf 8 v j
  wrapTo 32 ((List.range 4).foldl (fun (acc : Int) j => acc + e sa (numOf vs 0) j * e sb (numOf vs 1) j) (numOf vs 2 : Int))

/-- The floating dot product: the exact sum of two products and c, with the first NaN among the operands' elements. -/
def dotSum (f : FpFmt) (m : BitVec 64) (vs : List Val) : Num × BitVec 6 :=
  let a := fun j => f.value (modeFlushIn m) (elemOf 16 (numOf vs 0) j)
  let b := fun j => f.value (modeFlushIn m) (elemOf 16 (numOf vs 1) j)
  let c := fpIn .f32 m (numOf vs 2)
  let p := Num.mul (a 0) (b 0)
  let q := Num.mul (a 1) (b 1)
  let s := sumTerms (modeRM m) [p.1, q.1, c]
  ((firstNan [a 0, a 1, b 0, b 1, c]).getD s.1, p.2 ||| q.2 ||| s.2)

/-- DOT (R315). -/
def execDot (c : Ctl) (k : DotKind) (ops : List Opnd) (s : State) : Host.Outcome State Fault Refusal :=
  onPath s fun x => x.lanewise (.dot c k ops) fun _ l vs =>
    let float := fun f => fpOut .f32 (x.rounding l) (dotSum f x.p.mode vs)
    match k with
    | .ss => .done [ofTy .i32 (dotInt true true vs)] 0
    | .su => .done [ofTy .i32 (dotInt true false vs)] 0
    | .us => .done [ofTy .i32 (dotInt false true vs)] 0
    | .uu => .done [ofTy .i32 (dotInt false false vs)] 0
    | .f16x2 => float fmtF16
    | .bf16x2 => float fmtBF16

/-! Cross-lane instructions (R316 to R322). -/

/-- The lane from which lane l takes a value in a segment of w lanes (R317), if there is one. -/
def shflSource (k : ShflKind) (w l n : Nat) : Option Nat :=
  let base := l / w * w
  match k with
  | .idx => some (base + n % w)
  | .up => if n < w ∧ base + n ≤ l then some (l - n) else none
  | .down => if n < w ∧ l + n < base + w then some (l + n) else none
  | .xor => some (Nat.xor l (n % w))

/-- A lane of SHFL (R317): the value of the source lane, or its own, and whether the source was active. -/
def shflLane (k : ShflKind) (w : Nat) (all : List (Nat × List Val)) (l : Nat) (vs : List Val) : LaneOut :=
  match (shflSource k w l (numOf vs 1)).bind (mget all) with
  | some ws => .done [argOf ws 0, .ofBool true] 0
  | none => .done [argOf vs 0, .ofBool false] 0

/-- SHFL (R317): the segment width is its third operand, or WIDTH. -/
def execShfl (c : Ctl) (k : ShflKind) (ops : List Opnd) (s : State) : Host.Outcome State Fault Refusal :=
  onPath s fun x =>
    let i := Instr.shfl c k ops
    let w := if (x.plan i).own.length = 3 then numOf (x.onceVals i) 2 else x.g.width
    x.lanewise i (shflLane k w)

/-- The mask of the active lanes in which the first operand is true. -/
def trueLanes (all : List (Nat × List Val)) : LaneMask :=
  maskOf ((all.filter fun q => (argOf q.2 0).isTrue).map Prod.fst)

/-- The result of VOTE over the active lanes (R318). -/
def voteOf (k : VoteKind) (all : List (Nat × List Val)) : Val :=
  let m := trueLanes all
  let act := maskOf (all.map Prod.fst)
  match k with
  | .all => .ofBool (m == act)
  | .any => .ofBool (m != 0)
  | .mask => .bits m
  | .eq => .ofBool (m == act || m == 0)
  | .count => ofTy .i32 (maskCount m)

/-- VOTE (R318): a poison predicate reads as false, the poison bits of b1. -/
def execVote (c : Ctl) (k : VoteKind) (ops : List Opnd) (s : State) : Host.Outcome State Fault Refusal :=
  onPath s fun x => x.lanewise (.vote c k ops) fun all _ _ => .done [voteOf k all] 0

/-- VOTE_LEVEL (R222, R318): LADDER_TRAPPED in every lane of the path, whatever its guard. -/
def execVoteLevel (c : Ctl) (ops : List Opnd) (s : State) : Host.Outcome State Fault Refusal :=
  onPath s fun x => x.trap (.voteLevel c ops) 0x0E x.lanes 0

/-- The infinity of a floating type. -/
def infOf (t : Ty) (neg : Bool) : Nat := (fmtOf t).infWord neg

/-- The identity of a SCAN kind (R319). -/
def scanIdentity (k : ScanKind) (t : Ty) : Nat :=
  let w := t.width
  match k with
  | .add | .umax | .or | .xor => 0
  | .smin => if t.isFloat then infOf t false else 2 ^ (w - 1) - 1
  | .smax => if t.isFloat then infOf t true else 2 ^ (w - 1)
  | .umin | .and => 2 ^ w - 1

/-- One combining step (R319): the word and its flags. -/
def combine (k : ScanKind) (t : Ty) (m : BitVec 64) (r : Rounding) (a b : Nat) : Nat × BitVec 6 :=
  let w := t.width
  match k with
  | .add =>
      if t.isFloat then
        let e := Num.add (modeRM m) (fpIn t m a) (fpIn t m b)
        let v := (fmtOf t).convert r e.1
        (v.1, e.2 ||| v.2)
      else ((a + b) % 2 ^ w, 0)
  | .smin => (if t.isFloat then fminmaxWord .min t m a b else minMaxElem .smin w a b, 0)
  | .smax => (if t.isFloat then fminmaxWord .max t m a b else minMaxElem .smax w a b, 0)
  | .umin => (minMaxElem .umin w a b, 0)
  | .umax => (minMaxElem .umax w a b, 0)
  | .and => (Nat.land a b, 0)
  | .or => (Nat.lor a b, 0)
  | .xor => (Nat.xor a b, 0)

/-- A scan under way: the running value, and each lane's result with the flags of the step its value entered. -/
structure Scan where
  acc : Option Nat
  out : List (Nat × Nat × BitVec 6)
  deriving DecidableEq, Repr

/-- The scan after a lane, in ascending order (R319). -/
def scanStep (k : ScanKind) (ex : Bool) (t : Ty) (m : BitVec 64) (r : Nat → Rounding) (vals : List (Nat × List Val))
    (sc : Scan) (l : Nat) : Scan :=
  let held := sc.acc.getD (scanIdentity k t)
  match mget vals l with
  | none => { sc with out := sc.out ++ [(l, held, 0)] }
  | some vs =>
      let e : Nat × BitVec 6 :=
        match sc.acc with
        | none => (numOf vs 0, 0)
        | some a => combine k t m (r l) a (numOf vs 0)
      ⟨some e.1, sc.out ++ [(l, if ex then held else e.1, e.2)]⟩

/-- The scan over the lanes 0 to WIDTH − 1. -/
def scanAll (k : ScanKind) (ex : Bool) (t : Ty) (m : BitVec 64) (r : Nat → Rounding) (width : Nat)
    (vals : List (Nat × List Val)) : Scan :=
  (List.range width).foldl (scanStep k ex t m r vals) ⟨none, []⟩

/-- The outcome of an active lane of a scan or a reduction. -/
def scanOut (sc : Scan) (t : Ty) (res : Nat → Nat) (l : Nat) : LaneOut :=
  .done [ofTy t (res l)] (((mget sc.out l).map Prod.snd).getD 0)

/-- The result of a scan in a lane. -/
def Scan.at (sc : Scan) (l : Nat) : Nat := ((mget sc.out l).map Prod.fst).getD 0

/-- The step of SCAN: an inactive lane takes the running value, never poison (R319). -/
def Exe.scan (x : Exe) (i : Instr) (k : ScanKind) (ex : Bool) : State :=
  let t := x.opTy i 0
  let run := scanAll k ex t x.p.mode x.rounding x.g.width
  match x.judge i fun all l _ => scanOut (run all) t (run all).at l with
  | .trap code lanes flags => x.trap i code lanes flags
  | .done res flags =>
      let vals := (x.active i.ctl).map fun l => (l, x.vals (x.plan i) l)
      let rest := (x.lanes ++ x.outside i).filter fun l => (mget vals l).isNone
      x.commit i (res ++ rest.map fun l => (l, [ofTy t ((run vals).at l)])) flags

/-- SCAN (R319). -/
def execScan (c : Ctl) (k : ScanKind) (ex : Bool) (ops : List Opnd) (s : State) : Host.Outcome State Fault Refusal :=
  onPath s fun x => x.scan (.scan c k ex ops) k ex

/-- REDUCE (R320): every active lane takes the final running value. -/
def execReduce (c : Ctl) (k : ScanKind) (ops : List Opnd) (s : State) : Host.Outcome State Fault Refusal :=
  onPath s fun x =>
    let i := Instr.reduce c k ops
    let t := x.opTy i 0
    x.lanewise i fun all l _ =>
      let sc := scanAll k false t x.p.mode x.rounding x.g.width all
      scanOut sc t (fun _ => sc.acc.getD 0) l

/-- The active lanes that hold the value of a lane (R321). -/
def peersOf (all : List (Nat × List Val)) (vs : List Val) : LaneMask :=
  maskOf ((all.filter fun q => argOf q.2 0 == argOf vs 0).map Prod.fst)

/-- The lanes below l. -/
def lanesBelow (l : Nat) : LaneMask := (1#64 <<< l) - 1

/-- The distinct ones of a list. -/
def distinct {α : Type} [DecidableEq α] : List α → List α
  | [] => []
  | v :: vs => if vs.contains v then distinct vs else v :: distinct vs

/-- A lane of MATCH (R321). -/
def matchLane (k : MatchKind) (all : List (Nat × List Val)) (l : Nat) (vs : List Val) : LaneOut :=
  let peers := peersOf all vs
  match k with
  | .peers => .done [.bits peers] 0
  | .lead => .done [ofTy .i32 (leastLane peers)] 0
  | .rank => .done [ofTy .i32 (maskCount (peers &&& lanesBelow l))] 0
  | .groups => .done [ofTy .i32 (distinct (all.map fun q => argOf q.2 0)).length] 0

/-- MATCH (R321). -/
def execMatchLanes (c : Ctl) (k : MatchKind) (ops : List Opnd) (s : State) : Host.Outcome State Fault Refusal :=
  onPath s fun x => x.lanewise (.matchLanes c k ops) (matchLane k)

/-- LANEMASK.OWN (R322). -/
def execLanemaskOwn (c : Ctl) (ops : List Opnd) (s : State) : Host.Outcome State Fault Refusal :=
  onPath s fun x => x.lanewise (.lanemaskOwn c ops) fun _ l _ => .done [.bits (1#64 <<< l)] 0

/-- LANEMASK.BEFORE (R322): the active lanes below the lane. -/
def execLanemaskBefore (c : Ctl) (ops : List Opnd) (s : State) : Host.Outcome State Fault Refusal :=
  onPath s fun x => x.lanewise (.lanemaskBefore c ops) fun _ l _ => .done [.bits (x.activeMask c &&& lanesBelow l)] 0

/-- LANEMASK.AFTER (R322): the active lanes above the lane. -/
def execLanemaskAfter (c : Ctl) (ops : List Opnd) (s : State) : Host.Outcome State Fault Refusal :=
  onPath s fun x => x.lanewise (.lanemaskAfter c ops) fun _ l _ =>
    .done [.bits (x.activeMask c &&& ~~~(lanesBelow l ||| (1#64 <<< l)))] 0

/-- LANEMASK.SEG (R322): the lane's aligned segment. -/
def execLanemaskSeg (c : Ctl) (ops : List Opnd) (s : State) : Host.Outcome State Fault Refusal :=
  onPath s fun x => x.lanewise (.lanemaskSeg c ops) fun _ l vs =>
    let w := numOf vs 0
    .done [.bits (widthMask w <<< (l / w * w))] 0

/-- LANEMASK.WIDTH (R322). -/
def execLanemaskWidth (c : Ctl) (ops : List Opnd) (s : State) : Host.Outcome State Fault Refusal :=
  onPath s fun x => x.lanewise (.lanemaskWidth c ops) fun _ _ _ => .done [.bits (widthMask x.g.width)] 0

/-- LANEMASK.ACT (R322). -/
def execLanemaskAct (c : Ctl) (ops : List Opnd) (s : State) : Host.Outcome State Fault Refusal :=
  onPath s fun x => x.lanewise (.lanemaskAct c ops) fun _ _ _ => .done [.bits (x.activeMask c)] 0

/-! Integral rounding, scaling and random bits. -/

/-- The rounding mode of a FRND kind; `rm` is that of the mode word (R323). -/
def frndRM (k : FrndKind) (rm : Nat) : Nat :=
  match k with
  | .mode => rm | .rne => 0 | .rtz => 1 | .rup => 2 | .rdn => 3 | .rna => 4

/-- A lane of FRND (R323): an integral value; no flag. -/
def frndLane (k : FrndKind) (t : Ty) (m : BitVec 64) (r : Rounding) (v : Nat) : LaneOut :=
  match fpIn t m v with
  | .nan neg w man => .done [ofTy t (nanOf t m [.nan neg w man])] 0
  | .inf neg => .done [ofTy t (infOf t neg)] 0
  | .fin neg n e sticky =>
      let q := (roundMag { r with rm := frndRM k r.rm } neg n e sticky 0).1
      .done [ofTy t ((fmtOf t).convert Rounding.plain (.fin neg q 0 false)).1] 0

/-- FRND (R323). -/
def execFrnd (c : Ctl) (k : FrndKind) (t : Ty) (ops : List Opnd) (s : State) : Host.Outcome State Fault Refusal :=
  onPath s fun x => x.lanewise (.frnd c k t ops) fun _ l vs => frndLane k t x.p.mode (x.rounding l) (numOf vs 0)

/-- A value times a power of two. -/
def Num.scale (a : Num) (n : Int) : Num :=
  match a with
  | .fin neg m e s => .fin neg m (e + n) s
  | .nan .. | .inf _ => a

/-- The i32 of `fscale.exp` with its flags (R324). -/
def expOf (a : Num) : Nat × BitVec 6 :=
  match a with
  | .nan .. => (0x80000000, flagNV)
  | .inf _ => (0x7FFFFFFF, 0)
  | .fin _ m _ _ => if m = 0 then (0x80000000, 0) else (wrapTo 32 a.log2, 0)

/-- FSCALE (R324). -/
def execFscale (c : Ctl) (exp : Bool) (t : Ty) (ops : List Opnd) (s : State) : Host.Outcome State Fault Refusal :=
  onPath s fun x => x.lanewise (.fscale c exp t ops) fun _ l vs =>
    let a := fpIn t x.p.mode (numOf vs 0)
    if exp then .done [ofTy .i32 (expOf a).1] (expOf a).2
    else fpOut t (x.rounding l) (a.scale (signedOf 32 (numOf vs 1)), 0)

/-- RNDBITS (R325). -/
def execRndbits (c : Ctl) (wide : Bool) (ops : List Opnd) (s : State) : Host.Outcome State Fault Refusal :=
  onPath s fun x => x.lanewise (.rndbits c wide ops) fun _ l vs =>
    let z := generator x.launch.seed (BitVec.ofNat 64 (x.gridLane l)) (BitVec.ofNat 64 (numOf vs 0))
      ((modeStep x.p.mode).setWidth 64)
    .done [ofTy (if wide then .i64 else .i32) z.toNat] 0

end Sys2Proof.Machine
end

