-- ==== Sys2Proof/Machine/Elem.lean ====
section
/-! DEFINITION. Elements of tensors: the formats by FMT code (R224, R229, R230), scaled blocks and their encoding (R231). -/

namespace Sys2Proof.Machine

/-- The bits of an element of a format code (R224, R229, R230); 24 is raw bytes (R140). -/
def eltBits (code : Nat) : Nat :=
  match code with
  | 0 | 1 => 32
  | 2 | 3 => 16
  | 4 | 5 | 9 | 11 | 12 | 16 | 24 => 8
  | 6 | 7 | 13 | 14 => 6
  | 8 | 10 | 15 => 4
  | _ => code - 15

/-- Is the format one of scaled blocks (R229, R230)? -/
def isBlocked (code : Nat) : Bool := decide (11 ≤ code) && decide (code ≤ 23)

/-- Elements of a block: 32 for MX, 16 or 32 for BFP. -/
def blockLen (code : Nat) (blk : Bool) : Nat := if code ≤ 16 then 32 else if blk then 32 else 16

/-- Bytes of a block. -/
def blockBytes (code : Nat) (blk : Bool) : Nat := blockLen code blk * eltBits code / 8

/-- The floating format of a code's elements, if they are floating. -/
def eltFmt (code : Nat) : Option FpFmt :=
  match code with
  | 0 => some fmtF32
  | 1 => some fmtE8M10
  | 2 => some fmtBF16
  | 3 => some fmtF16
  | 4 | 12 => some fmtE5M2
  | 5 | 11 => some fmtE4M3
  | 6 | 13 => some fmtE3M2
  | 7 | 14 => some fmtE2M3
  | 8 | 15 => some fmtE2M1
  | _ => none

/-- The value of an element's bits under a scale or exponent byte, which counts for blocked formats only (R229, R230). Raw
bytes read as integers, which nothing uses. -/
def eltValue (code bits scale : Nat) : Num :=
  let n := bits % 2 ^ eltBits code
  if isBlocked code && scale == 255 then .nanNew
  else
    let shift : Int := if isBlocked code then scale - 127 else 0
    match eltFmt code with
    | some f => (f.value false n).scale shift
    | none =>
        let v := Num.ofInt (eltBits code) true n
        if code = 16 then v.scale (shift - 6)
        else if 17 ≤ code ∧ code ≤ 23 then v.scale (shift - ((eltBits code : Int) - 2))
        else v

/-- The value of an element read for conversion: an unscaled floating subnormal is flushed where DEN flushes inputs
(R232). -/
def eltInput (m : BitVec 64) (code bits scale : Nat) : Num :=
  match isBlocked code, eltFmt code with
  | false, some f => f.value (modeFlushIn m) bits
  | _, _ => eltValue code bits scale

/-- An element that is not of a blocked format, converted (R232): its bits and flags. -/
def eltConvert (code : Nat) (r : Rounding) (v : Num) : Nat × BitVec 6 :=
  match eltFmt code with
  | some f => f.convert r v
  | none => convertInt (eltBits code) true r v

/-- The exponent of the largest normal of an MX element format (R231). -/
def mxEmax (code : Nat) : Int :=
  match code with
  | 11 => 8 | 12 => 15 | 13 => 4 | 14 => 2 | 15 => 2 | _ => 0

/-- The scale byte of a block of values (R231). -/
def blockScale (code : Nat) (vs : List Num) : Nat :=
  let logs := (vs.filter fun v => !v.isNan && !v.isInf && !v.isZero).map Num.log2
  let t : Int :=
    match logs with
    | [] => 0
    | l :: ls => ls.foldl max l - (if code ≤ 16 then mxEmax code else 0)
  (max 0 (min 254 (t + 127))).toNat

/-- EncodeBlock (R231): the elements' bits in order, the scale byte and the flags. `r` gives each element's rounding. -/
def encodeBlock (code : Nat) (vs : List (Num × Rounding)) : List Nat × Nat × BitVec 6 :=
  if vs.any fun v => v.1.isNan then (vs.map fun _ => 0, 255, flagNV)
  else
    let scale := blockScale code (vs.map Prod.fst)
    let es := vs.map fun v =>
      let y := v.1.scale (127 - (scale : Int))
      if code ≤ 15 then eltConvert code v.2 y
      else if code = 16 then convertInt 8 true v.2 (y.scale 6)
      else convertInt (eltBits code) true { v.2 with sat := true } (y.scale ((eltBits code : Int) - 2))
    (es.map Prod.fst, scale, es.foldl (fun f e => f ||| e.2) 0)

end Sys2Proof.Machine
end

