-- ==== Sys2Proof/Machine/Memory.lean ====
section
/-! DEFINITION. Loads, stores, atomics, fences, prefetch and cache maintenance (R326 to R337, R348, R349). Each step performs
the accesses of one instruction of one path; a step is one point of a sequentially consistent order (assumption log 12). -/

namespace Sys2Proof.Machine

/-! Requests. -/

/-- One lane's access: its address and size, and, for a write, the new bytes from the old ones. `stale`: the old bytes are
those before the instruction (R123, R331). -/
structure Req where
  lane : Nat
  va : BitVec 64
  n : Nat
  kind : AccessKind
  change : Option (List Byte → List Byte)
  stale : Bool

/-- What an access read, as the path records it: bytes 0 to 7 and 8 to 15. -/
def rawOf (bs : List Byte) : List Val := [.bits (BitVec.ofNat 64 (leNat (bs.take 8))), .bits (BitVec.ofNat 64 (leNat (bs.drop 8)))]

/-- The insertion of an element into a list by ascending key. -/
def insertBy (key : Nat → Nat) (v : Nat) : List Nat → List Nat
  | [] => [v]
  | w :: ws => if key v < key w then v :: w :: ws else w :: insertBy key v ws

/-- Lanes in an order that no rule fixes (R97, R334): by free keys. One lane has one order. -/
def State.anyOrder (s : State) (ls : List Nat) : List Nat :=
  match ls with
  | [] => []
  | [l] => [l]
  | l :: m :: rest => (l :: m :: rest).foldl (fun acc v => insertBy (fun k => Config.freeNat (.choice k) s.free) v acc) []

/-- The accesses of an instruction so far: the state, what the lanes read, and whether the launch has ended. -/
structure Run where
  s : State
  got : List (Nat × List Val)
  ended : Bool

/-- The local pieces of a located access: physical address, CLASS and length; `none` when a piece lies in a window. -/
def localPieces (ps : List (Found × Nat)) : Option (List (Nat × Nat × Nat)) :=
  ps.mapM fun p =>
    match p.1 with
    | .ok pa leaf => some (pa, leaf.cls, p.2)
    | .window .. | .moving | .search .. | .fault _ => none

/-- The window of a located access. -/
def windowIn (ps : List (Found × Nat)) : Nat :=
  (ps.findSome? fun p =>
    match p.1 with
    | .window w _ => some w
    | .ok .. | .moving | .search .. | .fault _ => none).getD 0

/-- The address in its window that a located access begins at. -/
def windowAddr (ps : List (Found × Nat)) : Nat :=
  (ps.findSome? fun p =>
    match p.1 with
    | .window _ pa => some pa
    | .ok .. | .moving | .search .. | .fault _ => none).getD 0

/-- Reads the pieces of an access. -/
def State.readPieces (s : State) (ps : List (Nat × Nat × Nat)) : List Byte :=
  (ps.map fun p => readBytes s.mem p.1 p.2.2).flatten

/-- Writes bytes to the pieces of an access. -/
def State.writePieces (s : State) : List (Nat × Nat × Nat) → List Byte → State
  | [], _ => s
  | p :: ps, bs => (s.store p.1 (bs.take p.2.2)).writePieces ps (bs.drop p.2.2)

/-- Touches the L2 lines of the pieces of an access (R65 to R73). -/
def Exe.touchAll (x : Exe) (hint : BitVec 2) (write : Bool) (s : State) (ps : List (Nat × Nat × Nat)) : State :=
  ps.foldl (fun s p =>
    s.touch x.encl.part (dieOf x.hall) p.1 p.2.2 (s.worldOf (p.1 / 4096)) p.2.1 hint write) s

/-- One lane's access to enclave memory (R40, R45, R67), translated as the step begins: performed, or waiting for a fault
record, a correction search, a frame in MOVING or a far end, or the end of the launch. -/
def Exe.access (x : Exe) (hint : BitVec 2) (farData : List Byte) (atomic : Option AtomAsk) (run : Run) (r : Req) : Run :=
  if run.ended then run
  else
    match x.s.locate (some x.unit) x.eid r.va r.kind r.n with
    | .error st =>
        match st.found with
        | .fault f =>
            { run with
              s := run.s.faultAccess x.team.launch x.team.core x.g.slot r.kind (.path x.gid x.pid) st.va f
              ended := f.kind.fatal }
        | .search pa n => { run with s := run.s.startSearch pa n }
        | .moving =>
            if run.s.moving.contains (x.gid, x.pid) then run
            else { run with s := { run.s with moving := run.s.moving ++ [(x.gid, x.pid)] } }
        | .ok .. | .window .. => run
    | .ok ps =>
        match localPieces ps with
        | some ps =>
            let old := (if r.stale then x.s else run.s).readPieces ps
            let s := x.touchAll hint r.change.isSome run.s ps
            let s := match r.change with
              | none => s
              | some f => s.writePieces ps (f old)
            { run with s := s, got := run.got ++ [(r.lane, rawOf old)] }
        | none =>
            if run.s.windowUp x.eid (windowIn ps) = false then
              { run with s := run.s.endLaunch x.team.launch stLinkKey 0 0 0, ended := true }
            else if run.s.asked (.lane x.gid x.pid r.lane) || run.s.windowWaits x.eid (windowIn ps) then run
            else
              { run with
                s := run.s.sendFar x.eid (windowIn ps) (windowAddr ps) (low48 r.va / 4096) (.lane x.gid x.pid r.lane)
                  r.change.isSome (if r.change.isSome then farData else leBytes r.n 0) atomic }

/-- Completes a memory instruction when every lane's access is performed, or records those that are (R217). -/
def Exe.settleRun (x : Exe) (i : Instr) (lanes : List Nat) (finish : List Val → List Val) (flags : BitVec 6) (run : Run) :
    State :=
  if run.ended then run.s
  else if lanes.all fun l => (mget run.got l).isSome then
    (x.upon run.s).commit i (lanes.map fun l => (l, finish ((mget run.got l).getD []))) flags
  else run.s.setGroup x.gid (x.g.setPath x.pid { x.p with done := maskOf (run.got.map Prod.fst), got := run.got })

/-! Scratchpad (R21, R22, R64). -/

/-- The team of a launch's gang with a member index (R173). -/
def State.memberOf (s : State) (t g : Nat) : Option Nat :=
  let team := s.team t
  let size := (s.launch team.launch).gangSize
  (s.teams.find? fun q => q.2.launch == team.launch && q.2.index / size == team.index / size && q.2.member == g).map Prod.fst

/-- The allocation and offset that a team's scratchpad range of n bytes lies in, if it lies in one (R21, R22). -/
def State.spadAt (s : State) (t a n : Nat) : Option (Nat × Nat) :=
  let l := s.launch (s.team t).launch
  let size := l.spadBytes
  if a + n ≤ size then some (t, a)
  else if a < 0x01000000 then none
  else
    let g := (a - 0x01000000) / 0x00100000
    let o := (a - 0x01000000) % 0x00100000
    if g < l.gangSize ∧ o + n ≤ size then (s.memberOf t g).map (·, o) else none

/-- n bytes of a team's allocation. -/
def State.spadRead (s : State) (t o n : Nat) : List Byte := readBytes (s.team t).spad o n

/-- The state with bytes of a team's allocation written. -/
def State.spadWrite (s : State) (t o : Nat) (bs : List Byte) : State :=
  let team := s.team t
  s.setTeam t { team with spad := writeBytes team.spad o bs }

/-- One lane's access to scratchpad: it never waits. -/
def Exe.accessSpad (x : Exe) (run : Run) (r : Req) : Run :=
  match run.s.spadAt x.g.team r.va.toNat r.n with
  | none => run
  | some (t, o) =>
      let old := (if r.stale then x.s else run.s).spadRead t o r.n
      let s := match r.change with
        | none => run.s
        | some f => run.s.spadWrite t o (f old)
      { run with s := s, got := run.got ++ [(r.lane, rawOf old)] }

/-! The step of a memory instruction. -/

/-- What the memory instructions share: whether the address is a scratchpad address, the access, and the checks. -/
structure MemOp where
  spad : Bool
  n : Nat
  kind : AccessKind
  aligned : Bool
  /-- The place of the address among the operands. -/
  at_ : Nat
  /-- The new bytes of a write, from a lane's operand values and the old bytes. -/
  change : Option (List Val → List Byte → List Byte)
  /-- A byte's read-modify-write that is not atomic. -/
  loose : Bool
  /-- The results from what was read. -/
  finish : List Val → List Val
  /-- The bytes that a write sends through a window, and the atomic that it asks for there, from a lane's operand values. -/
  far : List Val → List Byte × Option AtomAsk

/-- A lane's checks (R326): the scratchpad range, then the alignment. -/
def Exe.memCheck (x : Exe) (o : MemOp) (vs : List Val) : LaneOut :=
  let a := numOf vs o.at_
  if o.spad && (x.s.spadAt x.g.team a o.n).isNone then .trap 0 9
  else if o.aligned && a % o.n != 0 then .trap 1 0x0B
  else .done [] 0

/-- A lane's request. -/
def Exe.request (x : Exe) (o : MemOp) (l : Nat) (vs : List Val) : Req :=
  ⟨l, (argOf vs o.at_).toBits, o.n, o.kind, o.change.map fun f => f vs,
   o.loose && (Config.freeBits (.choice (64 + l)) x.s.free).getLsbD 0⟩

/-- The step of a memory instruction (R326): the checks in every active lane, then the accesses lane by lane, loads in
ascending order and writes in an order that no rule fixes. -/
def Exe.memory (x : Exe) (i : Instr) (o : MemOp) : State :=
  match x.judge i fun _ _ vs => x.memCheck o vs with
  | .trap code lanes flags => x.trap i code lanes flags
  | .done _ flags =>
      let lanes := x.active i.ctl
      let todo := lanes.filter fun l => (mget x.p.got l).isNone
      let order := if o.change.isSome then x.s.anyOrder todo else todo
      let vals := fun l => x.vals (x.plan i) l
      x.settleRun i lanes o.finish flags <|
        order.foldl (fun run l =>
          if o.spad then x.accessSpad run (x.request o l (vals l))
          else x.access i.ctl.hint (o.far (vals l)).1 (o.far (vals l)).2 run (x.request o l (vals l)))
          ⟨x.s, x.p.got, false⟩

/-! Loads and stores. -/

/-- The size of a memory form (R328). -/
def memSize : MemForm → Nat
  | .plain t | .rlx t _ | .sync t _ => bytesOf t
  | .v2 => 16
  | .n4 | .n2 => 1

/-- Must the form's address be aligned (R330)? -/
def memAligned : MemForm → Bool
  | .plain _ | .n4 | .n2 => false
  | .v2 | .rlx .. | .sync .. => true

/-- The results of a load form from what was read (R329). -/
def memLoaded (f : MemForm) (raw : List Val) : List Val :=
  match f with
  | .plain t | .rlx t _ | .sync t _ => [ofTy t (numOf raw 0)]
  | .v2 => raw
  | .n4 | .n2 => [ofTy .i8 (numOf raw 0)]

/-- A byte with an element of w bits replaced (R331). -/
def putElem (w k v : Nat) (b : Byte) : Byte :=
  let mask : Byte := BitVec.ofNat 8 (2 ^ w - 1) <<< (w * k)
  (b &&& ~~~mask) ||| (BitVec.ofNat 8 (v % 2 ^ w) <<< (w * k))

/-- The bytes that a store form writes over the old ones (R329, R331). -/
def memStored (f : MemForm) (vs : List Val) (old : List Byte) : List Byte :=
  match f with
  | .plain t | .rlx t _ | .sync t _ => leBytes (bytesOf t) (numOf vs 1)
  | .v2 => leBytes 8 (numOf vs 1) ++ leBytes 8 (numOf vs 2)
  | .n4 => [putElem 4 (numOf vs 2) (numOf vs 1) (old.headD 0)]
  | .n2 => [putElem 2 (numOf vs 2) (numOf vs 1) (old.headD 0)]

/-- The bytes that a store form sends through a window: a part of a byte goes with its place in the byte (R331). -/
def memSent (f : MemForm) (vs : List Val) : List Byte :=
  match f with
  | .plain _ | .v2 | .rlx .. | .sync .. => memStored f vs []
  | .n4 | .n2 => leBytes 1 (numOf vs 1) ++ leBytes 1 (numOf vs 2)

/-- Is the form a read-modify-write of a byte? -/
def memLoose : MemForm → Bool
  | .n4 | .n2 => true
  | .plain _ | .v2 | .rlx .. | .sync .. => false

/-- A load. -/
def loadOp (spad : Bool) (f : MemForm) : MemOp :=
  ⟨spad, memSize f, .load, memAligned f, 0, none, false, memLoaded f, fun _ => ([], none)⟩

/-- A store. -/
def storeOp (spad : Bool) (f : MemForm) : MemOp :=
  ⟨spad, memSize f, .store, memAligned f, 0, some (memStored f), memLoose f, fun _ => [], fun vs => (memSent f vs, none)⟩

/-- LD (R329). -/
def execLd (c : Ctl) (f : MemForm) (ops : List Opnd) (s : State) : Host.Outcome State Fault Refusal :=
  onPath s fun x => x.memory (.ld c f ops) (loadOp false f)

/-- ST (R329, R331). -/
def execSt (c : Ctl) (f : MemForm) (ops : List Opnd) (s : State) : Host.Outcome State Fault Refusal :=
  onPath s fun x => x.memory (.st c f ops) (storeOp false f)

/-- LDS (R329). -/
def execLds (c : Ctl) (f : MemForm) (ops : List Opnd) (s : State) : Host.Outcome State Fault Refusal :=
  onPath s fun x => x.memory (.lds c f ops) (loadOp true f)

/-- STS (R329, R331). -/
def execSts (c : Ctl) (f : MemForm) (ops : List Opnd) (s : State) : Host.Outcome State Fault Refusal :=
  onPath s fun x => x.memory (.sts c f ops) (storeOp true f)

/-! Atomics (R333 to R336). -/

/-- The element type of a floating memory type. -/
def atomElem : AtomTy → Ty
  | .f64 => .f64
  | .bf16x2 => .bf16
  | .f16x2 => .f16
  | .f32 | .i32 | .i64 | .i8 | .i16 => .f32

/-- How many elements a memory type holds. -/
def atomCount : AtomTy → Nat
  | .bf16x2 | .f16x2 => 2
  | .i32 | .i64 | .f32 | .f64 | .i8 | .i16 => 1

/-- The rounding of a floating atomic (R335): STO acts as RNE. -/
def atomRounding (m : BitVec 64) : Rounding :=
  let r := roundingOf m 0
  { r with rm := if 5 ≤ r.rm then 0 else r.rm }

/-- A floating operation of an atomic on one element (R334, R335). -/
def atomFloat (op : Nat) (t : Ty) (m : BitVec 64) (old v : Nat) : Nat :=
  match op with
  | 10 =>
      let r := atomRounding m
      ((fmtOf t).convert r (Num.add r.rm (fpIn t m old) (fpIn t m v)).1).1
  | 11 => fminmaxWord .minnum t m old v
  | _ => fminmaxWord .maxnum t m old v

/-- The new value of an atomic on w bits (R334). -/
def atomNew (op : Nat) (t : AtomTy) (m : BitVec 64) (old v v2 : Nat) : Nat :=
  let w := t.ty.width
  match op with
  | 0 => (old + v) % 2 ^ w
  | 1 => Nat.land old v
  | 2 => Nat.lor old v
  | 3 => Nat.xor old v
  | 4 => minMaxElem .smin w old v
  | 5 => minMaxElem .smax w old v
  | 6 => minMaxElem .umin w old v
  | 7 => minMaxElem .umax w old v
  | 8 => v
  | 9 => if old = v then v2 else old
  | 13 => if v ≤ old then 0 else old + 1
  | 14 => if old = 0 ∨ v < old then v else old - 1
  | _ =>
      let ew := (atomElem t).width
      ofElems ew ((List.range (atomCount t)).map fun j => atomFloat op (atomElem t) m (elemOf ew old j) (elemOf ew v j))

/-- An atomic of a form under a mode word. -/
def atomOp (spad : Bool) (t : AtomTy) (m : BitVec 64) : MemOp :=
  let n := bytesOf t.ty
  ⟨spad, n, .atomic, true, 1,
   some fun vs old => leBytes n (atomNew (numOf vs 0) t m (leNat old) (numOf vs 2) (numOf vs 3)), false,
   fun raw => [ofTy t.ty (numOf raw 0)], fun vs => (leBytes n 0, some ⟨numOf vs 0, t, m, numOf vs 2, numOf vs 3⟩)⟩

/-- ATOM (R333, R334). -/
def execAtom (c : Ctl) (o : AtomOrder) (t : AtomTy) (scope : Scope) (ops : List Opnd) (s : State) :
    Host.Outcome State Fault Refusal :=
  onPath s fun x => x.memory (.atom c o t scope ops) (atomOp false t x.p.mode)

/-- ATOMS (R333, R334). -/
def execAtoms (c : Ctl) (o : AtomOrder) (t : AtomTy) (scope : Scope) (ops : List Opnd) (s : State) :
    Host.Outcome State Fault Refusal :=
  onPath s fun x => x.memory (.atoms c o t scope ops) (atomOp true t x.p.mode)

/-! Fences (R337): every access of an earlier step is performed before a later one, so a fence only goes on. -/

/-- FENCE.ACQ (R337). -/
def execFenceAcq (c : Ctl) (scope : Scope) (ops : List Opnd) (s : State) : Host.Outcome State Fault Refusal :=
  onPath s fun x => x.commit (.fenceAcq c scope ops) [] 0

/-- FENCE.REL (R337). -/
def execFenceRel (c : Ctl) (scope : Scope) (ops : List Opnd) (s : State) : Host.Outcome State Fault Refusal :=
  onPath s fun x => x.commit (.fenceRel c scope ops) [] 0

/-- FENCE.AR (R337). -/
def execFenceAr (c : Ctl) (scope : Scope) (ops : List Opnd) (s : State) : Host.Outcome State Fault Refusal :=
  onPath s fun x => x.commit (.fenceAr c scope ops) [] 0

/-- FENCE.SC (R337). -/
def execFenceSc (c : Ctl) (scope : Scope) (ops : List Opnd) (s : State) : Host.Outcome State Fault Refusal :=
  onPath s fun x => x.commit (.fenceSc c scope ops) [] 0

/-! Prefetch and cache maintenance (R74, R348, R349). -/

/-- The lines of a range that translate as loads: physical line and CLASS; the range ends after 1 MiB (R348).
DEDUCED (log 122): CACHE.DEMOTE and CACHE.EVICT end there too. -/
def Exe.rangeLines (x : Exe) (s : State) (va : BitVec 64) (n : Nat) : List (Nat × Nat) :=
  let first := va.toNat / 64
  let last := (va.toNat + min n (2 ^ 20) - 1) / 64
  if n = 0 then []
  else
    (List.range (last - first + 1)).filterMap fun k =>
      match s.translate (some x.unit) x.eid (BitVec.ofNat 64 ((first + k) * 64)) .load 64 with
      | .ok pa leaf => some (pa / 64, leaf.cls)
      | .window .. | .moving | .search .. | .fault _ => none

/-- The lines of the ranges of every active lane. -/
def Exe.allLines (x : Exe) (i : Instr) : List (Nat × Nat) :=
  ((x.active i.ctl).map fun l =>
    let vs := x.vals (x.plan i) l
    x.rangeLines x.s (argOf vs 0).toBits (numOf vs 1)).flatten

/-- The step of a cache operation on the lines of every active lane. -/
def Exe.cacheOp (x : Exe) (i : Instr) (f : State → List (Nat × Nat) → State) : State :=
  match x.judge i fun _ _ _ => .done [] 0 with
  | .trap code lanes flags => x.trap i code lanes flags
  | .done _ flags => (x.upon (f x.s (x.allLines i))).commit i [] flags

/-- PREF (R74, R348): each line is filled, inserted with the hint, or dropped; which ones is free. -/
def execPref (c : Ctl) (ops : List Opnd) (s : State) : Host.Outcome State Fault Refusal :=
  onPath s fun x => x.cacheOp (.pref c ops) fun s ls =>
    ls.foldl (fun s q =>
      if (Config.freeBits (.choice (1000 + q.1)) s.free).getLsbD 0 then
        s.l2Touch x.encl.part (dieOf x.hall) q.1 (s.worldOf (q.1 / 64)) q.2 c.hint false false
      else s) s

/-- CACHE.DEMOTE (R349): the lines become unprotected and the next victims of their sets. -/
def execCacheDemote (c : Ctl) (ops : List Opnd) (s : State) : Host.Outcome State Fault Refusal :=
  onPath s fun x => x.cacheOp (.cacheDemote c ops) fun s ls =>
    { s with l2 := s.l2.map fun l => if ls.any fun q => q.1 == l.line then { l with prot := false, used := 0 } else l }

/-- Lines leave every cache of the package; dirty ones are written back. -/
def State.evictLines (s : State) (ls : List Nat) : State :=
  let s := ls.foldl State.share s
  { s with
    l2 := s.l2.filter fun l => !ls.contains l.line
    coreLines := s.coreLines.filter fun c => !ls.contains c.line }

/-- CACHE.EVICT (R349). -/
def execCacheEvict (c : Ctl) (ops : List Opnd) (s : State) : Host.Outcome State Fault Refusal :=
  onPath s fun x => x.cacheOp (.cacheEvict c ops) fun s ls =>
    s.evictLines (ls.map Prod.fst)

/-- CACHE.ZERO (R349): a store of 64 zero bytes to the line that holds the address. -/
def execCacheZero (c : Ctl) (ops : List Opnd) (s : State) : Host.Outcome State Fault Refusal :=
  onPath s fun x =>
    let i := Instr.cacheZero c ops
    match x.judge i fun _ _ _ => .done [] 0 with
    | .trap code lanes flags => x.trap i code lanes flags
    | .done _ flags =>
        let lanes := x.active c
        let todo := lanes.filter fun l => (mget x.p.got l).isNone
        x.settleRun i lanes (fun _ => []) flags <|
          todo.foldl (fun run l =>
            let a := (argOf (x.vals (x.plan i) l) 0).toBits
            x.access 0 (leBytes 64 0) none run ⟨l, a - BitVec.ofNat 64 (a.toNat % 64), 64, .store, some fun _ => leBytes 64 0, false⟩)
            ⟨x.s, x.p.got, false⟩

end Sys2Proof.Machine
end

