-- ==== Sys2Proof/Machine/Tmap.lean ====
section
/-! DEFINITION. Tensor maps (R139 to R145) and the accesses of engines: to enclave memory, scratchpad and windows (R129,
R159). -/

namespace Sys2Proof.Machine

/-! The descriptor (R139 to R141). -/

/-- A tensor map as its descriptor bytes. -/
abbrev Desc := List Byte

/-- BASE. -/
def tmBase (d : Desc) : Nat := fieldAt d 0 8
/-- EXTENT. -/
def tmExtent (d : Desc) : Nat := fieldAt d 8 8
/-- CTL. -/
def tmCtl (d : Desc) : Nat := fieldAt d 0x10 8
/-- FMT. -/
def tmFmt (d : Desc) : Nat := bitsOf (tmCtl d) 39 35
/-- BLK. -/
def tmBlk (d : Desc) : Bool := bitsOf (tmCtl d) 34 34 == 1
/-- NDIM. -/
def tmNdim (d : Desc) : Nat := bitsOf (tmCtl d) 33 31
/-- SPACE: is it scratchpad? -/
def tmSpad (d : Desc) : Bool := bitsOf (tmCtl d) 30 29 == 1
/-- FILL. -/
def tmFill (d : Desc) : Nat := bitsOf (tmCtl d) 28 27
/-- FILLV. -/
def tmFillv (d : Desc) : Nat := fieldAt d 0x18 8
/-- DIMA of a dimension. -/
def tmDimA (d : Desc) (k : Nat) : Nat := fieldAt d (0x20 + 0x10 * k) 8
/-- DIMB of a dimension. -/
def tmDimB (d : Desc) (k : Nat) : Nat := fieldAt d (0x28 + 0x10 * k) 8
/-- SIZE. -/
def tmSize (d : Desc) (k : Nat) : Nat := bitsOf (tmDimA d k) 63 32
/-- BOX. -/
def tmBox (d : Desc) (k : Nat) : Nat := bitsOf (tmDimA d k) 31 16
/-- STEP. -/
def tmStep (d : Desc) (k : Nat) : Nat := bitsOf (tmDimA d k) 15 8
/-- STRIDE. -/
def tmStride (d : Desc) (k : Nat) : Nat := bitsOf (tmDimB d k) 47 0
/-- SCALEBASE. -/
def tmScale (d : Desc) : Nat := fieldAt d 0x70 8
/-- Bytes of a block of the map's format. -/
def tmBlock (d : Desc) : Nat := blockBytes (tmFmt d) (tmBlk d)

/-- The limits of one dimension (R141): a dimension in use, or one that is all zero. -/
def tmDimOk (d : Desc) (k : Nat) : Bool :=
  if k < tmNdim d then
    decide (1 ≤ tmSize d k) && decide (1 ≤ tmBox d k) && decide (1 ≤ tmStep d k) && bitsOf (tmDimA d k) 7 0 == 0 &&
      bitsOf (tmDimB d k) 63 48 == 0
  else tmDimA d k == 0 && tmDimB d k == 0

/-- The multiples that R142 asks of a blocked format. -/
def tmBlockOk (d : Desc) : Bool :=
  let b := tmBlock d
  !isBlocked (tmFmt d) ||
    (tmBase d % b == 0 && tmSize d 0 * eltBits (tmFmt d) % (8 * b) == 0 &&
      (List.range (tmNdim d - 1)).all fun k => tmStride d (k + 1) % b == 0)

/-- Are the descriptor's fields within the limits of R139 to R142? -/
def tmOk (d : Desc) : Bool :=
  bitsOf (tmCtl d) 63 40 == 0 && bitsOf (tmCtl d) 26 0 == 0 && decide (tmFmt d ≤ 24) &&
  (!tmBlk d || (decide (17 ≤ tmFmt d) && decide (tmFmt d ≤ 23))) && decide (1 ≤ tmNdim d) && decide (tmNdim d ≤ 5) &&
  decide (bitsOf (tmCtl d) 30 29 ≤ 1) && decide (tmFill d ≤ 2) && decide (1 ≤ tmExtent d) && decide (tmExtent d ≤ 2 ^ 47) &&
  (if tmSpad d then tmBase d < 2 ^ 32 else canonical (BitVec.ofNat 64 (tmBase d))) && fieldAt d 0x78 8 == 0 &&
  (List.range 5).all (tmDimOk d) && tmBlockOk d

/-! Walking a window (R143). -/

/-- Where an element lies: nowhere, beyond EXTENT, or at a byte offset from BASE and a bit of that byte. -/
inductive Spot where
  | out | clipped
  | at (off bit : Nat)
  deriving DecidableEq, Repr

/-- The elements of a window: the product of BOX. -/
def tmCount (d : Desc) : Nat := ((List.range (tmNdim d)).map (tmBox d)).foldl (· * ·) 1

/-- The index of element j of the walk in dimension k: dimension 0 is fastest. -/
def tmIndex (d : Desc) (j k : Nat) : Nat := j / ((List.range k).map (tmBox d)).foldl (· * ·) 1 % tmBox d k

/-- Is a spot with coordinates clipped or not; the coordinates are in range. -/
def spotAt (d : Desc) (cs : List Nat) : Spot :=
  let w := eltBits (tmFmt d)
  let rest := (List.range (tmNdim d - 1)).foldl (fun a k => a + cs.getD (k + 1) 0 * tmStride d (k + 1)) 0
  let bit := cs.headD 0 * w + 8 * rest
  if tmExtent d ≤ (bit + w - 1) / 8 then .clipped else .at (bit / 8) (bit % 8)

/-- The spot of coordinates, each signed. -/
def tmSpot (d : Desc) (cs : List Int) : Spot :=
  let bad := (List.range (tmNdim d)).any fun k => cs.getD k 0 < 0 || (tmSize d k : Int) ≤ cs.getD k 0
  if bad then .out else spotAt d (cs.map Int.toNat)

/-- The spot of element j of the walk from origins (R143). -/
def walkSpot (d : Desc) (os : List Int) (j : Nat) : Spot :=
  tmSpot d ((List.range (tmNdim d)).map fun k => os.getD k 0 + (tmIndex d j k * tmStep d k : Nat))

/-- The address of an offset in a map. -/
def tmAddr (d : Desc) (off : Nat) : BitVec 64 := BitVec.ofNat 64 (tmBase d + off)

/-- The address of the scale of the block at an offset. -/
def scaleAddr (d : Desc) (off : Nat) : BitVec 64 := BitVec.ofNat 64 (tmScale d + off / tmBlock d)

/-- Bytes that an element at a bit of its first byte touches. -/
def eltBytes (w bit : Nat) : Nat := (bit + w + 7) / 8

/-! Accesses of engines. -/

/-- Why an engine's access did not happen: a stop of R129, a stream that is down, or the far package's refusal (R133). -/
inductive EngStop where
  | stop (st : Stop) (k : AccessKind)
  | link
  | denied
  deriving DecidableEq, Repr

/-- Who accesses: core, enclave, team, the HINT, and the operation. -/
structure Who where
  unit : Nat
  e : Nat
  t : Nat
  hint : BitVec 2
  op : Nat
  deriving DecidableEq, Repr

/-- The pieces of an engine's access to enclave memory (R129): local ones with CLASS, or `none` for a piece in a window that is
up. Whether the far package refuses is free. -/
def State.engPieces (s : State) (w : Who) (va : BitVec 64) (k : AccessKind) (n : Nat) :
    Except EngStop (List (Option (Nat × Nat) × Nat × Nat)) :=
  (pageRuns (n / 4096 + 2) va n).mapM fun r =>
    match s.translate (some w.unit) w.e r.1 k r.2 with
    | .ok pa leaf => .ok (some (pa, leaf.cls), (r.1 - va).toNat, r.2)
    | .window v pa =>
        if s.windowUp w.e v = false then .error .link
        else if s.windowWaits w.e v then .error (.stop ⟨r.1, .moving⟩ k)
        else if (Config.freeBits (.window pa) s.free).getLsbD 8 then .error .denied
        else .ok (none, (r.1 - va).toNat, r.2)
    | .moving => .error (.stop ⟨r.1, .moving⟩ k)
    | .search pa m => .error (.stop ⟨r.1, .search pa m⟩ k)
    | .fault f => .error (.stop ⟨r.1, .fault f⟩ k)

/-- The state after an engine's accesses to a window were sent as flits, and its lines touched (R66, R157). -/
def State.engTouch (s : State) (w : Who) (va : BitVec 64) (write : Bool) (bs : List Byte)
    (ps : List (Option (Nat × Nat) × Nat × Nat)) : State :=
  ps.foldl (fun s p =>
    match p.1 with
    | some (pa, cls) =>
        s.touch (s.encl w.e).part (dieOf (unitHall w.unit)) pa p.2.2 (s.worldOf (pa / 4096)) cls w.hint write
    | none =>
        match s.translate (some w.unit) w.e (va + BitVec.ofNat 64 p.2.1) (if write then .engWrite else .engRead) p.2.2 with
        | .window v pa => s.askWindow w.e v pa write ((bs.drop p.2.1).take p.2.2)
        | .ok .. | .moving | .search .. | .fault _ => s) s

/-- An engine's read of n bytes, of scratchpad or of enclave memory: what a window answers is free. -/
def State.engRead (s : State) (w : Who) (spad : Bool) (va : BitVec 64) (n : Nat) : Except EngStop (State × List Byte) :=
  if spad then
    match s.spadAt w.t va.toNat n with
    | some (t, o) => .ok (s, s.spadRead t o n)
    | none => .ok (s, List.replicate n 0)
  else
    match s.engPieces w va .engRead n with
    | .error e => .error e
    | .ok ps =>
        let bs := (ps.map fun p =>
          match p.1 with
          | some (pa, _) => readBytes s.mem pa p.2.2
          | none => s.windowBytes (va.toNat + p.2.1) p.2.2).flatten
        .ok (s.engTouch w va false (leBytes n 0) ps, bs)

/-- An engine's write of bytes, every page of it or none. -/
def State.engWrite (s : State) (w : Who) (spad : Bool) (va : BitVec 64) (bs : List Byte) : Except EngStop State :=
  if spad then
    match s.spadAt w.t va.toNat bs.length with
    | some (t, o) => .ok (s.spadWrite t o bs)
    | none => .ok s
  else
    match s.engPieces w va .engWrite bs.length with
    | .error e => .error e
    | .ok ps =>
        .ok <| ps.foldl (fun s p =>
          match p.1 with
          | some (pa, _) => s.store pa ((bs.drop p.2.1).take p.2.2)
          | none => s) (s.engTouch w va true bs ps)

/-! Granules (R121). -/

/-- The granules of n bytes at an address (R121). -/
def granules (d n : Nat) : Nat := if n = 0 then 0 else (d + n - 1) / 64 - d / 64 + 1

/-- The parts of n bytes at an address by granules: address and length. -/
def granuleParts (a n : Nat) : List (Nat × Nat) :=
  (List.range (granules a n)).map fun i =>
    let lo := max a ((a / 64 + i) * 64)
    (lo, min (a + n) ((a / 64 + i + 1) * 64) - lo)

/-- The granules that lie wholly in n bytes at an address, as EngOp.whole numbers them. -/
def wholeIn (spad : Bool) (a n : Nat) : List Nat :=
  (granuleParts a n).filterMap fun p => if p.2 = 64 then some (2 * (p.1 / 64) + spad.toNat) else none

/-- The state after an operation has read a unit of its source. -/
def State.keepSeen (s : State) (op key : Nat) (bs : List Byte) : State :=
  { s with ops := mupd s.ops op fun o => { o with seen := mset o.seen key bs } }

/-- What an operation has read of a unit of its source. -/
def State.seenOf (s : State) (op key : Nat) : Option (List Byte) := (mget s.ops op).bind fun o => mget o.seen key

/-- An engine's read of a part of a granule: a granule that its operation reads whole is read once, as one. -/
def State.readPart (s : State) (w : Who) (spad : Bool) (a n : Nat) : Except EngStop (State × List Byte) :=
  let key := 2 * (a / 64) + spad.toNat
  if ((mget s.ops w.op).map EngOp.whole).any fun l => l.contains key then
    match s.seenOf w.op key with
    | some bs => .ok (s, (bs.drop (a % 64)).take n)
    | none =>
        (s.engRead w spad (BitVec.ofNat 64 (a / 64 * 64)) 64).map fun r =>
          (r.1.keepSeen w.op key r.2, (r.2.drop (a % 64)).take n)
  else s.engRead w spad (BitVec.ofNat 64 a) n

/-- An engine's read of n bytes of its source. -/
def State.engSource (s : State) (w : Who) (spad : Bool) (va : BitVec 64) (n : Nat) : Except EngStop (State × List Byte) :=
  (granuleParts va.toNat n).foldlM (fun (q : State × List Byte) p =>
    (q.1.readPart w spad p.1 p.2).map fun r => (r.1, q.2 ++ r.2)) (s, [])

/-- The part of bits at a bit address that lies in a granule. -/
def shiftIn (u p x : Nat) : Nat := if 512 * u ≤ p then x * 2 ^ (p - 512 * u) % 2 ^ 512 else x / 2 ^ (512 * u - p) % 2 ^ 512

/-- Elements of w bits, each at its bit address, laid over a granule, later ones over earlier ones: the granule's bits, and which of
them are laid. -/
def overlay (u w : Nat) (es : List (Nat × Nat)) : Nat × Nat :=
  es.foldl (fun (acc : Nat × Nat) e =>
    let m := shiftIn u e.1 (2 ^ w - 1)
    (acc.1 - Nat.land acc.1 m + shiftIn u e.1 (e.2 % 2 ^ w), Nat.lor acc.2 m)) (0, 0)

/-- The runs of a rising list: first and length. -/
def runsOf : List Nat → List (Nat × Nat)
  | [] => []
  | i :: is =>
      match runsOf is with
      | [] => [(i, 1)]
      | r :: rs => if r.1 = i + 1 then (i, r.2 + 1) :: rs else (i, 1) :: r :: rs

/-- The bytes of a granule in which a bit is laid. -/
def laidBytes (m : Nat) : List Nat := (List.range 64).filter fun i => m / 2 ^ (8 * i) % 256 != 0

/-- Writes the laid bits of a granule: a byte laid only in part is read, changed and written (R123). -/
def State.writeGranule (s : State) (w : Who) (spad : Bool) (u v m : Nat) : Except EngStop State :=
  (runsOf (laidBytes m)).foldlM (fun s r => do
    let a := BitVec.ofNat 64 (64 * u + r.1)
    let m := m / 2 ^ (8 * r.1) % 2 ^ (8 * r.2)
    let v := v / 2 ^ (8 * r.1) % 2 ^ (8 * r.2)
    if m = 2 ^ (8 * r.2) - 1 then s.engWrite w spad a (leBytes r.2 v)
    else
      let (s, bs) ← s.engRead w spad a r.2
      s.engWrite w spad a (leBytes r.2 (leNat bs - Nat.land (leNat bs) m + v))) s

/-! Elements of a map in memory. -/

/-- The low w bits at a bit of the first of some bytes (R226). -/
def getElt (w bit : Nat) (bs : List Byte) : Nat := leNat bs / 2 ^ bit % 2 ^ w

/-- Bytes with an element replaced (R226). -/
def putElt (w bit v : Nat) (bs : List Byte) : List Byte :=
  let n := leNat bs
  leBytes bs.length (n % 2 ^ bit + (v % 2 ^ w) * 2 ^ bit + n / 2 ^ (bit + w) * 2 ^ (bit + w))

/-- An element as it is read: its bits, and the scale byte of its block (R143). -/
structure Elt where
  bits : Nat
  scale : Nat
  deriving DecidableEq, Repr

/-- The fill of a map (R143): `none` leaves the destination unchanged. -/
def fillElt (d : Desc) : Option Elt :=
  if tmFill d = 2 then none
  else some ⟨if tmFill d = 1 then tmFillv d % 2 ^ eltBits (tmFmt d) else 0, 127⟩

/-- Reads the element at a spot of a map (R143). -/
def State.readElt (s : State) (w : Who) (d : Desc) : Spot → Except EngStop (State × Option Elt)
  | .out | .clipped => .ok (s, fillElt d)
  | .at off bit => do
      let (s, bs) ← s.engRead w (tmSpad d) (tmAddr d off) (eltBytes (eltBits (tmFmt d)) bit)
      let v := getElt (eltBits (tmFmt d)) bit bs
      if isBlocked (tmFmt d) then
        let (s, sc) ← s.engRead w (tmSpad d) (scaleAddr d off) 1
        return (s, some ⟨v, leNat sc⟩)
      else return (s, some ⟨v, 127⟩)

/-- Writes bits as the element at an offset of a map: a partial byte is read, changed and written (R123). -/
def State.writeElt (s : State) (w : Who) (d : Desc) (off bit v : Nat) : Except EngStop State := do
  let n := eltBytes (eltBits (tmFmt d)) bit
  if bit = 0 ∧ eltBits (tmFmt d) % 8 = 0 then s.engWrite w (tmSpad d) (tmAddr d off) (leBytes n v)
  else
    let (s, bs) ← s.engRead w (tmSpad d) (tmAddr d off) n
    s.engWrite w (tmSpad d) (tmAddr d off) (putElt (eltBits (tmFmt d)) bit v bs)

/-- Is a scratchpad map's range, with its scale range, in one allocation (R144)? -/
def State.tmInside (s : State) (t : Nat) (d : Desc) : Bool :=
  !tmSpad d ||
    ((s.spadAt t (tmBase d) (tmExtent d)).isSome &&
      (!isBlocked (tmFmt d) ||
        (s.spadAt t (tmScale d) ((tmExtent d + tmBlock d - 1) / tmBlock d)).isSome))

/-- The descriptor of a valid map value; `unfolding` tells whether an unfolding map is asked for (R369). -/
def Val.desc (unfolding : Bool) : Val → Option Desc
  | .tmap d u => if tmOk d && u.isSome == unfolding then some d else none
  | .bits _ | .fmtb _ | .acc .. => none

end Sys2Proof.Machine
end

