-- ==== Sys2Proof/Machine/Engine.lean ====
section
/-! DEFINITION. Engine operations and futures (R127 to R138): issue, completion, COPY, GATHER, SCATTER, TMAP, FUT and YIELD
(R341 to R347). -/

namespace Sys2Proof.Machine

/-! Futures (R130 to R133). -/

/-- The status codes used here (R133). -/
def futOK : BitVec 8 := 0
/-- CANCELLED. -/
def futCancelled : BitVec 8 := 2
/-- CANCELLED_PREEMPT. -/
def futPreempt : BitVec 8 := 3
/-- CLIPPED. -/
def futClipped : BitVec 8 := 4
/-- REMOTE_DENIED. -/
def futDenied : BitVec 8 := 5
/-- LINK_KEY. -/
def futLinkKey : BitVec 8 := 6
/-- EXPIRED. -/
def futExpired : BitVec 8 := 0x0A

/-- A future (R130). -/
def futWord (ltag team cls gen slot : Nat) : BitVec 64 :=
  BitVec.ofNat 64 (ltag % 256 * 2 ^ 56 + team % 2 ^ 24 * 2 ^ 32 + cls % 16 * 2 ^ 28 + gen % 2 ^ 19 * 2 ^ 9 + slot % 512)

/-- Does a lane of a team take the word for one of its futures (R131)? -/
def State.futValid (s : State) (t : Nat) (w : BitVec 64) : Bool :=
  let team := s.team t
  let l := s.launch team.launch
  bitsOf w.toNat 63 56 == l.seq.toNat % 256 && bitsOf w.toNat 55 32 == team.index % 2 ^ 24 && decide (bitsOf w.toNat 31 28 < 7)

/-- A future slot of a team. One that no operation has used stands at GEN 0 with status OK (assumption log 106). -/
def Team.slot (t : Team) (n : Nat) : Slot := (mget t.slots n).getD ⟨0, 0, 0⟩

/-- The latest operation of a team that took a slot at a GEN. -/
def State.opNamed (s : State) (t slot gen : Nat) : Option Nat :=
  ((s.ops.filter fun o => o.2.team == t && o.2.slot == slot && o.2.gen == gen).getLast?).map Prod.fst

/-- What a future of a team reports: its status, EXPIRED once its slot is reused, and the operation that it names (R132). -/
def State.futState (s : State) (t : Nat) (w : BitVec 64) : BitVec 8 × Option Nat :=
  let n := bitsOf w.toNat 8 0
  let slot := (s.team t).slot n
  if slot.gen % 2 ^ 19 = bitsOf w.toNat 27 9 then (slot.status, some slot.op)
  else (futExpired, s.opNamed t n (bitsOf w.toNat 27 9))

/-- The operations that an operation stands for: the operands of a combined one (R136); the fuel bounds their nesting. -/
def State.leafOps (s : State) : Nat → Nat → List Nat
  | 0, k => [k]
  | fuel + 1, k =>
      match mget s.ops k with
      | none => []
      | some o =>
          if o.cls = 5 then (o.members.map fun m => s.leafOps fuel m.1).flatten else [k]

/-- The flags that observing an operation merges (R236): those of speculative operations wait for the commit (R371). -/
def State.opFlags (s : State) (o : Option Nat) : BitVec 6 :=
  match o with
  | none => 0
  | some k =>
      (s.leafOps s.ops.length k).foldl (fun f n =>
        match mget s.ops n with
        | none => f
        | some o => if o.spec then f else f ||| o.flags) 0

/-- Lanes of a group observe operations: the speculative ones among them record it (R371). -/
def State.watch (s : State) (gid : Nat) (lanes : LaneMask) (ops : List Nat) : State :=
  let ks := (ops.map (s.leafOps s.ops.length)).flatten
  { s with ops := s.ops.map fun o =>
      if ks.contains o.1 && o.2.spec then (o.1, { o.2 with watch := o.2.watch ++ [(gid, lanes)] }) else o }

/-! Issue (R127, R128, R132). -/

/-- How many operations an engine class holds, and whether that is per core (R127); none for combined futures, and for
cuttings, whose limit a cut mark checks before it arrives. -/
def engLimit (cls : Nat) : Option (Nat × Bool) :=
  match cls with
  | 0 | 1 => some (32, true)
  | 2 => some (8, true)
  | 3 => some (64, false)
  | 4 => some (16, false)
  | _ => none

/-- The incomplete operations of a class on a team's core, or of its enclave. -/
def State.engHeld (s : State) (t cls : Nat) (perCore : Bool) : Nat :=
  let team := s.team t
  (s.ops.filter fun o =>
    let u := s.team o.2.team
    o.2.status == futPending && o.2.cls == cls &&
      if perCore then u.resident && u.core == team.core else (s.launch u.launch).enclave == (s.launch team.launch).enclave).length

/-- Must the instruction wait at issue: its engine holds its limit, or the next slot's operation has not completed? -/
def Exe.issueWaits (x : Exe) (cls : Nat) : Bool :=
  (match engLimit cls with
   | none => false
   | some (n, perCore) => decide (n ≤ x.s.engHeld x.g.team cls perCore)) ||
    (x.team.slot (x.team.issues % 512)).status == futPending

/-- An operation of the executing path, before it takes a slot. HINT is one of COPY's and GATHER's (R72). -/
def Exe.newOp (x : Exe) (i : Instr) (cls : Nat) (vals : List Val) (scope : Nat) (bar : Option Nat) (total bytes : Nat) :
    EngOp :=
  let key := i.key.getD ⟨0, 0, 0⟩
  ⟨cls, x.g.team, x.gid, 0, 0, key.maj, key.sub, vals, x.p.mode, scope, bar, [], x.tr.baseAt x.p.pc, [], total, bytes, 0,
   futPending, false, false, false, if key.maj = 0x4A ∨ key.maj = 0x50 then i.ctl.hint else 0, [], 0, [], [], []⟩

/-- Issues an operation (R132): it takes the team's next slot; a barrier that it names adds its bytes to OUT (R149). `k` goes
on with the future and the operation's number. -/
def Exe.issue (x : Exe) (o : EngOp) (k : Exe → BitVec 64 → Nat → State) : State :=
  if x.issueWaits o.cls then x.s
  else
    let t := x.team
    let n := t.issues % 512
    let gen := ((t.slot n).gen + 1) % 2 ^ 19
    let num := x.s.next
    let bars := match o.bar with
      | none => t.bars
      | some b => mset t.bars b { t.bar b with out := (t.bar b).out + o.bytes }
    let t' : Team := { t with slots := mset t.slots n ⟨gen, o.status, num⟩, issues := t.issues + 1, bars := bars }
    let s := x.s.setTeam x.g.team t'
    let s' : State := { s with ops := mset s.ops num { o with slot := n, gen := gen }, next := num + 1 }
    k (x.upon s') (futWord x.launch.seq.toNat t.index o.cls gen n) num

/-- Does a phase of a barrier have no room for n bytes more (R149)? -/
def Bar.tooMany (b : Bar) (n : Nat) : Bool := decide (b.pend - (b.out : Int) - (n : Int) < -2 ^ 31)

/-! Completion (R132, R135, R136). -/

/-- A record that an access no longer waits on. -/
def FaultRec.without (r : FaultRec) (w : Waiter) : FaultRec := { r with waiters := r.waiters.filter (· != w) }

/-- A partition where an access waits on no record. -/
def Part.dropWaiter (p : Part) (w : Waiter) : Part :=
  { p with recs := p.recs.map fun r => (r.1, r.2.without w), queue := p.queue.map fun r => r.without w }

/-- Removes an access from every fault record it waits on (R135). -/
def State.dropWaiter (s : State) (w : Waiter) : State :=
  { s with parts := s.parts.map fun p => (p.1, p.2.dropWaiter w) }

/-- Does an access wait on some record? -/
def State.waiting (s : State) (w : Waiter) : Bool := s.parts.any fun p => p.2.allRecs.any fun r => r.waiters.contains w

/-- Bytes of an operation land on its barrier (R149). -/
def State.landOn (s : State) (k n : Nat) : State :=
  match mget s.ops k with
  | none => s
  | some o =>
      match o.bar with
      | none => s
      | some b => s.setBar o.team b (((s.team o.team).bar b).land k n)

/-- Sets the final status of an operation; its slot keeps it (R132). A cancelled one subtracts its untransferred bytes from
its barrier (R135); one that ends with LINK_KEY or REMOTE_DENIED leaves them in the barrier's PEND and OUT (assumption log 108). -/
def State.setStatus (s : State) (k : Nat) (st : BitVec 8) : State :=
  match mget s.ops k with
  | none => s
  | some o =>
      let s := if st = futCancelled then s.landOn k o.bytes else s
      let s : State := { s with ops := mset s.ops k { o with status := st } }
      let t := s.team o.team
      if (t.slot o.slot).op = k then
        s.setTeam o.team { t with slots := mset t.slots o.slot { t.slot o.slot with status := st } }
      else s

/-- The status of a combined operation once all its operands have completed: the first other than OK (R136). -/
def State.combined (s : State) (o : EngOp) : Option (BitVec 8) :=
  let parts := o.members.map fun m =>
    if m.2.1 = futExpired.toNat then futExpired else ((mget s.ops m.1).map EngOp.status).getD 0
  if parts.contains futPending then none else some ((parts.find? (· != futOK)).getD futOK)

/-- Completes the combined operations whose operands have completed; the fuel bounds their nesting. -/
def State.combineAll : Nat → State → State
  | 0, s => s
  | fuel + 1, s =>
      let ready := s.ops.find? fun o => o.2.cls == 5 && o.2.status == futPending && (s.combined o.2).isSome
      match ready with
      | none => s
      | some (k, o) =>
          match s.combined o with
          | none => s
          | some st => State.combineAll fuel (s.setStatus k st)

/-- Tiles that take another's elements once an operation has completed take them (R371). -/
def State.copyTiles (s : State) (k : Nat) : State :=
  { s with tiles := s.tiles.map fun t =>
      match t.2.copy with
      | none => t
      | some (src, op) =>
          if op = k then (t.1, { t.2 with copy := none, els := ((mget s.tiles src).map Tile.els).getD [] }) else t }

/-- The absorption of an operation ends (R382): with OK its context takes the bytes fed, else it stands as before. -/
def State.sealEnd (s : State) (k : Nat) (o : EngOp) (st : BitVec 8) : State :=
  if o.cls ≠ 4 then s
  else
    let l := (s.team o.team).launch
    let x := s.launch l
    let f : Nat × Seal → Nat × Seal := fun c =>
      if c.2.busy = some k then
        (c.1, { c.2 with busy := none, part := [], bytes := if st = futOK then c.2.bytes ++ c.2.part else c.2.bytes })
      else c
    s.setLaunch l { x with seals := x.seals.map f }

/-- Completes an operation, with what follows: combined futures, and the end of its gang (R103). -/
def State.finishOp (s : State) (k : Nat) (st : BitVec 8) : State :=
  match mget s.ops k with
  | none => s
  | some o =>
      if o.status != futPending then s
      else
        let l := (s.team o.team).launch
        let s := ((s.dropWaiter (.eng k)).setStatus k st).copyTiles k |>.sealEnd k o st
        (s.combineAll s.ops.length).finishGangs l

/-- What becomes of an operation whose access stopped (R129, R159). -/
def State.engStop (s : State) (k : Nat) (o : EngOp) (e : EngStop) : State :=
  let t := s.team o.team
  match e with
  | .link => s.finishOp k futLinkKey
  | .denied => s.finishOp k futDenied
  | .stop st kind =>
      match st.found with
      | .fault f => s.faultAccess t.launch t.core (s.group o.group).slot kind (.eng k) st.va f
      | .search pa n => s.startSearch pa n
      | .ok .. | .window .. | .moving => s

/-- What a step of an operation comes to: the state, the bytes that its barrier counts, and the flags. -/
abbrev StepOut := Except EngStop (State × Nat × BitVec 6)

/-- Is a step of an operation done? -/
def EngOp.did (o : EngOp) (i : Nat) : Bool := o.landed.contains i

/-- Are all the steps done that have started? -/
def EngOp.settled (o : EngOp) : Bool := (List.range o.started).all o.did

/-- The operations of an engine that a team has issued before one have started as well (R129): an earlier copy or gather has at least
its first step under way. -/
def State.startEarlier (s : State) (k : Nat) (o : EngOp) : State :=
  { s with ops := s.ops.map fun q =>
      if decide (q.1 < k) && q.2.team == o.team && q.2.cls == o.cls && decide (o.cls ≤ 1) && q.2.status == futPending then
        (q.1, { q.2 with started := max q.2.started 1 })
      else q }

/-- Step n of an operation is done (R121, R149): it is recorded, with what has started by then, and its bytes land; a stop that was
asked for takes effect once every step that has started is done (R135, R410). -/
def State.stepDone (s : State) (k n bytes : Nat) (flags : BitVec 6) : State :=
  match mget s.ops k with
  | none => s
  | some o =>
      let o' : EngOp := { o with
        landed := o.landed ++ [n], started := max o.started (n + 1), bytes := o.bytes - bytes, flags := o.flags ||| flags }
      let s : State := { s with ops := mset s.ops k o' }
      let s := ((s.startEarlier k o).landOn k bytes).dropWaiter (.eng k)
      if o.cancel && o'.settled then s.finishOp k futCancelled else s

/-- Performs step n of an operation. -/
def State.stepOp (s : State) (k n : Nat) (o : EngOp) (f : StepOut) : State :=
  match f with
  | .error e => s.engStop k o e
  | .ok (s, bytes, flags) => s.stepDone k n bytes flags

/-- Who accesses for an operation. -/
def State.whoOf (s : State) (k : Nat) (o : EngOp) : Who :=
  let t := s.team o.team
  ⟨t.core, (s.launch t.launch).enclave, o.team, o.hint, k⟩

/-! Effective scopes (R102). -/

/-- The pages of a run of n bytes. -/
def pagesOf (va : BitVec 64) (n : Nat) : List Nat :=
  if n = 0 then [] else List.range' (va.toNat / 4096) ((va.toNat + n - 1) / 4096 - va.toNat / 4096 + 1)

/-- The least effective scope that pages ask for: fabric behind a package window, system behind the system window. -/
def Exe.minScope (x : Exe) (spad : Bool) (pages : List Nat) : Nat :=
  if spad then 2
  else
    (pages.map fun p =>
      match x.s.translate (some x.unit) x.eid (BitVec.ofNat 64 (4096 * p)) .engRead 1 with
      | .window w _ => if w = 15 then 8 else 7
      | .ok .. | .moving | .search .. | .fault _ => 2).foldl max 2

/-- The pages on which the elements that a walk visits, and the scales of their blocks, lie. -/
def tmPages (d : Desc) (os : List Int) : List Nat :=
  ((List.range (tmCount d)).flatMap fun j =>
    match walkSpot d os j with
    | .at off _ => (tmAddr d off).toNat / 4096 :: if isBlocked (tmFmt d) then [(scaleAddr d off).toNat / 4096] else []
    | .out | .clipped => []).eraseDups

/-- Is an address behind a window that is down (R155, R159)? -/
def Exe.windowDown (x : Exe) (spad : Bool) (va : BitVec 64) : Bool :=
  !spad &&
    match x.s.translate (some x.unit) x.eid va .engRead 1 with
    | .window w _ => !x.s.windowUp x.eid w
    | .ok .. | .moving | .search .. | .fault _ => false

/-! COPY (R341 to R343). -/

/-- Are the destination and the source of a linear form in scratchpad? -/
def copySpaces (sub : Nat) : Bool × Bool :=
  match sub % 8 with
  | 0 => (true, false)
  | 1 => (false, true)
  | 2 => (false, false)
  | _ => (true, true)

/-- Step i of a linear copy: one destination granule. -/
def State.linearStep (s : State) (k : Nat) (o : EngOp) (i : Nat) : StepOut := do
  let d := numOf o.vals 0
  let n := numOf o.vals 2
  let lo := max d ((d / 64 + i) * 64)
  let hi := min (d + n) ((d / 64 + i + 1) * 64)
  let sp := copySpaces o.sub
  let (s, bs) ← s.engSource (s.whoOf k o) sp.2 ((argOf o.vals 1).toBits + BitVec.ofNat 64 (lo - d)) (hi - lo)
  let s ← s.engWrite (s.whoOf k o) sp.1 ((argOf o.vals 0).toBits + BitVec.ofNat 64 (lo - d)) bs
  return (s, hi - lo, 0)

/-- A tensor copy as the engine walks it: the maps and origins of destination and source. -/
structure Walk2 where
  d : Desc
  dos : List Int
  s : Desc
  sos : List Int
  deriving DecidableEq, Repr

/-- The origin operands, signed. -/
def originsOf (vs : List Val) : List Int := vs.map fun v => signedOf 32 v.num

/-- The walk of a tensor copy's operands: the map that the suffix names walks from the origins. -/
def walkOf (sub : Nat) (vals : List Val) : Option Walk2 :=
  match (argOf vals 0).desc false, (argOf vals 1).desc false with
  | some d, some s =>
      let os := originsOf (vals.drop (if 8 ≤ sub then 3 else 2))
      some (if sub % 8 = 4 then ⟨d, [], s, os⟩ else ⟨d, os, s, []⟩)
  | _, _ => none

/-- Is element j written: in range in the destination, and not skipped by the source's fill? -/
def Walk2.written (w : Walk2) (j : Nat) : Bool :=
  match walkSpot w.d w.dos j with
  | .out | .clipped => false
  | .at .. =>
      match walkSpot w.s w.sos j with
      | .at .. => true
      | .out | .clipped => tmFill w.s != 2

/-- The byte offset of element j in the destination. -/
def Walk2.off (w : Walk2) (j : Nat) : Nat × Nat :=
  match walkSpot w.d w.dos j with
  | .at off bit => (off, bit)
  | .out | .clipped => (0, 0)

/-- The bit address of an element at a byte offset and bit of a map. -/
def bitAddr (d : Desc) (p : Nat × Nat) : Nat := 8 * (tmBase d + p.1) + p.2

/-- The granules that an element of a map touches. -/
def granulesOf (d : Desc) (p : Nat × Nat) : List Nat :=
  let a := bitAddr d p
  if a / 512 = (a + eltBits (tmFmt d) - 1) / 512 then [a / 512] else [a / 512, a / 512 + 1]

/-- The units that element j lies in: its destination granules, or its block (R121, R122). -/
def Walk2.unitsAt (w : Walk2) (j : Nat) : List Nat :=
  if isBlocked (tmFmt w.d) then [(w.off j).1 / tmBlock w.d] else granulesOf w.d (w.off j)

/-- The distinct ones of a list, each at its first place. -/
def firsts (l : List Nat) : List Nat := l.foldl (fun acc v => if acc.contains v then acc else acc ++ [v]) []

/-- The elements that are written. -/
def Walk2.all (w : Walk2) : List Nat := (List.range (tmCount w.d)).filter w.written

/-- The units in walk order. -/
def Walk2.units (w : Walk2) : List Nat := firsts (w.all.flatMap w.unitsAt)

/-- The written elements of a unit, in walk order. -/
def Walk2.inUnit (w : Walk2) (u : Nat) : List Nat := w.all.filter fun j => (w.unitsAt j).contains u

/-- The place of an element of the source walk. -/
def Walk2.from (w : Walk2) (j : Nat) : Option (Nat × Nat) :=
  match walkSpot w.s w.sos j with
  | .at off bit => some (off, bit)
  | .out | .clipped => none

/-- The granules of an unblocked source that the copy reads whole (R121): those with each of their bytes touched by some element. -/
def Walk2.whole (w : Walk2) : List Nat :=
  if isBlocked (tmFmt w.s) then []
  else
    let bits := w.all.foldl (fun m j =>
      match w.from j with
      | none => m
      | some p => (granulesOf w.s p).foldl (fun m g =>
          mset m g (Nat.lor ((mget m g).getD 0) (shiftIn g (bitAddr w.s p) (2 ^ eltBits (tmFmt w.s) - 1)))) m) []
    bits.filterMap fun q => if (laidBytes q.2).length = 64 then some (2 * q.1 + (tmSpad w.s).toNat) else none

/-- The place of element e of a block, and whether it lies beyond EXTENT. -/
def blockSpot (d : Desc) (blk e : Nat) : Nat × Nat × Bool :=
  let w := eltBits (tmFmt d)
  let off := blk * tmBlock d + e * w / 8
  let bit := e * w % 8
  (off, bit, decide (tmExtent d ≤ off + eltBytes w bit - 1))

/-- The bytes of a unit that its step lands (R343): a byte counts once, however many elements share it; a block counts all its bytes
but those it leaves, and its scale. -/
def Walk2.unitBytes (w : Walk2) (u : Nat) : Nat :=
  if isBlocked (tmFmt w.d) then
    let es := (List.range (blockLen (tmFmt w.d) (tmBlk w.d))).map (blockSpot w.d u)
    (firsts ((es.filter fun e => !e.2.2).map fun e =>
      (List.range (eltBytes (eltBits (tmFmt w.d)) e.2.1)).map (e.1 + ·)).flatten).length + 1
  else
    let laid := overlay u (eltBits (tmFmt w.d)) ((w.inUnit u).map fun j => (bitAddr w.d (w.off j), 0))
    (laidBytes laid.2).length

/-- Does the copy clip an element of either map (R144)? -/
def Walk2.clips (w : Walk2) : Bool :=
  (List.range (tmCount w.d)).any fun j => walkSpot w.d w.dos j == .clipped || walkSpot w.s w.sos j == .clipped

/-- The rounding of element j (R343). -/
def State.eltRounding (s : State) (o : EngOp) (j : Nat) : Rounding :=
  let seed := (s.launch (s.team o.team).launch).seed
  roundingOf o.mode
    (generator seed (BitVec.ofNat 64 j) (BitVec.ofNat 64 o.id) ((modeStep o.mode).setWidth 64)).toNat

/-- The elements that a copy reads of the block at an offset of a blocked source. -/
def Walk2.mates (w : Walk2) (off : Nat) : List Nat :=
  w.all.filter fun j => (w.from j).any fun p => p.1 / tmBlock w.s == off / tmBlock w.s

/-- Reads source element j of a copy: an element of a block is read with all that the copy reads of the block, as one (R122). -/
def State.sourceElt (s : State) (w : Who) (c : Walk2) (j : Nat) : Except EngStop (State × Option Elt) :=
  match walkSpot c.s c.sos j with
  | .out => s.readElt w c.s .out
  | .clipped => s.readElt w c.s .clipped
  | .at off bit =>
      if isBlocked (tmFmt c.s) then
        let key := fun (i : Nat) => 2 ^ 70 + i
        let held : State → Option Elt := fun s => (s.seenOf w.op (key j)).map fun bs => ⟨leNat (bs.take 4), leNat (bs.drop 4)⟩
        match held s with
        | some e => .ok (s, some e)
        | none => do
            let s ← (c.mates off).foldlM (fun s i =>
              (s.readElt w c.s (walkSpot c.s c.sos i)).map fun r =>
                r.1.keepSeen w.op (key i) ((r.2.elim [] fun e => leBytes 4 e.bits ++ leBytes 1 e.scale))) s
            return (s, held s)
      else s.readElt w c.s (.at off bit)

/-- The elements of a granule of an unblocked destination, converted: their bit addresses and bits, and the flags. -/
def State.copyElts (s : State) (k : Nat) (o : EngOp) (w : Walk2) :
    List Nat → Except EngStop (State × List (Nat × Nat) × BitVec 6)
  | [] => .ok (s, [], 0)
  | j :: js => do
      let (s, e) ← s.sourceElt (s.whoOf k o) w j
      let e := e.getD ⟨0, 127⟩
      let c : Nat × BitVec 6 :=
        if tmFmt w.s = tmFmt w.d then (e.bits, 0)
        else eltConvert (tmFmt w.d) (s.eltRounding o j) (eltInput o.mode (tmFmt w.s) e.bits e.scale)
      let (s, rest, f) ← s.copyElts k o w js
      return (s, (bitAddr w.d (w.off j), c.1) :: rest, c.2 ||| f)

/-- Lays elements over a granule of a map's memory and writes it: at once, so that a granule written whole is one write (R86, R121). -/
def State.putGranule (s : State) (w : Who) (d : Desc) (u : Nat) (es : List (Nat × Nat)) : Except EngStop State :=
  let g := overlay u (eltBits (tmFmt d)) es
  s.writeGranule w (tmSpad d) u g.1 g.2

/-- Reads the source elements of a block with their walk indices. -/
def State.blockElts (s : State) (k : Nat) (o : EngOp) (w : Walk2) : List Nat → Except EngStop (State × List (Nat × Elt))
  | [] => .ok (s, [])
  | j :: js => do
      let (s, e) ← s.sourceElt (s.whoOf k o) w j
      let (s, es) ← s.blockElts k o w js
      return (s, (j, e.getD ⟨0, 127⟩) :: es)

/-- Reads the stored elements of a block that the walk does not write, for the places given. -/
def State.storedElts (s : State) (k : Nat) (o : EngOp) (d : Desc) (u : Nat) : List Nat → Except EngStop (State × List (Nat × Nat))
  | [] => .ok (s, [])
  | e :: es => do
      let p := blockSpot d u e
      let (s, bs) ← s.engRead (s.whoOf k o) (tmSpad d) (tmAddr d p.1) (eltBytes (eltBits (tmFmt d)) p.2.1)
      let (s, rest) ← s.storedElts k o d u es
      return (s, (e, getElt (eltBits (tmFmt d)) p.2.1 bs) :: rest)

/-- Writes bits at places of a block. -/
def State.putBlock (s : State) (k : Nat) (o : EngOp) (d : Desc) (u : Nat) : List (Nat × Nat) → Except EngStop State
  | [] => .ok s
  | (e, v) :: es => do
      let p := blockSpot d u e
      let s ← s.writeElt (s.whoOf k o) d p.1 p.2.1 v
      s.putBlock k o d u es

/-- The random word for a stored element that a copy encodes again: no rule gives its coordinates, so it is free, the same in every run
(assumption log 37). -/
def State.keptRounding (s : State) (o : EngOp) (u e : Nat) : Rounding :=
  let seed := (s.launch (s.team o.team).launch).seed
  roundingOf o.mode (Config.freeNat (.result o.id (u * 64 + e)) (seed.toNat * 2 ^ 32 + (modeStep o.mode).toNat))

/-- Encodes values as one destination block with the stored elements that they leave (R231, R343), and writes it; `kept` rounds
a stored element by its place. -/
def State.encodeUnit (s : State) (k : Nat) (o : EngOp) (d : Desc) (u : Nat) (got : List (Nat × Num × Rounding))
    (kept : Nat → Rounding) : Except EngStop (State × BitVec 6) := do
  let len := blockLen (tmFmt d) (tmBlk d)
  let keep := (List.range len).filter fun e => (mget got e).isNone && !(blockSpot d u e).2.2
  let (s, sc) ← if keep.isEmpty then .ok (s, [127])
    else s.engRead (s.whoOf k o) (tmSpad d) (scaleAddr d (u * tmBlock d)) 1
  let (s, old) ← s.storedElts k o d u keep
  let places := (List.range len).filter fun e => (mget got e).isSome || keep.contains e
  let vals := places.map fun e =>
    match mget got e with
    | some g => g
    | none => (eltValue (tmFmt d) ((mget old e).getD 0) (leNat sc), kept e)
  let enc := encodeBlock (tmFmt d) vals
  let s ← s.putBlock k o d u (places.zip enc.1)
  let s ← s.engWrite (s.whoOf k o) (tmSpad d) (scaleAddr d (u * tmBlock d)) (leBytes 1 enc.2.1)
  return (s, enc.2.2)

/-- The place in its block of an element at a byte offset and bit of a map. -/
def placeIn (d : Desc) (u : Nat) (p : Nat × Nat) : Nat := ((p.1 - u * tmBlock d) * 8 + p.2) / eltBits (tmFmt d)

/-- Writes one destination block (R343): whole and of one format and scale it is moved; else it is encoded as one unit. -/
def State.copyBlock (s : State) (k : Nat) (o : EngOp) (w : Walk2) (u : Nat) (js : List Nat) : Except EngStop (State × BitVec 6) := do
  let (s, es) ← s.blockElts k o w js
  let got := es.map fun e => (placeIn w.d u (w.off e.1), e)
  let scale := ((es.head?).map fun e => e.2.scale).getD 127
  let whole := (List.range (blockLen (tmFmt w.d) (tmBlk w.d))).all fun e => (mget got e).isSome
  if whole && tmFmt w.s == tmFmt w.d && es.all (fun e => e.2.scale == scale) then
    let s ← s.putBlock k o w.d u (got.map fun g => (g.1, g.2.2.bits))
    let s ← s.engWrite (s.whoOf k o) (tmSpad w.d) (scaleAddr w.d (u * tmBlock w.d)) (leBytes 1 scale)
    return (s, 0)
  else
    s.encodeUnit k o w.d u (got.map fun g =>
      (g.1, eltInput o.mode (tmFmt w.s) g.2.2.bits g.2.2.scale, s.eltRounding o g.2.1)) (s.keptRounding o u)

/-- Step i of a tensor copy: one unit of the destination. -/
def State.tensorStep (s : State) (k : Nat) (o : EngOp) (i : Nat) : StepOut :=
  match walkOf o.sub o.vals with
  | none => .ok (s, 0, 0)
  | some w => do
      let u := w.units.getD i 0
      if isBlocked (tmFmt w.d) then
        let (s, f) ← s.copyBlock k o w u (w.inUnit u)
        return (s, w.unitBytes u, f)
      else
        let (s, es, f) ← s.copyElts k o w (w.inUnit u)
        let s ← s.putGranule (s.whoOf k o) w.d u es
        return (s, w.unitBytes u, f)

/-- The barrier that a form names, where it has a barrier operand at place k. -/
def barName (bar : Bool) (vs : List Val) (k : Nat) : Option Nat := if bar then some (numOf vs k) else none

/-- An engine instruction's checks that come before its own (R128, R145, R237): `barAt` is the place of its barrier operand.
`k` goes on with the operand values of the lowest active lane. -/
def Exe.engine (x : Exe) (i : Instr) (barAt : Option Nat) (k : List Val → State) : State :=
  let badName := match barAt with
    | none => false
    | some b => !x.nameless i b && decide (x.launch.nbar ≤ numOf (x.onceVals i) b)
  if (x.active i.ctl).isEmpty then if badName then x.trapAll i trapHandle else x.commit i [] 0
  else x.once i fun vs => if badName then x.trapAll i trapHandle else k vs

/-- Issues an operation that names a barrier or none (R149), and completes the instruction with its future. -/
def Exe.launchOp (x : Exe) (i : Instr) (o : EngOp) : State :=
  let excess := match o.bar with
    | none => false
    | some b => (x.team.bar b).tooMany o.bytes
  if excess then x.trap i 0x0A (x.active i.ctl) 0
  else x.issue o fun x fut _ => x.commitAll i [.bits fut] (x.onceFlags i)

/-- The step of a linear COPY (R342). -/
def Exe.copyLinear (x : Exe) (i : Instr) (sub : Nat) (scope : Nat) (vs : List Val) : State :=
  let sp := copySpaces sub
  let d := (argOf vs 0).toBits
  let a := (argOf vs 1).toBits
  let n := numOf vs 2
  let eff := max (max scope (x.minScope sp.1 (pagesOf d n))) (x.minScope sp.2 (pagesOf a n))
  let go : Exe → State := fun x =>
    if n ≠ 0 ∧ ((sp.1 ∧ (x.s.spadAt x.g.team d.toNat n).isNone) ∨ (sp.2 ∧ (x.s.spadAt x.g.team a.toNat n).isNone)) then
      x.trap i 9 (x.active i.ctl) 0
    else
      let o := x.newOp i 0 vs eff (barName (8 ≤ sub) vs 3) (granules d.toNat n) n
      let st := if n = 0 then futOK else if x.windowDown sp.1 d || x.windowDown sp.2 a then futLinkKey else futPending
      let whole := if d.toNat % 64 = a.toNat % 64 then [] else wholeIn sp.2 a.toNat n
      x.launchOp i { o with status := st, whole := whole }
  if eff = 2 then x.onCore i go else go x

/-- The step of a tensor COPY (R341, R343, R144). -/
def Exe.copyTensor (x : Exe) (i : Instr) (sub : Nat) (scope : Nat) (vs : List Val) : State :=
  match walkOf sub vs with
  | none => x.trap i trapHandle (x.active i.ctl) 0
  | some w =>
      let named := if sub % 8 = 4 then w.s else w.d
      let os := if sub % 8 = 4 then w.sos else w.dos
      let eff := max (max scope (x.minScope (tmSpad w.d) (tmPages w.d w.dos))) (x.minScope (tmSpad w.s) (tmPages w.s w.sos))
      let go : Exe → State := fun x =>
        if (os.drop (tmNdim named)).any (· != 0) || tmCount w.d != tmCount w.s || (tmFmt w.d == 24) != (tmFmt w.s == 24) then
          x.trap i trapHandle (x.active i.ctl) 0
        else if !x.s.tmInside x.g.team w.d || !x.s.tmInside x.g.team w.s then x.trap i 9 (x.active i.ctl) 0
        else
          let units := w.units
          let o := x.newOp i 0 vs eff (barName (8 ≤ sub) vs 2) units.length (units.map w.unitBytes).sum
          let st := if x.windowDown (tmSpad w.d) (tmAddr w.d 0) || x.windowDown (tmSpad w.s) (tmAddr w.s 0)
            then futLinkKey else futPending
          x.launchOp i { o with status := st, clipped := w.clips, whole := w.whole }
      if eff = 2 then x.onCore i go else go x

/-- COPY (R341 to R343). -/
def execCopy (c : Ctl) (k : CopyKind) (bar : Bool) (scope : Scope) (ops : List Opnd) (s : State) :
    Host.Outcome State Fault Refusal :=
  onPath s fun x =>
    let i := Instr.copy c k bar scope ops
    let sub := (i.key.getD ⟨0, 0, 0⟩).sub
    let tensor := decide (4 ≤ sub % 8)
    x.engine i (if bar then some (if tensor then 2 else 3) else none) fun vs =>
      if tensor then x.copyTensor i sub scope.code vs else x.copyLinear i sub scope.code vs

/-! GATHER and SCATTER (R344). -/

/-- The bytes of a row of a gather or scatter. -/
def EngOp.rowLen (o : EngOp) : Nat := numOf o.vals 4

/-- The address of a row in enclave memory, once the indices are read. -/
def EngOp.rowAt (o : EngOp) (i : Nat) : Nat :=
  ((argOf o.vals (if o.sub % 8 = 1 then 0 else 1)).toBits + BitVec.ofInt 64 (o.rows.getD i 0 * o.rowLen)).toNat

/-- The granules that the rows of a scatter write, in walk order. -/
def EngOp.rowUnits (o : EngOp) : List Nat :=
  firsts ((List.range o.rows.length).flatMap fun i => (granuleParts (o.rowAt i) o.rowLen).map fun p => p.1 / 64)

/-- The granules that the rows of a gather read whole together (R121). -/
def EngOp.rowWhole (o : EngOp) : List Nat :=
  let bits := (List.range o.rows.length).foldl (fun m i =>
    (granuleParts (o.rowAt i) o.rowLen).foldl (fun m p =>
      mset m (p.1 / 64) (Nat.lor ((mget m (p.1 / 64)).getD 0) (shiftIn (p.1 / 64) (8 * p.1) (2 ^ (8 * p.2) - 1)))) m) []
  bits.filterMap fun q => if q.2 = 2 ^ 512 - 1 then some (2 * q.1) else none

/-- The n indices that stand at an offset of a team's scratchpad. -/
def State.indices (s : State) (t at_ n : Nat) : List Int :=
  (List.range n).map fun i =>
    match s.spadAt t (at_ + 4 * i) 4 with
    | some (t, a) => signedOf 32 (leNat (s.spadRead t a 4))
    | none => 0

/-- A gather or scatter reads its indices when it begins (R344): then its rows, and with them its steps, stand. -/
def State.beginRows (s : State) (k : Nat) (o : EngOp) : State × EngOp :=
  let n := numOf o.vals 3
  if o.cls ≠ 1 ∨ o.rows.length = n then (s, o)
  else
    let o : EngOp := { o with rows := s.indices o.team (numOf o.vals 2) n }
    let scatter := o.sub % 8 == 1
    let near := numOf o.vals (if scatter then 1 else 0)
    let aligned := o.rowLen % 64 = 0 ∧ near % 64 = 0 ∧ (argOf o.vals (if scatter then 0 else 1)).toBits.toNat % 64 = 0
    let whole := if aligned then [] else if scatter then wholeIn true near (n * o.rowLen) else o.rowWhole
    let o : EngOp := { o with whole := whole, total := if scatter then o.rowUnits.length else o.total }
    ({ s with ops := mset s.ops k o }, o)

/-- Step i of a gather: one granule of scratchpad. -/
def State.gatherStep (s : State) (k : Nat) (o : EngOp) (i : Nat) : StepOut := do
  let near := numOf o.vals 0
  let n := o.rows.length * o.rowLen
  let p := (granuleParts near n).getD i (0, 0)
  let lo := p.1 - near
  let hi := lo + p.2
  let (s, bs) ← (List.range ((hi - 1) / o.rowLen - lo / o.rowLen + 1)).foldlM (fun (q : State × List Byte) j =>
    let r := lo / o.rowLen + j
    let a := max lo (r * o.rowLen)
    let b := min hi ((r + 1) * o.rowLen)
    (q.1.engSource (s.whoOf k o) false (BitVec.ofNat 64 (o.rowAt r + (a - r * o.rowLen))) (b - a)).map fun x =>
      (x.1, q.2 ++ x.2)) (s, [])
  let s ← s.engWrite (s.whoOf k o) true (BitVec.ofNat 64 p.1) bs
  return (s, p.2, 0)

/-- Step i of a scatter: one granule of enclave memory. Of the rows that share a byte, one gives it: which one is free. -/
def State.scatterStep (s : State) (k : Nat) (o : EngOp) (i : Nat) : StepOut := do
  let near := numOf o.vals 1
  let u := o.rowUnits.getD i 0
  let parts := (List.range o.rows.length).flatMap fun r =>
    ((granuleParts (o.rowAt r) o.rowLen).filter fun p => p.1 / 64 == u).map fun p => (r, p.1, p.2)
  let (s, es) ← parts.foldlM (fun (q : State × List (Nat × List Byte)) p =>
    (q.1.engSource (s.whoOf k o) true (BitVec.ofNat 64 (near + p.1 * o.rowLen + (p.2.1 - o.rowAt p.1))) p.2.2).map fun x =>
      (x.1, q.2 ++ [(p.2.1, x.2)])) (s, [])
  let at_ := fun (b : Nat) => es.filterMap fun e => if e.1 ≤ 64 * u + b then e.2[64 * u + b - e.1]? else none
  let bytes := (List.range 64).filterMap fun b =>
    let vs := at_ b
    if vs.isEmpty then none
    else some (8 * (64 * u + b), (vs.getD (Config.freeNat (.ofOp k (64 * i + b)) 0 % vs.length) 0).toNat)
  let g := overlay u 8 bytes
  let s ← s.writeGranule (s.whoOf k o) false u g.1 g.2
  return (s, (parts.map fun p => p.2.2).sum, 0)

/-- The step of GATHER or SCATTER. -/
def Exe.gather (x : Exe) (i : Instr) (scatter bar : Bool) (scope : Nat) : State :=
  x.engine i (if bar then some 5 else none) fun vs =>
    let cnt := numOf vs 3
    let rb := numOf vs 4
    let far := (argOf vs (if scatter then 0 else 1)).toBits
    let near := numOf vs (if scatter then 1 else 0)
    if 65535 < cnt ∨ signedOf 32 rb < 1 ∨ 4096 < signedOf 32 rb then x.trap i trapHandle (x.active i.ctl) 0
    else if cnt ≠ 0 ∧ ((x.s.spadAt x.g.team (numOf vs 2) (4 * cnt)).isNone ∨ (x.s.spadAt x.g.team near (cnt * rb)).isNone) then
      x.trap i 9 (x.active i.ctl) 0
    else
      let total := if scatter then min cnt 1 else granules near (cnt * rb)
      let pages := (x.s.indices x.g.team (numOf vs 2) cnt).flatMap fun j => pagesOf (far + BitVec.ofInt 64 (j * rb)) rb
      let o := x.newOp i 1 vs (max scope (x.minScope false pages.eraseDups)) (barName bar vs 5) total (cnt * rb)
      x.launchOp i { o with status := if x.windowDown false far then futLinkKey else futPending }

/-- GATHER (R344). -/
def execGather (c : Ctl) (bar : Bool) (scope : Scope) (ops : List Opnd) (s : State) : Host.Outcome State Fault Refusal :=
  onPath s fun x => x.gather (.gather c bar scope ops) false bar (max scope.code 2)

/-- SCATTER (R344). -/
def execScatter (c : Ctl) (bar : Bool) (scope : Scope) (ops : List Opnd) (s : State) : Host.Outcome State Fault Refusal :=
  onPath s fun x => x.gather (.scatter c bar scope ops) true bar (max scope.code 2)

/-! TMAP (R142, R345). -/

/-- A path waits on what stopped an access of its own, or its launch ends (R45, R47). -/
def Exe.stopped (x : Exe) (kind : AccessKind) (st : Stop) : State :=
  match st.found with
  | .fault f => x.s.faultAccess x.team.launch x.team.core x.g.slot kind (.path x.gid x.pid) st.va f
  | .search pa m => x.s.startSearch pa m
  | .moving => if x.s.moving.contains (x.gid, x.pid) then x.s else { x.s with moving := x.s.moving ++ [(x.gid, x.pid)] }
  | .window .. => x.s.endLaunch x.team.launch stLinkKey 0 0 0
  | .ok .. => x.s

/-- A path's read of n bytes for an instruction that reads its operands once: it waits or ends as a load does. Through a window its
requests are sent (R156), and what comes back is free. -/
def Exe.plainRead (x : Exe) (va : BitVec 64) (kind : AccessKind) (n : Nat) (k : State → List Byte → State) : State :=
  match x.s.locate (some x.unit) x.eid va kind n with
  | .error st => x.stopped kind st
  | .ok ps =>
      match localPieces ps with
      | some ps => k (x.touchAll 0 false x.s ps) (x.s.readPieces ps)
      | none =>
          let w := windowIn ps
          if x.s.windowUp x.eid w = false then x.s.endLaunch x.team.launch stLinkKey 0 0 0
          else if x.s.windowWaits x.eid w then x.s
          else k (x.s.askWindow x.eid w (windowAddr ps) false (leBytes n 0)) (x.s.windowBytes va.toNat n)

/-- TMAP (R345): the descriptor's fields are checked once it is read. -/
def execTmap (c : Ctl) (sp : Bool) (ops : List Opnd) (s : State) : Host.Outcome State Fault Refusal :=
  onPath s fun x =>
    let i := Instr.tmap c sp ops
    x.engine i none fun vs =>
      let a := (argOf vs 0).toBits
      let give : State → List Byte → State := fun s d =>
        if tmOk d then (x.upon s).commitAll i [.tmap d none] (x.onceFlags i)
        else (x.upon s).trap i trapHandle (x.active c) 0
      match sp, x.s.spadAt x.g.team a.toNat 128 with
      | true, none => x.trap i 9 (x.active c) 0
      | true, some (t, o) => if a.toNat % 64 ≠ 0 then x.trap i 0x0B (x.active c) 0 else give x.s (x.s.spadRead t o 128)
      | false, _ => if a.toNat % 64 ≠ 0 then x.trap i 0x0B (x.active c) 0 else x.plainRead a .load 128 give

/-! FUT (R134 to R136, R346). -/

/-- What each active lane's future reports. -/
abbrev FutViews := List (Nat × BitVec 8 × Option Nat)

/-- The checks of the forms that read each active lane's own future (R131, R346): HANDLE_INVALID comes in every lane of the path,
guard ignored. `k` goes on with what the futures report and the flags of the read. -/
def Exe.futures (x : Exe) (i : Instr) (k : FutViews → BitVec 6 → State) : State :=
  match x.judge i fun _ _ vs =>
      if x.s.futValid x.g.team (argOf vs 0).toBits then .done [] 0 else .trap 0 trapHandle with
  | .trap code lanes flags => if code = trapHandle then x.trapAll i trapHandle else x.trap i code lanes flags
  | .done _ flags =>
      k ((x.active i.ctl).map fun l => (l, x.s.futState x.g.team (argOf (x.vals (x.plan i) l) 0).toBits)) flags

/-- The flags of the operations that have completed among some futures (R95, R236). -/
def State.observed (s : State) (fs : FutViews) : BitVec 6 :=
  fs.foldl (fun f v => if v.2.1 = futPending then f else f ||| s.opFlags v.2.2) 0

/-- The state after a path's lanes have observed the operations that have completed among some futures. -/
def Exe.observing (x : Exe) (fs : FutViews) : Exe :=
  x.upon (x.s.watch x.gid x.p.mask (fs.filterMap fun v => if v.2.1 = futPending then none else v.2.2))

/-- FUT.TEST (R134, R346). -/
def execFutTest (c : Ctl) (ops : List Opnd) (s : State) : Host.Outcome State Fault Refusal :=
  onPath s fun x => x.futures (.futTest c ops) fun fs flags =>
    (x.observing fs).commit (.futTest c ops) (fs.map fun v => (v.1, [.ofBool (v.2.1 != futPending)])) (flags ||| x.s.observed fs)

/-- FUT.WAIT (R134, R346): the path waits for all of its lanes' futures. -/
def execFutWait (c : Ctl) (ops : List Opnd) (s : State) : Host.Outcome State Fault Refusal :=
  onPath s fun x => x.futures (.futWait c ops) fun fs flags =>
    if fs.any fun v => v.2.1 == futPending then x.s
    else (x.observing fs).commit (.futWait c ops) (fs.map fun v => (v.1, [])) (flags ||| x.s.observed fs)

/-- FUT.STATUS (R133, R346). -/
def execFutStatus (c : Ctl) (ops : List Opnd) (s : State) : Host.Outcome State Fault Refusal :=
  onPath s fun x => x.futures (.futStatus c ops) fun fs flags =>
    (x.observing fs).commit (.futStatus c ops) (fs.map fun v => (v.1, [ofTy .i32 v.2.1.toNat])) (flags ||| x.s.observed fs)

/-- FUT.ALL (R136, R346). -/
def execFutAll (c : Ctl) (ops : List Opnd) (s : State) : Host.Outcome State Fault Refusal :=
  onPath s fun x =>
    let i := Instr.futAll c ops
    x.engine i none fun vs =>
      if vs.any fun v => !x.s.futValid x.g.team v.toBits then x.trapAll i trapHandle
      else
        let views := vs.map fun v => x.s.futState x.g.team v.toBits
        let scopes := views.map fun v => ((v.2.bind (mget x.s.ops)).map EngOp.scope).getD 2
        let o := x.newOp i 5 vs (scopes.foldl max 0) none 0 0
        let o : EngOp := { o with members := views.map fun v => (v.2.getD 0, v.1.toNat, []) }
        x.issue o fun x fut _ => (x.upon (x.s.combineAll x.s.ops.length)).commitAll i [.bits fut] (x.onceFlags i)

/-! YIELD (R138, R347). -/

/-- The path goes on at the continuation of its YIELD, whose lanes observe their futures. -/
def Exe.resume (x : Exe) (i : Instr) (fs : FutViews) (flags : BitVec 6) : State :=
  let t := pcTarget x.p.pc ((targetsOf i.ops).headD 0)
  let p : Path := { x.p.goto t 1 with mode := modeRaise x.p.mode (flags ||| x.s.observed fs), yield := none }
  let y := x.observing fs
  y.count (y.put ((y.write i []).setPath y.pid p)) 1

/-- YIELD (R138, R347): it parks the path until every active lane's future has completed; inside a handler it waits. -/
def execYield (c : Ctl) (ops : List Opnd) (s : State) : Host.Outcome State Fault Refusal :=
  onPath s fun x =>
    let i := Instr.yield c ops
    x.futures i fun fs flags =>
      if fs.all fun v => v.2.1 != futPending then x.resume i fs flags
      else if x.g.handler.isSome then x.s
      else x.put (x.g.setPath x.pid { x.p with yield := some (pcTarget x.p.pc ((targetsOf ops).headD 0)) })

/-- YIELD_RESUME (R138): the futures of a parked path have completed; it goes on at its continuation. -/
def execYieldResume (g p : Nat) (s : State) : Host.Outcome State Fault Refusal :=
  .next <|
    match s.exeOf g p with
    | none => s
    | some x =>
        let x := x.upon s
        match x.p.yield, (x.tr.fetch x.p.pc).1 with
        | some _, .ok i =>
            let fs : FutViews := x.lanes.map fun l => (l, s.futState x.g.team (argOf (x.vals (x.plan i) l) 0).toBits)
            if fs.all fun v => v.2.1 != futPending then x.resume i fs (flagIf (x.lanes.any (x.readsPoison (x.plan i))) flagPO)
            else s
        | _, _ => s

/-- ENGINE_ISSUE_RESUME (R127): an operation has completed, and the path that waits at issue has the next turn. -/
def execEngineIssueResume (g p : Nat) (s : State) : Host.Outcome State Fault Refusal :=
  .next { s with turns := .path g p :: s.turns }

end Sys2Proof.Machine
end

