-- ==== Sys2Proof/Machine/Coll.lean ====
section
/-! DEFINITION. Collectives (R162 to R166, R350 to R352): groups, contributions, the reduction, and their events. -/

namespace Sys2Proof.Machine

/-- GROUP_MISMATCH (R133). -/
def futMismatch : BitVec 8 := 9
/-- KEY_STALE. -/
def futStale : BitVec 8 := 7
/-- PEER_LOST. -/
def futPeerLost : BitVec 8 := 8

/-! What an operation combines. -/

/-- The element type of `coll.red` by its operation word (R350). -/
def collTy (op : Nat) : Ty :=
  match bitsOf op 7 4 with
  | 0 => .i32 | 1 => .i64 | 2 => .f32 | 3 => .bf16 | 4 => .f16 | _ => .f64

/-- The kind of `coll.red` by its operation word; min and max read integers signed. -/
def collKind (op : Nat) : ScanKind :=
  match bitsOf op 3 0 with
  | 0 => .add | 1 => .smin | 2 => .smax | 3 => .and | 4 => .or | _ => .xor

/-- Combines partials two by two in a tree that no rule fixes (R126, R165): `pick` draws free numbers. -/
def treeFold (f : Nat → Nat → Nat × BitVec 6) (pick : Nat → Nat) : Nat → List Nat → BitVec 6 → Nat × BitVec 6
  | 0, l, flags => (l.headD 0, flags)
  | fuel + 1, l, flags =>
      if l.length ≤ 1 then (l.headD 0, flags)
      else
        let i := pick (2 * fuel) % l.length
        let rest := l.eraseIdx i
        let j := pick (2 * fuel + 1) % rest.length
        let r := f (l.getD i 0) (rest.getD j 0)
        treeFold f pick fuel (r.1 :: rest.eraseIdx j) (flags ||| r.2)

/-- One element of a reduction from the members' partials (R165), with flags; floating sums round by RNE. The mode word's other
fields are those of the issuing path. -/
def collElement (k : Nat) (op : Nat) (mode : BitVec 64) (e : Nat) (parts : List Nat) : Nat × BitVec 6 :=
  let t := collTy op
  treeFold (combine (collKind op) t mode { roundingOf mode 0 with rm := 0 })
    (fun n => Config.freeNat (.ofOp k (64 * e + n)) 0) parts.length parts 0

/-! Groups. -/

/-- The collective group that a handle of an enclave names, with its key. -/
def State.collOf (s : State) (e h : Nat) : Option (Nat × Coll) := s.colls.find? fun c => c.2.enclave == e && c.2.handle == h

/-- Bytes that a collective moves at a member: those of its elements, or the broadcast's. -/
def collBytes (form op n : Nat) : Nat := if form = 1 then n * bytesOf (collTy op) else if form = 2 then n else 0

/-- Does a member contribute bytes: in a reduction, or as the root of a broadcast? -/
def Coll.sends (c : Coll) (about : Contrib) (member : Nat) : Bool :=
  about.form == 1 || (about.form == 2 && c.members[about.root]? == some member)

/-- Is a contribution whole? -/
def Coll.whole (c : Coll) (m : CollMsg) : Bool :=
  !c.sends m.about m.member || decide (collBytes m.about.form m.about.op m.about.count ≤ m.data.length)

/-- The contributions to a meeting. -/
def Coll.meeting (c : Coll) (number : Nat) : List CollMsg := c.inbox.filter fun m => m.about.number == number

/-- Is a key generation live (R163)? -/
def Coll.live (c : Coll) (gen : Nat) : Bool := gen == c.gen || (c.rekey && gen == c.gen + 1)

/-- Do two contributions agree in form, kind, type, n and root (R352)? Those to a barrier agree; they hold as their count 0, or
the address of the cut descriptor that their member names, plus 1 (R386). -/
def agrees (a b : Contrib) : Bool :=
  a.form == b.form && a.op == b.op && a.root == b.root && (a.count == b.count || a.form == 3)

/-- The form of a notice that a member has cancelled the meeting (R135), or lost it to a pre-emption (R166) or with a stream
(R159). -/
def noticeForm (st : BitVec 8) : Nat := if st = futPreempt then 5 else if st = futLinkKey then 6 else 4

/-- The outcome of a meeting, once every member has contributed (R163, R352) or one has given it up (R135, R166). Once a result
is being written, it stands. -/
def Coll.verdict (c : Coll) (number : Nat) : Option (BitVec 8) :=
  match mget c.decided number with
  | some d => some d.1
  | none =>
      let ms := c.meeting number
      match ms with
      | [] => none
      | m :: _ =>
          if ms.any fun q => q.about.form == 4 then some futCancelled
          else if ms.any fun q => q.about.form == 5 then some futPreempt
          else if ms.any fun q => q.about.form == 6 then some futLinkKey
          else if ms.length < c.members.length then none
          else if ms.any fun q => !agrees q.about m.about then some futMismatch
          else if m.about.form == 2 && decide (c.members.length ≤ m.about.root) then some futMismatch
          else if ms.any fun q => !c.live q.about.gen then some futStale
          else if ms.all c.whole then some futOK
          else none

/-- The newest live generation (R163). -/
def Coll.newest (c : Coll) : Nat := if c.rekey then c.gen + 1 else c.gen

/-- A meeting's result is begun: it is decided, and sealed under the newest live generation (R163). -/
def Coll.decide_ (c : Coll) (number : Nat) : Coll :=
  if (mget c.decided number).isSome then c else { c with decided := mset c.decided number (futOK, c.newest) }

/-- A member's contribution under a generation's collective key, to or from its encrypted form (R163). -/
def Coll.cipher (c : Coll) (gen number member : Nat) (bs : List Byte) : List Byte :=
  match mget c.keys gen with
  | none => bs
  | some k => bs.mapIdx fun i b => b ^^^ gcmStream (Config.keyBits k) (Config.collNonce number member) i

/-- The bytes of a contribution, decrypted with its own generation's key; this package's own stand as they were read. -/
def Coll.plain (c : Coll) (own : Nat) (m : CollMsg) : List Byte :=
  if m.member = own then m.data else c.cipher m.about.gen m.about.number m.member m.data

/-- The collective group with a contribution's bytes added from an offset on. -/
def Coll.fill (c : Coll) (member number off : Nat) (bs : List Byte) : Coll :=
  { c with inbox := c.inbox.map fun m =>
      if m.member = member ∧ m.about.number = number then { m with data := putBytes (padTo (off + bs.length) m.data) off bs }
      else m }

/-- A member's contribution arrives in a flit: a new one, or further bytes of one that is present. -/
def Coll.receive (c : Coll) (member : Nat) (about : Contrib) (bs : List Byte) : Coll :=
  match c.inbox.find? fun m => m.member == member && m.about.number == about.number with
  | some m => c.fill member about.number m.data.length bs
  | none => { c with inbox := c.inbox ++ [⟨member, about, bs⟩] }

/-! Issue (R350 to R352). -/

/-- A handle value from h on that has not been used; the fuel counts the used ones. -/
def nextHandle (used : List Nat) : Nat → Nat → Nat
  | 0, h => h
  | fuel + 1, h => if used.contains h then nextHandle used fuel ((h + 1) % 65536) else h

/-- Is the list one of packages that can form a group (R351)? -/
def State.listOk (s : State) (ms : List Nat) : Bool :=
  ms.all (fun m => decide (m < s.fabricP)) && (distinct ms).length == ms.length && ms.contains s.fabricF

/-- Are all streams to the other members in UP (R159)? -/
def State.membersUp (s : State) (e : Nat) (ms : List Nat) : Bool :=
  ms.all fun m => m == s.fabricF || (s.streamUp e m).isSome

/-- The digest of an ordered list of packages (R162). -/
def listDigest (ms : List Nat) : BitVec 384 := sha384 (ms.map (BitVec.ofNat 8))

/-- Issues the build of a group over the members that the list names, or none where the list's length is out of range. -/
def Exe.collBuild (x : Exe) (i : Instr) (scope : Nat) (vs : List Val) (down : Bool) (ms : Option (List Nat)) : State :=
  let used := x.encl.handles
  let h := nextHandle used used.length (Config.freeNat (.choice 2000) x.s.free % 65536)
  let o := x.newOp i 3 vs scope none 0 0
  if 65536 ≤ used.length then
    x.issue { o with status := futMismatch } fun x fut _ =>
      x.commitAll i [.bits fut, ofTy .i32 (Config.freeNat (.result 0 0) x.s.free % 65536)] (x.onceFlags i)
  else
    let st := match ms with
      | none => if down then futLinkKey else futMismatch
      | some l => if !x.s.listOk l then futMismatch else if x.s.membersUp x.eid l then futPending else futLinkKey
    x.issue { o with status := st } fun y fut num =>
      let e := y.s.encl x.eid
      let s := y.s.setEncl x.eid { e with handles := e.handles ++ [h] }
      let s : State := if st = futPending then
          let list := ms.getD []
          { s with colls := s.colls ++ [(num, ⟨x.eid, h, list, .building, 0, false, num, 0, [], listDigest list, [], []⟩)] }
        else s
      (x.upon s).commitAll i [.bits fut, ofTy .i32 h] (x.onceFlags i)

/-- COLL.GROUP (R351). -/
def execCollGroup (c : Ctl) (scope : Scope) (ops : List Opnd) (s : State) : Host.Outcome State Fault Refusal :=
  onPath s fun x =>
    let i := Instr.collGroup c scope ops
    x.engine i none fun vs =>
      let sc := max scope.code 7
      let k := numOf vs 1
      let list := (argOf vs 0).toBits
      if k < 2 ∨ 15 < k then x.collBuild i sc vs false none
      else if x.windowDown false list then x.collBuild i sc vs true none
      else if x.issueWaits 3 then x.s
      else x.plainRead list .engRead k fun s bs => (x.upon s).collBuild i sc vs false (some (bs.map BitVec.toNat))

/-- Issues a collective (R350 to R352); `k` goes on with its future and the operation's number. -/
def Exe.collIssueTo (x : Exe) (i : Instr) (scope form op h n root : Nat) (vs : List Val)
    (k : Exe → BitVec 64 → Nat → State) : State :=
  let sc := max scope 7
  let o : EngOp := { x.newOp i 3 vs sc none 0 0 with maj := 0x51, sub := form }
  let once : BitVec 8 → State := fun st =>
    x.issue { o with status := st } k
  match x.s.collOf x.eid h with
  | none => once futMismatch
  | some (key, c) =>
      match c.state with
      | .building | .invalid => once futMismatch
      | .lost => once futPeerLost
      | .valid =>
          if form = 1 ∧ n = 0 then once futOK
          else
            let about : Contrib := ⟨key, c.issued, c.gen, form, op, n, root⟩
            let about : Contrib :=
              if c.rekey && (Config.freeBits (.choice 2001) x.s.free).getLsbD 0 then { about with gen := c.gen + 1 } else about
            let bytes := collBytes form op n
            let reads := if c.sends about x.s.fabricF then granules (numOf vs 3) bytes else 0
            let writes := if form = 3 then 0 else granules (numOf vs 2) bytes
            let up := x.s.membersUp x.eid c.members
            let o : EngOp := { o with
              total := reads + writes, members := [(key, c.issued, [])], status := if up then futPending else futLinkKey }
            x.issue o fun y fut num =>
              let c' : Coll := { c with issued := c.issued + 1 }
              let c' := if up then c'.receive y.s.fabricF about [] else c'
              let s : State := { y.s with colls := mset y.s.colls key c' }
              let s := if up && reads == 0 then s.collSend x.eid c.issued c.members [] else s
              k (x.upon s) fut num

/-- The step of COLL.RED, COLL.BCAST and COLL.BAR. -/
def Exe.collIssue (x : Exe) (i : Instr) (scope form op h n root : Nat) (vs : List Val) : State :=
  x.collIssueTo i scope form op h n root vs fun y fut _ => y.commitAll i [.bits fut] (x.onceFlags i)

/-- COLL.RED (R351). -/
def execCollRed (c : Ctl) (scope : Scope) (ops : List Opnd) (s : State) : Host.Outcome State Fault Refusal :=
  onPath s fun x =>
    let i := Instr.collRed c scope ops
    x.engine i none fun vs => x.collIssue i scope.code 1 (numOf vs 0) (numOf vs 1) (numOf vs 4) 0 vs

/-- COLL.BCAST (R351). A root beyond the list is a mismatch (assumption log 123). -/
def execCollBcast (c : Ctl) (scope : Scope) (ops : List Opnd) (s : State) : Host.Outcome State Fault Refusal :=
  onPath s fun x =>
    let i := Instr.collBcast c scope ops
    x.engine i none fun vs => x.collIssue i scope.code 2 0 (numOf vs 0) (numOf vs 4) (numOf vs 1) vs

/-- COLL.BAR (R351): its issue is the arrive of the collective barrier, the observation of its future the depart. -/
def execCollBar (c : Ctl) (scope : Scope) (ops : List Opnd) (s : State) : Host.Outcome State Fault Refusal :=
  onPath s fun x =>
    let i := Instr.collBar c scope ops
    x.engine i none fun vs => x.collIssue i scope.code 3 0 (numOf vs 0) 0 0 vs

/-! Progress. -/

/-- The result bytes [lo, hi) of a meeting and the flags of the elements that begin there (R165, R351). -/
def Coll.result (c : Coll) (own k : Nat) (o : EngOp) (number lo hi : Nat) : List Byte × BitVec 6 :=
  let ms := c.meeting number
  if o.sub = 1 then
    let op := numOf o.vals 0
    let sz := bytesOf (collTy op)
    let elems := (List.range ((hi + sz - 1) / sz - lo / sz)).map fun q =>
      let e := lo / sz + q
      (e, collElement k op o.mode e (ms.map fun m => fieldAt (c.plain own m) (e * sz) sz))
    let bytes := (elems.map fun e => leBytes sz e.2.1).flatten
    ((bytes.drop (lo - lo / sz * sz)).take (hi - lo),
     elems.foldl (fun f e => if lo ≤ e.1 * sz then f ||| e.2.2 else f) 0)
  else
    let root := (ms.find? fun m => c.sends m.about m.member).map (c.plain own)
    ((((root.getD []).drop lo).take (hi - lo)), 0)

/-- The read steps of a collective: granules of s that this member contributes. -/
def Coll.readSteps (c : Coll) (o : EngOp) (member : Nat) : Nat :=
  match (c.meeting o.meeting.2).find? fun m => m.member == member with
  | none => 0
  | some m => if c.sends m.about member then granules (numOf o.vals 3) (collBytes m.about.form m.about.op m.about.count) else 0

/-- Is a collective's result being written? -/
def EngOp.writing (o : EngOp) (reads : Nat) : Bool := o.landed.any fun i => decide (reads ≤ i)

/-- Gives a collective up with CANCELLED or CANCELLED_PREEMPT, unless its result is being written: it completes so at every
member, and a group that it was to build never becomes valid (R135, R166). -/
def State.collAbort (s : State) (k : Nat) (o : EngOp) (st : BitVec 8) : State :=
  let notice := [BitVec.ofNat 8 (noticeForm st)]
  if o.sub = 0 then
    match mget s.colls k with
    | none => s.finishOp k st
    | some c =>
        (({ s with colls := mset s.colls k { c with state := .invalid } } : State).collSend c.enclave 0 c.members notice).finishOp k st
  else
    let q := o.meeting
    match mget s.colls q.1 with
    | none => s.finishOp k st
    | some c =>
        if o.writing (c.readSteps o s.fabricF) then s
        else
          ((s.collSend c.enclave q.2 c.members notice).finishOp k st) |> fun s =>
            { s with colls := mset s.colls q.1 (c.close q.2) }

/-- Step i of a collective: it reads a granule of s, or, once the members' contributions are whole, agree and are live, writes
one of d (R351). -/
def State.collStep (s : State) (k : Nat) (o : EngOp) (i : Nat) : State :=
  let q := o.meeting
  match mget s.colls q.1 with
  | none => s
  | some c =>
      let own := s.fabricF
      let n := collBytes o.sub (numOf o.vals 0) (numOf o.vals 4)
      let reads := c.readSteps o own
      if o.cancel && !o.writing reads then s.collAbort k o futCancelled
      else if i < reads then
        let a := numOf o.vals 3
        let lo := max a ((a / 64 + i) * 64)
        let hi := min (a + n) ((a / 64 + i + 1) * 64)
        match s.engRead (s.whoOf k o) false (BitVec.ofNat 64 lo) (hi - lo) with
        | .error e => s.engStop k o e
        | .ok (s, bs) =>
            let c := c.fill own q.2 (lo - a) bs
            let s : State := { s with colls := mset s.colls q.1 c }
            let s := if (List.range reads).all fun j => j == i || o.did j then
                s.collSend c.enclave q.2 c.members <|
                  ((c.meeting q.2).find? fun m => m.member == own).elim [] fun m => c.cipher m.about.gen q.2 own m.data
              else s
            s.stepDone k i 0 0
      else if c.verdict q.2 = some futOK ∧ (List.range reads).all o.did then
        let d := numOf o.vals 2
        let g := i - reads
        let lo := max d ((d / 64 + g) * 64)
        let hi := min (d + n) ((d / 64 + g + 1) * 64)
        let r := c.result own k o q.2 (lo - d) (hi - d)
        let s : State := { s with
          ops := mset s.ops k { o with cancel := false }, colls := mset s.colls q.1 (c.decide_ q.2) }
        s.stepOp k i o ((s.engWrite (s.whoOf k o) false (BitVec.ofNat 64 lo) r.1).map fun s => (s, 0, r.2))
      else s

/-- A collective is completed by its meeting's outcome (R352), or gives way to a request to stop (R135). -/
def State.collFinish (s : State) (k : Nat) (o : EngOp) : State :=
  let q := o.meeting
  if o.sub = 0 then if o.cancel then s.collAbort k o futCancelled else s
  else
    match mget s.colls q.1 with
    | none => s
    | some c =>
        if o.cancel && !o.writing (c.readSteps o s.fabricF) then s.collAbort k o futCancelled
        else
          match c.verdict q.2 with
          | none => s
          | some st =>
              if st = futOK && !(List.range o.total).all o.did then s
              else
                let ms := c.meeting q.2
                let differ := o.sub == 3 && ms.any fun m => some m.about.count != (ms.head?.map fun m => m.about.count)
                ({ s with colls := mset s.colls q.1 (c.close q.2), ops := mset s.ops k { o with clipped := differ } } : State).finishOp k st

/-! Events. -/

/-- COLL_GROUP_BUILD_DONE (R162): the digests of the other members have come. Where all are this member's own, the handle is
valid, and the root of trust gives the group its first collective key; else no handle is. -/
def execCollGroupBuildDone (k : Nat) (digests : List (BitVec 384)) (s : State) : Host.Outcome State Fault Refusal :=
  .next <|
    match mget s.colls k with
    | none => s
    | some c =>
        let agree := digests.all (· == c.digest)
        if c.state ≠ .building ∨ digests.length + 1 ≠ c.members.length then s
        else if agree then
          ({ s with keys := s.keys + 1, colls := mset s.colls k { c with state := .valid, keys := [(0, s.keys)] } } : State).finishOp
            c.build futOK
        else ({ s with colls := mset s.colls k { c with state := .invalid } } : State).finishOp c.build futMismatch

/-- COLL_GROUP_REKEY (R163): generation n + 1 becomes live with a fresh key, or, when every member has acknowledged it, the only
one. -/
def execCollGroupRekey (k : Nat) (done : Bool) (s : State) : Host.Outcome State Fault Refusal :=
  .next <|
    match mget s.colls k with
    | none => s
    | some c =>
        if c.state ≠ .valid ∨ done ≠ c.rekey then s
        else if done then
          { s with colls := mset s.colls k { c with rekey := false, gen := c.gen + 1, keys := mdel c.keys c.gen } }
        else
          { s with keys := s.keys + 1, colls := mset s.colls k { c with rekey := true, keys := mset c.keys (c.gen + 1) s.keys } }

/-- The collectives in flight on a group. -/
def State.collOps (s : State) (key : Nat) : List Nat :=
  (s.ops.filter fun o => o.2.cls == 3 && o.2.status == futPending && o.2.sub != 0 && o.2.meeting.1 == key).map Prod.fst

/-- COLL_PEER_LOST (R164): the handle is lost for good, and its collectives in flight complete without a result. One whose result is
being written has all contributions, and completes with them (assumption log 114). -/
def execCollPeerLost (k member : Nat) (s : State) : Host.Outcome State Fault Refusal :=
  .next <|
    match mget s.colls k with
    | none => s
    | some c =>
        if c.state ≠ .valid ∨ member = s.fabricF ∨ c.members.contains member = false then s
        else
          let s' : State := { s with colls := mset s.colls k { c with state := .lost } }
          let lost := (s.collOps k).filter fun op => !(mget s.ops op).any fun o => o.writing (c.readSteps o s.fabricF)
          lost.foldl (fun s op => s.finishOp op futPeerLost) s'

/-! FUT.CANCEL (R135, R346). -/

/-- Requests the stop of an operation (R135): a stalled one stops at once, a combined one not at all. The drain of a cutting has no
stop point in R410: its future completes at once (assumption log 107). -/
def State.cancelOp (s : State) (k : Nat) : State :=
  match mget s.ops k with
  | none => s
  | some o =>
      if o.status != futPending || o.cls == 5 then s
      else if s.waiting (.eng k) then if o.cls = 3 then s.collAbort k o futCancelled else s.finishOp k futCancelled
      else if o.cls = 6 then s.finishOp k futCancelled
      else { s with ops := mset s.ops k { o with cancel := true } }

/-- FUT.CANCEL (R135, R346): each distinct current future is cancelled once. -/
def execFutCancel (c : Ctl) (ops : List Opnd) (s : State) : Host.Outcome State Fault Refusal :=
  onPath s fun x => x.futures (.futCancel c ops) fun fs flags =>
    let ks := firsts (fs.filterMap fun v => if v.2.1 = futPending then v.2.2 else none)
    (x.upon (ks.foldl State.cancelOp x.s)).commit (.futCancel c ops) (fs.map fun v => (v.1, [])) flags

end Sys2Proof.Machine
end

