-- ==== Sys2Proof/Machine/Load.lean ====
section
/-! DEFINITION. Code objects (R200 to R207) and the acceptance of launches (R394, R180, R397). -/

namespace Sys2Proof.Machine

/-- Why a load or an acceptance goes no further: an access that stops, or a launch status. -/
inductive Reject where
  | stop (st : Stop)
  | status (n : Nat)
  deriving DecidableEq, Repr

/-- Rejects with a status unless a condition holds. -/
def demand (ok : Bool) (status : Nat) : Except Reject Unit := if ok then .ok () else .error (.status status)

/-- Reads n bytes for a load or an acceptance, as plain loads of the enclave (R203, R380). -/
def State.readVa (s : State) (unit : Option Nat) (e : Nat) (va : BitVec 64) (n : Nat) : Except Reject (List Byte) :=
  if n = 0 then .ok []
  else
    match s.hwRead unit e va .load n with
    | .ok bs => .ok bs
    | .error st => .error (.stop st)

/-! The launch statuses of loading and acceptance (R396). -/

/-- BAD_DESCRIPTOR. -/
def stBadDescriptor : Nat := 1
/-- BAD_OBJECT. -/
def stBadObject : Nat := 2
/-- BAD_LEVEL. -/
def stBadLevel : Nat := 3
/-- BAD_FEATURE. -/
def stBadFeature : Nat := 4
/-- BAD_EXTENT. -/
def stBadExtent : Nat := 5
/-- BAD_SHAPE. -/
def stBadShape : Nat := 6
/-- BAD_BUDGET. -/
def stBadBudget : Nat := 7
/-- BAD_PLACEMENT. -/
def stBadPlacement : Nat := 8
/-- TOO_LARGE. -/
def stTooLarge : Nat := 9
/-- NO_HALL. -/
def stNoHall : Nat := 0x0A

/-! Code objects. -/

/-- A table of an object: its offset, its count and the bytes of an entry (R200). -/
structure TableAt where
  off : Nat
  count : Nat
  size : Nat
  deriving DecidableEq, Repr

/-- The bytes of a table. -/
def TableAt.len (t : TableAt) : Nat := t.count * t.size

/-- The note and the tables that a header names: note, functions, landings, format blocks, parameters (R200). -/
def tablesOf (h : List Byte) : List TableAt :=
  [⟨fieldAt h 0x08 4, 1, 32⟩, ⟨fieldAt h 0x0C 4, fieldAt h 0x10 4, 32⟩, ⟨fieldAt h 0x14 4, fieldAt h 0x18 4, 16⟩,
   ⟨fieldAt h 0x1C 4, fieldAt h 0x20 4, 32⟩, ⟨fieldAt h 0x28 4, fieldAt h 0x2C 4, 8⟩]

/-- Does a table keep its limits: its offset a multiple of 16, and, if it has bytes, past the header and below the top of the
48-bit space (R203)? -/
def TableAt.ok (base : Nat) (t : TableAt) : Bool :=
  t.off % 16 == 0 && (t.count == 0 || (decide (64 ≤ t.off) && decide (base + t.off + t.len ≤ 2 ^ 48)))

/-- The parts of check 1 that need the header alone (R200, R203). -/
def headerOk (va : BitVec 64) (h : List Byte) : Bool :=
  fieldAt h 0 4 == 0x5A52434F && fieldAt h 4 2 == 3 && fieldAt h 6 2 == 0 && fieldAt h 0x30 16 == 0 && va.toNat % 64 == 0 &&
    decide (1 ≤ fieldAt h 0x10 4) && decide (fieldAt h 0x10 4 ≤ 65535) && decide (fieldAt h 0x18 4 ≤ 2 ^ 24) &&
    decide (fieldAt h 0x20 4 ≤ 4096) && decide (fieldAt h 0x2C 4 ≤ 65535) && (tablesOf h).all (TableAt.ok (low48 va))

/-- The entries of a table: n bytes each. -/
def entriesOf : Nat → Nat → List Byte → List (List Byte)
  | 0, _, _ => []
  | k + 1, n, bs => bs.take n :: entriesOf k n (bs.drop n)

/-- A function table entry (R204). -/
def fnOf (b : List Byte) : FnEntry :=
  ⟨BitVec.ofNat 64 (fieldAt b 0 8), fieldAt b 8 4, fieldAt b 0x0C 4, fieldAt b 0x10 4, fieldAt b 0x14 4, fieldAt b 0x18 1,
   fieldAt b 0x19 1⟩

/-- The extent of a function: first byte and length. -/
def FnEntry.extent (f : FnEntry) : Nat × Nat := (low48 f.entry, f.len)

/-- Do two ranges (first, length) overlap? -/
def overlaps (a b : Nat × Nat) : Bool := decide (a.1 < b.1 + b.2) && decide (b.1 < a.1 + a.2)

/-- Does no range overlap a later one? -/
def apart : List (Nat × Nat) → Bool
  | [] => true
  | a :: rest => rest.all (fun b => !overlaps a b) && apart rest

/-- May a parameter table entry stand in an object with these functions (R207)? -/
def paramOk (fns : List FnEntry) (b : List Byte) : Bool :=
  let off := fieldAt b 4 4
  ((fns[fieldAt b 0 2]?).map FnEntry.kind) == some 1 && fieldAt b 3 1 == 0 &&
    match Ty.ofCodeTo 10 (fieldAt b 2 1) with
    | none => false
    | some t => off % bytesOf t == 0 && decide (off + bytesOf t ≤ 4096)

/-- Does a list hold no value twice? -/
def allDistinct {α : Type} [DecidableEq α] : List α → Bool
  | [] => true
  | a :: rest => !rest.contains a && allDistinct rest

/-- Does a function entry satisfy R204, in an object with so many landing entries? -/
def FnEntry.ok (f : FnEntry) (nland : Nat) : Bool :=
  canonical f.entry && f.entry.toNat % 4 == 0 && f.len % 4 == 0 && decide (4 ≤ f.len) && decide (f.len ≤ 2 ^ 24) &&
    decide (1 ≤ f.nval) && decide (f.nval ≤ 2 ^ 28) && decide (f.land0 + f.nland ≤ nland) && decide (f.kind ≤ 2) &&
    (if f.kind = 1 then f.width == 16 || f.width == 32 || f.width == 64 else f.width == 0) &&
    decide (low48 f.entry + f.len ≤ 2 ^ 48)

/-- The ranges of an object that its load reads: the header and the tables. -/
def objRanges (va : BitVec 64) (h : List Byte) : List (BitVec 64 × Nat) :=
  (va, 64) :: (tablesOf h).map fun t => (va + BitVec.ofNat 64 t.off, t.len)

/-- Reads and checks the code object at a header address (R203). -/
def State.readObj (s : State) (unit : Option Nat) (e : Nat) (va : BitVec 64) : Except Reject CodeObj := do
  let h ← s.readVa unit e va 64
  demand (headerOk va h) stBadObject
  let tabs := tablesOf h
  let bytes ← tabs.mapM fun t => s.readVa unit e (va + BitVec.ofNat 64 t.off) t.len
  let tab := fun k => entriesOf (tabs.getD k ⟨0, 0, 0⟩).count (tabs.getD k ⟨0, 0, 0⟩).size (bytes.getD k [])
  let note := bytes.headD []
  let fns := (tab 1).map fnOf
  let trap := fieldAt h 0x24 4
  let ranges := ((tabs.filter fun t => t.count != 0).map fun t => (low48 va + t.off, t.len)) ++ [(low48 va, 64)]
  let clear := apart ranges && ranges.all fun r => (fns.map FnEntry.extent).all fun f => !overlaps r f
  demand (clear && fieldAt note 4 4 == 0 && fieldAt note 0x18 8 == 0 && (tab 1).all (fun b => fieldAt b 0x1A 6 == 0) &&
    (tab 2).all (fun b => fieldAt b 0x0C 4 == 0) && (tab 3).all (fun b => fieldAt b 0x15 11 == 0) && (tab 4).all (paramOk fns) &&
    allDistinct ((tab 4).map fun b => (fieldAt b 0 2, fieldAt b 4 4)) &&
    (trap == 0xFFFFFFFF || (fns[trap]?.map FnEntry.kind) == some 2)) stBadObject
  let maj := fieldAt note 0 1
  demand (decide (1 ≤ maj) && decide (maj ≤ 3)) stBadLevel
  demand (decide (fieldAt note 8 8 < 0x800)) stBadFeature
  demand (fns.all (fun f => f.ok (tab 2).length) && apart (fns.map FnEntry.extent)) stBadExtent
  return ⟨true, e, va, fns, (tab 2).map fun b => (fieldAt b 0 4, fieldAt b 4 4, fieldAt b 8 4), tab 3,
    (tab 4).map fun b => (fieldAt b 0 2, ((Ty.ofCode (fieldAt b 2 1)).getD .b1, fieldAt b 4 4)),
    if trap = 0xFFFFFFFF then none else some trap⟩

/-- The code object at a header address, loaded unless it is loaded already (R203). -/
def State.loadObj (s : State) (unit : Option Nat) (e : Nat) (va : BitVec 64) : Except Reject (State × Nat × CodeObj) :=
  match s.objOf e va with
  | some o => .ok (s, o)
  | none => do
      let o ← s.readObj unit e va
      let h ← s.readVa unit e va 64
      let s := (objRanges va h).foldl (fun s r => s.hwTouch unit e r.1 .load (leBytes r.2 0)) s
      return ({ s with objs := s.objs ++ [(s.next, o)], next := s.next + 1 }, s.next, o)

/-! Acceptance. -/

/-- Check 1 of R394: reserved fields, limits and alignments of the descriptor (R393). -/
def Launch.descOk (l : Launch) : Bool :=
  l.field 0x2A 2 == 0 && l.field 0x78 8 == 0 && decide (l.field 0x26 1 < 8) && bitsOf (l.dep 0).toNat 4 1 == 0 &&
    bitsOf (l.dep 1).toNat 4 1 == 0 && bitsOf l.sealRec.toNat 11 2 == 0 && decide (l.plen ≤ 4096) && decide (l.nflight ≤ 8) &&
    l.doneAddr.toNat % 32 == 0 && l.save.toNat % 4096 == 0 && l.sstride % 4096 == 0 && decide (8192 ≤ l.sstride) &&
    l.spill % 4096 == 0 && decide (l.spill < l.sstride)

/-- Check 1 of R180, with the kernel and EJECT (R394). -/
def Launch.shapeOk (l : Launch) (o : CodeObj) : Bool :=
  (l.width == 16 || l.width == 32 || l.width == 64) && decide (1 ≤ l.ngroups) && decide (l.ngroups ≤ 48) &&
    ([0, 1, 2].all fun d => decide (1 ≤ l.nteam d) && decide (l.nteam d < 2 ^ 24)) && decide (l.teamCount < 2 ^ 24) &&
    (l.gangSize == 1 || l.gangSize == 2 || l.gangSize == 4 || l.gangSize == 8) && l.teamCount % l.gangSize == 0 &&
    decide (l.eject ≤ 8) &&
    match o.fns[l.func]? with
    | none => false
    | some f => f.kind == 1 && f.width == l.width

/-- The number of roles: the leading nonzero bytes of ROLES (R393). -/
def Launch.roles (l : Launch) : Nat := ((List.range 4).find? fun r => l.roleCount r == 0).getD 4

/-- Check 2 of R180. -/
def Launch.budgetOk (l : Launch) : Bool :=
  let n := l.roles
  decide (1 ≤ n) && ((List.range 4).map l.roleCount).sum == l.ngroups &&
    (List.range 4).all fun r =>
      if r < n then decide (32 ≤ l.budget r) else l.roleCount r == 0 && l.budget r == 0

/-- Check 3 of R180 on the map's bytes (R179). -/
def Launch.mapOk (l : Launch) : Bool :=
  let s := l.gangSize
  fieldAt l.place 0 1 == s && fieldAt l.place 1 7 == 0 &&
    (List.range s).all (fun k => (List.range s).any fun g => l.placeOf g == k) &&
    (List.range 8).all fun g => decide (g < s) || l.placeOf g == 0xFF

/-- The register entries that a team takes (R177). -/
def Launch.regNeed (l : Launch) : Nat :=
  ((List.range l.ngroups).map fun k => l.width * ((l.budget (l.roleOf k) + 7) / 8 * 8)).sum

/-- What teams take of a core: registers, scratchpad, groups, barriers (R177). -/
structure Need where
  regs : Nat
  spad : Nat
  groups : Nat
  bars : Nat
  deriving DecidableEq, Repr

/-- What a team of a launch takes. -/
def Launch.need (l : Launch) : Need := ⟨l.regNeed, l.spadBytes, l.ngroups, l.nbar⟩
/-- Two needs together. -/
def Need.plus (a b : Need) : Need := ⟨a.regs + b.regs, a.spad + b.spad, a.groups + b.groups, a.bars + b.bars⟩
/-- Does a core hold so much (R177)? -/
def Need.fits (a : Need) : Bool :=
  decide (a.regs ≤ 131072) && decide (a.spad ≤ 384 * 1024) && decide (a.groups ≤ 48) && decide (a.bars ≤ 64)

/-- The checks of R180 in order, with the map read on the way; the launch with its map. -/
def State.checkLaunch (s : State) (unit : Option Nat) (l : Launch) (o : CodeObj) : Except Reject Launch := do
  demand (l.shapeOk o) stBadShape
  demand l.budgetOk stBadBudget
  demand (l.placeAddr.toNat % 16 == 0) stBadPlacement
  let map ← s.readVa unit l.enclave l.placeAddr 16
  let l : Launch := { l with place := map }
  demand l.mapOk stBadPlacement
  demand l.need.fits stTooLarge
  demand (!(s.part (s.encl l.enclave).part).halls.isEmpty) stNoHall
  return l

/-- The seal context that SEALREC opens (R382, R393). -/
def Launch.firstSeal (l : Launch) : List (Nat × Seal) :=
  let w := l.sealRec.toNat
  if w.testBit 1 then [(0, ⟨w.testBit 0, BitVec.ofNat 64 (w / 4096 * 4096), [], false, none, []⟩)] else []

/-- The queue q of an enclave, head first. -/
def Enclave.queue (x : Enclave) (q : Nat) : List Nat := (mget x.queues q).getD []

/-- Counts an acceptance and holds the launch, waiting in its queue or complete with a status (R394, R395). -/
def State.enterLaunch (s : State) (q : Nat) (l : Launch) (status : Option Nat) : State :=
  let x := s.encl l.enclave
  let l : Launch := { l with seq := x.seq + 1, queue := q }
  let n := s.next
  match status with
  | none =>
      let s := s.setEncl l.enclave { x with seq := x.seq + 1, queues := mset x.queues q (x.queue q ++ [n]) }
      ({ s with next := n + 1 } : State).setLaunch n { l with seals := l.firstSeal }
  | some st =>
      let s := s.setEncl l.enclave { x with seq := x.seq + 1 }
      (({ s with next := n + 1 } : State).setLaunch n { l with phase := .ended, status := BitVec.ofNat 16 st }).writeDone n

/-- Accepts the launch whose descriptor lies at an address into queue q of an enclave (R394): the state, and 0 accepted or 1
QUEUE_FULL; or the access that stops it, with nothing enqueued (R380, R397). -/
def State.accept (s : State) (unit : Option Nat) (e q : Nat) (va : BitVec 64) : Except Stop (State × Nat) :=
  if 64 ≤ ((s.encl e).queue q).length then .ok (s, 1)
  else
    match s.readVa unit e va 128 with
    | .error (.stop st) => .error st
    | .error (.status _) => .ok (s, 1)
    | .ok desc =>
        let s := s.hwTouch unit e va .load (leBytes 128 0)
        let l : Launch := ⟨e, 0, q, desc, [], [], .queued, 0, 0, 0, 0, 0, [], [], [], 0, false, false, 0⟩
        match (do
          let ps ← s.readVa unit e l.paramAddr (if l.plen ≤ 4096 then l.plen else 0)
          let l : Launch := { l with params := ps }
          let s := s.hwTouch unit e l.paramAddr .load (leBytes ps.length 0)
          demand l.descOk stBadDescriptor
          let r ← s.loadObj unit e l.code
          return (r.1, r.2.2, { l with obj := r.2.1 }) : Except Reject (State × CodeObj × Launch)) with
        | .error (.stop st) => .error st
        | .error (.status n) => .ok (s.enterLaunch q l (some n), 0)
        | .ok (s, o, l) =>
            match s.checkLaunch unit l o with
            | .error (.stop st) => .error st
            | .error (.status n) => .ok (s.enterLaunch q l (some n), 0)
            | .ok l => .ok ((s.hwTouch unit e l.placeAddr .load (leBytes l.place.length 0)).enterLaunch q l none, 0)

end Sys2Proof.Machine
end

