-- ==== Sys2Proof/Machine/Grafter.lean ====
section
/-! DEFINITION. The grafter (R209 to R211): its checks of a function (R205, R245 to R255, R265 to R268, R287) and the
translation it makes. -/

namespace Sys2Proof.Machine

/-! The translation faults (R211). -/

/-- UNDEFINED_MAJOR. -/
def xfMajor : Nat := 1
/-- MALFORMED. -/
def xfMalformed : Nat := 2
/-- BAD_VALUE. -/
def xfValue : Nat := 3
/-- BAD_TARGET. -/
def xfTarget : Nat := 4
/-- FALL_OFF. -/
def xfFallOff : Nat := 5
/-- BAD_LANDING. -/
def xfLanding : Nat := 6

/-- A function under translation: its object, its index and entry, the launch's WIDTH, its instructions and the types of its
values. -/
structure Draft where
  obj : CodeObj
  fn : Nat
  entry : FnEntry
  width : Nat
  nodes : List Node
  types : List (Option Ty)
  deriving DecidableEq, Repr

/-! Types (R207, R246, R251). -/

/-- The type of a `#param` special at an offset (R207). -/
def Draft.paramTy (x : Draft) (off : Nat) : Option Ty :=
  if x.entry.kind = 1 then (x.obj.params.find? fun q => q.1 == x.fn && q.2.2 == off).map fun q => q.2.1
  else
    match x.obj.params.filter fun q => q.2.2 == off with
    | [] => none
    | q :: rest => if rest.all fun r => r.2.1 == q.2.1 then some q.2.1 else none

/-- The type of an operand that has one of its own. -/
def Draft.tyOf (x : Draft) : Opnd → Option Ty
  | .val _ _ id => x.types.getD id.toNat none
  | .special cls idx => if cls = 2 then x.paramTy idx.toNat else specialTy cls idx
  | .imm _ | .target _ | .lit1 _ | .lit2 .. | .table _ => none

/-- An instruction's own operands, as far as types are known. -/
def Draft.own (x : Draft) (i : Instr) : List Opnd :=
  ((i.shape.split x.tyOf i.ctl i.ops).map Prod.fst).getD i.ops

/-- The types of the ids that a node defines, as far as known. -/
def Draft.resTypes (x : Draft) (n : Node) : List (Option Ty) :=
  let ts := match n.instr with
    | none => []
    | some i => i.shape.resTy x.tyOf (x.own i)
  (List.range n.ndef).map fun k => ts.getD k none

/-- The types of all values, until a pass adds nothing. -/
def Draft.infer : Nat → Draft → Draft
  | 0, x => x
  | fuel + 1, x =>
      let ts := (x.nodes.map x.resTypes).flatten
      if ts = x.types then x else Draft.infer fuel { x with types := ts }

/-! MALFORMED (R265). -/

/-- Is a special operand's index beyond its class, or a class that the function may not name (R251, R253)? -/
def Draft.badSpecial (x : Draft) : Opnd → Bool
  | .special cls idx =>
      !specialOk cls idx || (cls == 2 && (x.paramTy idx.toNat).isNone) ||
        (cls == 3 && decide (x.obj.fns.length ≤ idx.toNat)) || (cls == 4 && x.entry.kind != 0)
  | .val .. | .imm _ | .target _ | .lit1 _ | .lit2 .. | .table _ => false

/-- The table index of an operand list's first table operand (R255). -/
def tableIdx (ops : List Opnd) : Option Nat :=
  ops.findSome? fun o =>
    match o with
    | .table k => some k.toNat
    | .val .. | .imm _ | .special .. | .target _ | .lit1 _ | .lit2 .. => none

/-- Is an operand an immediate above a bound? -/
def immAbove (bound : Nat) : Option Opnd → Bool
  | some (.imm v) => decide ((bound : Int) < v.toInt)
  | _ => false

/-- What an instruction's own entry makes MALFORMED beside its operands' kinds and types (R204, R206, R287, R293, R314,
R317, R322, R377). -/
def Draft.badOwn (x : Draft) (n : Node) : Instr → Bool
  | .call _ _ ops => ((tableIdx ops).bind fun k => x.obj.fns[k]?.map FnEntry.kind) != some 0
  | .fmtb _ ops | .fmtbSc _ ops | .fmtbSp _ ops => (tableIdx ops).any fun k => decide (x.obj.fmtbs.length ≤ k)
  | .ret .. => x.entry.kind != 0
  | .tret .. | .tretSkip .. => x.entry.kind != 2
  | .shfl _ _ ops => immAbove x.width ops[2]?
  | .lanemaskSeg _ ops => immAbove x.width ops.head?
  | .pack _ .ext ops => (ops.head?.bind x.tyOf) == some .p16x2 && immAbove 1 ops[1]?
  | .phi _ _ ops =>
      n.off == 0 ||
        match phiHead x.nodes (x.nodes.length + 1) n.off with
        | none => true
        | some h => (edgesInto x.nodes h).length != ops.length
  | _ => false

/-- Is an instruction one whose operand words the grafter reads (R266)? -/
def isStub : Instr → Bool
  | .reservedMajorStub .. => true
  | _ => false

/-- Is a node MALFORMED (R245, R265, R266)? -/
def Draft.malformed (x : Draft) (n : Node) : Bool :=
  n.what == .malformed || (decide (0 < n.ndef) && decide (x.entry.nval < n.base + n.ndef)) ||
    match n.instr with
    | none => false
    | some i =>
        !isStub i && ((i.shape.split x.tyOf i.ctl i.ops).isNone || i.ops.any x.badSpecial || x.badOwn n i)

/-! BAD_VALUE and BAD_TARGET (R246, R254). -/

/-- The node that defines an id. -/
def defOf (ns : List Node) (id : Nat) : Option Node := ns.find? fun n => decide (n.base ≤ id) && decide (id < n.base + n.ndef)

/-- Does some path from ENTRY reach an offset without passing a node (R246)? -/
def reachedAround (ns : List Node) (d : Node) (at_ : Nat) : Bool := (reach ns (· == d.off) [0]).contains at_

/-- Is an id read wrongly: by a node, at the end of the instruction at an offset? -/
def badRead (ns : List Node) (n : Node) (id : Nat) (at_ : Option Nat) : Bool :=
  match defOf ns id with
  | none => true
  | some d => d.off == n.off || at_.any (reachedAround ns d)

/-- Does a node read a value that is not defined, or whose definition does not dominate it? A PHI's operand is judged at the
end of its edge. -/
def Draft.badValue (x : Draft) (n : Node) : Bool :=
  match n.instr with
  | none => false
  | some (.phi _ _ ops) =>
      let edges := ((phiHead x.nodes (x.nodes.length + 1) n.off).map (edgesInto x.nodes)).getD []
      (ops.mapIdx fun k o => (idsOf [o]).any fun id => badRead x.nodes n id (edges[k]?.map Prod.fst)).any id
  | some i => (idsOf i.ops).any fun id => badRead x.nodes n id (some n.off)

/-- Does a node name a target that is no head word of the function? -/
def Draft.badTarget (x : Draft) (n : Node) : Bool := n.targets.any fun t => !x.nodes.any fun m => (m.off : Int) == t

/-! BAD_LANDING (R205). -/

/-- The landing entries of the function: BRANCH, JOIN and ID. -/
def Draft.lands (x : Draft) : List (Nat × Nat × Nat) := (x.obj.lands.drop x.entry.land0).take x.entry.nland

/-- Is a node a BRC or a BRM? -/
def Node.isBranch (n : Node) : Bool :=
  match n.instr with
  | some (.brc ..) | some (.brm ..) => true
  | _ => false

/-- The landing id that a JOIN names. -/
def Node.joinName (n : Node) : Option Nat :=
  match n.instr with
  | some (.join _ ops) => tableIdx ops
  | _ => none

/-- The offset in words of the JOIN of a branch, if its entry is right. -/
def Draft.joinOf (x : Draft) (n : Node) : Option Nat :=
  match x.lands.filter fun l => l.1 == 4 * n.off with
  | [l] =>
      let named := (x.lands.filter fun m => m.2.2 == l.2.2).length == 1 && decide (l.2.2 < 2 ^ 28)
      let there := x.nodes.any fun m => 4 * m.off == l.2.1 && m.joinName == some l.2.2
      if named && there then some (l.2.1 / 4) else none
  | _ => none

/-- Does a path from a branch go wrong at a node: RET, or an end other than EXIT, TRAP and UNREACH? -/
def Draft.badEnd (x : Draft) (n : Node) : Bool :=
  match n.instr with
  | some (.ret ..) => true
  | some (.exit ..) | some (.trap ..) | some (.unreach ..) => false
  | _ => !n.edges.any fun e => x.nodes.any fun m => m.off == e.2

/-- The nodes that a branch reaches without passing its JOIN, the branch among them. -/
def Draft.armOf (x : Draft) (n : Node) (join : Nat) : List Nat := reach x.nodes (· == join) [n.off]

/-- Does a branch stand in the arm of another whose JOIN it can reach before its own? -/
def Draft.badNest (x : Draft) (n : Node) (join : Nat) : Bool :=
  x.nodes.any fun m => m.isBranch && m.off != n.off &&
    match x.joinOf m with
    | none => false
    | some j => (x.armOf m j).contains n.off && (x.armOf n join).contains j

/-- Does a node break R205? -/
def Draft.badLanding (x : Draft) (n : Node) : Bool :=
  (n.isBranch &&
    match x.joinOf n with
    | none => true
    | some j => (x.nodes.filter fun m => (x.armOf n j).contains m.off).any x.badEnd || x.badNest n j) ||
  (n.isJoin &&
    match n.joinName with
    | none => false
    | some id =>
        let own := x.lands.filter fun l => l.2.2 == id
        own.isEmpty || own.any fun l => l.2.1 != 4 * n.off)

/-! The verdict. -/

/-- The faults of a node, in the order of the table. -/
def Draft.faultsAt (x : Draft) (n : Node) : List Nat :=
  (if n.what = .undefinedMajor then [xfMajor] else []) ++ (if x.malformed n then [xfMalformed] else []) ++
    (if x.badValue n then [xfValue] else []) ++ (if x.badTarget n then [xfTarget] else []) ++
    (if x.badLanding n then [xfLanding] else [])

/-- The fault of the function: that at the lowest address, there the first of the table (R211); FALL_OFF lies at its end. -/
def Draft.fault (x : Draft) : Option (Nat × BitVec 48) :=
  let at_ := fun (w : Nat) => pcAdd (x.entry.entry.setWidth 48) w
  match x.nodes.findSome? fun n => ((x.faultsAt n).head?).map fun f => (f, at_ n.off) with
  | some f => some f
  | none => if (x.nodes.getLast?.bind Node.instr).any terminates then none else some (xfFallOff, at_ (x.entry.len / 4))

/-- A function of an object under translation. -/
def draftOf (o : CodeObj) (fn : Nat) (f : FnEntry) (width : Nat) (words : List Word) : Draft :=
  let ns := nodesOf words
  Draft.infer (ns.length + 1) ⟨o, fn, f, width, ns, []⟩

/-- The translation of a function (R210). -/
def graftOf (e obj : Nat) (o : CodeObj) (fn : Nat) (f : FnEntry) (width budget hall : Nat) (words : List Word) : Trans :=
  let x := draftOf o fn f width words
  ⟨e, obj, fn, f.entry.setWidth 48, width, budget, hall, words, x.types, x.lands, x.fault, true, []⟩

/-! The translation cache (R210, R216). -/

/-- The bytes of die code that translation n takes: no rule gives its size (R213). -/
def dieSize (n : Nat) : Nat := Config.freeNat (.size n) 0

/-- Evicts least recently used unpinned translations of a hall, other than one, until its cache holds the rest (R210). A cached
fault has no die code, and stays (R211). -/
def State.evict (hall keep : Nat) : Nat → State → State
  | 0, s => s
  | fuel + 1, s =>
      let mine := s.trans.filter fun t => t.2.live && t.2.hall == hall && t.2.fault.isNone
      if (mine.map fun t => dieSize t.1).sum ≤ 8 * 1024 * 1024 then s
      else
        match mine.find? fun t => (t.2.pins.all fun q => q.1.isSome) && t.1 != keep with
        | none => s
        | some t => State.evict hall keep fuel { s with trans := mset s.trans t.1 { t.2 with live := false } }

/-- Charges the cycles of a translation to the enclave (R209, R214). -/
def State.chargeGraft (s : State) (t : Trans) : State :=
  (List.range 8).foldl (fun s c => s.bump t.enclave 2 (t.hall * 8 + c) t.nodes.length) s

/-- Installs a translation in its hall's cache (R209). -/
def State.install (s : State) (t : Trans) : State :=
  let n := s.next
  let s : State := { s with trans := s.trans ++ [(n, t)], next := n + 1 }
  (State.evict t.hall n s.trans.length s).chargeGraft t

/-- The words of n bytes. -/
def wordsIn (bs : List Byte) : List Word := (entriesOf (bs.length / 4) 4 bs).map fun b => BitVec.ofNat 32 (leNat b)

/-- Translates a function for a hall (R209); none where the object or the function is gone. The fetch fills the L2 by the class
of its leaf (R71). -/
def State.grafted (s : State) (e obj fn width budget hall : Nat) : Except Stop (State × Option Trans) :=
  match mget s.objs obj, s.fnEntry obj fn with
  | some o, some f =>
      (s.hwTake (some (hallTlb hall)) e f.entry .code f.len).map fun r =>
        (r.1, some (graftOf e obj o fn f width budget hall (wordsIn r.2)))
  | _, _ => .ok (s, none)

/-- Translates and installs a function for a hall, unless the cache holds it (R209). -/
def State.graft (s : State) (e obj fn width budget hall : Nat) : Except Stop State :=
  if (s.findTrans e obj fn width budget hall).isSome then .ok s
  else (s.grafted e obj fn width budget hall).map fun r => (r.2.map r.1.install).getD r.1

/-- The paths that wait in a hall for the translation of a function. -/
def State.wanting (s : State) (b : Building) : List (Nat × Nat) :=
  (s.groups.map fun g =>
    let t := s.team g.2.team
    if t.core / 8 = b.hall ∧ (s.launch t.launch).obj = b.obj then
      (g.2.ctx.paths.filter fun p => p.2.stage == .translating b.fn).map fun p => (g.1, p.1)
    else []).flatten

/-- A hall's grafter ends its work on a function (R209): the translation is installed; where XCTL.INV has marked the function
meanwhile it is completed, and its cycles count, but it is not installed (R219). Where the code cannot be read, the groups that
wait for it stall on the fault (R45). -/
def State.endBuilding (s : State) (n : Nat) (b : Building) : State :=
  let s : State := { s with building := mdel s.building n }
  if b.marked then
    match s.grafted b.enclave b.obj b.fn b.width b.budget b.hall with
    | .ok (s, some t) => s.chargeGraft t
    | .ok (s, none) => s
    | .error _ => s
  else
    match s.graft b.enclave b.obj b.fn b.width b.budget b.hall with
    | .ok s => s
    | .error st =>
        match st.found with
        | .fault f =>
            (s.wanting b).foldl (fun s w =>
              let t := s.team (s.group w.1).team
              s.faultAccess t.launch t.core (s.group w.1).slot .code (.path w.1 w.2) st.va f) s
        | .search pa m => s.startSearch pa m
        | .window .. =>
            ((s.wanting b).map fun w => (s.team (s.group w.1).team).launch).eraseDups.foldl
              (fun s l => s.endLaunch l stLinkKey 0 0 0) s
        | .ok .. | .moving => s

/-- TRANSLATION_DONE (R209): the grafters of the halls that work on the function are done with it. -/
def execTranslationDone (e : Nat) (hdr : BitVec 64) (fn width budget : Nat) (s : State) : Host.Outcome State Fault Refusal :=
  .next <|
    (s.building.filter fun b => b.2.enclave == e && b.2.fn == fn && b.2.width == width && b.2.budget == budget &&
      ((mget s.objs b.2.obj).map CodeObj.header) == some hdr).foldl (fun s b => s.endBuilding b.1 b.2) s

end Sys2Proof.Machine
end

