-- ==== Sys2Proof/Machine/System.lean ====
section
/-! DEFINITION. The system instructions (R375 to R386): traps and their exit, the delivery mask, context reads, device-side
launch, translation control, seal contexts, counters, and cuttings (R167 to R170). -/

namespace Sys2Proof.Machine

/-! Traps (R376 to R378). -/

/-- TRAP (R376): software trap n in every active lane. -/
def execTrap (c : Ctl) (ops : List Opnd) (s : State) : Host.Outcome State Fault Refusal :=
  onPath s fun x =>
    let i := Instr.trap c ops
    x.trap i (numOf (x.onceVals i) 0) (x.active c) 0

/-- The results of the instruction at an address, or of the PHIs of its block: the first id and the types (R287, R377). -/
def Trans.resultsAt (t : Trans) (pc : BitVec 48) : Nat × List Ty :=
  let run := phiRun t.nodes (t.offset pc)
  let n := if run.isEmpty then ((t.nodes.find? fun n => n.off == t.offset pc).map Node.ndef).getD 0 else (run.map Node.ndef).sum
  let base := t.baseAt pc
  (base, (List.range n).map fun k => (t.typeOf (base + k)).getD .i32)

/-- The lane's call frames under the handler's, changed in the innermost of them. -/
def Lane.below (y : Lane) (f : Lane → Lane) : Lane :=
  match y.frames with
  | [] => y
  | h :: rest =>
      let z := f { y with frames := rest }
      { y with frames := h :: z.frames }

/-- The lanes of the executing path leave the handler (R377, R406). -/
def Exe.leaveAs (x : Exe) (g : Group) (skip : Bool) (mode : BitVec 64) : State :=
  let m := x.p.mask
  let h := g.handler.map fun h =>
    { h with mode := mode, trets := if skip then h.trets else h.trets ||| m, skips := if skip then h.skips ||| m else h.skips }
  let g : Group := { g with ctx := g.ctx.without m, handler := h }
  (x.count ((x.put g).settleGroup x.gid) 1).afterLeave x.gid

/-- TRET (R377): the lanes return to the trapping instruction. -/
def execTret (_c : Ctl) (_ops : List Opnd) (s : State) : Host.Outcome State Fault Refusal :=
  onPath s fun x => if x.g.handler.isNone then x.s else x.leaveAs x.g false x.p.mode

/-- TRET.SKIP (R377): the lanes return to the head word after the trapping instruction, whose results are the operands. -/
def execTretSkip (c : Ctl) (ops : List Opnd) (s : State) : Host.Outcome State Fault Refusal :=
  onPath s fun x =>
    let i := Instr.tretSkip c ops
    match x.g.handler with
    | none => x.s
    | some h =>
        x.unlessPoison i fun f =>
          let tr := x.s.translation ((x.g.lane x.first).frames.getD 1 ⟨0, 0, 0, [], []⟩).tr
          let res := tr.resultsAt h.pc
          let dead := h.code == 1 || h.code == 2
          let own := (x.plan i).own
          let bad := (own.mapIdx fun k q => res.2[k]? != some q.1).any id
          if !dead && bad then x.trap i trapHandle x.lanes 0
          else
            let g := x.g.mapLanes x.lanes fun l y => y.below fun z =>
              let vs := if dead then [] else x.vals (x.plan i) l
              (z.defineAll res.1 vs).poisonAll (res.1 + vs.length) (res.2.length - vs.length)
            x.leaveAs g true (modeRaise x.p.mode f)

/-- TMASK (R378): the group's delivery mask, and its old value. -/
def execTmask (c : Ctl) (ops : List Opnd) (s : State) : Host.Outcome State Fault Refusal :=
  onPath s fun x =>
    let i := Instr.tmask c ops
    x.once i fun vs =>
      let g := x.write i ((x.active c).map fun l => (l, [ofTy .i32 x.g.tmask.toNat]))
      x.complete i { g with tmask := BitVec.ofNat 16 (numOf vs 0) &&& 0x7FFE } (modeRaise x.p.mode (x.onceFlags i))

/-! Context reads (R379). -/

/-- A context read that only a handler may make: HANDLE_INVALID in the active lanes outside one. -/
def Exe.inHandler (x : Exe) (i : Instr) (k : Handler → State) : State :=
  match x.g.handler with
  | some h => k h
  | none => if (x.active i.ctl).isEmpty then x.commit i [] 0 else x.trap i trapHandle (x.active i.ctl) 0

/-- RDCTX.TRAP (R379). -/
def execRdctxTrap (c : Ctl) (ops : List Opnd) (s : State) : Host.Outcome State Fault Refusal :=
  onPath s fun x => x.inHandler (.rdctxTrap c ops) fun h =>
    x.commitAll (.rdctxTrap c ops) [.bits (h.pc.setWidth 64 <<< 16 ||| (h.flags.setWidth 64 <<< 8) ||| h.code.setWidth 64)] 0

/-- RDCTX.LANES (R379). -/
def execRdctxLanes (c : Ctl) (ops : List Opnd) (s : State) : Host.Outcome State Fault Refusal :=
  onPath s fun x => x.inHandler (.rdctxLanes c ops) fun h => x.commitAll (.rdctxLanes c ops) [.bits h.lanes] 0

/-- RDCTX.OPND (R379): operand word n of the trapping instruction, as each lane read it. -/
def execRdctxOpnd (c : Ctl) (ops : List Opnd) (s : State) : Host.Outcome State Fault Refusal :=
  onPath s fun x => x.inHandler (.rdctxOpnd c ops) fun h =>
    let n := numOf (x.onceVals (.rdctxOpnd c ops)) 0
    x.commit (.rdctxOpnd c ops) ((x.active c).map fun l => (l, [.bits (((mget h.opnds l).getD [])[n]?.getD 0)])) 0

/-- RDCTX.LAUNCH (R379). -/
def execRdctxLaunch (c : Ctl) (ops : List Opnd) (s : State) : Host.Outcome State Fault Refusal :=
  onPath s fun x => x.commitAll (.rdctxLaunch c ops) [.bits x.launch.seq] 0

/-- RDCTX.ENCLAVE (R379). -/
def execRdctxEnclave (c : Ctl) (ops : List Opnd) (s : State) : Host.Outcome State Fault Refusal :=
  onPath s fun x => x.commitAll (.rdctxEnclave c ops) [ofTy .i32 x.eid] 0

/-- RDCTX.PLACE (R379): the group slot and the accelerator core. -/
def execRdctxPlace (c : Ctl) (ops : List Opnd) (s : State) : Host.Outcome State Fault Refusal :=
  onPath s fun x => x.commitAll (.rdctxPlace c ops) [ofTy .i32 (x.g.slot % 256 * 256 + x.team.core % 256)] 0

/-! Device-side launch (R380). -/

/-- LAUNCH (R380). -/
def execLaunch (c : Ctl) (ops : List Opnd) (s : State) : Host.Outcome State Fault Refusal :=
  onPath s fun x =>
    let i := Instr.launch c ops
    x.once i fun vs =>
      let d := (argOf vs 1).toBits
      if 15 < numOf vs 0 then x.trap i trapHandle (x.active c) 0
      else if d.toNat % 128 ≠ 0 then x.trap i 0x0B (x.active c) 0
      else if x.windowDown false d then x.s.endLaunch x.team.launch stLinkKey 0 0 0
      else
        match x.s.accept (some x.unit) x.eid (numOf vs 0) d with
        | .error st => x.stopped .load st
        | .ok (s, r) => (x.upon s).commitAll i [ofTy .i32 r] (x.onceFlags i)

/-! Translation control (R216, R218, R219, R381, R392). -/

/-- The forms of translation control. -/
inductive XctlForm where
  | inv | pf | pin (hall : Bool) | unpin (hall : Bool)
  deriving DecidableEq, Repr

/-- The loaded functions of an enclave that overlap a range: object and index. -/
def State.fnsIn (s : State) (e : Nat) (r : Nat × Nat) : List (Nat × Nat) :=
  (s.objs.map fun o =>
    if o.2.loaded && o.2.enclave == e then
      ((o.2.fns.mapIdx fun k f => (k, f)).filter fun q => overlaps q.2.extent r).map fun q => (o.1, q.1)
    else []).flatten

/-- The bytes of a translated function. -/
def Trans.extent (t : Trans) : Nat × Nat := (t.entry.toNat, 4 * t.words.length)

/-- Removes what an enclave has cached of a code range (R218, R219): translations that entered functions go on using stay, but no
entry finds them; translations in progress will not be installed; objects whose header overlaps are unloaded. -/
def State.invalidate (s : State) (e : Nat) (r : Nat × Nat) : State :=
  { s with
    trans := s.trans.map fun t =>
      if t.2.enclave == e && overlaps t.2.extent r then (t.1, { t.2 with live := false }) else t
    building := s.building.map fun b =>
      if b.2.enclave == e && ((s.fnEntry b.2.obj b.2.fn).any fun f => overlaps f.extent r) then
        (b.1, { b.2 with marked := true })
      else b
    objs := s.objs.map fun o =>
      if o.2.enclave == e && overlaps (low48 o.2.header, 64) r then (o.1, { o.2 with loaded := false }) else o }

/-- Translates the functions of a range for some halls, widths and budgets (R216). A kernel is translated for its own width. -/
def State.prefetch (s : State) (e : Nat) (halls : List Nat) (forms : List (Nat × Nat)) (r : Nat × Nat) : Except Stop State :=
  (s.fnsIn e r).foldlM (fun s f => halls.foldlM (fun s h => forms.foldlM (fun s w =>
    match s.fnEntry f.1 f.2 with
    | none => .ok s
    | some q => if q.kind = 1 ∧ q.width ≠ w.1 then .ok s else s.graft e f.1 f.2 w.1 w.2 h) s) s) s

/-- The installed translations of an enclave that overlap a range, in some halls. -/
def State.transIn (s : State) (e : Nat) (halls : List Nat) (r : Nat × Nat) : List (Nat × Trans) :=
  s.trans.filter fun t => t.2.live && t.2.enclave == e && halls.contains t.2.hall && overlaps t.2.extent r

/-- The die code that an enclave has pinned at a core, or in the cache of a hall. -/
def State.pinned (s : State) (e hall : Nat) (core : Option Nat) : Nat :=
  ((s.trans.filter fun t => t.2.live && t.2.enclave == e && t.2.hall == hall && t.2.pins.any fun q => q.1 == core).map
    fun t => dieSize t.1).sum

/-- The pin limit of a level (R381). -/
def pinLimit (core : Option Nat) : Nat := if core.isSome then 32 * 1024 else 1024 * 1024

/-- Pins translations one by one, each at a core or in its hall, until one has no room (R216): the state, and whether none lacked
room. -/
def State.pinAll (e : Nat) (by_ : Option Nat) : List (Nat × Option Nat) → State → State × Bool
  | [], s => (s, true)
  | (n, core) :: rest, s =>
      match mget s.trans n with
      | none => State.pinAll e by_ rest s
      | some t =>
          let add := if t.pins.any fun q => q.1 == core then 0 else dieSize n
          if pinLimit core < s.pinned e t.hall core + add then (s, false)
          else State.pinAll e by_ rest { s with trans := mset s.trans n { t with pins := (core, by_) :: t.pins } }

/-- Ends the pins at some cores, or in the halls' caches, of the translations of an enclave that overlap a range. -/
def State.unpin (s : State) (e : Nat) (levels : List (Option Nat)) (r : Nat × Nat) : State :=
  { s with trans := s.trans.map fun t =>
      if t.2.enclave == e && overlaps t.2.extent r then
        (t.1, { t.2 with pins := t.2.pins.filter fun q => !levels.contains q.1 })
      else t }

/-- The effect of a form on a code range (R216): for the cores given, by a launch or a CPU thread, with the widths and budgets
that it translates for; the state, and whether a pin found room. -/
def State.xctl (s : State) (e : Nat) (cores : List Nat) (by_ : Option Nat) (forms : List (Nat × Nat)) (r : Nat × Nat) :
    XctlForm → Except Stop (State × Bool)
  | .inv => .ok (s.invalidate e r, true)
  | .pf => (s.prefetch e (s.part (s.encl e).part).halls forms r).map fun s => (s, true)
  | .pin hall => do
      let halls := (s.part (s.encl e).part).halls
      let s ← s.prefetch e halls forms r
      let ts := s.transIn e halls r
      let spots := (ts.map fun t =>
        if hall then [(t.1, none)] else (cores.filter fun c => c / 8 == t.2.hall).map fun c => (t.1, some c)).flatten
      return State.pinAll e by_ spots s
  | .unpin hall => .ok (s.unpin e (if hall then [none] else cores.map some) r, true)

/-- The code range of XCTL's operands (R381). -/
def xctlRange (vs : List Val) : Nat × Nat := (low48 (argOf vs 0).toBits, numOf vs 1)

/-- The results of a form: a pin's status (R381). -/
def xctlResult (i : Instr) (full : Bool) : List Val := if i.ctl.ndef = 0 then [] else [ofTy .i32 (if full then 1 else 0)]

/-- The step of XCTL (R381): the path waits until its form has completed in every hall. -/
def Exe.xctl (x : Exe) (i : Instr) : State :=
  x.onCore i fun x => x.once i fun vs =>
    if numOf vs 1 = 0 then x.commitAll i (xctlResult i false) (x.onceFlags i)
    else if canonical (argOf vs 0).toBits = false then x.trap i trapHandle (x.active i.ctl) 0
    else if x.s.xctls.contains (x.gid, x.pid) then x.s
    else { x.s with xctls := x.s.xctls ++ [(x.gid, x.pid)] }

/-- XCTL.INV (R381). -/
def execXctlInv (c : Ctl) (ops : List Opnd) (s : State) : Host.Outcome State Fault Refusal :=
  onPath s fun x => x.xctl (.xctlInv c ops)
/-- XCTL.PF.CORE (R381). -/
def execXctlPfCore (c : Ctl) (ops : List Opnd) (s : State) : Host.Outcome State Fault Refusal :=
  onPath s fun x => x.xctl (.xctlPfCore c ops)
/-- XCTL.PF.HALL (R381). -/
def execXctlPfHall (c : Ctl) (ops : List Opnd) (s : State) : Host.Outcome State Fault Refusal :=
  onPath s fun x => x.xctl (.xctlPfHall c ops)
/-- XCTL.PIN.CORE (R381). -/
def execXctlPinCore (c : Ctl) (ops : List Opnd) (s : State) : Host.Outcome State Fault Refusal :=
  onPath s fun x => x.xctl (.xctlPinCore c ops)
/-- XCTL.PIN.HALL (R381). -/
def execXctlPinHall (c : Ctl) (ops : List Opnd) (s : State) : Host.Outcome State Fault Refusal :=
  onPath s fun x => x.xctl (.xctlPinHall c ops)
/-- XCTL.UNPIN.CORE (R381). -/
def execXctlUnpinCore (c : Ctl) (ops : List Opnd) (s : State) : Host.Outcome State Fault Refusal :=
  onPath s fun x => x.xctl (.xctlUnpinCore c ops)
/-- XCTL.UNPIN.HALL (R381). -/
def execXctlUnpinHall (c : Ctl) (ops : List Opnd) (s : State) : Host.Outcome State Fault Refusal :=
  onPath s fun x => x.xctl (.xctlUnpinHall c ops)

/-- The form of an XCTL instruction. -/
def xctlForm : Instr → Option XctlForm
  | .xctlInv .. => some .inv
  | .xctlPfCore .. | .xctlPfHall .. => some .pf
  | .xctlPinCore .. => some (.pin false)
  | .xctlPinHall .. => some (.pin true)
  | .xctlUnpinCore .. => some (.unpin false)
  | .xctlUnpinHall .. => some (.unpin true)
  | _ => none

/-- XCTL_COMPLETE (R381): the form of a path that waits has completed in every hall of the partition. -/
def execXctlComplete (g p : Nat) (s : State) : Host.Outcome State Fault Refusal :=
  .next <|
    if s.xctls.contains (g, p) = false then s
    else
      match s.exeOf g p with
      | none => s
      | some x =>
          let x := x.upon s
          match (x.tr.fetch x.p.pc).1 with
          | .ok i =>
              match xctlForm i with
              | none => s
              | some f =>
                  let form := (x.g.width, x.launch.budget x.g.role)
                  match s.xctl x.eid [x.team.core] (some x.team.launch) [form] (xctlRange (x.onceVals i)) f with
                  | .error st => x.stopped .code st
                  | .ok (s, room) =>
                      (x.upon { s with xctls := s.xctls.filter (· != (g, p)) }).commitAll i (xctlResult i !room) (x.onceFlags i)
          | .illegal _ | .undefinedMajor | .malformed => s

/-! Seal contexts (R382 to R384). -/

/-- A handle from h on that is not open; the fuel counts the handles. -/
def nextSeal (used : List Nat) : Nat → Nat → Nat
  | 0, h => h
  | fuel + 1, h => if used.contains h then nextSeal used fuel ((h + 1) % 32) else h

/-- The state with the contexts of the path's launch changed. -/
def Exe.setSeals (x : Exe) (cs : List (Nat × Seal)) : Exe :=
  x.upon (x.s.setLaunch x.team.launch { x.launch with seals := cs })

/-- SEAL.OPEN (R382). Which handle it defines is free (assumption log 124). -/
def execSealOpen (c : Ctl) (ops : List Opnd) (s : State) : Host.Outcome State Fault Refusal :=
  onPath s fun x =>
    let i := Instr.sealOpen c ops
    x.once i fun vs =>
      let d := (argOf vs 1).toBits
      let cs := x.launch.seals
      if 1 < numOf vs 0 ∨ 32 ≤ cs.length then x.trap i trapHandle (x.active c) 0
      else if d.toNat % 4096 ≠ 0 then x.trap i 0x0B (x.active c) 0
      else
        let h := nextSeal (cs.map Prod.fst) 32 (Config.freeNat (.choice 2002) x.s.free % 32)
        (x.setSeals (cs ++ [(h, ⟨numOf vs 0 == 1, d, [], false, none, []⟩)])).commitAll i [ofTy .i32 h] (x.onceFlags i)

/-- The open context that a handle names. -/
def Launch.openSeal (l : Launch) (h : Nat) : Option Seal := (mget l.seals h).filter fun c => !c.closed

/-- The blocks of n bytes (R410). -/
def sealBlocks (n : Nat) : Nat := (n + 127) / 128

/-- SEAL.ABSORB (R382): an engine operation. -/
def execSealAbsorb (c : Ctl) (scope : Scope) (ops : List Opnd) (s : State) : Host.Outcome State Fault Refusal :=
  onPath s fun x =>
    let i := Instr.sealAbsorb c scope ops
    x.engine i none fun vs =>
      let a := (argOf vs 1).toBits
      let n := numOf vs 2
      if (x.launch.openSeal (numOf vs 0)).isNone then x.trap i trapHandle (x.active c) 0
      else
        let o := x.newOp i 4 vs (max scope.code (x.minScope false (pagesOf a n))) none (sealBlocks n) 0
        x.launchOp i { o with
          status := if n = 0 then futOK else if x.windowDown false a then futLinkKey else futPending
          whole := if a.toNat % 64 = 0 then [] else wholeIn false a.toNat n }

/-- Step i of an absorption: block i, in order, while no other absorption of the context is under way. -/
def State.sealStep (s : State) (k : Nat) (o : EngOp) (i : Nat) : State :=
  let l := (s.team o.team).launch
  let x := s.launch l
  match mget x.seals (numOf o.vals 0) with
  | none => s
  | some c =>
      if i ≠ o.landed.length ∨ (c.busy.isSome ∧ c.busy ≠ some k) then s
      else
        let n := min 128 (numOf o.vals 2 - 128 * i)
        match s.engSource (s.whoOf k o) false ((argOf o.vals 1).toBits + BitVec.ofNat 64 (128 * i)) n with
        | .error e => s.engStop k o e
        | .ok (s, bs) =>
            let c' : Seal := { c with busy := some k, part := c.part ++ bs }
            (s.setLaunch l { s.launch l with seals := mset x.seals (numOf o.vals 0) c' }).stepDone k i 0 0

/-- SEAL.CLOSE (R382). -/
def execSealClose (c : Ctl) (ops : List Opnd) (s : State) : Host.Outcome State Fault Refusal :=
  onPath s fun x =>
    let i := Instr.sealClose c ops
    x.once i fun vs =>
      match x.launch.openSeal (numOf vs 0) with
      | none => x.trap i trapHandle (x.active c) 0
      | some q => (x.setSeals (mset x.launch.seals (numOf vs 0) { q with closed := true })).commitAll i [] (x.onceFlags i)

/-- SEAL.ABORT (R382): the context's incomplete absorptions are cancelled, its abort record is written, and it ends. -/
def execSealAbort (c : Ctl) (ops : List Opnd) (s : State) : Host.Outcome State Fault Refusal :=
  onPath s fun x =>
    let i := Instr.sealAbort c ops
    x.once i fun vs =>
      let h := numOf vs 0
      match x.launch.openSeal h with
      | none => x.trap i trapHandle (x.active c) 0
      | some q =>
          let l := x.team.launch
          let mine := x.s.ops.filter fun o =>
            o.2.cls == 4 && o.2.status == futPending && (x.s.team o.2.team).launch == l && numOf o.2.vals 0 == h
          let s := mine.foldl (fun s o => s.finishOp o.1 futCancelled) x.s
          let s := s.writeSeal l 1 1 q
          ((x.upon s).setSeals (mdel (s.launch l).seals h)).commitAll i [] (x.onceFlags i)

/-! Counters and monitors (R385). -/

/-- An instruction that reads its operands once and may have no active lane. -/
def Exe.onceActive (x : Exe) (i : Instr) (k : List Val → State) : State :=
  if (x.active i.ctl).isEmpty then x.commit i [] 0 else x.once i k

/-- The counters whose counts no rule fixes: those of die code (R213, R214). Each has advanced by a free count when it is read
(assumption log 32). -/
def uncounted (k : Nat) : Bool := k == 3 || decide (5 ≤ k) && decide (k ≤ 7) || k == 10

/-- CNT.CTR (R385). -/
def execCntCtr (c : Ctl) (ops : List Opnd) (s : State) : Host.Outcome State Fault Refusal :=
  onPath s fun x =>
    let i := Instr.cntCtr c ops
    x.onceActive i fun vs =>
      let k := numOf vs 0
      if 10 < k ∧ (k < 16 ∨ 18 < k) then x.trap i trapHandle (x.active c) 0
      else
        let s := if uncounted k then x.s.bump x.eid k x.team.core (Config.freeNat (.counter k) x.s.free) else x.s
        let v := (mget (s.encl x.eid).counters (counterKey k x.team.core)).getD 0
        (x.upon s).commitAll i [.bits v] (x.onceFlags i)

/-- A field of a monitor (R385). -/
def Monitor.field (m : Monitor) (f : Nat) : BitVec 64 :=
  match f with
  | 0 => m.min.setWidth 64
  | 1 => m.max.setWidth 64
  | 2 => m.count
  | n + 3 => (mget m.bins n).getD 0

/-- Monitor k of an enclave (R385): those of its launches, and, for 0 and 6, those of its frames' lines (R14, R89). -/
def State.monitorOf (s : State) (e k : Nat) : Monitor :=
  if k = 0 then (s.pathMon (8 + e)).latency
  else if k = 6 then (s.pathMon (8 + e)).soft
  else (mget (s.encl e).monitors k).getD Monitor.empty

/-- Monitor k of a partition, as its operating system reads it (R15, R89): 0 to 6 as an enclave's, 7 the corrected errors on
chip, 8 and 10 the correction searches that corrected and that poisoned, 9 the depth of the scrub queue. The spec names no
register for the read (assumption log 109). -/
def State.partMonitor (s : State) (p k : Nat) : Monitor :=
  let x := s.part p
  if k = 0 then (s.pathMon p).latency
  else if k = 6 then (s.pathMon p).soft
  else if k = 7 then (s.pathMon p).chip
  else if k = 8 then x.searched.1
  else if k = 10 then x.searched.2
  else (mget x.monitors k).getD Monitor.empty

/-- CNT.MON (R385). -/
def execCntMon (c : Ctl) (ops : List Opnd) (s : State) : Host.Outcome State Fault Refusal :=
  onPath s fun x =>
    let i := Instr.cntMon c ops
    x.onceActive i fun vs =>
      let k := numOf vs 0
      if 6 < k ∨ 18 < numOf vs 1 then x.trap i trapHandle (x.active c) 0
      else x.commitAll i [.bits ((x.s.monitorOf x.eid k).field (numOf vs 1))] (x.onceFlags i)

end Sys2Proof.Machine
end

