-- ==== Sys2Proof/Machine/Cut.lean ====
section
/-! DEFINITION. Cuttings (R167 to R170, R386): cut marks at flights and at collective barriers, the copy, the drain, and the
release of flights (R152). -/

namespace Sys2Proof.Machine

/-- CUT_REFUSED (R133). -/
def futRefused : BitVec 8 := 0x0B
/-- DRAIN_FAILED. -/
def futDrain : BitVec 8 := 0x0C

/-! The descriptor (R167). -/

/-- Bytes of a descriptor without its regions. -/
def cutHead : Nat := 0x48

/-- The regions of a descriptor: address and length. -/
def cutRegions (d : List Byte) : List (BitVec 64 × Nat) :=
  (List.range (fieldAt d 0 4)).map fun k => (BitVec.ofNat 64 (fieldAt d (cutHead + 16 * k) 8), fieldAt d (cutHead + 16 * k + 8) 8)

/-- Does a descriptor keep its limits: NREG, and the sum of the lengths against DESTLEN? -/
def cutOk (d : List Byte) : Bool :=
  decide (1 ≤ fieldAt d 0 4) && decide (fieldAt d 0 4 ≤ 64) && decide (((cutRegions d).map Prod.snd).sum ≤ fieldAt d 0x10 8)

/-- A path's checks of the descriptor that it names, before it arrives; `k` goes on. -/
def Exe.cutCheck (x : Exe) (i : Instr) (c : BitVec 64) (k : Exe → State) : State :=
  let bad : Exe → State := fun x => x.trap i trapHandle (x.active i.ctl) 0
  if c.toNat % 64 ≠ 0 then bad x
  else if x.windowDown false c then x.s.endLaunch x.team.launch stLinkKey 0 0 0
  else
    x.plainRead c .load cutHead fun s h =>
      if fieldAt h 0 4 < 1 ∨ 64 < fieldAt h 0 4 then bad (x.upon s)
      else
        (x.upon s).plainRead (c + BitVec.ofNat 64 cutHead) .load (16 * fieldAt h 0 4) fun s r =>
          if cutOk (h ++ r) then k (x.upon s) else bad (x.upon s)

/-! Cuttings in progress. -/

/-- Does the drain engine hold its four cuttings of an enclave (R127), counting those that are still to be copied, one for each flight?
A mark then waits at issue, unless its own cutting is among them. -/
def State.cutsFull (s : State) (e : Nat) (own : Option (Nat × Nat × Nat)) : Bool :=
  let mine := (s.cuts.filter fun c => c.2.enclave == e && !c.2.ended && !c.2.refused).map fun c =>
    (if c.2.copied then none else c.2.spot.map fun f => (c.2.launch, f), if c.2.copied || c.2.spot.isNone then c.1 else 0)
  decide (4 ≤ mine.eraseDups.length) && !(own.isSome && mine.any fun c => c.1 == own)

/-- The state with a cutting to be taken by a descriptor. -/
def State.addCut (s : State) (e l : Nat) (spot : Option (Nat × Nat)) (c : BitVec 64) : State :=
  { s with cuts := s.cuts ++ [(s.next, ⟨e, l, spot, c, 0, 0, [], 0, 0, false, false, [], 0, false⟩)], next := s.next + 1 }

/-- The cutting that a launch takes, or has taken, at a flight by a descriptor, before the departure. -/
def State.cutAt (s : State) (l : Nat) (spot : Nat × Nat) (c : BitVec 64) : Option (Nat × Cut) :=
  s.cuts.find? fun q => q.2.launch == l && q.2.spot == some spot && q.2.desc == c

/-- The die on which the path's team stands. -/
def Exe.die (x : Exe) : Nat := dieOf x.hall

/-- The path's mark stands at its flight: the cutting by its descriptor is awaited. -/
def Exe.awaitCut (x : Exe) (f : Nat) (c : BitVec 64) (s : State) : State :=
  if (s.cutAt x.team.launch (x.die, f) c).isSome then s else s.addCut x.eid x.team.launch (some (x.die, f)) c

/-- The path departs from a cut mark with the future of a cutting, or of a refused one (R170). -/
def Exe.cutDepart (x : Exe) (i : Instr) (vs : List Val) (k : Option Nat) : State :=
  let cut := (k.bind (mget x.s.cuts)).filter fun c => !c.refused
  let st := match cut with
    | none => futRefused
    | some c => if !c.ended then futPending else if c.drained = c.used then futOK else futDrain
  let o := x.newOp i 6 vs (if xScopeFabric i then 7 else 5) none 0 0
  x.issue { o with status := st } fun y fut num =>
    let s := match k, cut with
      | some n, some c => { y.s with cuts := mset y.s.cuts n { c with ops := c.ops ++ [num] } }
      | _, _ => y.s
    (x.upon s).commitAll i [.bits fut] (x.onceFlags i)
where
  /-- Is the mark one at a collective barrier? -/
  xScopeFabric : Instr → Bool
    | .cutMarkFb .. => true
    | _ => false

/-- CUT.MARK.DY (R386): FLIGHT with a cutting between the last arrival and the departure. -/
def execCutMarkDy (c : Ctl) (ops : List Opnd) (s : State) : Host.Outcome State Fault Refusal :=
  onPath s fun x =>
    let i := Instr.cutMarkDy c ops
    x.once i fun vs =>
      let f := numOf vs 0
      let d := (argOf vs 1).toBits
      match x.p.stage with
      | .cutting k => x.cutDepart i vs (some k)
      | .released => x.cutDepart i vs none
      | .arriving _ | .waiting .. => x.awaitCut f d x.s
      | .none | .masked | .joining _ | .issued _ | .failed | .translating _ =>
          if x.launch.nflight ≤ f then x.trapAll i trapHandle
          else if x.s.cutsFull x.eid (some (x.team.launch, x.die, f)) then x.s
          else x.cutCheck i d fun x => x.awaitCut f d (x.arriveAt (.flight f))

/-- CUT.MARK.FB (R386): the collective barrier, awaited, then this package's cutting before the departure. -/
def execCutMarkFb (c : Ctl) (ops : List Opnd) (s : State) : Host.Outcome State Fault Refusal :=
  onPath s fun x =>
    let i := Instr.cutMarkFb c ops
    x.once i fun vs =>
      let d := (argOf vs 1).toBits
      match x.p.stage with
      | .cutting k =>
          if ((mget x.s.cuts k).map Cut.copied) = some true then x.cutDepart i vs (some k) else x.s
      | .joining n =>
          match mget x.s.ops n with
          | none => x.cutDepart i vs none
          | some o =>
              if o.status = futPending then x.s
              else if o.status ≠ futOK ∨ o.clipped ∨ x.encl.h = 0xFFFFFFFF then x.cutDepart i vs none
              else if x.s.cutsFull x.eid none then x.s
              else
                (x.put (x.g.setPath x.pid { x.p with stage := .cutting x.s.next })).addCut x.eid x.team.launch none d
      | .none | .masked | .released | .arriving _ | .waiting .. | .issued _ | .failed | .translating _ =>
          if x.s.cutsFull x.eid none then x.s
          else
            x.cutCheck i d fun x => x.collIssueTo i 7 3 0 (numOf vs 0) (d.toNat + 1) 0 vs fun y _ num =>
              y.put (y.g.setPath y.pid { y.p with stage := .joining num })

/-! The copy (R168). -/

/-- The descriptor that a path waiting at a flight names by a cut mark; none at a plain FLIGHT. -/
def State.markOf (s : State) (gid pid : Nat) : Option (BitVec 64) :=
  match s.exeOf gid pid with
  | none => none
  | some x =>
      match (x.tr.fetch x.p.pc).1 with
      | .ok (.cutMarkDy c ops) => some (argOf (x.onceVals (.cutMarkDy c ops)) 1).toBits
      | _ => none

/-- What the paths waiting at a flight on a die name. -/
def State.marksAt (s : State) (l die f : Nat) : List (Option (BitVec 64)) :=
  (((s.launch l).flight die f).map fun gid =>
    ((s.group gid).ctx.paths.filter fun p => p.2.stage == .waiting (.flight f) 0).map fun p => s.markOf gid p.1).flatten

/-- Has the last arrival at a flight on a die come? -/
def State.flightFull (s : State) (l die f : Nat) : Bool :=
  let arrived := (s.launch l).flight die f
  !arrived.isEmpty && decide ((s.flightParty l die).length ≤ arrived.length)

/-- The descriptor by which a full flight takes a cutting, if all name it. -/
def State.cutBy (s : State) (l die f : Nat) : Option (BitVec 64) :=
  match s.marksAt l die f with
  | some c :: rest => if rest.all (· == some c) then some c else none
  | _ => none

/-- Copies one region behind what has been copied. -/
def State.copyRegion (e : Nat) (dest : BitVec 64) (q : State × Nat) (r : BitVec 64 × Nat) :
    Except (AccessKind × Stop) (State × Nat) :=
  match q.1.hwTake none e r.1 .engRead r.2 with
  | .error st => .error (.engRead, st)
  | .ok (s, bs) =>
      match s.hwWrite none e (dest + BitVec.ofNat 64 q.2) bs with
      | .error st => .error (.engWrite, st)
      | .ok s => .ok (s, q.2 + r.2)

/-- Takes a cutting (R168): the regions are copied in order and back to back, and the count of cuttings advances. Where it has no room
left, nothing is copied and the cutting is refused (R57). -/
def State.takeCut (s : State) (k : Nat) (c : Cut) : Except (AccessKind × Stop) State :=
  if (s.encl c.enclave).h = 0xFFFFFFFF then
    .ok { s with cuts := mset s.cuts k { c with copied := true, refused := true, ended := true } }
  else do
    let read := fun (s : State) (a : BitVec 64) (n : Nat) =>
      (s.hwTake none c.enclave a .engRead n).mapError fun st => (AccessKind.engRead, st)
    let (s, h) ← read s c.desc cutHead
    let (s, r) ← read s (c.desc + BitVec.ofNat 64 cutHead) (16 * min 64 (fieldAt h 0 4))
    let d := h ++ r
    let dest := BitVec.ofNat 64 (fieldAt d 8 8)
    let q ← ((cutRegions d).take 64).foldlM (State.copyRegion c.enclave dest) (s, 0)
    let id := (s.encl c.enclave).h + 1
    let s ← (q.1.hwWrite none c.enclave (c.desc + 0x20) (bvBytes 4 id)).mapError fun st => (AccessKind.engWrite, st)
    let s := s.setEncl c.enclave { s.encl c.enclave with h := id }
    let c' : Cut := { c with
      dest := dest, lba := fieldAt d 0x18 8, dkey := (d.drop 0x28).take 32, used := q.2, cutId := id, copied := true }
    return { s with cuts := mset s.cuts k c' }

/-- May a cutting be taken now: after the last arrival at its flight, or when a path waits for it behind its barrier? -/
def State.cutDue (s : State) (k : Nat) (c : Cut) : Bool :=
  !c.copied &&
    match c.spot with
    | some f => s.flightFull c.launch f.1 f.2 && s.cutBy c.launch f.1 f.2 == some c.desc
    | none => s.groups.any fun g => g.2.ctx.paths.any fun p => p.2.stage == .cutting k

/-- CUT_COPY_DONE (R168): the drain engine has copied a cutting; on a fault the barrier's cores stall. -/
def execCutCopyDone (k : Nat) (s : State) : Host.Outcome State Fault Refusal :=
  .next <|
    match mget s.cuts k with
    | none => s
    | some c =>
        if s.cutDue k c = false ∨ s.waiting (.cut k) then s
        else
          match s.takeCut k c with
          | .ok s => s
          | .error (kind, st) =>
              match st.found with
              | .fault f =>
                  let g := (s.cutGroups k).headD (s.group 0)
                  s.faultAccess c.launch (s.team g.team).core g.slot kind (.cut k) st.va f
              | .search pa n => s.startSearch pa n
              | .window .. => s.endLaunch c.launch stLinkKey 0 0 0
              | .ok .. | .moving => s

/-- The state after all participants of a flight on a die are released to a stage. -/
def State.freeFlight (s : State) (l die f : Nat) (stage : Stage) : State :=
  let x := s.launch l
  let free : Path → Path := fun p => if p.stage = .waiting (.flight f) 0 then { p with stage := stage } else p
  { s.setLaunch l { x with flights := mdel x.flights (die, f) } with
    groups := s.groups.map fun g => if (x.flight die f).contains g.1 then (g.1, g.2.mapPaths free) else g }

/-- FLIGHT_RELEASE (R152): 32 stairwell cycles after the last participant of a flight on a die arrived, all are released; where
they are to take a cutting, once it has been copied (R168). -/
def execFlightRelease (l die f : Nat) (s : State) : Host.Outcome State Fault Refusal :=
  .next <|
    if s.flightFull l die f = false then s
    else
      match s.cutBy l die f with
      | some c =>
          match s.cutAt l (die, f) c with
          | none => s
          | some q =>
              if q.2.copied then
                ({ s with cuts := mset s.cuts q.1 { q.2 with spot := none } } : State).freeFlight l die f
                  (if q.2.refused then .released else .cutting q.1)
              else s
      | none =>
          ({ s with cuts := s.cuts.filter fun q => !(q.2.launch == l && q.2.spot == some (die, f)) } : State).freeFlight l die f
            .released

/-! The drain (R169, R170). -/

/-- The record of chunk j of a cutting, with the chunk's bytes (R169). -/
def Cut.chunkRecord (c : Cut) (j : Nat) (bs : List Byte) : List Byte :=
  let head := leBytes 4 0x5A524355 ++ leBytes 2 1 ++ leBytes 2 c.enclave ++ bvBytes 4 c.cutId ++ leBytes 4 j ++
    leBytes 4 bs.length ++ leBytes 12 0
  let key := BitVec.ofNat 256 (leNat c.dkey)
  let nonce := BitVec.ofNat 96 (c.cutId.toNat * 2 ^ 64 + j % 2 ^ 32 * 2 ^ 32)
  let cipher := (padTo 4096 bs).mapIdx fun k b => b ^^^ gcmStream key nonce k
  head ++ cipher ++ bvBytes 16 (gcmTag key nonce head cipher)

/-- The chunks of a cutting. -/
def Cut.chunks (c : Cut) : Nat := (c.used + 4095) / 4096
/-- The chunks drained. -/
def Cut.done (c : Cut) : Nat := (c.drained + 4095) / 4096

/-- How a stretch of a drain ended: done, or in wait for a search of a line or for a frame in MOVING (R40, R82), or with a
failed read. -/
inductive Drained where
  | done | waits | failed
  deriving DecidableEq, Repr

/-- Drains up to n chunks more of a cutting to its partition's storage. -/
def State.drain (k : Nat) : Nat → State → State × Drained
  | 0, s => (s, .done)
  | n + 1, s =>
      match mget s.cuts k with
      | none => (s, .done)
      | some c =>
          let j := c.done
          let len := min 4096 (c.used - 4096 * j)
          if c.chunks ≤ j then (s, .done)
          else
            match s.hwTake none c.enclave (c.dest + BitVec.ofNat 64 (4096 * j)) .engRead len with
            | .error st =>
                match st.found with
                | .search pa m => (s.startSearch pa m, .waits)
                | .moving => (s, .waits)
                | .ok .. | .window .. | .fault _ => (s, .failed)
            | .ok (s, bs) =>
                let part := (s.encl c.enclave).part
                let old := (mget s.storage part).getD []
                State.drain k n { s with
                  storage := mset s.storage part (writeBytes old (4096 * c.lba + 4144 * j) (c.chunkRecord j bs))
                  cuts := mset s.cuts k { c with drained := c.drained + len } }

/-- A free number of the chunks that are left. -/
def State.someChunks (s : State) (c : Cut) : Nat := Config.freeNat (.choice 2003) s.free % (c.chunks - c.done + 1)

/-- CUT_DRAIN_DONE (R169, R170): the drain of a cutting ends: all is written, or a failed read or a storage error stopped it, or
no future of it is still awaited. -/
def execCutDrainDone (k : Nat) (ok : Bool) (s : State) : Host.Outcome State Fault Refusal :=
  .next <|
    match mget s.cuts k with
    | none => s
    | some c =>
        let live := c.ops.filter fun n => ((mget s.ops n).map EngOp.status) == some futPending
        let close : State → State := fun s =>
          match mget s.cuts k with
          | none => s
          | some c =>
              let s : State := { s with cuts := mset s.cuts k { c with ended := true } }
              live.foldl (fun s n => s.finishOp n (if c.drained = c.used then futOK else futDrain)) s
        if !c.copied || c.ended || c.ops.isEmpty then s
        else if live.isEmpty then close s
        else
          let r := State.drain k (if ok then c.chunks - c.done else min (s.someChunks c) (c.chunks - c.done - 1)) s
          if r.2 = .waits then r.1 else close r.1

/-- The cutting of an operation. -/
def State.cutOf (s : State) (op : Nat) : Option (Nat × Cut) := s.cuts.find? fun c => c.2.ops.contains op

/-- The cuttings of some futures drain a little further, by how much no rule fixes. -/
def State.drainSome (s : State) (fs : FutViews) : State :=
  (firsts ((fs.filterMap fun v => v.2.2.bind s.cutOf).map Prod.fst)).foldl (fun s k =>
    match mget s.cuts k with
    | none => s
    | some c => if c.ended then s else (State.drain k (s.someChunks c) s).1) s

/-- CUT.STATUS (R170): the bytes drained so far, and the status; those of a future that has expired are not known. -/
def execCutStatus (c : Ctl) (ops : List Opnd) (s : State) : Host.Outcome State Fault Refusal :=
  onPath s fun x => x.futures (.cutStatus c ops) fun fs flags =>
    let s := x.s.drainSome fs
    let y := x.upon s
    y.commit (.cutStatus c ops) (fs.map fun v =>
      let bytes := match v.2.2 with
        | none => Config.freeNat (.result v.1 0) s.free
        | some op => ((s.cutOf op).map fun q => q.2.drained).getD 0
      (v.1, [.bits (BitVec.ofNat 64 (bytes % 2 ^ 48 + v.2.1.toNat * 2 ^ 48))])) flags

end Sys2Proof.Machine
end

