-- ==== Sys2Proof/Machine/Hart.lean ====
section
/-! DEFINITION. General cores: registers, taking an exception (R39, R52, R387, R390), leaving an enclave, and the accesses of the
operating system and of enclave CPU threads (R39, R40, R52, R84). -/

namespace Sys2Proof.Machine

/-- A general core. -/
def State.hart (s : State) (h : Nat) : Hart := (mget s.harts h).getD Hart.reset
/-- The state with a general core changed. -/
def State.setHart (s : State) (h : Nat) (x : Hart) : State := { s with harts := mset s.harts h x }
/-- A register; x0 reads as zero. -/
def Hart.reg (x : Hart) (r : BitVec 5) : BitVec 64 := if r = 0 then 0 else (mget x.regs r.toNat).getD 0
/-- The general core with a register written; x0 stays zero. -/
def Hart.setReg (x : Hart) (r : BitVec 5) (v : BitVec 64) : Hart :=
  if r = 0 then x else { x with regs := mset x.regs r.toNat v }
/-- The partition that a general core belongs to. -/
def State.partOf (s : State) (h : Nat) : Option Nat :=
  (s.parts.find? fun p => p.2.formed && p.2.cores.contains h).map Prod.fst

/-- A CPU thread of an enclave. -/
def Enclave.thread (x : Enclave) (t : Nat) : Thread := (mget x.threads t).getD ⟨false, false, [], 0, ⟨[], [], []⟩⟩
/-- The enclave with a CPU thread changed. -/
def Enclave.setThread (x : Enclave) (t : Nat) (y : Thread) : Enclave := { x with threads := mset x.threads t y }

/-! Taking an exception. -/

/-- Taking an exception or interrupt into HS-mode: the saved pc, cause and value, the status bits, and the handler's address; a
vectored interrupt adds four times its number. The RISC-V privileged architecture gives this (assumption log 4). -/
def Hart.take (x : Hart) (cause tval pc : BitVec 64) : Hart :=
  let base := x.stvec &&& ~~~3#64
  let vectored := cause.getLsbD 63 && x.stvec.extractLsb' 0 2 == 1
  { x with
    sepc := pc, scause := cause, stval := tval
    spp := x.mode == .hs || x.mode == .vs, spv := x.mode == .vs || x.mode == .vu
    spie := x.sie, sie := false, mode := .hs, wait := .nothing, answer := none
    pc := if vectored then base + 4 * (cause &&& 0x7FFFFFFFFFFFFFFF#64) else base }

/-- A general core leaves its enclave: the thread's registers are sealed with the address where it goes on, and the general core
stands at its ENC.ENTER with the registers that it had there (R390). -/
def State.leave (s : State) (h : Nat) (n : Inside) (pc : BitVec 64) : State :=
  let x := s.hart h
  let e := s.encl n.enclave
  let t := e.thread n.thread
  let s := s.setEncl n.enclave (e.setThread n.thread { t with started := true, regs := x.regs, pc := pc, more := x.more })
  s.setHart h { x with regs := n.outer, more := n.outerMore, pc := n.enter, mode := .hs, inside := none }

/-- Raises an exception or interrupt at a general core; inside of an enclave, the thread is sealed first, and sepc is at the
ENC.ENTER (R390). -/
def State.hartTrap (s : State) (h : Nat) (cause tval : BitVec 64) : State :=
  let x := s.hart h
  let s := match x.inside with
    | none => s
    | some n => s.leave h n x.pc
  let x := s.hart h
  { s.setHart h (x.take cause tval x.pc) with
    requests := s.requests.filter (· != h), poolWaits := s.poolWaits.filter (· != h)
    far := s.far.filter fun q => q.2.who != .hart h }

/-- An interrupt is taken at a general core; a fault interrupt is no longer pending. An access that waits for a far end is completed
first. -/
def State.hartInterrupt (s : State) (h : Nat) (cause : BitVec 64) : State :=
  if s.asked (.hart h) then s
  else
    let s := s.hartTrap h (cause ||| 0x8000000000000000#64) 0
    match s.partOf h with
    | none => s
    | some p =>
        if bitsOf cause.toNat 62 0 = 9 then s.setPart p { s.part p with extIrq := (s.part p).extIrq.filter (· != h) } else s

/-- The exception of an instruction that may not execute here: a virtual-instruction exception in VS-mode and VU-mode, else an
illegal-instruction exception (R387). -/
def State.hartIllegal (s : State) (h : Nat) : State :=
  let x := s.hart h
  s.hartTrap h (if x.mode = .vs ∨ x.mode = .vu then 22 else 2) 0

/-- The RISC-V page-fault cause of an access kind. -/
def pageCause : AccessKind → BitVec 64
  | .load | .engRead => 13
  | .store | .atomic | .engWrite => 15
  | .code => 12
/-- The RISC-V access-fault cause of an access kind. -/
def accessCause : AccessKind → BitVec 64
  | .load | .engRead => 5
  | .store | .atomic | .engWrite => 7
  | .code => 1

/-- A translation fault of a CPU thread (R52): the thread leaves the enclave with a page-fault exception; a fatal one ends it. -/
def State.threadFault (s : State) (h : Nat) (k : AccessKind) (va : BitVec 64) (kind : FaultKind) : State :=
  match (s.hart h).inside with
  | none => s
  | some n =>
      let e := s.encl n.enclave
      let t := e.thread n.thread
      let s := if kind.fatal then s.setEncl n.enclave (e.setThread n.thread { t with dead := true }) else s
      s.hartTrap h (pageCause k) (va &&& ~~~0xFFF#64)

/-- What becomes of a CPU thread's access that stops. -/
def State.threadStop (s : State) (h : Nat) (k : AccessKind) (st : Stop) : State :=
  match st.found with
  | .fault f => s.threadFault h k st.va f.kind
  | .search pa n => s.startSearch pa n
  | .window .. => s.hartTrap h (accessCause k) st.va
  | .ok .. | .moving => s

/-- A CPU thread's access of n bytes (R40, R52); `f` gives what follows from where it lies. -/
def State.threadAccess (s : State) (h e : Nat) (va : BitVec 64) (k : AccessKind) (n : Nat) (f : List (Found × Nat) → State) :
    State :=
  match s.locate none e va k n with
  | .error st => s.threadStop h k st
  | .ok ps => f ps

/-- Goes on with a thread's access that has been located, unless it lies behind a window: one that is down is an access fault
(assumption log 51), and one that has no room for a request makes it wait. -/
def State.behindWindow (s : State) (h e : Nat) (va : BitVec 64) (k : AccessKind) (ps : List (Found × Nat)) (f : State) : State :=
  if (localPieces ps).isSome then f
  else if s.windowUp e (windowIn ps) = false then s.hartTrap h (accessCause k) va
  else if s.windowWaits e (windowIn ps) then s
  else f

/-- The n bytes at a place that has been located; through a window they are sent for, and free. -/
def State.placeRead (s : State) (e n : Nat) (ps : List (Found × Nat)) : State × List Byte :=
  match localPieces ps with
  | some qs => (s, s.readPieces qs)
  | none => (s.askWindow e (windowIn ps) (windowAddr ps) false (leBytes n 0), s.windowBytes (windowAddr ps) n)

/-- Bytes written to a place that has been located; through a window they are sent. -/
def State.placeWrite (s : State) (e : Nat) (ps : List (Found × Nat)) (bs : List Byte) : State :=
  match localPieces ps with
  | some qs => s.writePieces qs bs
  | none => s.askWindow e (windowIn ps) (windowAddr ps) true bs

/-- Touches the lines of the pieces of a general core's access (R68). -/
def State.coreTouches (s : State) (h : Nat) (write : Bool) (ps : List (Nat × Nat × Nat)) : State :=
  ps.foldl (fun s p => s.coreTouchAll h p.1 p.2.2 write) s

/-! The operating system's accesses (R39, R84). -/

/-- How an operating system's access to physical memory goes. -/
inductive OsOut where
  | ok | fault | wait
  deriving DecidableEq, Repr

/-- May the operating system of a partition access a page (R39)? -/
def State.osPage (s : State) (part page : Nat) : Bool :=
  let e := s.potOf page
  e.owner == 0 && e.part.toNat == part && (e.state == .owned || e.state == .sharedRo)

/-- The page numbers that n bytes at a physical address touch. -/
def pagesAt (pa n : Nat) : List Nat :=
  if n = 0 then [] else (List.range ((pa + n - 1) / 4096 - pa / 4096 + 1)).map (pa / 4096 + ·)

/-- The check of an operating system's access. -/
def State.osCheck (s : State) (part : Nat) (write : Bool) (pa n : Nat) : OsOut :=
  if !(pagesAt pa n).all (s.osPage part) then .fault
  else
    match s.linesState write pa n with
    | .poisoned => .fault
    | .searching | .damaged | .stale | .lost => .wait
    | .fine => .ok

/-- The word at a general core's pc, fetched through its cache, or what becomes of its fetch. Behind a window that is down there is
none: an access fault (assumption log 51). -/
def State.hartFetch (s : State) (h part : Nat) : Except State (State × Word) :=
  let x := s.hart h
  match x.inside with
  | none =>
      match s.osCheck part false x.pc.toNat 4 with
      | .fault => .error (s.hartTrap h 1 x.pc)
      | .wait => .error (s.startSearch x.pc.toNat 4)
      | .ok => .ok (s.coreTouchAll h x.pc.toNat 4 false, BitVec.ofNat 32 (readLE s.mem x.pc.toNat 4))
  | some n =>
      if x.pc.toNat < 4096 then .error (s.hartTrap h 1 x.pc)
      else
        match s.locate none n.enclave x.pc .code 4 with
        | .error st => .error (s.threadStop h .code st)
        | .ok ps =>
            match localPieces ps with
            | some qs => .ok (s.coreTouches h false qs, BitVec.ofNat 32 (leNat (s.readPieces qs)))
            | none =>
                let w := windowIn ps
                if s.windowUp n.enclave w = false then .error (s.hartTrap h 1 x.pc)
                else if s.windowWaits n.enclave w then .error s
                else
                  .ok (s.askWindow n.enclave w (windowAddr ps) false (leBytes 4 0),
                    BitVec.ofNat 32 (leNat (s.windowBytes (windowAddr ps) 4)))

/-! Completing an instruction of a general core. -/

/-- The general core goes on behind its instruction with a register written. -/
def State.retire (s : State) (h : Nat) (rd : BitVec 5) (v : BitVec 64) : State :=
  let x := s.hart h
  s.setHart h { x.setReg rd v with pc := x.pc + 4, answer := none }

/-- The result word of a custom-0 instruction: a status and a value (R388). -/
def resultWord (status value : Nat) : BitVec 64 := BitVec.ofNat 64 (status % 2 ^ 16 * 2 ^ 48 + value % 2 ^ 48)

/-- Completes a custom-0 instruction with a status and a value. -/
def State.answer (s : State) (h : Nat) (rd : BitVec 5) (status value : Nat) : State := s.retire h rd (resultWord status value)

/-- The statuses of R388. -/
def enOK : Nat := 0x00
/-- BAD_STATE. -/
def enBadState : Nat := 0x01
/-- NO_KEY_SLOT. -/
def enNoKeySlot : Nat := 0x02
/-- BAD_ROOT. -/
def enBadRoot : Nat := 0x03
/-- BAD_ATTR. -/
def enBadAttr : Nat := 0x04
/-- BAD_SOURCE. -/
def enBadSource : Nat := 0x05
/-- VPN_IN_USE. -/
def enVpnInUse : Nat := 0x06
/-- VERSION_EXHAUSTED. -/
def enVersion : Nat := 0x07
/-- POOL_EMPTY. -/
def enPoolEmpty : Nat := 0x08
/-- BUSY. -/
def enBusy : Nat := 0x09
/-- REKEY_BUSY. -/
def enRekeyBusy : Nat := 0x0A
/-- NOT_OWNED. -/
def enNotOwned : Nat := 0x0B
/-- SLOT_BUSY. -/
def enSlotBusy : Nat := 0x0C
/-- BAD_BUFFER. -/
def enBadBuffer : Nat := 0x0D
/-- PAGE_POISONED. -/
def enPagePoisoned : Nat := 0x0E
/-- SLOT_NOT_PAGED. -/
def enSlotNotPaged : Nat := 0x0F
/-- IMAGE_FOREIGN. -/
def enImageForeign : Nat := 0x10
/-- IMAGE_STALE. -/
def enImageStale : Nat := 0x11
/-- NOT_FREEABLE. -/
def enNotFreeable : Nat := 0x12
/-- NOT_PENDING. -/
def enNotPending : Nat := 0x13
/-- THREAD_DEAD. -/
def enThreadDead : Nat := 0x14
/-- BAD_OPERAND. -/
def enBadOperand : Nat := 0x15
/-- PIN_FULL. -/
def enPinFull : Nat := 0x16

/-! Executing a custom-0 instruction. -/

/-- Is a line one of the carve-out's (R20)? -/
def inCarve (line : Nat) : Bool := decide (0xBE00000 * 64 ≤ line) && decide (line < 0xC000000 * 64)

/-- Does a carve-out line fail its check (R88): it holds an earlier copy, which the counter tree tells, or flipped bits, which the MAC
tells? -/
def State.carveBad (s : State) : Bool := s.carve.any fun f => inCarve f.1 && (f.2.behind != 0 || !f.2.flips.isEmpty)

/-- The root of trust stops (R88): every launch of every partition ends with INTEGRITY, and ROOT_INTEGRITY stands. -/
def State.rootStop (s : State) : State :=
  let s : State := { s with mgmt := { s.mgmt with rootIntegrity := true } }
  (s.launches.map Prod.fst).foldl (fun s l => s.endLaunch l 0x11 5 0 0) s

/-- Is a PAGE.OUT under way (R56)? Towards it, every other change of the POT comes before or after. -/
def State.sealing (s : State) : Bool := s.moves.any fun m =>
  match m.2 with
  | .free => false
  | .out .. => true

/-- The root of trust has served a general core's request. -/
def State.served (s : State) (h : Nat) : State :=
  { s with
    requests := s.requests.filter (· != h)
    poolWaits := if (s.hart h).wait = .pool then s.poolWaits else s.poolWaits.filter (· != h) }

/-- The general core whose turn it is executes a custom-0 instruction: `k` goes on with its number, its partition and its
registers. One in reset, or one that waits, executes nothing, and no root of trust that has stopped serves one (R5, R55, R88). While
a PAGE.OUT is under way, and while an earlier request waits, the request waits in its turn (R60). -/
def onHart (s : State) (k : Nat → Nat → Hart → State) : Host.Outcome State Fault Refusal :=
  .next <|
    let h := s.curHart
    let x := s.hart h
    match s.partOf h with
    | none => s
    | some p =>
        if x.inReset || x.wait != .nothing || s.mgmt.rootIntegrity then s
        else if s.carveBad then s.rootStop
        else if s.sealing || s.requests.head?.any (· != h) then
          { s with requests := if s.requests.contains h then s.requests else s.requests ++ [h] }
        else (k h p x).served h

/-- An instruction of the operating system: in HS-mode outside any enclave (R387). -/
def asOs (s : State) (k : Nat → Nat → Hart → State) : Host.Outcome State Fault Refusal :=
  onHart s fun h p x => if x.inside = none ∧ x.mode = .hs then k h p x else s.hartIllegal h

/-- An instruction of an enclave CPU thread (R387). -/
def asThread (s : State) (k : Nat → Nat → Hart → Inside → State) : Host.Outcome State Fault Refusal :=
  onHart s fun h p x =>
    match x.inside with
    | some n => k h p x n
    | none => s.hartIllegal h

/-- The enclave that an operand names, if it is one of the partition (R388). -/
def State.enclIn (s : State) (part e : Nat) : Option Enclave :=
  (mget s.encls e).filter fun x => x.part == part && x.state != .none

end Sys2Proof.Machine
end

