-- ==== Sys2Proof/Machine/Issue.lean ====
section
/-! DEFINITION. Issue: which paths may issue (R45, R138, R182, R198, R209, R408, R411), what the executing path fetches, and
the trap of an illegal encoding (R265 to R267). -/

namespace Sys2Proof.Machine

/-- Has what a path waits for at its instruction come about: the instruction is complete but for the path's own part, which it
performs before a pre-emption stops it (R408)? -/
def State.finishing (s : State) (g : Group) (p : Path) : Bool :=
  match p.stage with
  | .released | .issued _ => true
  | .cutting k => ((mget s.cuts k).map Cut.copied) == some true
  | .waiting (.bar b) n => ((s.team g.team).bar b).phases != n
  | .joining op =>
      match mget s.ops op with
      | none => true
      | some o => o.status != futPending && o.status != futPreempt
  | .waiting (.flight _) _ | .none | .arriving _ | .masked | .failed | .translating _ => false

/-- Does a path's group issue it: its team is on a core, its launch runs, and no pre-emption stops it; a group whose handler
is held may issue the handler (R411)? -/
def State.groupIssues (s : State) (g : Group) (p : Path) : Bool :=
  let t := s.team g.team
  t.resident && (s.launch t.launch).phase == .dispatched &&
    (!g.stopped || (g.held && g.handler.isSome) || s.finishing g p)

/-- May a path issue? It waits while an access of its core, or of its gallery core, waits on a fault record (R45), or is to be
replayed before its own (R49); a path whose copy is under way, that has yielded or that waits for a frame in MOVING does
not issue. -/
def State.ready (s : State) (gid pid : Nat) : Bool :=
  match mget s.groups gid with
  | none => false
  | some g =>
      match mget g.ctx.paths pid with
      | none => false
      | some p =>
          s.groupIssues g p && p.yield.isNone && !s.moving.contains (gid, pid) &&
            match p.place with
            | .core | .gallery _ =>
                !s.coreStalled (s.unitOf g p) && !s.replayLater (s.unitOf g p) (.path gid pid)
            | .handing _ | .copying _ | .recalling _ => false

/-- What the words at the executing path's pc are (R218, R240). -/
def Exe.fetched (x : Exe) : Fetched := (x.tr.fetch x.p.pc).1

/-- The issue slot of a core path (R400): the home slot, the group's slot number modulo 4, for the path with the group's lowest
lane among its core paths, and the slot two further for the other. Which of the ready paths of a slot issues next is for the
turns to say (assumption log 14). -/
def Group.issueSlot (g : Group) (pid : Nat) : Nat :=
  let first := g.ctx.lowestPath fun p => p.place == .core
  if first = some pid then g.slot % 4 else (g.slot + 2) % 4

/-- ILLEGAL_ENCODING in every lane of the path, guard ignored, before any effect (R265, R267). -/
def Exe.illegal (x : Exe) : State :=
  x.s.raiseTrap x.gid x.pid x.p ⟨1, x.p.mask, 0, x.lanes.map fun l => (l, [])⟩

end Sys2Proof.Machine
end

