-- ==== Sys2Proof/Machine/Matrix.lean ====
section
/-! DEFINITION. The matrix engine: format blocks (R357, R358), cohorts (R359, R360), accumulator tiles (R361, R362), MMA (R363,
R238, R239), sparsity (R366 to R368), unfolding (R369, R370), speculation (R371), and tile loads and stores (R372, R373). -/

namespace Sys2Proof.Machine

/-! Format blocks (R357). -/

/-- FMTA's code, or FMTBB's. -/
def fbCode (b : List Byte) (isB : Bool) : Nat := bitsOf (fieldAt b (if isB then 2 else 0) 2) 4 0
/-- BLK of A or B. -/
def fbBlk (b : List Byte) (isB : Bool) : Bool := bitsOf (fieldAt b (if isB then 2 else 0) 2) 5 5 == 1
/-- PITCHA or PITCHB. -/
def fbPitch (b : List Byte) (isB : Bool) : Nat := fieldAt b (if isB then 6 else 4) 2
/-- SCALEA or SCALEB. -/
def fbScale (b : List Byte) (isB : Bool) : Nat := fieldAt b (if isB then 0x0C else 8) 4
/-- SPITCHA or SPITCHB. -/
def fbSpitch (b : List Byte) (isB : Bool) : Nat := fieldAt b (if isB then 0x12 else 0x10) 2
/-- KSLABS. -/
def fbSlabs (b : List Byte) : Nat := fieldAt b 0x14 1

/-- Slab elements of a format (R356). -/
def slabOf (code : Nat) : Nat :=
  match code with
  | 0 | 1 => 24
  | 2 | 3 => 48
  | 6 | 7 | 13 | 14 => 128
  | 8 | 10 | 15 => 192
  | _ => 96

/-- Ks: the smaller of the two operands' slab element counts. -/
def fbKs (b : List Byte) : Nat := min (slabOf (fbCode b false)) (slabOf (fbCode b true))

/-- K. -/
def fbK (b : List Byte) : Nat := fbSlabs b * fbKs b

/-- Is the format a BFP one? -/
def isBfp (code : Nat) : Bool := decide (17 ≤ code) && decide (code ≤ 23)

/-- The checks of FMTB (R358). -/
def fbOk (b : List Byte) : Bool :=
  let codes := [fbCode b false, fbCode b true]
  b.length == 32 && codes.all (fun c => decide (c ≤ 23)) &&
  [false, true].all (fun w => bitsOf (fieldAt b (if w then 2 else 0) 2) 15 6 == 0 && (!fbBlk b w || isBfp (fbCode b w))) &&
  fieldAt b 0x15 11 == 0 && decide (1 ≤ fbSlabs b) && decide (fbSlabs b ≤ 8) &&
  isBfp (fbCode b false) == isBfp (fbCode b true) &&
  [false, true].all fun w => !isBlocked (fbCode b w) || fbKs b % blockLen (fbCode b w) (fbBlk b w) == 0

/-- Do the operands make an INT32 tile: both INT8 or INT4 (R363)? -/
def fbInt (b : List Byte) : Bool := [false, true].all fun w => fbCode b w == 9 || fbCode b w == 10

/-- The bytes of a valid format block value. -/
def Val.block : Val → Option (List Byte)
  | .fmtb b => if fbOk b then some b else none
  | .bits _ | .tmap .. | .acc .. => none

/-- The entry of the function's code object that a table operand names (R255). -/
def Exe.fmtEntry (x : Exe) (k : Nat) : List Byte := ((mget x.s.objs x.tr.obj).bind fun o => o.fmtbs[k]?).getD []

/-- Defines a format block value, or raises HANDLE_INVALID (R358). -/
def Exe.defineBlock (x : Exe) (i : Instr) (b : List Byte) : State :=
  if fbOk b then x.commitAll i [.fmtb b] (x.onceFlags i) else x.trap i trapHandle (x.active i.ctl) 0

/-- FMTB (R358). -/
def execFmtb (c : Ctl) (ops : List Opnd) (s : State) : Host.Outcome State Fault Refusal :=
  onPath s fun x => x.defineBlock (.fmtb c ops) (x.fmtEntry (joinId ops))

/-- FMTB_SC (R358): the scale addresses are replaced. -/
def execFmtbSc (c : Ctl) (ops : List Opnd) (s : State) : Host.Outcome State Fault Refusal :=
  onPath s fun x =>
    let i := Instr.fmtbSc c ops
    x.once i fun vs =>
      x.defineBlock i (putBytes (x.fmtEntry (joinId ops)) 8 (leBytes 4 (numOf vs 1) ++ leBytes 4 (numOf vs 2)))

/-- FMTB_SP (R358). -/
def execFmtbSp (c : Ctl) (ops : List Opnd) (s : State) : Host.Outcome State Fault Refusal :=
  onPath s fun x =>
    let i := Instr.fmtbSp c ops
    x.once i fun vs =>
      match x.s.spadAt x.g.team (numOf vs 0) 32 with
      | none => x.trap i 9 (x.active c) 0
      | some (t, o) =>
          let b := x.s.spadRead t o 32
          if fbOk b && numOf vs 0 % 32 != 0 then x.trap i 0x0B (x.active c) 0 else x.defineBlock i b

/-! Cohorts (R359). -/

/-- The lanes of a group that have not exited. -/
def Group.notExited (g : Group) : LaneMask := widthMask g.width &&& ~~~g.exited

/-- Does the executing path hold every live lane of the group? -/
def Exe.holdsAll (x : Exe) : Bool := maskSub x.g.notExited x.p.mask

/-- COHORT (R359). -/
def execCohort (c : Ctl) (ops : List Opnd) (s : State) : Host.Outcome State Fault Refusal :=
  onPath s fun x =>
    let i := Instr.cohort c ops
    x.onCore i fun x => x.once i fun vs =>
      let l := numOf vs 0
      let n := numOf vs 1
      let p := numOf vs 2
      if x.holdsAll = false ∨ 7 < l ∨ n < 1 ∨ 6 < n ∨ n ≤ p then x.trap i trapHandle (x.active c) 0
      else
        let g := x.write i []
        x.complete i { g with cohort := BitVec.ofNat 32 (l * 512 + n * 64 + p * 8 + 1) } (modeRaise x.p.mode (x.onceFlags i))

/-- COHORT_CLEAR (R359). -/
def execCohortClear (c : Ctl) (ops : List Opnd) (s : State) : Host.Outcome State Fault Refusal :=
  onPath s fun x =>
    let i := Instr.cohortClear c ops
    x.onCore i fun x =>
      if x.holdsAll = false then x.trap i trapHandle (x.active c) 0
      else
        let g := x.write i []
        x.complete i { g with cohort := g.cohort &&& ~~~1#32 } x.p.mode

/-! Accumulator tiles (R361). -/

/-- The key of a tile of a core. -/
def tileKey (core n : Nat) : Nat := core * 32 + n

/-- A tile of a core. -/
def State.tile (s : State) (core n : Nat) : Option Tile := mget s.tiles (tileKey core n)

/-- The tiles that a value holds. -/
def Val.tiles : Val → List Nat
  | .acc t sp => t :: sp.toList
  | .bits _ | .tmap .. | .fmtb _ => []

/-- The tiles that the values of a group's live lanes hold. -/
def Group.tiles (g : Group) : List Nat :=
  ((lanesOf g.notExited).map fun l =>
    ((g.lane l).frames.map fun f => (f.vals.map fun v => v.2.tiles).flatten).flatten).flatten

/-- The tiles that the values of a team's groups hold, one of the groups taken as given. -/
def State.heldTiles (s : State) (team gid : Nat) (g : Group) : List Nat :=
  g.tiles ++ ((s.groups.filter fun q => q.2.team == team && q.1 != gid).map fun q => q.2.tiles).flatten

/-- The tiles that an operation reads or writes. -/
def EngOp.tiles (o : EngOp) : List Nat :=
  if o.cls = 2 then (o.members.map fun m => (m.2.2.map Val.tiles).flatten).flatten else []

/-- Frees the tiles of a core that no value of a live lane holds and that no incomplete operation and no copy still needs (R361). -/
def State.sweepTiles (s : State) (core : Nat) : State :=
  let teams := (s.teams.filter fun t => t.2.resident && t.2.core == core).map Prod.fst
  let held := ((s.groups.filter fun g => teams.contains g.2.team).map fun g => g.2.tiles).flatten
  let used := ((s.ops.filter fun o => teams.contains o.2.team && o.2.status == futPending).map fun o => o.2.tiles).flatten
  let sources := s.tiles.filterMap fun t => t.2.copy.map Prod.fst
  { s with tiles := s.tiles.filter fun t =>
      t.1 / 32 != core || held.contains (t.1 % 32) || used.contains (t.1 % 32) || sources.contains t.1 }

/-- Tiles that an instruction takes: the state that holds them and their numbers; `wait` when the core has too few, `full` when
the team itself holds them all (R361). -/
inductive TileGrant where
  | taken (s : State) (tiles : List Nat)
  | wait
  | full

/-- Operations that wrote a tile speculatively and can no longer be committed: their flags reach no path (R371). -/
def State.orphanSpec (s : State) (core n : Nat) : State :=
  { s with ops := s.ops.map fun o =>
      if o.2.spec && (s.team o.2.team).core == core && o.2.tiles.contains n then (o.1, { o.2 with flags := 0, watch := [] })
      else o }

/-- Takes n tiles of a team's core, of a kind, with elements; any free ones serve, and the model takes the lowest. -/
def State.takeTiles (s : State) (team n : Nat) (int : Bool) (els : List (Nat × BitVec 32)) : TileGrant :=
  let core := (s.team team).core
  let s := s.sweepTiles core
  let free := (List.range 32).filter fun k => (s.tile core k).isNone
  if n ≤ free.length then
    let ks := free.take n
    let s := ks.foldl (fun s k => s.orphanSpec core k) s
    .taken { s with tiles := s.tiles ++ ks.map fun k => (tileKey core k, (⟨int, els, team, none⟩ : Tile)) } ks
  else
    let held := s.heldTiles team (s.next) ⟨0, 0, 0, 0, 0, [], 0, Ctx.empty, none, 0, 0, 0, 0, false, false⟩
    if 32 ≤ (distinct held).length then .full else .wait

/-- Goes on with n tiles taken; waits at issue for them, or traps (R361). -/
def Exe.withTiles (x : Exe) (i : Instr) (n : Nat) (int : Bool) (els : List (Nat × BitVec 32))
    (k : Exe → List Nat → State) : State :=
  match x.s.takeTiles x.g.team n int els with
  | .taken s ts => k (x.upon s) ts
  | .wait => x.s
  | .full => x.trap i trapHandle (x.active i.ctl) 0

/-- The tile of an acc value of the executing path's team: its number and the tile. -/
def Exe.tileOf (x : Exe) (n : Nat) : Option Tile := (x.s.tile x.team.core n).filter fun t => t.team == x.g.team

/-- The executing group after the operands with L have ended. -/
def Exe.afterUse (x : Exe) (i : Instr) : Group := x.g.mapLanes x.lanes fun _ y => y.eraseAll (endsOf i.ops)

/-- Does no value hold a tile any more once the executing instruction has read its operands: is c at its last use (R361)? -/
def Exe.lastUse (x : Exe) (i : Instr) (n : Nat) : Bool := !(x.s.heldTiles x.g.team x.gid (x.afterUse i)).contains n

/-- ACC_ZERO: the step of both forms (R361). -/
def Exe.accZero (x : Exe) (i : Instr) (int : Bool) : State :=
  x.onCore i fun x => x.withTiles i 1 int [] fun x ts => x.commitAll i [.acc (ts.headD 0) none] 0

/-- ACC_ZERO_F32 (R361). -/
def execAccZeroF32 (c : Ctl) (ops : List Opnd) (s : State) : Host.Outcome State Fault Refusal :=
  onPath s fun x => x.accZero (.accZeroF32 c ops) false

/-- ACC_ZERO_I32 (R361). -/
def execAccZeroI32 (c : Ctl) (ops : List Opnd) (s : State) : Host.Outcome State Fault Refusal :=
  onPath s fun x => x.accZero (.accZeroI32 c ops) true

/-! Order among the operations of one engine (R129, R362). -/

/-- The members' values: c, d, a or m0, and m. -/
def memberVal (m : Nat × Nat × List Val) (k : Nat) : Val := argOf m.2.2 k

/-- The tile that an acc value reads or writes. -/
def Val.tile : Val → Nat
  | .acc t sp => sp.getD t
  | .bits _ | .tmap .. | .fmtb _ => 0

/-- The tile that an acc value reads or writes, if it is one. -/
def Val.tile? : Val → Option Nat
  | .acc t sp => some (sp.getD t)
  | .bits _ | .tmap .. | .fmtb _ => none

/-- The tiles that an operation writes: the result of each member. -/
def EngOp.writes (o : EngOp) : List Nat :=
  if o.maj = 0x63 ∧ o.sub = 4 then [] else o.members.filterMap fun m => (memberVal m 1).tile?

/-- The tiles that an operation reads: the sources of members. -/
def EngOp.sources (o : EngOp) : List Nat := o.members.filterMap fun m => (memberVal m 0).tile?

/-- The tiles that an operation has still to read: a source is copied at the first step. -/
def EngOp.unread (o : EngOp) : List Nat :=
  if o.maj = 0x63 ∨ o.landed = [] then o.sources else []

/-- May an operation of the matrix engine go on: has every earlier operation of its team that writes a tile that it reads or
writes completed (R362), and does none still read a tile that it writes? -/
def State.mayRun (s : State) (k : Nat) (o : EngOp) : Bool :=
  (s.ops.all fun q =>
    !(decide (q.1 < k) && q.2.team == o.team && q.2.cls == 2 && q.2.status == futPending) ||
      (!(q.2.writes.any fun t => o.writes.contains t || o.sources.contains t) &&
        !(q.2.unread.any fun t => o.writes.contains t))) &&
    (o.sources ++ o.writes).all fun t => ((s.tile (s.team o.team).core t).bind Tile.copy).isNone

/-! MMA (R355, R360, R363). -/

/-- A form of MMA: 0 dense, 1 sparse, 2 unfolding; speculative or not. -/
structure MmaForm where
  kind : Nat
  spec : Bool
  deriving DecidableEq, Repr

/-- Bytes of K elements of a format, from the first whole byte. -/
def rowBytes (k code : Nat) : Nat := (k * eltBits code + 7) / 8

/-- The scratchpad ranges that rows of an operand take, with their scales (R355): address and length. -/
def fbRanges (b : List Byte) (isB : Bool) (base rows : Nat) : List (Nat × Nat) :=
  let code := fbCode b isB
  (base, (rows - 1) * fbPitch b isB + rowBytes (fbK b) code) ::
    if isBlocked code then [(fbScale b isB, (rows - 1) * fbSpitch b isB + fbK b / blockLen code (fbBlk b isB))] else []

/-- The unfolding map in the u position, if it fits the format block (R369, R370). -/
def unfoldOf (b : List Byte) (v : Val) : Option Desc := (v.desc true).filter fun d => tmFmt d == fbCode b false

/-- The checks of one member's MMA, in the order of R326; `none`: it passes. -/
def Exe.mmaBad (x : Exe) (f : MmaForm) (vs : List Val) : Option Nat :=
  match (argOf vs 0).block, argOf vs 1 with
  | some b, .acc t sp =>
      let tile := x.tileOf t
      let bad := tile.isNone || (tile.map Tile.int) != some (fbInt b) || (sp.isSome && !f.spec) ||
        (f.kind == 2 && (unfoldOf b (argOf vs 2)).isNone) || (cohortValid x.g.cohort && !x.holdsAll)
      let ranges := fbRanges b true (numOf vs (if f.kind = 2 then 5 else 3)) 64 ++
        (if f.kind = 2 then [] else fbRanges b false (numOf vs 2) 32) ++
        (if f.kind = 1 then [(numOf vs 4, (fbK b + 15) / 16)] else [])
      let out := ranges.any fun r => (x.s.spadAt x.g.team r.1 r.2).isNone
      let umap := f.kind == 2 && ((unfoldOf b (argOf vs 2)).map fun d => x.s.tmInside x.g.team d) == some false
      let odd := numOf vs (if f.kind = 2 then 5 else 3) % 8 != 0 || fbPitch b true % 8 != 0 ||
        (f.kind != 2 && (numOf vs 2 % 8 != 0 || fbPitch b false % 8 != 0))
      if bad then some trapHandle else if out || umap then some 9 else if odd then some 0x0B else none
  | _, _ => some trapHandle

/-- What the members of a cohort must agree on (R360, step 2). -/
def LatchWait.key (w : LatchWait) (kindOf : Nat → Bool) : Nat × Nat × Val × Val × Bool × List Val × BitVec 7 × BitVec 32 :=
  let uf := w.sub % 4 == 2
  let tile := match argOf w.ops 1 with
    | .acc t _ => t
    | _ => 0
  (w.size, w.sub, argOf w.ops 0, argOf w.ops (if uf then 5 else 3), kindOf tile,
   if uf then [argOf w.ops 2, argOf w.ops 4] else [], w.mode.extractLsb' 0 7, modeStep w.mode)

/-- A member of an MMA that issues: who it is, its operand values, whether c is at its last use, and how many tiles it takes. -/
structure Joiner where
  group : Nat
  path : Nat
  ops : List Val
  inPlace : Bool
  deriving DecidableEq, Repr

/-- The instruction at the pc of a path. -/
def Exe.here (x : Exe) : Option Instr :=
  match (x.tr.fetch x.p.pc).1 with
  | .ok i => some i
  | .illegal _ | .undefinedMajor | .malformed => none

/-- A waiting member as one that issues. -/
def State.joiner (s : State) (w : LatchWait) : Joiner :=
  let reuse :=
    match s.exeOf w.group w.path, argOf w.ops 1 with
    | some y, .acc t sp =>
        match y.here with
        | some i => y.lastUse i (sp.getD t)
        | none => false
    | _, _ => false
  ⟨w.group, w.path, w.ops, reuse⟩

/-- Does a member need a fresh tile: a copy of c, or the speculative tile of an unshadowed one (R361, R371)? -/
def Joiner.takes (j : Joiner) (spec : Bool) : Bool :=
  match argOf j.ops 1 with
  | .acc _ sp => if spec && sp.isNone then true else !j.inPlace
  | _ => true

/-- The acc that a member defines, and the tiles that are left for the others. -/
def Joiner.result (j : Joiner) (spec : Bool) (ts : List Nat) : Val × List Nat :=
  match argOf j.ops 1 with
  | .acc t sp =>
      if spec then
        if j.takes spec then (.acc t (some (ts.headD 0)), ts.tail) else (.acc t sp, ts)
      else if j.inPlace then (.acc t none, ts)
      else (.acc (ts.headD 0) none, ts.tail)
  | v => (v, ts)

/-- The results of the members in order. -/
def joinResults (spec : Bool) : List Joiner → List Nat → List Val
  | [], _ => []
  | j :: js, ts =>
      let r := j.result spec ts
      r.1 :: joinResults spec js r.2

/-- Gives a waiting member of a joint MMA its results: it completes when it next issues. -/
def State.giveResults (s : State) (gid pid : Nat) (res : List Val) : State :=
  let g := s.group gid
  match mget g.ctx.paths pid with
  | none => s
  | some p => s.setGroup gid (g.setPath pid { p with stage := .issued res })

/-- The status with which a matrix operation is issued: MMA.UF whose tensor lies behind a window that is down has completed (R159). -/
def Exe.mmaStatus (x : Exe) (kind : Nat) (b : List Byte) (v : Val) : BitVec 8 :=
  if kind == 2 && (unfoldOf b v).any fun d => x.windowDown (tmSpad d) (tmAddr d 0) then futLinkKey else futPending

/-- The operation of an MMA form for its members and their results: it applies their slab steps, two units each. -/
def Exe.mmaOp (x : Exe) (i : Instr) (f : MmaForm) (scope : Nat) (js : List (Joiner × Val)) (vs : List Val) (b : List Byte) : EngOp :=
  let own := fun (j : Joiner) => [argOf j.ops (if f.kind = 2 then 3 else 2), argOf j.ops 4]
  { x.newOp i 2 vs (max scope 2) none (fbSlabs b * 2 * js.length) 0 with
    members := js.map fun q => (q.1.group, q.1.path, argOf q.1.ops 1 :: q.2 :: own q.1)
    spec := f.spec, status := x.mmaStatus f.kind b (argOf vs 2) }

/-- Issues one operation for the members, in position order; the executing path is one of them (R360). -/
def Exe.mmaIssue (x : Exe) (i : Instr) (f : MmaForm) (scope : Nat) (js : List Joiner) (vs : List Val) (drop : State → State) :
    State :=
  if x.issueWaits 2 then x.s
  else
    let b := (argOf vs 0).block.getD []
    x.withTiles i (js.filter fun j => j.takes f.spec).length (fbInt b) [] fun x ts =>
      let res := js.zip (joinResults f.spec js ts)
      x.issue (x.mmaOp i f scope res vs b) fun x fut _ =>
        let s := res.foldl (fun s q =>
          if q.1.group = x.gid then s else s.giveResults q.1.group q.1.path [.bits fut, q.2]) (drop x.s)
        let mine := (res.find? fun q => q.1.group == x.gid).map Prod.snd
        (x.upon s).commitAll i [.bits fut, mine.getD (.bits 0)] (x.onceFlags i)

/-- The step of an MMA form (R360). -/
def Exe.mma (x : Exe) (i : Instr) (f : MmaForm) (scope : Nat) : State :=
  match x.p.stage with
  | .issued res => x.commitAll i res (x.onceFlags i)
  | .failed => x.trap i trapHandle (x.active i.ctl) 0
  | _ =>
    x.onCore i fun x => x.once i fun vs =>
      let n := cohortLatch x.g.cohort
      let waits := x.team.latch n
      if waits.any fun w => w.group == x.gid then x.s
      else
        match x.mmaBad f vs with
        | some code => x.trap i code (x.active i.ctl) 0
        | none =>
            let sub := f.kind + if f.spec then 4 else 0
            let me : LatchWait := ⟨x.gid, x.pid, cohortPos x.g.cohort, cohortSize x.g.cohort, sub, vs, x.p.mode⟩
            if cohortValid x.g.cohort = false then x.mmaIssue i f scope [x.s.joiner me] vs id
            else
              let kindOf := fun t => ((x.tileOf t).map Tile.int).getD false
              let all := waits ++ [me]
              let full := decide (me.size ≤ all.length)
              let s := x.s.setTeam x.g.team { x.team with latches := mset x.team.latches n all }
              let fails := waits.any (fun w => w.size != me.size || w.pos == me.pos) || s.latchDead x.g.team n ||
                (full && waits.any fun w => w.key kindOf != me.key kindOf)
              if fails then s.failLatch x.g.team n
              else if full then
                let sorted := (List.range me.size).filterMap fun p => all.find? fun w => w.pos == p
                x.mmaIssue i f scope (sorted.map x.s.joiner) vs fun s =>
                  let t := s.team x.g.team
                  s.setTeam x.g.team { t with latches := mdel t.latches n }
              else s

/-- MMA (R363). -/
def execMma (c : Ctl) (scope : Scope) (ops : List Opnd) (s : State) : Host.Outcome State Fault Refusal :=
  onPath s fun x => x.mma (.mma c scope ops) ⟨0, false⟩ scope.code

/-- MMA_SP (R367). -/
def execMmaSp (c : Ctl) (scope : Scope) (ops : List Opnd) (s : State) : Host.Outcome State Fault Refusal :=
  onPath s fun x => x.mma (.mmaSp c scope ops) ⟨1, false⟩ scope.code

/-- MMA_UF (R370). -/
def execMmaUf (c : Ctl) (scope : Scope) (ops : List Opnd) (s : State) : Host.Outcome State Fault Refusal :=
  onPath s fun x => x.mma (.mmaUf c scope ops) ⟨2, false⟩ scope.code

/-- MMA_SPEC (R371). -/
def execMmaSpec (c : Ctl) (scope : Scope) (ops : List Opnd) (s : State) : Host.Outcome State Fault Refusal :=
  onPath s fun x => x.mma (.mmaSpec c scope ops) ⟨0, true⟩ scope.code

/-- MMA_SPEC_SP (R371). -/
def execMmaSpecSp (c : Ctl) (scope : Scope) (ops : List Opnd) (s : State) : Host.Outcome State Fault Refusal :=
  onPath s fun x => x.mma (.mmaSpecSp c scope ops) ⟨1, true⟩ scope.code

/-- MMA_SPEC_UF (R371). -/
def execMmaSpecUf (c : Ctl) (scope : Scope) (ops : List Opnd) (s : State) : Host.Outcome State Fault Refusal :=
  onPath s fun x => x.mma (.mmaSpecUf c scope ops) ⟨2, true⟩ scope.code

/-! The products of a slab. -/

/-- n bytes of scratchpad at an address of a team. -/
def State.spadBytes (s : State) (t a n : Nat) : List Byte :=
  match s.spadAt t a n with
  | some (u, o) => s.spadRead u o n
  | none => List.replicate n 0

/-- Element k of row (or column) i of an operand: its value, and NV for an element of a NaN block (R355, R239). -/
def State.fbElt (s : State) (t : Nat) (b : List Byte) (isB : Bool) (base i k : Nat) : Num × BitVec 6 :=
  let code := fbCode b isB
  let w := eltBits code
  let at_ := base + i * fbPitch b isB + k * w / 8
  let v := getElt w (k * w % 8) (s.spadBytes t at_ (eltBytes w (k * w % 8)))
  if isBlocked code then
    let sc := leNat (s.spadBytes t (fbScale b isB + i * fbSpitch b isB + k / blockLen code (fbBlk b isB)) 1)
    (eltValue code v sc, flagIf (sc == 255) flagNV)
  else (eltValue code v 127, 0)

/-- Is the block of row i and K element k marked in a member's bitmap (R366, R367)? -/
def State.marked (s : State) (t : Nat) (b : List Byte) (m i k : Nat) : Bool :=
  let q := i / 8 * (fbK b / 8) + k / 8
  ((s.spadBytes t (m + q / 8) 1).headD 0).getLsbD (q % 8)

/-! How long an MMA occupies its engine. The machine has no clock: these counts stand beside it (assumption log 33). -/

/-- Array cycles of a (slab, band, strip) step (R356). -/
def fbBase (b : List Byte) : Nat :=
  let a := fbCode b false
  let c := fbCode b true
  if a ≤ 1 ∨ c ≤ 1 then 2 else if isBfp a ∧ isBfp c then ((a - 15) * (c - 15) + 15) / 16 else 1

/-- The blocks of a (slab, band) step that a member's bitmap leaves unmarked; in the other forms all of them (R367). -/
def State.unmarked (s : State) (o : EngOp) (b : List Byte) (slab band : Nat) : Nat :=
  let m := o.members.getD (band / 2) (0, 0, [])
  ((List.range 2).flatMap fun r => (List.range (fbKs b / 8)).filter fun k =>
    !(o.sub % 4 == 1 && s.marked o.team b (memberVal m 3).num (16 * (band % 2) + 8 * r) (slab * fbKs b + 8 * k))).length

/-- Array cycles of a (slab, band) step with u of its nb blocks unmarked (R364, R367). -/
def stepCycles (base u nb : Nat) : Nat := (8 * base * u + nb - 1) / nb

/-- Core cycles for which an MMA occupies its engine (R364). -/
def State.mmaCycles (s : State) (o : EngOp) : Nat :=
  let b := (argOf o.vals 0).block.getD []
  let bands := 2 * o.members.length
  16 + ((List.range (fbSlabs b * bands)).map fun i =>
    stepCycles (fbBase b) (s.unmarked o b (i / bands) (i % bands)) (2 * fbKs b / 8)).sum

/-! Unfolding (R369, R370). -/

/-- An unfolding map's geometry fields, as they count, and its output shape. -/
structure Geo where
  px : Nat
  py : Nat
  dx : Nat
  dy : Nat
  sx : Nat
  sy : Nat
  fw : Nat
  fh : Nat
  ow : Nat
  oh : Nat
  deriving DecidableEq, Repr

/-- The fields of a geometry word and an output shape. -/
def geoOf (g : BitVec 64) (o : BitVec 32) : Geo :=
  let v := g.toNat
  ⟨bitsOf v 39 32, bitsOf v 31 24, bitsOf v 23 20 + 1, bitsOf v 19 16 + 1, bitsOf v 15 12 + 1, bitsOf v 11 8 + 1,
   bitsOf v 7 4 + 1, bitsOf v 3 0 + 1, bitsOf o.toNat 15 0, bitsOf o.toNat 31 16⟩

/-- The spot of U(pix, k) in the source map; `none` reads 0 as padding. -/
def unfoldSpot (d : Desc) (g : Geo) (pix k : Nat) : Option Spot :=
  let c := tmSize d 0
  let tt := k / c
  let fx := tt % g.fw
  let fy := tt / g.fw
  if g.fh ≤ fy ∨ g.oh * g.ow ≤ pix then none
  else
    let iy : Int := (pix / g.ow * g.sy + fy * g.dy : Nat) - (g.py : Int)
    let ix : Int := (pix % g.ow * g.sx + fx * g.dx : Nat) - (g.px : Int)
    some (tmSpot d [((k % c : Nat) : Int), ix, iy])

/-- The geometry of an unfolding value. -/
def Val.geo : Val → Geo
  | .tmap _ (some (g, o)) => geoOf g o
  | .tmap _ none | .bits _ | .fmtb _ | .acc .. => geoOf 0 0

/-- UNFOLD (R369). -/
def execUnfold (c : Ctl) (ops : List Opnd) (s : State) : Host.Outcome State Fault Refusal :=
  onPath s fun x =>
    let i := Instr.unfold c ops
    x.once i fun vs =>
      let g := (argOf vs 1).toBits
      let o : BitVec 32 := (argOf vs 2).toBits.setWidth 32
      let ok := fun (d : Desc) => tmNdim d == 3 && decide (tmFmt d ≤ 10) && decide (tmFill d ≤ 1) && bitsOf g.toNat 63 40 == 0 &&
        bitsOf o.toNat 15 0 != 0 && bitsOf o.toNat 31 16 != 0
      match (argOf vs 0).desc false with
      | none => x.trap i trapHandle (x.active c) 0
      | some d =>
          if ok d then x.commitAll i [.tmap d (some (g, o))] (x.onceFlags i) else x.trap i trapHandle (x.active c) 0

/-! The step of an MMA. -/

/-- An element that an operation walks is clipped (R144). -/
def State.markClipped (s : State) (k : Nat) : State := { s with ops := mupd s.ops k fun o => { o with clipped := true } }

/-- Row i of a member's A over a slab: elements with NV flags; through the unfolding unit in the unfolding forms. -/
def State.rowA (s : State) (q : Nat) (o : EngOp) (b : List Byte) (sub a i : Nat) : List Nat → Except EngStop (State × List (Num × BitVec 6))
  | [] => .ok (s, [])
  | k :: ks => do
      let (s, v) ←
        if sub = 2 then
          match argOf o.vals 2 with
          | .tmap d _ =>
              match unfoldSpot d (argOf o.vals 2).geo (a + i) (numOf o.vals 4 + k) with
              | none => .ok (s, Num.zero false, 0)
              | some sp =>
                  let s := if sp = .clipped then s.markClipped q else s
                  (s.readElt (s.whoOf q o) d sp).map fun r => (r.1, eltValue (tmFmt d) ((r.2.map Elt.bits).getD 0) 127, 0)
          | _ => .ok (s, Num.zero false, 0)
        else Except.ok (s, s.fbElt o.team b false a i k)
      let (s, rest) ← s.rowA q o b sub a i ks
      return (s, v :: rest)

/-- The exact slab sum and its flags (R238, R239), from pairs of elements; `none` is a product of a marked block, +0. -/
def slabSum (rm : Nat) (ps : List (Option ((Num × BitVec 6) × (Num × BitVec 6)))) : Num × BitVec 6 :=
  let prods := ps.map fun p =>
    match p with
    | none => (Num.zero false, (0 : BitVec 6))
    | some (u, v) =>
        let r := Num.mul u.1 v.1
        (r.1, r.2 ||| u.2 ||| v.2)
  let t := sumTerms rm (prods.map Prod.fst)
  (t.1, prods.foldl (fun f p => f ||| p.2) t.2)

/-- The new accumulator element (R238). -/
def accumulate (int : Bool) (mode : BitVec 64) (z : Nat) (old : BitVec 32) (s : Num) : BitVec 32 × BitVec 6 :=
  if int then
    let v := signedOf 32 old.toNat + s.signed.1 * 2 ^ s.signed.2.toNat
    if modeSat mode then
      let c := clampTo (-(2 ^ 31)) (2 ^ 31 - 1) v
      (BitVec.ofInt 32 c.1, c.2)
    else (BitVec.ofInt 32 v, 0)
  else
    let r := Num.add (modeRM mode) (fmtF32.value false old.toNat) s
    let v := fmtF32.convert (roundingOf mode z) r.1
    (BitVec.ofNat 32 v.1, r.2 ||| v.2)

/-- An element of a tile. -/
def Tile.at (t : Tile) (e : Nat) : BitVec 32 := (mget t.els e).getD 0

/-- Before its first step, an MMA copies each c into the tile that it writes (R361, R371). -/
def State.mmaCopy (s : State) (o : EngOp) : State :=
  let core := (s.team o.team).core
  o.members.foldl (fun s m =>
    let c := (memberVal m 0).tile
    let d := (memberVal m 1).tile
    if c = d then s
    else
      match s.tile core c, s.tile core d with
      | some src, some dst => { s with tiles := mset s.tiles (tileKey core d) { dst with els := src.els } }
      | _, _ => s) s

/-- Rows of a 16-row band, one after another: each element accumulates its slab sum (R363). -/
def State.bandRows (s : State) (q : Nat) (o : EngOp) (b : List Byte) (p slab : Nat) (cols : List (List (Num × BitVec 6))) :
    List Nat → Tile → BitVec 6 → Except EngStop (State × Tile × BitVec 6)
  | [], t, f => .ok (s, t, f)
  | i :: is, t, f => do
      let m := o.members.getD p (0, 0, [])
      let ks := (List.range (fbKs b)).map (slab * fbKs b + ·)
      let (s, row) ← s.rowA q o b (o.sub % 4) (memberVal m 2).num i ks
      let marks := ks.map fun k => o.sub % 4 == 1 && s.marked o.team b (memberVal m 3).num i k
      let seed := (s.launch (s.team o.team).launch).seed
      let step : BitVec 64 := (modeStep o.mode).setWidth 64 * 8 + BitVec.ofNat 64 slab
      let r := (List.range 64).foldl (fun (acc : List (Nat × BitVec 32) × BitVec 6) j =>
        let pairs := (marks.zip (row.zip (cols.getD j []))).map fun q => if q.1 then none else some q.2
        let sum := slabSum (modeRM o.mode) pairs
        let z := (generator seed (BitVec.ofNat 64 (32 * p + i)) (BitVec.ofNat 64 j) step).toNat
        let v := accumulate t.int o.mode z (t.at (64 * i + j)) sum.1
        (mset acc.1 (64 * i + j) v.1, acc.2 ||| sum.2 ||| v.2)) (t.els, f)
      s.bandRows q o b p slab cols is { t with els := r.1 } r.2

/-- A step of an MMA: one slab and one 16-row band (R363). -/
def State.mmaStep (s : State) (k : Nat) (o : EngOp) (i : Nat) : StepOut := do
  let b := (argOf o.vals 0).block.getD []
  let bands := 2 * o.members.length
  let slab := i / bands
  let band := i % bands
  let p := band / 2
  let s := if o.landed = [] then s.mmaCopy o else s
  let core := (s.team o.team).core
  let d := (memberVal (o.members.getD p (0, 0, [])) 1).tile
  let base := numOf o.vals (if o.sub % 4 = 2 then 5 else 3)
  let cols := (List.range 64).map fun j =>
    (List.range (fbKs b)).map fun k => s.fbElt o.team b true base j (slab * fbKs b + k)
  match s.tile core d with
  | none => .ok (s, 0, 0)
  | some t =>
      let (s, t, f) ← s.bandRows k o b p slab cols ((List.range 16).map (16 * (band % 2) + ·)) t 0
      return ({ s with tiles := mset s.tiles (tileKey core d) t }, 0, f)

/-! SPBM (R368). -/

/-- SPBM (R368). -/
def execSpbm (c : Ctl) (scope : Scope) (ops : List Opnd) (s : State) : Host.Outcome State Fault Refusal :=
  onPath s fun x =>
    let i := Instr.spbm c scope ops
    x.engine i none fun vs =>
      let rows := numOf vs 3
      match (argOf vs 2).block with
      | none => x.trap i trapHandle (x.active c) 0
      | some b =>
          let bytes := (rows / 8 * (fbK b / 8) + 7) / 8
          if rows % 8 ≠ 0 ∨ rows < 8 ∨ 192 < rows then x.trap i trapHandle (x.active c) 0
          else if ((numOf vs 0, bytes) :: fbRanges b false (numOf vs 1) rows).any
              fun r => (x.s.spadAt x.g.team r.1 r.2).isNone then x.trap i 9 (x.active c) 0
          else if numOf vs 1 % 8 ≠ 0 ∨ fbPitch b false % 8 ≠ 0 then x.trap i 0x0B (x.active c) 0
          else x.launchOp i (x.newOp i 2 vs (max scope.code 2) none (granules (numOf vs 0) bytes) 0)

/-- Step g of SPBM: the bytes of one granule of the bitmap. -/
def State.spbmStep (s : State) (k : Nat) (o : EngOp) (g : Nat) : StepOut :=
  let b := (argOf o.vals 2).block.getD []
  let d := numOf o.vals 0
  let rows := numOf o.vals 3
  let kb := fbK b / 8
  let n := (rows / 8 * kb + 7) / 8
  let lo := max d ((d / 64 + g) * 64)
  let hi := min (d + n) ((d / 64 + g + 1) * 64)
  let zero := fun (q : Nat) =>
    decide (q < rows / 8 * kb) && (List.range 64).all fun e =>
      (s.fbElt o.team b false (numOf o.vals 1) (q / kb * 8 + e / 8) (q % kb * 8 + e % 8)).1.isZero
  let bytes := (List.range (hi - lo)).map fun j =>
    BitVec.ofNat 8 (ofElems 1 ((List.range 8).map fun t => if zero ((lo - d + j) * 8 + t) then 1 else 0))
  (s.engWrite (s.whoOf k o) true (BitVec.ofNat 64 lo) bytes).map fun s => (s, 0, 0)

/-! Loading and storing tiles (R372, R373). -/

/-- Can a map's window fill or be filled from a tile? -/
def accMapOk (d : Desc) : Bool := tmNdim d == 2 && decide (tmBox d 0 ≤ 64) && decide (tmBox d 1 ≤ 32) && tmFmt d != 24

/-- The walk of a tile's window: the map from its origins. -/
def accWalk (d : Desc) (o0 o1 : Val) : Walk2 := ⟨d, originsOf [o0, o1], d, originsOf [o0, o1]⟩

/-- ACC_LOAD (R372). -/
def execAccLoad (c : Ctl) (int : Bool) (scope : Scope) (ops : List Opnd) (s : State) : Host.Outcome State Fault Refusal :=
  onPath s fun x =>
    let i := Instr.accLoad c int scope ops
    x.onCore i fun x => x.engine i none fun vs =>
      match (argOf vs 0).desc false with
      | none => x.trap i trapHandle (x.active c) 0
      | some d =>
          if accMapOk d = false ∨ (int ∧ tmFmt d ≠ 9 ∧ tmFmt d ≠ 10) then x.trap i trapHandle (x.active c) 0
          else if x.s.tmInside x.g.team d = false then x.trap i 9 (x.active c) 0
          else if x.issueWaits 2 then x.s
          else
            let els := (List.range 2048).map fun e => (e, (Config.freeBits (.ofOp x.s.next e) 0).setWidth 32)
            x.withTiles i 1 int els fun x ts =>
              let o := x.newOp i 2 vs (max (max scope.code 2) (x.minScope (tmSpad d) (tmPages d (originsOf [argOf vs 1, argOf vs 2])))) none 32 0
              let w := accWalk d (argOf vs 1) (argOf vs 2)
              let st := if x.windowDown (tmSpad d) (tmAddr d 0) then futLinkKey else futPending
              let o : EngOp := { o with
                status := st, clipped := w.clips, whole := w.whole, members := [(x.gid, x.pid, [.bits 0, .acc (ts.headD 0) none])] }
              x.issue o fun x fut _ => x.commitAll i [.bits fut, .acc (ts.headD 0) none] (x.onceFlags i)

/-- The random word for an element of ACC.LOAD: no rule gives its coordinates, so it is free, the same in every run (assumption
log 37). -/
def State.loadRounding (s : State) (o : EngOp) (e : Nat) : Rounding :=
  let seed := (s.launch (s.team o.team).launch).seed
  roundingOf o.mode (Config.freeNat (.result o.id e) (seed.toNat * 2 ^ 32 + (modeStep o.mode).toNat))

/-- The elements of a tile row, read from the window. -/
def State.loadRow (s : State) (k : Nat) (o : EngOp) (w : Walk2) (int : Bool) (i : Nat) :
    List Nat → Except EngStop (State × List (BitVec 32 × BitVec 6))
  | [] => .ok (s, [])
  | j :: js => do
      let d := w.d
      let (s, e) ← if i < tmBox d 1 ∧ j < tmBox d 0 then s.sourceElt (s.whoOf k o) w (i * tmBox d 0 + j)
        else s.readElt (s.whoOf k o) d .out
      let e := e.getD ⟨0, 127⟩
      let v := eltInput o.mode (tmFmt d) e.bits e.scale
      let r : BitVec 32 × BitVec 6 :=
        if int then (BitVec.ofInt 32 (signedOf (eltBits (tmFmt d)) e.bits), 0)
        else
          let q := fmtF32.convert (s.loadRounding o (64 * i + j)) v
          (BitVec.ofNat 32 q.1, q.2)
      let (s, rest) ← s.loadRow k o w int i js
      return (s, r :: rest)

/-- Step i of ACC_LOAD: row i of the tile. -/
def State.accLoadStep (s : State) (k : Nat) (o : EngOp) (i : Nat) : StepOut :=
  let core := (s.team o.team).core
  let n := (memberVal (o.members.headD (0, 0, [])) 1).tile
  match (argOf o.vals 0).desc false, s.tile core n with
  | some d, some t => do
      let (s, row) ← s.loadRow k o (accWalk d (argOf o.vals 1) (argOf o.vals 2)) t.int i (List.range 64)
      let els := (row.mapIdx fun j v => (64 * i + j, v.1)).foldl (fun m e => mset m e.1 e.2) t.els
      return ({ s with tiles := mset s.tiles (tileKey core n) { t with els := els } }, 0,
              row.foldl (fun f v => f ||| v.2) 0)
  | _, _ => .ok (s, 0, 0)

/-- ACC_STORE (R373). -/
def execAccStore (c : Ctl) (scope : Scope) (ops : List Opnd) (s : State) : Host.Outcome State Fault Refusal :=
  onPath s fun x =>
    let i := Instr.accStore c scope ops
    x.onCore i fun x => x.engine i none fun vs =>
      match (argOf vs 0).desc false, argOf vs 1 with
      | some d, .acc t none =>
          let len := blockLen (tmFmt d) (tmBlk d)
          let odd := isBlocked (tmFmt d) && (signedOf 32 (numOf vs 2) % len != 0 || tmBox d 0 % len != 0)
          if accMapOk d = false ∨ odd ∨ (x.tileOf t).isNone then x.trap i trapHandle (x.active c) 0
          else if x.s.tmInside x.g.team d = false then x.trap i 9 (x.active c) 0
          else
            let w := accWalk d (argOf vs 2) (argOf vs 3)
            let eff := max (max scope.code 2) (x.minScope (tmSpad d) (tmPages d (originsOf [argOf vs 2, argOf vs 3])))
            let o := x.newOp i 2 vs eff none w.units.length 0
            let st := if x.windowDown (tmSpad d) (tmAddr d 0) then futLinkKey else futPending
            x.launchOp i { o with status := st, clipped := w.clips, members := [(x.gid, x.pid, [.acc t none])] }
      | _, _ => x.trap i trapHandle (x.active c) 0

/-- Coordinate k of window element j in the destination. -/
def EngOp.storeCoord (o : EngOp) (d : Desc) (j k : Nat) : Int :=
  signedOf 32 (numOf o.vals (2 + k)) + (tmIndex d j k * tmStep d k : Nat)

/-- The rounding of an element of the destination by its row and column (R234, R373). -/
def State.storeRounding (s : State) (o : EngOp) (row col : Int) : Rounding :=
  let seed := (s.launch (s.team o.team).launch).seed
  roundingOf o.mode
    (generator seed (BitVec.ofInt 64 row) (BitVec.ofInt 64 col) ((modeStep o.mode).setWidth 64 * 8)).toNat

/-- The value that a tile element stores: v × 2^sc, and its rounding. -/
def State.storedValue (s : State) (o : EngOp) (d : Desc) (t : Tile) (j : Nat) : Num × Rounding :=
  let e := t.at (j / tmBox d 0 * 64 + j % tmBox d 0)
  let v := if t.int then Num.ofInt 32 true e.toNat else fmtF32.value false e.toNat
  (v.scale (signedOf 32 (numOf o.vals 4)), s.storeRounding o (o.storeCoord d j 1) (o.storeCoord d j 0))

/-- The elements of a granule of an unblocked destination: bit addresses, bits, and the flags. -/
def State.storeElts (s : State) (o : EngOp) (w : Walk2) (t : Tile) (js : List Nat) : List (Nat × Nat) × BitVec 6 :=
  let cs := js.map fun j =>
    let v := s.storedValue o w.d t j
    (bitAddr w.d (w.off j), eltConvert (tmFmt w.d) v.2 v.1)
  (cs.map fun c => (c.1, c.2.1), cs.foldl (fun f c => f ||| c.2.2) 0)

/-- Step i of ACC_STORE: one unit of the destination. A stored element that is encoded again lies in the row of the unit's elements,
as many columns from them as places in the block (R231, R234). -/
def State.accStoreStep (s : State) (k : Nat) (o : EngOp) (i : Nat) : StepOut :=
  let core := (s.team o.team).core
  let n := (memberVal (o.members.headD (0, 0, [])) 0).tile
  match (argOf o.vals 0).desc false, s.tile core n with
  | some d, some t =>
      let w := accWalk d (argOf o.vals 2) (argOf o.vals 3)
      let u := w.units.getD i 0
      let js := w.inUnit u
      if isBlocked (tmFmt d) then
        let j := js.headD 0
        let kept := fun (e : Nat) =>
          s.storeRounding o (o.storeCoord d j 1) (o.storeCoord d j 0 + e - (placeIn d u (w.off j) : Nat))
        (s.encodeUnit k o d u (js.map fun j => (placeIn d u (w.off j), s.storedValue o d t j)) kept).map fun r =>
          (r.1, 0, r.2)
      else
        let es := s.storeElts o w t js
        (s.putGranule (s.whoOf k o) d u es.1).map fun s => (s, 0, es.2)
  | _, _ => .ok (s, 0, 0)

/-! SPEC (R371). -/

/-- The speculative operations on a tile. -/
def State.specOps (s : State) (team n : Nat) : List Nat :=
  (s.ops.filter fun o => o.2.team == team && o.2.spec && o.2.writes.contains n).map Prod.fst

/-- The flags of an operation reach the lanes that have observed it. -/
def State.releaseFlags (s : State) (k : Nat) : State :=
  match mget s.ops k with
  | none => s
  | some o =>
      let s : State := { s with ops := mset s.ops k { o with spec := false, watch := [] } }
      o.watch.foldl (fun s w =>
        { s with groups := mupd s.groups w.1 fun g =>
            g.mapPaths fun p => if p.mask &&& w.2 = 0 then p else { p with mode := modeRaise p.mode o.flags } }) s

/-- Drops a speculative operation: its flags reach no path, and if it has not completed it is cancelled. -/
def State.dropSpec (s : State) (k : Nat) : State :=
  match mget s.ops k with
  | none => s
  | some o => ({ s with ops := mset s.ops k { o with flags := 0, watch := [] } } : State).cancelOp k

/-- The step of SPEC.COMMIT or SPEC.DISCARD: the kept tile is copied when another value still holds it. -/
def Exe.specKeep (x : Exe) (i : Instr) (commit : Bool) : State :=
  x.onCore i fun x => x.once i fun vs =>
    match argOf vs 0 with
    | .acc t (some sp) =>
        let kept := if commit then sp else t
        let last := fun (y : Exe) => (y.s.specOps y.g.team sp).foldl (fun s k => if commit then s.releaseFlags k else s.dropSpec k) y.s
        match x.tileOf t, x.tileOf kept with
        | some _, some tile =>
            let done : Exe → Val → State := fun y v =>
              let s := last y
              let y : Exe := (s.exeOf x.gid x.pid).getD (y.upon s)
              (y.upon s).commitAll i [v] (x.onceFlags i)
            if x.lastUse i kept then done x (.acc kept none)
            else
              x.withTiles i 1 tile.int tile.els fun y ts =>
                let d := ts.headD 0
                let key := tileKey x.team.core kept
                let writer := (y.s.ops.filter fun o =>
                  o.2.team == y.g.team && o.2.cls == 2 && o.2.status == futPending && o.2.writes.contains kept).getLast?
                let s : State := match writer with
                  | none => y.s
                  | some w => { y.s with tiles := mupd y.s.tiles (tileKey x.team.core d) fun t => { t with copy := some (key, w.1) } }
                done (y.upon s) (.acc d none)
        | _, _ => x.trap i trapHandle (x.active i.ctl) 0
    | _ => x.trap i trapHandle (x.active i.ctl) 0

/-- SPEC_COMMIT (R371). -/
def execSpecCommit (c : Ctl) (ops : List Opnd) (s : State) : Host.Outcome State Fault Refusal :=
  onPath s fun x => x.specKeep (.specCommit c ops) true

/-- SPEC_DISCARD (R371). -/
def execSpecDiscard (c : Ctl) (ops : List Opnd) (s : State) : Host.Outcome State Fault Refusal :=
  onPath s fun x => x.specKeep (.specDiscard c ops) false

/-! Progress. -/

/-- Step i of an operation of the matrix engine: an MMA's in order (R364), a load's, a store's and SPBM's in any. Of these, only
an MMA stops between steps (R374). -/
def State.matrixStep (s : State) (k : Nat) (o : EngOp) (i : Nat) : State :=
  if s.mayRun k o = false then s
  else
    match o.maj, o.sub with
    | 0x62, _ => if i = o.landed.length then s.stepOp k i o (s.mmaStep k o i) else s
    | maj, sub =>
        let s : State := { s with ops := mset s.ops k { o with cancel := false } }
        let s := s.stepOp k i o (if maj = 0x66 then s.spbmStep k o i else if sub = 4 then s.accStoreStep k o i else s.accLoadStep k o i)
        { s with ops := mupd s.ops k fun q => { q with cancel := o.cancel } }

/-- A request to stop an operation of the matrix engine: at a step boundary an MMA stops, and any other only before it begins
(R374). -/
def State.matrixCancel (s : State) (k : Nat) (o : EngOp) : State :=
  if o.maj = 0x62 then
    let s := if o.landed = [] then s.mmaCopy o else s
    s.finishOp k futCancelled
  else if o.landed = [] ∨ (List.range o.total).all o.did then s.finishOp k futCancelled
  else s

end Sys2Proof.Machine
end

