-- ==== Sys2Proof/Machine/Frame.lean ====
section
/-! DEFINITION. The sealed frame (R412 to R415, R427): what a pre-empted team leaves in memory. -/

namespace Sys2Proof.Machine

/-! Which values are saved (R217): those that an instruction still reads. -/

/-- Does a node read an id other than as a PHI? -/
def Node.uses (n : Node) (id : Nat) : Bool := !n.isPhi && n.reads.contains id

/-- Does a PHI read an id on an edge out of a node? -/
def edgeUses (ns : List Node) (m : Node) (id : Nat) : Bool :=
  m.edges.any fun e =>
    match (edgesInto ns e.2).findIdx? fun q => q == (m.off, e.1) with
    | none => false
    | some k => ns.any fun n =>
        n.isPhi && phiHead ns (ns.length + 1) n.off == some e.2 &&
          (n.phi.2[k]?).any fun o => (idsOf [o]).contains id

/-- The PHIs that have yet to read on the edge by which a lane at an address came to it: those at the address, or behind the JOIN
at it (R287). -/
def Trans.phisAt (t : Trans) (pc : BitVec 48) : List Node :=
  let ns := t.nodes
  match ns.find? fun n => n.off == t.offset pc with
  | none => []
  | some n =>
      if n.isPhi then phiRun ns n.off
      else if n.isJoin && !startsBlock ns (n.off + n.size) then phiRun ns (n.off + n.size)
      else []

/-- Does an instruction end its block only in a trap, behind which TRET.SKIP goes on (R377)? -/
def Node.onlyTraps (n : Node) : Bool :=
  match n.instr with
  | some (.trap ..) | some (.unreach ..) => true
  | _ => false

/-- Does an instruction end its block, and raise a trap on some operands? -/
def Node.maybeTraps (n : Node) : Bool :=
  match n.instr with
  | some (.ret ..) | some (.yield ..) => true
  | _ => false

/-- Is a value still read by what may be executed from an address on? A PHI at the address has yet to read; behind a trap the lanes
may go on, and behind an instruction at the address too, at which they may stand because it has trapped (R377). -/
def Trans.liveAt (t : Trans) (pc : BitVec 48) (id : Nat) : Bool :=
  let ns := t.nodes
  let defd := (ns.find? fun n => n.defs.contains id).map Node.off
  let at_ := fun (o : Nat) => ns.find? fun n => n.off == o
  let behind := (ns.filter fun n => n.onlyTraps || n.maybeTraps && n.off == t.offset pc)
  let more := fun (seen : List Nat) => (behind.filter fun n => seen.contains n.off).map fun n => n.off + n.size
  let stop := fun (o : Nat) => some o == defd
  let seen := (behind.foldl (fun seen _ => reach ns stop (t.offset pc :: more seen)) (reach ns stop [t.offset pc]))
  (seen.any fun o => (at_ o).any fun n => n.uses id || edgeUses ns n id) ||
    (t.phisAt pc).any fun n => n.reads.contains id

/-! Where lanes stand. -/

/-- Where the lanes of a context stand: on a path, in an entry, or at a landing's JOIN. -/
def Ctx.spots (c : Ctx) : List (LaneMask × BitVec 48) :=
  (c.paths.map fun p => (p.2.mask, p.2.pc)) ++ (c.stack.map fun e => (e.lanes, e.pc)) ++
    c.recs.map fun r => (r.arrived, r.join)

/-- Where a lane of a context stands, if it is in the context. -/
def Ctx.spotOf (c : Ctx) (l : Nat) : Option (BitVec 48) :=
  (c.spots.find? fun q => q.1.getLsbD l).map Prod.snd

/-- How many frames of a lane are its handler's: those down to the trap entry's (R406). -/
def handlerFrames (trap : Option Nat) (x : Lane) : Nat :=
  match x.frames.findIdx? fun f => some f.fn == trap with
  | some k => k + 1
  | none => 0

/-- A group's contexts: CTX 0 runs or is frozen, CTX 1 is the handler's (R414). -/
def Group.ctxs (g : Group) : List (Nat × Ctx) :=
  match g.handler with
  | none => [(0, g.ctx)]
  | some h => [(0, h.frozen), (1, g.ctx)]

/-- The frames of a lane in a context, innermost first. -/
def Group.framesIn (g : Group) (trap : Option Nat) (ctx l : Nat) : List Frame :=
  let fs := (g.lane l).frames
  match g.handler with
  | none => if ctx = 0 then fs else []
  | some _ =>
      let k := handlerFrames trap (g.lane l)
      if ctx = 0 then fs.drop k else fs.take k

/-- A frame of a lane at its call depth, with the address where the lane goes on in it. -/
structure At where
  ctx : Nat
  depth : Nat
  lane : Nat
  frame : Frame
  pc : BitVec 48
  deriving DecidableEq, Repr

/-- Frames with their depths and addresses: the innermost goes on at the lane's spot, any other behind its call. -/
def atsFrom (ctx l : Nat) : BitVec 48 → List Frame → List At
  | _, [] => []
  | pc, f :: fs => ⟨ctx, fs.length, l, f, pc⟩ :: atsFrom ctx l f.ret fs

/-- Every frame of a group's lanes that are in a context, lane by lane. -/
def Group.ats (g : Group) (trap : Option Nat) : List At :=
  (g.ctxs.map fun c => ((List.range g.width).map fun l =>
    match c.2.spotOf l with
    | none => []
    | some pc => atsFrom c.1 l pc (g.framesIn trap c.1 l)).flatten).flatten

/-! Values. -/

/-- Bytes of a saved value of a type: rounded up to 4 (R414). -/
def savedSize (t : Ty) : Nat :=
  match t with
  | .tmap => 128
  | .fmtb => 32
  | .i64 | .f64 | .fut => 8
  | .b1 | .i8 | .i16 | .i32 | .f16 | .bf16 | .f32 | .p8x4 | .p16x2 | .acc => 4

/-- The bytes of a saved value of n bytes, where it has no form of its own. -/
def Val.saved (n : Nat) : Val → List Byte
  | .bits v => leBytes n v.toNat
  | .tmap d none => d
  | .tmap d (some (geo, shape)) => d.take 0x70 ++ bvBytes 8 geo ++ leBytes 8 (2 ^ 63 + shape.toNat)
  | .fmtb b => b
  | .acc t _ => leBytes 4 t

/-- The value of a type that saved bytes stand for; `tile` gives an acc value by the saved index. -/
def savedVal (tile : Nat → Val) (t : Ty) (bs : List Byte) : Val :=
  match t with
  | .tmap =>
      if (fieldAt bs 0x78 8).testBit 63 then
        .tmap (bs.take 0x70 ++ List.replicate 16 0)
          (some (BitVec.ofNat 64 (fieldAt bs 0x70 8), BitVec.ofNat 32 (fieldAt bs 0x78 4)))
      else .tmap bs none
  | .fmtb => .fmtb bs
  | .acc => tile (leNat bs)
  | _ => .bits (BitVec.ofNat 64 (leNat bs % 2 ^ bitsOfTy t))
where
  /-- Bits of a type of codes 0 to 11. -/
  bitsOfTy (t : Ty) : Nat := if t = .b1 then 1 else 8 * bytesOf t

/-! Records. -/

/-- What a record of the group section stands for. -/
inductive Ref where
  | group
  /-- A path of a context, by number. -/
  | path (ctx n : Nat)
  /-- An entry of a context's landing stack, by place. -/
  | entry (ctx k : Nat)
  /-- Lanes of a context that wait at a landing. -/
  | landing (ctx uid : Nat)
  /-- A call: the frames of these lanes at a depth. -/
  | call (ctx depth : Nat) (lanes : LaneMask)
  /-- A value: id and type of these lanes' frames at a depth. -/
  | value (ctx depth id : Nat) (t : Ty) (lanes : LaneMask)
  deriving DecidableEq, Repr

/-- A record: its kind, what it stands for, and the fields behind its head. -/
structure Rec where
  kind : Nat
  ref : Ref
  body : List Byte
  deriving DecidableEq, Repr

/-- A record's head: KIND and its length in bytes. -/
def recHead (kind n : Nat) : List Byte := leBytes 1 kind ++ leBytes 3 n
/-- A record's bytes. -/
def recBytes (kind : Nat) (body : List Byte) : List Byte := recHead kind (4 + body.length) ++ body
/-- A record of the group section as bytes. -/
def Rec.bytes (r : Rec) : List Byte := recBytes r.kind r.body

/-- The fields of a path record. -/
structure PathRec where
  ctx : Nat
  kind : Nat
  owner : Nat
  depth : Nat
  landing : Nat
  slot : Nat
  pc : BitVec 48
  lanes : LaneMask
  pending : LaneMask
  mode : BitVec 64
  todo : LaneMask
  deriving DecidableEq, Repr

/-- A path record as bytes. -/
def PathRec.body (r : PathRec) : List Byte :=
  leBytes 1 r.ctx ++ leBytes 1 r.kind ++ leBytes 1 r.owner ++ leBytes 1 r.depth ++ leBytes 4 r.landing ++ leBytes 4 r.slot ++
    bvBytes 8 r.pc ++ bvBytes 8 r.lanes ++ bvBytes 8 r.pending ++ bvBytes 8 r.mode ++ bvBytes 8 r.todo

/-- What the records of a group need beside it: the trap entry, the flights at which the group has arrived, the future slot at
which a path is parked, and the lanes of a path whose access is still to be performed. -/
structure SaveInfo where
  trap : Option Nat
  flights : Nat
  slotOf : Nat → Nat → Nat
  todo : Nat → Nat → Path → LaneMask

/-- The landing id field of a path or an entry: bit 31 where it has none; 0 for a group's only core path. -/
def Ctx.landingField (c : Ctx) (only : Bool) (pend : List Nat) : Nat :=
  if only then 0
  else
    match pend.head?.bind c.rcd with
    | some r => r.id % 2 ^ 28
    | none => 2 ^ 31

/-- The items of a context that path records stand for, in order: core paths, lanes that wait at a landing, landing-stack
entries, ejected paths. -/
def Ctx.items (ctx : Nat) (c : Ctx) : List Ref :=
  let at_ := fun (core : Bool) => (c.paths.filter fun p => (p.2.place == .core) == core).map fun p => Ref.path ctx p.1
  at_ true ++ ((c.recs.filter fun r => r.arrived != 0).map fun r => Ref.landing ctx r.uid) ++
    ((List.range c.stack.length).map fun k => Ref.entry ctx k) ++ at_ false

/-- The call depth of lanes of a context. -/
def Group.depthIn (g : Group) (trap : Option Nat) (ctx : Nat) (lanes : LaneMask) : Nat :=
  (g.framesIn trap ctx ((lanesOf lanes).headD 0)).length - 1

/-- The path record of an item, among all items of the group. -/
def Group.pathRec (g : Group) (q : SaveInfo) (all : List Ref) (ctx : Nat) (c : Ctx) : Ref → PathRec
  | .path _ n =>
      let p := (mget c.paths n).getD (Path.start 0 0 0 [] none .core)
      let only := p.place == .core && c.corePaths == 1
      let kind := if p.yield.isSome then 3 else if p.place = .core then 0 else 2
      ⟨ctx, kind, 0xFF, g.depthIn q.trap ctx p.mask, c.landingField only p.pend, if kind = 3 then q.slotOf ctx n else 0, p.pc,
       p.mask, 0, p.mode, q.todo ctx n p⟩
  | .landing _ u =>
      let r := (c.rcd u).getD ⟨0, 0, 0, 0, 0, 0, 0, [], false, [], .core, [], false⟩
      let owner := all.findIdx? fun i => i == .path ctx r.owner
      let mode := modeMerge r.modes
      match owner with
      | none => ⟨ctx, 0, 0xFF, r.depth, r.id, 0, r.join, r.arrived, 0, mode, 0⟩
      | some k => ⟨ctx, 1, k, r.depth, r.id, 0, r.join, r.need, 0, mode, 0⟩
  | .entry _ k =>
      let e := c.stack.getD k ⟨none, 0, 0, 0, 0, [], none, [], .core, 0⟩
      let owner := (all.findIdx? fun i => i == .path ctx e.owner).getD 0xFF
      let meet := ((e.rcd.bind c.rcd).map LandRec.need).getD e.lanes
      ⟨ctx, 1, owner, g.depthIn q.trap ctx e.lanes, c.landingField false e.pend, 0, e.pc, meet, e.lanes, e.mode, 0⟩
  | .group | .call .. | .value .. => ⟨ctx, 0, 0xFF, 0, 0, 0, 0, 0, 0, 0, 0⟩

/-- The path records of a group. -/
def Group.pathRecs (g : Group) (q : SaveInfo) : List Rec :=
  let all := (g.ctxs.map fun c => c.2.items c.1).flatten
  (g.ctxs.map fun c => (c.2.items c.1).map fun i => (⟨2, i, (g.pathRec q all c.1 c.2 i).body⟩ : Rec)).flatten

/-- The group record. -/
def Group.groupRec (g : Group) (q : SaveInfo) : Rec :=
  ⟨1, .group, leBytes 1 g.index ++ leBytes 1 g.handler.isSome.toNat ++
    leBytes 1 ((g.handler.map fun h => h.code.toNat).getD 0) ++ leBytes 1 q.flights ++ bvBytes 4 g.cohort ++
    bvBytes 4 g.tmask ++ bvBytes 8 g.guard⟩

/-- The calls of a group: the distinct frames at depths from one on, with the lanes that hold them. -/
def Group.callRecs (g : Group) (q : SaveInfo) : List Rec :=
  let ats := (g.ats q.trap).filter fun a => a.depth != 0
  let keys := (ats.map fun a => (a.ctx, a.depth, a.frame.fn, a.frame.ret)).eraseDups
  keys.map fun k =>
    let m := maskOf ((ats.filter fun a => (a.ctx, a.depth, a.frame.fn, a.frame.ret) == k).map At.lane)
    ⟨3, .call k.1 k.2.1 m, leBytes 1 k.1 ++ leBytes 1 k.2.1 ++ leBytes 2 0 ++ leBytes 4 k.2.2.1 ++ leBytes 4 0 ++
      bvBytes 8 m ++ bvBytes 8 k.2.2.2⟩

/-- A value of a frame that is saved: where it is, id, type and value. -/
structure Held where
  loc : At
  id : Nat
  ty : Ty
  val : Val
  deriving DecidableEq, Repr

/-- The values of a frame that are still read. -/
def State.heldAt (s : State) (a : At) : List Held :=
  let t := s.translation a.frame.tr
  a.frame.vals.filterMap fun v =>
    if t.liveAt a.pc v.1 then (t.typeOf v.1).map fun ty => ⟨a, v.1, ty, v.2⟩ else none

/-- Numbers sorted, rising. -/
def sorted (l : List Nat) : List Nat := l.foldl (fun acc v => insertBy id v acc) []

/-- The values of a group, in ascending id (R427). -/
def State.valueRecs (s : State) (g : Group) (q : SaveInfo) : List Rec :=
  let hs := ((g.ats q.trap).map s.heldAt).flatten
  let ids := (sorted (hs.map Held.id)).eraseDups
  (ids.map fun id =>
    let mine := hs.filter fun h => h.id == id
    let keys := (mine.map fun h => (h.loc.ctx, h.loc.depth, h.loc.frame.fn, h.ty)).eraseDups
    keys.map fun k =>
      let these := mine.filter fun h => (h.loc.ctx, h.loc.depth, h.loc.frame.fn, h.ty) == k
      let m := maskOf (these.map fun h => h.loc.lane)
      let bytes := (lanesOf m).map fun l =>
        ((these.find? fun h => h.loc.lane == l).map fun h => h.val.saved (savedSize k.2.2.2)).getD []
      (⟨4, .value k.1 k.2.1 id k.2.2.2 m, leBytes 4 (id % 2 ^ 28 + k.2.2.2.code * 2 ^ 28) ++ leBytes 1 k.1 ++
        leBytes 1 k.2.1 ++ leBytes 2 0 ++ leBytes 4 k.2.2.1 ++ bvBytes 8 m ++ bytes.flatten⟩ : Rec)).flatten

/-- The records of a group in order (R427). -/
def State.groupRecs (s : State) (g : Group) (q : SaveInfo) : List Rec :=
  g.groupRec q :: (g.pathRecs q ++ g.callRecs q ++ s.valueRecs g q)

/-! Barriers, slots, engines and tiles. -/

/-- A barrier record (R413). -/
def Bar.saved (b : Bar) : List Byte :=
  bvBytes 8 b.word ++ leBytes 8 (maskOf b.marks).toNat ++ leBytes 4 b.out ++ leBytes 4 0

/-- A slot word (R413). -/
def Slot.saved (x : Slot) : List Byte := leBytes 4 (x.gen % 2 ^ 19 + x.status.toNat * 2 ^ 24)

/-- The bytes of the operands of an operation as issued, where a value gives none of its own: addresses of enclave memory and
futures take 8 (R415). -/
def opSizes (o : EngOp) : List Nat :=
  match o.cls with
  | 0 =>
      if 4 ≤ o.sub % 8 then []
      else [if (copySpaces o.sub).1 then 4 else 8, if (copySpaces o.sub).2 then 4 else 8]
  | 1 => if o.sub % 8 = 1 then [8, 4] else [4, 8]
  | 4 => [4, 8, 4]
  | 5 => List.replicate 7 8
  | 6 => [4, 8]
  | _ => []

/-- The operand values of an MMA in the order of R427. -/
def EngOp.mmaOperands (o : EngOp) : List Byte :=
  let b := (argOf o.vals 0).saved 32
  let pair := fun (m : Nat × Nat × List Val) => (memberVal m 0).saved 4 ++ (memberVal m 2).saved 4
  let base := (argOf o.vals (if o.sub % 4 = 2 then 5 else 3)).saved 4
  let sparse := if o.sub % 4 = 1 then (o.members.map fun m => (memberVal m 3).saved 4).flatten else []
  b ++ (o.members.map pair).flatten ++ base ++ sparse

/-- The operand values of an operation as issued. -/
def EngOp.operands (o : EngOp) : List Byte :=
  if o.maj = 0x62 then o.mmaOperands
  else (o.vals.mapIdx fun k v => v.saved ((opSizes o).getD k 4)).flatten

/-- How many steps of an operation make a beginning without a gap. -/
def EngOp.begun (o : EngOp) : Nat := ((List.range (o.total + 1)).find? fun i => !o.did i).getD o.total

/-- The steps of a slab of an MMA. -/
def EngOp.bands (o : EngOp) : Nat := 2 * o.members.length

/-- The progress word (R410, R374). -/
def EngOp.progress (o : EngOp) : Nat :=
  if o.maj = 0x62 then o.spec.toNat * 128 + o.begun / o.bands * 16 + o.begun % o.bands else o.begun

/-- An engine record (R415). -/
def State.engRecord (s : State) (o : EngOp) : List Byte :=
  let digest := if o.cls = 4 then
      let l := s.launch (s.team o.team).launch
      bvBytes 64 (sha384State (((mget l.seals (numOf o.vals 0)).map fun c => c.bytes ++ c.part).getD []))
    else []
  recBytes 0x10 (leBytes 2 o.slot ++ leBytes 1 o.cls ++ leBytes 1 (o.bar.getD 0xFF) ++ leBytes 1 o.maj ++ leBytes 1 o.sub ++
    leBytes 1 (s.group o.group).index ++ leBytes 1 0 ++ leBytes 4 o.progress ++ o.operands ++ digest)

/-- The incomplete operations of a team. -/
def State.teamOps (s : State) (t : Nat) : List (Nat × EngOp) :=
  s.ops.filter fun o => o.2.team == t && o.2.status == futPending

/-- The tiles of a team on its core, by number. -/
def State.teamTiles (s : State) (t : Nat) : List (Nat × Tile) :=
  (List.range 32).filterMap fun n => ((s.tile (s.team t).core n).filter fun x => x.team == t).map fun x => (n, x)

/-- The pairs of a tile and its speculative one, as the values of a team's lanes and its operations hold them. -/
def State.specPairs (s : State) (t : Nat) : List (Nat × Nat) :=
  let of : Val → Option (Nat × Nat) := fun v =>
    match v with
    | .acc a (some b) => some (a, b)
    | .acc _ none | .bits _ | .tmap .. | .fmtb _ => none
  let held := (s.groups.filter fun g => g.2.team == t).map fun g =>
    (g.2.lanes.map fun l => (l.2.frames.map fun f => f.vals.map Prod.snd).flatten).flatten
  let used := (s.teamOps t).map fun o => (o.2.members.map fun m => m.2.2).flatten
  ((held.flatten ++ used.flatten).filterMap of).eraseDups

/-- A tile record (R415). -/
def tileRecord (pairs : List (Nat × Nat)) (n : Nat) (x : Tile) : List Byte :=
  let half := pairs.find? fun p => p.2 == n
  let head := n + x.int.toNat * 2 ^ 16 + half.isSome.toNat * 2 ^ 17 + ((half.map Prod.fst).getD 0) * 2 ^ 32
  leBytes 8 head ++ leBytes 8 0 ++ ((List.range 2048).map fun e => bvBytes 4 (x.at e)).flatten

/-! The frame. -/

/-- The sections of a frame: barriers, slots, scratchpad, groups, engines, tiles; and the count of group records. -/
structure Sections where
  bars : List Byte
  slots : List Byte
  spad : List Byte
  groups : List Byte
  engines : List Byte
  tiles : List Byte
  count : Nat
  deriving DecidableEq, Repr

/-- The sections in order. -/
def Sections.parts (x : Sections) : List (List Byte) := [x.bars, x.slots, x.spad, x.groups, x.engines, x.tiles]

/-- The offsets of sections of some lengths from an offset on, with the end. -/
def offsetsFrom (off : Nat) : List (List Byte) → List Nat
  | [] => [off]
  | p :: ps => off :: offsetsFrom (off + p.length) ps

/-- SHAPE (R413). -/
def Launch.shape (l : Launch) (member : Nat) : Nat := l.width + l.ngroups * 2 ^ 8 + l.nbar * 2 ^ 16 + member * 2 ^ 24

/-- The header's fields up to SPADLEN: those that a restore compares (R416). -/
def State.frameHead (s : State) (t : Nat) : List Byte :=
  let team := s.team t
  let l := s.launch team.launch
  leBytes 4 0x5A524652 ++ leBytes 2 1 ++ leBytes 2 l.enclave ++ bvBytes 8 l.seq ++ leBytes 4 team.index ++
    leBytes 4 (l.shape team.member) ++ leBytes 4 l.spadBytes

/-- A frame as bytes (R413). -/
def State.frameBytes (s : State) (t : Nat) (x : Sections) : List Byte :=
  s.frameHead t ++ leBytes 4 x.count ++ ((offsetsFrom 64 x.parts).take 6).flatMap (leBytes 4) ++
    leBytes 8 ((offsetsFrom 64 x.parts).getLastD 64) ++ x.parts.flatten

/-- The flights at which a group has arrived on its team's die, one bit each. -/
def State.flightBits (s : State) (gid : Nat) : Nat :=
  let t := s.team (s.group gid).team
  let l := s.launch t.launch
  ((List.range 8).map fun f => if (l.flight (dieOf (t.core / 8)) f).contains gid then 2 ^ f else 0).sum

/-- A group's state with one of its contexts as the running one. -/
def State.inCtx (s : State) (gid ctx : Nat) : State :=
  let g := s.group gid
  match g.handler with
  | some h => if ctx = 0 then s.setGroup gid { g with ctx := h.frozen, handler := none } else s
  | none => s

/-- The future slot at which a path is parked by YIELD: that of its lowest lane's future. -/
def State.parkSlot (s : State) (gid ctx pid : Nat) : Nat :=
  match (s.inCtx gid ctx).exeOf gid pid with
  | none => 0
  | some x => ((x.here.map fun i => numOf (x.vals (x.plan i) x.first) 0).getD 0) % 512

/-- The lanes of a path whose access is still to be performed, where some of its lanes' accesses have been, or wait on a record
(R217). -/
def State.todoLanes (s : State) (gid ctx pid : Nat) (p : Path) : LaneMask :=
  if p.done = 0 ∧ s.pathStalled gid pid = false then 0
  else
    match (s.inCtx gid ctx).exeOf gid pid with
    | none => 0
    | some x => ((x.here.map fun i => x.activeMask i.ctl).getD p.mask) &&& ~~~p.done

/-- What a group's records need. -/
def State.saveInfo (s : State) (gid : Nat) : SaveInfo :=
  ⟨s.trapFn (s.launch (s.team (s.group gid).team).launch), s.flightBits gid, s.parkSlot gid, s.todoLanes gid⟩

/-- The groups of a team, by index. -/
def State.teamGroups (s : State) (t : Nat) : List (Nat × Group) :=
  let gs := s.groups.filter fun g => g.2.team == t
  (List.range 48).filterMap fun k => gs.find? fun g => g.2.index == k

/-- What is saved of a team (R413 to R415). -/
def State.sections (s : State) (t : Nat) : Sections :=
  let team := s.team t
  let l := s.launch team.launch
  let recs := ((s.teamGroups t).map fun g => s.groupRecs g.2 (s.saveInfo g.1)).flatten
  let pairs := s.specPairs t
  ⟨((List.range l.nbar).map fun b => (team.bar b).saved).flatten, ((List.range 512).map fun n => (team.slot n).saved).flatten,
   readBytes team.spad 0 l.spadBytes, (recs.map Rec.bytes).flatten, ((s.teamOps t).map fun o => s.engRecord o.2).flatten,
   ((s.teamTiles t).map fun x => tileRecord pairs x.1 x.2).flatten, recs.length⟩

/-- The base of a team's save region (R412). -/
def State.saveBase (s : State) (t : Nat) : BitVec 64 :=
  let l := s.launch (s.team t).launch
  l.save + BitVec.ofNat 64 ((s.team t).index * l.sstride)

end Sys2Proof.Machine
end

