-- ==== Sys2Proof/Machine/Place.lean ====
section
/-! DEFINITION. Admission and the order of placement (R177, R178, R399, R401, R402), the stop of gangs (R408, R411) and the
eviction of borrowers (R402). -/

namespace Sys2Proof.Machine

/-! Admission (R177). -/

/-- What the teams on a core take, without some teams. -/
def State.coreNeed (s : State) (core : Nat) (skip : List Nat) : Need :=
  (s.teams.filter fun t => t.2.resident && t.2.core == core && !skip.contains t.1).foldl
    (fun n t => n.plus (s.launch t.2.launch).need) ⟨0, 0, 0, 0⟩

/-- The free tiles of a core, without the tiles of some teams (R361). -/
def State.freeTiles (s : State) (core : Nat) (skip : List Nat) : Nat :=
  let s := s.sweepTiles core
  ((List.range 32).filter fun k => ((s.tile core k).filter fun t => !skip.contains t.team).isNone).length

/-- The core of member g of a gang of a launch on a block of a hall (R178). -/
def Launch.coreAt (l : Launch) (hall block g : Nat) : Nat := hall * 8 + block * l.gangSize + l.placeOf g

/-- The cores of a block of a hall that a gang takes. -/
def Launch.blockCores (l : Launch) (hall block : Nat) : List Nat := (List.range l.gangSize).map (l.coreAt hall block)

/-- The state with a gang of a launch changed. -/
def State.setGang (s : State) (l gang : Nat) (g : Gang) : State :=
  let x := s.launch l
  s.setLaunch l { x with gangs := mset x.gangs gang g }

/-- A gang of a launch. -/
def State.gang (s : State) (l gang : Nat) : Gang := (mget (s.launch l).gangs gang).getD ⟨.finished, 0, 0, 0, [], [], [], [], []⟩

/-- How many live tiles the frame of a saved gang's member holds. -/
def State.tileNeed (s : State) (g : Gang) (member : Nat) : Nat :=
  ((g.live.find? fun t => (s.team t.1).member == member).map Prod.snd).getD 0

/-- Teams that are to be placed besides: their core, and the tiles that each takes. -/
abbrev Planned := List (Nat × Nat)

/-- Can a block admit a gang, with some teams gone and others to be placed besides (R177, R181)? -/
def State.admits (s : State) (l gang hall block : Nat) (skip : List Nat) (more : Planned) : Bool :=
  let x := s.launch l
  let g := (mget x.gangs gang).getD ⟨.waiting, 0, 0, 0, [], [], [], [], []⟩
  decide (block < 8 / x.gangSize) && (List.range x.gangSize).all fun m =>
    let c := x.coreAt hall block m
    let here := more.filter fun q => q.1 == c
    let n := here.foldl (fun n _ => n.plus x.need) ((s.coreNeed c skip).plus x.need)
    n.fits && decide (s.tileNeed g m + (here.map Prod.snd).sum ≤ s.freeTiles c skip)

/-- The blocks of a hall that can admit a gang. -/
def State.roomFor (s : State) (l gang hall : Nat) : List Nat := (List.range 8).filter fun b => s.admits l gang hall b [] []

/-! The order of placement (R399). -/

/-- Inserts into a list rising by a key, behind equals. -/
def insertByKey {α : Type} (key : α → Nat) (v : α) : List α → List α
  | [] => [v]
  | w :: ws => if key v < key w then v :: w :: ws else w :: insertByKey key v ws

/-- A list sorted by a key. -/
def sortByKey {α : Type} (key : α → Nat) (l : List α) : List α := l.foldl (fun acc v => insertByKey key v acc) []

/-- Is a gang kept off its cores by GO (R403)? -/
def State.barred (s : State) (l gang : Nat) : Bool :=
  let p := s.part (s.encl (s.launch l).enclave).part
  p.preemptGo && p.preempted.contains (l, gang)

/-- The gangs of a launch in a state, in team order. -/
def Launch.gangsIn (x : Launch) (st : GangState) : List (Nat × Gang) := sortByKey Prod.fst (x.gangs.filter fun g => g.2.state == st)

/-- The dispatched launches of an enclave, highest priority first, then in dispatch order. -/
def State.running (s : State) (e : Nat) : List (Nat × Launch) :=
  sortByKey (fun l => (3 - l.2.priority) * 2 ^ 64 + l.2.dispatchNo) (s.launches.filter fun l =>
    l.2.enclave == e && l.2.phase == .dispatched)

/-- The pre-empted gangs of an enclave, oldest pre-emption first. -/
def State.savedGangs (s : State) (e : Nat) : List (Nat × Nat) :=
  let all := ((s.running e).map fun l => (l.2.gangsIn .saved).map fun g => (l.1, g.1, g.2.age)).flatten
  (sortByKey (fun g => g.2.2) (all.filter fun g => !s.barred g.1 g.2.1)).map fun g => (g.1, g.2.1)

/-- The gangs of an enclave that wait for cores, in the order in which they are placed; one of weight 0 is not placed (R401). -/
def State.gangOrder (s : State) (e : Nat) : List (Nat × Nat) :=
  if (s.encl e).weight = 0 then []
  else s.savedGangs e ++ ((s.running e).map fun l => (l.2.gangsIn .waiting).map fun g => (l.1, g.1)).flatten

/-! Turns (R402). -/

/-- The enclave that holds its turn on a hall. -/
def State.turnOf (s : State) (hall : Nat) : Option Nat :=
  match mget s.holders hall with
  | some (e, .holds) => some e
  | some (_, .leaves) | some (_, .past) | none => none

/-- The enclaves in identifier order. -/
def State.enclIds (s : State) : List Nat := sortByKey id (s.encls.map Prod.fst)

/-- The enclaves that have gangs placed or waiting on a hall, in turn order behind one of them. -/
def State.turnOrder (s : State) (hall last : Nat) : List Nat :=
  let es := s.enclIds.filter fun e => (s.encl e).weight != 0 && (s.coresHeld hall e != 0 || s.awaits hall e)
  (es.filter fun e => decide (last < e)) ++ es.filter fun e => decide (e ≤ last)

/-- May an enclave's gang take a block of a hall, by turn or, on cores that the turn's holder leaves empty, by borrowing? -/
def State.mayUse (s : State) (e l hall block : Nat) : Bool :=
  match s.turnOf hall with
  | none => false
  | some h =>
      h == e ||
        (s.teams.all fun t => !(t.2.resident && ((s.launch l).blockCores hall block).contains t.2.core &&
          (s.launch t.2.launch).enclave == h))

/-- Does a launch hold flights, which it does from its placement until it retires, ends or is pre-empted (R151)? -/
def Launch.flying (x : Launch) : Bool :=
  x.phase == .dispatched && ((x.gangs.any fun g => g.2.state == .placed || g.2.state == .stopping) ||
    x.gangs.all fun g => g.2.state == .finished)

/-- Are the flights of a launch free on a die (R151)? -/
def State.flightsFree (s : State) (l die : Nat) : Bool :=
  let used := (s.launches.filter fun x =>
    x.1 != l && x.2.flying && x.2.gangs.any fun g =>
      g.2.state != .waiting && g.2.state != .saved && dieOf g.2.hall == die).map fun x => x.2.nflight
  decide (used.sum + (s.launch l).nflight ≤ Config.flightsPerDie)

/-- The places that a gang can take on some halls, beside teams that are to be placed with it: hall and block. -/
def State.spotsFor (s : State) (l gang : Nat) (halls : List Nat) (more : Planned) : List (Nat × Nat) :=
  let x := s.launch l
  (halls.map fun h => ((List.range 8).filter fun b =>
    s.admits l gang h b [] more && s.mayUse x.enclave l h b && (x.nflight == 0 || s.flightsFree l (dieOf h))).map
      fun b => (h, b)).flatten

/-- The teams of a gang on a block, as planned. -/
def State.plannedOn (s : State) (l gang hall block : Nat) : Planned :=
  let x := s.launch l
  (List.range x.gangSize).map fun m => (x.coreAt hall block m, s.tileNeed (s.gang l gang) m)

/-- Places for further gangs of a launch beside teams that are planned, each free to choose; none where one finds no place. -/
def State.planGangs (s : State) (l : Nat) (halls : List Nat) : List Nat → Planned → Option (List (Nat × Nat × Nat))
  | [], _ => some []
  | g :: gs, more =>
      match s.spotsFor l g halls more with
      | [] => none
      | p :: ps =>
          let c := (p :: ps).getD (Config.freeNat (.choice (6000 + g)) s.free % (p :: ps).length) p
          (s.planGangs l halls gs (more ++ s.plannedOn l g c.1 c.2)).map fun r => (g, c) :: r

/-- The other gangs of a launch with flights: all of its teams are placed at once (R151). -/
def State.restOf (s : State) (l gang : Nat) : List Nat :=
  let x := s.launch l
  if x.nflight = 0 then []
  else (x.gangs.filter fun g => g.1 != gang && (g.2.state == .waiting || g.2.state == .saved)).map Prod.fst

/-- The places of all gangs that are placed with a gang on a block; none where they do not all find one. -/
def State.planWith (s : State) (l gang hall block : Nat) : Option (List (Nat × Nat × Nat)) :=
  let halls := (s.part (s.encl (s.launch l).enclave).part).halls
  (s.planGangs l halls (s.restOf l gang) (s.plannedOn l gang hall block)).map fun r => (gang, hall, block) :: r

/-- The places that a gang can take now on a hall. -/
def State.placesFor (s : State) (l gang hall : Nat) : List (Nat × Nat) :=
  (s.spotsFor l gang [hall] []).filter fun p => (s.planWith l gang p.1 p.2).isSome

/-- The gang of an enclave that is placed next on a hall: the first in order that the hall can admit. A gang that it cannot admit
does not block the others (R399). -/
def State.nextOn (s : State) (e hall : Nat) : Option (Nat × Nat) :=
  (s.gangOrder e).find? fun g => !(s.placesFor g.1 g.2 hall).isEmpty

/-- Is it an enclave's time to place on a hall: its turn, or, while those before it in turn order have nothing that the hall can
admit, a borrower's? -/
def State.timeFor (s : State) (e hall : Nat) : Bool :=
  match s.turnOf hall with
  | none => false
  | some h => h == e || ((h :: s.turnOrder hall h).takeWhile fun d => d != e).all fun d => (s.nextOn d hall).isNone

/-! The stop of a gang (R408, R411). -/

/-- The units of a rake's set that are not frame writers (R409): issue units and gallery cores with paths of the gang, engines of
its cores with its operations, and engines of the I/O die with them. -/
def State.rakeUnits (s : State) (ts : List Nat) : Nat :=
  let gs := (s.groups.filter fun g => ts.contains g.2.team).map Prod.snd
  let ops := (s.ops.filter fun o => ts.contains o.2.team && o.2.status == futPending).map Prod.snd
  let onCore := (ops.filter fun o => decide (o.cls < 3)).map fun o => (o.team, o.cls)
  let onDie := (ops.filter fun o => decide (3 ≤ o.cls)).map fun o => (0, o.cls)
  (gs.map Group.team).eraseDups.length + (gs.map fun g => g.galleries.length).sum + onCore.eraseDups.length +
    onDie.eraseDups.length

/-- Stops one placed gang: issue ends in its groups, but for those whose handler it holds for; collectives complete or are given
up (R166); XCTL operations in progress are abandoned. -/
def State.stopOne (s : State) (l gang : Nat) : State :=
  let g := s.gang l gang
  if g.state ≠ .placed then s
  else
    let mine : Nat × Group → Bool := fun q => g.teams.contains q.2.team
    let s := s.setGang l gang { g with state := .stopping }
    let stop : Group → Group := fun q => { q with stopped := true, held := q.handler.isSome }
    let s : State := { s with
      groups := s.groups.map fun q => if mine q then (q.1, stop q.2) else q
      xctls := s.xctls.filter fun c => !g.teams.contains (s.group c.1).team
      rakes := s.rakes ++ [(s.next, ⟨l, gang, s.rakeUnits g.teams⟩)]
      next := s.next + 1 }
    (s.ops.filter fun o => g.teams.contains o.2.team && o.2.cls == 3 && o.2.status == futPending).foldl
      (fun s o => s.collAbort o.1 o.2 futPreempt) s

/-- Stops a gang, and with it the whole launch where it has flights (R408). -/
def State.stopGang (s : State) (l gang : Nat) : State :=
  if (s.launch l).nflight = 0 then s.stopOne l gang
  else ((s.launch l).gangs.map Prod.fst).foldl (fun s g => s.stopOne l g) s

/-- The placed gangs of an enclave on a hall. -/
def State.gangsOn (s : State) (hall e : Nat) : List (Nat × Nat) :=
  ((s.running e).map fun l => ((l.2.gangsIn .placed).filter fun g => g.2.hall == hall).map fun g => (l.1, g.1)).flatten

/-! Borrowers (R402). -/

/-- The gangs other than the turn holder's that stand on some cores. -/
def State.borrowersOn (s : State) (h : Nat) (cores : List Nat) : List (Nat × Nat) :=
  ((s.launches.filter fun l => l.2.enclave != h).map fun l =>
    ((l.2.gangsIn .placed).filter fun g => g.2.teams.any fun t => cores.contains (s.team t).core).map fun g => (l.1, g.1)).flatten

/-- The teams of some gangs. -/
def State.teamsIn (s : State) (gs : List (Nat × Nat)) : List Nat := (gs.map fun g => (s.gang g.1 g.2).teams).flatten

/-- The blocks of a hall that could admit a gang once the borrowers on their cores left, with those borrowers. -/
def State.clearable (s : State) (h l gang hall : Nat) : List (List (Nat × Nat)) :=
  (List.range 8).filterMap fun b =>
    let gs := s.borrowersOn h ((s.launch l).blockCores hall b)
    if !gs.isEmpty && s.admits l gang hall b (s.teamsIn gs) [] then some gs else none

/-- Pre-empts the borrowing gangs on a block when the turn holder's next gang can only so be admitted: on one of the blocks that
need the fewest pre-emptions, which of them being free. -/
def State.evictBorrowers (s : State) (hall : Nat) : State :=
  match s.turnOf hall with
  | none => s
  | some h =>
      let leaving := s.launches.any fun l => l.2.gangs.any fun g => g.2.state == .stopping && g.2.hall == hall
      match (s.gangOrder h).head? with
      | none => s
      | some g =>
          if leaving || !(s.roomFor g.1 g.2 hall).isEmpty then s
          else
            let all := s.clearable h g.1 g.2 hall
            let least := (all.map List.length).foldl min (all.headD []).length
            let best := all.filter fun b => b.length == least
            (best.getD (Config.freeNat (.choice (4000 + hall)) s.free % max 1 best.length) []).foldl
              (fun s q => s.stopGang q.1 q.2) s

/-- The same on every hall, after gangs have come to wait or have left cores. -/
def State.evictAll (s : State) : State := (s.holders.map Prod.fst).foldl State.evictBorrowers s

/-- TURN_START (R402): the hall's last turn is over, the enclave is next in turn order, and its deficit is credited. -/
def execTurnStart (hall e : Nat) (s : State) : Host.Outcome State Fault Refusal :=
  .next <|
    let s := s.endTurns
    let last := (mget s.holders hall).map fun h => (h.1, h.2)
    let free := match last with
      | none => true
      | some h => h.2 == .past
    if !free || (s.turnOrder hall ((last.map Prod.fst).getD 0)).head? != some e then s
    else
      let q := (s.part (s.encl e).part).quantum.toNat
      let credit := (s.encl e).weight.toNat * max 1 q * 1024
      ({ s with
        deficits := mset s.deficits (hall, e) (s.deficit hall e + credit)
        holders := mset s.holders hall (e, .holds) } : State).evictBorrowers hall

/-- TURN_DEFICIT_EXHAUSTED (R402): core cycles pass on the hall; once the holder's deficit is used up and another enclave awaits
the hall, the holder's gangs there are pre-empted, and its turn ends as they leave. -/
def execTurnDeficitExhausted (hall cycles : Nat) (s : State) : Host.Outcome State Fault Refusal :=
  .next <|
    let s := s.elapse hall cycles
    match s.turnOf hall with
    | none => s
    | some e =>
        if 0 < s.deficit hall e ∨ !(s.enclIds.any fun d => d != e && s.awaits hall d) then s
        else
          let s : State := { s with holders := mset s.holders hall (e, .leaves) }
          ((s.gangsOn hall e).foldl (fun s g => s.stopGang g.1 g.2) s).endTurns

end Sys2Proof.Machine
end

