-- ==== Sys2Proof/Machine/Preempt.lean ====
section
/-! DEFINITION. Pre-emption (R403, R408 to R412): the stop of engines and groups, the rake, and the save. -/

namespace Sys2Proof.Machine

/-- The launch status SAVE_OVERFLOW (R396). -/
def stSaveOverflow : Nat := 0x1C

/-! What is still in progress (R409, R410). -/

/-- Has an operation stopped at a stop point of its class? Copies, gathers and absorptions stop with a beginning done, the matrix
engine between its steps, or before a load, a store or a pack begins or after it ends; a collective does not stop. -/
def EngOp.stoppable (o : EngOp) : Bool :=
  match o.cls with
  | 0 | 1 | 4 => o.settled
  | 2 => o.maj == 0x62 || o.landed == [] || (List.range o.total).all o.did
  | 3 => false
  | _ => true

/-- Is a copy of an ejected path's values under way (R199)? -/
def Path.moves (p : Path) : Bool :=
  match p.place with
  | .core | .gallery _ => false
  | .handing _ | .copying _ | .recalling _ => true

/-- Is something of a group in progress on its core: its held handler, an instruction that is about to complete, or an access that
waits for a far end? -/
def State.groupBusy (s : State) (gid : Nat) (g : Group) : Bool :=
  (g.held && g.handler.isSome) || (g.ctx.paths.any fun p => s.finishing g p.2 && s.ready gid p.1) ||
    s.far.any fun f => f.2.who.group == some gid

/-- The paths of a group whose values are being copied, in either context. -/
def Group.copying (g : Group) : Nat := ((g.ctxs.map fun c => c.2.paths.filter fun p => p.2.moves).map List.length).sum

/-- The units of the teams that still have something in progress, counted as the rake counts them. -/
def State.busyUnits (s : State) (ts : List Nat) : Nat :=
  let gs := s.groups.filter fun g => ts.contains g.2.team
  let ops := (s.ops.filter fun o => ts.contains o.2.team && o.2.status == futPending && !o.2.stoppable).map Prod.snd
  let units := ops.map fun o => if o.cls < 3 then (o.team, o.cls) else (0, o.cls)
  ((gs.filter fun g => s.groupBusy g.1 g.2).map fun g => g.2.team).eraseDups.length + (gs.map fun g => g.2.copying).sum +
    units.eraseDups.length

/-- Does a cutting of the launch still wait for its copy, which pre-emption waits for (R168)? -/
def State.cutPending (s : State) (l : Nat) : Bool := s.cuts.any fun c => c.2.launch == l && s.cutDue c.1 c.2

/-! The save (R412). -/

/-- The spill bytes that a translation needs: none where all values of the function fit the budget together, and otherwise as many
as the grafter has chosen (R212). -/
def State.spillOf (s : State) (n : Nat) : Nat :=
  let t := s.translation n
  let all := (t.types.map fun ty => (ty.map fun t => savedSize t / 4).getD 0).sum
  if all ≤ t.budget then 0 else Config.freeNat (.spill n) 0

/-- The translations that a team's lanes have entered. -/
def State.transOf (s : State) (t : Nat) : List Nat :=
  (((s.teamGroups t).map fun g => (g.2.lanes.map fun l => l.2.frames.map Frame.tr).flatten).flatten).eraseDups

/-- Why a save or a restore goes no further: an access that stops, or an end of the launch. -/
inductive Halt where
  | stop (kind : AccessKind) (st : Stop)
  | ends (status detail : Nat) (addr : BitVec 48)
  deriving DecidableEq, Repr

/-- Writes the frame of a team, unless it is too long or its spill need is beyond SPILL. -/
def State.saveTeam (s : State) (t : Nat) : Except Halt State :=
  let team := s.team t
  let l := s.launch team.launch
  let bytes := s.frameBytes t (s.sections t)
  if l.sstride - l.spill < bytes.length ∨ ((s.transOf t).any fun n => decide (l.spill < s.spillOf n)) = true then
    .error (.ends stSaveOverflow 0 0)
  else (s.hwWrite (some team.core) l.enclave (s.saveBase t) bytes).mapError (.stop .engWrite)

/-- A path as it is kept while its gang is off its cores: it asks again for a translation, and a cut mark that has lost its
barrier to the pre-emption arrives afresh. -/
def State.keepPath (s : State) (p : Path) : Path :=
  match p.stage with
  | .translating _ => { p with stage := .none }
  | .joining op =>
      if (mget s.ops op).any fun o => o.status == futPending || o.status == futPreempt then { p with stage := .none } else p
  | .none | .arriving _ | .waiting .. | .masked | .released | .cutting _ | .issued _ | .failed => p

/-- The absorptions of some teams move what they have fed into their contexts: the frame holds the hash state (R415, R417). -/
def State.saveSeals (s : State) (l : Nat) (ts : List Nat) : State :=
  let x := s.launch l
  let f : Seal → Seal := fun c =>
    if c.busy.any fun k => (mget s.ops k).any fun o => ts.contains o.team then { c with bytes := c.bytes ++ c.part, part := [] } else c
  s.setLaunch l { x with seals := x.seals.map fun c => (c.1, f c.2) }

/-- Every access of some teams leaves the records that it waits on (R51). -/
def State.dropWaits (s : State) (ts : List Nat) : State :=
  let mine : Waiter → Bool := fun w =>
    match w with
    | .path g _ => ts.contains (s.group g).team
    | .eng op => (mget s.ops op).any fun o => ts.contains o.team
    | .save t => ts.contains t
    | .dep _ | .done _ | .cut _ => false
  let keep : FaultRec → FaultRec := fun r => { r with waiters := r.waiters.filter fun w => !mine w }
  { s with
    parts := s.parts.map fun p => (p.1, { p.2 with recs := p.2.recs.map fun r => (r.1, keep r.2), queue := p.2.queue.map keep })
    replays := s.replays.filter fun q => !mine q.2 }

/-- A gang whose frames are written leaves its cores (R408, R153): what the frames have no place for is kept with it. -/
def State.leaveCores (s : State) (l gang : Nat) : State :=
  let g := s.gang l gang
  let ts := g.teams
  let mine : Nat × Group → Bool := fun q => ts.contains q.2.team
  let kept := (s.groups.filter mine).map fun q => (q.1, q.2.mapPaths s.keepPath)
  let copies := (ts.map fun t => (s.teamTiles t).filterMap fun x => x.2.copy.map fun c => (x.1, c.1 % 32, c.2)).flatten
  let live := ts.map fun t => (t, (s.teamTiles t).length)
  let s := (s.saveSeals l ts).dropWaits ts
  let x := s.launch l
  let flights := x.flights.map fun f => (f.1, f.2.filter fun q => !kept.any fun k => k.1 == q)
  let s := s.setLaunch l { x with flights := flights }
  let saved := (ts.map fun t => (s.teamOps t).map Prod.fst).flatten
  let s := s.setGang l gang { g with state := .saved, age := s.next, kept := kept, copies := copies, live := live, ops := saved }
  let off : Team → Team := fun t => { t with resident := false, spad := [], latches := [] }
  { s with
    next := s.next + 1
    groups := s.groups.filter fun q => !mine q
    tiles := s.tiles.filter fun t => !ts.contains t.2.team
    teams := s.teams.map fun t => if ts.contains t.1 then (t.1, off t.2) else t
    moving := s.moving.filter fun m => !kept.any fun k => k.1 == m.1
    rakes := s.rakes.filter fun r => !(r.2.launch == l && r.2.gang == gang) }

/-- What follows from gangs having left cores: turns end, GO clears, and the turn holder's next gang may claim a block. -/
def State.afterLeaving (s : State) (l : Nat) : State :=
  ((s.endTurns).clearGo (s.encl (s.launch l).enclave).part).evictAll

/-- The frames of a gang are written, and it leaves its cores; a frame write that faults waits (R412). -/
def State.saveGang (s : State) (l gang : Nat) : State :=
  let g := s.gang l gang
  let s := (g.teams.map fun t => (s.team t).core).foldl State.sweepTiles s
  match g.teams.foldlM State.saveTeam s with
  | .ok s => (s.leaveCores l gang).afterLeaving l
  | .error (.ends st d a) => s.endLaunch l st d a 0
  | .error (.stop kind st) =>
      let t := (g.teams.find? fun t =>
        match s.saveTeam t with
        | .error (.stop ..) => true
        | .error (.ends ..) | .ok _ => false).getD 0
      match st.found with
      | .fault f =>
          let slot := (((s.teamGroups t).head?).map fun q => q.2.slot).getD 0
          s.faultAccess l (s.team t).core slot kind (.save t) st.va f
      | .search pa n => s.startSearch pa n
      | .window .. => s.endLaunch l stLinkKey 0 0 0
      | .ok .. | .moving => s

/-- RAKE_ACK (R409): core cycles pass, and one unit of the gang acknowledges, once nothing of the gang is in progress on it; when
all have, the frame writers write the gang's frames and acknowledge, and the pre-emption is complete. -/
def execRakeAck (l gang : Nat) (cycles : Nat) (s : State) : Host.Outcome State Fault Refusal :=
  .next <|
    let g := s.gang l gang
    if g.state ≠ .stopping then s
    else
      let s := s.elapse g.hall cycles
      match s.rakes.find? fun r => r.2.launch == l && r.2.gang == gang with
      | none => s
      | some r =>
          let busy := s.busyUnits g.teams
          if r.2.waits ≠ 0 then
            if busy < r.2.waits then { s with rakes := mset s.rakes r.1 { r.2 with waits := r.2.waits - 1 } } else s
          else if busy ≠ 0 ∨ s.cutPending l ∨ (g.teams.any fun t => s.waiting (.save t)) = true then s
          else s.saveGang l gang

/-- HANDLER_HOLD_EXPIRY (R411): 8,192 cycles of the group's core after the request, the handler stops as any other code. -/
def execHandlerHoldExpiry (g : Nat) (s : State) : Host.Outcome State Fault Refusal :=
  .next <|
    match mget s.groups g with
    | none => s
    | some x => if x.stopped then s.setGroup g { x with held := false } else s

/-- Pre-empts every resident gang of an enclave in a partition (R403): its placed gangs stop, and GO reads 1 until those that are
on their way off their cores have left. -/
def State.preempt (s : State) (part e : Nat) : State :=
  let mine := s.launches.filter fun l => l.2.enclave == e && (s.encl e).part == part
  let gangs := fun (s : State) (sts : List GangState) =>
    (mine.map fun l => ((s.launch l.1).gangs.filter fun g => sts.contains g.2.state).map fun g => (l.1, g.1)).flatten
  let named := gangs s [.placed, .stopping]
  let s := (gangs s [.placed]).foldl (fun s g => s.stopGang g.1 g.2) s
  let p := s.part part
  (s.setPart part { p with preemptGo := true, preemptEnc := BitVec.ofNat 16 e, preempted := named }).clearGo part

end Sys2Proof.Machine
end

