-- ==== Sys2Proof/Machine/Registers.lean ====
section
/-! DEFINITION. The partition register page (R43, R44, R46, R70, R401, R403): its reads and writes, and the events that write its
registers. -/

namespace Sys2Proof.Machine

/-- The records that the fault ring holds (R46). -/
def Part.ringSize (p : Part) : Nat := 2 ^ (min (bitsOf p.fqBase.toNat 3 0) 10 + 6)

/-- The register at an offset of the page, as it reads. -/
def State.readReg (s : State) (part off : Nat) : BitVec 64 :=
  let p := s.part part
  if off = 0x000 then p.fqBase
  else if off = 0x008 then p.fqTail.setWidth 64
  else if off = 0x010 then p.fqHead.setWidth 64
  else if off = 0x018 then p.xltAddr
  else if off = 0x020 then p.xltCtl ||| (if p.inval.isSome then 0x8000000000000000#64 else 0)
  else if 0x100 ≤ off ∧ off < 0x180 ∧ off % 8 = 0 then (mget p.l2Class ((off - 0x100) / 8)).getD 0
  else if 0x180 ≤ off ∧ off < 0x1A0 ∧ off % 8 = 0 then ((mget p.wayMask ((off - 0x180) / 8)).getD 0).setWidth 64
  else if off = 0x200 then p.quantum.setWidth 64
  else if off = 0x208 then p.sel.setWidth 64
  else if off = 0x210 then ((s.enclIn part p.sel.toNat).map fun x => x.weight.setWidth 64).getD 0
  else if off = 0x218 then p.preemptEnc.setWidth 64 ||| (if p.preemptGo then 0x10000#64 else 0)
  else 0

/-- A write of FQ_BASE (R46): the ring's place and size only while EN was 0; ERR is cleared. -/
def State.writeFqBase (s : State) (part : Nat) (v : BitVec 64) : State :=
  let p := s.part part
  let ring : BitVec 64 := 0x000FFFFFFFFFF00F#64
  let place := if p.fqBase.getLsbD 63 then p.fqBase &&& ring else v &&& ring
  s.setPart part { p with fqBase := (v &&& 0xBF00000000000000#64) ||| place }

/-- A write of FQ_HEAD (R46). -/
def State.writeFqHead (s : State) (part : Nat) (v : BitVec 64) : State :=
  let p := s.part part
  let head := v.setWidth 32
  if p.ringSize < (p.fqTail - head).toNat then s else s.setPart part { p with fqHead := head }

/-- The invalidation that a value of XLT_INV_CTL asks for, with the pages in XLT_INV_ADDR (R43). -/
def Part.invalOf (p : Part) (v : BitVec 64) : Inval :=
  let e := bitsOf v.toNat 15 0
  match bitsOf v.toNat 17 16 with
  | 0 => ⟨some e, 0, none⟩
  | 1 => ⟨some e, bitsOf p.xltAddr.toNat 47 12, some (bitsOf p.xltAddr.toNat 11 0 + 1)⟩
  | _ => ⟨none, 0, none⟩

/-- A write of XLT_INV_CTL (R43, R44): ignored while BUSY reads 1. -/
def State.writeXltCtl (s : State) (part : Nat) (v : BitVec 64) : State :=
  let p := s.part part
  if p.inval.isSome then s
  else s.setPart part { p with
    xltCtl := v &&& 0x3FFFF#64, inval := if v.getLsbD 63 then some (p.invalOf v) else none }

/-- A write of PREEMPT (R401, R403): ignored while GO reads 1. -/
def State.writePreempt (s : State) (part : Nat) (v : BitVec 64) : State :=
  let p := s.part part
  if p.preemptGo then s
  else if v.getLsbD 16 then s.preempt part (bitsOf v.toNat 15 0)
  else s.setPart part { p with preemptEnc := v.setWidth 16 }

/-- A write of SCHED_WEIGHT (R401): the weight of the selected enclave, if it is one of the partition. -/
def State.writeWeight (s : State) (part : Nat) (v : BitVec 64) : State :=
  let e := (s.part part).sel.toNat
  match s.enclIn part e with
  | none => s
  | some x => ((s.setEncl e { x with weight := v.setWidth 8 }).endTurns).evictAll

/-- A write to the register at an offset of the page; read-only registers and offsets without a register ignore it. -/
def State.writeReg (s : State) (part off : Nat) (v : BitVec 64) : State :=
  let p := s.part part
  if off = 0x000 then s.writeFqBase part v
  else if off = 0x010 then s.writeFqHead part v
  else if off = 0x018 then
    if p.inval.isSome then s else s.setPart part { p with xltAddr := v &&& 0x0000FFFFFFFFFFFF#64 }
  else if off = 0x020 then s.writeXltCtl part v
  else if 0x100 ≤ off ∧ off < 0x180 ∧ off % 8 = 0 then
    s.setPart part { p with l2Class := mset p.l2Class ((off - 0x100) / 8) (v &&& 0x3FFFFFF#64) }
  else if off = 0x200 then s.setPart part { p with quantum := v.setWidth 16 }
  else if off = 0x208 then s.setPart part { p with sel := v.setWidth 16 }
  else if off = 0x210 then s.writeWeight part v
  else if off = 0x218 then s.writePreempt part v
  else s

/-- The operating system stores to a register of its partition's page: a general core that is neither held in reset nor inside
of an enclave nor waiting (R20), which goes on behind its store. -/
def osStore (h : Nat) (s : State) (f : Nat → State) : Host.Outcome State Fault Refusal :=
  .next <|
    let x := s.hart h
    match s.partOf h with
    | none => s
    | some p => if x.inReset || x.inside.isSome || x.wait != .nothing then s else (f p).retire h 0 0

/-- REGISTER_WRITE (R70, R43, R401). -/
def execRegisterWrite (h off : Nat) (v : BitVec 64) (s : State) : Host.Outcome State Fault Refusal :=
  osStore h s fun p => s.writeReg p off v

/-- A write of XLT_INV_CTL that starts an invalidation of a scope. -/
def xltStart (h : Nat) (v : BitVec 64) (scopes : List Nat) (s : State) : Host.Outcome State Fault Refusal :=
  if v.getLsbD 63 && scopes.contains (bitsOf v.toNat 17 16) then osStore h s fun p => s.writeXltCtl p v else .next s

/-- XLT_INV_ENCLAVE (R43): all pages of an enclave. -/
def execXltInvEnclave (h : Nat) (v : BitVec 64) (s : State) : Host.Outcome State Fault Refusal := xltStart h v [0] s
/-- XLT_INV_PAGES (R43): the pages in XLT_INV_ADDR of an enclave. -/
def execXltInvPages (h : Nat) (v : BitVec 64) (s : State) : Host.Outcome State Fault Refusal := xltStart h v [1] s
/-- XLT_INV_PARTITION (R43): every enclave of the partition. -/
def execXltInvPartition (h : Nat) (v : BitVec 64) (s : State) : Host.Outcome State Fault Refusal := xltStart h v [2, 3] s

/-- The page numbers that a cached translation covers: the first, and how many. -/
def TlbEntry.pages (t : TlbEntry) : Nat × Nat :=
  let span := 2 ^ (if t.size = 1 then 4 else if t.size = 2 then 9 else if t.size = 3 then 18 else 0)
  (t.vpn / span * span, span)

/-- Does an invalidation in a partition name pages (first, count) of an enclave? -/
def State.named (s : State) (part : Nat) (v : Inval) (e : Nat) (pages : Nat × Nat) : Bool :=
  (s.encl e).part == part && (v.enclave.isNone || v.enclave == some e) &&
    match v.pages with
    | none => true
    | some n => overlaps pages (v.first, n)

/-- Does an invalidation in a partition name a cached translation? -/
def State.invalidates (s : State) (part : Nat) (v : Inval) (t : TlbEntry) : Bool := s.named part v t.enclave t.pages

/-- Is an access through a window that a named page translated not yet performed (R44)? -/
def State.farNamed (s : State) (part : Nat) (v : Inval) : Bool :=
  s.far.any fun f => s.named part v f.2.enclave (f.2.page, 1)

/-- XLT_INV_DONE (R44): the named translations are gone from every TLB, and BUSY clears once every access that they translated has
been performed. Only one that waits for a far end can still be under way. -/
def execXltInvDone (p : Nat) (s : State) : Host.Outcome State Fault Refusal :=
  .next <|
    match (s.part p).inval with
    | none => s
    | some v =>
        let s : State := { s with tlb := s.tlb.filter fun t => !s.invalidates p v t }
        if s.farNamed p v then s else s.setPart p { s.part p with inval := none }

/-- FQ_BASE_WRITE (R46). -/
def execFqBaseWrite (h : Nat) (v : BitVec 64) (s : State) : Host.Outcome State Fault Refusal :=
  osStore h s fun p => s.writeFqBase p v

/-- FQ_HEAD_WRITE (R46). -/
def execFqHeadWrite (h : Nat) (v : BitVec 64) (s : State) : Host.Outcome State Fault Refusal :=
  osStore h s fun p => s.writeFqHead p v

/-- PREEMPT_GO (R403). -/
def execPreemptGo (h : Nat) (v : BitVec 64) (s : State) : Host.Outcome State Fault Refusal :=
  osStore h s fun p => s.writePreempt p v

end Sys2Proof.Machine
end

