-- ==== Sys2Proof/Machine/Paging.lean ====
section
/-! DEFINITION. Frames and faults: the correction search (R82, R83, R87), the scrub queue and the clean pool (R53 to R55, R88),
sealed paging (R56 to R60, R85), TLB walks (R41), and the fault queue (R46, R49, R50). -/

namespace Sys2Proof.Machine

/-! Reading lines (R82). -/

/-- The lines of some bytes that a write of them does not read: those that it covers whole (R86). -/
def readLines (write : Bool) (pa n : Nat) : List Nat := (linesAt pa n).filter fun l => !(write && covers pa n l)

/-- The root of trust reads the lines of an access, each checked by R82. -/
def State.settle (s : State) (write : Bool) (pa n : Nat) : State := (readLines write pa n).foldl State.settleLine s

/-- Is a line of an access marked in its frame's poison mask (R83)? -/
def State.masked (s : State) (pa n : Nat) : Bool := (linesAt pa n).any s.linePoisoned

/-- Is a line of an access under a correction search? -/
def State.searched (s : State) (pa n : Nat) : Bool := (linesAt pa n).any s.searches.contains

/-- CORRECTION_SEARCH_DONE (R82): the line is corrected and written back, or poisoned; whoever waits goes on. -/
def execCorrectionSearchDone (line : Nat) (s : State) : Host.Outcome State Fault Refusal :=
  .next <|
    if s.searches.contains line then ({ s with searches := s.searches.filter (· != line) } : State).settleSearch line else s

/-- PATROL_READ (R87): a line of a frame in OWNED or SHARED_RO that has no cached copy is read and checked. -/
def execPatrolRead (line : Nat) (s : State) : Host.Outcome State Fault Refusal :=
  .next <|
    let st := (s.potOf (line / 64)).state
    if (st = .owned ∨ st = .sharedRo) ∧ (s.l2.any fun l => l.line == line) = false ∧
        (s.coreLines.any fun c => c.line == line) = false then
      (s.readHbm line).meetLine line
    else s

/-! The scrub queue and the clean pool. -/

/-- The next frame of a scrub queue, and the rest. -/
def scrubHead : List (Nat × Nat) → Option (Nat × List (Nat × Nat))
  | [] => none
  | (f, n) :: rest => if n = 0 then scrubHead rest else some (f, (f + 1, n - 1) :: rest)

/-- The length of a scrub queue. -/
def scrubLen (q : List (Nat × Nat)) : Nat := (q.map Prod.snd).sum

/-- A sample of the scrub queue's depth (R89). The spec gives the unit alone; a sample is taken whenever the scrub engines have taken
a frame out (assumption log 101). -/
def Part.sampleScrub (p : Part) : Part :=
  { p with monitors := mset p.monitors 9 (((mget p.monitors 9).getD Monitor.empty).sample (scrubLen p.scrub)) }

/-- Does a frame of an enclave still carry the generation before the current one (R26)? -/
def State.oldFrames (s : State) (e : Nat) : Bool :=
  let x := s.encl e
  s.pot.any fun q => q.2.owner.toNat == e && (q.2.state == .owned || q.2.state == .moving) && q.2.keygen == x.gen - 1

/-- The memory key of the generation before the current one goes once no frame carries it (R25). -/
def State.dropOldKey (s : State) (e : Nat) : State :=
  if (mget s.encls e).isNone || s.oldFrames e then s else s.setEncl e { s.encl e with keyPrev := none }

/-- A frame goes to SCRUBBING at the tail of its partition's scrub queue (R53, R75). -/
def State.toScrub (s : State) (frame : Nat) : State :=
  let e := s.potOf frame
  let s := (s.dropFrame frame).dropLines frame
  let p := s.part e.part.toNat
  ((s.setPot frame { e with state := .scrubbing }).setPart e.part.toNat { p with scrub := p.scrub ++ [(frame, 1)] }).dropOldKey
    e.owner.toNat

/-- The content of a frame is written whole, with fresh MACs and no poison. -/
def State.fillFrame (s : State) (frame : Nat) (bs : List Byte) : State :=
  let s := (s.dropFrame frame).dropLines frame
  { s with
    mem := writeBytes (clearBytes s.mem (frame * 4096) 4096) (frame * 4096) bs
    hbm := s.hbm.filter fun q => q.1 / 64 != frame
    lineMask := mdel s.lineMask frame
    resv := s.resv.filter fun r => r.2.1 / 4096 != frame }

/-- SCRUB_FRAME (R54, R88): the head of a partition's scrub queue is scrubbed and joins the tail of its clean pool. -/
def execScrubFrame (p : Nat) (s : State) : Host.Outcome State Fault Refusal :=
  .next <|
    match scrubHead (s.part p).scrub with
    | none => s
    | some (frame, rest) =>
        if s.mgmt.rootIntegrity then s
        else if s.carveBad then s.rootStop
        else
          let s := s.fillFrame frame []
          let s := s.setPot frame ⟨0, 0, 0, .clean, 0, (s.potOf frame).part, false, false⟩
          let x := s.part p
          s.setPart p ({ x with scrub := rest, pool := x.pool ++ [frame] } : Part).sampleScrub

/-- Does a general core draw before every other of its partition that waits for a frame (R60)? -/
def State.drawsNext (s : State) (p : Part) (h : Nat) : Bool := (s.poolWaits.find? p.cores.contains).all (· == h)

/-- Draws a frame from the clean pool for a custom-0 instruction (R55): with an empty pool, or while another that came first waits for
a frame, the instruction waits; where the scrub queue is empty too, it is answered with POOL_EMPTY. -/
def State.draw (s s0 : State) (h part : Nat) (rd : BitVec 5) (k : State → Nat → State) : State :=
  let p := s.part part
  let waits : State := { s0 with poolWaits := if s0.poolWaits.contains h then s0.poolWaits else s0.poolWaits ++ [h] }
  let waits := waits.setHart h { s0.hart h with wait := .pool }
  match p.pool with
  | f :: rest => if s.drawsNext p h then k (s.setPart part { p with pool := rest }) f else waits
  | [] => if scrubLen p.scrub = 0 then s.answer h rd enPoolEmpty 0 else waits

/-- The interrupt that ends a wait: a fault interrupt that is pending, or else one of the three that RISC-V gives a supervisor, from
outside the model (assumption log 102). -/
def State.waitCause (s : State) (part h : Nat) : BitVec 64 :=
  if (s.part part).extIrq.contains h then 9 else [1, 5, 9].getD (Config.freeNat (.choice 4004) s.free % 3) 9

/-- CLEAN_POOL_WAIT_DONE (R55): a frame has reached the pool, or no more will, and the instruction executes again; or an
interrupt ends the wait without effect. -/
def execCleanPoolWaitDone (h : Nat) (interrupted : Bool) (s : State) : Host.Outcome State Fault Refusal :=
  .next <|
    let x := s.hart h
    match s.partOf h with
    | none => s
    | some part =>
        let p := s.part part
        if x.wait ≠ .pool then s
        else if interrupted then s.hartInterrupt h (s.waitCause part h)
        else if p.pool.isEmpty && scrubLen p.scrub != 0 then s
        else if !p.pool.isEmpty && !s.drawsNext p h then s
        else s.setHart h { x with wait := .nothing }

/-! Enclave pages. -/

/-- Is a page of an enclave held by a frame or a tombstone slot (R31)? -/
def State.vpnHeld (s : State) (e vpn : Nat) : Bool :=
  s.pot.any fun q => q.2.owner.toNat == e && q.2.evpn.toNat == vpn &&
    (q.2.state == .owned || q.2.state == .moving || q.2.state == .paged)

/-- A frame becomes a page of an owner (R28, R58). -/
def State.ownFrame (s : State) (frame e vpn version : Nat) (gen : BitVec 8) (meas : Bool) (bs : List Byte) : State :=
  let s := s.fillFrame frame bs
  s.setPot frame ⟨BitVec.ofNat 32 version, BitVec.ofNat 36 vpn, BitVec.ofNat 16 e, .owned, gen, (s.potOf frame).part, meas,
    false⟩

/-- The greatest value of H (R57). -/
def maxH : Nat := 0xFFFFFFFF

/-! Sealed images (R57). -/

/-- The header of an image. -/
def imageHeader (e vpn version : Nat) (meas : Bool) : List Byte :=
  leBytes 4 0x5A525047 ++ leBytes 2 1 ++ leBytes 2 e ++ leBytes 8 vpn ++ leBytes 4 version ++ leBytes 4 meas.toNat ++ leBytes 8 0

/-- The nonce of an image. -/
def imageNonce (e vpn version : Nat) : BitVec 96 :=
  BitVec.ofNat 96 (vpn % 2 ^ 36 * 2 ^ 60 + version % 2 ^ 32 * 2 ^ 28 + e % 2 ^ 16 * 2 ^ 12)

/-- AES-256-GCM's counter mode: enciphers, and deciphers. -/
def gcmCrypt (key : BitVec 256) (nonce : BitVec 96) (bs : List Byte) : List Byte :=
  bs.mapIdx fun i b => b ^^^ gcmStream key nonce i

/-- The image of a page under a paging key. -/
def imageOf (key : BitVec 256) (e vpn version : Nat) (meas : Bool) (plain : List Byte) : List Byte :=
  let head := imageHeader e vpn version meas
  let nonce := imageNonce e vpn version
  let cipher := gcmCrypt key nonce plain
  head ++ cipher ++ bvBytes 16 (gcmTag key nonce head cipher)

/-- The bytes of an image. -/
def imageLen : Nat := 4144

/-- Is a buffer for an image in frames of the operating system, and aligned (R56, R59)? -/
def State.bufferOk (s : State) (part buf : Nat) : Bool :=
  (pagesAt buf imageLen).all (s.osFrame part) && buf % 16 == 0 && !s.masked buf imageLen

/-! PAGE.OUT (R56, R85). -/

/-- PAGE_OUT (R56): the checks; then the frame is in MOVING, under a fresh version, and the general core waits for the drain of
its translated accesses. -/
def execPageOut (rd rs1 rs2 : BitVec 5) (s : State) : Host.Outcome State Fault Refusal :=
  asOs s fun h p x =>
    let a := (x.reg rs1).toNat
    let frame := bitsOf a 27 0
    let slot := bitsOf a 55 28
    let buf := bitsOf (x.reg rs2).toNat 51 0
    let fe := s.potOf frame
    let se := s.potOf slot
    let e := s.encl fe.owner.toNat
    let refuse := fun st => s.answer h rd st 0
    if bitsOf a 63 56 ≠ 0 ∨ fe.part.toNat ≠ p ∨ se.part.toNat ≠ p then refuse enBadOperand
    else if fe.state ≠ .owned ∨ fe.owner = 0 then refuse enNotOwned
    else if e.state ≠ .measured then refuse enBadState
    else if se.state ≠ .free then refuse enSlotBusy
    else if s.bufferOk p buf = false then refuse enBadBuffer
    else if fe.poison then refuse enPagePoisoned
    else if e.h.toNat = maxH then refuse enVersion
    else
      let v := e.h.toNat + 1
      let s := (s.setPot frame { fe with state := .moving }).dropFrame frame
      let s := s.setEncl fe.owner.toNat { e with h := BitVec.ofNat 32 v }
      ({ s with moves := mset s.moves frame (.out slot buf v h rd) } : State).setHart h { x with wait := .drain }

/-- PAGE.OUT ends with a status: its general core goes on. -/
def State.endOut (s : State) (frame h : Nat) (rd : BitVec 5) (status value : Nat) : State :=
  let s : State := { s with moves := mdel s.moves frame }
  (s.setHart h { s.hart h with wait := .nothing }).answer h rd status value

/-- Writes what of some bytes at an address lies in a line. -/
def State.pokeLine (buf : Nat) (bs : List Byte) (s : State) (line : Nat) : State :=
  let first := max buf (line * 64)
  s.poke first ((bs.drop (first - buf)).take (line * 64 + 64 - first))

/-- The rest of PAGE.OUT once its frame is drained: the page is read and sealed, the image written, and the frame scrubbed. A line
of the frame or of the buffer that turns out to be poisoned ends it with the frame OWNED again (R56, R85); which lines of the buffer
have been written by then is free. -/
def State.sealOut (s : State) (frame slot buf v h : Nat) (rd : BitVec 5) : State :=
  let fe := s.potOf frame
  let n := fe.owner.toNat
  let s := s.settle false (frame * 4096) 4096
  let back : State → State := fun s => s.setPot frame { s.potOf frame with state := .owned }
  if s.masked (frame * 4096) 4096 then (back s).endOut frame h rd enPagePoisoned 0
  else
    let plain := readBytes s.mem (frame * 4096) 4096
    let image := imageOf (Config.keyBits (s.encl n).keyPage) n fe.evpn.toNat v fe.meas plain
    let s := s.settle true buf imageLen
    if s.masked buf imageLen then
      let some_ := (linesAt buf imageLen).filter fun l =>
        !s.linePoisoned l && (Config.freeBits (.choice (4000 + l)) s.free).getLsbD 0
      let s := some_.foldl (State.pokeLine buf image) s
      (back s).endOut frame h rd enBadBuffer 0
    else
      let s := s.poke buf image
      let s := s.setPot slot ⟨BitVec.ofNat 32 v, fe.evpn, fe.owner, .paged, 0, (s.potOf slot).part, false, false⟩
      (s.toScrub frame).endOut frame h rd enOK v

/-- FRAME_DRAIN_DONE (R53, R56): every access already translated to a frame in MOVING has been performed: a freed frame goes to
SCRUBBING, and PAGE.OUT goes on, once no correction search covers what it reads and writes. -/
def execFrameDrainDone (frame : Nat) (s : State) : Host.Outcome State Fault Refusal :=
  .next <|
    match mget s.moves frame with
    | none => s
    | some .free => ({ s with moves := mdel s.moves frame } : State).toScrub frame
    | some (.out slot buf v h rd) =>
        if s.searched (frame * 4096) 4096 || s.searched buf imageLen then s else s.sealOut frame slot buf v h rd

/-! PAGE.IN (R58, R59). -/

/-- PAGE_IN_CLEAN (R58): a page of zeros for an enclave, or a frame for the operating system. -/
def execPageInClean (rd rs1 rs2 : BitVec 5) (s : State) : Host.Outcome State Fault Refusal :=
  asOs s fun h p x =>
    let a := (x.reg rs1).toNat
    let vpn := bitsOf (x.reg rs2).toNat 35 0
    let refuse := fun st => s.answer h rd st 0
    if bitsOf a 63 16 ≠ 0 then refuse enBadOperand
    else if a = 0 then
      s.draw s h p rd fun s f => (s.ownFrame f 0 0 0 0 false []).answer h rd enOK f
    else
      match s.enclIn p a with
      | none => refuse enBadOperand
      | some e =>
          if e.state ≠ .measured then refuse enBadState
          else if s.vpnHeld a vpn then refuse enVpnInUse
          else if e.h.toNat = maxH then refuse enVersion
          else
            s.draw s h p rd fun s f =>
              ((s.setEncl a { e with h := e.h + 1 }).ownFrame f a vpn (e.h.toNat + 1) e.gen false []).answer h rd enOK f

/-- Is an image's header that of a slot's page (R59, step 3)? -/
def imageNames (se : PotEntry) (head : List Byte) : Bool :=
  fieldAt head 0 4 == 0x5A525047 && fieldAt head 4 2 == 1 && fieldAt head 6 2 == se.owner.toNat && fieldAt head 8 8 == se.evpn.toNat

/-- The tag and the version of an image in a buffer against its slot (R59, steps 4 and 5): the status of the first that fails. -/
def imageStatus (key : BitVec 256) (se : PotEntry) (img : List Byte) : Nat :=
  let head := img.take 32
  let cipher := (img.drop 32).take 4096
  let v := fieldAt img 0x10 4
  let nonce := imageNonce (fieldAt img 6 2) (fieldAt img 8 8) v
  if img.drop 0x1020 ≠ bvBytes 16 (gcmTag key nonce head cipher) then enImageForeign
  else if v < se.version.toNat then enImageStale
  else if se.version.toNat < v then enImageForeign
  else enOK

/-- The root of trust reads bytes of a buffer for a general core (R59, R82): it waits for a correction search of them that is under
way, and a poisoned line gives BAD_BUFFER; `k` goes on. -/
def State.readBuffer (s s0 : State) (buf n h : Nat) (rd : BitVec 5) (k : State → State) : State :=
  if s.searched buf n then s0
  else
    let s := s.settle false buf n
    if s.masked buf n then s.answer h rd enBadBuffer 0 else k s

/-- PAGE_IN_IMAGE (R58, R59). -/
def execPageInImage (rd rs1 rs2 : BitVec 5) (s : State) : Host.Outcome State Fault Refusal :=
  asOs s fun h p x =>
    let a := (x.reg rs1).toNat
    let slot := bitsOf a 27 0
    let buf := bitsOf (x.reg rs2).toNat 51 0
    let se := s.potOf slot
    let n := se.owner.toNat
    let e := s.encl n
    let key := Config.keyBits e.keyPage
    if bitsOf a 63 28 ≠ 0 ∨ se.part.toNat ≠ p then s.answer h rd enBadOperand 0
    else if se.state = .paged ∧ e.state ≠ .measured then s.answer h rd enBadState 0
    else if s.bufferOk p buf = false then s.answer h rd enBadBuffer 0
    else if se.state ≠ .paged then s.answer h rd enSlotNotPaged 0
    else
      s.readBuffer s buf 32 h rd fun s' =>
        if imageNames se (readBytes s'.mem buf 32) = false then s'.answer h rd enImageForeign 0
        else
          s'.readBuffer s buf imageLen h rd fun s' =>
            let img := readBytes s'.mem buf imageLen
            let st := imageStatus key se img
            if st ≠ enOK then s'.answer h rd st 0
            else
              s'.draw s h p rd fun s f =>
                let plain := gcmCrypt key (imageNonce n se.evpn.toNat se.version.toNat) ((img.drop 32).take 4096)
                let meas := fieldAt img 0x14 4 % 2 == 1
                let s := s.ownFrame f n se.evpn.toNat se.version.toNat e.gen meas plain
                (s.setPot slot ⟨0, 0, 0, .free, 0, se.part, false, false⟩).answer h rd enOK f

/-- PAGE_IN_SHARE (R58). -/
def execPageInShare (rd rs1 : BitVec 5) (s : State) : Host.Outcome State Fault Refusal :=
  asOs s fun h p x =>
    let a := (x.reg rs1).toNat
    let frame := bitsOf a 27 0
    let fe := s.potOf frame
    if bitsOf a 63 28 ≠ 0 ∨ fe.part.toNat ≠ p then s.answer h rd enBadOperand 0
    else if s.osFrame p frame = false then s.answer h rd enNotOwned 0
    else ((s.dropFrame frame).setPot frame { fe with state := .sharedRo }).answer h rd enOK frame

/-- A frame goes to MOVING to be freed (R53, R42): its cached lines go without write-back (R75). -/
def State.freeFrame (s : State) (frame : Nat) : State :=
  let s := ((s.setPot frame { s.potOf frame with state := .moving }).dropFrame frame).dropLines frame
  { s with moves := mset s.moves frame .free }

/-- A tombstone slot goes to FREE: its image can never be installed again (R53). -/
def State.freeSlot (s : State) (slot : Nat) : State :=
  s.setPot slot ⟨0, 0, 0, .free, 0, (s.potOf slot).part, false, false⟩

/-- PAGE_FREE (R53): the result comes at once, and the frame leaves MOVING once it is drained. -/
def execPageFree (rd rs1 : BitVec 5) (s : State) : Host.Outcome State Fault Refusal :=
  asOs s fun h p x =>
    let a := (x.reg rs1).toNat
    let page := bitsOf a 27 0
    let pe := s.potOf page
    let e := (s.encl pe.owner.toNat).state
    if bitsOf a 63 28 ≠ 0 ∨ pe.part.toNat ≠ p then s.answer h rd enBadOperand 0
    else if pe.state = .paged then (s.freeSlot page).answer h rd enOK 0
    else if (pe.state = .owned ∨ pe.state = .moving) ∧ pe.owner ≠ 0 ∧ (e = .building ∨ e = .dying) then s.answer h rd enBadState 0
    else if pe.state = .owned ∨ pe.state = .sharedRo then (s.freeFrame page).answer h rd enOK 0
    else s.answer h rd enNotFreeable 0

/-- MOVING_WAIT_END (R40, R60): a path whose translation met a frame in MOVING translates afresh. -/
def execMovingWaitEnd (g p : Nat) (s : State) : Host.Outcome State Fault Refusal :=
  .next { s with moving := s.moving.filter (· != (g, p)) }

/-! Walks (R35, R41). -/

/-- A successful translation enters the hall's TLB, and the private TLBs of those cores and gallery cores of the hall that had asked
for it: which these are is free (R41). -/
def State.fillTlbs (s : State) (hall e vpn : Nat) (l : Leaf) : State :=
  let entry := fun (unit : Nat) => (⟨unit, e, vpn, l.ppn, l.size, l.w, l.x, l.cls⟩ : TlbEntry)
  let units := (List.range 8).map (8 * hall + ·) ++ (List.range 32).map (galleryUnit hall)
  let asked := units.filter fun u => (Config.freeBits (.choice (7000 + u)) s.free).getLsbD 0
  { s with tlb := (hallTlb hall :: asked).map entry ++ s.tlb }

/-- The end of a walk: a leaf whose checks pass fills the TLBs; one that meets a line under correction waits for it. -/
def State.endWalk (s : State) (hall e : Nat) (va : BitVec 64) : State :=
  let done : State := { s with walks := s.walks.filter (· != (hall, e, low48 va / 4096)) }
  match s.walkFrom (s.encl e).part (low48 va) 4 ((s.encl e).root.toNat * 4096) 1 with
  | .fault _ => done
  | .wait pa => s.startSearch pa 8
  | .leaf l =>
      match s.checkLeaf e va .load 1 l with
      | .moving => s
      | .fault f => if f.kind = .integrity then done.fillTlbs hall e (low48 va / 4096) l else done
      | .ok .. | .window .. | .search .. => done.fillTlbs hall e (low48 va / 4096) l

/-- HALL_TLB_WALK (R41): a walk of an enclave's page in a hall begins, where fewer than 16 are in progress, or, if one of the page is
in progress, it ends: misses of one page share it. -/
def execHallTlbWalk (hall e : Nat) (va : BitVec 64) (s : State) : Host.Outcome State Fault Refusal :=
  .next <|
    let x := s.encl e
    let walk := (hall, e, low48 va / 4096)
    if canonical va = false ∨ x.state ≠ .measured ∨ (s.part x.part).halls.contains hall = false then s
    else if s.walks.contains walk then s.endWalk hall e va
    else if (s.walks.filter fun w => w.1 == hall).length < 16 then { s with walks := s.walks ++ [walk] }
    else s

/-! The fault queue (R46 to R50). -/

/-- A record is no longer needed once posted: a fatal one is for information only (R47). -/
def FaultRec.keeps (r : FaultRec) : Bool := !r.kind.fatal

/-- FAULT_RECORD_POST (R46, R42): the oldest record that waits is written to the slot at TAIL; TAIL advances and the interrupt is
raised. A ring frame that is not the operating system's, or a poisoned line, sets ERR instead. -/
def execFaultRecordPost (p : Nat) (s : State) : Host.Outcome State Fault Refusal :=
  .next <|
    let x := s.part p
    match x.recs.find? fun r => r.2.seq.isNone with
    | none => s
    | some r =>
        let full := x.ringSize ≤ (x.fqTail - x.fqHead).toNat
        if x.fqBase.getLsbD 63 = false ∨ x.fqBase.getLsbD 62 ∨ full then s
        else
          let pa := bitsOf x.fqBase.toNat 51 12 * 4096 + x.fqTail.toNat % x.ringSize * 32
          if s.osFrame p (pa / 4096) = false ∨ s.masked pa 32 then
            s.setPart p { x with fqBase := x.fqBase ||| 0x4000000000000000#64 }
          else if s.linesState true pa 32 ≠ .fine then s.startSearch pa 32
          else
            let r' : FaultRec := { r.2 with seq := some x.faultSeq }
            let hart := bitsOf x.fqBase.toNat 61 56
            let s := s.poke pa (r.2.bytes x.faultSeq)
            let s := s.setPart p { x with
              recs := if r.2.keeps then mset x.recs r.1 r' else mdel x.recs r.1
              fqTail := x.fqTail + 1, faultSeq := x.faultSeq + 1
              extIrq := if x.cores.contains hart && !x.extIrq.contains hart then x.extIrq ++ [hart] else x.extIrq }
            { s with tlb := s.tlb.filter fun t =>
                !(t.enclave == r.2.enclave && overlaps t.pages (r.2.va.toNat / 4096, 1)) }

/-- Faults that waited for one of the 1,024 records form theirs as far as there is room (R48). -/
def State.admitFaults (part : Nat) : Nat → State → State
  | 0, s => s
  | n + 1, s =>
      let p := s.part part
      match p.queue with
      | [] => s
      | r :: rest =>
          if 1024 ≤ (p.recs.filter fun q => q.2.keeps && !q.2.nc).length then s
          else
            let s := s.setPart part { p with queue := rest }
            State.admitFaults part n (if r.waiters.isEmpty then s else s.formFault part r)

/-- The posted record with a sequence number. -/
def Part.recNo (p : Part) (seq : BitVec 64) : Option (Nat × FaultRec) := p.recs.find? fun r => r.2.seq == some seq

/-- Closes a record of a partition, with its sample of the service time (R14, R48). -/
def State.closeRec (s : State) (part : Nat) (r : Nat × FaultRec) : State :=
  let p := s.part part
  let s := s.setPart part { p with recs := mdel p.recs r.1 }
  let s := s.sampleEncl r.2.enclave 1 (Config.freeNat (.cycles 4001) s.free)
  State.admitFaults part p.queue.length s

/-- Is an access one that a core issued: a path's or an operation's? A frame's save and a cutting's copy come again by themselves. -/
def Waiter.ofCore : Waiter → Bool
  | .path .. | .eng _ => true
  | .dep _ | .save _ | .cut _ | .done _ => false

/-- The accesses of a record are to be replayed, each core's in their order (R49). -/
def State.replayAll (s : State) (r : FaultRec) : State :=
  { s with replays := s.replays ++ (r.waiters.filter Waiter.ofCore).flatMap fun w => (s.waiterCores w).map fun c => (c, w) }

/-- FAULT_RESOLVE (R49): the record closes, and every access that waits on it is made again. -/
def execFaultResolve (rd rs1 : BitVec 5) (s : State) : Host.Outcome State Fault Refusal :=
  asOs s fun h p x =>
    match (s.part p).recNo (x.reg rs1) with
    | none => s.answer h rd enNotPending 0
    | some r => if r.2.nc then s.answer h rd enNotPending 0
        else ((s.closeRec p r).replayAll r.2).answer h rd enOK r.2.merges

/-- What FAULT.KILL does to a waiter (R50, R432): its launch ends with a status, or its completion write is abandoned. -/
def State.killWaiter (status : Nat) (s : State) (w : Waiter) : State :=
  match w with
  | .done l => s.setLaunch l { s.launch l with abandoned := true }
  | .path .. | .eng _ | .dep _ | .save _ | .cut _ =>
      match s.launchOf w with
      | none => s
      | some l => s.endLaunch l status 0 0 0

/-- An NC record's launch ends even if a pre-emption has taken its access out of the record (R50). -/
def State.killRaiser (status : Nat) (r : FaultRec) (s : State) : State :=
  match r.nc, r.raiser with
  | true, some l => if r.waiters.isEmpty then s.endLaunch l status 0 0 0 else s
  | _, _ => s

/-- FAULT_KILL (R50): OUT_OF_MEMORY, BAD_ADDRESS or KILLED for every launch with an access in the record, or that raised an NC
record. -/
def execFaultKill (rd rs1 rs2 : BitVec 5) (s : State) : Host.Outcome State Fault Refusal :=
  asOs s fun h p x =>
    let st := (x.reg rs2).toNat
    if st = 0 ∨ 3 < st then s.answer h rd enBadOperand 0
    else
      match (s.part p).recNo (x.reg rs1) with
      | none => s.answer h rd enNotPending 0
      | some r =>
          let s := (r.2.waiters.foldl (State.killWaiter (0x11 + st)) s).killRaiser (0x11 + st) r.2
          (s.closeRec p r).answer h rd enOK 0

end Sys2Proof.Machine
end

