-- ==== Sys2Proof/Machine/Device.lean ====
section
/-! DEFINITION. Reset, bring-up, management and partitions: R3 to R17, R69, R77, R155. -/

namespace Sys2Proof.Machine

/-- RESET (R7, R36, R38): the package is as after reset, under a fresh clean key (R25). What is not the package's stays: who
moves next, the storage behind the network ports, and which keys have been drawn. -/
def execReset (s : State) : Host.Outcome State Fault Refusal :=
  .next { State.reset with turns := s.turns, free := s.free, keys := s.keys + 3, cleanKey := s.keys, storage := s.storage }

/-! Bring-up (R11, R12). -/

/-- Is there such a function (R1)? -/
def fnFitted : FnId → Bool
  | .hbm k => decide (k < 12)
  | .hall h => decide (h < 20)
  | .link p => decide (p < 12)
  | .pcie | .cores => true
  | .net p => decide (p < 8)

/-- The state of a bring-up function: in training until its training is done (assumption log 2). -/
def State.fnState (s : State) (f : FnId) : FnState := (mget s.funcs f).getD (if fnFitted f then .training else .absent)

/-- An HBM stack is in FAILED: the partitions that own its channel sets are reported to the owner (R12, R77). -/
def State.reportStack (s : State) (k : Nat) : State :=
  let hit := (s.parts.filter fun p => p.2.formed && p.2.sets.any fun c => c / 2 == k).map Prod.fst
  { s with mgmt := { s.mgmt with reported := s.mgmt.reported ++ hit.filter fun p => !s.mgmt.reported.contains p } }

/-- A function enters a state. -/
def State.enterFn (s : State) (f : FnId) (x : FnState) : State := { s with funcs := mset s.funcs f x }

/-- An HBM stack enters FAILED (R12). -/
def State.failStack (s : State) (k reason : Nat) : State := (s.enterFn (.hbm k) (.failed reason)).reportStack k

/-- FUNCTION_TRAINING_DONE (R11, R12). -/
def execFunctionTrainingDone (f : FnId) (ok : Bool) (reason : Nat) (s : State) : Host.Outcome State Fault Refusal :=
  .next <|
    if s.fnState f ≠ .training then s
    else if ok then s.enterFn f .ready
    else
      match f with
      | .hbm k => s.failStack k reason
      | .hall _ | .link _ | .pcie | .net _ | .cores => s.enterFn f (.failed reason)

/-- HBM_STACK_FAILED (R12). -/
def execHbmStackFailed (k : Nat) (reason : Nat) (s : State) : Host.Outcome State Fault Refusal :=
  .next (if fnFitted (.hbm k) then s.failStack k reason else s)

/-! Management ownership (R7 to R9). -/

/-- The state with the management record changed. -/
def State.setMgmt (s : State) (m : Mgmt) : State := { s with mgmt := m }

/-- A management write by a master: performed for the owner; else rejected with NOT_OWNER, and nothing changes (R8). -/
def State.asOwner (s : State) (m : Master) (f : State → State) : State :=
  if s.mgmt.owner = some m then f (s.setMgmt { s.mgmt with lastStatus := .ok })
  else s.setMgmt { s.mgmt with lastStatus := .notOwner }

/-- The lowest class among some masters. -/
def lowest : List Master → Option Master
  | [] => none
  | m :: ms =>
      match lowest ms with
      | none => some m
      | some n => some (min m n)

/-- MANAGEMENT_CLAIM (R7): the first accepted claim takes ownership; within one round the lowest class wins. -/
def execManagementClaim (ms : List Master) (s : State) : Host.Outcome State Fault Refusal :=
  .next <|
    if s.mgmt.owner.isSome then s
    else
      match lowest (ms.filter fun m => decide (m ≤ 9)) with
      | none => s
      | some m => s.setMgmt { s.mgmt with owner := some m }

/-- OWNERSHIP_HANDOVER (R9): the owner names a successor. -/
def execOwnershipHandover (m successor : Master) (s : State) : Host.Outcome State Fault Refusal :=
  .next (s.asOwner m fun s => s.setMgmt { s.mgmt with successor := some successor })

/-- OWNERSHIP_ACCEPT (R9). -/
def execOwnershipAccept (m : Master) (s : State) : Host.Outcome State Fault Refusal :=
  .next <|
    if s.mgmt.successor = some m then s.setMgmt { s.mgmt with owner := some m, successor := none } else s

/-- OWNERSHIP_REFUSE (R9). -/
def execOwnershipRefuse (m : Master) (s : State) : Host.Outcome State Fault Refusal :=
  .next (if s.mgmt.successor = some m then s.setMgmt { s.mgmt with successor := none } else s)

/-- OWNERSHIP_RECLAIM (R9), by the baseboard controller. -/
def execOwnershipReclaim (s : State) : Host.Outcome State Fault Refusal :=
  .next (s.setMgmt { s.mgmt with owner := some 0, successor := none })

/-- MANAGEMENT_WRITE (R8), of state that no other rule names. -/
def execManagementWrite (m : Master) (addr : Nat) (v : BitVec 64) (s : State) : Host.Outcome State Fault Refusal :=
  .next (s.asOwner m fun s => s.setMgmt { s.mgmt with words := mset s.mgmt.words addr v })

/-! Partitions (R3 to R6). -/

/-- The first page number of a channel set, and how many of its pages can be allocated (R20, R76, R77). -/
def setPages (c : Nat) : Nat × Nat := (c * 0x800000, if c = 23 then 0x600000 else 0x800000)

/-- Are two lists without a common member? -/
def disjoint (a b : List Nat) : Bool := a.all fun x => !b.contains x

/-- Has a list no member twice? -/
def unrepeated (l : List Nat) : Bool := l.eraseDups.length == l.length

/-- Does a specification name whole units, within the package, of functions in READY (R3, R12)? -/
def State.specReady (s : State) (f : FormSpec) : Bool :=
  !f.cores.isEmpty && f.cores.length % 4 == 0 && unrepeated f.cores && (f.cores.all fun c => decide (c < 64)) &&
  !f.halls.isEmpty && unrepeated f.halls && (f.halls.all fun h => s.fnState (.hall h) == .ready) &&
  !f.sets.isEmpty && unrepeated f.sets && (f.sets.all fun c => decide (c < 24) && s.fnState (.hbm (c / 2)) == .ready) &&
  s.fnState (.net f.port) == .ready && s.fnState .cores == .ready &&
  f.slots.all fun r => decide (0xC000000 ≤ r.1) && decide (r.1 + r.2 ≤ 0x10000000)

/-- Are the resources of a specification free of those of the partitions that are formed (R3)? -/
def State.specFree (s : State) (f : FormSpec) : Bool :=
  (s.parts.all fun q => !q.2.formed ||
    disjoint f.cores q.2.cores && disjoint f.halls q.2.halls && disjoint f.sets q.2.sets && f.port != q.2.port) &&
  f.slots.all fun r => s.potParts.all fun q => !overlaps r (q.1, q.2.1)

/-- The number of a partition's seal key: by its index and the digest of its boot key (R6). -/
def sealKeyOf (part : Nat) (digest : BitVec 384) : Nat := 1 + part + 8 * digest.toNat

/-- A partition under a boot key (R6). -/
def Part.withKey (p : Part) (part : Nat) (key : Option BootKey) : Part :=
  let digest := (key.map fun k => sha384 k.bytes).getD 0
  { p with bootKey := key, bootDigest := digest, sealKey := sealKeyOf part digest }

/-- PARTITION_FORM (R3, R6, R12, R37, R38): PART is written for the frames and slots, whose frames wait to be scrubbed; the general
cores stay in reset, with BOOT_REJECTED where there is no boot key. -/
def execPartitionForm (m : Master) (p : Nat) (f : FormSpec) (s : State) : Host.Outcome State Fault Refusal :=
  .next <|
    s.asOwner m fun s =>
      let old := s.part p
      if 8 ≤ p ∨ old.formed ∨ s.specReady f = false ∨ s.specFree f = false then s
      else
        let runs := f.sets.map setPages
        let x : Part := { Part.empty with
          formed := true, cores := f.cores, halls := f.halls, sets := f.sets, port := f.port, wayMask := old.wayMask
          rejected := f.bootKey.isNone, scrub := runs }
        let s := s.setPart p (x.withKey p f.bootKey)
        { s with
          potParts := s.potParts ++ (runs ++ f.slots).map fun r => (r.1, r.2, p)
          harts := f.cores.foldl (fun hs c => mset hs c Hart.reset) s.harts }

/-- Are all general cores of a partition held in reset? -/
def State.allInReset (s : State) (p : Part) : Bool := p.cores.all fun c => (s.hart c).inReset

/-- BOOT_KEY_REPLACE (R6). While a general core is out of reset nothing changes; the status that the owner gets then is not given, and
is OK as for any write of the owner's (assumption log 103). -/
def execBootKeyReplace (m : Master) (p : Nat) (key : BootKey) (s : State) : Host.Outcome State Fault Refusal :=
  .next <|
    s.asOwner m fun s =>
      let x := s.part p
      if x.formed && s.allInReset x then s.setPart p (x.withKey p (some key)) else s

/-- Takes a page out of a scrub queue. -/
def scrubWithout (page : Nat) (q : List (Nat × Nat)) : List (Nat × Nat) :=
  q.flatMap fun r =>
    if r.1 ≤ page ∧ page < r.1 + r.2 then
      [(r.1, page - r.1), (page + 1, r.1 + r.2 - (page + 1))].filter fun x => x.2 != 0
    else [r]

/-- A frame comes to hold a page of the boot image, as a frame of the operating system. -/
def State.bootFrame (part : Nat) (s : State) (page : Nat) : State :=
  let p := s.part part
  let s := (s.fillFrame page []).setPart part { p with scrub := scrubWithout page p.scrub, pool := p.pool.filter (· != page) }
  s.setPot page ⟨0, 0, 0, .owned, 0, BitVec.ofNat 3 part, false, false⟩

/-- Can a frame take a page of the boot image: one of the partition's that nothing holds? -/
def State.bootable (s : State) (part page : Nat) : Bool :=
  let e := s.potOf page
  e.part.toNat == part && (e.state == .scrubbing || e.state == .clean) && decide (page < 0xBE00000)

/-- PARTITION_BOOT (R5, R6): an image whose signature verifies is loaded at its entry address, its digest becomes the first
measurement, and the general cores leave reset there; else they stay in reset with BOOT_REJECTED. Where the frames at the entry
address cannot take the image, nothing is loaded, and all else is as for an accepted image (assumption log 104). -/
def execPartitionBoot (p : Nat) (image sig : List Byte) (entry : BitVec 64) (s : State) : Host.Outcome State Fault Refusal :=
  .next <|
    let x := s.part p
    if !x.formed || x.booted || !s.allInReset x then s
    else if x.bootKey.any fun k => Config.bootVerifies k.mldsa k.bytes image sig then
      let pages := pagesAt entry.toNat image.length
      let s :=
        if pages.all (s.bootable p) then
          let s := pages.foldl (State.bootFrame p) s
          { s with mem := writeBytes s.mem entry.toNat image }
        else s
      let s := s.setPart p { s.part p with booted := true, rejected := false, firstMeas := sha384 image }
      { s with harts := x.cores.foldl (fun hs c => mset hs c { s.hart c with inReset := false, pc := entry, mode := .hs }) s.harts }
    else s.setPart p { x with rejected := true }

/-- A partition's responder answers. -/
def State.reply (s : State) (p : Nat) (r : Reply) : State := { s with replies := mset s.replies p r }

/-- GET_CERTIFICATE (R6). -/
def execGetCertificate (p slot : Nat) (s : State) : Host.Outcome State Fault Refusal :=
  .next <|
    let x := s.part p
    if x.formed = false then s
    else if slot = 0 then s.reply p .chain
    else if slot = 1 then s.reply p (.sealKey p x.bootDigest x.sealKey)
    else s

/-- SPDM_GET_MEASUREMENTS (R5). -/
def execSpdmGetMeasurements (p : Nat) (s : State) : Host.Outcome State Fault Refusal :=
  .next <|
    let x := s.part p
    if x.formed then s.reply p (.measurements (if x.booted then [x.firstMeas] else [])) else s

/-- PARTITION_WAY_MASK_WRITE (R69). -/
def execPartitionWayMaskWrite (m : Master) (p d : Nat) (ways : BitVec 24) (s : State) : Host.Outcome State Fault Refusal :=
  .next <|
    s.asOwner m fun s =>
      let x := s.part p
      if p < 8 ∧ d < 4 then s.setPart p { x with wayMask := mset x.wayMask d ways } else s

/-- FABRIC_NUMBER_WRITE (R155): before any partition is formed. -/
def execFabricNumberWrite (m : Master) (f p : Nat) (s : State) : Host.Outcome State Fault Refusal :=
  .next <|
    s.asOwner m fun s =>
      if (s.parts.any fun q => q.2.formed) ∨ p = 0 ∨ 15 < p ∨ p ≤ f then s else { s with fabricF := f, fabricP := p }

/-! Clocks (R17). -/

/-- The clock of a hall in steps of 125 MHz: 4.0 GHz at reset (R2). -/
def State.clock (s : State) (hall : Nat) : Nat := (mget s.clocks hall).getD 32

/-- CLOCK_LOWER (R17, R14): a hall's clock falls by steps of 125 MHz, and the island's power is sampled with it, for the hall's
partition and for the enclaves that stand on the hall; whose monitors take the sample is the model's choice (assumption log 105). -/
def execClockLower (hall steps halfWatts : Nat) (s : State) : Host.Outcome State Fault Refusal :=
  .next <|
    if 20 ≤ hall then s
    else
      let s : State := { s with clocks := mset s.clocks hall (max 1 (s.clock hall - steps)) }
      let es := ((s.hallTeams hall).map fun t => (s.launch t.launch).enclave).eraseDups
      let s := es.foldl (fun s e =>
        let x := s.encl e
        s.setEncl e { x with monitors := mset x.monitors 4 (((mget x.monitors 4).getD Monitor.empty).sample halfWatts) }) s
      match s.parts.find? fun p => p.2.halls.contains hall with
      | none => s
      | some p =>
          let x := s.part p.1
          s.setPart p.1 { x with monitors := mset x.monitors 4 (((mget x.monitors 4).getD Monitor.empty).sample halfWatts) }

end Sys2Proof.Machine
end

