-- ==== Sys2Proof/Machine/Restore.lean ====
section
/-! DEFINITION. Restore (R416, R150, R153, R199, R220): what a frame's bytes give back to a team. -/

namespace Sys2Proof.Machine

/-- The launch statuses of a restore (R396): RESUME_MISMATCH. -/
def stMismatch : Nat := 0x1B
/-- BAD_FRAME. -/
def stBadFrame : Nat := 0x1D

/-! Reading the frame. -/

/-- Goes on if a frame is as it must be. -/
def frameOk (ok : Bool) : Except Halt Unit := if ok then .ok () else .error (.ends stBadFrame 0 0)

/-- Goes on if a saved state fits the code (R220). -/
def codeFits (ok : Bool) : Except Halt Unit := if ok then .ok () else .error (.ends stMismatch 0 0)

/-- The records of a section: kind and the bytes behind the head; none where one does not lie within it. -/
def recordsIn : Nat → List Byte → Option (List (Nat × List Byte))
  | 0, _ => none
  | _ + 1, [] => some []
  | fuel + 1, b :: bs =>
      let n := fieldAt (b :: bs) 1 3
      if n < 4 ∨ (b :: bs).length < n then none
      else (recordsIn fuel ((b :: bs).drop n)).map fun rest => (b.toNat, ((b :: bs).take n).drop 4) :: rest

/-- The bytes [lo, hi) of a list. -/
def section_ (bs : List Byte) (lo hi : Nat) : List Byte := (bs.drop lo).take (hi - lo)

/-- A frame as read back: its sections and their records. -/
structure FrameIn where
  bars : List Byte
  slots : List Byte
  spad : List Byte
  groups : List (Nat × List Byte)
  engines : List (Nat × List Byte)
  tiles : List (List Byte)
  len : Nat
  deriving DecidableEq, Repr

/-- Reads and checks a team's frame (R416): the header's fields, and that every section and record lies within LENGTH. -/
def State.readFrame (s : State) (t hall live : Nat) : Except Halt FrameIn := do
  let l := s.launch (s.team t).launch
  let read := fun (n : Nat) =>
    (s.hwRead (some (hallTlb hall)) l.enclave (s.saveBase t) .engRead n).mapError fun st => Halt.stop .engRead st
  let h ← read 64
  let off := fun (k : Nat) => fieldAt h (0x20 + 4 * k) 4
  let len := fieldAt h 0x38 8
  frameOk (h.take 0x1C == s.frameHead t && off 0 == 64 && off 1 == 64 + 24 * l.nbar && off 2 == off 1 + 2048 &&
    off 3 == off 2 + l.spadBytes && decide (off 3 ≤ off 4) && decide (off 4 ≤ off 5) && len == off 5 + 8208 * live &&
    decide (len ≤ l.sstride - l.spill))
  let bs ← read len
  match recordsIn (len + 1) (section_ bs (off 3) (off 4)), recordsIn (len + 1) (section_ bs (off 4) (off 5)) with
  | some gs, some es =>
      frameOk (gs.length == fieldAt h 0x1C 4)
      return ⟨section_ bs (off 0) (off 1), section_ bs (off 1) (off 2), section_ bs (off 2) (off 3), gs, es,
        entriesOf live 8208 (section_ bs (off 5) len), len⟩
  | _, _ => .error (.ends stBadFrame 0 0)

/-! The group section. -/

/-- Does a record of the frame stand for what the kept group has in its place: the same kind and length, and the same fields that
place it? -/
def Rec.sameAs (r : Rec) (q : Nat × List Byte) : Bool :=
  r.kind == q.1 && r.body.length == q.2.length &&
    match r.ref with
    | .group => r.body.take 2 == q.2.take 2
    | .path .. | .entry .. | .landing .. => r.body.take 8 == q.2.take 8 && section_ r.body 0x14 0x24 == section_ q.2 0x14 0x24
    | .call .. | .value .. => r.body.take 0x14 == q.2.take 0x14

/-- The group with one of its contexts changed. -/
def Group.mapCtx (g : Group) (ctx : Nat) (f : Ctx → Ctx) : Group :=
  match g.handler with
  | some h => if ctx = 0 then { g with handler := some { h with frozen := f h.frozen } } else { g with ctx := f g.ctx }
  | none => { g with ctx := f g.ctx }

/-- The place of a lane's frame at a depth of a context among all its frames. -/
def Group.frameAt (g : Group) (trap : Option Nat) (ctx depth l : Nat) : Nat :=
  let below := if ctx = 0 ∧ g.handler.isSome then handlerFrames trap (g.lane l) else 0
  below + ((g.framesIn trap ctx l).length - 1 - depth)

/-- A lane with one of its frames changed. -/
def Lane.mapFrame (x : Lane) (k : Nat) (f : Frame → Frame) : Lane := { x with frames := x.frames.modify k f }

/-- The group after a record of its frame: its fields replace what the kept group holds (R416). -/
def Group.load (trap : Option Nat) (tile : Nat → Val) (g : Group) (r : Ref) (b : List Byte) : Group :=
  let pc := BitVec.ofNat 48 (fieldAt b 0x0C 8)
  let mode := BitVec.ofNat 64 (fieldAt b 0x24 8)
  match r with
  | .group =>
      let h := g.handler.map fun h => { h with code := BitVec.ofNat 8 (fieldAt b 2 1) }
      { g with
        handler := h, cohort := BitVec.ofNat 32 (fieldAt b 4 4), tmask := BitVec.ofNat 16 (fieldAt b 8 4)
        guard := BitVec.ofNat 64 (fieldAt b 0x0C 8) &&& widthMask g.width }
  | .path ctx n => g.mapCtx ctx fun c => { c with paths := mupd c.paths n fun p => { p with pc := pc, mode := mode } }
  | .entry ctx k => g.mapCtx ctx fun c => { c with stack := c.stack.modify k fun e => { e with pc := pc, mode := mode } }
  | .landing ctx u => g.mapCtx ctx fun c =>
      { c with recs := c.recs.map fun q =>
          if q.uid = u then { q with modes := q.modes.mapIdx fun k m => if k = 0 then (q.arrived, mode) else (0, m.2) } else q }
  | .call ctx depth m =>
      g.mapLanes (lanesOf m) fun l x =>
        x.mapFrame (g.frameAt trap ctx depth l) fun f => { f with ret := BitVec.ofNat 48 (fieldAt b 0x14 8) }
  | .value ctx depth id t m =>
      let n := savedSize t
      let ls := lanesOf m
      g.mapLanes ls fun l x =>
        let bytes := section_ b (0x14 + n * (ls.findIdx (· == l))) (0x14 + n * (ls.findIdx (· == l)) + n)
        x.mapFrame (g.frameAt trap ctx depth l) fun f => { f with vals := mset f.vals id (savedVal tile t bytes) }

/-! Fit to the code (R220). -/

/-- Is an address a head word of the function? -/
def Trans.isHead (t : Trans) (pc : BitVec 48) : Bool := decide (t.entry.toNat ≤ pc.toNat) && pc.toNat % 4 == 0 && (t.nodes.any fun n => n.off == t.offset pc)

/-- Do PHIs that a lane at an address has yet to execute read a value on an edge at whose end it is defined, whatever way the
function is run (R287)? `around`: the offsets reached without passing its definition. -/
def Trans.phiHolds (t : Trans) (id : Nat) (around : List Nat) (pc : BitVec 48) : Bool :=
  let ns := t.nodes
  (t.phisAt pc).any fun n =>
    let edges := ((phiHead ns (ns.length + 1) n.off).map (edgesInto ns)).getD []
    (edges.zip n.phi.2).any fun q => (idsOf [q.2]).contains id && !around.contains q.1.1

/-- Is a value defined in the function with a type, on every way from its entry to an address? A value that a PHI there reads on
an edge is judged at the end of the edge, as a PHI's operand is. -/
def Trans.defines (t : Trans) (id : Nat) (ty : Ty) (pc : BitVec 48) : Bool :=
  match t.nodes.find? fun n => n.defs.contains id with
  | none => false
  | some n =>
      let around := reach t.nodes (· == n.off) [0]
      t.typeOf id == some ty && (!around.contains (t.offset pc) || t.phiHolds id around pc)

/-- The JOIN of a landing id of the function (R205). -/
def Trans.joinBy (t : Trans) (id : Nat) : Option (BitVec 48) :=
  (t.lands.find? fun l => l.2.2 == id).map fun l => t.entry + BitVec.ofNat 48 l.2.1

/-- The translation of a function that frames are mapped onto. -/
def transFor (new : List (Nat × Nat × Trans)) (fn : Nat) : Nat × Trans :=
  (mget new fn).getD (0, ⟨0, 0, 0, 0, 0, 0, 0, [], [], [], none, false, []⟩)

/-- Does what a group's frames hold fit the translations? -/
def State.groupFits (s : State) (trap : Option Nat) (new : List (Nat × Nat × Trans)) (g : Group) : Bool :=
  (g.ats trap).all fun a =>
    let t := (transFor new a.frame.fn).2
    t.isHead a.pc && (s.heldAt a).all fun h => t.defines h.id h.ty a.pc

/-- The function in which a landing of a context lies: that of its lanes' frame at its call depth. -/
def Group.landingFn (g : Group) (trap : Option Nat) (ctx : Nat) (r : LandRec) : Nat :=
  let l := (lanesOf (r.need ||| r.arrived)).headD 0
  ((g.lane l).frames.getD (g.frameAt trap ctx r.depth l) ⟨0, 0, 0, [], []⟩).fn

/-- A context whose landings stand at their JOINs in the translations; none where an id is absent. -/
def Group.relandCtx (g : Group) (trap : Option Nat) (new : List (Nat × Nat × Trans)) (ctx : Nat) (c : Ctx) : Option Ctx :=
  (c.recs.mapM fun r => ((transFor new (g.landingFn trap ctx r)).2.joinBy r.id).map fun j => { r with join := j }).map fun rs =>
    { c with recs := rs }

/-- The same for every context of a group. -/
def Group.reland (g : Group) (trap : Option Nat) (new : List (Nat × Nat × Trans)) : Option Group :=
  match g.handler with
  | none => (g.relandCtx trap new 0 g.ctx).map fun c => { g with ctx := c }
  | some h => do
      let f ← g.relandCtx trap new 0 h.frozen
      let c ← g.relandCtx trap new 1 g.ctx
      return { g with ctx := c, handler := some { h with frozen := f } }

/-! Tiles. -/

/-- The new number of a tile. -/
def newTile (map : List (Nat × Nat)) (n : Nat) : Nat := (mget map n).getD n

/-- A value with its tiles renumbered. -/
def Val.retile (map : List (Nat × Nat)) : Val → Val
  | .acc t sp => .acc (newTile map t) (sp.map (newTile map))
  | .bits v => .bits v
  | .tmap d u => .tmap d u
  | .fmtb b => .fmtb b

/-- An operation with its tiles renumbered. -/
def EngOp.retile (map : List (Nat × Nat)) (o : EngOp) : EngOp :=
  { o with vals := o.vals.map (Val.retile map), members := o.members.map fun m => (m.1, m.2.1, m.2.2.map (Val.retile map)) }

/-- A path with the tiles of the results that it has yet to take renumbered. -/
def Path.retile (map : List (Nat × Nat)) (p : Path) : Path :=
  match p.stage with
  | .issued res => { p with stage := .issued (res.map (Val.retile map)) }
  | _ => p

/-- A tile from its record; `wait`: the tile whose elements it is to take, and the operation that it waits for. -/
def tileIn (team : Nat) (wait : Option (Nat × Nat)) (b : List Byte) : Tile :=
  ⟨(fieldAt b 2 1).testBit 0, (List.range 2048).filterMap fun e =>
    let v := BitVec.ofNat 32 (fieldAt b (16 + 4 * e) 4)
    if v = 0 then none else some (e, v), team, wait⟩

/-- The acc value that a saved index stands for: its speculative half is the tile that names it as its partner. -/
def accIn (map : List (Nat × Nat)) (recs : List (List Byte)) (n : Nat) : Val :=
  let half := recs.find? fun b => (fieldAt b 2 1).testBit 1 && fieldAt b 4 2 == n
  .acc (newTile map n) (half.map fun b => newTile map (fieldAt b 0 2))

/-! Barriers and slots. -/

/-- A barrier from its record: the phases passed keep the parity that the record gives. -/
def barIn (old : Bar) (b : List Byte) : Bar :=
  let w := fieldAt b 0 8
  { old with
    pend := signedOf 32 (w / 2 ^ 32), arrived := bitsOf w 25 20, expect := bitsOf w 5 0
    phases := if old.phases % 2 = bitsOf w 16 16 then old.phases else old.phases + 1
    marks := (List.range 48).filter fun k => (fieldAt b 8 8).testBit k, out := fieldAt b 0x10 4 }

/-- A slot from its word; an operation that has completed meanwhile keeps its status. -/
def State.slotIn (s : State) (old : Slot) (w : Nat) : Slot :=
  let done := (mget s.ops old.op).any fun o => o.status != futPending
  { old with gen := w % 2 ^ 19, status := if done then old.status else BitVec.ofNat 8 (w / 2 ^ 24) }

/-- The tables of a count of entries. -/
def numbered {α : Type} (n : Nat) (f : Nat → α) : List (Nat × α) := (List.range n).map fun k => (k, f k)

/-! Engines. -/

/-- An operation with its remainder from its record (R410, R374); none where the record is another's. -/
def State.opIn (s : State) (o : EngOp) (q : Nat × List Byte) : Option EngOp :=
  let mine := (s.engRecord o).drop 4
  let w := fieldAt q.2 8 4
  let n := if o.maj = 0x62 then bitsOf w 6 4 * o.bands + bitsOf w 3 0 else w
  if q.1 = 0x10 ∧ q.2.take 6 = mine.take 6 ∧ q.2.drop 0x0C = mine.drop 0x0C ∧ n ≤ o.total then
    some { o with landed := if o.landed.length = n then o.landed else List.range n, started := n }
  else none

/-! Groups on their new cores. -/

/-- The issue slots of a core that no group has (R400): one whose lanes have all exited has freed its own (R186, R295). -/
def State.freeSlots (s : State) (core : Nat) : List Nat :=
  (List.range 48).filter fun k => !s.groups.any fun g =>
    (s.team g.2.team).resident && (s.team g.2.team).core == core && g.2.slot == k && !g.2.allExited

/-- n of some slots, which ones being free. -/
def takeSlots (draw : Nat → Nat) : Nat → List Nat → List Nat
  | 0, _ => []
  | n + 1, free =>
      let k := draw n % max 1 free.length
      free.getD k 0 :: takeSlots draw n (free.eraseIdx k)

/-- The free numbers that a placement draws on a core. -/
def State.slotDraw (s : State) (core n : Nat) : Nat := Config.freeNat (.choice (5000 + 64 * core + n)) s.free

/-- Ejects an ejected path of a group again, or brings it back to the core (R199). -/
def State.rejectPath (s : State) (gid pid : Nat) : State :=
  match s.exeOf gid pid with
  | none => s
  | some x => (x.upon s).reeject

/-- The same for all ejected paths of a group, those of a frozen context included. Until each finds its place, none of them holds
a gallery core. -/
def State.reject (s : State) (gid : Nat) : State :=
  s.onFrozen gid fun s =>
    let out := ((s.group gid).ctx.paths.filter fun p => p.2.place != .core).map Prod.fst
    let g := s.group gid
    let s := s.setGroup gid { g with ctx := g.ctx.mapPaths fun p => if p.place = .core then p else { p with place := .recalling 32 } }
    out.foldl (fun s pid => s.rejectPath gid pid) s

/-- The translations of the functions that a team's lanes have entered, for its new hall (R210, R220). -/
def State.retranslate (s : State) (l : Nat) (hall : Nat) (g : Group) (fns : List Nat) :
    Except Halt (State × List (Nat × Nat × Trans)) :=
  let x := s.launch l
  fns.foldlM (fun (q : State × List (Nat × Nat × Trans)) fn =>
    match q.1.graft x.enclave x.obj fn g.width (x.budget g.role) hall with
    | .error st => .error (.stop .code st)
    | .ok s =>
        match s.findTrans x.enclave x.obj fn g.width (x.budget g.role) hall with
        | none => .error (.ends stMismatch 0 0)
        | some t =>
            match t.2.fault with
            | some f => .error (.ends stTranslation f.1 f.2)
            | none => .ok (s.useTrans t.1, q.2 ++ [(fn, t)])) (s, [])

/-- A group from its records (R416): what the frame holds replaces what the model has kept, and its frames enter the new
translations. -/
def State.groupIn (s : State) (l hall : Nat) (map : List (Nat × Nat)) (tiles : List (List Byte)) (k : Nat × Group)
    (recs : List (Nat × List Byte)) : Except Halt (State × Group) := do
  let trap := s.trapFn (s.launch l)
  let exp := s.groupRecs k.2 ⟨trap, 0, fun _ _ => 0, fun _ _ _ => 0⟩
  frameOk (exp.length == recs.length && (exp.zip recs).all fun q => q.1.sameAs q.2)
  let bare := k.2.mapLanes (k.2.lanes.map Prod.fst) fun _ x => { x with frames := x.frames.map fun f => { f with vals := [] } }
  let g := (exp.zip recs).foldl (fun g q => g.load trap (accIn map tiles) q.1.ref q.2.2) bare
  let fns := ((g.ats trap).map fun a => a.frame.fn).eraseDups
  let (s, new) ← s.retranslate l hall g fns
  codeFits (s.groupFits trap new g)
  match g.reland trap new with
  | none => .error (.ends stMismatch 0 0)
  | some g =>
      let enter : Frame → Frame := fun f => { f with tr := (transFor new f.fn).1 }
      let g := g.mapLanes (g.lanes.map Prod.fst) fun _ x => { x with frames := x.frames.map enter }
      return (s, (g.mapPaths (Path.retile map)))

/-- Splits the records of a team's group section by group: each group's begin with its group record. -/
def byGroup : List (Nat × List Byte) → List (List (Nat × List Byte))
  | [] => []
  | r :: rest =>
      match byGroup rest with
      | [] => [[r]]
      | g :: gs => if (g.head?).any fun q => q.1 == 1 then [r] :: g :: gs else (r :: g) :: gs

/-- The flights that a group record names, one bit each. -/
def flightsIn (recs : List (Nat × List Byte)) : Nat := ((recs.head?).map fun r => fieldAt r.2 3 1).getD 0

/-- A restored group joins its team: on a slot of the new core, at the flights where it had arrived (R153). -/
def State.addGroup (s : State) (l t slot flights : Nat) (gid : Nat) (g : Group) : State :=
  let die := dieOf ((s.team t).core / 8)
  let x := s.launch l
  let fs := (List.range 8).foldl (fun m f =>
    if flights.testBit f then mset m (die, f) (((mget m (die, f)).getD []) ++ [gid]) else m) x.flights
  let s := s.setLaunch l { x with flights := fs }
  { s with groups := s.groups ++ [(gid, { g with slot := slot, stopped := false, held := false })] }

/-- Restores a team of a gang on a core (R416). The drain of a cutting may have ended meanwhile (R170). -/
def State.restoreTeam (l : Nat) (g : Gang) (hall : Nat) (s : State) (tc : Nat × Nat) : Except Halt State := do
  let t := tc.1
  let core := tc.2
  let kept := sortByKey (fun q => q.2.index) (g.kept.filter fun q => q.2.team == t)
  let live := (mget g.live t).getD 0
  let f ← s.readFrame t hall live
  let s := s.hwTouch (some core) (s.launch l).enclave (s.saveBase t) .engRead (leBytes f.len 0)
  let ops := s.ops.filter fun o => o.2.team == t && g.ops.contains o.1
  let parts := byGroup f.groups
  frameOk (parts.length == kept.length && f.engines.length == ops.length)
  let free := ((s.sweepTiles core) |> fun s => (List.range 32).filter fun k => (s.tile core k).isNone)
  let olds := f.tiles.map fun b => fieldAt b 0 2
  if free.length < olds.length then .error (.stop .engRead ⟨0, .moving⟩)
  let map := olds.zip free
  let (s, gs) ← (kept.zip parts).foldlM (fun (q : State × List (Nat × Group)) k => do
    let r ← q.1.groupIn l hall map f.tiles k.1 k.2
    return (r.1, q.2 ++ [(k.1.1, r.2)])) (s, [])
  let back ← (ops.zip f.engines).mapM fun o =>
    match { s with groups := s.groups ++ kept }.opIn o.1.2 o.2 with
    | some o' => Except.ok (o.1.1, o'.retile map)
    | none => .error (Halt.ends stBadFrame 0 0)
  let team := s.team t
  let x := s.launch l
  let s := s.sweepTiles core
  let tiles := (f.tiles.zip olds).map fun b =>
    let wait := (g.copies.find? fun c => c.1 == b.2 && ops.any fun o => o.1 == c.2.2).map fun c =>
      (tileKey core (newTile map c.2.1), c.2.2)
    (tileKey core (newTile map b.2), tileIn t wait b.1)
  let s : State := { s with
    ops := back.foldl (fun os o => mset os o.1 o.2) s.ops
    tiles := s.tiles ++ tiles }
  let s := s.setTeam t { team with
    core := core, resident := true, spad := writeBytes [] 0 f.spad
    bars := numbered x.nbar fun b => barIn (team.bar b) (section_ f.bars (24 * b) (24 * b + 24))
    slots := numbered 512 fun n => s.slotIn (team.slot n) (fieldAt f.slots (4 * n) 4) }
  let slots := takeSlots (s.slotDraw core) gs.length (s.freeSlots core)
  let s := ((gs.zip slots).zip parts).foldl (fun s q => s.addGroup l t q.1.2 (flightsIn q.2) q.1.1.1 q.1.1.2) s
  return (gs.map Prod.fst).foldl State.reject s

end Sys2Proof.Machine
end

