-- ==== Sys2Proof/Machine/Sched.lean ====
section
/-! DEFINITION. The events of scheduling: dispatch (R398, R432), placement and restore of gangs (R399, R416), retirement (R103,
R396), and the landing timer (R193, R194). -/

namespace Sys2Proof.Machine

/-- The launch statuses used here (R396): FLIGHT_UNPLACEABLE. -/
def stFlight : Nat := 0x0B
/-- DEP_FAILED. -/
def stDepFailed : Nat := 0x17

/-! Dispatch (R398, R432). -/

/-- What a DEP of a queue head comes to. -/
inductive DepOut where
  | ready | waits | failed
  | stops (st : Stop)
  deriving DecidableEq, Repr

/-- Reads the completion object that a DEP names. -/
def State.depRead (s : State) (e : Nat) (v : BitVec 64) : DepOut :=
  if v = 0 then .ready
  else
    match s.hwRead none e (v &&& ~~~31#64) .load 4 with
    | .error st => .stops st
    | .ok bs =>
        if fieldAt bs 2 1 ≠ 1 then .waits else if v.getLsbD 0 ∧ fieldAt bs 0 2 ≠ 0 then .failed else .ready

/-- The DEPs of a queue head together: one that has failed decides, then one that stops, then one that is not ready. -/
def State.depsOf (s : State) (l : Nat) : DepOut :=
  if s.waiting (.dep l) then .waits
  else
    let x := s.launch l
    let ds := [s.depRead x.enclave (x.dep 0), s.depRead x.enclave (x.dep 1)]
    if ds.contains .failed then .failed
    else
      match ds.find? fun d => d != .ready && d != .waits with
      | some d => d
      | none => if ds.contains .waits then .waits else .ready

/-- An access of the launch machinery for a launch that is not on cores stops (R432): it waits for a record, or a fatal fault ends
the launch; so does a window that is down (R159; assumption log 113). -/
def State.machineryStop (s : State) (l : Nat) (kind : AccessKind) (st : Stop) : State :=
  let s' := s.waitOn (s.launch l).enclave noCore kind (.dep l) st
  match st.found with
  | .fault f =>
      if f.kind.fatal then s'.endLaunch l (if f.kind = .integrity then 0x11 else 0x10) f.kind.num (st.va.setWidth 48) 0 else s'
  | .window .. => s'.endLaunch l stLinkKey 0 0 0
  | .ok .. | .moving | .search .. => s'

/-- Reads the DEPs of a queue head: a failed one completes it, and a read that faults waits. -/
def State.checkHead (s : State) (l : Nat) : State :=
  let x := s.launch l
  let look : State → Nat → State := fun s i =>
    if x.dep i = 0 then s else s.hwTouch none x.enclave (x.dep i &&& ~~~31#64) .load (leBytes 4 0)
  match s.depsOf l with
  | .ready | .waits => look (look s 0) 1
  | .failed => (look (look s 0) 1).endLaunch l stDepFailed 0 0 0
  | .stops st => s.machineryStop l .load st

/-- The queues of an enclave from one on, in round-robin order, with their heads. -/
def Enclave.heads (x : Enclave) : List (Nat × Nat) :=
  ((List.range 16).map fun k => (x.robin + k) % 16).filterMap fun q => ((x.queue q).head?).map fun l => (q, l)

/-- The ready head that dispatches first: of the highest priority, and among equals the first in round-robin order. -/
def State.nextHead (s : State) (e : Nat) : Option (Nat × Nat) :=
  let ready := (s.encl e).heads.filter fun h => s.depsOf h.2 == .ready
  let best := (ready.map fun h => (s.launch h.2).priority).foldl max 0
  ready.find? fun h => (s.launch h.2).priority == best

/-- The budgets of a launch's roles. -/
def Launch.budgets (l : Launch) : List Nat := ((List.range l.roles).map l.budget).eraseDups

/-- The kernel and the trap entry of a launch, once for each budget (R208, R209, R210). -/
def State.dispatchFns (s : State) (l : Nat) : List (Nat × Nat) :=
  let x := s.launch l
  (x.func :: (s.trapFn x).toList).flatMap fun fn => x.budgets.map fun b => (fn, b)

/-- Translates the functions that a launch starts with, for some halls. -/
def State.graftStart (s : State) (l : Nat) (halls : List Nat) : Except Stop State :=
  let x := s.launch l
  let jobs := halls.flatMap fun h => (s.dispatchFns l).map fun f => (h, f)
  jobs.foldlM (fun s j => s.graft x.enclave x.obj j.2.1 x.width j.2.2 j.1) s

/-- The translation fault of the functions that a launch starts with, if one has any (R211). -/
def State.startFault (s : State) (l : Nat) (halls : List Nat) : Option (Nat × BitVec 48) :=
  let x := s.launch l
  halls.findSome? fun h => (s.dispatchFns l).findSome? fun f =>
    (s.findTrans x.enclave x.obj f.1 x.width f.2 h).bind fun t => t.2.fault

/-- How many teams of a launch an empty core holds (R177). -/
def Launch.perCore (l : Launch) : Nat :=
  let n := l.need
  let by_ := fun (have_ each : Nat) => if each = 0 then 48 else have_ / each
  min (min (by_ 131072 n.regs) (by_ (384 * 1024) n.spad)) (min (by_ 48 n.groups) (by_ 64 n.bars))

/-- Can all teams of a launch with flights be resident at once in its empty partition (R151)? -/
def State.flightsFit (s : State) (l : Nat) : Bool :=
  let x := s.launch l
  x.nflight == 0 ||
    decide (x.teamCount ≤ (s.part (s.encl x.enclave).part).halls.length * (8 / x.gangSize) * x.gangSize * x.perCore)

/-- Dispatches a head of queue q: it leaves its queue, and its gangs wait for cores; a translation fault or flights that no
placement can hold end it, and no team starts. Code that cannot be read keeps it waiting. -/
def State.dispatch (s : State) (q l : Nat) : State :=
  let x := s.launch l
  let e := s.encl x.enclave
  let halls := (s.part e.part).halls
  match s.graftStart l halls with
  | .error st => s.machineryStop l .code st
  | .ok s =>
      let e := s.encl x.enclave
      let s := s.setEncl x.enclave { e with
        queues := mset e.queues q (e.queue q).tail, disp := mset e.disp q ((mget e.disp q).getD 0 + 1), robin := (q + 1) % 16 }
      let fresh : Gang := ⟨.waiting, 0, 0, 0, [], [], [], [], []⟩
      let s := s.setLaunch l { x with
        phase := .dispatched, dispatchNo := s.next, gangs := numbered (x.teamCount / x.gangSize) fun _ => fresh }
      let s : State := { s with next := s.next + 1 }
      match s.startFault l halls with
      | some f => s.endLaunch l stTranslation f.1 f.2 0
      | none => if s.flightsFit l then s.evictAll else s.endLaunch l stFlight 0 0 0

/-- LAUNCH_DISPATCH (R398): the DEPs of the enclave's queue heads are read, and the first of the ready heads dispatches. -/
def execLaunchDispatch (e : Nat) (s : State) : Host.Outcome State Fault Refusal :=
  .next <|
    let s := ((s.encl e).heads.map Prod.snd).foldl State.checkHead s
    match s.nextHead e with
    | none => s
    | some h => s.dispatch h.1 h.2

/-- DEP_READ_RESUME (R432): an access of the launch machinery whose record has closed is made again: the completion write of a
launch that has ended, or the DEP reads of a queue head. -/
def execDepReadResume (l : Nat) (s : State) : Host.Outcome State Fault Refusal :=
  .next <|
    match (s.launch l).phase with
    | .ended | .retired => if (mget s.launches l).isSome && !s.waiting (.done l) then s.writeDone l else s
    | .queued => s.checkHead l
    | .dispatched => s

/-! Placement (R399, R145, R178). -/

/-- A group of a team at its start: every lane at the kernel's entry in one core path, the mode word at reset (R297). -/
def State.startGroup (s : State) (l t k slot : Nat) : State :=
  let x := s.launch l
  let role := x.roleOf k
  let core := (s.team t).core
  match s.findTrans x.enclave x.obj x.func x.width (x.budget role) (core / 8) with
  | none => s
  | some (n, tr) =>
      let all := widthMask x.width
      let frame : Frame := ⟨x.func, n, 0, [], []⟩
      let g : Group :=
        ⟨t, k, role, slot, x.width, numbered x.width fun _ => ⟨[frame], none⟩, 0,
         ⟨[(0, Path.start tr.entry all modeReset [] none .core)], [], [], [], []⟩, none, all, 0x7FFE, 0, 1, false, false⟩
      let s : State := { s with groups := s.groups ++ [(s.next, g)], next := s.next + 1 }
      (s.bump x.enclave 0 core 1).useTrans n

/-- A team of a gang at its start on a core (R63, R145): scratchpad zero, barriers expecting every group. -/
def State.startTeam (l gang : Nat) (s : State) (mc : Nat × Nat) : State :=
  let x := s.launch l
  let t := s.next
  let team : Team :=
    ⟨l, gang * x.gangSize + mc.1, mc.1, mc.2, true, [], numbered x.nbar fun _ => Bar.start x.ngroups, [], 0, []⟩
  let slots := takeSlots (s.slotDraw mc.2) x.ngroups (s.freeSlots mc.2)
  let s := ({ s with next := t + 1 } : State).setTeam t team
  let g := s.gang l gang
  let s := s.setGang l gang { g with teams := g.teams ++ [t] }
  (slots.mapIdx fun k slot => (k, slot)).foldl (fun s k => s.startGroup l t k.1 k.2) s

/-- A gang starts on a block of a hall. -/
def State.startGang (s : State) (l gang hall block : Nat) : State :=
  let x := s.launch l
  let s := s.setGang l gang { s.gang l gang with state := .placed, hall := hall, block := block, teams := [] }
  ((List.range x.gangSize).map fun m => (m, x.coreAt hall block m)).foldl (State.startTeam l gang) s

/-- A pre-empted gang is restored on a block of a hall, all members at once (R416). -/
def State.restoreGang (s : State) (l gang hall block : Nat) : Except Halt State := do
  let x := s.launch l
  let g := s.gang l gang
  let s ← (g.teams.map fun t => (t, x.coreAt hall block (s.team t).member)).foldlM (State.restoreTeam l g hall) s
  return s.setGang l gang { s.gang l gang with state := .placed, hall := hall, block := block, kept := [], copies := [], live := [], ops := [] }

/-- Places a gang that waits for cores: it starts, or is restored. -/
def State.putGang (s : State) (l gang hall block : Nat) : Except Halt State :=
  match (s.gang l gang).state with
  | .waiting => .ok (s.startGang l gang hall block)
  | .saved => s.restoreGang l gang hall block
  | .placed | .stopping | .finished => .ok s

/-- Is it a gang's turn to be placed on a block of a hall (R399, R402)? -/
def State.mayPlace (s : State) (l gang hall block : Nat) : Bool :=
  let x := s.launch l
  x.phase == .dispatched && s.timeFor x.enclave hall && s.nextOn x.enclave hall == some (l, gang) &&
    (s.placesFor l gang hall).contains (hall, block) && !s.waiting (.dep l)

/-- What follows from a placement that the launch's frames or code do not let pass. -/
def State.haltPlace (s : State) (l : Nat) : Halt → State
  | .ends st d a => s.endLaunch l st d a 0
  | .stop kind st => s.machineryStop l kind st

/-- Places a gang, and with it the rest of a launch with flights. -/
def State.place (s : State) (l gang hall block : Nat) : State :=
  let s := ((s.part (s.encl (s.launch l).enclave).part).halls).foldl State.elapsed s
  match s.planWith l gang hall block with
  | none => s
  | some plan =>
      match plan.foldlM (fun s p => s.putGang l p.1 p.2.1 p.2.2) s with
      | .error h => s.haltPlace l h
      | .ok s => (s.finishGangs l).evictAll

/-- GANG_PLACE (R399): the next gang in the order of placement starts on a block that can admit it. Where its translations have
been invalidated meanwhile, they are made afresh (R218). -/
def execGangPlace (l gang hall block : Nat) (s : State) : Host.Outcome State Fault Refusal :=
  .next <|
    if s.mayPlace l gang hall block = false ∨ (s.gang l gang).state ≠ .waiting then s
    else
      let halls := if (s.launch l).nflight = 0 then [hall] else (s.part (s.encl (s.launch l).enclave).part).halls
      match s.graftStart l halls with
      | .error st => s.machineryStop l .code st
      | .ok s =>
          match s.startFault l halls with
          | some f => s.endLaunch l stTranslation f.1 f.2 0
          | none => s.place l gang hall block

/-- GANG_RESTORE (R416): the oldest pre-empted gang that can be admitted is restored on a block. -/
def execGangRestore (l gang hall block : Nat) (s : State) : Host.Outcome State Fault Refusal :=
  .next <|
    if s.mayPlace l gang hall block = false ∨ (s.gang l gang).state ≠ .saved then s else s.place l gang hall block

/-! Retirement (R103, R396). -/

/-- LAUNCH_RETIRE (R103): every lane has executed EXIT and every operation has completed, drains of cuttings too (R170); the
seal records are written, then the completion object. -/
def execLaunchRetire (l : Nat) (s : State) : Host.Outcome State Fault Refusal :=
  .next <|
    let x := s.launch l
    let draining := s.cuts.any fun c => c.2.launch == l && c.2.copied && !c.2.ended
    if x.phase ≠ .dispatched ∨ draining ∨ x.gangs.all (fun g => g.2.state == .finished) = false then s
    else
      let s := (s.setLaunch l { x with phase := .retired, status := 0 }).writeSeals l true 0
      (s.vacate l).writeDone l

/-! The landing timer (R193, R194). -/

/-- The lanes that wait at a landing take JOIN_TIMEOUT at its JOIN (R193, R194). They keep their arrival, and the landing,
should the last lanes arrive while the handler runs, awaits their return. -/
def State.joinTimeout (s : State) (gid : Nat) (r : LandRec) : State :=
  let g := s.group gid
  let team := s.team g.team
  let l := s.launch team.launch
  let t : TrapInfo := ⟨6, r.arrived, 0, (lanesOf r.arrived).map fun l => (l, [])⟩
  let p := Path.start r.join r.arrived (modeMerge r.modes) (r.uid :: r.outer) none .core
  let s' := s.setGroup gid { g with ctx := g.ctx.setRcd { r with timer := false, away := true } }
  s'.takeTrapOr gid (r.waits.headD g.fresh) p t fun fn =>
    s.askTrans l.enclave l.obj fn g.width (l.budget g.role) (team.core / 8)

/-- LANDING_TIMER_EXPIRY (R193): 1,024 × T_join cycles after the first arrival, the waiting paths park, or with the watchdog
take JOIN_TIMEOUT. -/
def execLandingTimerExpiry (g r : Nat) (s : State) : Host.Outcome State Fault Refusal :=
  .next <|
    let x := s.group g
    match x.ctx.rcd r with
    | none => s
    | some q =>
        if !q.timer || x.handler.isSome || x.stopped then s
        else if (s.launch (s.team x.team).launch).watchdog then s.joinTimeout g q
        else s.setGroup g { x with ctx := x.ctx.setRcd { q with timer := false } }

end Sys2Proof.Machine
end

