-- ==== Sys2Proof/Machine/Enclaves.lean ====
section
/-! DEFINITION. Enclaves: their lifecycle (R24 to R30), their CPU threads (R52, R390), reports (R391), ENC.XCTL (R392), the kick
registers (R397), and the ordinary accesses of general cores (R39, R40, R119). -/

namespace Sys2Proof.Machine

/-! Measurement (R29). -/

/-- The measurement extended with a record. -/
def extend (m : BitVec 384) (r : List Byte) : BitVec 384 := sha384 (bvBytes 48 m ++ r)

/-- The CREATE record: its name, the attribute word and the partition index. -/
def createRecord (attr part : Nat) : List Byte := [0x43, 0x52, 0x45, 0x41, 0x54, 0x45, 0, 0] ++ leBytes 8 attr ++ leBytes 8 part

/-- The ADDPAGE record: its name, the page's address and the digest of its content. -/
def addpageRecord (vpn : Nat) (bs : List Byte) : List Byte :=
  [0x41, 0x44, 0x44, 0x50, 0x41, 0x47, 0x45, 0] ++ leBytes 8 (vpn * 4096) ++ bvBytes 48 (sha384 bs)

/-- The MEASURE record. -/
def measureRecord : List Byte := [0x4D, 0x45, 0x41, 0x53, 0x55, 0x52, 0x45, 0]

/-! The lifecycle. -/

/-- The first identifier from a number on, cyclically among 1 to 65,535, that no enclave holds (R24); the fuel counts those held. -/
def nextEncl (used : List Nat) : Nat → Nat → Nat
  | 0, e => e
  | n + 1, e => if used.contains e then nextEncl used n (e % 65535 + 1) else e

/-- The first free key slot (R25). -/
def freeSlotIn (used : List Nat) : Option Nat := ((List.range 4095).map (· + 1)).find? fun k => !used.contains k

/-- An enclave in BUILDING (R28, R397, R401). -/
def newEnclave (part root slot keys : Nat) : Enclave :=
  { state := .building, part := part, root := BitVec.ofNat 40 root, keySlot := slot, gen := 0, h := 0,
    m := extend 0 (createRecord 0 part), keyMem := keys, keyPrev := none, keyPage := keys + 3, keyScr := keys + 4, seq := 0,
    queues := [], disp := [], robin := 0, weight := 1, counters := [], monitors := [], handles := [], threads := [],
    pageKeyed := true }

/-- ENC_CREATE (R28, R29). -/
def execEncCreate (rd rs1 rs2 : BitVec 5) (s : State) : Host.Outcome State Fault Refusal :=
  asOs s fun h p x =>
    let a := (x.reg rs1).toNat
    let refuse := fun st => s.answer h rd st 0
    if bitsOf a 63 40 ≠ 0 then refuse enBadOperand
    else
      match freeSlotIn (s.encls.map fun e => e.2.keySlot) with
      | none => refuse enNoKeySlot
      | some slot =>
          if s.osFrame p a = false then refuse enBadRoot
          else if x.reg rs2 ≠ 0 then refuse enBadAttr
          else
            let used := s.encls.map Prod.fst
            let e := nextEncl used used.length (Config.freeNat (.choice 4002) s.free % 65535 + 1)
            let s : State := { s with encls := mset s.encls e (newEnclave p a slot s.keys), keys := s.keys + 5 }
            s.answer h rd enOK e

/-- ENC_ADDPAGE (R28, R31): the source is read before a frame is drawn. -/
def execEncAddpage (rd rs1 rs2 : BitVec 5) (s : State) : Host.Outcome State Fault Refusal :=
  asOs s fun h p x =>
    let a := (x.reg rs1).toNat
    let n := bitsOf a 63 48
    let src := bitsOf a 39 0
    let vpn := bitsOf (x.reg rs2).toNat 35 0
    match s.enclIn p n with
    | none => s.answer h rd enBadOperand 0
    | some e =>
        if bitsOf a 47 40 ≠ 0 then s.answer h rd enBadOperand 0
        else if e.state ≠ .building then s.answer h rd enBadState 0
        else if s.osFrame p src = false ∨ (s.potOf src).poison then s.answer h rd enBadSource 0
        else if s.searched (src * 4096) 4096 then s
        else
          let s' := s.settle false (src * 4096) 4096
          if s'.masked (src * 4096) 4096 then s'.answer h rd enBadSource 0
          else if s'.vpnHeld n vpn then s'.answer h rd enVpnInUse 0
          else if e.h.toNat = maxH then s'.answer h rd enVersion 0
          else
            let bs := readBytes s'.mem (src * 4096) 4096
            s'.draw s h p rd fun s f =>
              let s := s.ownFrame f n vpn (e.h.toNat + 1) e.gen true bs
              (s.setEncl n { e with h := e.h + 1, m := extend e.m (addpageRecord vpn bs) }).answer h rd enOK f

/-- ENC_MEASURE (R28, R29). -/
def execEncMeasure (rd rs1 : BitVec 5) (s : State) : Host.Outcome State Fault Refusal :=
  asOs s fun h p x =>
    let a := (x.reg rs1).toNat
    match s.enclIn p a with
    | none => s.answer h rd enBadOperand 0
    | some e =>
        if e.state ≠ .building then s.answer h rd enBadState 0
        else (s.setEncl a { e with state := .measured, m := extend e.m measureRecord }).answer h rd enOK 0

/-- The frames and tombstone slots of an enclave go: frames through MOVING, slots to FREE (R28). -/
def State.freePages (s : State) (e : Nat) : State :=
  s.pot.foldl (fun s q =>
    if q.2.owner.toNat ≠ e then s
    else if q.2.state = .owned then s.freeFrame q.1
    else if q.2.state = .paged then s.freeSlot q.1
    else s) s

/-- The pending fault records of an enclave are discarded (R28); a completion write that waited on one is abandoned. -/
def State.discardFaults (s : State) (part e : Nat) : State :=
  let p := s.part part
  let s := s.setPart part { p with
    recs := p.recs.filter fun r => r.2.enclave != e || r.2.kind.fatal, queue := p.queue.filter fun r => r.enclave != e }
  let s : State := { s with launches := s.launches.map fun l =>
    if l.2.enclave == e && !l.2.written then (l.1, { l.2 with abandoned := true }) else l }
  s.admitFaults part p.queue.length

/-- Is a CPU thread inside of an enclave? -/
def State.inhabited (s : State) (e : Nat) : Bool := s.harts.any fun h => h.2.inside.any fun n => n.enclave == e

/-- The launch status DESTROYED (R396). -/
def stDestroyed : Nat := 0x15

/-- ENC_DESTROY (R28, R170). -/
def execEncDestroy (rd rs1 : BitVec 5) (s : State) : Host.Outcome State Fault Refusal :=
  asOs s fun h p x =>
    let a := (x.reg rs1).toNat
    match s.enclIn p a with
    | none => s.answer h rd enBadOperand 0
    | some e =>
        if e.state ≠ .building ∧ e.state ≠ .measured then s.answer h rd enBadState 0
        else if s.inhabited a then s.answer h rd enBusy 0
        else
          let mine := (s.launches.filter fun l => l.2.enclave == a).map Prod.fst
          let s := mine.foldl (fun s l => s.endLaunch l stDestroyed 0 0 0) s
          let s := ((s.freePages a).discardFaults p a)
          (s.setEncl a { s.encl a with state := .dying }).answer h rd enOK 0

/-- ENCLAVE_RELEASE (R30): an enclave in DYING whose frames have left MOVING and whose slots are FREE returns to NONE; everything
on chip that is of its world goes. -/
def execEnclaveRelease (e : Nat) (s : State) : Host.Outcome State Fault Refusal :=
  .next <|
    let left := s.pot.any fun q => q.2.owner.toNat == e && (q.2.state == .moving || q.2.state == .paged || q.2.state == .owned)
    if (s.encl e).state ≠ .dying ∨ left then s
    else { s with
      encls := mdel s.encls e
      l2 := s.l2.filter fun l => l.world != e
      coreLines := s.coreLines.filter fun c => c.world != e
      pathMons := mdel s.pathMons (8 + e)
      walks := s.walks.filter fun w => w.2.1 != e
      tlb := s.tlb.filter fun t => t.enclave != e
      trans := s.trans.filter fun t => t.2.enclave != e
      building := s.building.filter fun b => b.2.enclave != e
      objs := s.objs.filter fun o => o.2.enclave != e
      launches := s.launches.filter fun l => l.2.enclave != e
      streams := s.streams.filter fun t => t.2.enclave != e
      ides := s.ides.filter fun d => d.2.enclave != e
      colls := s.colls.filter fun c => c.2.enclave != e
      holders := s.holders.filter fun q => q.2.1 != e
      deficits := s.deficits.filter fun d => d.1.2 != e }

/-! CPU threads (R390). -/

/-- ENC_ENTER (R390): the general core takes a thread's registers; its result comes when the thread executes ENC.EXIT. -/
def execEncEnter (rd rs1 : BitVec 5) (s : State) : Host.Outcome State Fault Refusal :=
  asOs s fun h p x =>
    let a := (x.reg rs1).toNat
    let n := bitsOf a 15 0
    let t := bitsOf a 21 16
    match s.enclIn p n with
    | none => s.answer h rd enBadOperand 0
    | some e =>
        let y := e.thread t
        if bitsOf a 63 22 ≠ 0 then s.answer h rd enBadOperand 0
        else if e.state ≠ .measured then s.answer h rd enBadState 0
        else if y.dead then s.answer h rd enThreadDead 0
        else if s.harts.any fun q => q.2.inside.any fun i => i.enclave == n && i.thread == t then s.answer h rd enBusy 0
        else
          let regs := if y.started then y.regs else [(10, BitVec.ofNat 64 t)]
          let pc := if y.started then y.pc else 0x1000
          let s := s.setEncl n (e.setThread t { y with started := true })
          s.setHart h { x with
            regs := regs, pc := pc, mode := .u, more := y.more, inside := some ⟨n, t, x.pc, rd, x.regs, x.more⟩ }

/-- ENC_EXIT (R390): the thread is sealed behind its ENC.EXIT, and its ENC.ENTER completes with the exit value. -/
def execEncExit (rd rs1 : BitVec 5) (s : State) : Host.Outcome State Fault Refusal :=
  asThread s fun h _ x n =>
    let v := (x.reg rs1).toNat
    if bitsOf v 63 48 ≠ 0 then s.answer h rd enBadOperand 0
    else (s.leave h n (x.pc + 4)).answer h n.rd enOK v

/-- ENCLAVE_THREAD_INTERRUPT (R390): a thread leaves its enclave, and the interrupt is taken at its ENC.ENTER. -/
def execEnclaveThreadInterrupt (h : Nat) (cause : BitVec 64) (s : State) : Host.Outcome State Fault Refusal :=
  .next (if (s.hart h).inside.isNone then s else s.hartInterrupt h cause)

/-! Reports (R391). -/

/-- A report's bytes before its signature. -/
def reportBody (alg : Bool) (e : Nat) (x : Enclave) (data : List Byte) : List Byte :=
  leBytes 4 0x5A525250 ++ leBytes 1 alg.toNat ++ bvBytes 1 x.gen ++ leBytes 2 e ++ leBytes 1 x.part ++ leBytes 7 0 ++
    bvBytes 48 x.m ++ data ++ leBytes 4 (sigLen alg) ++ leBytes 12 0

/-- The device attestation key's number. -/
def attestKey : Nat := 0

/-- A report, with zeros behind its signature. -/
def reportOf (alg : Bool) (e : Nat) (x : Enclave) (data : List Byte) : List Byte :=
  let body := reportBody alg e x data
  padTo 4096 (body ++ (List.range (sigLen alg)).map fun i => Config.signature attestKey alg body i)

/-- The enclave under a fresh memory key (R26). -/
def Enclave.rekeyed (x : Enclave) (key : Nat) : Enclave := { x with gen := x.gen + 1, keyPrev := some x.keyMem, keyMem := key }

/-- The step of ENC.REPORT: data and output are translated as the thread's own accesses, then the re-key, if any, is made, and the
report written. -/
def report (rekey : Bool) (rd rs1 rs2 : BitVec 5) (s : State) : Host.Outcome State Fault Refusal :=
  asThread s fun h _ x n =>
    let a := x.reg rs1
    let out := x.reg rs2
    let e := s.encl n.enclave
    if bitsOf a.toNat 5 1 ≠ 0 ∨ out.toNat % 4096 ≠ 0 then s.answer h rd enBadOperand 0
    else if e.state ≠ .measured then s.answer h rd enBadState 0
    else if rekey && s.oldFrames n.enclave then s.answer h rd enRekeyBusy 0
    else
      s.threadAccess h n.enclave (a &&& ~~~0x3F#64) .load 64 fun ps =>
        s.threadAccess h n.enclave out .store 4096 fun qs =>
          s.behindWindow h n.enclave a .load ps <| s.behindWindow h n.enclave out .store qs <|
            let (s, data) := s.placeRead n.enclave 64 ps
            let e := if rekey then (s.encl n.enclave).rekeyed s.keys else s.encl n.enclave
            let s : State := (if rekey then { s with keys := s.keys + 3 } else s : State).setEncl n.enclave e
            let s := s.dropOldKey n.enclave
            (s.placeWrite n.enclave qs (reportOf (a.getLsbD 0) n.enclave e data)).answer h rd enOK e.gen.toNat

/-- ENC_REPORT (R391). -/
def execEncReport (rd rs1 rs2 : BitVec 5) (s : State) : Host.Outcome State Fault Refusal := report false rd rs1 rs2 s
/-- ENC_REPORT_RK (R26, R391). -/
def execEncReportRk (rd rs1 rs2 : BitVec 5) (s : State) : Host.Outcome State Fault Refusal := report true rd rs1 rs2 s

/-! ENC.XCTL (R392). -/

/-- The widths and budgets that an enclave's launches translate for. -/
def State.formsOf (s : State) (e : Nat) : List (Nat × Nat) :=
  ((s.launches.filter fun l => l.2.enclave == e && (l.2.phase == .queued || l.2.phase == .dispatched)).flatMap fun l =>
    l.2.budgets.map fun b => (l.2.width, b)).eraseDups

/-- The step of ENC.XCTL: a form of XCTL for every core of the partition. -/
def encXctl (form : XctlForm) (rd rs1 rs2 : BitVec 5) (s : State) : Host.Outcome State Fault Refusal :=
  asThread s fun h p x n =>
    let base := x.reg rs1
    let len := bitsOf (x.reg rs2).toNat 30 0
    if canonical base = false then s.answer h rd enBadOperand 0
    else if len = 0 then s.answer h rd enOK 0
    else
      let cores := (s.part p).halls.flatMap fun k => (List.range 8).map (8 * k + ·)
      match s.xctl n.enclave cores none (s.formsOf n.enclave) (low48 base, len) form with
      | .error st => s.threadStop h .code st
      | .ok (s, ok) => s.answer h rd (if ok then enOK else enPinFull) 0

/-- ENC_XCTL_INV (R392). -/
def execEncXctlInv (rd rs1 rs2 : BitVec 5) (s : State) : Host.Outcome State Fault Refusal := encXctl .inv rd rs1 rs2 s
/-- ENC_XCTL_PF_CORE (R392). -/
def execEncXctlPfCore (rd rs1 rs2 : BitVec 5) (s : State) : Host.Outcome State Fault Refusal := encXctl .pf rd rs1 rs2 s
/-- ENC_XCTL_PF_HALL (R392). -/
def execEncXctlPfHall (rd rs1 rs2 : BitVec 5) (s : State) : Host.Outcome State Fault Refusal := encXctl .pf rd rs1 rs2 s
/-- ENC_XCTL_PIN_CORE (R392). -/
def execEncXctlPinCore (rd rs1 rs2 : BitVec 5) (s : State) : Host.Outcome State Fault Refusal := encXctl (.pin false) rd rs1 rs2 s
/-- ENC_XCTL_PIN_HALL (R392). -/
def execEncXctlPinHall (rd rs1 rs2 : BitVec 5) (s : State) : Host.Outcome State Fault Refusal := encXctl (.pin true) rd rs1 rs2 s
/-- ENC_XCTL_UNPIN_CORE (R392). -/
def execEncXctlUnpinCore (rd rs1 rs2 : BitVec 5) (s : State) : Host.Outcome State Fault Refusal :=
  encXctl (.unpin false) rd rs1 rs2 s
/-- ENC_XCTL_UNPIN_HALL (R392). -/
def execEncXctlUnpinHall (rd rs1 rs2 : BitVec 5) (s : State) : Host.Outcome State Fault Refusal :=
  encXctl (.unpin true) rd rs1 rs2 s

/-! Kick registers (R397). -/

/-- A CPU thread's write to KICK(q): the launch is accepted, or the queue is full, or bits [6:0] are not zero and the kick is
ignored. `rd` takes 0, 1 or 2. A fault of a read is a fault of the thread's store, and nothing is enqueued. -/
def State.kick (s : State) (h e q : Nat) (v : BitVec 64) (rd : BitVec 5) : State :=
  if bitsOf v.toNat 6 0 ≠ 0 then s.retire h rd 2
  else
    match s.accept none e q v with
    | .error st => s.threadStop h .store st
    | .ok (s, r) => s.retire h rd (BitVec.ofNat 64 r)

/-- KICK (R397). -/
def execKick (h q : Nat) (v : BitVec 64) (rd : Option (BitVec 5)) (s : State) : Host.Outcome State Fault Refusal :=
  .next <|
    let x := s.hart h
    match x.inside with
    | none => s
    | some n => if x.inReset || x.wait != .nothing || decide (16 ≤ q) then s else s.kick h n.enclave q v (rd.getD 0)

/-- QSTAT(q) (R397). -/
def Enclave.qstat (x : Enclave) (q : Nat) : BitVec 64 :=
  BitVec.ofNat 64 (((mget x.disp q).getD 0).toNat * 2 ^ 32 + (x.queue q).length % 2 ^ 7)

/-! Ordinary accesses. -/

/-- The length of an access. -/
def accSize : HartAccess → Nat
  | .load n _ _ | .store n _ | .amo _ n _ _ _ _ | .lr n _ _ _ | .sc n _ _ _ _ => n
  | .fence .. | .fenceTso => 0
  | .fetch => 4

/-- The kind of an access (R40). -/
def accKind : HartAccess → AccessKind
  | .load .. | .lr .. | .fence .. | .fenceTso => .load
  | .store .. => .store
  | .amo .. | .sc .. => .atomic
  | .fetch => .code

/-- A value of n bytes as a register takes it. -/
def extendTo (n : Nat) (signed : Bool) (v : Nat) : BitVec 64 :=
  if signed then BitVec.ofInt 64 (signedOf (8 * n) v) else BitVec.ofNat 64 (v % 2 ^ (8 * n))

/-- What an AMO of n bytes writes, from the value in memory and its register. -/
def amoResult (op : AmoOp) (n a b : Nat) : Nat :=
  let sa := signedOf (8 * n) a
  let sb := signedOf (8 * n) b
  let ub := b % 2 ^ (8 * n)
  match op with
  | .swap => ub
  | .add => (a + ub) % 2 ^ (8 * n)
  | .and => Nat.land a ub
  | .or => Nat.lor a ub
  | .xor => Nat.xor a ub
  | .min => if sa ≤ sb then a else ub
  | .max => if sb ≤ sa then a else ub
  | .minu => min a ub
  | .maxu => max a ub

/-- Performs an access on local pieces of memory, through the general core's cache (R68): registers and memory change, and the
general core goes on. -/
def State.perform (s : State) (h : Nat) (ps : List (Nat × Nat × Nat)) (a : HartAccess) : State :=
  let x := s.hart h
  let old := leNat (s.readPieces ps)
  let pa := (ps.head?.map fun p => p.1).getD 0
  let held := mget s.resv h = some (pa, accSize a)
  let s := s.coreTouches h (match a with
    | .store .. | .amo .. => true
    | .sc .. => held
    | .load .. | .lr .. | .fence .. | .fenceTso | .fetch => false) ps
  match a with
  | .load n signed rd => s.retire h rd (extendTo n signed old)
  | .store n rs => (s.writePieces ps (leBytes n (x.reg rs).toNat)).retire h 0 0
  | .amo op n rs rd _ _ =>
      (s.writePieces ps (leBytes n (amoResult op n old (x.reg rs).toNat))).retire h rd (extendTo n true old)
  | .lr n rd _ _ => ({ s with resv := mset s.resv h (pa, n) } : State).retire h rd (extendTo n true old)
  | .sc n rs rd _ _ =>
      let s : State := { s with resv := mdel s.resv h }
      if held then (s.writePieces ps (leBytes n (x.reg rs).toNat)).retire h rd 0 else s.retire h rd 1
  | .fence .. | .fenceTso => s.retire h 0 0
  | .fetch => s

/-- The register or registers of the kick page that an offset names (R397). -/
def State.kickAccess (s : State) (h e off : Nat) (a : HartAccess) : State :=
  let x := s.hart h
  let fault := s.hartTrap h (accessCause (accKind a)) (BitVec.ofNat 64 off)
  let q := off / 16
  let kick := off % 16 = 0
  if 0x100 ≤ off ∨ off % 8 ≠ 0 ∨ accSize a ≠ 8 then fault
  else
    match a with
    | .load _ _ rd => s.retire h rd (if kick then 0 else (s.encl e).qstat q)
    | .store _ rs => if kick then s.kick h e q (x.reg rs) 0 else s.retire h 0 0
    | .amo op _ rs rd _ _ => if kick ∧ op = .swap then s.kick h e q (x.reg rs) rd else fault
    | .lr .. | .sc .. | .fence .. | .fenceTso | .fetch => fault

/-- The ATOM operation of an atomic of RISC-V (R333). -/
def amoAtom : AmoOp → Nat
  | .add => 0 | .and => 1 | .or => 2 | .xor => 3 | .min => 4 | .max => 5 | .minu => 6 | .maxu => 7 | .swap => 8

/-- The bytes that a CPU thread's access sends through a window, and the atomic that it asks for there. -/
def Hart.sent (x : Hart) (a : HartAccess) : List Byte × Option AtomAsk :=
  match a with
  | .store n rs | .sc n rs _ _ _ => (leBytes n (x.reg rs).toNat, none)
  | .amo op n rs _ _ _ => (leBytes n 0, some ⟨amoAtom op, if n = 4 then .i32 else .i64, 0, (x.reg rs).toNat % 2 ^ (8 * n), 0⟩)
  | .load n .. | .lr n .. => (leBytes n 0, none)
  | .fence .. | .fenceTso => ([], none)
  | .fetch => (leBytes 4 0, none)

/-- A CPU thread's access is complete with what the far end has answered. Whether a store-conditional has stored is free. -/
def State.farRetire (s : State) (h : Nat) (a : HartAccess) (bs : List Byte) : State :=
  match a with
  | .load n signed rd => s.retire h rd (extendTo n signed (leNat bs))
  | .store .. => s.retire h 0 0
  | .amo _ n _ rd _ _ | .lr n rd _ _ => s.retire h rd (extendTo n true (leNat bs))
  | .sc _ _ rd _ _ => s.retire h rd (BitVec.ofNat 64 (Config.freeNat (.window 0) s.free % 2))
  | .fence .. | .fenceTso => s.retire h 0 0
  | .fetch => s

/-- A CPU thread's access through a window (R67): it is sent as one request, and the core waits for the answer. Behind a window that
is down it is an access fault (R159 gives the outcome only for launches; assumption log 51). -/
def State.farPerform (s : State) (h : Nat) (n : Inside) (va : BitVec 64) (ps : List (Found × Nat)) (a : HartAccess) : State :=
  let x := s.hart h
  let w := windowIn ps
  match x.answer with
  | some bs => s.farRetire h a bs
  | none =>
      if s.windowUp n.enclave w = false then s.hartTrap h (accessCause (accKind a)) va
      else if s.asked (.hart h) || s.windowWaits n.enclave w then s
      else
        s.sendFar n.enclave w (windowAddr ps) (low48 va / 4096) (.hart h) (accKind a).writes (x.sent a).1 (x.sent a).2

/-- An access of an enclave CPU thread. -/
def State.threadStep (s : State) (h : Nat) (n : Inside) (va : BitVec 64) (a : HartAccess) : State :=
  if va.toNat < 4096 then s.kickAccess h n.enclave va.toNat a
  else
    s.threadAccess h n.enclave va (accKind a) (accSize a) fun ps =>
      match localPieces ps with
      | some qs => s.perform h qs a
      | none => s.farPerform h n va ps a

/-- An access of the operating system to its register page, whole registers at a time. -/
def State.pageAccess (s : State) (h part off : Nat) (a : HartAccess) : State :=
  let fault := s.hartTrap h (accessCause (accKind a)) (BitVec.ofNat 64 (Config.registerBase part + off))
  if off % 8 ≠ 0 ∨ accSize a ≠ 8 then fault
  else
    match a with
    | .load _ _ rd => s.retire h rd (s.readReg part off)
    | .store _ rs => (s.writeReg part off ((s.hart h).reg rs)).retire h 0 0
    | .amo .. | .lr .. | .sc .. | .fence .. | .fenceTso | .fetch => fault

/-- An access of the operating system to memory, at the physical address that its own page tables produced (R39, R84). -/
def State.osStep (s : State) (h part : Nat) (pa : Nat) (a : HartAccess) : State :=
  match s.osCheck part (accKind a).writes pa (accSize a) with
  | .fault => s.hartTrap h (accessCause (accKind a)) (BitVec.ofNat 64 pa)
  | .wait => s.startSearch pa (accSize a)
  | .ok => s.perform h [(pa, 0, accSize a)] a

/-- Is a size one of RISC-V's accesses? -/
def accSized (a : HartAccess) : Bool := accSize a == 1 || accSize a == 2 || accSize a == 4 || accSize a == 8

/-- Is an access a fence? -/
def isFence : HartAccess → Bool
  | .fence .. | .fenceTso => true
  | _ => false

/-- An access of a general core. Outside an enclave, an address in the partition's own register page names its registers (R20); any
other that is not a frame of the operating system's faults (R39). -/
def State.hartAccess (s : State) (h part : Nat) (va : BitVec 64) (a : HartAccess) : State :=
  match (s.hart h).inside with
  | some n => s.threadStep h n va a
  | none =>
      let base := Config.registerBase part
      if base ≤ va.toNat ∧ va.toNat < base + 4096 then s.pageAccess h part (va.toNat - base) a
      else s.osStep h part va.toNat a

/-- RISCV_LOAD_STORE (R39, R40, R52, R84, R119, R397). A fence, and the aq and rl bits of an atomic, order accesses (`Order`): the
machine performs one access at a time (assumption log 12), and a fence only goes on. -/
def execRiscvLoadStore (h : Nat) (va : BitVec 64) (a : HartAccess) (s : State) : Host.Outcome State Fault Refusal :=
  .next <|
    let x := s.hart h
    match s.partOf h with
    | none => s
    | some part =>
        if x.inReset || x.wait != .nothing then s
        else if isFence a then s.retire h 0 0
        else if accSized a then s.hartAccess h part va a
        else s

end Sys2Proof.Machine
end

