-- ==== Sys2Proof/Machine/Progress.lean ====
section
/-! DEFINITION. The progress and the completion of engine operations (R121, R129, R132, R149). -/

namespace Sys2Proof.Machine

/-- May step i of an operation be performed: it is not done, the operation is incomplete, its team on a core, its access waits
on no record, and its core, where its engine is one of the core's, is not stalled (R45)? A copy or gather that is to stop only ends
the steps that it has started (R410). -/
def State.mayLand (s : State) (k : Nat) (o : EngOp) (i : Nat) : Bool :=
  let t := s.team o.team
  o.status == futPending && decide (i < o.total) && !o.did i && t.resident && !s.waiting (.eng k) &&
    (!o.cancel || decide (2 ≤ o.cls) || decide (i < o.started)) && (decide (3 ≤ o.cls) || !s.coreStalled t.core) && !s.replayLater t.core (.eng k)

/-- Performs step i of an operation of its class. -/
def State.performStep (s : State) (k : Nat) (o : EngOp) (i : Nat) : State :=
  match o.cls with
  | 0 => s.stepOp k i o (if o.sub % 8 < 4 then s.linearStep k o i else s.tensorStep k o i)
  | 1 => s.stepOp k i o (if o.sub % 8 = 1 then s.scatterStep k o i else s.gatherStep k o i)
  | 2 => s.matrixStep k o i
  | 3 => s.collStep k o i
  | 4 => s.sealStep k o i
  | _ => s

/-- ENGINE_GRANULE_LAND (R121, R149): granule, row or step i of an operation is performed, and its bytes count on its barrier. -/
def execEngineGranuleLand (op i : Nat) (s : State) : Host.Outcome State Fault Refusal :=
  .next <|
    match mget s.ops op with
    | none => s
    | some o =>
        let core := (s.team o.team).core
        let (s, o) := s.beginRows op o
        if s.mayLand op o i = false then s
        else if o.cls < 3 && s.coreErrs.contains core then s.arrayFault core
        else ((s.replayed (.eng op)).coreRead core).performStep op o i

/-- A requested stop takes effect between two steps (R135). -/
def State.cancelNow (s : State) (k : Nat) (o : EngOp) : State :=
  if o.cls = 2 then s.matrixCancel k o else if o.settled then s.finishOp k futCancelled else s

/-- The status of an operation whose steps are all done (R133, R144). -/
def EngOp.final (o : EngOp) : BitVec 8 := if o.clipped then futClipped else futOK

/-- ENGINE_OP_COMPLETE (R132): an operation whose steps are all done completes, one whose stop was asked for is cancelled, and a
collective ends as its meeting does. Combined futures and cuttings complete with what they stand for. -/
def execEngineOpComplete (op : Nat) (s : State) : Host.Outcome State Fault Refusal :=
  .next <|
    match mget s.ops op with
    | none => s
    | some o =>
        if o.status ≠ futPending ∨ (s.team o.team).resident = false ∨ s.waiting (.eng op) ∨ 5 ≤ o.cls then s
        else if o.cls = 3 then s.collFinish op o
        else if o.cancel then s.cancelNow op o
        else if (List.range o.total).all o.did && (o.cls != 2 || s.mayRun op o) then s.finishOp op o.final
        else s

end Sys2Proof.Machine
end

