-- ==== Sys2Proof/Machine/Link.lean ====
section
/-! DEFINITION. Link streams and IDE streams: arriving flits, retry, teardown, keying, and the host link (R67, R120, R155 to
R161). -/

namespace Sys2Proof.Machine

/-- The state with a stream changed. -/
def State.setStream (s : State) (n : Nat) (t : Stream) : State := { s with streams := mset s.streams n t }
/-- The state with an IDE stream changed. -/
def State.setIde (s : State) (k : Nat) (d : Ide) : State := { s with ides := mset s.ides k d }

/-! The ends of waiting accesses (R67). -/

/-- An access through a window is answered: with the bytes that were read, or, where the answer has none, with free bytes. -/
def State.farDone (s : State) (key : Nat) (bs : List Byte) : State :=
  match mget s.far key with
  | none => s
  | some r =>
      let n := r.data.length
      let got := if bs.length = n then bs else s.windowBytes r.va.toNat n
      let s : State := { s with far := mdel s.far key }
      match r.who with
      | .hart h => s.setHart h { s.hart h with answer := some got }
      | .lane gid pid lane =>
          let f : Path → Path := fun p => { p with done := p.done ||| maskOf [lane], got := mset p.got lane (rawOf got) }
          let g := s.group gid
          let g := { g with
            ctx := { g.ctx with paths := mupd g.ctx.paths pid f }
            handler := g.handler.map fun h => { h with frozen := { h.frozen with paths := mupd h.frozen.paths pid f } } }
          if (mget s.groups gid).isSome then s.setGroup gid g else s

/-! Streams that go DOWN (R159, R161). -/

/-- The addresses in enclave memory that a copy or gather names. -/
def EngOp.farAddrs (o : EngOp) : List (BitVec 64) :=
  if o.cls = 1 then [(argOf o.vals (if o.sub % 8 = 1 then 0 else 1)).toBits]
  else if o.cls = 0 then
    if o.sub % 8 < 4 then
      let sp := copySpaces o.sub
      (if sp.1 then [] else [(argOf o.vals 0).toBits]) ++ if sp.2 then [] else [(argOf o.vals 1).toBits]
    else
      match walkOf o.sub o.vals with
      | none => []
      | some w => (if tmSpad w.d then [] else [tmAddr w.d 0]) ++ if tmSpad w.s then [] else [tmAddr w.s 0]
  else []

/-- The copies and gathers in flight of an enclave that use a window that is no longer up. -/
def State.cutOff (s : State) (e : Nat) : List Nat :=
  (s.ops.filter fun o =>
    let l := (s.team o.2.team).launch
    o.2.status == futPending && (s.launch l).enclave == e && o.2.farAddrs.any fun a =>
      match s.translate none e a .engRead 1 with
      | .window w _ => !s.windowUp e w
      | .ok .. | .moving | .search .. | .fault _ => false).map Prod.fst

/-- The launches and the general cores with an access on a stream that is over (R159): a launch ends with LINK_KEY, a general
core takes an access fault (assumption log 51). -/
def State.cutAsker (s : State) (f : FarReq) : State :=
  match f.who with
  | .lane gid _ _ => s.endLaunch (s.team (s.group gid).team).launch stLinkKey 0 0 0
  | .hart h => s.hartTrap h (if f.write then 7 else 5) f.va

/-- The work that used a stream is over (R159): launches with a lane's access end with LINK_KEY, copies and gathers complete
with it. -/
def State.cutWork (s : State) (e : Nat) (via : Via) : State :=
  let mine := s.far.filter fun f => f.2.via == via
  let s : State := { s with far := s.far.filter fun f => f.2.via != via }
  let s := (s.cutOff e).foldl (fun s op => s.finishOp op futLinkKey) s
  (mine.map Prod.snd).foldl State.cutAsker s

/-- A collective in flight loses a stream to a member: it completes with LINK_KEY at every member. -/
def State.collLink (s : State) (op : Nat) : State :=
  match mget s.ops op with
  | none => s
  | some o => (s.collAbort op o futLinkKey).finishOp op futLinkKey

/-- The collectives in flight of an enclave with a member package, builds of groups among them. -/
def State.collsWith (s : State) (e peer : Nat) : List Nat :=
  ((s.colls.filter fun c => c.2.enclave == e && c.2.members.contains peer).flatMap fun c =>
    if c.2.state == .building then [c.2.build] else s.collOps c.1)

/-- A link stream goes DOWN. -/
def State.streamDown (s : State) (n : Nat) : State :=
  match mget s.streams n with
  | none => s
  | some t =>
      if t.state = .down then s
      else
        let s := s.setStream n { t with state := .down, retries := 0, tagFailed := false, asked := (0, 0) }
        let s := s.cutWork t.enclave (.link n)
        if (s.streamUp t.enclave t.peer).isSome then s
        else (s.collsWith t.enclave t.peer).foldl State.collLink s

/-- An IDE stream goes DOWN. -/
def State.ideDown (s : State) (k : Nat) : State :=
  match mget s.ides k with
  | none => s
  | some d =>
      if d.state = .down then s
      else (s.setIde k { d with state := .down, run := false }).cutWork d.enclave (.ide k)

/-! Arriving flits (R157 to R159). -/

/-- A retry request for the SEQ that a stream expects. -/
def State.askAgain (s : State) (n : Nat) (t : Stream) (tagFailed : Bool) : State :=
  s.setStream n { t with retries := t.retries + 1, tagFailed := tagFailed }

/-- A flit of a type arrives: the state, and the stream if the flit is accepted. One that is not for a stream in UP and under its
generation is discarded, as is a duplicate; a failed CRC, a SEQ ahead of its turn, and the first failure of a tag ask for a
retry; the second failure of a tag tears the stream down. -/
def State.arrive (s : State) (f : Flit) (kind : Nat) : State × Option Stream :=
  match mget s.streams f.stream with
  | none => (s, none)
  | some t =>
      if f.kind ≠ kind ∨ t.state ≠ .up ∨ 16 ≤ t.retries then (s, none)
      else if f.crcOk = false then (s.askAgain f.stream t t.tagFailed, none)
      else if f.keygen ≠ t.keygen ∨ f.seq < t.rx then (s, none)
      else if t.rx < f.seq then (s.askAgain f.stream t t.tagFailed, none)
      else if s.tagOk t f then (s.setStream f.stream { t with rx := t.rx + 1, retries := 0, tagFailed := false }, some t)
      else if t.tagFailed then ((s.sendFlit f.stream 4 false 0 [] none).streamDown f.stream, none)
      else (s.askAgain f.stream t true, none)

/-- How a far enclave's access to this package goes. -/
inductive Served where
  | wait | search | refused
  | done (s : State) (bs : List Byte)
  deriving DecidableEq, Repr

/-- May the bound enclave access a page of this package (R20, R156)? -/
def State.farPage (s : State) (e page : Nat) (write : Bool) : Bool :=
  let ent := s.potOf page
  let x := s.encl e
  (ent.state == .sharedRo && ent.part.toNat == x.part && !write) ||
    (ent.state == .owned && ent.owner.toNat == e && ent.part.toNat == x.part && ent.keygen == x.gen)

/-- The bytes that a request asks for. -/
def askBytes (f : Flit) : Nat :=
  match f.atomic with
  | none => f.data.length
  | some a => bytesOf a.t.ty

/-- Performs a request of the bound enclave at a physical address of this package. -/
def State.serve (s : State) (e : Nat) (f : Flit) : Served :=
  let pa := f.va.toNat % 2 ^ 48
  let n := askBytes f
  let write := f.write || f.atomic.isSome
  let pages := pagesAt pa n
  if pages.any fun p => (s.potOf p).state == .moving then .wait
  else if !pages.all fun p => s.farPage e p write then .refused
  else
    match s.linesState write pa n with
    | .poisoned => .refused
    | .searching | .damaged | .stale | .lost => .search
    | .fine =>
        let old := readBytes s.mem pa n
        match f.atomic with
        | some a => .done (s.poke pa (leBytes n (atomNew a.op a.t a.mode (leNat old) a.v a.v2))) old
        | none => .done (if f.write then s.poke pa f.data else s) old

/-- REQUEST_FLIT (R20, R156, R158): an accepted request is performed against the local POT and answered; one that has to wait is
not accepted yet. -/
def execRequestFlit (f : Flit) (s : State) : Host.Outcome State Fault Refusal :=
  .next <|
    match s.arrive f 1 with
    | (s', none) => s'
    | (s', some t) =>
        if t.spent then s
        else
        match s'.serve t.enclave f with
        | .wait => s
        | .search => s.startSearch (f.va.toNat % 2 ^ 48) (askBytes f)
        | .refused => s'.sendFlit f.stream 2 false (BitVec.ofNat 64 f.seq) [] none
        | .done s bs => s.sendFlit f.stream 2 false (BitVec.ofNat 64 f.seq) bs none

/-- RESPONSE_FLIT (R67, R158): an accepted answer completes the access whose request it names. -/
def execResponseFlit (f : Flit) (s : State) : Host.Outcome State Fault Refusal :=
  .next <|
    match s.arrive f 2 with
    | (s, none) => s
    | (s, some _) =>
        match s.far.find? fun q => q.2.via == .link f.stream && q.2.seq == f.va.toNat with
        | none => s
        | some q => s.farDone q.1 f.data

/-- The status that a notice gives a group build (R135, R166). -/
def noticeStatus (form : Nat) : Option (BitVec 8) :=
  if form = 4 then some futCancelled else if form = 5 then some futPreempt else if form = 6 then some futLinkKey else none

/-- COLLECTIVE_FLIT (R158, R163, R352): an accepted contribution enters its group's meeting; a member's notice that the build of
a group is given up ends it here too. -/
def execCollectiveFlit (f : Flit) (c : Contrib) (s : State) : Host.Outcome State Fault Refusal :=
  .next <|
    match s.arrive f 3 with
    | (s, none) => s
    | (s, some t) =>
        match mget s.colls c.group with
        | none => s
        | some g =>
            if g.enclave = t.enclave ∧ g.members.contains t.peer ∧ (g.state = .valid ∨ g.state = .building) then
              match g.state, noticeStatus c.form with
              | .building, some st =>
                  ({ s with colls := mset s.colls c.group { g with state := .invalid } } : State).finishOp g.build st
              | _, _ => { s with colls := mset s.colls c.group (g.receive t.peer c f.data) }
            else s

/-- TEARDOWN_FLIT (R159). -/
def execTeardownFlit (stream : Nat) (s : State) : Host.Outcome State Fault Refusal := .next (s.streamDown stream)

/-- FLIT_RETRY (R158): the peer asks for a SEQ again; the flit in the replay buffer is sent as it was, and the transmit sequence
stays. -/
def execFlitRetry (stream seq : Nat) (s : State) : Host.Outcome State Fault Refusal :=
  .next <|
    match mget s.streams stream with
    | none => s
    | some t =>
        if t.state ≠ .up then s
        else s.setStream stream { t with
          asked := if t.asked.1 = seq then (seq, t.asked.2 + 1) else (seq, 1), retried := t.retried + 1 }

/-- Has a stream had 16 retry requests for one SEQ, in either direction? -/
def Stream.exhausted (t : Stream) : Bool := decide (16 ≤ t.retries) || decide (16 ≤ t.asked.2)

/-- LINK_PORT_DOWN (R158, R159): the port is declared down, and its streams are torn down. -/
def execLinkPortDown (port : Nat) (s : State) : Host.Outcome State Fault Refusal :=
  .next <|
    let mine := s.streams.filter fun t => t.2.port == port && t.2.state != .down
    if mine.any fun t => t.2.exhausted then
      (mine.map Prod.fst).foldl State.streamDown (s.enterFn (.link port) (.failed 0))
    else s

/-- The link ports in READY. -/
def State.readyPorts (s : State) : List Nat := (List.range 12).filter fun p => s.fnState (.link p) == .ready

/-- Is something in flight on a stream: an access that waits for its answer, a copy or gather of its enclave through a window on its
package, or a collective with it? -/
def State.inFlight (s : State) (n : Nat) (t : Stream) : Bool :=
  (s.far.any fun f => f.2.via == .link n) || !(s.collsWith t.enclave t.peer).isEmpty ||
    s.ops.any fun o =>
      o.2.status == futPending && (s.launch (s.team o.2.team).launch).enclave == t.enclave && o.2.farAddrs.any fun a =>
        match s.translate none t.enclave a .engRead 1 with
        | .window w _ => w != 15 && s.windowPeer w == t.peer
        | .ok .. | .moving | .search .. | .fault _ => false

/-- May the root of trust key a stream to a peer with an identity that reports its P (R155, R156)? -/
def State.peerOk (s : State) (e peer p dev : Nat) : Bool :=
  (s.encl e).state == .measured && p == s.fabricP && decide (peer < s.fabricP) && peer != s.fabricF &&
    (s.peers.all fun q => (q.1 == peer) == (q.2 == dev))

/-- STREAM_KEYING (R155, R156, R160): the root of trust takes a stream from DOWN, or from UP once its flits in flight are drained, into
KEYING; and a stream in KEYING to UP, under the next generation with a fresh key and both sequences 0. A peer whose P differs, or
whose F is another package's, is refused. -/
def execStreamKeying (stream e : Nat) (q : KeyPeer) (s : State) : Host.Outcome State Fault Refusal :=
  .next <|
    let ports := s.readyPorts
    let old := mget s.streams stream
    if s.peerOk e q.f q.p q.dev = false ∨ ports = [] then s
    else
      let s : State := { s with peers := mset s.peers q.f q.dev }
      match old with
      | none =>
          if q.done ∨ 1024 ≤ s.streams.length ∨ 65536 ≤ stream then s
          else
            let port := ports.getD (Config.freeNat (.choice 4003) s.free % ports.length) 0
            s.setStream stream ⟨e, q.f, port, .keying, 0, 0, 0, 0, false, (0, 0), 0, 0⟩
      | some t =>
          if t.enclave ≠ e ∨ t.peer ≠ q.f then s
          else if q.done then
            if t.state = .keying then
              ({ s with keys := s.keys + 1 } : State).setStream stream { t with
                state := .up, keygen := t.keygen + 1, tx := 0, rx := 0, retries := 0, tagFailed := false, asked := (0, 0), key := s.keys }
            else s
          else if t.state = .keying ∨ s.inFlight stream t then s
          else
            let port := if ports.contains t.port then t.port else ports.getD (Config.freeNat (.choice 4003) s.free % ports.length) 0
            s.setStream stream { t with state := .keying, port := port }

/-! The host link (R120, R161). -/

/-- IDE_STREAM_FAILURE (R161). -/
def execIdeStreamFailure (k : Nat) (s : State) : Host.Outcome State Fault Refusal := .next (s.ideDown k)

/-- TDISP_BINDING (R161): a fresh binding of a device interface to an enclave, keyed by the root of trust. -/
def execTdispBinding (k e : Nat) (run : Bool) (s : State) : Host.Outcome State Fault Refusal :=
  .next <|
    if 64 ≤ k ∨ (s.encl e).state ≠ .measured ∨ s.fnState .pcie ≠ .ready then s
    else (s.ideDown k).setIde k ⟨e, .up, run, []⟩

/-- IDE_STREAM_REQUEST (R120): a device's read or write of the enclave memory that it is bound to. -/
def execIdeStreamRequest (k : Nat) (write : Bool) (va : BitVec 64) (data : List Byte) (s : State) :
    Host.Outcome State Fault Refusal :=
  .next <|
    match mget s.ides k with
    | none => s
    | some d =>
        if d.state ≠ .up ∨ d.run = false ∨ data = [] then s
        else
          let kind : AccessKind := if write then .store else .load
          let runs := pageRuns (data.length / 4096 + 2) va data.length
          match runs.mapM (fun r =>
              match s.translate none d.enclave r.1 kind r.2 with
              | .ok pa leaf => Except.ok (pa, leaf.cls, r.2)
              | .window w pa => .error (⟨r.1, .window w pa⟩ : Stop)
              | .moving => .error ⟨r.1, .moving⟩
              | .search pa n => .error ⟨r.1, .search pa n⟩
              | .fault f => .error ⟨r.1, .fault f⟩) with
          | .ok ps =>
              if write then s.writePieces ps data else s.setIde k { d with answer := s.readPieces ps }
          | .error st =>
              match st.found with
              | .search pa n => s.startSearch pa n
              | .moving => s
              | .ok .. | .window .. | .fault _ => if write then s else s.setIde k { d with answer := [] }

/-- IDE_STREAM_COMPLETION (R67): an access through the system window is answered. -/
def execIdeStreamCompletion (op : Nat) (ok : Bool) (data : List Byte) (s : State) : Host.Outcome State Fault Refusal :=
  .next <|
    match mget s.far op with
    | none => s
    | some r =>
        match r.via with
        | .link _ => s
        | .ide _ => s.farDone op (if ok then data else [])

end Sys2Proof.Machine
end

