-- ==== Sys2Proof/Machine/Dispatch.lean ====
section
/-! DEFINITION. What an instruction or an event does: one arm for each row of spec/opcode_table.json. -/

namespace Sys2Proof.Machine

def exec (i : Instr) (s : State) : Host.Outcome State Fault Refusal :=
  match i with
  | .reset => Sys2Proof.Machine.execReset s
  | .functionTrainingDone f ok reason => Sys2Proof.Machine.execFunctionTrainingDone f ok reason s
  | .hbmStackFailed k reason => Sys2Proof.Machine.execHbmStackFailed k reason s
  | .managementClaim ms => Sys2Proof.Machine.execManagementClaim ms s
  | .ownershipHandover m successor => Sys2Proof.Machine.execOwnershipHandover m successor s
  | .ownershipAccept m => Sys2Proof.Machine.execOwnershipAccept m s
  | .ownershipRefuse m => Sys2Proof.Machine.execOwnershipRefuse m s
  | .ownershipReclaim => Sys2Proof.Machine.execOwnershipReclaim s
  | .managementWrite m addr v => Sys2Proof.Machine.execManagementWrite m addr v s
  | .partitionForm m p f => Sys2Proof.Machine.execPartitionForm m p f s
  | .bootKeyReplace m p key => Sys2Proof.Machine.execBootKeyReplace m p key s
  | .partitionBoot p image sig entry => Sys2Proof.Machine.execPartitionBoot p image sig entry s
  | .getCertificate p slot => Sys2Proof.Machine.execGetCertificate p slot s
  | .partitionWayMaskWrite m p d ways => Sys2Proof.Machine.execPartitionWayMaskWrite m p d ways s
  | .fabricNumberWrite m f p => Sys2Proof.Machine.execFabricNumberWrite m f p s
  | .clockLower hall steps halfWatts => Sys2Proof.Machine.execClockLower hall steps halfWatts s
  | .registerWrite h off v => Sys2Proof.Machine.execRegisterWrite h off v s
  | .xltInvEnclave h v => Sys2Proof.Machine.execXltInvEnclave h v s
  | .xltInvPages h v => Sys2Proof.Machine.execXltInvPages h v s
  | .xltInvPartition h v => Sys2Proof.Machine.execXltInvPartition h v s
  | .xltInvDone p => Sys2Proof.Machine.execXltInvDone p s
  | .fqBaseWrite h v => Sys2Proof.Machine.execFqBaseWrite h v s
  | .fqHeadWrite h v => Sys2Proof.Machine.execFqHeadWrite h v s
  | .preemptGo h v => Sys2Proof.Machine.execPreemptGo h v s
  | .kick h q v rd => Sys2Proof.Machine.execKick h q v rd s
  | .launchDispatch e => Sys2Proof.Machine.execLaunchDispatch e s
  | .depReadResume l => Sys2Proof.Machine.execDepReadResume l s
  | .gangPlace l gang hall block => Sys2Proof.Machine.execGangPlace l gang hall block s
  | .gangRestore l gang hall block => Sys2Proof.Machine.execGangRestore l gang hall block s
  | .turnStart hall e => Sys2Proof.Machine.execTurnStart hall e s
  | .turnDeficitExhausted hall cycles => Sys2Proof.Machine.execTurnDeficitExhausted hall cycles s
  | .rakeAck l gang cycles => Sys2Proof.Machine.execRakeAck l gang cycles s
  | .handlerHoldExpiry g => Sys2Proof.Machine.execHandlerHoldExpiry g s
  | .launchRetire l => Sys2Proof.Machine.execLaunchRetire l s
  | .hallTlbWalk hall e va => Sys2Proof.Machine.execHallTlbWalk hall e va s
  | .movingWaitEnd g p => Sys2Proof.Machine.execMovingWaitEnd g p s
  | .faultRecordPost p => Sys2Proof.Machine.execFaultRecordPost p s
  | .correctionSearchDone line => Sys2Proof.Machine.execCorrectionSearchDone line s
  | .patrolRead line => Sys2Proof.Machine.execPatrolRead line s
  | .scrubFrame p => Sys2Proof.Machine.execScrubFrame p s
  | .cleanPoolWaitDone h interrupted => Sys2Proof.Machine.execCleanPoolWaitDone h interrupted s
  | .frameDrainDone frame => Sys2Proof.Machine.execFrameDrainDone frame s
  | .enclaveRelease e => Sys2Proof.Machine.execEnclaveRelease e s
  | .enclaveThreadInterrupt h cause => Sys2Proof.Machine.execEnclaveThreadInterrupt h cause s
  | .engineIssueResume g p => Sys2Proof.Machine.execEngineIssueResume g p s
  | .engineGranuleLand op idx => Sys2Proof.Machine.execEngineGranuleLand op idx s
  | .engineOpComplete op => Sys2Proof.Machine.execEngineOpComplete op s
  | .yieldResume g p => Sys2Proof.Machine.execYieldResume g p s
  | .translationDone e hdr fn width budget => Sys2Proof.Machine.execTranslationDone e hdr fn width budget s
  | .xctlComplete g p => Sys2Proof.Machine.execXctlComplete g p s
  | .ejectHandoverDone g p => Sys2Proof.Machine.execEjectHandoverDone g p s
  | .copyBackDone g p => Sys2Proof.Machine.execCopyBackDone g p s
  | .recallDone g p => Sys2Proof.Machine.execRecallDone g p s
  | .landingTimerExpiry g r => Sys2Proof.Machine.execLandingTimerExpiry g r s
  | .flightRelease l die f => Sys2Proof.Machine.execFlightRelease l die f s
  | .cutCopyDone k => Sys2Proof.Machine.execCutCopyDone k s
  | .cutDrainDone k ok => Sys2Proof.Machine.execCutDrainDone k ok s
  | .requestFlit f => Sys2Proof.Machine.execRequestFlit f s
  | .responseFlit f => Sys2Proof.Machine.execResponseFlit f s
  | .collectiveFlit f c => Sys2Proof.Machine.execCollectiveFlit f c s
  | .teardownFlit stream => Sys2Proof.Machine.execTeardownFlit stream s
  | .flitRetry stream seq => Sys2Proof.Machine.execFlitRetry stream seq s
  | .linkPortDown port => Sys2Proof.Machine.execLinkPortDown port s
  | .streamKeying stream e peer => Sys2Proof.Machine.execStreamKeying stream e peer s
  | .ideStreamFailure k => Sys2Proof.Machine.execIdeStreamFailure k s
  | .collGroupBuildDone k digests => Sys2Proof.Machine.execCollGroupBuildDone k digests s
  | .collGroupRekey k done => Sys2Proof.Machine.execCollGroupRekey k done s
  | .collPeerLost k member => Sys2Proof.Machine.execCollPeerLost k member s
  | .nop c ops => Sys2Proof.Machine.execNop c ops s
  | .const c t ops => Sys2Proof.Machine.execConst c t ops s
  | .iadd c m t ops => Sys2Proof.Machine.execIadd c m t ops s
  | .isub c m t ops => Sys2Proof.Machine.execIsub c m t ops s
  | .imul c m t ops => Sys2Proof.Machine.execImul c m t ops s
  | .imad c m t ops => Sys2Proof.Machine.execImad c m t ops s
  | .idiv c signed t ops => Sys2Proof.Machine.execIdiv c signed t ops s
  | .iminmax c k t ops => Sys2Proof.Machine.execIminmax c k t ops s
  | .logic c k ops => Sys2Proof.Machine.execLogic c k ops s
  | .shift c k ops => Sys2Proof.Machine.execShift c k ops s
  | .bits c k ops => Sys2Proof.Machine.execBits c k ops s
  | .clmul c hi wide ops => Sys2Proof.Machine.execClmul c hi wide ops s
  | .icmp c k t ops => Sys2Proof.Machine.execIcmp c k t ops s
  | .plogic c k ops => Sys2Proof.Machine.execPlogic c k ops s
  | .sel c t ops => Sys2Proof.Machine.execSel c t ops s
  | .addr c k ops => Sys2Proof.Machine.execAddr c k ops s
  | .cvti c k ops => Sys2Proof.Machine.execCvti c k ops s
  | .phi c t ops => Sys2Proof.Machine.execPhi c t ops s
  | .br c ops => Sys2Proof.Machine.execBr c ops s
  | .brc c ops => Sys2Proof.Machine.execBrc c ops s
  | .brm c k ops => Sys2Proof.Machine.execBrm c k ops s
  | .join c ops => Sys2Proof.Machine.execJoin c ops s
  | .call c t ops => Sys2Proof.Machine.execCall c t ops s
  | .calli c t ops => Sys2Proof.Machine.execCalli c t ops s
  | .ret c ops => Sys2Proof.Machine.execRet c ops s
  | .exit c ops => Sys2Proof.Machine.execExit c ops s
  | .setmCtl c ops => Sys2Proof.Machine.execSetmCtl c ops s
  | .setmFlags c ops => Sys2Proof.Machine.execSetmFlags c ops s
  | .setmEn c ops => Sys2Proof.Machine.execSetmEn c ops s
  | .setmStep c ops => Sys2Proof.Machine.execSetmStep c ops s
  | .setmStepadd c ops => Sys2Proof.Machine.execSetmStepadd c ops s
  | .setmGuard c ops => Sys2Proof.Machine.execSetmGuard c ops s
  | .getmCtl c ops => Sys2Proof.Machine.execGetmCtl c ops s
  | .getmStep c ops => Sys2Proof.Machine.execGetmStep c ops s
  | .getmGuard c ops => Sys2Proof.Machine.execGetmGuard c ops s
  | .getmGmask c ops => Sys2Proof.Machine.execGetmGmask c ops s
  | .rdcycI64 c ops => Sys2Proof.Machine.execRdcycI64 c ops s
  | .rdcycI32 c ops => Sys2Proof.Machine.execRdcycI32 c ops s
  | .unreach c ops => Sys2Proof.Machine.execUnreach c ops s
  | .fadd c sub t ops => Sys2Proof.Machine.execFadd c sub t ops s
  | .fmul c t ops => Sys2Proof.Machine.execFmul c t ops s
  | .ffma c ms t ops => Sys2Proof.Machine.execFfma c ms t ops s
  | .fminmax c k t ops => Sys2Proof.Machine.execFminmax c k t ops s
  | .fsign c k t ops => Sys2Proof.Machine.execFsign c k t ops s
  | .fcmp c k t ops => Sys2Proof.Machine.execFcmp c k t ops s
  | .fclass c t ops => Sys2Proof.Machine.execFclass c t ops s
  | .fdiv c t ops => Sys2Proof.Machine.execFdiv c t ops s
  | .fsqrt c t ops => Sys2Proof.Machine.execFsqrt c t ops s
  | .sfu c k t ops => Sys2Proof.Machine.execSfu c k t ops s
  | .cvtf c k ops => Sys2Proof.Machine.execCvtf c k ops s
  | .pack c k ops => Sys2Proof.Machine.execPack c k ops s
  | .dot c k ops => Sys2Proof.Machine.execDot c k ops s
  | .shfl c k ops => Sys2Proof.Machine.execShfl c k ops s
  | .vote c k ops => Sys2Proof.Machine.execVote c k ops s
  | .voteLevel c ops => Sys2Proof.Machine.execVoteLevel c ops s
  | .scan c k ex ops => Sys2Proof.Machine.execScan c k ex ops s
  | .reduce c k ops => Sys2Proof.Machine.execReduce c k ops s
  | .matchLanes c k ops => Sys2Proof.Machine.execMatchLanes c k ops s
  | .lanemaskOwn c ops => Sys2Proof.Machine.execLanemaskOwn c ops s
  | .lanemaskBefore c ops => Sys2Proof.Machine.execLanemaskBefore c ops s
  | .lanemaskAfter c ops => Sys2Proof.Machine.execLanemaskAfter c ops s
  | .lanemaskSeg c ops => Sys2Proof.Machine.execLanemaskSeg c ops s
  | .lanemaskWidth c ops => Sys2Proof.Machine.execLanemaskWidth c ops s
  | .lanemaskAct c ops => Sys2Proof.Machine.execLanemaskAct c ops s
  | .frnd c k t ops => Sys2Proof.Machine.execFrnd c k t ops s
  | .fscale c exp t ops => Sys2Proof.Machine.execFscale c exp t ops s
  | .rndbits c wide ops => Sys2Proof.Machine.execRndbits c wide ops s
  | .ld c f ops => Sys2Proof.Machine.execLd c f ops s
  | .st c f ops => Sys2Proof.Machine.execSt c f ops s
  | .lds c f ops => Sys2Proof.Machine.execLds c f ops s
  | .sts c f ops => Sys2Proof.Machine.execSts c f ops s
  | .atom c o t scope ops => Sys2Proof.Machine.execAtom c o t scope ops s
  | .atoms c o t scope ops => Sys2Proof.Machine.execAtoms c o t scope ops s
  | .fenceAcq c scope ops => Sys2Proof.Machine.execFenceAcq c scope ops s
  | .fenceRel c scope ops => Sys2Proof.Machine.execFenceRel c scope ops s
  | .fenceAr c scope ops => Sys2Proof.Machine.execFenceAr c scope ops s
  | .fenceSc c scope ops => Sys2Proof.Machine.execFenceSc c scope ops s
  | .barSync c ops => Sys2Proof.Machine.execBarSync c ops s
  | .barArrive c ops => Sys2Proof.Machine.execBarArrive c ops s
  | .barWait c ops => Sys2Proof.Machine.execBarWait c ops s
  | .barExpect c ops => Sys2Proof.Machine.execBarExpect c ops s
  | .barInit c ops => Sys2Proof.Machine.execBarInit c ops s
  | .barState c ops => Sys2Proof.Machine.execBarState c ops s
  | .barm c ops => Sys2Proof.Machine.execBarm c ops s
  | .flight c ops => Sys2Proof.Machine.execFlight c ops s
  | .copy c k bar scope ops => Sys2Proof.Machine.execCopy c k bar scope ops s
  | .gather c bar scope ops => Sys2Proof.Machine.execGather c bar scope ops s
  | .scatter c bar scope ops => Sys2Proof.Machine.execScatter c bar scope ops s
  | .tmap c sp ops => Sys2Proof.Machine.execTmap c sp ops s
  | .futTest c ops => Sys2Proof.Machine.execFutTest c ops s
  | .futWait c ops => Sys2Proof.Machine.execFutWait c ops s
  | .futStatus c ops => Sys2Proof.Machine.execFutStatus c ops s
  | .futCancel c ops => Sys2Proof.Machine.execFutCancel c ops s
  | .futAll c ops => Sys2Proof.Machine.execFutAll c ops s
  | .yield c ops => Sys2Proof.Machine.execYield c ops s
  | .pref c ops => Sys2Proof.Machine.execPref c ops s
  | .cacheDemote c ops => Sys2Proof.Machine.execCacheDemote c ops s
  | .cacheEvict c ops => Sys2Proof.Machine.execCacheEvict c ops s
  | .cacheZero c ops => Sys2Proof.Machine.execCacheZero c ops s
  | .collGroup c scope ops => Sys2Proof.Machine.execCollGroup c scope ops s
  | .collRed c scope ops => Sys2Proof.Machine.execCollRed c scope ops s
  | .collBcast c scope ops => Sys2Proof.Machine.execCollBcast c scope ops s
  | .collBar c scope ops => Sys2Proof.Machine.execCollBar c scope ops s
  | .fmtb c ops => Sys2Proof.Machine.execFmtb c ops s
  | .fmtbSc c ops => Sys2Proof.Machine.execFmtbSc c ops s
  | .fmtbSp c ops => Sys2Proof.Machine.execFmtbSp c ops s
  | .cohort c ops => Sys2Proof.Machine.execCohort c ops s
  | .cohortClear c ops => Sys2Proof.Machine.execCohortClear c ops s
  | .mma c scope ops => Sys2Proof.Machine.execMma c scope ops s
  | .mmaSp c scope ops => Sys2Proof.Machine.execMmaSp c scope ops s
  | .mmaUf c scope ops => Sys2Proof.Machine.execMmaUf c scope ops s
  | .mmaSpec c scope ops => Sys2Proof.Machine.execMmaSpec c scope ops s
  | .mmaSpecSp c scope ops => Sys2Proof.Machine.execMmaSpecSp c scope ops s
  | .mmaSpecUf c scope ops => Sys2Proof.Machine.execMmaSpecUf c scope ops s
  | .accZeroF32 c ops => Sys2Proof.Machine.execAccZeroF32 c ops s
  | .accZeroI32 c ops => Sys2Proof.Machine.execAccZeroI32 c ops s
  | .accLoad c int scope ops => Sys2Proof.Machine.execAccLoad c int scope ops s
  | .accStore c scope ops => Sys2Proof.Machine.execAccStore c scope ops s
  | .specCommit c ops => Sys2Proof.Machine.execSpecCommit c ops s
  | .specDiscard c ops => Sys2Proof.Machine.execSpecDiscard c ops s
  | .unfold c ops => Sys2Proof.Machine.execUnfold c ops s
  | .spbm c scope ops => Sys2Proof.Machine.execSpbm c scope ops s
  | .trap c ops => Sys2Proof.Machine.execTrap c ops s
  | .tret c ops => Sys2Proof.Machine.execTret c ops s
  | .tretSkip c ops => Sys2Proof.Machine.execTretSkip c ops s
  | .tmask c ops => Sys2Proof.Machine.execTmask c ops s
  | .launch c ops => Sys2Proof.Machine.execLaunch c ops s
  | .xctlInv c ops => Sys2Proof.Machine.execXctlInv c ops s
  | .xctlPfCore c ops => Sys2Proof.Machine.execXctlPfCore c ops s
  | .xctlPfHall c ops => Sys2Proof.Machine.execXctlPfHall c ops s
  | .xctlPinCore c ops => Sys2Proof.Machine.execXctlPinCore c ops s
  | .xctlPinHall c ops => Sys2Proof.Machine.execXctlPinHall c ops s
  | .xctlUnpinCore c ops => Sys2Proof.Machine.execXctlUnpinCore c ops s
  | .xctlUnpinHall c ops => Sys2Proof.Machine.execXctlUnpinHall c ops s
  | .sealOpen c ops => Sys2Proof.Machine.execSealOpen c ops s
  | .sealAbsorb c scope ops => Sys2Proof.Machine.execSealAbsorb c scope ops s
  | .sealClose c ops => Sys2Proof.Machine.execSealClose c ops s
  | .sealAbort c ops => Sys2Proof.Machine.execSealAbort c ops s
  | .cntCtr c ops => Sys2Proof.Machine.execCntCtr c ops s
  | .cntMon c ops => Sys2Proof.Machine.execCntMon c ops s
  | .cutMarkDy c ops => Sys2Proof.Machine.execCutMarkDy c ops s
  | .cutMarkFb c ops => Sys2Proof.Machine.execCutMarkFb c ops s
  | .cutStatus c ops => Sys2Proof.Machine.execCutStatus c ops s
  | .rdctxTrap c ops => Sys2Proof.Machine.execRdctxTrap c ops s
  | .rdctxLanes c ops => Sys2Proof.Machine.execRdctxLanes c ops s
  | .rdctxOpnd c ops => Sys2Proof.Machine.execRdctxOpnd c ops s
  | .rdctxLaunch c ops => Sys2Proof.Machine.execRdctxLaunch c ops s
  | .rdctxEnclave c ops => Sys2Proof.Machine.execRdctxEnclave c ops s
  | .rdctxPlace c ops => Sys2Proof.Machine.execRdctxPlace c ops s
  | .encCreate rd rs1 rs2 => Sys2Proof.Machine.execEncCreate rd rs1 rs2 s
  | .encAddpage rd rs1 rs2 => Sys2Proof.Machine.execEncAddpage rd rs1 rs2 s
  | .encMeasure rd rs1 => Sys2Proof.Machine.execEncMeasure rd rs1 s
  | .encEnter rd rs1 => Sys2Proof.Machine.execEncEnter rd rs1 s
  | .encExit rd rs1 => Sys2Proof.Machine.execEncExit rd rs1 s
  | .encReport rd rs1 rs2 => Sys2Proof.Machine.execEncReport rd rs1 rs2 s
  | .encReportRk rd rs1 rs2 => Sys2Proof.Machine.execEncReportRk rd rs1 rs2 s
  | .encDestroy rd rs1 => Sys2Proof.Machine.execEncDestroy rd rs1 s
  | .encXctlInv rd rs1 rs2 => Sys2Proof.Machine.execEncXctlInv rd rs1 rs2 s
  | .encXctlPfCore rd rs1 rs2 => Sys2Proof.Machine.execEncXctlPfCore rd rs1 rs2 s
  | .encXctlPfHall rd rs1 rs2 => Sys2Proof.Machine.execEncXctlPfHall rd rs1 rs2 s
  | .encXctlPinCore rd rs1 rs2 => Sys2Proof.Machine.execEncXctlPinCore rd rs1 rs2 s
  | .encXctlPinHall rd rs1 rs2 => Sys2Proof.Machine.execEncXctlPinHall rd rs1 rs2 s
  | .encXctlUnpinCore rd rs1 rs2 => Sys2Proof.Machine.execEncXctlUnpinCore rd rs1 rs2 s
  | .encXctlUnpinHall rd rs1 rs2 => Sys2Proof.Machine.execEncXctlUnpinHall rd rs1 rs2 s
  | .pageOut rd rs1 rs2 => Sys2Proof.Machine.execPageOut rd rs1 rs2 s
  | .pageInClean rd rs1 rs2 => Sys2Proof.Machine.execPageInClean rd rs1 rs2 s
  | .pageInImage rd rs1 rs2 => Sys2Proof.Machine.execPageInImage rd rs1 rs2 s
  | .pageInShare rd rs1 => Sys2Proof.Machine.execPageInShare rd rs1 s
  | .pageFree rd rs1 => Sys2Proof.Machine.execPageFree rd rs1 s
  | .faultResolve rd rs1 => Sys2Proof.Machine.execFaultResolve rd rs1 s
  | .faultKill rd rs1 rs2 => Sys2Proof.Machine.execFaultKill rd rs1 rs2 s
  | .riscvLoadStore h va a => Sys2Proof.Machine.execRiscvLoadStore h va a s
  | .reservedMajorStub maj sub c mod rsvz ops => Sys2Proof.Machine.execReservedMajorStub maj sub c mod rsvz ops s
  | .ideStreamRequest k write va data => Sys2Proof.Machine.execIdeStreamRequest k write va data s
  | .ideStreamCompletion op ok data => Sys2Proof.Machine.execIdeStreamCompletion op ok data s
  | .tdispBinding k e run => Sys2Proof.Machine.execTdispBinding k e run s
  | .spdmGetMeasurements p => Sys2Proof.Machine.execSpdmGetMeasurements p s

end Sys2Proof.Machine
end

