-- ==== Sys2Proof/Machine/Riscv.lean ====
section
/-! DEFINITION. The RISC-V instructions of the general cores (R1). The spec names RV64GCV with the hypervisor extension and
leaves it to RISC-V: the base integer set, multiplication and division, atomics, the loads and stores, and the privileged
instructions are those of RISC-V's own manuals (assumption log 110); what any other instruction does on its core is free, and
its accesses are checked as all are. -/

namespace Sys2Proof.Machine

/-! Fields of a RISC-V word. -/

/-- Bits [hi : lo] of a word. -/
def rvBits (w : Word) (hi lo : Nat) : Nat := bitsOf w.toNat hi lo
/-- The register fields rd, rs1 and rs2. -/
def rvRd (w : Word) : BitVec 5 := w.extractLsb' 7 5
/-- rs1. -/
def rvRs1 (w : Word) : BitVec 5 := w.extractLsb' 15 5
/-- rs2. -/
def rvRs2 (w : Word) : BitVec 5 := w.extractLsb' 20 5
/-- A two's-complement number of w bits as a register holds it. -/
def rvSigned (w v : Nat) : BitVec 64 := BitVec.ofInt 64 (signedOf w v)
/-- The immediate of the I format. -/
def rvImmI (w : Word) : BitVec 64 := rvSigned 12 (rvBits w 31 20)
/-- The immediate of the S format. -/
def rvImmS (w : Word) : BitVec 64 := rvSigned 12 (rvBits w 31 25 * 2 ^ 5 + rvBits w 11 7)
/-- The immediate of the B format. -/
def rvImmB (w : Word) : BitVec 64 :=
  rvSigned 13 (rvBits w 31 31 * 2 ^ 12 + rvBits w 7 7 * 2 ^ 11 + rvBits w 30 25 * 2 ^ 5 + rvBits w 11 8 * 2)
/-- The immediate of the U format. -/
def rvImmU (w : Word) : BitVec 64 := rvSigned 32 (rvBits w 31 12 * 2 ^ 12)
/-- The immediate of the J format. -/
def rvImmJ (w : Word) : BitVec 64 :=
  rvSigned 21 (rvBits w 31 31 * 2 ^ 20 + rvBits w 19 12 * 2 ^ 12 + rvBits w 20 20 * 2 ^ 11 + rvBits w 30 21 * 2)

/-! Arithmetic. -/

/-- An integer operation on registers of n bits, by funct3; `alt` is bit 30 of the word. -/
def rvAlu (n f3 : Nat) (alt : Bool) (a b : Nat) : Nat :=
  let shift := b % n
  match f3 with
  | 0 => if alt then a + 2 ^ n - b else a + b
  | 1 => a * 2 ^ shift
  | 2 => if signedOf n a < signedOf n b then 1 else 0
  | 3 => if a < b then 1 else 0
  | 4 => Nat.xor a b
  | 5 => if alt then wrapTo n (signedOf n a / 2 ^ shift) else a / 2 ^ shift
  | 6 => Nat.lor a b
  | _ => Nat.land a b

/-- A multiplication or division on registers of n bits, by funct3. -/
def rvMul (n f3 : Nat) (a b : Nat) : Nat :=
  let sa := signedOf n a
  let sb := signedOf n b
  match f3 with
  | 0 => a * b
  | 1 => wrapTo n (sa * sb / 2 ^ n)
  | 2 => wrapTo n (sa * b / 2 ^ n)
  | 3 => a * b / 2 ^ n
  | 4 => if b = 0 then 2 ^ n - 1 else wrapTo n (sa.tdiv sb)
  | 5 => if b = 0 then 2 ^ n - 1 else a / b
  | 6 => if b = 0 then a else wrapTo n (sa.tmod sb)
  | _ => if b = 0 then a else a % b

/-- Does a branch go, by funct3? -/
def rvGoes (f3 a b : Nat) : Option Bool :=
  match f3 with
  | 0 => some (a == b)
  | 1 => some (a != b)
  | 4 => some (signedOf 64 a < signedOf 64 b)
  | 5 => some (signedOf 64 b ≤ signedOf 64 a)
  | 6 => some (decide (a < b))
  | 7 => some (decide (b ≤ a))
  | _ => none

/-! What an instruction does. -/

/-- How an instruction of the base set goes on. -/
inductive RvDo where
  /-- A register is written, and the pc goes to an address. -/
  | go (rd : BitVec 5) (v pc : BitVec 64)
  | access (va : BitVec 64) (a : HartAccess)
  | trap (cause tval : BitVec 64)
  /-- A control and status register is read and, perhaps, written: number, destination, and the new value from the old. -/
  | csr (n : Nat) (rd : BitVec 5) (change : Option (BitVec 64 → BitVec 64))
  | sret
  /-- Another instruction: its effect on the core is free. -/
  | other

/-- The operation of an AMO by its field funct5. -/
def rvAmo : Nat → Option AmoOp
  | 0x01 => some .swap
  | 0x00 => some .add
  | 0x04 => some .xor
  | 0x0C => some .and
  | 0x08 => some .or
  | 0x10 => some .min
  | 0x14 => some .max
  | 0x18 => some .minu
  | 0x1C => some .maxu
  | _ => none

/-- The cause of an ECALL from a mode. -/
def ecallCause : HartMode → BitVec 64
  | .u | .vu => 8
  | .hs => 9
  | .vs => 10

/-- What a register operation of n bits writes: with an immediate, or with a register, of funct7 `f7`; none for another word. -/
def rvOp (n f3 f7 : Nat) (imm : Bool) (a b : Nat) : Option Nat :=
  let plain := f7 = 0 ∨ f7 = 0x20 ∧ (f3 = 5 ∨ f3 = 0 ∧ imm = false)
  if imm ∧ f3 ≠ 1 ∧ f3 ≠ 5 then some (rvAlu n f3 false a b % 2 ^ n)
  else if plain then some (rvAlu n f3 (f7 == 0x20) a b % 2 ^ n)
  else if imm = false ∧ f7 = 1 then some (rvMul n f3 a b % 2 ^ n)
  else none

/-- What a word of the base set does at a general core. -/
def Hart.decodeRv (x : Hart) (w : Word) : RvDo :=
  let rd := rvRd w
  let a := x.reg (rvRs1 w)
  let b := x.reg (rvRs2 w)
  let f3 := rvBits w 14 12
  let f7 := rvBits w 31 25
  let after := x.pc + 4
  let put : Option (BitVec 64) → RvDo := fun v => v.elim .other fun v => .go rd v after
  match rvBits w 6 0 with
  | 0x37 => .go rd (rvImmU w) after
  | 0x17 => .go rd (x.pc + rvImmU w) after
  | 0x6F => .go rd after (x.pc + rvImmJ w)
  | 0x67 => if f3 = 0 then .go rd after ((a + rvImmI w) &&& ~~~1#64) else .other
  | 0x63 =>
      match rvGoes f3 a.toNat b.toNat with
      | none => .other
      | some go => .go 0 0 (if go then x.pc + rvImmB w else after)
  | 0x03 => if f3 = 7 then .other else .access (a + rvImmI w) (.load (2 ^ (f3 % 4)) (decide (f3 < 4)) rd)
  | 0x23 => if 3 < f3 then .other else .access (a + rvImmS w) (.store (2 ^ f3) (rvRs2 w))
  | 0x13 => put ((rvOp 64 f3 (f7 / 2 * 2) true a.toNat (rvImmI w).toNat).map (BitVec.ofNat 64))
  | 0x33 => put ((rvOp 64 f3 f7 false a.toNat b.toNat).map (BitVec.ofNat 64))
  | 0x1B =>
      if f3 = 0 ∨ f3 = 1 ∨ f3 = 5 then
        put ((rvOp 32 f3 f7 true (a.toNat % 2 ^ 32) ((rvImmI w).toNat % 2 ^ 32)).map (rvSigned 32))
      else .other
  | 0x3B =>
      if f3 = 2 ∨ f3 = 3 ∨ 6 ≤ f3 ∧ f7 ≠ 1 ∨ f3 = 4 ∧ f7 ≠ 1 ∨ f3 = 1 ∧ f7 = 1 then .other
      else put ((rvOp 32 f3 f7 false (a.toNat % 2 ^ 32) (b.toNat % 2 ^ 32)).map (rvSigned 32))
  | 0x0F =>
      if f3 = 0 then .access 0 (if rvBits w 31 20 = 0x833 then .fenceTso else .fence (w.getLsbD 25) (w.getLsbD 24) (w.getLsbD 21) (w.getLsbD 20))
      else if f3 = 1 then .go 0 0 after
      else .other
  | 0x2F =>
      let n := 2 ^ f3
      let aq := f7 / 2 % 2 == 1
      let rl := f7 % 2 == 1
      if f3 ≠ 2 ∧ f3 ≠ 3 then .other
      else if f7 / 4 = 2 then .access a (.lr n rd aq rl)
      else if f7 / 4 = 3 then .access a (.sc n (rvRs2 w) rd aq rl)
      else
        match rvAmo (f7 / 4) with
        | none => .other
        | some op => .access a (.amo op n (rvRs2 w) rd aq rl)
  | 0x73 =>
      let csr := rvBits w 31 20
      let v := if f3 < 4 then a else BitVec.ofNat 64 (rvBits w 19 15)
      let reads := rvBits w 19 15 = 0
      if f3 = 0 then
        if w = 0x00000073 then .trap (ecallCause x.mode) 0
        else if w = 0x00100073 then .trap 3 x.pc
        else if w = 0x10200073 then .sret
        else if w = 0x10500073 ∨ f7 = 0x09 then .go 0 0 after
        else .other
      else if f3 = 4 then .other
      else
        .csr csr rd <|
          if f3 % 4 = 1 then some fun _ => v
          else if reads then none
          else if f3 % 4 = 2 then some fun old => old ||| v
          else some fun old => old &&& ~~~v
  | _ => .other

/-! Control and status registers. -/

/-- SSTATUS as RISC-V lays it out: SIE, SPIE and SPP. -/
def Hart.sstatus (x : Hart) : BitVec 64 :=
  BitVec.ofNat 64 (2 * x.sie.toNat + 32 * x.spie.toNat + 256 * x.spp.toNat)

/-- A control and status register. The counters among them, at 0xC00 and above, are free. -/
def State.readCsr (s : State) (x : Hart) (n : Nat) : BitVec 64 :=
  if n = 0x100 then x.sstatus ||| ((mget x.sys n).getD 0 &&& ~~~0x122#64)
  else if n = 0x105 then x.stvec
  else if n = 0x141 then x.sepc
  else if n = 0x142 then x.scause
  else if n = 0x143 then x.stval
  else if n < 0x100 then (mget x.more.csr n).getD 0
  else if 0xC00 ≤ n ∧ n < 0xC20 then Config.freeBits (.counter (1000 + n)) s.free
  else (mget x.sys n).getD 0

/-- The general core with a control and status register written. -/
def Hart.writeCsr (x : Hart) (n : Nat) (v : BitVec 64) : Hart :=
  if n = 0x100 then
    { x with sie := v.getLsbD 1, spie := v.getLsbD 5, spp := v.getLsbD 8, sys := mset x.sys n v }
  else if n = 0x105 then { x with stvec := v }
  else if n = 0x141 then { x with sepc := v &&& ~~~1#64 }
  else if n = 0x142 then { x with scause := v }
  else if n = 0x143 then { x with stval := v }
  else if n < 0x100 then { x with more := { x.more with csr := mset x.more.csr n v } }
  else { x with sys := mset x.sys n v }

/-- The register that a number names in a mode: VS-mode's supervisor registers are its own. -/
def Hart.csrNumber (x : Hart) (n : Nat) : Nat := if x.mode = .vs ∧ 0x100 ≤ n ∧ n < 0x200 then n + 0x100 else n

/-- May a mode read, and, if asked, write a register: by the privilege and the access that its number's bits [9:8] and [11:10] name? -/
def Hart.csrAllowed (x : Hart) (n : Nat) (write : Bool) : Bool :=
  let level := n / 256 % 4
  let mine := match x.mode with
    | .hs => 2
    | .vs => 1
    | .u | .vu => 0
  decide (level ≤ mine) && !(write && n / 1024 == 3)

/-- A control and status register is read and, perhaps, written. -/
def State.rvCsr (s : State) (h n : Nat) (rd : BitVec 5) (change : Option (BitVec 64 → BitVec 64)) : State :=
  let x := s.hart h
  if x.csrAllowed n change.isSome = false then s.hartIllegal h
  else
    let m := x.csrNumber n
    let old := s.readCsr x m
    let y := match change with
      | none => x
      | some f => x.writeCsr m (f old)
    (s.setHart h y).retire h rd old

/-- SRET: the return from a trap, to the mode, the pc and the status that its entry saved. -/
def State.rvReturn (s : State) (h : Nat) : State :=
  let x := s.hart h
  if x.mode ≠ .hs then s.hartIllegal h
  else
    let mode : HartMode := if x.spv then (if x.spp then .vs else .vu) else if x.spp then .hs else .u
    s.setHart h { x with pc := x.sepc, mode := mode, sie := x.spie, spie := true, spp := false, spv := false }

/-! Instructions outside the base set. -/

/-- A mode's number in `RvCore`. -/
def HartMode.num : HartMode → Nat
  | .hs => 0
  | .vs => 1
  | .vu => 2
  | .u => 3

/-- What a general core computes with. -/
def Hart.rvCore (x : Hart) : Config.RvCore := ⟨x.regs, x.more.f, x.more.v, x.more.csr, x.sys, x.mode.num, x.pc⟩

/-- Registers x1 to x31 of a list, without zeros of x0. -/
def Hart.withCore (x : Hart) (c : Config.RvCore) : Hart :=
  { x with regs := c.x.filter fun r => 0 < r.1 && r.1 < 32, more := ⟨c.f, c.v, c.csr⟩, sys := c.sys, pc := c.pc }

/-- The enclave in which a general core is. -/
def State.hartEncl (s : State) (h : Nat) : Nat := ((s.hart h).inside.map Inside.enclave).getD 0

/-- Where an access of a general core lies, or what becomes of one that stops. -/
def State.rvPlace (s : State) (h part : Nat) (k : AccessKind) (va : BitVec 64) (n : Nat) : Except State (List (Found × Nat)) :=
  match (s.hart h).inside with
  | none =>
      match s.osCheck part k.writes va.toNat n with
      | .fault => .error (s.hartTrap h (accessCause k) va)
      | .wait => .error (s.startSearch va.toNat n)
      | .ok => .ok [(.ok va.toNat ⟨0, 0, true, true, 0⟩, n)]
  | some i =>
      if va.toNat < 4096 then .error (s.hartTrap h (accessCause k) va)
      else
        match s.locate none i.enclave va k n with
        | .error st => .error (s.threadStop h k st)
        | .ok ps =>
            if (localPieces ps).isSome then .ok ps
            else if s.windowUp i.enclave (windowIn ps) = false then .error (s.hartTrap h (accessCause k) va)
            else if s.windowWaits i.enclave (windowIn ps) then .error s
            else .ok ps

/-- The bytes that some placed reads give; through a window they are sent for, and free. -/
def State.rvBytes (s : State) (h : Nat) (ps : List (List (Found × Nat) × Nat)) : State × List Byte :=
  ps.foldl (fun q p =>
    match localPieces p.1 with
    | some qs => (q.1.coreTouches h false qs, q.2 ++ q.1.readPieces qs)
    | none =>
        (q.1.askWindow (s.hartEncl h) (windowIn p.1) (windowAddr p.1) false (leBytes p.2 0),
          q.2 ++ s.windowBytes (windowAddr p.1) p.2)) (s, [])

/-- The writes of placed bytes. -/
def State.rvStores (s : State) (h : Nat) (ws : List (List (Found × Nat) × List Byte)) : State :=
  ws.foldl (fun s q =>
    match localPieces q.1 with
    | some qs => (s.coreTouches h true qs).writePieces qs q.2
    | none => s.askWindow (s.hartEncl h) (windowIn q.1) (windowAddr q.1) true q.2) s

/-- An instruction outside the base set: all of its accesses are checked, then they are made, and the core goes on or traps as no rule
of the spec says. -/
def State.rvOther (s : State) (h part : Nat) (w : Word) : State :=
  let c := (s.hart h).rvCore
  let run : Except State State := do
    let ps ← (Config.rvReads c w).mapM fun r => (s.rvPlace h part .load r.1 r.2).map fun p => (p, r.2)
    let r := s.rvBytes h ps
    let ws ← (Config.rvWrites c w r.2).mapM fun q => (s.rvPlace h part .store q.1 q.2.length).map fun p => (p, q.2)
    match Config.rvNext c w r.2 with
    | none => return s.hartTrap h (Config.rvTrap c w r.2).1 (Config.rvTrap c w r.2).2
    | some c' =>
        let s := r.1.rvStores h ws
        return s.setHart h ((s.hart h).withCore c')
  match run with
  | .ok s => s
  | .error s => s

/-- A general core executes a RISC-V word. -/
def State.riscv (s : State) (h part : Nat) (w : Word) : State :=
  match (s.hart h).decodeRv w with
  | .go rd v pc => s.setHart h { (s.hart h).setReg rd v with pc := pc }
  | .access va a => s.hartAccess h part va a
  | .trap cause tval => s.hartTrap h cause tval
  | .csr n rd change => s.rvCsr h n rd change
  | .sret => s.rvReturn h
  | .other => s.rvOther h part w

end Sys2Proof.Machine
end

