-- ==== Sys2Proof/Machine/Spill.lean ====
section
/-! DEFINITION. Spill accesses (R212): the loads and stores that a group makes of the spill region, before its instructions. -/

namespace Sys2Proof.Machine

/-- The bytes of the spill region that the executing path's code may use: none where its values fit the budget and it has no call
frame (R212, R294). -/
def Exe.spillBytes (x : Exe) : Nat :=
  if x.s.spillOf (x.g.lane x.first).top.tr = 0 ∧ x.depth = 0 then 0 else x.launch.spill

/-- The address of a spill access: eight bytes of the spill region, the top SPILL bytes of the team's save region (R412); which ones is
free. -/
def Exe.spillAddr (x : Exe) : BitVec 64 :=
  let l := x.launch
  x.s.saveBase x.g.team + BitVec.ofNat 64 (l.sstride - l.spill + Config.freeNat (.spillAt 1) x.s.free % (l.spill / 8) * 8)

/-- The executing path's spill access before its instruction: whether it makes one, of what kind and with what bytes is the grafter's
choice, and free (assumption log 46). On a fault the core stalls by R45, and the path comes again. -/
def Exe.spill (x : Exe) : Except State State :=
  let c := Config.freeNat (.spillAt 0) x.s.free % 3
  if x.spillBytes = 0 ∨ c = 0 ∨ x.p.stage ≠ .none then .ok x.s
  else
    let kind : AccessKind := if c = 1 then .load else .store
    match x.s.locate (some x.unit) x.eid x.spillAddr kind 8 with
    | .error st => .error (x.stopped kind st)
    | .ok ps =>
        match localPieces ps with
        | none => .error (x.stopped kind ⟨x.spillAddr, .window (windowIn ps) (windowAddr ps)⟩)
        | some ps =>
            let s := (x.touchAll 0 (c == 2) x.s ps).bump x.eid (7 + c) x.team.core 1
            .ok (if c = 1 then s else s.writePieces ps (leBytes 8 (Config.freeNat (.spillAt 2) x.s.free)))

end Sys2Proof.Machine
end

