-- ==== Sys2Proof/Machine/Step.lean ====
section
/-! DEFINITION. The step of the machine: the agent whose turn it is moves. -/

namespace Sys2Proof.Machine

/-- The executing path issues the instruction at its pc, after a spill access of its code (R212). The grafter lets no malformed
word into a translation (R211), so nothing moves on one. -/
def issueStep (s : State) : Host.Outcome State Fault Refusal :=
  match s.exe? with
  | none => .next s
  | some x =>
      match x.spill with
      | .error s => .next s
      | .ok s =>
          match x.fetched with
          | .ok i => exec i s
          | .illegal _ => .next (x.upon s).illegal
          | .undefinedMajor | .malformed => .next s

/-- A path issues, if it may. One whose core's arrays hold a double-bit error meets it (R79). -/
def pathStep (s : State) (gid pid : Nat) : Host.Outcome State Fault Refusal :=
  if s.ready gid pid then
    let core := (s.team (s.group gid).team).core
    let s := (s.replayed (.path gid pid)).coreRead core
    if s.coreErrs.contains core then .next (s.arrayFault core) else issueStep { s with cur := some (gid, pid) }
  else .next s

/-- A general core executes the instruction at its pc: a custom-0 instruction (R387), or one of RISC-V's (R1). -/
def hartStep (s : State) (h : Nat) : Host.Outcome State Fault Refusal :=
  let x := s.hart h
  match s.partOf h with
  | none => .next s
  | some p =>
      if x.inReset || x.wait != .nothing then .next s
      else
        match s.hartFetch h p with
        | .error s => .next s
        | .ok (s, w) =>
            if isCustomWord w.toNat then
              match decodeCustom w with
              | some i => exec i { s with curHart := h }
              | none => .next (s.hartIllegal h)
            else .next (s.riscv h p w)

/-- One step: the first of the turns decides who moves; without one, the path that moved last goes on. Every step advances
the counter of free values. -/
def step (s : State) : Host.Outcome State Fault Refusal :=
  let s' : State := { s with turns := s.turns.tail, free := s.free + 1 }
  match s.turns with
  | .event i :: _ => if i.isEvent then exec i s' else .next s'
  | .path g p :: _ => pathStep s' g p
  | .hart h :: _ => hartStep s' h
  | [] =>
      match s.cur with
      | some (g, p) => pathStep s' g p
      | none => .next s'

/-- The launch that `withFetchWord` places: one team of one group of 16 lanes. -/
def fetchLaunch : Launch :=
  ⟨1, 1, 0,
   leBytes 12 0 ++ [16, 1, 1, 0] ++ leBytes 4 1 ++ leBytes 4 1 ++ leBytes 4 1 ++ leBytes 4 1 ++ leBytes 4 32 ++
     List.replicate 92 0,
   [], [], .dispatched, 0, 0, 0, 0, 0, [], [], [], 0, false, false, 0⟩

/-- The state with an instruction at the pc of a path of a placed launch, or, for a custom-0 word, at the pc of general
core 0; the next step fetches and runs it. It stands for the load of a program from outside (assumption log 11). -/
def State.withFetchWord (s : State) (nbits w : Nat) : State :=
  let v := w % 2 ^ nbits
  let part : Part := { Part.empty with formed := true, booted := true, cores := [0], halls := [0] }
  let s := s.setPart 0 part
  if isCustomWord v then
    { s with
      turns := [.hart 0]
      harts := mset s.harts 0 { Hart.reset with pc := 4096, inReset := false }
      pot := mset s.pot 1 ⟨0, 0, 0, .owned, 0, 0, false, false⟩
      mem := writeBytes s.mem 4096 (leBytes 4 v) }
  else
    { s with
      turns := [.path 0 0]
      next := max s.next 1
      encls := mset s.encls 1 { s.encl 1 with state := .measured }
      launches := mset s.launches 0 fetchLaunch
      teams := mset s.teams 0 ⟨0, 0, 0, 0, true, [], [], [], 0, []⟩
      groups := mset s.groups 0
        ⟨0, 0, 0, 0, 16, [(0, ⟨[⟨0, 0, 0, [], []⟩], none⟩)], 0xFFFE,
         ⟨[(0, Path.start 0 1 modeReset [] none .core)], [], [], [], []⟩, none, 0xFFFF, 0x7FFE, 0, 1, false, false⟩
      trans := mset s.trans 0 ⟨1, 0, 0, 0, 16, 32, 0, wordsOf 22 v, [], [], none, true, []⟩ }

end Sys2Proof.Machine
end

