-- ==== Sys2Proof/Machine/Order.lean ====
section
/-! DEFINITION. The memory consistency model (R90 to R126): parties, scopes, kinds of operations, the ordering matrices, and
which executions are allowed. The machine's own steps interleave the parties' operations one at a time (assumption log 12);
this file tells, of an execution written out event by event, whether the spec allows it. -/

namespace Sys2Proof.Machine.Order

/-- Where a party runs (R91). Teams, gangs, halls, dies and packages are numbered once for all; `fabric` numbers the set of
packages that link streams join for the enclave. -/
structure Place where
  enclave : Nat
  fabric : Nat
  package : Nat
  die : Nat := 0
  hall : Nat := 0
  gang : Nat := 0
  team : Nat := 0
  deriving DecidableEq, Repr

/-- The parties of the model (R90). A lane stays the same party wherever it runs; each event has its place of its own. -/
inductive Party where
  | lane (launch group idx : Nat)
  /-- The thread of an engine operation, at the team of the lane that issued it. -/
  | engine (op : Nat)
  /-- The thread of a collective operation. -/
  | collective (op : Nat)
  /-- An enclave CPU thread. -/
  | cpu (idx : Nat)
  /-- A thread of a partition's operating system. -/
  | os (part idx : Nat)
  /-- The host or a TDISP device over one link stream, with the (enclave, fabric) instances the stream is bound to. -/
  | outside (stream : Nat) (bound : List (Nat × Nat))
  /-- What writes completion objects and the fault queue and reads code for an enclave in a package (assumption log 115). -/
  | machinery (enclave package : Nat)
  deriving DecidableEq, Repr

/-- The keys of the instances of a scope that take in a lane or an engine thread at a place. -/
def Place.keys (a : Place) : Scope → List (List Nat)
  | .lane | .group => []
  | .team => [[2, a.team]]
  | .gang => [[3, a.gang]]
  | .hall => [[4, a.enclave, a.hall]]
  | .die => [[5, a.enclave, a.die]]
  | .package => [[6, a.enclave, a.package]]
  | .fabric => [[7, a.enclave, a.fabric]]
  | .system => [[8, a.enclave, a.fabric]]

/-- The instances of a scope in which a party at a place lies, by key; a party's lane instance holds it alone (R91, R92). -/
def Party.keys (p : Party) (a : Place) (s : Scope) : List (List Nat) :=
  match p, s with
  | .lane l g i, .lane => [[0, 0, l, g, i]]
  | .lane l g _, .group => [[1, l, g]]
  | .lane .., s => a.keys s
  | .engine op, .lane => [[0, 1, op]]
  | .engine _, s => a.keys s
  | .collective op, .lane => [[0, 2, op]]
  | .collective _, .fabric => a.keys .fabric
  | .collective _, .system => a.keys .system
  | .collective _, _ => []
  | .cpu i, .lane => [[0, 3, a.enclave, a.package, i]]
  | .cpu _, .package => a.keys .package
  | .cpu _, .fabric => a.keys .fabric
  | .cpu _, .system => a.keys .system
  | .cpu _, _ => []
  | .os p i, .lane => [[0, 4, p, a.package, i]]
  | .os p _, .package => [[9, p, a.package]]
  | .os _ _, _ => []
  | .outside k _, .lane => [[0, 5, k]]
  | .outside _ b, .system => b.map fun x => [8, x.1, x.2]
  | .outside _ _, _ => []
  | .machinery e p, .lane => [[0, 6, e, p]]
  | .machinery .., .package => a.keys .package
  | .machinery .., .fabric => a.keys .fabric
  | .machinery .., .system => a.keys .system
  | .machinery .., _ => []

/-- The scopes, narrowest first. -/
def scopes : List Scope := [.lane, .group, .team, .gang, .hall, .die, .package, .fabric, .system]

def rank : Scope → Nat
  | .lane => 0
  | .group => 1
  | .team => 2
  | .gang => 3
  | .hall => 4
  | .die => 5
  | .package => 6
  | .fabric => 7
  | .system => 8

/-- The effective scope of an engine operation: the scope written, widened to the least of its class (R102). -/
def effective (written least : Scope) : Scope := if rank written < rank least then least else written

/-- The eight kinds of operations (R95). -/
inductive Kind where
  | pl | ps | acq | rel | rlx | fen | ei | eo
  deriving DecidableEq, Repr

/-- The orders of the instructions' spellings (R96). -/
inductive Ord where
  | plain | rlx | acq | rel | ar | sc
  deriving DecidableEq, Repr

/-- What an arrive and a depart belong to (R103, R219): a phase of a barrier, a landing, a flight or a collective barrier; a
launch's start, from its kick or LAUNCH to its lanes; its end, from its lanes to its retirement; a queue dependence on its
completion object; the replay of a fault's accesses; a rewritten function, from XCTL.INV to the grafter's reads. -/
inductive Meet where
  | barrier (k : Nat)
  | landing (k : Nat)
  | flight (k : Nat)
  | coll (k : Nat)
  | start (launch : Nat)
  | finish (launch : Nat)
  | dependence (launch : Nat)
  | replay (fault : Nat)
  | rewrite (k : Nat)
  deriving DecidableEq, Repr

/-- The scope of a meeting's edges (R103). -/
def Meet.scope : Meet → Scope
  | .barrier _ => .team
  | .landing _ => .group
  | .flight _ => .die
  | .coll _ => .fabric
  | .start _ | .finish _ | .dependence _ | .replay _ | .rewrite _ => .package

/-- What an event does. An issue carries its operation's number and the least effective scope of its class (R102). -/
inductive Act where
  | load (o : Ord)
  | store (o : Ord)
  | rmw (o : Ord)
  | fence (o : Ord)
  | issue (op : Nat) (least : Scope)
  | observe (op : Nat)
  | arrive (k : Meet)
  | depart (k : Meet)
  deriving DecidableEq, Repr

/-- The orders an operation has a form for (R96). -/
def Act.hasForm : Act → Bool
  | .load o => o == .plain || o == .rlx || o == .acq
  | .store o => o == .plain || o == .rlx || o == .rel
  | .rmw o => o == .rlx || o == .acq || o == .rel || o == .ar
  | .fence o => o == .acq || o == .rel || o == .ar || o == .sc
  | .issue .. | .observe _ | .arrive _ | .depart _ => true

/-! RISC-V operations (R119). -/

/-- A memory operation or a fence of a general core, with its aq and rl bits, or its sets as reads and writes. -/
inductive RiscvOp where
  | load | store
  | amo (aq rl : Bool)
  | lr (aq rl : Bool)
  | sc (aq rl : Bool)
  | fence (predR predW succR succW : Bool)
  | fenceTso
  deriving DecidableEq, Repr

/-- The kinds towards other parties (R119). -/
def RiscvOp.kinds : RiscvOp → List Kind
  | .load => [.pl]
  | .store => [.ps]
  | .amo aq rl | .lr aq rl | .sc aq rl =>
      match aq, rl with
      | true, true => [.acq, .rel]
      | true, false => [.acq]
      | false, true => [.rel]
      | false, false => [.rlx]
  | .fence .. | .fenceTso => [.fen]

/-- What a RISC-V operation does; a fence takes its order by its sets (R119). -/
def RiscvOp.act : RiscvOp → Act
  | .load => .load .plain
  | .store => .store .plain
  | .amo .. => .rmw .rlx
  | .lr .. => .load .rlx
  | .sc .. => .store .rlx
  | .fence true false true _ => .fence .acq
  | .fence _ true false true => .fence .rel
  | .fence .. => .fence .sc
  | .fenceTso => .fence .ar

/-- The acquire and the release annotation of RVWMO. -/
def RiscvOp.aq : RiscvOp → Bool
  | .amo aq _ | .lr aq _ | .sc aq _ => aq
  | _ => false
def RiscvOp.rl : RiscvOp → Bool
  | .amo _ rl | .lr _ rl | .sc _ rl => rl
  | _ => false

/-- The operation of a general core's access, as the machine's step has it. -/
def riscvOf : HartAccess → RiscvOp
  | .load .. | .fetch => .load
  | .store .. => .store
  | .amo _ _ _ _ aq rl => .amo aq rl
  | .lr _ _ aq rl => .lr aq rl
  | .sc _ _ _ aq rl => .sc aq rl
  | .fence a b c d => .fence a b c d
  | .fenceTso => .fenceTso

/-! Events. -/

/-- The larger unit that an event is a part of: half of a 16-byte access aligned to 16 (R99), 8 bytes of a granule that an
engine operation covers whole (R121), or an element or the scale of an MX or BFP unit that an engine operation accesses (R122).
`n` numbers the access and `a` is the unit's first location. -/
inductive Block where
  | pair (n a : Nat)
  | granule (n a : Nat)
  | mx (n : Nat)
  deriving DecidableEq, Repr

/-- An event: a party's operation on one single-copy atomic unit (R97, R99), or one that touches no memory. -/
structure Ev where
  party : Party
  /-- Where the party runs at the event. -/
  place : Place
  act : Act
  scope : Scope
  /-- The locations of the unit: bytes of one frame or allocation keep their alignment in their numbers. -/
  locs : List Nat := []
  /-- A plain access to the issuing team's own scratchpad, below A and not through a window (R111 n5). -/
  own : Bool := false
  block : Option Block := none
  /-- The RISC-V operation of a general core (R119). -/
  rv : Option RiscvOp := none
  /-- The events that the address, the data and the control of a general core's operation depend on (RVWMO). -/
  addrDep : List Nat := []
  dataDep : List Nat := []
  ctrlDep : List Nat := []
  deriving DecidableEq, Repr

def Ev.reads (e : Ev) : Bool := match e.act with | .load _ | .rmw _ => true | _ => false
def Ev.writes (e : Ev) : Bool := match e.act with | .store _ | .rmw _ => true | _ => false
def Ev.isRmw (e : Ev) : Bool := match e.act with | .rmw _ => true | _ => false

def Ev.engine (e : Ev) : Bool := match e.party with | .engine _ | .collective _ => true | _ => false

/-- Is an event a general core's? -/
def Ev.general (e : Ev) : Bool := match e.party with | .cpu _ | .os _ _ => true | _ => false

/-- Is an access atomic: neither plain nor of an engine thread (R95, R104)? -/
def Ev.atomic (e : Ev) : Bool :=
  !e.engine &&
    match e.act with
    | .load o | .store o => o != .plain
    | .rmw _ => true
    | _ => false

def Ev.isSc (e : Ev) : Bool := e.act == .fence .sc

def Ev.keys (e : Ev) (s : Scope) : List (List Nat) := e.party.keys e.place s

/-- Do two events' parties lie within a scope: in one instance of it (R92)? -/
def within (s : Scope) (x y : Ev) : Bool := (x.keys s).any fun k => (y.keys s).contains k

/-- The common scope of two events' parties: the narrowest within which both lie (R92). -/
def commonScope (x y : Ev) : Option Scope := scopes.find? fun s => within s x y

/-- R94: an operation at a scope by one party and another by the other party link the two. -/
def linked (s t : Scope) (x y : Ev) : Bool := within s x y && within t x y

/-- The kinds of an event (R95); a device's writes are seen in the order they were sent, each a release (R120). -/
def Ev.kinds (e : Ev) : List Kind :=
  match e.rv, e.party, e.act with
  | some o, _, _ => o.kinds
  | none, .outside _ _, .store _ => [.rel]
  | none, _, .load .plain => [.pl]
  | none, _, .load .acq => [.acq]
  | none, _, .load _ => [.rlx]
  | none, _, .store .plain => [.ps]
  | none, _, .store .rel => [.rel]
  | none, _, .store _ => [.rlx]
  | none, _, .rmw .acq => [.acq]
  | none, _, .rmw .rel => [.rel]
  | none, _, .rmw .ar => [.acq, .rel]
  | none, _, .rmw _ => [.rlx]
  | none, _, .fence _ => [.fen]
  | none, _, .issue .. => [.ei]
  | none, _, .observe _ => [.eo]
  | none, _, .arrive _ => [.rel]
  | none, _, .depart _ => [.acq]

/-- Demotion (R108): the kinds with which an event of a scope `eff` is read in the matrix of a scope. An arrive or a depart that is
demoted accesses nothing, and has no kind left. -/
def Ev.kindsAt (s eff : Scope) (e : Ev) : List Kind :=
  e.kinds.filterMap fun k =>
    if rank s ≤ rank eff then some k
    else
      match k with
      | .acq | .rel => if e.reads || e.writes then some .rlx else none
      | .fen | .ei | .eo => none
      | .pl | .ps | .rlx => some k

/-- Is an earlier event of a kind among those that FENCE.ACQ orders (R109, first row)? -/
def acqRow (k : Kind) (e : Ev) : Bool := k == .pl || k == .acq || (k == .rlx && e.reads) || k == .eo

/-- Is a later event of a kind among those that FENCE.REL orders (R109, second row)? -/
def relRow (k : Kind) (e : Ev) : Bool := k == .ps || k == .rel || (k == .rlx && e.writes) || k == .ei

/-- Is the order of two kinds of one party kept at a scope (R110 to R118): the cells marked K, but for note n2's order of a read before
a later write, which `Exec.keptNode` adds, and for note n3's of a fence, which `fenced` and `besideFence` add? -/
def keptKinds (s : Scope) (x y : Ev) (kx ky : Kind) : Bool :=
  if s == .lane then true
  else
    match kx, ky with
    | .acq, _ | .eo, _ | .fen, .fen => true
    | .fen, _ | _, .fen => false
    | .pl, .ps | .pl, .rel | .pl, .ei => true
    | .ps, .ps => (s == .group || s == .team) && x.own && y.own
    | .ps, .rel | .ps, .ei => true
    | .rel, .rel | .rel, .ei => true
    | .rlx, .rel | .rlx, .ei => true
    | .ei, .rel => true
    | .pl, _ | .ps, _ | .rel, _ | .rlx, _ | .ei, _ => false

def shares (x y : Ev) : Bool := x.locs.any fun l => y.locs.contains l

/-- Does a fence order an earlier event of a kind before a later one (R109)? FENCE.AR orders by both of its rows, and an earlier store
before a later load by neither. -/
def Ord.orders (o : Ord) (x y : Ev) (kx ky : Kind) : Bool :=
  match o with
  | .acq => acqRow kx x
  | .rel => relRow ky y
  | .ar => acqRow kx x || relRow ky y
  | .sc => true
  | .plain | .rlx => false

/-! Single-copy atomic units (R99, R121 to R123). -/

/-- n locations from a on. -/
def run (a n : Nat) : List Nat := List.range' a n

/-- The units of a lane's access (R99): whole when naturally aligned to 1, 2, 4 or 8 bytes, two halves when 16 bytes aligned to 16, and
else byte by byte. -/
def accessUnits (a size : Nat) : List (List Nat) :=
  if (size = 1 ∨ size = 2 ∨ size = 4 ∨ size = 8) ∧ a % size = 0 then [run a size]
  else if size = 16 ∧ a % 16 = 0 then [run a 8, run (a + 8) 8]
  else (run a size).map fun b => [b]

/-- The units of an engine operation in the granule at a, of which it covers the locations of a list, in elements of a size in bytes
(R121): each aligned 8 bytes of a granule that it covers whole, and else each element, byte by byte where its size is none of 1, 2, 4
and 8. -/
def granuleUnits (a size : Nat) (covered : List Nat) : List (List Nat) :=
  if (run a 64).all covered.contains then (List.range 8).map fun i => run (a + 8 * i) 8
  else ((List.range 64).filter fun i => i % max size 1 = 0 ∧ (run (a + i) (max size 1)).all covered.contains).flatMap fun i =>
    accessUnits (a + i) (max size 1)

/-- Are locations a unit: an aligned run of 1, 2, 4 or 8 of them? -/
def isUnit (ls : List Nat) : Bool := [1, 2, 4, 8].any fun n => ls.length == n && ls.headD 0 % n == 0 && ls == run (ls.headD 0) n

/-- Does a block name a unit that an event can be a part of? -/
def Block.fits (b : Block) (e : Ev) : Bool :=
  match b with
  | .pair _ a => !e.engine && a % 16 == 0 && (e.locs == run a 8 || e.locs == run (a + 8) 8)
  | .granule _ a => e.engine && a % 64 == 0 && (List.range 8).any fun i => e.locs == run (a + 8 * i) 8
  | .mx _ => e.engine

/-- A store of a 4-bit or 2-bit element: it reads its byte and writes it, and nothing joins the two (R123). -/
def subByteStore (p : Party) (at_ : Place) (byte : Nat) : List Ev :=
  [{ party := p, place := at_, act := .load .plain, scope := .lane, locs := [byte] },
    { party := p, place := at_, act := .store .plain, scope := .lane, locs := [byte] }]

/-- Pre-emption and restore act for each party of the launch as a FENCE.SC at system scope (R125). -/
def preemption (p : Party) (at_ : Place) : Ev := { party := p, place := at_, act := .fence .sc, scope := .system }

/-- A party's arrive at a meeting, and its depart (R103). -/
def Meet.arrive (k : Meet) (p : Party) (at_ : Place) : Ev := { party := p, place := at_, act := .arrive k, scope := k.scope }
def Meet.depart (k : Meet) (p : Party) (at_ : Place) : Ev := { party := p, place := at_, act := .depart k, scope := k.scope }

/-- A launch's retirement (R103, R395): after its lanes and its engine operations, the body of the completion object as plain stores,
its first four bytes as one release at package scope, and what a queue dependence on it takes up. -/
def retirement (m : Party) (at_ : Place) (l obj : Nat) (ops : List Nat) : List Ev :=
  (Meet.finish l).depart m at_ ::
    ops.map (fun op => { party := m, place := at_, act := .observe op, scope := .package }) ++
    (List.range 3).map (fun i => { party := m, place := at_, act := .store .plain, scope := .lane, locs := run (obj + 8 * (i + 1)) 8 }) ++
    [{ party := m, place := at_, act := .store .plain, scope := .lane, locs := run (obj + 4) 4 },
      { party := m, place := at_, act := .store .rel, scope := .package, locs := run obj 4 }, (Meet.dependence l).arrive m at_]

/-- A fault record: its 64 bytes, and the fault queue's TAIL, released at system scope (R46, R103). -/
def faultRecord (m : Party) (at_ : Place) (record tail : Nat) : List Ev :=
  (List.range 8).map (fun i => { party := m, place := at_, act := .store .plain, scope := .lane, locs := run (record + 8 * i) 8 }) ++
    [{ party := m, place := at_, act := .store .rel, scope := .system, locs := run tail 4 }]

/-- An execution: the events of every party, each party's in program order; from which write each location of a read takes its
value (none: the initial value); and for each location the order of its writes (R97). -/
structure Exec where
  evs : List Ev
  /-- (read, location, write); a location not listed reads the initial value. -/
  rf : List (Nat × Nat × Nat)
  /-- (location, its writes in coherence order). -/
  co : List (Nat × List Nat)
  deriving DecidableEq, Repr

namespace Exec

variable (x : Exec)

def ev (i : Nat) : Ev := x.evs.getD i { party := .os 0 0, place := ⟨0, 0, 0, 0, 0, 0, 0⟩, act := .load .plain, scope := .lane }

def idxs : List Nat := List.range x.evs.length

/-- Program order. The accesses of one engine thread are not ordered among themselves (R102). -/
def po (i j : Nat) : Bool := i < j && (x.ev i).party == (x.ev j).party && !(x.ev i).engine

/-- The issue of an operation. -/
def issueOf (op : Nat) : Option Ev := x.evs.find? fun e => match e.act with | .issue o _ => o == op | _ => false

/-- The effective scope of an operation (R102): a future holds it, so that its observations have it too. -/
def opScope (op : Nat) : Option Scope :=
  (x.issueOf op).map fun e => match e.act with | .issue _ least => effective e.scope least | _ => e.scope

/-- The scope, or effective scope, of an event. -/
def scopeOf (i : Nat) : Scope :=
  match (x.ev i).act with
  | .issue _ least => effective (x.ev i).scope least
  | .observe op => (x.opScope op).getD (x.ev i).scope
  | _ => (x.ev i).scope

def kindsAt (s : Scope) (i : Nat) : List Kind := (x.ev i).kindsAt s (x.scopeOf i)

/-- The writes of a location in coherence order. -/
def coOf (l : Nat) : List Nat := ((x.co.find? (·.1 == l)).map (·.2)).getD []

/-- The write a read takes a location's value from. -/
def source (r l : Nat) : Option Nat := (x.rf.find? fun a => a.1 == r && a.2.1 == l).map (·.2.2)

def before (ws : List Nat) (i j : Nat) : Bool := ((ws.dropWhile (· != i)).drop 1).contains j

def coAt (l i j : Nat) : Bool := before (x.coOf l) i j

def rfAt (l i j : Nat) : Bool := (x.ev j).reads && (x.ev j).locs.contains l && x.source j l == some i

/-- From-read at a location: a read to every write that follows the write it read. -/
def frAt (l i j : Nat) : Bool :=
  i != j && (x.ev i).reads && (x.ev i).locs.contains l &&
    match x.source i l with
    | none => (x.coOf l).contains j
    | some w => x.coAt l w j

def rfE (i j : Nat) : Bool := (x.ev j).locs.any fun l => x.rfAt l i j
def coE (i j : Nat) : Bool := (x.ev i).locs.any fun l => x.coAt l i j
def frE (i j : Nat) : Bool := (x.ev i).locs.any fun l => x.frAt l i j

/-- The operation an engine thread performs. -/
def threadOp (p : Party) : Option Nat :=
  match p with
  | .engine op | .collective op => some op
  | _ => none

/-- Is an event one that its party performs: an engine thread's are plain accesses at its issuer's place (R91, R104), a general
core's are RISC-V operations at package scope (R119), an outside party's are at system scope (R120), a meeting's have its scope
(R103), and an observation is of an operation that was issued? -/
def proper (e : Ev) : Bool :=
  e.act.hasForm &&
  (!(e.reads || e.writes) || isUnit e.locs) &&
  (match e.block with
    | none => true
    | some b => b.fits e) &&
  (match e.act with
    | .arrive k | .depart k => e.scope == k.scope
    | .observe op => (x.issueOf op).isSome
    | _ => true) &&
  match e.party with
  | .engine op | .collective op =>
      (e.act == .load .plain || e.act == .store .plain) &&
        match x.issueOf op with
        | none => false
        | some i => e.place == i.place
  | .cpu _ | .os _ _ =>
      e.scope == .package &&
        match e.rv with
        | some o => e.act == o.act
        | none => match e.act with | .arrive _ | .depart _ => true | _ => false
  | .outside _ _ => e.scope == .system && (e.act == .load .plain || e.act == .store .plain)
  | .lane .. | .machinery .. => e.rv.isNone

/-- The parts of one larger unit are of one party and do one thing. -/
def blocksAgree : Bool :=
  x.evs.all fun e => x.evs.all fun f =>
    !(e.block.isSome && e.block == f.block) || (e.party == f.party && e.act == f.act)

/-- What reads from where is well formed: a read takes a value from a write of its location, and coherence orders exactly the
writes of each location, each once. -/
def wellFormed : Bool :=
  x.evs.all x.proper && x.blocksAgree &&
  x.rf.all (fun a => (x.ev a.1).reads && (x.ev a.1).locs.contains a.2.1 && (x.ev a.2.2).writes &&
    (x.ev a.2.2).locs.contains a.2.1 && a.1 != a.2.2) &&
  (x.evs.all fun e => e.locs.all fun l =>
    let ws := x.idxs.filter fun i => (x.ev i).writes && (x.ev i).locs.contains l
    decide ((x.coOf l).Nodup) && (x.coOf l).all ws.contains && ws.all (x.coOf l).contains)

/-! Nodes: the read and the write of an RMW are parts of their own, with others between them or none (R100). -/

/-- Event i's node is 2i; an RMW's read is 2i and its write 2i + 1. -/
def nodesOf (is : List Nat) : List Nat := is.flatMap fun i => if (x.ev i).isRmw then [2 * i, 2 * i + 1] else [2 * i]

def readNode (n : Nat) : Bool := (x.ev (n / 2)).reads && n % 2 == 0

def writeNode (n : Nat) : Bool := (x.ev (n / 2)).writes && (!(x.ev (n / 2)).isRmw || n % 2 == 1)

/-- Reads-from, coherence and from-read between nodes. -/
def rfN (a b : Nat) : Bool := x.writeNode a && x.readNode b && x.rfE (a / 2) (b / 2)
def coN (a b : Nat) : Bool := x.writeNode a && x.writeNode b && x.coE (a / 2) (b / 2)
def frN (a b : Nat) : Bool := x.readNode a && x.writeNode b && x.frE (a / 2) (b / 2)

/-- The read of an RMW comes before its write. -/
def inside (a b : Nat) : Bool := a / 2 == b / 2 && a < b

/-- Events without a predecessor among the rest leave, until none can; nothing is left exactly when a relation has no
cycle. -/
def peel (r : Nat → Nat → Bool) : Nat → List Nat → List Nat
  | 0, xs => xs
  | n + 1, xs => peel r n (xs.filter fun j => xs.any fun i => r i j)

def acyclic (r : Nat → Nat → Bool) (xs : List Nat) : Bool := (peel r xs.length xs).isEmpty

/-- What a relation reaches from a set in so many steps. -/
def reach (r : Nat → Nat → Bool) (all : List Nat) : Nat → List Nat → List Nat
  | 0, xs => xs
  | n + 1, xs => reach r all n (all.filter fun j => xs.contains j || xs.any fun i => r i j)

/-- Does a relation lead from a node back to it, among some nodes? -/
def onCycle (r : Nat → Nat → Bool) (all : List Nat) (n : Nat) : Bool :=
  (reach r all all.length (all.filter fun j => r n j)).contains n

/-- Every location is coherent for all parties together (R98). -/
def coherent : Bool :=
  (x.evs.flatMap Ev.locs).all fun l =>
    acyclic (fun a b => inside a b || x.po (a / 2) (b / 2) || (x.writeNode a && x.readNode b && x.rfAt l (a / 2) (b / 2)) ||
        (x.writeNode a && x.writeNode b && x.coAt l (a / 2) (b / 2)) || (x.readNode a && x.writeNode b && x.frAt l (a / 2) (b / 2)))
      (x.nodesOf (x.idxs.filter fun i => (x.ev i).locs.contains l))

/-- Is an RMW atomic against another atomic write: each party lies within the other's scope (R100)? -/
def reachEachOther (i j : Nat) : Bool := linked (x.ev i).scope (x.ev j).scope (x.ev i) (x.ev j)

/-- Between an RMW's read and its write, coherence holds no atomic write that it is atomic against (R100). Another write may stand
there: the two race, and an update is lost. -/
def rmwAtomic : Bool :=
  x.idxs.all fun i => !(x.ev i).isRmw || (x.ev i).locs.all fun l =>
    x.idxs.all fun j =>
      !(x.frAt l i j && x.coAt l j i && (x.ev j).atomic && x.reachEachOther i j)

/-- Does an event come before another at a location they share, through reads-from, coherence and from-read? -/
def comAt (l i j : Nat) : Bool :=
  x.rfAt l i j || x.coAt l i j || x.frAt l i j ||
    x.idxs.any fun k => (x.coAt l i k || x.frAt l i k) && x.rfAt l k j

def com (i j : Nat) : Bool := (x.ev i).locs.any fun l => x.comAt l i j

/-- Is one larger unit whole towards another: at team scope and below, and an MX or BFP unit towards engine accesses only (R99, R121,
R122)? -/
def wholeTo (e f : Ev) : Bool :=
  within .team e f &&
    match e.block, f.block with
    | some (.mx _), some _ | some _, some (.mx _) => e.engine && f.engine
    | some _, some _ => true
    | _, _ => false

/-- Two larger units are not torn: no part of one is before a part of the other while another is after (R99, R121, R122). -/
def whole : Bool :=
  x.idxs.all fun i => x.idxs.all fun j =>
    !(wholeTo (x.ev i) (x.ev j) && (x.ev i).block != (x.ev j).block && x.com i j &&
      x.idxs.any fun k => (x.ev k).block == (x.ev i).block &&
        x.idxs.any fun m => (x.ev m).block == (x.ev j).block && x.com m k)

/-! Synchronisation. -/

/-- The events at which a write acts as a release, with the scopes: itself, and every releasing fence before it (R101). -/
def releases (w : Nat) : List (Nat × Scope) :=
  (if (x.ev w).kinds.contains .rel then [(w, (x.ev w).scope)] else []) ++
    (x.idxs.filter fun f => x.po f w && (x.ev w).atomic &&
      match (x.ev f).act with | .fence o => o == .rel || o == .ar || o == .sc | _ => false).map fun f => (f, (x.ev f).scope)

/-- The events at which a read acts as an acquire: itself, and every acquiring fence after it (R101). -/
def acquires (r : Nat) : List (Nat × Scope) :=
  (if (x.ev r).kinds.contains .acq then [(r, (x.ev r).scope)] else []) ++
    (x.idxs.filter fun f => x.po r f && (x.ev r).atomic &&
      match (x.ev f).act with | .fence o => o == .acq || o == .ar || o == .sc | _ => false).map fun f => (f, (x.ev f).scope)

/-- A read takes a value from a write, or from an RMW that follows it and is atomic against it (R101). -/
def takes (w r : Nat) : Bool :=
  (x.ev r).locs.any fun l =>
    match x.source r l with
    | none => false
    | some v => v == w || ((x.ev v).isRmw && x.coAt l w v && x.reachEachOther w v)

/-- R101: a release synchronises with an acquire. -/
def swMemory (i j : Nat) : Bool :=
  x.idxs.any fun w => x.idxs.any fun r =>
    (x.ev w).writes && (x.ev r).reads && x.takes w r &&
      (x.releases w).any fun a => a.1 == i && (x.acquires r).any fun b =>
        b.1 == j && linked a.2 b.2 (x.ev w) (x.ev r)

/-- R102: the fork edge and the join edge of an engine operation, both at its effective scope. -/
def swEngine (i j : Nat) : Bool :=
  match (x.ev i).act, (x.ev j).act with
  | .issue op _, _ => threadOp (x.ev j).party == some op && within (x.scopeOf i) (x.ev i) (x.ev j)
  | _, .observe op => threadOp (x.ev i).party == some op && within (x.scopeOf j) (x.ev i) (x.ev j)
  | _, _ => false

/-- R103: the arrive of every participant synchronises with the depart of every participant. -/
def swMeet (i j : Nat) : Bool :=
  match (x.ev i).act, (x.ev j).act with
  | .arrive k, .depart m => k == m && linked (x.ev i).scope (x.ev j).scope (x.ev i) (x.ev j)
  | _, _ => false

def hb1 (i j : Nat) : Bool := x.po i j || x.swMemory i j || x.swEngine i j || x.swMeet i j

/-- Happens-before (R104), row by row. -/
def hbRows : List (List Nat) :=
  x.idxs.map fun i => reach x.hb1 x.idxs x.evs.length (x.idxs.filter fun j => x.hb1 i j)

def inRows (rows : List (List Nat)) (i j : Nat) : Bool := (rows.getD i []).contains j

def hb (i j : Nat) : Bool := inRows x.hbRows i j

/-! The ordering rule. -/

/-- Is the order of two events of one party kept at a scope by their kinds, or by a location they share (R107, R111 n1)? -/
def kept (s : Scope) (i j : Nat) : Bool :=
  shares (x.ev i) (x.ev j) ||
    (x.kindsAt s i).any fun kx => (x.kindsAt s j).any fun ky => keptKinds s (x.ev i) (x.ev j) kx ky

/-- Does a fence of one party keep an earlier event of it before a later one at a scope (R109)? -/
def fenced (s : Scope) (i f j : Nat) : Bool :=
  match (x.ev f).act with
  | .fence o =>
      decide (rank s ≤ rank (x.ev f).scope) &&
        (x.kindsAt s i).any fun kx => (x.kindsAt s j).any fun ky => o.orders (x.ev i) (x.ev j) kx ky
  | _ => false

/-- Is an event kept beside a fence (note n3): one that the fence orders, before it; one that it orders others before, after it?
FENCE.AR, which keeps an earlier store before a later load by neither of its rows, is not such a point by itself. -/
def besideFence (s : Scope) (i j : Nat) : Bool :=
  match (x.ev i).act, (x.ev j).act with
  | _, .fence .acq => decide (rank s ≤ rank (x.ev j).scope) && (x.kindsAt s i).any fun k => acqRow k (x.ev i)
  | _, .fence .rel => decide (rank s ≤ rank (x.ev j).scope)
  | .fence .acq, _ => decide (rank s ≤ rank (x.ev i).scope)
  | .fence .rel, _ => decide (rank s ≤ rank (x.ev i).scope) && (x.kindsAt s j).any fun k => relRow k (x.ev j)
  | .fence .sc, _ => decide (rank s ≤ rank (x.ev i).scope)
  | _, .fence .sc => decide (rank s ≤ rank (x.ev j).scope)
  | _, _ => false

/-- The program order that the matrix of a scope keeps (R107, R109). -/
def keptPo (s : Scope) (i j : Nat) : Bool :=
  x.po i j &&
    (x.kept s i j || x.besideFence s i j || x.idxs.any fun f => x.po i f && x.po f j && x.fenced s i f j)

/-- The order kept between nodes. A load, and the read of any atomic, is kept before every later write (notes n2, R106; assumption log
116), and every kept order of operations holds of all their parts. -/
def keptNode (s : Scope) (a b : Nat) : Bool :=
  inside a b || x.keptPo s (a / 2) (b / 2) || (x.po (a / 2) (b / 2) && x.readNode a && x.writeNode b)

/-- The events of an instance of a scope. -/
def members (s : Scope) (key : List Nat) : List Nat := x.idxs.filter fun i => ((x.ev i).keys s).contains key

/-- The orders of a list. -/
def orders : List Nat → List (List Nat)
  | [] => [[]]
  | a :: xs => (orders xs).flatMap fun ys => (List.range (ys.length + 1)).map fun n => ys.take n ++ a :: ys.drop n

/-- The relation of R107 at a scope, with an order of its sequentially consistent fences. Happens-before counts between
different parties only: within one party it is program order, which the matrix tells how much of is kept (assumption log 13). -/
def ob (s : Scope) (rows : List (List Nat)) (scs : List Nat) (a b : Nat) : Bool :=
  x.keptNode s a b || ((x.ev (a / 2)).party != (x.ev (b / 2)).party && (inRows rows (a / 2) (b / 2) || x.rfN a b)) ||
    x.coN a b || x.frN a b || before scs (a / 2) (b / 2)

/-- R107, of one instance: some order of the sequentially consistent fences leaves no cycle. A cycle of general cores alone is RVWMO's
(R119; assumption log 117). -/
def ordered (s : Scope) (key : List Nat) : Bool :=
  let rows := x.hbRows
  let ms := x.members s key
  let ns := x.nodesOf ms
  let scs := ms.filter fun i => (x.ev i).isSc && rank s ≤ rank (x.ev i).scope
  (orders scs).any fun o => ns.all fun n => (x.ev (n / 2)).general || !onCycle (x.ob s rows o) ns n

/-! RVWMO among general cores (R119). -/

/-- The load-reserve that a store-conditional is paired with: the latest before it, with no other store-conditional between. -/
def pairOf (w : Nat) : Option Nat :=
  let mine := x.idxs.filter fun i => x.po i w && match (x.ev i).rv with | some (.lr ..) | some (.sc ..) => true | _ => false
  match (x.ev w).rv, mine.getLast? with
  | some (.sc ..), some i => match (x.ev i).rv with | some (.lr ..) => some i | _ => none
  | _, _ => none

/-- Does a RISC-V fence order one access before a later one by its sets? FENCE.TSO orders a read before all, and a write before a
write. -/
def rvFence (f a b : Ev) : Bool :=
  match f.rv with
  | some (.fence pr pw sr sw) => ((pr && a.reads) || (pw && a.writes)) && ((sr && b.reads) || (sw && b.writes))
  | some .fenceTso => a.reads || (a.writes && b.writes)
  | _ => false

/-- The preserved program order of RVWMO, rules 1 to 13 in their order. -/
def rvPpo (a b : Nat) : Bool :=
  let A := x.ev a
  let B := x.ev b
  let mem := fun (e : Ev) => e.reads || e.writes
  let aq := fun (e : Ev) => (e.rv.map RiscvOp.aq).getD false
  let rl := fun (e : Ev) => (e.rv.map RiscvOp.rl).getD false
  let between := x.idxs.filter fun m => x.po a m && x.po m b
  x.po a b && mem A && mem B &&
    ((shares A B && B.writes) ||
      (A.reads && B.reads && A.locs.any fun l => B.locs.contains l && x.source a l != x.source b l &&
        between.all fun m => !((x.ev m).writes && (x.ev m).locs.contains l)) ||
      ((match A.rv with | some (.amo ..) | some (.sc ..) => true | _ => false) && x.rfE a b) ||
      between.any (fun f => rvFence (x.ev f) A B) ||
      aq A || rl B || ((aq A || rl A) && (aq B || rl B)) || x.pairOf b == some a ||
      B.addrDep.contains a || B.dataDep.contains a || (B.writes && B.ctrlDep.contains a) ||
      (B.reads && between.any fun m => (x.ev m).writes && ((x.ev m).addrDep.contains a || (x.ev m).dataDep.contains a) && x.rfE m b) ||
      (B.writes && between.any fun m => (x.ev m).addrDep.contains a))

/-- RVWMO of the general cores of an instance of package scope: one order of their accesses, with atomic operations and pairs of
load-reserve and store-conditional atomic among them. -/
def rvwmo (key : List Nat) : Bool :=
  let gs := (x.members .package key).filter fun i => (x.ev i).general && ((x.ev i).reads || (x.ev i).writes)
  acyclic (fun i j => x.rvPpo i j || ((x.ev i).party != (x.ev j).party && x.rfE i j) || x.coE i j || x.frE i j) gs &&
    gs.all fun w => match x.pairOf w with
      | none => true
      | some r => (x.ev r).locs.all fun l => gs.all fun j =>
          !((x.ev j).party != (x.ev w).party && x.frAt l r j && x.coAt l j w)

/-- The instances of a scope that hold events. -/
def instances (s : Scope) : List (List Nat) := (x.evs.flatMap fun e => e.keys s).eraseDups

/-- Is the execution allowed (R98, R99, R100, R107, R119, R122)? -/
def allowed : Bool :=
  x.wellFormed && x.coherent && x.rmwAtomic && x.whole &&
    (scopes.all fun s => (x.instances s).all fun k => x.ordered s k) && (x.instances .package).all x.rvwmo

/-! Races. -/

/-- Two accesses conflict: different parties, a shared location, and a write (R104). -/
def conflict (i j : Nat) : Bool :=
  (x.ev i).party != (x.ev j).party && shares (x.ev i) (x.ev j) && ((x.ev i).writes || (x.ev j).writes)

/-- Two conflicting accesses race (R104). -/
def race (i j : Nat) : Bool :=
  x.conflict i j && !x.hb i j && !x.hb j i &&
    !((x.ev i).atomic && (x.ev j).atomic && (x.ev i).locs == (x.ev j).locs && x.reachEachOther i j)

def raceFree : Bool := x.idxs.all fun i => x.idxs.all fun j => !x.race i j

/-- Is the execution sequentially consistent (R105): one interleaving, in which every read returns the latest write, engine
accesses lie between fork and join, and meetings wait for their participants? -/
def sequential : Bool := acyclic (fun i j => x.hb1 i j || x.rfE i j || x.coE i j || x.frE i j) x.idxs

end Exec

/-! Programs (R105, R106). -/

/-- A program: the executions in which each party's events are those that its code performs, given the writes its reads take their
values from. -/
structure Program where
  performs : Exec → Prop

/-- A program is data-race-free when no sequentially consistent execution of it holds a race (R105). -/
def Program.raceFree (p : Program) : Prop :=
  ∀ x, p.performs x → x.wellFormed = true → x.sequential = true → x.raceFree = true

/-- The executions of a program on the machine: allowed ones, and, of a data-race-free program, sequentially consistent ones (R105). -/
def Program.runs (p : Program) (x : Exec) : Prop :=
  p.performs x ∧ x.allowed = true ∧ (p.raceFree → x.sequential = true)

/-! The instructions' kinds. -/

/-- The scope of an instruction's edges where its form fixes it (R103, R219, R381, R397). -/
def fixedScope : Instr → Option Scope
  | .barSync .. | .barArrive .. | .barWait .. | .barm .. => some .team
  | .flight .. => some .die
  | .collBar .. | .collGroup .. | .collRed .. | .collBcast .. => some .fabric
  | .join .. => some .group
  | .launch .. | .kick .. | .launchRetire .. | .faultResolve .. | .xctlInv .. | .encXctlInv .. | .riscvLoadStore .. => some .package
  | _ => none

def formKinds (store : Bool) : MemForm → List Kind
  | .plain _ | .v2 | .n4 | .n2 => if store then [.ps] else [.pl]
  | .rlx _ _ => [.rlx]
  | .sync _ _ => if store then [.rel] else [.acq]

def atomKinds : AtomOrder → List Kind
  | .rlx => [.rlx]
  | .acq => [.acq]
  | .rel => [.rel]
  | .ar => [.acq, .rel]

/-- The kinds of an instruction (R95). FUT.TEST and FUT.STATUS observe when they report completion, and a barrier's wait when it
completes with pending bytes that engines decremented: `done` tells whether this one does. A collective barrier arrives at its
issue and departs at the observation of its future. -/
def instrKinds (done : Bool) : Instr → List Kind
  | .ld _ f _ | .lds _ f _ => formKinds false f
  | .st _ f _ | .sts _ f _ => formKinds true f
  | .atom _ o _ _ _ | .atoms _ o _ _ _ => atomKinds o
  | .cacheZero .. => [.ps]
  | .fenceAcq .. | .fenceRel .. | .fenceAr .. | .fenceSc .. => [.fen]
  | .barSync .. => if done then [.rel, .acq, .eo] else [.rel, .acq]
  | .barm .. | .flight .. | .join .. => [.rel, .acq]
  | .barArrive .. | .launch .. | .kick .. | .launchRetire .. | .faultResolve .. | .xctlInv .. | .encXctlInv .. => [.rel]
  | .barWait .. => if done then [.acq, .eo] else [.acq]
  | .collBar .. => [.ei, .rel]
  | .copy .. | .gather .. | .scatter .. | .collGroup .. | .collRed .. | .collBcast .. | .mma .. | .mmaSp .. |
    .mmaUf .. | .mmaSpec .. | .mmaSpecSp .. | .mmaSpecUf .. | .accLoad .. | .accStore .. | .spbm .. | .sealAbsorb .. |
    .cutMarkDy .. | .cutMarkFb .. | .futAll .. => [.ei]
  | .futWait .. | .yield .. => [.eo]
  | .futTest .. | .futStatus .. => if done then [.eo] else []
  | .riscvLoadStore _ _ a => (riscvOf a).kinds
  | _ => []

end Sys2Proof.Machine.Order
end

