-- ==== Sys2Proof/Safety.lean ====
section
/-! DEFINITION. What counts as a sound state and a safe run, in the terms the claims use: the form of the byte memories, what
an instruction of a path leaves alone, and what it is for an instruction to complete (R217). -/

namespace Sys2Proof.Machine

/-- The byte memories are in canonical form: the package's and every team's scratchpad. -/
def State.memOk (s : State) : Bool := Memory.wf s.mem && s.teams.all fun t => Memory.wf t.2.spad

/-- Every byte of memory and of every scratchpad reads the same in two states. -/
structure SameBytes (s t : State) : Prop where
  mem : ∀ a, readByte t.mem a = readByte s.mem a
  spad : ∀ n a, readByte (t.team n).spad a = readByte (s.team n).spad a

/-! The executing path. -/

/-- The path enables no flag: no poison read and no raised flag traps (R236, R237). -/
def Exe.calm (x : Exe) : Prop := modeEn x.p.mode = 0

/-- What a lane reads in the operands of an instruction. -/
def Exe.args (x : Exe) (i : Instr) (l : Nat) : List Val := x.vals (x.plan i) l

/-- What the active lanes of an instruction read, lane by lane. -/
def Exe.allArgs (x : Exe) (i : Instr) : List (Nat × List Val) := (x.active i.ctl).map fun l => (l, x.args i l)

/-- PO, if a lane reads poison in an operand of an instruction (R237). -/
def Exe.poison (x : Exe) (i : Instr) (l : Nat) : BitVec 6 := flagIf (x.readsPoison (x.plan i) l) flagPO

/-- The flags that an instruction raises (R235): those of its active lanes, `fl` in each, with PO where a lane reads poison. -/
def Exe.raised (x : Exe) (i : Instr) (fl : Nat → BitVec 6) : BitVec 6 :=
  (x.active i.ctl).foldl (fun f l => f ||| (fl l ||| x.poison i l)) 0

/-- The mode word of the path after an instruction raises flags: FLAGS is sticky (R235). -/
def Exe.flagged (x : Exe) (f : BitVec 6) : BitVec 64 := modeRaise x.p.mode f

/-- Result k of the instruction at the path's pc in a lane, as a state holds it. -/
def Exe.resultIn (x : Exe) (t : State) (l k : Nat) : Option Val :=
  ((t.group x.gid).lane l).val (x.tr.baseAt x.p.pc + k)

/-- Results in the active lanes of an instruction. -/
def Exe.only (x : Exe) (i : Instr) (f : Nat → List Val) (l : Nat) : Option (List Val) :=
  if l ∈ x.active i.ctl then some (f l) else none

/-- Result k of an instruction in a lane that takes no result: the merge operand's value (R256, R270); without one false, for a
b1 result of a comparison, PLOGIC or a cross-lane instruction (R282, R283, R308, R316), else poison. -/
def Exe.fallback (x : Exe) (i : Instr) (l k : Nat) : Option Val :=
  match (x.plan i).merge with
  | none => if idlesFalse i && (x.plan i).res[k]? == some .b1 then some (.bits 0) else none
  | some m =>
      let r := x.read ((x.plan i).res.headD .i32) l m
      if k = 0 ∧ r.2 = false then some r.1 else none

/-- Is the id one that an instruction at the path's pc defines? -/
abbrev Exe.defines (x : Exe) (i : Instr) (id : Nat) : Prop :=
  x.tr.baseAt x.p.pc ≤ id ∧ id < x.tr.baseAt x.p.pc + i.ctl.ndef.toNat

/-- What a step of a path leaves alone: everything but the path itself, VINSTR (R214), in its own lanes the values for which
`may` holds, and the lanes of `away`. -/
structure Exe.KeepsBut (x : Exe) (may : Nat → Prop) (away : List Nat) (t : State) : Prop where
  /-- All of the state but the groups and the enclaves' counters. -/
  rest : ({ t with groups := x.s.groups, encls := x.s.encls } : State) = x.s
  /-- Every byte of memory and of scratchpad. -/
  bytes : SameBytes x.s t
  /-- The enclaves but for their counters, and every counter but VINSTR of the core. -/
  encls : ∀ e, ({ t.encl e with counters := (x.s.encl e).counters } : Enclave) = x.s.encl e
  counters : ∀ e k, (e, k) ≠ (x.eid, counterKey 4 x.team.core) →
    mget (t.encl e).counters k = mget (x.s.encl e).counters k
  /-- The other groups; of the path's own group all but its lanes and paths; the other paths. -/
  groups : ∀ q, q ≠ x.gid → mget t.groups q = mget x.s.groups q
  group : ({ t.group x.gid with
    lanes := x.g.lanes, ctx := { (t.group x.gid).ctx with paths := x.g.ctx.paths } } : Group) = x.g
  paths : ∀ q, q ≠ x.pid → mget (t.group x.gid).ctx.paths q = mget x.g.ctx.paths q
  /-- The lanes outside the path; and of its own lanes the edge, the outer frames and the rest of the innermost frame. -/
  lanes : ∀ l, l ∉ x.lanes → l ∉ away → (t.group x.gid).lane l = x.g.lane l
  edges : ∀ l, ((t.group x.gid).lane l).edge = (x.g.lane l).edge
  outer : ∀ l, l ∉ away → ((t.group x.gid).lane l).frames.tail = (x.g.lane l).frames.tail
  frames : ∀ l, l ∉ away → ({ ((t.group x.gid).lane l).top with vals := (x.g.lane l).top.vals } : Frame) = (x.g.lane l).top
  /-- The values that the step may not change. -/
  vals : ∀ l, l ∉ away → ∀ id, ¬ may id → ((t.group x.gid).lane l).val id = (x.g.lane l).val id

/-- The same for a step that no lane outside the path takes part in. -/
abbrev Exe.Keeps (x : Exe) (may : Nat → Prop) (t : State) : Prop := x.KeepsBut may [] t

/-- VINSTR counts n completed virtual instructions, saturating (R214). -/
def Exe.Counted (x : Exe) (n : Nat) (t : State) : Prop :=
  mget (t.encl x.eid).counters (counterKey 4 x.team.core) =
    some (BitVec.ofNat 64 (min (((mget x.encl.counters (counterKey 4 x.team.core)).getD 0).toNat + n) (2 ^ 64 - 1)))

/-- The executing instruction has completed (R217): the path stands at the next head word with a mode word; the lanes to which
`out` gives results hold them under the consecutive ids (R245), the other lanes of the path their merge operand, poison or false
(R256); the operands with L have ended (R247); nothing else has changed. -/
structure Exe.Completes (x : Exe) (i : Instr) (mode : BitVec 64) (out : Nat → Option (List Val)) (t : State) : Prop where
  path : mget (t.group x.gid).ctx.paths x.pid =
    some { x.p with
      pc := pcAdd x.p.pc (instrSize i), mode := mode, last := some (x.p.pc, 0), stage := .none, done := 0, got := [], arms := [] }
  results : ∀ l ∈ x.lanes, ∀ vs, out l = some vs → ∀ k v, k < i.ctl.ndef.toNat → vs[k]? = some v → x.resultIn t l k = some v
  others : ∀ l ∈ x.lanes, out l = none → ∀ k, k < i.ctl.ndef.toNat → x.resultIn t l k = x.fallback i l k
  ended : ∀ l ∈ x.lanes, ∀ id ∈ endsOf i.ops, ¬ x.defines i id → ((t.group x.gid).lane l).val id = none
  /-- The lanes outside the path that a cross-lane instruction's results reach (R184, R316): they take no result either. -/
  outside : ∀ l ∈ x.outside i, (t.group x.gid).lane l = x.writeOutside i [] l (x.g.lane l)
  counted : x.Counted 1 t
  frame : x.KeepsBut (fun id => id ∈ endsOf i.ops ∨ x.defines i id) (x.outside i) t

/-- An instruction that acts lane by lane completes (R217, R235): every active lane takes the results that `out` gives it, and
the flags that its lanes raise, `fl` in each, and PO for a poison read stick. -/
def Exe.Acts (x : Exe) (i : Instr) (out : Nat → List Val) (fl : Nat → BitVec 6) (t : State) : Prop :=
  x.Completes i (x.flagged (x.raised i fl)) (x.only i out) t

/-- The step of an instruction answers a state in which it has acted in this way. -/
def Exe.Yields (x : Exe) (s : State) (i : Instr) (out : Nat → List Val) (fl : Nat → BitVec 6) : Prop :=
  ∃ t, exec i s = .next t ∧ x.Acts i out fl t

/-- The step of an instruction answers a state in which it has completed with the same results in every active lane; `p` tells
whether its one read of the operands was a poison read (R128, R237). -/
def Exe.YieldsAll (x : Exe) (s : State) (i : Instr) (res : List Val) (p : Bool) : Prop :=
  ∃ t, exec i s = .next t ∧ x.Completes i (x.flagged (flagIf p flagPO)) (x.only i fun _ => res) t

/-! Values as bit vectors. -/

/-- The value of a bit vector, zero-extended (R244). -/
def Val.ofBV {n : Nat} (v : BitVec n) : Val := .bits (v.setWidth 64)

/-- Operand k of an instruction in a lane, as a bit vector of n bits. -/
def Exe.arg (x : Exe) (i : Instr) (n l k : Nat) : BitVec n := BitVec.ofNat n (numOf (x.args i l) k)

/-- The first n operands that the active lanes read fit a type. -/
def Exe.fits (x : Exe) (i : Instr) (n : Nat) (t : Ty) : Prop :=
  ∀ l ∈ x.active i.ctl, ∀ k, k < n → numOf (x.args i l) k < 2 ^ t.width

/-- Element j of operand k of an instruction in a lane, in elements of w bits (R269). -/
def Exe.el (x : Exe) (i : Instr) (w l k j : Nat) : BitVec w := BitVec.ofNat w (numOf (x.args i l) k / 2 ^ (w * j))

/-- A value of a type whose element j is E j (R244, R269). -/
def Packs (t : Ty) (E : Nat → BitVec (elemWidth t)) (v : Val) : Prop :=
  ∃ r : BitVec 64, v = .bits r ∧ r.toNat < 2 ^ t.width ∧
    ∀ j, j < elemCount t → BitVec.ofNat (elemWidth t) (r.toNat / 2 ^ (elemWidth t * j)) = E j

/-- The step of an instruction answers a state in which it has acted element by element: element j of the result of lane l is
E l j, and OF is raised in a lane where `clipped` holds for an element (R269). -/
def Exe.YieldsElems (x : Exe) (s : State) (i : Instr) (t : Ty) (E : Nat → Nat → BitVec (elemWidth t))
    (clipped : Nat → Nat → Prop) : Prop :=
  ∃ out fl, x.Yields s i out fl ∧ ∀ l ∈ x.active i.ctl, (∃ v, out l = [v] ∧ Packs t (E l) v) ∧
    ((∃ j, j < elemCount t ∧ clipped l j) → fl l = flagOF) ∧ ((¬ ∃ j, j < elemCount t ∧ clipped l j) → fl l = 0)

/-- Is an integer outside of the signed range of w bits, or of the unsigned one? -/
def outOf (signed : Bool) (w : Nat) (e : Int) : Prop :=
  if signed then e < -2 ^ (w - 1) ∨ 2 ^ (w - 1) - 1 < e else e < 0 ∨ 2 ^ w - 1 < e

/-- An integer clamped to the signed range of w bits, or to the unsigned one. -/
def saturated (signed : Bool) (w : Nat) (e : Int) : BitVec w :=
  BitVec.ofInt w (if signed then max (-2 ^ (w - 1)) (min e (2 ^ (w - 1) - 1)) else max 0 (min e (2 ^ w - 1)))

/-! What the kinds of integer instructions compute, on bit vectors. -/

/-- The lesser or the greater of two elements by a kind (R277). -/
def minMaxOf (k : MinMax) {w : Nat} (a b : BitVec w) : BitVec w :=
  match k with
  | .smin => if b.slt a then b else a
  | .smax => if a.slt b then b else a
  | .umin => if b < a then b else a
  | .umax => if a < b then b else a

/-- An element shifted or rotated by n (R279). -/
def shiftOf (k : ShiftKind) {w : Nat} (a : BitVec w) (n : Nat) : BitVec w :=
  match k with
  | .shl => a <<< n
  | .shr => a >>> n
  | .sar => a.sshiftRight n
  | .rol => a.rotateLeft n
  | .ror => a.rotateRight n

/-- A bit of a LOGIC result from the three operand bits and the table (R278). -/
def logicBit (k : LogicKind) (table : BitVec 64) (a b c : Bool) : Bool :=
  match k with
  | .and => a && b
  | .or => a || b
  | .xor => a != b
  | .andn => a && !b
  | .not => !a
  | .tbl3 => table.getLsbD (a.toNat + 2 * b.toNat + 4 * c.toNat)

/-- An integer condition (R282). -/
def intHolds (k : IntCond) {w : Nat} (a b : BitVec w) : Bool :=
  match k with
  | .eq => a == b | .ne => a != b
  | .slt => a.slt b | .sle => a.sle b | .sgt => b.slt a | .sge => b.sle a
  | .ult => a.ult b | .ule => a.ule b | .ugt => b.ult a | .uge => b.ule a

/-! Exact values. -/

/-- A finite value in units of 2^e0, for an e0 at or below its exponent. -/
def Num.units (e0 : Int) : Num → Int
  | .fin neg m e _ => if neg then -((m * 2 ^ (e - e0).toNat : Nat) : Int) else (m * 2 ^ (e - e0).toNat : Nat)
  | .nan .. | .inf _ => 0

/-- The exact sum (R305), with NV for infinities of opposite signs. -/
def ExactSum (rm : Nat) (a b : Num) (r : Num × BitVec 6) : Prop :=
  match a, b with
  | .nan .., _ => r = (a, 0)
  | _, .nan .. => r = (b, 0)
  | .inf p, .inf q => r = if p = q then (a, 0) else (.nanNew, flagNV)
  | .inf _, .fin .. => r = (a, 0)
  | .fin .., .inf _ => r = (b, 0)
  | .fin p m d _, .fin q n e _ => ∃ neg v f, r = (.fin neg v f false, 0) ∧
      (∀ e0, e0 ≤ d → e0 ≤ e → e0 ≤ f → (Num.fin neg v f false).units e0 = a.units e0 + b.units e0) ∧
      (v = 0 → neg = if m = 0 ∧ n = 0 ∧ p = q then p else decide (rm = 3))

/-- The exact product (R305), with NV for zero times infinity. -/
def ExactProduct (a b : Num) (r : Num × BitVec 6) : Prop :=
  match a, b with
  | .nan .., _ => r = (a, 0)
  | _, .nan .. => r = (b, 0)
  | .inf p, .inf q => r = (.inf (p != q), 0)
  | .inf p, .fin q n _ _ => r = if n = 0 then (.nanNew, flagNV) else (.inf (p != q), 0)
  | .fin p m _ _, .inf q => r = if m = 0 then (.nanNew, flagNV) else (.inf (p != q), 0)
  | .fin p m d _, .fin q n e _ => r = (.fin (p != q) (m * n) (d + e) false, 0)

/-- The exact a × b + c (R305). -/
def ExactFma (rm : Nat) (a b c : Num) (r : Num × BitVec 6) : Prop :=
  ∃ p, ExactProduct a b p ∧
    if a.isNan ∨ b.isNan then r = p
    else if c.isNan then r = (c, p.2)
    else if p.1.isNan then r = p
    else ∃ q, ExactSum rm p.1 c q ∧ r = (q.1, p.2 ||| q.2)

/-- The exact quotient (R310), as at least 128 bits of it and whether a part is missing below them. -/
def ExactQuotient (a b : Num) (r : Num × BitVec 6) : Prop :=
  match a, b with
  | .nan .., _ => r = (a, 0)
  | _, .nan .. => r = (b, 0)
  | .inf _, .inf _ => r = (.nanNew, flagNV)
  | .inf p, .fin q _ _ _ => r = (.inf (p != q), 0)
  | .fin p _ _ _, .inf q => r = (.zero (p != q), 0)
  | .fin p m d _, .fin q n e _ =>
      if n = 0 then r = if m = 0 then (.nanNew, flagNV) else (.inf (p != q), flagDZ)
      else if m = 0 then r = (.zero (p != q), 0)
      else ∃ (v k : Nat) (t : Bool), r = (.fin (p != q) v (d - e - k) t, 0) ∧ 2 ^ 127 ≤ v ∧
        v * n ≤ m * 2 ^ k ∧ m * 2 ^ k < (v + 1) * n ∧ (t = true ↔ v * n ≠ m * 2 ^ k)

/-- The exact square root (R310), in the same way. -/
def ExactRoot (a : Num) (r : Num × BitVec 6) : Prop :=
  match a with
  | .nan .. => r = (a, 0)
  | .inf p => r = if p then (.nanNew, flagNV) else (a, 0)
  | .fin p m d _ =>
      if m = 0 then r = (a, 0)
      else if p then r = (.nanNew, flagNV)
      else ∃ (v k : Nat) (f : Int) (t : Bool), r = (.fin false v f t, 0) ∧ 2 * f = d - k ∧ 2 ^ 128 ≤ v ∧
        v * v ≤ m * 2 ^ k ∧ m * 2 ^ k < (v + 1) * (v + 1) ∧ (t = true ↔ v * v ≠ m * 2 ^ k)

/-- Is a below b in value, −0 and +0 equal? Never for a NaN. -/
def Num.less (a b : Num) : Prop :=
  match a, b with
  | .nan .., _ => False
  | _, .nan .. => False
  | .inf p, .inf q => p = true ∧ q = false
  | .inf p, .fin .. => p = true
  | .fin .., .inf q => q = false
  | .fin _ _ d _, .fin _ _ e _ => ∀ e0, e0 ≤ d → e0 ≤ e → a.units e0 < b.units e0

/-- Convert to the integers from lo to hi (R232, R313): the integer and the flags. -/
def toInteger (r : Rounding) (lo hi : Int) : Num → Int × BitVec 6
  | .nan .. => (0, flagNV)
  | .inf neg => (if neg then lo else hi, flagOF)
  | .fin neg m e sticky =>
      let q := roundMag r neg m e sticky 0
      let i : Int := if neg then -(q.1 : Int) else q.1
      if i < lo then (lo, flagOF ||| flagNX) else if hi < i then (hi, flagOF ||| flagNX) else (i, flagIf q.2 flagNX)

/-- The least and the greatest integer of w bits, signed or unsigned. -/
def intRange (signed : Bool) (w : Nat) : Int × Int := if signed then (-2 ^ (w - 1), 2 ^ (w - 1) - 1) else (0, 2 ^ w - 1)

/-- The step answers a state in which every active lane has the value of one Convert of `e l` to a type, with its flags
(R303). -/
def Exe.YieldsRounded (x : Exe) (s : State) (i : Instr) (t : Ty) (e : Nat → Num × BitVec 6) : Prop :=
  let w := fun l => (fmtOf t).convert (x.rounding l) (e l).1
  x.Yields s i (fun l => [ofTy t (w l).1]) fun l => (e l).2 ||| (w l).2

/-! Control flow. -/

/-- The path at another pc, which it has reached by an edge: the instruction left, and the place among the edges that leave it
(R287). -/
def Exe.moved (x : Exe) (pc : BitVec 48) (edge : BitVec 48 × Nat) (mode : BitVec 64) : Path :=
  { x.p with pc := pc, mode := mode, last := some edge, stage := .none, done := 0, got := [], arms := [] }

/-- The group with the path so. -/
def Exe.having (x : Exe) (p : Path) : Group := x.g.setPath x.pid p

/-- The executing instruction has completed without results and has made of the group what `g` says, but for its lanes: in those
of the path the operands with L have ended (R247). It has counted as one instruction, and nothing else has changed. -/
structure Exe.Becomes (x : Exe) (i : Instr) (g : Group) (t : State) : Prop where
  group : ({ t.group x.gid with lanes := g.lanes } : Group) = g
  ended : ∀ l ∈ x.lanes, ∀ id ∈ endsOf i.ops, ((t.group x.gid).lane l).val id = none
  counted : x.Counted 1 t
  frame : x.Keeps (· ∈ endsOf i.ops) (t.setGroup x.gid { x.g with lanes := (t.group x.gid).lanes })

/-- The state after an entry of a translation (R210, R214): it is the hall's most recently used one, and the entry counts as a hit
unless it was waited for. -/
def Exe.entered (x : Exe) (n : Nat) : State :=
  let waited := match x.p.stage with
    | .translating _ => true
    | _ => false
  (if waited then x.s else x.s.bump x.eid 0 x.team.core 1).useTrans n

/-- The path has entered the trap entry function with a translation (R406): the path state is frozen, the handler context holds what
the trap carries, and one core path of the trapping lanes starts at ENTRY with the path's copy of the mode word. -/
structure Exe.EntersHandler (x : Exe) (fn n : Nat) (tr : Trans) (h : TrapInfo) (t : State) : Prop where
  group : ({ t.group x.gid with lanes := x.g.lanes } : Group) =
    { x.g with
      ctx := { paths := [(x.g.fresh, Path.start tr.entry h.lanes x.p.mode [] none .core)], stack := [], recs := [], meets := [], barm := [] }
      handler := some {
        code := BitVec.ofNat 8 h.code, lanes := h.lanes, pc := x.p.pc, flags := h.flags, opnds := h.opnds, path := x.pid
        frozen := (x.having { x.p with stage := .none }).ctx, trets := 0, skips := 0, mode := x.p.mode }
      fresh := x.g.fresh + 1 }
  lanes : ∀ l, (t.group x.gid).lane l =
    if l ∈ lanesOf h.lanes then
      { x.g.lane l with frames := { fn := fn, tr := n, ret := 0, vals := [], args := [] } :: (x.g.lane l).frames }
    else x.g.lane l
  rest : t = ((if h.code = 0x0E then (x.entered n).bump x.eid 17 x.team.core 1 else x.entered n).setGroup x.gid (t.group x.gid))

/-- The paths of a group after everything that follows from arrivals and exits (R185, R186): a landing at which the first lanes
have arrived meanwhile has its timer started, where the launch has one and outside of a handler (R193, R406). -/
def State.follows (s : State) (g : Group) : Ctx :=
  if g.handler.isSome ∨ (s.launch (s.team g.team).launch).joinwait = 0 then g.ctx.settled else g.ctx.timed g.ctx.settled

/-- A state differs from another in the monitors of enclaves and partitions alone (R13, R15). -/
structure State.Sampled (u t : State) : Prop where
  rest : ({ t with parts := u.parts, encls := u.encls } : State) = u
  encls : ∀ e, ({ t.encl e with monitors := (u.encl e).monitors } : Enclave) = u.encl e
  parts : ∀ p, ({ t.part p with monitors := (u.part p).monitors } : Part) = u.part p

/-! Memory. -/

/-- The state after the accesses of some lanes, one after the other. A lane reads its bytes with `rd` and writes over them what `new`
makes of them; a lane marked stale has read them before the instruction (R123, R331). -/
def Exe.performed (x : Exe) (rd : State → Nat → List Byte) (wr : State → Nat → List Byte → State)
    (new : Option (Nat → List Byte → List Byte)) (ls : List (Nat × Bool)) : State :=
  match new with
  | none => x.s
  | some f => ls.foldl (fun t q => wr t q.1 (f q.1 (rd (if q.2 then x.s else t) q.1))) x.s

/-- The state with its caches as they are in another: the lines of the L2 and of the general cores, what HBM holds behind them, and the
monitors of the data path (R65 to R73, R89). None of them bears on what a byte of memory reads as. -/
def State.caching (s c : State) : State :=
  { s with l2 := c.l2, coreLines := c.coreLines, hbm := c.hbm, pathMons := c.pathMons }

/-- The step of an instruction answers a state in which every active lane has made its access (R326), in an order of the lanes
that no rule fixes, and in which the instruction has completed: the result of a lane is `out` of the bytes that it read. Of the
rest of the state the caches alone have changed; only a loose access reads stale bytes. -/
def Exe.YieldsAccesses (x : Exe) (s : State) (i : Instr) (rd : State → Nat → List Byte) (wr : State → Nat → List Byte → State)
    (new : Option (Nat → List Byte → List Byte)) (loose : Bool) (out : List Byte → List Val) : Prop :=
  ∃ (ls : List (Nat × Bool)) (c t : State), (ls.map Prod.fst).Perm (x.active i.ctl) ∧
    (∀ q ∈ ls, q.2 = true → loose = true) ∧ exec i s = .next t ∧
    let done := (x.performed rd wr new ls).caching c
    let before := fun l => x.performed rd wr new (ls.takeWhile fun q => q.1 != l)
    Exe.Completes { x with s := done } i (x.flagged (x.raised i fun _ => 0)) (x.only i fun l => out (rd (before l) l)) t

/-- Every access of an instruction is to enclave memory of this package and can be made (R40): that of lane l to the pieces `ps l`. -/
def Exe.Located (x : Exe) (i : Instr) (k : AccessKind) (n : Nat) (addr : Nat → BitVec 64) (ps : Nat → List (Nat × Nat × Nat)) : Prop :=
  ∀ l ∈ x.active i.ctl, ∃ p, x.s.locate (some x.unit) x.eid (addr l) k n = .ok p ∧ localPieces p = some (ps l)

/-- What a load form gives of the bytes that it read (R329). -/
def loadedFrom (f : MemForm) (bs : List Byte) : List Val :=
  match f with
  | .v2 => [.ofBV (BitVec.ofNat 64 (leNat (bs.take 8))), .ofBV (BitVec.ofNat 64 (leNat (bs.drop 8)))]
  | .plain t | .rlx t _ | .sync t _ => [ofTy t (leNat bs)]
  | .n4 | .n2 => [ofTy .i8 (leNat bs)]

/-! Engine operations. -/

/-- The future of an operation that the path issues next (R130, R132): the team's next slot, in its next use. -/
def Exe.future (x : Exe) (cls : Nat) : BitVec 64 :=
  let n := x.team.issues % 512
  futWord x.launch.seq.toNat x.team.index cls (((x.team.slot n).gen + 1) % 2 ^ 19) n

/-- The state in which the path has issued an operation (R132): the team's next slot reports it, and a barrier that it names counts its
bytes as outstanding (R149). -/
def Exe.issued (x : Exe) (o : EngOp) : State :=
  let t := x.team
  let n := t.issues % 512
  let bars := match o.bar with
    | none => t.bars
    | some b => mset t.bars b { t.bar b with out := (t.bar b).out + o.bytes }
  let gen := ((t.slot n).gen + 1) % 2 ^ 19
  let slot : Slot := { gen := gen, status := o.status, op := x.s.next }
  { x.s.setTeam x.g.team { t with slots := mset t.slots n slot, issues := t.issues + 1, bars := bars } with
    ops := mset x.s.ops x.s.next { o with slot := n, gen := gen }, next := x.s.next + 1 }

/-- The step of an engine instruction issues an operation and completes with results that hold its future; while its engine
holds as many as it can, or the next slot is not free, it waits (R127, R132). `y` is the path as it issues, `after` what follows
the issue at once. -/
def Exe.Issues (x : Exe) (s : State) (i : Instr) (y : Exe) (o : EngOp) (after : State → State) (res : BitVec 64 → List Val) : Prop :=
  (y.issueWaits o.cls = true → exec i s = .next x.s) ∧
  (y.issueWaits o.cls = false → ∃ t, exec i s = .next t ∧
    Exe.Completes { x with s := after (y.issued o) } i (x.flagged (flagIf (x.oncePoison i) flagPO))
      (x.only i fun _ => res (y.future o.cls)) t)

/-- The step of an instruction raises a trap in some lanes of the path, with what they show (R405). -/
def Exe.Raises (x : Exe) (s : State) (i : Instr) (code : Nat) (lanes : List Nat) : Prop :=
  exec i s = .next (x.s.raiseTrap x.gid x.pid x.p
    { code := code, lanes := maskOf lanes, flags := 0, opnds := x.lanes.map fun l => (l, x.shownOps i l) })

/-! General cores. -/

/-- The general core whose turn it is belongs to a partition and may execute a custom-0 instruction: it is neither in reset nor
waiting, the root of trust has neither stopped nor a PAGE.OUT under way, and no earlier request waits for it (R5, R55, R56, R60,
R88). -/
structure State.HartFree (s : State) (p : Nat) : Prop where
  part : s.partOf s.curHart = some p
  running : (s.hart s.curHart).inReset = false
  ready : (s.hart s.curHart).wait = .nothing
  root : s.mgmt.rootIntegrity = false
  moves : ∀ m ∈ s.moves, m.2 = .free
  carve : s.carveBad = false
  turn : ∀ h, s.requests.head? = some h → h = s.curHart

/-- A general core goes on behind its instruction with a register written; what a far end answered to the instruction is used up. -/
def State.gone (s : State) (h : Nat) (rd : BitVec 5) (v : BitVec 64) : State :=
  s.setHart h { (s.hart h).setReg rd v with pc := (s.hart h).pc + 4, answer := none }

/-- The state in which a general core has completed a custom-0 instruction: its result is a status and a value (R388), and its
request to the root of trust no longer waits (R60). -/
def State.answered (s : State) (h : Nat) (rd : BitVec 5) (status value : Nat) : State :=
  (s.gone h rd (BitVec.ofNat 16 status ++ BitVec.ofNat 48 value)).served h

/-- A general core waits for a frame of the clean pool, after those that wait already (R55, R60). -/
def State.awaitsFrame (s : State) (h : Nat) : State :=
  State.setHart { s with poolWaits := if s.poolWaits.contains h then s.poolWaits else s.poolWaits ++ [h] } h { s.hart h with wait := .pool }

/-- What a completed access of a general core does (R39, R40, R119), on the pieces of memory where it lies: a load and a
load-reserve give the bytes, extended; a store and an AMO write theirs; a store-conditional writes only under the reservation of
the same bytes, and ends it. The caches may change besides (R68). -/
def HartDoes (s : State) (h : Nat) (ps : List (Nat × Nat × Nat)) (a : HartAccess) (t : State) : Prop :=
  let old := leNat (s.readPieces ps)
  let reg := fun (r : BitVec 5) => ((s.hart h).reg r).toNat
  let is := fun (u : State) (rd : BitVec 5) (v : BitVec 64) => ∃ c : State, t = (u.gone h rd v).caching c
  match a with
  | .load n signed rd => is s rd (if signed then BitVec.ofInt 64 (signedOf (8 * n) old) else BitVec.ofNat 64 (old % 2 ^ (8 * n)))
  | .store n rs => is (s.writePieces ps (leBytes n (reg rs))) 0 0
  | .amo op n rs rd _ _ => is (s.writePieces ps (leBytes n (amoResult op n old (reg rs)))) rd (BitVec.ofInt 64 (signedOf (8 * n) old))
  | .lr n rd _ _ => is { s with resv := mset s.resv h ((ps.headD (0, 0, 0)).1, n) } rd (BitVec.ofInt 64 (signedOf (8 * n) old))
  | .sc n rs rd _ _ =>
      let u := ({ s with resv := mdel s.resv h } : State)
      (mget s.resv h = some ((ps.headD (0, 0, 0)).1, n) → is (u.writePieces ps (leBytes n (reg rs))) rd 0) ∧
      (mget s.resv h ≠ some ((ps.headD (0, 0, 0)).1, n) → is u rd 1)
  | .fence .. | .fenceTso => is s 0 0
  | .fetch => ∃ c : State, t = s.caching c

end Sys2Proof.Machine
end

