-- ==== Sys2Proof/Certificates/Slice0/Obligations.lean ====
section
/-! DEFINITION. The statements for the provers. -/

open Sys2Proof Sys2Proof.Machine

/-! Integer and address instructions. -/

/-- IADD and ISUB (R273), element by element (R269): the wrapping, the saturating and the carry forms. -/
def Obligations.AddAndSubtractByElement : Prop :=
  ∀ (s : State) (x : Exe) (c : Ctl) (t : Ty) (ops : List Opnd), s.exe? = some x → x.calm →
    let w := elemWidth t
    (let i := Instr.iadd c .wrap t ops
     x.YieldsElems s i t (fun l j => x.el i w l 0 j + x.el i w l 1 j) fun _ _ => False) ∧
    (let i := Instr.isub c .wrap t ops
     x.YieldsElems s i t (fun l j => x.el i w l 0 j - x.el i w l 1 j) fun _ _ => False) ∧
    (let i := Instr.iadd c .ss t ops
     let e := fun l j => (x.el i w l 0 j).toInt + (x.el i w l 1 j).toInt
     x.YieldsElems s i t (fun l j => saturated true w (e l j)) fun l j => outOf true w (e l j)) ∧
    (let i := Instr.isub c .ss t ops
     let e := fun l j => (x.el i w l 0 j).toInt - (x.el i w l 1 j).toInt
     x.YieldsElems s i t (fun l j => saturated true w (e l j)) fun l j => outOf true w (e l j)) ∧
    (let i := Instr.iadd c .us t ops
     let e := fun l j => ((x.el i w l 0 j).toNat : Int) + (x.el i w l 1 j).toNat
     x.YieldsElems s i t (fun l j => saturated false w (e l j)) fun l j => outOf false w (e l j)) ∧
    (let i := Instr.isub c .us t ops
     let e := fun l j => ((x.el i w l 0 j).toNat : Int) - (x.el i w l 1 j).toNat
     x.YieldsElems s i t (fun l j => saturated false w (e l j)) fun l j => outOf false w (e l j)) ∧
    (elemCount t = 1 →
      (let i := Instr.iadd c .cy t ops
       let carry := fun l => (argOf (x.args i l) 2).isTrue.toNat
       x.fits i 2 t →
       x.Yields s i (fun l => [.ofBV (x.arg i t.width l 0 + x.arg i t.width l 1 + BitVec.ofNat t.width (carry l)),
         .ofBool (decide (2 ^ t.width ≤ (x.arg i t.width l 0).toNat + (x.arg i t.width l 1).toNat + carry l))]) fun _ => 0) ∧
      (let i := Instr.isub c .cy t ops
       let carry := fun l => (argOf (x.args i l) 2).isTrue.toNat
       x.fits i 2 t →
       x.Yields s i (fun l => [.ofBV (x.arg i t.width l 0 - x.arg i t.width l 1 - BitVec.ofNat t.width (carry l)),
         .ofBool (decide ((x.arg i t.width l 0).toNat < (x.arg i t.width l 1).toNat + carry l))]) fun _ => 0))

/-- IMUL (R274), element by element: the low half, the signed and the unsigned high half, and the saturating product.
IMAD (R275): the exact a × b + c, wrapped or clamped, with OF where it clamps.
IDIV (R276): quotient and remainder, truncated toward zero; a zero divisor gives all ones and the dividend and sets DZ, while
its enable is clear. -/
def Obligations.MultiplyAndDivide : Prop :=
  (∀ (s : State) (x : Exe) (c : Ctl) (t : Ty) (ops : List Opnd), s.exe? = some x → x.calm →
     let w := elemWidth t
     (let i := Instr.imul c .lo t ops
      x.YieldsElems s i t (fun l j => x.el i w l 0 j * x.el i w l 1 j) fun _ _ => False) ∧
     (let i := Instr.imul c .hs t ops
      x.YieldsElems s i t (fun l j => ((x.el i w l 0 j).signExtend (2 * w) * (x.el i w l 1 j).signExtend (2 * w)).extractLsb' w w)
        fun _ _ => False) ∧
     (let i := Instr.imul c .hu t ops
      x.YieldsElems s i t (fun l j => ((x.el i w l 0 j).zeroExtend (2 * w) * (x.el i w l 1 j).zeroExtend (2 * w)).extractLsb' w w)
        fun _ _ => False) ∧
     (let i := Instr.imul c .ss t ops
      let e := fun l j => (x.el i w l 0 j).toInt * (x.el i w l 1 j).toInt
      x.YieldsElems s i t (fun l j => saturated true w (e l j)) fun l j => outOf true w (e l j))) ∧
  (∀ (s : State) (x : Exe) (c : Ctl) (t : Ty) (ops : List Opnd), s.exe? = some x → x.calm → elemCount t = 1 →
     (let i := Instr.imad c .wrap t ops
      x.Yields s i (fun l => [.ofBV (x.arg i t.width l 0 * x.arg i t.width l 1 + x.arg i t.width l 2)]) fun _ => 0) ∧
     (∀ signed : Bool,
       let i := Instr.imad c (if signed then .ss else .us) t ops
       let a := fun l k => if signed then (x.arg i t.width l k).toInt else ((x.arg i t.width l k).toNat : Int)
       let e := fun l => a l 0 * a l 1 + a l 2
       x.fits i 3 t →
       ∃ fl, x.Yields s i (fun l => [.ofBV (saturated signed t.width (e l))]) fl ∧
         ∀ l ∈ x.active c, (outOf signed t.width (e l) → fl l = flagOF) ∧ (¬ outOf signed t.width (e l) → fl l = 0))) ∧
  (∀ (s : State) (x : Exe) (c : Ctl) (signed : Bool) (t : Ty) (ops : List Opnd), s.exe? = some x → x.calm →
     let i := Instr.idiv c signed t ops
     x.fits i 2 t →
     ∃ out fl, x.Yields s i out fl ∧ ∀ l ∈ x.active c,
       let a := x.arg i t.width l 0
       let b := x.arg i t.width l 1
       (b = 0 → out l = [.ofBV (BitVec.allOnes t.width), .ofBV a] ∧ fl l = flagDZ) ∧
       (b ≠ 0 → fl l = 0 ∧ out l = if signed then [.ofBV (a.sdiv b), .ofBV (a.srem b)] else [.ofBV (a.udiv b), .ofBV (a.umod b)]))

/-- IMINMAX (R277) and SHIFT (R279), element by element. A shift by the width or more gives zero, or all sign bits. -/
def Obligations.MinMaxAndShiftByElement : Prop :=
  ∀ (s : State) (x : Exe) (c : Ctl) (t : Ty) (ops : List Opnd), s.exe? = some x → x.calm →
    let w := elemWidth t
    (∀ k, let i := Instr.iminmax c k t ops
      x.YieldsElems s i t (fun l j => minMaxOf k (x.el i w l 0 j) (x.el i w l 1 j)) fun _ _ => False) ∧
    (∀ k, let i := Instr.shift c k ops
      x.opTy i 0 = t →
      x.YieldsElems s i t (fun l j => shiftOf k (x.el i w l 0 j) (numOf (x.args i l) 1)) fun _ _ => False)

/-- LOGIC (R278) and PLOGIC (R283), bit by bit: a bit of TBL3 is the bit of the table whose index the three bits form.
BITS (R280), bit by bit: counts, the reversal, and the field from pos to e := min(pos + len, w) read or replaced.
CLMUL (R281): bit k of the product is the exclusive or over i + j = k of a_i and b_j; the form takes its low or its high
half. -/
def Obligations.BitsAndLogic : Prop :=
  (∀ (s : State) (x : Exe) (c : Ctl) (k : LogicKind) (ops : List Opnd), s.exe? = some x → x.calm →
     ∀ q ∈ [(Instr.logic c k ops, x.opTy (.logic c k ops) 0), (Instr.plogic c k ops, Ty.b1)],
       let i := q.1
       let w := q.2.width
       ∃ out, x.Yields s i out (fun _ => 0) ∧ ∀ l ∈ x.active c, ∃ r : BitVec w, out l = [.ofBV r] ∧
         ∀ n, n < w →
           let v := fun k => (argOf (x.args i l) k).toBits
           r.getLsbD n = logicBit k (v 3) ((v 0).getLsbD n) ((v 1).getLsbD n) ((v 2).getLsbD n)) ∧
  (∀ (s : State) (x : Exe) (c : Ctl) (k : BitsKind) (ops : List Opnd), s.exe? = some x → x.calm →
     let i := Instr.bits c k ops
     let t := x.opTy i 0
     let w := t.width
     0 < w → x.fits i 1 t →
     ∃ out, x.Yields s i out (fun _ => 0) ∧ ∀ l ∈ x.active c,
       let a := x.arg i w l 0
       let count := fun (n : Nat) => out l = [.ofBV (BitVec.ofNat 32 n)]
       let field := fun (f : Nat → Bool) => ∃ r : BitVec w, out l = [.ofBV r] ∧ ∀ n, n < w → r.getLsbD n = f n
       match k with
       | .popc => count ((List.range w).countP a.getLsbD)
       | .clz => ∃ n, n ≤ w ∧ count n ∧ (∀ q, q < n → a.getLsbD (w - 1 - q) = false) ∧ (n < w → a.getLsbD (w - 1 - n) = true)
       | .ctz => ∃ n, n ≤ w ∧ count n ∧ (∀ q, q < n → a.getLsbD q = false) ∧ (n < w → a.getLsbD n = true)
       | .brev => field fun n => a.getLsbD (w - 1 - n)
       | .extz =>
           let pos := numOf (x.args i l) 1
           let e := min (pos + numOf (x.args i l) 2) w
           field fun n => decide (pos + n < e) && a.getLsbD (pos + n)
       | .exts =>
           let pos := numOf (x.args i l) 1
           let e := min (pos + numOf (x.args i l) 2) w
           field fun n => decide (pos < e) && a.getLsbD (min (pos + n) (e - 1))
       | .ins =>
           let pos := numOf (x.args i l) 2
           let e := min (pos + numOf (x.args i l) 3) w
           field fun n => if pos ≤ n ∧ n < e then (x.arg i w l 1).getLsbD (n - pos) else a.getLsbD n) ∧
  (∀ (s : State) (x : Exe) (c : Ctl) (hi wide : Bool) (ops : List Opnd), s.exe? = some x → x.calm →
     let i := Instr.clmul c hi wide ops
     let w := if wide then 64 else 32
     ∃ out, x.Yields s i out (fun _ => 0) ∧ ∀ l ∈ x.active c, (∀ q, q < 2 → numOf (x.args i l) q < 2 ^ w) →
       ∃ r : BitVec w, out l = [.ofBV r] ∧ ∀ n, n < w →
         let k := if hi then w + n else n
         r.getLsbD n = (((List.range w).countP fun j =>
           decide (j ≤ k) && (x.arg i w l 0).getLsbD (k - j) && (x.arg i w l 1).getLsbD j) % 2 == 1))

/-- CONST (R272), ICMP (R282) and SEL (R284) in each active lane.
CVTI (R286): extension, truncation and clamping with OF, to and from predicates, and the same bits as a packed type. -/
def Obligations.ConstantsComparesAndConversions : Prop :=
  (∀ (s : State) (x : Exe) (c : Ctl) (t : Ty) (ops : List Opnd), s.exe? = some x → x.calm →
     (let i := Instr.const c t ops
      x.Yields s i (fun l => [argOf (x.args i l) 0]) fun _ => 0) ∧
     (∀ k, let i := Instr.icmp c k t ops
       x.fits i 2 t →
       x.Yields s i (fun l => [.ofBool (intHolds k (x.arg i t.width l 0) (x.arg i t.width l 1))]) fun _ => 0) ∧
     (let i := Instr.sel c t ops
      let reads := fun l q => (x.reads (x.plan i) l)[q]?.getD (.bits 0, false)
      let pick := fun l => if (reads l 0).1.isTrue then reads l 1 else reads l 2
      (x.plan i).own.length = 3 →
      ∃ f u, exec i s = .next u ∧ x.Completes i (x.flagged f) (x.only i fun l => [(pick l).1]) u ∧
        ((∃ l ∈ x.active c, (reads l 0).2 ∨ (pick l).2) → f = flagPO) ∧
        ((¬ ∃ l ∈ x.active c, (reads l 0).2 ∨ (pick l).2) → f = 0))) ∧
  (∀ (s : State) (x : Exe) (c : Ctl) (ops : List Opnd), s.exe? = some x → x.calm →
     (∀ d, let i := Instr.cvti c (.zx d) ops
       x.fits i 1 (x.opTy i 0) →
       x.Yields s i (fun l => [.ofBV ((x.arg i (x.opTy i 0).width l 0).setWidth d.width)]) fun _ => 0) ∧
     (∀ d, let i := Instr.cvti c (.sx d) ops
       x.Yields s i (fun l => [.ofBV ((x.arg i (x.opTy i 0).width l 0).signExtend d.width)]) fun _ => 0) ∧
     (∀ d (signed : Bool), let i := Instr.cvti c (if signed then .ss d else .uu d) ops
       let a := fun l => x.arg i (x.opTy i 0).width l 0
       let e := fun l => if signed then (a l).toInt else ((a l).toNat : Int)
       x.fits i 1 (x.opTy i 0) →
       ∃ fl, x.Yields s i (fun l => [.ofBV (saturated signed d.width (e l))]) fl ∧
         ∀ l ∈ x.active c, (outOf signed d.width (e l) → fl l = flagOF) ∧ (¬ outOf signed d.width (e l) → fl l = 0)) ∧
     (let i := Instr.cvti c .toB1 ops
      x.Yields s i (fun l => [.ofBool (numOf (x.args i l) 0 != 0)]) fun _ => 0) ∧
     (∀ d, let i := Instr.cvti c (.fromB d) ops
       x.Yields s i (fun l => [.ofBV (BitVec.ofNat d.width (argOf (x.args i l) 0).isTrue.toNat)]) fun _ => 0) ∧
     (∀ k ∈ [(CvtiKind.p8x4, Ty.p8x4), (.p16x2, .p16x2)], let i := Instr.cvti c k.1 ops
       x.Yields s i (fun l => [.ofBV (x.arg i 32 l 0)]) fun _ => 0))

/-- ADDR (R285): the address modulo 2^64, or modulo 2^32 for scratchpad and gang-window addresses. -/
def Obligations.AddressForms : Prop :=
  ∀ (s : State) (x : Exe) (c : Ctl) (ops : List Opnd), s.exe? = some x → x.calm →
    let v := fun (k : AddrKind) (n l q : Nat) => x.arg (.addr c k ops) n l q
    let ix := fun (k : AddrKind) l => x.arg (.addr c k ops) 32 l 1
    (∀ l ∈ x.active c, numOf (x.args (.addr c .zx ops) l) 1 < 2 ^ 32) →
    x.Yields s (.addr c .sx ops) (fun l => [.ofBV (v .sx 64 l 0 + (ix .sx l).signExtend 64 * v .sx 64 l 2 + v .sx 64 l 3)])
      (fun _ => 0) ∧
    x.Yields s (.addr c .zx ops) (fun l => [.ofBV (v .zx 64 l 0 + (ix .zx l).zeroExtend 64 * v .zx 64 l 2 + v .zx 64 l 3)])
      (fun _ => 0) ∧
    x.Yields s (.addr c .i64 ops) (fun l => [.ofBV (v .i64 64 l 0 + v .i64 64 l 1 * v .i64 64 l 2 + v .i64 64 l 3)])
      (fun _ => 0) ∧
    x.Yields s (.addr c .sp ops) (fun l => [.ofBV (v .sp 32 l 0 + v .sp 32 l 1 * v .sp 32 l 2 + v .sp 32 l 3)]) (fun _ => 0) ∧
    x.Yields s (.addr c .gw ops) (fun l => [.ofBV (0x01000000#32 + v .gw 32 l 0 * 0x00100000 + v .gw 32 l 1)]) (fun _ => 0)

/-! Floating-point instructions. -/

/-- Convert (R232) of the value of an encoding gives back the encoding and raises nothing, in every format (R224, R227).
RoundMag (R233): what each rounding mode makes of a magnitude m × 2^e in spacings of 2^sp; the stochastic one adds the low d
bits of the generator's word to the d fraction bits. -/
def Obligations.FormatValuesAndRounding : Prop :=
  (∀ f ∈ [fmtF64, fmtF32, fmtE8M10, fmtBF16, fmtF16, fmtE5M2, fmtE4M3, fmtE3M2, fmtE2M3, fmtE2M1],
     ∀ (r : Rounding) (w : Nat), r.sat = false → r.flush = false → w < 2 ^ f.bits → w % 2 ^ f.low = 0 →
       (f.value false w).isNan = false → f.convert r (f.value false w) = (w, 0)) ∧
  (∀ (r : Rounding) (neg : Bool) (m : Nat) (e sp : Int), e < sp →
     let d := 2 ^ (sp - e).toNat
     let q := roundMag r neg m e false sp
     (m % d = 0 → q = (m / d, false)) ∧
     (m % d ≠ 0 → q.2 = true ∧ (q.1 = m / d ∨ q.1 = m / d + 1) ∧
       (r.rm = 0 ∨ r.rm = 4 → (2 * (m % d) < d → q.1 = m / d) ∧ (d < 2 * (m % d) → q.1 = m / d + 1)) ∧
       (2 * (m % d) = d → (r.rm = 0 → q.1 % 2 = 0) ∧ (r.rm = 4 → q.1 = m / d + 1)) ∧
       (r.rm = 1 → q.1 = m / d) ∧
       (r.rm = 2 → q.1 = m / d + if neg then 0 else 1) ∧
       (r.rm = 3 → q.1 = m / d + if neg then 1 else 0) ∧
       (r.rm = 5 → ∀ b : Nat, 0 < b → b ≤ 32 → m % d * 2 ^ b % d = 0 → m % d * 2 ^ (b - 1) % d ≠ 0 →
         q.1 = m / d + if 2 ^ b ≤ m % d * 2 ^ b / d + r.z % 2 ^ b then 1 else 0)))

/-- FADD, FMUL, FFMA (R305), FDIV and FSQRT (R310): the exact result of the operands, rounded once. -/
def Obligations.FloatArithmetic : Prop :=
  ∀ (s : State) (x : Exe) (c : Ctl) (t : Ty) (ops : List Opnd), s.exe? = some x → x.calm →
    let v := fun (i : Instr) l k => numAt ((x.args i l).map fun v => fpIn t x.p.mode v.num) k
    let rm := modeRM x.p.mode
    (∀ sub, let i := Instr.fadd c sub t ops
      ∃ e, x.YieldsRounded s i t e ∧ ∀ l, ExactSum rm (v i l 0) (if sub then (v i l 1).opp else v i l 1) (e l)) ∧
    (let i := Instr.fmul c t ops
     ∃ e, x.YieldsRounded s i t e ∧ ∀ l, ExactProduct (v i l 0) (v i l 1) (e l)) ∧
    (∀ ms, let i := Instr.ffma c ms t ops
      ∃ e, x.YieldsRounded s i t e ∧ ∀ l, ExactFma rm (v i l 0) (v i l 1) (if ms then (v i l 2).opp else v i l 2) (e l)) ∧
    (let i := Instr.fdiv c t ops
     ∃ e, x.YieldsRounded s i t e ∧ ∀ l, ExactQuotient (v i l 0) (v i l 1) (e l)) ∧
    (let i := Instr.fsqrt c t ops
     ∃ e, x.YieldsRounded s i t e ∧ ∀ l, ExactRoot (v i l 0) (e l))

/-- FCLASS (R309): exactly one bit set, by the stored exponent and mantissa of the raw encoding, so DEN does not apply: bits 0 to 3 the
negative infinity, normal, subnormal and zero, 4 to 7 the positive zero, subnormal, normal and infinity, 8 a NaN. No flag is raised. -/
def Obligations.FloatClass : Prop :=
  ∀ (s : State) (x : Exe) (c : Ctl) (ops : List Opnd), s.exe? = some x → x.calm →
    ∀ q ∈ [(Ty.f16, 5, 10), (.bf16, 8, 7), (.f32, 8, 23), (.f64, 11, 52)],
    let i := Instr.fclass c q.1 ops
    ∃ k : Nat → Nat, x.Yields s i (fun l => [.ofBV (BitVec.twoPow 32 (k l))]) (fun _ => 0) ∧ ∀ l ∈ x.active c,
      let v := numOf (x.args i l) 0
      let man := v % 2 ^ q.2.2
      let exp := v / 2 ^ q.2.2 % 2 ^ q.2.1
      let neg := v / 2 ^ (q.2.1 + q.2.2) % 2 = 1
      (exp = 2 ^ q.2.1 - 1 → man ≠ 0 → k l = 8) ∧
      (exp = 2 ^ q.2.1 - 1 → man = 0 → k l = if neg then 0 else 7) ∧
      (exp ≠ 0 → exp ≠ 2 ^ q.2.1 - 1 → k l = if neg then 1 else 6) ∧
      (exp = 0 → man ≠ 0 → k l = if neg then 2 else 5) ∧
      (exp = 0 → man = 0 → k l = if neg then 3 else 4)

/-- FSIGN (R307), on the sign bit alone. FCMP (R308) and FMINMAX (R306): by value, −0 and +0 equal in a comparison, −0 below +0 in a
minimum; a NaN operand makes a comparison unordered. -/
def Obligations.FloatSignClassCompare : Prop :=
  (∀ (s : State) (x : Exe) (c : Ctl) (t : Ty) (ops : List Opnd), s.exe? = some x → x.calm →
     let w := t.width
     (∀ k, let i := Instr.fsign c k t ops
       let sign := BitVec.ofNat w (2 ^ (w - 1))
       let a := fun l => x.arg i w l 0
       let b := fun l => x.arg i w l 1
       0 < w → x.fits i 2 t →
       x.Yields s i (fun l => [.ofBV (match k with
         | .abs => a l &&& ~~~sign
         | .neg => a l ^^^ sign
         | .copysign => (a l &&& ~~~sign) ||| (b l &&& sign)
         | .xorsign => a l ^^^ (b l &&& sign))]) fun _ => 0)) ∧
  (∀ (s : State) (x : Exe) (c : Ctl) (t : Ty) (ops : List Opnd), s.exe? = some x → x.calm →
     (∀ k, let i := Instr.fcmp c k t ops
       let a := fun l => fpIn t x.p.mode (numOf (x.args i l) 0)
       let b := fun l => fpIn t x.p.mode (numOf (x.args i l) 1)
       ∃ (p : Nat → Bool) (fl : Nat → BitVec 6), x.Yields s i (fun l => [.ofBool (p l)]) fl ∧ ∀ l ∈ x.active c,
         ((a l).isNan ∨ (b l).isNan → p l = decide (k = .ne ∨ k = .uno) ∧
           fl l = flagIf (decide (k = .lt ∨ k = .le ∨ k = .gt ∨ k = .ge)) flagNV) ∧
         (¬ ((a l).isNan ∨ (b l).isNan) → fl l = 0 ∧ (p l = true ↔ match k with
           | .eq => ¬ (a l).less (b l) ∧ ¬ (b l).less (a l)
           | .ne => (a l).less (b l) ∨ (b l).less (a l)
           | .lt => (a l).less (b l)
           | .le => ¬ (b l).less (a l)
           | .gt => (b l).less (a l)
           | .ge => ¬ (a l).less (b l)
           | .ord => True
           | .uno => False))) ∧
     (∀ k, let i := Instr.fminmax c k t ops
       let v := fun l q => fpIn t x.p.mode (numOf (x.args i l) q)
       ∃ w : Nat → Nat, x.Yields s i (fun l => [ofTy t (w l)]) (fun _ => 0) ∧ ∀ l ∈ x.active c,
         let a := v l 0
         let b := v l 1
         let wa := flushed t x.p.mode (numOf (x.args i l) 0)
         let wb := flushed t x.p.mode (numOf (x.args i l) 1)
         let before := fun p q : Machine.Num => p.less q ∨ (p.isZero ∧ q.isZero ∧ p.neg = true ∧ q.neg = false)
         let nums := k = .minnum ∨ k = .maxnum
         ((a.isNan ∧ b.isNan) ∨ (¬ nums ∧ (a.isNan ∨ b.isNan)) → w l = nanOf t x.p.mode [a, b]) ∧
         (nums → a.isNan → b.isNan = false → w l = wb) ∧
         (nums → a.isNan = false → b.isNan → w l = wa) ∧
         (a.isNan = false → b.isNan = false →
           (k = .min ∨ k = .minnum → (before b a → w l = wb) ∧ (¬ before b a → w l = wa)) ∧
           (k = .max ∨ k = .maxnum → (before a b → w l = wb) ∧ (¬ before a b → w l = wa)))))

/-- CVTF (R313) and PACK (R314): one Convert to a format, which SAT clamps only where the target is narrower (R232), integers by
rounding and clamping, casts with the same bits, and the elements of a packed result each converted on its own. -/
def Obligations.FloatConversions : Prop :=
  ∀ (s : State) (x : Exe) (c : Ctl) (ops : List Opnd), s.exe? = some x → x.calm →
    let src := fun (i : Instr) l => fpIn (x.opTy i 0) x.p.mode (numOf (x.args i l) 0)
    let one := fun (i : Instr) (d : Ty) (w : Nat → Nat × BitVec 6) =>
      x.Yields s i (fun l => [ofTy d (w l).1]) fun l => (w l).2
    let r := fun (wide : Bool) l => if wide then { x.rounding l with sat := false } else x.rounding l
    (∀ d, let i := Instr.cvtf c (.toF d) ops
      one i d fun l => (fmtOf d).convert (r ((fmtOf d).holds (fmtOf (x.opTy i 0))) l) (src i l)) ∧
    (let i := Instr.cvtf c .e8m10 ops
     one i .f32 fun l => fmtE8M10.convert (r (fmtE8M10.holds (fmtOf (x.opTy i 0))) l) (src i l)) ∧
    (∀ n, let i := Instr.cvtf c (.toNarrow n) ops
      one i .i8 fun l => (fmtNarrow n).convert (x.rounding l) (src i l)) ∧
    (∀ n, let i := Instr.cvtf c (.fromNarrow n) ops
      one i .f32 fun l => (fmtOf .f32).convert (r true l) ((fmtNarrow n).value (modeFlushIn x.p.mode) (numOf (x.args i l) 0))) ∧
    (∀ q ∈ [(CvtfKind.s32, Ty.i32, true, 32), (.u32, .i32, false, 32), (.s64, .i64, true, 64), (.u64, .i64, false, 64),
        (.s8, .i8, true, 8), (.s4, .i8, true, 4)],
      let i := Instr.cvtf c q.1 ops
      let bounds := intRange q.2.2.1 q.2.2.2
      let n := fun l => toInteger (x.rounding l) bounds.1 bounds.2 (src i l)
      x.Yields s i (fun l => [.ofBV (BitVec.ofInt q.2.2.2 (n l).1)]) fun l => (n l).2) ∧
    (∀ d (signed : Bool), let i := Instr.cvtf c (if signed then .sToF d else .uToF d) ops
      let w := (x.opTy i 0).width
      let v := fun l => x.arg i w l 0
      ∃ e, x.YieldsRounded s i d e ∧ ∀ l ∈ x.active c, ∃ neg m, e l = (.fin neg m 0 false, 0) ∧
        (Machine.Num.fin neg m 0 false).units 0 = if signed then (v l).toInt else ((v l).toNat : Int)) ∧
    (∀ q ∈ [(CvtfKind.bitsF, Ty.i16, Ty.f16), (.bitsF, .i32, .f32), (.bitsF, .i64, .f64), (.bitsBf16, .i16, .bf16),
        (.bitsI, .f16, .i16), (.bitsI, .bf16, .i16), (.bitsI, .f32, .i32), (.bitsI, .f64, .i64)],
      let i := Instr.cvtf c q.1 ops
      x.opTy i 0 = q.2.1 →
      x.Yields s i (fun l => [.ofBV (x.arg i q.2.2.width l 0)]) fun _ => 0) ∧
    (∀ q ∈ [(PackKind.i16x2, Ty.p16x2), (.i8x4, .p8x4)],
      let i := Instr.pack c q.1 ops
      (∀ l ∈ x.active c, (x.args i l).length = elemCount q.2) →
      ∃ v : Nat → Val, x.Yields s i (fun l => [v l]) (fun _ => 0) ∧ ∀ l ∈ x.active c,
        Packs q.2 (fun j => x.arg i (elemWidth q.2) l j) (v l)) ∧
    (∀ q ∈ [(PackKind.e4m3x4, fmtE4M3, Ty.p8x4), (.e5m2x4, fmtE5M2, .p8x4), (.bf16x2, fmtBF16, .p16x2), (.f16x2, fmtF16, .p16x2)],
      let i := Instr.pack c q.1 ops
      let t := q.2.2
      let e := fun l j => q.2.1.convert (x.rounding l) (fpIn .f32 x.p.mode (numOf (x.args i l) j))
      (∀ l ∈ x.active c, (x.args i l).length = elemCount t) →
      ∃ (v : Nat → Val) (fl : Nat → BitVec 6), x.Yields s i (fun l => [v l]) fl ∧ ∀ l ∈ x.active c,
        Packs t (fun j => BitVec.ofNat (elemWidth t) (e l j).1) (v l) ∧
        ∀ b, (fl l).getLsbD b = true ↔ ∃ j, j < elemCount t ∧ (e l j).2.getLsbD b = true) ∧
    (∀ q ∈ [(Ty.p8x4, Ty.i8), (.p16x2, .i16)],
      let i := Instr.pack c .ext ops
      x.opTy i 0 = q.1 →
      x.Yields s i (fun l => [.ofBV (x.el i q.2.width l 0 (numOf (x.args i l) 1))]) fun _ => 0)

/-- DOT (R315): every kind completes; the integer products added modulo 2^32; the exact sum of two products and the addend,
rounded once, and its special cases. -/
def Obligations.DotProducts : Prop :=
  ∀ (s : State) (x : Exe) (c : Ctl) (ops : List Opnd), s.exe? = some x → x.calm →
    (∀ k : DotKind, ∃ u, exec (.dot c k ops) s = .next u) ∧
    (∀ q ∈ [(DotKind.ss, true, true), (.su, true, false), (.us, false, true), (.uu, false, false)],
      let i := Instr.dot c q.1 ops
      let e := fun (sg : Bool) l k j => if sg then (x.el i 8 l k j).signExtend 32 else (x.el i 8 l k j).zeroExtend 32
      let p := fun l j => e q.2.1 l 0 j * e q.2.2 l 1 j
      x.Yields s i (fun l => [.ofBV (x.arg i 32 l 2 + p l 0 + p l 1 + p l 2 + p l 3)]) fun _ => 0) ∧
    (∀ q ∈ [(DotKind.f16x2, fmtF16), (.bf16x2, fmtBF16)],
      let i := Instr.dot c q.1 ops
      let v := fun l k j => q.2.value (modeFlushIn x.p.mode) (x.el i 16 l k j).toNat
      let addend := fun l => fpIn .f32 x.p.mode (numOf (x.args i l) 2)
      ∃ e, x.YieldsRounded s i .f32 e ∧ ∀ l ∈ x.active c, ∃ p q : Machine.Num × BitVec 6,
        ExactProduct (v l 0 0) (v l 1 0) p ∧ ExactProduct (v l 0 1) (v l 1 1) q ∧
        (p.1.isNan ∨ q.1.isNan ∨ (addend l).isNan → (e l).1.isNan) ∧
        (p.2 = flagNV ∨ q.2 = flagNV → (e l).2 = flagNV) ∧
        (∀ f g d a b h m n o, p = (.fin f a g false, 0) → q = (.fin b m d false, 0) → addend l = .fin h n o false →
          (e l).2 = 0 ∧ ∀ e0, e0 ≤ g → e0 ≤ d → e0 ≤ o → ∃ neg v k, (e l).1 = .fin neg v k false ∧
            (e0 ≤ k → (e l).1.units e0 = p.1.units e0 + q.1.units e0 + (addend l).units e0) ∧
            (v = 0 → neg = if a = 0 ∧ m = 0 ∧ n = 0 then f && b && h else decide (modeRM x.p.mode = 3))))

/-- FRND (R323): the integral value that a rounding mode gives, with no flag; FSCALE (R324): a × 2^n rounded once, and the
exponent as an integer. SFU (R311): the special results are exact; every other result is rounded from one FP32 approximation per
input, within the error bound of its function, which no rounding mode changes, and sets NX. RNDBITS (R325): the generator on the
seed, the lane, the operand and STEP. -/
def Obligations.RoundingScalingAndSpecialFunctions : Prop :=
  (∀ (s : State) (x : Exe) (c : Ctl) (t : Ty) (ops : List Opnd), s.exe? = some x → x.calm →
     (∀ q ∈ [(FrndKind.mode, modeRM x.p.mode), (.rne, 0), (.rtz, 1), (.rup, 2), (.rdn, 3), (.rna, 4)],
       let i := Instr.frnd c q.1 t ops
       let a := fun l => fpIn t x.p.mode (numOf (x.args i l) 0)
       ∃ w : Nat → Nat, x.Yields s i (fun l => [ofTy t (w l)]) (fun _ => 0) ∧ ∀ l ∈ x.active c,
         ((a l).isNan → w l = nanOf t x.p.mode [a l]) ∧
         (∀ neg, a l = .inf neg → w l = (fmtOf t).infWord neg) ∧
         (∀ neg m e, a l = .fin neg m e false →
           w l = ((fmtOf t).convert Rounding.plain (.fin neg (roundMag { x.rounding l with rm := q.2 } neg m e false 0).1 0 false)).1)) ∧
     (let i := Instr.fscale c false t ops
      let a := fun l => fpIn t x.p.mode (numOf (x.args i l) 0)
      ∃ e, x.YieldsRounded s i t e ∧ ∀ l ∈ x.active c,
        (∀ neg m k, a l = .fin neg m k false → e l = (.fin neg m (k + (x.arg i 32 l 1).toInt) false, 0)) ∧
        ((∀ neg m k, a l ≠ .fin neg m k false) → e l = (a l, 0))) ∧
     (let i := Instr.fscale c true t ops
      let a := fun l => fpIn t x.p.mode (numOf (x.args i l) 0)
      ∃ (v : Nat → BitVec 32) (fl : Nat → BitVec 6), x.Yields s i (fun l => [.ofBV (v l)]) fl ∧ ∀ l ∈ x.active c,
        ((a l).isNan → v l = 0x80000000 ∧ fl l = flagNV) ∧
        ((a l).isInf → v l = 0x7FFFFFFF ∧ fl l = 0) ∧
        (∀ neg m k, a l = .fin neg m k false → fl l = 0 ∧ (m = 0 → v l = 0x80000000) ∧
          (m ≠ 0 → ∃ b : Nat, 2 ^ b ≤ m ∧ m < 2 ^ (b + 1) ∧ v l = BitVec.ofInt 32 (b + k))))) ∧
  (∀ (s : State) (x : Exe) (c : Ctl) (t : Ty) (ops : List Opnd), s.exe? = some x → x.calm →
     (∀ k, let i := Instr.sfu c k t ops
       let a := fun l => fpIn t x.p.mode (numOf (x.args i l) 0)
       let plain := { roundingOf x.p.mode 0 with rm := 0, sat := false }
       ∃ (w : Nat → Nat) (fl : Nat → BitVec 6), x.Yields s i (fun l => [ofTy t (w l)]) fl ∧ ∀ l ∈ x.active c,
         let exact := fun (y : Machine.Num) (f : BitVec 6) => w l = ((fmtOf t).convert plain y).1 ∧ fl l = f
         ((a l).isNan → w l = nanOf t x.p.mode [a l] ∧ fl l = 0) ∧
         (∀ neg e, a l = .fin neg 0 e false → match k with
           | .rcp | .rsq => exact (.inf neg) flagDZ
           | .lg2 => exact (.inf true) flagDZ
           | .ex2 => exact (.one false) 0
           | .sinpi | .tanh => exact (.zero neg) 0
           | .cospi | .sigm => (fl l).getLsbD 0 = true) ∧
         (∀ neg, a l = .inf neg → match k with
           | .rcp => exact (.zero neg) 0
           | .rsq => if neg then exact .nanNew flagNV else exact (.zero false) 0
           | .lg2 => if neg then exact .nanNew flagNV else exact (.inf false) 0
           | .ex2 => exact (if neg then .zero false else .inf false) 0
           | .sinpi | .cospi => exact .nanNew flagNV
           | .tanh => exact (.one neg) 0
           | .sigm => exact (if neg then .zero false else .one false) 0) ∧
         (∀ neg m e, a l = .fin neg m e false → m ≠ 0 →
           let y := sfuApprox k neg m e
           let half := e < 0 ∧ m % 2 ^ (-e).toNat ≠ 0 ∧ (0 ≤ e + 1 ∨ m % 2 ^ (-(e + 1)).toNat = 0)
           let whole := 0 ≤ e ∨ m % 2 ^ (-e).toNat = 0
           (k = .rsq ∨ k = .lg2 → neg = true → exact .nanNew flagNV) ∧
           (k = .lg2 → neg = false → (m : Int) * 2 ^ e.toNat = 2 ^ (-e).toNat → exact (.zero false) 0) ∧
           (k = .sinpi → whole → exact (.zero neg) 0) ∧
           (k = .cospi → half → exact (.zero false) 0) ∧
           (k = .rcp ∨ k = .ex2 ∨ k = .tanh ∨ k = .sigm ∨ (k = .sinpi ∧ ¬ whole) ∨ (k = .cospi ∧ ¬ half) →
             w l = ((fmtOf t).convert { plain with sat := modeSat x.p.mode } y).1 ∧ (fl l).getLsbD 0 = true))) ∧
     (∀ wide, let i := Instr.rndbits c wide ops
       let z := fun l => generator x.launch.seed (BitVec.ofNat 64 (x.gridLane l)) (BitVec.ofNat 64 (numOf (x.args i l) 0))
         ((modeStep x.p.mode).setWidth 64)
       x.Yields s i (fun l => [.ofBV ((z l).setWidth (if wide then 64 else 32))]) fun _ => 0))

/-! Cross-lane instructions (R316). -/

/-- LANEMASK (R322) and MATCH (R321), bit by bit: a mask holds the lanes that its kind names among the active lanes.
SHFL (R317) and VOTE (R318) over the active lanes. -/
def Obligations.LaneMasksShufflesAndVotes : Prop :=
  (∀ (s : State) (x : Exe) (c : Ctl) (ops : List Opnd), s.exe? = some x → x.calm →
     let bits := fun (i : Instr) (p : Nat → Nat → Prop) =>
       ∃ m : Nat → BitVec 64, x.Yields s i (fun l => [.bits (m l)]) (fun _ => 0) ∧
         ∀ l ∈ x.active c, ∀ j, j < 64 → ((m l).getLsbD j = true ↔ p l j)
     let peer := fun (k : MatchKind) l j => argOf (x.args (.matchLanes c k ops) j) 0 = argOf (x.args (.matchLanes c k ops) l) 0
     bits (.lanemaskOwn c ops) (fun l j => j = l) ∧
     bits (.lanemaskBefore c ops) (fun l j => j ∈ x.active c ∧ j < l) ∧
     bits (.lanemaskAfter c ops) (fun l j => j ∈ x.active c ∧ l < j) ∧
     (let i := Instr.lanemaskSeg c ops
      (∀ l ∈ x.active c, numOf (x.args i l) 0 ∈ [1, 2, 4, 8, 16, 32, 64]) →
      bits i fun l j => l / numOf (x.args i l) 0 * numOf (x.args i l) 0 ≤ j ∧
        j < l / numOf (x.args i l) 0 * numOf (x.args i l) 0 + numOf (x.args i l) 0) ∧
     (x.g.width ≤ 64 → bits (.lanemaskWidth c ops) fun _ j => j < x.g.width) ∧
     bits (.lanemaskAct c ops) (fun _ j => j ∈ x.active c) ∧
     bits (.matchLanes c .peers ops) (fun l j => j ∈ x.active c ∧ peer .peers l j) ∧
     (∃ n : Nat → Nat, x.Yields s (.matchLanes c .lead ops) (fun l => [.ofBV (BitVec.ofNat 32 (n l))]) (fun _ => 0) ∧
       ∀ l ∈ x.active c, n l ∈ x.active c ∧ peer .lead l (n l) ∧ ∀ j ∈ x.active c, peer .lead l j → n l ≤ j) ∧
     x.Yields s (.matchLanes c .rank ops) (fun l => [.ofBV (BitVec.ofNat 32 ((x.active c).countP fun j =>
       decide (peer .rank l j ∧ j < l)))]) (fun _ => 0) ∧
     x.Yields s (.matchLanes c .groups ops) (fun _ => [.ofBV (BitVec.ofNat 32 ((x.active c).countP fun j =>
       (x.active c).all fun q => decide (j < q → ¬ peer .groups j q)))]) (fun _ => 0)) ∧
  (∀ (s : State) (x : Exe) (c : Ctl) (ops : List Opnd), s.exe? = some x → x.calm →
     (∀ k, let i := Instr.shfl c k ops
       let w := if (x.plan i).own.length = 3 then numOf (x.onceVals i) 2 else x.g.width
       let n := fun l => numOf (x.args i l) 1
       let base := fun l => l / w * w
       let source := fun l j => match k with
         | .idx => j = base l + n l % w
         | .up => n l < w ∧ base l + n l ≤ l ∧ j + n l = l
         | .down => n l < w ∧ l + n l < base l + w ∧ j = l + n l
         | .xor => j = l ^^^ (n l % w)
       ∃ out, x.Yields s i out (fun _ => 0) ∧ ∀ l ∈ x.active c,
         (∀ j ∈ x.active c, source l j → out l = [argOf (x.args i j) 0, .ofBool true]) ∧
         ((∀ j ∈ x.active c, ¬ source l j) → out l = [argOf (x.args i l) 0, .ofBool false])) ∧
     (let p := fun (k : VoteKind) l => (argOf (x.args (.vote c k ops) l) 0).isTrue
      let yields := fun (k : VoteKind) v => x.Yields s (.vote c k ops) (fun _ => [v]) fun _ => 0
      yields .all (.ofBool ((x.active c).all (p .all))) ∧
      yields .any (.ofBool ((x.active c).any (p .any))) ∧
      (∃ m : BitVec 64, yields .mask (.bits m) ∧ ∀ j, m.getLsbD j = true ↔ j ∈ x.active c ∧ p .mask j = true) ∧
      yields .eq (.ofBool ((x.active c).all (p .eq) || !(x.active c).any (p .eq))) ∧
      yields .count (.ofBV (BitVec.ofNat 32 ((x.active c).countP (p .count))))))

/-- SCAN (R319) and REDUCE (R320): the combination runs in ascending lane order and the first active lane's value enters
unchanged; an inactive lane of a scan takes the running value; a combining step raises its flags in its own lane. -/
def Obligations.ScanAndReduce : Prop :=
  ∀ (s : State) (x : Exe) (c : Ctl) (k : ScanKind) (ops : List Opnd), s.exe? = some x → x.calm →
    (∀ l ∈ x.lanes, l < x.g.width) →
    (∀ i ∈ [Instr.scan c k true ops, .scan c k false ops, .reduce c k ops],
      let t := x.opTy i 0
      let v := fun l => numOf (x.args i l) 0
      ∃ (acc : Nat → Option Nat) (fl : Nat → BitVec 6) (u : State),
        acc 0 = none ∧
        (∀ l, l ∉ x.active c → acc (l + 1) = acc l) ∧
        (∀ l ∈ x.active c, acc l = none → acc (l + 1) = some (v l) ∧ fl l = 0) ∧
        (∀ l ∈ x.active c, ∀ a, acc l = some a →
          let e := combine k t x.p.mode (x.rounding l) a (v l)
          acc (l + 1) = some e.1 ∧ fl l = e.2) ∧
        exec i s = .next u ∧
        let held := fun l => ofTy t ((acc l).getD (scanIdentity k t))
        x.Completes i (x.flagged (x.raised i fl)) (fun l =>
          if i = .reduce c k ops then (if l ∈ x.active c then some [ofTy t ((acc x.g.width).getD 0)] else none)
          else if l ∈ x.active c ∧ i = .scan c k false ops then some [held (l + 1)] else some [held l]) u) ∧
    (∀ t ∈ [Ty.i8, .i16, .i32, .i64], ∀ (r : Rounding) (a b : BitVec t.width),
      let e := combine k t x.p.mode r a.toNat b.toNat
      let op := fun a b : BitVec t.width => match k with
        | .add => a + b
        | .smin => minMaxOf .smin a b
        | .smax => minMaxOf .smax a b
        | .umin => minMaxOf .umin a b
        | .umax => minMaxOf .umax a b
        | .and => a &&& b
        | .or => a ||| b
        | .xor => a ^^^ b
      e = ((op a b).toNat, 0) ∧ op (BitVec.ofNat t.width (scanIdentity k t)) b = b) ∧
    (∀ t ∈ [Ty.f16, .bf16, .f32, .f64], ∀ (r : Rounding) (a b : Nat),
      let f := fun v => fpIn t x.p.mode v
      (k = .add → ∃ e, ExactSum (modeRM x.p.mode) (f a) (f b) e ∧
        combine k t x.p.mode r a b = (((fmtOf t).convert r e.1).1, e.2 ||| ((fmtOf t).convert r e.1).2)) ∧
      (k = .smin → combine k t x.p.mode r a b = (fminmaxWord .min t x.p.mode a b, 0)) ∧
      (k = .smax → combine k t x.p.mode r a b = (fminmaxWord .max t x.p.mode a b, 0)))

/-! The mode word, the cycle counter and the context of a path. -/

/-- SETM (R299): what each form makes of the mode word (R297), read from the lowest active lane; RM never becomes 6 or 7; and the
guards of the path's lanes.
GETM (R300), RDCYC (R301) and RDCTX (R379): what each form reads. The count of cycles between two reads is a free value (assumption
log 33), and no count falls. -/
def Obligations.ModeWordAndContext : Prop :=
  (∀ (s : State) (x : Exe) (c : Ctl) (ops : List Opnd), s.exe? = some x → x.calm →
     let m := x.p.mode
     let v := fun (i : Instr) (n k : Nat) => BitVec.ofNat n (numOf (x.onceVals i) k)
     let sets := fun (i : Instr) (bit : Nat → Bool) => ∃ (m' : BitVec 64) (u : State), exec i s = .next u ∧
       x.Completes i (modeRaise m' (flagIf (x.oncePoison i) flagPO)) (fun _ => none) u ∧ ∀ b, b < 64 → m'.getLsbD b = bit b
     (let i := Instr.setmCtl c ops
      let new := (m.extractLsb' 0 7 &&& ~~~v i 7 0) ||| (v i 7 1 &&& v i 7 0)
      sets i fun b => if b < 7 ∧ (3 ≤ b ∨ (new.extractLsb' 0 3).toNat < 6) then new.getLsbD b else m.getLsbD b) ∧
     (let i := Instr.setmFlags c ops
      sets i fun b => if 8 ≤ b ∧ b < 14 then (m.getLsbD b && !(v i 6 0).getLsbD (b - 8)) || (v i 6 1).getLsbD (b - 8) else m.getLsbD b) ∧
     (let i := Instr.setmEn c ops
      sets i fun b => if 16 ≤ b ∧ b < 22 ∧ (v i 6 0).getLsbD (b - 16) then (v i 6 1).getLsbD (b - 16) else m.getLsbD b) ∧
     (let i := Instr.setmStep c ops
      sets i fun b => if 32 ≤ b then (v i 32 0).getLsbD (b - 32) else m.getLsbD b) ∧
     (let i := Instr.setmStepadd c ops
      sets i fun b => if 32 ≤ b then (m.extractLsb' 32 32 + v i 32 0).getLsbD (b - 32) else m.getLsbD b) ∧
     (let i := Instr.setmGuard c ops
      ∃ (f : BitVec 6) (u : State), exec i s = .next u ∧
        x.Completes i (x.flagged f) (fun _ => none) (u.setGroup x.gid { u.group x.gid with guard := x.g.guard }) ∧
        (∀ l, l < 64 → (u.group x.gid).guard.getLsbD l =
          if l ∈ x.lanes then (argOf (x.args i l) 0).isTrue else x.g.guard.getLsbD l) ∧
        ((∃ l ∈ x.active c, x.poison i l = flagPO) → f = flagPO) ∧ ((∀ l ∈ x.active c, x.poison i l = 0) → f = 0))) ∧
  (∀ (s : State) (x : Exe) (c : Ctl) (ops : List Opnd), s.exe? = some x →
     let gives := fun (y : Exe) (i : Instr) (out : Nat → List Val) =>
       ∃ u, exec i s = .next u ∧ y.Completes i x.p.mode (x.only i out) u
     gives x (.getmCtl c ops) (fun _ => [.ofBV (x.p.mode.extractLsb' 0 32)]) ∧
     gives x (.getmStep c ops) (fun _ => [.ofBV (x.p.mode.extractLsb' 32 32)]) ∧
     gives x (.getmGuard c ops) (fun l => [.ofBool (x.g.guard.getLsbD l)]) ∧
     (∃ m : BitVec 64, gives x (.getmGmask c ops) (fun _ => [.bits m]) ∧
       ∀ l, m.getLsbD l = true ↔ x.g.guard.getLsbD l = true ∧ l ∈ x.lanes) ∧
     (∀ i ∈ [Instr.rdcycI64 c ops, .rdcycI32 c ops], ∃ n : BitVec 64,
       let old := match x.p.place.galleryCore with
         | none => mget x.s.cycles x.team.core
         | some k => mget x.s.gcycles (x.hall * 32 + k)
       let v := old.getD 0 + n
       (old.getD 0).toNat ≤ v.toNat ∧
       let s' : State := match x.p.place.galleryCore with
         | none => { x.s with cycles := mset x.s.cycles x.team.core v }
         | some k => { x.s with gcycles := mset x.s.gcycles (x.hall * 32 + k) v }
       gives { x with s := s' } i fun _ => [.ofBV (v.setWidth (if i = .rdcycI64 c ops then 64 else 32))]) ∧
     (∀ h, x.g.handler = some h →
       (∃ v : BitVec 64, gives x (.rdctxTrap c ops) (fun _ => [.bits v]) ∧ v.extractLsb' 0 8 = h.code ∧
         v.extractLsb' 8 6 = h.flags ∧ v.extractLsb' 14 2 = 0 ∧ v.extractLsb' 16 48 = h.pc) ∧
       gives x (.rdctxLanes c ops) (fun _ => [.bits h.lanes]) ∧
       gives x (.rdctxOpnd c ops) fun l =>
         [.bits (((mget h.opnds l).getD [])[numOf (x.onceVals (.rdctxOpnd c ops)) 0]?.getD 0)]) ∧
     gives x (.rdctxLaunch c ops) (fun _ => [.bits x.launch.seq]) ∧
     gives x (.rdctxEnclave c ops) (fun _ => [.ofBV (BitVec.ofNat 32 x.eid)]) ∧
     gives x (.rdctxPlace c ops) (fun _ => [.ofBV (BitVec.ofNat 32 (x.g.slot % 256 * 256 + x.team.core % 256))]))

/-! Control flow. -/

/-- BR (R288): every lane of the path continues at the target (R254); no other path, landing or entry changes, and the block ends
there. -/
def Obligations.BranchContinuesAtTarget : Prop :=
  ∀ (s : State) (x : Exe) (c : Ctl) (d : BitVec 28), s.exe? = some x →
    let i := Instr.br c [.target d]
    terminates i = true ∧
    ∃ t, exec i s = .next t ∧
      x.Becomes i (x.having (x.moved (x.p.pc + d.signExtend 48 * 4) (x.p.pc, 1) x.p.mode)) t

/-- BRC (R289) and BRM (R290) where the lanes take one arm: the path follows it, and nothing is pushed (R183). An arm of BRM is
taken when its predicate is the first that is true.
A divergent BRC (R183, R289): the minority leaves, the taken arm when the two are equal: to an idle gallery core where the arm
may be ejected, as a second core path of a group that has one and no landing-stack entry, onto the landing stack otherwise; a
full stack raises LANDING_OVERFLOW. The majority goes on, and all lanes of the path are pending at the branch's landing. -/
def Obligations.ConditionalBranches : Prop :=
  (∀ (s : State) (x : Exe) (c : Ctl) (ops : List Opnd), s.exe? = some x → x.calm → x.lanes ≠ [] → x.p.arms = [] →
     let follows := fun (i : Instr) (pc : BitVec 48) (place : Nat) => ∃ (f : BitVec 6) (t : State), exec i s = .next t ∧
       ((∃ l ∈ x.lanes, x.poison i l = flagPO) → f = flagPO) ∧ ((∀ l ∈ x.lanes, x.poison i l = 0) → f = 0) ∧
       x.Becomes i (x.having (x.moved pc (x.p.pc, place) (x.flagged f))) t
     (let i := Instr.brc c ops
      let taken := fun l => (argOf (x.args i l) 0).isTrue
      (∀ d, targetsOf ops = [d] → (∀ l ∈ x.lanes, taken l = true) → follows i (x.p.pc + d.signExtend 48 * 4) 1) ∧
      (∀ d, targetsOf ops = [d] → (∀ l ∈ x.lanes, taken l = false) → follows i (pcAdd x.p.pc (instrSize i)) 0)) ∧
     (∀ q ∈ [(BrmKind.one, 1), (.two, 2), (.three, 3), (.mask, 4)],
       let i := Instr.brm c q.1 ops
       let holds := fun l j =>
         if q.1 = .mask then (numOf (x.args i l) 0).testBit j else (argOf (x.args i l) (2 * j)).isTrue
       (targetsOf ops).length = q.2 →
       (∀ k d, (targetsOf ops)[k]? = some d → (∀ l ∈ x.lanes, holds l k = true ∧ ∀ j, j < k → holds l j = false) →
         follows i (x.p.pc + d.signExtend 48 * 4) (k + 1)) ∧
       ((∀ l ∈ x.lanes, ∀ j, j < q.2 → holds l j = false) → follows i (pcAdd x.p.pc (instrSize i)) 0))) ∧
  (∀ (s : State) (x : Exe) (c : Ctl) (ops : List Opnd) (d : BitVec 28) (land : BitVec 48 × Nat), s.exe? = some x → x.calm →
     x.p.arms = [] → targetsOf ops = [d] → x.tr.landing x.p.pc = some land →
     let i := Instr.brc c ops
     let taken := fun l => (argOf (x.args i l) 0).isTrue
     let arm := fun b => x.lanes.filter fun l => taken l == b
     arm true ≠ [] → arm false ≠ [] →
     let min := decide ((arm true).length ≤ (arm false).length)
     let pc := fun b => if b then x.p.pc + d.signExtend 48 * 4 else pcAdd x.p.pc (instrSize i)
     let e := x.launch.eject
     let free := fun k => k < 32 ∧ k ∉ x.s.galleryBusy x.hall
     let ejects := 0 < e ∧ (arm min).length ≤ e ∧ x.g.handler = none ∧ x.p.place = .core ∧ x.g.ctx.ejected < 4 ∧
       x.tr.handsOver (x.tr.offset x.p.pc) [(min.toNat, x.tr.offset (pc min))] (x.tr.offset land.1) = true ∧ ∃ k, free k
     let u := x.g.fresh
     let r : LandRec := {
       uid := u, id := land.2, join := land.1, depth := x.depth, owner := x.pid, need := x.p.mask, arrived := 0, modes := []
       timer := false, outer := x.p.pend, place := x.p.place, waits := [], away := false }
     let path := fun (f : BitVec 6) (b : Bool) =>
       { x.moved (pc b) (x.p.pc, b.toNat) (x.flagged f) with mask := maskOf (arm b), pend := u :: x.p.pend }
     let stay := fun f => path f !min
     let leave := fun f => { path f min with recalled := false }
     let added := fun (f : BitVec 6) (q : Path) =>
       { x.g with
         fresh := u + 2
         ctx := { x.g.ctx with paths := mset (mset x.g.ctx.paths (u + 1) q) x.pid (stay f), recs := x.g.ctx.recs ++ [r] } }
     ∃ (f : BitVec 6) (t : State), exec i s = .next t ∧
       ((∃ l ∈ x.lanes, x.poison i l = flagPO) → f = flagPO) ∧ ((∀ l ∈ x.lanes, x.poison i l = 0) → f = 0) ∧
       (ejects → ∃ k, free k ∧ t.launches = mset x.s.launches x.team.launch { x.launch with ejections := x.launch.ejections + 1 } ∧
         x.Becomes i (added f { leave f with place := .handing k }) { t with launches := x.s.launches }) ∧
       (¬ ejects → x.g.ctx.corePaths = 1 ∧ x.g.ctx.stack = [] ∧ x.p.place = .core → x.Becomes i (added f (leave f)) t) ∧
       (¬ ejects → ¬ (x.g.ctx.corePaths = 1 ∧ x.g.ctx.stack = [] ∧ x.p.place = .core) →
         (x.g.ctx.stack.length < 32 →
           let q := leave f
           let entry : Entry := {
             rcd := some u, lanes := q.mask, pc := q.pc, owner := x.pid, mode := q.mode, pend := q.pend, last := q.last, arms := []
             place := x.p.place, runs := x.pid }
           let ctx : Ctx := { x.g.ctx with
             paths := mset x.g.ctx.paths x.pid (stay f), stack := x.g.ctx.stack ++ [entry], recs := x.g.ctx.recs ++ [r] }
           x.Becomes i { x.g with fresh := u + 1, ctx := ctx } t) ∧
         (32 ≤ x.g.ctx.stack.length → t = x.trapAll i trapOverflow)))

/-- JOIN (R291): the lanes of a path arrive at its innermost landing if the JOIN names it, at their call depth; an ejected path
begins its copy-back at the landing of its ejection (R189); any other path passes. A lane's edge is the JOIN's, or, where PHIs
follow the JOIN, the one by which it came (R287). The first lanes at a landing start its timer, where the launch has one (R193).
What follows in a group from arrivals and exits (R185, R186), until nothing more follows. Of a path number whose path does not
run: while lanes are missing at its innermost landing, its pending arm runs if it has one; when every lane has arrived, they go
on as one path behind the JOIN with the mode word of R298; not while a handler runs for the landing's JOIN_TIMEOUT (R194). -/
def Obligations.JoinsAndLandings : Prop :=
  (∀ (s : State) (x : Exe) (c : Ctl) (id : BitVec 28), s.exe? = some x →
     let i := Instr.join c [.table id]
     let here := fun (r : LandRec) => x.p.pend.head?.bind x.g.ctx.rcd = some r ∧ r.id = id.toNat ∧ r.depth = x.depth
     let edge := fun (words : Nat) =>
       if x.tr.phiAfterJoin (pcAdd x.p.pc words) then x.p.last.getD (x.p.pc - 8, 0) else (x.p.pc, 0)
     ((¬ ∃ r, here r) → ∃ t, exec i s = .next t ∧ x.Becomes i (x.having (x.moved (pcAdd x.p.pc 2) (edge 2) x.p.mode)) t) ∧
     (∀ r, here r → x.p.place ≠ .core → r.owner ≠ x.pid → ∃ k t, x.p.place.galleryCore = some k ∧ exec i s = .next t ∧
       t = x.put (x.having { x.p with place := .copying k })) ∧
     (∀ r, here r → x.p.place = .core ∨ r.owner = x.pid →
       let r' := { r with
         arrived := r.arrived ||| x.p.mask
         modes := r.modes ++ [(x.p.mask, x.p.mode)]
         timer := r.timer || decide (r.arrived = 0 ∧ x.launch.joinwait ≠ 0 ∧ x.g.handler = none)
         waits := if x.p.place = .core ∧ x.pid ∉ r.waits then r.waits ++ [x.pid] else r.waits }
       let ctx := { x.g.ctx with
         paths := mdel x.g.ctx.paths x.pid
         recs := x.g.ctx.recs.map fun q : LandRec => if q.uid = r.uid then r' else q }
       ∃ t u, exec i s = .next t ∧ u.Sampled t ∧ (x.g.handler ≠ none → t = u) ∧ x.Counted 1 u ∧
         u.group x.gid = { x.g with lanes := (u.group x.gid).lanes, ctx := x.s.follows { x.g with ctx := ctx } } ∧
         (∀ l, (u.group x.gid).lane l =
           if l ∈ x.lanes then { x.g.lane l with edge := some (edge 2) } else x.g.lane l) ∧
         x.Keeps (fun _ => False) (u.setGroup x.gid x.g))) ∧
  (∀ c : Ctx,
     (∀ o ∈ c.settled.idleOwners, c.settled.settleOne o = none) ∧
     ∀ o r, o ∈ c.idleOwners → (∀ q ∈ c.idleOwners, q = o) → c.lastOwned o = some r → r.need ≠ 0 →
       (∀ e, c.dueEntry o (some r) = some e → e.runs = o →
         c.settled = { c with
           stack := dropLastOf (Entry.dueAt o (some r)) c.stack
           paths := mset c.paths o { Path.start e.pc e.lanes e.mode e.pend e.last e.place with arms := e.arms } }) ∧
       (c.dueEntry o (some r) = none →
         (r.need &&& ~~~r.arrived ≠ 0 ∨ r.away = true → c.settled = c) ∧
         (r.need &&& ~~~r.arrived = 0 → r.away = false → (∀ u q, r.outer.head? = some u → c.rcd u = some q → q.id = r.id → q.depth ≠ r.depth) →
           c.settled = { c.dropRcd r.uid with
             paths := mset c.paths o (Path.start (pcAdd r.join 2) r.need
               (modeMerge (r.modes.map fun a => (a.1 &&& r.need, a.2))) r.outer none r.place) })))

/-- PHI (R287): the PHIs of a block act together. Each lane reads, in every one, the operand of the edge by which it last
entered the block, and then defines them all; an operand with L ends in the lanes of its edge. A lane whose edge has no operand
reads poison. No PHI reads a shadowed acc, which only the speculative forms and SPEC take (R371; assumption log 121). -/
def Obligations.PhisReadThenDefine : Prop :=
  ∀ (s : State) (x : Exe) (c : Ctl) (t : Ty) (ops : List Opnd), s.exe? = some x → x.calm →
    let run := (t, ops) :: ((phiRun x.tr.nodes (x.tr.offset x.p.pc)).drop 1).map Node.phi
    let edge := fun l => if x.p.last = none then (x.g.lane l).edge else x.p.last
    let operand := fun l (q : Ty × List Opnd) => ((edge l).bind fun e => x.tr.edgeIndex x.p.pc e).bind fun n => q.2[n]?
    let read := fun l q => match operand l q with
      | some o => x.read q.1 l o
      | none => (poisonOf q.1, true)
    let base := x.tr.baseAt x.p.pc
    let next := pcAdd x.p.pc (run.map fun q => 1 + (q.2.map fun o => o.words.length).sum).sum
    let final := 1 + ((run.getLastD (t, ops)).2.map fun o => o.words.length).sum
    (∀ l ∈ x.lanes, ∀ q ∈ run, (read l q).1.shadowed = false) →
    ∃ (f : BitVec 6) (u : State), exec (.phi c t ops) s = .next u ∧
      ((∃ l ∈ x.lanes, ∃ q ∈ run, (read l q).2 = true) → f = flagPO) ∧
      ((∀ l ∈ x.lanes, ∀ q ∈ run, (read l q).2 = false) → f = 0) ∧
      mget (u.group x.gid).ctx.paths x.pid = some (x.moved next (next - BitVec.ofNat 48 (4 * final), 0) (x.flagged f)) ∧
      (∀ l ∈ x.lanes, ∀ k q, run[k]? = some q → ((u.group x.gid).lane l).val (base + k) = some (read l q).1) ∧
      (∀ l ∈ x.lanes, ∀ q ∈ run, ∀ o, operand l q = some o → ∀ id ∈ endsOf [o], ¬ (base ≤ id ∧ id < base + run.length) →
        ((u.group x.gid).lane l).val id = none) ∧
      x.Counted run.length u ∧
      x.Keeps (fun id => (∃ l ∈ x.lanes, ∃ q ∈ run, ∃ o, operand l q = some o ∧ id ∈ endsOf [o]) ∨
        base ≤ id ∧ id < base + run.length) u

/-- CALL and CALLI (R292, R294): the lanes enter the function at its ENTRY with a new call frame, which holds the argument slots
(R253) and the next head word as the return point. The 256th nested call ends the launch with CALL_DEPTH; a function without a
translation is waited for (R209); indices that differ, or that name no function of KIND 0, raise HANDLE_INVALID.
RET (R293): the lanes go on behind the CALL that they return from; its result i is operand i of the RET in the result's type, and
poison where the RET has no such operand. The callee's frame is gone, and the caller's other values are as they were. -/
def Obligations.CallsAndReturns : Prop :=
  (∀ (s : State) (x : Exe) (c : Ctl) (t : Ty) (ops : List Opnd) (fn : Nat), s.exe? = some x → x.calm →
     let call := Instr.call c t ops
     let calli := Instr.calli c t ops
     let indices := x.lanes.map fun l => numOf (x.args calli l) 0
     let named := indices.headD 0 = fn ∧ (∀ n ∈ indices, n = fn) ∧ x.device fn = true
     (¬ (∃ n, indices.headD 0 = n ∧ (∀ m ∈ indices, m = n) ∧ x.device n = true) → exec calli s = .next (x.trapAll calli trapHandle)) ∧
     ∀ i, (i = call ∧ joinId ops = fn) ∨ (i = calli ∧ named) →
       let calls := (x.g.lane x.first).frames.length - 1 - if x.g.handler.isSome then 1 else 0
       let found := x.s.findTrans x.eid x.launch.obj fn x.g.width (x.launch.budget x.g.role) x.hall
       (255 ≤ calls → exec i s = .next (x.s.endLaunch x.team.launch stCallDepth 0 0 0)) ∧
       (calls < 255 → found = none → exec i s = .next (x.s.awaitTrans x.gid x.pid fn x.p)) ∧
       (∀ n tr d, calls < 255 → found = some (n, tr) → tr.fault = some d →
         exec i s = .next (x.s.endLaunch x.team.launch stTranslation d.1 d.2 0)) ∧
       (∀ n tr, calls < 255 → found = some (n, tr) → tr.fault = none →
         ∃ (f : BitVec 6) (u : State), exec i s = .next u ∧
           ((∃ l ∈ x.active c, x.poison i l = flagPO) → f = flagPO) ∧ ((∀ l ∈ x.active c, x.poison i l = 0) → f = 0) ∧
           let y := { x with s := x.entered n }
           let caller := fun l => (x.g.lane l).eraseAll (endsOf ops)
           (u.group x.gid).ctx = (x.having (x.moved tr.entry (x.p.pc, 0) (x.flagged f))).ctx ∧
           (∀ l, (u.group x.gid).lane l = if l ∈ x.lanes then
               { caller l with frames := { fn := fn, tr := n, ret := pcAdd x.p.pc (instrSize i), vals := [],
                                           args := ((x.args i l).drop 1).map Val.toBits } :: (caller l).frames }
             else x.g.lane l) ∧
           y.Counted 1 u ∧
           y.Keeps (fun _ => False) (u.setGroup x.gid { u.group x.gid with lanes := x.g.lanes, ctx := x.g.ctx }))) ∧
  (∀ (s : State) (x : Exe) (c : Ctl) (ops : List Opnd) (call : Node), s.exe? = some x → x.calm →
     let i := Instr.ret c ops
     let ret := (x.g.lane x.first).top.ret
     let caller := x.s.translation ((x.g.lane x.first).frames.getD 1 ⟨0, 0, 0, [], []⟩).tr
     caller.nodes.find? (fun n => n.off + n.size == caller.offset ret) = some call →
     ∃ (f : BitVec 6) (u : State), exec i s = .next u ∧
       ((∃ l ∈ x.active c, x.poison i l = flagPO) → f = flagPO) ∧ ((∀ l ∈ x.active c, x.poison i l = 0) → f = 0) ∧
       (u.group x.gid).ctx = (x.having (x.moved ret (pcAdd caller.entry call.off, 0) (x.flagged f))).ctx ∧
       (∀ l ∈ x.lanes,
         let y := (u.group x.gid).lane l
         let outer := { x.g.lane l with frames := (x.g.lane l).frames.tail }
         (∀ k v t, k < call.ndef → (x.args i l)[k]? = some v → caller.typeOf (call.base + k) = some t →
           y.val (call.base + k) = some (ofTy t v.num)) ∧
         (∀ k, k < call.ndef → (x.args i l)[k]? = none → y.val (call.base + k) = none) ∧
         (∀ id, ¬ (call.base ≤ id ∧ id < call.base + call.ndef) → y.val id = outer.val id) ∧
         y.edge = outer.edge ∧ y.frames.tail = outer.frames.tail ∧ { y.top with vals := outer.top.vals } = outer.top) ∧
       (∀ l, l ∉ x.lanes → (u.group x.gid).lane l = x.g.lane l) ∧
       x.Counted 1 u ∧
       x.Keeps (fun _ => False) (u.setGroup x.gid { u.group x.gid with lanes := x.g.lanes, ctx := x.g.ctx }))

/-- EXIT (R295): the lanes of the path have exited; they leave every path, landing, entry and barrier of the group (R148, R185, R186),
and what waited for them alone goes on. Where the gang still has something to do, nothing else changes. -/
def Obligations.ExitEndsLanes : Prop :=
  ∀ (s : State) (x : Exe) (c : Ctl) (ops : List Opnd), s.exe? = some x →
    x.g.handler = none → x.g.ctx.meets = [] → x.g.ctx.barm = [] → x.team.latches = [] →
    let out := fun (m : LaneMask) => m &&& ~~~x.p.mask
    let left : Ctx := {
      paths := (x.g.ctx.paths.map fun p => (p.1, { p.2 with mask := out p.2.mask })).filter fun p => p.2.mask != 0
      stack := (x.g.ctx.stack.map fun e => { e with lanes := out e.lanes }).filter fun e => e.lanes != 0
      recs := x.g.ctx.recs.map fun r => { r with need := out r.need, arrived := out r.arrived }
      meets := [], barm := [] }
    let g := { x.g with exited := x.g.exited ||| x.p.mask, ctx := x.s.follows { x.g with ctx := left } }
    (∀ q ∈ x.launch.gangs, q.2.state = .placed → (x.put g).gangOver q.2.teams = false) →
    ∃ t u, exec (.exit c ops) s = .next t ∧ u.Sampled t ∧ u.group x.gid = g ∧ x.Counted 1 u ∧
      x.Keeps (fun _ => False) (u.setGroup x.gid x.g)

/-! Traps. -/

/-- NOP and FENCE (R271, R337): the path goes on, and nothing else changes.
TMASK (R378): bits 1 to 14 of the group's delivery mask, and its old value. -/
def Obligations.NopFencesAndTmask : Prop :=
  (∀ (s : State) (x : Exe) (c : Ctl) (scope : Scope) (ops : List Opnd), s.exe? = some x →
     ∀ i ∈ [Instr.nop c ops, .fenceAcq c scope ops, .fenceRel c scope ops, .fenceAr c scope ops, .fenceSc c scope ops],
       ∃ t, exec i s = .next t ∧ x.Completes i x.p.mode (fun _ => none) t) ∧
  (∀ (s : State) (x : Exe) (c : Ctl) (ops : List Opnd), s.exe? = some x → x.calm →
     let i := Instr.tmask c ops
     let m := numOf (x.onceVals i) 0
     ∃ t, exec i s = .next t ∧
       x.Completes i (x.flagged (flagIf (x.oncePoison i) flagPO)) (x.only i fun _ => [.ofBV x.g.tmask])
         (t.setGroup x.gid { t.group x.gid with tmask := x.g.tmask }) ∧
       ∀ b, (t.group x.gid).tmask.getLsbD b = (decide (1 ≤ b ∧ b ≤ 14) && m.testBit b))

/-- TRAP (R376), UNREACH (R296), VOTE.LEVEL (R222) and a reserved major (R265) raise their trap in the lanes of the path, which
enter the trap entry function (R404 to R406), while the group is in no handler and its delivery mask lets the trap through. A
trap that is not delivered (R198, R405, R407): inside a handler it is a double trap, one that the delivery mask holds back and
one without a trap entry end the launch, a trap entry without a translation is waited for, and an ejected path is first
recalled, to take its trap on the core; where the recall would overflow the landing stack, LANDING_OVERFLOW is taken instead. -/
def Obligations.TrapsEnterOrEnd : Prop :=
  (∀ (s : State) (x : Exe) (c : Ctl) (n : BitVec 30) (ops : List Opnd) (maj : BitVec 7) (sub : BitVec 5) (m r : BitVec 4)
     (ws : List Word) (fn k : Nat) (tr : Machine.Trans), s.exe? = some x → c.guarded = false → 0x10 ≤ n.toNat → n.toNat ≤ 0x7F →
     let trap := Instr.trap c [.imm n]
     let stub := Instr.reservedMajorStub maj sub c m r ws
     ∀ q ∈ [(trap, n.toNat), (.unreach c ops, 0x0D), (.voteLevel c ops, 0x0E), (stub, 2)],
       x.p.place = .core → x.g.handler = none → (q.2 < 0x10 → x.g.tmask.getLsbD q.2 = true) → x.s.trapFn x.launch = some fn →
       x.s.findTrans x.eid x.launch.obj fn x.g.width (x.launch.budget x.g.role) x.hall = some (k, tr) →
       ∃ t, exec q.1 s = .next t ∧
         x.EntersHandler fn k tr
           { code := q.2, lanes := x.p.mask, flags := 0
             opnds := x.lanes.map fun l => (l, if q.1 = stub then [] else x.shownOps q.1 l) } t) ∧
  (∀ (x : Exe) (h : TrapInfo), x.s.exe? = some x →
     let t := x.s.raiseTrap x.gid x.pid x.p h
     let ends := fun status detail addr => t = x.s.endLaunch x.team.launch status detail addr h.code
     (x.p.place = .core →
       (x.g.handler.isSome → ends stDoubleTrap 0 0) ∧
       (x.g.handler = none → h.code < 0x10 → x.g.tmask.getLsbD h.code = false → ends stUnhandled h.code x.p.pc) ∧
       (x.g.handler = none → (h.code < 0x10 → x.g.tmask.getLsbD h.code = true) → x.s.trapFn x.launch = none → ends stNoHandler 0 0) ∧
       (∀ fn, x.g.handler = none → (h.code < 0x10 → x.g.tmask.getLsbD h.code = true) → x.s.trapFn x.launch = some fn →
         x.s.findTrans x.eid x.launch.obj fn x.g.width (x.launch.budget x.g.role) x.hall = none →
         t = x.s.awaitTrans x.gid x.pid fn x.p)) ∧
     (∀ k, x.p.place.galleryCore = some k →
       (x.g.ctx.corePaths < 2 ∨ x.g.ctx.stack.length < 32 →
         t = x.put (x.having { x.p with place := .recalling k, owed := some h })) ∧
       (2 ≤ x.g.ctx.corePaths → 32 ≤ x.g.ctx.stack.length → x.g.handler = none → x.g.tmask.getLsbD trapOverflow = true →
         ∀ fn n tr, x.s.trapFn x.launch = some fn →
           x.s.findTrans x.eid x.launch.obj fn x.g.width (x.launch.budget x.g.role) x.hall = some (n, tr) →
           x.EntersHandler fn n tr { h with code := trapOverflow, lanes := x.p.mask, flags := 0 } t)))

/-- What a poison read and an enabled flag do (R236, R237, R276, R405): POISON_READ comes before the instruction's own check,
and FP_FLAG after it; each is raised in the lanes that fail the check, and FP_FLAG names the flags. A flag that is not enabled
only sticks. -/
def Obligations.PoisonAndEnabledFlagsTrap : Prop :=
  ∀ (s : State) (x : Exe) (c : Ctl) (t : Ty) (ops : List Opnd), s.exe? = some x →
    let raises := fun (i : Instr) (code : Nat) (lanes : List Nat) (flags : BitVec 6) => exec i s = .next (x.s.raiseTrap x.gid x.pid x.p
      { code := code, lanes := maskOf lanes, flags := flags, opnds := x.lanes.map fun l => (l, x.shownOps i l) })
    let en := modeEn x.p.mode
    let bad := fun i => (x.active c).filter fun l => x.poison i l == flagPO
    let poisons := fun i => en &&& flagPO ≠ 0 ∧ bad i ≠ []
    (∀ m md k cond sub ms fmm fs fc signed, ∀ i ∈ [Instr.const c t ops, .iadd c m t ops, .isub c m t ops, .imul c md t ops, .imad c k t ops,
        .idiv c signed t ops, .iminmax c cond t ops, .fadd c sub t ops, .fmul c t ops, .ffma c ms t ops, .fdiv c t ops, .fsqrt c t ops,
        .fminmax c fmm t ops, .fsign c fs t ops, .fcmp c fc t ops, .fclass c t ops],
      poisons i → raises i 3 (bad i) 0) ∧
    (∀ signed, let i := Instr.idiv c signed t ops
      let zero := (x.active c).filter fun l => numOf (x.args i l) 1 == 0
      ¬ poisons i → en &&& flagDZ ≠ 0 → zero ≠ [] → raises i 5 zero 0) ∧
    (∀ sub, let i := Instr.fadd c sub t ops
      let v := fun l => numAt ((x.args i l).map fun v => fpIn t x.p.mode v.num)
      ∃ e : Nat → Machine.Num × BitVec 6, (∀ l, ExactSum (modeRM x.p.mode) (v l 0) (if sub then (v l 1).opp else v l 1) (e l)) ∧
        let w := fun l => (fmtOf t).convert (x.rounding l) (e l).1
        let raised := fun l => (e l).2 ||| (w l).2 ||| x.poison i l
        let hits := (x.active c).filter fun l => raised l &&& en != 0
        (¬ poisons i → hits ≠ [] → raises i 4 hits (hits.foldl (fun f l => f ||| raised l) 0)) ∧
        (¬ poisons i → hits = [] →
          ∃ u, exec i s = .next u ∧ x.Acts i (fun l => [ofTy t (w l).1]) (fun l => (e l).2 ||| (w l).2) u))

/-- TRET and TRET.SKIP (R377, R406) of the last lanes in a handler: the frozen path state returns, with the handler's copy of
the mode word for the trapping path. After TRET the lanes are at the trapping instruction; those of a JOIN_TIMEOUT still wait at
the landing, whose timer has started from zero (R194). After TRET.SKIP they are at the next head word, with its results from the
operands and poison where there is no operand. A lane that has exited in the handler has ended. -/
def Obligations.TretResumesTheGroup : Prop :=
  ∀ (s : State) (x : Exe) (c : Ctl) (ops : List Opnd) (h : Handler) (tr : Machine.Trans), s.exe? = some x → x.calm → x.g.handler = some h →
    x.g.ctx.meets = [] → x.g.ctx.barm = [] → h.frozen.meets = [] → h.frozen.barm = [] → x.team.latches = [] →
    h.lanes &&& ~~~x.g.exited &&& ~~~x.p.mask = 0 → h.trets = 0 → h.skips = 0 → x.p.mask &&& ~~~(h.lanes &&& ~~~x.g.exited) = 0 →
    tr = x.s.translation ((x.g.lane ((lanesOf h.lanes).headD 0)).frames.getD 1 ⟨0, 0, 0, [], []⟩).tr →
    tr = x.s.translation ((x.g.lane x.first).frames.getD 1 ⟨0, 0, 0, [], []⟩).tr →
    let left := fun (mode : BitVec 64) =>
      ({ h.frozen with
        paths := mupd h.frozen.paths h.path fun p => { p with mode := mode }
        stack := h.frozen.stack.map fun e => if e.lanes &&& h.lanes ≠ 0 then { e with mode := mode } else e } : Ctx).without
          (h.lanes &&& x.g.exited)
    let back := fun (c : Ctx) =>
      { x.g with ctx := x.s.follows { x.g with ctx := c, handler := none }, handler := none, fresh := x.g.fresh + 1 }
    let stays := fun (g : Group) => ∀ q ∈ x.launch.gangs, q.2.state = .placed → (x.put g).gangOver q.2.teams = false
    let resumes := fun (i : Instr) (g : Group) (res : Nat → Lane → Lane) => ∃ t u, exec i s = .next t ∧ u.Sampled t ∧ x.Counted 1 u ∧
      ({ u.group x.gid with lanes := g.lanes } : Group) = g ∧
      (∀ l, (u.group x.gid).lane l =
        if l ∈ lanesOf h.lanes then res l { x.g.lane l with frames := (x.g.lane l).frames.tail } else x.g.lane l) ∧
      x.Keeps (fun _ => False) (u.setGroup x.gid x.g)
    (let g := back (left x.p.mode)
     h.code ≠ 6 → stays g → resumes (.tret c ops) g fun _ y => y) ∧
    (∀ r, let waiting := h.frozen.without (h.lanes &&& x.g.exited)
      let r' : LandRec := { r with
        away := false, timer := true, modes := (h.lanes, x.p.mode) :: r.modes.filter fun m => m.1 &&& h.lanes == 0
        waits := if r.arrived &&& h.lanes = 0 then [] else r.waits }
      let g := back { waiting with recs := waiting.recs.map fun q => if q.uid = r.uid then r' else q }
      h.code = 6 → waiting.recs.find? (·.away) = some r → stays g → resumes (.tret c ops) g fun _ y => y) ∧
    (∀ f p, let i := Instr.tretSkip c ops
      let results := tr.resultsAt h.pc
      let dead := h.code = 1 ∨ h.code = 2
      let vs := fun l => if dead then [] else x.args i l
      (dead ∨ ∀ (k : Nat) (q : Ty × Opnd), (x.plan i).own[k]? = some q → results.2[k]? = some q.1) →
      ((∃ l ∈ x.active c, x.poison i l = flagPO) → f = flagPO) → ((∀ l ∈ x.active c, x.poison i l = 0) → f = 0) →
      tr.behind h.pc ≠ tr.endAt → h.code ≠ 6 → (∀ l ∈ x.lanes, (x.g.lane l).frames.length ≥ 2) →
      mget (left (x.flagged f)).paths h.path = some p → p.mask &&& ~~~x.p.mask = 0 → x.p.mask ≠ 0 →
      let on := Path.start (tr.behind h.pc) p.mask p.mode p.pend (some (h.pc, 0)) p.place
      let g := back { left (x.flagged f) with paths := mset (left (x.flagged f)).paths h.path on }
      stays g → resumes i g fun l y => if l ∈ x.lanes then
        (y.defineAll results.1 (vs l)).poisonAll (results.1 + (vs l).length) (results.2.length - (vs l).length) else y)

/-! Memory. -/

/-- LDS, STS and ATOMS (R22, R326, R329, R331, R333): every active lane reads or writes the bytes of its range in the team's own
or a gang member's allocation; loads and atomics give what was there. A range outside of the allocations raises TENSOR_BOUNDS,
an address that must be aligned and is not MISALIGNED. LD, ST, ATOM and CACHE.ZERO (R326, R329 to R331, R333, R349) where every
access can be made (R40): the same on enclave memory. The bytes outside of the pieces keep their values. An address that must be
aligned and is not raises MISALIGNED. -/
def Obligations.MemoryAccesses : Prop :=
  (∀ (s : State) (x : Exe) (c : Ctl) (f : MemForm) (o : AtomOrder) (t : AtomTy) (scope : Scope) (ops : List Opnd)
     (spot : Nat → Nat × Nat), s.exe? = some x → x.calm → x.p.got = [] →
     let ld := Instr.lds c f ops
     let st := Instr.sts c f ops
     let at_ := Instr.atoms c o t scope ops
     let form : Nat × Bool × Bool := match f with
       | .plain t => (bytesOf t, false, false)
       | .rlx t _ | .sync t _ => (bytesOf t, true, false)
       | .v2 => (16, true, false)
       | .n4 | .n2 => (1, false, true)
     ∀ q ∈ [(ld, form.1, form.2.1, 0), (st, form.1, form.2.1, 0), (at_, bytesOf t.ty, true, 1)],
       let i := q.1
       let n := q.2.1
       let addr := fun l => numOf (x.args i l) q.2.2.2
       let bad := (x.active c).filter fun l => (x.s.spadAt x.g.team (addr l) n).isNone
       let odd := (x.active c).filter fun l => q.2.2.1 && addr l % n != 0
       let raises := fun (code : Nat) (lanes : List Nat) => exec i s = .next (x.s.raiseTrap x.gid x.pid x.p
         { code := code, lanes := maskOf lanes, flags := 0, opnds := x.lanes.map fun l => (l, x.shownOps i l) })
       (bad ≠ [] → raises 9 bad) ∧
       (bad = [] → odd ≠ [] → raises 0x0B odd) ∧
       (bad = [] → odd = [] → (∀ l ∈ x.active c, x.s.spadAt x.g.team (addr l) n = some (spot l)) →
         let rd := fun (u : State) l => u.spadRead (spot l).1 (spot l).2 n
         let wr := fun (u : State) l bs => u.spadWrite (spot l).1 (spot l).2 bs
         let v := fun l k => numOf (x.args i l) k
         (i = ld → x.YieldsAccesses s i rd wr none false (loadedFrom f)) ∧
         (i = st → x.YieldsAccesses s i rd wr (some fun l => memStored f (x.args i l)) form.2.2 fun _ => []) ∧
         (i = at_ → x.YieldsAccesses s i rd wr
           (some fun l bs => leBytes n (atomNew (v l 0) t x.p.mode (leNat bs) (v l 2) (v l 3))) false fun bs => [ofTy t.ty (leNat bs)]))) ∧
  (∀ (s : State) (x : Exe) (c : Ctl) (f : MemForm) (o : AtomOrder) (t : AtomTy) (scope : Scope) (ops : List Opnd)
     (ps : Nat → List (Nat × Nat × Nat)), s.exe? = some x → x.calm → x.p.got = [] →
     let ld := Instr.ld c f ops
     let st := Instr.st c f ops
     let at_ := Instr.atom c o t scope ops
     let zero := Instr.cacheZero c ops
     let form : Nat × Bool × Bool := match f with
       | .plain t => (bytesOf t, false, false)
       | .rlx t _ | .sync t _ => (bytesOf t, true, false)
       | .v2 => (16, true, false)
       | .n4 | .n2 => (1, false, true)
     let n := bytesOf t.ty
     let rd := fun (u : State) l => u.readPieces (ps l)
     let wr := fun (u : State) l bs => u.writePieces (ps l) bs
     let addr := fun i k l => (argOf (x.args i l) k).toBits
     let odd := fun i k n => (x.active c).filter fun l => (addr i k l).toNat % n != 0
     let raises := fun (i : Instr) (lanes : List Nat) => exec i s = .next (x.s.raiseTrap x.gid x.pid x.p
       { code := 0x0B, lanes := maskOf lanes, flags := 0, opnds := x.lanes.map fun l => (l, x.shownOps i l) })
     (form.2.1 = true → odd ld 0 form.1 ≠ [] → raises ld (odd ld 0 form.1)) ∧
     (form.2.1 = true → odd st 0 form.1 ≠ [] → raises st (odd st 0 form.1)) ∧
     (odd at_ 1 n ≠ [] → raises at_ (odd at_ 1 n)) ∧
     ((form.2.1 = true → odd ld 0 form.1 = []) → x.Located ld .load form.1 (addr ld 0) ps →
       x.YieldsAccesses s ld rd wr none false (loadedFrom f)) ∧
     (let new := some fun l => memStored f (x.args st l)
      (form.2.1 = true → odd st 0 form.1 = []) → x.Located st .store form.1 (addr st 0) ps →
       x.YieldsAccesses s st rd wr new form.2.2 fun _ => []) ∧
     (let v := fun l k => numOf (x.args at_ l) k
      let new := some fun l bs => leBytes n (atomNew (v l 0) t x.p.mode (leNat bs) (v l 2) (v l 3))
      odd at_ 1 n = [] → x.Located at_ .atomic n (addr at_ 1) ps →
       x.YieldsAccesses s at_ rd wr new false fun bs => [ofTy t.ty (leNat bs)]) ∧
     (let line := fun l => addr zero 0 l - BitVec.ofNat 64 ((addr zero 0 l).toNat % 64)
      let new := some fun (_ : Nat) (_ : List Byte) => List.replicate 64 (0 : Byte)
      x.Located zero .store 64 line ps → x.YieldsAccesses s zero rd wr new false fun _ => []) ∧
     (∀ new ls a, (∀ l p, p ∈ ps l → ¬ (p.1 ≤ a ∧ a < p.1 + p.2.2)) → Memory.wf x.s.mem = true →
       readByte (x.performed rd wr new ls).mem a = readByte x.s.mem a))

/-- What stores and atomics make of the bytes that were there (R331, R334, R335): an element within its byte, and each operation
of ATOM on bit vectors; the floating ones as FADD, FMINNUM and FMAXNUM element by element, where STO acts as RNE. A load, store
or atomic that does not translate (R45 to R48): the lowest active lane's access waits on a fault record, which it forms or
joins, unless the fault is fatal, which ends the launch; a frame in MOVING and a damaged line are waited for. -/
def Obligations.StoredElementsAndFaults : Prop :=
  ((∀ (f : MemForm) (vs : List Val) (w k : Nat) (b : Byte), (f = .n4 ∧ w = 4 ∧ k < 2) ∨ (f = .n2 ∧ w = 2 ∧ k < 4) → numOf vs 2 = k →
     ∃ b' : Byte, memStored f vs [b] = [b'] ∧
       ∀ j, j < 8 → b'.getLsbD j = if j / w = k then (numOf vs 1).testBit (j % w) else b.getLsbD j) ∧
   (∀ (t : AtomTy) (m : BitVec 64) (w : Nat) (a v v2 : BitVec w), w = t.ty.width →
     let op := fun k => BitVec.ofNat w (atomNew k t m a.toNat v.toNat v2.toNat)
     op 0 = a + v ∧ op 1 = a &&& v ∧ op 2 = a ||| v ∧ op 3 = a ^^^ v ∧ op 4 = minMaxOf .smin a v ∧ op 5 = minMaxOf .smax a v ∧
     op 6 = minMaxOf .umin a v ∧ op 7 = minMaxOf .umax a v ∧ op 8 = v ∧ op 9 = (if a = v then v2 else a) ∧
     (op 13 = if v ≤ a then 0 else a + 1) ∧ (op 14 = if a = 0 ∨ v < a then v else a - 1)) ∧
   (∀ t ∈ [(AtomTy.f32, Ty.f32, 1), (.f64, .f64, 1), (.bf16x2, .bf16, 2), (.f16x2, .f16, 2)], ∀ (m : BitVec 64) (a v : Nat),
     let ty := t.2.1
     let el := fun n j => n / 2 ^ (ty.width * j) % 2 ^ ty.width
     let rm := if modeRM m = 5 then 0 else modeRM m
     modeRM m < 6 → ∀ j, j < t.2.2 →
       (∃ e, ExactSum rm (fpIn ty m (el a j)) (fpIn ty m (el v j)) e ∧
         el (atomNew 10 t.1 m a v 0) j = ((fmtOf ty).convert { roundingOf m 0 with rm := rm } e.1).1 % 2 ^ ty.width) ∧
       el (atomNew 11 t.1 m a v 0) j = fminmaxWord .minnum ty m (el a j) (el v j) % 2 ^ ty.width ∧
       el (atomNew 12 t.1 m a v 0) j = fminmaxWord .maxnum ty m (el a j) (el v j) % 2 ^ ty.width)) ∧
  (∀ (s : State) (x : Exe) (c : Ctl) (f : MemForm) (o : AtomOrder) (t : AtomTy) (scope : Scope) (ops : List Opnd) (l : Nat)
     (va : BitVec 64), s.exe? = some x → x.calm → x.p.got = [] → x.active c = [l] →
     let form : Nat × Bool := match f with
       | .plain t => (bytesOf t, false)
       | .rlx t _ | .sync t _ => (bytesOf t, true)
       | .v2 => (16, true)
       | .n4 | .n2 => (1, false)
     ∀ q ∈ [(Instr.ld c f ops, form.1, form.2, 0, AccessKind.load), (.st c f ops, form.1, form.2, 0, .store),
         (.atom c o t scope ops, bytesOf t.ty, true, 1, .atomic)],
       let i := q.1
       let stops := x.s.locate (some x.unit) x.eid (argOf (x.args i l) q.2.2.2.1).toBits q.2.2.2.2 q.2.1
       let waits := { x.p with done := 0, got := [] }
       (q.2.2.1 = true → numOf (x.args i l) q.2.2.2.1 % q.2.1 = 0) →
       (∀ k, stops = .error ⟨va, .fault k⟩ →
         let u := x.s.faultAccess x.team.launch x.team.core x.g.slot q.2.2.2.2 (.path x.gid x.pid) va k
         exec i s = .next (if k.kind.fatal then u else u.setGroup x.gid (x.having waits))) ∧
       (∀ pa n, stops = .error ⟨va, .search pa n⟩ → exec i s = .next ((x.s.startSearch pa n).setGroup x.gid (x.having waits))) ∧
       (stops = .error ⟨va, .moving⟩ → (x.gid, x.pid) ∉ x.s.moving →
         exec i s = .next (({ x.s with moving := x.s.moving ++ [(x.gid, x.pid)] } : State).setGroup x.gid (x.having waits))))

/-! Synchronisation within a team. -/

/-- BAR.EXPECT, BAR.INIT, BAR.STATE and BAR.WAIT (R145 to R147, R149, R338): a name of NBAR or above raises HANDLE_INVALID;
Expect adds to the pending bytes and completes the phase when nothing is missing; Init sets EXPECT of an idle barrier; a wait on
the parity of the current phase lasts until the phase has changed, and the path that departs takes the flags of the operations
whose bytes the phase counted, and those of the phase before where some of its lanes waited for that one. -/
def Obligations.BarrierOperations : Prop :=
  ∀ (s : State) (x : Exe) (c : Ctl) (ops : List Opnd), s.exe? = some x → x.calm →
    let b := fun i => numOf (x.onceVals i) 0
    let n := fun i => numOf (x.onceVals i) 1
    let bar := fun i => x.team.bar (b i)
    let observed := fun i phase => ((mget (bar i).observed phase).getD []).foldl (fun f op => f ||| ((mget x.s.ops op).map EngOp.flags).getD 0) 0
    let having := fun i (v : Bar) =>
      { x with s := x.s.setTeam x.g.team { x.team with bars := mset x.team.bars (b i) v } }
    let goes := fun i (y : Exe) (vs : List Val) (f : BitVec 6) =>
      ∃ t, exec i s = .next t ∧ y.Completes i (x.flagged f) (x.only i fun _ => vs) t
    let poison := fun i => flagIf (x.oncePoison i) flagPO
    let traps := fun i code => exec i s = .next (x.trapAll i code)
    (∀ i ∈ [Instr.barExpect c ops, .barInit c ops], x.launch.nbar ≤ b i → traps i trapHandle) ∧
    (let i := Instr.barExpect c ops
     let v := { bar i with pend := (bar i).pend + n i }
     b i < x.launch.nbar → (0x7FFFFFFF < v.pend → traps i 0x0A) ∧ (v.pend ≤ 0x7FFFFFFF →
       (v.arrived = v.expect ∧ v.pend = 0 →
         goes i (having i { v with phases := v.phases + 1, arrived := 0, marks := [], counted := [],
                                   observed := mset v.observed v.phases v.counted }) [] (poison i)) ∧
       (¬ (v.arrived = v.expect ∧ v.pend = 0) → goes i (having i v) [] (poison i)))) ∧
    (let i := Instr.barInit c ops
     b i < x.launch.nbar → (n i = 0 ∨ 48 < n i → traps i trapHandle) ∧ (1 ≤ n i → n i ≤ 48 →
       ((bar i).arrived = 0 ∧ (bar i).pend = 0 ∧ (bar i).out = 0 → goes i (having i { bar i with expect := n i }) [] (poison i)) ∧
       (¬ ((bar i).arrived = 0 ∧ (bar i).pend = 0 ∧ (bar i).out = 0) → traps i 0x0A))) ∧
    (let i := Instr.barState c ops
     x.nameless i 0 = false → (x.launch.nbar ≤ b i → traps i trapHandle) ∧ (b i < x.launch.nbar → (bar i).expect < 64 → (bar i).arrived < 64 →
       ∃ w : BitVec 64, goes i x [.bits w] (poison i) ∧ w.extractLsb' 32 32 = BitVec.ofInt 32 (bar i).pend ∧ w.extractLsb' 26 6 = 0 ∧
         (w.extractLsb' 20 6).toNat = (bar i).arrived ∧ w.extractLsb' 17 3 = 0 ∧ (w.getLsbD 16 = true ↔ (bar i).phases % 2 = 1) ∧
         w.extractLsb' 6 10 = 0 ∧ (w.extractLsb' 0 6).toNat = (bar i).expect)) ∧
    (let i := Instr.barWait c ops
     let stays := ∃ l ∈ x.active c, ((argOf (x.args i l) 1).isTrue = true ↔ (bar i).phases % 2 = 1)
     let fresh := ∀ m k, x.p.stage ≠ .waiting m k
     (fresh → x.launch.nbar ≤ b i → traps i trapHandle) ∧
     (fresh → b i < x.launch.nbar → stays →
       exec i s = .next (x.put (x.having { x.p with stage := .waiting (.bar (b i)) (bar i).phases }))) ∧
     (∀ k, (fresh ∧ b i < x.launch.nbar ∧ ¬ stays ∧ k = (bar i).phases - 1) ∨ (∃ m, x.p.stage = .waiting m k ∧ (bar i).phases ≠ k) →
       let early := (x.active c).any fun l => (argOf (x.args i l) 1).isTrue != (k % 2 == 1)
       ∃ f, ((∀ l ∈ x.active c, x.poison i l = 0) → f = 0) ∧
         goes i x [] (f ||| observed i k ||| if early then observed i (k - 1) else 0)) ∧
     (∀ m, x.p.stage = .waiting m (bar i).phases → exec i s = .next x.s))

/-- Arrivals of a group (R147, R148, R152, R154, R338, R339): BAR.SYNC, BAR.ARRIVE and FLIGHT wait until every live lane of the
group has executed them; the arrival of the last lanes then counts once. A phase that is not complete holds BAR.SYNC, and FLIGHT
waits for its release. BARM waits until every lane that its mask names has executed it with that mask. A path that waited goes
on (R147, R149, R152, R154): BAR.SYNC and BAR.ARRIVE once the phase that they arrived in is over or their arrival has counted,
FLIGHT and BARM once they are released. -/
def Obligations.BarrierArrivalsAndReleases : Prop :=
  (∀ (s : State) (x : Exe) (c : Ctl) (ops : List Opnd), s.exe? = some x → x.calm →
     let n := fun i => numOf (x.onceVals i) 0
     let sync := Instr.barSync c ops
     let arrive := Instr.barArrive c ops
     let flight := Instr.flight c ops
     let barm := Instr.barm c ops
     let goes := fun i (y : Exe) (vs : List Val) (f : BitVec 6) =>
       ∃ t, exec i s = .next t ∧ y.Completes i (x.flagged f) (x.only i fun _ => vs) t
     let poison := fun i => flagIf (x.oncePoison i) flagPO
     let stops := fun i u (stage : Stage) (meets : List (Meet × LaneMask)) (barm : List (Nat × BitVec 64)) =>
       let ctx : Ctx := { (x.having { x.p with stage := stage }).ctx with meets := meets, barm := barm }
       exec i s = .next (State.setGroup u x.gid { x.g with ctx := ctx })
     let left := x.g.live &&& ~~~x.p.mask
     x.p.stage = .none → (∀ m, mget x.g.ctx.meets m = none ∧ ∀ q ∈ x.g.ctx.paths, q.2.stage ≠ .arriving m) →
     x.p.mask ≠ 0 →
     (∀ i ∈ [sync, arrive],
       (x.launch.nbar ≤ n i → exec i s = .next (x.trapAll i trapHandle)) ∧
       (n i < x.launch.nbar → left ≠ 0 → stops i x.s (.arriving (.bar (n i))) (mset x.g.ctx.meets (.bar (n i)) x.p.mask) x.g.ctx.barm) ∧
       (n i < x.launch.nbar → left = 0 → (x.team.bar (n i)).arrived ≠ (x.team.bar (n i)).expect →
         let b := x.team.bar (n i)
         let v := { b with arrived := b.arrived + 1, marks := if b.marks.contains x.g.index then b.marks else b.marks ++ [x.g.index] }
         let full := v.arrived = v.expect ∧ v.pend = 0
         let v' := { v with phases := v.phases + 1, arrived := 0, marks := [], counted := [], observed := mset v.observed v.phases v.counted }
         let having := fun v => x.s.setTeam x.g.team { x.team with bars := mset x.team.bars (n i) v }
         let past := (b.counted).foldl (fun f op => f ||| ((mget x.s.ops op).map EngOp.flags).getD 0) 0
         (i = arrive → ∀ w, (full ∧ w = v') ∨ (¬ full ∧ w = v) → goes i { x with s := having w } [.ofBool (b.phases % 2 == 1)] (poison i)) ∧
         (i = sync → full → goes i { x with s := having v' } [] (poison i ||| past)) ∧
         (i = sync → ¬ full → stops i (having v) (.waiting (.bar (n i)) b.phases) x.g.ctx.meets x.g.ctx.barm))) ∧
     (let die := dieOf x.hall
      (x.launch.nflight ≤ n flight → exec flight s = .next (x.trapAll flight trapHandle)) ∧
      (n flight < x.launch.nflight → left ≠ 0 →
        stops flight x.s (.arriving (.flight (n flight))) (mset x.g.ctx.meets (.flight (n flight)) x.p.mask) x.g.ctx.barm) ∧
      (n flight < x.launch.nflight → left = 0 → (x.launch.flight die (n flight)).length < (x.s.flightParty x.team.launch die).length →
        stops flight (x.s.setLaunch x.team.launch { x.launch with
            flights := mset x.launch.flights (die, n flight) (x.launch.flight die (n flight) ++ [x.gid]) })
          (.waiting (.flight (n flight)) 0) x.g.ctx.meets x.g.ctx.barm)) ∧
     (∀ m : BitVec 64, x.g.ctx.barm = [] → (∀ q ∈ x.g.ctx.paths, q.2.stage ≠ .masked) →
       (∀ l ∈ x.lanes, (argOf (x.args barm l) 0).toBits = m) → x.p.mask &&& ~~~m = 0 → m &&& ~~~x.g.live = 0 →
       let u := x.s.bump x.eid 16 x.team.core 1
       ∃ f, ((∀ l ∈ x.lanes, x.poison barm l = 0) → f = 0) ∧
         (m = x.p.mask → goes barm { x with s := u } [] f) ∧
         (m ≠ x.p.mask → stops barm u .masked x.g.ctx.meets (x.lanes.map fun l => (l, m))))) ∧
  (∀ (s : State) (x : Exe) (c : Ctl) (ops : List Opnd), s.exe? = some x →
     let goes := fun i (vs : List Val) (f : BitVec 6) =>
       ∃ t, exec i s = .next t ∧ x.Completes i (x.flagged f) (x.only i fun _ => vs) t
     let poison := fun i => flagIf (x.oncePoison i) flagPO
     (∀ b n, x.p.stage = .waiting (.bar b) n →
       let past := ((mget (x.team.bar b).observed n).getD []).foldl (fun f op => f ||| ((mget x.s.ops op).map EngOp.flags).getD 0) 0
       let sync := Instr.barSync c ops
       let arrive := Instr.barArrive c ops
       ((x.team.bar b).phases ≠ n → goes sync [] (poison sync ||| past)) ∧ ((x.team.bar b).phases = n → exec sync s = .next x.s) ∧
       goes arrive [.ofBool (n % 2 == 1)] (poison arrive)) ∧
     (x.p.stage = .released → goes (.flight c ops) [] (poison (.flight c ops)) ∧
       ∃ f, ((∀ l ∈ x.lanes, x.poison (.barm c ops) l = 0) → f = 0) ∧ goes (.barm c ops) [] f))

/-! Engine operations. -/

/-- COPY, GATHER and SCATTER (R127, R128, R132, R149, R341 to R344): the checks at issue, in order: the barrier's name, HANDLE_INVALID,
TENSOR_BOUNDS, and room in the barrier's count; then the operation that the engine takes, and its future in every active lane. -/
def Obligations.CopiesAndGathersIssue : Prop :=
  ∀ (s : State) (x : Exe) (c : Ctl) (bar : Bool) (scope : Scope) (ops : List Opnd), s.exe? = some x → x.calm → x.active c ≠ [] →
    x.p.place = .core →
    let v := fun i k => numOf (x.onceVals i) k
    let at_ := fun i k => (argOf (x.onceVals i) k).toBits
    let inside := fun a n => (x.s.spadAt x.g.team a n).isSome
    let name := fun i place => if bar then some (v i place) else none
    let issues := fun (i : Instr) (place : Nat) (bad outside : Bool) (o : EngOp) =>
      let room := match name i place with
        | none => true
        | some b => !(x.team.bar b).tooMany o.bytes
      let named := match name i place with
        | none => true
        | some b => decide (b < x.launch.nbar)
      (named = false → x.Raises s i trapHandle x.lanes) ∧
      (named = true → bad = true → x.Raises s i trapHandle (x.active c)) ∧
      (named = true → bad = false → outside = true → x.Raises s i 9 (x.active c)) ∧
      (named = true → bad = false → outside = false → room = false → x.Raises s i 0x0A (x.active c)) ∧
      (named = true → bad = false → outside = false → room = true → x.Issues s i x o id fun fut => [.bits fut])
    (∀ q ∈ [(CopyKind.g2s, true, false), (.s2g, false, true), (.g2g, false, false), (.s2s, true, true)],
      let i := Instr.copy c q.1 bar scope ops
      let n := v i 2
      let outside := decide (n ≠ 0) && ((q.2.1 && !inside (v i 0) n) || (q.2.2 && !inside (v i 1) n))
      let eff := max (max scope.code (x.minScope q.2.1 (pagesOf (at_ i 0) n))) (x.minScope q.2.2 (pagesOf (at_ i 1) n))
      let whole := if v i 0 % 64 = v i 1 % 64 then [] else wholeIn q.2.2 (v i 1) n
      let st := if n = 0 then futOK else if x.windowDown q.2.1 (at_ i 0) || x.windowDown q.2.2 (at_ i 1) then futLinkKey else futPending
      issues i 3 false outside { x.newOp i 0 (x.onceVals i) eff (name i 3) (granules (v i 0) n) n with
        status := st, whole := whole }) ∧
    (∀ k ∈ [CopyKind.tsrc, .tdst],
      let i := Instr.copy c k bar scope ops
      let os := originsOf ((x.onceVals i).drop (if bar then 3 else 2))
      match (argOf (x.onceVals i) 0).desc false, (argOf (x.onceVals i) 1).desc false with
      | some d, some src =>
          let w : Walk2 := if k = .tsrc then { d := d, dos := [], s := src, sos := os } else { d := d, dos := os, s := src, sos := [] }
          let bad := (os.drop (tmNdim (if k = .tsrc then src else d))).any (· != 0) || tmCount d != tmCount src ||
            (tmFmt d == 24) != (tmFmt src == 24)
          let outside := !x.s.tmInside x.g.team d || !x.s.tmInside x.g.team src
          let eff := max (max scope.code (x.minScope (tmSpad d) (tmPages d w.dos))) (x.minScope (tmSpad src) (tmPages src w.sos))
          let st := if x.windowDown (tmSpad d) (tmAddr d 0) || x.windowDown (tmSpad src) (tmAddr src 0) then futLinkKey else futPending
          issues i 2 bad outside { x.newOp i 0 (x.onceVals i) eff (name i 2) w.units.length (w.units.map w.unitBytes).sum with
            status := st, clipped := w.clips, whole := w.whole }
      | _, _ => (bar = true → v i 2 < x.launch.nbar) → x.Raises s i trapHandle (x.active c)) ∧
    (∀ q ∈ [(Instr.gather c bar scope ops, 1, 0), (.scatter c bar scope ops, 0, 1)],
      let i := q.1
      let far := at_ i q.2.1
      let cnt := v i 3
      let rb := ((x.onceVals i).getD 4 (.bits 0)).toBits.setWidth 32
      let bad := decide (65535 < cnt) || decide (rb.toInt < 1) || decide (4096 < rb.toInt)
      let outside := decide (cnt ≠ 0) && (!inside (v i 2) (4 * cnt) || !inside (v i q.2.2) (cnt * v i 4))
      let rows := x.s.indices x.g.team (v i 2) cnt
      let pages := rows.flatMap fun j => pagesOf (far + BitVec.ofInt 64 (j * v i 4)) (v i 4)
      let eff := max (max scope.code 2) (x.minScope false pages.eraseDups)
      let steps := if q.2.2 = 1 then min cnt 1 else granules (v i q.2.2) (cnt * v i 4)
      issues i 5 bad outside { x.newOp i 1 (x.onceVals i) eff (name i 5) steps (cnt * v i 4) with
        status := if x.windowDown false far then futLinkKey else futPending })

/-- FUT and YIELD (R131 to R136, R138, R346, R347): a future of another launch, team or class raises HANDLE_INVALID in every
lane of the path; a future whose slot has been used again is EXPIRED; TEST and STATUS read each lane's own, WAIT waits for all
of them, CANCEL asks each operation once to stop, ALL issues a combined operation. Observed operations give the path their flags
(R236). YIELD parks the path until all have completed. -/
def Obligations.FuturesReport : Prop :=
  ∀ (s : State) (x : Exe) (c : Ctl) (ops : List Opnd), s.exe? = some x → x.calm →
    let word := fun i l => (argOf (x.args i l) 0).toBits
    let st := fun i l => x.s.futState x.g.team (word i l)
    let views := fun i => (x.active c).map fun l => (l, st i l)
    let pending := fun i => ∃ l ∈ x.active c, (st i l).1 = futPending
    let wrong := fun i => (x.active c).filter fun l => !x.s.futValid x.g.team (word i l)
    let watched := fun i => x.s.watch x.gid x.p.mask ((views i).filterMap fun v => if v.2.1 = futPending then none else v.2.2)
    let flags := fun i => x.raised i (fun _ => 0) ||| x.s.observed (views i)
    let goes := fun i (u : State) (f : BitVec 6) (out : Nat → List Val) =>
      ∃ t, exec i s = .next t ∧ Exe.Completes { x with s := u } i (x.flagged f) (x.only i out) t
    let test := Instr.futTest c ops
    let wait := Instr.futWait c ops
    let status := Instr.futStatus c ops
    let cancel := Instr.futCancel c ops
    let all := Instr.futAll c ops
    let yield := Instr.yield c ops
    (∀ i ∈ [test, wait, status, cancel, yield], wrong i ≠ [] → x.Raises s i trapHandle x.lanes) ∧
    (wrong test = [] → goes test (watched test) (flags test) fun l => [.ofBool ((st test l).1 != futPending)]) ∧
    (wrong status = [] → goes status (watched status) (flags status) fun l => [ofTy .i32 (st status l).1.toNat]) ∧
    (wrong wait = [] → (pending wait → exec wait s = .next x.s) ∧ (¬ pending wait → goes wait (watched wait) (flags wait) fun _ => [])) ∧
    (let ks := firsts ((views cancel).filterMap fun v => if v.2.1 = futPending then v.2.2 else none)
     wrong cancel = [] → goes cancel (ks.foldl State.cancelOp x.s) (x.raised cancel fun _ => 0) fun _ => []) ∧
    (let ws := (x.onceVals all).map Val.toBits
     let parts := ws.map fun w => x.s.futState x.g.team w
     let scope := (parts.map fun v => ((v.2.bind (mget x.s.ops)).map EngOp.scope).getD 2).foldl max 0
     x.active c ≠ [] →
      ((∃ w ∈ ws, x.s.futValid x.g.team w = false) → x.Raises s all trapHandle x.lanes) ∧
      ((∀ w ∈ ws, x.s.futValid x.g.team w = true) →
        x.Issues s all x { x.newOp all 5 (x.onceVals all) scope none 0 0 with members := parts.map fun v => (v.2.getD 0, v.1.toNat, []) }
          (fun u => u.combineAll u.ops.length) fun fut => [.bits fut])) ∧
    (∀ d, targetsOf ops = [d] → c.ndef.toNat = 0 → wrong yield = [] →
      let to_ := x.p.pc + d.signExtend 48 * 4
      (¬ pending yield → ∃ t, exec yield s = .next t ∧ Exe.Becomes { x with s := watched yield } yield
        (x.having { x.moved to_ (x.p.pc, 1) (x.flagged (flags yield)) with yield := none }) t) ∧
      (pending yield → x.g.handler ≠ none → exec yield s = .next x.s) ∧
      (pending yield → x.g.handler = none → exec yield s = .next (x.put (x.having { x.p with yield := some to_ })))) ∧
    (∀ (g p : Nat) (y : Exe) (i : Instr) (d : BitVec 28), s.exeOf g p = some y → y.p.yield ≠ none → (y.tr.fetch y.p.pc).1 = .ok i →
      targetsOf i.ops = [d] → i.ctl.ndef.toNat = 0 →
      let z := { y with s := s }
      let fs : FutViews := z.lanes.map fun l => (l, s.futState z.g.team (argOf (z.args i l) 0).toBits)
      ((∃ v ∈ fs, v.2.1 = futPending) → exec (.yieldResume g p) s = .next s) ∧
      ((∀ v ∈ fs, v.2.1 ≠ futPending) → ∃ (f : BitVec 6) (t : State), exec (.yieldResume g p) s = .next t ∧
        ((∃ l ∈ z.lanes, z.poison i l = flagPO) → f = flagPO) ∧ ((∀ l ∈ z.lanes, z.poison i l = 0) → f = 0) ∧
        Exe.Becomes { z with s := s.watch z.gid z.p.mask (fs.filterMap fun v => v.2.2) } i
          (z.having { z.moved (z.p.pc + d.signExtend 48 * 4) (z.p.pc, 1) (z.flagged (f ||| s.observed fs)) with yield := none }) t)) ∧
    (∀ (t : Nat) (w : BitVec 64),
      let slot := (x.s.team t).slot (w.extractLsb' 0 9).toNat
      x.s.futState t w = (if slot.gen % 2 ^ 19 = (w.extractLsb' 9 19).toNat then (slot.status, some slot.op)
        else (futExpired, x.s.opNamed t (w.extractLsb' 0 9).toNat (w.extractLsb' 9 19).toNat)) ∧
      (x.s.futValid t w = true ↔ (w.extractLsb' 56 8).toNat = (x.s.launch (x.s.team t).launch).seq.toNat % 2 ^ 8 ∧
        (w.extractLsb' 32 24).toNat = (x.s.team t).index % 2 ^ 24 ∧ (w.extractLsb' 28 4).toNat < 7)) ∧
    (∀ seq team cls gen slot, let w := futWord seq team cls gen slot
      w.extractLsb' 56 8 = BitVec.ofNat 8 seq ∧ w.extractLsb' 32 24 = BitVec.ofNat 24 team ∧ w.extractLsb' 28 4 = BitVec.ofNat 4 cls ∧
      w.extractLsb' 9 19 = BitVec.ofNat 19 gen ∧ w.extractLsb' 0 9 = BitVec.ofNat 9 slot)

/-! The matrix engine. -/

/-- TMAP, FMTB, COHORT, ACC.ZERO and UNFOLD (R345, R357 to R359, R361, R369): the value that each defines in every active lane,
or its trap: a descriptor or block that fails its checks raises HANDLE_INVALID, a scratchpad range that no allocation contains
TENSOR_BOUNDS, and a misaligned one ACCESS_MISALIGNED. A tile is taken from those that no value holds; with none the path waits,
and when its own team holds all of them, it traps. -/
def Obligations.MatrixValues : Prop :=
  ∀ (s : State) (x : Exe) (c : Ctl) (ops : List Opnd), s.exe? = some x → x.calm → x.p.place = .core → x.active c ≠ [] →
    let v := fun i k => argOf (x.onceVals i) k
    let goes := fun i (y : Exe) (vs : List Val) =>
      ∃ t, exec i s = .next t ∧ y.Completes i (x.flagged (flagIf (x.oncePoison i) flagPO)) (x.only i fun _ => vs) t
    let raises := fun i code => x.Raises s i code (x.active c)
    let block := fun i b => (fbOk b = true → goes i x [.fmtb b]) ∧ (fbOk b = false → raises i trapHandle)
    let entry := x.fmtEntry (joinId ops)
    let sets := fun i (w : BitVec 32) (mode : BitVec 64) =>
      ∃ t, exec i s = .next t ∧ Exe.Completes { x with g := { x.g with cohort := w } } i mode (fun _ => none) t
    block (.fmtb c ops) entry ∧
    (let i := Instr.fmtbSc c ops
     entry.length = 32 → block i (entry.take 8 ++ leBytes 4 (v i 1).num ++ leBytes 4 (v i 2).num ++ entry.drop 16)) ∧
    (let i := Instr.fmtbSp c ops
     match x.s.spadAt x.g.team (v i 0).num 32 with
     | none => raises i 9
     | some (u, o) =>
         let b := readBytes (x.s.team u).spad o 32
         if fbOk b = true ∧ (v i 0).num % 32 ≠ 0 then raises i 0x0B else block i b) ∧
    (∀ sp, let i := Instr.tmap c sp ops
     let a := (v i 0).toBits
     let gives := fun d (c' : State) =>
       let y := { x with s := x.s.caching c' }
       (tmOk d = true → goes i y [.tmap d none]) ∧ (tmOk d = false → y.Raises s i trapHandle (x.active c))
     (sp = true → x.s.spadAt x.g.team a.toNat 128 = none → raises i 9) ∧
     (a.toNat % 64 ≠ 0 → (sp = true → (x.s.spadAt x.g.team a.toNat 128).isSome) → raises i 0x0B) ∧
     (∀ u o, sp = true → a.toNat % 64 = 0 → x.s.spadAt x.g.team a.toNat 128 = some (u, o) →
       gives (readBytes (x.s.team u).spad o 128) x.s) ∧
     (∀ p ps, sp = false → a.toNat % 64 = 0 → x.s.locate (some x.unit) x.eid a .load 128 = .ok p → localPieces p = some ps →
       ∃ c', gives (x.s.readPieces ps) c')) ∧
    (let i := Instr.cohort c ops
     let ok := x.holdsAll = true ∧ (v i 0).num ≤ 7 ∧ 1 ≤ (v i 1).num ∧ (v i 1).num ≤ 6 ∧ (v i 2).num < (v i 1).num
     (¬ ok → raises i trapHandle) ∧
     (ok → ∃ w : BitVec 32, sets i w (x.flagged (flagIf (x.oncePoison i) flagPO)) ∧ w.getLsbD 0 = true ∧ w.extractLsb' 1 2 = 0 ∧
       (w.extractLsb' 3 3).toNat = (v i 2).num ∧ (w.extractLsb' 6 3).toNat = (v i 1).num ∧ (w.extractLsb' 9 23).toNat = (v i 0).num)) ∧
    (let i := Instr.cohortClear c ops
     (x.holdsAll = false → raises i trapHandle) ∧
     (x.holdsAll = true → ∃ w : BitVec 32, w.getLsbD 0 = false ∧ w.extractLsb' 1 31 = x.g.cohort.extractLsb' 1 31 ∧
       sets i w x.p.mode)) ∧
    (∀ int : Bool, let i := if int then Instr.accZeroI32 c ops else .accZeroF32 c ops
     match x.s.takeTiles x.g.team 1 int [] with
     | .taken u ts => ∃ k, ts = [k] ∧ k < 32 ∧ (x.s.sweepTiles x.team.core).tile x.team.core k = none ∧
         u.tile x.team.core k = some ⟨int, [], x.g.team, none⟩ ∧
         ∃ t, exec i s = .next t ∧ Exe.Completes { x with s := u } i (x.flagged 0) (x.only i fun _ => [.acc k none]) t
     | .wait => exec i s = .next x.s
     | .full => raises i trapHandle) ∧
    (let i := Instr.unfold c ops
     let g := (v i 1).toBits
     let o := (v i 2).toBits.setWidth 32
     let ok := fun d => tmNdim d = 3 ∧ tmFmt d ≤ 10 ∧ tmFill d ≤ 1 ∧ g.extractLsb' 40 24 = 0 ∧ o.extractLsb' 0 16 ≠ 0 ∧ o.extractLsb' 16 16 ≠ 0
     (∀ d, (v i 0).desc false = some d → ok d → goes i x [.tmap d (some (g, o))]) ∧
     ((∀ d, (v i 0).desc false = some d → ¬ ok d) → raises i trapHandle))

/-- MMA outside of a cohort, SPBM, ACC.LOAD, ACC.STORE and SPEC (R127, R132, R358 to R363, R366 to R373): the checks, and the
operation that the matrix engine takes, with its future and the accumulator in every active lane. An MMA writes the tile of c
when no other value holds it and a fresh one otherwise; a speculative form writes a tile of its own, which SPEC keeps or drops.
An MMA.UF whose tensor lies behind a window that is down has completed with LINK_KEY (R159). A member of a cohort waits for the
others. -/
def Obligations.MatrixOperations : Prop :=
  ∀ (s : State) (x : Exe) (c : Ctl) (scope : Scope) (ops : List Opnd), s.exe? = some x → x.calm → x.p.place = .core → x.active c ≠ [] →
    let v := fun i k => argOf (x.onceVals i) k
    let raises := fun i code => x.Raises s i code (x.active c)
    let withTile := fun i int els (go : State → Nat → Prop) =>
      match x.s.takeTiles x.g.team 1 int els with
      | .taken u ts => ∃ k, ts = [k] ∧ go u k
      | .wait => exec i s = .next x.s
      | .full => raises i trapHandle
    (∀ q ∈ [(Instr.mma c scope ops, 0, false), (.mmaSp c scope ops, 1, false), (.mmaUf c scope ops, 2, false),
        (.mmaSpec c scope ops, 0, true), (.mmaSpecSp c scope ops, 1, true), (.mmaSpecUf c scope ops, 2, true)],
      let i := q.1
      let spec := q.2.2
      let bad := x.mmaBad ⟨q.2.1, spec⟩ (x.onceVals i)
      let latch := x.team.latch (cohortLatch x.g.cohort)
      (∀ res, x.p.stage = .issued res →
        ∃ t, exec i s = .next t ∧ x.Completes i (x.flagged (flagIf (x.oncePoison i) flagPO)) (x.only i fun _ => res) t) ∧
      (x.p.stage = .failed → raises i trapHandle) ∧
      (x.p.stage = .none → (∀ w ∈ latch, w.group ≠ x.gid) → ∀ code, bad = some code → raises i code) ∧
      (x.p.stage = .none → (∀ w ∈ latch, w.group ≠ x.gid) → bad = none → cohortValid x.g.cohort = false → x.here = some i →
        x.issueWaits 2 = true → exec i s = .next x.s) ∧
      (x.p.stage = .none → (∀ w ∈ latch, w.group ≠ x.gid) → bad = none → cohortValid x.g.cohort = false → x.here = some i →
        x.issueWaits 2 = false → ∀ b t sp, (v i 0).block = some b → v i 1 = .acc t sp →
        let own := (spec = true → sp ≠ none) ∧ x.lastUse i (sp.getD t) = true
        let issues := fun (u : State) (r : Val) =>
          let o := x.newOp i 2 (x.onceVals i) (max scope.code 2) none (fbSlabs b * 2) 0
          x.Issues s i { x with s := u }
            { o with
              members := [(x.gid, x.pid, [v i 1, r, v i (if q.2.1 = 2 then 3 else 2), v i 4])], spec := spec
              status := x.mmaStatus q.2.1 b (v i 2) } id fun fut => [.bits fut, r]
        (own → issues (x.s.sweepTiles x.team.core) (.acc t (if spec then sp else none))) ∧
        (¬ own → withTile i (fbInt b) [] fun u k => issues u (if spec then .acc t (some k) else .acc k none))) ∧
      (x.p.stage = .none → latch = [] → bad = none → cohortValid x.g.cohort = true → 1 < cohortSize x.g.cohort →
        let me : LatchWait := ⟨x.gid, x.pid, cohortPos x.g.cohort, cohortSize x.g.cohort, q.2.1 + if spec then 4 else 0, x.onceVals i, x.p.mode⟩
        let u := x.s.setTeam x.g.team { x.team with latches := mset x.team.latches (cohortLatch x.g.cohort) [me] }
        u.latchDead x.g.team (cohortLatch x.g.cohort) = false → exec i s = .next u)) ∧
    (let i := Instr.spbm c scope ops
     let rows := (v i 3).num
     match (v i 2).block with
     | none => raises i trapHandle
     | some b =>
         let bytes := (rows / 8 * (fbK b / 8) + 7) / 8
         let good := rows % 8 = 0 ∧ 8 ≤ rows ∧ rows ≤ 192
         let inside := (x.s.spadAt x.g.team (v i 0).num bytes).isSome ∧
           ∀ r ∈ fbRanges b false (v i 1).num rows, (x.s.spadAt x.g.team r.1 r.2).isSome
         let even := (v i 1).num % 8 = 0 ∧ fbPitch b false % 8 = 0
         (¬ good → raises i trapHandle) ∧ (good → ¬ inside → raises i 9) ∧ (good → inside → ¬ even → raises i 0x0B) ∧
         (good → inside → even → x.Issues s i x
           (x.newOp i 2 (x.onceVals i) (max scope.code 2) none (granules (v i 0).num bytes) 0) id fun fut => [.bits fut])) ∧
    (∀ int : Bool, let i := Instr.accLoad c int scope ops
     match (v i 0).desc false with
     | none => raises i trapHandle
     | some d =>
         let good := tmNdim d = 2 ∧ tmBox d 0 ≤ 64 ∧ tmBox d 1 ≤ 32 ∧ tmFmt d ≠ 24 ∧ (int = true → tmFmt d = 9 ∨ tmFmt d = 10)
         let inside := x.s.tmInside x.g.team d = true
         let w := accWalk d (v i 1) (v i 2)
         let st := if x.windowDown (tmSpad d) (tmAddr d 0) then futLinkKey else futPending
         (¬ good → raises i trapHandle) ∧ (good → ¬ inside → raises i 9) ∧
         (good → inside → x.issueWaits 2 = true → exec i s = .next x.s) ∧
         (good → inside → x.issueWaits 2 = false → ∃ els, withTile i int els fun u k => x.Issues s i { x with s := u }
           { x.newOp i 2 (x.onceVals i) (max (max scope.code 2) (x.minScope (tmSpad d) (tmPages d w.dos))) none 32 0 with
             status := st, clipped := w.clips, whole := w.whole, members := [(x.gid, x.pid, [.bits 0, .acc k none])] } id fun fut => [.bits fut, .acc k none])) ∧
    (let i := Instr.accStore c scope ops
     ((∀ d t, (v i 0).desc false = some d → v i 1 ≠ .acc t none) → raises i trapHandle) ∧
     ∀ d t, (v i 0).desc false = some d → v i 1 = .acc t none →
       let len := blockLen (tmFmt d) (tmBlk d)
       let good := tmNdim d = 2 ∧ tmBox d 0 ≤ 64 ∧ tmBox d 1 ≤ 32 ∧ tmFmt d ≠ 24 ∧ (x.tileOf t).isSome ∧
         (isBlocked (tmFmt d) = true → signedOf 32 (v i 2).num % len = 0 ∧ tmBox d 0 % len = 0)
       let inside := x.s.tmInside x.g.team d = true
       let w := accWalk d (v i 2) (v i 3)
       let st := if x.windowDown (tmSpad d) (tmAddr d 0) then futLinkKey else futPending
       (¬ good → raises i trapHandle) ∧ (good → ¬ inside → raises i 9) ∧
       (good → inside → x.Issues s i x
         { x.newOp i 2 (x.onceVals i) (max (max scope.code 2) (x.minScope (tmSpad d) (tmPages d w.dos))) none w.units.length 0 with
           status := st, clipped := w.clips, members := [(x.gid, x.pid, [.acc t none])] } id fun fut => [.bits fut])) ∧
    (∀ commit : Bool, let i := if commit then Instr.specCommit c ops else .specDiscard c ops
     ((∀ t sp, v i 0 ≠ .acc t (some sp)) → raises i trapHandle) ∧
     ∀ t sp, v i 0 = .acc t (some sp) →
       let kept := if commit then sp else t
       (x.tileOf t = none ∨ x.tileOf kept = none → raises i trapHandle) ∧
       (x.tileOf t ≠ none → x.tileOf kept ≠ none → x.lastUse i kept = true →
         let u := (x.s.specOps x.g.team sp).foldl (fun s k => if commit then s.releaseFlags k else s.dropSpec k) x.s
         ∀ y, u.exeOf x.gid x.pid = some y → ∃ t, exec i s = .next t ∧
           Exe.Completes { y with s := u } i (y.flagged (flagIf (x.oncePoison i) flagPO)) (y.only i fun _ => [.acc kept none]) t))

/-- COLL.GROUP, COLL.RED, COLL.BCAST and COLL.BAR (R162 to R166, R350 to R352) issue their operation at once: a group over the
packages that its list names, when they are distinct, of this fabric and include this one, and a collective on a valid handle,
as this member's contribution to the next meeting; otherwise the operation has already completed with the status that says why.
A group that was built is valid where every member's digest of the list is this member's own, and has its first key; a re-key
makes a second generation live, with a key of its own, then the only one; a lost peer ends the group's collectives, but for
those whose result is being written (assumption log 114). -/
def Obligations.CollectivesIssue : Prop :=
  ∀ (s : State) (x : Exe) (c : Ctl) (scope : Scope) (ops : List Opnd), s.exe? = some x → x.calm → x.active c ≠ [] →
    let n := fun i k => numOf (x.onceVals i) k
    let op := fun i (u : State) => Exe.newOp { x with s := u } i 3 (x.onceVals i) (max scope.code 7) none 0 0
    (let i := Instr.collGroup c scope ops
     let list := (argOf (x.onceVals i) 0).toBits
     let builds := fun (u : State) (st : BitVec 8) (ms : List Nat) => x.encl.handles.length < 65536 →
       ∃ h, h < 65536 ∧ h ∉ x.encl.handles ∧ x.Issues s i { x with s := u } { op i u with status := st }
         (fun t =>
           let t := t.setEncl x.eid { t.encl x.eid with handles := (t.encl x.eid).handles ++ [h] }
           if st = futPending then { t with colls := t.colls ++ [(x.s.next, ⟨x.eid, h, ms, .building, 0, false, x.s.next, 0, [],
             listDigest ms, [], []⟩)] } else t)
         fun fut => [.bits fut, ofTy .i32 h]
     (¬ (2 ≤ n i 1 ∧ n i 1 ≤ 15) → builds x.s futMismatch []) ∧
     (2 ≤ n i 1 → n i 1 ≤ 15 → x.windowDown false list = true → builds x.s futLinkKey []) ∧
     (∀ p ps, 2 ≤ n i 1 → n i 1 ≤ 15 → x.windowDown false list = false → x.issueWaits 3 = false →
       x.s.locate (some x.unit) x.eid list .engRead (n i 1) = .ok p → localPieces p = some ps →
       let ms := (x.s.readPieces ps).map BitVec.toNat
       ∃ c', builds (x.s.caching c')
         (if ((∀ m ∈ ms, m < x.s.fabricP) ∧ (distinct ms).length = ms.length ∧ x.s.fabricF ∈ ms) then
           (if x.s.membersUp x.eid ms then futPending else futLinkKey) else futMismatch) ms)) ∧
    (∀ q ∈ [(Instr.collRed c scope ops, 1, 1, 4, 0), (.collBcast c scope ops, 2, 0, 4, 1), (.collBar c scope ops, 3, 0, 0, 0)],
      let i := q.1
      let form := q.2.1
      let handle := n i q.2.2.1
      let word := if form = 1 then n i 0 else 0
      let count := if form = 3 then 0 else n i q.2.2.2.1
      let root := if form = 2 then n i q.2.2.2.2 else 0
      let o : EngOp := { op i x.s with maj := 0x51, sub := form }
      let issues := fun o after => x.Issues s i x o after fun fut => [.bits fut]
      match x.s.collOf x.eid handle with
      | none => issues { o with status := futMismatch } id
      | some (key, g) =>
          (g.state = .building ∨ g.state = .invalid → issues { o with status := futMismatch } id) ∧
          (g.state = .lost → issues { o with status := futPeerLost } id) ∧
          (g.state = .valid → form = 1 → count = 0 → issues { o with status := futOK } id) ∧
          (g.state = .valid → ¬ (form = 1 ∧ count = 0) →
            ∃ gen, (gen = g.gen ∨ (g.rekey = true ∧ gen = g.gen + 1)) ∧
            let about : Contrib := ⟨key, g.issued, gen, form, word, count, root⟩
            let bytes := collBytes form word count
            let reads := if g.sends about x.s.fabricF then granules (n i 3) bytes else 0
            let writes := if form = 3 then 0 else granules (n i 2) bytes
            let up := x.s.membersUp x.eid g.members
            let next : Coll := { g with issued := g.issued + 1 }
            issues { o with total := reads + writes, members := [(key, g.issued, [])], status := if up then futPending else futLinkKey }
              fun t =>
                let t : State := { t with colls := mset t.colls key (if up then next.receive x.s.fabricF about [] else next) }
                if up = true ∧ reads = 0 then t.collSend x.eid g.issued g.members [] else t)) ∧
    (∀ k g, mget s.colls k = some g →
      let having := fun (g : Coll) => ({ s with colls := mset s.colls k g } : State)
      (∀ digests, g.state = .building → digests.length + 1 = g.members.length →
        ((∀ d ∈ digests, d = g.digest) → exec (.collGroupBuildDone k digests) s = .next (State.finishOp
          { having { g with state := .valid, keys := [(0, s.keys)] } with keys := s.keys + 1 } g.build futOK)) ∧
        ((∃ d ∈ digests, d ≠ g.digest) →
          exec (.collGroupBuildDone k digests) s = .next ((having { g with state := .invalid }).finishOp g.build futMismatch))) ∧
      (g.state = .valid → g.rekey = false → exec (.collGroupRekey k false) s = .next
        { having { g with rekey := true, keys := mset g.keys (g.gen + 1) s.keys } with keys := s.keys + 1 }) ∧
      (g.state = .valid → g.rekey = true → exec (.collGroupRekey k true) s = .next
        (having { g with rekey := false, gen := g.gen + 1, keys := mdel g.keys g.gen })) ∧
      (∀ m, g.state = .valid → m ≠ s.fabricF → m ∈ g.members →
        let lost := (s.collOps k).filter fun op => !(mget s.ops op).any fun o => o.writing (g.readSteps o s.fabricF)
        exec (.collPeerLost k m) s = .next (lost.foldl (fun t op => t.finishOp op futPeerLost) (having { g with state := .lost }))))

/-! Caches, translations and the system. -/

/-- PREF, CACHE.DEMOTE, CACHE.EVICT and XCTL (R74, R216, R218, R348, R349, R381): a prefetch changes nothing but the caches; a
demoted line is unprotected and the next victim; an evicted one is gone from every cache, a general core's too. XCTL on no bytes
completes at once, on a non-canonical address traps, and otherwise waits until its form has completed in every hall: after INV
no entry finds a translation that overlaps the range, and UNPIN ends the pins of its level. A pin's result says whether one had
no room. -/
def Obligations.CacheAndTranslationControl : Prop :=
  ∀ (s : State) (x : Exe) (c : Ctl) (ops : List Opnd), s.exe? = some x → x.calm →
    let goes := fun i (u : State) (f : BitVec 6) => ∃ t, exec i s = .next t ∧
      Exe.Completes { x with s := u } i (x.flagged f) (fun _ => none) t
    let flags := fun i => x.raised i fun _ => 0
    (let i := Instr.pref c ops
     ∃ c', goes i (x.s.caching c') (flags i)) ∧
    (let i := Instr.cacheDemote c ops
     ∃ l2, goes i { x.s with l2 := l2 } (flags i) ∧ l2.length = x.s.l2.length ∧
       ∀ (k : Nat) (l : L2Line), x.s.l2[k]? = some l → ∃ m, l2[k]? = some m ∧ (l.line ∈ (x.allLines i).map Prod.fst → m = { l with prot := false, used := 0 }) ∧
         (l.line ∉ (x.allLines i).map Prod.fst → m = l)) ∧
    (let i := Instr.cacheEvict c ops
     let lines := (x.allLines i).map Prod.fst
     ∃ c', goes i (x.s.caching c') (flags i) ∧
       (∀ l : L2Line, (l.line ∈ lines → l ∉ c'.l2) ∧ (l.line ∉ lines → (l ∈ c'.l2 ↔ l ∈ x.s.l2))) ∧
       (∀ l : CoreLine, (l.line ∈ lines → l ∉ c'.coreLines) ∧ (l.line ∉ lines → (l ∈ c'.coreLines ↔ l ∈ x.s.coreLines)))) ∧
    (∀ i ∈ [Instr.xctlInv c ops, .xctlPfCore c ops, .xctlPfHall c ops, .xctlPinCore c ops, .xctlPinHall c ops, .xctlUnpinCore c ops,
        .xctlUnpinHall c ops], x.p.place = .core →
      let a := (argOf (x.onceVals i) 0).toBits
      let n := numOf (x.onceVals i) 1
      (n = 0 → ∃ t, exec i s = .next t ∧
        x.Completes i (x.flagged (flagIf (x.oncePoison i) flagPO)) (x.only i fun _ => if c.ndef = 0 then [] else [ofTy .i32 0]) t) ∧
      (n ≠ 0 → canonical a = false → x.Raises s i trapHandle (x.active c)) ∧
      (n ≠ 0 → canonical a = true → (x.gid, x.pid) ∉ x.s.xctls → exec i s = .next { x.s with xctls := x.s.xctls ++ [(x.gid, x.pid)] }) ∧
      (∀ f u room, x.here = some i → xctlForm i = some f → (x.gid, x.pid) ∈ x.s.xctls →
        x.s.xctl x.eid [x.team.core] (some x.team.launch) [(x.g.width, x.launch.budget x.g.role)] (low48 a, n) f = .ok (u, room) →
        ∃ t, exec (.xctlComplete x.gid x.pid) s = .next t ∧
          Exe.Completes { x with s := { u with xctls := u.xctls.filter (· != (x.gid, x.pid)) } } i
            (x.flagged (flagIf (x.oncePoison i) flagPO)) (x.only i fun _ => if c.ndef = 0 then [] else [ofTy .i32 (if room then 0 else 1)]) t)) ∧
    (∀ e cores by_ forms r, x.s.xctl e cores by_ forms r .inv = .ok (x.s.invalidate e r, true) ∧
      (∀ q ∈ (x.s.invalidate e r).trans, q.2.enclave = e → overlaps q.2.extent r = true → q.2.live = false) ∧
      (∀ hall, x.s.xctl e cores by_ forms r (.unpin hall) = .ok (x.s.unpin e (if hall then [none] else cores.map some) r, true)) ∧
      ∀ levels, ∀ q ∈ (x.s.unpin e levels r).trans, q.2.enclave = e → overlaps q.2.extent r = true → ∀ p ∈ q.2.pins, p.1 ∉ levels)

/-- LAUNCH, SEAL and CNT (R210 to R215, R380, R382 to R385): a launch that is accepted gives its result; a seal context is
opened under a handle that no open one has, absorbs by an engine operation, is closed, or aborted; a counter or a field of a
monitor is read. The counters of die code, whose counts no rule fixes, have advanced by a free count (assumption log 32). A
handle, a destination, a counter or a monitor that does not exist raises a trap. -/
def Obligations.LaunchSealsAndCounters : Prop :=
  ∀ (s : State) (x : Exe) (c : Ctl) (scope : Scope) (ops : List Opnd), s.exe? = some x → x.calm → x.active c ≠ [] →
    let v := fun i k => argOf (x.onceVals i) k
    let n := fun i k => (v i k).num
    let raises := fun i code => x.Raises s i code (x.active c)
    let goes := fun i (u : State) (vs : List Val) => ∃ t, exec i s = .next t ∧
      Exe.Completes { x with s := u } i (x.flagged (flagIf (x.oncePoison i) flagPO)) (x.only i fun _ => vs) t
    let having := fun (u : State) (cs : List (Nat × Seal)) => u.setLaunch x.team.launch { u.launch x.team.launch with seals := cs }
    (let i := Instr.launch c ops
     let d := (v i 1).toBits
     (15 < n i 0 → raises i trapHandle) ∧ (n i 0 ≤ 15 → d.toNat % 128 ≠ 0 → raises i 0x0B) ∧
     (∀ u r, n i 0 ≤ 15 → d.toNat % 128 = 0 → x.windowDown false d = false → x.s.accept (some x.unit) x.eid (n i 0) d = .ok (u, r) →
       goes i u [ofTy .i32 r])) ∧
    (let i := Instr.sealOpen c ops
     let d := (v i 1).toBits
     let open_ := x.launch.seals
     (1 < n i 0 ∨ 32 ≤ open_.length → raises i trapHandle) ∧
     (n i 0 ≤ 1 → open_.length < 32 → d.toNat % 4096 ≠ 0 → raises i 0x0B) ∧
     (n i 0 ≤ 1 → open_.length < 32 → d.toNat % 4096 = 0 →
       ∃ h, h < 32 ∧ h ∉ open_.map Prod.fst ∧ goes i (having x.s (open_ ++ [(h, ⟨n i 0 == 1, d, [], false, none, []⟩)])) [ofTy .i32 h])) ∧
    (let i := Instr.sealAbsorb c scope ops
     let a := (v i 1).toBits
     (x.launch.openSeal (n i 0) = none → raises i trapHandle) ∧
     (x.launch.openSeal (n i 0) ≠ none → x.Issues s i x
       { x.newOp i 4 (x.onceVals i) (max scope.code (x.minScope false (pagesOf a (n i 2)))) none ((n i 2 + 127) / 128) 0 with
         status := if n i 2 = 0 then futOK else if x.windowDown false a then futLinkKey else futPending
         whole := if a.toNat % 64 = 0 then [] else wholeIn false a.toNat (n i 2) } id fun fut => [.bits fut])) ∧
    (∀ i ∈ [Instr.sealClose c ops, .sealAbort c ops], x.launch.openSeal (n i 0) = none → raises i trapHandle) ∧
    (let i := Instr.sealClose c ops
     ∀ q, x.launch.openSeal (n i 0) = some q → goes i (having x.s (mset x.launch.seals (n i 0) { q with closed := true })) []) ∧
    (let i := Instr.sealAbort c ops
     ∀ q, x.launch.openSeal (n i 0) = some q →
       let mine := x.s.ops.filter fun o =>
         o.2.cls == 4 && o.2.status == futPending && (x.s.team o.2.team).launch == x.team.launch && numOf o.2.vals 0 == n i 0
       let u := (mine.foldl (fun u o => u.finishOp o.1 futCancelled) x.s).writeSeal x.team.launch 1 1 q
       let y : Exe := { x with s := u }
       goes i (u.setLaunch y.team.launch { y.launch with seals := mdel (u.launch x.team.launch).seals (n i 0) }) []) ∧
    (let i := Instr.cntCtr c ops
     let k := n i 0
     (10 < k → k < 16 ∨ 18 < k → raises i trapHandle) ∧
     let count := fun (u : State) => (mget (u.encl x.eid).counters (counterKey k x.team.core)).getD 0
     ((k ≤ 2 ∨ k = 4 ∨ k = 8 ∨ k = 9 ∨ (16 ≤ k ∧ k ≤ 18)) → goes i x.s [.bits (count x.s)]) ∧
     (k = 3 ∨ (5 ≤ k ∧ k ≤ 7) ∨ k = 10 →
       ∃ m, let u := x.s.bump x.eid k x.team.core m
         (count x.s).toNat ≤ (count u).toNat ∧ goes i u [.bits (count u)])) ∧
    (let i := Instr.cntMon c ops
     let k := n i 0
     let f := n i 1
     let m := if k = 0 then (x.s.pathMon (8 + x.eid)).latency else if k = 6 then (x.s.pathMon (8 + x.eid)).soft
       else (mget x.encl.monitors k).getD Monitor.empty
     (6 < k ∨ 18 < f → raises i trapHandle) ∧
     (k ≤ 6 → (f = 0 → goes i x.s [.bits (m.min.setWidth 64)]) ∧ (f = 1 → goes i x.s [.bits (m.max.setWidth 64)]) ∧
       (f = 2 → goes i x.s [.bits m.count]) ∧ (∀ b, f = 3 + b → b < 16 → goes i x.s [.bits ((mget m.bins b).getD 0)])))

/-- CUT (R152, R167 to R170, R386): a path departs from its cut mark with the future of the cutting, which has completed when
the drain has ended, or of a refused one; CUT.STATUS gives the bytes drained and the status. A copy counts the cutting and marks
it copied; where the count has no room, nothing is copied and the cutting is refused. A full flight releases its paths, those at
a cut mark to the cutting by their descriptor once it is copied; the drain ends with all of the bytes or with fewer, and waits
for a search of a line and for a frame in MOVING. -/
def Obligations.Cuttings : Prop :=
  (∀ (s : State) (x : Exe) (c : Ctl) (ops : List Opnd), s.exe? = some x → x.calm →
    let departs := fun (i : Instr) (scope : Nat) (k : Option Nat) =>
      let cut := (k.bind (mget x.s.cuts)).filter fun q => !q.refused
      let st := match cut with
        | none => futRefused
        | some q => if q.ended = false then futPending else if q.drained = q.used then futOK else futDrain
      x.Issues s i x { x.newOp i 6 (x.onceVals i) scope none 0 0 with status := st }
        (fun t => match k, cut with
          | some n, some q => { t with cuts := mset t.cuts n { q with ops := q.ops ++ [x.s.next] } }
          | _, _ => t) fun fut => [.bits fut]
    (let i := Instr.cutMarkDy c ops
     let f := numOf (x.onceVals i) 0
     (x.p.stage = .none → x.launch.nflight ≤ f → exec i s = .next (x.trapAll i trapHandle)) ∧
     (x.p.stage = .none → f < x.launch.nflight → x.s.cutsFull x.eid (some (x.team.launch, x.die, f)) = true → exec i s = .next x.s) ∧
     (∀ k, x.p.stage = .cutting k → departs i 5 (some k)) ∧ (x.p.stage = .released → departs i 5 none)) ∧
    (let i := Instr.cutMarkFb c ops
     (x.p.stage = .none → x.s.cutsFull x.eid none = true → exec i s = .next x.s) ∧
     (∀ k q, x.p.stage = .cutting k → mget x.s.cuts k = some q →
       (q.copied = true → departs i 7 (some k)) ∧ (q.copied = false → exec i s = .next x.s)) ∧
     (∀ n o, x.p.stage = .joining n → mget x.s.ops n = some o →
       (o.status = futPending → exec i s = .next x.s) ∧
       (o.status ≠ futPending → o.status ≠ futOK ∨ o.clipped = true ∨ x.encl.h = 0xFFFFFFFF → departs i 7 none) ∧
       (o.status = futOK → o.clipped = false → x.encl.h ≠ 0xFFFFFFFF → x.s.cutsFull x.eid none = true → exec i s = .next x.s) ∧
       (o.status = futOK → o.clipped = false → x.encl.h ≠ 0xFFFFFFFF → x.s.cutsFull x.eid none = false → exec i s = .next
         ((x.put (x.having { x.p with stage := .cutting x.s.next })).addCut x.eid x.team.launch none (argOf (x.onceVals i) 1).toBits)))) ∧
    (let i := Instr.cutStatus c ops
     let word := fun l => (argOf (x.args i l) 0).toBits
     let st := fun l => x.s.futState x.g.team (word l)
     let wrong := (x.active c).filter fun l => !x.s.futValid x.g.team (word l)
     let u := x.s.drainSome ((x.active c).map fun l => (l, st l))
     (wrong ≠ [] → x.Raises s i trapHandle x.lanes) ∧
     (wrong = [] → ∃ out t, exec i s = .next t ∧
       Exe.Completes { x with s := u } i (x.flagged (x.raised i fun _ => 0)) (x.only i out) t ∧
       ∀ l ∈ x.active c, ∃ w : BitVec 64, out l = [.bits w] ∧ w.extractLsb' 48 8 = (st l).1 ∧
         ∀ op k q, (st l).2 = some op → u.cutOf op = some (k, q) → q.drained < 2 ^ 48 → (w.extractLsb' 0 48).toNat = q.drained))) ∧
  (∀ (s : State) (k : Nat) (c : Cut), mget s.cuts k = some c →
    (∀ u, s.cutDue k c = true → s.waiting (.cut k) = false → s.takeCut k c = .ok u → exec (.cutCopyDone k) s = .next u ∧
      ∃ q, mget u.cuts k = some q ∧ q.copied = true ∧
        ((s.encl c.enclave).h ≠ 0xFFFFFFFF → q.cutId = (u.encl c.enclave).h) ∧
        ((s.encl c.enclave).h = 0xFFFFFFFF → q.refused = true ∧ u = { s with cuts := mset s.cuts k q })) ∧
    (∀ ok, c.copied = true → c.ended = false → (∃ n ∈ c.ops, (mget s.ops n).map EngOp.status = some futPending) →
      let live := c.ops.filter fun n => (mget s.ops n).map EngOp.status == some futPending
      ∃ n, (ok = true → n = c.chunks - c.done) ∧ (ok = false → n ≤ c.chunks - c.done - 1) ∧
        let u := (State.drain k n s).1
        ((State.drain k n s).2 = .waits → exec (.cutDrainDone k ok) s = .next u) ∧
        ((State.drain k n s).2 ≠ .waits → ∀ q, mget u.cuts k = some q →
          exec (.cutDrainDone k ok) s = .next (live.foldl (fun t m => t.finishOp m (if q.drained = q.used then futOK else futDrain))
            { u with cuts := mset u.cuts k { q with ended := true } })))) ∧
  (∀ (s : State) (l die f : Nat), s.flightFull l die f = true →
    (s.cutBy l die f = none → exec (.flightRelease l die f) s = .next
      (({ s with cuts := s.cuts.filter fun q => !(q.2.launch == l && q.2.spot == some (die, f)) } : State).freeFlight l die f .released)) ∧
    (∀ d k q, s.cutBy l die f = some d → s.cutAt l (die, f) d = some (k, q) →
      (q.copied = false → exec (.flightRelease l die f) s = .next s) ∧
      (q.copied = true → exec (.flightRelease l die f) s = .next
        (({ s with cuts := mset s.cuts k { q with spot := none } } : State).freeFlight l die f
          (if q.refused then .released else .cutting k)))) ∧
    ∀ stage, ∀ gid ∈ (s.launch l).flight die f, ∀ g, mget s.groups gid = some g →
      ∃ h, mget (s.freeFlight l die f stage).groups gid = some h ∧ ∀ p q, mget g.ctx.paths p = some q → q.stage = .waiting (.flight f) 0 →
        mget h.ctx.paths p = some { q with stage := stage })

/-! The package: management, partitions and general cores. -/

/-- Management (R7 to R9): the first accepted claim takes ownership, the lowest class of a round winning. A write by any other
master is rejected with NOT_OWNER and changes nothing. The owner names a successor, who takes ownership by accepting and leaves
it where it is by refusing; the baseboard controller can reclaim it at any time, which ends a pending hand-over. -/
def Obligations.ManagementOwnership : Prop :=
  ∀ (s : State) (m : Master),
    let m0 := s.mgmt
    let having := fun (q : Mgmt) => ({ s with mgmt := q } : State)
    (∀ ms, m0.owner = none → m ∈ ms → m ≤ 9 → (∀ n ∈ ms, m ≤ n) →
      exec (.managementClaim ms) s = .next (having { m0 with owner := some m })) ∧
    (∀ ms, m0.owner ≠ none → exec (.managementClaim ms) s = .next s) ∧
    (∀ (n p d f : Nat) (a : Nat) (v : BitVec 64) (spec : FormSpec) (key : BootKey) (ways : BitVec 24),
      ∀ i ∈ [Instr.ownershipHandover m n, .managementWrite m a v, .partitionForm m p spec, .bootKeyReplace m p key,
        .partitionWayMaskWrite m p d ways, .fabricNumberWrite m f n],
      m0.owner ≠ some m → exec i s = .next (having { m0 with lastStatus := .notOwner })) ∧
    (m0.owner = some m →
      (∀ n, exec (.ownershipHandover m n) s = .next (having { m0 with lastStatus := .ok, successor := some n })) ∧
      (∀ a v, ∃ ws, exec (.managementWrite m a v) s = .next (having { m0 with lastStatus := .ok, words := ws }) ∧
        mget ws a = some v ∧ ∀ b, b ≠ a → mget ws b = mget m0.words b)) ∧
    (m0.successor = some m →
      exec (.ownershipAccept m) s = .next (having { m0 with owner := some m, successor := none }) ∧
      exec (.ownershipRefuse m) s = .next (having { m0 with successor := none })) ∧
    (m0.successor ≠ some m → exec (.ownershipAccept m) s = .next s ∧ exec (.ownershipRefuse m) s = .next s) ∧
    exec .ownershipReclaim s = .next (having { m0 with owner := some 0, successor := none })

/-- Reset, bring-up and partitions (R3, R5, R6, R11, R12, R17, R36, R69, R155): a function leaves training ready or failed, and
partitions with channels of a failed stack are reported. A partition is formed by the owner of whole, free units in READY; its
frames wait to be scrubbed and its general cores are in reset. A boot key is replaced while they are; an image that verifies is
loaded and measured, and the general cores leave reset at its entry; otherwise they stay, with BOOT_REJECTED. A hall's clock
falls by steps. -/
def Obligations.BringUpAndPartitions : Prop :=
  ∀ (s : State) (m : Master),
    let told := ({ s with mgmt := { s.mgmt with lastStatus := .ok } } : State)
    let reports := fun (k reason : Nat) (t : State) =>
      t = { s with funcs := mset s.funcs (.hbm k) (.failed reason), mgmt := { s.mgmt with reported := t.mgmt.reported } } ∧
      ∀ p, p ∈ t.mgmt.reported ↔ p ∈ s.mgmt.reported ∨ ∃ q, (p, q) ∈ s.parts ∧ q.formed = true ∧ ∃ c ∈ q.sets, c / 2 = k
    exec .reset s =
      .next { State.reset with turns := s.turns, free := s.free, keys := s.keys + 3, cleanKey := s.keys, storage := s.storage } ∧
    (∀ f reason, s.fnState f = .training →
      exec (.functionTrainingDone f true reason) s = .next { s with funcs := mset s.funcs f .ready } ∧
      ((∀ k, f ≠ .hbm k) →
        exec (.functionTrainingDone f false reason) s = .next { s with funcs := mset s.funcs f (.failed reason) }) ∧
      ∀ k, f = .hbm k → ∃ t, exec (.functionTrainingDone f false reason) s = .next t ∧ reports k reason t) ∧
    (∀ k reason, k < 12 → ∃ t, exec (.hbmStackFailed k reason) s = .next t ∧ reports k reason t) ∧
    (∀ p (f : FormSpec), s.mgmt.owner = some m → p < 8 → (s.part p).formed = false → told.specReady f = true → told.specFree f = true →
      (f.cores.length % 4 = 0 ∧ f.cores ≠ [] ∧ f.halls ≠ [] ∧ f.sets ≠ [] ∧ (∀ h ∈ f.halls, s.fnState (.hall h) = .ready) ∧
        (∀ c ∈ f.sets, s.fnState (.hbm (c / 2)) = .ready) ∧ s.fnState (.net f.port) = .ready ∧ s.fnState .cores = .ready ∧
        ∀ q ∈ s.parts, q.2.formed = true → (∀ c ∈ f.cores, c ∉ q.2.cores) ∧ (∀ h ∈ f.halls, h ∉ q.2.halls) ∧
          (∀ c ∈ f.sets, c ∉ q.2.sets) ∧ f.port ≠ q.2.port) ∧
      ∃ t, exec (.partitionForm m p f) s = .next t ∧
        (let x := t.part p
         x.formed = true ∧ x.cores = f.cores ∧ x.halls = f.halls ∧ x.sets = f.sets ∧ x.port = f.port ∧ x.bootKey = f.bootKey ∧
           x.booted = false ∧ x.rejected = f.bootKey.isNone ∧ x.scrub = f.sets.map setPages ∧
           x.sealKey = sealKeyOf p ((f.bootKey.map fun k => sha384 k.bytes).getD 0)) ∧
        t.potParts = s.potParts ++ (f.sets.map setPages ++ f.slots).map (fun r => (r.1, r.2, p)) ∧
        (∀ c ∈ f.cores, t.hart c = Hart.reset) ∧ (∀ c, c ∉ f.cores → t.hart c = s.hart c) ∧ ∀ q, q ≠ p → t.part q = s.part q) ∧
    (∀ p key, s.mgmt.owner = some m →
      let x := s.part p
      let digest := sha384 key.bytes
      (x.formed = true → (∀ c ∈ x.cores, (s.hart c).inReset = true) → exec (.bootKeyReplace m p key) s =
        .next (told.setPart p { x with bootKey := some key, bootDigest := digest, sealKey := sealKeyOf p digest })) ∧
      ((∃ c ∈ x.cores, (s.hart c).inReset = false) → exec (.bootKeyReplace m p key) s = .next told)) ∧
    (∀ p image sig entry,
      let x := s.part p
      x.formed = true → x.booted = false → (∀ c ∈ x.cores, (s.hart c).inReset = true) →
      ((∀ k, x.bootKey = some k → Config.bootVerifies k.mldsa k.bytes image sig = false) →
        exec (.partitionBoot p image sig entry) s = .next (s.setPart p { x with rejected := true })) ∧
      (∀ k, x.bootKey = some k → Config.bootVerifies k.mldsa k.bytes image sig = true → ∃ t, exec (.partitionBoot p image sig entry) s = .next t ∧
        (t.part p).booted = true ∧ (t.part p).firstMeas = sha384 image ∧
        (∀ c ∈ x.cores, (t.hart c).inReset = false ∧ (t.hart c).pc = entry ∧ (t.hart c).mode = .hs) ∧
        (Memory.wf s.mem = true → (∀ q ∈ pagesAt entry.toNat image.length, s.bootable p q = true) →
          readBytes t.mem entry.toNat image.length = image))) ∧
    (∀ p, (s.part p).formed = true →
      let x := s.part p
      let answering := fun r => ({ s with replies := mset s.replies p r } : State)
      exec (.getCertificate p 0) s = .next (answering .chain) ∧
      exec (.getCertificate p 1) s = .next (answering (.sealKey p x.bootDigest x.sealKey)) ∧
      exec (.spdmGetMeasurements p) s = .next (answering (.measurements (if x.booted then [x.firstMeas] else [])))) ∧
    (∀ p d ways, s.mgmt.owner = some m → p < 8 → d < 4 → exec (.partitionWayMaskWrite m p d ways) s =
      .next (told.setPart p { s.part p with wayMask := mset (s.part p).wayMask d ways })) ∧
    (∀ f n, s.mgmt.owner = some m → f < n → n ≤ 15 → (∀ q ∈ s.parts, q.2.formed = false) →
      exec (.fabricNumberWrite m f n) s = .next { told with fabricF := f, fabricP := n }) ∧
    (∀ hall steps halfWatts, hall < 20 → ∃ t, exec (.clockLower hall steps halfWatts) s = .next t ∧
      State.Sampled { s with clocks := mset s.clocks hall (max 1 (s.clock hall - steps)) } t)

/-- The partition register page (R43, R44, R46, R70, R401, R403), written by a general core of the operating system, which goes
on behind its store: each register takes its fields and no reserved bit; FQ_BASE keeps its ring while EN is 1 and always loses
ERR; FQ_HEAD stays within the ring; XLT_INV_ADDR, XLT_INV_CTL and PREEMPT ignore writes while BUSY or GO reads 1. An
invalidation that ends leaves no named translation in a TLB, and BUSY clears once no access that one of them translated waits
for a far end. -/
def Obligations.RegisterPageWrites : Prop :=
  ∀ (s : State) (h p : Nat) (v : BitVec 64),
    let x := s.hart h
    let q := s.part p
    let on := fun (t : State) => t.gone h 0 0
    let takes := fun (i : Instr) (y : Part) => exec i s = .next (on (s.setPart p y))
    let ring : BitVec 64 := v &&& 0x000FFFFFFFFFF00F#64
    (s.partOf h = some p → x.inReset = false → x.inside = none → x.wait = .nothing →
      (∀ i ∈ [Instr.registerWrite h 0x000 v, .fqBaseWrite h v],
        (q.fqBase.getLsbD 63 = false → takes i { q with fqBase := (v &&& 0xBF00000000000000#64) ||| ring }) ∧
        (q.fqBase.getLsbD 63 = true → takes i { q with
          fqBase := (v &&& 0xBF00000000000000#64) ||| (q.fqBase &&& 0x000FFFFFFFFFF00F#64) })) ∧
      (∀ i ∈ [Instr.registerWrite h 0x010 v, .fqHeadWrite h v],
        ((q.fqTail - v.setWidth 32).toNat ≤ q.ringSize → takes i { q with fqHead := v.setWidth 32 }) ∧
        (q.ringSize < (q.fqTail - v.setWidth 32).toNat → exec i s = .next (on s))) ∧
      (q.inval ≠ none → exec (.registerWrite h 0x018 v) s = .next (on s) ∧ exec (.registerWrite h 0x020 v) s = .next (on s)) ∧
      (q.inval = none →
        takes (.registerWrite h 0x018 v) { q with xltAddr := v &&& 0x0000FFFFFFFFFFFF#64 } ∧
        (v.getLsbD 63 = false → takes (.registerWrite h 0x020 v) { q with xltCtl := v &&& 0x3FFFF#64 }) ∧
        (v.getLsbD 63 = true →
          let e := (v.extractLsb' 0 16).toNat
          let starts := fun (i : Instr) (n : Inval) => takes i { q with xltCtl := v &&& 0x3FFFF#64, inval := some n }
          (v.extractLsb' 16 2 = 0 → ∀ i ∈ [Instr.registerWrite h 0x020 v, .xltInvEnclave h v], starts i ⟨some e, 0, none⟩) ∧
          (v.extractLsb' 16 2 = 1 → ∀ i ∈ [Instr.registerWrite h 0x020 v, .xltInvPages h v],
            starts i ⟨some e, (q.xltAddr.extractLsb' 12 36).toNat, some ((q.xltAddr.extractLsb' 0 12).toNat + 1)⟩) ∧
          (2 ≤ (v.extractLsb' 16 2).toNat → ∀ i ∈ [Instr.registerWrite h 0x020 v, .xltInvPartition h v], starts i ⟨none, 0, none⟩))) ∧
      (∀ d c, d < 4 → c < 4 → takes (.registerWrite h (0x100 + 0x20 * d + 0x08 * c) v)
        { q with l2Class := mset q.l2Class (4 * d + c) (v &&& 0x3FFFFFF#64) }) ∧
      takes (.registerWrite h 0x200 v) { q with quantum := v.setWidth 16 } ∧
      takes (.registerWrite h 0x208 v) { q with sel := v.setWidth 16 } ∧
      (∀ y, s.enclIn p q.sel.toNat = some y → exec (.registerWrite h 0x210 v) s =
        .next (on ((s.setEncl q.sel.toNat { y with weight := v.setWidth 8 }).endTurns).evictAll)) ∧
      (∀ i ∈ [Instr.registerWrite h 0x218 v, .preemptGo h v],
        (q.preemptGo = true → exec i s = .next (on s)) ∧
        (q.preemptGo = false → v.getLsbD 16 = false → takes i { q with preemptEnc := v.setWidth 16 }) ∧
        (q.preemptGo = false → v.getLsbD 16 = true → exec i s = .next (on (s.preempt p (v.extractLsb' 0 16).toNat))))) ∧
    ∀ n, q.inval = some n → ∃ l,
      let names := fun (e : Nat) (pages : Nat × Nat) => (s.encl e).part = p ∧ (n.enclave = none ∨ n.enclave = some e) ∧
        (n.pages = none ∨ ∃ k, n.pages = some k ∧ overlaps pages (n.first, k) = true)
      (∀ t, t ∈ l ↔ t ∈ s.tlb ∧ ¬ names t.enclave t.pages) ∧
      ((∃ f ∈ s.far, names f.2.enclave (f.2.page, 1)) → exec (.xltInvDone p) s = .next { s with tlb := l }) ∧
      ((∀ f ∈ s.far, ¬ names f.2.enclave (f.2.page, 1)) →
        exec (.xltInvDone p) s = .next (({ s with tlb := l } : State).setPart p { q with inval := none }))

/-- RISCV_LOAD_STORE and KICK (R20, R39, R40, R52, R84, R119, R397): an access of the operating system to a frame of its
partition, and one of an enclave CPU thread by the enclave's own page table, is performed; one that R39 forbids takes RISC-V's
access fault, and one that cannot be translated takes the thread out of its enclave with a page fault. A fence only goes on. A
KICK accepts a launch, or answers 1 for a full queue or 2 for a misaligned descriptor; QSTAT shows DISP and the queue. -/
def Obligations.GeneralCoreAccesses : Prop :=
  ∀ (s : State) (h p : Nat),
    let x := s.hart h
    let goes := fun (i : Instr) (u : State) (rd : BitVec 5) (v : BitVec 64) => exec i s = .next (u.gone h rd v)
    s.partOf h = some p → x.inReset = false → x.wait = .nothing →
    (∀ va pr pw sr sw, goes (.riscvLoadStore h va (.fence pr pw sr sw)) s 0 0 ∧ goes (.riscvLoadStore h va .fenceTso) s 0 0) ∧
    (∀ va a, accSized a = true → x.inside = none →
      let base := Config.registerBase p
      (va.toNat < base ∨ base + 4096 ≤ va.toNat →
        (s.osCheck p (accKind a).writes va.toNat (accSize a) = .ok → ∃ t, exec (.riscvLoadStore h va a) s = .next t ∧
          HartDoes s h [(va.toNat, 0, accSize a)] a t) ∧
        ((∃ q ∈ pagesAt va.toNat (accSize a), s.osPage p q = false) →
          exec (.riscvLoadStore h va a) s = .next (s.hartTrap h (accessCause (accKind a)) va))) ∧
      (∀ off, va.toNat = base + off → off < 4096 → off % 8 = 0 →
        (∀ signed rd, a = .load 8 signed rd → goes (.riscvLoadStore h va a) s rd (s.readReg p off)) ∧
        (∀ rs, a = .store 8 rs → goes (.riscvLoadStore h va a) (s.writeReg p off (x.reg rs)) 0 0))) ∧
    (∀ n, x.inside = some n →
      (∀ va a, accSized a = true → 4096 ≤ va.toNat →
        (∀ ps, s.locate none n.enclave va (accKind a) (accSize a) = .ok ps →
          (∀ qs, localPieces ps = some qs → ∃ t, exec (.riscvLoadStore h va a) s = .next t ∧ HartDoes s h qs a t) ∧
          (localPieces ps = none → x.answer = none → s.windowUp n.enclave (windowIn ps) = true → s.asked (.hart h) = false →
            s.windowWaits n.enclave (windowIn ps) = false → exec (.riscvLoadStore h va a) s =
              .next (s.sendFar n.enclave (windowIn ps) (windowAddr ps) (low48 va / 4096) (.hart h) (accKind a).writes
                (x.sent a).1 (x.sent a).2))) ∧
        (∀ st f, s.locate none n.enclave va (accKind a) (accSize a) = .error st → st.found = .fault f →
          exec (.riscvLoadStore h va a) s = .next (s.threadFault h (accKind a) st.va f.kind))) ∧
      (∀ q v rd, q < 16 →
        (v.extractLsb' 0 7 ≠ 0 → goes (.kick h q v (some rd)) s rd 2) ∧
        (∀ u r, v.extractLsb' 0 7 = 0 → s.accept none n.enclave q v = .ok (u, r) →
          goes (.kick h q v (some rd)) u rd (BitVec.ofNat 64 r) ∧ goes (.kick h q v none) u 0 (BitVec.ofNat 64 r))) ∧
      ∀ q signed rd, q < 16 → goes (.riscvLoadStore h (BitVec.ofNat 64 (16 * q + 8)) (.load 8 signed rd)) s rd
        ((s.encl n.enclave).qstat q))

/-! Launches on halls. -/

/-- Dispatch, placement, turns, pre-emption and retirement (R103, R398, R399, R402, R408, R409, R411, R416, R432): of the ready
heads one of the highest priority dispatches, leaves its queue and waits for cores, or ends with its translation fault; a failed
DEP completes its head. A gang whose turn it is starts, or is restored, where its hall can admit it. A turn credits the weight
times the quantum, and ends by a deficit at or below 0 while another enclave waits. A unit acknowledges once nothing is in
progress on it, and then the frames are written and the gang leaves. A launch whose gangs have all finished, and whose cuttings
are drained, retires with status 0. -/
def Obligations.LaunchScheduling : Prop :=
  (∀ (s0 : State) (e : Nat),
    let s := ((s0.encl e).heads.map Prod.snd).foldl State.checkHead s0
    let ready := (s.encl e).heads.filter fun q => s.depsOf q.2 == .ready
    (ready = [] → exec (.launchDispatch e) s0 = .next s) ∧
    (ready ≠ [] → ∃ q l, (q, l) ∈ ready ∧ (∀ k ∈ ready, (s.launch k.2).priority ≤ (s.launch l).priority) ∧
      ∀ u, s.graftStart l (s.part (s.encl (s.launch l).enclave).part).halls = .ok u →
        let x := s.launch l
        let halls := (s.part (s.encl x.enclave).part).halls
        let y := u.encl x.enclave
        let v : State := u.setEncl x.enclave { y with
          queues := mset y.queues q (y.queue q).tail, disp := mset y.disp q ((mget y.disp q).getD 0 + 1), robin := (q + 1) % 16 }
        let w := v.setLaunch l { x with
          phase := .dispatched, dispatchNo := v.next
          gangs := numbered (x.teamCount / x.gangSize) fun _ => ⟨.waiting, 0, 0, 0, [], [], [], [], []⟩ }
        let w : State := { w with next := w.next + 1 }
        (∀ f, w.startFault l halls = some f → exec (.launchDispatch e) s0 = .next (w.endLaunch l 0x0C f.1 f.2 0)) ∧
        (w.startFault l halls = none →
          (w.flightsFit l = true → exec (.launchDispatch e) s0 = .next w.evictAll) ∧
          (w.flightsFit l = false → exec (.launchDispatch e) s0 = .next (w.endLaunch l 0x0B 0 0 0))))) ∧
  (∀ (s : State) (l : Nat), (s.launch l).phase = .queued →
    let x := s.launch l
    let read := fun (u : State) (i : Nat) => if x.dep i = 0 then u else u.hwTouch none x.enclave (x.dep i &&& ~~~31#64) .load [0, 0, 0, 0]
    (s.depsOf l = .failed → exec (.depReadResume l) s = .next ((read (read s 0) 1).endLaunch l 0x17 0 0 0)) ∧
    (s.depsOf l = .ready ∨ s.depsOf l = .waits → exec (.depReadResume l) s = .next (read (read s 0) 1))) ∧
  (∀ (s : State) (l : Nat), (mget s.launches l).isSome = true → (s.launch l).phase = .ended ∨ (s.launch l).phase = .retired →
    s.waiting (.done l) = false → exec (.depReadResume l) s = .next (s.writeDone l)) ∧
  (∀ (s : State) (l gang hall block : Nat), s.mayPlace l gang hall block = true →
    let x := s.launch l
    (x.phase = .dispatched ∧ s.timeFor x.enclave hall = true ∧ s.nextOn x.enclave hall = some (l, gang) ∧
      (hall, block) ∈ s.placesFor l gang hall ∧ s.waiting (.dep l) = false) ∧
    ((s.gang l gang).state = .waiting → ∀ u,
      s.graftStart l (if x.nflight = 0 then [hall] else (s.part (s.encl x.enclave).part).halls) = .ok u →
      u.startFault l (if x.nflight = 0 then [hall] else (s.part (s.encl x.enclave).part).halls) = none →
      exec (.gangPlace l gang hall block) s = .next (u.place l gang hall block)) ∧
    ((s.gang l gang).state = .saved → exec (.gangRestore l gang hall block) s = .next (s.place l gang hall block))) ∧
  (∀ (s u v : State) (l gang hall block : Nat) (plan : List (Nat × Nat × Nat)),
    u = ((s.part (s.encl (s.launch l).enclave).part).halls).foldl State.elapsed s → u.planWith l gang hall block = some plan →
    plan.head? = some (gang, hall, block) ∧
    (plan.foldlM (fun t q => t.putGang l q.1 q.2.1 q.2.2) u = .ok v → s.place l gang hall block = (v.finishGangs l).evictAll)) ∧
  (∀ (s : State) (hall e : Nat),
    let u := s.endTurns
    ((u.turnOrder hall (((mget u.holders hall).map Prod.fst).getD 0)).head? = some e →
      (∀ q, mget u.holders hall = some q → q.2 = .past) →
      exec (.turnStart hall e) s = .next (({ u with
        deficits := mset u.deficits (hall, e)
          (u.deficit hall e + ((u.encl e).weight.toNat * max 1 (u.part (u.encl e).part).quantum.toNat * 1024 : Nat))
        holders := mset u.holders hall (e, .holds) } : State).evictBorrowers hall)) ∧
    (∀ q, mget u.holders hall = some q → q.2 ≠ .past → exec (.turnStart hall e) s = .next u)) ∧
  (∀ (s : State) (hall cycles e : Nat),
    let u := s.elapse hall cycles
    (u.turnOf hall = none → exec (.turnDeficitExhausted hall cycles) s = .next u) ∧
    (u.turnOf hall = some e →
      (0 < u.deficit hall e ∨ (∀ d ∈ u.enclIds, d ≠ e → u.awaits hall d = false) →
        exec (.turnDeficitExhausted hall cycles) s = .next u) ∧
      (u.deficit hall e ≤ 0 → (∃ d ∈ u.enclIds, d ≠ e ∧ u.awaits hall d = true) →
        let v : State := { u with holders := mset u.holders hall (e, .leaves) }
        exec (.turnDeficitExhausted hall cycles) s = .next ((v.gangsOn hall e).foldl (fun s g => s.stopGang g.1 g.2) v).endTurns))) ∧
  (∀ (s : State) (l gang cycles : Nat), (s.gang l gang).state = .stopping →
    let u := s.elapse (s.gang l gang).hall cycles
    let ts := (s.gang l gang).teams
    ∀ k r, (u.rakes.find? fun r => r.2.launch == l && r.2.gang == gang) = some (k, r) →
      (r.waits ≠ 0 → u.busyUnits ts < r.waits →
        exec (.rakeAck l gang cycles) s = .next { u with rakes := mset u.rakes k { r with waits := r.waits - 1 } }) ∧
      (r.waits ≠ 0 → r.waits ≤ u.busyUnits ts → exec (.rakeAck l gang cycles) s = .next u) ∧
      (r.waits = 0 → u.busyUnits ts = 0 → u.cutPending l = false → (∀ t ∈ ts, u.waiting (.save t) = false) →
        ∀ v, (u.gang l gang).teams.foldlM State.saveTeam (((u.gang l gang).teams.map fun t => (u.team t).core).foldl State.sweepTiles u) =
          .ok v → exec (.rakeAck l gang cycles) s = .next ((v.leaveCores l gang).afterLeaving l))) ∧
  (∀ (s : State) (g : Nat) (x : Group), mget s.groups g = some x →
    exec (.handlerHoldExpiry g) s = .next (if x.stopped then s.setGroup g { x with held := false } else s)) ∧
  ∀ (s : State) (l : Nat),
    let x := s.launch l
    x.phase = .dispatched → (∀ g ∈ x.gangs, g.2.state = .finished) →
    ((∃ c ∈ s.cuts, c.2.launch = l ∧ c.2.copied = true ∧ c.2.ended = false) → exec (.launchRetire l) s = .next s) ∧
    ((∀ c ∈ s.cuts, c.2.launch = l → c.2.copied = true → c.2.ended = true) → exec (.launchRetire l) s =
      .next ((((s.setLaunch l { x with phase := .retired, status := 0 }).writeSeals l true 0).vacate l).writeDone l))

/-! Frames, faults and threads. -/

/-- The events of memory (R41, R46, R53 to R56, R60, R82, R85, R87, R88): a search corrects one flipped bit or poisons the line,
and is counted; a patrol read of a damaged line starts one; the head of the scrub queue is zeroed and joins the clean pool's
tail; a general core that waits for a frame goes on or is interrupted; a drained frame is scrubbed, or sealed out under its
version; a walk shares its hall's 16, and fills the TLBs; the oldest fault record is written at TAIL and raises the interrupt,
or sets ERR. -/
def Obligations.FramesAndFaults : Prop :=
  (∀ (s : State) (line : Nat), line ∈ s.searches →
    let u : State := { s with searches := s.searches.filter (· != line) }
    (mget s.hbm line = none → exec (.correctionSearchDone line) s = .next u) ∧
    ∀ b, mget s.hbm line = some b →
      let hits := s.searchHits line (b.bits line)
      (∀ i, hits = [i] → exec (.correctionSearchDone line) s = .next
        (({ u with mem := writeBytes s.mem (line * 64) (s.openBits line (flipBit (b.bits line) i)), hbm := mdel s.hbm line } : State).countSearch
          line true)) ∧
      ((∀ i, hits ≠ [i]) → exec (.correctionSearchDone line) s = .next ((u.poisonLine line).countSearch line false) ∧
        (u.poisonLine line).linePoisoned line = true ∧ ((u.poisonLine line).potOf (line / 64)).poison = true)) ∧
  (∀ (s : State) (line : Nat),
    let st := (s.potOf (line / 64)).state
    let copied := (∃ l ∈ s.l2, l.line = line) ∨ ∃ c ∈ s.coreLines, c.line = line
    (st = .owned ∨ st = .sharedRo → ¬ copied →
      (s.lineState line = .damaged → exec (.patrolRead line) s = .next { s.readHbm line with searches := s.searches ++ [line] }) ∧
      (s.lineState line = .fine → exec (.patrolRead line) s = .next (s.readHbm line))) ∧
    (copied ∨ (st ≠ .owned ∧ st ≠ .sharedRo) → exec (.patrolRead line) s = .next s)) ∧
  (∀ (s : State) (p frame : Nat) (rest : List (Nat × Nat)), scrubHead (s.part p).scrub = some (frame, rest) → s.mgmt.rootIntegrity = false →
    (s.carveBad = true → exec (.scrubFrame p) s = .next s.rootStop) ∧
    (s.carveBad = false → ∃ t, exec (.scrubFrame p) s = .next t ∧ (t.part p).scrub = rest ∧ (t.part p).pool = (s.part p).pool ++ [frame] ∧
      (t.potOf frame).state = .clean ∧ (t.potOf frame).part = (s.potOf frame).part ∧
      (Memory.wf s.mem = true → ∀ a, readByte t.mem a = if a / 4096 = frame then 0 else readByte s.mem a))) ∧
  (∀ (s : State) (h p : Nat), s.partOf h = some p → (s.hart h).wait = .pool →
    (exec (.cleanPoolWaitDone h true) s = .next (s.hartInterrupt h (s.waitCause p h)) ∧
      s.waitCause p h ∈ [1, 5, 9] ∧ (h ∈ (s.part p).extIrq → s.waitCause p h = 9)) ∧
    ((s.part p).pool ≠ [] →
      (s.drawsNext (s.part p) h = true → exec (.cleanPoolWaitDone h false) s = .next (s.setHart h { s.hart h with wait := .nothing })) ∧
      (s.drawsNext (s.part p) h = false → exec (.cleanPoolWaitDone h false) s = .next s)) ∧
    ((s.part p).pool = [] →
      (scrubLen (s.part p).scrub = 0 → exec (.cleanPoolWaitDone h false) s = .next (s.setHart h { s.hart h with wait := .nothing })) ∧
      (scrubLen (s.part p).scrub ≠ 0 → exec (.cleanPoolWaitDone h false) s = .next s))) ∧
  (∀ (s : State) (frame : Nat), mget s.moves frame = some .free → ∃ t, exec (.frameDrainDone frame) s = .next t ∧
    mget t.moves frame = none ∧ (t.potOf frame).state = .scrubbing ∧
    let part := (s.potOf frame).part.toNat
    (t.part part).scrub = (s.part part).scrub ++ [(frame, 1)] ∧ t.mem = s.mem) ∧
  (∀ (s : State) (frame slot buf v h : Nat) (rd : BitVec 5), mget s.moves frame = some (.out slot buf v h rd) →
    (s.searched (frame * 4096) 4096 = true ∨ s.searched buf imageLen = true → exec (.frameDrainDone frame) s = .next s) ∧
    (s.searched (frame * 4096) 4096 = false → s.searched buf imageLen = false →
      let fe := s.potOf frame
      let n := fe.owner.toNat
      let u := s.settle false (frame * 4096) 4096
      let w := u.settle true buf imageLen
      (u.masked (frame * 4096) 4096 = true → exec (.frameDrainDone frame) s =
        .next ((u.setPot frame { u.potOf frame with state := .owned }).endOut frame h rd 0x0E 0)) ∧
      (u.masked (frame * 4096) 4096 = false → w.masked buf imageLen = false →
        let image := imageOf (Config.keyBits (u.encl n).keyPage) n fe.evpn.toNat v fe.meas (readBytes u.mem (frame * 4096) 4096)
        let w := w.poke buf image
        let slotted := w.setPot slot ⟨BitVec.ofNat 32 v, fe.evpn, fe.owner, .paged, 0, (w.potOf slot).part, false, false⟩
        exec (.frameDrainDone frame) s = .next ((slotted.toScrub frame).endOut frame h rd 0x00 v)))) ∧
  (∀ (s : State) (hall e : Nat) (va : BitVec 64) (l : Leaf),
    let x := s.encl e
    let walk := (hall, e, low48 va / 4096)
    canonical va = true → x.state = .measured → hall ∈ (s.part x.part).halls →
    (walk ∉ s.walks →
      ((s.walks.filter fun w => w.1 == hall).length < 16 → exec (.hallTlbWalk hall e va) s = .next { s with walks := s.walks ++ [walk] }) ∧
      (16 ≤ (s.walks.filter fun w => w.1 == hall).length → exec (.hallTlbWalk hall e va) s = .next s)) ∧
    (walk ∈ s.walks → s.walkFrom x.part (low48 va) 4 (x.root.toNat * 4096) 1 = .leaf l →
      ∀ pa, s.checkLeaf e va .load 1 l = .ok pa l →
      let filled := fun (unit : Nat) => (⟨unit, e, low48 va / 4096, l.ppn, l.size, l.w, l.x, l.cls⟩ : TlbEntry)
      ∃ w, exec (.hallTlbWalk hall e va) s = .next { s with walks := s.walks.filter (· != walk), tlb := w } ∧
        filled (hallTlb hall) ∈ w ∧ (∀ t ∈ s.tlb, t ∈ w) ∧ ∀ t ∈ w, t ∈ s.tlb ∨ ∃ unit, t = filled unit)) ∧
  (∀ (s : State) (g p : Nat), ∃ l, exec (.movingWaitEnd g p) s = .next { s with moving := l } ∧ ∀ q, q ∈ l ↔ q ∈ s.moving ∧ q ≠ (g, p)) ∧
  (∀ (s : State) (p k : Nat) (r : FaultRec),
    let x := s.part p
    (x.recs.find? fun r => r.2.seq.isNone) = some (k, r) →
    let size := 2 ^ (min (x.fqBase.extractLsb' 0 4).toNat 10 + 6)
    let pa := (x.fqBase.extractLsb' 12 40).toNat * 4096 + x.fqTail.toNat % size * 32
    let open_ := x.fqBase.getLsbD 63 = true ∧ x.fqBase.getLsbD 62 = false ∧ (x.fqTail - x.fqHead).toNat < size
    (¬ open_ → exec (.faultRecordPost p) s = .next s) ∧
    (open_ → s.osFrame p (pa / 4096) = false ∨ s.masked pa 32 = true →
      exec (.faultRecordPost p) s = .next (s.setPart p { x with fqBase := x.fqBase ||| 0x4000000000000000#64 })) ∧
    (open_ → s.osFrame p (pa / 4096) = true → s.masked pa 32 = false → s.linesState true pa 32 = .fine →
      ∃ t, exec (.faultRecordPost p) s = .next t ∧ t.mem = (s.poke pa (r.bytes x.faultSeq)).mem ∧
        let y := t.part p
        y.fqTail = x.fqTail + 1 ∧ y.faultSeq = x.faultSeq + 1 ∧
        (r.kind.fatal = false → mget y.recs k = some { r with seq := some x.faultSeq }) ∧ (r.kind.fatal = true → mget y.recs k = none) ∧
        ((x.fqBase.extractLsb' 56 6).toNat ∈ x.cores → (x.fqBase.extractLsb' 56 6).toNat ∈ y.extIrq) ∧
        ∀ e, e ∈ t.tlb ↔ e ∈ s.tlb ∧ ¬ (e.enclave = r.enclave ∧ overlaps e.pages (r.va.toNat / 4096, 1) = true)))

/-- The ends of an enclave and of a thread's stay (R28, R30, R390): an enclave in DYING without a frame or slot returns to NONE,
and nothing of its world is left; an interrupt seals the thread with its registers and pc and is taken at its ENC.ENTER, with
the registers outside. -/
def Obligations.EnclaveEnds : Prop :=
  (∀ (s : State) (e : Nat), (s.encl e).state = .dying →
    (∀ q ∈ s.pot, q.2.owner.toNat = e → q.2.state ≠ .moving ∧ q.2.state ≠ .paged ∧ q.2.state ≠ .owned) →
    ∃ t, exec (.enclaveRelease e) s = .next t ∧ (t.encl e).state = .none ∧ (∀ f, f ≠ e → t.encl f = s.encl f) ∧
      (∀ l, l ∈ t.l2 ↔ l ∈ s.l2 ∧ l.world ≠ e) ∧ (∀ l, l ∈ t.tlb ↔ l ∈ s.tlb ∧ l.enclave ≠ e) ∧
      (∀ q, q ∈ t.trans ↔ q ∈ s.trans ∧ q.2.enclave ≠ e) ∧ (∀ q, q ∈ t.streams ↔ q ∈ s.streams ∧ q.2.enclave ≠ e) ∧
      (∀ q, q ∈ t.ides ↔ q ∈ s.ides ∧ q.2.enclave ≠ e) ∧ (∀ q, q ∈ t.colls ↔ q ∈ s.colls ∧ q.2.enclave ≠ e) ∧ t.mem = s.mem ∧
      t.pot = s.pot) ∧
  (∀ (s : State) (e : Nat), (s.encl e).state ≠ .dying ∨ (∃ q ∈ s.pot, q.2.owner.toNat = e ∧ q.2.state = .moving) →
    exec (.enclaveRelease e) s = .next s) ∧
  ∀ (s : State) (h : Nat) (cause : BitVec 64) (n : Inside), (s.hart h).inside = some n → ∃ t,
    exec (.enclaveThreadInterrupt h cause) s = .next t ∧
    (let x := s.hart h
     let y := t.hart h
     y.inside = none ∧ y.regs = n.outer ∧ y.sepc = n.enter ∧ y.scause = cause ||| 0x8000000000000000#64 ∧ y.stval = 0 ∧ y.mode = .hs ∧
       y.spp = true ∧ y.spv = false ∧ y.spie = x.sie ∧ y.sie = false ∧
       y.pc = (x.stvec &&& ~~~3#64) + (if x.stvec.extractLsb' 0 2 = 1 then 4 * (cause &&& 0x7FFFFFFFFFFFFFFF#64) else 0)) ∧
    mget (t.encl n.enclave).threads n.thread =
      some { (s.encl n.enclave).thread n.thread with started := true, regs := (s.hart h).regs, pc := (s.hart h).pc }

/-! Engines, ejected paths and translations. -/

/-- The progress of engine operations (R79, R121, R127, R132, R133, R135, R149): a granule that may land is performed by its
class; an operation whose steps are all done completes with OK, or CLIPPED, and one whose stop was asked for ends with
CANCELLED; a path that waits at issue has the next turn. Ejected paths, landings and translations (R189, R192, R193, R198, R209,
R219): the lanes of an ejected path execute when the hand-over is done, arrive when the copy-back is done, and are on the core
again when a recall is done, unless the landing stack is full, and take the trap that they were recalled for; all of this but
such a trap goes on while a handler has the group frozen. A landing timer parks the waiting lanes or raises JOIN_TIMEOUT. A
translation is installed; one that has been marked meanwhile only has its cycles charged. -/
def Obligations.EnginesAndTranslations : Prop :=
  (∀ (s : State) (k : Nat) (o : EngOp), mget s.ops k = some o →
     let t := s.team o.team
     let u := (s.beginRows k o).1
     let q := (s.beginRows k o).2
     (o.cls ≠ 1 ∨ o.rows.length = numOf o.vals 3 → u = s ∧ q = o) ∧
     (∀ n, q.status = futPending → n < q.total → q.did n = false → t.resident = true → s.waiting (.eng k) = false →
       (q.cancel = true → q.cls < 2 → n < q.started) → (q.cls < 3 → s.coreStalled t.core = false) → s.replayLater t.core (.eng k) = false →
       (q.cls < 3 → t.core ∈ s.coreErrs → exec (.engineGranuleLand k n) s = .next (u.arrayFault t.core)) ∧
       ((q.cls < 3 → t.core ∉ s.coreErrs) →
         let v := (u.replayed (.eng k)).coreRead t.core
         let lands := fun (w : State) => exec (.engineGranuleLand k n) s = .next w
         (q.cls = 0 → lands (v.stepOp k n q (if q.sub % 8 < 4 then v.linearStep k q n else v.tensorStep k q n))) ∧
         (q.cls = 1 → lands (v.stepOp k n q (if q.sub % 8 = 1 then v.scatterStep k q n else v.gatherStep k q n))) ∧
         (q.cls = 2 → lands (v.matrixStep k q n)) ∧ (q.cls = 3 → lands (v.collStep k q n)) ∧ (q.cls = 4 → lands (v.sealStep k q n)))) ∧
     (∀ n, q.status ≠ futPending ∨ q.total ≤ n ∨ q.did n = true ∨ t.resident = false ∨ s.waiting (.eng k) = true →
       exec (.engineGranuleLand k n) s = .next u) ∧
     (o.status = futPending → t.resident = true → s.waiting (.eng k) = false → o.cls < 5 →
       (o.cls = 3 → exec (.engineOpComplete k) s = .next (s.collFinish k o)) ∧
       (o.cls ≠ 3 → o.cancel = true →
         (o.cls = 2 → exec (.engineOpComplete k) s = .next (s.matrixCancel k o)) ∧
         (o.cls ≠ 2 →
           ((∀ n, n < o.started → o.did n = true) → exec (.engineOpComplete k) s = .next (s.finishOp k futCancelled)) ∧
           ((∃ n, n < o.started ∧ o.did n = false) → exec (.engineOpComplete k) s = .next s))) ∧
       (o.cls ≠ 3 → o.cancel = false → (∀ n, n < o.total → o.did n = true) → (o.cls = 2 → s.mayRun k o = true) →
         exec (.engineOpComplete k) s = .next (s.finishOp k (if o.clipped then futClipped else futOK))) ∧
       (o.cls ≠ 3 → o.cancel = false → (∃ n, n < o.total ∧ o.did n = false) → exec (.engineOpComplete k) s = .next s)) ∧
     ∀ g p, exec (.engineIssueResume g p) s = .next { s with turns := .path g p :: s.turns }) ∧
  ((∀ (s : State) (gid pid : Nat) (x : Exe),
     let g := s.group gid
     let running := match g.handler with
       | none => s
       | some h => s.setGroup gid { g with ctx := h.frozen, handler := none }
     let back := fun (u : State) => match g.handler with
       | none => u
       | some h => u.setGroup gid { u.group gid with ctx := g.ctx, handler := some { h with frozen := (u.group gid).ctx } }
     running.exeOf gid pid = some x →
     let y : Exe := { x with s := running }
     let moves := fun (p : Place) => running.setGroup gid (x.g.setPath pid { x.p with place := p })
     (∀ k, x.p.place = .handing k → exec (.ejectHandoverDone gid pid) s = .next (back (moves (.gallery k)))) ∧
     (∀ k r, x.p.place = .copying k → x.p.pend.head?.bind x.g.ctx.rcd = some r →
       exec (.copyBackDone gid pid) s = .next (back (y.land r))) ∧
     (g.handler ≠ none → x.p.owed ≠ none → exec (.recallDone gid pid) s = .next s) ∧
     (g.handler = none ∨ x.p.owed = none →
       let recalled := (running.setGroup gid y.recalled).settleGroup gid
       let reject : Path := { x.p with place := .gallery 0, owed := none }
       (x.p.place = .recalling 32 → exec (.recallDone gid pid) s = .next (back y.reeject)) ∧
       (∀ k, k ≠ 32 → x.p.place = .recalling k →
         (x.g.ctx.recallOverflows = true →
           exec (.recallDone gid pid) s = .next (back (running.setGroup gid (x.g.setPath pid { reject with place := .gallery k })))) ∧
         (x.g.ctx.recallOverflows = false →
           (x.p.owed = none → exec (.recallDone gid pid) s = .next (back recalled)) ∧
           ∀ t, x.p.owed = some t → exec (.recallDone gid pid) s = .next (back
             (recalled.takeTrapOr gid pid { x.p with place := .core } t fun fn => running.awaitTrans gid pid fn x.p)))) ∧
       (x.p.place = .core →
         ∀ i ∈ [Instr.ejectHandoverDone gid pid, .copyBackDone gid pid, .recallDone gid pid], exec i s = .next (back running)))) ∧
   (∀ (s : State) (gid u : Nat) (r : LandRec),
     let g := s.group gid
     g.ctx.rcd u = some r → r.timer = true → g.handler = none → g.stopped = false →
     let team := s.team g.team
     let l := s.launch team.launch
     (l.watchdog = false → exec (.landingTimerExpiry gid u) s =
       .next (s.setGroup gid { g with ctx := g.ctx.setRcd { r with timer := false } })) ∧
     (l.watchdog = true →
       let p : Path := Path.start r.join r.arrived (modeMerge r.modes) (r.uid :: r.outer) none .core
       exec (.landingTimerExpiry gid u) s = .next
         ((s.setGroup gid { g with ctx := g.ctx.setRcd { r with timer := false, away := true } }).takeTrapOr gid (r.waits.headD g.fresh) p
           ⟨6, r.arrived, 0, (lanesOf r.arrived).map fun k => (k, [])⟩
           fun fn => s.askTrans l.enclave l.obj fn g.width (l.budget g.role) (team.core / 8)))) ∧
   ∀ (s : State) (e fn width budget n : Nat) (hdr : BitVec 64) (b : Building),
     (s.building.filter fun b => b.2.enclave == e && b.2.fn == fn && b.2.width == width && b.2.budget == budget &&
       ((mget s.objs b.2.obj).map CodeObj.header) == some hdr) = [(n, b)] →
     let u : State := { s with building := mdel s.building n }
     ∀ o f v bs, mget s.objs b.obj = some o → s.fnEntry b.obj fn = some f → u.hwTake (some (hallTlb b.hall)) e f.entry .code f.len = .ok (v, bs) →
       let t := graftOf e b.obj o fn f width budget b.hall (wordsIn bs)
       (b.marked = true → exec (.translationDone e hdr fn width budget) s = .next (v.chargeGraft t)) ∧
       (b.marked = false → s.findTrans e b.obj fn width budget b.hall = none →
         exec (.translationDone e hdr fn width budget) s = .next (v.install t)))

/-! Links and streams. -/

/-- Flits (R20, R67, R156 to R159, R163): a flit in its turn, under the stream's generation and with its tag, is accepted, and
the sequence advances; a request is performed against the local POT and answered, or refused, or waits for a frame in MOVING; a
response completes the access that it names; a contribution enters its meeting. A flit out of turn, with a bad CRC or with a
first bad tag is asked for again; a second bad tag tears the stream down. The life of streams (R155, R156, R158 to R161, R120):
a teardown ends the work that used the stream; a retry leaves the sequences as they are; a port with a stream of 16 retries for
one flit goes down with its streams; keying refuses a peer of another P or a repeated F, waits for what is in flight, and brings
a stream up under the next generation, a fresh key and zero sequences; a device interface is bound afresh, and reads and writes
the memory of its enclave alone. -/
def Obligations.LinksAndStreams : Prop :=
  (∀ (s : State) (f : Flit) (t : Stream) (c : Contrib), mget s.streams f.stream = some t →
     let u := s.setStream f.stream { t with rx := t.rx + 1, retries := 0, tagFailed := false }
     let again := fun (tag : Bool) => s.setStream f.stream { t with retries := t.retries + 1, tagFailed := tag }
     let live := t.state = .up ∧ t.retries < 16
     let inTurn := f.crcOk = true ∧ f.keygen = t.keygen ∧ f.seq = t.rx
     let pa := f.va.toNat % 2 ^ 48
     let n := match f.atomic with
       | none => f.data.length
       | some a => bytesOf a.t.ty
     let write := f.write || f.atomic.isSome
     let answers := fun (v : State) (bs : List Byte) => exec (.requestFlit f) s = .next (v.sendFlit f.stream 2 false (BitVec.ofNat 64 f.seq) bs none)
     (live → inTurn → s.tagOk t f = true →
       (f.kind = 1 → t.spent = true → exec (.requestFlit f) s = .next s) ∧
       (f.kind = 1 → t.spent = false →
         ((∃ p ∈ pagesAt pa n, (s.potOf p).state = .moving) → exec (.requestFlit f) s = .next s) ∧
         ((∀ p ∈ pagesAt pa n, (s.potOf p).state ≠ .moving) →
           ((∃ p ∈ pagesAt pa n, s.farPage t.enclave p write = false) → answers u []) ∧
           ((∀ p ∈ pagesAt pa n, s.farPage t.enclave p write = true) → s.linesState write pa n = .fine →
             (f.atomic = none → f.write = false → answers u (readBytes s.mem pa n)) ∧
             (f.atomic = none → f.write = true → answers (u.poke pa f.data) (readBytes s.mem pa n)) ∧
             (∀ a, f.atomic = some a →
               answers (u.poke pa (leBytes n (atomNew a.op a.t a.mode (leNat (readBytes s.mem pa n)) a.v a.v2))) (readBytes s.mem pa n))))) ∧
       (f.kind = 2 → ∀ k r, (s.far.find? fun q => q.2.via == .link f.stream && q.2.seq == f.va.toNat) = some (k, r) →
         exec (.responseFlit f) s = .next (u.farDone k f.data)) ∧
       (f.kind = 3 → ∀ g, mget s.colls c.group = some g → g.enclave = t.enclave → t.peer ∈ g.members → g.state = .valid ∨ g.state = .building →
         (g.state = .valid ∨ noticeStatus c.form = none →
           exec (.collectiveFlit f c) s = .next { u with colls := mset s.colls c.group (g.receive t.peer c f.data) }) ∧
         (g.state = .building → ∀ st, noticeStatus c.form = some st → exec (.collectiveFlit f c) s =
           .next (({ u with colls := mset s.colls c.group { g with state := .invalid } } : State).finishOp g.build st)))) ∧
     (∀ i ∈ [(1, Instr.requestFlit f), (2, .responseFlit f), (3, .collectiveFlit f c)], f.kind = i.1 →
       (t.state ≠ .up → exec i.2 s = .next s) ∧
       (live → (f.crcOk = false → exec i.2 s = .next (again t.tagFailed)) ∧
         (f.crcOk = true → f.keygen ≠ t.keygen ∨ f.seq < t.rx → exec i.2 s = .next s) ∧
         (f.crcOk = true → f.keygen = t.keygen → t.rx < f.seq → exec i.2 s = .next (again t.tagFailed)) ∧
         (inTurn → s.tagOk t f = false → t.tagFailed = false → exec i.2 s = .next (again true)) ∧
         (inTurn → s.tagOk t f = false → t.tagFailed = true →
           exec i.2 s = .next ((s.sendFlit f.stream 4 false 0 [] none).streamDown f.stream))))) ∧
  ((∀ (s : State) (n : Nat) (t : Stream), mget s.streams n = some t →
     (t.state = .down → exec (.teardownFlit n) s = .next s) ∧
     (t.state ≠ .down →
       let u := (s.setStream n { t with state := .down, retries := 0, tagFailed := false, asked := (0, 0) }).cutWork t.enclave (.link n)
       (u.streamUp t.enclave t.peer ≠ none → exec (.teardownFlit n) s = .next u) ∧
       (u.streamUp t.enclave t.peer = none →
         exec (.teardownFlit n) s = .next ((u.collsWith t.enclave t.peer).foldl State.collLink u))) ∧
     (t.state = .up → ∀ seq, exec (.flitRetry n seq) s = .next (s.setStream n { t with
       asked := (seq, if t.asked.1 = seq then t.asked.2 + 1 else 1), retried := t.retried + 1 })) ∧
     (t.state ≠ .up → ∀ seq, exec (.flitRetry n seq) s = .next s)) ∧
   (∀ (s : State) (port : Nat),
     let mine := s.streams.filter fun t => t.2.port == port && t.2.state != .down
     ((∃ t ∈ mine, 16 ≤ t.2.retries ∨ 16 ≤ t.2.asked.2) → exec (.linkPortDown port) s =
       .next ((mine.map Prod.fst).foldl State.streamDown { s with funcs := mset s.funcs (.link port) (.failed 0) })) ∧
     ((∀ t ∈ mine, t.2.retries < 16 ∧ t.2.asked.2 < 16) → exec (.linkPortDown port) s = .next s)) ∧
   (∀ (s : State) (n e peer p dev : Nat),
     let known := { s with peers := mset s.peers peer dev }
     let keys := fun (done : Bool) (t : State) => exec (.streamKeying n e ⟨peer, p, dev, done⟩) s = .next t
     (p ≠ s.fabricP ∨ peer = s.fabricF ∨ (∃ q ∈ s.peers, (q.1 = peer ∧ q.2 ≠ dev) ∨ (q.1 ≠ peer ∧ q.2 = dev)) → ∀ done, keys done s) ∧
     (s.peerOk e peer p dev = true → s.readyPorts ≠ [] →
       (mget s.streams n = none → s.streams.length < 1024 → n < 65536 → ∃ port ∈ s.readyPorts,
         keys false (known.setStream n ⟨e, peer, port, .keying, 0, 0, 0, 0, false, (0, 0), 0, 0⟩)) ∧
       (∀ t, mget s.streams n = some t → t.enclave = e → t.peer = peer →
         (t.state ≠ .keying → s.inFlight n t = true → keys false known) ∧
         (t.state ≠ .keying → s.inFlight n t = false → ∃ port ∈ s.readyPorts, (t.port ∈ s.readyPorts → port = t.port) ∧
           keys false (known.setStream n { t with state := .keying, port := port })) ∧
         (t.state = .keying → keys true (({ known with keys := s.keys + 1 } : State).setStream n
           ⟨e, peer, t.port, .up, t.keygen + 1, 0, 0, 0, false, (0, 0), t.retried, s.keys⟩)) ∧
         (t.state ≠ .keying → keys true known)))) ∧
   (∀ (s : State) (k : Nat) (d : Ide), mget s.ides k = some d →
     (d.state ≠ .down → exec (.ideStreamFailure k) s =
       .next ((s.setIde k { d with state := .down, run := false }).cutWork d.enclave (.ide k))) ∧
     (d.state = .down → exec (.ideStreamFailure k) s = .next s) ∧
     (∀ write va data, d.state ≠ .up ∨ d.run = false → exec (.ideStreamRequest k write va data) s = .next s) ∧
     (∀ write va data, d.state = .up → d.run = true → data ≠ [] → ∀ ps,
       (pageRuns (data.length / 4096 + 2) va data.length).mapM (fun r =>
         match s.translate none d.enclave r.1 (if write then .store else .load) r.2 with
         | .ok pa leaf => some (pa, leaf.cls, r.2)
         | _ => none) = some ps →
       (write = true → exec (.ideStreamRequest k write va data) s = .next (s.writePieces ps data)) ∧
       (write = false → exec (.ideStreamRequest k write va data) s = .next (s.setIde k { d with answer := s.readPieces ps })))) ∧
   (∀ (s : State) (k e : Nat) (run : Bool), k < 64 → (s.encl e).state = .measured → s.fnState .pcie = .ready →
     exec (.tdispBinding k e run) s = .next ((s.ideDown k).setIde k ⟨e, .up, run, []⟩)) ∧
   ∀ (s : State) (k : Nat) (r : FarReq) (ok : Bool) (data : List Byte), mget s.far k = some r →
     (∀ d, r.via = .ide d → exec (.ideStreamCompletion k ok data) s = .next (s.farDone k (if ok then data else []))) ∧
     (∀ n, r.via = .link n → exec (.ideStreamCompletion k ok data) s = .next s))

/-! The custom-0 instructions of general cores. -/

/-- Who may execute what (R387): the instructions of the operating system run in HS-mode outside of any enclave, ENC.EXIT,
ENC.REPORT and ENC.XCTL inside of one; elsewhere they take the illegal-instruction exception, in VS-mode and VU-mode the
virtual-instruction exception, with the pc of the instruction saved and no other effect; a thread is taken out of its enclave
first. -/
def Obligations.CustomInstructionModes : Prop :=
  ∀ (s : State) (p : Nat) (rd rs1 rs2 : BitVec 5), s.HartFree p →
    let h := s.curHart
    let x := s.hart h
    let os := [Instr.encCreate rd rs1 rs2, .encAddpage rd rs1 rs2, .encMeasure rd rs1, .encEnter rd rs1, .encDestroy rd rs1, .pageOut rd rs1 rs2,
      .pageInClean rd rs1 rs2, .pageInImage rd rs1 rs2, .pageInShare rd rs1, .pageFree rd rs1, .faultResolve rd rs1, .faultKill rd rs1 rs2]
    let thread := [Instr.encExit rd rs1, .encReport rd rs1 rs2, .encReportRk rd rs1 rs2, .encXctlInv rd rs1 rs2, .encXctlPfCore rd rs1 rs2,
      .encXctlPfHall rd rs1 rs2, .encXctlPinCore rd rs1 rs2, .encXctlPinHall rd rs1 rs2, .encXctlUnpinCore rd rs1 rs2, .encXctlUnpinHall rd rs1 rs2]
    (∀ i, i ∈ thread ∨ (i ∈ os ∧ x.mode ≠ .hs) → x.inside = none →
      let u := s.setHart h { x with
        sepc := x.pc, scause := if x.mode = .vs ∨ x.mode = .vu then 22 else 2, stval := 0
        spp := x.mode == .hs || x.mode == .vs, spv := x.mode == .vs || x.mode == .vu, spie := x.sie, sie := false, mode := .hs
        pc := x.stvec &&& ~~~3#64, answer := none }
      exec i s = .next { u with
        requests := u.requests.filter (· != h), poolWaits := u.poolWaits.filter (· != h), far := u.far.filter fun q => q.2.who != .hart h }) ∧
    ∀ i ∈ os, ∀ n, x.inside = some n → ∃ t, exec i s = .next t ∧ (t.hart h).inside = none ∧ (t.hart h).sepc = n.enter ∧
      (t.hart h).regs = n.outer ∧ (t.hart h).pc = x.stvec &&& ~~~3#64

/-- The lifecycle and the threads of enclaves (R24 to R29, R31, R388, R390, R391, R392): each instruction completes with its
status and value. CREATE takes a fresh identifier and the lowest free key slot; ADDPAGE and MEASURE extend the measurement;
ENTER starts a thread at 0x1000 with its number in a0, or lets it go on; EXIT seals it behind itself and completes the
ENC.ENTER; REPORT writes the signed report, REPORT.RK under a fresh key; XCTL acts for every core of the partition; DESTROY ends
the launches, frees the pages and leaves the enclave DYING. -/
def Obligations.EnclaveInstructions : Prop :=
  ∀ (s : State) (p : Nat) (rd rs1 rs2 : BitVec 5), s.HartFree p →
    let h := s.curHart
    let x := s.hart h
    let a := x.reg rs1
    let b := x.reg rs2
    let status := fun (i : Instr) (st : Nat) => exec i s = .next (s.answered h rd st 0)
    (x.inside = none → x.mode = .hs →
      (let i := Instr.encCreate rd rs1 rs2
       (a.extractLsb' 40 24 ≠ 0 → status i 0x15) ∧
       (a.extractLsb' 40 24 = 0 →
         ((∀ k, 1 ≤ k → k ≤ 4095 → ∃ q ∈ s.encls, q.2.keySlot = k) → status i 0x02) ∧
         (∀ slot, 1 ≤ slot → slot ≤ 4095 → (∀ q ∈ s.encls, q.2.keySlot ≠ slot) →
           (∀ k, 1 ≤ k → k < slot → ∃ q ∈ s.encls, q.2.keySlot = k) →
           (s.osFrame p a.toNat = false → status i 0x03) ∧
           (s.osFrame p a.toNat = true → b ≠ 0 → status i 0x04) ∧
           (s.osFrame p a.toNat = true → b = 0 → s.encls.length < 65535 → ∃ e, 1 ≤ e ∧ e ≤ 65535 ∧ (∀ q ∈ s.encls, q.1 ≠ e) ∧
             exec i s = .next (State.answered { s with
               encls := mset s.encls e (newEnclave p a.toNat slot s.keys), keys := s.keys + 5 } h rd 0 e))))) ∧
      (let i := Instr.encAddpage rd rs1 rs2
       let n := (a.extractLsb' 48 16).toNat
       let src := (a.extractLsb' 0 40).toNat
       let vpn := (b.extractLsb' 0 36).toNat
       (s.enclIn p n = none ∨ a.extractLsb' 40 8 ≠ 0 → status i 0x15) ∧
       ∀ e, s.enclIn p n = some e → a.extractLsb' 40 8 = 0 →
         (e.state ≠ .building → status i 0x01) ∧
         (e.state = .building →
           (s.osFrame p src = false ∨ (s.potOf src).poison = true → status i 0x05) ∧
           (s.osFrame p src = true → (s.potOf src).poison = false → s.searched (src * 4096) 4096 = false →
             let u := s.settle false (src * 4096) 4096
             u.masked (src * 4096) 4096 = false →
             (u.vpnHeld n vpn = true → exec i s = .next (u.answered h rd 0x06 0)) ∧
             (u.vpnHeld n vpn = false → e.h.toNat = 0xFFFFFFFF → exec i s = .next (u.answered h rd 0x07 0)) ∧
             (∀ f rest, u.vpnHeld n vpn = false → e.h.toNat ≠ 0xFFFFFFFF → (u.part p).pool = f :: rest → u.drawsNext (u.part p) h = true →
               let bs := readBytes u.mem (src * 4096) 4096
               let v := (u.setPart p { u.part p with pool := rest }).ownFrame f n vpn (e.h.toNat + 1) e.gen true bs
               exec i s = .next ((v.setEncl n { e with h := e.h + 1, m := extend e.m (addpageRecord vpn bs) }).answered h rd 0 f))))) ∧
      (let i := Instr.encMeasure rd rs1
       (s.enclIn p a.toNat = none → status i 0x15) ∧
       ∀ e, s.enclIn p a.toNat = some e → (e.state ≠ .building → status i 0x01) ∧
         (e.state = .building →
           exec i s = .next ((s.setEncl a.toNat { e with state := .measured, m := extend e.m measureRecord }).answered h rd 0 0))) ∧
      (let i := Instr.encEnter rd rs1
       let n := (a.extractLsb' 0 16).toNat
       let t := (a.extractLsb' 16 6).toNat
       (s.enclIn p n = none ∨ a.extractLsb' 22 42 ≠ 0 → status i 0x15) ∧
       ∀ e, s.enclIn p n = some e → a.extractLsb' 22 42 = 0 → (e.state ≠ .measured → status i 0x01) ∧
         (e.state = .measured → ((e.thread t).dead = true → status i 0x14) ∧
           ((e.thread t).dead = false →
             let inside := ∃ q ∈ s.harts, ∃ k, q.2.inside = some k ∧ k.enclave = n ∧ k.thread = t
             (inside → status i 0x09) ∧
             (¬ inside → exec i s = .next (((s.setEncl n (e.setThread t { e.thread t with started := true })).setHart h { x with
               regs := if (e.thread t).started then (e.thread t).regs else [(10, BitVec.ofNat 64 t)]
               pc := if (e.thread t).started then (e.thread t).pc else 0x1000
               mode := .u, more := (e.thread t).more, inside := some ⟨n, t, x.pc, rd, x.regs, x.more⟩ }).served h))))) ∧
      (let i := Instr.encDestroy rd rs1
       let n := a.toNat
       (s.enclIn p n = none → status i 0x15) ∧
       ∀ e, s.enclIn p n = some e → (e.state = .dying → status i 0x01) ∧
         (e.state = .building ∨ e.state = .measured →
           (s.inhabited n = true → status i 0x09) ∧
           (s.inhabited n = false →
             let u := (((s.launches.filter fun l => l.2.enclave == n).map Prod.fst).foldl (fun u l => u.endLaunch l 0x15 0 0 0) s)
             let v := (u.freePages n).discardFaults p n
             exec i s = .next ((v.setEncl n { v.encl n with state := .dying }).answered h rd 0 0))))) ∧
    ∀ n, x.inside = some n →
      (let i := Instr.encExit rd rs1
       (a.extractLsb' 48 16 ≠ 0 → status i 0x15) ∧
       (a.extractLsb' 48 16 = 0 → ∃ t, exec i s = .next t ∧
         t.hart h = { ({ x with regs := n.outer } : Hart).setReg n.rd a with
           pc := n.enter + 4, mode := .hs, inside := none, more := n.outerMore, answer := none } ∧
         mget (t.encl n.enclave).threads n.thread =
           some { (s.encl n.enclave).thread n.thread with started := true, regs := x.regs, pc := x.pc + 4, more := x.more })) ∧
      (∀ q ∈ [(false, Instr.encReport rd rs1 rs2), (true, Instr.encReportRk rd rs1 rs2)],
        let e := s.encl n.enclave
        (a.extractLsb' 1 5 ≠ 0 ∨ b.toNat % 4096 ≠ 0 → status q.2 0x15) ∧
        (a.extractLsb' 1 5 = 0 → b.toNat % 4096 = 0 → e.state = .measured →
          (q.1 = true → s.oldFrames n.enclave = true → status q.2 0x0A) ∧
          (q.1 = false ∨ s.oldFrames n.enclave = false → ∀ ps qs ps' qs',
            s.locate none n.enclave (a &&& ~~~0x3F#64) .load 64 = .ok ps → s.locate none n.enclave b .store 4096 = .ok qs →
            localPieces ps = some ps' → localPieces qs = some qs' →
            let y := if q.1 then { e with gen := e.gen + 1, keyPrev := some e.keyMem, keyMem := s.keys } else e
            let u := State.setEncl { s with keys := if q.1 then s.keys + 3 else s.keys } n.enclave y
            exec q.2 s = .next (((u.dropOldKey n.enclave).writePieces qs' (reportOf (a.getLsbD 0) n.enclave y (s.readPieces ps'))).answered h rd 0 y.gen.toNat)))) ∧
      ∀ q ∈ [(Instr.encXctlInv rd rs1 rs2, XctlForm.inv), (.encXctlPfCore rd rs1 rs2, .pf), (.encXctlPfHall rd rs1 rs2, .pf),
          (.encXctlPinCore rd rs1 rs2, .pin false), (.encXctlPinHall rd rs1 rs2, .pin true), (.encXctlUnpinCore rd rs1 rs2, .unpin false),
          (.encXctlUnpinHall rd rs1 rs2, .unpin true)],
        let len := (b.extractLsb' 0 31).toNat
        (canonical a = false → status q.1 0x15) ∧ (canonical a = true → len = 0 → status q.1 0) ∧
        (canonical a = true → len ≠ 0 → ∀ u room,
          s.xctl n.enclave ((s.part p).halls.flatMap fun k => (List.range 8).map (8 * k + ·)) none (s.formsOf n.enclave) (low48 a, len) q.2 =
            .ok (u, room) → exec q.1 s = .next (u.answered h rd (if room then 0 else 0x16) 0))

/-- The paging and fault instructions (R49, R50, R53 to R60, R388, R432): PAGE.OUT puts its frame in MOVING under the next
version and waits; PAGE.IN draws a clean frame and installs zeros, or the page of an image that is whole, of this slot and
current; PAGE.IN.SHARE makes a frame SHARED_RO; PAGE.FREE frees a frame or a slot. FAULT.RESOLVE closes a record, FAULT.KILL
ends its launches first. A check that fails answers with its status and changes nothing. -/
def Obligations.PagingAndFaultInstructions : Prop :=
  ∀ (s : State) (p : Nat) (rd rs1 rs2 : BitVec 5), s.HartFree p →
    let h := s.curHart
    let x := s.hart h
    let a := x.reg rs1
    let b := x.reg rs2
    let status := fun (i : Instr) (st : Nat) => exec i s = .next (s.answered h rd st 0)
    let frame := (a.extractLsb' 0 28).toNat
    x.inside = none → x.mode = .hs →
      (let i := Instr.pageOut rd rs1 rs2
       let slot := (a.extractLsb' 28 28).toNat
       let buf := (b.extractLsb' 0 52).toNat
       let fe := s.potOf frame
       let e := s.encl fe.owner.toNat
       (a.extractLsb' 56 8 ≠ 0 ∨ fe.part.toNat ≠ p ∨ (s.potOf slot).part.toNat ≠ p → status i 0x15) ∧
       (a.extractLsb' 56 8 = 0 → fe.part.toNat = p → (s.potOf slot).part.toNat = p →
         (fe.state ≠ .owned ∨ fe.owner = 0 → status i 0x0B) ∧
         (fe.state = .owned → fe.owner ≠ 0 →
           (e.state ≠ .measured → status i 0x01) ∧
           (e.state = .measured → (s.potOf slot).state ≠ .free → status i 0x0C) ∧
           (e.state = .measured → (s.potOf slot).state = .free → s.bufferOk p buf = false → status i 0x0D) ∧
           (e.state = .measured → (s.potOf slot).state = .free → s.bufferOk p buf = true →
             (fe.poison = true → status i 0x0E) ∧ (fe.poison = false → e.h.toNat = 0xFFFFFFFF → status i 0x07) ∧
             (fe.poison = false → e.h.toNat ≠ 0xFFFFFFFF → ∃ t, exec i s = .next t ∧ (t.potOf frame).state = .moving ∧
               (t.encl fe.owner.toNat).h.toNat = e.h.toNat + 1 ∧ (t.hart h).wait = .drain ∧ (t.hart h).pc = x.pc ∧
               mget t.moves frame = some (.out slot buf (e.h.toNat + 1) h rd) ∧ t.mem = s.mem))))) ∧
      (let i := Instr.pageInClean rd rs1 rs2
       let n := (a.extractLsb' 0 16).toNat
       let vpn := (b.extractLsb' 0 36).toNat
       (a.extractLsb' 16 48 ≠ 0 → status i 0x15) ∧
       (a = 0 → ∀ f rest, (s.part p).pool = f :: rest →
         (s.drawsNext (s.part p) h = true → exec i s =
           .next (((s.setPart p { s.part p with pool := rest }).ownFrame f 0 0 0 0 false []).answered h rd 0 f)) ∧
         (s.drawsNext (s.part p) h = false → exec i s = .next ((s.awaitsFrame h).served h))) ∧
       (a = 0 → (s.part p).pool = [] → (scrubLen (s.part p).scrub = 0 → status i 0x08) ∧
         (scrubLen (s.part p).scrub ≠ 0 → exec i s = .next ((s.awaitsFrame h).served h))) ∧
       (a.extractLsb' 16 48 = 0 → a ≠ 0 → (s.enclIn p n = none → status i 0x15) ∧
         ∀ e, s.enclIn p n = some e → (e.state ≠ .measured → status i 0x01) ∧
           (e.state = .measured → s.vpnHeld n vpn = true → status i 0x06) ∧
           (e.state = .measured → s.vpnHeld n vpn = false → e.h.toNat = 0xFFFFFFFF → status i 0x07) ∧
           (e.state = .measured → s.vpnHeld n vpn = false → e.h.toNat ≠ 0xFFFFFFFF → ∀ f rest, (s.part p).pool = f :: rest →
             s.drawsNext (s.part p) h = true → exec i s = .next ((((s.setPart p { s.part p with pool := rest }).setEncl n { e with h := e.h + 1 }).ownFrame
               f n vpn (e.h.toNat + 1) e.gen false []).answered h rd 0 f)))) ∧
      (let i := Instr.pageInImage rd rs1 rs2
       let buf := (b.extractLsb' 0 52).toNat
       let se := s.potOf frame
       let e := s.encl se.owner.toNat
       (a.extractLsb' 28 36 ≠ 0 ∨ se.part.toNat ≠ p → status i 0x15) ∧
       (a.extractLsb' 28 36 = 0 → se.part.toNat = p →
         (se.state ≠ .paged → s.bufferOk p buf = true → status i 0x0F) ∧
         (se.state ≠ .paged ∨ e.state = .measured → s.bufferOk p buf = false → status i 0x0D) ∧
         (se.state = .paged → e.state ≠ .measured → status i 0x01) ∧
         (se.state = .paged → e.state = .measured → s.bufferOk p buf = true → s.searched buf 32 = false →
           let w := s.settle false buf 32
           w.masked buf 32 = false →
           (imageNames se (readBytes w.mem buf 32) = false → exec i s = .next (w.answered h rd 0x10 0)) ∧
           (imageNames se (readBytes w.mem buf 32) = true → w.searched buf imageLen = false →
           let u := w.settle false buf imageLen
           (u.masked buf imageLen = true → exec i s = .next (u.answered h rd 0x0D 0)) ∧
           (u.masked buf imageLen = false →
           let img := readBytes u.mem buf imageLen
           let key := Config.keyBits e.keyPage
           let st := imageStatus key se img
           (st ≠ 0 → exec i s = .next (u.answered h rd st 0)) ∧
           (st = 0 → ∀ f rest, (u.part p).pool = f :: rest → u.drawsNext (u.part p) h = true →
             let plain := gcmCrypt key (imageNonce se.owner.toNat se.evpn.toNat se.version.toNat) ((img.drop 32).take 4096)
             let v := (u.setPart p { u.part p with pool := rest }).ownFrame f se.owner.toNat se.evpn.toNat se.version.toNat e.gen
               (fieldAt img 0x14 4 % 2 == 1) plain
             exec i s = .next ((v.setPot frame ⟨0, 0, 0, .free, 0, se.part, false, false⟩).answered h rd 0 f))))))) ∧
      (let i := Instr.pageInShare rd rs1
       let fe := s.potOf frame
       (a.extractLsb' 28 36 ≠ 0 ∨ fe.part.toNat ≠ p → status i 0x15) ∧
       (a.extractLsb' 28 36 = 0 → fe.part.toNat = p → (s.osFrame p frame = false → status i 0x0B) ∧
         (s.osFrame p frame = true →
           exec i s = .next (((s.dropFrame frame).setPot frame { fe with state := .sharedRo }).answered h rd 0 frame)))) ∧
      (let i := Instr.pageFree rd rs1
       let fe := s.potOf frame
       let e := (s.encl fe.owner.toNat).state
       (a.extractLsb' 28 36 ≠ 0 ∨ fe.part.toNat ≠ p → status i 0x15) ∧
       (a.extractLsb' 28 36 = 0 → fe.part.toNat = p →
         (fe.state = .paged → exec i s = .next ((s.setPot frame ⟨0, 0, 0, .free, 0, fe.part, false, false⟩).answered h rd 0 0)) ∧
         (fe.state = .owned ∨ fe.state = .moving → fe.owner ≠ 0 → e = .building ∨ e = .dying → status i 0x01) ∧
         (fe.state = .sharedRo ∨ (fe.state = .owned ∧ (fe.owner = 0 ∨ (e ≠ .building ∧ e ≠ .dying))) → ∃ t : State, exec i s = .next (t.answered h rd 0 0) ∧
           (t.potOf frame).state = .moving ∧ mget t.moves frame = some .free ∧ t.mem = s.mem) ∧
         (fe.state ≠ .paged → fe.state ≠ .owned → fe.state ≠ .sharedRo → fe.state ≠ .moving ∨ fe.owner = 0 ∨ (e ≠ .building ∧ e ≠ .dying) →
           status i 0x12))) ∧
      (let i := Instr.faultResolve rd rs1
       ((s.part p).recNo a = none → status i 0x13) ∧
       ∀ r, (s.part p).recNo a = some r → (r.2.nc = true → status i 0x13) ∧
         (r.2.nc = false → exec i s = .next (((s.closeRec p r).replayAll r.2).answered h rd 0 r.2.merges))) ∧
      (let i := Instr.faultKill rd rs1 rs2
       (b = 0 ∨ 3 < b.toNat → status i 0x15) ∧
       (b ≠ 0 → b.toNat ≤ 3 → ((s.part p).recNo a = none → status i 0x13) ∧
         ∀ r, (s.part p).recNo a = some r →
           exec i s = .next ((((r.2.waiters.foldl (State.killWaiter (0x11 + b.toNat)) s).killRaiser (0x11 + b.toNat) r.2).closeRec p r).answered
             h rd 0 0)))

/-! Encoding and fetching. -/

/-- Decoding and encoding agree (R240 to R257, R265, R266, R387): a well-formed instruction has words, and they decode to it
whatever follows; words that decode to an instruction are those that encode it, and it is well-formed. A custom-0 instruction's
word decodes to it. -/
def Obligations.DecodingAndEncodingAgree : Prop :=
  (∀ i : Instr, i.check = none → (i.key ≠ none ∨ ∃ maj sub c m r ws, i = .reservedMajorStub maj sub c m r ws) →
    ∃ ws, encode i = some ws ∧ ∀ rest, decode (ws ++ rest) = (.ok i, rest)) ∧
  (∀ (ws rest : List Word) (i : Instr), decode ws = (.ok i, rest) → i.check = none ∧ ∃ us, encode i = some us ∧ ws = us ++ rest) ∧
  (∀ (i : Instr) q, i.custom = some q → ∃ w, encode i = some [w] ∧ isCustomWord w.toNat = true ∧ decodeCustom w = some i)

/-- Words written out from the encoding tables (R241 to R244, R265, R387) decode to the instructions they stand for, or to none. -/
def Obligations.WrittenWordsDecode : Prop :=
  let plain : BitVec 2 → Ctl := fun n => ⟨false, n, 0, 0⟩
  -- MAJ 0000010, SUB 00011, NOPS 010, G 0, NDEF 01; ids 6 with L and 4 with K
  decode [0b0000010_00011_010_0_01_0000_00_0000_0000#32, 0b00_1_0_0000000000000000000000000110#32, 0b00_0_1_0000000000000000000000000100#32] =
    (.ok (.iadd (plain 1) .wrap .i32 [.val true false 6, .val false true 4]), []) ∧
  -- MAJ 0000010 with an immediate -5 and XHINT 0101
  decode [0b0000010_00011_010_0_01_0000_00_0101_0000#32, 0b00_1_0_0000000000000000000000000111#32, 0b01_111111111111111111111111111011#32] =
    (.ok (.iadd ⟨false, 1, 0, 5⟩ .wrap .i32 [.val true false 7, .imm (BitVec.ofInt 30 (-5))]), []) ∧
  -- MAJ 0100000, SUB 00111, G 1; the special #laneid is no operand of it, two values are
  decode [0b0100000_00111_010_1_01_0000_00_0000_0000#32, 1, 2] =
    (.ok (.fadd ⟨true, 1, 0, 0⟩ false .f32 [.val false false 1, .val false false 2]), []) ∧
  -- MAJ 0000001, SUB 01000, NOPS 001; a long literal of two words
  decode [0b0000001_01000_001_0_01_0000_00_0000_0000#32, 0b11_01_10_00000000000000000000000000#32, 0x54442D18, 0x400921FB] =
    (.ok (.const (plain 1) .f64 [.lit2 0x54442D18 0x400921FB]), []) ∧
  -- MAJ 0010011, NOPS 010; a branch target nine words on
  decode [0b0010011_00000_010_0_00_0000_00_0000_0000#32, 3, 0b11_00_0000000000000000000000001001#32] =
    (.ok (.brc (plain 0) [.val false false 3, .target 9]), []) ∧
  -- MAJ 0010101, NOPS 001; a table index
  decode [0b0010101_00000_001_0_00_0000_00_0000_0000#32, 0b11_10_0000000000000000000000000000#32] = (.ok (.join (plain 0) [.table 0]), []) ∧
  -- MAJ 1000110, SUB 00010, MOD 0011
  decode [0b1000110_00010_000_0_00_0011_00_0000_0000#32] = (.ok (.fenceRel (plain 0) .gang []), []) ∧
  -- major 0x78: a stub; major 0x1E: unassigned; EXIT with SUB 11111, and with RSVZ 0001: illegal; EXIT with an operand: malformed
  decode [0xF0004000] = (.ok (.reservedMajorStub 0x78 0 (plain 1) 0 0 []), []) ∧
  decode [0x3C000000] = (.undefinedMajor, []) ∧
  decode [0x33F00000] = (.illegal (Head.ofWord 0x33F00000), []) ∧
  decode [0x32000001] = (.illegal (Head.ofWord 0x32000001), []) ∧
  decode [0x32020000, 0x40000000] = (.malformed, []) ∧
  -- FUNCT7 0000000, RS2 a2, RS1 a1, FUNCT3 000, RD a0, OPCODE 0001011; and FUNCT7 0011001
  decodeCustom 0b0000000_01100_01011_000_01010_0001011#32 = some (.encCreate 10 11 12) ∧
  decodeCustom 0b0011001_01100_01011_000_01010_0001011#32 = some (.faultKill 10 11 12)

/-- A step runs the instruction that is decoded (R217, R240, R265, R267, R387). The first turn decides who moves; without one
the path that moved last goes on; every step takes its turn and advances the counter of free values (log 1), and no more where
the mover may not issue. A path executes the instruction whose words stand at its pc, after the spill access that its code may
make (R212); an illegal encoding traps ILLEGAL_ENCODING in every lane of the path; a general core executes the custom-0
instruction at its pc, and another word as RISC-V's. -/
def Obligations.StepRunsTheInstruction : Prop :=
  ∀ s : State,
    let u : State := { s with turns := s.turns.tail, free := s.free + 1 }
    (s.turns = [] → s.cur = none → step s = .next u) ∧
    (∀ i rest, s.turns = .event i :: rest → step s = if i.isEvent then exec i u else .next u) ∧
    (∀ g p, s.turns.head? = some (.path g p) ∨ (s.turns = [] ∧ s.cur = some (g, p)) →
      let core := (s.team (s.group g).team).core
      let w := (u.replayed (.path g p)).coreRead core
      let v : State := { w with cur := some (g, p) }
      (u.ready g p = false → step s = .next u) ∧
      (u.ready g p = true → core ∈ s.coreErrs → step s = .next (w.arrayFault core)) ∧
      (u.ready g p = true → core ∉ s.coreErrs → ∀ x, v.exe? = some x →
        (x.spillBytes = 0 → x.spill = .ok v) ∧
        (∀ t, x.spill = .error t → step s = .next t) ∧
        ∀ t, x.spill = .ok t →
          (∀ i rest, decode (x.tr.words.drop (x.tr.offset x.p.pc)) = (.ok i, rest) → step s = exec i t) ∧
          (∀ hd, (decode (x.tr.words.drop (x.tr.offset x.p.pc))).1 = .illegal hd → ∃ h, h.code = 1 ∧ h.lanes = x.p.mask ∧ h.flags = 0 ∧
            step s = .next (t.raiseTrap g p x.p h)))) ∧
    (∀ h, s.turns.head? = some (.hart h) →
      let y := s.hart h
      (∀ p, u.partOf h = some p → y.inReset = false → y.wait = .nothing →
        (∀ t, u.hartFetch h p = .error t → step s = .next t) ∧
        ∀ v w, u.hartFetch h p = .ok (v, w) →
          (isCustomWord w.toNat = false → step s = .next (v.riscv h p w)) ∧
          (∀ i, isCustomWord w.toNat = true → decodeCustom w = some i → step s = exec i { v with curHart := h }) ∧
          (isCustomWord w.toNat = true → decodeCustom w = none → step s = .next (v.hartIllegal h))) ∧
      (y.inReset = true ∨ y.wait ≠ .nothing ∨ u.partOf h = none → step s = .next u))

/-- Every step goes on: none ends in a fault, and none is refused. -/
def Obligations.EveryStepGoesOn : Prop :=
  ∀ s : State, ∃ t, step s = .next t

/-! Memory, reset and operands. -/

/-- Every step keeps memory and every scratchpad in canonical form: addresses strictly rising, and no byte listed that reads as an
unlisted one does. -/
def Obligations.MemoryStaysCanonical : Prop :=
  ∀ s t : State, s.memOk = true → step s = .next t → t.memOk = true

/-- Equal memories are equal data: two memories in canonical form that read the same at every address are one list. -/
def Obligations.CanonicalMemoriesAreUnique : Prop :=
  ∀ m n : List Host.Cell, Memory.wf m = true → Memory.wf n = true → (∀ a, readByte m a = readByte n a) → m = n

/-- What reset leaves (R7, R27, R36, R37, R38): management ownership open to claims; no partition formed and no enclave; every
allocable frame in SCRUBBING, the carve-out FIXED and every slot FREE, with every other POT field 0; nothing cached, and memory
in canonical form. -/
def Obligations.ResetLeaves : Prop :=
  let s := State.reset
  s.mgmt.owner = none ∧ s.mgmt.successor = none ∧ (∀ p, (s.part p).formed = false) ∧ (∀ e, (s.encl e).state = .none) ∧
  (∀ f, let e := s.potOf f
    e.version = 0 ∧ e.evpn = 0 ∧ e.owner = 0 ∧ e.keygen = 0 ∧ e.meas = false ∧ e.poison = false ∧
    (f ≤ 0xBDFFFFF → e.state = .scrubbing) ∧ (0xBE00000 ≤ f → f ≤ 0xBFFFFFF → e.state = .fixed) ∧
    (0xC000000 ≤ f → f ≤ 0xFFFFFFF → e.state = .free)) ∧
  s.l2 = [] ∧ s.coreLines = [] ∧ s.tlb = [] ∧ s.trans = [] ∧ s.memOk = true

/-- The fields of an enclave virtual address (R18): bits [47:0] select the byte, the VPN is bits [47:12], and the address is
canonical when bits [63:48] all equal bit 47. -/
def Obligations.AddressFields : Prop :=
  ∀ va : BitVec 64, low48 va = (va.extractLsb' 0 48).toNat ∧ low48 va / 4096 = (va.extractLsb' 12 36).toNat ∧
    (canonical va = true ↔ ∀ b, 48 ≤ b → b ≤ 63 → va.getLsbD b = va.getLsbD 47)

/-- Special operands (R172, R173, R251 to R253): the lane's coordinates, the launch's settings, function indices, parameters of
the launch's copy, where a b1 is true when its byte is nonzero, and argument slots, of which one that was not passed reads as
poison. -/
def Obligations.SpecialOperands : Prop :=
  ∀ (x : Exe) (t : Ty) (l : Nat),
    let reads := fun (cls idx : Nat) => x.read t l (.special (BitVec.ofNat 6 cls) (BitVec.ofNat 24 idx))
    let i32 := fun (n : Nat) => (Val.bits (BitVec.ofNat 64 (n % 2 ^ 32)), false)
    reads 0 0 = i32 l ∧ reads 0 1 = i32 x.g.width ∧ reads 0 2 = i32 x.g.index ∧ reads 0 3 = i32 x.launch.ngroups ∧ reads 0 4 = i32 x.g.role ∧
    reads 0 5 = i32 x.team.member ∧
    reads 0 6 = (.bits (BitVec.ofNat 64 (x.team.index * x.launch.ngroups * x.g.width + x.g.index * x.g.width + l)), false) ∧
    (∃ cx cy cz, reads 1 0 = i32 cx ∧ reads 1 1 = i32 cy ∧ reads 1 2 = i32 cz ∧
      (0 < x.launch.nteam 0 → 0 < x.launch.nteam 1 → cx < x.launch.nteam 0 ∧ cy < x.launch.nteam 1) ∧
      x.team.index = cx + x.launch.nteam 0 * (cy + x.launch.nteam 1 * cz)) ∧
    reads 1 3 = i32 (x.launch.nteam 0) ∧ reads 1 4 = i32 (x.launch.nteam 1) ∧ reads 1 5 = i32 (x.launch.nteam 2) ∧
    (∀ off < 2 ^ 24, ∀ ty, x.paramTy off = some ty →
      let byte := fun k => if off + k < x.launch.plen then (x.launch.params.getD (off + k) 0).toNat else 0
      (ty = .b1 → reads 2 off = (.bits (if byte 0 = 0 then 0 else 1), false)) ∧
      (ty ∈ [Ty.i8] → reads 2 off = (.bits (BitVec.ofNat 64 (byte 0)), false)) ∧
      (ty ∈ [Ty.i16, .f16, .bf16] → reads 2 off = (.bits (BitVec.ofNat 64 (byte 0 + 2 ^ 8 * byte 1)), false)) ∧
      (ty ∈ [Ty.i32, .f32, .p8x4, .p16x2] →
        reads 2 off = (.bits (BitVec.ofNat 64 (byte 0 + 2 ^ 8 * byte 1 + 2 ^ 16 * byte 2 + 2 ^ 24 * byte 3)), false)) ∧
      (ty ∈ [Ty.i64, .f64, .fut] → reads 2 off = (.bits (BitVec.ofNat 64 (byte 0 + 2 ^ 8 * byte 1 + 2 ^ 16 * byte 2 + 2 ^ 24 * byte 3 +
        2 ^ 32 * byte 4 + 2 ^ 40 * byte 5 + 2 ^ 48 * byte 6 + 2 ^ 56 * byte 7)), false))) ∧
    (∀ n < 2 ^ 24, reads 3 n = i32 n) ∧
    (∀ n < 16, (∀ v, (x.g.lane l).top.args[n]? = some v → reads 4 n = (.bits (BitVec.ofNat 64 (v.toNat % 2 ^ t.width)), false)) ∧
      ((x.g.lane l).top.args[n]? = none → reads 4 n = (poisonOf t, true))) ∧
    reads 5 0 = i32 x.launch.spadBytes ∧ reads 5 1 = i32 x.launch.nbar ∧ reads 5 2 = i32 x.launch.eject ∧ reads 5 3 = i32 x.launch.joinwait

/-- Message passing (R101, R107, R111 to R118): a party stores x, then the flag f with release; another loads f with acquire,
then x. Where each scope takes in both parties, and neither is an engine thread, whose accesses have no program order (R102),
every allowed execution in which the flag is seen sees x. -/
def Obligations.MessagesArrive : Prop :=
  ∀ (p q : Machine.Order.Party) (a b : Machine.Order.Place) (s t : Scope) (x f : Nat) (e : Machine.Order.Exec), p ≠ q → x ≠ f →
    Machine.Order.Exec.threadOp p = none → Machine.Order.Exec.threadOp q = none →
    let stores : Machine.Order.Ev := { party := p, place := a, act := .store .plain, scope := .lane, locs := [x] }
    let raises : Machine.Order.Ev := { party := p, place := a, act := .store .rel, scope := s, locs := [f] }
    let sees : Machine.Order.Ev := { party := q, place := b, act := .load .acq, scope := t, locs := [f] }
    let loads : Machine.Order.Ev := { party := q, place := b, act := .load .plain, scope := .lane, locs := [x] }
    Machine.Order.linked s t raises sees = true → e.evs = [stores, raises, sees, loads] →
    e.allowed = true → e.source 2 f = some 1 → e.source 3 x = some 0
end

