-- ==== Sys2Proof/Laws/Table.lean ====
section
/-! SUPPORT. What the operations on tables and byte memories do. -/

namespace Sys2Proof.Machine

set_option Elab.async false

section Tables
variable {κ α : Type} [DecidableEq κ]

@[simp] theorem mget_nil (k : κ) : mget ([] : List (κ × α)) k = none := rfl

@[simp] theorem mget_mset_self (m : List (κ × α)) (k : κ) (v : α) : mget (mset m k v) k = some v := by
  induction m with
  | nil => simp [mset, mget]
  | cons p m ih =>
    obtain ⟨k', v'⟩ := p
    by_cases h : k' = k <;> simp [mset, mget, h, ih]

theorem mget_mset_ne {k k' : κ} (h : k' ≠ k) (m : List (κ × α)) (v : α) : mget (mset m k v) k' = mget m k' := by
  induction m with
  | nil => simp [mset, mget, Ne.symm h]
  | cons p m ih =>
    obtain ⟨q, w⟩ := p
    by_cases hq : q = k
    · subst hq; simp [mset, mget, Ne.symm h]
    · rw [mset, if_neg hq, mget, mget, ih]

theorem mget_mset (m : List (κ × α)) (k k' : κ) (v : α) :
    mget (mset m k v) k' = if k' = k then some v else mget m k' := by
  split
  · next h => subst h; simp
  · next h => exact mget_mset_ne h m v

@[simp] theorem mset_mset (m : List (κ × α)) (k : κ) (v w : α) : mset (mset m k v) k w = mset m k w := by
  induction m with
  | nil => simp [mset]
  | cons q m ih =>
      obtain ⟨k', v'⟩ := q
      simp only [mset]
      by_cases h : k' = k <;> simp [h, mset, ih]

@[simp] theorem mget_mdel_self (m : List (κ × α)) (k : κ) : mget (mdel m k) k = none := by
  induction m with
  | nil => rfl
  | cons p m ih =>
    obtain ⟨q, w⟩ := p
    by_cases hq : q = k <;> simp [mdel, mget, hq, ih]

theorem mget_mdel_ne {k k' : κ} (h : k' ≠ k) (m : List (κ × α)) : mget (mdel m k) k' = mget m k' := by
  induction m with
  | nil => rfl
  | cons p m ih =>
    obtain ⟨q, w⟩ := p
    by_cases hq : q = k
    · subst hq; simp [mdel, mget, ih, Ne.symm h]
    · rw [mdel, if_neg hq, mget, mget, ih]

/-- Whatever holds of every value of a table and of a new one holds of every value of the table with the new one. -/
theorem all_mset {P : κ × α → Bool} {m : List (κ × α)} {k : κ} {v : α} (h : m.all P = true) (hv : P (k, v) = true) :
    (mset m k v).all P = true := by
  induction m with
  | nil => simp [mset, hv]
  | cons p m ih =>
    obtain ⟨q, w⟩ := p
    simp only [List.all_cons, Bool.and_eq_true] at h
    by_cases hq : q = k
    · simp [mset, hq, hv, h.2]
    · simp [mset, hq, h.1, ih h.2]

theorem all_mget {P : κ × α → Bool} {m : List (κ × α)} {k : κ} {v : α} (h : m.all P = true) (hk : mget m k = some v) :
    P (k, v) = true := by
  induction m with
  | nil => simp at hk
  | cons p m ih =>
    obtain ⟨q, w⟩ := p
    simp only [List.all_cons, Bool.and_eq_true] at h
    by_cases hq : q = k
    · simp only [mget, hq, if_true] at hk
      cases hk
      subst hq
      exact h.1
    · simp only [mget, hq, if_false] at hk
      exact ih h.2 hk

end Tables

/-! Byte memories. -/

theorem cellsAbove_mono {lo lo' : Nat} (h : lo' ≤ lo) : ∀ {m : List Host.Cell}, cellsAbove lo m = true → cellsAbove lo' m = true
  | [], _ => rfl
  | (a, v) :: rest, hm => by
    simp only [cellsAbove, Bool.and_eq_true, decide_eq_true_eq] at hm ⊢
    exact ⟨⟨by omega, hm.1.2⟩, hm.2⟩

theorem cellsAbove_writeByte {lo a : Nat} (v : Byte) (ha : lo ≤ a) :
    ∀ {m : List Host.Cell}, cellsAbove lo m = true → cellsAbove lo (writeByte m a v) = true := by
  intro m
  induction m generalizing lo with
  | nil =>
    intro _
    by_cases hv : v = unlistedByte <;> simp [writeByte, hv, cellsAbove, ha]
  | cons p rest ih =>
    obtain ⟨b, w⟩ := p
    intro hm
    simp only [cellsAbove, Bool.and_eq_true, decide_eq_true_eq] at hm
    obtain ⟨⟨hb, hw⟩, hr⟩ := hm
    by_cases hba : b = a
    · subst hba
      by_cases hv : v = unlistedByte
      · simp only [writeByte, hv, if_true]
        exact cellsAbove_mono (by omega) hr
      · simp [writeByte, hv, cellsAbove, hb, hr]
    · by_cases hab : a < b
      · by_cases hv : v = unlistedByte
        · simp [writeByte, hba, hab, hv, cellsAbove, hb, hw, hr]
        · have : a + 1 ≤ b := hab
          simp [writeByte, hba, hab, hv, cellsAbove, ha, hw, hr, this]
      · have : b + 1 ≤ a := by omega
        simp [writeByte, hba, hab, cellsAbove, hb, hw, ih this hr]

theorem wf_writeByte {m : List Host.Cell} (h : Memory.wf m = true) (a : Nat) (v : Byte) :
    Memory.wf (writeByte m a v) = true := cellsAbove_writeByte v (Nat.zero_le a) h

/-- A write keeps the canonical form. -/
theorem wf_writeBytes : ∀ (bs : List Byte) {m : List Host.Cell} (_ : Memory.wf m = true) (a : Nat),
    Memory.wf (writeBytes m a bs) = true
  | [], _, h, _ => h
  | v :: vs, _, h, a => wf_writeBytes vs (wf_writeByte h a v) (a + 1)

theorem cellsAbove_filter (p : Host.Cell → Bool) : ∀ {lo : Nat} {m : List Host.Cell}, cellsAbove lo m = true →
    cellsAbove lo (m.filter p) = true
  | _, [], _ => rfl
  | lo, (a, v) :: rest, h => by
    simp only [cellsAbove, Bool.and_eq_true, decide_eq_true_eq] at h
    have ih := cellsAbove_filter p h.2
    by_cases hp : p (a, v) = true
    · simp [hp, cellsAbove, h.1.1, h.1.2, ih]
    · simp only [List.filter_cons, hp]
      exact cellsAbove_mono (by omega) ih

/-- Clearing keeps the canonical form. -/
theorem wf_clearBytes {m : List Host.Cell} (h : Memory.wf m = true) (a n : Nat) : Memory.wf (clearBytes m a n) = true :=
  cellsAbove_filter _ h

@[simp] theorem wf_nil : Memory.wf [] = true := rfl

theorem readByte_below : ∀ {lo a : Nat} {m : List Host.Cell}, cellsAbove lo m = true → a < lo → readByte m a = unlistedByte
  | _, _, [], _, _ => rfl
  | lo, a, (b, w) :: rest, h, ha => by
    simp only [cellsAbove, Bool.and_eq_true, decide_eq_true_eq] at h
    have hb : a < b := by omega
    simp [readByte, hb, Nat.ne_of_gt hb]

theorem readByte_writeByte_above {lo : Nat} {m : List Host.Cell} (h : cellsAbove lo m = true) (a c : Nat) (v : Byte) :
    readByte (writeByte m a v) c = if c = a then v else readByte m c := by
  induction m generalizing lo with
  | nil =>
    by_cases hv : v = unlistedByte
    · simp [writeByte, hv, readByte]
    · by_cases hc : c = a
      · simp [writeByte, hv, readByte, hc]
      · simp [writeByte, hv, readByte, hc, Ne.symm hc]
  | cons p rest ih =>
    obtain ⟨b, w⟩ := p
    simp only [cellsAbove, Bool.and_eq_true, decide_eq_true_eq] at h
    obtain ⟨⟨hb, hw⟩, hr⟩ := h
    by_cases hba : b = a
    · subst hba
      by_cases hv : v = unlistedByte
      · simp only [writeByte, hv, if_true]
        by_cases hc : c = b
        · subst hc; simpa using readByte_below hr (Nat.lt_succ_self c)
        · by_cases hcb : c < b
          · simp [readByte, hc, Ne.symm hc, hcb, readByte_below hr (Nat.lt_succ_of_lt hcb)]
          · simp [readByte, hc, Ne.symm hc, hcb]
      · by_cases hc : c = b
        · simp [writeByte, hv, readByte, hc]
        · simp [writeByte, hv, readByte, hc, Ne.symm hc]
    · by_cases hab : a < b
      · by_cases hv : v = unlistedByte
        · by_cases hc : c = a
          · subst hc; simp [writeByte, hba, hab, hv, readByte]
          · simp [writeByte, hba, hab, hv, hc]
        · by_cases hc : c = a
          · subst hc; simp [writeByte, hba, hab, hv, readByte]
          · by_cases hcb : b = c
            · subst hcb; simp [writeByte, hba, hab, hv, readByte, Ne.symm hba, Nat.not_lt_of_gt hab]
            · by_cases hca : c < a
              · simp [writeByte, hba, hab, hv, readByte, hc, Ne.symm hc, hca, hcb, Nat.lt_trans hca hab]
              · simp [writeByte, hba, hab, hv, readByte, hc, Ne.symm hc, hca, hcb]
      · by_cases hcb : b = c
        · subst hcb; simp [writeByte, hba, hab, readByte]
        · by_cases hlt : c < b
          · have : c ≠ a := by omega
            simp [writeByte, hba, hab, readByte, hcb, hlt, this]
          · simp [writeByte, hba, hab, readByte, hcb, hlt, ih hr]

/-- A byte reads after a write as what was written, and every other byte as before. -/
theorem readByte_writeByte {m : List Host.Cell} (h : Memory.wf m = true) (a c : Nat) (v : Byte) :
    readByte (writeByte m a v) c = if c = a then v else readByte m c := readByte_writeByte_above h a c v

/-- Bytes read after a write: those written at their addresses, every other as before. -/
theorem readByte_writeBytes : ∀ (bs : List Byte) {m : List Host.Cell} (_ : Memory.wf m = true) (a c : Nat),
    readByte (writeBytes m a bs) c = if a ≤ c ∧ c < a + bs.length then bs.getD (c - a) 0 else readByte m c
  | [], m, _, a, c => by
    have : ¬(a ≤ c ∧ c < a) := by omega
    simp [writeBytes, this]
  | v :: vs, m, h, a, c => by
    rw [writeBytes, readByte_writeBytes vs (wf_writeByte h a v), readByte_writeByte h]
    by_cases hc : c = a
    · subst hc
      have h1 : ¬(c + 1 ≤ c ∧ c < c + 1 + vs.length) := by omega
      simp [h1]
    · by_cases h1 : a + 1 ≤ c ∧ c < a + 1 + vs.length
      · have h2 : a ≤ c ∧ c < a + (v :: vs).length := by simp; omega
        have h3 : c - a = (c - (a + 1)) + 1 := by omega
        rw [if_pos h1, if_pos h2, h3]
        simp
      · have h2 : ¬(a ≤ c ∧ c < a + (v :: vs).length) := by simp; omega
        rw [if_neg h1, if_neg h2, if_neg hc]

theorem readBytes_congr {m m' : List Host.Cell} : ∀ (n a : Nat), (∀ c, a ≤ c → c < a + n → readByte m c = readByte m' c) →
    readBytes m a n = readBytes m' a n
  | 0, _, _ => rfl
  | n + 1, a, h => by
    rw [readBytes, readBytes, h a (Nat.le_refl a) (by omega), readBytes_congr n (a + 1) fun c h1 h2 => h c (by omega) (by omega)]

/-- Reading back what was just written gives it. -/
theorem readBytes_writeBytes : ∀ (bs : List Byte) {m : List Host.Cell} (_ : Memory.wf m = true) (a : Nat),
    readBytes (writeBytes m a bs) a bs.length = bs
  | [], _, _, _ => rfl
  | v :: vs, m, h, a => by
    have h1 : readByte (writeBytes m a (v :: vs)) a = v := by
      rw [readByte_writeBytes (v :: vs) h]; simp
    have h2 : writeBytes m a (v :: vs) = writeBytes (writeByte m a v) (a + 1) vs := rfl
    show readByte _ a :: readBytes _ (a + 1) vs.length = _
    rw [h1, h2, readBytes_writeBytes vs (wf_writeByte h a v)]

end Sys2Proof.Machine
end

