-- ==== Sys2Proof/Laws/Memory.lean ====
section
/-! SUPPORT. The canonical form of the byte memories: how a state has it, and what keeps it. -/

namespace Sys2Proof.Machine

set_option Elab.async false

theorem State.memOk_iff {s : State} :
    s.memOk = true ↔ Memory.wf s.mem = true ∧ (s.teams.all fun t => Memory.wf t.2.spad) = true := by
  simp [State.memOk]

/-- A state with the memories of another that has the form. -/
theorem State.memOk_of {s t : State} (hm : t.mem = s.mem) (ht : t.teams = s.teams) (h : s.memOk = true) : t.memOk = true := by
  rw [State.memOk, hm, ht]; exact h

@[simp] theorem State.wf_mem {s : State} (h : s.memOk = true) : Memory.wf s.mem = true := (State.memOk_iff.mp h).1

@[simp] theorem State.wf_teams {s : State} (h : s.memOk = true) : (s.teams.all fun t => Memory.wf t.2.spad) = true :=
  (State.memOk_iff.mp h).2

@[simp] theorem State.wf_spad {s : State} (h : s.memOk = true) (t : Nat) : Memory.wf (s.team t).spad = true := by
  unfold State.team
  cases hm : mget s.teams t with
  | none => rfl
  | some v => exact all_mget (P := fun t => Memory.wf t.2.spad) (State.wf_teams h) hm

@[simp] theorem memOk_ite {c : Prop} [Decidable c] (a b : State) : (if c then a else b).memOk = if c then a.memOk else b.memOk := by
  split <;> rfl

theorem foldl_memOk {α : Type} {f : State → α → State} (hf : ∀ s a, s.memOk = true → (f s a).memOk = true) :
    ∀ (l : List α) {s : State}, s.memOk = true → (l.foldl f s).memOk = true
  | [], _, h => h
  | a :: l, s, h => foldl_memOk hf l (hf s a h)

theorem State.setTeam_memOk {s : State} (h : s.memOk = true) (n : Nat) {x : Team} (hx : Memory.wf x.spad = true) :
    (s.setTeam n x).memOk = true :=
  State.memOk_iff.mpr ⟨(State.wf_mem h : Memory.wf s.mem = true), all_mset (State.wf_teams h) hx⟩

/-- A state put together from its parts has the form when its memories have it. -/
theorem State.memOk_mk {a0 a1 a2 a3 a4 a5 a6 a7 a8 a9 a10 a11 a12 a13 a14 a15 a16 a17 a18 a19 a20 a21 a22 a23 a24 a25 a26 a27 a28 a29
    a30 a31 a32 a33 a34 a35 a36 a37 a38 a39 a40 a41 a42 a43 a44 a45 a46 a47 a48 a49 a50 a51 a52 a53 a54 a55 a56
    a57}
    (hm : Memory.wf a24 = true) (ht : (a40.all fun t => Memory.wf t.2.spad) = true) :
    (State.mk a0 a1 a2 a3 a4 a5 a6 a7 a8 a9 a10 a11 a12 a13 a14 a15 a16 a17 a18 a19 a20 a21 a22 a23 a24 a25 a26 a27 a28 a29
    a30 a31 a32 a33 a34 a35 a36 a37 a38 a39 a40 a41 a42 a43 a44 a45 a46 a47 a48 a49 a50 a51 a52 a53 a54 a55 a56
    a57).memOk = true :=
  State.memOk_iff.mpr ⟨hm, ht⟩

theorem all_spads_filter {ts : List (Nat × Team)} (p : Nat × Team → Bool) (h : (ts.all fun t => Memory.wf t.2.spad) = true) :
    ((ts.filter p).all fun t => Memory.wf t.2.spad) = true := by
  rw [List.all_eq_true] at *
  exact fun t ht => h t (List.mem_filter.mp ht).1

theorem all_spads_map {ts : List (Nat × Team)} {f : Nat × Team → Nat × Team} (hf : ∀ t ∈ ts, Memory.wf t.2.spad = true →
    Memory.wf (f t).2.spad = true) (h : (ts.all fun t => Memory.wf t.2.spad) = true) :
    ((ts.map f).all fun t => Memory.wf t.2.spad) = true := by
  rw [List.all_eq_true] at *
  intro t ht
  obtain ⟨u, hu, rfl⟩ := List.mem_map.mp ht
  exact hf u hu (h u hu)

theorem all_spads_mset {ts : List (Nat × Team)} {n : Nat} {x : Team} (h : (ts.all fun t => Memory.wf t.2.spad) = true)
    (hx : Memory.wf x.spad = true) : ((mset ts n x).all fun t => Memory.wf t.2.spad) = true := all_mset h hx

/-! Results that may be errors. -/

/-- A property of a result, where it is not an error. -/
def okAll {ε α : Type} (P : α → Prop) : Except ε α → Prop
  | .ok a => P a
  | .error _ => True

/-- The state that a step answers has the form. -/
abbrev okState {ε : Type} (r : Except ε State) : Prop := okAll (fun t => t.memOk = true) r

/-- The state in the pair that a step answers has the form. -/
abbrev okPair {ε α : Type} (r : Except ε (State × α)) : Prop := okAll (fun p => p.1.memOk = true) r

theorem okAll_bind {ε α β : Type} {P : α → Prop} {Q : β → Prop} {r : Except ε α} {f : α → Except ε β} (hr : okAll P r)
    (hf : ∀ a, P a → okAll Q (f a)) : okAll Q (r >>= f) := by
  cases r with
  | ok a => exact hf a hr
  | error e => trivial

theorem okAll_foldlM {ε α β : Type} {P : β → Prop} {f : β → α → Except ε β} (hf : ∀ b a, P b → okAll P (f b a)) :
    ∀ (l : List α) {b : β}, P b → okAll P (l.foldlM f b)
  | [], _, h => h
  | a :: l, _, h => okAll_bind (hf _ a h) fun b h => okAll_foldlM hf l h

theorem okState_elim {ε : Type} {r : Except ε State} {t : State} (h : r = .ok t) (hr : okState r) : t.memOk = true := by
  subst h; exact hr

theorem okPair_elim {ε α : Type} {r : Except ε (State × α)} {t : State} {a : α} (h : r = .ok (t, a)) (hr : okPair r) :
    t.memOk = true := by
  subst h; exact hr

theorem okState_ok {ε : Type} {t : State} (h : t.memOk = true) : okState (.ok t : Except ε State) := h
theorem okPair_ok {ε α : Type} {t : State} {a : α} (h : t.memOk = true) : okPair (.ok (t, a) : Except ε (State × α)) := h
theorem okAll_error {ε α : Type} {P : α → Prop} (e : ε) : okAll P (.error e : Except ε α) := trivial

/-- A team's record changed but for its scratchpad. -/
@[simp] theorem State.setTeam_same_spad {s : State} (h : s.memOk = true) (n : Nat) {x : Team} (m : Nat)
    (hx : x.spad = (s.team m).spad) : (s.setTeam n x).memOk = true :=
  State.setTeam_memOk h n (hx ▸ State.wf_spad h m)

/-! The operations that write bytes. -/

@[simp] theorem State.store_memOk (s : State) (pa : Nat) (bs : List Byte) (h : s.memOk = true) : (s.store pa bs).memOk = true :=
  State.memOk_iff.mpr ⟨wf_writeBytes _ (State.wf_mem h) _, (State.wf_teams h : (s.teams.all fun t => Memory.wf t.2.spad) = true)⟩

@[simp] theorem State.poke_memOk (s : State) (pa : Nat) (bs : List Byte) (h : s.memOk = true) : (s.poke pa bs).memOk = true :=
  State.store_memOk _ pa bs (State.memOk_of rfl rfl h)

@[simp] theorem State.writePieces_memOk : ∀ (ps : List (Nat × Nat × Nat)) (s : State) (bs : List Byte), s.memOk = true →
    (s.writePieces ps bs).memOk = true
  | [], _, _, h => h
  | p :: ps, s, bs, h => State.writePieces_memOk ps _ _ (State.store_memOk s p.1 _ h)

@[simp] theorem State.spadWrite_memOk (s : State) (t o : Nat) (bs : List Byte) (h : s.memOk = true) : (s.spadWrite t o bs).memOk = true :=
  State.setTeam_memOk h t (wf_writeBytes _ (State.wf_spad h t) _)

end Sys2Proof.Machine
end

