-- ==== Sys2Proof/Laws/State.lean ====
section
/-! SUPPORT. What each update of the state leaves of every field. -/

namespace Sys2Proof.Machine

set_option Elab.async false

@[simp] theorem State.setEncl_turns (s : State) (k : Nat) (x : Enclave) : (s.setEncl k x).turns = s.turns := rfl
@[simp] theorem State.setEncl_cur (s : State) (k : Nat) (x : Enclave) : (s.setEncl k x).cur = s.cur := rfl
@[simp] theorem State.setEncl_curHart (s : State) (k : Nat) (x : Enclave) : (s.setEncl k x).curHart = s.curHart := rfl
@[simp] theorem State.setEncl_free (s : State) (k : Nat) (x : Enclave) : (s.setEncl k x).free = s.free := rfl
@[simp] theorem State.setEncl_next (s : State) (k : Nat) (x : Enclave) : (s.setEncl k x).next = s.next := rfl
@[simp] theorem State.setEncl_mgmt (s : State) (k : Nat) (x : Enclave) : (s.setEncl k x).mgmt = s.mgmt := rfl
@[simp] theorem State.setEncl_funcs (s : State) (k : Nat) (x : Enclave) : (s.setEncl k x).funcs = s.funcs := rfl
@[simp] theorem State.setEncl_fabricF (s : State) (k : Nat) (x : Enclave) : (s.setEncl k x).fabricF = s.fabricF := rfl
@[simp] theorem State.setEncl_fabricP (s : State) (k : Nat) (x : Enclave) : (s.setEncl k x).fabricP = s.fabricP := rfl
@[simp] theorem State.setEncl_clocks (s : State) (k : Nat) (x : Enclave) : (s.setEncl k x).clocks = s.clocks := rfl
@[simp] theorem State.setEncl_deficits (s : State) (k : Nat) (x : Enclave) : (s.setEncl k x).deficits = s.deficits := rfl
@[simp] theorem State.setEncl_holders (s : State) (k : Nat) (x : Enclave) : (s.setEncl k x).holders = s.holders := rfl
@[simp] theorem State.setEncl_cycles (s : State) (k : Nat) (x : Enclave) : (s.setEncl k x).cycles = s.cycles := rfl
@[simp] theorem State.setEncl_gcycles (s : State) (k : Nat) (x : Enclave) : (s.setEncl k x).gcycles = s.gcycles := rfl
@[simp] theorem State.setEncl_keys (s : State) (k : Nat) (x : Enclave) : (s.setEncl k x).keys = s.keys := rfl
@[simp] theorem State.setEncl_parts (s : State) (k : Nat) (x : Enclave) : (s.setEncl k x).parts = s.parts := rfl
@[simp] theorem State.setEncl_encls (s : State) (k : Nat) (x : Enclave) : (s.setEncl k x).encls = mset s.encls k x := rfl
@[simp] theorem State.setEncl_pot (s : State) (k : Nat) (x : Enclave) : (s.setEncl k x).pot = s.pot := rfl
@[simp] theorem State.setEncl_potParts (s : State) (k : Nat) (x : Enclave) : (s.setEncl k x).potParts = s.potParts := rfl
@[simp] theorem State.setEncl_lineMask (s : State) (k : Nat) (x : Enclave) : (s.setEncl k x).lineMask = s.lineMask := rfl
@[simp] theorem State.setEncl_cleanKey (s : State) (k : Nat) (x : Enclave) : (s.setEncl k x).cleanKey = s.cleanKey := rfl
@[simp] theorem State.setEncl_hbm (s : State) (k : Nat) (x : Enclave) : (s.setEncl k x).hbm = s.hbm := rfl
@[simp] theorem State.setEncl_carve (s : State) (k : Nat) (x : Enclave) : (s.setEncl k x).carve = s.carve := rfl
@[simp] theorem State.setEncl_searches (s : State) (k : Nat) (x : Enclave) : (s.setEncl k x).searches = s.searches := rfl
@[simp] theorem State.setEncl_mem (s : State) (k : Nat) (x : Enclave) : (s.setEncl k x).mem = s.mem := rfl
@[simp] theorem State.setEncl_resv (s : State) (k : Nat) (x : Enclave) : (s.setEncl k x).resv = s.resv := rfl
@[simp] theorem State.setEncl_tlb (s : State) (k : Nat) (x : Enclave) : (s.setEncl k x).tlb = s.tlb := rfl
@[simp] theorem State.setEncl_walks (s : State) (k : Nat) (x : Enclave) : (s.setEncl k x).walks = s.walks := rfl
@[simp] theorem State.setEncl_moving (s : State) (k : Nat) (x : Enclave) : (s.setEncl k x).moving = s.moving := rfl
@[simp] theorem State.setEncl_requests (s : State) (k : Nat) (x : Enclave) : (s.setEncl k x).requests = s.requests := rfl
@[simp] theorem State.setEncl_poolWaits (s : State) (k : Nat) (x : Enclave) : (s.setEncl k x).poolWaits = s.poolWaits := rfl
@[simp] theorem State.setEncl_replays (s : State) (k : Nat) (x : Enclave) : (s.setEncl k x).replays = s.replays := rfl
@[simp] theorem State.setEncl_moves (s : State) (k : Nat) (x : Enclave) : (s.setEncl k x).moves = s.moves := rfl
@[simp] theorem State.setEncl_l2 (s : State) (k : Nat) (x : Enclave) : (s.setEncl k x).l2 = s.l2 := rfl
@[simp] theorem State.setEncl_coreLines (s : State) (k : Nat) (x : Enclave) : (s.setEncl k x).coreLines = s.coreLines := rfl
@[simp] theorem State.setEncl_pathMons (s : State) (k : Nat) (x : Enclave) : (s.setEncl k x).pathMons = s.pathMons := rfl
@[simp] theorem State.setEncl_harts (s : State) (k : Nat) (x : Enclave) : (s.setEncl k x).harts = s.harts := rfl
@[simp] theorem State.setEncl_coreErrs (s : State) (k : Nat) (x : Enclave) : (s.setEncl k x).coreErrs = s.coreErrs := rfl
@[simp] theorem State.setEncl_coreFlips (s : State) (k : Nat) (x : Enclave) : (s.setEncl k x).coreFlips = s.coreFlips := rfl
@[simp] theorem State.setEncl_launches (s : State) (k : Nat) (x : Enclave) : (s.setEncl k x).launches = s.launches := rfl
@[simp] theorem State.setEncl_teams (s : State) (k : Nat) (x : Enclave) : (s.setEncl k x).teams = s.teams := rfl
@[simp] theorem State.setEncl_groups (s : State) (k : Nat) (x : Enclave) : (s.setEncl k x).groups = s.groups := rfl
@[simp] theorem State.setEncl_tiles (s : State) (k : Nat) (x : Enclave) : (s.setEncl k x).tiles = s.tiles := rfl
@[simp] theorem State.setEncl_ops (s : State) (k : Nat) (x : Enclave) : (s.setEncl k x).ops = s.ops := rfl
@[simp] theorem State.setEncl_objs (s : State) (k : Nat) (x : Enclave) : (s.setEncl k x).objs = s.objs := rfl
@[simp] theorem State.setEncl_trans (s : State) (k : Nat) (x : Enclave) : (s.setEncl k x).trans = s.trans := rfl
@[simp] theorem State.setEncl_building (s : State) (k : Nat) (x : Enclave) : (s.setEncl k x).building = s.building := rfl
@[simp] theorem State.setEncl_streams (s : State) (k : Nat) (x : Enclave) : (s.setEncl k x).streams = s.streams := rfl
@[simp] theorem State.setEncl_ides (s : State) (k : Nat) (x : Enclave) : (s.setEncl k x).ides = s.ides := rfl
@[simp] theorem State.setEncl_far (s : State) (k : Nat) (x : Enclave) : (s.setEncl k x).far = s.far := rfl
@[simp] theorem State.setEncl_peers (s : State) (k : Nat) (x : Enclave) : (s.setEncl k x).peers = s.peers := rfl
@[simp] theorem State.setEncl_replay (s : State) (k : Nat) (x : Enclave) : (s.setEncl k x).replay = s.replay := rfl
@[simp] theorem State.setEncl_colls (s : State) (k : Nat) (x : Enclave) : (s.setEncl k x).colls = s.colls := rfl
@[simp] theorem State.setEncl_cuts (s : State) (k : Nat) (x : Enclave) : (s.setEncl k x).cuts = s.cuts := rfl
@[simp] theorem State.setEncl_rakes (s : State) (k : Nat) (x : Enclave) : (s.setEncl k x).rakes = s.rakes := rfl
@[simp] theorem State.setEncl_xctls (s : State) (k : Nat) (x : Enclave) : (s.setEncl k x).xctls = s.xctls := rfl
@[simp] theorem State.setEncl_storage (s : State) (k : Nat) (x : Enclave) : (s.setEncl k x).storage = s.storage := rfl
@[simp] theorem State.setEncl_replies (s : State) (k : Nat) (x : Enclave) : (s.setEncl k x).replies = s.replies := rfl

@[simp] theorem State.setPart_turns (s : State) (k : Nat) (x : Part) : (s.setPart k x).turns = s.turns := rfl
@[simp] theorem State.setPart_cur (s : State) (k : Nat) (x : Part) : (s.setPart k x).cur = s.cur := rfl
@[simp] theorem State.setPart_curHart (s : State) (k : Nat) (x : Part) : (s.setPart k x).curHart = s.curHart := rfl
@[simp] theorem State.setPart_free (s : State) (k : Nat) (x : Part) : (s.setPart k x).free = s.free := rfl
@[simp] theorem State.setPart_next (s : State) (k : Nat) (x : Part) : (s.setPart k x).next = s.next := rfl
@[simp] theorem State.setPart_mgmt (s : State) (k : Nat) (x : Part) : (s.setPart k x).mgmt = s.mgmt := rfl
@[simp] theorem State.setPart_funcs (s : State) (k : Nat) (x : Part) : (s.setPart k x).funcs = s.funcs := rfl
@[simp] theorem State.setPart_fabricF (s : State) (k : Nat) (x : Part) : (s.setPart k x).fabricF = s.fabricF := rfl
@[simp] theorem State.setPart_fabricP (s : State) (k : Nat) (x : Part) : (s.setPart k x).fabricP = s.fabricP := rfl
@[simp] theorem State.setPart_clocks (s : State) (k : Nat) (x : Part) : (s.setPart k x).clocks = s.clocks := rfl
@[simp] theorem State.setPart_deficits (s : State) (k : Nat) (x : Part) : (s.setPart k x).deficits = s.deficits := rfl
@[simp] theorem State.setPart_holders (s : State) (k : Nat) (x : Part) : (s.setPart k x).holders = s.holders := rfl
@[simp] theorem State.setPart_cycles (s : State) (k : Nat) (x : Part) : (s.setPart k x).cycles = s.cycles := rfl
@[simp] theorem State.setPart_gcycles (s : State) (k : Nat) (x : Part) : (s.setPart k x).gcycles = s.gcycles := rfl
@[simp] theorem State.setPart_keys (s : State) (k : Nat) (x : Part) : (s.setPart k x).keys = s.keys := rfl
@[simp] theorem State.setPart_parts (s : State) (k : Nat) (x : Part) : (s.setPart k x).parts = mset s.parts k x := rfl
@[simp] theorem State.setPart_encls (s : State) (k : Nat) (x : Part) : (s.setPart k x).encls = s.encls := rfl
@[simp] theorem State.setPart_pot (s : State) (k : Nat) (x : Part) : (s.setPart k x).pot = s.pot := rfl
@[simp] theorem State.setPart_potParts (s : State) (k : Nat) (x : Part) : (s.setPart k x).potParts = s.potParts := rfl
@[simp] theorem State.setPart_lineMask (s : State) (k : Nat) (x : Part) : (s.setPart k x).lineMask = s.lineMask := rfl
@[simp] theorem State.setPart_cleanKey (s : State) (k : Nat) (x : Part) : (s.setPart k x).cleanKey = s.cleanKey := rfl
@[simp] theorem State.setPart_hbm (s : State) (k : Nat) (x : Part) : (s.setPart k x).hbm = s.hbm := rfl
@[simp] theorem State.setPart_carve (s : State) (k : Nat) (x : Part) : (s.setPart k x).carve = s.carve := rfl
@[simp] theorem State.setPart_searches (s : State) (k : Nat) (x : Part) : (s.setPart k x).searches = s.searches := rfl
@[simp] theorem State.setPart_mem (s : State) (k : Nat) (x : Part) : (s.setPart k x).mem = s.mem := rfl
@[simp] theorem State.setPart_resv (s : State) (k : Nat) (x : Part) : (s.setPart k x).resv = s.resv := rfl
@[simp] theorem State.setPart_tlb (s : State) (k : Nat) (x : Part) : (s.setPart k x).tlb = s.tlb := rfl
@[simp] theorem State.setPart_walks (s : State) (k : Nat) (x : Part) : (s.setPart k x).walks = s.walks := rfl
@[simp] theorem State.setPart_moving (s : State) (k : Nat) (x : Part) : (s.setPart k x).moving = s.moving := rfl
@[simp] theorem State.setPart_requests (s : State) (k : Nat) (x : Part) : (s.setPart k x).requests = s.requests := rfl
@[simp] theorem State.setPart_poolWaits (s : State) (k : Nat) (x : Part) : (s.setPart k x).poolWaits = s.poolWaits := rfl
@[simp] theorem State.setPart_replays (s : State) (k : Nat) (x : Part) : (s.setPart k x).replays = s.replays := rfl
@[simp] theorem State.setPart_moves (s : State) (k : Nat) (x : Part) : (s.setPart k x).moves = s.moves := rfl
@[simp] theorem State.setPart_l2 (s : State) (k : Nat) (x : Part) : (s.setPart k x).l2 = s.l2 := rfl
@[simp] theorem State.setPart_coreLines (s : State) (k : Nat) (x : Part) : (s.setPart k x).coreLines = s.coreLines := rfl
@[simp] theorem State.setPart_pathMons (s : State) (k : Nat) (x : Part) : (s.setPart k x).pathMons = s.pathMons := rfl
@[simp] theorem State.setPart_harts (s : State) (k : Nat) (x : Part) : (s.setPart k x).harts = s.harts := rfl
@[simp] theorem State.setPart_coreErrs (s : State) (k : Nat) (x : Part) : (s.setPart k x).coreErrs = s.coreErrs := rfl
@[simp] theorem State.setPart_coreFlips (s : State) (k : Nat) (x : Part) : (s.setPart k x).coreFlips = s.coreFlips := rfl
@[simp] theorem State.setPart_launches (s : State) (k : Nat) (x : Part) : (s.setPart k x).launches = s.launches := rfl
@[simp] theorem State.setPart_teams (s : State) (k : Nat) (x : Part) : (s.setPart k x).teams = s.teams := rfl
@[simp] theorem State.setPart_groups (s : State) (k : Nat) (x : Part) : (s.setPart k x).groups = s.groups := rfl
@[simp] theorem State.setPart_tiles (s : State) (k : Nat) (x : Part) : (s.setPart k x).tiles = s.tiles := rfl
@[simp] theorem State.setPart_ops (s : State) (k : Nat) (x : Part) : (s.setPart k x).ops = s.ops := rfl
@[simp] theorem State.setPart_objs (s : State) (k : Nat) (x : Part) : (s.setPart k x).objs = s.objs := rfl
@[simp] theorem State.setPart_trans (s : State) (k : Nat) (x : Part) : (s.setPart k x).trans = s.trans := rfl
@[simp] theorem State.setPart_building (s : State) (k : Nat) (x : Part) : (s.setPart k x).building = s.building := rfl
@[simp] theorem State.setPart_streams (s : State) (k : Nat) (x : Part) : (s.setPart k x).streams = s.streams := rfl
@[simp] theorem State.setPart_ides (s : State) (k : Nat) (x : Part) : (s.setPart k x).ides = s.ides := rfl
@[simp] theorem State.setPart_far (s : State) (k : Nat) (x : Part) : (s.setPart k x).far = s.far := rfl
@[simp] theorem State.setPart_peers (s : State) (k : Nat) (x : Part) : (s.setPart k x).peers = s.peers := rfl
@[simp] theorem State.setPart_replay (s : State) (k : Nat) (x : Part) : (s.setPart k x).replay = s.replay := rfl
@[simp] theorem State.setPart_colls (s : State) (k : Nat) (x : Part) : (s.setPart k x).colls = s.colls := rfl
@[simp] theorem State.setPart_cuts (s : State) (k : Nat) (x : Part) : (s.setPart k x).cuts = s.cuts := rfl
@[simp] theorem State.setPart_rakes (s : State) (k : Nat) (x : Part) : (s.setPart k x).rakes = s.rakes := rfl
@[simp] theorem State.setPart_xctls (s : State) (k : Nat) (x : Part) : (s.setPart k x).xctls = s.xctls := rfl
@[simp] theorem State.setPart_storage (s : State) (k : Nat) (x : Part) : (s.setPart k x).storage = s.storage := rfl
@[simp] theorem State.setPart_replies (s : State) (k : Nat) (x : Part) : (s.setPart k x).replies = s.replies := rfl

@[simp] theorem State.setPot_turns (s : State) (k : Nat) (x : PotEntry) : (s.setPot k x).turns = s.turns := rfl
@[simp] theorem State.setPot_cur (s : State) (k : Nat) (x : PotEntry) : (s.setPot k x).cur = s.cur := rfl
@[simp] theorem State.setPot_curHart (s : State) (k : Nat) (x : PotEntry) : (s.setPot k x).curHart = s.curHart := rfl
@[simp] theorem State.setPot_free (s : State) (k : Nat) (x : PotEntry) : (s.setPot k x).free = s.free := rfl
@[simp] theorem State.setPot_next (s : State) (k : Nat) (x : PotEntry) : (s.setPot k x).next = s.next := rfl
@[simp] theorem State.setPot_mgmt (s : State) (k : Nat) (x : PotEntry) : (s.setPot k x).mgmt = s.mgmt := rfl
@[simp] theorem State.setPot_funcs (s : State) (k : Nat) (x : PotEntry) : (s.setPot k x).funcs = s.funcs := rfl
@[simp] theorem State.setPot_fabricF (s : State) (k : Nat) (x : PotEntry) : (s.setPot k x).fabricF = s.fabricF := rfl
@[simp] theorem State.setPot_fabricP (s : State) (k : Nat) (x : PotEntry) : (s.setPot k x).fabricP = s.fabricP := rfl
@[simp] theorem State.setPot_clocks (s : State) (k : Nat) (x : PotEntry) : (s.setPot k x).clocks = s.clocks := rfl
@[simp] theorem State.setPot_deficits (s : State) (k : Nat) (x : PotEntry) : (s.setPot k x).deficits = s.deficits := rfl
@[simp] theorem State.setPot_holders (s : State) (k : Nat) (x : PotEntry) : (s.setPot k x).holders = s.holders := rfl
@[simp] theorem State.setPot_cycles (s : State) (k : Nat) (x : PotEntry) : (s.setPot k x).cycles = s.cycles := rfl
@[simp] theorem State.setPot_gcycles (s : State) (k : Nat) (x : PotEntry) : (s.setPot k x).gcycles = s.gcycles := rfl
@[simp] theorem State.setPot_keys (s : State) (k : Nat) (x : PotEntry) : (s.setPot k x).keys = s.keys := rfl
@[simp] theorem State.setPot_parts (s : State) (k : Nat) (x : PotEntry) : (s.setPot k x).parts = s.parts := rfl
@[simp] theorem State.setPot_encls (s : State) (k : Nat) (x : PotEntry) : (s.setPot k x).encls = s.encls := rfl
@[simp] theorem State.setPot_pot (s : State) (k : Nat) (x : PotEntry) : (s.setPot k x).pot = mset s.pot k x := rfl
@[simp] theorem State.setPot_potParts (s : State) (k : Nat) (x : PotEntry) : (s.setPot k x).potParts = s.potParts := rfl
@[simp] theorem State.setPot_lineMask (s : State) (k : Nat) (x : PotEntry) : (s.setPot k x).lineMask = s.lineMask := rfl
@[simp] theorem State.setPot_cleanKey (s : State) (k : Nat) (x : PotEntry) : (s.setPot k x).cleanKey = s.cleanKey := rfl
@[simp] theorem State.setPot_hbm (s : State) (k : Nat) (x : PotEntry) : (s.setPot k x).hbm = s.hbm := rfl
@[simp] theorem State.setPot_carve (s : State) (k : Nat) (x : PotEntry) : (s.setPot k x).carve = s.carve := rfl
@[simp] theorem State.setPot_searches (s : State) (k : Nat) (x : PotEntry) : (s.setPot k x).searches = s.searches := rfl
@[simp] theorem State.setPot_mem (s : State) (k : Nat) (x : PotEntry) : (s.setPot k x).mem = s.mem := rfl
@[simp] theorem State.setPot_resv (s : State) (k : Nat) (x : PotEntry) : (s.setPot k x).resv = s.resv := rfl
@[simp] theorem State.setPot_tlb (s : State) (k : Nat) (x : PotEntry) : (s.setPot k x).tlb = s.tlb := rfl
@[simp] theorem State.setPot_walks (s : State) (k : Nat) (x : PotEntry) : (s.setPot k x).walks = s.walks := rfl
@[simp] theorem State.setPot_moving (s : State) (k : Nat) (x : PotEntry) : (s.setPot k x).moving = s.moving := rfl
@[simp] theorem State.setPot_requests (s : State) (k : Nat) (x : PotEntry) : (s.setPot k x).requests = s.requests := rfl
@[simp] theorem State.setPot_poolWaits (s : State) (k : Nat) (x : PotEntry) : (s.setPot k x).poolWaits = s.poolWaits := rfl
@[simp] theorem State.setPot_replays (s : State) (k : Nat) (x : PotEntry) : (s.setPot k x).replays = s.replays := rfl
@[simp] theorem State.setPot_moves (s : State) (k : Nat) (x : PotEntry) : (s.setPot k x).moves = s.moves := rfl
@[simp] theorem State.setPot_l2 (s : State) (k : Nat) (x : PotEntry) : (s.setPot k x).l2 = s.l2 := rfl
@[simp] theorem State.setPot_coreLines (s : State) (k : Nat) (x : PotEntry) : (s.setPot k x).coreLines = s.coreLines := rfl
@[simp] theorem State.setPot_pathMons (s : State) (k : Nat) (x : PotEntry) : (s.setPot k x).pathMons = s.pathMons := rfl
@[simp] theorem State.setPot_harts (s : State) (k : Nat) (x : PotEntry) : (s.setPot k x).harts = s.harts := rfl
@[simp] theorem State.setPot_coreErrs (s : State) (k : Nat) (x : PotEntry) : (s.setPot k x).coreErrs = s.coreErrs := rfl
@[simp] theorem State.setPot_coreFlips (s : State) (k : Nat) (x : PotEntry) : (s.setPot k x).coreFlips = s.coreFlips := rfl
@[simp] theorem State.setPot_launches (s : State) (k : Nat) (x : PotEntry) : (s.setPot k x).launches = s.launches := rfl
@[simp] theorem State.setPot_teams (s : State) (k : Nat) (x : PotEntry) : (s.setPot k x).teams = s.teams := rfl
@[simp] theorem State.setPot_groups (s : State) (k : Nat) (x : PotEntry) : (s.setPot k x).groups = s.groups := rfl
@[simp] theorem State.setPot_tiles (s : State) (k : Nat) (x : PotEntry) : (s.setPot k x).tiles = s.tiles := rfl
@[simp] theorem State.setPot_ops (s : State) (k : Nat) (x : PotEntry) : (s.setPot k x).ops = s.ops := rfl
@[simp] theorem State.setPot_objs (s : State) (k : Nat) (x : PotEntry) : (s.setPot k x).objs = s.objs := rfl
@[simp] theorem State.setPot_trans (s : State) (k : Nat) (x : PotEntry) : (s.setPot k x).trans = s.trans := rfl
@[simp] theorem State.setPot_building (s : State) (k : Nat) (x : PotEntry) : (s.setPot k x).building = s.building := rfl
@[simp] theorem State.setPot_streams (s : State) (k : Nat) (x : PotEntry) : (s.setPot k x).streams = s.streams := rfl
@[simp] theorem State.setPot_ides (s : State) (k : Nat) (x : PotEntry) : (s.setPot k x).ides = s.ides := rfl
@[simp] theorem State.setPot_far (s : State) (k : Nat) (x : PotEntry) : (s.setPot k x).far = s.far := rfl
@[simp] theorem State.setPot_peers (s : State) (k : Nat) (x : PotEntry) : (s.setPot k x).peers = s.peers := rfl
@[simp] theorem State.setPot_replay (s : State) (k : Nat) (x : PotEntry) : (s.setPot k x).replay = s.replay := rfl
@[simp] theorem State.setPot_colls (s : State) (k : Nat) (x : PotEntry) : (s.setPot k x).colls = s.colls := rfl
@[simp] theorem State.setPot_cuts (s : State) (k : Nat) (x : PotEntry) : (s.setPot k x).cuts = s.cuts := rfl
@[simp] theorem State.setPot_rakes (s : State) (k : Nat) (x : PotEntry) : (s.setPot k x).rakes = s.rakes := rfl
@[simp] theorem State.setPot_xctls (s : State) (k : Nat) (x : PotEntry) : (s.setPot k x).xctls = s.xctls := rfl
@[simp] theorem State.setPot_storage (s : State) (k : Nat) (x : PotEntry) : (s.setPot k x).storage = s.storage := rfl
@[simp] theorem State.setPot_replies (s : State) (k : Nat) (x : PotEntry) : (s.setPot k x).replies = s.replies := rfl

@[simp] theorem State.setLaunch_turns (s : State) (k : Nat) (x : Launch) : (s.setLaunch k x).turns = s.turns := rfl
@[simp] theorem State.setLaunch_cur (s : State) (k : Nat) (x : Launch) : (s.setLaunch k x).cur = s.cur := rfl
@[simp] theorem State.setLaunch_curHart (s : State) (k : Nat) (x : Launch) : (s.setLaunch k x).curHart = s.curHart := rfl
@[simp] theorem State.setLaunch_free (s : State) (k : Nat) (x : Launch) : (s.setLaunch k x).free = s.free := rfl
@[simp] theorem State.setLaunch_next (s : State) (k : Nat) (x : Launch) : (s.setLaunch k x).next = s.next := rfl
@[simp] theorem State.setLaunch_mgmt (s : State) (k : Nat) (x : Launch) : (s.setLaunch k x).mgmt = s.mgmt := rfl
@[simp] theorem State.setLaunch_funcs (s : State) (k : Nat) (x : Launch) : (s.setLaunch k x).funcs = s.funcs := rfl
@[simp] theorem State.setLaunch_fabricF (s : State) (k : Nat) (x : Launch) : (s.setLaunch k x).fabricF = s.fabricF := rfl
@[simp] theorem State.setLaunch_fabricP (s : State) (k : Nat) (x : Launch) : (s.setLaunch k x).fabricP = s.fabricP := rfl
@[simp] theorem State.setLaunch_clocks (s : State) (k : Nat) (x : Launch) : (s.setLaunch k x).clocks = s.clocks := rfl
@[simp] theorem State.setLaunch_deficits (s : State) (k : Nat) (x : Launch) : (s.setLaunch k x).deficits = s.deficits := rfl
@[simp] theorem State.setLaunch_holders (s : State) (k : Nat) (x : Launch) : (s.setLaunch k x).holders = s.holders := rfl
@[simp] theorem State.setLaunch_cycles (s : State) (k : Nat) (x : Launch) : (s.setLaunch k x).cycles = s.cycles := rfl
@[simp] theorem State.setLaunch_gcycles (s : State) (k : Nat) (x : Launch) : (s.setLaunch k x).gcycles = s.gcycles := rfl
@[simp] theorem State.setLaunch_keys (s : State) (k : Nat) (x : Launch) : (s.setLaunch k x).keys = s.keys := rfl
@[simp] theorem State.setLaunch_parts (s : State) (k : Nat) (x : Launch) : (s.setLaunch k x).parts = s.parts := rfl
@[simp] theorem State.setLaunch_encls (s : State) (k : Nat) (x : Launch) : (s.setLaunch k x).encls = s.encls := rfl
@[simp] theorem State.setLaunch_pot (s : State) (k : Nat) (x : Launch) : (s.setLaunch k x).pot = s.pot := rfl
@[simp] theorem State.setLaunch_potParts (s : State) (k : Nat) (x : Launch) : (s.setLaunch k x).potParts = s.potParts := rfl
@[simp] theorem State.setLaunch_lineMask (s : State) (k : Nat) (x : Launch) : (s.setLaunch k x).lineMask = s.lineMask := rfl
@[simp] theorem State.setLaunch_cleanKey (s : State) (k : Nat) (x : Launch) : (s.setLaunch k x).cleanKey = s.cleanKey := rfl
@[simp] theorem State.setLaunch_hbm (s : State) (k : Nat) (x : Launch) : (s.setLaunch k x).hbm = s.hbm := rfl
@[simp] theorem State.setLaunch_carve (s : State) (k : Nat) (x : Launch) : (s.setLaunch k x).carve = s.carve := rfl
@[simp] theorem State.setLaunch_searches (s : State) (k : Nat) (x : Launch) : (s.setLaunch k x).searches = s.searches := rfl
@[simp] theorem State.setLaunch_mem (s : State) (k : Nat) (x : Launch) : (s.setLaunch k x).mem = s.mem := rfl
@[simp] theorem State.setLaunch_resv (s : State) (k : Nat) (x : Launch) : (s.setLaunch k x).resv = s.resv := rfl
@[simp] theorem State.setLaunch_tlb (s : State) (k : Nat) (x : Launch) : (s.setLaunch k x).tlb = s.tlb := rfl
@[simp] theorem State.setLaunch_walks (s : State) (k : Nat) (x : Launch) : (s.setLaunch k x).walks = s.walks := rfl
@[simp] theorem State.setLaunch_moving (s : State) (k : Nat) (x : Launch) : (s.setLaunch k x).moving = s.moving := rfl
@[simp] theorem State.setLaunch_requests (s : State) (k : Nat) (x : Launch) : (s.setLaunch k x).requests = s.requests := rfl
@[simp] theorem State.setLaunch_poolWaits (s : State) (k : Nat) (x : Launch) : (s.setLaunch k x).poolWaits = s.poolWaits := rfl
@[simp] theorem State.setLaunch_replays (s : State) (k : Nat) (x : Launch) : (s.setLaunch k x).replays = s.replays := rfl
@[simp] theorem State.setLaunch_moves (s : State) (k : Nat) (x : Launch) : (s.setLaunch k x).moves = s.moves := rfl
@[simp] theorem State.setLaunch_l2 (s : State) (k : Nat) (x : Launch) : (s.setLaunch k x).l2 = s.l2 := rfl
@[simp] theorem State.setLaunch_coreLines (s : State) (k : Nat) (x : Launch) : (s.setLaunch k x).coreLines = s.coreLines := rfl
@[simp] theorem State.setLaunch_pathMons (s : State) (k : Nat) (x : Launch) : (s.setLaunch k x).pathMons = s.pathMons := rfl
@[simp] theorem State.setLaunch_harts (s : State) (k : Nat) (x : Launch) : (s.setLaunch k x).harts = s.harts := rfl
@[simp] theorem State.setLaunch_coreErrs (s : State) (k : Nat) (x : Launch) : (s.setLaunch k x).coreErrs = s.coreErrs := rfl
@[simp] theorem State.setLaunch_coreFlips (s : State) (k : Nat) (x : Launch) : (s.setLaunch k x).coreFlips = s.coreFlips := rfl
@[simp] theorem State.setLaunch_launches (s : State) (k : Nat) (x : Launch) : (s.setLaunch k x).launches = mset s.launches k x := rfl
@[simp] theorem State.setLaunch_teams (s : State) (k : Nat) (x : Launch) : (s.setLaunch k x).teams = s.teams := rfl
@[simp] theorem State.setLaunch_groups (s : State) (k : Nat) (x : Launch) : (s.setLaunch k x).groups = s.groups := rfl
@[simp] theorem State.setLaunch_tiles (s : State) (k : Nat) (x : Launch) : (s.setLaunch k x).tiles = s.tiles := rfl
@[simp] theorem State.setLaunch_ops (s : State) (k : Nat) (x : Launch) : (s.setLaunch k x).ops = s.ops := rfl
@[simp] theorem State.setLaunch_objs (s : State) (k : Nat) (x : Launch) : (s.setLaunch k x).objs = s.objs := rfl
@[simp] theorem State.setLaunch_trans (s : State) (k : Nat) (x : Launch) : (s.setLaunch k x).trans = s.trans := rfl
@[simp] theorem State.setLaunch_building (s : State) (k : Nat) (x : Launch) : (s.setLaunch k x).building = s.building := rfl
@[simp] theorem State.setLaunch_streams (s : State) (k : Nat) (x : Launch) : (s.setLaunch k x).streams = s.streams := rfl
@[simp] theorem State.setLaunch_ides (s : State) (k : Nat) (x : Launch) : (s.setLaunch k x).ides = s.ides := rfl
@[simp] theorem State.setLaunch_far (s : State) (k : Nat) (x : Launch) : (s.setLaunch k x).far = s.far := rfl
@[simp] theorem State.setLaunch_peers (s : State) (k : Nat) (x : Launch) : (s.setLaunch k x).peers = s.peers := rfl
@[simp] theorem State.setLaunch_replay (s : State) (k : Nat) (x : Launch) : (s.setLaunch k x).replay = s.replay := rfl
@[simp] theorem State.setLaunch_colls (s : State) (k : Nat) (x : Launch) : (s.setLaunch k x).colls = s.colls := rfl
@[simp] theorem State.setLaunch_cuts (s : State) (k : Nat) (x : Launch) : (s.setLaunch k x).cuts = s.cuts := rfl
@[simp] theorem State.setLaunch_rakes (s : State) (k : Nat) (x : Launch) : (s.setLaunch k x).rakes = s.rakes := rfl
@[simp] theorem State.setLaunch_xctls (s : State) (k : Nat) (x : Launch) : (s.setLaunch k x).xctls = s.xctls := rfl
@[simp] theorem State.setLaunch_storage (s : State) (k : Nat) (x : Launch) : (s.setLaunch k x).storage = s.storage := rfl
@[simp] theorem State.setLaunch_replies (s : State) (k : Nat) (x : Launch) : (s.setLaunch k x).replies = s.replies := rfl

@[simp] theorem State.setTeam_turns (s : State) (k : Nat) (x : Team) : (s.setTeam k x).turns = s.turns := rfl
@[simp] theorem State.setTeam_cur (s : State) (k : Nat) (x : Team) : (s.setTeam k x).cur = s.cur := rfl
@[simp] theorem State.setTeam_curHart (s : State) (k : Nat) (x : Team) : (s.setTeam k x).curHart = s.curHart := rfl
@[simp] theorem State.setTeam_free (s : State) (k : Nat) (x : Team) : (s.setTeam k x).free = s.free := rfl
@[simp] theorem State.setTeam_next (s : State) (k : Nat) (x : Team) : (s.setTeam k x).next = s.next := rfl
@[simp] theorem State.setTeam_mgmt (s : State) (k : Nat) (x : Team) : (s.setTeam k x).mgmt = s.mgmt := rfl
@[simp] theorem State.setTeam_funcs (s : State) (k : Nat) (x : Team) : (s.setTeam k x).funcs = s.funcs := rfl
@[simp] theorem State.setTeam_fabricF (s : State) (k : Nat) (x : Team) : (s.setTeam k x).fabricF = s.fabricF := rfl
@[simp] theorem State.setTeam_fabricP (s : State) (k : Nat) (x : Team) : (s.setTeam k x).fabricP = s.fabricP := rfl
@[simp] theorem State.setTeam_clocks (s : State) (k : Nat) (x : Team) : (s.setTeam k x).clocks = s.clocks := rfl
@[simp] theorem State.setTeam_deficits (s : State) (k : Nat) (x : Team) : (s.setTeam k x).deficits = s.deficits := rfl
@[simp] theorem State.setTeam_holders (s : State) (k : Nat) (x : Team) : (s.setTeam k x).holders = s.holders := rfl
@[simp] theorem State.setTeam_cycles (s : State) (k : Nat) (x : Team) : (s.setTeam k x).cycles = s.cycles := rfl
@[simp] theorem State.setTeam_gcycles (s : State) (k : Nat) (x : Team) : (s.setTeam k x).gcycles = s.gcycles := rfl
@[simp] theorem State.setTeam_keys (s : State) (k : Nat) (x : Team) : (s.setTeam k x).keys = s.keys := rfl
@[simp] theorem State.setTeam_parts (s : State) (k : Nat) (x : Team) : (s.setTeam k x).parts = s.parts := rfl
@[simp] theorem State.setTeam_encls (s : State) (k : Nat) (x : Team) : (s.setTeam k x).encls = s.encls := rfl
@[simp] theorem State.setTeam_pot (s : State) (k : Nat) (x : Team) : (s.setTeam k x).pot = s.pot := rfl
@[simp] theorem State.setTeam_potParts (s : State) (k : Nat) (x : Team) : (s.setTeam k x).potParts = s.potParts := rfl
@[simp] theorem State.setTeam_lineMask (s : State) (k : Nat) (x : Team) : (s.setTeam k x).lineMask = s.lineMask := rfl
@[simp] theorem State.setTeam_cleanKey (s : State) (k : Nat) (x : Team) : (s.setTeam k x).cleanKey = s.cleanKey := rfl
@[simp] theorem State.setTeam_hbm (s : State) (k : Nat) (x : Team) : (s.setTeam k x).hbm = s.hbm := rfl
@[simp] theorem State.setTeam_carve (s : State) (k : Nat) (x : Team) : (s.setTeam k x).carve = s.carve := rfl
@[simp] theorem State.setTeam_searches (s : State) (k : Nat) (x : Team) : (s.setTeam k x).searches = s.searches := rfl
@[simp] theorem State.setTeam_mem (s : State) (k : Nat) (x : Team) : (s.setTeam k x).mem = s.mem := rfl
@[simp] theorem State.setTeam_resv (s : State) (k : Nat) (x : Team) : (s.setTeam k x).resv = s.resv := rfl
@[simp] theorem State.setTeam_tlb (s : State) (k : Nat) (x : Team) : (s.setTeam k x).tlb = s.tlb := rfl
@[simp] theorem State.setTeam_walks (s : State) (k : Nat) (x : Team) : (s.setTeam k x).walks = s.walks := rfl
@[simp] theorem State.setTeam_moving (s : State) (k : Nat) (x : Team) : (s.setTeam k x).moving = s.moving := rfl
@[simp] theorem State.setTeam_requests (s : State) (k : Nat) (x : Team) : (s.setTeam k x).requests = s.requests := rfl
@[simp] theorem State.setTeam_poolWaits (s : State) (k : Nat) (x : Team) : (s.setTeam k x).poolWaits = s.poolWaits := rfl
@[simp] theorem State.setTeam_replays (s : State) (k : Nat) (x : Team) : (s.setTeam k x).replays = s.replays := rfl
@[simp] theorem State.setTeam_moves (s : State) (k : Nat) (x : Team) : (s.setTeam k x).moves = s.moves := rfl
@[simp] theorem State.setTeam_l2 (s : State) (k : Nat) (x : Team) : (s.setTeam k x).l2 = s.l2 := rfl
@[simp] theorem State.setTeam_coreLines (s : State) (k : Nat) (x : Team) : (s.setTeam k x).coreLines = s.coreLines := rfl
@[simp] theorem State.setTeam_pathMons (s : State) (k : Nat) (x : Team) : (s.setTeam k x).pathMons = s.pathMons := rfl
@[simp] theorem State.setTeam_harts (s : State) (k : Nat) (x : Team) : (s.setTeam k x).harts = s.harts := rfl
@[simp] theorem State.setTeam_coreErrs (s : State) (k : Nat) (x : Team) : (s.setTeam k x).coreErrs = s.coreErrs := rfl
@[simp] theorem State.setTeam_coreFlips (s : State) (k : Nat) (x : Team) : (s.setTeam k x).coreFlips = s.coreFlips := rfl
@[simp] theorem State.setTeam_launches (s : State) (k : Nat) (x : Team) : (s.setTeam k x).launches = s.launches := rfl
@[simp] theorem State.setTeam_teams (s : State) (k : Nat) (x : Team) : (s.setTeam k x).teams = mset s.teams k x := rfl
@[simp] theorem State.setTeam_groups (s : State) (k : Nat) (x : Team) : (s.setTeam k x).groups = s.groups := rfl
@[simp] theorem State.setTeam_tiles (s : State) (k : Nat) (x : Team) : (s.setTeam k x).tiles = s.tiles := rfl
@[simp] theorem State.setTeam_ops (s : State) (k : Nat) (x : Team) : (s.setTeam k x).ops = s.ops := rfl
@[simp] theorem State.setTeam_objs (s : State) (k : Nat) (x : Team) : (s.setTeam k x).objs = s.objs := rfl
@[simp] theorem State.setTeam_trans (s : State) (k : Nat) (x : Team) : (s.setTeam k x).trans = s.trans := rfl
@[simp] theorem State.setTeam_building (s : State) (k : Nat) (x : Team) : (s.setTeam k x).building = s.building := rfl
@[simp] theorem State.setTeam_streams (s : State) (k : Nat) (x : Team) : (s.setTeam k x).streams = s.streams := rfl
@[simp] theorem State.setTeam_ides (s : State) (k : Nat) (x : Team) : (s.setTeam k x).ides = s.ides := rfl
@[simp] theorem State.setTeam_far (s : State) (k : Nat) (x : Team) : (s.setTeam k x).far = s.far := rfl
@[simp] theorem State.setTeam_peers (s : State) (k : Nat) (x : Team) : (s.setTeam k x).peers = s.peers := rfl
@[simp] theorem State.setTeam_replay (s : State) (k : Nat) (x : Team) : (s.setTeam k x).replay = s.replay := rfl
@[simp] theorem State.setTeam_colls (s : State) (k : Nat) (x : Team) : (s.setTeam k x).colls = s.colls := rfl
@[simp] theorem State.setTeam_cuts (s : State) (k : Nat) (x : Team) : (s.setTeam k x).cuts = s.cuts := rfl
@[simp] theorem State.setTeam_rakes (s : State) (k : Nat) (x : Team) : (s.setTeam k x).rakes = s.rakes := rfl
@[simp] theorem State.setTeam_xctls (s : State) (k : Nat) (x : Team) : (s.setTeam k x).xctls = s.xctls := rfl
@[simp] theorem State.setTeam_storage (s : State) (k : Nat) (x : Team) : (s.setTeam k x).storage = s.storage := rfl
@[simp] theorem State.setTeam_replies (s : State) (k : Nat) (x : Team) : (s.setTeam k x).replies = s.replies := rfl

@[simp] theorem State.setGroup_turns (s : State) (k : Nat) (x : Group) : (s.setGroup k x).turns = s.turns := rfl
@[simp] theorem State.setGroup_cur (s : State) (k : Nat) (x : Group) : (s.setGroup k x).cur = s.cur := rfl
@[simp] theorem State.setGroup_curHart (s : State) (k : Nat) (x : Group) : (s.setGroup k x).curHart = s.curHart := rfl
@[simp] theorem State.setGroup_free (s : State) (k : Nat) (x : Group) : (s.setGroup k x).free = s.free := rfl
@[simp] theorem State.setGroup_next (s : State) (k : Nat) (x : Group) : (s.setGroup k x).next = s.next := rfl
@[simp] theorem State.setGroup_mgmt (s : State) (k : Nat) (x : Group) : (s.setGroup k x).mgmt = s.mgmt := rfl
@[simp] theorem State.setGroup_funcs (s : State) (k : Nat) (x : Group) : (s.setGroup k x).funcs = s.funcs := rfl
@[simp] theorem State.setGroup_fabricF (s : State) (k : Nat) (x : Group) : (s.setGroup k x).fabricF = s.fabricF := rfl
@[simp] theorem State.setGroup_fabricP (s : State) (k : Nat) (x : Group) : (s.setGroup k x).fabricP = s.fabricP := rfl
@[simp] theorem State.setGroup_clocks (s : State) (k : Nat) (x : Group) : (s.setGroup k x).clocks = s.clocks := rfl
@[simp] theorem State.setGroup_deficits (s : State) (k : Nat) (x : Group) : (s.setGroup k x).deficits = s.deficits := rfl
@[simp] theorem State.setGroup_holders (s : State) (k : Nat) (x : Group) : (s.setGroup k x).holders = s.holders := rfl
@[simp] theorem State.setGroup_cycles (s : State) (k : Nat) (x : Group) : (s.setGroup k x).cycles = s.cycles := rfl
@[simp] theorem State.setGroup_gcycles (s : State) (k : Nat) (x : Group) : (s.setGroup k x).gcycles = s.gcycles := rfl
@[simp] theorem State.setGroup_keys (s : State) (k : Nat) (x : Group) : (s.setGroup k x).keys = s.keys := rfl
@[simp] theorem State.setGroup_parts (s : State) (k : Nat) (x : Group) : (s.setGroup k x).parts = s.parts := rfl
@[simp] theorem State.setGroup_encls (s : State) (k : Nat) (x : Group) : (s.setGroup k x).encls = s.encls := rfl
@[simp] theorem State.setGroup_pot (s : State) (k : Nat) (x : Group) : (s.setGroup k x).pot = s.pot := rfl
@[simp] theorem State.setGroup_potParts (s : State) (k : Nat) (x : Group) : (s.setGroup k x).potParts = s.potParts := rfl
@[simp] theorem State.setGroup_lineMask (s : State) (k : Nat) (x : Group) : (s.setGroup k x).lineMask = s.lineMask := rfl
@[simp] theorem State.setGroup_cleanKey (s : State) (k : Nat) (x : Group) : (s.setGroup k x).cleanKey = s.cleanKey := rfl
@[simp] theorem State.setGroup_hbm (s : State) (k : Nat) (x : Group) : (s.setGroup k x).hbm = s.hbm := rfl
@[simp] theorem State.setGroup_carve (s : State) (k : Nat) (x : Group) : (s.setGroup k x).carve = s.carve := rfl
@[simp] theorem State.setGroup_searches (s : State) (k : Nat) (x : Group) : (s.setGroup k x).searches = s.searches := rfl
@[simp] theorem State.setGroup_mem (s : State) (k : Nat) (x : Group) : (s.setGroup k x).mem = s.mem := rfl
@[simp] theorem State.setGroup_resv (s : State) (k : Nat) (x : Group) : (s.setGroup k x).resv = s.resv := rfl
@[simp] theorem State.setGroup_tlb (s : State) (k : Nat) (x : Group) : (s.setGroup k x).tlb = s.tlb := rfl
@[simp] theorem State.setGroup_walks (s : State) (k : Nat) (x : Group) : (s.setGroup k x).walks = s.walks := rfl
@[simp] theorem State.setGroup_moving (s : State) (k : Nat) (x : Group) : (s.setGroup k x).moving = s.moving := rfl
@[simp] theorem State.setGroup_requests (s : State) (k : Nat) (x : Group) : (s.setGroup k x).requests = s.requests := rfl
@[simp] theorem State.setGroup_poolWaits (s : State) (k : Nat) (x : Group) : (s.setGroup k x).poolWaits = s.poolWaits := rfl
@[simp] theorem State.setGroup_replays (s : State) (k : Nat) (x : Group) : (s.setGroup k x).replays = s.replays := rfl
@[simp] theorem State.setGroup_moves (s : State) (k : Nat) (x : Group) : (s.setGroup k x).moves = s.moves := rfl
@[simp] theorem State.setGroup_l2 (s : State) (k : Nat) (x : Group) : (s.setGroup k x).l2 = s.l2 := rfl
@[simp] theorem State.setGroup_coreLines (s : State) (k : Nat) (x : Group) : (s.setGroup k x).coreLines = s.coreLines := rfl
@[simp] theorem State.setGroup_pathMons (s : State) (k : Nat) (x : Group) : (s.setGroup k x).pathMons = s.pathMons := rfl
@[simp] theorem State.setGroup_harts (s : State) (k : Nat) (x : Group) : (s.setGroup k x).harts = s.harts := rfl
@[simp] theorem State.setGroup_coreErrs (s : State) (k : Nat) (x : Group) : (s.setGroup k x).coreErrs = s.coreErrs := rfl
@[simp] theorem State.setGroup_coreFlips (s : State) (k : Nat) (x : Group) : (s.setGroup k x).coreFlips = s.coreFlips := rfl
@[simp] theorem State.setGroup_launches (s : State) (k : Nat) (x : Group) : (s.setGroup k x).launches = s.launches := rfl
@[simp] theorem State.setGroup_teams (s : State) (k : Nat) (x : Group) : (s.setGroup k x).teams = s.teams := rfl
@[simp] theorem State.setGroup_groups (s : State) (k : Nat) (x : Group) : (s.setGroup k x).groups = mset s.groups k x := rfl
@[simp] theorem State.setGroup_tiles (s : State) (k : Nat) (x : Group) : (s.setGroup k x).tiles = s.tiles := rfl
@[simp] theorem State.setGroup_ops (s : State) (k : Nat) (x : Group) : (s.setGroup k x).ops = s.ops := rfl
@[simp] theorem State.setGroup_objs (s : State) (k : Nat) (x : Group) : (s.setGroup k x).objs = s.objs := rfl
@[simp] theorem State.setGroup_trans (s : State) (k : Nat) (x : Group) : (s.setGroup k x).trans = s.trans := rfl
@[simp] theorem State.setGroup_building (s : State) (k : Nat) (x : Group) : (s.setGroup k x).building = s.building := rfl
@[simp] theorem State.setGroup_streams (s : State) (k : Nat) (x : Group) : (s.setGroup k x).streams = s.streams := rfl
@[simp] theorem State.setGroup_ides (s : State) (k : Nat) (x : Group) : (s.setGroup k x).ides = s.ides := rfl
@[simp] theorem State.setGroup_far (s : State) (k : Nat) (x : Group) : (s.setGroup k x).far = s.far := rfl
@[simp] theorem State.setGroup_peers (s : State) (k : Nat) (x : Group) : (s.setGroup k x).peers = s.peers := rfl
@[simp] theorem State.setGroup_replay (s : State) (k : Nat) (x : Group) : (s.setGroup k x).replay = s.replay := rfl
@[simp] theorem State.setGroup_colls (s : State) (k : Nat) (x : Group) : (s.setGroup k x).colls = s.colls := rfl
@[simp] theorem State.setGroup_cuts (s : State) (k : Nat) (x : Group) : (s.setGroup k x).cuts = s.cuts := rfl
@[simp] theorem State.setGroup_rakes (s : State) (k : Nat) (x : Group) : (s.setGroup k x).rakes = s.rakes := rfl
@[simp] theorem State.setGroup_xctls (s : State) (k : Nat) (x : Group) : (s.setGroup k x).xctls = s.xctls := rfl
@[simp] theorem State.setGroup_storage (s : State) (k : Nat) (x : Group) : (s.setGroup k x).storage = s.storage := rfl
@[simp] theorem State.setGroup_replies (s : State) (k : Nat) (x : Group) : (s.setGroup k x).replies = s.replies := rfl

@[simp] theorem State.setHart_turns (s : State) (k : Nat) (x : Hart) : (s.setHart k x).turns = s.turns := rfl
@[simp] theorem State.setHart_cur (s : State) (k : Nat) (x : Hart) : (s.setHart k x).cur = s.cur := rfl
@[simp] theorem State.setHart_curHart (s : State) (k : Nat) (x : Hart) : (s.setHart k x).curHart = s.curHart := rfl
@[simp] theorem State.setHart_free (s : State) (k : Nat) (x : Hart) : (s.setHart k x).free = s.free := rfl
@[simp] theorem State.setHart_next (s : State) (k : Nat) (x : Hart) : (s.setHart k x).next = s.next := rfl
@[simp] theorem State.setHart_mgmt (s : State) (k : Nat) (x : Hart) : (s.setHart k x).mgmt = s.mgmt := rfl
@[simp] theorem State.setHart_funcs (s : State) (k : Nat) (x : Hart) : (s.setHart k x).funcs = s.funcs := rfl
@[simp] theorem State.setHart_fabricF (s : State) (k : Nat) (x : Hart) : (s.setHart k x).fabricF = s.fabricF := rfl
@[simp] theorem State.setHart_fabricP (s : State) (k : Nat) (x : Hart) : (s.setHart k x).fabricP = s.fabricP := rfl
@[simp] theorem State.setHart_clocks (s : State) (k : Nat) (x : Hart) : (s.setHart k x).clocks = s.clocks := rfl
@[simp] theorem State.setHart_deficits (s : State) (k : Nat) (x : Hart) : (s.setHart k x).deficits = s.deficits := rfl
@[simp] theorem State.setHart_holders (s : State) (k : Nat) (x : Hart) : (s.setHart k x).holders = s.holders := rfl
@[simp] theorem State.setHart_cycles (s : State) (k : Nat) (x : Hart) : (s.setHart k x).cycles = s.cycles := rfl
@[simp] theorem State.setHart_gcycles (s : State) (k : Nat) (x : Hart) : (s.setHart k x).gcycles = s.gcycles := rfl
@[simp] theorem State.setHart_keys (s : State) (k : Nat) (x : Hart) : (s.setHart k x).keys = s.keys := rfl
@[simp] theorem State.setHart_parts (s : State) (k : Nat) (x : Hart) : (s.setHart k x).parts = s.parts := rfl
@[simp] theorem State.setHart_encls (s : State) (k : Nat) (x : Hart) : (s.setHart k x).encls = s.encls := rfl
@[simp] theorem State.setHart_pot (s : State) (k : Nat) (x : Hart) : (s.setHart k x).pot = s.pot := rfl
@[simp] theorem State.setHart_potParts (s : State) (k : Nat) (x : Hart) : (s.setHart k x).potParts = s.potParts := rfl
@[simp] theorem State.setHart_lineMask (s : State) (k : Nat) (x : Hart) : (s.setHart k x).lineMask = s.lineMask := rfl
@[simp] theorem State.setHart_cleanKey (s : State) (k : Nat) (x : Hart) : (s.setHart k x).cleanKey = s.cleanKey := rfl
@[simp] theorem State.setHart_hbm (s : State) (k : Nat) (x : Hart) : (s.setHart k x).hbm = s.hbm := rfl
@[simp] theorem State.setHart_carve (s : State) (k : Nat) (x : Hart) : (s.setHart k x).carve = s.carve := rfl
@[simp] theorem State.setHart_searches (s : State) (k : Nat) (x : Hart) : (s.setHart k x).searches = s.searches := rfl
@[simp] theorem State.setHart_mem (s : State) (k : Nat) (x : Hart) : (s.setHart k x).mem = s.mem := rfl
@[simp] theorem State.setHart_resv (s : State) (k : Nat) (x : Hart) : (s.setHart k x).resv = s.resv := rfl
@[simp] theorem State.setHart_tlb (s : State) (k : Nat) (x : Hart) : (s.setHart k x).tlb = s.tlb := rfl
@[simp] theorem State.setHart_walks (s : State) (k : Nat) (x : Hart) : (s.setHart k x).walks = s.walks := rfl
@[simp] theorem State.setHart_moving (s : State) (k : Nat) (x : Hart) : (s.setHart k x).moving = s.moving := rfl
@[simp] theorem State.setHart_requests (s : State) (k : Nat) (x : Hart) : (s.setHart k x).requests = s.requests := rfl
@[simp] theorem State.setHart_poolWaits (s : State) (k : Nat) (x : Hart) : (s.setHart k x).poolWaits = s.poolWaits := rfl
@[simp] theorem State.setHart_replays (s : State) (k : Nat) (x : Hart) : (s.setHart k x).replays = s.replays := rfl
@[simp] theorem State.setHart_moves (s : State) (k : Nat) (x : Hart) : (s.setHart k x).moves = s.moves := rfl
@[simp] theorem State.setHart_l2 (s : State) (k : Nat) (x : Hart) : (s.setHart k x).l2 = s.l2 := rfl
@[simp] theorem State.setHart_coreLines (s : State) (k : Nat) (x : Hart) : (s.setHart k x).coreLines = s.coreLines := rfl
@[simp] theorem State.setHart_pathMons (s : State) (k : Nat) (x : Hart) : (s.setHart k x).pathMons = s.pathMons := rfl
@[simp] theorem State.setHart_harts (s : State) (k : Nat) (x : Hart) : (s.setHart k x).harts = mset s.harts k x := rfl
@[simp] theorem State.setHart_coreErrs (s : State) (k : Nat) (x : Hart) : (s.setHart k x).coreErrs = s.coreErrs := rfl
@[simp] theorem State.setHart_coreFlips (s : State) (k : Nat) (x : Hart) : (s.setHart k x).coreFlips = s.coreFlips := rfl
@[simp] theorem State.setHart_launches (s : State) (k : Nat) (x : Hart) : (s.setHart k x).launches = s.launches := rfl
@[simp] theorem State.setHart_teams (s : State) (k : Nat) (x : Hart) : (s.setHart k x).teams = s.teams := rfl
@[simp] theorem State.setHart_groups (s : State) (k : Nat) (x : Hart) : (s.setHart k x).groups = s.groups := rfl
@[simp] theorem State.setHart_tiles (s : State) (k : Nat) (x : Hart) : (s.setHart k x).tiles = s.tiles := rfl
@[simp] theorem State.setHart_ops (s : State) (k : Nat) (x : Hart) : (s.setHart k x).ops = s.ops := rfl
@[simp] theorem State.setHart_objs (s : State) (k : Nat) (x : Hart) : (s.setHart k x).objs = s.objs := rfl
@[simp] theorem State.setHart_trans (s : State) (k : Nat) (x : Hart) : (s.setHart k x).trans = s.trans := rfl
@[simp] theorem State.setHart_building (s : State) (k : Nat) (x : Hart) : (s.setHart k x).building = s.building := rfl
@[simp] theorem State.setHart_streams (s : State) (k : Nat) (x : Hart) : (s.setHart k x).streams = s.streams := rfl
@[simp] theorem State.setHart_ides (s : State) (k : Nat) (x : Hart) : (s.setHart k x).ides = s.ides := rfl
@[simp] theorem State.setHart_far (s : State) (k : Nat) (x : Hart) : (s.setHart k x).far = s.far := rfl
@[simp] theorem State.setHart_peers (s : State) (k : Nat) (x : Hart) : (s.setHart k x).peers = s.peers := rfl
@[simp] theorem State.setHart_replay (s : State) (k : Nat) (x : Hart) : (s.setHart k x).replay = s.replay := rfl
@[simp] theorem State.setHart_colls (s : State) (k : Nat) (x : Hart) : (s.setHart k x).colls = s.colls := rfl
@[simp] theorem State.setHart_cuts (s : State) (k : Nat) (x : Hart) : (s.setHart k x).cuts = s.cuts := rfl
@[simp] theorem State.setHart_rakes (s : State) (k : Nat) (x : Hart) : (s.setHart k x).rakes = s.rakes := rfl
@[simp] theorem State.setHart_xctls (s : State) (k : Nat) (x : Hart) : (s.setHart k x).xctls = s.xctls := rfl
@[simp] theorem State.setHart_storage (s : State) (k : Nat) (x : Hart) : (s.setHart k x).storage = s.storage := rfl
@[simp] theorem State.setHart_replies (s : State) (k : Nat) (x : Hart) : (s.setHart k x).replies = s.replies := rfl

@[simp] theorem State.setStream_turns (s : State) (k : Nat) (x : Stream) : (s.setStream k x).turns = s.turns := rfl
@[simp] theorem State.setStream_cur (s : State) (k : Nat) (x : Stream) : (s.setStream k x).cur = s.cur := rfl
@[simp] theorem State.setStream_curHart (s : State) (k : Nat) (x : Stream) : (s.setStream k x).curHart = s.curHart := rfl
@[simp] theorem State.setStream_free (s : State) (k : Nat) (x : Stream) : (s.setStream k x).free = s.free := rfl
@[simp] theorem State.setStream_next (s : State) (k : Nat) (x : Stream) : (s.setStream k x).next = s.next := rfl
@[simp] theorem State.setStream_mgmt (s : State) (k : Nat) (x : Stream) : (s.setStream k x).mgmt = s.mgmt := rfl
@[simp] theorem State.setStream_funcs (s : State) (k : Nat) (x : Stream) : (s.setStream k x).funcs = s.funcs := rfl
@[simp] theorem State.setStream_fabricF (s : State) (k : Nat) (x : Stream) : (s.setStream k x).fabricF = s.fabricF := rfl
@[simp] theorem State.setStream_fabricP (s : State) (k : Nat) (x : Stream) : (s.setStream k x).fabricP = s.fabricP := rfl
@[simp] theorem State.setStream_clocks (s : State) (k : Nat) (x : Stream) : (s.setStream k x).clocks = s.clocks := rfl
@[simp] theorem State.setStream_deficits (s : State) (k : Nat) (x : Stream) : (s.setStream k x).deficits = s.deficits := rfl
@[simp] theorem State.setStream_holders (s : State) (k : Nat) (x : Stream) : (s.setStream k x).holders = s.holders := rfl
@[simp] theorem State.setStream_cycles (s : State) (k : Nat) (x : Stream) : (s.setStream k x).cycles = s.cycles := rfl
@[simp] theorem State.setStream_gcycles (s : State) (k : Nat) (x : Stream) : (s.setStream k x).gcycles = s.gcycles := rfl
@[simp] theorem State.setStream_keys (s : State) (k : Nat) (x : Stream) : (s.setStream k x).keys = s.keys := rfl
@[simp] theorem State.setStream_parts (s : State) (k : Nat) (x : Stream) : (s.setStream k x).parts = s.parts := rfl
@[simp] theorem State.setStream_encls (s : State) (k : Nat) (x : Stream) : (s.setStream k x).encls = s.encls := rfl
@[simp] theorem State.setStream_pot (s : State) (k : Nat) (x : Stream) : (s.setStream k x).pot = s.pot := rfl
@[simp] theorem State.setStream_potParts (s : State) (k : Nat) (x : Stream) : (s.setStream k x).potParts = s.potParts := rfl
@[simp] theorem State.setStream_lineMask (s : State) (k : Nat) (x : Stream) : (s.setStream k x).lineMask = s.lineMask := rfl
@[simp] theorem State.setStream_cleanKey (s : State) (k : Nat) (x : Stream) : (s.setStream k x).cleanKey = s.cleanKey := rfl
@[simp] theorem State.setStream_hbm (s : State) (k : Nat) (x : Stream) : (s.setStream k x).hbm = s.hbm := rfl
@[simp] theorem State.setStream_carve (s : State) (k : Nat) (x : Stream) : (s.setStream k x).carve = s.carve := rfl
@[simp] theorem State.setStream_searches (s : State) (k : Nat) (x : Stream) : (s.setStream k x).searches = s.searches := rfl
@[simp] theorem State.setStream_mem (s : State) (k : Nat) (x : Stream) : (s.setStream k x).mem = s.mem := rfl
@[simp] theorem State.setStream_resv (s : State) (k : Nat) (x : Stream) : (s.setStream k x).resv = s.resv := rfl
@[simp] theorem State.setStream_tlb (s : State) (k : Nat) (x : Stream) : (s.setStream k x).tlb = s.tlb := rfl
@[simp] theorem State.setStream_walks (s : State) (k : Nat) (x : Stream) : (s.setStream k x).walks = s.walks := rfl
@[simp] theorem State.setStream_moving (s : State) (k : Nat) (x : Stream) : (s.setStream k x).moving = s.moving := rfl
@[simp] theorem State.setStream_requests (s : State) (k : Nat) (x : Stream) : (s.setStream k x).requests = s.requests := rfl
@[simp] theorem State.setStream_poolWaits (s : State) (k : Nat) (x : Stream) : (s.setStream k x).poolWaits = s.poolWaits := rfl
@[simp] theorem State.setStream_replays (s : State) (k : Nat) (x : Stream) : (s.setStream k x).replays = s.replays := rfl
@[simp] theorem State.setStream_moves (s : State) (k : Nat) (x : Stream) : (s.setStream k x).moves = s.moves := rfl
@[simp] theorem State.setStream_l2 (s : State) (k : Nat) (x : Stream) : (s.setStream k x).l2 = s.l2 := rfl
@[simp] theorem State.setStream_coreLines (s : State) (k : Nat) (x : Stream) : (s.setStream k x).coreLines = s.coreLines := rfl
@[simp] theorem State.setStream_pathMons (s : State) (k : Nat) (x : Stream) : (s.setStream k x).pathMons = s.pathMons := rfl
@[simp] theorem State.setStream_harts (s : State) (k : Nat) (x : Stream) : (s.setStream k x).harts = s.harts := rfl
@[simp] theorem State.setStream_coreErrs (s : State) (k : Nat) (x : Stream) : (s.setStream k x).coreErrs = s.coreErrs := rfl
@[simp] theorem State.setStream_coreFlips (s : State) (k : Nat) (x : Stream) : (s.setStream k x).coreFlips = s.coreFlips := rfl
@[simp] theorem State.setStream_launches (s : State) (k : Nat) (x : Stream) : (s.setStream k x).launches = s.launches := rfl
@[simp] theorem State.setStream_teams (s : State) (k : Nat) (x : Stream) : (s.setStream k x).teams = s.teams := rfl
@[simp] theorem State.setStream_groups (s : State) (k : Nat) (x : Stream) : (s.setStream k x).groups = s.groups := rfl
@[simp] theorem State.setStream_tiles (s : State) (k : Nat) (x : Stream) : (s.setStream k x).tiles = s.tiles := rfl
@[simp] theorem State.setStream_ops (s : State) (k : Nat) (x : Stream) : (s.setStream k x).ops = s.ops := rfl
@[simp] theorem State.setStream_objs (s : State) (k : Nat) (x : Stream) : (s.setStream k x).objs = s.objs := rfl
@[simp] theorem State.setStream_trans (s : State) (k : Nat) (x : Stream) : (s.setStream k x).trans = s.trans := rfl
@[simp] theorem State.setStream_building (s : State) (k : Nat) (x : Stream) : (s.setStream k x).building = s.building := rfl
@[simp] theorem State.setStream_streams (s : State) (k : Nat) (x : Stream) : (s.setStream k x).streams = mset s.streams k x := rfl
@[simp] theorem State.setStream_ides (s : State) (k : Nat) (x : Stream) : (s.setStream k x).ides = s.ides := rfl
@[simp] theorem State.setStream_far (s : State) (k : Nat) (x : Stream) : (s.setStream k x).far = s.far := rfl
@[simp] theorem State.setStream_peers (s : State) (k : Nat) (x : Stream) : (s.setStream k x).peers = s.peers := rfl
@[simp] theorem State.setStream_replay (s : State) (k : Nat) (x : Stream) : (s.setStream k x).replay = s.replay := rfl
@[simp] theorem State.setStream_colls (s : State) (k : Nat) (x : Stream) : (s.setStream k x).colls = s.colls := rfl
@[simp] theorem State.setStream_cuts (s : State) (k : Nat) (x : Stream) : (s.setStream k x).cuts = s.cuts := rfl
@[simp] theorem State.setStream_rakes (s : State) (k : Nat) (x : Stream) : (s.setStream k x).rakes = s.rakes := rfl
@[simp] theorem State.setStream_xctls (s : State) (k : Nat) (x : Stream) : (s.setStream k x).xctls = s.xctls := rfl
@[simp] theorem State.setStream_storage (s : State) (k : Nat) (x : Stream) : (s.setStream k x).storage = s.storage := rfl
@[simp] theorem State.setStream_replies (s : State) (k : Nat) (x : Stream) : (s.setStream k x).replies = s.replies := rfl

@[simp] theorem State.setIde_turns (s : State) (k : Nat) (x : Ide) : (s.setIde k x).turns = s.turns := rfl
@[simp] theorem State.setIde_cur (s : State) (k : Nat) (x : Ide) : (s.setIde k x).cur = s.cur := rfl
@[simp] theorem State.setIde_curHart (s : State) (k : Nat) (x : Ide) : (s.setIde k x).curHart = s.curHart := rfl
@[simp] theorem State.setIde_free (s : State) (k : Nat) (x : Ide) : (s.setIde k x).free = s.free := rfl
@[simp] theorem State.setIde_next (s : State) (k : Nat) (x : Ide) : (s.setIde k x).next = s.next := rfl
@[simp] theorem State.setIde_mgmt (s : State) (k : Nat) (x : Ide) : (s.setIde k x).mgmt = s.mgmt := rfl
@[simp] theorem State.setIde_funcs (s : State) (k : Nat) (x : Ide) : (s.setIde k x).funcs = s.funcs := rfl
@[simp] theorem State.setIde_fabricF (s : State) (k : Nat) (x : Ide) : (s.setIde k x).fabricF = s.fabricF := rfl
@[simp] theorem State.setIde_fabricP (s : State) (k : Nat) (x : Ide) : (s.setIde k x).fabricP = s.fabricP := rfl
@[simp] theorem State.setIde_clocks (s : State) (k : Nat) (x : Ide) : (s.setIde k x).clocks = s.clocks := rfl
@[simp] theorem State.setIde_deficits (s : State) (k : Nat) (x : Ide) : (s.setIde k x).deficits = s.deficits := rfl
@[simp] theorem State.setIde_holders (s : State) (k : Nat) (x : Ide) : (s.setIde k x).holders = s.holders := rfl
@[simp] theorem State.setIde_cycles (s : State) (k : Nat) (x : Ide) : (s.setIde k x).cycles = s.cycles := rfl
@[simp] theorem State.setIde_gcycles (s : State) (k : Nat) (x : Ide) : (s.setIde k x).gcycles = s.gcycles := rfl
@[simp] theorem State.setIde_keys (s : State) (k : Nat) (x : Ide) : (s.setIde k x).keys = s.keys := rfl
@[simp] theorem State.setIde_parts (s : State) (k : Nat) (x : Ide) : (s.setIde k x).parts = s.parts := rfl
@[simp] theorem State.setIde_encls (s : State) (k : Nat) (x : Ide) : (s.setIde k x).encls = s.encls := rfl
@[simp] theorem State.setIde_pot (s : State) (k : Nat) (x : Ide) : (s.setIde k x).pot = s.pot := rfl
@[simp] theorem State.setIde_potParts (s : State) (k : Nat) (x : Ide) : (s.setIde k x).potParts = s.potParts := rfl
@[simp] theorem State.setIde_lineMask (s : State) (k : Nat) (x : Ide) : (s.setIde k x).lineMask = s.lineMask := rfl
@[simp] theorem State.setIde_cleanKey (s : State) (k : Nat) (x : Ide) : (s.setIde k x).cleanKey = s.cleanKey := rfl
@[simp] theorem State.setIde_hbm (s : State) (k : Nat) (x : Ide) : (s.setIde k x).hbm = s.hbm := rfl
@[simp] theorem State.setIde_carve (s : State) (k : Nat) (x : Ide) : (s.setIde k x).carve = s.carve := rfl
@[simp] theorem State.setIde_searches (s : State) (k : Nat) (x : Ide) : (s.setIde k x).searches = s.searches := rfl
@[simp] theorem State.setIde_mem (s : State) (k : Nat) (x : Ide) : (s.setIde k x).mem = s.mem := rfl
@[simp] theorem State.setIde_resv (s : State) (k : Nat) (x : Ide) : (s.setIde k x).resv = s.resv := rfl
@[simp] theorem State.setIde_tlb (s : State) (k : Nat) (x : Ide) : (s.setIde k x).tlb = s.tlb := rfl
@[simp] theorem State.setIde_walks (s : State) (k : Nat) (x : Ide) : (s.setIde k x).walks = s.walks := rfl
@[simp] theorem State.setIde_moving (s : State) (k : Nat) (x : Ide) : (s.setIde k x).moving = s.moving := rfl
@[simp] theorem State.setIde_requests (s : State) (k : Nat) (x : Ide) : (s.setIde k x).requests = s.requests := rfl
@[simp] theorem State.setIde_poolWaits (s : State) (k : Nat) (x : Ide) : (s.setIde k x).poolWaits = s.poolWaits := rfl
@[simp] theorem State.setIde_replays (s : State) (k : Nat) (x : Ide) : (s.setIde k x).replays = s.replays := rfl
@[simp] theorem State.setIde_moves (s : State) (k : Nat) (x : Ide) : (s.setIde k x).moves = s.moves := rfl
@[simp] theorem State.setIde_l2 (s : State) (k : Nat) (x : Ide) : (s.setIde k x).l2 = s.l2 := rfl
@[simp] theorem State.setIde_coreLines (s : State) (k : Nat) (x : Ide) : (s.setIde k x).coreLines = s.coreLines := rfl
@[simp] theorem State.setIde_pathMons (s : State) (k : Nat) (x : Ide) : (s.setIde k x).pathMons = s.pathMons := rfl
@[simp] theorem State.setIde_harts (s : State) (k : Nat) (x : Ide) : (s.setIde k x).harts = s.harts := rfl
@[simp] theorem State.setIde_coreErrs (s : State) (k : Nat) (x : Ide) : (s.setIde k x).coreErrs = s.coreErrs := rfl
@[simp] theorem State.setIde_coreFlips (s : State) (k : Nat) (x : Ide) : (s.setIde k x).coreFlips = s.coreFlips := rfl
@[simp] theorem State.setIde_launches (s : State) (k : Nat) (x : Ide) : (s.setIde k x).launches = s.launches := rfl
@[simp] theorem State.setIde_teams (s : State) (k : Nat) (x : Ide) : (s.setIde k x).teams = s.teams := rfl
@[simp] theorem State.setIde_groups (s : State) (k : Nat) (x : Ide) : (s.setIde k x).groups = s.groups := rfl
@[simp] theorem State.setIde_tiles (s : State) (k : Nat) (x : Ide) : (s.setIde k x).tiles = s.tiles := rfl
@[simp] theorem State.setIde_ops (s : State) (k : Nat) (x : Ide) : (s.setIde k x).ops = s.ops := rfl
@[simp] theorem State.setIde_objs (s : State) (k : Nat) (x : Ide) : (s.setIde k x).objs = s.objs := rfl
@[simp] theorem State.setIde_trans (s : State) (k : Nat) (x : Ide) : (s.setIde k x).trans = s.trans := rfl
@[simp] theorem State.setIde_building (s : State) (k : Nat) (x : Ide) : (s.setIde k x).building = s.building := rfl
@[simp] theorem State.setIde_streams (s : State) (k : Nat) (x : Ide) : (s.setIde k x).streams = s.streams := rfl
@[simp] theorem State.setIde_ides (s : State) (k : Nat) (x : Ide) : (s.setIde k x).ides = mset s.ides k x := rfl
@[simp] theorem State.setIde_far (s : State) (k : Nat) (x : Ide) : (s.setIde k x).far = s.far := rfl
@[simp] theorem State.setIde_peers (s : State) (k : Nat) (x : Ide) : (s.setIde k x).peers = s.peers := rfl
@[simp] theorem State.setIde_replay (s : State) (k : Nat) (x : Ide) : (s.setIde k x).replay = s.replay := rfl
@[simp] theorem State.setIde_colls (s : State) (k : Nat) (x : Ide) : (s.setIde k x).colls = s.colls := rfl
@[simp] theorem State.setIde_cuts (s : State) (k : Nat) (x : Ide) : (s.setIde k x).cuts = s.cuts := rfl
@[simp] theorem State.setIde_rakes (s : State) (k : Nat) (x : Ide) : (s.setIde k x).rakes = s.rakes := rfl
@[simp] theorem State.setIde_xctls (s : State) (k : Nat) (x : Ide) : (s.setIde k x).xctls = s.xctls := rfl
@[simp] theorem State.setIde_storage (s : State) (k : Nat) (x : Ide) : (s.setIde k x).storage = s.storage := rfl
@[simp] theorem State.setIde_replies (s : State) (k : Nat) (x : Ide) : (s.setIde k x).replies = s.replies := rfl

@[simp] theorem State.setMgmt_turns (s : State) (x : Mgmt) : (s.setMgmt x).turns = s.turns := rfl
@[simp] theorem State.setMgmt_cur (s : State) (x : Mgmt) : (s.setMgmt x).cur = s.cur := rfl
@[simp] theorem State.setMgmt_curHart (s : State) (x : Mgmt) : (s.setMgmt x).curHart = s.curHart := rfl
@[simp] theorem State.setMgmt_free (s : State) (x : Mgmt) : (s.setMgmt x).free = s.free := rfl
@[simp] theorem State.setMgmt_next (s : State) (x : Mgmt) : (s.setMgmt x).next = s.next := rfl
@[simp] theorem State.setMgmt_mgmt (s : State) (x : Mgmt) : (s.setMgmt x).mgmt = x := rfl
@[simp] theorem State.setMgmt_funcs (s : State) (x : Mgmt) : (s.setMgmt x).funcs = s.funcs := rfl
@[simp] theorem State.setMgmt_fabricF (s : State) (x : Mgmt) : (s.setMgmt x).fabricF = s.fabricF := rfl
@[simp] theorem State.setMgmt_fabricP (s : State) (x : Mgmt) : (s.setMgmt x).fabricP = s.fabricP := rfl
@[simp] theorem State.setMgmt_clocks (s : State) (x : Mgmt) : (s.setMgmt x).clocks = s.clocks := rfl
@[simp] theorem State.setMgmt_deficits (s : State) (x : Mgmt) : (s.setMgmt x).deficits = s.deficits := rfl
@[simp] theorem State.setMgmt_holders (s : State) (x : Mgmt) : (s.setMgmt x).holders = s.holders := rfl
@[simp] theorem State.setMgmt_cycles (s : State) (x : Mgmt) : (s.setMgmt x).cycles = s.cycles := rfl
@[simp] theorem State.setMgmt_gcycles (s : State) (x : Mgmt) : (s.setMgmt x).gcycles = s.gcycles := rfl
@[simp] theorem State.setMgmt_keys (s : State) (x : Mgmt) : (s.setMgmt x).keys = s.keys := rfl
@[simp] theorem State.setMgmt_parts (s : State) (x : Mgmt) : (s.setMgmt x).parts = s.parts := rfl
@[simp] theorem State.setMgmt_encls (s : State) (x : Mgmt) : (s.setMgmt x).encls = s.encls := rfl
@[simp] theorem State.setMgmt_pot (s : State) (x : Mgmt) : (s.setMgmt x).pot = s.pot := rfl
@[simp] theorem State.setMgmt_potParts (s : State) (x : Mgmt) : (s.setMgmt x).potParts = s.potParts := rfl
@[simp] theorem State.setMgmt_lineMask (s : State) (x : Mgmt) : (s.setMgmt x).lineMask = s.lineMask := rfl
@[simp] theorem State.setMgmt_cleanKey (s : State) (x : Mgmt) : (s.setMgmt x).cleanKey = s.cleanKey := rfl
@[simp] theorem State.setMgmt_hbm (s : State) (x : Mgmt) : (s.setMgmt x).hbm = s.hbm := rfl
@[simp] theorem State.setMgmt_carve (s : State) (x : Mgmt) : (s.setMgmt x).carve = s.carve := rfl
@[simp] theorem State.setMgmt_searches (s : State) (x : Mgmt) : (s.setMgmt x).searches = s.searches := rfl
@[simp] theorem State.setMgmt_mem (s : State) (x : Mgmt) : (s.setMgmt x).mem = s.mem := rfl
@[simp] theorem State.setMgmt_resv (s : State) (x : Mgmt) : (s.setMgmt x).resv = s.resv := rfl
@[simp] theorem State.setMgmt_tlb (s : State) (x : Mgmt) : (s.setMgmt x).tlb = s.tlb := rfl
@[simp] theorem State.setMgmt_walks (s : State) (x : Mgmt) : (s.setMgmt x).walks = s.walks := rfl
@[simp] theorem State.setMgmt_moving (s : State) (x : Mgmt) : (s.setMgmt x).moving = s.moving := rfl
@[simp] theorem State.setMgmt_requests (s : State) (x : Mgmt) : (s.setMgmt x).requests = s.requests := rfl
@[simp] theorem State.setMgmt_poolWaits (s : State) (x : Mgmt) : (s.setMgmt x).poolWaits = s.poolWaits := rfl
@[simp] theorem State.setMgmt_replays (s : State) (x : Mgmt) : (s.setMgmt x).replays = s.replays := rfl
@[simp] theorem State.setMgmt_moves (s : State) (x : Mgmt) : (s.setMgmt x).moves = s.moves := rfl
@[simp] theorem State.setMgmt_l2 (s : State) (x : Mgmt) : (s.setMgmt x).l2 = s.l2 := rfl
@[simp] theorem State.setMgmt_coreLines (s : State) (x : Mgmt) : (s.setMgmt x).coreLines = s.coreLines := rfl
@[simp] theorem State.setMgmt_pathMons (s : State) (x : Mgmt) : (s.setMgmt x).pathMons = s.pathMons := rfl
@[simp] theorem State.setMgmt_harts (s : State) (x : Mgmt) : (s.setMgmt x).harts = s.harts := rfl
@[simp] theorem State.setMgmt_coreErrs (s : State) (x : Mgmt) : (s.setMgmt x).coreErrs = s.coreErrs := rfl
@[simp] theorem State.setMgmt_coreFlips (s : State) (x : Mgmt) : (s.setMgmt x).coreFlips = s.coreFlips := rfl
@[simp] theorem State.setMgmt_launches (s : State) (x : Mgmt) : (s.setMgmt x).launches = s.launches := rfl
@[simp] theorem State.setMgmt_teams (s : State) (x : Mgmt) : (s.setMgmt x).teams = s.teams := rfl
@[simp] theorem State.setMgmt_groups (s : State) (x : Mgmt) : (s.setMgmt x).groups = s.groups := rfl
@[simp] theorem State.setMgmt_tiles (s : State) (x : Mgmt) : (s.setMgmt x).tiles = s.tiles := rfl
@[simp] theorem State.setMgmt_ops (s : State) (x : Mgmt) : (s.setMgmt x).ops = s.ops := rfl
@[simp] theorem State.setMgmt_objs (s : State) (x : Mgmt) : (s.setMgmt x).objs = s.objs := rfl
@[simp] theorem State.setMgmt_trans (s : State) (x : Mgmt) : (s.setMgmt x).trans = s.trans := rfl
@[simp] theorem State.setMgmt_building (s : State) (x : Mgmt) : (s.setMgmt x).building = s.building := rfl
@[simp] theorem State.setMgmt_streams (s : State) (x : Mgmt) : (s.setMgmt x).streams = s.streams := rfl
@[simp] theorem State.setMgmt_ides (s : State) (x : Mgmt) : (s.setMgmt x).ides = s.ides := rfl
@[simp] theorem State.setMgmt_far (s : State) (x : Mgmt) : (s.setMgmt x).far = s.far := rfl
@[simp] theorem State.setMgmt_peers (s : State) (x : Mgmt) : (s.setMgmt x).peers = s.peers := rfl
@[simp] theorem State.setMgmt_replay (s : State) (x : Mgmt) : (s.setMgmt x).replay = s.replay := rfl
@[simp] theorem State.setMgmt_colls (s : State) (x : Mgmt) : (s.setMgmt x).colls = s.colls := rfl
@[simp] theorem State.setMgmt_cuts (s : State) (x : Mgmt) : (s.setMgmt x).cuts = s.cuts := rfl
@[simp] theorem State.setMgmt_rakes (s : State) (x : Mgmt) : (s.setMgmt x).rakes = s.rakes := rfl
@[simp] theorem State.setMgmt_xctls (s : State) (x : Mgmt) : (s.setMgmt x).xctls = s.xctls := rfl
@[simp] theorem State.setMgmt_storage (s : State) (x : Mgmt) : (s.setMgmt x).storage = s.storage := rfl
@[simp] theorem State.setMgmt_replies (s : State) (x : Mgmt) : (s.setMgmt x).replies = s.replies := rfl

end Sys2Proof.Machine
end

