-- ==== Sys2Proof/Laws/Path.lean ====
section
/-! SUPPORT. What completing an instruction does to its group, its lanes and the rest of the state, and what an instruction that
acts lane by lane comes to. -/

namespace Sys2Proof.Machine

set_option Elab.async false

/-! Masks and tables. -/

theorem mem_lanesOf {m : LaneMask} {l : Nat} : l ∈ lanesOf m ↔ l < 64 ∧ m.getLsbD l = true := by
  simp [lanesOf]

theorem nodup_lanesOf (m : LaneMask) : (lanesOf m).Nodup := List.Pairwise.filter _ List.nodup_range

theorem active_sub (x : Exe) (c : Ctl) {l : Nat} (h : l ∈ x.active c) : l ∈ x.lanes := by
  unfold Exe.active Exe.activeMask at h
  unfold Exe.lanes
  split at h
  · rw [mem_lanesOf] at *
    simp at h
    exact ⟨h.1, h.2.1⟩
  · exact h

theorem mget_map_self {α : Type} (f : Nat → α) : ∀ (ls : List Nat) (l : Nat),
    mget (ls.map fun n => (n, f n)) l = if l ∈ ls then some (f l) else none
  | [], l => rfl
  | n :: ls, l => by
      simp only [List.map_cons, mget, mget_map_self f ls l, List.mem_cons]
      by_cases h : n = l
      · subst h; simp
      · have h' : l ≠ n := fun e => h e.symm
        simp [h, h']

/-- Only active lanes take results. -/
theorem mget_active (x : Exe) (c : Ctl) {α : Type} (f : Nat → α) (l : Nat) (h : l ∉ x.lanes) : mget ((x.active c).map fun n => (n, f n)) l = none := by
  rw [mget_map_self, if_neg fun h' => h (active_sub x c h')]

theorem mget_of_mem_nodup {α : Type} {m : List (Nat × α)} {k : Nat} {v : α} (hm : (m.map Prod.fst).Nodup) (h : (k, v) ∈ m) :
    mget m k = some v := by
  induction m with
  | nil => cases h
  | cons q m ih =>
      obtain ⟨k', v'⟩ := q
      simp only [List.map_cons, List.nodup_cons] at hm
      rcases List.mem_cons.mp h with h | h
      · cases h; simp [mget]
      · have : k' ≠ k := by
          rintro rfl
          exact hm.1 (List.mem_map.mpr ⟨_, h, rfl⟩)
        simp [mget, this, ih hm.2 h]

/-! Lanes. -/

@[simp] theorem Lane.top_setTop (x : Lane) (f : Frame) : (x.setTop f).top = f := rfl
@[simp] theorem Lane.tail_setTop (x : Lane) (f : Frame) : (x.setTop f).frames.tail = x.frames.tail := rfl
@[simp] theorem Lane.edge_setTop (x : Lane) (f : Frame) : (x.setTop f).edge = x.edge := rfl

theorem Lane.val_define (x : Lane) (id n : Nat) (v : Val) : (x.define id v).val n = if n = id then some v else x.val n := by
  simp [Lane.define, Lane.val, mget_mset]

theorem Lane.val_erase (x : Lane) (id n : Nat) : (x.erase id).val n = if n = id then none else x.val n := by
  unfold Lane.erase Lane.val
  simp only [Lane.top_setTop]
  split
  · next h => subst h; simp
  · next h => exact mget_mdel_ne h _

/-- A lane with the edge, the outer frames and the rest of the innermost frame of another. -/
structure Lane.Keeps (x y : Lane) : Prop where
  edge : y.edge = x.edge
  tail : y.frames.tail = x.frames.tail
  top : ({ y.top with vals := x.top.vals } : Frame) = x.top

theorem Lane.Keeps.refl (x : Lane) : x.Keeps x := ⟨rfl, rfl, rfl⟩

theorem Lane.Keeps.trans {x y z : Lane} (h : x.Keeps y) (h' : y.Keeps z) : x.Keeps z := by
  refine ⟨h'.edge.trans h.edge, h'.tail.trans h.tail, ?_⟩
  have h1 := h.top; have h2 := h'.top
  revert h1 h2
  cases x.top; cases y.top; cases z.top
  simp only [Frame.mk.injEq, and_imp]
  rintro rfl rfl rfl _ rfl rfl rfl rfl _ rfl
  simp

theorem Lane.keeps_define (x : Lane) (id : Nat) (v : Val) : x.Keeps (x.define id v) := ⟨rfl, rfl, rfl⟩
theorem Lane.keeps_erase (x : Lane) (id : Nat) : x.Keeps (x.erase id) := ⟨rfl, rfl, rfl⟩

theorem Lane.keeps_eraseAll : ∀ (ids : List Nat) (x : Lane), x.Keeps (x.eraseAll ids)
  | [], x => .refl x
  | id :: ids, x => (x.keeps_erase id).trans (Lane.keeps_eraseAll ids _)

theorem Lane.keeps_defineAll : ∀ (vs : List Val) (x : Lane) (b : Nat), x.Keeps (x.defineAll b vs)
  | [], x, _ => .refl x
  | v :: vs, x, b => (x.keeps_define b v).trans (Lane.keeps_defineAll vs _ _)

theorem Lane.keeps_poisonAll : ∀ (n : Nat) (x : Lane) (b : Nat), x.Keeps (x.poisonAll b n)
  | 0, x, _ => .refl x
  | n + 1, x, b => (x.keeps_erase b).trans (Lane.keeps_poisonAll n _ _)

theorem Lane.keeps_idleAll : ∀ (bs : List Bool) (x : Lane) (b : Nat), x.Keeps (x.idleAll b bs)
  | [], x, _ => .refl x
  | c :: bs, x, b => by
      refine Lane.Keeps.trans (y := if c then x.define b (.ofBool false) else x.erase b) ?_ (Lane.keeps_idleAll bs _ _)
      split
      · exact x.keeps_define _ _
      · exact x.keeps_erase _

theorem Lane.val_idleAll : ∀ (bs : List Bool) (x : Lane) (b n : Nat),
    (x.idleAll b bs).val n = if b ≤ n ∧ n < b + bs.length then (if bs[n - b]? = some true then some (.bits 0) else none) else x.val n
  | [], x, b, n => by
      simp only [Lane.idleAll, List.length_nil]
      rw [if_neg (by omega)]
  | c :: bs, x, b, n => by
      rw [Lane.idleAll, Lane.val_idleAll bs]
      simp only [List.length_cons]
      have hc : (if c = true then x.define b (Val.ofBool false) else x.erase b).val n =
          if n = b then (if c = true then some (.bits 0) else none) else x.val n := by
        cases c <;> simp [Lane.val_define, Lane.val_erase, Val.ofBool]
      rw [hc]
      by_cases h : n = b
      · subst h
        have : ¬ (n + 1 ≤ n ∧ n < n + 1 + bs.length) := by omega
        simp [this]
      · by_cases h1 : b + 1 ≤ n ∧ n < b + 1 + bs.length
        · have h2 : b ≤ n ∧ n < b + (bs.length + 1) := by omega
          have h3 : n - b = (n - (b + 1)) + 1 := by omega
          rw [if_pos h1, if_pos h2, h3, List.getElem?_cons_succ]
        · have h2 : ¬ (b ≤ n ∧ n < b + (bs.length + 1)) := by omega
          rw [if_neg h1, if_neg h2, if_neg h]

theorem Lane.val_eraseAll : ∀ (ids : List Nat) (x : Lane) (n : Nat), (x.eraseAll ids).val n = if n ∈ ids then none else x.val n
  | [], x, n => by simp [Lane.eraseAll]
  | id :: ids, x, n => by
      have := Lane.val_eraseAll ids (x.erase id) n
      simp only [Lane.eraseAll, List.foldl_cons] at this ⊢
      rw [this, Lane.val_erase]
      by_cases h : n ∈ ids <;> by_cases h' : n = id <;> simp [h, h']

theorem Lane.val_defineAll : ∀ (vs : List Val) (x : Lane) (b n : Nat),
    (x.defineAll b vs).val n = if b ≤ n ∧ n < b + vs.length then vs[n - b]? else x.val n
  | [], x, b, n => by
      have : ¬ (b ≤ n ∧ n < b) := by omega
      simp [Lane.defineAll, this]
  | v :: vs, x, b, n => by
      rw [Lane.defineAll, Lane.val_defineAll vs, Lane.val_define]
      simp only [List.length_cons]
      by_cases h : n = b
      · subst h
        have : ¬ (n + 1 ≤ n ∧ n < n + 1 + vs.length) := by omega
        simp [this]
      · by_cases h1 : b + 1 ≤ n ∧ n < b + 1 + vs.length
        · have h2 : b ≤ n ∧ n < b + (vs.length + 1) := by omega
          have h3 : n - b = (n - (b + 1)) + 1 := by omega
          rw [if_pos h1, if_pos h2, h3, List.getElem?_cons_succ]
        · have h2 : ¬ (b ≤ n ∧ n < b + (vs.length + 1)) := by omega
          rw [if_neg h1, if_neg h2, if_neg h]

theorem Lane.val_poisonAll : ∀ (k : Nat) (x : Lane) (b n : Nat),
    (x.poisonAll b k).val n = if b ≤ n ∧ n < b + k then none else x.val n
  | 0, x, b, n => by
      have : ¬ (b ≤ n ∧ n < b) := by omega
      simp [Lane.poisonAll, this]
  | k + 1, x, b, n => by
      rw [Lane.poisonAll, Lane.val_poisonAll k, Lane.val_erase]
      by_cases h : n = b
      · subst h
        have h1 : ¬ (n + 1 ≤ n ∧ n < n + 1 + k) := by omega
        have h2 : n ≤ n ∧ n < n + (k + 1) := by omega
        simp
      · by_cases h1 : b + 1 ≤ n ∧ n < b + 1 + k
        · have h2 : b ≤ n ∧ n < b + (k + 1) := by omega
          rw [if_pos h1, if_pos h2]
        · have h2 : ¬ (b ≤ n ∧ n < b + (k + 1)) := by omega
          rw [if_neg h1, if_neg h2, if_neg h]

/-! Groups. -/

@[simp] theorem State.group_setGroup (s : State) (n : Nat) (g : Group) : (s.setGroup n g).group n = g := by
  simp [State.group, State.setGroup]

theorem State.group_setGroup_ne {n m : Nat} (h : m ≠ n) (s : State) (g : Group) : (s.setGroup n g).group m = s.group m := by
  simp [State.group, State.setGroup, mget_mset_ne h]

theorem Group.lane_setLane (g : Group) (l n : Nat) (y : Lane) : (g.setLane l y).lane n = if n = l then y else g.lane n := by
  simp only [Group.lane, Group.setLane, mget_mset]
  split <;> rfl

theorem Group.lane_mapLanes (f : Nat → Lane → Lane) : ∀ (ls : List Nat) (_ : ls.Nodup) (g : Group) (n : Nat),
    (g.mapLanes ls f).lane n = if n ∈ ls then f n (g.lane n) else g.lane n
  | [], _, g, n => by simp [Group.mapLanes]
  | l :: ls, hn, g, n => by
      have ih := Group.lane_mapLanes f ls (List.nodup_cons.mp hn).2 (g.setLane l (f l (g.lane l))) n
      simp only [Group.mapLanes, List.foldl_cons] at ih ⊢
      rw [ih]
      simp only [Group.lane_setLane, List.mem_cons]
      by_cases h : n = l
      · subst h
        have : n ∉ ls := (List.nodup_cons.mp hn).1
        simp [this]
      · simp [h]

theorem Group.mapLanes_lanes (f : Nat → Lane → Lane) : ∀ (ls : List Nat) (g : Group),
    ∃ q, g.mapLanes ls f = { g with lanes := q }
  | [], g => ⟨g.lanes, rfl⟩
  | l :: ls, g => by
      obtain ⟨q, hq⟩ := Group.mapLanes_lanes f ls (g.setLane l (f l (g.lane l)))
      exact ⟨q, hq⟩

/-- Mapping lanes changes the lanes alone. -/
theorem Group.mapLanes_eq (f : Nat → Lane → Lane) (ls : List Nat) (g : Group) : g.mapLanes ls f = { g with lanes := (g.mapLanes ls f).lanes } := by
  obtain ⟨q, hq⟩ := Group.mapLanes_lanes f ls g
  rw [hq]

theorem Group.mapLanes_twice (f f' : Nat → Lane → Lane) (ls ms : List Nat) (g : Group) :
    ∃ q, (g.mapLanes ls f).mapLanes ms f' = { g with lanes := q } := by
  obtain ⟨q, hq⟩ := Group.mapLanes_lanes f ls g
  rw [hq]
  exact Group.mapLanes_lanes f' ms _

@[simp] theorem Group.lane_setPath (g : Group) (pid : Nat) (p : Path) (l : Nat) : (g.setPath pid p).lane l = g.lane l := rfl

/-! Enclaves. -/

@[simp] theorem State.encl_setEncl (s : State) (e : Nat) (v : Enclave) : (s.setEncl e v).encl e = v := by
  simp [State.encl, State.setEncl]

theorem State.encl_setEncl_ne {e n : Nat} (h : n ≠ e) (s : State) (v : Enclave) : (s.setEncl e v).encl n = s.encl n := by
  simp [State.encl, State.setEncl, mget_mset_ne h]

theorem State.encl_groups (s : State) (gs : List (Nat × Group)) (e : Nat) : ({ s with groups := gs } : State).encl e = s.encl e := rfl

/-! Steps of a path. -/

@[simp] theorem Exe.group_put_bump (x : Exe) (g : Group) (e k c n : Nat) :
    ((x.put g).bump e k c n).group x.gid = g := by
  simp [State.bump, Exe.put, State.group, State.setGroup, State.setEncl]

/-- Putting a group whose own paths and lanes alone have changed, and counting, keeps the rest. -/
theorem Exe.keeps_put' (x : Exe) {may : Nat → Prop} {g : Group} {n : Nat}
    (hg : ({ g with lanes := x.g.lanes, ctx := { g.ctx with paths := x.g.ctx.paths } } : Group) = x.g)
    (hp : ∀ q, q ≠ x.pid → mget g.ctx.paths q = mget x.g.ctx.paths q)
    (away : List Nat) (hl : ∀ l, l ∉ x.lanes → l ∉ away → g.lane l = x.g.lane l) (he : ∀ l, (g.lane l).edge = (x.g.lane l).edge)
    (hk : ∀ l, l ∉ away → (x.g.lane l).Keeps (g.lane l))
    (hv : ∀ l, l ∉ away → ∀ id, ¬ may id → (g.lane l).val id = (x.g.lane l).val id) :
    x.KeepsBut may away ((x.put g).bump x.eid 4 x.team.core n) where
  rest := rfl
  bytes := ⟨fun _ => rfl, fun _ _ => rfl⟩
  encls e := by
    unfold State.bump Exe.put
    by_cases h : e = x.eid
    · subst h; rw [State.encl_setEncl]; rfl
    · rw [State.encl_setEncl_ne h]; rfl
  counters e k h := by
    unfold State.bump Exe.put
    by_cases he : e = x.eid
    · subst he
      rw [State.encl_setEncl]
      have hk : k ≠ counterKey 4 x.team.core := fun hk => h (by rw [hk])
      simp only [mget_mset_ne hk]
      rfl
    · rw [State.encl_setEncl_ne he]; rfl
  groups q h := by
    simp [State.bump, Exe.put, State.setGroup, State.setEncl, mget_mset_ne h]
  group := by
    rw [Exe.group_put_bump]; exact hg
  paths q h := by
    rw [Exe.group_put_bump]; exact hp q h
  lanes l h h' := by
    rw [Exe.group_put_bump]; exact hl l h h'
  edges l := by
    rw [Exe.group_put_bump]; exact he l
  outer l h := by
    rw [Exe.group_put_bump]; exact (hk l h).tail
  frames l h := by
    rw [Exe.group_put_bump]; exact (hk l h).top
  vals l h id h' := by
    rw [Exe.group_put_bump]; exact hv l h id h'

theorem Exe.keeps_put (x : Exe) {may : Nat → Prop} {g : Group} {p : Path} {n : Nat}
    (hg : ({ g with lanes := x.g.lanes, ctx := { g.ctx with paths := x.g.ctx.paths } } : Group) = x.g)
    (hp : g.ctx.paths = mset x.g.ctx.paths x.pid p)
    (away : List Nat) (hl : ∀ l, l ∉ x.lanes → l ∉ away → g.lane l = x.g.lane l) (he : ∀ l, (g.lane l).edge = (x.g.lane l).edge)
    (hk : ∀ l, l ∉ away → (x.g.lane l).Keeps (g.lane l))
    (hv : ∀ l, l ∉ away → ∀ id, ¬ may id → (g.lane l).val id = (x.g.lane l).val id) :
    x.KeepsBut may away ((x.put g).bump x.eid 4 x.team.core n) :=
  x.keeps_put' hg (fun q h => by rw [hp, mget_mset_ne h]) away hl he hk hv

theorem Exe.counted_put (x : Exe) (g : Group) (n : Nat) : x.Counted n ((x.put g).bump x.eid 4 x.team.core n) := by
  unfold Exe.Counted State.bump Exe.put
  rw [State.encl_setEncl]
  simp only [mget_mset_self]
  rfl

/-! Completing an instruction. -/

/-- A lane outside the path is none of its lanes. -/
theorem Exe.outside_not (x : Exe) (i : Instr) {l : Nat} (h : l ∈ x.outside i) : l ∉ x.lanes := by
  unfold Exe.outside at h
  split at h
  · have h := (List.mem_filter.mp h).1
    unfold Exe.lanes
    rw [mem_lanesOf] at *
    simp at h
    rintro ⟨-, h'⟩
    rw [h'] at h
    simp at h
  · simp at h

theorem Exe.nodup_outside (x : Exe) (i : Instr) : (x.outside i).Nodup := by
  unfold Exe.outside
  split
  · exact (nodup_lanesOf _).filter _
  · exact List.nodup_nil

/-- Only a cross-lane instruction's results reach lanes outside the path. -/
theorem Exe.outside_nil (x : Exe) (i : Instr) (h : isCrossLane i = false) : x.outside i = [] := by
  unfold Exe.outside; rw [h]; rfl

theorem Exe.write_plain (x : Exe) (i : Instr) (res : List (Nat × List Val)) (h : isCrossLane i = false) :
    x.write i res = x.g.mapLanes x.lanes fun l y =>
      match mget res l with
      | some vs => (y.eraseAll (endsOf i.ops)).defineAll (x.tr.baseAt x.p.pc) (vs.take i.ctl.ndef.toNat)
      | none => x.inactive i (x.plan i) (x.tr.baseAt x.p.pc) l (y.eraseAll (endsOf i.ops)) := by
  unfold Exe.write
  rw [x.outside_nil i h]
  rfl

/-- What a lane becomes when an instruction's results are written. -/
theorem Exe.lane_write (x : Exe) (i : Instr) (res : List (Nat × List Val)) (l : Nat) :
    (x.write i res).lane l =
      if l ∈ x.lanes then
        match mget res l with
        | some vs => ((x.g.lane l).eraseAll (endsOf i.ops)).defineAll (x.tr.baseAt x.p.pc) (vs.take i.ctl.ndef.toNat)
        | none => x.inactive i (x.plan i) (x.tr.baseAt x.p.pc) l ((x.g.lane l).eraseAll (endsOf i.ops))
      else if l ∈ x.outside i then x.writeOutside i res l (x.g.lane l)
      else x.g.lane l := by
  unfold Exe.write
  dsimp only
  rw [Group.lane_mapLanes _ _ (x.nodup_outside i), Group.lane_mapLanes _ x.lanes (nodup_lanesOf _)]
  by_cases h : l ∈ x.lanes
  · have : l ∉ x.outside i := fun h' => x.outside_not i h' h
    rw [if_neg this, if_pos h, if_pos h] <;> rfl
  · rw [if_neg h, if_neg h]

theorem Exe.edge_inactive (x : Exe) (i : Instr) (q : Plan) (b l : Nat) (y : Lane) : (x.inactive i q b l y).edge = y.edge := by
  unfold Exe.inactive
  split
  · exact (Lane.keeps_idleAll _ y b).edge
  · dsimp only
    split
    · exact (Lane.keeps_poisonAll _ y b).edge
    · exact ((y.keeps_define _ _).trans (Lane.keeps_poisonAll _ _ _)).edge

theorem Exe.keeps_inactive (x : Exe) (i : Instr) (q : Plan) (b l : Nat) (y : Lane) : y.Keeps (x.inactive i q b l y) := by
  unfold Exe.inactive
  split
  · exact y.keeps_idleAll _ _
  · dsimp only
    split
    · exact y.keeps_poisonAll _ _
    · exact (y.keeps_define _ _).trans (Lane.keeps_poisonAll _ _ _)

theorem Exe.keeps_write (x : Exe) (i : Instr) (res : List (Nat × List Val)) (l : Nat) (h : l ∉ x.outside i) :
    (x.g.lane l).Keeps ((x.write i res).lane l) := by
  rw [Exe.lane_write]
  split
  · have h := Lane.keeps_eraseAll (endsOf i.ops) (x.g.lane l)
    split
    · exact h.trans (Lane.keeps_defineAll _ _ _)
    · exact h.trans (x.keeps_inactive _ _ _ _ _)
  · exact .refl _

theorem Exe.edge_write (x : Exe) (i : Instr) (res : List (Nat × List Val)) (l : Nat) : ((x.write i res).lane l).edge = (x.g.lane l).edge := by
  by_cases h : l ∈ x.outside i
  · rw [Exe.lane_write, if_neg (x.outside_not i h), if_pos h]
    rfl
  · exact (x.keeps_write i res l h).edge

theorem Exe.val_inactive (x : Exe) (i : Instr) (l id : Nat) (y : Lane) (hn : i.ctl.ndef.toNat ≠ 0) :
    (x.inactive i (x.plan i) (x.tr.baseAt x.p.pc) l y).val id = if x.defines i id then x.fallback i l (id - x.tr.baseAt x.p.pc) else y.val id := by
  unfold Exe.inactive Exe.fallback Exe.defines
  generalize hn' : i.ctl.ndef.toNat = n at *
  generalize x.tr.baseAt x.p.pc = b
  cases (x.plan i).merge with
  | none =>
      dsimp only
      have hl : (falseResults i (x.plan i)).length = n := by simp [falseResults, hn']
      rw [Lane.val_idleAll, hl]
      split
      · next h =>
          have h1 : id - b < n := by omega
          have : (falseResults i (x.plan i))[id - b]? = some (idlesFalse i && (x.plan i).res[id - b]? == some .b1) := by
            simp [falseResults, hn', List.getElem?_range h1]
          rw [this]
          generalize (idlesFalse i && (x.plan i).res[id - b]? == some .b1) = c
          cases c <;> rfl
      · rfl
  | some m =>
      dsimp only
      generalize x.read ((x.plan i).res.headD .i32) l m = r
      obtain ⟨v, b'⟩ := r
      cases b' with
      | true => simp [Lane.val_poisonAll]
      | false =>
          simp only [Bool.false_eq_true, ↓reduceIte, Lane.val_poisonAll, Lane.val_define, and_true]
          by_cases h : id = b
          · subst h
            have h1 : ¬ (id + 1 ≤ id ∧ id < id + 1 + (n - 1)) := by omega
            have h2 : id ≤ id ∧ id < id + n := by omega
            have h3 : id - id = 0 := by omega
            rw [if_neg h1, if_pos rfl, if_pos h2, if_pos h3]
          · by_cases h1 : b + 1 ≤ id ∧ id < b + 1 + (n - 1)
            · have h2 : b ≤ id ∧ id < b + n := by omega
              have h3 : ¬ id - b = 0 := by omega
              rw [if_pos h1, if_pos h2, if_neg h3]
            · have h2 : ¬ (b ≤ id ∧ id < b + n) := by omega
              rw [if_neg h1, if_neg h, if_neg h2]

theorem split_merge {sh : Shape} {tyOf : Opnd → Option Ty} {c : Ctl} {ops : List Opnd}
    {r : List Opnd × Option Opnd} (h : sh.split tyOf c ops = some r) (hn : c.ndef.toNat = 0) : r.2 = none := by
  unfold Shape.split at h
  split at h
  · cases h; rfl
  · split at h
    · next h1 =>
        simp only [Bool.and_eq_true, beq_iff_eq] at h1
        rw [h1.2] at hn
        exact absurd hn (by decide)
    · cases h

/-- A merge operand stands only in an instruction that defines a result. -/
theorem Exe.merge_none (x : Exe) (i : Instr) (hn : i.ctl.ndef.toNat = 0) : (x.plan i).merge = none := by
  unfold Exe.plan
  dsimp only
  cases h1 : i.shape.split x.tyOf i.ctl i.ops with
  | some r => exact split_merge h1 hn
  | none => rfl

theorem Exe.inactive_zero (x : Exe) (i : Instr) (q : Plan) (b l : Nat) (y : Lane) (hn : i.ctl.ndef.toNat = 0) (hm : q.merge = none) :
    x.inactive i q b l y = y := by
  simp [Exe.inactive, hm, falseResults, hn, Lane.idleAll]

/-- A value of a lane of the path after an instruction's results are written. -/
theorem Exe.val_write (x : Exe) (i : Instr) (res : List (Nat × List Val)) {l : Nat} (hl : l ∈ x.lanes) (id : Nat) :
    ((x.write i res).lane l).val id =
      match mget res l with
      | some vs =>
          if x.tr.baseAt x.p.pc ≤ id ∧ id < x.tr.baseAt x.p.pc + (vs.take i.ctl.ndef.toNat).length then
            (vs.take i.ctl.ndef.toNat)[id - x.tr.baseAt x.p.pc]?
          else if id ∈ endsOf i.ops then none else (x.g.lane l).val id
      | none =>
          if x.defines i id then x.fallback i l (id - x.tr.baseAt x.p.pc)
          else if id ∈ endsOf i.ops then none else (x.g.lane l).val id := by
  rw [Exe.lane_write, if_pos hl]
  cases mget res l with
  | some vs => simp only [Lane.val_defineAll, Lane.val_eraseAll]
  | none =>
      dsimp only
      by_cases hn : i.ctl.ndef.toNat = 0
      · have hd : ¬ x.defines i id := by unfold Exe.defines; omega
        rw [if_neg hd, Exe.inactive_zero _ _ _ _ _ _ hn (x.merge_none i hn), Lane.val_eraseAll]
      · rw [Exe.val_inactive _ _ _ _ _ hn, Lane.val_eraseAll]

theorem Exe.write_eq (x : Exe) (i : Instr) (res : List (Nat × List Val)) :
    ∃ q, x.write i res = ({ x.g with lanes := q } : Group) := by
  unfold Exe.write
  dsimp only
  exact Group.mapLanes_twice _ _ x.lanes (x.outside i) x.g

/-- An instruction that completes with a group, of which only the lanes are new, and a mode word. -/
theorem Exe.complete_completes (x : Exe) (i : Instr) (res : List (Nat × List Val)) (mode : BitVec 64)
    (out : Nat → Option (List Val)) (ho : ∀ l ∈ x.lanes, mget res l = out l) (hr : ∀ l, l ∉ x.lanes → mget res l = none) :
    x.Completes i mode out (x.complete i (x.write i res) mode) := by
  obtain ⟨q, hq⟩ := x.write_eq i res
  have hk : ∀ l, l ∉ x.outside i → (x.g.lane l).Keeps ((x.write i res).lane l) := x.keeps_write i res
  have hout : ∀ l, l ∉ x.lanes → l ∉ x.outside i → (x.write i res).lane l = x.g.lane l := fun l hl h => by
    rw [Exe.lane_write, if_neg hl, if_neg h]
  have hval : ∀ l, l ∉ x.outside i → ∀ id, ¬ (id ∈ endsOf i.ops ∨ x.defines i id) →
      ((x.write i res).lane l).val id = (x.g.lane l).val id := by
    intro l ha id h
    by_cases hl : l ∈ x.lanes
    · rw [x.val_write i res hl id]
      have h1 : id ∉ endsOf i.ops := fun e => h (.inl e)
      have h2 : ¬ x.defines i id := fun e => h (.inr e)
      split
      · have h3 : ¬ (x.tr.baseAt x.p.pc ≤ id ∧ id < x.tr.baseAt x.p.pc + (List.take i.ctl.ndef.toNat ‹List Val›).length) := by
          rw [List.length_take]; unfold Exe.defines at h2; omega
        rw [if_neg h3, if_neg h1]
      · rw [if_neg h2, if_neg h1]
    · rw [hout l hl ha]
  constructor
  · unfold Exe.complete
    rw [Exe.group_put_bump]
    simp [Group.setPath, Path.past]
  · intro l hl vs hvs k v hk' hv
    unfold Exe.resultIn Exe.complete
    rw [Exe.group_put_bump, Group.lane_setPath, x.val_write i res hl _, ho l hl, hvs]
    have hlen : k < vs.length := by
      rcases List.getElem?_eq_some_iff.mp hv with ⟨h, -⟩; exact h
    have : x.tr.baseAt x.p.pc ≤ x.tr.baseAt x.p.pc + k ∧
        x.tr.baseAt x.p.pc + k < x.tr.baseAt x.p.pc + (vs.take i.ctl.ndef.toNat).length := by
      rw [List.length_take]; omega
    simp only [if_pos this, Nat.add_sub_cancel_left, List.getElem?_take, if_pos hk', hv]
  · intro l hl hn k hk'
    unfold Exe.resultIn Exe.complete
    rw [Exe.group_put_bump, Group.lane_setPath, x.val_write i res hl _, ho l hl, hn]
    have : x.defines i (x.tr.baseAt x.p.pc + k) := ⟨by omega, by omega⟩
    simp only [if_pos this, Nat.add_sub_cancel_left]
  · intro l hl id he hd
    unfold Exe.complete
    rw [Exe.group_put_bump, Group.lane_setPath, x.val_write i res hl _]
    split
    · have h3 : ¬ (x.tr.baseAt x.p.pc ≤ id ∧ id < x.tr.baseAt x.p.pc + (List.take i.ctl.ndef.toNat ‹List Val›).length) := by
        rw [List.length_take]; unfold Exe.defines at hd; omega
      rw [if_neg h3, if_pos he]
    · rw [if_neg hd, if_pos he]
  · intro l hl
    unfold Exe.complete
    have hn := x.outside_not i hl
    rw [Exe.group_put_bump, Group.lane_setPath, Exe.lane_write, if_neg hn, if_pos hl]
    unfold Exe.writeOutside
    rw [hr l hn]
    rfl
  · exact x.counted_put _ 1
  · refine x.keeps_put (p := { x.p with mode := mode }.past (pcAdd x.p.pc (instrSize i))) ?_ ?_ _ hout (x.edge_write i res) hk hval
    · rw [hq]; rfl
    · rw [hq]; rfl

/-- The step that completes with results in lanes and raised flags. -/
theorem Exe.commit_completes (x : Exe) (i : Instr) (res : List (Nat × List Val)) (flags : BitVec 6)
    (out : Nat → Option (List Val)) (ho : ∀ l ∈ x.lanes, mget res l = out l) (hr : ∀ l, l ∉ x.lanes → mget res l = none) :
    x.Completes i (x.flagged flags) out (x.commit i res flags) :=
  x.complete_completes i res _ out ho hr

/-! Instructions that act lane by lane. -/

theorem modeTraps_calm {m : BitVec 64} (h : modeEn m = 0) (f : BitVec 6) : modeTraps m f = 0 := by
  simp [modeTraps, h]

/-- Under no enabled flag, outcomes without a failed check give their results, with the flags of all of them. -/
theorem verdictOf_calm {m : BitVec 64} (h : modeEn m = 0) (ls : List Nat) (out : Nat → List Val) (fl : Nat → BitVec 6) :
    verdictOf m (ls.map fun l => (l, .done (out l) (fl l))) =
      .done (ls.map fun l => (l, out l)) (ls.foldl (fun f l => f ||| fl l) 0) := by
  have h1 : (ls.map fun l => ((l, .done (out l) (fl l)) : Nat × LaneOut)).filterMap
      (fun o => o.2.failed.map fun f => (o.1, f)) = [] := by
    rw [List.filterMap_eq_nil_iff]
    intro o ho
    obtain ⟨l, -, rfl⟩ := List.mem_map.mp ho
    rfl
  have h2 : (ls.map fun l => ((l, .done (out l) (fl l)) : Nat × LaneOut)).filter
      (fun o => modeTraps m o.2.flags != 0) = [] := by
    rw [List.filter_eq_nil_iff]
    intro o _
    simp [modeTraps_calm h]
  unfold verdictOf
  simp only [h1, h2, List.isEmpty_nil, ↓reduceIte, List.map_map, List.foldl_map]
  rfl

/-- The verdict on an instruction whose checks hold in every active lane, under no enabled flag: `poison` tells which lanes read
poison. -/
theorem Exe.judgeWith_calm (x : Exe) (i : Instr) (poison : Nat → Bool) (f : List (Nat × List Val) → Nat → List Val → LaneOut)
    (hc : x.calm) (out : Nat → List Val) (fl : Nat → BitVec 6)
    (hf : ∀ l ∈ x.active i.ctl, f (x.allArgs i) l (x.args i l) = .done (out l) (fl l)) :
    x.judgeWith i poison f = .done ((x.active i.ctl).map fun l => (l, out l))
      ((x.active i.ctl).foldl (fun a l => a ||| (fl l ||| flagIf (poison l) flagPO)) 0) := by
  unfold Exe.judgeWith
  have h0 : (!((x.active i.ctl).filter poison).isEmpty && (modeEn x.p.mode &&& flagPO) != 0) = false := by
    rw [show modeEn x.p.mode = 0 from hc]; simp
  simp only [h0, Bool.false_eq_true, ↓reduceIte, List.map_map]
  rw [← verdictOf_calm (m := x.p.mode) hc (x.active i.ctl) out fun l => fl l ||| flagIf (poison l) flagPO]
  congr 1
  apply List.map_congr_left
  intro l hl
  have := hf l hl
  unfold Exe.allArgs Exe.args at this
  simp only [Function.comp_apply, this, LaneOut.withPO]

theorem Exe.judge_calm (x : Exe) (i : Instr) (f : List (Nat × List Val) → Nat → List Val → LaneOut) (hc : x.calm)
    (out : Nat → List Val) (fl : Nat → BitVec 6)
    (hf : ∀ l ∈ x.active i.ctl, f (x.allArgs i) l (x.args i l) = .done (out l) (fl l)) :
    x.judge i f = .done ((x.active i.ctl).map fun l => (l, out l)) (x.raised i fl) :=
  x.judgeWith_calm i _ f hc out fl hf

/-- Results in every active lane, with the flags that the lanes raise. -/
theorem Exe.commit_acts (x : Exe) (i : Instr) (out : Nat → List Val) (fl : Nat → BitVec 6) :
    x.Acts i out fl (x.commit i ((x.active i.ctl).map fun l => (l, out l)) (x.raised i fl)) :=
  x.commit_completes i _ _ _ (fun l _ => mget_map_self out _ l) (mget_active x i.ctl out)

/-- What an instruction that acts lane by lane comes to, when its checks hold and no flag is enabled. -/
theorem Exe.lanewise_acts (x : Exe) (i : Instr) (f : List (Nat × List Val) → Nat → List Val → LaneOut) (hc : x.calm)
    (out : Nat → List Val) (fl : Nat → BitVec 6)
    (hf : ∀ l ∈ x.active i.ctl, f (x.allArgs i) l (x.args i l) = .done (out l) (fl l)) :
    x.Acts i out fl (x.lanewise i f) := by
  rw [Exe.lanewise, x.judge_calm i f hc out fl hf]
  exact x.commit_acts i out fl

/-- A step of the executing path. -/
theorem onPath_next {s : State} {x : Exe} (hx : s.exe? = some x) (k : Exe → State) : onPath s k = .next (k x) := by
  rw [onPath, hx]

/-- The lane-by-lane step of an instruction answers a state in which it has acted. -/
theorem onPath_acts {s : State} {x : Exe} (hx : s.exe? = some x) (hc : x.calm) (i : Instr)
    (f : Exe → List (Nat × List Val) → Nat → List Val → LaneOut) (out : Nat → List Val) (fl : Nat → BitVec 6)
    (hf : ∀ l ∈ x.active i.ctl, f x (x.allArgs i) l (x.args i l) = .done (out l) (fl l)) :
    ∃ t, onPath s (fun x => x.lanewise i (f x)) = .next t ∧ x.Acts i out fl t :=
  ⟨_, onPath_next hx _, x.lanewise_acts i (f x) hc out fl hf⟩

end Sys2Proof.Machine
end

