-- ==== Sys2Proof/Laws/Lanes.lean ====
section
/-! SUPPORT. Lane masks bit by bit, and the active lanes as a list. -/

namespace Sys2Proof.Machine

set_option Elab.async false

theorem getLsbD_one_shl (l j : Nat) : (1#64 <<< l).getLsbD j = decide (j < 64 ∧ j = l) := by
  rw [BitVec.getLsbD_shiftLeft, BitVec.getLsbD_one, Bool.eq_iff_iff]
  simp only [Bool.and_eq_true, Bool.not_eq_true', decide_eq_true_eq, decide_eq_false_iff_not]
  omega

theorem getLsbD_maskOf (ls : List Nat) (j : Nat) : (maskOf ls).getLsbD j = decide (j < 64 ∧ j ∈ ls) := by
  have gen : ∀ (ls : List Nat) (m : LaneMask), (ls.foldl (fun m l => m ||| (1#64 <<< l)) m).getLsbD j = true ↔
      m.getLsbD j = true ∨ (j < 64 ∧ j ∈ ls) := by
    intro ls
    induction ls with
    | nil => intro m; simp
    | cons l ls ih =>
        intro m
        rw [List.foldl_cons, ih, BitVec.getLsbD_or, getLsbD_one_shl]
        simp only [Bool.or_eq_true, decide_eq_true_eq, List.mem_cons]
        constructor
        · rintro ((h | h) | h)
          · exact .inl h
          · exact .inr ⟨h.1, .inl h.2⟩
          · exact .inr ⟨h.1, .inr h.2⟩
        · rintro (h | ⟨h, h' | h'⟩)
          · exact .inl (.inl h)
          · exact .inl (.inr ⟨h, h'⟩)
          · exact .inr ⟨h, h'⟩
  rw [Bool.eq_iff_iff, maskOf, gen]
  simp

theorem getLsbD_widthMask {w : Nat} (j : Nat) : (widthMask w).getLsbD j = decide (j < 64 ∧ j < w) := by
  rw [widthMask, BitVec.getLsbD_ofNat, Nat.testBit_two_pow_sub_one, Bool.eq_iff_iff]
  simp

theorem getLsbD_lanesBelow {l : Nat} (hl : l < 64) (j : Nat) : (lanesBelow l).getLsbD j = decide (j < l) := by
  have h : lanesBelow l = widthMask l := by
    apply BitVec.eq_of_toNat_eq
    have h1 : 2 ^ l < 2 ^ 64 := Nat.pow_lt_pow_right (by decide) hl
    have h2 := Nat.two_pow_pos l
    have e : (2 ^ 64 - 1 + 2 ^ l) % 2 ^ 64 = 2 ^ l - 1 := by
      rw [show 2 ^ 64 - 1 + 2 ^ l = (2 ^ l - 1) + 2 ^ 64 by omega, Nat.add_mod_right, Nat.mod_eq_of_lt (by omega)]
    simp only [lanesBelow, widthMask, BitVec.toNat_sub, BitVec.toNat_shiftLeft, BitVec.toNat_ofNat, Nat.shiftLeft_eq,
      Nat.one_mod_two_pow_eq_one.mpr (by decide : 0 < 64), Nat.one_mul, Nat.mod_eq_of_lt h1]
    rw [Nat.mod_eq_of_lt (by omega : 2 ^ l - 1 < 2 ^ 64)]
    exact e
  rw [h, getLsbD_widthMask, Bool.eq_iff_iff]
  simp only [decide_eq_true_eq]; omega

/-- The lanes of a mask of lanes. -/
theorem mem_lanesOf_maskOf {ls : List Nat} {j : Nat} : j ∈ lanesOf (maskOf ls) ↔ j < 64 ∧ j ∈ ls := by
  rw [mem_lanesOf, getLsbD_maskOf]
  simp only [decide_eq_true_eq]
  exact ⟨fun h => h.2, fun h => ⟨h.1, h⟩⟩

theorem active_lt {x : Exe} {c : Ctl} {l : Nat} (h : l ∈ x.active c) : l < 64 := (mem_lanesOf.mp h).1

theorem mem_active_iff {x : Exe} {c : Ctl} {l : Nat} : l ∈ x.active c ↔ (x.activeMask c).getLsbD l = true := by
  rw [Exe.active, mem_lanesOf]
  constructor
  · exact fun h => h.2
  · intro h
    refine ⟨?_, h⟩
    exact Decidable.byContradiction fun hc => by
      rw [BitVec.getLsbD_of_ge _ _ (by omega)] at h; exact absurd h (by decide)

theorem nodup_active (x : Exe) (c : Ctl) : (x.active c).Nodup := nodup_lanesOf _

theorem sorted_lanesOf (m : LaneMask) : (lanesOf m).Pairwise (· < ·) := List.Pairwise.filter _ List.pairwise_lt_range

/-- What a lane reads, as the instruction's arguments list it. -/
theorem mget_allArgs (x : Exe) (i : Instr) (l : Nat) :
    mget (x.allArgs i) l = if l ∈ x.active i.ctl then some (x.args i l) else none := mget_map_self _ _ _

theorem allArgs_filter (x : Exe) (i : Instr) (p : List Val → Bool) :
    ((x.allArgs i).filter fun q => p q.2).map Prod.fst = (x.active i.ctl).filter fun l => p (x.args i l) := by
  rw [Exe.allArgs, List.filter_map, List.map_map]
  simp [Function.comp_def]

/-- The number of lanes of a mask of lanes in ascending order. -/
theorem lanesOf_filter (m : LaneMask) (p : Nat → Bool) : lanesOf (maskOf ((lanesOf m).filter p)) = (lanesOf m).filter p := by
  unfold lanesOf
  rw [List.filter_filter]
  apply List.filter_congr
  intro l hl
  have hl := List.mem_range.mp hl
  rw [getLsbD_maskOf, Bool.eq_iff_iff]
  simp only [decide_eq_true_eq, List.mem_filter, List.mem_range, Bool.and_eq_true]
  exact ⟨fun h => h.2.2, fun h => ⟨hl, hl, h⟩⟩

theorem maskCount_filter (m : LaneMask) (p : Nat → Bool) : maskCount (maskOf ((lanesOf m).filter p)) = (lanesOf m).countP p := by
  rw [maskCount, lanesOf_filter, List.countP_eq_length_filter]

end Sys2Proof.Machine
end

