-- ==== Sys2Proof/Laws/Mode.lean ====
section
/-! SUPPORT. The mode word bit by bit, and instructions that read their operands once. -/

namespace Sys2Proof.Machine

set_option Elab.async false

@[simp] theorem modeRaise_zero (m : BitVec 64) : modeRaise m 0 = m := by
  unfold modeRaise; simp

/-- A bit of a mode word with a field replaced. -/
theorem modePut_bit (m : BitVec 64) (lo n v b : Nat) (hb : b < 64) : (modePut m lo n v).getLsbD b =
    if lo ≤ b ∧ b < lo + n then v.testBit (b - lo) else m.getLsbD b := by
  unfold modePut
  simp only [BitVec.getLsbD_or, BitVec.getLsbD_and, BitVec.getLsbD_not, BitVec.getLsbD_shiftLeft, BitVec.getLsbD_ofNat,
    Nat.testBit_two_pow_sub_one, Nat.testBit_mod_two_pow]
  by_cases h : lo ≤ b
  · by_cases h2 : b < lo + n
    · have e1 : b - lo < 64 := by omega
      have e2 : b - lo < n := by omega
      have e3 : ¬ b < lo := by omega
      rw [if_pos ⟨h, h2⟩]; simp [hb, e1, e2, e3]
    · have e2 : ¬ b - lo < n := by omega
      rw [if_neg (fun q => h2 q.2)]; simp [hb, e2]
  · have e3 : b < lo := by omega
    rw [if_neg (fun q => h q.1)]; simp [hb, e3]

/-- An instruction that reads its operands once goes on with them where no enable makes a poison read a trap. -/
theorem Exe.once_calm {x : Exe} (hc : x.calm) (i : Instr) (k : List Val → State) : x.once i k = k (x.onceVals i) := by
  have : x.onceTraps i = false := by
    unfold Exe.onceTraps; rw [show modeEn x.p.mode = 0 from hc]; simp
  unfold Exe.once; rw [this]; rfl

/-- An instruction that reads its operands in every active lane goes on where no enable makes a poison read a trap. -/
theorem Exe.unlessPoison_calm {x : Exe} (hc : x.calm) (i : Instr) (k : BitVec 6 → State) :
    x.unlessPoison i k = k (flagIf (!((x.active i.ctl).filter (x.readsPoison (x.plan i))).isEmpty) flagPO) := by
  unfold Exe.unlessPoison
  rw [show modeEn x.p.mode = 0 from hc]
  simp

/-- Results in the active lanes, with no flag. -/
theorem Exe.commit_quiet (x : Exe) (i : Instr) (out : Nat → List Val) :
    x.Completes i x.p.mode (x.only i out) (x.commit i ((x.active i.ctl).map fun l => (l, out l)) 0) := by
  have h := x.commit_completes i ((x.active i.ctl).map fun l => (l, out l)) 0 (x.only i out) (fun l _ => mget_map_self out _ l)
    (mget_active x i.ctl out)
  unfold Exe.flagged at h
  rwa [modeRaise_zero] at h

end Sys2Proof.Machine
end

