-- ==== Sys2Proof/Laws/Control.lean ====
section
/-! SUPPORT. What a step that moves a path, or changes the path state of its group, leaves alone. -/

namespace Sys2Proof.Machine

set_option Elab.async false

theorem Exe.lane_ended (x : Exe) (i : Instr) (l : Nat) :
    (x.g.mapLanes x.lanes fun _ y => y.eraseAll (endsOf i.ops)).lane l =
      if l ∈ x.lanes then (x.g.lane l).eraseAll (endsOf i.ops) else x.g.lane l :=
  Group.lane_mapLanes _ _ (nodup_lanesOf _) _ _

theorem Group.lane_of_lanes {g h : Group} (e : g.lanes = h.lanes) (l : Nat) : g.lane l = h.lane l := by
  unfold Group.lane; rw [e]

/-- A step that ends operands, makes something of the group and counts. -/
theorem Exe.becomes_lanes (x : Exe) (i : Instr) (g g' : Group) (hg : ({ g' with lanes := g.lanes } : Group) = g)
    (hlane : ∀ l, g'.lane l = if l ∈ x.lanes then (x.g.lane l).eraseAll (endsOf i.ops) else x.g.lane l) :
    x.Becomes i g (x.count (x.put g') 1) := by
  have hgr : (x.count (x.put g') 1).group x.gid = g' := x.group_put_bump ..
  constructor
  · rw [hgr]; exact hg
  · intro l hl' id hid
    rw [hgr, hlane, if_pos hl', Lane.val_eraseAll, if_pos hid]
  · exact x.counted_put g' 1
  · have hG : (x.count (x.put g') 1).setGroup x.gid { x.g with lanes := ((x.count (x.put g') 1).group x.gid).lanes } =
        (x.put { x.g with lanes := g'.lanes }).bump x.eid 4 x.team.core 1 := by
      rw [hgr]
      simp [Exe.count, Exe.put, State.setGroup, State.bump, State.setEncl, State.encl]
    rw [hG]
    have hk : ∀ l, (x.g.lane l).Keeps (({ x.g with lanes := g'.lanes } : Group).lane l) := by
      intro l
      rw [show ({ x.g with lanes := g'.lanes } : Group).lane l = g'.lane l from rfl, hlane]
      split
      · exact Lane.keeps_eraseAll _ _
      · exact .refl _
    refine x.keeps_put' (g := { x.g with lanes := g'.lanes }) rfl (fun _ _ => rfl) [] ?_ (fun l => (hk l).edge) (fun l _ => hk l) ?_
    · intro l h _
      rw [show ({ x.g with lanes := g'.lanes } : Group).lane l = g'.lane l from rfl, hlane, if_neg h]
    · intro l _ id h
      rw [show ({ x.g with lanes := g'.lanes } : Group).lane l = g'.lane l from rfl, hlane]
      split
      · rw [Lane.val_eraseAll, if_neg h]
      · rfl

theorem Exe.becomes_count (x : Exe) (i : Instr) (g g' : Group) (hg : ({ g' with lanes := g.lanes } : Group) = g)
    (hl : g'.lanes = (x.g.mapLanes x.lanes fun _ y => y.eraseAll (endsOf i.ops)).lanes) :
    x.Becomes i g (x.count (x.put g') 1) :=
  x.becomes_lanes i g g' hg fun l => by rw [Group.lane_of_lanes hl, x.lane_ended]

/-! Monitors. -/

@[simp] theorem State.part_setPart (s : State) (p : Nat) (v : Part) : (s.setPart p v).part p = v := by
  simp [State.part, State.setPart]

theorem State.part_setPart_ne {p q : Nat} (h : q ≠ p) (s : State) (v : Part) : (s.setPart p v).part q = s.part q := by
  simp [State.part, State.setPart, mget_mset_ne h]

theorem State.Sampled.refl (s : State) : s.Sampled s := ⟨rfl, fun _ => rfl, fun _ => rfl⟩

/-- A sample changes monitors alone. -/
theorem State.sampled_sampleEncl (s : State) (e k v : Nat) : s.Sampled (s.sampleEncl e k v) := by
  unfold State.sampleEncl
  constructor
  · rfl
  · intro q
    show ({ (State.setEncl s e _).encl q with monitors := _ } : Enclave) = _
    by_cases h : q = e
    · subst h; rw [State.encl_setEncl]
    · rw [State.encl_setEncl_ne h]
  · intro q
    by_cases h : q = (s.encl e).part
    · subst h; rw [State.part_setPart]; rfl
    · rw [State.part_setPart_ne h]; rfl

theorem State.Sampled.trans {s t u : State} (h : s.Sampled t) (h' : t.Sampled u) : s.Sampled u := by
  constructor
  · have h1 := h.rest; have h2 := h'.rest
    rw [← h1]
    have : ({ u with parts := s.parts, encls := s.encls } : State) =
        { ({ u with parts := t.parts, encls := t.encls } : State) with parts := s.parts, encls := s.encls } := rfl
    rw [this, h2]
  · intro e
    have h1 := h.encls e; have h2 := h'.encls e
    rw [← h1, ← h2]
  · intro p
    have h1 := h.parts p; have h2 := h'.parts p
    rw [← h1, ← h2]

theorem State.sampled_sampleJoins (e : Nat) : ∀ (n : Nat) (s : State), s.Sampled (s.sampleJoins e n)
  | 0, s => .refl s
  | n + 1, s => (State.sampled_sampleJoins e n s).trans (State.sampled_sampleEncl _ _ _ _)

/-- Counting and sampling do not meet. -/
theorem State.Sampled.bump {s t : State} (h : s.Sampled t) (e k c n : Nat) : (s.bump e k c n).Sampled (t.bump e k c n) := by
  have hc : ∀ q, (t.encl q).counters = (s.encl q).counters := fun q => by rw [← h.encls q]
  unfold State.bump
  constructor
  · have := h.rest
    show ({ t with parts := _, encls := _ } : State) = _
    rw [State.setEncl, ← this]
  · intro q
    by_cases hq : q = e
    · subst hq
      rw [State.encl_setEncl, State.encl_setEncl]
      show ({ t.encl q with counters := _, monitors := _ } : Enclave) = _
      rw [hc q, ← h.encls q]
    · rw [State.encl_setEncl_ne hq, State.encl_setEncl_ne hq]; exact h.encls q
  · intro q; exact h.parts q

/-! The executing path. -/

theorem exe_group {s : State} {x : Exe} (hx : s.exe? = some x) : s.group x.gid = x.g ∧ mget x.g.ctx.paths x.pid = some x.p ∧ x.s = s ∧ s.cur = some (x.gid, x.pid) := by
  unfold State.exe? at hx
  cases hc : s.cur with
  | none => simp [hc] at hx
  | some q =>
    obtain ⟨gid, pid⟩ := q
    rw [hc] at hx
    dsimp only at hx
    cases hg : mget s.groups gid with
    | none => simp [hg] at hx
    | some g =>
      rw [hg] at hx
      dsimp only at hx
      cases hp : mget g.ctx.paths pid with
      | none => simp [hp] at hx
      | some p =>
        rw [hp] at hx
        cases hx
        exact ⟨by simp [State.group, hg], hp, rfl, rfl⟩

theorem maskOf_lanesOf (m : LaneMask) : maskOf (lanesOf m) = m := by
  apply BitVec.eq_of_getLsbD_eq
  intro j hj
  rw [getLsbD_maskOf, Bool.eq_iff_iff]
  simp only [decide_eq_true_eq, mem_lanesOf, hj, true_and]

theorem mupd_some {α : Type} (m : List (Nat × α)) (k : Nat) (v : α) (f : α → α) (h : mget m k = some v) : mupd m k f = mset m k (f v) := by
  unfold mupd; rw [h]

theorem Group.mapLanes_congr (ls : List Nat) (f : Nat → Lane → Lane) : ∀ (g h : Group), g.lanes = h.lanes → (g.mapLanes ls f).lanes = (h.mapLanes ls f).lanes := by
  induction ls with
  | nil => intro g h e; exact e
  | cons a ls ih =>
    intro g h e
    refine ih _ _ ?_
    simp only [Group.setLane, Group.lane, e]

theorem Exe.poison_flag (x : Exe) (i : Instr) (ls : List Nat) :
    ((∃ l ∈ ls, x.poison i l = flagPO) → flagIf (!(ls.filter (x.readsPoison (x.plan i))).isEmpty) flagPO = flagPO) ∧
    ((∀ l ∈ ls, x.poison i l = 0) → flagIf (!(ls.filter (x.readsPoison (x.plan i))).isEmpty) flagPO = 0) := by
  refine ⟨?_, ?_⟩
  · rintro ⟨l, hl, h⟩
    have : x.readsPoison (x.plan i) l = true := by
      cases hq : x.readsPoison (x.plan i) l with
      | true => rfl
      | false => simp [Exe.poison, hq, flagIf] at h; exact absurd h (by decide)
    have : (ls.filter (x.readsPoison (x.plan i))) ≠ [] := by
      intro e
      rw [List.filter_eq_nil_iff] at e
      exact e l hl this
    cases hq : ls.filter (x.readsPoison (x.plan i)) with
    | nil => exact absurd hq this
    | cons => simp [flagIf]
  · intro h
    have : (ls.filter (x.readsPoison (x.plan i))) = [] := by
      rw [List.filter_eq_nil_iff]
      intro l hl
      have := h l hl
      cases hq : x.readsPoison (x.plan i) l with
      | false => simp
      | true => simp [Exe.poison, hq, flagIf] at this; exact absurd this (by decide)
    rw [this]; rfl

theorem State.settleGroup_sampled (s : State) (gid : Nat) :
    (s.setGroup gid { s.group gid with ctx := s.follows (s.group gid) }).Sampled (s.settleGroup gid) ∧
    ((s.group gid).handler ≠ none → s.settleGroup gid = s.setGroup gid { s.group gid with ctx := s.follows (s.group gid) }) := by
  unfold State.settleGroup State.follows
  dsimp only
  cases (s.group gid).handler with
  | none =>
      refine ⟨?_, fun h => absurd rfl h⟩
      simp only [Option.isSome_none, Bool.false_eq_true, false_or, ↓reduceIte]
      exact State.sampled_sampleJoins _ _ _
  | some h => exact ⟨.refl _, fun _ => rfl⟩

/-- Settling keeps the meetings at barriers: timers and landings alone change. -/
theorem State.follows_meets {s : State} {g : Group} : (s.follows g).meets = g.ctx.settled.meets ∧ (s.follows g).barm = g.ctx.settled.barm := by
  unfold State.follows
  split <;> exact ⟨rfl, rfl⟩

/-! Entries of translations. -/

theorem State.countEntry_eq (s : State) (e c : Nat) (st : Stage) : s.countEntry e c st = if (match st with
            | .translating _ => true
            | _ => false) then s else s.bump e 0 c 1 := by cases st <;> rfl

theorem Exe.entered_eq (x : Exe) (g : Group) (n : Nat) :
    ((x.s.setGroup x.gid g).countEntry x.eid x.team.core x.p.stage).useTrans n = (x.entered n).setGroup x.gid g := by
  have hu : ∀ s : State, s.useTrans n = { s with trans := match mget s.trans n with | none => s.trans | some t => mdel s.trans n ++ [(n, t)] } := by
    intro s; unfold State.useTrans; cases mget s.trans n <;> rfl
  have hent : x.entered n = (if (match x.p.stage with
            | .translating _ => true
            | _ => false) = true then x.s else x.s.bump x.eid 0 x.team.core 1).useTrans n := rfl
  rw [State.countEntry_eq, hent]
  clear hent
  generalize (match x.p.stage with
            | .translating _ => true
            | _ => false) = w
  cases w <;> simp only [hu, Bool.false_eq_true, if_false, if_true] <;> rfl

theorem Exe.entered_same (x : Exe) (n : Nat) : (x.entered n).teams = x.s.teams ∧ (x.entered n).launches = x.s.launches := by
  have hu : ∀ s : State, s.useTrans n = { s with trans := match mget s.trans n with | none => s.trans | some t => mdel s.trans n ++ [(n, t)] } := by
    intro s; unfold State.useTrans; cases mget s.trans n <;> rfl
  have hent : x.entered n = (if (match x.p.stage with
            | .translating _ => true
            | _ => false) = true then x.s else x.s.bump x.eid 0 x.team.core 1).useTrans n := rfl
  rw [hent]
  clear hent
  generalize (match x.p.stage with
            | .translating _ => true
            | _ => false) = w
  cases w <;> rw [hu] <;> exact ⟨rfl, rfl⟩

theorem Exe.setGroup_put_bump (x : Exe) (g g' : Group) (e k c n : Nat) :
    ((x.put g).bump e k c n).setGroup x.gid g' = (x.put g').bump e k c n := by
  simp [Exe.put, State.setGroup, State.bump, State.setEncl, State.encl]

end Sys2Proof.Machine
end

