-- ==== Sys2Proof/Laws/Elements.lean ====
section
/-! SUPPORT. The elements of values, and the arithmetic on them as bit-vector arithmetic. -/

namespace Sys2Proof.Machine

set_option Elab.async false

theorem width_le (t : Ty) : t.width ≤ 64 := by cases t <;> decide

theorem elemWidth_mul (t : Ty) : elemWidth t * elemCount t = t.width := by cases t <;> decide

theorem ofElems_lt (w : Nat) : ∀ es : List Nat, ofElems w es < 2 ^ (w * es.length)
  | [] => by simp [ofElems]
  | e :: es => by
      have ih := ofElems_lt w es
      have h : e % 2 ^ w < 2 ^ w := Nat.mod_lt _ (Nat.two_pow_pos w)
      have hp : 2 ^ (w * (es.length + 1)) = 2 ^ w * 2 ^ (w * es.length) := by rw [← Nat.pow_add]; congr 1; rw [Nat.mul_succ]; omega
      simp only [ofElems, List.length_cons, hp]
      calc e % 2 ^ w + 2 ^ w * ofElems w es < 2 ^ w + 2 ^ w * ofElems w es := by omega
        _ = 2 ^ w * (ofElems w es + 1) := by rw [Nat.mul_succ]; omega
        _ ≤ 2 ^ w * 2 ^ (w * es.length) := Nat.mul_le_mul_left _ ih

theorem ofElems_digit (w : Nat) : ∀ (es : List Nat) (j : Nat), ofElems w es / 2 ^ (w * j) % 2 ^ w = (es[j]?.getD 0) % 2 ^ w
  | [], j => by simp [ofElems]
  | e :: es, 0 => by
      simp only [ofElems, Nat.mul_zero, Nat.pow_zero, Nat.div_one, List.getElem?_cons_zero, Option.getD_some]
      rw [Nat.add_mul_mod_self_left, Nat.mod_mod]
  | e :: es, j + 1 => by
      have hp : 2 ^ (w * (j + 1)) = 2 ^ w * 2 ^ (w * j) := by rw [← Nat.pow_add]; congr 1; rw [Nat.mul_succ]; omega
      have hd : (e % 2 ^ w + 2 ^ w * ofElems w es) / 2 ^ w = ofElems w es := by
        rw [Nat.add_mul_div_left _ _ (Nat.two_pow_pos w), Nat.div_eq_of_lt (Nat.mod_lt _ (Nat.two_pow_pos w)), Nat.zero_add]
      simp only [ofElems, hp, ← Nat.div_div_eq_div_mul, hd, List.getElem?_cons_succ]
      exact ofElems_digit w es j

/-- A value put together from elements holds them. -/
theorem packs_ofElems (t : Ty) (f : Nat → Nat) (E : Nat → BitVec (elemWidth t))
    (h : ∀ j, j < elemCount t → BitVec.ofNat (elemWidth t) (f j) = E j) :
    Packs t E (ofTy t (ofElems (elemWidth t) ((List.range (elemCount t)).map f))) := by
  generalize hes : (List.range (elemCount t)).map f = es
  have hlen : es.length = elemCount t := by rw [← hes]; simp
  have hlt : ofElems (elemWidth t) es < 2 ^ t.width := by
    have := ofElems_lt (elemWidth t) es
    rwa [hlen, elemWidth_mul] at this
  have h64 : (2 : Nat) ^ t.width ≤ 2 ^ 64 := Nat.pow_le_pow_right (by decide) (width_le t)
  refine ⟨_, rfl, ?_, ?_⟩
  · rw [BitVec.toNat_ofNat, Nat.mod_eq_of_lt hlt, Nat.mod_eq_of_lt (by omega)]; exact hlt
  · intro j hj
    rw [BitVec.toNat_ofNat, Nat.mod_eq_of_lt hlt, Nat.mod_eq_of_lt (by omega : ofElems (elemWidth t) es < 2 ^ 64), ← h j hj]
    apply BitVec.eq_of_toNat_eq
    rw [BitVec.toNat_ofNat, BitVec.toNat_ofNat, ofElems_digit, ← hes]
    simp [hj]

/-- The flags that a list of elements raises, where each raises OF or none. -/
theorem foldl_flags {α : Type} (f : α → BitVec 6) : ∀ (ls : List α) (a : BitVec 6), (∀ v ∈ ls, f v = flagOF ∨ f v = 0) →
    ls.foldl (fun a v => a ||| f v) a = if ∃ v ∈ ls, f v = flagOF then a ||| flagOF else a
  | [], a, _ => by simp
  | v :: ls, a, h => by
      have ih := foldl_flags f ls (a ||| f v) fun u hu => h u (List.mem_cons_of_mem _ hu)
      rw [List.foldl_cons, ih]
      have hne : (0 : BitVec 6) ≠ flagOF := by decide
      rcases h v (List.mem_cons_self ..) with hv | hv
      · by_cases he : ∃ u ∈ ls, f u = flagOF
        · rw [if_pos he, if_pos ⟨v, List.mem_cons_self .., hv⟩, hv, BitVec.or_assoc, BitVec.or_self]
        · rw [if_neg he, if_pos ⟨v, List.mem_cons_self .., hv⟩, hv]
      · have hz : a ||| 0 = a := BitVec.or_zero
        rw [hv, hz]
        by_cases he : ∃ u ∈ ls, f u = flagOF
        · obtain ⟨u, hu, hf⟩ := he
          rw [if_pos ⟨u, hu, hf⟩, if_pos ⟨u, List.mem_cons_of_mem _ hu, hf⟩]
        · rw [if_neg he, if_neg]
          rintro ⟨u, hu, hf⟩
          rcases List.mem_cons.mp hu with rfl | hu
          · rw [hv] at hf; exact hne hf
          · exact he ⟨u, hu, hf⟩

/-! An element's arithmetic. -/

theorem elem_toNat (x : Exe) (i : Instr) (w l k j : Nat) : (x.el i w l k j).toNat = elemOf w (numOf (x.args i l) k) j := by
  simp [Exe.el, elemOf]

theorem ofNat_elem (x : Exe) (i : Instr) (w l k j : Nat) :
    BitVec.ofNat w (elemOf w (numOf (x.args i l) k) j) = x.el i w l k j := by
  rw [← elem_toNat]; simp

theorem signedOf_ofNat (w v : Nat) : signedOf w v = (BitVec.ofNat w v).toInt := by
  unfold signedOf BitVec.toInt
  rw [BitVec.toNat_ofNat]
  have hw : 0 < w → 2 ^ w = 2 * 2 ^ (w - 1) := fun h => by
    obtain ⟨n, rfl⟩ : ∃ n, w = n + 1 := ⟨w - 1, by omega⟩
    rw [Nat.pow_succ, Nat.add_sub_cancel, Nat.mul_comm]
  have hlt : v % 2 ^ w < 2 ^ w := Nat.mod_lt _ (Nat.two_pow_pos w)
  generalize v % 2 ^ w = n at hlt
  by_cases h0 : w = 0
  · subst h0
    have : n = 0 := by simpa using hlt
    subst this; simp
  · have := hw (by omega)
    by_cases h1 : 2 ^ (w - 1) ≤ n
    · have h2 : ¬ 2 * n < 2 ^ w := by omega
      simp only [h1, and_true, h2, if_false]
      rw [if_pos (by omega)]
      norm_cast
    · have h2 : 2 * n < 2 ^ w := by omega
      simp [h1, h2]

theorem signedOf_elem (x : Exe) (i : Instr) (w l k j : Nat) :
    signedOf w (elemOf w (numOf (x.args i l) k) j) = (x.el i w l k j).toInt := by
  rw [signedOf_ofNat, ofNat_elem]

theorem wrapTo_ofInt (w : Nat) (e : Int) : wrapTo w e = (BitVec.ofInt w e).toNat := by
  simp [wrapTo, BitVec.toNat_ofInt]

theorem ofNat_wrapTo (w : Nat) (e : Int) : BitVec.ofNat w (wrapTo w e) = BitVec.ofInt w e := by
  rw [wrapTo_ofInt, BitVec.ofNat_toNat, BitVec.setWidth_eq]

theorem clampTo_eq {lo hi e : Int} (h : lo ≤ hi) :
    (clampTo lo hi e).1 = max lo (min e hi) ∧ (e < lo ∨ hi < e → (clampTo lo hi e).2 = flagOF) ∧
      (¬ (e < lo ∨ hi < e) → (clampTo lo hi e).2 = 0) := by
  unfold clampTo
  by_cases h1 : e < lo
  · rw [if_pos h1]; exact ⟨by omega, fun _ => rfl, fun h => absurd (.inl h1) h⟩
  · by_cases h2 : hi < e
    · rw [if_neg h1, if_pos h2]; exact ⟨by omega, fun _ => rfl, fun h => absurd (.inr h2) h⟩
    · rw [if_neg h1, if_neg h2]; exact ⟨by omega, fun h => absurd h (by omega), fun _ => rfl⟩

theorem signed_bounds (w : Nat) : (-2 ^ (w - 1) : Int) ≤ 2 ^ (w - 1) - 1 ∧ (0 : Int) ≤ 2 ^ w - 1 := by
  have hp : (1 : Int) ≤ 2 ^ (w - 1) := by exact_mod_cast Nat.one_le_two_pow
  have hq : (1 : Int) ≤ 2 ^ w := by exact_mod_cast Nat.one_le_two_pow
  omega

theorem clampElem_fst (w : Nat) (signed : Bool) (e : Int) : BitVec.ofNat w (clampElem w signed e).1 = saturated signed w e := by
  unfold clampElem saturated
  dsimp only
  rw [ofNat_wrapTo]
  cases signed
  · simp only [Bool.false_eq_true, ↓reduceIte, (clampTo_eq (signed_bounds w).2).1]
  · simp only [↓reduceIte, (clampTo_eq (signed_bounds w).1).1]

theorem clampElem_snd (w : Nat) (signed : Bool) (e : Int) :
    (outOf signed w e → (clampElem w signed e).2 = flagOF) ∧ (¬ outOf signed w e → (clampElem w signed e).2 = 0) := by
  unfold clampElem outOf
  cases signed
  · simp only [Bool.false_eq_true, ↓reduceIte]; exact (clampTo_eq (signed_bounds w).2).2
  · simp only [↓reduceIte]; exact (clampTo_eq (signed_bounds w).1).2

theorem ofInt_sub (w : Nat) (a b : Int) : BitVec.ofInt w (a - b) = BitVec.ofInt w a - BitVec.ofInt w b := by
  apply BitVec.eq_of_toInt_eq
  rw [BitVec.toInt_sub, BitVec.toInt_ofInt, BitVec.toInt_ofInt, BitVec.toInt_ofInt, Int.sub_bmod_bmod, Int.bmod_sub_bmod]

/-! Instructions that act element by element. -/

/-- What an element-by-element lane comes to. -/
theorem onElems_packs (t : Ty) (f : Nat → Nat × BitVec 6) (E : Nat → BitVec (elemWidth t)) (clipped : Nat → Prop)
    (h : ∀ j, BitVec.ofNat (elemWidth t) (f j).1 = E j) (ho : ∀ j, clipped j → (f j).2 = flagOF) (hn : ∀ j, ¬ clipped j → (f j).2 = 0) :
    ∃ v fl, onElems t f = .done [v] fl ∧ Packs t E v ∧ ((∃ j, j < elemCount t ∧ clipped j) → fl = flagOF) ∧
      ((¬ ∃ j, j < elemCount t ∧ clipped j) → fl = 0) := by
  refine ⟨_, _, rfl, ?_, ?_, ?_⟩
  · rw [List.map_map]
    exact packs_ofElems t (fun j => (f j).1) E fun j _ => h j
  all_goals rw [foldl_flags (fun r : Nat × BitVec 6 => r.2)]
  · rintro ⟨j, hj, hv⟩
    rw [if_pos ⟨f j, List.mem_map.mpr ⟨j, List.mem_range.mpr hj, rfl⟩, ho j hv⟩]; exact BitVec.zero_or
  · intro v hv
    obtain ⟨j, -, rfl⟩ := List.mem_map.mp hv
    by_cases h : clipped j
    · exact .inl (ho j h)
    · exact .inr (hn j h)
  · intro hne
    rw [if_neg]
    rintro ⟨v, hv, hf⟩
    obtain ⟨j, hj, rfl⟩ := List.mem_map.mp hv
    have : ¬ clipped j := fun h => hne ⟨j, List.mem_range.mp hj, h⟩
    rw [hn j this] at hf
    exact absurd hf (by decide)
  · intro v hv
    obtain ⟨j, -, rfl⟩ := List.mem_map.mp hv
    by_cases h : clipped j
    · exact .inl (ho j h)
    · exact .inr (hn j h)

/-- An instruction whose lanes act element by element answers a state in which it has acted so. -/
theorem Exe.yieldsElems {s : State} {x : Exe} (hx : s.exe? = some x) (hc : x.calm) (i : Instr) (t : Ty)
    (g : Exe → List Val → LaneOut) (f : List Val → Nat → Nat × BitVec 6) (E : Nat → Nat → BitVec (elemWidth t))
    (clipped : Nat → Nat → Prop) (hi : exec i s = onPath s fun x => x.lanewise i fun _ _ vs => g x vs)
    (hg : ∀ vs, g x vs = onElems t (f vs))
    (h : ∀ l j, BitVec.ofNat (elemWidth t) (f (x.args i l) j).1 = E l j)
    (ho : ∀ l j, clipped l j → (f (x.args i l) j).2 = flagOF) (hn : ∀ l j, ¬ clipped l j → (f (x.args i l) j).2 = 0) :
    x.YieldsElems s i t E clipped := by
  have hl : ∀ l, ∃ v fl, g x (x.args i l) = .done [v] fl ∧ Packs t (E l) v ∧
      ((∃ j, j < elemCount t ∧ clipped l j) → fl = flagOF) ∧ ((¬ ∃ j, j < elemCount t ∧ clipped l j) → fl = 0) := fun l => by
    rw [hg]; exact onElems_packs t _ (E l) (clipped l) (h l) (ho l) (hn l)
  refine ⟨fun l => (g x (x.args i l)).res, fun l => (g x (x.args i l)).flags, ?_, ?_⟩
  · obtain ⟨t', h1, h2⟩ := onPath_acts hx hc i (fun x _ _ vs => g x vs) (fun l => (g x (x.args i l)).res)
      (fun l => (g x (x.args i l)).flags) (fun l _ => by obtain ⟨v, fl, h1, -⟩ := hl l; rw [h1]; rfl)
    exact ⟨t', hi.trans h1, h2⟩
  · intro l _
    obtain ⟨v, fl, h1, h2, h3, h4⟩ := hl l
    simp only [h1]
    exact ⟨⟨v, rfl, h2⟩, h3, h4⟩

/-- An instruction that acts lane by lane yields what its lanes come to. -/
theorem Exe.yields {s : State} {x : Exe} (hx : s.exe? = some x) (hc : x.calm) (i : Instr)
    (f : Exe → List (Nat × List Val) → Nat → List Val → LaneOut) (out : Nat → List Val) (fl : Nat → BitVec 6)
    (hi : exec i s = onPath s fun x => x.lanewise i (f x))
    (hf : ∀ l ∈ x.active i.ctl, f x (x.allArgs i) l (x.args i l) = .done (out l) (fl l)) : x.Yields s i out fl := by
  obtain ⟨t, h1, h2⟩ := onPath_acts hx hc i f out fl hf
  exact ⟨t, hi.trans h1, h2⟩

/-- A number in a type as the value of a bit vector of its width. -/
theorem ofTy_ofBV (t : Ty) (n : Nat) : ofTy t n = .ofBV (BitVec.ofNat t.width n) := by
  unfold ofTy Val.ofBV
  congr 1
  apply BitVec.eq_of_toNat_eq
  simp

/-! The carry forms. -/

theorem elemWidth_one {t : Ty} (h : elemCount t = 1) : elemWidth t = t.width := by
  have := elemWidth_mul t; rw [h] at this; omega

theorem ite_toNat (b : Bool) : (if b = true then (1 : Int) else 0) = (b.toNat : Int) := by cases b <;> rfl

theorem addLane_carry {t : Ty} (ht : elemCount t = 1) (vs : List Val) :
    addLane false .cy t vs = .done [ofTy t (wrapTo t.width ((numOf vs 0 : Int) + numOf vs 1 + (argOf vs 2).isTrue.toNat)),
      .ofBool (decide (2 ^ t.width ≤ numOf vs 0 + numOf vs 1 + (argOf vs 2).isTrue.toNat))] 0 := by
  have h2 : ((2 : Int) ^ t.width) = ((2 ^ t.width : Nat) : Int) := by norm_cast
  unfold addLane
  simp only [elemWidth_one ht, Bool.false_eq_true, ↓reduceIte, ite_toNat, h2, ← Bool.decide_or]
  generalize (2 : Nat) ^ t.width = q
  refine congrArg (fun b => LaneOut.done [_, .ofBool b] 0) ?_
  rw [decide_eq_decide]; omega

theorem subLane_borrow {t : Ty} (ht : elemCount t = 1) (vs : List Val) (h0 : numOf vs 0 < 2 ^ t.width) :
    addLane true .cy t vs = .done [ofTy t (wrapTo t.width ((numOf vs 0 : Int) - numOf vs 1 - (argOf vs 2).isTrue.toNat)),
      .ofBool (decide (numOf vs 0 < numOf vs 1 + (argOf vs 2).isTrue.toNat))] 0 := by
  have h2 : ((2 : Int) ^ t.width) = ((2 ^ t.width : Nat) : Int) := by norm_cast
  unfold addLane
  simp only [elemWidth_one ht, ↓reduceIte, ite_toNat, h2, ← Bool.decide_or]
  generalize (2 : Nat) ^ t.width = q at h0
  refine congrArg (fun b => LaneOut.done [_, .ofBool b] 0) ?_
  rw [decide_eq_decide]; omega

end Sys2Proof.Machine
end

