-- ==== Sys2Proof/Laws/Engine.lean ====
section
/-! SUPPORT. The instructions that read their operands once, and the issue of engine operations (R127, R128, R132). -/

namespace Sys2Proof.Machine

set_option Elab.async false

theorem Exe.commitAll_completes (x : Exe) (i : Instr) (vs : List Val) (f : BitVec 6) :
    x.Completes i (x.flagged f) (x.only i fun _ => vs) (x.commitAll i vs f) :=
  x.commit_completes i _ _ _ (fun l _ => mget_map_self (fun _ => vs) _ l) (mget_active x i.ctl fun _ => vs)

theorem Exe.nameless_false {x : Exe} {i : Instr} (h : x.active i.ctl ≠ []) (k : Nat) : x.nameless i k = false := by
  unfold Exe.nameless
  cases hq : x.active i.ctl with
  | nil => exact absurd hq h
  | cons => rfl

theorem Exe.engine_calm {x : Exe} (hc : x.calm) (i : Instr) (ha : x.active i.ctl ≠ []) (b : Option Nat) (k : List Val → State) :
    x.engine i b k = if (match b with | none => false | some b => decide (x.launch.nbar ≤ numOf (x.onceVals i) b)) then x.trapAll i trapHandle
      else k (x.onceVals i) := by
  unfold Exe.engine
  have he : (x.active i.ctl).isEmpty = false := by
    cases hq : x.active i.ctl with
    | nil => exact absurd hq ha
    | cons => rfl
  rw [he]
  simp only [Bool.false_eq_true, if_false]
  rw [Exe.once_calm hc]
  cases b with
  | none => rfl
  | some b => simp only [Exe.nameless_false ha, Bool.not_false, Bool.true_and]

/-- Issuing, then results. -/
theorem Exe.issue_issues {s : State} {x : Exe} (i : Instr) (o : EngOp) (after : State → State) (res : BitVec 64 → List Val) (y : Exe)
    (hex : exec i s = .next (if y.issueWaits o.cls then x.s else Exe.commitAll { x with s := after (y.issued o) } i (res (y.future o.cls)) (x.onceFlags i))) :
    x.Issues s i y o after res := by
  refine ⟨fun h => hex.trans (by rw [if_pos h]), fun h => ⟨_, hex.trans (by rw [if_neg (by rw [h]; decide)]), ?_⟩⟩
  exact Exe.commitAll_completes { x with s := after (y.issued o) } i _ _

theorem Exe.special_snd (x : Exe) (u : State) (G : Group) (p : Path) (hl : G.lanes = x.g.lanes) (t : Ty) (l a b : Nat) :
    (Exe.special ⟨u, x.gid, x.pid, G, p⟩ t l a b).2 = (x.special t l a b).2 := by
  unfold Exe.special
  dsimp only
  rw [Group.lane_of_lanes hl]
  split
  · split <;> rfl
  · split <;> rfl
  · rfl
  · rfl
  · split <;> rfl
  · split <;> rfl

theorem Exe.oncePoison_staged (x : Exe) (u : State) (G : Group) (p : Path) (hl : G.lanes = x.g.lanes) (hm : p.mask = x.p.mask) (i : Instr)
    (hactive : (Exe.mk u x.gid x.pid G p).active i.ctl = x.active i.ctl)
    (hplan : (Exe.mk u x.gid x.pid G p).plan i = x.plan i) :
    (Exe.mk u x.gid x.pid G p).oncePoison i = x.oncePoison i := by
  have hf : (Exe.mk u x.gid x.pid G p).first = x.first := by unfold Exe.first Exe.lanes; rw [show (Exe.mk u x.gid x.pid G p).p = p from rfl, hm]
  unfold Exe.oncePoison
  rw [hactive, hf, hplan]
  unfold Exe.readsPoison Exe.reads
  rw [List.any_map, List.any_map]
  congr 1
  funext q
  simp only [Function.comp_apply]
  unfold Exe.read
  dsimp only
  rw [Group.lane_of_lanes hl]
  cases q.2 with
  | val a b id => dsimp only
  | special a b => exact Exe.special_snd x u G p hl _ _ _ _
  | _ => rfl


theorem Exe.onceFlags_upon (x : Exe) (u : State) (i : Instr) (hp : (x.upon u).plan i = x.plan i) : (x.upon u).onceFlags i = x.onceFlags i :=
  congrArg (flagIf · flagPO) (Exe.oncePoison_staged x u x.g x.p rfl rfl i rfl hp)

theorem Exe.issue_eq (x : Exe) (o : EngOp) (k : Exe → BitVec 64 → Nat → State) :
    x.issue o k = if x.issueWaits o.cls then x.s else k { x with s := x.issued o } (x.future o.cls) x.s.next := rfl

theorem Exe.plan_issued (x : Exe) (o : EngOp) (i : Instr) : (x.upon (x.issued o)).plan i = x.plan i := rfl

theorem Exe.launchOp_eq (x : Exe) (i : Instr) (o : EngOp) :
    x.launchOp i o = if (match o.bar with | none => false | some b => (x.team.bar b).tooMany o.bytes) then x.trap i 0x0A (x.active i.ctl) 0
      else if x.issueWaits o.cls then x.s else Exe.commitAll { x with s := x.issued o } i [.bits (x.future o.cls)] (x.onceFlags i) := by
  unfold Exe.launchOp
  dsimp only
  rw [Exe.issue_eq]
  rw [show Exe.onceFlags { x with s := x.issued o } i = x.onceFlags i from Exe.onceFlags_upon x _ i (Exe.plan_issued x o i)]
  all_goals (cases h : o.bar <;> rfl)

theorem Exe.raises_trap {s : State} {x : Exe} (i : Instr) (code : Nat) (lanes : List Nat) (h : exec i s = .next (x.trap i code lanes 0)) :
    x.Raises s i code lanes := h

/-- The checks of an engine instruction, then its issue. -/
theorem Exe.engine_issues {s : State} {x : Exe} (hc : x.calm) (i : Instr) (ha : x.active i.ctl ≠ []) (b : Option Nat) (bad outside : Bool) (o : EngOp)
    (hbar : o.bar = b.map fun p => numOf (x.onceVals i) p)
    (hex : exec i s = .next (x.engine i b fun _ => if bad then x.trap i trapHandle (x.active i.ctl) 0
      else if outside then x.trap i 9 (x.active i.ctl) 0 else x.launchOp i o)) :
    let room := match o.bar with
        | none => true
        | some b => !(x.team.bar b).tooMany o.bytes
    let named := match o.bar with
        | none => true
        | some b => decide (b < x.launch.nbar)
    (named = false → x.Raises s i trapHandle x.lanes) ∧
      (named = true → bad = true → x.Raises s i trapHandle (x.active i.ctl)) ∧
      (named = true → bad = false → outside = true → x.Raises s i 9 (x.active i.ctl)) ∧
      (named = true → bad = false → outside = false → room = false → x.Raises s i 0x0A (x.active i.ctl)) ∧
      (named = true → bad = false → outside = false → room = true → x.Issues s i x o id fun fut => [.bits fut]) := by
  intro room named
  rw [Exe.engine_calm hc i ha] at hex
  have hn : named = true ∧ b = none ∨ ∃ p, b = some p ∧ named = decide (numOf (x.onceVals i) p < x.launch.nbar) := by
    clear hex
    cases b with
    | none => left; refine ⟨?_, rfl⟩; show (match o.bar with | none => true | some b => decide (b < x.launch.nbar)) = true; rw [hbar]; rfl
    | some p =>
        right; refine ⟨p, rfl, ?_⟩; show (match o.bar with | none => true | some b => decide (b < x.launch.nbar)) = _; rw [hbar]; rfl
  replace hex : exec i s = .next (if !named then x.trapAll i trapHandle else if bad then x.trap i trapHandle (x.active i.ctl) 0
      else if outside then x.trap i 9 (x.active i.ctl) 0 else x.launchOp i o) := by
    rcases hn with ⟨h1, h2⟩ | ⟨p, h1, h2⟩
    · rw [h1]; subst h2; exact hex
    · subst h1
      rw [h2]
      refine hex.trans (congrArg _ ?_)
      congr 1
      rw [eq_iff_iff]; simp
  have hroom : (match o.bar with | none => false | some b => (x.team.bar b).tooMany o.bytes) = !room := by
    show _ = !(match o.bar with
        | none => true
        | some b => !(x.team.bar b).tooMany o.bytes)
    cases o.bar <;> simp
  refine ⟨?_, ?_, ?_, ?_, ?_⟩
  · intro h; rw [h] at hex; exact hex
  · intro h h1; rw [h, h1] at hex; exact hex
  · intro h h1 h2; rw [h, h1, h2] at hex; exact hex
  · intro h h1 h2 h3
    rw [h, h1, h2] at hex
    refine hex.trans (congrArg _ ?_)
    show x.launchOp i o = _
    rw [Exe.launchOp_eq, hroom, h3]
    rfl
  · intro h h1 h2 h3
    rw [h, h1, h2] at hex
    refine Exe.issue_issues i o id _ x (hex.trans (congrArg _ ?_))
    show x.launchOp i o = _
    rw [Exe.launchOp_eq, hroom, h3]
    rfl

theorem Exe.onCore_core {x : Exe} (h : x.p.place = .core) (i : Instr) (k : Exe → State) : x.onCore i k = k x := by
  unfold Exe.onCore; rw [h]

theorem LaneOut.failed_trap (r k : Nat) : (LaneOut.trap r k).failed = some (r, k) := rfl

theorem verdict_fails (m : BitVec 64) (ls : List Nat) (f : Nat → LaneOut) (bad : Nat → Bool) (rank code : Nat)
    (hb : ∀ l ∈ ls, bad l = true → f l = .trap rank code)
    (hn : ∀ l ∈ ls, bad l = false → (∃ r k, f l = .trap r k ∧ rank < r) ∨ (f l).failed = none) (hne : ls.filter bad ≠ []) :
    verdictOf m (ls.map fun l => (l, f l)) = .trap code (ls.filter bad) 0 := by
  unfold verdictOf
  dsimp only
  rw [List.filterMap_map]
  have hfirst : ∀ (B : List (Nat × Nat × Nat)) (z : Nat × Nat), (∀ q ∈ B, q.2 = (rank, code) ∨ rank < q.2.1) → (z = (rank, code) ∨ (rank < z.1 ∧ ∃ q ∈ B, q.2 = (rank, code))) →
      B.foldl (fun (m : Nat × Nat) q => if q.2.1 < m.1 then q.2 else m) z = (rank, code) := by
    intro B
    induction B with
    | nil => rintro z - (h | ⟨-, q, hq, -⟩); exact h; cases hq
    | cons q B ih =>
        intro z hB hz
        rw [List.foldl_cons]
        apply ih _ fun q' h => hB q' (List.mem_cons_of_mem _ h)
        rcases hB q (List.mem_cons_self ..) with h1 | h1
        · rcases hz with h2 | ⟨h2, -⟩
          · left; rw [h1, h2]; simp
          · left; rw [h1]; simp [h2]
        · rcases hz with h2 | ⟨h2, q', hq', h3⟩
          · left; rw [h2, if_neg (by simp; omega)]
          · have : q' ∈ B := by
              rcases List.mem_cons.mp hq' with h | h
              · subst h; rw [h3] at h1; simp at h1
              · exact h
            right
            exact ⟨by split <;> assumption, q', this, h3⟩
  have hB : ∀ q ∈ ls.filterMap ((fun o : Nat × LaneOut => o.2.failed.map fun f => (o.1, f)) ∘ fun l => (l, f l)), (q.2 = (rank, code) ∨ rank < q.2.1) := by
    intro q hq
    obtain ⟨l, hl, h⟩ := List.mem_filterMap.mp hq
    simp only [Function.comp_apply] at h
    cases hbl : bad l with
    | true => rw [hb l hl hbl] at h; cases h; left; rfl
    | false =>
        rcases hn l hl hbl with ⟨r, k, h1, h2⟩ | h1
        · rw [h1] at h; cases h; right; exact h2
        · rw [h1] at h; cases h
  have hfil : (ls.filterMap ((fun o : Nat × LaneOut => o.2.failed.map fun f => (o.1, f)) ∘ fun l => (l, f l))).filter (fun q => q.2 == (rank, code)) =
      (ls.filter bad).map fun l => (l, rank, code) := by
    clear hne hB hfirst
    induction ls with
    | nil => rfl
    | cons l ls ih =>
        have ih := ih (fun l h => hb l (List.mem_cons_of_mem _ h)) (fun l h => hn l (List.mem_cons_of_mem _ h))
        rw [List.filterMap_cons, List.filter_cons]
        simp only [Function.comp_def] at ih ⊢
        cases hbl : bad l with
        | true =>
            have := hb l (List.mem_cons_self ..) hbl
            simp only [this, LaneOut.failed_trap, Option.map_some]
            rw [List.filter_cons_of_pos (by simp), ih]
            rfl
        | false =>
            rcases hn l (List.mem_cons_self ..) hbl with ⟨r, k, h1, h2⟩ | h1
            · simp only [h1, LaneOut.failed_trap, Option.map_some]
              rw [List.filter_cons_of_neg (by simp; omega), ih]
              simp
            · simp only [h1, Option.map_none]
              rw [ih]; simp
  generalize hgen : ls.filterMap ((fun o : Nat × LaneOut => o.2.failed.map fun f => (o.1, f)) ∘ fun l => (l, f l)) = B at hB hfil ⊢
  cases B with
  | nil =>
      rw [List.filter_nil] at hfil
      exact absurd (List.map_eq_nil_iff.mp hfil.symm) hne
  | cons b rest =>
      dsimp only
      rw [hfirst rest b.2 (fun q h => hB q (List.mem_cons_of_mem _ h)) (by
        rcases hB b (List.mem_cons_self ..) with h | h
        · exact .inl h
        · right
          refine ⟨h, ?_⟩
          have : ∃ q ∈ (b :: rest), q.2 = (rank, code) := by
            cases hls : ls.filter bad with
            | nil => exact absurd hls hne
            | cons l _ =>
                rw [hls] at hfil
                have : (l, rank, code) ∈ (b :: rest).filter (fun q => q.2 == (rank, code)) := by rw [hfil]; simp
                exact ⟨_, (List.mem_filter.mp this).1, rfl⟩
          obtain ⟨q, hq, h3⟩ := this
          rcases List.mem_cons.mp hq with e | e
          · subst e; rw [h3] at h; simp at h
          · exact ⟨q, e, h3⟩)]
      rw [hfil]
      simp [Function.comp_def]


theorem Exe.judge_test {x : Exe} (hc : x.calm) (i : Instr) (bad : List Val → Bool) (code : Nat) :
    let wrong := (x.active i.ctl).filter fun l => bad (x.args i l)
    x.judge i (fun _ _ vs => if bad vs then .trap 0 code else .done [] 0) =
      if wrong = [] then .done ((x.active i.ctl).map fun l => (l, [])) (x.raised i fun _ => 0) else .trap code wrong 0 := by
  intro wrong
  by_cases h : wrong = []
  · rw [if_pos h]
    refine x.judge_calm i _ hc (fun _ => []) (fun _ => 0) ?_
    intro l hl
    have := List.filter_eq_nil_iff.mp h l hl
    rw [if_neg this]
  · rw [if_neg h]
    unfold Exe.judge Exe.judgeWith
    have h0 : (!((x.active i.ctl).filter (x.readsPoison (x.plan i))).isEmpty && (modeEn x.p.mode &&& flagPO) != 0) = false := by
      rw [show modeEn x.p.mode = 0 from hc]; simp
    simp only [h0, Bool.false_eq_true, ↓reduceIte, List.map_map]
    refine verdict_fails x.p.mode (x.active i.ctl) (fun l => (if bad (x.args i l) then LaneOut.trap 0 code else .done [] 0).withPO (x.readsPoison (x.plan i) l)) (fun l => bad (x.args i l)) 0 code ?_ ?_ h
    · intro l _ hb; rw [if_pos hb]; rfl
    · intro l _ hb; right; rw [if_neg (by rw [hb]; decide)]; rfl

theorem Exe.futures_eq {x : Exe} (hc : x.calm) (i : Instr) (k : FutViews → BitVec 6 → State) :
    let wrong := (x.active i.ctl).filter fun l => !x.s.futValid x.g.team (argOf (x.args i l) 0).toBits
    x.futures i k = if wrong = [] then k ((x.active i.ctl).map fun l => (l, x.s.futState x.g.team (argOf (x.args i l) 0).toBits)) (x.raised i fun _ => 0)
      else x.trapAll i trapHandle := by
  intro wrong
  have := Exe.judge_test hc i (fun vs => !x.s.futValid x.g.team (argOf vs 0).toBits) trapHandle
  have e : (fun (_ : List (Nat × List Val)) (_ : Nat) (vs : List Val) => if x.s.futValid x.g.team (argOf vs 0).toBits then LaneOut.done [] 0 else .trap 0 trapHandle) =
      fun _ _ vs => if !x.s.futValid x.g.team (argOf vs 0).toBits then .trap 0 trapHandle else .done [] 0 := by
    funext _ _ vs; cases x.s.futValid x.g.team (argOf vs 0).toBits <;> rfl
  unfold Exe.futures
  rw [e, this]
  by_cases h : wrong = []
  · rw [if_pos h, if_pos h]; rfl
  · rw [if_neg h, if_neg h]
    exact if_pos rfl


end Sys2Proof.Machine
end

