-- ==== Sys2Proof/Laws/Floats.lean ====
section
/-! SUPPORT. Floating-point arithmetic (R224 to R233, R305 to R315): what the exact computations and Convert give. -/

namespace Sys2Proof.Machine

set_option Elab.async false

section
set_option linter.all false

theorem log2_add {n k : Nat} (h : n < 2 ^ k) : Nat.log2 (2 ^ k + n) = k := by
  have h0 : 2 ^ k + n ≠ 0 := by have := Nat.two_pow_pos k; omega
  have h1 : 2 ^ k ≤ 2 ^ k + n := by omega
  have h2 : 2 ^ k + n < 2 ^ (k+1) := by rw [Nat.pow_succ]; omega
  have := (Nat.le_log2 h0).mpr h1
  have := (Nat.log2_lt h0).mpr h2
  omega

theorem convert_value_gen (f : FpFmt) (r : Rounding) (neg : Bool) (exp man : Nat) (hsat : r.sat = false) (hfl : r.flush = false)
   (hb : 1 ≤ f.bias) (hman : man < 2 ^ f.mbits) (hmax : exp * 2 ^ f.mbits + man ≤ f.maxCode) :
   f.convert r (if exp = 0 then .fin neg man (f.emin - f.mbits) false else .fin neg (2 ^ f.mbits + man) ((exp : Int) - f.bias - f.mbits) false)
     = (f.word neg (exp * 2 ^ f.mbits + man), 0) := by
  have hp := Nat.two_pow_pos f.mbits
  have hem : f.emax = (f.maxCode / 2 ^ f.mbits : Nat) - (f.bias : Int) := rfl
  have hemin : f.emin = 1 - (f.bias : Int) := rfl
  have hdiv : exp ≤ f.maxCode / 2 ^ f.mbits := by rw [Nat.le_div_iff_mul_le hp]; omega
  by_cases he : exp = 0
  · subst he
    rw [if_pos rfl]
    simp only [FpFmt.convert]
    by_cases hm : man = 0
    · subst hm; simp
    · rw [if_neg (by simp [hm])]
      have hl : Nat.log2 man < f.mbits := (Nat.log2_lt hm).mpr hman
      rw [if_neg (by omega)]
      have hsp : max ((Nat.log2 man : Int) + (f.emin - f.mbits)) f.emin - f.mbits = f.emin - f.mbits := by omega
      rw [hsp]
      have hr : roundMag r neg man (f.emin - f.mbits) false (f.emin - f.mbits) = (man, false) := by
        simp [roundMag]
      rw [hr]
      have hc : (f.emin - (f.mbits:Int) + f.mbits + f.bias - 1).toNat = 0 := by omega
      rw [hc]
      have hnm : ¬ f.maxCode < 0 * 2 ^ f.mbits + man := by omega
      simp only [hfl, Bool.and_false, Bool.false_eq_true, ↓reduceIte, hnm, flagIf]
      rfl
  · rw [if_neg he]
    simp only [FpFmt.convert]
    rw [if_neg (by omega), log2_add hman]
    rw [if_neg (by omega)]
    have hsp : max ((f.mbits : Int) + ((exp:Int) - f.bias - f.mbits)) f.emin - f.mbits = (exp:Int) - f.bias - f.mbits := by omega
    rw [hsp]
    have hr : roundMag r neg (2 ^ f.mbits + man) ((exp:Int) - f.bias - f.mbits) false ((exp:Int) - f.bias - f.mbits) = (2 ^ f.mbits + man, false) := by
        simp [roundMag]
    rw [hr]
    have hc : ((exp:Int) - f.bias - f.mbits + f.mbits + f.bias - 1).toNat = exp - 1 := by omega
    rw [hc]
    have hcode : (exp - 1) * 2 ^ f.mbits + (2 ^ f.mbits + man) = exp * 2 ^ f.mbits + man := by
      obtain ⟨k, rfl⟩ : ∃ k, exp = k + 1 := ⟨exp - 1, by omega⟩
      rw [Nat.add_sub_cancel, Nat.succ_mul]; omega
    rw [hcode]
    simp only [hfl, Bool.and_false, Bool.false_eq_true, ↓reduceIte, Nat.not_lt.mpr hmax, flagIf]
    rfl

theorem convert_value (f : FpFmt) (hf : f ∈ [fmtF64, fmtF32, fmtE8M10, fmtBF16, fmtF16, fmtE5M2, fmtE4M3, fmtE3M2, fmtE2M3, fmtE2M1]) :
   1 ≤ f.bias ∧ 1 ≤ f.mbits ∧ 1 ≤ f.ebits ∧ (f.nan = .ieee → f.inf = true) := by
  simp only [List.mem_cons, List.not_mem_nil, or_false] at hf
  rcases hf with rfl|rfl|rfl|rfl|rfl|rfl|rfl|rfl|rfl|rfl <;> decide

theorem log2_spec {n : Nat} (h : n ≠ 0) : 2 ^ Nat.log2 n ≤ n ∧ n < 2 ^ (Nat.log2 n + 1) :=
  ⟨Nat.log2_self_le h, Nat.lt_log2_self⟩

theorem big_shift {m k : Nat} (h : Nat.log2 m + 66 < k) : m < 2 ^ (k - 65) ∧ m < 2 ^ k := by
  have : m < 2 ^ (k-65) := by
    by_cases h0 : m = 0
    · subst h0; exact Nat.two_pow_pos _
    · exact Nat.lt_of_lt_of_le (log2_spec h0).2 (Nat.pow_le_pow_right (by decide) (by omega))
  exact ⟨this, Nat.lt_of_lt_of_le this (Nat.pow_le_pow_right (by decide) (by omega))⟩

theorem roundUp_nearestEven {r : Rounding} {neg : Bool} {q rem k : Nat} (hk : 0 < k) (h : r.rm = 0) : roundsUp r neg q rem k false = (decide (2 ^ k < 2 * rem) || (2 * rem == 2^k && q % 2 == 1)) := by
  obtain ⟨j, rfl⟩ : ∃ j, k = j + 1 := ⟨k - 1, by omega⟩
  have : 2 ^ (j+1) / 2 * 2 = 2 ^ (j+1) := by rw [Nat.pow_succ]; omega
  simp [roundsUp, h, this]

theorem roundUp_nearestAway {r : Rounding} {neg : Bool} {q rem k : Nat} (hk : 0 < k) (h : r.rm = 4) : roundsUp r neg q rem k false = (decide (2 ^ k < 2 * rem) || (2 * rem == 2^k)) := by
  obtain ⟨j, rfl⟩ : ∃ j, k = j + 1 := ⟨k - 1, by omega⟩
  have : 2 ^ (j+1) / 2 * 2 = 2 ^ (j+1) := by rw [Nat.pow_succ]; omega
  simp [roundsUp, h, this]

theorem twos_eq : ∀ (b fuel n k : Nat), fuel ≤ k → b ≤ fuel → 2 ^ (fuel - b) ∣ n → (0 < b → ¬ 2 ^ (fuel - b + 1) ∣ n) → (b = 0 → True) → twos fuel n = fuel - b := by
  intro b fuel
  induction fuel with
  | zero => intro n k _ hb _ _ _; simp [twos]
  | succ f ih =>
    intro n k hk hb hd hn _
    by_cases hbf : b = f + 1
    · subst hbf
      have : ¬ 2 ∣ n := by simpa using hn (by omega)
      have h2 : n % 2 ≠ 0 := by omega
      simp [twos, h2]
    · have he : f + 1 - b = (f - b) + 1 := by omega
      rw [he, Nat.pow_succ] at hd
      have h2 : n % 2 = 0 := by
        obtain ⟨c, hc⟩ := hd
        rw [hc, Nat.mul_assoc, Nat.mul_left_comm]; simp
      have hn2 : n = 2 * (n / 2) := by omega
      have hd' : 2 ^ (f - b) ∣ n / 2 := by
        obtain ⟨c, hc⟩ := hd
        exact ⟨c, by rw [hc, Nat.mul_assoc, Nat.mul_left_comm]; simp⟩
      have := ih (n/2) k (by omega) (by omega) hd' (fun h0 h1 => by
        apply hn h0
        rw [he, Nat.pow_succ, Nat.mul_comm, hn2]
        exact Nat.mul_dvd_mul_left 2 h1) (fun _ => trivial)
      simp only [twos, h2, if_true, this]; omega

theorem fpOut_eq (t : Ty) (r : Rounding) (n : Num × BitVec 6) : fpOut t r n = .done [ofTy t ((fmtOf t).convert r n.1).1] (n.2 ||| ((fmtOf t).convert r n.1).2) := rfl

theorem arith_yields {s : State} {x : Exe} (hx : s.exe? = some x) (hc : x.calm) (i : Instr) (t : Ty) (f : Nat → List Num → Num × BitVec 6)
   (hi : exec i s = onPath s fun x => x.arith i t f) : x.YieldsRounded s i t (fun l => f (modeRM x.p.mode) ((x.args i l).map fun v => fpIn t x.p.mode v.num)) := by
  unfold Exe.arith at hi
  have h := Exe.yields hx hc i (fun x _ l vs => fpOut t (x.rounding l) (f (modeRM x.p.mode) (vs.map fun v => fpIn t x.p.mode v.num)))
    (fun l => [ofTy t ((fmtOf t).convert (x.rounding l) (f (modeRM x.p.mode) ((x.args i l).map fun v => fpIn t x.p.mode v.num)).1).1])
    (fun l => (f (modeRM x.p.mode) ((x.args i l).map fun v => fpIn t x.p.mode v.num)).2 ||| ((fmtOf t).convert (x.rounding l) (f (modeRM x.p.mode) ((x.args i l).map fun v => fpIn t x.p.mode v.num)).1).2) hi
    (fun l _ => fpOut_eq _ _ _)
  exact h

theorem units_zero (e0 : Int) (neg : Bool) (e : Int) (t : Bool) : (Num.fin neg 0 e t).units e0 = 0 := by
  cases neg <;> simp [Num.units]

theorem units_signed (neg : Bool) (m : Nat) (e : Int) (t : Bool) (e0 : Int) : (Num.fin neg m e t).units e0 = (Num.fin neg m e t).signed.1 * 2 ^ (e - e0).toNat := by
  cases neg <;> simp [Num.units, Num.signed, Int.neg_mul]

theorem units_ofScaled (z : Bool) (a : Int × Int) (e0 : Int) : (Num.ofScaled z a).units e0 = a.1 * 2 ^ (a.2 - e0).toNat := by
  unfold Num.ofScaled
  split
  · next h => rw [h]; simp [Num.zero, units_zero]
  · next h =>
    obtain ⟨a, b⟩ := a
    simp only [Num.units]
    by_cases ha : a < 0
    · have h1 : (a.natAbs : Int) = -a := by omega
      simp only [ha, decide_true, ↓reduceIte]
      rw [Int.natCast_mul, h1, Int.natCast_pow, Int.neg_mul, Int.neg_neg]; rfl
    · have h1 : (a.natAbs : Int) = a := by omega
      simp only [ha, decide_false, Bool.false_eq_true, ↓reduceIte]
      rw [Int.natCast_mul, h1, Int.natCast_pow]; rfl

theorem ofScaled_fin (z : Bool) (a : Int × Int) : ∃ neg v f, Num.ofScaled z a = .fin neg v f false ∧ (v = 0 → a.1 = 0) ∧ (a.1 = 0 → neg = z) := by
  unfold Num.ofScaled
  split
  · next h => exact ⟨z, 0, 0, rfl, fun _ => h, fun _ => rfl⟩
  · next h => exact ⟨_, _, _, rfl, fun hv => by omega, fun h' => absurd h' h⟩

theorem pow_split (a e e0 : Int) (h0 : e0 ≤ e) (h : e ≤ a) : (2:Int) ^ (a - e0).toNat = 2 ^ (a - e).toNat * 2 ^ (e - e0).toNat := by
  rw [← Int.pow_add]; congr 1; omega

theorem addScaled_units (a b : Int × Int) (e0 : Int) (ha : e0 ≤ a.2) (hb : e0 ≤ b.2) :
    (addScaled a b).1 * 2 ^ ((addScaled a b).2 - e0).toNat = a.1 * 2 ^ (a.2 - e0).toNat + b.1 * 2 ^ (b.2 - e0).toNat := by
  unfold addScaled
  split
  · next h => rw [h]; simp
  · split
    · next h => rw [h]; simp
    · dsimp only
      rw [Int.add_mul, Int.mul_assoc, Int.mul_assoc, ← pow_split a.2 (min a.2 b.2) e0 (by omega) (by omega), ← pow_split b.2 (min a.2 b.2) e0 (by omega) (by omega)]

theorem addScaled_zero (a b : Int × Int) (h : a.1 ≠ 0 ∨ b.1 ≠ 0) : (addScaled a b).1 = 0 → a.1 ≠ 0 ∧ b.1 ≠ 0 := by
  unfold addScaled
  intro h0
  split at h0
  · omega
  · split at h0
    · omega
    · exact ⟨‹_›, ‹_›⟩

theorem exactSum (rm : Nat) (a b : Num) (ha : ∀ p m e t, a = .fin p m e t → t = false) (hb : ∀ p m e t, b = .fin p m e t → t = false): ExactSum rm a b (Num.add rm a b) := by
  cases a with
  | nan => rfl
  | inf p => cases b with
    | nan => rfl
    | inf q => cases p <;> cases q <;> rfl
    | fin => rfl
  | fin p m d t => cases b with
    | nan => rfl
    | inf q => rfl
    | fin q n e u =>
      obtain rfl := ha p m d t rfl
      obtain rfl := hb q n e u rfl
      show ∃ _, _
      simp only [Num.add, firstNan, List.find?, Num.isNan, Num.addNums]
      generalize hz : (if (Num.isZero (.fin p m d false) && Num.isZero (.fin q n e false) && Num.neg (.fin p m d false) == Num.neg (.fin q n e false)) = true then Num.neg (.fin p m d false) else rm == 3) = z
      obtain ⟨neg, v, f, h1, h2, h3⟩ := ofScaled_fin z (addScaled (Num.fin p m d false).signed (Num.fin q n e false).signed)
      refine ⟨neg, v, f, by rw [h1], ?_, ?_⟩
      · intro e0 h4 h5 h6
        rw [← h1, units_ofScaled, addScaled_units _ _ _ h4 h5, units_signed, units_signed]; rfl
      · intro hv
        have h4 := h2 hv
        rw [h3 h4, ← hz]
        simp only [Num.isZero, Num.neg]
        have hrm : (rm == 3) = decide (rm = 3) := by rw [Bool.eq_iff_iff]; simp
        by_cases hm : m = 0
        · by_cases hn : n = 0
          · by_cases hpq : p = q <;> simp [hm, hn, hpq, hrm] 
          · simp [hn, hrm]
        · simp [hm, hrm]

theorem exactProduct (a b : Num) (ha : ∀ p m e t, a = .fin p m e t → t = false) (hb : ∀ p m e t, b = .fin p m e t → t = false) : ExactProduct a b (Num.mul a b) := by
  cases a with
  | nan => rfl
  | inf p => cases b with
    | nan => rfl
    | inf q => rfl
    | fin q n e u =>
      obtain rfl := hb q n e u rfl
      by_cases hn : n = 0 <;> simp [ExactProduct, Num.mul, firstNan, Num.isNan, Num.mulNums, Num.isInf, Num.isZero, hn, Num.neg]
  | fin p m d t => cases b with
    | nan => rfl
    | inf q => 
      obtain rfl := ha p m d t rfl
      by_cases hn : m = 0 <;> simp [ExactProduct, Num.mul, firstNan, Num.isNan, Num.mulNums, Num.isInf, Num.isZero, hn, Num.neg]
    | fin q n e u => rfl

def ShortNum (a : Num) : Prop := ∀ p m e t, a = .fin p m e t → t = false ∧ m < 2 ^ 64

theorem value_ex (t : Ty) (m : BitVec 64) (v : Nat) : ShortNum (fpIn t m v) := by
  have hb : (fmtOf t).mbits < 60 := by cases t <;> decide
  have hb' : 2 ^ (fmtOf t).mbits < 2 ^ 60 := Nat.pow_lt_pow_right (by decide) hb
  unfold fpIn FpFmt.value
  dsimp only
  generalize modeFlushIn m = fl
  have hman : ∀ v, v % 2 ^ (fmtOf t).mbits < 2 ^ (fmtOf t).mbits := fun v => Nat.mod_lt _ (Nat.two_pow_pos _)
  intro p n e u h
  split at h
  all_goals (repeat' split at h) <;> simp only [Num.zero, Num.fin.injEq, reduceCtorEq] at h
  all_goals (obtain ⟨_, hm, _, hu⟩ := h; refine ⟨hu.symm, ?_⟩; have := hman (v / 2 ^ (fmtOf t).low % 2 ^ (1 + (fmtOf t).ebits + (fmtOf t).mbits)); omega)

theorem exactFma (rm : Nat) (a b c : Num) (ha : ShortNum a) (hb : ShortNum b) (hc : ShortNum c) : ExactFma rm a b c (Num.fma rm a b c) := by
  refine ⟨Num.mul a b, exactProduct a b (fun p m e t h => (ha p m e t h).1) (fun p m e t h => (hb p m e t h).1), ?_⟩
  by_cases h : a.isNan = true ∨ b.isNan = true
  · rw [if_pos h]
    cases a with
    | nan => rfl
    | inf => cases b with
      | nan => rfl
      | inf => simp [Num.isNan] at h
      | fin => simp [Num.isNan] at h
    | fin => cases b with
      | nan => rfl
      | inf => simp [Num.isNan] at h
      | fin => simp [Num.isNan] at h
  · rw [if_neg h]
    simp only [not_or, Bool.not_eq_true] at h
    have h0 : firstNan [a, b] = none := by simp [firstNan, h.1, h.2]
    have h1 : Num.mul a b = Num.mulNums a b := by rw [Num.mul, h0]
    rw [h1]
    by_cases hcn : c.isNan = true
    · rw [if_pos hcn]
      cases c with
      | nan => simp [Num.fma, h0]
      | inf => simp [Num.isNan] at hcn
      | fin => simp [Num.isNan] at hcn
    · rw [if_neg hcn]
      have h2 : Num.fma rm a b c = if (Num.mulNums a b).1.isNan = true then Num.mulNums a b else ((Num.addNums rm (Num.mulNums a b).1 c).1, (Num.mulNums a b).2 ||| (Num.addNums rm (Num.mulNums a b).1 c).2) := by
        cases c with
        | nan => simp [Num.isNan] at hcn
        | inf => simp [Num.fma, h0]
        | fin => simp [Num.fma, h0]
      rw [h2]
      split
      · rfl
      · next h3 =>
        refine ⟨Num.add rm (Num.mulNums a b).1 c, exactSum _ _ _ ?_ (fun p m e t h => (hc p m e t h).1), ?_⟩
        · intro p m e t hp
          cases a with
          | nan => simp [Num.isNan] at h
          | inf => 
            simp only [Num.mulNums, Num.isInf, Bool.true_or, ↓reduceIte] at hp
            split at hp <;> simp [Num.nanNew] at hp
          | fin => cases b with
            | nan => simp [Num.isNan] at h
            | inf => 
              simp only [Num.mulNums, Num.isInf, Bool.or_true, ↓reduceIte] at hp
              split at hp <;> simp [Num.nanNew] at hp
            | fin =>
              simp only [Num.mulNums, Num.isInf, Bool.or_self, Bool.false_eq_true, ↓reduceIte, Num.fin.injEq] at hp
              exact hp.2.2.2.symm
        · have h4 : firstNan [(Num.mulNums a b).1, c] = none := by simp only [Bool.not_eq_true] at h3 hcn; simp [firstNan, h3, hcn]
          rw [Num.add, h4]

theorem exactQuot (a b : Num) (ha : ShortNum a) (hb : ShortNum b) : ExactQuotient a b (Num.div a b) := by
  cases a with
  | nan => rfl
  | inf p => cases b with
    | nan => rfl
    | inf q => rfl
    | fin => rfl
  | fin p m d t => cases b with
    | nan => rfl
    | inf q => rfl
    | fin q n e u =>
      unfold ExactQuotient
      simp only [Num.div, firstNan, List.find?, Num.isNan, Num.neg]
      by_cases hn : n = 0
      · simp only [hn, ↓reduceIte]
      · by_cases hm : m = 0
        · simp only [hn, hm, ↓reduceIte]
        · simp only [hn, hm, ↓reduceIte]
          have hn0 : 0 < n := by omega
          refine ⟨_, 128 + Nat.log2 n, _, rfl, ?_, ?_, ?_, ?_⟩
          · rw [Nat.le_div_iff_mul_le hn0]
            have h1 := (log2_spec hn).2
            have h2 : 1 ≤ m := by omega
            calc 2 ^ 127 * n ≤ 2 ^ 127 * 2 ^ (Nat.log2 n + 1) := Nat.mul_le_mul_left _ (by omega)
              _ = 2 ^ (128 + Nat.log2 n) := by rw [← Nat.pow_add]; congr 1; omega
              _ ≤ m * 2 ^ (128 + Nat.log2 n) := Nat.le_mul_of_pos_left _ h2
          · exact Nat.div_mul_le_self _ _
          · generalize m * 2 ^ (128 + Nat.log2 n) = N; rw [Nat.mul_comm]; exact Nat.lt_mul_div_succ _ hn0
          · generalize m * 2 ^ (128 + Nat.log2 n) = N
            have := Nat.div_add_mod N n
            have hc : n * (N / n) = N / n * n := Nat.mul_comm _ _
            simp only [bne_iff_ne, ne_eq]
            omega

theorem isqrt_spec : ∀ (f N r : Nat), r * r ≤ N → N < (r + 2 ^ f) * (r + 2 ^ f) → 
   isqrt f N r * isqrt f N r ≤ N ∧ N < (isqrt f N r + 1) * (isqrt f N r + 1)
  | 0, N, r, h1, h2 => by simpa [isqrt] using ⟨h1, h2⟩
  | f+1, N, r, h1, h2 => by
    simp only [isqrt]
    split
    · next h => exact isqrt_spec f N _ h (by rw [Nat.pow_succ] at h2; have : r + 2 ^ f + 2 ^ f = r + 2 ^ f * 2 := by omega
                                             rw [this]; exact h2)
    · next h => exact isqrt_spec f N r h1 (by omega)

theorem exactRoot (a : Num) (ha : ShortNum a) : ExactRoot a (Num.sqrt a) := by
  cases a with
  | nan => rfl
  | inf p => cases p <;> rfl
  | fin p m d t =>
    simp only [ExactRoot, Num.sqrt]
    by_cases hm : m = 0
    · simp only [hm, ↓reduceIte]
    · simp only [hm, ↓reduceIte]
      cases p
      · simp only [Bool.false_eq_true, ↓reduceIte]
        have hml := (ha _ _ _ _ rfl).2
        have hl : Nat.log2 m < 64 := (Nat.log2_lt hm).mpr hml
        have h1 := log2_spec hm
        generalize hK : (256 - Nat.log2 m + _ : Nat) = K
        have hKl : K = 256 - Nat.log2 m ∨ K = 257 - Nat.log2 m := by split at hK <;> omega
        have hpar : (d - (K:Int)) % 2 = 0 := by split at hK <;> omega
        have hlo : 2 ^ 256 ≤ m * 2 ^ K := by
          calc 2 ^ 256 ≤ 2 ^ (Nat.log2 m) * 2 ^ K := by rw [← Nat.pow_add]; exact Nat.pow_le_pow_right (by decide) (by omega)
            _ ≤ _ := Nat.mul_le_mul_right _ h1.1
        have hhi : m * 2 ^ K < 2 ^ 258 := by
          calc m * 2 ^ K < 2 ^ (Nat.log2 m + 1) * 2 ^ K := Nat.mul_lt_mul_of_pos_right h1.2 (Nat.two_pow_pos _)
            _ ≤ 2 ^ 258 := by rw [← Nat.pow_add]; exact Nat.pow_le_pow_right (by decide) (by omega)
        generalize hN : m * 2 ^ K = N at hlo hhi ⊢
        have hs := isqrt_spec 130 N 0 (by omega) (by
          have : (0 + 2^130) * (0 + 2^130) = (2:Nat)^260 := by decide
          rw [this]; omega)
        generalize isqrt 130 N 0 = R at hs
        refine ⟨R, K, _, _, rfl, by omega, ?_, by rw [hN]; exact hs.1, by rw [hN]; exact hs.2, by rw [hN]; simp⟩
        · apply Decidable.byContradiction
          intro hc
          have : R + 1 ≤ 2 ^ 128 := by omega
          have h5 := Nat.mul_le_mul this this
          have h6 : (2:Nat)^128 * 2^128 = 2^256 := by decide
          omega
      · rfl

theorem ex_zero (n : Bool) : ShortNum (.zero n) := by intro p m e t h; simp [Num.zero] at h; exact ⟨by simp [h], by omega⟩

theorem ex_opp {a : Num} (h : ShortNum a) : ShortNum a.opp := by
  cases a with
  | nan => intro p m e t h'; simp [Num.opp] at h'
  | inf => intro p m e t h'; simp [Num.opp] at h'
  | fin p m e t => intro p' m' e' t' h'; simp only [Num.opp, Num.fin.injEq] at h'; have := h _ _ _ _ rfl; obtain ⟨_, rfl, _, rfl⟩ := h'; exact this

theorem ex_numAt (t : Ty) (m : BitVec 64) (vs : List Val) (k : Nat) : ShortNum (numAt (vs.map fun v => fpIn t m v.num) k) := by
  unfold numAt
  rw [List.getD_eq_getElem?_getD, List.getElem?_map]
  cases vs[k]? with
  | none => exact ex_zero _
  | some v => exact value_ex _ _ _

theorem lt_iff {a b : Num} (ha : a.isNan = false) (hb : b.isNan = false) : a.lt b = true ↔ a.less b := by
  cases a with
  | nan => simp [Num.isNan] at ha
  | inf p => cases b with
    | nan => simp [Num.isNan] at hb
    | inf q => simp [Num.lt, Num.less]
    | fin => simp [Num.lt, Num.less]
  | fin p m d t => cases b with
    | nan => simp [Num.isNan] at hb
    | inf q => simp [Num.lt, Num.less]
    | fin q n e u =>
      simp only [Num.lt, Num.less, decide_eq_true_eq]
      have key : ∀ e0, e0 ≤ d → e0 ≤ e → ((addScaled (Num.fin p m d t).signed (-(Num.fin q n e u).signed.1, (Num.fin q n e u).signed.2)).1 < 0 ↔ (Num.fin p m d t).units e0 < (Num.fin q n e u).units e0) := by
        intro e0 h1 h2
        have h := addScaled_units (Num.fin p m d t).signed (-(Num.fin q n e u).signed.1, (Num.fin q n e u).signed.2) e0 h1 h2
        generalize (addScaled (Num.fin p m d t).signed (-(Num.fin q n e u).signed.1, (Num.fin q n e u).signed.2)) = A at *
        rw [units_signed, units_signed]
        dsimp only at h
        have e1 : (Num.fin p m d t).signed.2 = d := rfl
        have e2 : (Num.fin q n e u).signed.2 = e := rfl
        rw [Int.neg_mul, e1, e2] at h
        generalize (Num.fin p m d t).signed.1 * 2 ^ (d - e0).toNat = X at *
        generalize (Num.fin q n e u).signed.1 * 2 ^ (e - e0).toNat = Y at *
        have hp : (0:Int) < 2 ^ (A.2 - e0).toNat := Int.pow_pos (by decide)
        generalize (2:Int) ^ (A.2 - e0).toNat = P at *
        constructor
        · intro h3
          have := Int.mul_neg_of_neg_of_pos h3 hp
          omega
        · intro h3
          apply Decidable.byContradiction
          intro h4
          have := Int.mul_nonneg (by omega : 0 ≤ A.1) (Int.le_of_lt hp)
          omega
      constructor
      · intro h e0 h1 h2
        exact (key e0 h1 h2).mp h
      · intro h
        have h1 := h (min d e) (by omega) (by omega)
        exact (key (min d e) (by omega) (by omega)).mpr h1

theorem roundMag_ge (r : Rounding) (neg : Bool) (m : Nat) (e : Int) (st : Bool) (w : Nat) (hm : m ≠ 0) (h : (w : Int) < Nat.log2 m + e) :
    2 ^ (w + 1) ≤ (roundMag r neg m e st 0).1 := by
  have hl := Nat.log2_self_le hm
  unfold roundMag
  by_cases he : 0 ≤ e
  · rw [if_pos he]
    dsimp only
    calc 2 ^ (w+1) ≤ 2 ^ (Nat.log2 m + (e - 0).toNat) := Nat.pow_le_pow_right (by decide) (by omega)
      _ = 2 ^ (Nat.log2 m) * 2 ^ (e-0).toNat := Nat.pow_add ..
      _ ≤ _ := Nat.mul_le_mul_right _ hl
  · rw [if_neg he]
    dsimp only
    have hk : ((0:Int) - e).toNat ≤ Nat.log2 m := by omega
    rw [if_neg (by omega)]
    have hq : 2 ^ (w+1) ≤ m / 2 ^ (0 - e).toNat := by
      rw [Nat.le_div_iff_mul_le (Nat.two_pow_pos _), ← Nat.pow_add]
      exact Nat.le_trans (Nat.pow_le_pow_right (by decide) (by omega)) hl
    split
    · exact hq
    · split <;> dsimp only <;> omega

theorem convertInt_spec (w : Nat) (signed : Bool) (hw : 0 < w) (r : Rounding) (n : Num) (hst : ∀ p m e st, n = .fin p m e st → st = false) :
    let b := intRange signed w
    BitVec.ofNat w (convertInt w signed r n).1 = BitVec.ofInt w (toInteger r b.1 b.2 n).1 ∧ (convertInt w signed r n).2 = (toInteger r b.1 b.2 n).2 ∧
     (convertInt w signed r n).1 < 2 ^ w := by
  have h2w : 2 ^ w = 2 * 2 ^ (w-1) := by rw [Nat.mul_comm, ← Nat.pow_succ]; congr 1; omega
  have hp := Nat.two_pow_pos (w-1)
  have hpi : ((2:Int) ^ (w-1)) = ((2 ^ (w-1) : Nat) : Int) := by norm_cast
  have hpw : ((2:Int) ^ w) = ((2 ^ w : Nat) : Int) := by norm_cast
  have hneg : ∀ x : Nat, x ≤ 2 ^ w → BitVec.ofNat w (2 ^ w - x) = BitVec.ofInt w (-(x:Int)) := by
    intro x hx
    apply BitVec.eq_of_toInt_eq
    rw [BitVec.toInt_ofInt, BitVec.toInt_eq_toNat_bmod, BitVec.toNat_ofNat, Int.natCast_emod, Int.emod_bmod]
    have : ((2 ^ w - x : Nat) : Int) = -(x:Int) + (2 ^ w : Nat) := by omega
    have hb : ∀ z y : Int, z = y → z.bmod (2 ^ w) = y.bmod (2 ^ w) := fun _ _ h => by rw [h]
    rw [this, Int.add_bmod_right]
  have hpos : ∀ x : Nat, BitVec.ofNat w x = BitVec.ofInt w x := by intro x; simp
  dsimp only
  have hlo : (intRange signed w).1 = if signed then -((2 ^ (w-1) : Nat):Int) else 0 := by cases signed <;> simp only [intRange, ↓reduceIte, hpi, Bool.false_eq_true]
  have hhi : (intRange signed w).2 = if signed then ((2 ^ (w-1) : Nat):Int) - 1 else ((2 ^ w : Nat):Int) - 1 := by cases signed <;> simp only [intRange, ↓reduceIte, hpi, hpw, Bool.false_eq_true]
  rw [hlo, hhi]
  have hsb := hneg (2 ^ (w-1)) (by omega)
  have e1 : 2 ^ w - 2 ^ (w-1) = 2 ^ (w-1) := by omega
  rw [e1] at hsb
  have e2 : BitVec.ofNat w (2 ^ (w-1) - 1) = BitVec.ofInt w (((2 ^ (w-1) : Nat):Int) - 1) := by
    have : (((2 ^ (w-1) : Nat):Int) - 1) = ((2 ^ (w-1) - 1 : Nat) : Int) := by omega
    rw [this, hpos]
  have e3 : BitVec.ofNat w (2 ^ w - 1) = BitVec.ofInt w (((2 ^ w : Nat):Int) - 1) := by
    have : (((2 ^ w : Nat):Int) - 1) = ((2 ^ w - 1 : Nat) : Int) := by omega
    rw [this, hpos]
  cases n with
  | nan => exact ⟨by simp [convertInt, toInteger], rfl, Nat.two_pow_pos w⟩
  | inf neg =>
    cases neg <;> cases signed <;> (refine ⟨?_, rfl, ?_⟩ <;> simp only [convertInt, toInteger, ↓reduceIte, Bool.false_eq_true])
    · exact e3
    · omega
    · exact e2
    · omega
    · simp
    · omega
    · exact hsb
    · omega
  | fin neg m e st =>
    simp only [convertInt, toInteger]
    have hmodlim : ∀ L, L < 2 ^ w → L % 2 ^ w = L := fun L h => Nat.mod_eq_of_lt h
    by_cases hz : m = 0 ∧ st = false
    · rw [if_pos hz]
      have hq : roundMag r neg m e st 0 = (0, false) := by
        obtain ⟨rfl, rfl⟩ := hz
        unfold roundMag; split
        · simp
        · simp
      rw [hq]
      cases neg <;> cases signed <;> simp only [↓reduceIte, Bool.false_eq_true] <;> (rw [if_neg (by omega), if_neg (by omega)]; exact ⟨by simp, rfl, by omega⟩)
    · rw [if_neg hz]
      by_cases hbig : (w:Int) < Nat.log2 m + e
      · rw [if_pos hbig]
        have hm : m ≠ 0 := fun h => hz ⟨h, hst _ _ _ _ rfl⟩
        · have hq := roundMag_ge r neg m e st w hm hbig
          generalize (roundMag r neg m e st 0) = q at hq
          rw [Nat.pow_succ] at hq
          have e4 : 2 ^ (w-1) % 2 ^ w = 2 ^ (w-1) := Nat.mod_eq_of_lt (by omega)
          have e5 : (2 ^ (w-1) - 1) % 2 ^ w = 2 ^ (w-1) - 1 := Nat.mod_eq_of_lt (by omega)
          have e6 : (2 ^ w - 1) % 2 ^ w = 2 ^ w - 1 := Nat.mod_eq_of_lt (by omega)
          cases neg <;> cases signed <;> simp only [↓reduceIte, Bool.false_eq_true, e4, e5, e6]
          · rw [if_neg (by omega), if_pos (by omega)]; exact ⟨e3, rfl, by omega⟩
          · rw [if_neg (by omega), if_pos (by omega)]; exact ⟨e2, rfl, by omega⟩
          · rw [if_pos (by omega)]; refine ⟨by simp, rfl, ?_⟩; first | (simp; done) | (simp; omega)
          · rw [if_pos (by omega)]; exact ⟨hsb, rfl, by omega⟩
      · rw [if_neg hbig]
        generalize (roundMag r neg m e st 0) = q
        have e4 : 2 ^ (w-1) % 2 ^ w = 2 ^ (w-1) := Nat.mod_eq_of_lt (by omega)
        have e5 : (2 ^ (w-1) - 1) % 2 ^ w = 2 ^ (w-1) - 1 := Nat.mod_eq_of_lt (by omega)
        have e6 : (2 ^ w - 1) % 2 ^ w = 2 ^ w - 1 := Nat.mod_eq_of_lt (by omega)
        have hin : ∀ z, z % 2 ^ w < 2 ^ w := fun z => Nat.mod_lt _ (Nat.two_pow_pos w)
        have hmm : ∀ z, BitVec.ofNat w (z % 2 ^ w) = BitVec.ofNat w z := by intro z; apply BitVec.eq_of_toNat_eq; simp
        cases neg <;> cases signed <;> simp only [↓reduceIte, Bool.false_eq_true, e4, e5, e6]
        · by_cases h : 2 ^ w - 1 < q.1
          · rw [if_pos h, if_neg (by omega), if_pos (by omega)]; exact ⟨e3, rfl, by omega⟩
          · rw [if_neg h, if_neg (by omega), if_neg (by omega)]; exact ⟨by rw [hmm, hpos], rfl, hin _⟩
        · by_cases h : 2 ^ (w-1) - 1 < q.1
          · rw [if_pos h, if_neg (by omega), if_pos (by omega)]; exact ⟨e2, rfl, by omega⟩
          · rw [if_neg h, if_neg (by omega), if_neg (by omega)]; exact ⟨by rw [hmm, hpos], rfl, hin _⟩
        · by_cases h : 0 < q.1
          · rw [if_pos h, if_pos (by omega)]; exact ⟨by simp, rfl, hin _⟩
          · rw [if_neg h, if_neg (by omega), if_neg (by omega)]; exact ⟨by rw [hmm, hneg _ (by omega)], rfl, hin _⟩
        · by_cases h : 2 ^ (w-1) < q.1
          · rw [if_pos h, if_pos (by omega)]; exact ⟨hsb, rfl, by omega⟩
          · rw [if_neg h, if_neg (by omega), if_neg (by omega)]; exact ⟨by rw [hmm, hneg _ (by omega)], rfl, hin _⟩

theorem fpIn_exact (t : Ty) (m : BitVec 64) (v : Nat) : ∀ p n e st, fpIn t m v = .fin p n e st → st = false := by
  unfold fpIn FpFmt.value
  dsimp only
  generalize modeFlushIn m = fl
  intro p n e u h
  split at h
  all_goals (repeat' split at h) <;> simp only [Num.zero, Num.fin.injEq, reduceCtorEq] at h
  all_goals exact h.2.2.2.symm

theorem ofTy_small (t : Ty) (w v : Nat) (hw : w ≤ t.width) (hv : v < 2 ^ w) : ofTy t v = .ofBV (BitVec.ofNat w v) := by
  have h1 : 2 ^ w ≤ 2 ^ t.width := Nat.pow_le_pow_right (by decide) hw
  have h2 : 2 ^ t.width ≤ 2 ^ 64 := Nat.pow_le_pow_right (by decide) (width_le t)
  unfold ofTy Val.ofBV
  congr 1
  apply BitVec.eq_of_toNat_eq
  simp only [BitVec.toNat_ofNat, BitVec.toNat_setWidth]
  rw [Nat.mod_eq_of_lt (by omega : v < 2 ^ t.width), Nat.mod_eq_of_lt (by omega : v < 2 ^ w)]

theorem toInt_lane (x : Exe) (i : Instr) (w : Nat) (signed : Bool) (d : Ty) (hw : 0 < w) (hd : w ≤ d.width) (r : Rounding) (n : Num)
   (hst : ∀ p m e st, n = .fin p m e st → st = false) (W : Nat × BitVec 6) (hW : convertInt w signed r n = W) :
   LaneOut.done [ofTy d W.1] W.2 = LaneOut.done [.ofBV (BitVec.ofInt w (toInteger r (intRange signed w).1 (intRange signed w).2 n).1)] (toInteger r (intRange signed w).1 (intRange signed w).2 n).2 := by
  obtain ⟨h1, h2, h3⟩ := convertInt_spec w signed hw r n hst
  subst hW
  rw [ofTy_small d w _ hd h3, h1, h2]

theorem ofScaled_int (i : Int) : ∃ neg m, Num.ofScaled false (i, 0) = .fin neg m 0 false ∧ (Num.fin neg m 0 false).units 0 = i := by
  unfold Num.ofScaled
  by_cases h : i = 0
  · subst h; exact ⟨false, 0, rfl, by simp [Num.units]⟩
  · rw [if_neg h]
    refine ⟨_, _, rfl, ?_⟩
    by_cases hi : i < 0
    · simp only [Num.units, hi, decide_true, ↓reduceIte, Int.sub_self, Int.toNat_zero, Nat.pow_zero, Nat.mul_one]; omega
    · simp only [Num.units, hi, decide_false, Bool.false_eq_true, ↓reduceIte, Int.sub_self, Int.toNat_zero, Nat.pow_zero, Nat.mul_one]; omega

theorem value_exact (f : FpFmt) (fl : Bool) (v : Nat) : ∀ p n e st, f.value fl v = .fin p n e st → st = false := by
  unfold FpFmt.value
  dsimp only
  intro p n e u h
  split at h
  all_goals (repeat' split at h) <;> simp only [Num.zero, Num.fin.injEq, reduceCtorEq] at h
  all_goals exact h.2.2.2.symm

theorem foldl_add_units : ∀ (ts : List (Int × Int)) (a : Int × Int) (e0 : Int), e0 ≤ a.2 → (∀ t ∈ ts, e0 ≤ t.2) →
   e0 ≤ (ts.foldl addScaled a).2 ∧ (ts.foldl addScaled a).1 * 2 ^ ((ts.foldl addScaled a).2 - e0).toNat = (ts.map fun t => t.1 * 2 ^ (t.2 - e0).toNat).foldl (· + ·) (a.1 * 2 ^ (a.2 - e0).toNat) := by
  intro ts
  induction ts with
  | nil => intro a e0 h _; exact ⟨h, rfl⟩
  | cons t ts ih =>
    intro a e0 h ht
    have h1 := ht t (List.mem_cons_self ..)
    have h2 : e0 ≤ (addScaled a t).2 := by
      unfold addScaled; split
      · exact h1
      · split
        · exact h
        · dsimp only; omega
    obtain ⟨h3, h4⟩ := ih (addScaled a t) e0 h2 (fun u hu => ht u (List.mem_cons_of_mem _ hu))
    refine ⟨h3, ?_⟩
    rw [List.foldl_cons, h4, addScaled_units a t e0 h h1, List.map_cons, List.foldl_cons]

theorem firstNan_isNan {ts : List Num} {n : Num} (h : firstNan ts = some n) : n.isNan = true := List.find?_some h

theorem dotInt_eq (sa sb : Bool) (x : Exe) (i : Instr) (l : Nat) :
   BitVec.ofNat 32 (dotInt sa sb (x.args i l)) = x.arg i 32 l 2 + (List.range 4).foldl (fun acc j => acc + (if sa then (x.el i 8 l 0 j).signExtend 32 else (x.el i 8 l 0 j).zeroExtend 32) * (if sb then (x.el i 8 l 1 j).signExtend 32 else (x.el i 8 l 1 j).zeroExtend 32)) 0 := by
  have he : ∀ (sg : Bool) (k j : Nat), BitVec.ofInt 32 (if sg = true then signedOf 8 (elemOf 8 (numOf (x.args i l) k) j) else ((elemOf 8 (numOf (x.args i l) k) j : Nat) : Int)) = if sg then (x.el i 8 l k j).signExtend 32 else (x.el i 8 l k j).zeroExtend 32 := by
    intro sg k j
    cases sg
    · simp only [Bool.false_eq_true, ↓reduceIte]
      rw [← elem_toNat, BitVec.ofInt_natCast]
      apply BitVec.eq_of_toNat_eq
      simp
    · simp only [↓reduceIte]
      rw [signedOf_elem]; rfl
  unfold dotInt
  rw [ofNat_wrapTo]
  simp only [List.range_succ, List.range_zero, List.nil_append, List.cons_append, List.foldl_cons, List.foldl_nil, BitVec.ofInt_add, BitVec.ofInt_mul, he, BitVec.ofInt_natCast]
  unfold Exe.arg
  simp only [BitVec.add_assoc, BitVec.ofNat_eq_ofNat, BitVec.zero_add]

theorem num_one_same {m : Nat} {e : Int} (hm : m ≠ 0) (h : (m : Int) * 2 ^ e.toNat = 2 ^ (-e).toNat) : (Num.fin false m e false).same (.one false) = true := by
  have hmi : (m : Int) ≠ 0 := by omega
  have key : (m : Int) * 2 ^ (e - min e 0).toNat = 2 ^ (0 - min e 0).toNat := by
    by_cases he : 0 ≤ e
    · have e1 : min e 0 = 0 := by omega
      have e2 : (-e).toNat = 0 := by omega
      rw [e2] at h
      rw [e1]; simpa using h
    · have e1 : min e 0 = e := by omega
      have e2 : e.toNat = 0 := by omega
      rw [e2] at h
      rw [e1]; simpa using h
  have key' : min (0:Int) e = min e 0 := by omega
  simp only [Num.same, Num.lt, Num.one, Num.signed, addScaled, key']
  rw [Bool.and_eq_true]
  simp [Int.neg_mul, key, hm]

end

end Sys2Proof.Machine
end

