-- ==== Sys2Proof/Laws/Integers.lean ====
section
/-! SUPPORT. Integer arithmetic (R269, R273 to R283): what the shared computations give on bit vectors. -/

namespace Sys2Proof.Machine

set_option Elab.async false

section
set_option linter.all false

theorem emod_ediv_mul (x m n : Int) (hm : 0 < m) : (x % (m * n)) / m = (x / m) % n := by
  rw [Int.emod_def x (m * n), Int.mul_assoc, Int.sub_mul_ediv_left _ _ (by omega), Int.emod_def (x/m) n, Int.ediv_ediv_of_nonneg (by omega)]

theorem high_signed (w : Nat) (a b : BitVec w) :
    (a.signExtend (2 * w) * b.signExtend (2 * w)).extractLsb' w w = BitVec.ofInt w (a.toInt * b.toInt / 2 ^ w) := by
  have h : a.signExtend (2 * w) * b.signExtend (2 * w) = BitVec.ofInt (2 * w) (a.toInt * b.toInt) := by
    rw [BitVec.signExtend, BitVec.signExtend, BitVec.ofInt_mul]
  rw [h]
  apply BitVec.eq_of_toNat_eq
  simp only [BitVec.extractLsb'_toNat, BitVec.toNat_ofInt, Nat.shiftRight_eq_div_pow]
  have e : ((2 ^ (2 * w) : Nat) : Int) = (2:Int) ^ w * 2 ^ w := by
    rw [show 2 * w = w + w by omega, Nat.pow_add]; norm_cast
  have e2 : ((2 ^ w : Nat) : Int) = (2:Int) ^ w := by norm_cast
  have hp : (0:Int) < 2 ^ w := by rw [← e2]; exact_mod_cast Nat.two_pow_pos w
  rw [e, e2]
  generalize a.toInt * b.toInt = x
  have hnn : 0 ≤ x % ((2:Int)^w * 2^w) := Int.emod_nonneg _ (by have := Int.mul_pos hp hp; omega)
  apply Int.ofNat.inj
  show ((((x % ((2:Int)^w*2^w)).toNat / 2^w % 2^w : Nat)) : Int) = (((x / 2^w % 2^w).toNat : Nat) : Int)
  rw [Int.natCast_emod, Int.natCast_ediv, Int.toNat_of_nonneg hnn, e2, emod_ediv_mul _ _ _ hp, Int.emod_emod_of_dvd _ (Int.dvd_refl _), Int.toNat_of_nonneg (Int.emod_nonneg _ (by omega))]

theorem high_unsigned (w : Nat) (a b : BitVec w) :
    (a.zeroExtend (2 * w) * b.zeroExtend (2 * w)).extractLsb' w w = BitVec.ofNat w (a.toNat * b.toNat / 2 ^ w) := by
  apply BitVec.eq_of_toNat_eq
  simp only [BitVec.extractLsb'_toNat, Nat.shiftRight_eq_div_pow, BitVec.toNat_mul, BitVec.zeroExtend, BitVec.toNat_setWidth, BitVec.toNat_ofNat]
  have hle : (2:Nat) ^ w ≤ 2 ^ (2 * w) := Nat.pow_le_pow_right (by decide) (by omega)
  have ha := a.isLt; have hb := b.isLt
  have e : (2:Nat) ^ (2 * w) = 2 ^ w * 2 ^ w := by rw [show 2 * w = w + w by omega, Nat.pow_add]
  rw [Nat.mod_eq_of_lt (by omega : a.toNat < 2 ^ (2*w)), Nat.mod_eq_of_lt (by omega : b.toNat < 2 ^ (2*w)), e, Nat.mod_eq_of_lt (Nat.mul_lt_mul_of_lt_of_lt ha hb)]

theorem fits_toNat {x : Exe} {i : Instr} {n : Nat} {t : Ty} (hf : x.fits i n t) {l : Nat} (hl : l ∈ x.active i.ctl) {k : Nat} (hk : k < n) :
   (x.arg i t.width l k).toNat = numOf (x.args i l) k := by
  simp only [Exe.arg, BitVec.toNat_ofNat, Nat.mod_eq_of_lt (hf l hl k hk)]

theorem arg_toInt (x : Exe) (i : Instr) (w l k : Nat) : (x.arg i w l k).toInt = signedOf w (numOf (x.args i l) k) := (signedOf_ofNat _ _).symm

theorem ofTy_saturated (t : Ty) (signed : Bool) (e : Int) : ofTy t (clampElem t.width signed e).1 = .ofBV (saturated signed t.width e) := by
  rw [ofTy_ofBV, clampElem_fst]

theorem divLane_zero (sg : Bool) (t : Ty) (vs : List Val) (h : numOf vs 1 = 0) :
    divLane false sg t vs = .done [.ofBV (BitVec.allOnes t.width), .ofBV (BitVec.ofNat t.width (numOf vs 0))] flagDZ := by
  unfold divLane
  simp only [h, ↓reduceIte, Bool.false_eq_true, ofTy_ofBV]
  have : BitVec.ofNat t.width (2 ^ t.width - 1) = BitVec.allOnes t.width := by
    apply BitVec.eq_of_toNat_eq; simp
  rw [this]

theorem divLane_unsigned (t : Ty) (vs : List Val) (h : numOf vs 1 ≠ 0) (h0 : numOf vs 0 < 2 ^ t.width) (h1 : numOf vs 1 < 2 ^ t.width) :
    divLane false false t vs = .done [.ofBV ((BitVec.ofNat t.width (numOf vs 0)).udiv (BitVec.ofNat t.width (numOf vs 1))),
      .ofBV ((BitVec.ofNat t.width (numOf vs 0)).umod (BitVec.ofNat t.width (numOf vs 1)))] 0 := by
  unfold divLane
  simp only [h, ↓reduceIte, Bool.false_eq_true, ofTy_ofBV]
  have e1 : BitVec.ofNat t.width (numOf vs 0 / numOf vs 1) = (BitVec.ofNat t.width (numOf vs 0)).udiv (BitVec.ofNat t.width (numOf vs 1)) := by
    apply BitVec.eq_of_toNat_eq
    rw [BitVec.udiv_eq, BitVec.toNat_udiv, BitVec.toNat_ofNat, BitVec.toNat_ofNat, BitVec.toNat_ofNat, Nat.mod_eq_of_lt h0, Nat.mod_eq_of_lt h1,
      Nat.mod_eq_of_lt (Nat.lt_of_le_of_lt (Nat.div_le_self _ _) h0)]
  have e2 : BitVec.ofNat t.width (numOf vs 0 % numOf vs 1) = (BitVec.ofNat t.width (numOf vs 0)).umod (BitVec.ofNat t.width (numOf vs 1)) := by
    apply BitVec.eq_of_toNat_eq
    rw [BitVec.umod_eq, BitVec.toNat_umod, BitVec.toNat_ofNat, BitVec.toNat_ofNat, BitVec.toNat_ofNat, Nat.mod_eq_of_lt h0, Nat.mod_eq_of_lt h1,
      Nat.mod_eq_of_lt (Nat.lt_of_le_of_lt (Nat.mod_le _ _) h0)]
  rw [e1, e2]

theorem divLane_signed (t : Ty) (vs : List Val) (h : numOf vs 1 ≠ 0) :
    divLane false true t vs = .done [.ofBV ((BitVec.ofNat t.width (numOf vs 0)).sdiv (BitVec.ofNat t.width (numOf vs 1))),
      .ofBV ((BitVec.ofNat t.width (numOf vs 0)).srem (BitVec.ofNat t.width (numOf vs 1)))] 0 := by
  unfold divLane
  simp only [h, ↓reduceIte, Bool.false_eq_true, ofTy_ofBV, ofNat_wrapTo, signedOf_ofNat]
  generalize BitVec.ofNat t.width (numOf vs 0) = a
  generalize BitVec.ofNat t.width (numOf vs 1) = b
  have e1 : BitVec.ofInt t.width (a.toInt.tdiv b.toInt) = a.sdiv b := by
    apply BitVec.eq_of_toInt_eq
    rw [BitVec.toInt_sdiv, BitVec.toInt_ofInt]
  have e2 : BitVec.ofInt t.width (a.toInt - a.toInt.tdiv b.toInt * b.toInt) = a.srem b := by
    apply BitVec.eq_of_toInt_eq
    have : a.toInt - a.toInt.tdiv b.toInt * b.toInt = a.toInt.tmod b.toInt := by
      rw [Int.tmod_def, Int.mul_comm]
    rw [this, ← BitVec.toInt_srem, BitVec.ofInt_toInt]
  rw [e1, e2]

theorem minMaxElem_bv (k : MinMax) (w : Nat) (a b : BitVec w) : BitVec.ofNat w (minMaxElem k w a.toNat b.toNat) = minMaxOf k a b := by
  have e : ∀ v : BitVec w, signedOf w v.toNat = v.toInt := fun v => by rw [signedOf_ofNat]; simp
  have n : ∀ v : BitVec w, BitVec.ofNat w v.toNat = v := fun v => by simp
  cases k <;> simp only [minMaxElem, minMaxOf, e, BitVec.slt_iff_toInt_lt, BitVec.lt_def] <;> split <;> rw [n]

theorem elemOf_toNat (w v j) : elemOf w v j = (BitVec.ofNat w (v / 2 ^ (w*j))).toNat := by simp [elemOf]

theorem rotate_split (w a r : Nat) (hr : r ≤ w) (ha : a < 2 ^ w) :
    a * 2 ^ r % 2 ^ w = 2 ^ r * (a % 2 ^ (w - r)) ∧ a / 2 ^ (w - r) < 2 ^ r := by
  have e : 2 ^ w = 2 ^ (w - r) * 2 ^ r := by rw [← Nat.pow_add]; congr 1; omega
  constructor
  · rw [e, Nat.mul_mod_mul_right, Nat.mul_comm]
  · exact Nat.div_lt_of_lt_mul (by rw [← e]; exact ha)

theorem rotate_sum (w a r : Nat) (hr : r ≤ w) (ha : a < 2 ^ w) :
    (a * 2 ^ r + a / 2 ^ (w - r)) % 2 ^ w = a * 2 ^ r % 2 ^ w + a / 2 ^ (w - r) := by
  obtain ⟨h1, h2⟩ := rotate_split w a r hr ha
  have e : 2 ^ w = 2 ^ r * 2 ^ (w - r) := by rw [← Nat.pow_add]; congr 1; omega
  have hm : a % 2 ^ (w - r) < 2 ^ (w - r) := Nat.mod_lt _ (Nat.two_pow_pos _)
  have hb : 2 ^ r * (a % 2 ^ (w - r)) + a / 2 ^ (w - r) < 2 ^ w := by
    rw [e]
    calc _ < 2 ^ r * (a % 2 ^ (w - r)) + 2 ^ r := by omega
      _ = 2 ^ r * (a % 2 ^ (w - r) + 1) := by rw [Nat.mul_succ]
      _ ≤ _ := Nat.mul_le_mul_left _ hm
  rw [Nat.add_mod, h1, Nat.mod_eq_of_lt (Nat.lt_of_le_of_lt (Nat.div_le_self _ _) ha), Nat.mod_eq_of_lt hb]

theorem rotate_elem (w a r : Nat) (hr : r ≤ w) (ha : a < 2 ^ w) :
    (a * 2 ^ r + a / 2 ^ (w - r)) % 2 ^ w = a * 2 ^ r % 2 ^ w ||| a / 2 ^ (w - r) := by
  obtain ⟨h1, h2⟩ := rotate_split w a r hr ha
  rw [rotate_sum w a r hr ha, h1, Nat.two_pow_add_eq_or_of_lt h2]

theorem rotate_elem_lt (w a r : Nat) (hr : r ≤ w) (ha : a < 2 ^ w) :
   (a * 2 ^ r + a / 2 ^ (w - r)) % 2 ^ w = a * 2 ^ r % 2 ^ w ||| a / 2 ^ (w - r) := rotate_elem w a r hr ha

theorem shiftElem_bv (k : ShiftKind) (w : Nat) (a : BitVec w) (n : Nat) : BitVec.ofNat w (shiftElem k w a.toNat n) = shiftOf k a n := by
  have ha := a.isLt
  cases k
  · simp only [shiftElem, shiftOf]
    apply BitVec.eq_of_toNat_eq
    split
    · next h =>
      rw [BitVec.toNat_shiftLeft, Nat.shiftLeft_eq, BitVec.toNat_ofNat]
      obtain ⟨d, rfl⟩ := Nat.exists_eq_add_of_le h
      rw [Nat.pow_add, Nat.mul_comm, Nat.mul_assoc, Nat.mul_mod_right]; simp
    · simp [BitVec.toNat_shiftLeft, Nat.shiftLeft_eq]
  · simp only [shiftElem, shiftOf]
    apply BitVec.eq_of_toNat_eq
    split
    · next h =>
      rw [BitVec.toNat_ushiftRight, Nat.shiftRight_eq_div_pow, Nat.div_eq_of_lt (Nat.lt_of_lt_of_le ha (Nat.pow_le_pow_right (by decide) h))]; simp
    · rw [BitVec.toNat_ushiftRight, Nat.shiftRight_eq_div_pow, BitVec.toNat_ofNat, Nat.mod_eq_of_lt (Nat.lt_of_le_of_lt (Nat.div_le_self _ _) ha)]
  · simp only [shiftElem, shiftOf]
    rw [ofNat_wrapTo, signedOf_ofNat, BitVec.ofNat_toNat, BitVec.setWidth_eq]
    rw [BitVec.sshiftRight, Int.shiftRight_eq_div_pow]
    congr 1
    by_cases h : n ≤ w
    · rw [Nat.min_eq_left h]; norm_cast
    · rw [Nat.min_eq_right (by omega)]
      have h1 : -(2:Int)^w ≤ a.toInt := by have := BitVec.le_two_mul_toInt (x := a); have e : ((2^w : Nat):Int) = 2^w := by norm_cast
                                           have : (0:Int) < 2^w := by rw [← e]; exact_mod_cast Nat.two_pow_pos w
                                           omega
      have h2 : a.toInt < (2:Int)^w := by have := BitVec.two_mul_toInt_lt (x := a); have e : ((2^w : Nat):Int) = 2^w := by norm_cast
                                          have : (0:Int) < 2^w := by rw [← e]; exact_mod_cast Nat.two_pow_pos w
                                          omega
      have hq : ((2:Int))^w ≤ ((2^n : Nat) : Int) := by
        have := Nat.pow_le_pow_right (n := 2) (by decide) (by omega : w ≤ n)
        exact_mod_cast this
      generalize (2:Int)^w = p at *
      generalize ((2^n : Nat) : Int) = q at *
      by_cases h0 : 0 ≤ a.toInt
      · rw [Int.ediv_eq_zero_of_lt h0 h2, Int.ediv_eq_zero_of_lt h0 (by omega)]
      · have f : ∀ d : Int, -d ≤ a.toInt → a.toInt < 0 → a.toInt / d = -1 := by
          intro d hd h
          rw [Int.ediv_eq_neg_one_of_neg_of_le (by omega) (by omega)]
        rw [f p h1 (by omega), f q (by omega) (by omega)]
  · by_cases hw : w = 0
    · subst hw; exact Subsingleton.elim _ _
    simp only [shiftElem, shiftOf]
    rw [BitVec.rotateLeft_def, rotate_elem w a.toNat (n % w) (Nat.le_of_lt (Nat.mod_lt _ (by omega))) ha]
    apply BitVec.eq_of_toNat_eq
    rw [BitVec.toNat_or, BitVec.toNat_shiftLeft, BitVec.toNat_ushiftRight, Nat.shiftLeft_eq, Nat.shiftRight_eq_div_pow, BitVec.toNat_ofNat, ← rotate_elem_lt w a.toNat (n % w) (Nat.le_of_lt (Nat.mod_lt _ (by omega))) ha, Nat.mod_mod]
  · by_cases hw : w = 0
    · subst hw; exact Subsingleton.elim _ _
    simp only [shiftElem, shiftOf]
    have hr := Nat.mod_lt n (show w > 0 by omega)
    have h2 := rotate_elem_lt w a.toNat (w - n % w) (by omega) ha
    rw [show w - (w - n % w) = n % w by omega] at h2
    rw [BitVec.rotateRight_def, Nat.add_comm, h2]
    apply BitVec.eq_of_toNat_eq
    rw [BitVec.toNat_or, BitVec.toNat_shiftLeft, BitVec.toNat_ushiftRight, Nat.shiftLeft_eq, Nat.shiftRight_eq_div_pow, BitVec.toNat_ofNat, ← h2, Nat.mod_mod, h2, Nat.or_comm]

theorem ite_bit (p : Bool) (A : BitVec 64) (n : Nat) : (if p = true then A else 0).getLsbD n = (p && A.getLsbD n) := by
  cases p <;> simp

theorem table3_bit (T a b c : BitVec 64) (n : Nat) (hn : n < 64) :
    (table3 T a b c).getLsbD n = T.getLsbD ((a.getLsbD n).toNat + 2 * (b.getLsbD n).toNat + 4 * (c.getLsbD n).toNat) := by
  unfold table3
  simp only [List.range_succ, List.range_zero, List.nil_append, List.cons_append, List.foldl_cons, List.foldl_nil, BitVec.getLsbD_or, ite_bit, Nat.reduceMod, Nat.reduceDiv]
  cases ha : a.getLsbD n <;> cases hb : b.getLsbD n <;> cases hc : c.getLsbD n <;>
    simp [-BitVec.getLsbD_eq_getElem, ha, hb, hc, hn]

theorem logicBits_bit (k : LogicKind) (vs : List Val) (n : Nat) (hn : n < 64) :
    (logicBits k vs).getLsbD n = logicBit k (argOf vs 3).toBits ((argOf vs 0).toBits.getLsbD n) ((argOf vs 1).toBits.getLsbD n) ((argOf vs 2).toBits.getLsbD n) := by
  cases k <;> simp [-BitVec.getLsbD_eq_getElem, logicBits, logicBit, hn, table3_bit]

theorem intCond_bv (k : IntCond) (w a b : Nat) (h0 : a < 2^w) (h1 : b < 2^w) : intCond k w a b =
   intHolds k (BitVec.ofNat w a) (BitVec.ofNat w b) := by
  have he : (BitVec.ofNat w a = BitVec.ofNat w b) ↔ a = b := by
    constructor
    · intro h
      have := congrArg BitVec.toNat h
      rwa [BitVec.toNat_ofNat, BitVec.toNat_ofNat, Nat.mod_eq_of_lt h0, Nat.mod_eq_of_lt h1] at this
    · rintro rfl; rfl
  have hb : (BitVec.ofNat w a == BitVec.ofNat w b) = (a == b) := by
    rw [Bool.eq_iff_iff, beq_iff_eq, beq_iff_eq, he]
  cases k <;> simp [intCond, intHolds, signedOf_ofNat, BitVec.slt, BitVec.sle, BitVec.ult, BitVec.ule, Nat.mod_eq_of_lt h0, Nat.mod_eq_of_lt h1, hb, bne]

theorem foldl_po (f : Nat → Bool) : ∀ (ls : List Nat) (a : BitVec 6), ls.foldl (fun a l => a ||| ((0 : BitVec 6) ||| flagIf (f l) flagPO)) a =
    if ∃ l ∈ ls, f l = true then a ||| flagPO else a
  | [], a => by simp
  | l :: ls, a => by
      rw [List.foldl_cons, foldl_po f ls]
      cases h : f l
      · have hz : a ||| ((0 : BitVec 6) ||| flagIf false flagPO) = a := by simp [flagIf]
        rw [hz]; simp [h]
      · have hz : a ||| ((0 : BitVec 6) ||| flagIf true flagPO) = a ||| flagPO := by simp [flagIf]
        rw [hz, if_pos (⟨l, List.mem_cons_self .., h⟩ : ∃ m ∈ l :: ls, f m = true)]
        split
        · rw [BitVec.or_assoc, BitVec.or_self]
        · rfl

theorem testBit_half (v n : Nat) : (v / 2).testBit n = v.testBit (n + 1) := by
  rw [Nat.testBit_succ]

theorem countP_range_succ' (p : Nat → Bool) (w : Nat) : (List.range (w+1)).countP p = (if p 0 then 1 else 0) + (List.range w).countP (fun n => p (n+1)) := by
  rw [List.range_succ_eq_map, List.countP_cons, List.countP_map, Nat.add_comm]; rfl

theorem popCount_eq : ∀ (w v : Nat), popCount w v = (List.range w).countP v.testBit
  | 0, v => rfl
  | w + 1, v => by
      rw [popCount, popCount_eq w, countP_range_succ']
      congr 1
      · rw [Nat.testBit_zero]; have := Nat.mod_two_eq_zero_or_one v; rcases this with h | h <;> simp [h]
      · congr 1; funext n; rw [testBit_half]

theorem trailZeros_spec : ∀ (w v : Nat), trailZeros w v ≤ w ∧ (∀ q, q < trailZeros w v → v.testBit q = false) ∧ (trailZeros w v < w → v.testBit (trailZeros w v) = true)
  | 0, v => by simp [trailZeros]
  | w + 1, v => by
      obtain ⟨h1, h2, h3⟩ := trailZeros_spec w (v / 2)
      unfold trailZeros
      by_cases h : v % 2 = 1
      · rw [if_pos h]
        refine ⟨by omega, by omega, fun _ => by rw [Nat.testBit_zero]; simp [h]⟩
      · rw [if_neg h]
        refine ⟨by omega, ?_, ?_⟩
        · intro q hq
          match q with
          | 0 => rw [Nat.testBit_zero]; simp [h]
          | q + 1 => rw [← testBit_half]; exact h2 q (by omega)
        · intro hq
          rw [Nat.add_comm, ← testBit_half]; exact h3 (by omega)

theorem leadZeros_spec (w v : Nat) (hv : v < 2 ^ w) (hw : 0 < w) : leadZeros w v ≤ w ∧ (∀ q, q < leadZeros w v → v.testBit (w - 1 - q) = false) ∧
    (leadZeros w v < w → v.testBit (w - 1 - leadZeros w v) = true) := by
  unfold leadZeros
  rw [Nat.mod_eq_of_lt hv]
  by_cases h : v = 0
  · rw [if_pos h]; subst h; simp
  · rw [if_neg h]
    have h1 : v.log2 < w := (Nat.log2_lt h).mpr hv
    refine ⟨by omega, ?_, ?_⟩
    · intro q hq
      apply Nat.testBit_lt_two_pow
      have : v < 2 ^ (v.log2 + 1) := Nat.lt_log2_self
      exact Nat.lt_of_lt_of_le this (Nat.pow_le_pow_right (by decide) (by omega))
    · intro _
      rw [show w - 1 - (w - 1 - v.log2) = v.log2 by omega]
      exact Nat.testBit_log2 h

theorem ofElems_bit : ∀ (es : List Nat) (n : Nat), (ofElems 1 es).testBit n = decide ((es[n]?.getD 0) % 2 = 1) := by
  intro es n
  have := ofElems_digit 1 es n
  rw [Nat.testBit_eq_decide_div_mod_eq]
  simp only [Nat.one_mul, Nat.pow_one] at this
  rw [this]

theorem bit_ofNat (w v n : Nat) : (BitVec.ofNat w v).getLsbD n = (decide (n < w) && v.testBit n) := by
  simp [BitVec.getLsbD_ofNat]

theorem extz_bit (a pos e n : Nat) : (if e ≤ pos then 0 else a / 2 ^ pos % 2 ^ (e - pos)).testBit n = (decide (pos + n < e) && a.testBit (pos + n)) := by
  by_cases he : e ≤ pos
  · rw [if_pos he]; have : ¬ pos + n < e := by omega
    simp [this]
  · rw [if_neg he, Nat.testBit_mod_two_pow, Nat.testBit_div_two_pow]
    have : (n < e - pos) ↔ pos + n < e := by omega
    simp only [this, Nat.add_comm]

theorem exts_bit (w a pos e n : Nat) (hn : n < w) :
    (BitVec.ofNat w (if e ≤ pos then 0 else wrapTo w (signedOf (e - pos) (a / 2 ^ pos)))).getLsbD n =
      (decide (pos < e) && a.testBit (min (pos + n) (e - 1))) := by
  by_cases he : e ≤ pos
  · rw [if_pos he]; have : ¬ pos < e := by omega
    simp [this]
  · rw [if_neg he, ofNat_wrapTo, signedOf_ofNat]
    show (BitVec.signExtend w (BitVec.ofNat (e - pos) (a / 2 ^ pos))).getLsbD n = _
    rw [BitVec.getLsbD_signExtend]
    have h1 : pos < e := by omega
    simp only [hn, decide_true, Bool.true_and, h1, bit_ofNat, Nat.testBit_div_two_pow]
    by_cases h2 : n < e - pos
    · rw [if_pos h2, show min (pos + n) (e - 1) = n + pos by omega]; simp [h2]
    · rw [if_neg h2, BitVec.msb_eq_getLsbD_last, bit_ofNat, Nat.testBit_div_two_pow, show min (pos + n) (e - 1) = e - pos - 1 + pos by omega]
      have : e - pos - 1 < e - pos := by omega
      simp [this]

theorem ins_bit (a b pos e n : Nat) :
    (if e ≤ pos then a else a % 2 ^ pos + b % 2 ^ (e - pos) * 2 ^ pos + a / 2 ^ e * 2 ^ e).testBit n =
      if pos ≤ n ∧ n < e then b.testBit (n - pos) else a.testBit n := by
  by_cases he : e ≤ pos
  · rw [if_pos he, if_neg (by omega)]
  · rw [if_neg he]
    have h1 : a % 2 ^ pos < 2 ^ pos := Nat.mod_lt _ (Nat.two_pow_pos _)
    have h2 : b % 2 ^ (e - pos) < 2 ^ (e - pos) := Nat.mod_lt _ (Nat.two_pow_pos _)
    have e1 : 2 ^ e = 2 ^ pos * 2 ^ (e - pos) := by rw [← Nat.pow_add]; congr 1; omega
    have h3 : a % 2 ^ pos + b % 2 ^ (e - pos) * 2 ^ pos < 2 ^ e := by
      rw [e1]
      calc _ < 2 ^ pos + b % 2 ^ (e - pos) * 2 ^ pos := by omega
        _ = 2 ^ pos * (b % 2 ^ (e - pos) + 1) := by rw [Nat.mul_succ, Nat.mul_comm, Nat.add_comm]
        _ ≤ _ := Nat.mul_le_mul_left _ h2
    rw [Nat.add_comm, Nat.mul_comm (a / 2 ^ e), Nat.testBit_two_pow_mul_add _ h3]
    by_cases h4 : n < e
    · rw [if_pos h4, Nat.add_comm, Nat.mul_comm (b % _), Nat.testBit_two_pow_mul_add _ h1]
      by_cases h5 : n < pos
      · rw [if_pos h5, if_neg (by omega), Nat.testBit_mod_two_pow]; simp [h5]
      · rw [if_neg h5, if_pos (by omega), Nat.testBit_mod_two_pow]
        have : n - pos < e - pos := by omega
        simp [this]
    · rw [if_neg h4, if_neg (by omega), Nat.testBit_div_two_pow, show n - e + e = n by omega]

theorem brev_bit (w a n : Nat) (hn : n < w) : (bitReverse w a).testBit n = a.testBit (w - 1 - n) := by
  rw [bitReverse, ofElems_bit, List.getElem?_map, List.getElem?_range hn]
  simp only [Option.map_some, Option.getD_some, Nat.mod_mod]
  rw [Nat.testBit_eq_decide_div_mod_eq]

theorem fits_bit {w v n : Nat} (hv : v < 2 ^ w) : (BitVec.ofNat w v).getLsbD n = v.testBit n := by
  rw [bit_ofNat]
  by_cases hn : n < w
  · simp [hn]
  · rw [Nat.testBit_lt_two_pow (Nat.lt_of_lt_of_le hv (Nat.pow_le_pow_right (by decide) (by omega)))]; simp

theorem bit_of_ofBV {w v n : Nat} (hn : n < w) : (BitVec.ofNat w v).getLsbD n = v.testBit n := by
  rw [bit_ofNat]; simp [hn]

theorem xor_fold (a : Nat) (b : Nat) : ∀ (js : List Nat) (p n : Nat),
    (js.foldl (fun p i => if b / 2 ^ i % 2 = 1 then Nat.xor p (a * 2 ^ i) else p) p).testBit n =
      (p.testBit n != (js.countP (fun j => decide (j ≤ n) && a.testBit (n - j) && b.testBit j) % 2 == 1))
  | [], p, n => by simp
  | j :: js, p, n => by
      have hb : (b / 2 ^ j % 2 = 1) ↔ b.testBit j = true := by rw [Nat.testBit_eq_decide_div_mod_eq]; simp
      rw [List.foldl_cons, xor_fold a b js, List.countP_cons]
      have hx : ∀ p q : Nat, Nat.xor p q = p ^^^ q := fun _ _ => rfl
      by_cases h : b.testBit j = true
      · rw [if_pos (hb.mpr h), hx, Nat.testBit_xor, Nat.testBit_mul_two_pow]
        simp only [h, Bool.and_true]
        generalize js.countP _ = q
        have := Nat.mod_two_eq_zero_or_one q
        by_cases h1 : j ≤ n
        · cases ha : a.testBit (n - j) <;> cases p.testBit n <;> rcases this with h2 | h2 <;> simp [h1, ha, h2, Nat.add_mod]
        · cases p.testBit n <;> rcases this with h2 | h2 <;> simp [h1, h2]
      · rw [if_neg (fun e => h (hb.mp e))]
        simp [h]

end

end Sys2Proof.Machine
end

