-- ==== Sys2Proof/Laws/Touch.lean ====
section
/-! SUPPORT. What an access does to the caches: it changes nothing else (R65 to R73, R89). -/

namespace Sys2Proof.Machine

set_option Elab.async false

theorem length_leBytes : ∀ n v : Nat, (leBytes n v).length = n
  | 0, _ => rfl
  | n + 1, v => congrArg Nat.succ (length_leBytes n (v / 256))

/-! A state with the caches of another. -/

theorem State.caching_self (s : State) : s.caching s = s := rfl
@[simp] theorem State.caching_caching (s c d : State) : (s.caching c).caching d = s.caching d := rfl
@[simp] theorem State.caching_mem (s c : State) : (s.caching c).mem = s.mem := rfl
@[simp] theorem State.caching_pot (s c : State) : (s.caching c).pot = s.pot := rfl
@[simp] theorem State.caching_encls (s c : State) : (s.caching c).encls = s.encls := rfl
@[simp] theorem State.caching_teams (s c : State) : (s.caching c).teams = s.teams := rfl
@[simp] theorem State.caching_groups (s c : State) : (s.caching c).groups = s.groups := rfl
@[simp] theorem State.caching_harts (s c : State) : (s.caching c).harts = s.harts := rfl
@[simp] theorem State.caching_readPieces (s c : State) (ps : List (Nat × Nat × Nat)) : (s.caching c).readPieces ps = s.readPieces ps := rfl

/-- The second state is the first but for its caches. -/
def State.OnlyCaches (s t : State) : Prop := ∃ c : State, t = s.caching c

theorem State.OnlyCaches.refl (s : State) : s.OnlyCaches s := ⟨s, rfl⟩

theorem State.OnlyCaches.trans {s t u : State} (h : s.OnlyCaches t) (k : t.OnlyCaches u) : s.OnlyCaches u := by
  obtain ⟨c, rfl⟩ := h; obtain ⟨d, rfl⟩ := k; exact ⟨d, rfl⟩

theorem State.OnlyCaches.mk (s : State) (a : List L2Line) (b : List CoreLine) (h : List (Nat × Sealed)) (m : List (Nat × PathMon)) :
    s.OnlyCaches { s with l2 := a, coreLines := b, hbm := h, pathMons := m } :=
  ⟨{ s with l2 := a, coreLines := b, hbm := h, pathMons := m }, rfl⟩

theorem State.OnlyCaches.foldl {α : Type} {f : State → α → State} (h : ∀ (s : State) (a : α), s.OnlyCaches (f s a)) :
    ∀ (l : List α) (s : State), s.OnlyCaches (l.foldl f s)
  | [], s => .refl s
  | a :: l, s => (h s a).trans (State.OnlyCaches.foldl h l (f s a))

/-! What the operations on a line do. -/

theorem State.readHbm_only (s : State) (line : Nat) : s.OnlyCaches (s.readHbm line) := .mk s s.l2 s.coreLines s.hbm _
theorem State.readArray_only (s : State) (part : Nat) (c : Bool) : s.OnlyCaches (s.readArray part c) := .mk s s.l2 s.coreLines s.hbm _

theorem State.keepOld_only (s : State) (line : Nat) : s.OnlyCaches (s.keepOld line) := by
  unfold State.keepOld
  split
  · exact .refl s
  · split
    · exact .refl s
    · exact .mk s s.l2 s.coreLines _ s.pathMons

theorem State.share_only (s : State) (line : Nat) : s.OnlyCaches (s.share line) := by
  unfold State.share
  split
  · exact .mk s _ _ _ s.pathMons
  · exact .refl s

theorem State.claim_only (s : State) (line : Nat) (a : L2Line → Bool) (b : CoreLine → Bool) : s.OnlyCaches (s.claim line a b) :=
  .mk s _ _ s.hbm s.pathMons

theorem State.obtain_only (s : State) (line : Nat) (w whole : Bool) : s.OnlyCaches (s.obtain line w whole) := by
  unfold State.obtain
  dsimp only
  refine .trans (t := if (w && whole) || s.cached line then s else s.readHbm line) ?_ ?_
  · split
    · exact .refl s
    · exact s.readHbm_only line
  · generalize (if (w && whole) || s.cached line then s else s.readHbm line) = u
    split
    · exact u.claim_only line _ _
    · exact u.share_only line

theorem State.fillWay_only (s : State) (new : L2Line) (old : Option L2Line) : s.OnlyCaches (s.fillWay new old) := by
  unfold State.fillWay
  dsimp only
  refine .trans (t := if new.dirty then s.keepOld new.line else s) ?_ ?_
  · split
    · exact s.keepOld_only _
    · exact .refl s
  · generalize (if new.dirty then s.keepOld new.line else s) = u
    cases old with
    | none => exact .mk u _ u.coreLines u.hbm u.pathMons
    | some v => exact .mk u _ u.coreLines _ u.pathMons

theorem State.l2Touch_only (s : State) (part d line world cls : Nat) (hint : BitVec 2) (w whole : Bool) :
    s.OnlyCaches (s.l2Touch part d line world cls hint w whole) := by
  unfold State.l2Touch
  dsimp only
  split
  · next l _ =>
      refine (s.readArray_only part (l.err == 1)).trans ?_
      generalize s.readArray part (l.err == 1) = u
      refine .trans (t := if w then (u.claim line (fun (l : L2Line) => l.die == d && l.line == line && l.world == world && l.err != 2) fun _ => false).keepOld line else u) ?_ ?_
      · split
        · exact (u.claim_only line _ _).trans (State.keepOld_only _ _)
        · exact .refl u
      · exact .mk _ _ _ _ _
  · refine (State.OnlyCaches.mk s (s.l2.filter fun l => !(l.die == d && l.line == line)) s.coreLines s.hbm s.pathMons).trans ?_
    generalize ({ s with l2 := s.l2.filter fun l => !(l.die == d && l.line == line) } : State) = u
    refine (u.obtain_only line w whole).trans ?_
    generalize u.obtain line w whole = v
    split
    · exact v.fillWay_only _ _
    · split
      · split
        · exact .mk v v.l2 v.coreLines _ v.pathMons
        · exact .refl v
      · exact v.fillWay_only _ _

/-- Touching an access's lines in an L2 changes the caches alone. -/
theorem State.touch_only (s : State) (part d pa n world cls : Nat) (hint : BitVec 2) (w : Bool) : s.OnlyCaches (s.touch part d pa n world cls hint w) :=
  .foldl (fun s _ => s.l2Touch_only ..) _ s

/-- So does touching the lines of every piece. -/
theorem Exe.touchAll_only (x : Exe) (hint : BitVec 2) (w : Bool) (s : State) (ps : List (Nat × Nat × Nat)) : s.OnlyCaches (x.touchAll hint w s ps) :=
  .foldl (fun s _ => s.touch_only ..) ps s

theorem State.coreTouch_only (s : State) (h line : Nat) (w whole : Bool) : s.OnlyCaches (s.coreTouch h line w whole) := by
  unfold State.coreTouch
  dsimp only
  split
  · split
    · exact ((s.claim_only line _ _).trans (State.keepOld_only _ _)).trans (.mk _ _ _ _ _)
    · exact .refl s
  · refine (s.obtain_only line w whole).trans ?_
    generalize s.obtain line w whole = u
    refine .trans (t := if w then u.keepOld line else u) ?_ (.mk _ _ _ _ _)
    split
    · exact u.keepOld_only line
    · exact .refl u

/-- Touching the lines of a general core's access changes the caches alone. -/
theorem State.coreTouches_only (s : State) (h : Nat) (w : Bool) (ps : List (Nat × Nat × Nat)) : s.OnlyCaches (s.coreTouches h w ps) :=
  .foldl (fun s _ => .foldl (fun s _ => s.coreTouch_only ..) _ s) ps s

/-- Bytes are written past whatever the caches hold. -/
theorem State.writePieces_caching : ∀ (ps : List (Nat × Nat × Nat)) (s c : State) (bs : List Byte),
    (s.caching c).writePieces ps bs = (s.writePieces ps bs).caching c
  | [], _, _, _ => rfl
  | p :: ps, s, c, bs => by
      show ((s.store p.1 (bs.take p.2.2)).caching c).writePieces ps _ = _
      rw [State.writePieces_caching ps]; rfl

end Sys2Proof.Machine
end

