-- ==== Sys2Proof/Laws/Accesses.lean ====
section
/-! SUPPORT. Memory accesses of lanes (R326 to R336): what one access does, and what all of them do in some order. -/

namespace Sys2Proof.Machine

set_option Elab.async false

section
set_option linter.all false

theorem insertBy_perm (key : Nat → Nat) (v : Nat) : ∀ ls : List Nat, (insertBy key v ls).Perm (v :: ls)
  | [] => .refl _
  | w :: ws => by
      unfold insertBy
      split
      · exact .refl _
      · exact ((insertBy_perm key v ws).cons w).trans (.swap v w ws)

theorem anyOrder_perm (s : State) (ls : List Nat) : (s.anyOrder ls).Perm ls := by
  have gen : ∀ (key : Nat → Nat) (ls acc : List Nat), (ls.foldl (fun acc v => insertBy key v acc) acc).Perm (ls ++ acc) := by
    intro key ls
    induction ls with
    | nil => intro acc; exact .refl _
    | cons v ls ih =>
        intro acc
        rw [List.foldl_cons]
        refine (ih _).trans ?_
        refine ((insertBy_perm key v acc).append_left ls).trans ?_
        exact List.perm_middle
  unfold State.anyOrder
  split
  · exact .refl _
  · exact .refl _
  · exact (gen (fun k => Config.freeNat (.choice k) s.free) _ []).trans (by rw [List.append_nil])

theorem find?_mset {α : Type} {p : Nat × α → Bool} {m : List (Nat × α)} {k : Nat} {v : α}
    (hp : ∀ w, mget m k = some w → p (k, v) = p (k, w)) {q : Nat} (h : (m.find? p).map Prod.fst = some q) :
    ((mset m k v).find? p).map Prod.fst = some q := by
  induction m with
  | nil => cases h
  | cons a m ih =>
      obtain ⟨k', w⟩ := a
      unfold mset
      by_cases hk : k' = k
      · subst hk
        rw [if_pos rfl]
        have := hp w (by simp [mget])
        rw [List.find?_cons] at h ⊢
        rw [this]
        split <;> simp_all
      · rw [if_neg hk]
        rw [List.find?_cons] at h ⊢
        split
        · next h1 => rw [h1] at h; exact h
        · next h1 => rw [h1] at h; exact ih (fun w' hw => hp w' (by simp [mget, hk, hw])) h

theorem team_spadWrite (s : State) (u o n : Nat) (bs : List Byte) :
    (s.spadWrite u o bs).team n = if n = u then { s.team u with spad := writeBytes (s.team u).spad o bs } else s.team n := by
  simp only [State.spadWrite, State.setTeam, State.team, mget_mset]
  split <;> rfl

theorem spadAt_spadWrite {s : State} {t a n : Nat} {r : Nat × Nat} (u o : Nat) (bs : List Byte) (h : s.spadAt t a n = some r) :
    (s.spadWrite u o bs).spadAt t a n = some r := by
  have hl : ∀ m, ((s.spadWrite u o bs).team m).launch = (s.team m).launch ∧ ((s.spadWrite u o bs).team m).index = (s.team m).index := by
    intro m
    rw [team_spadWrite]; split
    · next e => subst e; exact ⟨rfl, rfl⟩
    · exact ⟨rfl, rfl⟩
  have hm : ∀ g q, s.memberOf t g = some q → (s.spadWrite u o bs).memberOf t g = some q := by
    intro g q hq
    unfold State.memberOf at hq ⊢
    simp only [(hl t).1, (hl t).2]
    refine find?_mset ?_ hq
    intro w hw
    have : s.team u = w := by unfold State.team; rw [hw]; rfl
    simp only [this]
  unfold State.spadAt at h ⊢
  rw [(hl t).1]
  show (if a + n ≤ (s.launch (s.team t).launch).spadBytes then _ else _) = _
  simp only at h ⊢
  split
  · next h1 => rw [if_pos h1] at h; exact h
  · next h1 =>
      rw [if_neg h1] at h
      split
      · next h2 => rw [if_pos h2] at h; exact h
      · next h2 =>
          rw [if_neg h2] at h
          have : ((s.spadWrite u o bs).launch (s.team t).launch) = s.launch (s.team t).launch := rfl
          rw [this]
          split
          · next h3 =>
              rw [if_pos h3] at h
              cases hq : s.memberOf t ((a - 16777216) / 1048576) with
              | none => rw [hq] at h; cases h
              | some q => rw [hq] at h; rw [hm _ _ hq]; exact h
          · next h3 => rw [if_neg h3] at h; cases h

theorem performed_snoc (x : Exe) (rd : State → Nat → List Byte) (wr : State → Nat → List Byte → State)
    (new : Option (Nat → List Byte → List Byte)) (ls : List (Nat × Bool)) (q : Nat × Bool) :
    x.performed rd wr new (ls ++ [q]) = match new with
      | none => x.s
      | some f => wr (x.performed rd wr new ls) q.1 (f q.1 (rd (if q.2 then x.s else x.performed rd wr new ls) q.1)) := by
  cases new with
  | none => rfl
  | some f => simp [Exe.performed]

/-- The run after the lanes of a list, where every access is made. -/
theorem fold_accesses (x : Exe) (act : Run → Nat → Run) (rd : State → Nat → List Byte) (wr : State → Nat → List Byte → State)
    (new : Option (Nat → List Byte → List Byte)) (stale : Nat → Bool) (P : List Nat)
    (step : ∀ ls l v got, (ls.map Prod.fst).Nodup → (∀ q ∈ ls, q.1 ∈ P) → l ∈ P → l ∉ ls.map Prod.fst →
      ∃ v', act ⟨(x.performed rd wr new ls).caching v, got, false⟩ l =
        ⟨(x.performed rd wr new (ls ++ [(l, stale l)])).caching v',
          got ++ [(l, rawOf (rd (if stale l then x.s else x.performed rd wr new ls) l))], false⟩) :
    ∀ (rest pre : List Nat) (v : State) (got : List (Nat × List Val)), (pre ++ rest).Nodup → (∀ l ∈ pre ++ rest, l ∈ P) →
      ∃ v', rest.foldl act ⟨(x.performed rd wr new (pre.map fun l => (l, stale l))).caching v, got, false⟩ =
        ⟨(x.performed rd wr new ((pre ++ rest).map fun l => (l, stale l))).caching v',
          got ++ rest.map fun l => (l, rawOf (rd (if stale l then x.s
            else x.performed rd wr new (((pre ++ rest).map fun l => (l, stale l)).takeWhile fun q => q.1 != l)) l)), false⟩ := by
  intro rest
  induction rest with
  | nil => intro pre v got _ _; exact ⟨v, by simp⟩
  | cons l rest ih =>
      intro pre v got hn hP
      obtain ⟨hn1, hn2, hn3⟩ := List.nodup_append.mp hn
      have hl : l ∉ pre := fun h => hn3 l h l (List.mem_cons_self ..) rfl
      have hfst : (pre.map fun l => (l, stale l)).map Prod.fst = pre := by simp [Function.comp_def]
      obtain ⟨v1, h1⟩ := step (pre.map fun l => (l, stale l)) l v got (by rw [hfst]; exact hn1)
        (by intro q hq; obtain ⟨a, ha, rfl⟩ := List.mem_map.mp hq; exact hP a (List.mem_append.mpr (.inl ha)))
        (hP l (by simp)) (by rw [hfst]; exact hl)
      rw [List.foldl_cons, h1]
      have happ : pre ++ l :: rest = (pre ++ [l]) ++ rest := by simp
      have hmap : (pre.map fun l => (l, stale l)) ++ [(l, stale l)] = (pre ++ [l]).map fun l => (l, stale l) := by simp
      rw [hmap]
      obtain ⟨v2, h2⟩ := ih (pre ++ [l]) v1 (got ++ [(l, rawOf (rd (if stale l then x.s else x.performed rd wr new (pre.map fun l => (l, stale l))) l))])
        (by rw [← happ]; exact hn) (by rw [← happ]; exact hP)
      refine ⟨v2, ?_⟩
      rw [h2, happ]
      have htw : (((pre ++ [l]) ++ rest).map fun l => (l, stale l)).takeWhile (fun q => q.1 != l) = pre.map fun l => (l, stale l) := by
        rw [List.append_assoc, List.map_append, List.takeWhile_append_of_pos]
        · simp
        · intro q hq
          obtain ⟨a, ha, rfl⟩ := List.mem_map.mp hq
          simp only [bne_iff_ne]
          rintro rfl; exact hl ha
      simp only [List.map_cons]
      rw [htw, List.append_assoc got]
      rfl

theorem settleRun_all (x : Exe) (i : Instr) (lanes : List Nat) (finish : List Val → List Val) (flags : BitVec 6) (run : Run)
    (he : run.ended = false) (hg : ∀ l ∈ lanes, (mget run.got l).isSome = true) :
    x.settleRun i lanes finish flags run = (x.upon run.s).commit i (lanes.map fun l => (l, finish ((mget run.got l).getD []))) flags := by
  unfold Exe.settleRun
  rw [if_neg (by rw [he]; decide), if_pos (List.all_eq_true.mpr hg)]

/-- The accesses of every active lane, then completion. -/
theorem accesses_yield {s : State} {x : Exe} (i : Instr) (act : Run → Nat → Run) (rd : State → Nat → List Byte)
    (wr : State → Nat → List Byte → State) (new : Option (Nat → List Byte → List Byte)) (stale : Nat → Bool) (loose : Bool)
    (finish : List Val → List Val) (out : List Byte → List Val) (order : List Nat) (hperm : order.Perm (x.active i.ctl))
    (hst : ∀ l, stale l = true → loose = true) (hfin : ∀ bs, finish (rawOf bs) = out bs) (hloose : loose = true → ∀ bs bs', out bs = out bs')
    (hex : exec i s = .next (x.settleRun i (x.active i.ctl) finish (x.raised i fun _ => 0) (order.foldl act ⟨x.s, [], false⟩)))
    (step : ∀ ls l v got, (ls.map Prod.fst).Nodup → (∀ q ∈ ls, q.1 ∈ x.active i.ctl) → l ∈ x.active i.ctl → l ∉ ls.map Prod.fst →
      ∃ v', act ⟨(x.performed rd wr new ls).caching v, got, false⟩ l =
        ⟨(x.performed rd wr new (ls ++ [(l, stale l)])).caching v',
          got ++ [(l, rawOf (rd (if stale l then x.s else x.performed rd wr new ls) l))], false⟩) :
    x.YieldsAccesses s i rd wr new loose out := by
  have h0 : x.performed rd wr new [] = x.s := by cases new <;> rfl
  have hnod : order.Nodup := hperm.nodup_iff.mpr (nodup_lanesOf _)
  obtain ⟨v, hv⟩ := fold_accesses x act rd wr new stale (x.active i.ctl) step order [] x.s []
    hnod (fun l hl => hperm.mem_iff.mp hl)
  simp only [List.nil_append, List.map_nil, h0] at hv
  rw [State.caching_self] at hv
  have hget : ∀ l ∈ x.active i.ctl, mget (order.map fun l => (l, rawOf (rd (if stale l then x.s
      else x.performed rd wr new ((order.map fun l => (l, stale l)).takeWhile fun q => q.1 != l)) l))) l =
      some (rawOf (rd (if stale l then x.s
      else x.performed rd wr new ((order.map fun l => (l, stale l)).takeWhile fun q => q.1 != l)) l)) := by
    intro l hl
    have := mget_map_self (fun l => rawOf (rd (if stale l then x.s
      else x.performed rd wr new ((order.map fun l => (l, stale l)).takeWhile fun q => q.1 != l)) l)) order l
    rw [if_pos (hperm.mem_iff.mpr hl)] at this
    exact this
  refine ⟨order.map fun l => (l, stale l), v, _, ?_, ?_, hex, ?_⟩
  · rw [List.map_map]; simpa [Function.comp_def] using hperm
  · intro q hq h
    obtain ⟨l, -, rfl⟩ := List.mem_map.mp hq
    exact hst l h
  · dsimp only
    rw [hv]
    rw [settleRun_all _ _ _ _ _ _ rfl (fun l hl => by dsimp only; rw [hget l hl]; rfl)]
    dsimp only
    refine Exe.commit_completes ({ x with s := _ } : Exe) i _ _ _ ?_ (mget_active x i.ctl _)
    intro l hl
    have := mget_map_self (fun l => finish ((mget (order.map fun l => (l, rawOf (rd (if stale l then x.s
      else x.performed rd wr new ((order.map fun l => (l, stale l)).takeWhile fun q => q.1 != l)) l))) l).getD [])) (x.active i.ctl) l
    rw [this]
    unfold Exe.only
    split
    · next hl =>
        rw [hget l hl, Option.getD_some, hfin]
        cases hs : stale l with
        | false => simp
        | true => exact congrArg some (hloose (hst l hs) _ _)
    · rfl

theorem num_rawOf (bs : List Byte) : numOf (rawOf bs) 0 = leNat (bs.take 8) % 2 ^ 64 := rfl

theorem leNat_split : ∀ (n : Nat) (bs : List Byte), leNat bs = leNat (bs.take n) + 256 ^ (bs.take n).length * leNat (bs.drop n)
  | 0, bs => by simp [leNat]
  | n + 1, [] => by simp [leNat]
  | n + 1, b :: bs => by
      have := leNat_split n bs
      simp only [List.take_succ_cons, List.drop_succ_cons, List.length_cons, leNat]
      rw [this, Nat.pow_succ]
      generalize leNat (bs.take n) = A; generalize leNat (bs.drop n) = B; generalize 256 ^ (bs.take n).length = C
      rw [Nat.mul_add, Nat.add_assoc]; congr 2
      rw [Nat.mul_comm C 256, Nat.mul_assoc]

theorem leNat_take8 (bs : List Byte) : leNat (bs.take 8) % 2 ^ 64 = leNat bs % 2 ^ 64 := by
  rw [leNat_split 8 bs]
  by_cases h : 8 ≤ bs.length
  · rw [List.length_take, Nat.min_eq_left h, show (256 ^ 8 : Nat) = 2 ^ 64 by decide, Nat.add_mul_mod_self_left]
  · rw [List.drop_eq_nil_of_le (by omega)]; simp [leNat]

theorem ofTy_raw (t : Ty) (bs : List Byte) : ofTy t (numOf (rawOf bs) 0) = ofTy t (leNat bs) := by
  have hw : 2 ^ t.width ∣ 2 ^ 64 := Nat.pow_dvd_pow 2 (by cases t <;> decide)
  unfold ofTy
  rw [num_rawOf, leNat_take8, Nat.mod_mod_of_dvd _ hw]

theorem memLoaded_raw (f : MemForm) (bs : List Byte) : memLoaded f (rawOf bs) = loadedFrom f bs := by
  cases f with
  | v2 =>
      have h : ∀ n, Val.ofBV (BitVec.ofNat 64 n) = .bits (BitVec.ofNat 64 n) := fun n => by simp [Val.ofBV]
      simp [memLoaded, loadedFrom, rawOf, h]
  | plain t | rlx t _ | sync t _ => exact congrArg (fun v => [v]) (ofTy_raw t bs)
  | n4 | n2 => exact congrArg (fun v => [v]) (ofTy_raw .i8 bs)

theorem memory_judge {x : Exe} (i : Instr) (o : MemOp) (hc : x.calm) (hchk : ∀ l ∈ x.active i.ctl, x.memCheck o (x.args i l) = .done [] 0) :
    x.judge i (fun _ _ vs => x.memCheck o vs) = .done ((x.active i.ctl).map fun l => (l, [])) (x.raised i fun _ => 0) :=
  x.judge_calm i _ hc (fun _ => []) (fun _ => 0) hchk

theorem memory_eq {x : Exe} (i : Instr) (o : MemOp) (hc : x.calm) (hg : x.p.got = [])
    (hchk : ∀ l ∈ x.active i.ctl, x.memCheck o (x.args i l) = .done [] 0) :
    x.memory i o = x.settleRun i (x.active i.ctl) o.finish (x.raised i fun _ => 0)
      ((if o.change.isSome then x.s.anyOrder (x.active i.ctl) else x.active i.ctl).foldl (fun run l =>
          if o.spad then x.accessSpad run (x.request o l (x.args i l))
          else x.access i.ctl.hint (o.far (x.args i l)).1 (o.far (x.args i l)).2 run (x.request o l (x.args i l))) ⟨x.s, [], false⟩) := by
  unfold Exe.memory
  rw [memory_judge i o hc hchk]
  have ht : ((x.active i.ctl).filter fun l => (mget ([] : List (Nat × List Val)) l).isNone) = x.active i.ctl :=
    List.filter_eq_self.mpr fun _ _ => rfl
  rw [hg]
  dsimp only
  rw [ht]
  rfl

theorem order_perm (x : Exe) (b : Bool) (ls : List Nat) : (if b then x.s.anyOrder ls else ls).Perm ls := by
  split
  · exact anyOrder_perm _ _
  · exact .refl _

def staleOf (x : Exe) (o : MemOp) (l : Nat) : Bool := o.loose && (Config.freeBits (.choice (64 + l)) x.s.free).getLsbD 0

theorem memory_yields {s : State} {x : Exe} (i : Instr) (o : MemOp) (rd : State → Nat → List Byte) (wr : State → Nat → List Byte → State)
    (out : List Byte → List Val) (hc : x.calm) (hg : x.p.got = []) (hex : exec i s = .next (x.memory i o))
    (hchk : ∀ l ∈ x.active i.ctl, x.memCheck o (x.args i l) = .done [] 0)
    (hfin : ∀ bs, o.finish (rawOf bs) = out bs) (hloose : o.loose = true → ∀ bs bs', out bs = out bs')
    (step : ∀ ls l v got, (ls.map Prod.fst).Nodup → (∀ q ∈ ls, q.1 ∈ x.active i.ctl) → l ∈ x.active i.ctl → l ∉ ls.map Prod.fst →
      ∃ v', (if o.spad then x.accessSpad ⟨(x.performed rd wr (o.change.map fun f l => f (x.args i l)) ls).caching v, got, false⟩ (x.request o l (x.args i l))
          else x.access i.ctl.hint (o.far (x.args i l)).1 (o.far (x.args i l)).2 ⟨(x.performed rd wr (o.change.map fun f l => f (x.args i l)) ls).caching v, got, false⟩ (x.request o l (x.args i l))) =
        ⟨(x.performed rd wr (o.change.map fun f l => f (x.args i l)) (ls ++ [(l, staleOf x o l)])).caching v',
          got ++ [(l, rawOf (rd (if staleOf x o l then x.s else x.performed rd wr (o.change.map fun f l => f (x.args i l)) ls) l))], false⟩) :
    x.YieldsAccesses s i rd wr (o.change.map fun f l => f (x.args i l)) o.loose out := by
  refine accesses_yield i _ rd wr _ (staleOf x o) o.loose o.finish out _ (order_perm x o.change.isSome _) ?_ hfin hloose
    (hex.trans (congrArg _ (memory_eq i o hc hg hchk))) step
  intro l h
  simp only [staleOf, Bool.and_eq_true] at h
  exact h.1

theorem accessSpad_eq (x : Exe) (B : State) (v : State) (got : List (Nat × List Val)) (r : Req) (t o : Nat)
    (h : B.spadAt x.g.team r.va.toNat r.n = some (t, o)) :
    x.accessSpad ⟨B.caching v, got, false⟩ r =
      ⟨State.caching (match r.change with
          | none => B
          | some f => B.spadWrite t o (f ((if r.stale then x.s else B).spadRead t o r.n))) v,
        got ++ [(r.lane, rawOf ((if r.stale then x.s else B).spadRead t o r.n))], false⟩ := by
  unfold Exe.accessSpad
  rw [show (B.caching v).spadAt x.g.team r.va.toNat r.n = some (t, o) from h]
  obtain ⟨lane, va, n, kind, change, stale⟩ := r
  cases change <;> cases stale <;> rfl

theorem spad_kept {x : Exe} (spot : Nat → Nat × Nat) (n a m t : Nat) (r : Nat × Nat) (h : x.s.spadAt t a m = some r)
    (new : Option (Nat → List Byte → List Byte)) (ls : List (Nat × Bool)) :
    (x.performed (fun u l => u.spadRead (spot l).1 (spot l).2 n) (fun u l bs => u.spadWrite (spot l).1 (spot l).2 bs) new ls).spadAt t a m = some r := by
  cases new with
  | none => exact h
  | some f =>
      unfold Exe.performed
      dsimp only
      have gen : ∀ (ls : List (Nat × Bool)) (u : State), u.spadAt t a m = some r →
          (ls.foldl (fun t q => t.spadWrite (spot q.1).1 (spot q.1).2 (f q.1 ((if q.2 then x.s else t).spadRead (spot q.1).1 (spot q.1).2 n))) u).spadAt t a m = some r := by
        intro ls
        induction ls with
        | nil => intro u h; exact h
        | cons q ls ih => intro u h; exact ih _ (spadAt_spadWrite _ _ _ h)
      exact gen ls _ h

theorem spad_step {x : Exe} (i : Instr) (o : MemOp) (spot : Nat → Nat × Nat) (hsp : o.spad = true) (new : Option (Nat → List Byte → List Byte))
    (hnew : new = o.change.map fun f l => f (x.args i l))
    (hs : ∀ l ∈ x.active i.ctl, x.s.spadAt x.g.team (argOf (x.args i l) o.at_).toBits.toNat o.n = some (spot l))
    (rd : State → Nat → List Byte) (hrd : rd = fun u l => u.spadRead (spot l).1 (spot l).2 o.n)
    (wr : State → Nat → List Byte → State) (hwr : wr = fun u l bs => u.spadWrite (spot l).1 (spot l).2 bs) :
    ∀ ls l v got, (ls.map Prod.fst).Nodup → (∀ q ∈ ls, q.1 ∈ x.active i.ctl) → l ∈ x.active i.ctl → l ∉ ls.map Prod.fst →
      ∃ v', (if o.spad then x.accessSpad ⟨(x.performed rd wr new ls).caching v, got, false⟩ (x.request o l (x.args i l))
          else x.access i.ctl.hint (o.far (x.args i l)).1 (o.far (x.args i l)).2 ⟨(x.performed rd wr new ls).caching v, got, false⟩ (x.request o l (x.args i l))) =
        ⟨(x.performed rd wr new (ls ++ [(l, staleOf x o l)])).caching v',
          got ++ [(l, rawOf (rd (if staleOf x o l then x.s else x.performed rd wr new ls) l))], false⟩ := by
  intro ls l v got _ _ hl _
  have hk : (x.performed rd wr new ls).spadAt x.g.team (x.request o l (x.args i l)).va.toNat (x.request o l (x.args i l)).n = some (spot l) := by
    rw [hrd, hwr]; exact spad_kept spot _ _ _ _ _ (hs l hl) new ls
  refine ⟨v, ?_⟩
  rw [if_pos hsp, accessSpad_eq x _ v got _ _ _ hk, performed_snoc]
  have h1 : (x.request o l (x.args i l)).change = o.change.map fun f => f (x.args i l) := rfl
  have h2 : (x.request o l (x.args i l)).stale = staleOf x o l := rfl
  have h3 : (x.request o l (x.args i l)).lane = l := rfl
  have h4 : (x.request o l (x.args i l)).n = o.n := rfl
  rw [h1, h2, h3, h4]
  cases hch : o.change with
  | none =>
      rw [hch] at hnew
      subst hnew
      rw [hrd]
      rfl
  | some f =>
      rw [hch] at hnew
      subst hnew
      rw [hrd, hwr]
      rfl

theorem failed_trap (r k : Nat) : (LaneOut.trap r k).failed = some (r, k) := rfl

theorem memory_raises {s : State} {x : Exe} (i : Instr) (o : MemOp) (hex : exec i s = .next (x.memory i o)) (hc : x.calm)
    (bad : Nat → Bool) (rank code : Nat) (hb : ∀ l ∈ x.active i.ctl, bad l = true → x.memCheck o (x.args i l) = .trap rank code)
    (hn : ∀ l ∈ x.active i.ctl, bad l = false → (∃ r k, x.memCheck o (x.args i l) = .trap r k ∧ rank < r) ∨ x.memCheck o (x.args i l) = .done [] 0)
    (hne : (x.active i.ctl).filter bad ≠ []) :
    exec i s = .next (x.s.raiseTrap x.gid x.pid x.p
        { code := code, lanes := maskOf ((x.active i.ctl).filter bad), flags := 0, opnds := x.lanes.map fun l => (l, x.shownOps i l) }) := by
  rw [hex]
  unfold Exe.memory Exe.judge Exe.judgeWith
  have h0 : (!((x.active i.ctl).filter (x.readsPoison (x.plan i))).isEmpty && (modeEn x.p.mode &&& flagPO) != 0) = false := by
    rw [show modeEn x.p.mode = 0 from hc]; simp
  simp only [h0, Bool.false_eq_true, ↓reduceIte, List.map_map]
  have : verdictOf x.p.mode (List.map ((fun lv => (lv.1, (x.memCheck o lv.2).withPO (x.readsPoison (x.plan i) lv.1))) ∘ fun l => (l, x.vals (x.plan i) l)) (x.active i.ctl)) = .trap code ((x.active i.ctl).filter bad) 0 := by
    refine verdict_fails x.p.mode (x.active i.ctl) (fun l => (x.memCheck o (x.args i l)).withPO (x.readsPoison (x.plan i) l)) bad rank code ?_ ?_ hne
    · intro l hl h; rw [hb l hl h]; rfl
    · intro l hl h
      rcases hn l hl h with ⟨r, k, h1, h2⟩ | h1
      · exact .inl ⟨r, k, by rw [h1]; rfl, h2⟩
      · exact .inr (by rw [h1]; rfl)
  rw [this]
  rfl

theorem spad_access {s : State} {x : Exe} (hc : x.calm) (hg : x.p.got = []) (i : Instr) (o : MemOp)
    (hex : exec i s = .next (x.memory i o)) (hsp : o.spad = true) :
    let addr := fun l => numOf (x.args i l) o.at_
    let bad := (x.active i.ctl).filter fun l => (x.s.spadAt x.g.team (addr l) o.n).isNone
    let odd := (x.active i.ctl).filter fun l => o.aligned && addr l % o.n != 0
    let raises := fun (code : Nat) (lanes : List Nat) => exec i s = .next (x.s.raiseTrap x.gid x.pid x.p
      { code := code, lanes := maskOf lanes, flags := 0, opnds := x.lanes.map fun l => (l, x.shownOps i l) })
    (bad ≠ [] → raises 9 bad) ∧
    (bad = [] → odd ≠ [] → raises 0x0B odd) ∧
    (bad = [] → odd = [] → ∀ spot : Nat → Nat × Nat, (∀ l ∈ x.active i.ctl, x.s.spadAt x.g.team (addr l) o.n = some (spot l)) →
      ∀ out : List Byte → List Val, (∀ bs, o.finish (rawOf bs) = out bs) → (o.loose = true → ∀ bs bs', out bs = out bs') →
      x.YieldsAccesses s i (fun (u : State) l => u.spadRead (spot l).1 (spot l).2 o.n) (fun (u : State) l bs => u.spadWrite (spot l).1 (spot l).2 bs)
        (o.change.map fun f l => f (x.args i l)) o.loose out) := by
  intro addr bad odd raises
  have hchk : ∀ l, x.memCheck o (x.args i l) = if (x.s.spadAt x.g.team (addr l) o.n).isNone then .trap 0 9
      else if o.aligned && addr l % o.n != 0 then .trap 1 0x0B else .done [] 0 := by
    intro l
    unfold Exe.memCheck
    simp only [hsp, Bool.true_and]
    rfl
  refine ⟨?_, ?_, ?_⟩
  · intro h
    refine memory_raises i o hex hc (fun l => (x.s.spadAt x.g.team (addr l) o.n).isNone) 0 9 ?_ ?_ h
    · intro l _ hl; rw [hchk l, if_pos hl]
    · intro l _ hl
      rw [hchk l, if_neg (by rw [hl]; decide)]
      split
      · exact .inl ⟨1, 0x0B, rfl, by decide⟩
      · exact .inr rfl
  · intro h0 h
    have h0' : ∀ l ∈ x.active i.ctl, (x.s.spadAt x.g.team (addr l) o.n).isNone = false := by
      intro l hl
      have := List.filter_eq_nil_iff.mp h0 l hl
      exact (Bool.not_eq_true _).mp this
    refine memory_raises i o hex hc (fun l => o.aligned && addr l % o.n != 0) 1 0x0B ?_ ?_ h
    · intro l hl h1; rw [hchk l, if_neg (by rw [h0' l hl]; decide), if_pos h1]
    · intro l hl h1; right; rw [hchk l, if_neg (by rw [h0' l hl]; decide), if_neg (by rw [h1]; decide)]
  · intro h0 h1 spot hs out hfin hloose
    have h0' : ∀ l ∈ x.active i.ctl, (x.s.spadAt x.g.team (addr l) o.n).isNone = false := by
      intro l hl
      have := List.filter_eq_nil_iff.mp h0 l hl
      exact (Bool.not_eq_true _).mp this
    have h1' : ∀ l ∈ x.active i.ctl, (o.aligned && addr l % o.n != 0) = false := by
      intro l hl
      have := List.filter_eq_nil_iff.mp h1 l hl
      exact (Bool.not_eq_true _).mp this
    refine memory_yields i o _ _ out hc hg hex ?_ hfin hloose ?_
    · intro l hl
      rw [hchk l, if_neg (by rw [h0' l hl]; decide), if_neg (by rw [h1' l hl]; decide)]
    · exact spad_step i o spot hsp _ rfl hs _ rfl _ rfl

theorem onPath_memory {s : State} {x : Exe} (hx : s.exe? = some x) (k : Exe → State) : onPath s k = .next (k x) := onPath_next hx k

theorem access_eq (x : Exe) (hint : BitVec 2) (far : List Byte) (atomic : Option AtomAsk) (B v : State) (got : List (Nat × List Val)) (r : Req)
    (p : List (Found × Nat)) (ps : List (Nat × Nat × Nat)) (h : x.s.locate (some x.unit) x.eid r.va r.kind r.n = .ok p) (hp : localPieces p = some ps) :
    ∃ v', x.access hint far atomic ⟨B.caching v, got, false⟩ r =
      ⟨State.caching (match r.change with
          | none => B
          | some f => B.writePieces ps (f ((if r.stale then x.s else B).readPieces ps))) v',
        got ++ [(r.lane, rawOf ((if r.stale then x.s else B).readPieces ps))], false⟩ := by
  unfold Exe.access
  rw [if_neg (fun h => by cases h), h]
  dsimp only
  rw [hp]
  dsimp only
  obtain ⟨lane, va, n, kind, change, stale⟩ := r
  have hr : (if stale then x.s else B.caching v).readPieces ps = (if stale then x.s else B).readPieces ps := by cases stale <;> rfl
  dsimp only
  rw [hr]
  obtain ⟨v', hv'⟩ := x.touchAll_only hint change.isSome (B.caching v) ps
  refine ⟨v', ?_⟩
  rw [hv', State.caching_caching]
  cases change with
  | none => rfl
  | some f => dsimp only; rw [State.writePieces_caching]

theorem glob_step {x : Exe} (i : Instr) (o : MemOp) (ps : Nat → List (Nat × Nat × Nat)) (hsp : o.spad = false) (new : Option (Nat → List Byte → List Byte))
    (hnew : new = o.change.map fun f l => f (x.args i l))
    (hs : x.Located i o.kind o.n (fun l => (argOf (x.args i l) o.at_).toBits) ps)
    (rd : State → Nat → List Byte) (hrd : rd = fun u l => u.readPieces (ps l))
    (wr : State → Nat → List Byte → State) (hwr : wr = fun u l bs => u.writePieces (ps l) bs) :
    ∀ ls l v got, (ls.map Prod.fst).Nodup → (∀ q ∈ ls, q.1 ∈ x.active i.ctl) → l ∈ x.active i.ctl → l ∉ ls.map Prod.fst →
      ∃ v', (if o.spad then x.accessSpad ⟨(x.performed rd wr new ls).caching v, got, false⟩ (x.request o l (x.args i l))
          else x.access i.ctl.hint (o.far (x.args i l)).1 (o.far (x.args i l)).2 ⟨(x.performed rd wr new ls).caching v, got, false⟩ (x.request o l (x.args i l))) =
        ⟨(x.performed rd wr new (ls ++ [(l, staleOf x o l)])).caching v',
          got ++ [(l, rawOf (rd (if staleOf x o l then x.s else x.performed rd wr new ls) l))], false⟩ := by
  intro ls l v got hn hmem hl _
  obtain ⟨p, hp, hlp⟩ := hs l hl
  have h1 : (x.request o l (x.args i l)).change = o.change.map fun f => f (x.args i l) := rfl
  have h2 : (x.request o l (x.args i l)).stale = staleOf x o l := rfl
  have h3 : (x.request o l (x.args i l)).lane = l := rfl
  rw [if_neg (by rw [hsp]; decide)]
  obtain ⟨v', hv'⟩ := access_eq x i.ctl.hint (o.far (x.args i l)).1 (o.far (x.args i l)).2 (x.performed rd wr new ls) v got (x.request o l (x.args i l)) p (ps l)
    hp hlp
  refine ⟨v', ?_⟩
  rw [hv', performed_snoc, h1, h2, h3]
  cases hch : o.change with
  | none =>
      rw [hch] at hnew
      subst hnew
      rw [hrd]
      rfl
  | some f =>
      rw [hch] at hnew
      subst hnew
      rw [hrd, hwr]
      rfl

theorem memory_access {s : State} {x : Exe} (hc : x.calm) (hg : x.p.got = []) (i : Instr) (o : MemOp)
    (hex : exec i s = .next (x.memory i o)) (hsp : o.spad = false) :
    let addr := fun l => (argOf (x.args i l) o.at_).toBits
    let odd := (x.active i.ctl).filter fun l => (addr l).toNat % o.n != 0
    (o.aligned = true → odd ≠ [] → exec i s = .next (x.s.raiseTrap x.gid x.pid x.p
      { code := 0x0B, lanes := maskOf odd, flags := 0, opnds := x.lanes.map fun l => (l, x.shownOps i l) })) ∧
    ((o.aligned = true → odd = []) → ∀ (ps : Nat → List (Nat × Nat × Nat)) (new : Option (Nat → List Byte → List Byte)),
      new = (o.change.map fun f l => f (x.args i l)) → x.Located i o.kind o.n addr ps →
      ∀ out : List Byte → List Val, (∀ bs, o.finish (rawOf bs) = out bs) → (o.loose = true → ∀ bs bs', out bs = out bs') →
      x.YieldsAccesses s i (fun (u : State) l => u.readPieces (ps l)) (fun (u : State) l bs => u.writePieces (ps l) bs) new o.loose out) := by
  intro addr odd
  have hchk : ∀ l, x.memCheck o (x.args i l) = if o.aligned && (addr l).toNat % o.n != 0 then .trap 1 0x0B else .done [] 0 := by
    intro l
    unfold Exe.memCheck
    rw [hsp]
    simp only [Bool.false_and]
    rfl
  refine ⟨?_, ?_⟩
  · intro ha h
    refine memory_raises i o hex hc (fun l => (addr l).toNat % o.n != 0) 1 0x0B ?_ ?_ h
    · intro l _ hl; rw [hchk l, if_pos (by rw [ha, Bool.true_and]; exact hl)]
    · intro l _ hl; rw [hchk l, if_neg (by rw [ha, Bool.true_and, hl]; decide)]; exact .inr rfl
  · intro ha ps new hnew hloc out hfin hloose
    subst hnew
    refine memory_yields i o _ _ out hc hg hex ?_ hfin hloose ?_
    · intro l hl
      rw [hchk l, if_neg]
      intro h
      rw [Bool.and_eq_true] at h
      have := List.filter_eq_nil_iff.mp (ha h.1) l hl
      exact this h.2
    · exact glob_step i o ps hsp _ rfl hloc _ rfl _ rfl

theorem readByte_writePieces (a : Nat) : ∀ (ps : List (Nat × Nat × Nat)) (s : State) (bs : List Byte), Memory.wf s.mem = true →
    (∀ p ∈ ps, ¬ (p.1 ≤ a ∧ a < p.1 + p.2.2)) → readByte (s.writePieces ps bs).mem a = readByte s.mem a ∧ Memory.wf (s.writePieces ps bs).mem = true
  | [], s, _, h, _ => ⟨rfl, h⟩
  | p :: ps, s, bs, h, hp => by
      obtain ⟨h1, h2⟩ := readByte_writePieces a ps (s.store p.1 (bs.take p.2.2)) (bs.drop p.2.2) (wf_writeBytes _ h _) fun q hq => hp q (List.mem_cons_of_mem _ hq)
      refine ⟨?_, h2⟩
      show readByte ((s.store p.1 (bs.take p.2.2)).writePieces ps (bs.drop p.2.2)).mem a = _
      rw [h1]
      show readByte (writeBytes s.mem p.1 (bs.take p.2.2)) a = _
      rw [readByte_writeBytes _ h]
      rw [if_neg]
      have := hp p (List.mem_cons_self ..)
      intro hh
      apply this
      have hlen : (bs.take p.2.2).length ≤ p.2.2 := by rw [List.length_take]; omega
      omega

theorem putElem_bit (w k v : Nat) (b : Byte) (h : (w = 4 ∧ k < 2) ∨ (w = 2 ∧ k < 4)) (j : Nat) (hj : j < 8) :
    (putElem w k v b).getLsbD j = if j / w = k then v.testBit (j % w) else b.getLsbD j := by
  have hm : ∀ i, (BitVec.ofNat 8 (2 ^ w - 1)).getLsbD i = (decide (i < 8) && decide (i < w)) := by
    intro i; rw [BitVec.getLsbD_ofNat, Nat.testBit_two_pow_sub_one]
  have hv : ∀ i, (BitVec.ofNat 8 (v % 2 ^ w)).getLsbD i = (decide (i < 8) && (decide (i < w) && v.testBit i)) := by
    intro i; rw [BitVec.getLsbD_ofNat, Nat.testBit_mod_two_pow]
  unfold putElem
  dsimp only
  rw [BitVec.getLsbD_or, BitVec.getLsbD_and, BitVec.getLsbD_not, BitVec.getLsbD_shiftLeft, BitVec.getLsbD_shiftLeft, hm, hv]
  have hw : 0 < w := by omega
  have hd : j / w = k ↔ w * k ≤ j ∧ j - w * k < w := by
    constructor
    · rintro rfl
      have := Nat.div_add_mod j w; have := Nat.mod_lt j hw
      constructor <;> omega
    · rintro ⟨h1, h2⟩
      rcases h with ⟨rfl, h⟩ | ⟨rfl, h⟩ <;> omega
  by_cases hk : j / w = k
  · have h1 := hd.mp hk
    rw [if_pos hk]
    have h2 : j % w = j - w * k := by
      have := Nat.div_add_mod j w; rw [hk] at this; omega
    have h3 : ¬ j < w * k := by omega
    have h4 : j - w * k < 8 := by omega
    simp [hj, h3, h1.2, h2, h4]
  · rw [if_neg hk]
    have h1 : ¬ (w * k ≤ j ∧ j - w * k < w) := fun h => hk (hd.mpr h)
    by_cases h2 : w * k ≤ j
    · have h3 : ¬ j - w * k < w := fun h => h1 ⟨h2, h⟩
      simp [hj, h3]
    · have h3 : j < w * k := by omega
      simp [hj, h3]

theorem atomFloat_el (t : AtomTy) (ty : Ty) (n : Nat) (hq : (t, ty, n) ∈ [(AtomTy.f32, Ty.f32, 1), (.f64, .f64, 1), (.bf16x2, .bf16, 2), (.f16x2, .f16, 2)])
    (k : Nat) (hk : k = 10 ∨ k = 11 ∨ k = 12) (m : BitVec 64) (a v j : Nat) (hj : j < n) :
    atomNew k t m a v 0 / 2 ^ (ty.width * j) % 2 ^ ty.width = atomFloat k ty m (a / 2 ^ (ty.width * j) % 2 ^ ty.width) (v / 2 ^ (ty.width * j) % 2 ^ ty.width) % 2 ^ ty.width := by
  have he : atomElem t = ty ∧ atomCount t = n := by
    simp only [List.mem_cons, List.not_mem_nil, or_false, Prod.mk.injEq] at hq
    rcases hq with ⟨rfl, rfl, rfl⟩ | ⟨rfl, rfl, rfl⟩ | ⟨rfl, rfl, rfl⟩ | ⟨rfl, rfl, rfl⟩ <;> exact ⟨rfl, rfl⟩
  have h1 : atomNew k t m a v 0 = ofElems ty.width ((List.range n).map fun j => atomFloat k ty m (elemOf ty.width a j) (elemOf ty.width v j)) := by
    rw [← he.1, ← he.2]
    rcases hk with rfl | rfl | rfl <;> rfl
  rw [h1, ofElems_digit, List.getElem?_map, List.getElem?_range hj]
  rfl

theorem one_lane {s : State} {x : Exe} (hc : x.calm) (hg : x.p.got = []) (i : Instr) (o : MemOp) (l : Nat) (ha : x.active i.ctl = [l])
    (hex : exec i s = .next (x.memory i o)) (hsp : o.spad = false) (hal : o.aligned = true → numOf (x.args i l) o.at_ % o.n = 0) :
    exec i s = .next (x.settleRun i [l] o.finish (x.raised i fun _ => 0)
      (x.access i.ctl.hint (o.far (x.args i l)).1 (o.far (x.args i l)).2 ⟨x.s, [], false⟩ (x.request o l (x.args i l)))) := by
  have hchk : ∀ k ∈ x.active i.ctl, x.memCheck o (x.args i k) = .done [] 0 := by
    intro k hk
    rw [ha] at hk
    have : k = l := by simpa using hk
    subst this
    unfold Exe.memCheck
    rw [hsp]
    simp only [Bool.false_and]
    rw [if_neg (by decide), if_neg]
    intro h
    rw [Bool.and_eq_true] at h
    rw [hal h.1] at h
    simp at h
  rw [hex, memory_eq i o hc hg hchk, ha]
  rw [show (if o.change.isSome then x.s.anyOrder [l] else [l]) = [l] by split <;> rfl]
  simp only [List.foldl_cons, List.foldl_nil, hsp, Bool.false_eq_true, ↓reduceIte]

end

end Sys2Proof.Machine
end

