-- ==== Sys2Proof/Laws/Branches.lean ====
section
/-! SUPPORT. Branches and landings (R183, R185 to R187, R289 to R291): how lanes are sorted into arms and what settles. -/

namespace Sys2Proof.Machine

set_option Elab.async false

section
set_option linter.all false

theorem gives_commit (y : Exe) (i : Instr) (out : Nat → List Val) : y.Completes i y.p.mode (y.only i out) (y.commit i ((y.active i.ctl).map fun l => (l, out l)) 0) := by
  have h := y.commit_completes i ((y.active i.ctl).map fun l => (l, out l)) 0 (y.only i out) (fun l _ => mget_map_self out _ l) (mget_active y i.ctl out)
  unfold Exe.flagged at h
  rw [modeRaise_zero] at h
  exact h

theorem sel_filter (ls : List Nat) (f : Nat → Nat) (k : Nat) (h : ∀ l ∈ ls, f l = k) (j : Nat) :
    ((ls.map fun l => (l, f l)).filter fun q => q.2 == j).map Prod.fst = if j = k then ls else [] := by
  induction ls with
  | nil => simp
  | cons a ls ih =>
      have h1 := h a (by simp)
      have h2 := ih fun l hl => h l (by simp [hl])
      rw [List.map_cons, List.filter_cons, h1]
      by_cases e : j = k
      · subst e; simp only [beq_self_eq_true, ↓reduceIte, List.map_cons] at *; rw [h2]
      · have : (k == j) = false := by simp; omega
        simp only [this, e] at *; simpa using h2

theorem filter_map_range {α : Type} (f : Nat → α) (p : α → Bool) (n k : Nat) (h : ∀ j, j < n → (p (f j) = true ↔ j = k)) :
    ((List.range n).map f).filter p = if k < n then [f k] else [] := by
  induction n with
  | zero => simp
  | succ n ih =>
      rw [List.range_succ, List.map_append, List.filter_append, ih fun j hj => h j (by omega)]
      have hn := h n (by omega)
      by_cases e : k = n
      · subst e; simp [hn]
      · have : p (f n) = false := by
          cases hp : p (f n) with
          | false => rfl
          | true => exact absurd (hn.mp hp).symm e
        by_cases h1 : k < n
        · have : k < n + 1 := by omega
          simp [*]
        · have : ¬ k < n + 1 := by omega
          simp [*]

theorem mask_ne {x : Exe} (h : x.lanes ≠ []) : x.p.mask ≠ 0 := by
  intro e; apply h; unfold Exe.lanes; rw [e]; decide

theorem arms_single (x : Exe) (i : Instr) (hl : x.lanes ≠ []) (f : Nat → Nat) (k : Nat) (h : ∀ l ∈ x.lanes, f l = k)
    (hk : k ≤ (targetsOf i.ops).length) :
    armsOf x i (x.lanes.map fun l => (l, f l)) = [match (targetsOf i.ops)[k]? with
      | some d => ⟨k, x.p.mask, pcTarget x.p.pc d, k + 1⟩
      | none => ⟨k, x.p.mask, pcAdd x.p.pc (instrSize i), 0⟩] := by
  unfold armsOf
  simp only [sel_filter _ _ _ h]
  have hz : maskOf [] = 0 := rfl
  rw [filter_map_range (k := k)]
  · rw [if_pos (by simp; omega)]
    simp only [↓reduceIte, List.getElem?_map]
    rw [show maskOf x.lanes = x.p.mask from maskOf_lanesOf _]
    cases (targetsOf i.ops)[k]? <;> rfl
  · intro j hj
    by_cases e : j = k
    · subst e
      simp only [↓reduceIte]
      rw [show maskOf x.lanes = x.p.mask from maskOf_lanesOf _]
      cases ((targetsOf i.ops).map (pcTarget x.p.pc))[j]? <;> simp <;> exact mask_ne hl
    · simp only [e, if_false, hz]
      cases ((targetsOf i.ops).map (pcTarget x.p.pc))[j]? <;> simp

theorem branch_single (x : Exe) (i : Instr) (a : Arm) (f : BitVec 6) (ha : a.lanes = x.p.mask) :
    x.Becomes i (x.having (x.moved a.pc (x.p.pc, a.place) (x.flagged f))) (x.branch i [a] f false) := by
  unfold Exe.branch
  simp only [List.length_cons, List.length_nil, Exe.divide]
  have e0 : x.p.mask &&& ~~~(0 : LaneMask) = x.p.mask := by
    rw [show (~~~(0:LaneMask)) = BitVec.allOnes 64 from rfl, BitVec.and_allOnes]
  simp only [e0, ha, Bool.or_true, decide_true, Nat.le_refl, Nat.zero_add, if_true, ↓reduceIte, Bool.false_eq_true, if_false]
  refine x.becomes_count i _ _ ?_ rfl
  obtain ⟨q, hq⟩ := Group.mapLanes_lanes (fun _ y => y.eraseAll (endsOf i.ops)) (lanesOf x.p.mask) x.g
  rw [hq]; rfl

theorem choose_single (s : State) (x : Exe) (i : Instr) (hc : x.calm) (pick : List Val → Nat) (he : exec i s = .next (x.choose i pick))
    (ha : x.p.arms = []) (hl : x.lanes ≠ []) (hg : x.active i.ctl = x.active i.ctl) (k : Nat) (h : ∀ l ∈ x.lanes, pick (x.args i l) = k)
    (hk : k ≤ (targetsOf i.ops).length) :
    let a : Arm := match (targetsOf i.ops)[k]? with
      | some d => ⟨k, x.p.mask, pcTarget x.p.pc d, k + 1⟩
      | none => ⟨k, x.p.mask, pcAdd x.p.pc (instrSize i), 0⟩
    ∃ (f : BitVec 6) (t : State), exec i s = .next t ∧
      ((∃ l ∈ x.lanes, x.poison i l = flagPO) → f = flagPO) ∧ ((∀ l ∈ x.lanes, x.poison i l = 0) → f = 0) ∧
      x.Becomes i (x.having (x.moved a.pc (x.p.pc, a.place) (x.flagged f))) t := by
  intro a
  refine ⟨flagIf (!(x.lanes.filter (x.readsPoison (x.plan i))).isEmpty) flagPO, _, he, ?_, ?_, ?_⟩
  · rintro ⟨l, hl, h⟩
    have : x.readsPoison (x.plan i) l = true := by
      cases hq : x.readsPoison (x.plan i) l with
      | true => rfl
      | false => simp [Exe.poison, hq, flagIf] at h; exact absurd h (by decide)
    have : (x.lanes.filter (x.readsPoison (x.plan i))) ≠ [] := by
      intro e
      rw [List.filter_eq_nil_iff] at e
      exact e l hl this
    cases hq : x.lanes.filter (x.readsPoison (x.plan i)) with
    | nil => exact absurd hq this
    | cons => simp [flagIf]
  · intro h
    have : (x.lanes.filter (x.readsPoison (x.plan i))) = [] := by
      rw [List.filter_eq_nil_iff]
      intro l hl
      have := h l hl
      cases hq : x.readsPoison (x.plan i) l with
      | false => simp
      | true => simp [Exe.poison, hq, flagIf] at this; exact absurd this (by decide)
    rw [this]; rfl
  · unfold Exe.choose
    have h0 : ∀ b : Bool, (b && (modeEn x.p.mode &&& flagPO) != 0) = false := by
      intro b; rw [show modeEn x.p.mode = 0 from hc]; simp
    simp only [ha, ne_eq, not_true_eq_false, ↓reduceIte, h0, Bool.false_eq_true]
    rw [arms_single x i hl (fun l => pick (x.vals (x.plan i) l)) k h hk]
    have hal : a.lanes = x.p.mask := by
      show (match (targetsOf i.ops)[k]? with
      | some d => (⟨k, x.p.mask, pcTarget x.p.pc d, k + 1⟩ : Arm)
      | none => ⟨k, x.p.mask, pcAdd x.p.pc (instrSize i), 0⟩).lanes = _
      cases (targetsOf i.ops)[k]? <;> rfl
    exact branch_single x i a _ hal

theorem find_range {n : Nat} {p : Nat → Bool} {k : Nat} (hk : k < n) (h : p k = true) (h' : ∀ j, j < k → p j = false) :
    ((List.range n).find? p).getD n = k := by
  have : (List.range n).find? p = some k := by
    rw [List.find?_range_eq_some]
    exact ⟨h, by simpa using hk, by simpa using h'⟩
  rw [this]; rfl

theorem find_none {n : Nat} {p : Nat → Bool} (h' : ∀ j, j < n → p j = false) :
    ((List.range n).find? p).getD n = n := by
  have : (List.range n).find? p = none := by
    rw [List.find?_eq_none]; intro j hj; simp at hj; simp [h' j hj]
  rw [this]; rfl

theorem brm_first (q : BrmKind × Nat) (hq : q ∈ [(BrmKind.one, 1), (.two, 2), (.three, 3), (.mask, 4)]) (vs : List Val) (k : Nat)
    (h1 : k = q.2 ∨ k < q.2 ∧ (if q.1 = .mask then (numOf vs 0).testBit k else (argOf vs (2 * k)).isTrue) = true)
    (h2 : ∀ j, j < k → (if q.1 = .mask then (numOf vs 0).testBit j else (argOf vs (2 * j)).isTrue) = false) : brmPick q.1 vs = k := by
  obtain ⟨b, n⟩ := q
  simp only [List.mem_cons, Prod.mk.injEq, List.not_mem_nil, or_false] at hq
  rcases h1 with rfl | ⟨h3, h4⟩
  · rcases hq with ⟨rfl, rfl⟩ | ⟨rfl, rfl⟩ | ⟨rfl, rfl⟩ | ⟨rfl, rfl⟩ <;>
      exact find_none h2
  · rcases hq with ⟨rfl, rfl⟩ | ⟨rfl, rfl⟩ | ⟨rfl, rfl⟩ | ⟨rfl, rfl⟩ <;>
      exact find_range h3 h4 h2

theorem mask_ne_filter {x : Exe} {p : Nat → Bool} (h : x.lanes.filter p ≠ []) : maskOf (x.lanes.filter p) ≠ 0 := by
  intro e; apply h
  have := lanesOf_filter x.p.mask p
  rw [show lanesOf x.p.mask = x.lanes from rfl, e] at this
  rw [← this]; decide

theorem sel_arm (ls : List Nat) (t : Nat → Bool) :
    ((ls.map fun l => (l, if t l = true then 0 else 1)).filter fun q => q.2 == 0).map Prod.fst = ls.filter (fun l => t l == true) ∧
    ((ls.map fun l => (l, if t l = true then 0 else 1)).filter fun q => q.2 == 1).map Prod.fst = ls.filter (fun l => t l == false) := by
  induction ls with
  | nil => exact ⟨rfl, rfl⟩
  | cons a ls ih => cases h : t a <;> simp [h, List.filter_cons] at ih ⊢ <;> exact ih

theorem poison_flag (x : Exe) (i : Instr) :
    ((∃ l ∈ x.lanes, x.poison i l = flagPO) → flagIf (!(x.lanes.filter (x.readsPoison (x.plan i))).isEmpty) flagPO = flagPO) ∧
    ((∀ l ∈ x.lanes, x.poison i l = 0) → flagIf (!(x.lanes.filter (x.readsPoison (x.plan i))).isEmpty) flagPO = 0) := by
  refine ⟨?_, ?_⟩
  · rintro ⟨l, hl, h⟩
    have : x.readsPoison (x.plan i) l = true := by
      cases hq : x.readsPoison (x.plan i) l with
      | true => rfl
      | false => simp [Exe.poison, hq, flagIf] at h; exact absurd h (by decide)
    have : (x.lanes.filter (x.readsPoison (x.plan i))) ≠ [] := by
      intro e
      rw [List.filter_eq_nil_iff] at e
      exact e l hl this
    cases hq : x.lanes.filter (x.readsPoison (x.plan i)) with
    | nil => exact absurd hq this
    | cons => simp [flagIf]
  · intro h
    have : (x.lanes.filter (x.readsPoison (x.plan i))) = [] := by
      rw [List.filter_eq_nil_iff]
      intro l hl
      have := h l hl
      cases hq : x.readsPoison (x.plan i) l with
      | false => simp
      | true => simp [Exe.poison, hq, flagIf] at this; exact absurd this (by decide)
    rw [this]; rfl

theorem idle_iff (busy : List Nat) : (∃ k, k < 32 ∧ k ∉ busy) ↔ (idleGallery busy).isSome = true := by
  unfold idleGallery
  rw [List.find?_isSome]
  constructor
  · rintro ⟨k, h1, h2⟩; exact ⟨k, by simpa using h1, by simpa using h2⟩
  · rintro ⟨k, h1, h2⟩; exact ⟨k, by simpa using h1, by simpa using h2⟩

theorem idle_some {busy : List Nat} {k : Nat} (h : idleGallery busy = some k) : k < 32 ∧ k ∉ busy := by
  unfold idleGallery at h
  have h1 := List.find?_some h
  have h2 := List.mem_of_find?_eq_some h
  exact ⟨by simpa using h2, by simpa using h1⟩

/-- What divide makes of two arms. -/
theorem divide_two (x : Exe) (u : Nat) (join : BitVec 48) (a b : Arm) (sp : Split) (p : Path) :
    x.divide u join [a, b] sp p =
      (x.leave u join sp p [if maskCount a.lanes ≤ maskCount b.lanes then a else b]).map fun sp =>
        (sp, { p.goto (if maskCount a.lanes ≤ maskCount b.lanes then b else a).pc
          (if maskCount a.lanes ≤ maskCount b.lanes then b else a).place with
          mask := (if maskCount a.lanes ≤ maskCount b.lanes then b else a).lanes }) := by
  have hb : armLanes [b] = b.lanes := by simp [armLanes]
  unfold Exe.divide
  rw [hb]
  split
  · cases x.leave u join sp p [a] <;> rfl
  · rfl

theorem Exe.becomes_launches (x : Exe) (i : Instr) (g g' : Group) (L : Launch) (hg : ({ g' with lanes := g.lanes } : Group) = g)
    (hl : g'.lanes = (x.g.mapLanes x.lanes fun _ y => y.eraseAll (endsOf i.ops)).lanes) :
    x.Becomes i g { (x.count ((x.put g').setLaunch x.team.launch L) 1) with launches := x.s.launches } :=
  x.becomes_count i g g' hg hl

theorem landingHere_iff (x : Exe) (id : Nat) (r : LandRec) :
    x.landingHere id = some r ↔ x.p.pend.head?.bind x.g.ctx.rcd = some r ∧ r.id = id ∧ r.depth = x.depth := by
  unfold Exe.landingHere
  rw [Option.filter_eq_some_iff]
  simp

def Ctx.size (c : Ctx) : Nat := c.recs.length + c.stack.length

theorem dropLastOf_length (mine : Entry → Bool) (e : Entry) : ∀ st : List Entry, (st.filter mine).getLast? = some e →
    (dropLastOf mine st).length + 1 = st.length
  | [], h => by simp at h
  | a :: st, h => by
      unfold dropLastOf
      split
      · rfl
      · next hn =>
        simp only [List.length_cons]
        rw [dropLastOf_length mine e st]
        rw [List.filter_cons] at h
        split at h
        · next ho =>
          have ho' : mine a = true := by simpa using ho
          simp only [ho', true_and] at hn
          have : st.any mine = true := by simpa using hn
          rw [List.getLast?_cons] at h
          cases hq : (st.filter mine).getLast? with
          | none =>
            rw [List.getLast?_eq_none_iff, List.filter_eq_nil_iff] at hq
            rw [List.any_eq_true] at this
            obtain ⟨q, h1, h2⟩ := this
            exact absurd h2 (hq q h1)
          | some q => rw [hq] at h; exact h
        · exact h

theorem dueEntry_mem {c : Ctx} {o : Nat} {r : LandRec} {e : Entry} (h : c.dueEntry o (some r) = some e) :
    e ∈ c.stack ∧ e.owner = o ∧ r.uid ∈ e.pend := by
  unfold Ctx.dueEntry at h
  have := List.mem_of_getLast? h
  simpa [Entry.dueAt] using this

theorem lastOwned_mem {c : Ctx} {o : Nat} {r : LandRec} (h : c.lastOwned o = some r) : r ∈ c.recs ∧ r.owner = o := by
  unfold Ctx.lastOwned at h
  have := List.mem_of_getLast? h
  simpa using this

theorem dropRcd_size {c : Ctx} {r : LandRec} (h : r ∈ c.recs) : (c.dropRcd r.uid).recs.length < c.recs.length ∧ (c.dropRcd r.uid).stack.length = c.stack.length := by
  unfold Ctx.dropRcd
  simp only [List.length_map, and_true]
  refine Nat.lt_of_le_of_ne (List.length_filter_le ..) ?_
  intro e
  have := List.length_filter_eq_length_iff.mp e r h
  simp at this

theorem settleOne_size {c c' : Ctx} {o : Nat} (h : c.settleOne o = some c') : c'.size < c.size := by
  have hentry : ∀ c'', (c.dueEntry o (c.lastOwned o)).map (fun e => ({ c with
      paths := mset c.paths e.runs { Path.start e.pc e.lanes e.mode e.pend e.last e.place with arms := e.arms }
      stack := dropLastOf (Entry.dueAt o (c.lastOwned o)) c.stack } : Ctx)) = some c'' → c''.size < c.size := by
    intro c'' h
    rw [Option.map_eq_some_iff] at h
    obtain ⟨e, he, rfl⟩ := h
    have := dropLastOf_length _ e c.stack he
    simp only [Ctx.size]; omega
  unfold Ctx.settleOne at h
  dsimp only at h
  split at h
  · exact hentry _ h
  · next r hr =>
    have hm := (lastOwned_mem hr).1
    have hd := dropRcd_size hm
    split at h
    · cases h; simp only [Ctx.size]; omega
    · split at h
      · exact hentry _ h
      · split at h
        · split at h
          · cases h; simp only [Ctx.size, Ctx.setRcd, List.length_map]; omega
          · cases h; simp only [Ctx.size]; omega
        · cases h

theorem settle_done (n : Nat) : ∀ c : Ctx, c.size < n → (c.settle n).idleOwners.findSome? (c.settle n).settleOne = none := by
  induction n with
  | zero => intro c h; omega
  | succ n ih =>
    intro c h
    unfold Ctx.settle
    cases hq : c.idleOwners.findSome? c.settleOne with
    | none => exact hq
    | some c' =>
      refine ih c' ?_
      rw [List.findSome?_eq_some_iff] at hq
      obtain ⟨l1, o, l2, -, h2, -⟩ := hq
      have := settleOne_size h2
      omega

theorem mem_idle {c : Ctx} {q : Nat} : q ∈ c.idleOwners ↔ ((∃ r ∈ c.recs, r.owner = q) ∨ ∃ e ∈ c.stack, e.owner = q) ∧
    c.running q = false ∧ ∀ e ∈ c.stack, e.runs = q → e.owner = q := by
  unfold Ctx.idleOwners
  simp only [List.mem_filter, List.mem_append, List.mem_map, Bool.and_eq_true, Bool.not_eq_true', List.any_eq_false, beq_iff_eq, bne_iff_ne]
  constructor
  · rintro ⟨h1, h2, h3⟩
    exact ⟨h1, h2, fun e he hr => Classical.byContradiction fun ho => h3 e he ⟨hr, ho⟩⟩
  · rintro ⟨h1, h2, h3⟩
    exact ⟨h1, h2, fun e he hr => hr.2 (h3 e he hr.1)⟩

theorem settle_step (c c' : Ctx) (o : Nat) (n : Nat) (ho : o ∈ c.idleOwners) (hq : ∀ q ∈ c.idleOwners, q = o) (h : c.settleOne o = some c')
    (h' : c'.idleOwners = []) : c.settle (n + 2) = c' := by
  have : c.idleOwners.findSome? c.settleOne = some c' := by
    have hall : ∀ (ls : List Nat), o ∈ ls → (∀ q ∈ ls, q = o) → ls.findSome? c.settleOne = some c' := by
      intro ls h1 h2
      cases ls with
      | nil => cases h1
      | cons a ls =>
        have := h2 a (by simp)
        subst this
        simp [h]
    exact hall _ ho hq
  unfold Ctx.settle
  rw [this]
  show c'.settle (n + 1) = c'
  unfold Ctx.settle
  rw [h']; rfl

theorem settle_none (c : Ctx) (o : Nat) (n : Nat) (hq : ∀ q ∈ c.idleOwners, q = o) (h : c.settleOne o = none) : c.settle (n + 1) = c := by
  have : c.idleOwners.findSome? c.settleOne = none := by
    rw [List.findSome?_eq_none_iff]
    intro q hq'
    rw [hq q hq', h]
  rw [Ctx.settle, this]

theorem mem_dropLastOf (mine : Entry → Bool) : ∀ (st : List Entry) (q : Entry), q ∈ dropLastOf mine st → q ∈ st
  | [], q, h => by cases h
  | a :: st, q, h => by
      unfold dropLastOf at h
      split at h
      · exact List.mem_cons_of_mem _ h
      · rcases List.mem_cons.mp h with rfl | h
        · simp
        · exact List.mem_cons_of_mem _ (mem_dropLastOf mine st q h)

theorem dropLastOf_mem (mine : Entry → Bool) (e : Entry) : ∀ (st : List Entry), (st.filter mine).getLast? = some e →
    ∀ q ∈ st, q = e ∨ q ∈ dropLastOf mine st
  | [], _, q, hq => by cases hq
  | a :: st, h, q, hq => by
      unfold dropLastOf
      split
      · next hn =>
        rcases List.mem_cons.mp hq with rfl | hq
        · left
          rw [List.filter_cons, if_pos (by simp [hn.1])] at h
          have : st.filter mine = [] := by
            rw [List.filter_eq_nil_iff]
            have := hn.2
            simpa using this
          rw [this] at h; simpa using h
        · right; exact hq
      · next hn =>
        rcases List.mem_cons.mp hq with rfl | hq
        · right; simp
        · have : (st.filter mine).getLast? = some e := by
            rw [List.filter_cons] at h
            split at h
            · next ho =>
              have ho' : mine a = true := by simpa using ho
              simp only [ho', true_and] at hn
              have : st.any mine = true := by simpa using hn
              rw [List.getLast?_cons] at h
              cases hq : (st.filter mine).getLast? with
              | none =>
                rw [List.getLast?_eq_none_iff, List.filter_eq_nil_iff] at hq
                rw [List.any_eq_true] at this
                obtain ⟨q, h1, h2⟩ := this
                exact absurd h2 (hq q h1)
              | some q => rw [hq] at h; exact h
            · exact h
          rcases dropLastOf_mem mine e st this q hq with h | h
          · exact .inl h
          · exact .inr (List.mem_cons_of_mem _ h)

end

end Sys2Proof.Machine
end

