-- ==== Sys2Proof/Laws/Codes.lean ====
section
/-! SUPPORT. Codes and forms (R241, R264, R271): the codes of a form lead back to it and fit the fields of a head word,
and what codes lead to has those codes. -/

namespace Sys2Proof

section
set_option Elab.async false
set_option linter.all false

/-- What holds of an instruction's codes: they lead back to it, their major and SUB are assigned, and they fit the head word's
fields. -/
def Instr.keyed (i : Instr) (q : Key) : Prop :=
  Instr.ofKey q i.ctl i.ops = some i ∧ (Instr.ofKey ⟨q.maj, q.sub, goodMod q.maj q.sub⟩ i.ctl []).isSome = true ∧
    majAssigned q.maj = true ∧ (decide (q.maj < 0x78) && decide (q.sub < 32) && decide (q.mod < 16)) = true

@[simp] theorem Scope.ofCode_code (s : Scope) : Scope.ofCode s.code = some s := by cases s <;> rfl
theorem Scope.code_lt (s : Scope) : decide (s.code < 16) = true := by cases s <;> rfl
theorem AtomOrder.ofCode_code (o : AtomOrder) : AtomOrder.ofCode o.code = some o := by cases o <;> rfl
theorem AtomTy.ofCode_code (t : AtomTy) : AtomTy.ofCode t.code = some t := by cases t <;> rfl
theorem CopyKind.ofCode_code (k : CopyKind) : CopyKind.ofCode k.code = some k := by cases k <;> rfl
/-- The codes of a load or store form lead back to it, and its SUB has a form without a scope number or with scope LANE (R328). -/
theorem MemForm.codes_keyed (st : Bool) (f : MemForm) (p : Nat × Nat) (h : f.codes st = some p) :
    MemForm.ofCodes st p.1 p.2 = some f ∧ (MemForm.ofCodes st p.1 0).isSome = true ∧ decide (p.1 < 32) = true ∧ decide (p.2 < 16) = true := by
  cases st <;> cases f
  case false.rlx t s | true.rlx t s => cases t <;> first | contradiction | (cases h; exact ⟨congrArg (Option.map _) (Scope.ofCode_code s), rfl, rfl, s.code_lt⟩)
  case false.sync t s | true.sync t s => cases t <;> first | contradiction | (cases h; exact ⟨congrArg (Option.map _) (Scope.ofCode_code s), rfl, rfl, s.code_lt⟩)
  case false.plain t | true.plain t => cases t <;> first | contradiction | (cases h; exact ⟨rfl, rfl, rfl, rfl⟩)
  all_goals first | contradiction | (cases h; exact ⟨rfl, rfl, rfl, rfl⟩)
theorem const_keyed (c : Ctl) (t : Ty) (ops : List Opnd) (q : Key) (h : (Instr.const c t ops).key = some q) : (Instr.const c t ops).keyed q := by
  cases t <;> first | contradiction | (cases h; exact ⟨rfl, rfl, rfl, rfl⟩)
theorem iadd_keyed (c : Ctl) (m : AddMode) (t : Ty) (ops : List Opnd) (q : Key) (h : (Instr.iadd c m t ops).key = some q) : (Instr.iadd c m t ops).keyed q := by
  cases m <;> cases t <;> first | contradiction | (cases h; exact ⟨rfl, rfl, rfl, rfl⟩)
theorem isub_keyed (c : Ctl) (m : AddMode) (t : Ty) (ops : List Opnd) (q : Key) (h : (Instr.isub c m t ops).key = some q) : (Instr.isub c m t ops).keyed q := by
  cases m <;> cases t <;> first | contradiction | (cases h; exact ⟨rfl, rfl, rfl, rfl⟩)
theorem imul_keyed (c : Ctl) (m : MulMode) (t : Ty) (ops : List Opnd) (q : Key) (h : (Instr.imul c m t ops).key = some q) : (Instr.imul c m t ops).keyed q := by
  cases m <;> cases t <;> first | contradiction | (cases h; exact ⟨rfl, rfl, rfl, rfl⟩)
theorem imad_keyed (c : Ctl) (m : MadMode) (t : Ty) (ops : List Opnd) (q : Key) (h : (Instr.imad c m t ops).key = some q) : (Instr.imad c m t ops).keyed q := by
  cases m <;> cases t <;> first | contradiction | (cases h; exact ⟨rfl, rfl, rfl, rfl⟩)
theorem idiv_keyed (c : Ctl) (signed : Bool) (t : Ty) (ops : List Opnd) (q : Key) (h : (Instr.idiv c signed t ops).key = some q) : (Instr.idiv c signed t ops).keyed q := by
  cases signed <;> cases t <;> first | contradiction | (cases h; exact ⟨rfl, rfl, rfl, rfl⟩)
theorem iminmax_keyed (c : Ctl) (k : MinMax) (t : Ty) (ops : List Opnd) (q : Key) (h : (Instr.iminmax c k t ops).key = some q) : (Instr.iminmax c k t ops).keyed q := by
  cases k <;> cases t <;> first | contradiction | (cases h; exact ⟨rfl, rfl, rfl, rfl⟩)
theorem logic_keyed (c : Ctl) (k : LogicKind) (ops : List Opnd) (q : Key) (h : (Instr.logic c k ops).key = some q) : (Instr.logic c k ops).keyed q := by
  cases k <;> first | contradiction | (cases h; exact ⟨rfl, rfl, rfl, rfl⟩)
theorem shift_keyed (c : Ctl) (k : ShiftKind) (ops : List Opnd) (q : Key) (h : (Instr.shift c k ops).key = some q) : (Instr.shift c k ops).keyed q := by
  cases k <;> first | contradiction | (cases h; exact ⟨rfl, rfl, rfl, rfl⟩)
theorem bits_keyed (c : Ctl) (k : BitsKind) (ops : List Opnd) (q : Key) (h : (Instr.bits c k ops).key = some q) : (Instr.bits c k ops).keyed q := by
  cases k <;> first | contradiction | (cases h; exact ⟨rfl, rfl, rfl, rfl⟩)
theorem clmul_keyed (c : Ctl) (hi wide : Bool) (ops : List Opnd) (q : Key) (h : (Instr.clmul c hi wide ops).key = some q) : (Instr.clmul c hi wide ops).keyed q := by
  cases hi <;> cases wide <;> first | contradiction | (cases h; exact ⟨rfl, rfl, rfl, rfl⟩)
theorem icmp_keyed (c : Ctl) (k : IntCond) (t : Ty) (ops : List Opnd) (q : Key) (h : (Instr.icmp c k t ops).key = some q) : (Instr.icmp c k t ops).keyed q := by
  cases k <;> cases t <;> first | contradiction | (cases h; exact ⟨rfl, rfl, rfl, rfl⟩)
theorem plogic_keyed (c : Ctl) (k : LogicKind) (ops : List Opnd) (q : Key) (h : (Instr.plogic c k ops).key = some q) : (Instr.plogic c k ops).keyed q := by
  cases k <;> first | contradiction | (cases h; exact ⟨rfl, rfl, rfl, rfl⟩)
theorem sel_keyed (c : Ctl) (t : Ty) (ops : List Opnd) (q : Key) (h : (Instr.sel c t ops).key = some q) : (Instr.sel c t ops).keyed q := by
  cases t <;> first | contradiction | (cases h; exact ⟨rfl, rfl, rfl, rfl⟩)
theorem addr_keyed (c : Ctl) (k : AddrKind) (ops : List Opnd) (q : Key) (h : (Instr.addr c k ops).key = some q) : (Instr.addr c k ops).keyed q := by
  cases k <;> first | contradiction | (cases h; exact ⟨rfl, rfl, rfl, rfl⟩)
theorem cvti_keyed (c : Ctl) (k : CvtiKind) (ops : List Opnd) (q : Key) (h : (Instr.cvti c k ops).key = some q) : (Instr.cvti c k ops).keyed q := by
  cases k <;> (try rename_i t; cases t) <;> first | contradiction | (cases h; exact ⟨rfl, rfl, rfl, rfl⟩)
theorem phi_keyed (c : Ctl) (t : Ty) (ops : List Opnd) (q : Key) (h : (Instr.phi c t ops).key = some q) : (Instr.phi c t ops).keyed q := by
  cases t <;> first | contradiction | (cases h; exact ⟨rfl, rfl, rfl, rfl⟩)
theorem brm_keyed (c : Ctl) (k : BrmKind) (ops : List Opnd) (q : Key) (h : (Instr.brm c k ops).key = some q) : (Instr.brm c k ops).keyed q := by
  cases k <;> first | contradiction | (cases h; exact ⟨rfl, rfl, rfl, rfl⟩)
theorem call_keyed (c : Ctl) (t : Ty) (ops : List Opnd) (q : Key) (h : (Instr.call c t ops).key = some q) : (Instr.call c t ops).keyed q := by
  cases t <;> first | contradiction | (cases h; exact ⟨rfl, rfl, rfl, rfl⟩)
theorem calli_keyed (c : Ctl) (t : Ty) (ops : List Opnd) (q : Key) (h : (Instr.calli c t ops).key = some q) : (Instr.calli c t ops).keyed q := by
  cases t <;> first | contradiction | (cases h; exact ⟨rfl, rfl, rfl, rfl⟩)
theorem fadd_keyed (c : Ctl) (sub : Bool) (t : Ty) (ops : List Opnd) (q : Key) (h : (Instr.fadd c sub t ops).key = some q) : (Instr.fadd c sub t ops).keyed q := by
  cases sub <;> cases t <;> first | contradiction | (cases h; exact ⟨rfl, rfl, rfl, rfl⟩)
theorem fmul_keyed (c : Ctl) (t : Ty) (ops : List Opnd) (q : Key) (h : (Instr.fmul c t ops).key = some q) : (Instr.fmul c t ops).keyed q := by
  cases t <;> first | contradiction | (cases h; exact ⟨rfl, rfl, rfl, rfl⟩)
theorem ffma_keyed (c : Ctl) (ms : Bool) (t : Ty) (ops : List Opnd) (q : Key) (h : (Instr.ffma c ms t ops).key = some q) : (Instr.ffma c ms t ops).keyed q := by
  cases ms <;> cases t <;> first | contradiction | (cases h; exact ⟨rfl, rfl, rfl, rfl⟩)
theorem fminmax_keyed (c : Ctl) (k : FMinMax) (t : Ty) (ops : List Opnd) (q : Key) (h : (Instr.fminmax c k t ops).key = some q) : (Instr.fminmax c k t ops).keyed q := by
  cases k <;> cases t <;> first | contradiction | (cases h; exact ⟨rfl, rfl, rfl, rfl⟩)
theorem fsign_keyed (c : Ctl) (k : FSignKind) (t : Ty) (ops : List Opnd) (q : Key) (h : (Instr.fsign c k t ops).key = some q) : (Instr.fsign c k t ops).keyed q := by
  cases k <;> cases t <;> first | contradiction | (cases h; exact ⟨rfl, rfl, rfl, rfl⟩)
theorem fcmp_keyed (c : Ctl) (k : FCond) (t : Ty) (ops : List Opnd) (q : Key) (h : (Instr.fcmp c k t ops).key = some q) : (Instr.fcmp c k t ops).keyed q := by
  cases k <;> cases t <;> first | contradiction | (cases h; exact ⟨rfl, rfl, rfl, rfl⟩)
theorem fclass_keyed (c : Ctl) (t : Ty) (ops : List Opnd) (q : Key) (h : (Instr.fclass c t ops).key = some q) : (Instr.fclass c t ops).keyed q := by
  cases t <;> first | contradiction | (cases h; exact ⟨rfl, rfl, rfl, rfl⟩)
theorem fdiv_keyed (c : Ctl) (t : Ty) (ops : List Opnd) (q : Key) (h : (Instr.fdiv c t ops).key = some q) : (Instr.fdiv c t ops).keyed q := by
  cases t <;> first | contradiction | (cases h; exact ⟨rfl, rfl, rfl, rfl⟩)
theorem fsqrt_keyed (c : Ctl) (t : Ty) (ops : List Opnd) (q : Key) (h : (Instr.fsqrt c t ops).key = some q) : (Instr.fsqrt c t ops).keyed q := by
  cases t <;> first | contradiction | (cases h; exact ⟨rfl, rfl, rfl, rfl⟩)
theorem sfu_keyed (c : Ctl) (k : SfuKind) (t : Ty) (ops : List Opnd) (q : Key) (h : (Instr.sfu c k t ops).key = some q) : (Instr.sfu c k t ops).keyed q := by
  cases k <;> cases t <;> first | contradiction | (cases h; exact ⟨rfl, rfl, rfl, rfl⟩)
theorem cvtf_keyed (c : Ctl) (k : CvtfKind) (ops : List Opnd) (q : Key) (h : (Instr.cvtf c k ops).key = some q) : (Instr.cvtf c k ops).keyed q := by
  cases k <;> (try rename_i t; cases t) <;> first | contradiction | (cases h; exact ⟨rfl, rfl, rfl, rfl⟩)
theorem pack_keyed (c : Ctl) (k : PackKind) (ops : List Opnd) (q : Key) (h : (Instr.pack c k ops).key = some q) : (Instr.pack c k ops).keyed q := by
  cases k <;> first | contradiction | (cases h; exact ⟨rfl, rfl, rfl, rfl⟩)
theorem dot_keyed (c : Ctl) (k : DotKind) (ops : List Opnd) (q : Key) (h : (Instr.dot c k ops).key = some q) : (Instr.dot c k ops).keyed q := by
  cases k <;> first | contradiction | (cases h; exact ⟨rfl, rfl, rfl, rfl⟩)
theorem shfl_keyed (c : Ctl) (k : ShflKind) (ops : List Opnd) (q : Key) (h : (Instr.shfl c k ops).key = some q) : (Instr.shfl c k ops).keyed q := by
  cases k <;> first | contradiction | (cases h; exact ⟨rfl, rfl, rfl, rfl⟩)
theorem vote_keyed (c : Ctl) (k : VoteKind) (ops : List Opnd) (q : Key) (h : (Instr.vote c k ops).key = some q) : (Instr.vote c k ops).keyed q := by
  cases k <;> first | contradiction | (cases h; exact ⟨rfl, rfl, rfl, rfl⟩)
theorem scan_keyed (c : Ctl) (k : ScanKind) (ex : Bool) (ops : List Opnd) (q : Key) (h : (Instr.scan c k ex ops).key = some q) : (Instr.scan c k ex ops).keyed q := by
  cases k <;> cases ex <;> first | contradiction | (cases h; exact ⟨rfl, rfl, rfl, rfl⟩)
theorem reduce_keyed (c : Ctl) (k : ScanKind) (ops : List Opnd) (q : Key) (h : (Instr.reduce c k ops).key = some q) : (Instr.reduce c k ops).keyed q := by
  cases k <;> first | contradiction | (cases h; exact ⟨rfl, rfl, rfl, rfl⟩)
theorem matchLanes_keyed (c : Ctl) (k : MatchKind) (ops : List Opnd) (q : Key) (h : (Instr.matchLanes c k ops).key = some q) : (Instr.matchLanes c k ops).keyed q := by
  cases k <;> first | contradiction | (cases h; exact ⟨rfl, rfl, rfl, rfl⟩)
theorem frnd_keyed (c : Ctl) (k : FrndKind) (t : Ty) (ops : List Opnd) (q : Key) (h : (Instr.frnd c k t ops).key = some q) : (Instr.frnd c k t ops).keyed q := by
  cases k <;> cases t <;> first | contradiction | (cases h; exact ⟨rfl, rfl, rfl, rfl⟩)
theorem fscale_keyed (c : Ctl) (exp : Bool) (t : Ty) (ops : List Opnd) (q : Key) (h : (Instr.fscale c exp t ops).key = some q) : (Instr.fscale c exp t ops).keyed q := by
  cases exp <;> cases t <;> first | contradiction | (cases h; exact ⟨rfl, rfl, rfl, rfl⟩)
theorem rndbits_keyed (c : Ctl) (wide : Bool) (ops : List Opnd) (q : Key) (h : (Instr.rndbits c wide ops).key = some q) : (Instr.rndbits c wide ops).keyed q := by
  cases wide <;> first | contradiction | (cases h; exact ⟨rfl, rfl, rfl, rfl⟩)
theorem ld_keyed (c : Ctl) (f : MemForm) (ops : List Opnd) (q : Key) (h : (Instr.ld c f ops).key = some q) : (Instr.ld c f ops).keyed q := by
  obtain ⟨p, hp, rfl⟩ := Option.map_eq_some_iff.mp h
  obtain ⟨h1, h2, h3, h4⟩ := MemForm.codes_keyed _ f p hp
  refine ⟨congrArg (Option.map fun f => Instr.ld c f ops) h1, ?_, rfl, by rw [h3, h4]; rfl⟩
  show (Option.map (fun f => Instr.ld c f []) (MemForm.ofCodes false p.1 0)).isSome = true
  rw [Option.isSome_map, h2]
theorem st_keyed (c : Ctl) (f : MemForm) (ops : List Opnd) (q : Key) (h : (Instr.st c f ops).key = some q) : (Instr.st c f ops).keyed q := by
  obtain ⟨p, hp, rfl⟩ := Option.map_eq_some_iff.mp h
  obtain ⟨h1, h2, h3, h4⟩ := MemForm.codes_keyed _ f p hp
  refine ⟨congrArg (Option.map fun f => Instr.st c f ops) h1, ?_, rfl, by rw [h3, h4]; rfl⟩
  show (Option.map (fun f => Instr.st c f []) (MemForm.ofCodes true p.1 0)).isSome = true
  rw [Option.isSome_map, h2]
theorem lds_keyed (c : Ctl) (f : MemForm) (ops : List Opnd) (q : Key) (h : (Instr.lds c f ops).key = some q) : (Instr.lds c f ops).keyed q := by
  obtain ⟨p, hp, rfl⟩ := Option.map_eq_some_iff.mp h
  obtain ⟨h1, h2, h3, h4⟩ := MemForm.codes_keyed _ f p hp
  refine ⟨congrArg (Option.map fun f => Instr.lds c f ops) h1, ?_, rfl, by rw [h3, h4]; rfl⟩
  show (Option.map (fun f => Instr.lds c f []) (MemForm.ofCodes false p.1 0)).isSome = true
  rw [Option.isSome_map, h2]
theorem sts_keyed (c : Ctl) (f : MemForm) (ops : List Opnd) (q : Key) (h : (Instr.sts c f ops).key = some q) : (Instr.sts c f ops).keyed q := by
  obtain ⟨p, hp, rfl⟩ := Option.map_eq_some_iff.mp h
  obtain ⟨h1, h2, h3, h4⟩ := MemForm.codes_keyed _ f p hp
  refine ⟨congrArg (Option.map fun f => Instr.sts c f ops) h1, ?_, rfl, by rw [h3, h4]; rfl⟩
  show (Option.map (fun f => Instr.sts c f []) (MemForm.ofCodes true p.1 0)).isSome = true
  rw [Option.isSome_map, h2]
theorem atom_keyed (c : Ctl) (o : AtomOrder) (t : AtomTy) (scope : Scope) (ops : List Opnd) (q : Key) (h : (Instr.atom c o t scope ops).key = some q) : (Instr.atom c o t scope ops).keyed q := by
  cases h
  have h0 : decide (8 * o.code + t.code < 32) = true := by cases o <;> cases t <;> rfl
  have h1 : (8 * o.code + t.code) / 8 = o.code := by cases o <;> cases t <;> rfl
  have h2 : (8 * o.code + t.code) % 8 = t.code := by cases o <;> cases t <;> rfl
  let f : Nat → List Opnd → Scope → Option Instr := fun n ops s =>
    (AtomOrder.ofCode (n / 8)).bind fun o => (AtomTy.ofCode (n % 8)).map fun t => Instr.atom c o t s ops
  have hf : ∀ ops s, f (8 * o.code + t.code) ops s = some (Instr.atom c o t s ops) := fun ops s => by
    simp only [f, h1, h2, AtomOrder.ofCode_code, Option.bind_some, AtomTy.ofCode_code, Option.map_some]
  refine ⟨?_, ?_, rfl, by show (_ && _ && _) = true; rw [h0, scope.code_lt]; rfl⟩
  · show (Scope.ofCode scope.code).bind (f (8 * o.code + t.code) ops) = _
    rw [Scope.ofCode_code, Option.bind_some, hf]
  · show (f (8 * o.code + t.code) [] .lane).isSome = true
    rw [hf]; rfl
theorem atoms_keyed (c : Ctl) (o : AtomOrder) (t : AtomTy) (scope : Scope) (ops : List Opnd) (q : Key) (h : (Instr.atoms c o t scope ops).key = some q) : (Instr.atoms c o t scope ops).keyed q := by
  cases h
  have h0 : decide (8 * o.code + t.code < 32) = true := by cases o <;> cases t <;> rfl
  have h1 : (8 * o.code + t.code) / 8 = o.code := by cases o <;> cases t <;> rfl
  have h2 : (8 * o.code + t.code) % 8 = t.code := by cases o <;> cases t <;> rfl
  let f : Nat → List Opnd → Scope → Option Instr := fun n ops s =>
    (AtomOrder.ofCode (n / 8)).bind fun o => (AtomTy.ofCode (n % 8)).map fun t => Instr.atoms c o t s ops
  have hf : ∀ ops s, f (8 * o.code + t.code) ops s = some (Instr.atoms c o t s ops) := fun ops s => by
    simp only [f, h1, h2, AtomOrder.ofCode_code, Option.bind_some, AtomTy.ofCode_code, Option.map_some]
  refine ⟨?_, ?_, rfl, by show (_ && _ && _) = true; rw [h0, scope.code_lt]; rfl⟩
  · show (Scope.ofCode scope.code).bind (f (8 * o.code + t.code) ops) = _
    rw [Scope.ofCode_code, Option.bind_some, hf]
  · show (f (8 * o.code + t.code) [] .lane).isSome = true
    rw [hf]; rfl
theorem fenceAcq_keyed (c : Ctl) (scope : Scope) (ops : List Opnd) (q : Key) (h : (Instr.fenceAcq c scope ops).key = some q) : (Instr.fenceAcq c scope ops).keyed q := by
  cases scope <;> first | contradiction | (cases h; exact ⟨rfl, rfl, rfl, rfl⟩)
theorem fenceRel_keyed (c : Ctl) (scope : Scope) (ops : List Opnd) (q : Key) (h : (Instr.fenceRel c scope ops).key = some q) : (Instr.fenceRel c scope ops).keyed q := by
  cases scope <;> first | contradiction | (cases h; exact ⟨rfl, rfl, rfl, rfl⟩)
theorem fenceAr_keyed (c : Ctl) (scope : Scope) (ops : List Opnd) (q : Key) (h : (Instr.fenceAr c scope ops).key = some q) : (Instr.fenceAr c scope ops).keyed q := by
  cases scope <;> first | contradiction | (cases h; exact ⟨rfl, rfl, rfl, rfl⟩)
theorem fenceSc_keyed (c : Ctl) (scope : Scope) (ops : List Opnd) (q : Key) (h : (Instr.fenceSc c scope ops).key = some q) : (Instr.fenceSc c scope ops).keyed q := by
  cases scope <;> first | contradiction | (cases h; exact ⟨rfl, rfl, rfl, rfl⟩)
theorem copy_keyed (c : Ctl) (k : CopyKind) (bar : Bool) (scope : Scope) (ops : List Opnd) (q : Key) (h : (Instr.copy c k bar scope ops).key = some q) : (Instr.copy c k bar scope ops).keyed q := by
  cases h
  have h0 : decide (k.code + (if bar then 8 else 0) < 16) = true := by cases k <;> cases bar <;> rfl
  have h1 : (k.code + (if bar then 8 else 0)) % 8 = k.code := by cases k <;> cases bar <;> rfl
  have h2 : ((k.code + (if bar then 8 else 0)) / 8 == 1) = bar := by cases k <;> cases bar <;> rfl
  let f : Nat → List Opnd → Scope → Option Instr := fun n ops s =>
    if n < 16 then (CopyKind.ofCode (n % 8)).map fun k => .copy c k (n / 8 == 1) s ops else none
  have hf : ∀ ops s, f (k.code + (if bar then 8 else 0)) ops s = some (Instr.copy c k bar s ops) := fun ops s => by
    show (if _ < 16 then _ else none) = _
    rw [if_pos (of_decide_eq_true h0), h1, h2, CopyKind.ofCode_code, Option.map_some]
  refine ⟨?_, ?_, rfl, by
    show (_ && _ && _) = true; rw [scope.code_lt, decide_eq_true (Nat.lt_trans (of_decide_eq_true h0) (by decide : 16 < 32))]; rfl⟩
  · show (Scope.ofCode scope.code).bind (f (k.code + (if bar then 8 else 0)) ops) = _
    rw [Scope.ofCode_code, Option.bind_some, hf]
  · show (f (k.code + (if bar then 8 else 0)) [] .lane).isSome = true
    rw [hf]; rfl
theorem gather_keyed (c : Ctl) (bar : Bool) (scope : Scope) (ops : List Opnd) (q : Key) (h : (Instr.gather c bar scope ops).key = some q) : (Instr.gather c bar scope ops).keyed q := by
  cases bar <;> cases scope <;> first | contradiction | (cases h; exact ⟨rfl, rfl, rfl, rfl⟩)
theorem scatter_keyed (c : Ctl) (bar : Bool) (scope : Scope) (ops : List Opnd) (q : Key) (h : (Instr.scatter c bar scope ops).key = some q) : (Instr.scatter c bar scope ops).keyed q := by
  cases bar <;> cases scope <;> first | contradiction | (cases h; exact ⟨rfl, rfl, rfl, rfl⟩)
theorem tmap_keyed (c : Ctl) (sp : Bool) (ops : List Opnd) (q : Key) (h : (Instr.tmap c sp ops).key = some q) : (Instr.tmap c sp ops).keyed q := by
  cases sp <;> first | contradiction | (cases h; exact ⟨rfl, rfl, rfl, rfl⟩)
theorem collGroup_keyed (c : Ctl) (scope : Scope) (ops : List Opnd) (q : Key) (h : (Instr.collGroup c scope ops).key = some q) : (Instr.collGroup c scope ops).keyed q := by
  cases scope <;> first | contradiction | (cases h; exact ⟨rfl, rfl, rfl, rfl⟩)
theorem collRed_keyed (c : Ctl) (scope : Scope) (ops : List Opnd) (q : Key) (h : (Instr.collRed c scope ops).key = some q) : (Instr.collRed c scope ops).keyed q := by
  cases scope <;> first | contradiction | (cases h; exact ⟨rfl, rfl, rfl, rfl⟩)
theorem collBcast_keyed (c : Ctl) (scope : Scope) (ops : List Opnd) (q : Key) (h : (Instr.collBcast c scope ops).key = some q) : (Instr.collBcast c scope ops).keyed q := by
  cases scope <;> first | contradiction | (cases h; exact ⟨rfl, rfl, rfl, rfl⟩)
theorem collBar_keyed (c : Ctl) (scope : Scope) (ops : List Opnd) (q : Key) (h : (Instr.collBar c scope ops).key = some q) : (Instr.collBar c scope ops).keyed q := by
  cases scope <;> first | contradiction | (cases h; exact ⟨rfl, rfl, rfl, rfl⟩)
theorem mma_keyed (c : Ctl) (scope : Scope) (ops : List Opnd) (q : Key) (h : (Instr.mma c scope ops).key = some q) : (Instr.mma c scope ops).keyed q := by
  cases scope <;> first | contradiction | (cases h; exact ⟨rfl, rfl, rfl, rfl⟩)
theorem mmaSp_keyed (c : Ctl) (scope : Scope) (ops : List Opnd) (q : Key) (h : (Instr.mmaSp c scope ops).key = some q) : (Instr.mmaSp c scope ops).keyed q := by
  cases scope <;> first | contradiction | (cases h; exact ⟨rfl, rfl, rfl, rfl⟩)
theorem mmaUf_keyed (c : Ctl) (scope : Scope) (ops : List Opnd) (q : Key) (h : (Instr.mmaUf c scope ops).key = some q) : (Instr.mmaUf c scope ops).keyed q := by
  cases scope <;> first | contradiction | (cases h; exact ⟨rfl, rfl, rfl, rfl⟩)
theorem mmaSpec_keyed (c : Ctl) (scope : Scope) (ops : List Opnd) (q : Key) (h : (Instr.mmaSpec c scope ops).key = some q) : (Instr.mmaSpec c scope ops).keyed q := by
  cases scope <;> first | contradiction | (cases h; exact ⟨rfl, rfl, rfl, rfl⟩)
theorem mmaSpecSp_keyed (c : Ctl) (scope : Scope) (ops : List Opnd) (q : Key) (h : (Instr.mmaSpecSp c scope ops).key = some q) : (Instr.mmaSpecSp c scope ops).keyed q := by
  cases scope <;> first | contradiction | (cases h; exact ⟨rfl, rfl, rfl, rfl⟩)
theorem mmaSpecUf_keyed (c : Ctl) (scope : Scope) (ops : List Opnd) (q : Key) (h : (Instr.mmaSpecUf c scope ops).key = some q) : (Instr.mmaSpecUf c scope ops).keyed q := by
  cases scope <;> first | contradiction | (cases h; exact ⟨rfl, rfl, rfl, rfl⟩)
theorem accLoad_keyed (c : Ctl) (int : Bool) (scope : Scope) (ops : List Opnd) (q : Key) (h : (Instr.accLoad c int scope ops).key = some q) : (Instr.accLoad c int scope ops).keyed q := by
  cases int <;> cases scope <;> first | contradiction | (cases h; exact ⟨rfl, rfl, rfl, rfl⟩)
theorem accStore_keyed (c : Ctl) (scope : Scope) (ops : List Opnd) (q : Key) (h : (Instr.accStore c scope ops).key = some q) : (Instr.accStore c scope ops).keyed q := by
  cases scope <;> first | contradiction | (cases h; exact ⟨rfl, rfl, rfl, rfl⟩)
theorem spbm_keyed (c : Ctl) (scope : Scope) (ops : List Opnd) (q : Key) (h : (Instr.spbm c scope ops).key = some q) : (Instr.spbm c scope ops).keyed q := by
  cases scope <;> first | contradiction | (cases h; exact ⟨rfl, rfl, rfl, rfl⟩)
theorem sealAbsorb_keyed (c : Ctl) (scope : Scope) (ops : List Opnd) (q : Key) (h : (Instr.sealAbsorb c scope ops).key = some q) : (Instr.sealAbsorb c scope ops).keyed q := by
  cases scope <;> first | contradiction | (cases h; exact ⟨rfl, rfl, rfl, rfl⟩)

/-- An instruction's codes lead back to it (R264). -/
theorem Instr.key_keyed (i : Instr) (q : Key) (h : i.key = some q) : i.keyed q := by
  cases i
  case const => exact const_keyed _ _ _ _ h
  case iadd => exact iadd_keyed _ _ _ _ _ h
  case isub => exact isub_keyed _ _ _ _ _ h
  case imul => exact imul_keyed _ _ _ _ _ h
  case imad => exact imad_keyed _ _ _ _ _ h
  case idiv => exact idiv_keyed _ _ _ _ _ h
  case iminmax => exact iminmax_keyed _ _ _ _ _ h
  case logic => exact logic_keyed _ _ _ _ h
  case shift => exact shift_keyed _ _ _ _ h
  case bits => exact bits_keyed _ _ _ _ h
  case clmul => exact clmul_keyed _ _ _ _ _ h
  case icmp => exact icmp_keyed _ _ _ _ _ h
  case plogic => exact plogic_keyed _ _ _ _ h
  case sel => exact sel_keyed _ _ _ _ h
  case addr => exact addr_keyed _ _ _ _ h
  case cvti => exact cvti_keyed _ _ _ _ h
  case phi => exact phi_keyed _ _ _ _ h
  case brm => exact brm_keyed _ _ _ _ h
  case call => exact call_keyed _ _ _ _ h
  case calli => exact calli_keyed _ _ _ _ h
  case fadd => exact fadd_keyed _ _ _ _ _ h
  case fmul => exact fmul_keyed _ _ _ _ h
  case ffma => exact ffma_keyed _ _ _ _ _ h
  case fminmax => exact fminmax_keyed _ _ _ _ _ h
  case fsign => exact fsign_keyed _ _ _ _ _ h
  case fcmp => exact fcmp_keyed _ _ _ _ _ h
  case fclass => exact fclass_keyed _ _ _ _ h
  case fdiv => exact fdiv_keyed _ _ _ _ h
  case fsqrt => exact fsqrt_keyed _ _ _ _ h
  case sfu => exact sfu_keyed _ _ _ _ _ h
  case cvtf => exact cvtf_keyed _ _ _ _ h
  case pack => exact pack_keyed _ _ _ _ h
  case dot => exact dot_keyed _ _ _ _ h
  case shfl => exact shfl_keyed _ _ _ _ h
  case vote => exact vote_keyed _ _ _ _ h
  case scan => exact scan_keyed _ _ _ _ _ h
  case reduce => exact reduce_keyed _ _ _ _ h
  case matchLanes => exact matchLanes_keyed _ _ _ _ h
  case frnd => exact frnd_keyed _ _ _ _ _ h
  case fscale => exact fscale_keyed _ _ _ _ _ h
  case rndbits => exact rndbits_keyed _ _ _ _ h
  case ld => exact ld_keyed _ _ _ _ h
  case st => exact st_keyed _ _ _ _ h
  case lds => exact lds_keyed _ _ _ _ h
  case sts => exact sts_keyed _ _ _ _ h
  case atom => exact atom_keyed _ _ _ _ _ _ h
  case atoms => exact atoms_keyed _ _ _ _ _ _ h
  case fenceAcq => exact fenceAcq_keyed _ _ _ _ h
  case fenceRel => exact fenceRel_keyed _ _ _ _ h
  case fenceAr => exact fenceAr_keyed _ _ _ _ h
  case fenceSc => exact fenceSc_keyed _ _ _ _ h
  case copy => exact copy_keyed _ _ _ _ _ _ h
  case gather => exact gather_keyed _ _ _ _ _ h
  case scatter => exact scatter_keyed _ _ _ _ _ h
  case tmap => exact tmap_keyed _ _ _ _ h
  case collGroup => exact collGroup_keyed _ _ _ _ h
  case collRed => exact collRed_keyed _ _ _ _ h
  case collBcast => exact collBcast_keyed _ _ _ _ h
  case collBar => exact collBar_keyed _ _ _ _ h
  case mma => exact mma_keyed _ _ _ _ h
  case mmaSp => exact mmaSp_keyed _ _ _ _ h
  case mmaUf => exact mmaUf_keyed _ _ _ _ h
  case mmaSpec => exact mmaSpec_keyed _ _ _ _ h
  case mmaSpecSp => exact mmaSpecSp_keyed _ _ _ _ h
  case mmaSpecUf => exact mmaSpecUf_keyed _ _ _ _ h
  case accLoad => exact accLoad_keyed _ _ _ _ _ h
  case accStore => exact accStore_keyed _ _ _ _ h
  case spbm => exact spbm_keyed _ _ _ _ h
  case sealAbsorb => exact sealAbsorb_keyed _ _ _ _ h
  all_goals first | contradiction | (cases h; exact ⟨rfl, rfl, rfl, rfl⟩)


/-! From codes to forms. -/

theorem AddMode.ofCode_some (n : Nat) (k : AddMode) (h : AddMode.ofCode n = some k) : n = k.code := by
  unfold AddMode.ofCode at h; split at h <;> first | contradiction | (cases h; rfl)
theorem MulMode.ofCode_some (n : Nat) (k : MulMode) (h : MulMode.ofCode n = some k) : n = k.code := by
  unfold MulMode.ofCode at h; split at h <;> first | contradiction | (cases h; rfl)
theorem MadMode.ofCode_some (n : Nat) (k : MadMode) (h : MadMode.ofCode n = some k) : n = k.code := by
  unfold MadMode.ofCode at h; split at h <;> first | contradiction | (cases h; rfl)
theorem MinMax.ofCode_some (n : Nat) (k : MinMax) (h : MinMax.ofCode n = some k) : n = k.code := by
  unfold MinMax.ofCode at h; split at h <;> first | contradiction | (cases h; rfl)
theorem LogicKind.ofCode_some (n : Nat) (k : LogicKind) (h : LogicKind.ofCode n = some k) : n = k.code := by
  unfold LogicKind.ofCode at h; split at h <;> first | contradiction | (cases h; rfl)
theorem ShiftKind.ofCode_some (n : Nat) (k : ShiftKind) (h : ShiftKind.ofCode n = some k) : n = k.code := by
  unfold ShiftKind.ofCode at h; split at h <;> first | contradiction | (cases h; rfl)
theorem BitsKind.ofCode_some (n : Nat) (k : BitsKind) (h : BitsKind.ofCode n = some k) : n = k.code := by
  unfold BitsKind.ofCode at h; split at h <;> first | contradiction | (cases h; rfl)
theorem IntCond.ofCode_some (n : Nat) (k : IntCond) (h : IntCond.ofCode n = some k) : n = k.code := by
  unfold IntCond.ofCode at h; split at h <;> first | contradiction | (cases h; rfl)
theorem AddrKind.ofCode_some (n : Nat) (k : AddrKind) (h : AddrKind.ofCode n = some k) : n = k.code := by
  unfold AddrKind.ofCode at h; split at h <;> first | contradiction | (cases h; rfl)
theorem BrmKind.ofCode_some (n : Nat) (k : BrmKind) (h : BrmKind.ofCode n = some k) : n = k.code := by
  unfold BrmKind.ofCode at h; split at h <;> first | contradiction | (cases h; rfl)
theorem FMinMax.ofCode_some (n : Nat) (k : FMinMax) (h : FMinMax.ofCode n = some k) : n = k.code := by
  unfold FMinMax.ofCode at h; split at h <;> first | contradiction | (cases h; rfl)
theorem FSignKind.ofCode_some (n : Nat) (k : FSignKind) (h : FSignKind.ofCode n = some k) : n = k.code := by
  unfold FSignKind.ofCode at h; split at h <;> first | contradiction | (cases h; rfl)
theorem FCond.ofCode_some (n : Nat) (k : FCond) (h : FCond.ofCode n = some k) : n = k.code := by
  unfold FCond.ofCode at h; split at h <;> first | contradiction | (cases h; rfl)
theorem SfuKind.ofCode_some (n : Nat) (k : SfuKind) (h : SfuKind.ofCode n = some k) : n = k.code := by
  unfold SfuKind.ofCode at h; split at h <;> first | contradiction | (cases h; rfl)
theorem Narrow.ofCode_some (n : Nat) (k : Narrow) (h : Narrow.ofCode n = some k) : n = k.code := by
  unfold Narrow.ofCode at h; split at h <;> first | contradiction | (cases h; rfl)
theorem PackKind.ofCode_some (n : Nat) (k : PackKind) (h : PackKind.ofCode n = some k) : n = k.code := by
  unfold PackKind.ofCode at h; split at h <;> first | contradiction | (cases h; rfl)
theorem DotKind.ofCode_some (n : Nat) (k : DotKind) (h : DotKind.ofCode n = some k) : n = k.code := by
  unfold DotKind.ofCode at h; split at h <;> first | contradiction | (cases h; rfl)
theorem ShflKind.ofCode_some (n : Nat) (k : ShflKind) (h : ShflKind.ofCode n = some k) : n = k.code := by
  unfold ShflKind.ofCode at h; split at h <;> first | contradiction | (cases h; rfl)
theorem VoteKind.ofCode_some (n : Nat) (k : VoteKind) (h : VoteKind.ofCode n = some k) : n = k.code := by
  unfold VoteKind.ofCode at h; split at h <;> first | contradiction | (cases h; rfl)
theorem ScanKind.ofCode_some (n : Nat) (k : ScanKind) (h : ScanKind.ofCode n = some k) : n = k.code := by
  unfold ScanKind.ofCode at h; split at h <;> first | contradiction | (cases h; rfl)
theorem MatchKind.ofCode_some (n : Nat) (k : MatchKind) (h : MatchKind.ofCode n = some k) : n = k.code := by
  unfold MatchKind.ofCode at h; split at h <;> first | contradiction | (cases h; rfl)
theorem FrndKind.ofCode_some (n : Nat) (k : FrndKind) (h : FrndKind.ofCode n = some k) : n = k.code := by
  unfold FrndKind.ofCode at h; split at h <;> first | contradiction | (cases h; rfl)
theorem AtomOrder.ofCode_some (n : Nat) (k : AtomOrder) (h : AtomOrder.ofCode n = some k) : n = k.code := by
  unfold AtomOrder.ofCode at h; split at h <;> first | contradiction | (cases h; rfl)
theorem AtomTy.ofCode_some (n : Nat) (k : AtomTy) (h : AtomTy.ofCode n = some k) : n = k.code := by
  unfold AtomTy.ofCode at h; split at h <;> first | contradiction | (cases h; rfl)
theorem CopyKind.ofCode_some (n : Nat) (k : CopyKind) (h : CopyKind.ofCode n = some k) : n = k.code := by
  unfold CopyKind.ofCode at h; split at h <;> first | contradiction | (cases h; rfl)
theorem Scope.ofCode_some (n : Nat) (k : Scope) (h : Scope.ofCode n = some k) : n = k.code := by
  unfold Scope.ofCode at h; split at h <;> first | contradiction | (cases h; rfl)
theorem Ty.ofCode_some (n : Nat) (k : Ty) (h : Ty.ofCode n = some k) : n = k.code := by
  unfold Ty.ofCode at h; split at h <;> first | contradiction | (cases h; rfl)
theorem Ty.ofIdx_some (top n : Nat) (t : Ty) (h : Ty.ofIdx top n = some t) : t.idx top = some n := by
  unfold Ty.ofIdx at h
  split at h
  · split at h <;> first | contradiction | (cases h; simp only [Ty.idx, *, if_true])
  · contradiction
theorem Ty.ofFidx_some (top n : Nat) (t : Ty) (h : Ty.ofFidx top n = some t) : t.fidx top = some n := by
  unfold Ty.ofFidx at h
  split at h
  · split at h <;> first | contradiction | (cases h; simp only [Ty.fidx, *, if_true])
  · contradiction
theorem Ty.ofCodeTo_some (top n : Nat) (t : Ty) (h : Ty.ofCodeTo top n = some t) : t.codeTo top = some n := by
  unfold Ty.ofCodeTo at h
  split at h
  · have e := Ty.ofCode_some n t h
    subst e; simp [Ty.codeTo, *]
  · contradiction
theorem CvtiKind.ofSub_some (n : Nat) (k : CvtiKind) (h : CvtiKind.ofSub n = some k) : k.sub = some n := by
  unfold CvtiKind.ofSub at h
  repeat' split at h
  all_goals first
    | contradiction
    | (obtain ⟨t, ht, rfl⟩ := Option.map_eq_some_iff.mp h
       simp only [CvtiKind.sub, Ty.ofIdx_some _ _ _ ht, Option.map_some, Option.some.injEq]; omega)
    | (cases h; simp only [CvtiKind.sub, Option.some.injEq]; omega)
theorem CvtfKind.ofSub_some (n : Nat) (k : CvtfKind) (h : CvtfKind.ofSub n = some k) : k.sub = some n := by
  by_cases hn : n < 32
  · interval_cases n <;> first | contradiction | (cases h; rfl)
  · simp (disch := omega) only [CvtfKind.ofSub, if_neg, reduceCtorEq] at h
theorem MemForm.ofCodes_some (st : Bool) (n m : Nat) (f : MemForm) (h : MemForm.ofCodes st n m = some f) : f.codes st = some (n, m) := by
  unfold MemForm.ofCodes at h
  repeat' split at h
  all_goals first
    | contradiction
    | (obtain ⟨t, ht, rfl⟩ := Option.map_eq_some_iff.mp h
       have e := Ty.ofCode_some _ _ ht
       subst e; simp_all [MemForm.codes])
    | (cases h; simp_all [MemForm.codes])
    | (obtain ⟨t, ht, h⟩ := Option.bind_eq_some_iff.mp h
       obtain ⟨s, hs, rfl⟩ := Option.map_eq_some_iff.mp h
       have e := Scope.ofCode_some _ _ hs
       subst e
       simp only [MemForm.codes, Ty.ofIdx_some _ _ _ ht, Option.map_some, Option.some.injEq, Prod.mk.injEq, and_true]; omega)

theorem ofKey_00 (n m : Nat) (c : Ctl) (ops : List Opnd) (i : Instr) (h : (if n = 0 ∧ m = 0 then some (.nop c ops) else none : Option Instr) = some i) :
    i.key = some ⟨0x00, n, m⟩ ∧ i.ctl = c ∧ i.ops = ops := by
  (repeat' split at h) <;> first | contradiction | (cases h; refine ⟨?_, rfl, rfl⟩; (try simp_all [Instr.key]) <;> (try split_ifs) <;> (try omega))
theorem ofKey_01 (n m : Nat) (c : Ctl) (ops : List Opnd) (i : Instr) (h : (if m = 0 then ( (Ty.ofCodeTo 10 n).map fun t => .const c t ops
) else none : Option Instr) = some i) :
    i.key = some ⟨0x01, n, m⟩ ∧ i.ctl = c ∧ i.ops = ops := by
  (repeat' split at h) <;> (try contradiction)
  all_goals try simp only [Option.map_eq_some_iff, Option.bind_eq_some_iff, Option.some.injEq, reduceCtorEq, and_false, exists_false, false_and] at h
  all_goals first
    | (obtain ⟨k1, hk1, k2, hk2, rfl⟩ := h; (first | have := Ty.ofCodeTo_some _ _ _ hk1); (first | have := Ty.ofCodeTo_some _ _ _ hk2))
    | (obtain ⟨k1, hk1, rfl⟩ := h; (first | have := Ty.ofCodeTo_some _ _ _ hk1))
    | cases h
  all_goals (refine ⟨?_, rfl, rfl⟩; (try simp_all [Instr.key]) <;> (try split_ifs) <;> (try omega))
theorem ofKey_02 (n m : Nat) (c : Ctl) (ops : List Opnd) (i : Instr) (h : (if m = 0 then ( (AddMode.ofCode (n / 8)).bind fun m => (Ty.ofIdx m.top (n % 8)).map fun t => .iadd c m t ops
) else none : Option Instr) = some i) :
    i.key = some ⟨0x02, n, m⟩ ∧ i.ctl = c ∧ i.ops = ops := by
  (repeat' split at h) <;> (try contradiction)
  all_goals try simp only [Option.map_eq_some_iff, Option.bind_eq_some_iff, Option.some.injEq, reduceCtorEq, and_false, exists_false, false_and] at h
  all_goals first
    | (obtain ⟨k1, hk1, k2, hk2, rfl⟩ := h; (first | have := AddMode.ofCode_some _ _ hk1 | have := Ty.ofIdx_some _ _ _ hk1); (first | have := AddMode.ofCode_some _ _ hk2 | have := Ty.ofIdx_some _ _ _ hk2))
    | (obtain ⟨k1, hk1, rfl⟩ := h; (first | have := AddMode.ofCode_some _ _ hk1 | have := Ty.ofIdx_some _ _ _ hk1))
    | cases h
  all_goals (refine ⟨?_, rfl, rfl⟩; (try simp_all [Instr.key]) <;> (try split_ifs) <;> (try omega))
theorem ofKey_03 (n m : Nat) (c : Ctl) (ops : List Opnd) (i : Instr) (h : (if m = 0 then ( (AddMode.ofCode (n / 8)).bind fun m => (Ty.ofIdx m.top (n % 8)).map fun t => .isub c m t ops
) else none : Option Instr) = some i) :
    i.key = some ⟨0x03, n, m⟩ ∧ i.ctl = c ∧ i.ops = ops := by
  (repeat' split at h) <;> (try contradiction)
  all_goals try simp only [Option.map_eq_some_iff, Option.bind_eq_some_iff, Option.some.injEq, reduceCtorEq, and_false, exists_false, false_and] at h
  all_goals first
    | (obtain ⟨k1, hk1, k2, hk2, rfl⟩ := h; (first | have := AddMode.ofCode_some _ _ hk1 | have := Ty.ofIdx_some _ _ _ hk1); (first | have := AddMode.ofCode_some _ _ hk2 | have := Ty.ofIdx_some _ _ _ hk2))
    | (obtain ⟨k1, hk1, rfl⟩ := h; (first | have := AddMode.ofCode_some _ _ hk1 | have := Ty.ofIdx_some _ _ _ hk1))
    | cases h
  all_goals (refine ⟨?_, rfl, rfl⟩; (try simp_all [Instr.key]) <;> (try split_ifs) <;> (try omega))
theorem ofKey_04 (n m : Nat) (c : Ctl) (ops : List Opnd) (i : Instr) (h : (if m = 0 then ( (MulMode.ofCode (n / 8)).bind fun m => (Ty.ofIdx m.top (n % 8)).map fun t => .imul c m t ops
) else none : Option Instr) = some i) :
    i.key = some ⟨0x04, n, m⟩ ∧ i.ctl = c ∧ i.ops = ops := by
  (repeat' split at h) <;> (try contradiction)
  all_goals try simp only [Option.map_eq_some_iff, Option.bind_eq_some_iff, Option.some.injEq, reduceCtorEq, and_false, exists_false, false_and] at h
  all_goals first
    | (obtain ⟨k1, hk1, k2, hk2, rfl⟩ := h; (first | have := MulMode.ofCode_some _ _ hk1 | have := Ty.ofIdx_some _ _ _ hk1); (first | have := MulMode.ofCode_some _ _ hk2 | have := Ty.ofIdx_some _ _ _ hk2))
    | (obtain ⟨k1, hk1, rfl⟩ := h; (first | have := MulMode.ofCode_some _ _ hk1 | have := Ty.ofIdx_some _ _ _ hk1))
    | cases h
  all_goals (refine ⟨?_, rfl, rfl⟩; (try simp_all [Instr.key]) <;> (try split_ifs) <;> (try omega))
theorem ofKey_05 (n m : Nat) (c : Ctl) (ops : List Opnd) (i : Instr) (h : (if m = 0 then ( (MadMode.ofCode (n / 8)).bind fun m => (Ty.ofIdx 4 (n % 8)).map fun t => .imad c m t ops
) else none : Option Instr) = some i) :
    i.key = some ⟨0x05, n, m⟩ ∧ i.ctl = c ∧ i.ops = ops := by
  (repeat' split at h) <;> (try contradiction)
  all_goals try simp only [Option.map_eq_some_iff, Option.bind_eq_some_iff, Option.some.injEq, reduceCtorEq, and_false, exists_false, false_and] at h
  all_goals first
    | (obtain ⟨k1, hk1, k2, hk2, rfl⟩ := h; (first | have := MadMode.ofCode_some _ _ hk1 | have := Ty.ofIdx_some _ _ _ hk1); (first | have := MadMode.ofCode_some _ _ hk2 | have := Ty.ofIdx_some _ _ _ hk2))
    | (obtain ⟨k1, hk1, rfl⟩ := h; (first | have := MadMode.ofCode_some _ _ hk1 | have := Ty.ofIdx_some _ _ _ hk1))
    | cases h
  all_goals (refine ⟨?_, rfl, rfl⟩; (try simp_all [Instr.key]) <;> (try split_ifs) <;> (try omega))
theorem ofKey_06 (n m : Nat) (c : Ctl) (ops : List Opnd) (i : Instr) (h : (if m = 0 then (
      if n < 8 then (Ty.ofIdx 4 n).map fun t => .idiv c true t ops
      else if n < 16 then (Ty.ofIdx 4 (n - 8)).map fun t => .idiv c false t ops
      else none
) else none : Option Instr) = some i) :
    i.key = some ⟨0x06, n, m⟩ ∧ i.ctl = c ∧ i.ops = ops := by
  (repeat' split at h) <;> (try contradiction)
  all_goals try simp only [Option.map_eq_some_iff, Option.bind_eq_some_iff, Option.some.injEq, reduceCtorEq, and_false, exists_false, false_and] at h
  all_goals first
    | (obtain ⟨k1, hk1, k2, hk2, rfl⟩ := h; (first | have := Ty.ofIdx_some _ _ _ hk1); (first | have := Ty.ofIdx_some _ _ _ hk2))
    | (obtain ⟨k1, hk1, rfl⟩ := h; (first | have := Ty.ofIdx_some _ _ _ hk1))
    | cases h
  all_goals (refine ⟨?_, rfl, rfl⟩; (try simp_all [Instr.key]) <;> (try split_ifs) <;> (try omega))
theorem ofKey_07 (n m : Nat) (c : Ctl) (ops : List Opnd) (i : Instr) (h : (if m = 0 then ( (MinMax.ofCode (n / 8)).bind fun k => (Ty.ofIdx 6 (n % 8)).map fun t => .iminmax c k t ops
) else none : Option Instr) = some i) :
    i.key = some ⟨0x07, n, m⟩ ∧ i.ctl = c ∧ i.ops = ops := by
  (repeat' split at h) <;> (try contradiction)
  all_goals try simp only [Option.map_eq_some_iff, Option.bind_eq_some_iff, Option.some.injEq, reduceCtorEq, and_false, exists_false, false_and] at h
  all_goals first
    | (obtain ⟨k1, hk1, k2, hk2, rfl⟩ := h; (first | have := MinMax.ofCode_some _ _ hk1 | have := Ty.ofIdx_some _ _ _ hk1); (first | have := MinMax.ofCode_some _ _ hk2 | have := Ty.ofIdx_some _ _ _ hk2))
    | (obtain ⟨k1, hk1, rfl⟩ := h; (first | have := MinMax.ofCode_some _ _ hk1 | have := Ty.ofIdx_some _ _ _ hk1))
    | cases h
  all_goals (refine ⟨?_, rfl, rfl⟩; (try simp_all [Instr.key]) <;> (try split_ifs) <;> (try omega))
theorem ofKey_08 (n m : Nat) (c : Ctl) (ops : List Opnd) (i : Instr) (h : (if m = 0 then ( (LogicKind.ofCode n).map fun k => .logic c k ops
) else none : Option Instr) = some i) :
    i.key = some ⟨0x08, n, m⟩ ∧ i.ctl = c ∧ i.ops = ops := by
  (repeat' split at h) <;> (try contradiction)
  all_goals try simp only [Option.map_eq_some_iff, Option.bind_eq_some_iff, Option.some.injEq, reduceCtorEq, and_false, exists_false, false_and] at h
  all_goals first
    | (obtain ⟨k1, hk1, k2, hk2, rfl⟩ := h; (first | have := LogicKind.ofCode_some _ _ hk1); (first | have := LogicKind.ofCode_some _ _ hk2))
    | (obtain ⟨k1, hk1, rfl⟩ := h; (first | have := LogicKind.ofCode_some _ _ hk1))
    | cases h
  all_goals (refine ⟨?_, rfl, rfl⟩; (try simp_all [Instr.key]) <;> (try split_ifs) <;> (try omega))
theorem ofKey_09 (n m : Nat) (c : Ctl) (ops : List Opnd) (i : Instr) (h : (if m = 0 then ( (ShiftKind.ofCode n).map fun k => .shift c k ops
) else none : Option Instr) = some i) :
    i.key = some ⟨0x09, n, m⟩ ∧ i.ctl = c ∧ i.ops = ops := by
  (repeat' split at h) <;> (try contradiction)
  all_goals try simp only [Option.map_eq_some_iff, Option.bind_eq_some_iff, Option.some.injEq, reduceCtorEq, and_false, exists_false, false_and] at h
  all_goals first
    | (obtain ⟨k1, hk1, k2, hk2, rfl⟩ := h; (first | have := ShiftKind.ofCode_some _ _ hk1); (first | have := ShiftKind.ofCode_some _ _ hk2))
    | (obtain ⟨k1, hk1, rfl⟩ := h; (first | have := ShiftKind.ofCode_some _ _ hk1))
    | cases h
  all_goals (refine ⟨?_, rfl, rfl⟩; (try simp_all [Instr.key]) <;> (try split_ifs) <;> (try omega))
theorem ofKey_0A (n m : Nat) (c : Ctl) (ops : List Opnd) (i : Instr) (h : (if m = 0 then ( (BitsKind.ofCode n).map fun k => .bits c k ops
) else none : Option Instr) = some i) :
    i.key = some ⟨0x0A, n, m⟩ ∧ i.ctl = c ∧ i.ops = ops := by
  (repeat' split at h) <;> (try contradiction)
  all_goals try simp only [Option.map_eq_some_iff, Option.bind_eq_some_iff, Option.some.injEq, reduceCtorEq, and_false, exists_false, false_and] at h
  all_goals first
    | (obtain ⟨k1, hk1, k2, hk2, rfl⟩ := h; (first | have := BitsKind.ofCode_some _ _ hk1); (first | have := BitsKind.ofCode_some _ _ hk2))
    | (obtain ⟨k1, hk1, rfl⟩ := h; (first | have := BitsKind.ofCode_some _ _ hk1))
    | cases h
  all_goals (refine ⟨?_, rfl, rfl⟩; (try simp_all [Instr.key]) <;> (try split_ifs) <;> (try omega))
theorem ofKey_0B (n m : Nat) (c : Ctl) (ops : List Opnd) (i : Instr) (h : (if m = 0 then ( if n < 4 then some (.clmul c (n % 2 == 1) (n / 2 == 1) ops) else none
) else none : Option Instr) = some i) :
    i.key = some ⟨0x0B, n, m⟩ ∧ i.ctl = c ∧ i.ops = ops := by
  (repeat' split at h) <;> first | contradiction | (cases h; refine ⟨?_, rfl, rfl⟩; (try simp_all [Instr.key]) <;> (try split_ifs) <;> (try omega))
theorem ofKey_0C (n m : Nat) (c : Ctl) (ops : List Opnd) (i : Instr) (h : ((IntCond.ofCode m).bind fun k =>
      if n = 0 then if m ≤ 1 then some (.icmp c k .b1 ops) else none
      else (Ty.ofIdx 4 n).map fun t => .icmp c k t ops : Option Instr) = some i) :
    i.key = some ⟨0x0C, n, m⟩ ∧ i.ctl = c ∧ i.ops = ops := by
  (repeat' split at h) <;> (try contradiction)
  all_goals try simp only [Option.map_eq_some_iff, Option.bind_eq_some_iff, Option.some.injEq, reduceCtorEq, and_false, exists_false, false_and] at h
  all_goals first
    | (obtain ⟨k1, hk1, k2, hk2, rfl⟩ := h; (first | have := IntCond.ofCode_some _ _ hk1 | have := Ty.ofIdx_some _ _ _ hk1); (first | have := IntCond.ofCode_some _ _ hk2 | have := Ty.ofIdx_some _ _ _ hk2))
    | (obtain ⟨k1, hk1, rfl⟩ := h; (first | have := IntCond.ofCode_some _ _ hk1 | have := Ty.ofIdx_some _ _ _ hk1))
    | cases h
  all_goals (refine ⟨?_, rfl, rfl⟩; (try simp_all [Instr.key]) <;> (try (cases k2 <;> simp_all [Ty.idx])))
theorem ofKey_0D (n m : Nat) (c : Ctl) (ops : List Opnd) (i : Instr) (h : (if m = 0 then ( (LogicKind.ofCode n).map fun k => .plogic c k ops
) else none : Option Instr) = some i) :
    i.key = some ⟨0x0D, n, m⟩ ∧ i.ctl = c ∧ i.ops = ops := by
  (repeat' split at h) <;> (try contradiction)
  all_goals try simp only [Option.map_eq_some_iff, Option.bind_eq_some_iff, Option.some.injEq, reduceCtorEq, and_false, exists_false, false_and] at h
  all_goals first
    | (obtain ⟨k1, hk1, k2, hk2, rfl⟩ := h; (first | have := LogicKind.ofCode_some _ _ hk1); (first | have := LogicKind.ofCode_some _ _ hk2))
    | (obtain ⟨k1, hk1, rfl⟩ := h; (first | have := LogicKind.ofCode_some _ _ hk1))
    | cases h
  all_goals (refine ⟨?_, rfl, rfl⟩; (try simp_all [Instr.key]) <;> (try split_ifs) <;> (try omega))
theorem ofKey_0E (n m : Nat) (c : Ctl) (ops : List Opnd) (i : Instr) (h : (if m = 0 then ( (Ty.ofCodeTo 13 n).map fun t => .sel c t ops
) else none : Option Instr) = some i) :
    i.key = some ⟨0x0E, n, m⟩ ∧ i.ctl = c ∧ i.ops = ops := by
  (repeat' split at h) <;> (try contradiction)
  all_goals try simp only [Option.map_eq_some_iff, Option.bind_eq_some_iff, Option.some.injEq, reduceCtorEq, and_false, exists_false, false_and] at h
  all_goals first
    | (obtain ⟨k1, hk1, k2, hk2, rfl⟩ := h; (first | have := Ty.ofCodeTo_some _ _ _ hk1); (first | have := Ty.ofCodeTo_some _ _ _ hk2))
    | (obtain ⟨k1, hk1, rfl⟩ := h; (first | have := Ty.ofCodeTo_some _ _ _ hk1))
    | cases h
  all_goals (refine ⟨?_, rfl, rfl⟩; (try simp_all [Instr.key]) <;> (try split_ifs) <;> (try omega))
theorem ofKey_0F (n m : Nat) (c : Ctl) (ops : List Opnd) (i : Instr) (h : (if m = 0 then ( (AddrKind.ofCode n).map fun k => .addr c k ops
) else none : Option Instr) = some i) :
    i.key = some ⟨0x0F, n, m⟩ ∧ i.ctl = c ∧ i.ops = ops := by
  (repeat' split at h) <;> (try contradiction)
  all_goals try simp only [Option.map_eq_some_iff, Option.bind_eq_some_iff, Option.some.injEq, reduceCtorEq, and_false, exists_false, false_and] at h
  all_goals first
    | (obtain ⟨k1, hk1, k2, hk2, rfl⟩ := h; (first | have := AddrKind.ofCode_some _ _ hk1); (first | have := AddrKind.ofCode_some _ _ hk2))
    | (obtain ⟨k1, hk1, rfl⟩ := h; (first | have := AddrKind.ofCode_some _ _ hk1))
    | cases h
  all_goals (refine ⟨?_, rfl, rfl⟩; (try simp_all [Instr.key]) <;> (try split_ifs) <;> (try omega))
theorem ofKey_10 (n m : Nat) (c : Ctl) (ops : List Opnd) (i : Instr) (h : (if m = 0 then ( (CvtiKind.ofSub n).map fun k => .cvti c k ops
) else none : Option Instr) = some i) :
    i.key = some ⟨0x10, n, m⟩ ∧ i.ctl = c ∧ i.ops = ops := by
  (repeat' split at h) <;> (try contradiction)
  all_goals try simp only [Option.map_eq_some_iff, Option.bind_eq_some_iff, Option.some.injEq, reduceCtorEq, and_false, exists_false, false_and] at h
  all_goals first
    | (obtain ⟨k1, hk1, k2, hk2, rfl⟩ := h; (first | have := CvtiKind.ofSub_some _ _ hk1); (first | have := CvtiKind.ofSub_some _ _ hk2))
    | (obtain ⟨k1, hk1, rfl⟩ := h; (first | have := CvtiKind.ofSub_some _ _ hk1))
    | cases h
  all_goals (refine ⟨?_, rfl, rfl⟩; (try simp_all [Instr.key]) <;> (try split_ifs) <;> (try omega))
theorem ofKey_11 (n m : Nat) (c : Ctl) (ops : List Opnd) (i : Instr) (h : (if m = 0 then ( (Ty.ofCode n).map fun t => .phi c t ops
) else none : Option Instr) = some i) :
    i.key = some ⟨0x11, n, m⟩ ∧ i.ctl = c ∧ i.ops = ops := by
  (repeat' split at h) <;> (try contradiction)
  all_goals try simp only [Option.map_eq_some_iff, Option.bind_eq_some_iff, Option.some.injEq, reduceCtorEq, and_false, exists_false, false_and] at h
  all_goals first
    | (obtain ⟨k1, hk1, k2, hk2, rfl⟩ := h; (first | have := Ty.ofCode_some _ _ hk1); (first | have := Ty.ofCode_some _ _ hk2))
    | (obtain ⟨k1, hk1, rfl⟩ := h; (first | have := Ty.ofCode_some _ _ hk1))
    | cases h
  all_goals (refine ⟨?_, rfl, rfl⟩; (try simp_all [Instr.key]) <;> (try split_ifs) <;> (try omega))
theorem ofKey_12 (n m : Nat) (c : Ctl) (ops : List Opnd) (i : Instr) (h : (if n = 0 ∧ m = 0 then some (.br c ops) else none : Option Instr) = some i) :
    i.key = some ⟨0x12, n, m⟩ ∧ i.ctl = c ∧ i.ops = ops := by
  (repeat' split at h) <;> first | contradiction | (cases h; refine ⟨?_, rfl, rfl⟩; (try simp_all [Instr.key]) <;> (try split_ifs) <;> (try omega))
theorem ofKey_13 (n m : Nat) (c : Ctl) (ops : List Opnd) (i : Instr) (h : (if n = 0 ∧ m = 0 then some (.brc c ops) else none : Option Instr) = some i) :
    i.key = some ⟨0x13, n, m⟩ ∧ i.ctl = c ∧ i.ops = ops := by
  (repeat' split at h) <;> first | contradiction | (cases h; refine ⟨?_, rfl, rfl⟩; (try simp_all [Instr.key]) <;> (try split_ifs) <;> (try omega))
theorem ofKey_14 (n m : Nat) (c : Ctl) (ops : List Opnd) (i : Instr) (h : (if m = 0 then ( (BrmKind.ofCode n).map fun k => .brm c k ops
) else none : Option Instr) = some i) :
    i.key = some ⟨0x14, n, m⟩ ∧ i.ctl = c ∧ i.ops = ops := by
  (repeat' split at h) <;> (try contradiction)
  all_goals try simp only [Option.map_eq_some_iff, Option.bind_eq_some_iff, Option.some.injEq, reduceCtorEq, and_false, exists_false, false_and] at h
  all_goals first
    | (obtain ⟨k1, hk1, k2, hk2, rfl⟩ := h; (first | have := BrmKind.ofCode_some _ _ hk1); (first | have := BrmKind.ofCode_some _ _ hk2))
    | (obtain ⟨k1, hk1, rfl⟩ := h; (first | have := BrmKind.ofCode_some _ _ hk1))
    | cases h
  all_goals (refine ⟨?_, rfl, rfl⟩; (try simp_all [Instr.key]) <;> (try split_ifs) <;> (try omega))
theorem ofKey_15 (n m : Nat) (c : Ctl) (ops : List Opnd) (i : Instr) (h : (if n = 0 ∧ m = 0 then some (.join c ops) else none : Option Instr) = some i) :
    i.key = some ⟨0x15, n, m⟩ ∧ i.ctl = c ∧ i.ops = ops := by
  (repeat' split at h) <;> first | contradiction | (cases h; refine ⟨?_, rfl, rfl⟩; (try simp_all [Instr.key]) <;> (try split_ifs) <;> (try omega))
theorem ofKey_16 (n m : Nat) (c : Ctl) (ops : List Opnd) (i : Instr) (h : (if m = 0 then ( (Ty.ofCodeTo 10 n).map fun t => .call c t ops
) else none : Option Instr) = some i) :
    i.key = some ⟨0x16, n, m⟩ ∧ i.ctl = c ∧ i.ops = ops := by
  (repeat' split at h) <;> (try contradiction)
  all_goals try simp only [Option.map_eq_some_iff, Option.bind_eq_some_iff, Option.some.injEq, reduceCtorEq, and_false, exists_false, false_and] at h
  all_goals first
    | (obtain ⟨k1, hk1, k2, hk2, rfl⟩ := h; (first | have := Ty.ofCodeTo_some _ _ _ hk1); (first | have := Ty.ofCodeTo_some _ _ _ hk2))
    | (obtain ⟨k1, hk1, rfl⟩ := h; (first | have := Ty.ofCodeTo_some _ _ _ hk1))
    | cases h
  all_goals (refine ⟨?_, rfl, rfl⟩; (try simp_all [Instr.key]) <;> (try split_ifs) <;> (try omega))
theorem ofKey_17 (n m : Nat) (c : Ctl) (ops : List Opnd) (i : Instr) (h : (if m = 0 then ( (Ty.ofCodeTo 10 n).map fun t => .calli c t ops
) else none : Option Instr) = some i) :
    i.key = some ⟨0x17, n, m⟩ ∧ i.ctl = c ∧ i.ops = ops := by
  (repeat' split at h) <;> (try contradiction)
  all_goals try simp only [Option.map_eq_some_iff, Option.bind_eq_some_iff, Option.some.injEq, reduceCtorEq, and_false, exists_false, false_and] at h
  all_goals first
    | (obtain ⟨k1, hk1, k2, hk2, rfl⟩ := h; (first | have := Ty.ofCodeTo_some _ _ _ hk1); (first | have := Ty.ofCodeTo_some _ _ _ hk2))
    | (obtain ⟨k1, hk1, rfl⟩ := h; (first | have := Ty.ofCodeTo_some _ _ _ hk1))
    | cases h
  all_goals (refine ⟨?_, rfl, rfl⟩; (try simp_all [Instr.key]) <;> (try split_ifs) <;> (try omega))
theorem ofKey_18 (n m : Nat) (c : Ctl) (ops : List Opnd) (i : Instr) (h : (if n = 0 ∧ m = 0 then some (.ret c ops) else none : Option Instr) = some i) :
    i.key = some ⟨0x18, n, m⟩ ∧ i.ctl = c ∧ i.ops = ops := by
  (repeat' split at h) <;> first | contradiction | (cases h; refine ⟨?_, rfl, rfl⟩; (try simp_all [Instr.key]) <;> (try split_ifs) <;> (try omega))
theorem ofKey_19 (n m : Nat) (c : Ctl) (ops : List Opnd) (i : Instr) (h : (if n = 0 ∧ m = 0 then some (.exit c ops) else none : Option Instr) = some i) :
    i.key = some ⟨0x19, n, m⟩ ∧ i.ctl = c ∧ i.ops = ops := by
  (repeat' split at h) <;> first | contradiction | (cases h; refine ⟨?_, rfl, rfl⟩; (try simp_all [Instr.key]) <;> (try split_ifs) <;> (try omega))
theorem ofKey_1A (n m : Nat) (c : Ctl) (ops : List Opnd) (i : Instr) (h : (if m = 0 then (
      match n with
      | 0 => some (.setmCtl c ops) | 1 => some (.setmFlags c ops) | 2 => some (.setmEn c ops)
      | 3 => some (.setmStep c ops) | 4 => some (.setmStepadd c ops) | 5 => some (.setmGuard c ops) | _ => none
) else none : Option Instr) = some i) :
    i.key = some ⟨0x1A, n, m⟩ ∧ i.ctl = c ∧ i.ops = ops := by
  (repeat' split at h) <;> first | contradiction | (cases h; refine ⟨?_, rfl, rfl⟩; (try simp_all [Instr.key]) <;> (try split_ifs) <;> (try omega))
theorem ofKey_1B (n m : Nat) (c : Ctl) (ops : List Opnd) (i : Instr) (h : (if m = 0 then (
      match n with
      | 0 => some (.getmCtl c ops) | 1 => some (.getmStep c ops) | 2 => some (.getmGuard c ops)
      | 3 => some (.getmGmask c ops) | _ => none
) else none : Option Instr) = some i) :
    i.key = some ⟨0x1B, n, m⟩ ∧ i.ctl = c ∧ i.ops = ops := by
  (repeat' split at h) <;> first | contradiction | (cases h; refine ⟨?_, rfl, rfl⟩; (try simp_all [Instr.key]) <;> (try split_ifs) <;> (try omega))
theorem ofKey_1C (n m : Nat) (c : Ctl) (ops : List Opnd) (i : Instr) (h : (if m = 0 then ( match n with | 0 => some (.rdcycI64 c ops) | 1 => some (.rdcycI32 c ops) | _ => none
) else none : Option Instr) = some i) :
    i.key = some ⟨0x1C, n, m⟩ ∧ i.ctl = c ∧ i.ops = ops := by
  (repeat' split at h) <;> first | contradiction | (cases h; refine ⟨?_, rfl, rfl⟩; (try simp_all [Instr.key]) <;> (try split_ifs) <;> (try omega))
theorem ofKey_1D (n m : Nat) (c : Ctl) (ops : List Opnd) (i : Instr) (h : (if n = 0 ∧ m = 0 then some (.unreach c ops) else none : Option Instr) = some i) :
    i.key = some ⟨0x1D, n, m⟩ ∧ i.ctl = c ∧ i.ops = ops := by
  (repeat' split at h) <;> first | contradiction | (cases h; refine ⟨?_, rfl, rfl⟩; (try simp_all [Instr.key]) <;> (try split_ifs) <;> (try omega))
theorem ofKey_20 (n m : Nat) (c : Ctl) (ops : List Opnd) (i : Instr) (h : (if m = 0 then (
      if n < 9 then (if 5 ≤ n then Ty.ofFidx 4 (n - 5) else none).map fun t => .fadd c false t ops
      else (if 13 ≤ n then Ty.ofFidx 4 (n - 13) else none).map fun t => .fadd c true t ops
) else none : Option Instr) = some i) :
    i.key = some ⟨0x20, n, m⟩ ∧ i.ctl = c ∧ i.ops = ops := by
  (repeat' split at h) <;> (try contradiction)
  all_goals try simp only [Option.map_eq_some_iff, Option.bind_eq_some_iff, Option.some.injEq, reduceCtorEq, and_false, exists_false, false_and] at h
  all_goals first
    | (obtain ⟨k1, hk1, k2, hk2, rfl⟩ := h; (first | have := Ty.ofFidx_some _ _ _ hk1); (first | have := Ty.ofFidx_some _ _ _ hk2))
    | (obtain ⟨k1, hk1, rfl⟩ := h; (first | have := Ty.ofFidx_some _ _ _ hk1))
    | cases h
  all_goals (refine ⟨?_, rfl, rfl⟩; (try simp_all [Instr.key]) <;> (try split_ifs) <;> (try omega))
theorem ofKey_21 (n m : Nat) (c : Ctl) (ops : List Opnd) (i : Instr) (h : (if m = 0 then ( (if 5 ≤ n then Ty.ofFidx 4 (n - 5) else none).map fun t => .fmul c t ops
) else none : Option Instr) = some i) :
    i.key = some ⟨0x21, n, m⟩ ∧ i.ctl = c ∧ i.ops = ops := by
  (repeat' split at h) <;> (try contradiction)
  all_goals try simp only [Option.map_eq_some_iff, Option.bind_eq_some_iff, Option.some.injEq, reduceCtorEq, and_false, exists_false, false_and] at h
  all_goals first
    | (obtain ⟨k1, hk1, k2, hk2, rfl⟩ := h; (first | have := Ty.ofFidx_some _ _ _ hk1); (first | have := Ty.ofFidx_some _ _ _ hk2))
    | (obtain ⟨k1, hk1, rfl⟩ := h; (first | have := Ty.ofFidx_some _ _ _ hk1))
    | cases h
  all_goals (refine ⟨?_, rfl, rfl⟩; (try simp_all [Instr.key]) <;> (try split_ifs) <;> (try omega))
theorem ofKey_22 (n m : Nat) (c : Ctl) (ops : List Opnd) (i : Instr) (h : (if m = 0 then (
      if n < 9 then (if 5 ≤ n then Ty.ofFidx 4 (n - 5) else none).map fun t => .ffma c false t ops
      else (if 13 ≤ n then Ty.ofFidx 4 (n - 13) else none).map fun t => .ffma c true t ops
) else none : Option Instr) = some i) :
    i.key = some ⟨0x22, n, m⟩ ∧ i.ctl = c ∧ i.ops = ops := by
  (repeat' split at h) <;> (try contradiction)
  all_goals try simp only [Option.map_eq_some_iff, Option.bind_eq_some_iff, Option.some.injEq, reduceCtorEq, and_false, exists_false, false_and] at h
  all_goals first
    | (obtain ⟨k1, hk1, k2, hk2, rfl⟩ := h; (first | have := Ty.ofFidx_some _ _ _ hk1); (first | have := Ty.ofFidx_some _ _ _ hk2))
    | (obtain ⟨k1, hk1, rfl⟩ := h; (first | have := Ty.ofFidx_some _ _ _ hk1))
    | cases h
  all_goals (refine ⟨?_, rfl, rfl⟩; (try simp_all [Instr.key]) <;> (try split_ifs) <;> (try omega))
theorem ofKey_23 (n m : Nat) (c : Ctl) (ops : List Opnd) (i : Instr) (h : (if m = 0 then ( (FMinMax.ofCode (n / 4)).bind fun k => (Ty.ofFidx 4 (n % 4)).map fun t => .fminmax c k t ops
) else none : Option Instr) = some i) :
    i.key = some ⟨0x23, n, m⟩ ∧ i.ctl = c ∧ i.ops = ops := by
  (repeat' split at h) <;> (try contradiction)
  all_goals try simp only [Option.map_eq_some_iff, Option.bind_eq_some_iff, Option.some.injEq, reduceCtorEq, and_false, exists_false, false_and] at h
  all_goals first
    | (obtain ⟨k1, hk1, k2, hk2, rfl⟩ := h; (first | have := FMinMax.ofCode_some _ _ hk1 | have := Ty.ofFidx_some _ _ _ hk1); (first | have := FMinMax.ofCode_some _ _ hk2 | have := Ty.ofFidx_some _ _ _ hk2))
    | (obtain ⟨k1, hk1, rfl⟩ := h; (first | have := FMinMax.ofCode_some _ _ hk1 | have := Ty.ofFidx_some _ _ _ hk1))
    | cases h
  all_goals (refine ⟨?_, rfl, rfl⟩; (try simp_all [Instr.key]) <;> (try split_ifs) <;> (try omega))
theorem ofKey_24 (n m : Nat) (c : Ctl) (ops : List Opnd) (i : Instr) (h : (if m = 0 then ( (FSignKind.ofCode (n / 4)).bind fun k => (Ty.ofFidx 4 (n % 4)).map fun t => .fsign c k t ops
) else none : Option Instr) = some i) :
    i.key = some ⟨0x24, n, m⟩ ∧ i.ctl = c ∧ i.ops = ops := by
  (repeat' split at h) <;> (try contradiction)
  all_goals try simp only [Option.map_eq_some_iff, Option.bind_eq_some_iff, Option.some.injEq, reduceCtorEq, and_false, exists_false, false_and] at h
  all_goals first
    | (obtain ⟨k1, hk1, k2, hk2, rfl⟩ := h; (first | have := FSignKind.ofCode_some _ _ hk1 | have := Ty.ofFidx_some _ _ _ hk1); (first | have := FSignKind.ofCode_some _ _ hk2 | have := Ty.ofFidx_some _ _ _ hk2))
    | (obtain ⟨k1, hk1, rfl⟩ := h; (first | have := FSignKind.ofCode_some _ _ hk1 | have := Ty.ofFidx_some _ _ _ hk1))
    | cases h
  all_goals (refine ⟨?_, rfl, rfl⟩; (try simp_all [Instr.key]) <;> (try split_ifs) <;> (try omega))
theorem ofKey_25 (n m : Nat) (c : Ctl) (ops : List Opnd) (i : Instr) (h : ((FCond.ofCode m).bind fun k =>
      (if 5 ≤ n then Ty.ofFidx 4 (n - 5) else none).map fun t => .fcmp c k t ops : Option Instr) = some i) :
    i.key = some ⟨0x25, n, m⟩ ∧ i.ctl = c ∧ i.ops = ops := by
  (repeat' split at h) <;> (try contradiction)
  all_goals try simp only [Option.map_eq_some_iff, Option.bind_eq_some_iff, Option.some.injEq, reduceCtorEq, and_false, exists_false, false_and] at h
  all_goals first
    | (obtain ⟨k1, hk1, k2, hk2, rfl⟩ := h; (first | have := FCond.ofCode_some _ _ hk1 | have := Ty.ofFidx_some _ _ _ hk1); (first | have := FCond.ofCode_some _ _ hk2 | have := Ty.ofFidx_some _ _ _ hk2))
    | (obtain ⟨k1, hk1, rfl⟩ := h; (first | have := FCond.ofCode_some _ _ hk1 | have := Ty.ofFidx_some _ _ _ hk1))
    | cases h
  all_goals (refine ⟨?_, rfl, rfl⟩; (try simp_all [Instr.key]) <;> (try split_ifs) <;> (try omega))
theorem ofKey_26 (n m : Nat) (c : Ctl) (ops : List Opnd) (i : Instr) (h : (if m = 0 then ( (if 5 ≤ n then Ty.ofFidx 4 (n - 5) else none).map fun t => .fclass c t ops
) else none : Option Instr) = some i) :
    i.key = some ⟨0x26, n, m⟩ ∧ i.ctl = c ∧ i.ops = ops := by
  (repeat' split at h) <;> (try contradiction)
  all_goals try simp only [Option.map_eq_some_iff, Option.bind_eq_some_iff, Option.some.injEq, reduceCtorEq, and_false, exists_false, false_and] at h
  all_goals first
    | (obtain ⟨k1, hk1, k2, hk2, rfl⟩ := h; (first | have := Ty.ofFidx_some _ _ _ hk1); (first | have := Ty.ofFidx_some _ _ _ hk2))
    | (obtain ⟨k1, hk1, rfl⟩ := h; (first | have := Ty.ofFidx_some _ _ _ hk1))
    | cases h
  all_goals (refine ⟨?_, rfl, rfl⟩; (try simp_all [Instr.key]) <;> (try split_ifs) <;> (try omega))
theorem ofKey_27 (n m : Nat) (c : Ctl) (ops : List Opnd) (i : Instr) (h : (if m = 0 then ( (if 5 ≤ n then Ty.ofFidx 4 (n - 5) else none).map fun t => .fdiv c t ops
) else none : Option Instr) = some i) :
    i.key = some ⟨0x27, n, m⟩ ∧ i.ctl = c ∧ i.ops = ops := by
  (repeat' split at h) <;> (try contradiction)
  all_goals try simp only [Option.map_eq_some_iff, Option.bind_eq_some_iff, Option.some.injEq, reduceCtorEq, and_false, exists_false, false_and] at h
  all_goals first
    | (obtain ⟨k1, hk1, k2, hk2, rfl⟩ := h; (first | have := Ty.ofFidx_some _ _ _ hk1); (first | have := Ty.ofFidx_some _ _ _ hk2))
    | (obtain ⟨k1, hk1, rfl⟩ := h; (first | have := Ty.ofFidx_some _ _ _ hk1))
    | cases h
  all_goals (refine ⟨?_, rfl, rfl⟩; (try simp_all [Instr.key]) <;> (try split_ifs) <;> (try omega))
theorem ofKey_28 (n m : Nat) (c : Ctl) (ops : List Opnd) (i : Instr) (h : (if m = 0 then ( (if 5 ≤ n then Ty.ofFidx 4 (n - 5) else none).map fun t => .fsqrt c t ops
) else none : Option Instr) = some i) :
    i.key = some ⟨0x28, n, m⟩ ∧ i.ctl = c ∧ i.ops = ops := by
  (repeat' split at h) <;> (try contradiction)
  all_goals try simp only [Option.map_eq_some_iff, Option.bind_eq_some_iff, Option.some.injEq, reduceCtorEq, and_false, exists_false, false_and] at h
  all_goals first
    | (obtain ⟨k1, hk1, k2, hk2, rfl⟩ := h; (first | have := Ty.ofFidx_some _ _ _ hk1); (first | have := Ty.ofFidx_some _ _ _ hk2))
    | (obtain ⟨k1, hk1, rfl⟩ := h; (first | have := Ty.ofFidx_some _ _ _ hk1))
    | cases h
  all_goals (refine ⟨?_, rfl, rfl⟩; (try simp_all [Instr.key]) <;> (try split_ifs) <;> (try omega))
theorem ofKey_29 (n m : Nat) (c : Ctl) (ops : List Opnd) (i : Instr) (h : (if m = 0 then ( (SfuKind.ofCode (n / 4)).bind fun k => (Ty.ofFidx 3 (n % 4)).map fun t => .sfu c k t ops
) else none : Option Instr) = some i) :
    i.key = some ⟨0x29, n, m⟩ ∧ i.ctl = c ∧ i.ops = ops := by
  (repeat' split at h) <;> (try contradiction)
  all_goals try simp only [Option.map_eq_some_iff, Option.bind_eq_some_iff, Option.some.injEq, reduceCtorEq, and_false, exists_false, false_and] at h
  all_goals first
    | (obtain ⟨k1, hk1, k2, hk2, rfl⟩ := h; (first | have := SfuKind.ofCode_some _ _ hk1 | have := Ty.ofFidx_some _ _ _ hk1); (first | have := SfuKind.ofCode_some _ _ hk2 | have := Ty.ofFidx_some _ _ _ hk2))
    | (obtain ⟨k1, hk1, rfl⟩ := h; (first | have := SfuKind.ofCode_some _ _ hk1 | have := Ty.ofFidx_some _ _ _ hk1))
    | cases h
  all_goals (refine ⟨?_, rfl, rfl⟩; (try simp_all [Instr.key]) <;> (try split_ifs) <;> (try omega))
theorem ofKey_2A (n m : Nat) (c : Ctl) (ops : List Opnd) (i : Instr) (h : (if m = 0 then ( (CvtfKind.ofSub n).map fun k => .cvtf c k ops
) else none : Option Instr) = some i) :
    i.key = some ⟨0x2A, n, m⟩ ∧ i.ctl = c ∧ i.ops = ops := by
  (repeat' split at h) <;> (try contradiction)
  all_goals try simp only [Option.map_eq_some_iff, Option.bind_eq_some_iff, Option.some.injEq, reduceCtorEq, and_false, exists_false, false_and] at h
  all_goals first
    | (obtain ⟨k1, hk1, k2, hk2, rfl⟩ := h; (first | have := CvtfKind.ofSub_some _ _ hk1); (first | have := CvtfKind.ofSub_some _ _ hk2))
    | (obtain ⟨k1, hk1, rfl⟩ := h; (first | have := CvtfKind.ofSub_some _ _ hk1))
    | cases h
  all_goals (refine ⟨?_, rfl, rfl⟩; (try simp_all [Instr.key]) <;> (try split_ifs) <;> (try omega))
theorem ofKey_2B (n m : Nat) (c : Ctl) (ops : List Opnd) (i : Instr) (h : (if m = 0 then ( (PackKind.ofCode n).map fun k => .pack c k ops
) else none : Option Instr) = some i) :
    i.key = some ⟨0x2B, n, m⟩ ∧ i.ctl = c ∧ i.ops = ops := by
  (repeat' split at h) <;> (try contradiction)
  all_goals try simp only [Option.map_eq_some_iff, Option.bind_eq_some_iff, Option.some.injEq, reduceCtorEq, and_false, exists_false, false_and] at h
  all_goals first
    | (obtain ⟨k1, hk1, k2, hk2, rfl⟩ := h; (first | have := PackKind.ofCode_some _ _ hk1); (first | have := PackKind.ofCode_some _ _ hk2))
    | (obtain ⟨k1, hk1, rfl⟩ := h; (first | have := PackKind.ofCode_some _ _ hk1))
    | cases h
  all_goals (refine ⟨?_, rfl, rfl⟩; (try simp_all [Instr.key]) <;> (try split_ifs) <;> (try omega))
theorem ofKey_2C (n m : Nat) (c : Ctl) (ops : List Opnd) (i : Instr) (h : (if m = 0 then ( (DotKind.ofCode n).map fun k => .dot c k ops
) else none : Option Instr) = some i) :
    i.key = some ⟨0x2C, n, m⟩ ∧ i.ctl = c ∧ i.ops = ops := by
  (repeat' split at h) <;> (try contradiction)
  all_goals try simp only [Option.map_eq_some_iff, Option.bind_eq_some_iff, Option.some.injEq, reduceCtorEq, and_false, exists_false, false_and] at h
  all_goals first
    | (obtain ⟨k1, hk1, k2, hk2, rfl⟩ := h; (first | have := DotKind.ofCode_some _ _ hk1); (first | have := DotKind.ofCode_some _ _ hk2))
    | (obtain ⟨k1, hk1, rfl⟩ := h; (first | have := DotKind.ofCode_some _ _ hk1))
    | cases h
  all_goals (refine ⟨?_, rfl, rfl⟩; (try simp_all [Instr.key]) <;> (try split_ifs) <;> (try omega))
theorem ofKey_2D (n m : Nat) (c : Ctl) (ops : List Opnd) (i : Instr) (h : (if m = 0 then ( (ShflKind.ofCode n).map fun k => .shfl c k ops
) else none : Option Instr) = some i) :
    i.key = some ⟨0x2D, n, m⟩ ∧ i.ctl = c ∧ i.ops = ops := by
  (repeat' split at h) <;> (try contradiction)
  all_goals try simp only [Option.map_eq_some_iff, Option.bind_eq_some_iff, Option.some.injEq, reduceCtorEq, and_false, exists_false, false_and] at h
  all_goals first
    | (obtain ⟨k1, hk1, k2, hk2, rfl⟩ := h; (first | have := ShflKind.ofCode_some _ _ hk1); (first | have := ShflKind.ofCode_some _ _ hk2))
    | (obtain ⟨k1, hk1, rfl⟩ := h; (first | have := ShflKind.ofCode_some _ _ hk1))
    | cases h
  all_goals (refine ⟨?_, rfl, rfl⟩; (try simp_all [Instr.key]) <;> (try split_ifs) <;> (try omega))
theorem ofKey_2E (n m : Nat) (c : Ctl) (ops : List Opnd) (i : Instr) (h : (if m = 0 then ( if n = 4 then some (.voteLevel c ops) else (VoteKind.ofCode n).map fun k => .vote c k ops
) else none : Option Instr) = some i) :
    i.key = some ⟨0x2E, n, m⟩ ∧ i.ctl = c ∧ i.ops = ops := by
  (repeat' split at h) <;> (try contradiction)
  all_goals try simp only [Option.map_eq_some_iff, Option.bind_eq_some_iff, Option.some.injEq, reduceCtorEq, and_false, exists_false, false_and] at h
  all_goals first
    | (obtain ⟨k1, hk1, k2, hk2, rfl⟩ := h; (first | have := VoteKind.ofCode_some _ _ hk1); (first | have := VoteKind.ofCode_some _ _ hk2))
    | (obtain ⟨k1, hk1, rfl⟩ := h; (first | have := VoteKind.ofCode_some _ _ hk1))
    | cases h
  all_goals (refine ⟨?_, rfl, rfl⟩; (try simp_all [Instr.key]) <;> (try split_ifs) <;> (try omega))
theorem ofKey_2F (n m : Nat) (c : Ctl) (ops : List Opnd) (i : Instr) (h : (if m = 0 then ( if n < 16 then (ScanKind.ofCode (n % 8)).map fun k => .scan c k (n / 8 == 1) ops else none
) else none : Option Instr) = some i) :
    i.key = some ⟨0x2F, n, m⟩ ∧ i.ctl = c ∧ i.ops = ops := by
  (repeat' split at h) <;> (try contradiction)
  all_goals try simp only [Option.map_eq_some_iff, Option.bind_eq_some_iff, Option.some.injEq, reduceCtorEq, and_false, exists_false, false_and] at h
  all_goals first
    | (obtain ⟨k1, hk1, k2, hk2, rfl⟩ := h; (first | have := ScanKind.ofCode_some _ _ hk1); (first | have := ScanKind.ofCode_some _ _ hk2))
    | (obtain ⟨k1, hk1, rfl⟩ := h; (first | have := ScanKind.ofCode_some _ _ hk1))
    | cases h
  all_goals (refine ⟨?_, rfl, rfl⟩; (try simp_all [Instr.key]) <;> (try split_ifs) <;> (try omega))
theorem ofKey_30 (n m : Nat) (c : Ctl) (ops : List Opnd) (i : Instr) (h : (if m = 0 then ( (ScanKind.ofCode n).map fun k => .reduce c k ops
) else none : Option Instr) = some i) :
    i.key = some ⟨0x30, n, m⟩ ∧ i.ctl = c ∧ i.ops = ops := by
  (repeat' split at h) <;> (try contradiction)
  all_goals try simp only [Option.map_eq_some_iff, Option.bind_eq_some_iff, Option.some.injEq, reduceCtorEq, and_false, exists_false, false_and] at h
  all_goals first
    | (obtain ⟨k1, hk1, k2, hk2, rfl⟩ := h; (first | have := ScanKind.ofCode_some _ _ hk1); (first | have := ScanKind.ofCode_some _ _ hk2))
    | (obtain ⟨k1, hk1, rfl⟩ := h; (first | have := ScanKind.ofCode_some _ _ hk1))
    | cases h
  all_goals (refine ⟨?_, rfl, rfl⟩; (try simp_all [Instr.key]) <;> (try split_ifs) <;> (try omega))
theorem ofKey_31 (n m : Nat) (c : Ctl) (ops : List Opnd) (i : Instr) (h : (if m = 0 then ( (MatchKind.ofCode n).map fun k => .matchLanes c k ops
) else none : Option Instr) = some i) :
    i.key = some ⟨0x31, n, m⟩ ∧ i.ctl = c ∧ i.ops = ops := by
  (repeat' split at h) <;> (try contradiction)
  all_goals try simp only [Option.map_eq_some_iff, Option.bind_eq_some_iff, Option.some.injEq, reduceCtorEq, and_false, exists_false, false_and] at h
  all_goals first
    | (obtain ⟨k1, hk1, k2, hk2, rfl⟩ := h; (first | have := MatchKind.ofCode_some _ _ hk1); (first | have := MatchKind.ofCode_some _ _ hk2))
    | (obtain ⟨k1, hk1, rfl⟩ := h; (first | have := MatchKind.ofCode_some _ _ hk1))
    | cases h
  all_goals (refine ⟨?_, rfl, rfl⟩; (try simp_all [Instr.key]) <;> (try split_ifs) <;> (try omega))
theorem ofKey_32 (n m : Nat) (c : Ctl) (ops : List Opnd) (i : Instr) (h : (if m = 0 then (
      match n with
      | 0 => some (.lanemaskOwn c ops) | 1 => some (.lanemaskBefore c ops) | 2 => some (.lanemaskAfter c ops)
      | 3 => some (.lanemaskSeg c ops) | 4 => some (.lanemaskWidth c ops) | 5 => some (.lanemaskAct c ops)
      | _ => none
) else none : Option Instr) = some i) :
    i.key = some ⟨0x32, n, m⟩ ∧ i.ctl = c ∧ i.ops = ops := by
  (repeat' split at h) <;> first | contradiction | (cases h; refine ⟨?_, rfl, rfl⟩; (try simp_all [Instr.key]) <;> (try split_ifs) <;> (try omega))
theorem ofKey_33 (n m : Nat) (c : Ctl) (ops : List Opnd) (i : Instr) (h : (if m = 0 then ( (FrndKind.ofCode (n / 4)).bind fun k => (Ty.ofFidx 4 (n % 4)).map fun t => .frnd c k t ops
) else none : Option Instr) = some i) :
    i.key = some ⟨0x33, n, m⟩ ∧ i.ctl = c ∧ i.ops = ops := by
  (repeat' split at h) <;> (try contradiction)
  all_goals try simp only [Option.map_eq_some_iff, Option.bind_eq_some_iff, Option.some.injEq, reduceCtorEq, and_false, exists_false, false_and] at h
  all_goals first
    | (obtain ⟨k1, hk1, k2, hk2, rfl⟩ := h; (first | have := FrndKind.ofCode_some _ _ hk1 | have := Ty.ofFidx_some _ _ _ hk1); (first | have := FrndKind.ofCode_some _ _ hk2 | have := Ty.ofFidx_some _ _ _ hk2))
    | (obtain ⟨k1, hk1, rfl⟩ := h; (first | have := FrndKind.ofCode_some _ _ hk1 | have := Ty.ofFidx_some _ _ _ hk1))
    | cases h
  all_goals (refine ⟨?_, rfl, rfl⟩; (try simp_all [Instr.key]) <;> (try split_ifs) <;> (try omega))
theorem ofKey_34 (n m : Nat) (c : Ctl) (ops : List Opnd) (i : Instr) (h : (if m = 0 then ( if n < 8 then (Ty.ofFidx 4 (n % 4)).map fun t => .fscale c (n / 4 == 1) t ops else none
) else none : Option Instr) = some i) :
    i.key = some ⟨0x34, n, m⟩ ∧ i.ctl = c ∧ i.ops = ops := by
  (repeat' split at h) <;> (try contradiction)
  all_goals try simp only [Option.map_eq_some_iff, Option.bind_eq_some_iff, Option.some.injEq, reduceCtorEq, and_false, exists_false, false_and] at h
  all_goals first
    | (obtain ⟨k1, hk1, k2, hk2, rfl⟩ := h; (first | have := Ty.ofFidx_some _ _ _ hk1); (first | have := Ty.ofFidx_some _ _ _ hk2))
    | (obtain ⟨k1, hk1, rfl⟩ := h; (first | have := Ty.ofFidx_some _ _ _ hk1))
    | cases h
  all_goals (refine ⟨?_, rfl, rfl⟩; (try simp_all [Instr.key]) <;> (try split_ifs) <;> (try omega))
theorem ofKey_35 (n m : Nat) (c : Ctl) (ops : List Opnd) (i : Instr) (h : (if m = 0 then ( match n with | 0 => some (.rndbits c false ops) | 1 => some (.rndbits c true ops) | _ => none
) else none : Option Instr) = some i) :
    i.key = some ⟨0x35, n, m⟩ ∧ i.ctl = c ∧ i.ops = ops := by
  (repeat' split at h) <;> first | contradiction | (cases h; refine ⟨?_, rfl, rfl⟩; (try simp_all [Instr.key]) <;> (try split_ifs) <;> (try omega))
theorem ofKey_40 (n m : Nat) (c : Ctl) (ops : List Opnd) (i : Instr) (h : ((MemForm.ofCodes false n m).map fun f => .ld c f ops : Option Instr) = some i) :
    i.key = some ⟨0x40, n, m⟩ ∧ i.ctl = c ∧ i.ops = ops := by
  (repeat' split at h) <;> (try contradiction)
  all_goals try simp only [Option.map_eq_some_iff, Option.bind_eq_some_iff, Option.some.injEq, reduceCtorEq, and_false, exists_false, false_and] at h
  all_goals first
    | (obtain ⟨k1, hk1, k2, hk2, rfl⟩ := h; (first | have := MemForm.ofCodes_some _ _ _ _ hk1); (first | have := MemForm.ofCodes_some _ _ _ _ hk2))
    | (obtain ⟨k1, hk1, rfl⟩ := h; (first | have := MemForm.ofCodes_some _ _ _ _ hk1))
    | cases h
  all_goals (refine ⟨?_, rfl, rfl⟩; (try simp_all [Instr.key]) <;> (try split_ifs) <;> (try omega))
theorem ofKey_41 (n m : Nat) (c : Ctl) (ops : List Opnd) (i : Instr) (h : ((MemForm.ofCodes true n m).map fun f => .st c f ops : Option Instr) = some i) :
    i.key = some ⟨0x41, n, m⟩ ∧ i.ctl = c ∧ i.ops = ops := by
  (repeat' split at h) <;> (try contradiction)
  all_goals try simp only [Option.map_eq_some_iff, Option.bind_eq_some_iff, Option.some.injEq, reduceCtorEq, and_false, exists_false, false_and] at h
  all_goals first
    | (obtain ⟨k1, hk1, k2, hk2, rfl⟩ := h; (first | have := MemForm.ofCodes_some _ _ _ _ hk1); (first | have := MemForm.ofCodes_some _ _ _ _ hk2))
    | (obtain ⟨k1, hk1, rfl⟩ := h; (first | have := MemForm.ofCodes_some _ _ _ _ hk1))
    | cases h
  all_goals (refine ⟨?_, rfl, rfl⟩; (try simp_all [Instr.key]) <;> (try split_ifs) <;> (try omega))
theorem ofKey_42 (n m : Nat) (c : Ctl) (ops : List Opnd) (i : Instr) (h : ((MemForm.ofCodes false n m).map fun f => .lds c f ops : Option Instr) = some i) :
    i.key = some ⟨0x42, n, m⟩ ∧ i.ctl = c ∧ i.ops = ops := by
  (repeat' split at h) <;> (try contradiction)
  all_goals try simp only [Option.map_eq_some_iff, Option.bind_eq_some_iff, Option.some.injEq, reduceCtorEq, and_false, exists_false, false_and] at h
  all_goals first
    | (obtain ⟨k1, hk1, k2, hk2, rfl⟩ := h; (first | have := MemForm.ofCodes_some _ _ _ _ hk1); (first | have := MemForm.ofCodes_some _ _ _ _ hk2))
    | (obtain ⟨k1, hk1, rfl⟩ := h; (first | have := MemForm.ofCodes_some _ _ _ _ hk1))
    | cases h
  all_goals (refine ⟨?_, rfl, rfl⟩; (try simp_all [Instr.key]) <;> (try split_ifs) <;> (try omega))
theorem ofKey_43 (n m : Nat) (c : Ctl) (ops : List Opnd) (i : Instr) (h : ((MemForm.ofCodes true n m).map fun f => .sts c f ops : Option Instr) = some i) :
    i.key = some ⟨0x43, n, m⟩ ∧ i.ctl = c ∧ i.ops = ops := by
  (repeat' split at h) <;> (try contradiction)
  all_goals try simp only [Option.map_eq_some_iff, Option.bind_eq_some_iff, Option.some.injEq, reduceCtorEq, and_false, exists_false, false_and] at h
  all_goals first
    | (obtain ⟨k1, hk1, k2, hk2, rfl⟩ := h; (first | have := MemForm.ofCodes_some _ _ _ _ hk1); (first | have := MemForm.ofCodes_some _ _ _ _ hk2))
    | (obtain ⟨k1, hk1, rfl⟩ := h; (first | have := MemForm.ofCodes_some _ _ _ _ hk1))
    | cases h
  all_goals (refine ⟨?_, rfl, rfl⟩; (try simp_all [Instr.key]) <;> (try split_ifs) <;> (try omega))
theorem ofKey_44 (n m : Nat) (c : Ctl) (ops : List Opnd) (i : Instr) (h : ((Scope.ofCode m).bind fun s =>
      (AtomOrder.ofCode (n / 8)).bind fun o => (AtomTy.ofCode (n % 8)).map fun t => .atom c o t s ops : Option Instr) = some i) :
    i.key = some ⟨0x44, n, m⟩ ∧ i.ctl = c ∧ i.ops = ops := by
  (repeat' split at h) <;> (try contradiction)
  all_goals try simp only [Option.map_eq_some_iff, Option.bind_eq_some_iff, Option.some.injEq, reduceCtorEq, and_false, exists_false, false_and] at h
  all_goals first
    | (obtain ⟨k1, hk1, k2, hk2, k3, hk3, rfl⟩ := h; (first | have := AtomOrder.ofCode_some _ _ hk1 | have := AtomTy.ofCode_some _ _ hk1 | have := Scope.ofCode_some _ _ hk1); (first | have := AtomOrder.ofCode_some _ _ hk2 | have := AtomTy.ofCode_some _ _ hk2 | have := Scope.ofCode_some _ _ hk2); (first | have := AtomOrder.ofCode_some _ _ hk3 | have := AtomTy.ofCode_some _ _ hk3 | have := Scope.ofCode_some _ _ hk3))
    | cases h
  all_goals (refine ⟨?_, rfl, rfl⟩; (try simp_all [Instr.key]) <;> (try split_ifs) <;> (try omega))
theorem ofKey_45 (n m : Nat) (c : Ctl) (ops : List Opnd) (i : Instr) (h : ((Scope.ofCode m).bind fun s =>
      (AtomOrder.ofCode (n / 8)).bind fun o => (AtomTy.ofCode (n % 8)).map fun t => .atoms c o t s ops : Option Instr) = some i) :
    i.key = some ⟨0x45, n, m⟩ ∧ i.ctl = c ∧ i.ops = ops := by
  (repeat' split at h) <;> (try contradiction)
  all_goals try simp only [Option.map_eq_some_iff, Option.bind_eq_some_iff, Option.some.injEq, reduceCtorEq, and_false, exists_false, false_and] at h
  all_goals first
    | (obtain ⟨k1, hk1, k2, hk2, k3, hk3, rfl⟩ := h; (first | have := AtomOrder.ofCode_some _ _ hk1 | have := AtomTy.ofCode_some _ _ hk1 | have := Scope.ofCode_some _ _ hk1); (first | have := AtomOrder.ofCode_some _ _ hk2 | have := AtomTy.ofCode_some _ _ hk2 | have := Scope.ofCode_some _ _ hk2); (first | have := AtomOrder.ofCode_some _ _ hk3 | have := AtomTy.ofCode_some _ _ hk3 | have := Scope.ofCode_some _ _ hk3))
    | cases h
  all_goals (refine ⟨?_, rfl, rfl⟩; (try simp_all [Instr.key]) <;> (try split_ifs) <;> (try omega))
theorem ofKey_46 (n m : Nat) (c : Ctl) (ops : List Opnd) (i : Instr) (h : ((Scope.ofCode m).bind fun s =>
      match n with
      | 1 => some (.fenceAcq c s ops) | 2 => some (.fenceRel c s ops) | 3 => some (.fenceAr c s ops)
      | 4 => some (.fenceSc c s ops) | _ => none : Option Instr) = some i) :
    i.key = some ⟨0x46, n, m⟩ ∧ i.ctl = c ∧ i.ops = ops := by
  (repeat' split at h) <;> (try contradiction)
  all_goals try simp only [Option.map_eq_some_iff, Option.bind_eq_some_iff, Option.some.injEq, reduceCtorEq, and_false, exists_false, false_and] at h
  all_goals first
    | (obtain ⟨k1, hk1, k2, hk2, rfl⟩ := h; (first | have := Scope.ofCode_some _ _ hk1); (first | have := Scope.ofCode_some _ _ hk2))
    | (obtain ⟨k1, hk1, rfl⟩ := h; (first | have := Scope.ofCode_some _ _ hk1))
    | cases h
  all_goals (refine ⟨?_, rfl, rfl⟩; (try simp_all [Instr.key]) <;> (try split_ifs) <;> (try omega))
theorem ofKey_47 (n m : Nat) (c : Ctl) (ops : List Opnd) (i : Instr) (h : (if m = 2 then
        match n with
        | 0 => some (.barSync c ops) | 1 => some (.barArrive c ops) | 2 => some (.barWait c ops)
        | 3 => some (.barExpect c ops) | 4 => some (.barInit c ops) | 5 => some (.barState c ops) | _ => none
      else none : Option Instr) = some i) :
    i.key = some ⟨0x47, n, m⟩ ∧ i.ctl = c ∧ i.ops = ops := by
  (repeat' split at h) <;> first | contradiction | (cases h; refine ⟨?_, rfl, rfl⟩; (try simp_all [Instr.key]) <;> (try split_ifs) <;> (try omega))
theorem ofKey_48 (n m : Nat) (c : Ctl) (ops : List Opnd) (i : Instr) (h : (if n = 0 ∧ m = 2 then some (.barm c ops) else none : Option Instr) = some i) :
    i.key = some ⟨0x48, n, m⟩ ∧ i.ctl = c ∧ i.ops = ops := by
  (repeat' split at h) <;> first | contradiction | (cases h; refine ⟨?_, rfl, rfl⟩; (try simp_all [Instr.key]) <;> (try split_ifs) <;> (try omega))
theorem ofKey_49 (n m : Nat) (c : Ctl) (ops : List Opnd) (i : Instr) (h : (if n = 0 ∧ m = 5 then some (.flight c ops) else none : Option Instr) = some i) :
    i.key = some ⟨0x49, n, m⟩ ∧ i.ctl = c ∧ i.ops = ops := by
  (repeat' split at h) <;> first | contradiction | (cases h; refine ⟨?_, rfl, rfl⟩; (try simp_all [Instr.key]) <;> (try split_ifs) <;> (try omega))
theorem ofKey_4A (n m : Nat) (c : Ctl) (ops : List Opnd) (i : Instr) (h : ((Scope.ofCode m).bind fun s =>
      if n < 16 then (CopyKind.ofCode (n % 8)).map fun k => .copy c k (n / 8 == 1) s ops else none : Option Instr) = some i) :
    i.key = some ⟨0x4A, n, m⟩ ∧ i.ctl = c ∧ i.ops = ops := by
  (repeat' split at h) <;> (try contradiction)
  all_goals try simp only [Option.map_eq_some_iff, Option.bind_eq_some_iff, Option.some.injEq, reduceCtorEq, and_false, exists_false, false_and] at h
  all_goals first
    | (obtain ⟨k1, hk1, k2, hk2, rfl⟩ := h; (first | have := CopyKind.ofCode_some _ _ hk1 | have := Scope.ofCode_some _ _ hk1); (first | have := CopyKind.ofCode_some _ _ hk2 | have := Scope.ofCode_some _ _ hk2))
    | (obtain ⟨k1, hk1, rfl⟩ := h; (first | have := CopyKind.ofCode_some _ _ hk1 | have := Scope.ofCode_some _ _ hk1))
    | cases h
  all_goals (refine ⟨?_, rfl, rfl⟩; (try simp_all [Instr.key]) <;> (try split_ifs) <;> (try omega))
theorem ofKey_4B (n m : Nat) (c : Ctl) (ops : List Opnd) (i : Instr) (h : (if m = 0 then ( match n with | 0 => some (.tmap c false ops) | 1 => some (.tmap c true ops) | _ => none
) else none : Option Instr) = some i) :
    i.key = some ⟨0x4B, n, m⟩ ∧ i.ctl = c ∧ i.ops = ops := by
  (repeat' split at h) <;> first | contradiction | (cases h; refine ⟨?_, rfl, rfl⟩; (try simp_all [Instr.key]) <;> (try split_ifs) <;> (try omega))
theorem ofKey_4C (n m : Nat) (c : Ctl) (ops : List Opnd) (i : Instr) (h : (if m = 0 then (
      match n with
      | 0 => some (.futTest c ops) | 1 => some (.futWait c ops) | 2 => some (.futStatus c ops)
      | 3 => some (.futCancel c ops) | 4 => some (.futAll c ops) | _ => none
) else none : Option Instr) = some i) :
    i.key = some ⟨0x4C, n, m⟩ ∧ i.ctl = c ∧ i.ops = ops := by
  (repeat' split at h) <;> first | contradiction | (cases h; refine ⟨?_, rfl, rfl⟩; (try simp_all [Instr.key]) <;> (try split_ifs) <;> (try omega))
theorem ofKey_4D (n m : Nat) (c : Ctl) (ops : List Opnd) (i : Instr) (h : (if n = 0 ∧ m = 0 then some (.yield c ops) else none : Option Instr) = some i) :
    i.key = some ⟨0x4D, n, m⟩ ∧ i.ctl = c ∧ i.ops = ops := by
  (repeat' split at h) <;> first | contradiction | (cases h; refine ⟨?_, rfl, rfl⟩; (try simp_all [Instr.key]) <;> (try split_ifs) <;> (try omega))
theorem ofKey_4E (n m : Nat) (c : Ctl) (ops : List Opnd) (i : Instr) (h : (if n = 0 ∧ m = 0 then some (.pref c ops) else none : Option Instr) = some i) :
    i.key = some ⟨0x4E, n, m⟩ ∧ i.ctl = c ∧ i.ops = ops := by
  (repeat' split at h) <;> first | contradiction | (cases h; refine ⟨?_, rfl, rfl⟩; (try simp_all [Instr.key]) <;> (try split_ifs) <;> (try omega))
theorem ofKey_4F (n m : Nat) (c : Ctl) (ops : List Opnd) (i : Instr) (h : (if m = 0 then (
      match n with
      | 0 => some (.cacheDemote c ops) | 1 => some (.cacheEvict c ops) | 2 => some (.cacheZero c ops) | _ => none
) else none : Option Instr) = some i) :
    i.key = some ⟨0x4F, n, m⟩ ∧ i.ctl = c ∧ i.ops = ops := by
  (repeat' split at h) <;> first | contradiction | (cases h; refine ⟨?_, rfl, rfl⟩; (try simp_all [Instr.key]) <;> (try split_ifs) <;> (try omega))
theorem ofKey_50 (n m : Nat) (c : Ctl) (ops : List Opnd) (i : Instr) (h : ((Scope.ofCode m).bind fun s =>
      match n with
      | 0 => some (.gather c false s ops) | 1 => some (.scatter c false s ops)
      | 8 => some (.gather c true s ops) | 9 => some (.scatter c true s ops) | _ => none : Option Instr) = some i) :
    i.key = some ⟨0x50, n, m⟩ ∧ i.ctl = c ∧ i.ops = ops := by
  (repeat' split at h) <;> (try contradiction)
  all_goals try simp only [Option.map_eq_some_iff, Option.bind_eq_some_iff, Option.some.injEq, reduceCtorEq, and_false, exists_false, false_and] at h
  all_goals first
    | (obtain ⟨k1, hk1, k2, hk2, rfl⟩ := h; (first | have := Scope.ofCode_some _ _ hk1); (first | have := Scope.ofCode_some _ _ hk2))
    | (obtain ⟨k1, hk1, rfl⟩ := h; (first | have := Scope.ofCode_some _ _ hk1))
    | cases h
  all_goals (refine ⟨?_, rfl, rfl⟩; (try simp_all [Instr.key]) <;> (try split_ifs) <;> (try omega))
theorem ofKey_51 (n m : Nat) (c : Ctl) (ops : List Opnd) (i : Instr) (h : ((Scope.ofCode m).bind fun s =>
      match n with
      | 0 => some (.collGroup c s ops) | 1 => some (.collRed c s ops) | 2 => some (.collBcast c s ops)
      | 3 => some (.collBar c s ops) | _ => none : Option Instr) = some i) :
    i.key = some ⟨0x51, n, m⟩ ∧ i.ctl = c ∧ i.ops = ops := by
  (repeat' split at h) <;> (try contradiction)
  all_goals try simp only [Option.map_eq_some_iff, Option.bind_eq_some_iff, Option.some.injEq, reduceCtorEq, and_false, exists_false, false_and] at h
  all_goals first
    | (obtain ⟨k1, hk1, k2, hk2, rfl⟩ := h; (first | have := Scope.ofCode_some _ _ hk1); (first | have := Scope.ofCode_some _ _ hk2))
    | (obtain ⟨k1, hk1, rfl⟩ := h; (first | have := Scope.ofCode_some _ _ hk1))
    | cases h
  all_goals (refine ⟨?_, rfl, rfl⟩; (try simp_all [Instr.key]) <;> (try split_ifs) <;> (try omega))
theorem ofKey_60 (n m : Nat) (c : Ctl) (ops : List Opnd) (i : Instr) (h : (if m = 0 then (
      match n with | 0 => some (.fmtb c ops) | 1 => some (.fmtbSc c ops) | 2 => some (.fmtbSp c ops) | _ => none
) else none : Option Instr) = some i) :
    i.key = some ⟨0x60, n, m⟩ ∧ i.ctl = c ∧ i.ops = ops := by
  (repeat' split at h) <;> first | contradiction | (cases h; refine ⟨?_, rfl, rfl⟩; (try simp_all [Instr.key]) <;> (try split_ifs) <;> (try omega))
theorem ofKey_61 (n m : Nat) (c : Ctl) (ops : List Opnd) (i : Instr) (h : (if m = 0 then ( match n with | 0 => some (.cohort c ops) | 1 => some (.cohortClear c ops) | _ => none
) else none : Option Instr) = some i) :
    i.key = some ⟨0x61, n, m⟩ ∧ i.ctl = c ∧ i.ops = ops := by
  (repeat' split at h) <;> first | contradiction | (cases h; refine ⟨?_, rfl, rfl⟩; (try simp_all [Instr.key]) <;> (try split_ifs) <;> (try omega))
theorem ofKey_62 (n m : Nat) (c : Ctl) (ops : List Opnd) (i : Instr) (h : ((Scope.ofCode m).bind fun s =>
      match n with
      | 0 => some (.mma c s ops) | 1 => some (.mmaSp c s ops) | 2 => some (.mmaUf c s ops)
      | 4 => some (.mmaSpec c s ops) | 5 => some (.mmaSpecSp c s ops) | 6 => some (.mmaSpecUf c s ops)
      | _ => none : Option Instr) = some i) :
    i.key = some ⟨0x62, n, m⟩ ∧ i.ctl = c ∧ i.ops = ops := by
  (repeat' split at h) <;> (try contradiction)
  all_goals try simp only [Option.map_eq_some_iff, Option.bind_eq_some_iff, Option.some.injEq, reduceCtorEq, and_false, exists_false, false_and] at h
  all_goals first
    | (obtain ⟨k1, hk1, k2, hk2, rfl⟩ := h; (first | have := Scope.ofCode_some _ _ hk1); (first | have := Scope.ofCode_some _ _ hk2))
    | (obtain ⟨k1, hk1, rfl⟩ := h; (first | have := Scope.ofCode_some _ _ hk1))
    | cases h
  all_goals (refine ⟨?_, rfl, rfl⟩; (try simp_all [Instr.key]) <;> (try split_ifs) <;> (try omega))
theorem ofKey_63 (n m : Nat) (c : Ctl) (ops : List Opnd) (i : Instr) (h : (match n with
      | 0 => (if m = 0 then some (.accZeroF32 c ops) else none) | 1 => (if m = 0 then some (.accZeroI32 c ops) else none)
      | 2 => (Scope.ofCode m).bind fun s => some (.accLoad c false s ops)
      | 3 => (Scope.ofCode m).bind fun s => some (.accLoad c true s ops)
      | 4 => (Scope.ofCode m).bind fun s => some (.accStore c s ops)
      | _ => none : Option Instr) = some i) :
    i.key = some ⟨0x63, n, m⟩ ∧ i.ctl = c ∧ i.ops = ops := by
  (repeat' split at h) <;> (try contradiction)
  all_goals try simp only [Option.map_eq_some_iff, Option.bind_eq_some_iff, Option.some.injEq, reduceCtorEq, and_false, exists_false, false_and] at h
  all_goals first
    | (obtain ⟨k1, hk1, k2, hk2, rfl⟩ := h; (first | have := Scope.ofCode_some _ _ hk1); (first | have := Scope.ofCode_some _ _ hk2))
    | (obtain ⟨k1, hk1, rfl⟩ := h; (first | have := Scope.ofCode_some _ _ hk1))
    | cases h
  all_goals (refine ⟨?_, rfl, rfl⟩; (try simp_all [Instr.key]) <;> (try split_ifs) <;> (try omega))
theorem ofKey_64 (n m : Nat) (c : Ctl) (ops : List Opnd) (i : Instr) (h : (if m = 0 then ( match n with | 0 => some (.specCommit c ops) | 1 => some (.specDiscard c ops) | _ => none
) else none : Option Instr) = some i) :
    i.key = some ⟨0x64, n, m⟩ ∧ i.ctl = c ∧ i.ops = ops := by
  (repeat' split at h) <;> first | contradiction | (cases h; refine ⟨?_, rfl, rfl⟩; (try simp_all [Instr.key]) <;> (try split_ifs) <;> (try omega))
theorem ofKey_65 (n m : Nat) (c : Ctl) (ops : List Opnd) (i : Instr) (h : (if n = 0 ∧ m = 0 then some (.unfold c ops) else none : Option Instr) = some i) :
    i.key = some ⟨0x65, n, m⟩ ∧ i.ctl = c ∧ i.ops = ops := by
  (repeat' split at h) <;> first | contradiction | (cases h; refine ⟨?_, rfl, rfl⟩; (try simp_all [Instr.key]) <;> (try split_ifs) <;> (try omega))
theorem ofKey_66 (n m : Nat) (c : Ctl) (ops : List Opnd) (i : Instr) (h : ((Scope.ofCode m).bind fun s => if n = 0 then some (.spbm c s ops) else none : Option Instr) = some i) :
    i.key = some ⟨0x66, n, m⟩ ∧ i.ctl = c ∧ i.ops = ops := by
  (repeat' split at h) <;> (try contradiction)
  all_goals try simp only [Option.map_eq_some_iff, Option.bind_eq_some_iff, Option.some.injEq, reduceCtorEq, and_false, exists_false, false_and] at h
  all_goals first
    | (obtain ⟨k1, hk1, k2, hk2, rfl⟩ := h; (first | have := Scope.ofCode_some _ _ hk1); (first | have := Scope.ofCode_some _ _ hk2))
    | (obtain ⟨k1, hk1, rfl⟩ := h; (first | have := Scope.ofCode_some _ _ hk1))
    | cases h
  all_goals (refine ⟨?_, rfl, rfl⟩; (try simp_all [Instr.key]) <;> (try split_ifs) <;> (try omega))
theorem ofKey_70 (n m : Nat) (c : Ctl) (ops : List Opnd) (i : Instr) (h : (if m = 0 then (
      match n with
      | 0 => some (.trap c ops) | 1 => some (.tret c ops) | 2 => some (.tmask c ops) | 3 => some (.tretSkip c ops)
      | _ => none
) else none : Option Instr) = some i) :
    i.key = some ⟨0x70, n, m⟩ ∧ i.ctl = c ∧ i.ops = ops := by
  (repeat' split at h) <;> first | contradiction | (cases h; refine ⟨?_, rfl, rfl⟩; (try simp_all [Instr.key]) <;> (try split_ifs) <;> (try omega))
theorem ofKey_71 (n m : Nat) (c : Ctl) (ops : List Opnd) (i : Instr) (h : (if n = 0 ∧ m = 0 then some (.launch c ops) else none : Option Instr) = some i) :
    i.key = some ⟨0x71, n, m⟩ ∧ i.ctl = c ∧ i.ops = ops := by
  (repeat' split at h) <;> first | contradiction | (cases h; refine ⟨?_, rfl, rfl⟩; (try simp_all [Instr.key]) <;> (try split_ifs) <;> (try omega))
theorem ofKey_72 (n m : Nat) (c : Ctl) (ops : List Opnd) (i : Instr) (h : (if m = 0 then (
      match n with
      | 0 => some (.xctlInv c ops) | 2 => some (.xctlPfCore c ops) | 3 => some (.xctlPfHall c ops)
      | 4 => some (.xctlPinCore c ops) | 5 => some (.xctlPinHall c ops) | 6 => some (.xctlUnpinCore c ops)
      | 7 => some (.xctlUnpinHall c ops) | _ => none
) else none : Option Instr) = some i) :
    i.key = some ⟨0x72, n, m⟩ ∧ i.ctl = c ∧ i.ops = ops := by
  (repeat' split at h) <;> first | contradiction | (cases h; refine ⟨?_, rfl, rfl⟩; (try simp_all [Instr.key]) <;> (try split_ifs) <;> (try omega))
theorem ofKey_73 (n m : Nat) (c : Ctl) (ops : List Opnd) (i : Instr) (h : (match n with
      | 0 => (if m = 0 then some (.sealOpen c ops) else none) | 1 => (Scope.ofCode m).bind fun s => some (.sealAbsorb c s ops)
      | 2 => (if m = 0 then some (.sealClose c ops) else none) | 3 => (if m = 0 then some (.sealAbort c ops) else none) | _ => none : Option Instr) = some i) :
    i.key = some ⟨0x73, n, m⟩ ∧ i.ctl = c ∧ i.ops = ops := by
  (repeat' split at h) <;> (try contradiction)
  all_goals try simp only [Option.map_eq_some_iff, Option.bind_eq_some_iff, Option.some.injEq, reduceCtorEq, and_false, exists_false, false_and] at h
  all_goals first
    | (obtain ⟨k1, hk1, k2, hk2, rfl⟩ := h; (first | have := Scope.ofCode_some _ _ hk1); (first | have := Scope.ofCode_some _ _ hk2))
    | (obtain ⟨k1, hk1, rfl⟩ := h; (first | have := Scope.ofCode_some _ _ hk1))
    | cases h
  all_goals (refine ⟨?_, rfl, rfl⟩; (try simp_all [Instr.key]) <;> (try split_ifs) <;> (try omega))
theorem ofKey_74 (n m : Nat) (c : Ctl) (ops : List Opnd) (i : Instr) (h : (if m = 0 then ( match n with | 0 => some (.cntCtr c ops) | 1 => some (.cntMon c ops) | _ => none
) else none : Option Instr) = some i) :
    i.key = some ⟨0x74, n, m⟩ ∧ i.ctl = c ∧ i.ops = ops := by
  (repeat' split at h) <;> first | contradiction | (cases h; refine ⟨?_, rfl, rfl⟩; (try simp_all [Instr.key]) <;> (try split_ifs) <;> (try omega))
theorem ofKey_75 (n m : Nat) (c : Ctl) (ops : List Opnd) (i : Instr) (h : (if n = 0 ∧ m = 5 then some (.cutMarkDy c ops)
      else if n = 1 ∧ m = 7 then some (.cutMarkFb c ops)
      else if n = 2 ∧ m = 0 then some (.cutStatus c ops)
      else none : Option Instr) = some i) :
    i.key = some ⟨0x75, n, m⟩ ∧ i.ctl = c ∧ i.ops = ops := by
  (repeat' split at h) <;> first | contradiction | (cases h; refine ⟨?_, rfl, rfl⟩; (try simp_all [Instr.key]) <;> (try split_ifs) <;> (try omega))
theorem ofKey_76 (n m : Nat) (c : Ctl) (ops : List Opnd) (i : Instr) (h : (if m = 0 then (
      match n with
      | 0 => some (.rdctxTrap c ops) | 1 => some (.rdctxLanes c ops) | 2 => some (.rdctxOpnd c ops)
      | 3 => some (.rdctxLaunch c ops) | 4 => some (.rdctxEnclave c ops) | 5 => some (.rdctxPlace c ops)
      | _ => none
) else none : Option Instr) = some i) :
    i.key = some ⟨0x76, n, m⟩ ∧ i.ctl = c ∧ i.ops = ops := by
  (repeat' split at h) <;> first | contradiction | (cases h; refine ⟨?_, rfl, rfl⟩; (try simp_all [Instr.key]) <;> (try split_ifs) <;> (try omega))
/-- What a form's codes lead to has those codes (R264). -/
theorem Instr.ofKey_key (q : Key) (c : Ctl) (ops : List Opnd) (i : Instr) (h : Instr.ofKey q c ops = some i) :
    i.key = some q ∧ i.ctl = c ∧ i.ops = ops := by
  obtain ⟨maj, n, m⟩ := q
  unfold Instr.ofKey at h
  simp only at h
  split at h
  · exact ofKey_00 _ _ _ _ _ h
  · exact ofKey_01 _ _ _ _ _ h
  · exact ofKey_02 _ _ _ _ _ h
  · exact ofKey_03 _ _ _ _ _ h
  · exact ofKey_04 _ _ _ _ _ h
  · exact ofKey_05 _ _ _ _ _ h
  · exact ofKey_06 _ _ _ _ _ h
  · exact ofKey_07 _ _ _ _ _ h
  · exact ofKey_08 _ _ _ _ _ h
  · exact ofKey_09 _ _ _ _ _ h
  · exact ofKey_0A _ _ _ _ _ h
  · exact ofKey_0B _ _ _ _ _ h
  · exact ofKey_0C _ _ _ _ _ h
  · exact ofKey_0D _ _ _ _ _ h
  · exact ofKey_0E _ _ _ _ _ h
  · exact ofKey_0F _ _ _ _ _ h
  · exact ofKey_10 _ _ _ _ _ h
  · exact ofKey_11 _ _ _ _ _ h
  · exact ofKey_12 _ _ _ _ _ h
  · exact ofKey_13 _ _ _ _ _ h
  · exact ofKey_14 _ _ _ _ _ h
  · exact ofKey_15 _ _ _ _ _ h
  · exact ofKey_16 _ _ _ _ _ h
  · exact ofKey_17 _ _ _ _ _ h
  · exact ofKey_18 _ _ _ _ _ h
  · exact ofKey_19 _ _ _ _ _ h
  · exact ofKey_1A _ _ _ _ _ h
  · exact ofKey_1B _ _ _ _ _ h
  · exact ofKey_1C _ _ _ _ _ h
  · exact ofKey_1D _ _ _ _ _ h
  · exact ofKey_20 _ _ _ _ _ h
  · exact ofKey_21 _ _ _ _ _ h
  · exact ofKey_22 _ _ _ _ _ h
  · exact ofKey_23 _ _ _ _ _ h
  · exact ofKey_24 _ _ _ _ _ h
  · exact ofKey_25 _ _ _ _ _ h
  · exact ofKey_26 _ _ _ _ _ h
  · exact ofKey_27 _ _ _ _ _ h
  · exact ofKey_28 _ _ _ _ _ h
  · exact ofKey_29 _ _ _ _ _ h
  · exact ofKey_2A _ _ _ _ _ h
  · exact ofKey_2B _ _ _ _ _ h
  · exact ofKey_2C _ _ _ _ _ h
  · exact ofKey_2D _ _ _ _ _ h
  · exact ofKey_2E _ _ _ _ _ h
  · exact ofKey_2F _ _ _ _ _ h
  · exact ofKey_30 _ _ _ _ _ h
  · exact ofKey_31 _ _ _ _ _ h
  · exact ofKey_32 _ _ _ _ _ h
  · exact ofKey_33 _ _ _ _ _ h
  · exact ofKey_34 _ _ _ _ _ h
  · exact ofKey_35 _ _ _ _ _ h
  · exact ofKey_40 _ _ _ _ _ h
  · exact ofKey_41 _ _ _ _ _ h
  · exact ofKey_42 _ _ _ _ _ h
  · exact ofKey_43 _ _ _ _ _ h
  · exact ofKey_44 _ _ _ _ _ h
  · exact ofKey_45 _ _ _ _ _ h
  · exact ofKey_46 _ _ _ _ _ h
  · exact ofKey_47 _ _ _ _ _ h
  · exact ofKey_48 _ _ _ _ _ h
  · exact ofKey_49 _ _ _ _ _ h
  · exact ofKey_4A _ _ _ _ _ h
  · exact ofKey_4B _ _ _ _ _ h
  · exact ofKey_4C _ _ _ _ _ h
  · exact ofKey_4D _ _ _ _ _ h
  · exact ofKey_4E _ _ _ _ _ h
  · exact ofKey_4F _ _ _ _ _ h
  · exact ofKey_50 _ _ _ _ _ h
  · exact ofKey_51 _ _ _ _ _ h
  · exact ofKey_60 _ _ _ _ _ h
  · exact ofKey_61 _ _ _ _ _ h
  · exact ofKey_62 _ _ _ _ _ h
  · exact ofKey_63 _ _ _ _ _ h
  · exact ofKey_64 _ _ _ _ _ h
  · exact ofKey_65 _ _ _ _ _ h
  · exact ofKey_66 _ _ _ _ _ h
  · exact ofKey_70 _ _ _ _ _ h
  · exact ofKey_71 _ _ _ _ _ h
  · exact ofKey_72 _ _ _ _ _ h
  · exact ofKey_73 _ _ _ _ _ h
  · exact ofKey_74 _ _ _ _ _ h
  · exact ofKey_75 _ _ _ _ _ h
  · exact ofKey_76 _ _ _ _ _ h
  · contradiction

end

end Sys2Proof
end

