-- ==== Sys2Proof/Laws/Tiles.lean ====
section
/-! SUPPORT. Accumulators, cohorts and matrix operations (R137 to R142, R353 to R373). -/

namespace Sys2Proof.Machine

set_option Elab.async false

section
set_option linter.all false

theorem putBytes_mid (e a : List Byte) (n : Nat) (h : n + a.length ≤ e.length) : putBytes e n a = e.take n ++ a ++ e.drop (n + a.length) := by
  unfold putBytes; simp

theorem words_fields (l n p : Nat) (hl : l ≤ 7) (hn : n ≤ 6) (hp : p < n) : ∃ w : BitVec 32, w = BitVec.ofNat 32 (l * 512 + n * 64 + p * 8 + 1) ∧ w.getLsbD 0 = true ∧ w.extractLsb' 1 2 = 0 ∧
       (w.extractLsb' 3 3).toNat = p ∧ (w.extractLsb' 6 3).toNat = n ∧ (w.extractLsb' 9 23).toNat = l := by
  refine ⟨_, rfl, ?_, ?_, ?_, ?_, ?_⟩
  · rw [BitVec.getLsbD_ofNat, Nat.testBit_zero]; simp; omega
  · apply BitVec.eq_of_toNat_eq; simp [Nat.shiftRight_eq_div_pow]; omega
  · simp [Nat.shiftRight_eq_div_pow]; omega
  · simp [Nat.shiftRight_eq_div_pow]; omega
  · simp [Nat.shiftRight_eq_div_pow]; omega

theorem mapLanes_cohort (w : BitVec 32) (f : Nat → Lane → Lane) : ∀ (ls : List Nat) (g : Group),
    ({ g with cohort := w } : Group).mapLanes ls f = { g.mapLanes ls f with cohort := w }
  | [], _ => rfl
  | l :: ls, g => mapLanes_cohort w f ls (g.setLane l (f l (g.lane l)))

theorem write_cohort (x : Exe) (i : Instr) (hcl : isCrossLane i = false) (w : BitVec 32) :
    Exe.write { x with g := { x.g with cohort := w } } i [] = { x.write i [] with cohort := w } := by
  rw [Exe.write_plain _ _ _ hcl, Exe.write_plain _ _ _ hcl]
  exact mapLanes_cohort w _ _ x.g

theorem write_same (x : Exe) (i : Instr) (hcl : isCrossLane i = false) : (x.write i []).cohort = x.g.cohort :=
  (congrArg Group.cohort (write_cohort x i hcl x.g.cohort) : _)

theorem complete_cohort (x : Exe) (i : Instr) (hcl : isCrossLane i = false) (w : BitVec 32) (m : BitVec 64) :
    Exe.Completes { x with g := { x.g with cohort := w } } i m (fun _ => none)
      (x.complete i { x.write i [] with cohort := w } m) := by
  have h := Exe.complete_completes { x with g := { x.g with cohort := w } } i [] m (fun _ => none) (fun _ _ => rfl) fun _ _ => rfl
  rw [write_cohort _ _ hcl] at h
  exact h

theorem plainRead_ok (x : Exe) (va : BitVec 64) (kind : AccessKind) (n : Nat) (k : State → List Byte → State) (p) (ps) (h : x.s.locate (some x.unit) x.eid va kind n = .ok p)
    (h2 : localPieces p = some ps) : x.plainRead va kind n k = k (x.touchAll 0 false x.s ps) (x.s.readPieces ps) := by
  unfold Exe.plainRead
  rw [h]
  dsimp only
  rw [h2]

theorem orphan_tiles (s : State) (core : Nat) : ∀ ks : List Nat, (ks.foldl (fun s k => s.orphanSpec core k) s).tiles = s.tiles ∧ ∀ t, (ks.foldl (fun s k => s.orphanSpec core k) s).team t = s.team t := by
  intro ks
  induction ks generalizing s with
  | nil => exact ⟨rfl, fun _ => rfl⟩
  | cons k ks ih => exact ⟨(ih (s.orphanSpec core k)).1, (ih (s.orphanSpec core k)).2⟩

theorem mget_append_none {α : Type} (m n : List (Nat × α)) (k : Nat) (h : mget m k = none) : mget (m ++ n) k = mget n k := by
  induction m with
  | nil => rfl
  | cons a m ih =>
      obtain ⟨b, v⟩ := a
      simp only [mget, List.cons_append] at h ⊢
      split at h
      · cases h
      · next hh => rw [if_neg hh]; exact ih h

theorem taken_one {s : State} {team : Nat} {int : Bool} {els : List (Nat × BitVec 32)} {u : State} {ts : List Nat} (h : s.takeTiles team 1 int els = .taken u ts) :
    ∃ k, ts = [k] ∧ k < 32 ∧ (s.sweepTiles (s.team team).core).tile (s.team team).core k = none ∧ u.tile (s.team team).core k = some ⟨int, els, team, none⟩ := by
  unfold State.takeTiles at h
  dsimp only at h
  split at h
  · next hle =>
      generalize hf : ((List.range 32).filter fun k => ((s.sweepTiles (s.team team).core).tile (s.team team).core k).isNone) = fs at h hle
      cases fs with
      | nil => simp at hle
      | cons k fs =>
          have hk : k ∈ (List.range 32).filter fun k => ((s.sweepTiles (s.team team).core).tile (s.team team).core k).isNone := by rw [hf]; exact List.mem_cons_self ..
          rw [List.mem_filter, List.mem_range] at hk
          have hn := Option.isNone_iff_eq_none.mp hk.2
          cases h
          refine ⟨k, rfl, hk.1, hn, ?_⟩
          unfold State.tile at hn ⊢
          show mget (_ ++ _) _ = _
          refine (mget_append_none _ _ _ hn).trans ?_
          simp [mget]
  · split at h <;> cases h

theorem spadRead_eq (s : State) (t o n : Nat) : s.spadRead t o n = readBytes (s.team t).spad o n := rfl

theorem tmap_eq {s : State} {x : Exe} (hx : s.exe? = some x) (hc : x.calm) (c : Ctl) (sp : Bool) (ops : List Opnd) (ha : x.active c ≠ []) :
    let i := Instr.tmap c sp ops
    let a := (argOf (x.onceVals i) 0).toBits
    let give : State → List Byte → State := fun s d => if tmOk d then (x.upon s).commitAll i [.tmap d none] (x.onceFlags i)
        else (x.upon s).trap i trapHandle (x.active c) 0
    exec i s = .next (match sp, x.s.spadAt x.g.team a.toNat 128 with
      | true, none => x.trap i 9 (x.active c) 0
      | true, some (t, o) => if a.toNat % 64 ≠ 0 then x.trap i 0x0B (x.active c) 0 else give x.s (x.s.spadRead t o 128)
      | false, _ => if a.toNat % 64 ≠ 0 then x.trap i 0x0B (x.active c) 0 else x.plainRead a .load 128 give) := by
  intro i a give
  show onPath s _ = _
  rw [onPath_next hx]
  refine congrArg Host.Outcome.next ?_
  rw [Exe.engine_calm hc (Instr.tmap c sp ops) ha]
  dsimp only
  rw [if_neg (by decide)]
  all_goals (cases sp <;> first | rfl | (cases h : x.s.spadAt x.g.team a.toNat 128 <;> rfl))

theorem exec_onPath {s : State} {x : Exe} (hx : s.exe? = some x) (i : Instr) (k : Exe → State) (h : exec i s = onPath s k) : exec i s = .next (k x) :=
  h.trans (onPath_next hx k)

theorem orphan_eq (s : State) (core : Nat) : ∀ ks : List Nat, ∃ ops, (ks.foldl (fun s k => s.orphanSpec core k) s) = { s with ops := ops } ∧
    ops.map (fun o => (o.1, o.2.team, o.2.cls, o.2.status)) = s.ops.map (fun o => (o.1, o.2.team, o.2.cls, o.2.status)) := by
  intro ks
  induction ks generalizing s with
  | nil => exact ⟨s.ops, rfl, rfl⟩
  | cons k ks ih =>
      obtain ⟨ops, h1, h2⟩ := ih (s.orphanSpec core k)
      refine ⟨ops, h1, h2.trans ?_⟩
      unfold State.orphanSpec
      dsimp only
      rw [List.map_map]
      apply List.map_congr_left
      intro o _
      simp only [Function.comp_apply]
      split <;> rfl

theorem taken_eq {s : State} {team n : Nat} {int : Bool} {els : List (Nat × BitVec 32)} {u : State} {ts : List Nat} (h : s.takeTiles team n int els = .taken u ts) :
    ts.length = n ∧ ∃ tiles ops, u = { s with tiles := tiles, ops := ops } ∧ ops.map (fun o => (o.1, o.2.team, o.2.cls, o.2.status)) = s.ops.map (fun o => (o.1, o.2.team, o.2.cls, o.2.status)) := by
  unfold State.takeTiles at h
  dsimp only at h
  split at h
  · next hle =>
      cases h
      refine ⟨List.length_take_of_le hle, ?_⟩
      obtain ⟨ops, h1, h2⟩ := orphan_eq (s.sweepTiles (s.team team).core) (s.team team).core (List.take n ((List.range 32).filter fun k => ((s.sweepTiles (s.team team).core).tile (s.team team).core k).isNone))
      rw [h1]
      exact ⟨_, ops, rfl, h2⟩
  · split at h <;> cases h

theorem engHeld_eq (x : Exe) (u : State) (h : ∃ tiles ops, u = { x.s with tiles := tiles, ops := ops } ∧ ops.map (fun o => (o.1, o.2.team, o.2.cls, o.2.status)) = x.s.ops.map (fun o => (o.1, o.2.team, o.2.cls, o.2.status))) (cls : Nat) :
    Exe.issueWaits { x with s := u } cls = x.issueWaits cls := by
  obtain ⟨tiles, ops, rfl, h⟩ := h
  have key : State.engHeld { x.s with tiles := tiles, ops := ops } x.g.team cls = x.s.engHeld x.g.team cls := by
    funext pc
    unfold State.engHeld
    dsimp only
    rw [← List.countP_eq_length_filter, ← List.countP_eq_length_filter]
    let f : Nat × Nat × Nat × BitVec 8 → Bool := fun o =>
      let u := x.s.team o.2.1
      o.2.2.2 == futPending && o.2.2.1 == cls &&
        if pc then u.resident && u.core == (x.s.team x.g.team).core else (x.s.launch u.launch).enclave == (x.s.launch (x.s.team x.g.team).launch).enclave
    have e : ∀ l : List (Nat × EngOp), l.countP (fun o =>
      let u := x.s.team o.2.team
      o.2.status == futPending && o.2.cls == cls &&
        if pc then u.resident && u.core == (x.s.team x.g.team).core else (x.s.launch u.launch).enclave == (x.s.launch (x.s.team x.g.team).launch).enclave) =
        (l.map (fun o => (o.1, o.2.team, o.2.cls, o.2.status))).countP f := by
      intro l
      rw [List.countP_map]; rfl
    exact (e ops).trans ((congrArg (List.countP f) h).trans (e x.s.ops).symm)
  unfold Exe.issueWaits
  rw [key]
  rfl

/-- Issuing over a state with tiles taken. -/
theorem issues_tiles {s : State} {x : Exe} (i : Instr) (o : EngOp) (u : State) (res : BitVec 64 → List Val)
    (hu : ∃ tiles ops, u = { x.s with tiles := tiles, ops := ops } ∧ ops.map (fun o => (o.1, o.2.team, o.2.cls, o.2.status)) = x.s.ops.map (fun o => (o.1, o.2.team, o.2.cls, o.2.status)))
    (hw : x.issueWaits o.cls = false)
    (hex : exec i s = .next (Exe.issue { x with s := u } o fun y fut _ => y.commitAll i (res fut) (x.onceFlags i))) :
    x.Issues s i { x with s := u } o id res := by
  refine Exe.issue_issues i o id res { x with s := u } ?_
  rw [engHeld_eq x u hu, hw]
  rw [Exe.issue_eq] at hex
  rw [if_neg (by rw [engHeld_eq x u hu, hw]; decide)] at hex
  rw [if_neg (by decide)]
  exact hex

theorem onceFlags_issued (x : Exe) (u : State) (i : Instr) (hp : (x.upon u).plan i = x.plan i) (o : EngOp) : Exe.onceFlags { x with s := Exe.issued { x with s := u } o } i = x.onceFlags i :=
  Exe.onceFlags_upon x _ i hp

theorem exeOf_self {s : State} {x : Exe} (hx : s.exe? = some x) : x.s.exeOf x.gid x.pid = some x := by
  have h := exe_group hx
  unfold State.exeOf
  rw [h.2.2.1]
  have : { s with cur := some (x.gid, x.pid) } = s := by rw [← h.2.2.2]
  rw [this]; exact hx

theorem withTiles_eq (x : Exe) (i : Instr) (n : Nat) (int : Bool) (els : List (Nat × BitVec 32)) (k : Exe → List Nat → State) :
    x.withTiles i n int els k = match x.s.takeTiles x.g.team n int els with
      | .taken u ts => k { x with s := u } ts
      | .wait => x.s
      | .full => x.trap i trapHandle (x.active i.ctl) 0 := rfl

theorem take_none (s : State) (t : Nat) (int : Bool) (els : List (Nat × BitVec 32)) : s.takeTiles t 0 int els = .taken (s.sweepTiles (s.team t).core) [] := by
  unfold State.takeTiles
  dsimp only
  rw [if_pos (Nat.zero_le _)]
  simp

theorem issue_congr (y : Exe) (o : EngOp) (k k' : Exe → BitVec 64 → Nat → State) (h : ∀ fut n, k { y with s := y.issued o } fut n = k' { y with s := y.issued o } fut n) :
    y.issue o k = y.issue o k' := by
  rw [Exe.issue_eq, Exe.issue_eq, h]

theorem mma_cont (x : Exe) (i : Instr) (f : MmaForm) (scope : Nat) (b : List Byte) (j : Joiner) (hj : j.group = x.gid) (u : State)
    (hu : ∃ tiles ops, u = { x.s with tiles := tiles, ops := ops } ∧ ops.map (fun o => (o.1, o.2.team, o.2.cls, o.2.status)) = x.s.ops.map (fun o => (o.1, o.2.team, o.2.cls, o.2.status))) (ts : List Nat) :
        let res := [j].zip (joinResults f.spec [j] ts)
        (Exe.issue { x with s := u } (Exe.mmaOp { x with s := u } i f scope res (x.onceVals i) b) fun y fut _ =>
          let s := res.foldl (fun s q =>
            if q.1.group = y.gid then s else s.giveResults q.1.group q.1.path [.bits fut, q.2]) (id y.s)
          let mine := (res.find? fun q => q.1.group == y.gid).map Prod.snd
          (y.upon s).commitAll i [.bits fut, mine.getD (.bits 0)] (y.onceFlags i)) =
        Exe.issue { x with s := u } { x.newOp i 2 (x.onceVals i) (max scope 2) none (fbSlabs b * 2) 0 with
            members := [(j.group, j.path, [argOf j.ops 1, (j.result f.spec ts).1, argOf j.ops (if f.kind = 2 then 3 else 2), argOf j.ops 4])], spec := f.spec, status := Exe.mmaStatus { x with s := u } f.kind b (argOf (x.onceVals i) 2) }
          fun y fut _ => y.commitAll i [.bits fut, (j.result f.spec ts).1] (x.onceFlags i) := by
  intro res
  have hz : res = [(j, (j.result f.spec ts).1)] := rfl
  have ho : Exe.mmaOp { x with s := u } i f scope res (x.onceVals i) b = { x.newOp i 2 (x.onceVals i) (max scope 2) none (fbSlabs b * 2) 0 with
            members := [(j.group, j.path, [argOf j.ops 1, (j.result f.spec ts).1, argOf j.ops (if f.kind = 2 then 3 else 2), argOf j.ops 4])], spec := f.spec, status := Exe.mmaStatus { x with s := u } f.kind b (argOf (x.onceVals i) 2) } := by
    rw [hz]
    unfold Exe.mmaOp
    dsimp only [List.map_cons, List.map_nil, List.length_cons, List.length_nil]
    rw [Nat.zero_add, Nat.mul_one]
    obtain ⟨tiles, ops, rfl, _⟩ := hu
    rfl
  rw [ho, hz]
  refine issue_congr _ _ _ _ fun fut n => ?_
  simp only [List.foldl_cons, List.foldl_nil, hj, if_true, List.find?_cons, beq_self_eq_true, Option.map_some, Option.getD_some]
  obtain ⟨tiles, ops, rfl, _⟩ := hu
  exact congrArg (Exe.commitAll _ i _) (Exe.onceFlags_upon x _ i rfl)

theorem join_result (j : Joiner) (spec : Bool) (ts : List Nat) (t : Nat) (sp : Option Nat) (h : argOf j.ops 1 = .acc t sp) :
    (j.result spec ts).1 = if spec then (if j.takes spec then .acc t (some (ts.headD 0)) else .acc t sp)
        else if j.inPlace then .acc t none else .acc (ts.headD 0) none := by
  unfold Joiner.result
  rw [h]
  dsimp only
  cases spec with
  | true =>
      simp only [if_true]
      cases j.takes true <;> rfl
  | false =>
      simp only [Bool.false_eq_true, if_false]
      cases j.inPlace <;> rfl

theorem fresh_result (j : Joiner) (spec : Bool) (k : Nat) (t : Nat) (sp : Option Nat) (h : argOf j.ops 1 = .acc t sp) (ht : j.takes spec = true) :
    (j.result spec [k]).1 = if spec then .acc t (some k) else .acc k none := by
  rw [join_result j spec [k] t sp h, ht]
  cases spec with
  | true => rfl
  | false =>
      unfold Joiner.takes at ht
      rw [h] at ht
      simp only [Bool.false_and, Bool.false_eq_true, if_false, Bool.not_eq_true'] at ht
      rw [ht]; rfl

theorem mma_one {s : State} {x : Exe} (hx : s.exe? = some x) (hc : x.calm) (hp : x.p.place = .core) (i : Instr) (f : MmaForm) (scope : Nat)
    (hex : exec i s = .next (x.mma i f scope)) (hf : f.kind ≤ 2) :
      let v := fun i k => argOf (x.onceVals i) k
      let raises := fun code => x.Raises s i code (x.active i.ctl)
      let bad := x.mmaBad f (x.onceVals i)
      let latch := x.team.latch (cohortLatch x.g.cohort)
      (∀ res, x.p.stage = .issued res →
        ∃ t, exec i s = .next t ∧ x.Completes i (x.flagged (flagIf (x.oncePoison i) flagPO)) (x.only i fun _ => res) t) ∧
      (x.p.stage = .failed → raises trapHandle) ∧
      (x.p.stage = .none → (∀ w ∈ latch, w.group ≠ x.gid) → ∀ code, bad = some code → raises code) ∧
      (x.p.stage = .none → (∀ w ∈ latch, w.group ≠ x.gid) → bad = none → cohortValid x.g.cohort = false → x.here = some i →
        x.issueWaits 2 = true → exec i s = .next x.s) ∧
      (x.p.stage = .none → (∀ w ∈ latch, w.group ≠ x.gid) → bad = none → cohortValid x.g.cohort = false → x.here = some i →
        x.issueWaits 2 = false → ∀ b t sp, (v i 0).block = some b → v i 1 = .acc t sp →
        let own := (f.spec = true → sp ≠ none) ∧ x.lastUse i (sp.getD t) = true
        let issues := fun (u : State) (r : Val) =>
          let o := x.newOp i 2 (x.onceVals i) (max scope 2) none (fbSlabs b * 2) 0
          x.Issues s i { x with s := u }
            { o with
              members := [(x.gid, x.pid, [v i 1, r, v i (if f.kind = 2 then 3 else 2), v i 4])], spec := f.spec
              status := Exe.mmaStatus { x with s := u } f.kind b (v i 2) } id fun fut => [.bits fut, r]
        (own → issues (x.s.sweepTiles x.team.core) (.acc t (if f.spec then sp else none))) ∧
        (¬ own → match x.s.takeTiles x.g.team 1 (fbInt b) [] with
          | .taken u ts => ∃ k, ts = [k] ∧ issues u (if f.spec then .acc t (some k) else .acc k none)
          | .wait => exec i s = .next x.s
          | .full => raises trapHandle)) ∧
      (x.p.stage = .none → latch = [] → bad = none → cohortValid x.g.cohort = true → 1 < cohortSize x.g.cohort →
        let me : LatchWait := ⟨x.gid, x.pid, cohortPos x.g.cohort, cohortSize x.g.cohort, f.kind + if f.spec then 4 else 0, x.onceVals i, x.p.mode⟩
        let u := x.s.setTeam x.g.team { x.team with latches := mset x.team.latches (cohortLatch x.g.cohort) [me] }
        u.latchDead x.g.team (cohortLatch x.g.cohort) = false → exec i s = .next u) := by
  intro v raises bad latch
  have e0 : x.p.stage = .none → (∀ w ∈ latch, w.group ≠ x.gid) → exec i s = .next (match bad with
        | some code => x.trap i code (x.active i.ctl) 0
        | none =>
            let me : LatchWait := ⟨x.gid, x.pid, cohortPos x.g.cohort, cohortSize x.g.cohort, f.kind + if f.spec then 4 else 0, x.onceVals i, x.p.mode⟩
            if cohortValid x.g.cohort = false then x.mmaIssue i f scope [x.s.joiner me] (x.onceVals i) id
            else
              let kindOf := fun t => ((x.tileOf t).map Tile.int).getD false
              let all := latch ++ [me]
              let full := decide (me.size ≤ all.length)
              let s := x.s.setTeam x.g.team { x.team with latches := mset x.team.latches (cohortLatch x.g.cohort) all }
              let fails := latch.any (fun w => w.size != me.size || w.pos == me.pos) || s.latchDead x.g.team (cohortLatch x.g.cohort) ||
                (full && latch.any fun w => w.key kindOf != me.key kindOf)
              if fails then s.failLatch x.g.team (cohortLatch x.g.cohort)
              else if full then
                let sorted := (List.range me.size).filterMap fun p => all.find? fun w => w.pos == p
                x.mmaIssue i f scope (sorted.map x.s.joiner) (x.onceVals i) fun s =>
                  let t := s.team x.g.team
                  s.setTeam x.g.team { t with latches := mdel t.latches (cohortLatch x.g.cohort) }
              else s) := by
    intro hs hl
    refine hex.trans (congrArg _ ?_)
    unfold Exe.mma
    rw [hs]
    rw [Exe.onCore_core hp, Exe.once_calm hc]
    dsimp only
    have hno : ¬ ((x.team.latch (cohortLatch x.g.cohort)).any fun w => w.group == x.gid) = true := by
      intro h
      rw [List.any_eq_true] at h
      obtain ⟨w, hw, h⟩ := h
      exact hl w hw (by simpa using h)
    rw [if_neg hno]
    all_goals rfl
  refine ⟨?_, ?_, ?_, ?_, ?_, ?_⟩
  · intro res hs
    unfold Exe.mma at hex
    rw [hs] at hex
    exact ⟨_, hex, Exe.commitAll_completes x i res _⟩
  · intro hs
    unfold Exe.mma at hex
    rw [hs] at hex
    exact hex
  · intro hs hl code hb
    have e := e0 hs hl
    rw [hb] at e
    exact e
  · intro hs hl hb hcv hh hw
    have e := e0 hs hl
    rw [hb] at e
    dsimp only at e
    rw [if_pos hcv] at e
    unfold Exe.mmaIssue at e
    rw [if_pos hw] at e
    exact e
  · intro hs hl hb hcv hh hw b t sp hblock hacc own issues
    have e := e0 hs hl
    rw [hb] at e
    dsimp only at e
    rw [if_pos hcv] at e
    unfold Exe.mmaIssue at e
    rw [if_neg (by rw [hw]; decide)] at e
    have hj : x.s.joiner ⟨x.gid, x.pid, cohortPos x.g.cohort, cohortSize x.g.cohort, f.kind + if f.spec then 4 else 0, x.onceVals i, x.p.mode⟩ =
        ⟨x.gid, x.pid, x.onceVals i, x.lastUse i (sp.getD t)⟩ := by
      unfold State.joiner
      dsimp only
      rw [exeOf_self hx, show argOf (x.onceVals i) 1 = .acc t sp from hacc]
      dsimp only
      rw [hh]
    rw [hj] at e
    rw [show (argOf (x.onceVals i) 0).block = some b from hblock] at e
    have htakes : Joiner.takes ⟨x.gid, x.pid, x.onceVals i, x.lastUse i (sp.getD t)⟩ f.spec = if f.spec && sp.isNone then true else !x.lastUse i (sp.getD t) := by
      unfold Joiner.takes
      dsimp only
      rw [show argOf (x.onceVals i) 1 = .acc t sp from hacc]
    have hown : own ↔ Joiner.takes ⟨x.gid, x.pid, x.onceVals i, x.lastUse i (sp.getD t)⟩ f.spec = false := by
      rw [htakes]
      show (_ ∧ _) ↔ _
      cases f.spec <;> cases sp <;> simp
    have hres := fun ts => join_result ⟨x.gid, x.pid, x.onceVals i, x.lastUse i (sp.getD t)⟩ f.spec ts t sp hacc
    dsimp only at hres
    have cont := mma_cont x i f scope b ⟨x.gid, x.pid, x.onceVals i, x.lastUse i (sp.getD t)⟩ rfl
    refine ⟨?_, ?_⟩
    · intro ho
      have ht := hown.mp ho
      rw [List.filter_cons_of_neg (by rw [ht]; decide), withTiles_eq, List.filter_nil, List.length_nil, take_none] at e
      dsimp only at e
      have hr' : (Joiner.result ⟨x.gid, x.pid, x.onceVals i, x.lastUse i (sp.getD t)⟩ f.spec []).1 = .acc t (if f.spec then sp else none) := by
        rw [hres, ht, ho.2]
        cases f.spec <;> rfl
      refine issues_tiles i _ _ _ ⟨_, _, rfl, rfl⟩ hw (e.trans (congrArg _ ?_))
      rw [← hr']
      exact cont (x.s.sweepTiles x.team.core) ⟨_, _, rfl, rfl⟩ []
    · intro ho
      have ht : Joiner.takes ⟨x.gid, x.pid, x.onceVals i, x.lastUse i (sp.getD t)⟩ f.spec = true := by
        rw [hown] at ho
        cases h : Joiner.takes ⟨x.gid, x.pid, x.onceVals i, x.lastUse i (sp.getD t)⟩ f.spec with
        | true => rfl
        | false => exact absurd h ho
      dsimp only at e
      rw [List.filter_cons_of_pos (by exact ht), withTiles_eq, List.filter_nil, List.length_cons, List.length_nil] at e
      change exec i s = .next (match x.s.takeTiles x.g.team 1 (fbInt b) [] with
        | .taken u ts => _
        | .wait => _
        | .full => _) at e
      cases hq : x.s.takeTiles x.g.team 1 (fbInt b) [] with
      | wait => rw [hq] at e; exact e
      | full => rw [hq] at e; exact e
      | taken u ts =>
        rw [hq] at e
        dsimp only at e ⊢
        obtain ⟨h1, h2⟩ := taken_eq hq
        obtain ⟨k, rfl⟩ := List.length_eq_one_iff.mp h1
        refine ⟨k, rfl, ?_⟩
        have hr' := fresh_result ⟨x.gid, x.pid, x.onceVals i, x.lastUse i (sp.getD t)⟩ f.spec k t sp hacc ht
        refine issues_tiles i _ _ _ h2 hw (e.trans (congrArg _ ?_))
        rw [← hr']
        exact cont u h2 [k]
  · intro hs hl hb hcv hsz me u hd
    have e := e0 hs (by rw [hl]; intro w hw; cases hw)
    rw [hb, hl] at e
    dsimp only at e
    rw [if_neg (by rw [hcv]; decide)] at e
    rw [if_neg, if_neg] at e
    · exact e
    · simp; omega
    · simp only [List.any_nil, List.nil_append, Bool.false_or, Bool.and_false, Bool.or_false]
      intro h
      rw [hd] at h
      cases h

theorem launch_plain (x : Exe) (i : Instr) (o : EngOp) (hb : o.bar = none) :
    x.launchOp i o = x.issue o fun y fut _ => y.commitAll i [.bits fut] (x.onceFlags i) := by
  rw [Exe.launchOp_eq, hb]
  rfl

theorem launch_issues {s : State} {x : Exe} (i : Instr) (o : EngOp) (hb : o.bar = none) (hex : exec i s = .next (x.launchOp i o)) :
    x.Issues s i x o id fun fut => [.bits fut] := by
  refine Exe.issue_issues i o id _ x (hex.trans (congrArg _ ?_))
  rw [launch_plain x i o hb]
  rfl

theorem accMapOk_iff (d : Desc) : accMapOk d = true ↔ tmNdim d = 2 ∧ tmBox d 0 ≤ 64 ∧ tmBox d 1 ≤ 32 ∧ tmFmt d ≠ 24 := by
  unfold accMapOk; simp [and_assoc]

end

end Sys2Proof.Machine
end

