-- ==== Sys2Proof/Laws/Collectives.lean ====
section
/-! SUPPORT. Collectives, translation control, seals and cuttings: fresh handles and what an operation issues. -/

namespace Sys2Proof.Machine

set_option Elab.async false

section
set_option linter.all false

theorem pigeon : ∀ (n : Nat) (used : List Nat), used.length < n → ∃ k, k < n ∧ k ∉ used
  | 0, used, h => absurd h (Nat.not_lt_zero _)
  | n + 1, used, h => by
      by_cases hn : n ∈ used
      · have hl : (used.erase n).length < n := by
          rw [List.length_erase_of_mem hn]
          have := List.length_pos_of_mem hn
          omega
        obtain ⟨k, hk, hk'⟩ := pigeon n (used.erase n) hl
        refine ⟨k, by omega, fun hm => hk' ?_⟩
        exact (List.mem_erase_of_ne (by omega)).mpr hm
      · exact ⟨n, by omega, hn⟩

theorem fresh_nextHandle (used : List Nat) : ∀ (fuel h : Nat), h < 65536 → (∃ j, j ≤ fuel ∧ (h + j) % 65536 ∉ used) → nextHandle used fuel h < 65536 ∧ nextHandle used fuel h ∉ used
  | 0, h, hh, ⟨j, hj, hu⟩ => by
      have : j = 0 := by omega
      subst this
      rw [Nat.add_zero, Nat.mod_eq_of_lt hh] at hu
      exact ⟨hh, hu⟩
  | fuel + 1, h, hh, ⟨j, hj, hu⟩ => by
      unfold nextHandle
      split
      · next hc =>
        rw [List.contains_eq_mem, decide_eq_true_eq] at hc
        cases j with
        | zero => rw [Nat.add_zero, Nat.mod_eq_of_lt hh] at hu; exact absurd hc hu
        | succ j =>
          refine fresh_nextHandle used fuel ((h + 1) % 65536) (Nat.mod_lt _ (by decide)) ⟨j, by omega, ?_⟩
          rw [Nat.mod_add_mod, show h + 1 + j = h + (j + 1) by omega]
          exact hu
      · next hc =>
        rw [List.contains_eq_mem, decide_eq_true_eq] at hc
        exact ⟨hh, hc⟩

theorem handle_fresh (used : List Nat) (h : Nat) (hl : used.length < 65536) (hh : h < 65536) : nextHandle used used.length h < 65536 ∧ nextHandle used used.length h ∉ used := by
  refine fresh_nextHandle used _ h hh ?_
  -- among the used.length + 1 values from h on, one is not used
  obtain ⟨k, hk, hk'⟩ := pigeon (used.length + 1) (used.map fun u => (u + (65536 - h)) % 65536) (by simp)
  refine ⟨k, by omega, fun hm => hk' (List.mem_map.mpr ⟨_, hm, ?_⟩)⟩
  omega

theorem issue_congr_next (y : Exe) (o : EngOp) (k k' : Exe → BitVec 64 → Nat → State) (h : ∀ fut n, n = y.s.next → k { y with s := y.issued o } fut n = k' { y with s := y.issued o } fut n) :
    y.issue o k = y.issue o k' := by
  rw [Exe.issue_eq, Exe.issue_eq, h _ _ rfl]

/-- Issuing from a state that holds other cache lines. -/
theorem issues_over {s : State} {x : Exe} (i : Instr) (o : EngOp) (l2 : List L2Line) (after : State → State) (res : BitVec 64 → List Val)
    (hw : x.issueWaits o.cls = true → exec i s = .next x.s)
    (hex : x.issueWaits o.cls = false → exec i s = .next (Exe.issue { x with s := { x.s with l2 := l2 } } o fun y fut _ => Exe.commitAll { x with s := after y.s } i (res fut) (x.onceFlags i))) :
    x.Issues s i { x with s := { x.s with l2 := l2 } } o after res := by
  refine Exe.issue_issues i o after res { x with s := { x.s with l2 := l2 } } ?_
  have hww : Exe.issueWaits { x with s := { x.s with l2 := l2 } } o.cls = x.issueWaits o.cls := rfl
  rw [hww]
  cases h : x.issueWaits o.cls with
  | true => rw [if_pos rfl]; exact hw h
  | false =>
    rw [if_neg (by decide)]
    have := hex h
    rw [Exe.issue_eq, if_neg (by rw [hww, h]; decide)] at this
    exact this

theorem build_issues {s : State} {x : Exe} (i : Instr) (scope : Nat) (vs : List Val) (l2 : List L2Line) (down : Bool) (ms : Option (List Nat))
    (hw : x.issueWaits 3 = true → exec i s = .next x.s)
    (hex : x.issueWaits 3 = false → exec i s = .next (Exe.collBuild { x with s := { x.s with l2 := l2 } } i scope vs down ms)) 
    (st : BitVec 8) (hst : st = match ms with
      | none => if down then futLinkKey else futMismatch
      | some l => if !x.s.listOk l then futMismatch else if x.s.membersUp x.eid l then futPending else futLinkKey)
    (hlen : x.encl.handles.length < 65536) :
       ∃ h, h < 65536 ∧ h ∉ x.encl.handles ∧ x.Issues s i { x with s := { x.s with l2 := l2 } } { Exe.newOp { x with s := { x.s with l2 := l2 } } i 3 vs scope none 0 0 with status := st }
         (fun t =>
           let t := t.setEncl x.eid { t.encl x.eid with handles := (t.encl x.eid).handles ++ [h] }
           if st = futPending then { t with colls := t.colls ++ [(x.s.next, ⟨x.eid, h, ms.getD [], .building, 0, false, x.s.next, 0, [], listDigest (ms.getD []), [], []⟩)] } else t)
         fun fut => [.bits fut, ofTy .i32 h] := by
  have hf := handle_fresh x.encl.handles (Config.freeNat (.choice 2000) x.s.free % 65536) hlen (Nat.mod_lt _ (by decide))
  refine ⟨nextHandle x.encl.handles x.encl.handles.length (Config.freeNat (.choice 2000) x.s.free % 65536), hf.1, hf.2, issues_over i _ l2 _ _ hw fun h => (hex h).trans (congrArg _ ?_)⟩
  unfold Exe.collBuild
  rw [if_neg (by show ¬ 65536 ≤ x.encl.handles.length; omega)]
  subst hst
  cases ms with
  | none =>
    refine issue_congr_next _ _ _ _ fun fut n hn => ?_
    subst hn
    exact congrArg (Exe.commitAll _ i _) (Exe.onceFlags_upon x _ i rfl)
  | some l =>
    refine issue_congr_next _ _ _ _ fun fut n hn => ?_
    subst hn
    exact congrArg (Exe.commitAll _ i _) (Exe.onceFlags_upon x _ i rfl)

theorem cacheOp_next {s : State} {x : Exe} (hx : s.exe? = some x) (hc : x.calm) (i : Instr) (f : State → List (Nat × Nat) → State)
    (h : exec i s = .next (x.cacheOp i f)) :
    ∃ t, exec i s = .next t ∧ Exe.Completes { x with s := f x.s (x.allLines i) } i (x.flagged (x.raised i fun _ => 0)) (fun _ => none) t := by
  unfold Exe.cacheOp at h
  rw [x.judge_calm i _ hc (fun _ => []) (fun _ => 0) (fun _ _ => rfl)] at h
  exact ⟨_, h, Exe.complete_completes { x with s := f x.s (x.allLines i) } i [] _ (fun _ => none) (fun _ _ => rfl) fun _ _ => rfl⟩

theorem xctl_form (i : Instr) (s : State) (x : Exe) (hx : s.exe? = some x) (hc : x.calm) (hp : x.p.place = .core) (he : exec i s = .next (x.xctl i)) :
      let a := (argOf (x.onceVals i) 0).toBits
      let n := numOf (x.onceVals i) 1
      (n = 0 → ∃ t, exec i s = .next t ∧
        x.Completes i (x.flagged (flagIf (x.oncePoison i) flagPO)) (x.only i fun _ => if i.ctl.ndef = 0 then [] else [ofTy .i32 0]) t) ∧
      (n ≠ 0 → canonical a = false → x.Raises s i trapHandle (x.active i.ctl)) ∧
      (n ≠ 0 → canonical a = true → (x.gid, x.pid) ∉ x.s.xctls → exec i s = .next { x.s with xctls := x.s.xctls ++ [(x.gid, x.pid)] }) ∧
      (∀ f u room, x.here = some i → xctlForm i = some f → (x.gid, x.pid) ∈ x.s.xctls →
        x.s.xctl x.eid [x.team.core] (some x.team.launch) [(x.g.width, x.launch.budget x.g.role)] (low48 a, n) f = .ok (u, room) →
        ∃ t, exec (.xctlComplete x.gid x.pid) s = .next t ∧
          Exe.Completes { x with s := { u with xctls := u.xctls.filter (· != (x.gid, x.pid)) } } i
            (x.flagged (flagIf (x.oncePoison i) flagPO)) (x.only i fun _ => if i.ctl.ndef = 0 then [] else [ofTy .i32 (if room then 0 else 1)]) t) := by
  intro a n
  unfold Exe.xctl at he
  rw [Exe.onCore_core hp, Exe.once_calm hc] at he
  refine ⟨?_, ?_, ?_, ?_⟩
  · intro h
    rw [if_pos h] at he
    exact ⟨_, he, Exe.commitAll_completes x i _ _⟩
  · intro h h1
    rw [if_neg h, if_pos h1] at he
    exact he
  · intro h h1 h2
    rw [if_neg h, if_neg (by rw [show canonical (argOf (x.onceVals i) 0).toBits = true from h1]; decide), if_neg (by simpa using h2)] at he
    exact he
  · intro f u room h1 h2 h3 h4
    have hs : x.s = s := (exe_group hx).2.2.1
    have hself : s.exeOf x.gid x.pid = some x := by
      have h := exe_group hx
      unfold State.exeOf
      rw [← h.2.2.2]; exact hx
    have e : exec (.xctlComplete x.gid x.pid) s = .next (
        match s.xctl x.eid [x.team.core] (some x.team.launch) [(x.g.width, x.launch.budget x.g.role)] (xctlRange (x.onceVals i)) f with
                  | .error st => x.stopped .code st
                  | .ok (s, room) =>
                      (x.upon { s with xctls := s.xctls.filter (· != (x.gid, x.pid)) }).commitAll i (xctlResult i !room) (x.onceFlags i)) := by
      show Host.Outcome.next _ = _
      refine congrArg _ ?_
      rw [if_neg (by rw [← hs]; simpa using h3), hself]
      dsimp only
      have hu : x.upon s = x := by rw [← hs]; rfl
      rw [hu]
      unfold Exe.here at h1
      split at h1
      · next i' hi =>
        cases h1
        first
          | (rw [hi]; dsimp only; rw [h2]; rfl)
          | rw [h2]
      · cases h1
      · cases h1
      · cases h1
    rw [← hs] at e
    rw [show x.s.xctl x.eid [x.team.core] (some x.team.launch) [(x.g.width, x.launch.budget x.g.role)] (xctlRange (x.onceVals i)) f = .ok (u, room) from h4] at e
    rw [hs] at e
    dsimp only at e
    refine ⟨_, e, ?_⟩
    have := Exe.commitAll_completes { x with s := { u with xctls := u.xctls.filter (· != (x.gid, x.pid)) } } i (xctlResult i !room) (x.onceFlags i)
    rw [show xctlResult i (!room) = if i.ctl.ndef = 0 then [] else [ofTy .i32 (if room then 0 else 1)] by unfold xctlResult; cases room <;> rfl] at this
    rw [show xctlResult i (!room) = if i.ctl.ndef = 0 then [] else [ofTy .i32 (if room then 0 else 1)] by unfold xctlResult; cases room <;> rfl]
    exact this

theorem fresh_nextSeal (used : List Nat) : ∀ (fuel h : Nat), h < 32 → (∃ j, j ≤ fuel ∧ (h + j) % 32 ∉ used) → nextSeal used fuel h < 32 ∧ nextSeal used fuel h ∉ used
  | 0, h, hh, ⟨j, hj, hu⟩ => by
      have : j = 0 := by omega
      subst this
      rw [Nat.add_zero, Nat.mod_eq_of_lt hh] at hu
      exact ⟨hh, hu⟩
  | fuel + 1, h, hh, ⟨j, hj, hu⟩ => by
      unfold nextSeal
      split
      · next hc =>
        rw [List.contains_eq_mem, decide_eq_true_eq] at hc
        cases j with
        | zero => rw [Nat.add_zero, Nat.mod_eq_of_lt hh] at hu; exact absurd hc hu
        | succ j =>
          refine fresh_nextSeal used fuel ((h + 1) % 32) (Nat.mod_lt _ (by decide)) ⟨j, by omega, ?_⟩
          rw [Nat.mod_add_mod, show h + 1 + j = h + (j + 1) by omega]
          exact hu
      · next hc =>
        rw [List.contains_eq_mem, decide_eq_true_eq] at hc
        exact ⟨hh, hc⟩

theorem seal_fresh (used : List Nat) (h : Nat) (hl : used.length < 32) (hh : h < 32) : nextSeal used 32 h < 32 ∧ nextSeal used 32 h ∉ used := by
  refine fresh_nextSeal used _ h hh ?_
  obtain ⟨k, hk, hk'⟩ := pigeon (used.length + 1) (used.map fun u => (u + (32 - h)) % 32) (by simp)
  refine ⟨k, by omega, fun hm => hk' (List.mem_map.mpr ⟨_, hm, ?_⟩)⟩
  omega

theorem onceActive_calm {x : Exe} (hc : x.calm) (i : Instr) (ha : x.active i.ctl ≠ []) (k : List Val → State) : x.onceActive i k = k (x.onceVals i) := by
  unfold Exe.onceActive
  cases hq : x.active i.ctl with
  | nil => exact absurd hq ha
  | cons _ _ => exact Exe.once_calm hc _ _

theorem depart_eq {s : State} {x : Exe} (i : Instr) (scope : Nat) (k : Option Nat) (hs : scope = if Exe.cutDepart.xScopeFabric i then 7 else 5) :
    exec i s = .next (x.cutDepart i (x.onceVals i) k) →
      let cut := (k.bind (mget x.s.cuts)).filter fun q => !q.refused
      let st := match cut with
        | none => futRefused
        | some q => if q.ended = false then futPending else if q.drained = q.used then futOK else futDrain
      x.Issues s i x { x.newOp i 6 (x.onceVals i) scope none 0 0 with status := st }
        (fun t => match k, cut with
          | some n, some q => { t with cuts := mset t.cuts n { q with ops := q.ops ++ [x.s.next] } }
          | _, _ => t) fun fut => [.bits fut] := by
  intro he cut st
  refine Exe.issue_issues i _ _ _ x (he.trans (congrArg _ ?_))
  subst hs
  unfold Exe.cutDepart
  dsimp only
  rw [Exe.issue_eq]
  cases hk : cut with
  | none =>
    have h1 : (k.bind (mget x.s.cuts)).filter (fun q => !q.refused) = none := hk
    have hst : st = futRefused := by show (match cut with | none => _ | some q => _) = _; rw [hk]
    rw [h1, hst]
    cases k <;> rfl
  | some q =>
    have h1 : (k.bind (mget x.s.cuts)).filter (fun q => !q.refused) = some q := hk
    have hst : st = if (!q.ended) = true then futPending else if q.drained = q.used then futOK else futDrain := by
      show (match cut with | none => _ | some q => _) = _
      rw [hk]; dsimp only; cases q.ended <;> rfl
    rw [h1, hst]
    cases k with
    | none => cases h1
    | some n => rfl

theorem mget_map_snd {α β : Type} (m : List (Nat × α)) (f : Nat × α → β) (k : Nat) :
    mget (m.map fun q => (q.1, f q)) k = (m.find? fun q => q.1 == k).map f := by
  induction m with
  | nil => rfl
  | cons a m ih =>
    simp only [List.map_cons, mget, List.find?_cons]
    by_cases h : a.1 = k
    · simp [h]
    · simp only [if_neg h, show (a.1 == k) = false by simpa using h, ih]

theorem find_mget {α : Type} (m : List (Nat × α)) (k : Nat) (v : α) (h : mget m k = some v) : (m.find? fun q => q.1 == k) = some (k, v) := by
  induction m with
  | nil => cases h
  | cons a m ih =>
    obtain ⟨b, w⟩ := a
    simp only [mget] at h
    simp only [List.find?_cons]
    by_cases hb : b = k
    · rw [if_pos hb] at h; cases h; simp [hb]
    · rw [if_neg hb] at h; simp only [show (b == k) = false by simpa using hb, ih h]

end

end Sys2Proof.Machine
end

