-- ==== Sys2Proof/Laws/Crosslane.lean ====
section
/-! SUPPORT. Cross-lane computations (R316 to R322): masks, leaders and scans. -/

namespace Sys2Proof.Machine

set_option Elab.async false

section
set_option linter.all false

theorem peersOf_bit (x : Exe) (i : Instr) (vs : List Val) (j : Nat) : (peersOf (x.allArgs i) vs).getLsbD j = true ↔ j ∈ x.active i.ctl ∧ argOf (x.args i j) 0 = argOf vs 0 := by
  unfold peersOf
  rw [getLsbD_maskOf, allArgs_filter x i fun ws => argOf ws 0 == argOf vs 0]
  simp only [decide_eq_true_eq, List.mem_filter, beq_iff_eq]
  exact ⟨fun h => h.2, fun h => ⟨active_lt h.1, h⟩⟩

theorem leastLane_spec {m : LaneMask} {l : Nat} (h : m.getLsbD l = true) : m.getLsbD (leastLane m) = true ∧ ∀ j, m.getLsbD j = true → leastLane m ≤ j := by
  have hl : l ∈ lanesOf m := by
    rw [mem_lanesOf]; exact ⟨Decidable.byContradiction fun hc => by rw [BitVec.getLsbD_of_ge _ _ (by omega)] at h; exact absurd h (by decide), h⟩
  have hs := sorted_lanesOf m
  unfold leastLane
  cases hq : lanesOf m with
  | nil => rw [hq] at hl; cases hl
  | cons a ls =>
    rw [hq] at hs
    have ha : a ∈ lanesOf m := by rw [hq]; exact List.mem_cons_self ..
    refine ⟨(mem_lanesOf.mp ha).2, ?_⟩
    intro j hj
    have hj' : j ∈ lanesOf m := by
      rw [mem_lanesOf]; exact ⟨Decidable.byContradiction fun hc => by rw [BitVec.getLsbD_of_ge _ _ (by omega)] at hj; exact absurd hj (by decide), hj⟩
    rw [hq] at hj'
    rcases List.mem_cons.mp hj' with rfl | h
    · exact Nat.le_refl _
    · exact Nat.le_of_lt ((List.pairwise_cons.mp hs).1 j h)

theorem distinct_mem {α : Type} [DecidableEq α] : ∀ (vs : List α) (v : α), v ∈ distinct vs ↔ v ∈ vs
  | [], v => by simp [distinct]
  | a :: vs, v => by
    simp only [distinct]
    split
    · next h => rw [distinct_mem vs v]; simp only [List.contains_iff_mem] at h; simp; intro e; subst e; exact h
    · simp [distinct_mem vs v]

theorem distinct_len {α : Type} [DecidableEq α] (f : Nat → α) : ∀ (ls : List Nat), ls.Pairwise (· < ·) → 
   (distinct (ls.map f)).length = ls.countP fun j => ls.all fun q => decide (j < q → ¬ f j = f q)
  | [], _ => rfl
  | a :: ls, hp => by
    have hp' := List.pairwise_cons.mp hp
    have ih := distinct_len f ls hp'.2
    have step : ls.countP (fun j => (a :: ls).all fun q => decide (j < q → ¬ f j = f q)) = ls.countP fun j => ls.all fun q => decide (j < q → ¬ f j = f q) := by
      apply List.countP_congr
      intro j hj
      have := hp'.1 j hj
      simp only [List.all_cons, Bool.and_eq_true]
      constructor
      · exact fun h => h.2
      · exact fun h => ⟨by simp; omega, h⟩
    rw [List.countP_cons, step, ← ih]
    simp only [List.map_cons, distinct]
    have : ((a :: ls).all fun q => decide (a < q → ¬ f a = f q)) = !(ls.map f).contains (f a) := by
      rw [Bool.eq_iff_iff]
      simp only [List.all_cons, Nat.lt_irrefl, false_implies, decide_true, Bool.true_and, List.all_eq_true, decide_eq_true_eq, Bool.not_eq_true', List.contains_eq_mem, decide_eq_false_iff_not, List.mem_map, not_exists, not_and]
      constructor
      · intro h q hq hf; exact h q hq (hp'.1 q hq) hf.symm
      · intro h q hq _ hf; exact h q hq hf.symm
    rw [this]
    cases (ls.map f).contains (f a) <;> simp

theorem trueLanes_eq (x : Exe) (i : Instr) : trueLanes (x.allArgs i) = maskOf ((x.active i.ctl).filter fun l => (argOf (x.args i l) 0).isTrue) := by
  unfold trueLanes; rw [allArgs_filter x i fun ws => (argOf ws 0).isTrue]

theorem lanes_allMask (x : Exe) (i : Instr) : maskOf ((x.allArgs i).map Prod.fst) = maskOf (x.active i.ctl) := by
  unfold Exe.allArgs; rw [List.map_map]; simp [Function.comp_def]

theorem maskOf_filter_all (m : LaneMask) (p : Nat → Bool) : (maskOf ((lanesOf m).filter p) == maskOf (lanesOf m)) = (lanesOf m).all p := by
  rw [Bool.eq_iff_iff]
  simp only [beq_iff_eq, List.all_eq_true]
  constructor
  · intro h l hl
    have h1 : (maskOf (lanesOf m)).getLsbD l = true := by rw [getLsbD_maskOf]; simp [hl, (mem_lanesOf.mp hl).1]
    rw [← h, getLsbD_maskOf] at h1
    simp at h1; exact h1.2.2
  · intro h
    rw [List.filter_eq_self.mpr h]

theorem maskOf_filter_none (m : LaneMask) (p : Nat → Bool) : (maskOf ((lanesOf m).filter p) == 0) = !(lanesOf m).any p := by
  rw [Bool.eq_iff_iff]
  simp only [beq_iff_eq, Bool.not_eq_true', List.any_eq_false]
  constructor
  · intro h l hl hp
    have h1 : (maskOf ((lanesOf m).filter p)).getLsbD l = true := by rw [getLsbD_maskOf]; simp [hl, (mem_lanesOf.mp hl).1, hp]
    rw [h] at h1; simp at h1
  · intro h
    rw [List.filter_eq_nil_iff.mpr h]; rfl

theorem getLsbD_ofNat_div (w v n : Nat) : (BitVec.ofNat w v).getLsbD n = (decide (n < w) && v.testBit n) := by
  simp [BitVec.getLsbD_ofNat]

theorem body_add {w v : Nat} (b : Nat) (hw : 0 < w) (hb : b < 2) (n : Nat) :
   (v % 2 ^ (w-1) + b * 2 ^ (w-1)).testBit n = if n < w - 1 then v.testBit n else if n = w - 1 then decide (b = 1) else false := by
  have h1 : v % 2 ^ (w-1) < 2 ^ (w-1) := Nat.mod_lt _ (Nat.two_pow_pos _)
  rw [Nat.add_comm, Nat.mul_comm, Nat.testBit_two_pow_mul_add b h1 n, Nat.testBit_mod_two_pow]
  by_cases h : n < w - 1
  · simp [h]
  · by_cases h' : n = w - 1
    · subst h'
      have : b = 0 ∨ b = 1 := by omega
      rcases this with h | h <;> simp [h]
    · have : b.testBit (n - (w-1)) = false := by
        apply Nat.testBit_lt_two_pow
        have : 2 ^ 1 ≤ 2 ^ (n - (w - 1)) := Nat.pow_le_pow_right (by decide) (by omega)
        omega
      simp [h, h', this]

theorem mget_append_one {α : Type} (m : List (Nat × α)) (k : Nat) (v : α) (l : Nat) (h : mget m k = none) : mget (m ++ [(k, v)]) l = if l = k then some v else mget m l := by
  induction m with
  | nil => simp only [List.nil_append, mget]; by_cases hk : k = l <;> simp [hk, eq_comm]
  | cons q m ih =>
    obtain ⟨k', v'⟩ := q
    simp only [List.cons_append, mget] at h ⊢
    by_cases hk : k' = l
    · subst hk
      by_cases hk2 : k' = k
      · subst hk2; simp at h
      · simp [hk2]
    · by_cases hk2 : k' = k
      · subst hk2; simp at h
      · simp only [hk2, ↓reduceIte] at h
        simp only [hk, ↓reduceIte]
        exact ih h

theorem mget_append' {α : Type} (a b : List (Nat × α)) (l : Nat) : mget (a ++ b) l = match mget a l with | some v => some v | none => mget b l := by
  induction a with
  | nil => rfl
  | cons q a ih =>
    obtain ⟨k', v'⟩ := q
    simp only [List.cons_append, mget]
    by_cases hk : k' = l <;> simp [hk, ih]

theorem minMaxElem_toNat (k : MinMax) {w : Nat} (a b : BitVec w) : minMaxElem k w a.toNat b.toNat = (minMaxOf k a b).toNat := by
  have hs : ∀ z : BitVec w, signedOf w z.toNat = z.toInt := by intro z; rw [signedOf_ofNat]; simp
  cases k <;> simp only [minMaxElem, minMaxOf, hs, BitVec.slt, BitVec.lt_def, decide_eq_true_eq] <;> split <;> rfl

section
variable (k : ScanKind) (ex : Bool) (t : Ty) (m : BitVec 64) (r : Nat → Rounding) (vals : List (Nat × List Val))

def scanTo (n : Nat) : Scan := (List.range n).foldl (scanStep k ex t m r vals) ⟨none, []⟩

theorem scanTo_succ (n : Nat) : scanTo k ex t m r vals (n+1) = scanStep k ex t m r vals (scanTo k ex t m r vals n) n := by
  simp [scanTo, List.range_succ]

theorem scanTo_out_none : ∀ (n l : Nat), n ≤ l → mget (scanTo k ex t m r vals n).out l = none := by
  intro n
  induction n with
  | zero => intro l _; rfl
  | succ n ih =>
    intro l hl
    rw [scanTo_succ]
    unfold scanStep
    dsimp only
    split
    · rw [mget_append_one _ _ _ _ (ih n (Nat.le_refl _)), if_neg (by omega), ih l (by omega)]
    · rw [mget_append_one _ _ _ _ (ih n (Nat.le_refl _)), if_neg (by omega), ih l (by omega)]

theorem scanTo_out_lt : ∀ (n l : Nat), l < n → mget (scanTo k ex t m r vals n).out l = mget (scanTo k ex t m r vals (l+1)).out l := by
  intro n
  induction n with
  | zero => intro l h; omega
  | succ n ih =>
    intro l hl
    by_cases h : l = n
    · subst h; rfl
    · rw [← ih l (by omega), scanTo_succ]
      unfold scanStep
      dsimp only
      split
      · rw [mget_append_one _ _ _ _ (scanTo_out_none _ _ _ _ _ _ n n (Nat.le_refl _)), if_neg h]
      · rw [mget_append_one _ _ _ _ (scanTo_out_none _ _ _ _ _ _ n n (Nat.le_refl _)), if_neg h]

theorem scanTo_ex (n : Nat) : (scanTo k true t m r vals n).acc = (scanTo k false t m r vals n).acc := by
  induction n with
  | zero => rfl
  | succ n ih =>
    rw [scanTo_succ, scanTo_succ]
    unfold scanStep
    dsimp only
    rw [ih]
    split <;> rfl
end

theorem scan_id (k : ScanKind) (t : Ty) (hfl : t.isFloat = false) (hw : 0 < t.width) (b : BitVec t.width) :
   (let id := BitVec.ofNat t.width (scanIdentity k t)
    match k with
        | .add => id + b
        | .smin => minMaxOf .smin id b
        | .smax => minMaxOf .smax id b
        | .umin => minMaxOf .umin id b
        | .umax => minMaxOf .umax id b
        | .and => id &&& b
        | .or => id ||| b
        | .xor => id ^^^ b) = b := by
  dsimp only
  generalize hW : t.width = w at *
  have h2w : 2 ^ w = 2 * 2 ^ (w-1) := by rw [Nat.mul_comm, ← Nat.pow_succ]; congr 1; omega
  have hp := Nat.two_pow_pos (w-1)
  have hones : BitVec.ofNat w (2 ^ w - 1) = BitVec.allOnes w := by
    apply BitVec.eq_of_toNat_eq; simp
  have hb1 := BitVec.toInt_lt (x := b)
  have hb2 := BitVec.le_toInt b
  have hbn := b.isLt
  have hpi : ((2:Int) ^ (w-1)) = ((2 ^ (w-1) : Nat) : Int) := by norm_cast
  rw [hpi] at hb1 hb2
  cases k <;> simp only [scanIdentity, hfl, hW, Bool.false_eq_true, ↓reduceIte, minMaxOf, hones]
  · simp
  · split
    · rfl
    · next h =>
      apply BitVec.eq_of_toInt_eq
      have : (BitVec.ofNat w (2 ^ (w-1) - 1)).toInt = ((2 ^ (w-1) : Nat) : Int) - 1 := by
        rw [← signedOf_ofNat]; unfold signedOf; rw [Nat.mod_eq_of_lt (by omega), if_neg (by omega)]; omega
      simp only [BitVec.slt, decide_eq_true_eq, this] at h
      omega
  · split
    · rfl
    · next h =>
      apply BitVec.eq_of_toInt_eq
      have : (BitVec.ofNat w (2 ^ (w-1))).toInt = -((2 ^ (w-1) : Nat) : Int) := by
        rw [← signedOf_ofNat]; unfold signedOf; rw [Nat.mod_eq_of_lt (by omega), if_pos (by omega)]; have : ((2 ^ w : Nat) : Int) = 2 * ((2 ^ (w-1) : Nat) : Int) := by omega
        push_cast at this ⊢; omega
      simp only [BitVec.slt, decide_eq_true_eq, this] at h
      omega
  · split
    · rfl
    · next h =>
      apply BitVec.eq_of_toNat_eq
      simp only [BitVec.lt_def, BitVec.toNat_allOnes] at h ⊢
      omega
  · by_cases h : 0#w < b
    · exact if_pos h
    · refine (if_neg h).trans ?_
      apply BitVec.eq_of_toNat_eq
      simp [BitVec.lt_def] at h ⊢
      exact h.symm
  · simp
  · simp
  · simp

end

end Sys2Proof.Machine
end

