-- ==== Sys2Proof/Laws/Encoding.lean ====
section
/-! SUPPORT. Words (R240 to R243, R250, R266): head words and operand words lead back to their fields, and the operand
words at the head of a list are taken whole. -/

namespace Sys2Proof

set_option Elab.async false

theorem Head.ofWord_word (h : Head) : Head.ofWord h.word = h := by
  obtain ⟨a, b, c, g, d, e, f, x, r⟩ := h
  have := a.isLt; have := b.isLt; have := c.isLt; have := d.isLt; have := e.isLt; have := f.isLt; have := x.isLt; have := r.isLt
  have hg : g.toNat < 2 := by cases g <;> decide
  simp only [Head.ofWord, Head.word, Head.mk.injEq, BitVec.toNat_ofNat]
  refine ⟨?_, ?_, ?_, ?_, ?_, ?_, ?_, ?_, ?_⟩
  all_goals first | (apply BitVec.eq_of_toNat_eq; simp only [BitVec.toNat_ofNat]; omega) | skip
  cases g <;> simp <;> omega

theorem Head.word_ofWord (w : Word) : (Head.ofWord w).word = w := by
  have := w.isLt
  apply BitVec.eq_of_toNat_eq
  have hg : (w.toNat / 2 ^ 16 % 2 == 1).toNat = w.toNat / 2 ^ 16 % 2 := by
    rcases Nat.mod_two_eq_zero_or_one (w.toNat / 2 ^ 16) with h | h <;> rw [h] <;> rfl
  simp only [Head.ofWord, Head.word, BitVec.toNat_ofNat, hg]
  omega

theorem Opnd.ofWords_val (w : Word) (h : w.toNat / 2 ^ 30 = 0) : Opnd.ofWords [w] =
    some (.val (w.toNat / 2 ^ 29 % 2 == 1) (w.toNat / 2 ^ 28 % 2 == 1) (BitVec.ofNat 28 w.toNat)) := by
  unfold Opnd.ofWords; dsimp only; rw [h]; rfl

theorem Opnd.ofWords_imm (w : Word) (h : w.toNat / 2 ^ 30 = 1) : Opnd.ofWords [w] = some (.imm (BitVec.ofNat 30 w.toNat)) := by
  unfold Opnd.ofWords; dsimp only; rw [h]; rfl

theorem Opnd.ofWords_special (w : Word) (h : w.toNat / 2 ^ 30 = 2) : Opnd.ofWords [w] =
    if specialOk (BitVec.ofNat 6 (w.toNat / 2 ^ 24)) (BitVec.ofNat 24 w.toNat) then
      some (.special (BitVec.ofNat 6 (w.toNat / 2 ^ 24)) (BitVec.ofNat 24 w.toNat)) else none := by
  unfold Opnd.ofWords; dsimp only; rw [h]; rfl

theorem Opnd.ofWords_more (w : Word) (lits : List Word) (h : w.toNat / 2 ^ 30 = 3) : Opnd.ofWords (w :: lits) =
    match w.toNat / 2 ^ 28 % 4 with
    | 0 => some (.target (BitVec.ofNat 28 w.toNat))
    | 1 =>
        if w.toNat % 2 ^ 26 = 0 then
          match w.toNat / 2 ^ 26 % 4, lits with
          | 1, [a] => some (.lit1 a)
          | 2, [a, b] => some (.lit2 a b)
          | _, _ => none
        else none
    | 2 => some (.table (BitVec.ofNat 28 w.toNat))
    | _ => none := by
  conv => lhs; unfold Opnd.ofWords
  dsimp only
  rw [h]; rfl

/-- An operand's words lead back to it, and are one operand word with the literal words it calls for (R242, R243, R250). -/
theorem Opnd.ofWords_words (o : Opnd) (h : o.specialFine = true) :
    Opnd.ofWords o.words = some o ∧ ∃ w lits, o.words = w :: lits ∧ litCount w = lits.length := by
  cases o with
  | val last keep id =>
      have := id.isLt
      have hl : last.toNat < 2 := by cases last <;> decide
      have hk : keep.toNat < 2 := by cases keep <;> decide
      have hn : (BitVec.ofNat 32 (last.toNat * 2 ^ 29 + keep.toNat * 2 ^ 28 + id.toNat)).toNat =
        last.toNat * 2 ^ 29 + keep.toNat * 2 ^ 28 + id.toNat := by rw [BitVec.toNat_ofNat]; omega
      refine ⟨?_, _, _, rfl, ?_⟩
      · unfold Opnd.words
        rw [Opnd.ofWords_val _ (by rw [hn]; omega), hn]
        simp only [Option.some.injEq, Opnd.val.injEq]
        refine ⟨?_, ?_, ?_⟩
        · rw [show (last.toNat * 2 ^ 29 + keep.toNat * 2 ^ 28 + id.toNat) / 2 ^ 29 % 2 = last.toNat by omega]; cases last <;> rfl
        · rw [show (last.toNat * 2 ^ 29 + keep.toNat * 2 ^ 28 + id.toNat) / 2 ^ 28 % 2 = keep.toNat by omega]; cases keep <;> rfl
        · apply BitVec.eq_of_toNat_eq; rw [BitVec.toNat_ofNat]; omega
      · unfold litCount; rw [hn, if_neg (by omega)]; rfl
  | imm v =>
      have := v.isLt
      have hn : (BitVec.ofNat 32 (2 ^ 30 + v.toNat)).toNat = 2 ^ 30 + v.toNat := by rw [BitVec.toNat_ofNat]; omega
      refine ⟨?_, _, _, rfl, ?_⟩
      · unfold Opnd.words
        rw [Opnd.ofWords_imm _ (by rw [hn]; omega), hn]
        exact congrArg _ (congrArg _ (BitVec.eq_of_toNat_eq (by rw [BitVec.toNat_ofNat]; omega)))
      · unfold litCount; rw [hn, if_neg (by omega)]; rfl
  | special cls idx =>
      have := cls.isLt
      have := idx.isLt
      have hn : (BitVec.ofNat 32 (2 * 2 ^ 30 + cls.toNat * 2 ^ 24 + idx.toNat)).toNat = 2 * 2 ^ 30 + cls.toNat * 2 ^ 24 + idx.toNat := by
        rw [BitVec.toNat_ofNat]; omega
      refine ⟨?_, _, _, rfl, ?_⟩
      · unfold Opnd.words
        rw [Opnd.ofWords_special _ (by rw [hn]; omega), hn,
          show BitVec.ofNat 6 ((2 * 2 ^ 30 + cls.toNat * 2 ^ 24 + idx.toNat) / 2 ^ 24) = cls from
            BitVec.eq_of_toNat_eq (by rw [BitVec.toNat_ofNat]; omega),
          show BitVec.ofNat 24 (2 * 2 ^ 30 + cls.toNat * 2 ^ 24 + idx.toNat) = idx from
            BitVec.eq_of_toNat_eq (by rw [BitVec.toNat_ofNat]; omega)]
        exact if_pos h
      · unfold litCount; rw [hn, if_neg (by omega)]; rfl
  | target off =>
      have := off.isLt
      have hn : (BitVec.ofNat 32 (12 * 2 ^ 28 + off.toNat)).toNat = 12 * 2 ^ 28 + off.toNat := by rw [BitVec.toNat_ofNat]; omega
      refine ⟨?_, _, _, rfl, ?_⟩
      · unfold Opnd.words
        rw [Opnd.ofWords_more _ _ (by rw [hn]; omega), hn, show (12 * 2 ^ 28 + off.toNat) / 2 ^ 28 % 4 = 0 by omega]
        exact congrArg _ (congrArg _ (BitVec.eq_of_toNat_eq (by rw [BitVec.toNat_ofNat]; omega)))
      · unfold litCount; rw [hn, if_neg (by omega)]; rfl
  | table idx =>
      have := idx.isLt
      have hn : (BitVec.ofNat 32 (14 * 2 ^ 28 + idx.toNat)).toNat = 14 * 2 ^ 28 + idx.toNat := by rw [BitVec.toNat_ofNat]; omega
      refine ⟨?_, _, _, rfl, ?_⟩
      · unfold Opnd.words
        rw [Opnd.ofWords_more _ _ (by rw [hn]; omega), hn, show (14 * 2 ^ 28 + idx.toNat) / 2 ^ 28 % 4 = 2 by omega]
        exact congrArg _ (congrArg _ (BitVec.eq_of_toNat_eq (by rw [BitVec.toNat_ofNat]; omega)))
      · unfold litCount; rw [hn, if_neg (by omega)]; rfl
  | lit1 w => exact ⟨rfl, _, [w], rfl, (by decide : litCount (BitVec.ofNat 32 (13 * 2 ^ 28 + 1 * 2 ^ 26)) = 1)⟩
  | lit2 lo hi => exact ⟨rfl, _, [lo, hi], rfl, (by decide : litCount (BitVec.ofNat 32 (13 * 2 ^ 28 + 2 * 2 ^ 26)) = 2)⟩

/-- The operand that an operand word and as many literal words as it calls for lead to has those words, and names no
unassigned special. -/
theorem Opnd.words_ofWords (w : Word) (lits : List Word) (o : Opnd) (h : Opnd.ofWords (w :: lits) = some o) (hl : litCount w = lits.length) :
    o.words = w :: lits ∧ o.specialFine = true := by
  have hw := w.isLt
  have h4 : w.toNat / 2 ^ 30 = 0 ∨ w.toNat / 2 ^ 30 = 1 ∨ w.toNat / 2 ^ 30 = 2 ∨ w.toNat / 2 ^ 30 = 3 := by omega
  have hnil : w.toNat / 2 ^ 28 ≠ 13 → lits = [] := fun hne => by
    unfold litCount at hl; rw [if_neg hne] at hl; exact List.eq_nil_of_length_eq_zero hl.symm
  rcases h4 with h4 | h4 | h4 | h4
  · obtain rfl := hnil (by omega)
    rw [Opnd.ofWords_val w h4] at h
    cases h
    refine ⟨congrArg (· :: []) (BitVec.eq_of_toNat_eq ?_), rfl⟩
    have hb : ∀ n : Nat, (n % 2 == 1).toNat = n % 2 := fun n => by
      rcases Nat.mod_two_eq_zero_or_one n with h | h <;> rw [h] <;> rfl
    simp only [BitVec.toNat_ofNat, hb]
    omega
  · obtain rfl := hnil (by omega)
    rw [Opnd.ofWords_imm w h4] at h
    cases h
    refine ⟨congrArg (· :: []) (BitVec.eq_of_toNat_eq ?_), rfl⟩
    simp only [BitVec.toNat_ofNat]
    omega
  · obtain rfl := hnil (by omega)
    rw [Opnd.ofWords_special w h4] at h
    split at h
    · cases h
      refine ⟨congrArg (· :: []) (BitVec.eq_of_toNat_eq ?_), ‹_›⟩
      simp only [BitVec.toNat_ofNat]
      omega
    · contradiction
  · rw [Opnd.ofWords_more w lits h4] at h
    split at h
    · obtain rfl := hnil (by omega)
      cases h
      refine ⟨congrArg (· :: []) (BitVec.eq_of_toNat_eq ?_), rfl⟩
      simp only [BitVec.toNat_ofNat]
      omega
    · split at h
      · split at h
        · cases h
          refine ⟨congrArg (· :: [_]) (BitVec.eq_of_toNat_eq ?_), rfl⟩
          simp only [BitVec.toNat_ofNat]
          omega
        · cases h
          refine ⟨congrArg (· :: [_, _]) (BitVec.eq_of_toNat_eq ?_), rfl⟩
          simp only [BitVec.toNat_ofNat]
          omega
        · contradiction
      · contradiction
    · obtain rfl := hnil (by omega)
      cases h
      refine ⟨congrArg (· :: []) (BitVec.eq_of_toNat_eq ?_), rfl⟩
      simp only [BitVec.toNat_ofNat]
      omega
    · contradiction

/-- Operand words are taken one by one (R240). -/
theorem takeOpnds_words : ∀ (os : List Opnd) (rest : List Word), os.all Opnd.specialFine = true →
    takeOpnds os.length (os.flatMap Opnd.words ++ rest) = some (os.map Opnd.words, rest)
  | [], rest, _ => rfl
  | o :: os, rest, h => by
      rw [List.all_cons, Bool.and_eq_true] at h
      obtain ⟨-, w, lits, hw, hl⟩ := Opnd.ofWords_words o h.1
      rw [List.flatMap_cons, List.length_cons, List.map_cons, hw, List.append_assoc, List.cons_append]
      unfold takeOpnds
      rw [if_neg (by rw [hl, List.length_append]; omega), hl, List.drop_left, List.take_left, takeOpnds_words os rest h.2]

/-- What is taken is the head of the list, one group for each operand word, each with the literal words it calls for. -/
theorem takeOpnds_some : ∀ (n : Nat) (ws : List Word) (gs : List (List Word)) (rest : List Word), takeOpnds n ws = some (gs, rest) →
    ws = gs.flatten ++ rest ∧ gs.length = n ∧ ∀ g ∈ gs, ∃ w lits, g = w :: lits ∧ litCount w = lits.length
  | 0, ws, gs, rest, h => by
      cases h; exact ⟨rfl, rfl, fun g hg => absurd hg List.not_mem_nil⟩
  | n + 1, [], gs, rest, h => by cases h
  | n + 1, w :: ws, gs, rest, h => by
      unfold takeOpnds at h
      split at h
      · contradiction
      · rename_i hlen
        split at h
        · contradiction
        · rename_i gs' rest' he
          cases h
          obtain ⟨h1, h2, h3⟩ := takeOpnds_some n _ _ _ he
          refine ⟨?_, by rw [List.length_cons, h2], ?_⟩
          · rw [List.flatten_cons, List.append_assoc, ← h1, List.cons_append, List.take_append_drop]
          · intro g hg
            rcases List.mem_cons.mp hg with rfl | hg
            · exact ⟨w, _, rfl, by rw [List.length_take]; omega⟩
            · exact h3 g hg

/-- More words after what is taken stay behind. -/
theorem takeOpnds_append : ∀ (n : Nat) (ws : List Word) (gs : List (List Word)) (rest more : List Word), takeOpnds n ws = some (gs, rest) →
    takeOpnds n (ws ++ more) = some (gs, rest ++ more)
  | 0, ws, gs, rest, more, h => by cases h; rfl
  | n + 1, [], gs, rest, more, h => by cases h
  | n + 1, w :: ws, gs, rest, more, h => by
      unfold takeOpnds at h
      rw [List.cons_append]
      unfold takeOpnds
      split at h
      · contradiction
      · rename_i hlen
        rw [if_neg (by rw [List.length_append]; omega), List.drop_append_of_le_length (by omega), List.take_append_of_le_length (by omega)]
        split at h
        · contradiction
        · rename_i gs' rest' he
          cases h
          rw [takeOpnds_append n _ _ _ more he]

/-- The number of operand words of a word list that they make up is unique. -/
theorem takeOpnds_unique : ∀ (m n : Nat) (ws : List Word) (gs hs : List (List Word)), takeOpnds m ws = some (gs, []) →
    takeOpnds n ws = some (hs, []) → m = n
  | 0, 0, _, _, _, _, _ => rfl
  | 0, n + 1, ws, gs, hs, h, h' => by
      cases h
      cases h'
  | m + 1, 0, ws, gs, hs, h, h' => by
      cases h'
      cases h
  | m + 1, n + 1, [], gs, hs, h, h' => by cases h
  | m + 1, n + 1, w :: ws, gs, hs, h, h' => by
      unfold takeOpnds at h h'
      split at h
      · contradiction
      · rename_i hlen
        rw [if_neg hlen] at h'
        split at h
        · contradiction
        · rename_i he
          split at h'
          · contradiction
          · rename_i he'
            cases h
            cases h'
            exact congrArg (· + 1) (takeOpnds_unique m n _ _ _ he he')

/-- The operands of groups of words have those words. -/
theorem mapM_ofWords : ∀ (gs : List (List Word)) (ops : List Opnd), gs.mapM Opnd.ofWords = some ops →
    (∀ g ∈ gs, ∃ w lits, g = w :: lits ∧ litCount w = lits.length) →
    ops.length = gs.length ∧ ops.flatMap Opnd.words = gs.flatten ∧ ops.all Opnd.specialFine = true
  | [], ops, h, _ => by cases h; exact ⟨rfl, rfl, rfl⟩
  | g :: gs, ops, h, hg => by
      rw [List.mapM_cons] at h
      obtain ⟨o, ho, h⟩ := Option.bind_eq_some_iff.mp h
      obtain ⟨os, hos, h⟩ := Option.bind_eq_some_iff.mp h
      cases h
      obtain ⟨w, lits, rfl, hl⟩ := hg g List.mem_cons_self
      obtain ⟨h1, h2⟩ := Opnd.words_ofWords w lits o ho hl
      obtain ⟨h3, h4, h5⟩ := mapM_ofWords gs os hos fun g hgs => hg g (List.mem_cons_of_mem _ hgs)
      refine ⟨by rw [List.length_cons, List.length_cons, h3], by rw [List.flatMap_cons, List.flatten_cons, h1, h4], ?_⟩
      rw [List.all_cons, h2, h5]; rfl

theorem mapM_words : ∀ ops : List Opnd, ops.all Opnd.specialFine = true → (ops.map Opnd.words).mapM Opnd.ofWords = some ops
  | [], _ => rfl
  | o :: os, h => by
      rw [List.all_cons, Bool.and_eq_true] at h
      rw [List.map_cons, List.mapM_cons, (Opnd.ofWords_words o h.1).1, mapM_words os h.2]; rfl

/-- The words of a Skedizon instruction (R241 to R243). -/
theorem encode_key (i : Instr) (q : Key) (h : i.key = some q) : encode i = some ((i.head q).word :: i.ops.flatMap Opnd.words) := by
  cases i <;> first
    | contradiction
    | exact congrArg (Option.map fun q => (Instr.head _ q).word :: (List.map Opnd.words (Instr.ops _)).flatten) h

/-- A Skedizon instruction is checked as a form. -/
theorem check_key (i : Instr) (q : Key) (h : i.key = some q) : i.check = i.checkForm := by
  cases i <;> first | contradiction | rfl

/-- What a well-formed Skedizon instruction is (R241, R246, R251, R256, R265). -/
theorem checkForm_none (i : Instr) (q : Key) (h : i.key = some q) : i.checkForm = none ↔
    (i.ctl.guarded = true → i.shape.guardable = true) ∧ i.fitsForm = true ∧ i.ops.length ≤ 7 ∧ i.ops.all Opnd.specialFine = true := by
  unfold Instr.checkForm Instr.fitsForm
  rw [h, if_neg (by simp)]
  generalize i.shape.guardable = g
  generalize i.shape.ndefs.contains i.ctl.ndef.toNat = n
  generalize i.ops.all Opnd.specialFine = p
  generalize i.shape.split (fun _ => none) i.ctl i.ops = o
  generalize i.ctl.guarded = u
  by_cases hl : 7 < i.ops.length
  · rw [if_pos hl]
    have : ¬ i.ops.length ≤ 7 := by omega
    cases u <;> cases g <;> cases n <;> simp [this]
  · rw [if_neg hl]
    have : i.ops.length ≤ 7 := by omega
    cases u <;> cases g <;> cases n <;> cases p <;> cases o <;> simp [this]

/-- Decoding takes as many operand words as NOPS says (R240, R241). -/
theorem decode_cons (w : Word) (ws rest : List Word) (gs : List (List Word)) (h : takeOpnds (Head.ofWord w).nops.toNat ws = some (gs, rest)) :
    decode (w :: ws) = (classify (Head.ofWord w) gs, rest) := by
  unfold decode
  dsimp only
  rw [h]

/-- A head word of a reserved major is a stub (R266). -/
theorem classify_stub (h : Head) (gs : List (List Word)) (h78 : 0x78 ≤ h.maj.toNat) :
    classify h gs = .ok (.reservedMajorStub h.maj h.sub h.ctl h.mod h.rsvz gs.flatten) := by
  unfold classify
  dsimp only
  rw [if_pos h78]

/-- When a head word and its operands are an instruction (R265). -/
theorem classify_ok (h : Head) (gs : List (List Word)) (ops : List Opnd) (i j : Instr) (h78 : h.maj.toNat < 0x78) (ha : majAssigned h.maj.toNat = true)
    (hj : Instr.ofKey ⟨h.maj.toNat, h.sub.toNat, goodMod h.maj.toNat h.sub.toNat⟩ h.ctl [] = some j)
    (ho : gs.mapM Opnd.ofWords = some ops) (hi : Instr.ofKey ⟨h.maj.toNat, h.sub.toNat, h.mod.toNat⟩ h.ctl ops = some i)
    (hf : i.fitsForm = true) (hr : h.rsvz = 0) (hg : h.g = true → i.shape.guardable = true) : classify h gs = .ok i := by
  unfold classify
  dsimp only
  rw [if_neg (by omega), ha, if_neg (by decide), hj]
  dsimp only
  rw [ho]
  dsimp only
  rw [hi]
  dsimp only
  rw [if_pos hf, if_pos ⟨hr, hg⟩]

/-- Groups that are whole operands are taken whole. -/
theorem takeOpnds_flatten : ∀ (gs : List (List Word)), (∀ g ∈ gs, ∃ w lits, g = w :: lits ∧ litCount w = lits.length) →
    ∀ n, gs.length = n → takeOpnds n gs.flatten = some (gs, [])
  | [], _, _, rfl => rfl
  | g :: gs, h, _, rfl => by
      obtain ⟨w, lits, rfl, hl⟩ := h g List.mem_cons_self
      rw [List.flatten_cons, List.cons_append, List.length_cons]
      unfold takeOpnds
      rw [if_neg (by rw [hl, List.length_append]; omega), hl, List.drop_left, List.take_left,
        takeOpnds_flatten gs (fun g hg => h g (List.mem_cons_of_mem _ hg)) _ rfl]

/-- The operand words of a stub (R266). -/
theorem stubCount_some (ws : List Word) (n : Nat) : stubCount ws = some n ↔ n < 8 ∧ ∃ gs, takeOpnds n ws = some (gs, []) := by
  have any_iff : ∀ n, (takeOpnds n ws).any (fun p => p.2.isEmpty) = true ↔ ∃ gs, takeOpnds n ws = some (gs, []) := by
    intro n
    cases h : takeOpnds n ws with
    | none => simp
    | some p => obtain ⟨gs, r⟩ := p; simp
  constructor
  · intro h
    unfold stubCount at h
    have h1 := List.find?_some (p := fun n => (takeOpnds n ws).any fun p => p.2.isEmpty) h
    have h2 := List.mem_of_find?_eq_some h
    exact ⟨List.mem_range.mp h2, (any_iff n).mp h1⟩
  · rintro ⟨hn, gs, hgs⟩
    cases h : stubCount ws with
    | none =>
      unfold stubCount at h
      have := List.find?_eq_none.mp h n (List.mem_range.mpr hn)
      exact absurd ((any_iff n).mpr ⟨gs, hgs⟩) this
    | some m =>
      unfold stubCount at h
      obtain ⟨hs, hhs⟩ := (any_iff m).mp (List.find?_some (p := fun n => (takeOpnds n ws).any fun p => p.2.isEmpty) h)
      rw [takeOpnds_unique m n ws hs gs hhs hgs]

/-- The fields of a custom-0 word (R387). -/
theorem customWord_fields (f7 f3 : Nat) (rd a b : BitVec 5) (h7 : f7 < 128) (h3 : f3 < 8) :
    let n := (customWord f7 f3 rd a b).toNat
    n % 2 ^ 7 = 0x0B ∧ n / 2 ^ 25 = f7 ∧ n / 2 ^ 12 % 8 = f3 ∧ BitVec.ofNat 5 (n / 2 ^ 7) = rd ∧ BitVec.ofNat 5 (n / 2 ^ 15) = a ∧
      BitVec.ofNat 5 (n / 2 ^ 20) = b := by
  have := rd.isLt
  have := a.isLt
  have := b.isLt
  have e : (customWord f7 f3 rd a b).toNat = f7 * 2 ^ 25 + b.toNat * 2 ^ 20 + a.toNat * 2 ^ 15 + f3 * 2 ^ 12 + rd.toNat * 2 ^ 7 + 0x0B := by
    unfold customWord; rw [BitVec.toNat_ofNat]; omega
  intro n
  rw [show n = _ from e]
  refine ⟨by omega, by omega, by omega, ?_, ?_, ?_⟩ <;> (apply BitVec.eq_of_toNat_eq; rw [BitVec.toNat_ofNat]; omega)

/-- The custom-0 instruction of a word is the one whose codes and registers its fields are (R387). -/
theorem decodeCustom_fields (w : Word) (i : Instr) (f7 f3 : Nat) (rd a b : BitVec 5) (h : i.custom = some (f7, f3, rd, a, b))
    (h1 : w.toNat % 2 ^ 7 = 0x0B) (h2 : w.toNat / 2 ^ 25 = f7) (h3 : w.toNat / 2 ^ 12 % 8 = f3) (h4 : BitVec.ofNat 5 (w.toNat / 2 ^ 7) = rd)
    (h5 : BitVec.ofNat 5 (w.toNat / 2 ^ 15) = a) (h6 : BitVec.ofNat 5 (w.toNat / 2 ^ 20) = b) : decodeCustom w = some i := by
  unfold decodeCustom
  dsimp only
  rw [h1, h2, h3, h4, h5, h6]
  clear h1 h2 h3 h4 h5 h6
  cases i <;> first | contradiction | (cases h; rfl)

end Sys2Proof
end

