-- ==== Sys2Proof/Laws/Meets.lean ====
section
/-! SUPPORT. Barriers and other meetings (R145 to R154): what an arrival does to its group and team. -/

namespace Sys2Proof.Machine

set_option Elab.async false

section
set_option linter.all false

theorem once_poison0 {x : Exe} {i : Instr} {ls : List Nat} (hl : (x.active i.ctl).headD x.first ∈ ls) (h : ∀ l ∈ ls, x.poison i l = 0) : x.oncePoison i = false := by
  have := h _ hl
  unfold Exe.poison at this
  unfold Exe.oncePoison
  cases hq : x.readsPoison (x.plan i) ((x.active i.ctl).headD x.first) with
  | false => rfl
  | true => rw [hq] at this; simp [flagIf] at this; exact absurd this (by decide)

theorem word_fields (b : Bar) (he : b.expect < 64) (ha : b.arrived < 64) :
    b.word.extractLsb' 32 32 = BitVec.ofInt 32 b.pend ∧ b.word.extractLsb' 26 6 = 0 ∧
         (b.word.extractLsb' 20 6).toNat = b.arrived ∧ b.word.extractLsb' 17 3 = 0 ∧ (b.word.getLsbD 16 = true ↔ b.phases % 2 = 1) ∧
         b.word.extractLsb' 6 10 = 0 ∧ (b.word.extractLsb' 0 6).toNat = b.expect := by
  have hp := ofNat_wrapTo 32 b.pend
  have hlt : wrapTo 32 b.pend < 2 ^ 32 := by
    rw [wrapTo_ofInt]; exact (BitVec.ofInt 32 b.pend).isLt
  have hphase : b.phases % 2 < 2 := Nat.mod_lt _ (by decide)
  have hA : b.arrived % 64 = b.arrived := Nat.mod_eq_of_lt ha
  have hE : b.expect % 64 = b.expect := Nat.mod_eq_of_lt he
  have hw : b.word.toNat = wrapTo 32 b.pend * 2 ^ 32 + b.arrived * 2 ^ 20 + b.phases % 2 * 2 ^ 16 + b.expect := by
    unfold Bar.word
    rw [BitVec.toNat_ofNat, hA, hE]
    apply Nat.mod_eq_of_lt
    omega
  have ex : ∀ lo n, (b.word.extractLsb' lo n).toNat = (wrapTo 32 b.pend * 2 ^ 32 + b.arrived * 2 ^ 20 + b.phases % 2 * 2 ^ 16 + b.expect) / 2 ^ lo % 2 ^ n := by
    intro lo n
    rw [BitVec.extractLsb'_toNat, hw, Nat.shiftRight_eq_div_pow]
  generalize wrapTo 32 b.pend = P at *
  generalize b.phases % 2 = H at *
  refine ⟨?_, ?_, ?_, ?_, ?_, ?_, ?_⟩
  · rw [← hp]; apply BitVec.eq_of_toNat_eq; rw [ex, BitVec.toNat_ofNat]; omega
  · apply BitVec.eq_of_toNat_eq; rw [ex]; simp; omega
  · rw [ex]; omega
  · apply BitVec.eq_of_toNat_eq; rw [ex]; simp; omega
  · rw [BitVec.getLsbD, Nat.testBit_eq_decide_div_mod_eq, hw, decide_eq_true_eq]; omega
  · apply BitVec.eq_of_toNat_eq; rw [ex]; simp; omega
  · rw [ex]; omega

theorem completes_of {s : State} {x : Exe} (i : Instr) (vs : List Val) (f : BitVec 6) (h : exec i s = .next (x.commitAll i vs f)) :
    ∃ t, exec i s = .next t ∧ x.Completes i (x.flagged f) (x.only i fun _ => vs) t := ⟨_, h, Exe.commitAll_completes x i vs f⟩

theorem setGroup_setGroup (s : State) (n : Nat) (g h : Group) : (s.setGroup n g).setGroup n h = s.setGroup n h := by
  simp [State.setGroup]

/-- Writing results reads the lanes of the group, and not its paths. -/
theorem write_lanes (x : Exe) (u : State) (p : Path) (G : Group) (hl : G.lanes = x.g.lanes) (hm : p.mask = x.p.mask) (hpc : p.pc = x.p.pc) (i : Instr)
    (hcl : isCrossLane i = false) (res : List (Nat × List Val))
    (hin : ∀ l y, Exe.inactive ⟨u, x.gid, x.pid, G, p⟩ i (Exe.plan ⟨u, x.gid, x.pid, G, p⟩ i) ((Exe.tr { x with s := u }).baseAt x.p.pc) l y =
      Exe.inactive { x with s := u } i (Exe.plan { x with s := u } i) ((Exe.tr { x with s := u }).baseAt x.p.pc) l y)
    (htr : (Exe.tr ⟨u, x.gid, x.pid, G, p⟩) = Exe.tr { x with s := u }) :
    Exe.write ⟨u, x.gid, x.pid, G, p⟩ i res = ({ G with lanes := (Exe.write { x with s := u } i res).lanes } : Group) := by
  rw [Exe.write_plain _ _ _ hcl, Exe.write_plain _ _ _ hcl]
  dsimp only
  rw [htr, hpc]
  simp only [hin]
  have hls : Exe.lanes ⟨u, x.gid, x.pid, G, p⟩ = x.lanes := by unfold Exe.lanes; dsimp only; rw [hm]
  rw [hls, show Exe.lanes { x with s := u } = x.lanes from rfl]
  rw [← Group.mapLanes_congr x.lanes _ G x.g hl]
  exact Group.mapLanes_eq _ _ _

/-- An executing path whose place in an instruction that waits alone differs completes alike. -/
theorem commit_staged (x : Exe) (u : State) (st : Stage) (G : Group) (i : Instr) (hcl : isCrossLane i = false) (res : List (Nat × List Val)) (f : BitVec 6) :
    Exe.commit ⟨u.setGroup x.gid G, x.gid, x.pid, x.having { x.p with stage := st }, { x.p with stage := st }⟩ i res f =
      Exe.commit { x with s := u } i res f := by
  have hw : Exe.write ⟨u.setGroup x.gid G, x.gid, x.pid, x.having { x.p with stage := st }, { x.p with stage := st }⟩ i res =
      ({ x.having { x.p with stage := st } with lanes := (Exe.write { x with s := u } i res).lanes } : Group) :=
    write_lanes x (u.setGroup x.gid G) { x.p with stage := st } (x.having { x.p with stage := st }) rfl rfl rfl i hcl res (fun _ _ => rfl) rfl
  obtain ⟨q, hq⟩ := Exe.write_eq { x with s := u } i res
  unfold Exe.commit Exe.complete
  rw [hw, hq]
  dsimp only
  unfold Exe.put
  dsimp only
  rw [setGroup_setGroup]
  have : (Group.setPath ({ x.having { x.p with stage := st } with lanes := q } : Group) x.pid (({ x.p with stage := st, mode := modeRaise x.p.mode f } : Path).past (pcAdd x.p.pc (instrSize i)))) =
      (Group.setPath ({ x.g with lanes := q } : Group) x.pid (({ x.p with mode := modeRaise x.p.mode f } : Path).past (pcAdd x.p.pc (instrSize i)))) := by
    simp [Exe.having, Group.setPath, Path.past]
  rw [this]
  rfl

theorem commit_having (x : Exe) (u : State) (r : Path) (i : Instr) (hcl : isCrossLane i = false) (res : List (Nat × List Val)) (f : BitVec 6) :
    Exe.commit ⟨u, x.gid, x.pid, x.having r, x.p⟩ i res f =
      Exe.commit { x with s := u } i res f := by
  have hw : Exe.write ⟨u, x.gid, x.pid, x.having r, x.p⟩ i res =
      ({ x.having r with lanes := (Exe.write { x with s := u } i res).lanes } : Group) :=
    write_lanes x u x.p (x.having r) rfl rfl rfl i hcl res (fun _ _ => rfl) rfl
  obtain ⟨q, hq⟩ := Exe.write_eq { x with s := u } i res
  unfold Exe.commit Exe.complete
  rw [hw, hq]
  dsimp only
  unfold Exe.put
  dsimp only
  have : (Group.setPath ({ x.having r with lanes := q } : Group) x.pid (({ x.p with mode := modeRaise x.p.mode f } : Path).past (pcAdd x.p.pc (instrSize i)))) =
      (Group.setPath ({ x.g with lanes := q } : Group) x.pid (({ x.p with mode := modeRaise x.p.mode f } : Path).past (pcAdd x.p.pc (instrSize i)))) := by
    simp [Exe.having, Group.setPath, Path.past]
  rw [this]
  rfl

theorem map_mset {α : Type} (f : α → α) : ∀ (m : List (Nat × α)) (k : Nat) (v : α), (∀ q ∈ m, f q.2 = q.2) →
    (mset m k v).map (fun p => (p.1, f p.2)) = mset m k (f v)
  | [], k, v, _ => rfl
  | (k', w) :: m, k, v, h => by
      have hm : m.map (fun p => (p.1, f p.2)) = m := by
        conv => rhs; rw [← List.map_id m]
        apply List.map_congr_left
        intro q hq; rw [h q (List.mem_cons_of_mem _ hq)]; rfl
      unfold mset
      split
      · next e => rw [List.map_cons, hm]
      · next e =>
          rw [List.map_cons, map_mset f m k v fun q hq => h q (List.mem_cons_of_mem _ hq)]
          rw [show f (k', w).2 = w from h (k', w) (List.mem_cons_self ..)]

theorem mdel_none {κ α : Type} [DecidableEq κ] : ∀ (m : List (κ × α)) (k : κ), mget m k = none → mdel m k = m
  | [], _, _ => rfl
  | (k', v) :: m, k, h => by
      unfold mget at h
      split at h
      · cases h
      · next e => unfold mdel; rw [if_neg e, mdel_none m k h]

theorem mdel_mset {κ α : Type} [DecidableEq κ] : ∀ (m : List (κ × α)) (k : κ) (v : α), mget m k = none → mdel (mset m k v) k = m
  | [], k, v, _ => by simp [mset, mdel]
  | (k', w) :: m, k, v, h => by
      unfold mget at h
      split at h
      · cases h
      · next e => unfold mset; rw [if_neg e]; unfold mdel; rw [if_neg e, mdel_mset m k v h]

/-- What the path's arrive makes of the state while lanes are missing, and when none is. -/
theorem arriveAt_eq (x : Exe) (hgr : x.s.group x.gid = x.g) (m : Meet) (hm : mget x.g.ctx.meets m = none) (hn : x.p.mask ≠ 0) :
    let g1 := { x.g with ctx := { (x.having { x.p with stage := .arriving m }).ctx with meets := mset x.g.ctx.meets m x.p.mask } }
    (x.g.live &&& ~~~x.p.mask ≠ 0 → x.arriveAt m = x.s.setGroup x.gid g1) ∧
    (x.g.live &&& ~~~x.p.mask = 0 → x.arriveAt m = (x.s.setGroup x.gid g1).meetStep x.gid m ∧ True) := by
  intro g1
  have e : x.arriveAt m = (x.s.setGroup x.gid g1).meetStep x.gid m := by
    unfold Exe.arriveAt
    dsimp only
    rw [show mget (x.g.setPath x.pid { x.p with stage := .arriving m }).ctx.meets m = none from hm]
    rw [Option.getD_none, show (0 : LaneMask) ||| x.p.mask = x.p.mask from BitVec.zero_or]
    rfl
  refine ⟨?_, fun _ => ⟨e, trivial⟩⟩
  intro h
  rw [e]
  unfold State.meetStep
  dsimp only
  rw [State.group_setGroup, if_pos]
  right
  rw [show mget g1.ctx.meets m = some x.p.mask from mget_mset_self _ _ _]
  show ((x.g.live &&& ~~~x.p.mask) == 0) = false
  simpa using h

theorem meetDone_eq (x : Exe) (m : Meet) (n : Nat) (hm : mget x.g.ctx.meets m = none) (ha : ∀ q ∈ x.g.ctx.paths, q.2.stage ≠ .arriving m) :
    Ctx.meetDone { (x.having { x.p with stage := .arriving m }).ctx with meets := mset x.g.ctx.meets m x.p.mask } m n =
      (x.having { x.p with stage := .waiting m n }).ctx := by
  unfold Ctx.meetDone Ctx.mapPaths
  dsimp only
  rw [mdel_mset _ _ _ hm]
  have := map_mset (fun p : Path => if p.stage = .arriving m then { p with stage := .waiting m n } else p) x.g.ctx.paths x.pid { x.p with stage := .arriving m }
    (fun q hq => if_neg (ha q hq))
  show ({ x.g.ctx with paths := List.map _ (mset x.g.ctx.paths x.pid { x.p with stage := .arriving m }), meets := x.g.ctx.meets } : Ctx) = _
  rw [this, if_pos rfl]
  rfl

theorem meetStep_bar (x : Exe) (b : Nat) (hm : mget x.g.ctx.meets (.bar b) = none) (hn : x.p.mask ≠ 0)
    (ha : ∀ q ∈ x.g.ctx.paths, q.2.stage ≠ .arriving (.bar b)) (hl : x.g.live &&& ~~~x.p.mask = 0) (v : Bar)
    (hv : (x.team.bar b).arrive x.g.index = some v) :
    let g1 := { x.g with ctx := { (x.having { x.p with stage := .arriving (.bar b) }).ctx with meets := mset x.g.ctx.meets (.bar b) x.p.mask } }
    (x.s.setGroup x.gid g1).meetStep x.gid (.bar b) =
      (x.s.setTeam x.g.team { x.team with bars := mset x.team.bars b v }).setGroup x.gid (x.having { x.p with stage := .waiting (.bar b) (x.team.bar b).phases }) := by
  intro g1
  unfold State.meetStep
  dsimp only
  rw [State.group_setGroup, if_neg]
  · rw [show ((x.s.setGroup x.gid g1).team g1.team).bar b = x.team.bar b from rfl, show g1.index = x.g.index from rfl, hv]
    dsimp only
    rw [setGroup_setGroup, meetDone_eq x (.bar b) _ hm ha]
    rfl
  · rw [show mget g1.ctx.meets (.bar b) = some x.p.mask from mget_mset_self _ _ _]
    rintro (h | h)
    · exact hn h
    · have : ((x.g.live &&& ~~~x.p.mask) == 0) = false := h
      rw [hl] at this; simp at this

theorem meetStep_flight (x : Exe) (f : Nat) (hm : mget x.g.ctx.meets (.flight f) = none) (hn : x.p.mask ≠ 0) (hgr : x.s.group x.gid = x.g) (hex : (mget x.s.groups x.gid).isSome)
    (ha : ∀ q ∈ x.g.ctx.paths, q.2.stage ≠ .arriving (.flight f)) (hl : x.g.live &&& ~~~x.p.mask = 0)
    (hv : (x.launch.flight (dieOf x.hall) f).length < (x.s.flightParty x.team.launch (dieOf x.hall)).length) :
    let g1 := { x.g with ctx := { (x.having { x.p with stage := .arriving (.flight f) }).ctx with meets := mset x.g.ctx.meets (.flight f) x.p.mask } }
    (x.s.setGroup x.gid g1).meetStep x.gid (.flight f) =
      (x.s.setLaunch x.team.launch { x.launch with flights := mset x.launch.flights (dieOf x.hall, f) (x.launch.flight (dieOf x.hall) f ++ [x.gid]) }).setGroup x.gid
        (x.having { x.p with stage := .waiting (.flight f) 0 }) := by
  intro g1
  have hparty : ((x.s.setGroup x.gid g1).flightParty x.team.launch (dieOf x.hall)).length = (x.s.flightParty x.team.launch (dieOf x.hall)).length := by
    unfold State.flightParty
    rw [List.length_map, List.length_map]
    show (List.filter (fun g : Nat × Group => (x.s.team g.2.team).launch == x.team.launch && (x.s.team g.2.team).resident && dieOf ((x.s.team g.2.team).core / 8) == dieOf x.hall && !g.2.allExited) (mset x.s.groups x.gid g1)).length = (List.filter (fun g : Nat × Group => (x.s.team g.2.team).launch == x.team.launch && (x.s.team g.2.team).resident && dieOf ((x.s.team g.2.team).core / 8) == dieOf x.hall && !g.2.allExited) x.s.groups).length
    have gen : ∀ (P : Nat × Group → Bool) (m : List (Nat × Group)) (w : Group), mget m x.gid = some w → P (x.gid, w) = P (x.gid, g1) →
        ((mset m x.gid g1).filter P).length = (m.filter P).length := by
      intro P m
      induction m with
      | nil => intro w h; cases h
      | cons q m ih =>
          obtain ⟨k, w'⟩ := q
          intro w h hP
          unfold mget at h
          unfold mset
          split at h
          · next e => cases h; subst e; rw [if_pos rfl, List.filter_cons, List.filter_cons, hP]; split <;> rfl
          · next e =>
              rw [if_neg e, List.filter_cons, List.filter_cons]
              split
              · rw [List.length_cons, List.length_cons, ih w h hP]
              · exact ih w h hP
    cases hq : mget x.s.groups x.gid with
    | none => rw [hq] at hex; cases hex
    | some w =>
        have : w = x.g := by rw [← hgr]; unfold State.group; rw [hq]; rfl
        exact gen _ _ w hq (by rw [this]; rfl)
  unfold State.meetStep
  dsimp only
  rw [State.group_setGroup, if_neg]
  · rw [if_neg]
    · rw [setGroup_setGroup, meetDone_eq x (.flight f) _ hm ha]
      rfl
    · show ¬ (((x.s.setGroup x.gid g1).flightParty x.team.launch (dieOf x.hall)).length ≤ (x.launch.flight (dieOf x.hall) f).length)
      rw [hparty]; omega
  · rw [show mget g1.ctx.meets (.flight f) = some x.p.mask from mget_mset_self _ _ _]
    rintro (h | h)
    · exact hn h
    · have : ((x.g.live &&& ~~~x.p.mask) == 0) = false := h
      rw [hl] at this; simp at this

theorem exeOf_setGroup (s : State) (gid pid : Nat) (g : Group) (p : Path) (hp : mget g.ctx.paths pid = some p) :
    (s.setGroup gid g).exeOf gid pid = some ⟨{ s.setGroup gid g with cur := some (gid, pid) }, gid, pid, g, p⟩ := by
  unfold State.exeOf State.exe?
  dsimp only
  rw [show mget (s.setGroup gid g).groups gid = some g from mget_mset_self _ _ _]
  dsimp only
  rw [hp]
  rfl

theorem exe_cur {s : State} {x : Exe} (hx : s.exe? = some x) (u : State) (hu : u.cur = x.s.cur) :
    ({ u with cur := some (x.gid, x.pid) } : State) = u := by
  have h := exe_group hx
  rw [h.2.2.1] at hu
  cases u
  dsimp only at hu
  rw [← h.2.2.2, ← hu]

theorem arrive_some {b : Bar} (k : Nat) (h : b.arrived ≠ b.expect) :
    let v := { b with arrived := b.arrived + 1, marks := if b.marks.contains k then b.marks else b.marks ++ [k] }
    b.arrive k = some v.tryComplete := by
  intro v
  unfold Bar.arrive
  rw [if_neg h]

theorem staged_first (x : Exe) (u : State) (G : Group) (p : Path) (hm : p.mask = x.p.mask) (hg : G.guard = x.g.guard) (i : Instr) :
    (Exe.mk u x.gid x.pid G p).active i.ctl = x.active i.ctl := by
  unfold Exe.active Exe.activeMask
  dsimp only
  rw [hm, hg]

end

end Sys2Proof.Machine
end

