-- ==== Sys2Proof/Laws/Issue.lean ====
section
/-! SUPPORT. Engine operations at issue and futures (R127 to R136). -/

namespace Sys2Proof.Machine

set_option Elab.async false

section
set_option linter.all false

theorem rowBytes_bad (v : Val) : (signedOf 32 v.num < 1 ↔ (v.toBits.setWidth 32).toInt < 1) ∧ (4096 < signedOf 32 v.num ↔ 4096 < (v.toBits.setWidth 32).toInt) := by
  rw [signedOf_ofNat]
  have : BitVec.ofNat 32 v.num = v.toBits.setWidth 32 := by
    apply BitVec.eq_of_toNat_eq; simp [Val.num]
  rw [this]
  exact ⟨.rfl, .rfl⟩

theorem resume_becomes (x : Exe) (i : Instr) (hcl : isCrossLane i = false) (d : BitVec 28) (hd : targetsOf i.ops = [d]) (hn : i.ctl.ndef.toNat = 0) (fs : FutViews) (f : BitVec 6) :
    Exe.Becomes { x with s := (x.observing fs).s } i (x.having { x.moved (x.p.pc + d.signExtend 48 * 4) (x.p.pc, 1) (x.flagged (f ||| x.s.observed fs)) with yield := none })
      (x.resume i fs f) := by
  let y : Exe := { x with s := (x.observing fs).s }
  obtain ⟨q, hq⟩ := y.write_eq i []
  have hlane : ∀ l, (y.write i []).lane l = if l ∈ y.lanes then (y.g.lane l).eraseAll (endsOf i.ops) else y.g.lane l := by
    intro l
    rw [Exe.lane_write, y.outside_nil i hcl]
    split
    · simp only [mget]
      exact Exe.inactive_zero _ _ _ _ _ _ hn (y.merge_none i hn)
    · rfl
  have := y.becomes_lanes i (x.having { x.moved (x.p.pc + d.signExtend 48 * 4) (x.p.pc, 1) (x.flagged (f ||| x.s.observed fs)) with yield := none })
    ((y.write i []).setPath y.pid { x.p.goto (pcTarget x.p.pc ((targetsOf i.ops).headD 0)) 1 with mode := modeRaise x.p.mode (f ||| x.s.observed fs), yield := none })
    (by rw [hq, hd]; rfl) hlane
  exact this

theorem observing_s (x : Exe) (fs : FutViews) : (x.observing fs).s = x.s.watch x.gid x.p.mask (fs.filterMap fun v => if v.2.1 = futPending then none else v.2.2) := rfl

theorem futWord_fields (seq team cls gen slot : Nat) : let w := futWord seq team cls gen slot
      w.extractLsb' 56 8 = BitVec.ofNat 8 seq ∧ w.extractLsb' 32 24 = BitVec.ofNat 24 team ∧ w.extractLsb' 28 4 = BitVec.ofNat 4 cls ∧
      w.extractLsb' 9 19 = BitVec.ofNat 19 gen ∧ w.extractLsb' 0 9 = BitVec.ofNat 9 slot := by
  intro w
  have hw : w.toNat = seq % 256 * 2 ^ 56 + team % 2 ^ 24 * 2 ^ 32 + cls % 16 * 2 ^ 28 + gen % 2 ^ 19 * 2 ^ 9 + slot % 512 := by
    show (futWord seq team cls gen slot).toNat = _
    unfold futWord
    rw [BitVec.toNat_ofNat]
    apply Nat.mod_eq_of_lt
    omega
  have ex : ∀ lo n, (w.extractLsb' lo n).toNat = (seq % 256 * 2 ^ 56 + team % 2 ^ 24 * 2 ^ 32 + cls % 16 * 2 ^ 28 + gen % 2 ^ 19 * 2 ^ 9 + slot % 512) / 2 ^ lo % 2 ^ n := by
    intro lo n
    rw [BitVec.extractLsb'_toNat, hw, Nat.shiftRight_eq_div_pow]
  refine ⟨?_, ?_, ?_, ?_, ?_⟩ <;> (apply BitVec.eq_of_toNat_eq; rw [ex, BitVec.toNat_ofNat]; omega)

end

end Sys2Proof.Machine
end

