-- ==== Sys2Proof/Laws/Order.lean ====
section
/-! SUPPORT. Cycles (R98, R107): a relation with a cycle among some events is not acyclic there, and each event of the cycle leads back
to itself. -/

namespace Sys2Proof.Machine.Order

set_option Elab.async false

theorem peel_keeps (r : Nat → Nat → Bool) (c : List Nat) (hc : ∀ j ∈ c, ∃ i ∈ c, r i j = true) :
    ∀ (n : Nat) (xs : List Nat), c ⊆ xs → c ⊆ Exec.peel r n xs
  | 0, _, h => h
  | n + 1, xs, h => by
      refine peel_keeps r c hc n _ fun j hj => List.mem_filter.mpr ⟨h hj, ?_⟩
      obtain ⟨i, hi, hr⟩ := hc j hj
      exact List.any_eq_true.mpr ⟨i, h hi, hr⟩

theorem acyclic_of_cycle (r : Nat → Nat → Bool) (c xs : List Nat) (hc : ∀ j ∈ c, ∃ i ∈ c, r i j = true) (hn : c ≠ []) (h : c ⊆ xs) :
    Exec.acyclic r xs = false := by
  have := peel_keeps r c hc xs.length xs h
  unfold Exec.acyclic
  cases hp : Exec.peel r xs.length xs with
  | nil => rw [hp] at this; exact absurd (List.eq_nil_of_subset_nil this) hn
  | cons a l => rfl

/-- What a step leads to from what is reached is reached by one step more. -/
theorem reach_step (r : Nat → Nat → Bool) (all : List Nat) {z : Nat} (hz : z ∈ all) :
    ∀ (n : Nat) (xs : List Nat), (∃ y ∈ Exec.reach r all n xs, y = z ∨ r y z = true) → z ∈ Exec.reach r all (n + 1) xs
  | 0, xs, ⟨y, hy, h⟩ => by
      replace hy : y ∈ xs := hy
      refine List.mem_filter.mpr ⟨hz, (Bool.or_eq_true _ _).mpr ?_⟩
      rcases h with rfl | h
      · exact .inl (List.contains_iff_mem.mpr hy)
      · exact .inr (List.any_eq_true.mpr ⟨y, hy, h⟩)
  | n + 1, xs, h => reach_step r all hz n _ h

/-- What is reached in some steps is reached in more. -/
theorem reach_le (r : Nat → Nat → Bool) (all xs : List Nat) {y : Nat} (hy : y ∈ all) {m n : Nat} (h : m ≤ n)
    (hm : y ∈ Exec.reach r all m xs) : y ∈ Exec.reach r all n xs := by
  induction h with
  | refl => exact hm
  | step _ ih => exact reach_step r all hy _ _ ⟨y, ih, .inl rfl⟩

/-- A node with a cycle of four through it is on a cycle. -/
theorem onCycle_of_four (r : Nat → Nat → Bool) (all : List Nat) (a b c d : Nat) (ha : a ∈ all) (hb : b ∈ all) (hc : c ∈ all) (hd : d ∈ all)
    (h1 : r a b = true) (h2 : r b c = true) (h3 : r c d = true) (h4 : r d a = true) (hn : 3 ≤ all.length) :
    Exec.onCycle r all a = true := by
  refine List.contains_iff_mem.mpr (reach_le r all _ ha hn ?_)
  refine reach_step r all ha 2 _ ⟨d, reach_step r all hd 1 _ ⟨c, reach_step r all hc 0 _ ⟨b, ?_, .inr h2⟩, .inr h3⟩, .inr h4⟩
  exact List.mem_filter.mpr ⟨hb, h1⟩

end Sys2Proof.Machine.Order
end

