-- ==== Sys2Proof/Laws/Package.lean ====
section
/-! SUPPORT. The package: frames, general cores, launches and the custom-0 instructions. -/

namespace Sys2Proof.Machine

set_option Elab.async false

section
set_option linter.all false

theorem lowest_le : ∀ (l : List Master) (m : Master), m ∈ l → (∀ n ∈ l, m ≤ n) → lowest l = some m
  | [], _, h, _ => absurd h (by simp)
  | a :: l, m, h, hm => by
    unfold lowest
    cases hl : lowest l with
    | none =>
      cases l with
      | nil => simp at h; subst h; rfl
      | cons b l =>
        unfold lowest at hl
        split at hl <;> simp at hl
    | some n =>
      have mem : ∀ (l : List Master) n, lowest l = some n → n ∈ l := by
        intro l
        induction l with
        | nil => intro n h; simp [lowest] at h
        | cons b l ih =>
          intro n h
          unfold lowest at h
          cases hl : lowest l with
          | none => rw [hl] at h; simp at h; subst h; simp
          | some q =>
            rw [hl] at h
            have := ih q hl
            simp only [Option.some.injEq] at h
            subst h
            rcases Nat.le_total b q with h | h
            · rw [Nat.min_eq_left h]; simp
            · rw [Nat.min_eq_right h]; simp [this]
      dsimp only
      refine congrArg some ?_
      have hn := hm n (List.mem_cons_of_mem _ (mem l n hl))
      have ha := hm a (by simp)
      rcases List.mem_cons.1 h with e | e
      · subst e; exact Nat.min_eq_left hn
      · have := lowest_le l m e (fun n hn => hm n (List.mem_cons_of_mem _ hn))
        rw [hl] at this
        cases this
        exact Nat.min_eq_right ha

theorem asOwner_ok {s : State} {m : Master} (h : s.mgmt.owner = some m) (f : State → State) :
    s.asOwner m f = f { s with mgmt := { s.mgmt with lastStatus := .ok } } := by
  unfold State.asOwner
  rw [if_pos h]
  rfl

theorem asOwner_not {s : State} {m : Master} (h : ¬ s.mgmt.owner = some m) (f : State → State) :
    s.asOwner m f = { s with mgmt := { s.mgmt with lastStatus := .notOwner } } := by
  unfold State.asOwner
  rw [if_neg h]
  rfl

theorem reportStack_spec (s : State) (k reason : Nat) :
    let t := s.failStack k reason
    t = { s with funcs := mset s.funcs (.hbm k) (.failed reason), mgmt := { s.mgmt with reported := t.mgmt.reported } } ∧
      ∀ p, p ∈ t.mgmt.reported ↔ p ∈ s.mgmt.reported ∨ ∃ q, (p, q) ∈ s.parts ∧ q.formed = true ∧ ∃ c ∈ q.sets, c / 2 = k := by
  intro t
  refine ⟨rfl, ?_⟩
  intro p
  show p ∈ s.mgmt.reported ++ _ ↔ _
  simp only [List.mem_append, List.mem_filter, List.mem_map]
  constructor
  · rintro (h | ⟨⟨q, ⟨hq, hf⟩, rfl⟩, -⟩)
    · exact .inl h
    · simp at hf
      exact .inr ⟨q.2, hq, hf.1, hf.2⟩
  · rintro (h | ⟨q, hq, hf, c, hc, e⟩)
    · exact .inl h
    · by_cases hp : p ∈ s.mgmt.reported
      · exact .inl hp
      · exact .inr ⟨⟨(p, q), ⟨hq, by simp [hf]; exact ⟨c, hc, e⟩⟩, rfl⟩, by
          show (!s.mgmt.reported.contains p) = true
          simp [hp]⟩

theorem foldl_mset_in {α : Type} (f : Nat → α) : ∀ (cs : List Nat) (hs : List (Nat × α)) (c : Nat),
    mget (cs.foldl (fun hs c => mset hs c (f c)) hs) c = if c ∈ cs then some (f c) else mget hs c
  | [], hs, c => by simp
  | d :: cs, hs, c => by
    rw [List.foldl_cons, foldl_mset_in f cs]
    by_cases h : c ∈ cs
    · simp [h]
    · by_cases e : c = d
      · subst e; simp [h, mget_mset_self]
      · simp [h, e, mget_mset_ne e]

theorem dropFrame_mem (s : State) (f : Nat) : (s.dropFrame f).mem = s.mem := rfl

theorem dropLines_mem (s : State) (f : Nat) : (s.dropLines f).mem = s.mem := rfl

theorem fillFrame_mem (s : State) (f : Nat) (bs : List Byte) : (s.fillFrame f bs).mem = writeBytes (clearBytes s.mem (f * 4096) 4096) (f * 4096) bs := by
  unfold State.fillFrame
  dsimp only
  rw [dropLines_mem, dropFrame_mem]

theorem bootFrame_eq (p : Nat) (s : State) (q : Nat) : (State.bootFrame p s q).mem = (s.fillFrame q []).mem := by
  unfold State.bootFrame
  rfl

theorem bootFrame_mem (p : Nat) : ∀ (ps : List Nat) (s : State), Memory.wf s.mem = true → Memory.wf (ps.foldl (State.bootFrame p) s).mem = true
  | [], s, h => h
  | q :: ps, s, h => by
    rw [List.foldl_cons]
    refine bootFrame_mem p ps _ ?_
    rw [bootFrame_eq, fillFrame_mem]
    exact wf_writeBytes _ (wf_clearBytes h _ _) _

theorem bootCores (cs : List Nat) (f : Nat → Hart) (u : State) (hs : List (Nat × Hart)) (c : Nat) (hc : c ∈ cs) :
    ({ u with harts := cs.foldl (fun hs c => mset hs c (f c)) hs } : State).hart c = f c := by
  show (mget (cs.foldl (fun hs c => mset hs c (f c)) hs) c).getD Hart.reset = _
  rw [foldl_mset_in f, if_pos hc]
  rfl

theorem clockFold (halfWatts : Nat) : ∀ (es : List Nat) (s : State), s.Sampled (es.foldl (fun s e =>
        let x := s.encl e
        s.setEncl e { x with monitors := mset x.monitors 4 (((mget x.monitors 4).getD Monitor.empty).sample halfWatts) }) s)
  | [], s => State.Sampled.refl s
  | e :: es, s => by
    rw [List.foldl_cons]
    refine State.Sampled.trans ?_ (clockFold halfWatts es _)
    refine ⟨rfl, fun f => ?_, fun _ => rfl⟩
    by_cases h : f = e
    · subst h; rw [State.encl_setEncl]
    · rw [State.encl_setEncl_ne h]

theorem clockTail (u : State) (hall hw : Nat) : u.Sampled (match u.parts.find? fun p => p.2.halls.contains hall with
      | none => u
      | some p =>
          let x := u.part p.1
          u.setPart p.1 { x with monitors := mset x.monitors 4 (((mget x.monitors 4).getD Monitor.empty).sample hw) }) := by
    cases h : u.parts.find? fun p => p.2.halls.contains hall with
    | none => exact State.Sampled.refl _
    | some p =>
      refine ⟨rfl, fun _ => rfl, fun q => ?_⟩
      dsimp only
      by_cases e : q = p.1
      · subst e; rw [State.part_setPart]
      · rw [State.part_setPart_ne e]

theorem osStore_eq {s : State} {h p : Nat} (h1 : s.partOf h = some p) (h2 : (s.hart h).inReset = false) (h3 : (s.hart h).inside = none)
    (h4 : (s.hart h).wait = .nothing) (f : Nat → State) : osStore h s f = .next ((f p).retire h 0 0) := by
  unfold osStore
  dsimp only
  rw [h1]
  dsimp only
  rw [h2, h3, h4]
  rfl

theorem bits_toNat (v : BitVec 64) (hi lo n : Nat) (h : hi + 1 - lo = n) : bitsOf v.toNat hi lo = (v.extractLsb' lo n).toNat := by
  subst h
  rw [BitVec.extractLsb'_toNat, Nat.shiftRight_eq_div_pow]
  rfl

theorem retire_gone (s : State) (h : Nat) (rd : BitVec 5) (v : BitVec 64) : s.retire h rd v = s.gone h rd v := rfl

theorem perform_does (s : State) (h : Nat) (ps : List (Nat × Nat × Nat)) (a : HartAccess) : HartDoes s h ps a (s.perform h ps a) := by
  have hd : (ps.head?.map fun p => p.1).getD 0 = (ps.headD (0, 0, 0)).1 := by cases ps <;> rfl
  cases a with
  | load n signed rd =>
    obtain ⟨c, e⟩ := s.coreTouches_only h false ps
    refine ⟨c, ?_⟩
    show (s.coreTouches h false ps).retire h rd _ = _
    rw [e]
    cases signed <;> rfl
  | store n rs =>
    obtain ⟨c, e⟩ := s.coreTouches_only h true ps
    refine ⟨c, ?_⟩
    show ((s.coreTouches h true ps).writePieces ps _).retire h 0 0 = _
    rw [e, State.writePieces_caching]; rfl
  | amo op n rs rd aq rl =>
    obtain ⟨c, e⟩ := s.coreTouches_only h true ps
    refine ⟨c, ?_⟩
    show ((s.coreTouches h true ps).writePieces ps _).retire h rd _ = _
    rw [e, State.writePieces_caching]; rfl
  | lr n rd aq rl =>
    obtain ⟨c, e⟩ := s.coreTouches_only h false ps
    refine ⟨c, ?_⟩
    show State.retire { s.coreTouches h false ps with resv := mset (s.coreTouches h false ps).resv h (_, n) } h rd _ = _
    rw [e, hd]; rfl
  | sc n rs rd aq rl =>
    have key : ∀ b : Bool, decide (mget s.resv h = some ((ps.headD (0, 0, 0)).1, n)) = b → s.perform h ps (.sc n rs rd aq rl) =
        let u : State := { s.coreTouches h b ps with resv := mdel (s.coreTouches h b ps).resv h }
        if b = true then (u.writePieces ps (leBytes n ((s.hart h).reg rs).toNat)).retire h rd 0 else u.retire h rd 1 := by
      intro b hb
      unfold State.perform
      dsimp only [accSize]
      rw [hd]
      subst hb
      by_cases q : mget s.resv h = some ((ps.headD (0, 0, 0)).1, n)
      · refine (if_pos q).trans (Eq.trans ?_ (if_pos (by simpa using q)).symm)
        exact congrArg (fun b : Bool => State.retire (State.writePieces { s.coreTouches h b ps with resv := mdel (s.coreTouches h b ps).resv h } ps
          (leBytes n ((s.hart h).reg rs).toNat)) h rd 0) (by simp)
      · refine (if_neg q).trans (Eq.trans ?_ (if_neg (by simpa using q)).symm)
        exact congrArg (fun b : Bool => State.retire { s.coreTouches h b ps with resv := mdel (s.coreTouches h b ps).resv h } h rd 1) (by simp)
    refine ⟨fun q => ?_, fun q => ?_⟩
    · obtain ⟨c, e⟩ := s.coreTouches_only h true ps
      refine ⟨c, ?_⟩
      rw [key true (by simpa using q), e]
      show (State.writePieces (({ s with resv := mdel s.resv h } : State).caching c) ps _).retire h rd 0 = _
      rw [State.writePieces_caching]; rfl
    · obtain ⟨c, e⟩ := s.coreTouches_only h false ps
      refine ⟨c, ?_⟩
      rw [key false (by simpa using q), e]
      rfl
  | fence p q =>
    obtain ⟨c, e⟩ := s.coreTouches_only h false ps
    exact ⟨c, (congrArg (fun u : State => u.retire h 0 0) e).trans rfl⟩
  | fenceTso =>
    obtain ⟨c, e⟩ := s.coreTouches_only h false ps
    exact ⟨c, (congrArg (fun u : State => u.retire h 0 0) e).trans rfl⟩
  | fetch => exact s.coreTouches_only h false ps

theorem le_foldl_max : ∀ (l : List Nat) (a n : Nat), n ∈ l ∨ n ≤ a → n ≤ l.foldl max a
  | [], a, n, h => by simpa using h
  | b :: l, a, n, h => by
    rw [List.foldl_cons]
    refine le_foldl_max l _ n ?_
    rcases h with h | h
    · rcases List.mem_cons.1 h with rfl | h
      · exact .inr (Nat.le_max_right _ _)
      · exact .inl h
    · exact .inr (Nat.le_trans h (Nat.le_max_left _ _))

theorem foldl_max_mem : ∀ (l : List Nat) (a : Nat), l.foldl max a = a ∨ l.foldl max a ∈ l
  | [], a => .inl rfl
  | b :: l, a => by
    rw [List.foldl_cons]
    rcases foldl_max_mem l (max a b) with h | h
    · rw [h]
      rcases Nat.le_total a b with e | e
      · rw [Nat.max_eq_right e]; simp
      · rw [Nat.max_eq_left e]; simp
    · exact .inr (by simp [h])

theorem nextHead_spec (s : State) (e : Nat) :
    let ready := (s.encl e).heads.filter fun q => s.depsOf q.2 == .ready
    (ready = [] → s.nextHead e = none) ∧
    (ready ≠ [] → ∃ q l, s.nextHead e = some (q, l) ∧ (q, l) ∈ ready ∧ ∀ k ∈ ready, (s.launch k.2).priority ≤ (s.launch l).priority) := by
  intro ready
  have hn : s.nextHead e = ready.find? fun q => (s.launch q.2).priority == (ready.map fun h => (s.launch h.2).priority).foldl max 0 := rfl
  refine ⟨fun h => by rw [hn, h]; rfl, fun h => ?_⟩
  cases hf : s.nextHead e with
  | none =>
    exfalso
    rw [hn] at hf
    have hf := List.find?_eq_none.1 hf
    rcases foldl_max_mem (ready.map fun h => (s.launch h.2).priority) 0 with h0 | h0
    · cases hr : ready with
      | nil => exact h hr
      | cons a l =>
        have ha : a ∈ ready := by rw [hr]; simp
        have h1 := le_foldl_max (ready.map fun h => (s.launch h.2).priority) 0 (s.launch a.2).priority (.inl (List.mem_map.2 ⟨a, ha, rfl⟩))
        have := hf a ha
        rw [h0] at h1 this
        exact this (by simp; omega)
    · obtain ⟨a, ha, ea⟩ := List.mem_map.1 h0
      exact hf a ha (by simp [ea])
  | some q =>
    rw [hn] at hf
    refine ⟨q.1, q.2, rfl, List.mem_of_find?_eq_some hf, fun k hk => ?_⟩
    have := List.find?_some hf
    simp only [beq_iff_eq] at this
    rw [this]
    exact le_foldl_max _ _ _ (.inl (List.mem_map.2 ⟨k, hk, rfl⟩))

theorem potOf_setPot (s : State) (f : Nat) (e : PotEntry) : (s.setPot f e).potOf f = e := by
  unfold State.potOf State.setPot
  dsimp only
  rw [mget_mset_self]

theorem readByte_clear' (f a : Nat) : ∀ (m : List Host.Cell) (lo : Nat), cellsAbove lo m = true →
    readByte (clearBytes m (f * 4096) 4096) a = if a / 4096 = f then 0 else readByte m a
  | [], lo, _ => by simp [clearBytes, readByte, unlistedByte]
  | (b, w) :: m, lo, h => by
    have h' := h
    simp only [cellsAbove, Bool.and_eq_true, decide_eq_true_eq] at h'
    have ih := readByte_clear' f a m _ h'.2
    by_cases hb : b / 4096 = f
    · have e : clearBytes ((b, w) :: m) (f * 4096) 4096 = clearBytes m (f * 4096) 4096 := by
        unfold clearBytes
        rw [List.filter_cons, if_neg]
        simp; omega
      rw [e, ih]
      by_cases ha : a / 4096 = f
      · rw [if_pos ha, if_pos ha]
      · rw [if_neg ha, if_neg ha]
        by_cases hab : b = a
        · subst hab; exact absurd hb ha
        · by_cases hlt : a < b
          · rw [readByte_below h'.2 (by omega), readByte, if_neg hab, if_pos hlt]
          · rw [readByte, if_neg hab, if_neg hlt]
    · have e : clearBytes ((b, w) :: m) (f * 4096) 4096 = (b, w) :: clearBytes m (f * 4096) 4096 := by
        unfold clearBytes
        rw [List.filter_cons, if_pos]
        simp; omega
      rw [e, readByte, ih]
      by_cases hab : b = a
      · subst hab; rw [if_pos rfl, if_neg hb, readByte, if_pos rfl]
      · by_cases hlt : a < b
        · rw [if_neg hab, if_pos hlt, readByte, if_neg hab, if_pos hlt]
          simp [unlistedByte]
        · rw [if_neg hab, if_neg hlt, readByte, if_neg hab, if_neg hlt]

theorem readByte_clear {m : List Host.Cell} (h : Memory.wf m = true) (f a : Nat) :
    readByte (clearBytes m (f * 4096) 4096) a = if a / 4096 = f then 0 else readByte m a := readByte_clear' f a m _ h

theorem dropFrame_potOf (s : State) (f q : Nat) : (s.dropFrame f).potOf q = s.potOf q := rfl

theorem poison_potOf (u : State) (line : Nat) : (u.poisonLine line).potOf (line / 64) = { u.potOf (line / 64) with poison := true } := by
  unfold State.poisonLine
  dsimp only
  rw [dropFrame_potOf, potOf_setPot]

theorem scrub_head {s : State} {p frame : Nat} {rest : List (Nat × Nat)} (hs : scrubHead (s.part p).scrub = some (frame, rest))
    (hr : s.mgmt.rootIntegrity = false) (h : s.carveBad = false) :
    ∃ t, exec (.scrubFrame p) s = .next t ∧ (t.part p).scrub = rest ∧ (t.part p).pool = (s.part p).pool ++ [frame] ∧
      (t.potOf frame).state = .clean ∧ (t.potOf frame).part = (s.potOf frame).part ∧
      (Memory.wf s.mem = true → ∀ a, readByte t.mem a = if a / 4096 = frame then 0 else readByte s.mem a) := by
  have h0 : exec (.scrubFrame p) s = .next (
      let u := (s.fillFrame frame []).setPot frame ⟨0, 0, 0, .clean, 0, ((s.fillFrame frame []).potOf frame).part, false, false⟩
      u.setPart p ({ u.part p with scrub := rest, pool := (u.part p).pool ++ [frame] } : Part).sampleScrub) := by
    show Host.Outcome.next _ = _
    rw [hs]
    exact congrArg _ ((if_neg (by rw [hr]; simp)).trans (if_neg (by rw [h]; simp)))
  have hm := fillFrame_mem s frame []
  have hp : ((s.fillFrame frame []).potOf frame).part = (s.potOf frame).part := by
    unfold State.potOf
    rfl
  have hq : (s.fillFrame frame []).parts = s.parts := rfl
  generalize s.fillFrame frame [] = v at *
  refine ⟨_, h0, ?_, ?_, ?_, ?_, ?_⟩
  · dsimp only
    rw [State.part_setPart]; rfl
  · dsimp only
    rw [State.part_setPart]
    show (mget v.parts p |>.getD Part.empty).pool ++ _ = _
    rw [hq]; rfl
  · exact congrArg PotEntry.state (potOf_setPot _ _ _)
  · exact (congrArg PotEntry.part (potOf_setPot _ _ _)).trans hp
  · intro hw a
    show readByte v.mem a = _
    rw [hm]
    exact readByte_clear hw frame a

theorem pageOut_sealed (s : State) (frame slot buf v h : Nat) (rd : BitVec 5) :
      let fe := s.potOf frame
      let n := fe.owner.toNat
      let u := s.settle false (frame * 4096) 4096
      let w := u.settle true buf imageLen
      (u.masked (frame * 4096) 4096 = true → Host.Outcome.next (s.sealOut frame slot buf v h rd) =
        (.next ((u.setPot frame { u.potOf frame with state := .owned }).endOut frame h rd 0x0E 0) : Host.Outcome State Fault Refusal)) ∧
      (u.masked (frame * 4096) 4096 = false → w.masked buf imageLen = false →
        let image := imageOf (Config.keyBits (u.encl n).keyPage) n fe.evpn.toNat v fe.meas (readBytes u.mem (frame * 4096) 4096)
        let w := w.poke buf image
        let slotted := w.setPot slot ⟨BitVec.ofNat 32 v, fe.evpn, fe.owner, .paged, 0, (w.potOf slot).part, false, false⟩
        Host.Outcome.next (s.sealOut frame slot buf v h rd) = (.next ((slotted.toScrub frame).endOut frame h rd 0x00 v) : Host.Outcome State Fault Refusal)) := by
  unfold State.sealOut
  dsimp only
  generalize s.settle false (frame * 4096) 4096 = u
  generalize u.settle true buf imageLen = w
  refine ⟨fun h1 => congrArg _ (if_pos h1), fun h1 h2 => congrArg _ ((if_neg (by rw [h1]; simp)).trans ((if_neg (by rw [h2]; simp))))⟩

theorem fault_posted (s v : State) (p k hart : Nat) (r : FaultRec) :
    let x := s.part p
    let t : State := { v.setPart p { x with
              recs := if r.keeps then mset x.recs k { r with seq := some x.faultSeq } else mdel x.recs k
              fqTail := x.fqTail + 1, faultSeq := x.faultSeq + 1
              extIrq := if x.cores.contains hart && !x.extIrq.contains hart then x.extIrq ++ [hart] else x.extIrq } with
        tlb := s.tlb.filter fun t => !(t.enclave == r.enclave && overlaps t.pages (r.va.toNat / 4096, 1)) }
    t.mem = v.mem ∧
        let y := t.part p
        y.fqTail = x.fqTail + 1 ∧ y.faultSeq = x.faultSeq + 1 ∧
        (r.kind.fatal = false → mget y.recs k = some { r with seq := some x.faultSeq }) ∧ (r.kind.fatal = true → mget y.recs k = none) ∧
        (hart ∈ x.cores → hart ∈ y.extIrq) ∧
        ∀ e, e ∈ t.tlb ↔ e ∈ s.tlb ∧ ¬ (e.enclave = r.enclave ∧ overlaps e.pages (r.va.toNat / 4096, 1) = true) := by
      intro x t
      refine ⟨rfl, ?_⟩
      intro y
      have hy : y = { x with
              recs := if r.keeps then mset x.recs k { r with seq := some x.faultSeq } else mdel x.recs k
              fqTail := x.fqTail + 1, faultSeq := x.faultSeq + 1
              extIrq := if x.cores.contains hart && !x.extIrq.contains hart then x.extIrq ++ [hart] else x.extIrq } :=
        State.part_setPart v p _
      rw [hy]
      refine ⟨rfl, rfl, fun hf => ?_, fun hf => ?_, fun hc => ?_, fun e => ?_⟩
      · dsimp only
        rw [if_pos (by unfold FaultRec.keeps; rw [hf]; rfl)]
        exact mget_mset_self _ _ _
      · dsimp only
        rw [if_neg (by unfold FaultRec.keeps; rw [hf]; simp)]
        exact mget_mdel_self _ _
      · dsimp only
        by_cases hx : hart ∈ x.extIrq
        · rw [if_neg (by simp [hx])]; exact hx
        · rw [if_pos (by simp [hx, hc])]; simp
      · rw [List.mem_filter]
        refine and_congr Iff.rfl ?_
        by_cases he : e.enclave = r.enclave <;> simp [he]

theorem mget_of_filter {α : Type} (f : Nat × α → Bool) : True := trivial

theorem hart_setHart (s : State) (h : Nat) (x : Hart) : (s.setHart h x).hart h = x := by
  show (mget (mset s.harts h x) h).getD _ = x
  rw [mget_mset_self]; rfl

theorem arrive_ok {s : State} {f : Flit} {t : Stream} {kind : Nat} (ht : mget s.streams f.stream = some t) (hk : f.kind = kind)
    (h1 : t.state = .up) (h2 : t.retries < 16) (h3 : f.crcOk = true) (h4 : f.keygen = t.keygen) (h5 : f.seq = t.rx) (h6 : s.tagOk t f = true) :
    s.arrive f kind = (s.setStream f.stream { t with rx := t.rx + 1, retries := 0, tagFailed := false }, some t) := by
  unfold State.arrive
  rw [ht]
  dsimp only
  rw [if_neg (by rw [hk, h1]; simp; omega), if_neg (by rw [h3]; simp), if_neg (by rw [h4, h5]; simp), if_neg (by omega)]
  exact if_pos h6

theorem mapM_bridge {α β ε : Type} (f : α → Except ε β) (g : α → Option β) (h : ∀ a b, g a = some b → f a = .ok b) :
    ∀ (l : List α) (r : List β), l.mapM g = some r → l.mapM f = .ok r
  | [], r, hr => by simp at hr; subst hr; rfl
  | a :: l, r, hr => by
    rw [List.mapM_cons] at hr ⊢
    cases ha : g a with
    | none => rw [ha] at hr; cases hr
    | some b =>
      rw [ha] at hr
      cases hl : l.mapM g with
      | none => rw [hl] at hr; cases hr
      | some r' =>
        rw [hl] at hr
        cases hr
        rw [h a b ha, mapM_bridge f g h l r' hl]
        rfl

theorem setHart_setHart (s : State) (h : Nat) (x y : Hart) : (s.setHart h x).setHart h y = s.setHart h y := by
  show ({ s with harts := mset (mset s.harts h x) h y } : State) = { s with harts := mset s.harts h y }
  congr 1
  induction s.harts with
  | nil => simp [mset]
  | cons q m ih =>
    obtain ⟨k, v⟩ := q
    by_cases e : k = h
    · subst e; simp [mset]
    · simp [mset, e, ih]

theorem bits_zero (v : BitVec 64) (hi lo n : Nat) (h : hi + 1 - lo = n) : bitsOf v.toNat hi lo = 0 ↔ v.extractLsb' lo n = 0 := by
  rw [bits_toNat v hi lo n h]
  constructor
  · intro e; exact BitVec.eq_of_toNat_eq e
  · intro e; rw [e]; rfl

theorem resultWord_append (st v : Nat) : resultWord st v = BitVec.ofNat 16 st ++ BitVec.ofNat 48 v := by
  apply BitVec.eq_of_toNat_eq
  rw [BitVec.toNat_append]
  unfold resultWord
  simp only [BitVec.toNat_ofNat]
  rw [Nat.shiftLeft_eq, Nat.mod_eq_of_lt (by omega)]
  have h1 : v % 2 ^ 48 < 2 ^ 48 := Nat.mod_lt _ (by decide)
  rw [Nat.mul_comm, Nat.two_pow_add_eq_or_of_lt h1]

theorem answer_gone (s : State) (h : Nat) (rd : BitVec 5) (st v : Nat) :
    s.answer h rd st v = s.gone h rd (BitVec.ofNat 16 st ++ BitVec.ofNat 48 v) := by
  unfold State.answer
  rw [resultWord_append, retire_gone]

theorem answer_eq (s : State) (h : Nat) (rd : BitVec 5) (st v : Nat) : (s.answer h rd st v).served h = s.answered h rd st v := by
  rw [answer_gone]; rfl

theorem onHart_free {s : State} {p : Nat} (hf : s.HartFree p) (k : Nat → Nat → Hart → State) :
    onHart s k = .next ((k s.curHart p (s.hart s.curHart)).served s.curHart) := by
  obtain ⟨h1, h2, h3, h4, h5, h6, h7⟩ := hf
  unfold onHart
  refine congrArg _ ?_
  dsimp only
  rw [h1]
  dsimp only
  have hs : s.sealing = false := by
    unfold State.sealing
    rw [List.any_eq_false]
    intro m hm
    rw [h5 m hm]
    simp
  have hq : (s.requests.head?.any fun x => x != s.curHart) = false := by
    cases hh : s.requests.head? with
    | none => rfl
    | some g => rw [h7 g hh]; simp
  rw [h2, h3, h4, hs, h6, hq]
  rfl

theorem asOs_free {s : State} {p : Nat} (hf : s.HartFree p) (hi : (s.hart s.curHart).inside = none) (hm : (s.hart s.curHart).mode = .hs)
    (k : Nat → Nat → Hart → State) : asOs s k = .next ((k s.curHart p (s.hart s.curHart)).served s.curHart) :=
  (onHart_free hf _).trans (congrArg (fun u : State => Host.Outcome.next (u.served s.curHart)) (if_pos ⟨hi, hm⟩))

theorem asThread_free {s : State} {p : Nat} {n : Inside} (hf : s.HartFree p) (hi : (s.hart s.curHart).inside = some n)
    (k : Nat → Nat → Hart → Inside → State) : asThread s k = .next ((k s.curHart p (s.hart s.curHart) n).served s.curHart) := by
  refine (onHart_free hf _).trans (congrArg (fun u : State => Host.Outcome.next (u.served s.curHart)) ?_)
  rw [hi]

theorem take_quiet (x : Hart) (c pc : BitVec 64) (hc : c.getLsbD 63 = false) : x.take c 0 pc = { x with
      sepc := pc, scause := c, stval := 0
      spp := x.mode == .hs || x.mode == .vs, spv := x.mode == .vs || x.mode == .vu, spie := x.sie, sie := false, mode := .hs, wait := .nothing, answer := none
      pc := x.stvec &&& ~~~3#64 } := by
  unfold Hart.take
  dsimp only
  rw [hc]
  rfl

theorem freeSlot_none {used : List Nat} (h : ∀ k, 1 ≤ k → k ≤ 4095 → k ∈ used) : freeSlotIn used = none := by
  unfold freeSlotIn
  rw [List.find?_eq_none]
  intro k hk
  obtain ⟨j, hj, rfl⟩ := List.mem_map.1 hk
  have := h (j + 1) (by omega) (by have := List.mem_range.1 hj; omega)
  simp [this]

theorem find_range_some (P : Nat → Bool) : ∀ (n : Nat) (slot : Nat), slot < n → P slot = true → (∀ k, k < slot → P k = false) →
    (List.range n).find? P = some slot := by
  intro n
  induction n with
  | zero => intro slot h; omega
  | succ n ih =>
    intro slot h hp hn
    rw [List.range_succ, List.find?_append]
    by_cases e : slot = n
    · subst e
      have : (List.range slot).find? P = none := by
        rw [List.find?_eq_none]
        intro k hk
        simp [hn k (List.mem_range.1 hk)]
      rw [this]
      simp [hp]
    · rw [ih slot (by omega) hp hn]; rfl

theorem freeSlot_some {used : List Nat} {slot : Nat} (h1 : 1 ≤ slot) (h2 : slot ≤ 4095) (h3 : slot ∉ used)
    (h4 : ∀ k, 1 ≤ k → k < slot → k ∈ used) : freeSlotIn used = some slot := by
  unfold freeSlotIn
  rw [List.find?_map, find_range_some _ 4095 (slot - 1) (by omega) (by
      show (!used.contains (slot - 1 + 1)) = true
      rw [Nat.sub_add_cancel h1]; simp [h3]) (by
      intro k hk
      show (!used.contains (k + 1)) = false
      simp [h4 (k + 1) (by omega) (by omega)])]
  show some (slot - 1 + 1) = some slot
  rw [Nat.sub_add_cancel h1]

theorem nodup_length : ∀ (l m : List Nat), l.Nodup → (∀ a ∈ l, a ∈ m) → l.length ≤ m.length
  | [], m, _, _ => Nat.zero_le _
  | a :: l, m, hn, hs => by
    have ha := hs a (by simp)
    rw [List.nodup_cons] at hn
    have := nodup_length l (m.erase a) hn.2 (fun b hb => by
      have : b ≠ a := fun e => hn.1 (e ▸ hb)
      exact (List.mem_erase_of_ne this).2 (hs b (by simp [hb])))
    rw [List.length_erase_of_mem ha] at this
    have hp : 0 < m.length := List.length_pos_of_mem ha
    simp only [List.length_cons]; omega

theorem nextEncl_fresh (used : List Nat) (h : used.length < 65535) (e : Nat) (h1 : 1 ≤ e) (h2 : e ≤ 65535) :
    1 ≤ nextEncl used used.length e ∧ nextEncl used used.length e ≤ 65535 ∧ nextEncl used used.length e ∉ used := by
  have key : ∀ (n : Nat) (e : Nat), 1 ≤ e → e ≤ 65535 → 1 ≤ nextEncl used n e ∧ nextEncl used n e ≤ 65535 ∧
      (nextEncl used n e ∈ used → ∀ k, k ≤ n → (e - 1 + k) % 65535 + 1 ∈ used) := by
    intro n
    induction n with
    | zero =>
      intro e h1 h2
      refine ⟨h1, h2, fun hu k hk => ?_⟩
      have : k = 0 := by omega
      subst this
      rw [Nat.add_zero, Nat.mod_eq_of_lt (by omega), Nat.sub_add_cancel h1]
      exact hu
    | succ n ih =>
      intro e h1 h2
      unfold nextEncl
      by_cases hc : used.contains e = true
      · rw [if_pos hc]
        obtain ⟨a, b, c⟩ := ih (e % 65535 + 1) (by omega) (by have := Nat.mod_lt e (show 0 < 65535 by omega); omega)
        refine ⟨a, b, fun hu k hk => ?_⟩
        cases k with
        | zero =>
          rw [Nat.add_zero, Nat.mod_eq_of_lt (by omega), Nat.sub_add_cancel h1]
          simpa using hc
        | succ k =>
          have := c hu k (by omega)
          have e1 : (e % 65535 + 1 - 1 + k) % 65535 = (e - 1 + (k + 1)) % 65535 := by omega
          rw [e1] at this
          exact this
      · rw [if_neg hc]
        exact ⟨h1, h2, fun hu => absurd (by simpa using hu) hc⟩
  obtain ⟨a, b, c⟩ := key used.length e h1 h2
  refine ⟨a, b, fun hu => ?_⟩
  have hall := c hu
  have := nodup_length ((List.range (used.length + 1)).map fun k => (e - 1 + k) % 65535 + 1) used (by
    rw [List.Nodup, List.pairwise_map]
    refine List.Pairwise.imp_of_mem ?_ List.nodup_range
    intro i j hi hj hne
    have hi := List.mem_range.1 hi
    have hj := List.mem_range.1 hj
    omega) (by
    intro q hq
    obtain ⟨k, hk, rfl⟩ := List.mem_map.1 hq
    exact hall k (by have := List.mem_range.1 hk; omega))
  rw [List.length_map, List.length_range] at this
  omega

theorem beq_zero_of_ne {n : Nat} {v : BitVec n} (h : v = 0) : ¬ (v.toNat ≠ 0) := fun hh => hh (by rw [h]; exact BitVec.toNat_ofNat _ _ |>.trans (Nat.zero_mod _))

theorem bne_zero {n : Nat} {v : BitVec n} (h : v ≠ 0) : v.toNat ≠ 0 := fun hh => h (BitVec.eq_of_toNat_eq (hh.trans (by simp)))

theorem draw_cons {s : State} {p f : Nat} {rest : List Nat} (s0 : State) (h : Nat) (rd : BitVec 5) (k : State → Nat → State)
    (e : (s.part p).pool = f :: rest) (hn : s.drawsNext (s.part p) h = true) :
    s.draw s0 h p rd k = k (s.setPart p { s.part p with pool := rest }) f := by
  unfold State.draw
  dsimp only
  rw [e]
  exact if_pos hn

theorem draw_later {s : State} {p f : Nat} {rest : List Nat} (s0 : State) (h : Nat) (rd : BitVec 5) (k : State → Nat → State)
    (e : (s.part p).pool = f :: rest) (hn : s.drawsNext (s.part p) h = false) : s.draw s0 h p rd k = s0.awaitsFrame h := by
  unfold State.draw
  dsimp only
  rw [e]
  exact if_neg (by rw [hn]; decide)

theorem not_true_eq {b : Bool} (h : b = false) : ¬ (b = true) := fun hh => absurd (h.symm.trans hh) (by simp)

theorem not_true_true {b : Bool} (h : b = true) : ¬ (b = false) := fun hh => absurd (h.symm.trans hh) (by simp)

theorem draw_nil {s : State} {p : Nat} (s0 : State) (h : Nat) (rd : BitVec 5) (k : State → Nat → State)
    (e : (s.part p).pool = []) : s.draw s0 h p rd k = if scrubLen (s.part p).scrub = 0 then s.answer h rd enPoolEmpty 0
      else s0.awaitsFrame h := by
  unfold State.draw
  dsimp only
  rw [e]
  rfl

theorem extract_zero {v : BitVec 64} (h : v = 0) : v.extractLsb' 16 48 = 0 := by rw [h]; decide

theorem toNat_zero_eq {v : BitVec 64} (h : v = 0) : v.toNat = 0 := by rw [h]; rfl

theorem zero64_eq {v : BitVec 64} (h : v.toNat = 0) : v = 0 := BitVec.eq_of_toNat_eq (h.trans (by rfl))

end

end Sys2Proof.Machine
end

