-- ==== Sys2Proof/Laws/Step.lean ====
section
/-! SUPPORT. What exec answers, for every instruction, and what a step runs. -/

namespace Sys2Proof.Machine

set_option Elab.async false

section
set_option linter.all false

/-- An answer that exec may give (log 1). -/
def Answers (i : Instr) (s : State) (o : Host.Outcome State Fault Refusal) : Prop :=
  (∃ t, o = .next t) ∨ (o = .fault .noExecutor ∧ s.exe? = none ∧ i.isEvent = false ∧ i.custom = none)
theorem answers_next (i : Instr) (s t : State) : Answers i s (.next t) := .inl ⟨t, rfl⟩
theorem answers_path (i : Instr) (s : State) (hi : i.isEvent = false) (hc : i.custom = none) (k : Exe → State) : Answers i s (onPath s k) := by
  unfold onPath
  cases h : s.exe? with
  | none => exact .inr ⟨rfl, h, hi, hc⟩
  | some x => exact .inl ⟨_, rfl⟩
theorem answers_hart (i : Instr) (s : State) (k) : Answers i s (onHart s k) := by
  unfold onHart; exact .inl ⟨_, rfl⟩
/-- What exec answers: a next state; or a fault where no path executes. -/
theorem exec_answers (i : Instr) (s : State) : Answers i s (exec i s) := by
  cases i
  all_goals first
    | with_reducible_and_instances exact answers_next _ _ _
    | exact answers_next _ _ _
    | exact answers_path _ _ rfl rfl _
    | exact answers_hart _ _ _
    | skip
  all_goals
    first
    | show Answers _ s (execXltInvEnclave _ _ s)
      unfold execXltInvEnclave xltStart
    | show Answers _ s (execXltInvPages _ _ s)
      unfold execXltInvPages xltStart
    | show Answers _ s (execXltInvPartition _ _ s)
      unfold execXltInvPartition xltStart
    repeat' first | exact answers_next _ _ _ | split

theorem decodeCustom_custom (w : Word) (i : Instr) (h : decodeCustom w = some i) : i.custom ≠ none := by
  unfold decodeCustom at h
  dsimp only at h
  repeat' (first | contradiction | (cases h; simp [Instr.custom]; done) | split at h)
theorem decodeCustom_ne (w : Word) (i : Instr) (h : decodeCustom w = some i) : ∀ a b c, i ≠ .riscvLoadStore a b c := by
  rintro a b c rfl
  exact decodeCustom_custom _ _ h rfl

/-! Parameters of a launch (R252). -/

theorem leNat_range (g : Nat → Byte) (f : Nat → Nat) (h : ∀ k, (g k).toNat = f k) :
    leNat ((List.range 1).map g) = f 0 ∧ leNat ((List.range 2).map g) = f 0 + 2 ^ 8 * f 1 ∧
    leNat ((List.range 4).map g) = f 0 + 2 ^ 8 * f 1 + 2 ^ 16 * f 2 + 2 ^ 24 * f 3 ∧
    leNat ((List.range 8).map g) = f 0 + 2 ^ 8 * f 1 + 2 ^ 16 * f 2 + 2 ^ 24 * f 3 + 2 ^ 32 * f 4 + 2 ^ 40 * f 5 + 2 ^ 48 * f 6 + 2 ^ 56 * f 7 := by
  have e1 : List.range 1 = [0] := rfl
  have e2 : List.range 2 = [0, 1] := rfl
  have e4 : List.range 4 = [0, 1, 2, 3] := rfl
  have e8 : List.range 8 = [0, 1, 2, 3, 4, 5, 6, 7] := rfl
  rw [e1, e2, e4, e8]
  simp only [List.map_cons, List.map_nil, leNat, h]
  omega

theorem ofTy_of_lt (t : Ty) (n : Nat) (h : n < 2 ^ t.width) : ofTy t n = .bits (BitVec.ofNat 64 n) := by
  unfold ofTy; rw [Nat.mod_eq_of_lt h]

theorem Launch.param_cases (L : Launch) (off : Nat) (ty : Ty) (byte : Nat → Nat) (hb : ∀ k, (L.paramByte (off + k)).toNat = byte k) (hlt : ∀ k, byte k < 256)
    (r : Val × Bool) (hr : r = (L.param ty off, false)) :
    (ty = .b1 → r = (.bits (if byte 0 = 0 then 0 else 1), false)) ∧
      (ty ∈ [Ty.i8] → r = (.bits (BitVec.ofNat 64 (byte 0)), false)) ∧
      (ty ∈ [Ty.i16, .f16, .bf16] → r = (.bits (BitVec.ofNat 64 (byte 0 + 2 ^ 8 * byte 1)), false)) ∧
      (ty ∈ [Ty.i32, .f32, .p8x4, .p16x2] →
        r = (.bits (BitVec.ofNat 64 (byte 0 + 2 ^ 8 * byte 1 + 2 ^ 16 * byte 2 + 2 ^ 24 * byte 3)), false)) ∧
      (ty ∈ [Ty.i64, .f64, .fut] → r = (.bits (BitVec.ofNat 64 (byte 0 + 2 ^ 8 * byte 1 + 2 ^ 16 * byte 2 + 2 ^ 24 * byte 3 +
        2 ^ 32 * byte 4 + 2 ^ 40 * byte 5 + 2 ^ 48 * byte 6 + 2 ^ 56 * byte 7)), false)) := by
  obtain ⟨s1, s2, s4, s8⟩ := leNat_range (fun k => L.paramByte (off + k)) byte hb
  have h0 := hlt 0; have h1 := hlt 1; have h2 := hlt 2; have h3 := hlt 3; have h4 := hlt 4; have h5 := hlt 5; have h6 := hlt 6; have h7 := hlt 7
  have K : ∀ n, bytesOf ty = n → ty ≠ .b1 → L.param ty off = ofTy ty (leNat ((List.range n).map fun k => L.paramByte (off + k))) := by
    intro n hn h
    unfold Launch.param
    rw [hn]
    exact if_neg h
  refine ⟨?_, ?_, ?_, ?_, ?_⟩
  · rintro rfl
    rw [hr]
    have : L.param .b1 off = .ofBool (leNat ((List.range 1).map fun k => L.paramByte (off + k)) != 0) := rfl
    rw [this, s1]
    by_cases e : byte 0 = 0
    · rw [e]; rfl
    · rw [if_neg e, show (byte 0 != 0) = true by simpa using e]; rfl
  all_goals
    intro h
    simp only [List.mem_cons, List.not_mem_nil, or_false] at h
    rw [hr]
  · subst h; rw [K 1 rfl (by simp), s1, ofTy_of_lt _ _ (show byte 0 < 2 ^ 8 by omega)]
  · rcases h with rfl | rfl | rfl <;> rw [K 2 rfl (by simp), s2, ofTy_of_lt _ _ (show _ < 2 ^ 16 by omega)]
  · rcases h with rfl | rfl | rfl | rfl <;> rw [K 4 rfl (by simp), s4, ofTy_of_lt _ _ (show _ < 2 ^ 32 by omega)]
  · rcases h with rfl | rfl | rfl <;> rw [K 8 rfl (by simp), s8, ofTy_of_lt _ _ (show _ < 2 ^ 64 by omega)]

end

end Sys2Proof.Machine
end

