-- ==== Sys2Proof/Laws/Traps.lean ====
section
/-! SUPPORT. Calls and traps (R236, R237, R293, R377, R405, R406): what enters and leaves a handler. -/

namespace Sys2Proof.Machine

set_option Elab.async false

section
set_option linter.all false

theorem returned_val (base n : Nat) (types : Nat → Ty) (vs : List Val) (y0 : Lane) : 
    let y := (List.range n).foldl (fun y k =>
      match vs[k]? with
      | some v => y.define (base + k) (ofTy (types k) v.num)
      | none => y.erase (base + k)) y0
    y0.Keeps y ∧ ∀ id, y.val id = if base ≤ id ∧ id < base + n then (vs[id - base]?).map (fun v => ofTy (types (id - base)) v.num) else y0.val id := by
  induction n with
  | zero =>
    refine ⟨.refl _, fun id => ?_⟩
    rw [if_neg (by omega)]; rfl
  | succ n ih =>
    dsimp only at ih ⊢
    rw [List.range_succ, List.foldl_append, List.foldl_cons, List.foldl_nil]
    generalize (List.range n).foldl _ y0 = y at ih ⊢
    obtain ⟨h1, h2⟩ := ih
    cases hv : vs[n]? with
    | none =>
      refine ⟨h1.trans (Lane.keeps_erase _ _), fun id => ?_⟩
      rw [Lane.val_erase, h2]
      by_cases e : id = base + n
      · subst e; rw [if_pos rfl, if_pos ⟨by omega, by omega⟩, Nat.add_sub_cancel_left, hv]; rfl
      · rw [if_neg e]
        by_cases h3 : base ≤ id ∧ id < base + n
        · rw [if_pos h3, if_pos ⟨h3.1, by omega⟩]
        · rw [if_neg h3, if_neg (by omega)]
    | some v =>
      refine ⟨h1.trans (Lane.keeps_define _ _ _), fun id => ?_⟩
      rw [Lane.val_define, h2]
      by_cases e : id = base + n
      · subst e; rw [if_pos rfl, if_pos ⟨by omega, by omega⟩, Nat.add_sub_cancel_left, hv]; rfl
      · rw [if_neg e]
        by_cases h3 : base ≤ id ∧ id < base + n
        · rw [if_pos h3, if_pos ⟨h3.1, by omega⟩]
        · rw [if_neg h3, if_neg (by omega)]

theorem settleOne_meets {c c' : Ctx} {o : Nat} (h : c.settleOne o = some c') : c'.meets = c.meets ∧ c'.barm = c.barm := by
  have hentry : ∀ c'', (c.dueEntry o (c.lastOwned o)).map (fun e => ({ c with
      paths := mset c.paths e.runs { Path.start e.pc e.lanes e.mode e.pend e.last e.place with arms := e.arms }
      stack := dropLastOf (Entry.dueAt o (c.lastOwned o)) c.stack } : Ctx)) = some c'' → c''.meets = c.meets ∧ c''.barm = c.barm := by
    intro c'' h
    rw [Option.map_eq_some_iff] at h
    obtain ⟨e, he, rfl⟩ := h
    exact ⟨rfl, rfl⟩
  unfold Ctx.settleOne at h
  dsimp only at h
  split at h
  · exact hentry _ h
  · next r hr =>
    split at h
    · cases h; exact ⟨rfl, rfl⟩
    · split at h
      · exact hentry _ h
      · split at h
        · split at h
          · cases h; exact ⟨rfl, rfl⟩
          · cases h; exact ⟨rfl, rfl⟩
        · cases h

theorem settle_meets (n : Nat) : ∀ c : Ctx, (c.settle n).meets = c.meets ∧ (c.settle n).barm = c.barm := by
  induction n with
  | zero => intro c; exact ⟨rfl, rfl⟩
  | succ n ih =>
    intro c
    unfold Ctx.settle
    cases hq : c.idleOwners.findSome? c.settleOne with
    | none => exact ⟨rfl, rfl⟩
    | some c' =>
      rw [List.findSome?_eq_some_iff] at hq
      obtain ⟨l1, o, l2, -, h2, -⟩ := hq
      have := settleOne_meets h2
      have h3 := ih c'
      exact ⟨h3.1.trans this.1, h3.2.trans this.2⟩

theorem finishGangs_none (s : State) (l : Nat) (h : ∀ q ∈ (s.launch l).gangs, q.2.state = .placed → s.gangOver q.2.teams = false) :
    s.finishGangs l = s := by
  unfold State.finishGangs
  generalize (s.launch l).gangs = gs at h
  induction gs with
  | nil => rfl
  | cons a gs ih =>
    rw [List.foldl_cons, if_neg]
    · exact ih fun q hq => h q (by simp [hq])
    · rintro ⟨h1, h2⟩
      rw [h a (by simp) h1] at h2; cases h2

theorem trap_enters (x : Exe) (h : TrapInfo) (fn n : Nat) (tr : Machine.Trans) (hgr : x.s.group x.gid = x.g) (hpath : mget x.g.ctx.paths x.pid = some x.p)
    (hh : x.g.handler = none) (hm : h.code < 0x10 → x.g.tmask.getLsbD h.code = true) (hf : x.s.trapFn x.launch = some fn)
    (ht : x.s.findTrans x.eid x.launch.obj fn x.g.width (x.launch.budget x.g.role) x.hall = some (n, tr)) :
    x.EntersHandler fn n tr h (x.s.takeTrap x.gid x.pid x.p h) := by
  let H : Handler := ⟨BitVec.ofNat 8 h.code, h.lanes, x.p.pc, h.flags, h.opnds, x.pid, (x.having { x.p with stage := .none }).ctx, 0, 0, x.p.mode⟩
  let g1 := x.g.mapLanes (lanesOf h.lanes) fun _ => pushFrame fn n
  let G : Group := { g1 with ctx := ⟨[(g1.fresh, Path.start tr.entry h.lanes x.p.mode [] none .core)], [], [], [], []⟩, handler := some H, fresh := g1.fresh + 1 }
  obtain ⟨L, hL⟩ : ∃ L, g1 = { x.g with lanes := L } := Group.mapLanes_lanes _ _ x.g
  have key : x.s.takeTrap x.gid x.pid x.p h = if h.code = 0x0E then ((x.entered n).setGroup x.gid G).bump x.eid 17 x.team.core 1 else (x.entered n).setGroup x.gid G := by
    unfold State.takeTrap State.takeTrapOr
    simp only [hgr]
    rw [if_neg (by rw [hh]; decide), if_neg (by rintro ⟨h1, h2⟩; rw [hm h1] at h2; cases h2)]
    simp only [show x.s.trapFn (x.s.launch (x.s.team x.g.team).launch) = some fn from hf]
    simp only [show x.s.findTrans (x.s.launch (x.s.team x.g.team).launch).enclave (x.s.launch (x.s.team x.g.team).launch).obj fn x.g.width ((x.s.launch (x.s.team x.g.team).launch).budget x.g.role) ((x.s.team x.g.team).core / 8) = some (n, tr) from ht]
    rw [mupd_some _ _ _ _ hpath]
    show (if h.code = 0x0E then (State.useTrans (State.countEntry (x.s.setGroup x.gid G) x.eid x.team.core x.p.stage) n).bump x.eid 17 x.team.core 1 else (State.useTrans (State.countEntry (x.s.setGroup x.gid G) x.eid x.team.core x.p.stage) n)) = _
    rw [Exe.entered_eq]
  have hgrp : (x.s.takeTrap x.gid x.pid x.p h).group x.gid = G := by
    rw [key]
    split
    · exact State.group_setGroup (x.entered n) x.gid G
    · exact State.group_setGroup (x.entered n) x.gid G
  constructor
  · rw [hgrp]; simp only [G, hL]; rfl
  · intro l
    rw [hgrp]
    exact Group.lane_mapLanes (fun _ => pushFrame fn n) _ (nodup_lanesOf _) x.g l
  · rw [hgrp, key]
    split <;> rfl

theorem trap_vals (x : Exe) (c : Ctl) (n : BitVec 30) (hg : c.guarded = false) (h1 : 0x10 ≤ n.toNat) (h2 : n.toNat ≤ 0x7F) :
    numOf (x.onceVals (.trap c [.imm n])) 0 = n.toNat := by
  have hp : (x.plan (.trap c [.imm n])).own = [(.i32, .imm n)] := by
    unfold Exe.plan
    have : ((Instr.shape (.trap c [.imm n])).split x.tyOf c [.imm n]) = some ([.imm n], none) ∨ ((Instr.shape (.trap c [.imm n])).split x.tyOf c [.imm n]) = none := by
      unfold Shape.split
      split
      · exact .inl rfl
      · rw [hg]; simp
    dsimp only [Instr.ctl, Instr.ops]
    rcases this with h | h
    · simp only [h]; rfl
    · simp only [h]; rfl
  have hr : x.onceVals (.trap c [.imm n]) = [ofImm .i32 n] := by
    unfold Exe.onceVals Exe.vals Exe.reads
    rw [hp]; rfl
  rw [hr]
  have hmsb : n.msb = false := by rw [BitVec.msb_eq_false_iff_two_mul_lt]; omega
  show (ofImm .i32 n).num = n.toNat
  unfold ofImm
  rw [if_neg (by decide), BitVec.signExtend_eq_setWidth_of_msb_false hmsb]
  simp only [ofTy, Val.num, BitVec.toNat_setWidth, Ty.width]
  simp only [Val.toBits, BitVec.toNat_ofNat]
  omega

theorem bad_eq (x : Exe) (i : Instr) (ls : List Nat) : ls.filter (x.readsPoison (x.plan i)) = ls.filter fun l => x.poison i l == flagPO := by
  apply List.filter_congr
  intro l _
  unfold Exe.poison
  cases x.readsPoison (x.plan i) l <;> rfl

/-- What a lanewise step comes to when poison traps. -/
theorem lanewise_poison (x : Exe) (i : Instr) (f : List (Nat × List Val) → Nat → List Val → LaneOut)
    (h1 : modeEn x.p.mode &&& flagPO ≠ 0) (h2 : ((x.active i.ctl).filter fun l => x.poison i l == flagPO) ≠ []) :
    x.lanewise i f = x.s.raiseTrap x.gid x.pid x.p
      { code := 3, lanes := maskOf ((x.active i.ctl).filter fun l => x.poison i l == flagPO), flags := 0, opnds := x.lanes.map fun l => (l, x.shownOps i l) } := by
  unfold Exe.lanewise Exe.judge Exe.judgeWith
  dsimp only
  rw [bad_eq, if_pos]
  · rfl
  · cases hq : ((x.active i.ctl).filter fun l => x.poison i l == flagPO) with
    | nil => exact absurd hq h2
    | cons => simp; exact h1

theorem lanewise_judged (x : Exe) (i : Instr) (f : List (Nat × List Val) → Nat → List Val → LaneOut)
    (h : ¬ (modeEn x.p.mode &&& flagPO ≠ 0 ∧ ((x.active i.ctl).filter fun l => x.poison i l == flagPO) ≠ [])) :
    x.lanewise i f = x.obey i (verdictOf x.p.mode ((x.allArgs i).map fun lv => (lv.1, (f (x.allArgs i) lv.1 lv.2).withPO (x.readsPoison (x.plan i) lv.1)))) := by
  unfold Exe.lanewise Exe.judge Exe.judgeWith
  dsimp only
  rw [bad_eq, if_neg]
  · rfl
  · intro hq
    apply h
    simp only [Bool.and_eq_true, Bool.not_eq_true', List.isEmpty_eq_false_iff, bne_iff_ne] at hq
    exact ⟨hq.2, hq.1⟩

theorem foldl_first (l : List (Nat × Nat × Nat)) (m : Nat × Nat) (h : ∀ q ∈ l, q.2 = m) :
    l.foldl (fun (m : Nat × Nat) q => if q.2.1 < m.1 then q.2 else m) m = m := by
  induction l with
  | nil => rfl
  | cons a l ih =>
    rw [List.foldl_cons, if_neg, ih fun q hq => h q (by simp [hq])]
    rw [h a (by simp)]; omega

theorem foldl_or (ls : List Nat) (f : Nat → LaneOut) (r : Nat → BitVec 6) (h : ∀ l ∈ ls, (f l).flags = r l) (a : BitVec 6) :
    (ls.map fun l => (l, f l)).foldl (fun a o => a ||| o.2.flags) a = ls.foldl (fun a l => a ||| r l) a := by
  induction ls generalizing a with
  | nil => rfl
  | cons b ls ih =>
    rw [List.map_cons, List.foldl_cons, List.foldl_cons, h b (by simp)]
    exact ih (fun l hl => h l (by simp [hl])) _

theorem after_leave (x : Exe) (g0 g1 : Group) (h1 : Handler) (hh : g0.handler = some h1) (hm : g0.ctx.meets = []) (hb : g0.ctx.barm = [])
    (ht : g0.team = x.g.team) (hlt : x.team.latches = [])
    (hl : ((x.put g0).bump x.eid 4 x.team.core 1).leaveHandler x.gid = (x.put g1).bump x.eid 4 x.team.core 1)
    (hh1 : g1.handler = none) (ht1 : g1.team = x.g.team) (hm1 : g1.ctx.meets = []) (hb1 : g1.ctx.barm = [])
    (hg : ∀ q ∈ x.launch.gangs, q.2.state = .placed → (x.put { g1 with ctx := x.s.follows g1 }).gangOver q.2.teams = false) :
    ((x.put { g1 with ctx := x.s.follows g1 }).bump x.eid 4 x.team.core 1).Sampled (((x.put g0).bump x.eid 4 x.team.core 1).afterLeave x.gid) := by
  let t0 := (x.put g0).bump x.eid 4 x.team.core 1
  let t1 := (x.put g1).bump x.eid 4 x.team.core 1
  have hg0 : t0.group x.gid = g0 := x.group_put_bump ..
  have hg1 : t1.group x.gid = g1 := x.group_put_bump ..
  have hmeet : t0.meetAll x.gid = t0 := by
    unfold State.meetAll
    simp only [hg0, hm, List.map_nil, List.foldl_nil, hb, List.any_nil, Bool.false_eq_true, if_false]
  have hlatch : t0.checkLatches g0.team = t0 := by
    unfold State.checkLatches
    have : t0.team g0.team = x.team := by rw [ht]; rfl
    rw [this, hlt]; rfl
  have hs := (State.settleGroup_sampled t1 x.gid).1
  rw [hg1, show t1.follows g1 = x.s.follows g1 from rfl] at hs
  have hset : t1.setGroup x.gid { g1 with ctx := x.s.follows g1 } = (x.put { g1 with ctx := x.s.follows g1 }).bump x.eid 4 x.team.core 1 := x.setGroup_put_bump ..
  rw [hset] at hs
  generalize ht2 : t1.settleGroup x.gid = t2 at hs
  have hrest := hs.rest
  have hgroups : t2.groups = (x.put { g1 with ctx := x.s.follows g1 }).groups := by have q := congrArg State.groups hrest; exact q
  have hlaunches : t2.launches = x.s.launches := by have q := congrArg State.launches hrest; exact q
  have hops : t2.ops = (x.put { g1 with ctx := x.s.follows g1 }).ops := by have q := congrArg State.ops hrest; exact q
  have hg2 : t2.group x.gid = { g1 with ctx := x.s.follows g1 } := by
    have := State.group_setGroup x.s x.gid { g1 with ctx := x.s.follows g1 }
    unfold State.group at this ⊢
    rw [hgroups]; exact this
  have hsm := settle_meets (2 * (g1.ctx.recs.length + g1.ctx.stack.length) + 2) g1.ctx
  have hmeet2 : t2.meetAll x.gid = t2 := by
    unfold State.meetAll
    have e1 : (x.s.follows g1).meets = [] := State.follows_meets.1.trans (hsm.1.trans hm1)
    have e2 : (x.s.follows g1).barm = [] := State.follows_meets.2.trans (hsm.2.trans hb1)
    simp only [hg2, e1, List.map_nil, List.foldl_nil, e2, List.any_nil, Bool.false_eq_true, if_false]
  have hfin : t2.finishGangs x.team.launch = t2 := by
    refine finishGangs_none _ _ ?_
    have hlaunch : t2.launch x.team.launch = x.launch := by
      unfold State.launch; rw [hlaunches]; rfl
    rw [hlaunch]
    intro q hq hp
    have := hg q hq hp
    unfold State.gangOver at this ⊢
    rw [hgroups, hops]; exact this
  have : t0.afterLeave x.gid = t2 := by
    unfold State.afterLeave
    have hgt : (t0.group x.gid).team = g0.team := by rw [hg0]
    have hteam : (t0.team g0.team).launch = x.team.launch := by rw [ht]; rfl
    have hlv : t0.leaveHandler x.gid = t1 := hl
    have hi : (t0.group x.gid).handler.isSome = true := by rw [hg0, hh]; rfl
    have hi1 : (t1.group x.gid).handler.isNone = true := by rw [hg1, hh1]; rfl
    simp only [hmeet, hgt, hlatch, hteam, hlv, hi, hi1, Bool.and_self, if_true, ht2, hmeet2, hfin]
  show State.Sampled _ (t0.afterLeave x.gid)
  rw [this]
  exact hs

theorem and_not_eq {a b : LaneMask} : a &&& ~~~b = 0 ↔ ∀ j, j < 64 → a.getLsbD j = true → b.getLsbD j = true := by
  constructor
  · intro h j hj ha
    have := congrArg (fun q => q.getLsbD j) h
    simp only [BitVec.getLsbD_and, BitVec.getLsbD_not, hj, decide_true, Bool.true_and, ha] at this
    have h0 : (0 : LaneMask).getLsbD j = false := by simp
    rw [h0] at this
    simpa using this
  · intro h
    apply BitVec.eq_of_getLsbD_eq
    intro j hj
    have h0 : (0 : LaneMask).getLsbD j = false := by simp
    rw [h0, BitVec.getLsbD_and, BitVec.getLsbD_not]
    simp only [hj, decide_true, Bool.true_and]
    cases ha : a.getLsbD j with
    | false => rfl
    | true => rw [h j hj ha]; rfl

theorem below_keeps (y : Lane) (f : Lane → Lane) (hf : ∀ z : Lane, z.Keeps (f z)) (hn : ∀ z : Lane, z.frames ≠ [] → (f z).frames ≠ []) (h : y.frames.length ≥ 2) (d : Frame) :
    ((y.below f).frames.getD 1 d).tr = (y.frames.getD 1 d).tr ∧ ({ y.below f with frames := (y.below f).frames.tail } : Lane) = f { y with frames := y.frames.tail } := by
  obtain ⟨fs, e⟩ := y
  match fs, h with
  | a :: b :: rest, _ =>
    have hk := hf ⟨b :: rest, e⟩
    have hz := hn ⟨b :: rest, e⟩ (by simp)
    have he := hk.edge
    have htp := congrArg Machine.Frame.tr hk.top
    simp only [Lane.below, List.tail_cons]
    generalize (f ⟨b :: rest, e⟩) = z at hz he htp ⊢
    obtain ⟨zf, ze⟩ := z
    cases zf with
    | nil => exact absurd rfl hz
    | cons q zf =>
      dsimp only at he
      subst he
      exact ⟨htp, rfl⟩

theorem val_define_ne (y : Lane) (id : Nat) (v : Val) : (y.define id v).frames ≠ [] := by
  simp [Lane.define, Lane.setTop]

theorem val_erase_ne (y : Lane) (id : Nat) : (y.erase id).frames ≠ [] := by
  simp [Lane.erase, Lane.setTop]

theorem val_defineAll_ne : ∀ (vs : List Val) (y : Lane) (b : Nat), y.frames ≠ [] → (y.defineAll b vs).frames ≠ []
  | [], y, b, h => h
  | v :: vs, y, b, h => val_defineAll_ne vs _ _ (val_define_ne y b v)

theorem val_poisonAll_ne : ∀ (n : Nat) (y : Lane) (b : Nat), y.frames ≠ [] → (y.poisonAll b n).frames ≠ []
  | 0, y, b, h => h
  | n + 1, y, b, h => val_poisonAll_ne n _ _ (val_erase_ne y b)

theorem leave_eq (s : State) (gid : Nat) (g : Group) (h : Handler) (tr : Machine.Trans) (c : Ctx) (hg : s.group gid = g) (hh : g.handler = some h)
    (hm : maskSub (h.lanes &&& ~~~g.exited) (h.trets ||| h.skips) = true)
    (htr : s.translation ((g.lane ((lanesOf h.lanes).headD 0)).frames.getD 1 ⟨0, 0, 0, [], []⟩).tr = tr)
    (hend : (if tr.behind h.pc = tr.endAt then h.skips else 0) = 0)
    (hc : ∀ fr, (if h.code = 6 then backToJoin else partSkips) h (tr.behind h.pc) fr (h.skips &&& ~~~(h.lanes &&& g.exited))
      ((if h.code = 6 then h.frozen else { h.frozen with
        paths := mupd h.frozen.paths h.path fun p => { p with mode := h.mode }
        stack := h.frozen.stack.map fun e => if e.holds h.lanes then { e with mode := h.mode } else e } : Ctx).without (h.lanes &&& g.exited)) = some c) :
    s.leaveHandler gid = s.setGroup gid { (g.mapLanes (lanesOf h.lanes) fun _ x => { x with frames := x.frames.tail }) with ctx := c, handler := none, exited := g.exited, fresh := g.fresh + 1 } := by
  have hz : ∀ m : LaneMask, m ||| 0 = m := fun m => by simp
  obtain ⟨L, hL⟩ : ∃ L, (g.mapLanes (lanesOf h.lanes) fun _ x => { x with frames := x.frames.tail }) = { g with lanes := L } := Group.mapLanes_lanes _ _ g
  unfold State.leaveHandler
  simp only [hg]
  simp only [hh, hm, Bool.true_eq_false, if_false, htr, hend, hz, hc, hL]

theorem all_mset_congr {α : Type} (P : Nat × α → Bool) (m : List (Nat × α)) (k : Nat) (v w : α) (h : P (k, v) = P (k, w)) :
    (mset m k v).all P = (mset m k w).all P := by
  induction m with
  | nil => simp [mset, h]
  | cons a m ih =>
    obtain ⟨k', v'⟩ := a
    unfold mset
    split
    · simp [h]
    · simp [ih]

theorem gangOver_congr (x : Exe) (g g' : Group) (ts : List Nat) (h1 : g.team = g'.team) (h2 : g.exited = g'.exited) (h3 : g.width = g'.width) :
    (x.put g).gangOver ts = (x.put g').gangOver ts := by
  unfold State.gangOver
  congr 1
  exact all_mset_congr _ _ _ _ _ (by simp only [Group.allExited, h1, h2, h3])

end

end Sys2Proof.Machine
end

