-- ==== Sys2Proof/Tests/Order.lean ====
section
/-! SUPPORT. The litmus tests of spec/03_consistency_model.md, each an execution whose reads return the outcome's values. -/

namespace Sys2Proof.Machine.Order

set_option Elab.async false

/-- A place in one enclave and package, by die, hall, gang and team. -/
def testPlace (die hall gang team : Nat) : Place := ⟨1, 0, 0, die, hall, gang, team⟩

def testEv (p : Party) (a : Place) (act : Act) (scope : Scope) (locs : List Nat) : Ev :=
  { party := p, place := a, act := act, scope := scope, locs := locs }

/-- The events of a lane of team 0, of a lane of team 1 in its gang, and of a lane on another hall of the die. -/
def testP0 : Act → Scope → List Nat → Ev := testEv (.lane 0 0 0) (testPlace 0 0 0 0)
def testP1 : Act → Scope → List Nat → Ev := testEv (.lane 0 1 0) (testPlace 0 0 0 1)
def testH1 : Act → Scope → List Nat → Ev := testEv (.lane 1 2 0) (testPlace 0 1 1 2)

/-- Message passing: x is location 0, f is location 1; `a` and `b` say which write the loads of f and x read. -/
def testMp (rel : Scope) (a b : Bool) : Exec :=
  { evs := [testP0 (.store .plain) .lane [0], testP0 (.store .rel) rel [1], testP1 (.load .acq) .gang [1], testP1 (.load .plain) .lane [0]]
    rf := (if a then [(2, 1, 1)] else []) ++ (if b then [(3, 0, 0)] else [])
    co := [(0, [0]), (1, [1])] }

theorem test_mp_both : (testMp .gang true true).allowed = true := by decide +kernel
theorem test_mp_none : (testMp .gang false false).allowed = true := by decide +kernel
theorem test_mp_late : (testMp .gang false true).allowed = true := by decide +kernel
theorem test_mp_forbidden : (testMp .gang true false).allowed = false := by decide +kernel
theorem test_mp_mismatched : (testMp .team true false).allowed = true := by decide +kernel
theorem test_mp_race_free : (testMp .gang true true).raceFree = true := by decide +kernel
theorem test_mp_mismatched_races : (testMp .team true false).raceFree = false := by decide +kernel

/-- Store buffering, with a fence between each store and load; both loads read 0. -/
def testSb (o : Ord) (s : Scope) : Exec :=
  { evs := [testP0 (.store .plain) .lane [0], testP0 (.fence o) s [], testP0 (.load .plain) .lane [1],
      testH1 (.store .plain) .lane [1], testH1 (.fence o) s [], testH1 (.load .plain) .lane [0]]
    rf := []
    co := [(0, [0]), (1, [3])] }

theorem test_sb_sc : (testSb .sc .die).allowed = false := by decide +kernel
theorem test_sb_ar : (testSb .ar .die).allowed = true := by decide +kernel
theorem test_sb_sc_hall : (testSb .sc .hall).allowed = true := by decide +kernel

/-- Store buffering with a release store and an acquire load. -/
def testSbOrd : Exec :=
  { evs := [testP0 (.store .rel) .die [0], testP0 (.load .acq) .die [1], testH1 (.store .rel) .die [1], testH1 (.load .acq) .die [0]]
    rf := []
    co := [(0, [0]), (1, [2])] }

theorem test_sb_rel_acq : testSbOrd.allowed = true := by decide +kernel

/-- Independent reads of independent writes, on four dies: each reader sees one write and misses the other. -/
def testIriw (o : Ord) (s : Scope) : Exec :=
  let p (d : Nat) := testEv (.lane d d 0) (testPlace d (4 * d) d d)
  { evs := [p 0 (.store .plain) .lane [0], p 1 (.store .plain) .lane [1], p 2 (.load o) s [0], p 2 (.load .plain) .lane [1],
      p 3 (.load o) s [1], p 3 (.load .plain) .lane [0]]
    rf := [(2, 0, 0), (4, 1, 1)]
    co := [(0, [0]), (1, [1])] }

theorem test_iriw_package : (testIriw .acq .package).allowed = false := by decide +kernel
theorem test_iriw_die : (testIriw .acq .die).allowed = true := by decide +kernel
theorem test_iriw_plain : (testIriw .plain .lane).allowed = true := by decide +kernel

/-- A copy from g (location 0) to the scratchpad (1), observed through its future and published by a flag (2). `src`: the copy
reads the store to g; `c`, `d`: P1's loads read the flag's write and the copy's write. -/
def testCopy (src c d : Bool) : Exec :=
  let q := testEv (.lane 0 0 1) (testPlace 0 0 0 0)
  let e := testEv (.engine 5) (testPlace 0 0 0 0)
  { evs := [testP0 (.store .plain) .lane [0], testP0 (.issue 5 .team) .team [], e (.load .plain) .lane [0], e (.store .plain) .lane [1],
      testP0 (.observe 5) .team [], testP0 (.store .rel) .team [2], q (.load .acq) .team [2],
      { q (.load .plain) .lane [1] with own := true }]
    rf := (if src then [(2, 0, 0)] else []) ++ (if c then [(6, 2, 5)] else []) ++ (if d then [(7, 1, 3)] else [])
    co := [(0, [0]), (1, [3]), (2, [5])] }

theorem test_copy_seen : (testCopy true true true).allowed = true := by decide +kernel
theorem test_copy_early : (testCopy true false true).allowed = true := by decide +kernel
theorem test_copy_unseen : (testCopy true false false).allowed = true := by decide +kernel
theorem test_copy_forbidden : (testCopy true true false).allowed = false := by decide +kernel
theorem test_copy_old_source : (testCopy false true true).allowed = false := by decide +kernel

/-- An ejected lane's store to f and a majority lane's load after the landing. -/
def testLanding (seen : Bool) : Exec :=
  let p (l : Nat) := testEv (.lane 0 0 l) (testPlace 0 0 0 0)
  let k : Meet := .landing 9
  { evs := [p 5 (.store .plain) .lane [0], p 5 (.arrive k) .group [], p 5 (.depart k) .group [], p 0 (.arrive k) .group [],
      p 0 (.depart k) .group [], p 0 (.load .plain) .lane [0]]
    rf := if seen then [(5, 0, 0)] else []
    co := [(0, [0])] }

theorem test_landing_seen : (testLanding true).allowed = true := by decide +kernel
theorem test_landing_unseen : (testLanding false).allowed = false := by decide +kernel

/-- An MX block (elements at 0, scale at 1) written by one copy and read by another: `el`, `sc` say whether the reader sees the new
elements and the new scale. -/
def testMx (unit : Option Block) (el sc : Bool) : Exec :=
  let a := testPlace 0 0 0 0
  let e (op : Nat) (act : Act) (l : Nat) (b : Option Block) : Ev := { testEv (.engine op) a act .lane [l] with block := b }
  { evs := [testP0 (.issue 1 .team) .team [], testP0 (.issue 2 .team) .team [], e 1 (.store .plain) 0 unit, e 1 (.store .plain) 1 unit,
      e 2 (.load .plain) 0 (some (.mx 2)), e 2 (.load .plain) 1 (some (.mx 2))]
    rf := (if el then [(4, 0, 2)] else []) ++ (if sc then [(5, 1, 3)] else [])
    co := [(0, [2]), (1, [3])] }

theorem test_mx_old : (testMx (some (.mx 1)) false false).allowed = true := by decide +kernel
theorem test_mx_new : (testMx (some (.mx 1)) true true).allowed = true := by decide +kernel
theorem test_mx_torn : (testMx (some (.mx 1)) true false).allowed = false := by decide +kernel
theorem test_mx_torn_scale : (testMx (some (.mx 1)) false true).allowed = false := by decide +kernel
theorem test_mx_pieces : (testMx none true false).allowed = true := by decide +kernel

/-- A fetch-and-add and another write of its word: the write lands between its read and its write (R100). -/
def testLost (act : Act) (s : Scope) : Exec :=
  { evs := [testP0 (.rmw .rlx) .gang [0], testP1 act s [0]]
    rf := []
    co := [(0, [1, 0])] }

theorem test_update_lost : (testLost (.store .plain) .lane).allowed = true := by decide +kernel
theorem test_update_kept : (testLost (.store .rlx) .gang).allowed = false := by decide +kernel

/-- Two general cores, each loading one word and storing the other: both loads read the stores; `dep`: each store's data depends on the
core's load (R119). -/
def testCpu (dep : Bool) : Exec :=
  let p (i : Nat) (o : RiscvOp) (l : Nat) (d : List Nat) : Ev :=
    { testEv (.cpu i) (testPlace 0 0 0 0) o.act .package [l] with rv := some o, dataDep := d }
  { evs := [p 0 .load 0 [], p 0 .store 8 (if dep then [0] else []), p 1 .load 8 [], p 1 .store 0 (if dep then [2] else [])]
    rf := [(0, 0, 3), (2, 8, 1)]
    co := [(0, [3]), (8, [1])] }

theorem test_cpu_load_buffering : (testCpu false).allowed = true := by decide +kernel
theorem test_cpu_dependent : (testCpu true).allowed = false := by decide +kernel

end Sys2Proof.Machine.Order
end

