-- ==== Sys2Proof/Tests/Slice0.lean ====
section
/-! SUPPORT. Tests of the model: ill-formed terms that the check refuses, words written from the encoding tables of the spec,
single steps whose results are worked out from the spec's words, and for each obligation a state and operands that meet its
hypotheses. -/

namespace Sys2Proof.Tests

set_option Elab.async false

open Sys2Proof Sys2Proof.Machine

/-! Well-formed and ill-formed terms, one for each check. -/

/-- The modifiers of a plain form with n results. -/
def c (n : BitVec 2) : Ctl := ⟨false, n, 0, 0⟩
/-- A value, an immediate, a branch target and a table index as operands. -/
def v (n : BitVec 28) : Opnd := .val false false n
def m (n : Int) : Opnd := .imm (BitVec.ofInt 30 n)
def t (n : Int) : Opnd := .target (BitVec.ofInt 28 n)
def b (n : BitVec 28) : Opnd := .table n

theorem test_wf_iadd : (Instr.iadd (c 1) .wrap .i32 [v 1, v 2]).check = none := by decide +kernel
theorem test_ill_no_form : (Instr.iadd (c 1) .wrap .f32 [v 1, v 2]).check = some .noForm := by decide +kernel
theorem test_ill_guard : (Instr.brc ⟨true, 0, 0, 0⟩ [v 1, t 4]).check = some .guard := by decide +kernel
theorem test_ill_ndef : (Instr.iadd (c 2) .wrap .i32 [v 1, v 2]).check = some .ndef := by decide +kernel
theorem test_ill_operands : (Instr.iadd (c 1) .wrap .i32 [v 1]).check = some .operands := by decide +kernel
theorem test_ill_target : (Instr.iadd (c 1) .wrap .i32 [v 1, t 4]).check = some .operands := by decide +kernel
theorem test_ill_special : (Instr.iadd (c 1) .wrap .i32 [v 1, .special 9 0]).check = some .special := by decide +kernel
theorem test_ill_too_many : (Instr.phi (c 1) .i32 (List.replicate 8 (v 1))).check = some .tooMany := by decide +kernel
theorem test_ill_stub : (Instr.reservedMajorStub 0x77 0 (c 0) 0 0 []).check = some .stub := by decide +kernel
theorem test_ill_stub_words : (Instr.reservedMajorStub 0x78 0 (c 0) 0 0 [0xD4000000]).check = some .stub := by decide +kernel

/-! Words from the encoding tables. -/

/-- The words decode to the instruction, whatever follows, and it has these words. -/
def decodes (q : List Nat × Instr) : Bool :=
  let ws : List Word := q.1.map (BitVec.ofNat 32)
  decode (ws ++ [0xFFFFFFFF]) == (.ok q.2, [0xFFFFFFFF]) && encode q.2 == some ws && q.2.wf

/-- Words of the integer forms. -/
def integerWords1 : List (List Nat × Instr) :=
  [([0x0], .nop (c 0) []),
    ([0x2324000, 0x40000005], .const (c 1) .i32 [m 5]),
    ([0x4944000, 0x4, 0x5], .iadd (c 1) .ss .i8 [v 4, v 5]),
    ([0x5C68000, 0x4, 0x5, 0x6], .iadd (c 2) .cy .i64 [v 4, v 5, v 6]),
    ([0x7544000, 0x4, 0x5], .isub (c 1) .us .p8x4 [v 4, v 5]),
    ([0x8B44000, 0x4, 0x5], .imul (c 1) .hs .i32 [v 4, v 5]),
    ([0xA364000, 0x4, 0x5, 0x6], .imad (c 1) .wrap .i32 [v 4, v 5, v 6]),
    ([0xC348000, 0x4, 0x5], .idiv (c 2) true .i32 [v 4, v 5]),
    ([0xCC44000, 0x4, 0x5], .idiv (c 1) false .i64 [v 4, v 5]),
    ([0xFB44000, 0x4, 0x5], .iminmax (c 1) .umax .i32 [v 4, v 5]),
    ([0x10584000, 0x4, 0x5, 0x6, 0x400000F8], .logic (c 1) .tbl3 [v 4, v 5, v 6, m 248]),
    ([0x12244000, 0x4, 0x40000003], .shift (c 1) .sar [v 4, m 3])]

theorem test_decode_integer_1 : integerWords1.all decodes = true := by decide +kernel

/-- Words of the integer forms. -/
def integerWords2 : List (List Nat × Instr) :=
  [([0x14024000, 0x4], .bits (c 1) .popc [v 4]),
    ([0x14684000, 0x4, 0x5, 0x6, 0x7], .bits (c 1) .ins [v 4, v 5, v 6, v 7]),
    ([0x16244000, 0x4, 0x7FFFFFFF], .clmul (c 1) false true [v 4, m (-1)]),
    ([0x18445800, 0x4, 0x5], .icmp (c 1) .ult .i64 [v 4, v 5]),
    ([0x1A044000, 0x4, 0x5], .plogic (c 1) .and [v 4, v 5]),
    ([0x1C764000, 0x6, 0x4, 0x5], .sel (c 1) .f32 [v 6, v 4, v 5]),
    ([0x1E084000, 0x4, 0x5, 0x40000004, 0x40000000], .addr (c 1) .sx [v 4, v 5, m 4, m 0]),
    ([0x20724000, 0x4], .cvti (c 1) (.sx .i64) [v 4])]

theorem test_decode_integer_2 : integerWords2.all decodes = true := by decide +kernel

/-- Words of the control forms. -/
def controlWords1 : List (List Nat × Instr) :=
  [([0x22344000, 0x4, 0x5], .phi (c 1) .i32 [v 4, v 5]),
    ([0x24020000, 0xCFFFFFFA], .br (c 0) [t (-6)]),
    ([0x26040000, 0x3, 0xC0000009], .brc (c 0) [v 3, t 9]),
    ([0x283A0000, 0x4, 0xC0000005, 0xC0000006, 0xC0000007, 0xC0000008], .brm (c 0) .mask [v 4, t 5, t 6, t 7, t 8]),
    ([0x2A020000, 0xE0000000], .join (c 0) [b 0]),
    ([0x2C344000, 0xE0000001, 0x4], .call (c 1) .i32 [b 1, v 4]),
    ([0x2E344000, 0x4, 0x5], .calli (c 1) .i32 [v 4, v 5]),
    ([0x30020000, 0x4], .ret (c 0) [v 4]),
    ([0x32000000], .exit (c 0) []),
    ([0x34040000, 0x4, 0x5], .setmCtl (c 0) [v 4, v 5]),
    ([0x34140000, 0x4, 0x5], .setmFlags (c 0) [v 4, v 5]),
    ([0x34240000, 0x4, 0x5], .setmEn (c 0) [v 4, v 5])]

theorem test_decode_control_1 : controlWords1.all decodes = true := by decide +kernel

/-- Words of the control forms. -/
def controlWords2 : List (List Nat × Instr) :=
  [([0x34320000, 0x4], .setmStep (c 0) [v 4]),
    ([0x34420000, 0x4], .setmStepadd (c 0) [v 4]),
    ([0x34520000, 0x4], .setmGuard (c 0) [v 4]),
    ([0x36004000], .getmCtl (c 1) []),
    ([0x36104000], .getmStep (c 1) []),
    ([0x36204000], .getmGuard (c 1) []),
    ([0x36304000], .getmGmask (c 1) []),
    ([0x38004000], .rdcycI64 (c 1) []),
    ([0x38104000], .rdcycI32 (c 1) []),
    ([0x3A000000], .unreach (c 0) [])]

theorem test_decode_control_2 : controlWords2.all decodes = true := by decide +kernel

/-- Words of the floating forms. -/
def floatingWords1 : List (List Nat × Instr) :=
  [([0x40F44000, 0x4, 0x5], .fadd (c 1) true .f32 [v 4, v 5]),
    ([0x42644000, 0x4, 0x5], .fmul (c 1) .bf16 [v 4, v 5]),
    ([0x44764000, 0x4, 0x5, 0x6], .ffma (c 1) false .f32 [v 4, v 5, v 6]),
    ([0x46E44000, 0x4, 0x5], .fminmax (c 1) .maxnum .f32 [v 4, v 5]),
    ([0x48724000, 0x4], .fsign (c 1) .neg .f64 [v 4]),
    ([0x4A744800, 0x4, 0x5], .fcmp (c 1) .lt .f32 [v 4, v 5]),
    ([0x4C524000, 0x4], .fclass (c 1) .f16 [v 4]),
    ([0x4E844000, 0x4, 0x5], .fdiv (c 1) .f64 [v 4, v 5]),
    ([0x50724000, 0x4], .fsqrt (c 1) .f32 [v 4]),
    ([0x52E24000, 0x4], .sfu (c 1) .ex2 .f32 [v 4]),
    ([0x54624000, 0x4], .cvtf (c 1) (.toNarrow .e4m3) [v 4]),
    ([0x54F24000, 0x4], .cvtf (c 1) .s32 [v 4])]

theorem test_decode_floating_1 : floatingWords1.all decodes = true := by decide +kernel

/-- Words of the floating forms. -/
def floatingWords2 : List (List Nat × Instr) :=
  [([0x56284000, 0x4, 0x5, 0x6, 0x7], .pack (c 1) .e4m3x4 [v 4, v 5, v 6, v 7]),
    ([0x58564000, 0x4, 0x5, 0x6], .dot (c 1) .bf16x2 [v 4, v 5, v 6]),
    ([0x66A24000, 0x4], .frnd (c 1) .rtz .f32 [v 4]),
    ([0x68244000, 0x4, 0x5], .fscale (c 1) false .f32 [v 4, v 5]),
    ([0x6A124000, 0x4], .rndbits (c 1) true [v 4])]

theorem test_decode_floating_2 : floatingWords2.all decodes = true := by decide +kernel

/-- Words of the lanes forms. -/
def lanesWords1 : List (List Nat × Instr) :=
  [([0x5A268000, 0x4, 0x40000001, 0x40000004], .shfl (c 2) .down [v 4, m 1, m 4]),
    ([0x5C224000, 0x4], .vote (c 1) .mask [v 4]),
    ([0x5C524000, 0x4], .vote (c 1) .count [v 4]),
    ([0x5C424000, 0x4], .voteLevel (c 1) [v 4]),
    ([0x5E824000, 0x4], .scan (c 1) .add true [v 4]),
    ([0x60024000, 0x4], .reduce (c 1) .add [v 4]),
    ([0x62024000, 0x4], .matchLanes (c 1) .peers [v 4]),
    ([0x64004000], .lanemaskOwn (c 1) []),
    ([0x64104000], .lanemaskBefore (c 1) []),
    ([0x64204000], .lanemaskAfter (c 1) []),
    ([0x64324000, 0x40000010], .lanemaskSeg (c 1) [m 16]),
    ([0x64404000], .lanemaskWidth (c 1) [])]

theorem test_decode_lanes_1 : lanesWords1.all decodes = true := by decide +kernel

/-- Words of the lanes forms. -/
def lanesWords2 : List (List Nat × Instr) :=
  [([0x64504000], .lanemaskAct (c 1) [])]

theorem test_decode_lanes_2 : lanesWords2.all decodes = true := by decide +kernel

/-- Words of the memory forms. -/
def memoryWords1 : List (List Nat × Instr) :=
  [([0x80324000, 0x4], .ld (c 1) (.plain .i32) [v 4]),
    ([0x80754100, 0x4, 0x5], .ld ⟨true, 1, 1, 0⟩ (.plain .f32) [v 4, v 5]),
    ([0x81B24C00, 0x4], .ld (c 1) (.sync .i32 .gang) [v 4]),
    ([0x80C28000, 0x4], .ld (c 2) .v2 [v 4]),
    ([0x82340000, 0x4, 0x5], .st (c 0) (.plain .i32) [v 4, v 5]),
    ([0x83B40C00, 0x4, 0x5], .st (c 0) (.sync .i32 .gang) [v 4, v 5]),
    ([0x82D60000, 0x4, 0x5, 0x40000001], .st (c 0) .n4 [v 4, v 5, m 1]),
    ([0x85B24800, 0x4], .lds (c 1) (.sync .i32 .team) [v 4]),
    ([0x87B40800, 0x4, 0x5], .sts (c 0) (.sync .i32 .team) [v 4, v 5]),
    ([0x89864C00, 0x40000000, 0x4, 0x5], .atom (c 1) .ar .i32 .gang [m 0, v 4, v 5]),
    ([0x88184C00, 0x40000009, 0x4, 0x5, 0x6], .atom (c 1) .rlx .i64 .gang [m 9, v 4, v 5, v 6]),
    ([0x8A064800, 0x40000000, 0x4, 0x40000001], .atoms (c 1) .rlx .i32 .team [m 0, v 4, m 1])]

theorem test_decode_memory_1 : memoryWords1.all decodes = true := by decide +kernel

/-- Words of the memory forms. -/
def memoryWords2 : List (List Nat × Instr) :=
  [([0x8C100800], .fenceAcq (c 0) .team []),
    ([0x8C200C00], .fenceRel (c 0) .gang []),
    ([0x8C301000], .fenceAr (c 0) .hall []),
    ([0x8C401400], .fenceSc (c 0) .die []),
    ([0x9C040000, 0x4, 0x5], .pref (c 0) [v 4, v 5]),
    ([0x9E040000, 0x4, 0x5], .cacheDemote (c 0) [v 4, v 5]),
    ([0x9E140000, 0x4, 0x5], .cacheEvict (c 0) [v 4, v 5]),
    ([0x9E220000, 0x4], .cacheZero (c 0) [v 4])]

theorem test_decode_memory_2 : memoryWords2.all decodes = true := by decide +kernel

/-- Words of the synchronisation forms. -/
def synchronisationWords1 : List (List Nat × Instr) :=
  [([0x8E020800, 0x40000003], .barSync (c 0) [m 3]),
    ([0x8E124800, 0x40000003], .barArrive (c 1) [m 3]),
    ([0x8E240800, 0x40000003, 0x4], .barWait (c 0) [m 3, v 4]),
    ([0x8E340800, 0x40000003, 0x4], .barExpect (c 0) [m 3, v 4]),
    ([0x8E440800, 0x40000003, 0x4], .barInit (c 0) [m 3, v 4]),
    ([0x8E524800, 0x40000003], .barState (c 1) [m 3]),
    ([0x90020800, 0x4], .barm (c 0) [v 4]),
    ([0x92021400, 0x40000001], .flight (c 0) [m 1]),
    ([0x94064800, 0x4, 0x5, 0x6], .copy (c 1) .g2s false .team [v 4, v 5, v 6]),
    ([0x94C64800, 0x4, 0x5, 0x40000003], .copy (c 1) .tsrc true .team [v 4, v 5, m 3]),
    ([0xA00A4800, 0x4, 0x5, 0x6, 0x7, 0x40000010], .gather (c 1) false .team [v 4, v 5, v 6, v 7, m 16]),
    ([0xA09C5400, 0x4, 0x5, 0x6, 0x7, 0x40000010, 0x40000002], .scatter (c 1) true .die [v 4, v 5, v 6, v 7, m 16, m 2])]

theorem test_decode_synchronisation_1 : synchronisationWords1.all decodes = true := by decide +kernel

/-- Words of the synchronisation forms. -/
def synchronisationWords2 : List (List Nat × Instr) :=
  [([0x98024000, 0x4], .futTest (c 1) [v 4]),
    ([0x98120000, 0x4], .futWait (c 0) [v 4]),
    ([0x98224000, 0x4], .futStatus (c 1) [v 4]),
    ([0x98320000, 0x4], .futCancel (c 0) [v 4]),
    ([0x98444000, 0x4, 0x5], .futAll (c 1) [v 4, v 5]),
    ([0x9A040000, 0x4, 0xC0000004], .yield (c 0) [v 4, t 4]),
    ([0xA2049C00, 0x4, 0x5], .collGroup (c 2) .fabric [v 4, v 5]),
    ([0xA21A5C00, 0x40000021, 0x4, 0x5, 0x6, 0x7], .collRed (c 1) .fabric [m 33, v 4, v 5, v 6, v 7]),
    ([0xA22A5C00, 0x4, 0x40000000, 0x5, 0x6, 0x7], .collBcast (c 1) .fabric [v 4, m 0, v 5, v 6, v 7]),
    ([0xA2325C00, 0x4], .collBar (c 1) .fabric [v 4])]

theorem test_decode_synchronisation_2 : synchronisationWords2.all decodes = true := by decide +kernel

/-- Words of the matrix forms. -/
def matrixWords1 : List (List Nat × Instr) :=
  [([0x96024000, 0x4], .tmap (c 1) false [v 4]),
    ([0x96124000, 0x4], .tmap (c 1) true [v 4]),
    ([0xC0024000, 0xE0000000], .fmtb (c 1) [b 0]),
    ([0xC0164000, 0xE0000000, 0x4, 0x5], .fmtbSc (c 1) [b 0, v 4, v 5]),
    ([0xC0224000, 0x4], .fmtbSp (c 1) [v 4]),
    ([0xC2060000, 0x4, 0x5, 0x6], .cohort (c 0) [v 4, v 5, v 6]),
    ([0xC2100000], .cohortClear (c 0) []),
    ([0xC4088800, 0x4, 0x5, 0x6, 0x7], .mma (c 2) .team [v 4, v 5, v 6, v 7]),
    ([0xC41A8800, 0x4, 0x5, 0x6, 0x7, 0x8], .mmaSp (c 2) .team [v 4, v 5, v 6, v 7, v 8]),
    ([0xC42C8800, 0x4, 0x5, 0x6, 0x7, 0x8, 0x9], .mmaUf (c 2) .team [v 4, v 5, v 6, v 7, v 8, v 9]),
    ([0xC4488800, 0x4, 0x5, 0x6, 0x7], .mmaSpec (c 2) .team [v 4, v 5, v 6, v 7]),
    ([0xC45A8800, 0x4, 0x5, 0x6, 0x7, 0x8], .mmaSpecSp (c 2) .team [v 4, v 5, v 6, v 7, v 8])]

theorem test_decode_matrix_1 : matrixWords1.all decodes = true := by decide +kernel

/-- Words of the matrix forms. -/
def matrixWords2 : List (List Nat × Instr) :=
  [([0xC46C8800, 0x4, 0x5, 0x6, 0x7, 0x8, 0x9], .mmaSpecUf (c 2) .team [v 4, v 5, v 6, v 7, v 8, v 9]),
    ([0xC6004000], .accZeroF32 (c 1) []),
    ([0xC6104000], .accZeroI32 (c 1) []),
    ([0xC6268800, 0x4, 0x5, 0x6], .accLoad (c 2) false .team [v 4, v 5, v 6]),
    ([0xC6368800, 0x4, 0x5, 0x6], .accLoad (c 2) true .team [v 4, v 5, v 6]),
    ([0xC64A4800, 0x4, 0x5, 0x6, 0x7, 0x8], .accStore (c 1) .team [v 4, v 5, v 6, v 7, v 8]),
    ([0xC8024000, 0x4], .specCommit (c 1) [v 4]),
    ([0xC8124000, 0x4], .specDiscard (c 1) [v 4]),
    ([0xCA064000, 0x4, 0x5, 0x6], .unfold (c 1) [v 4, v 5, v 6]),
    ([0xCC084800, 0x4, 0x5, 0x6, 0x7], .spbm (c 1) .team [v 4, v 5, v 6, v 7])]

theorem test_decode_matrix_2 : matrixWords2.all decodes = true := by decide +kernel

/-- Words of the system forms. -/
def systemWords1 : List (List Nat × Instr) :=
  [([0xE0020000, 0x40000010], .trap (c 0) [m 16]),
    ([0xE0100000], .tret (c 0) []),
    ([0xE0224000, 0x4], .tmask (c 1) [v 4]),
    ([0xE0320000, 0x4], .tretSkip (c 0) [v 4]),
    ([0xE2044000, 0x4, 0x5], .launch (c 1) [v 4, v 5]),
    ([0xE4040000, 0x4, 0x5], .xctlInv (c 0) [v 4, v 5]),
    ([0xE4240000, 0x4, 0x5], .xctlPfCore (c 0) [v 4, v 5]),
    ([0xE4340000, 0x4, 0x5], .xctlPfHall (c 0) [v 4, v 5]),
    ([0xE4444000, 0x4, 0x5], .xctlPinCore (c 1) [v 4, v 5]),
    ([0xE4544000, 0x4, 0x5], .xctlPinHall (c 1) [v 4, v 5]),
    ([0xE4640000, 0x4, 0x5], .xctlUnpinCore (c 0) [v 4, v 5]),
    ([0xE4740000, 0x4, 0x5], .xctlUnpinHall (c 0) [v 4, v 5])]

theorem test_decode_system_1 : systemWords1.all decodes = true := by decide +kernel

/-- Words of the system forms. -/
def systemWords2 : List (List Nat × Instr) :=
  [([0xE6044000, 0x4, 0x5], .sealOpen (c 1) [v 4, v 5]),
    ([0xE6164800, 0x4, 0x5, 0x6], .sealAbsorb (c 1) .team [v 4, v 5, v 6]),
    ([0xE6220000, 0x4], .sealClose (c 0) [v 4]),
    ([0xE6320000, 0x4], .sealAbort (c 0) [v 4]),
    ([0xE8024000, 0x4], .cntCtr (c 1) [v 4]),
    ([0xE8144000, 0x4, 0x5], .cntMon (c 1) [v 4, v 5]),
    ([0xEA045400, 0x4, 0x5], .cutMarkDy (c 1) [v 4, v 5]),
    ([0xEA145C00, 0x4, 0x5], .cutMarkFb (c 1) [v 4, v 5]),
    ([0xEA224000, 0x4], .cutStatus (c 1) [v 4]),
    ([0xEC004000], .rdctxTrap (c 1) []),
    ([0xEC104000], .rdctxLanes (c 1) []),
    ([0xEC224000, 0x40000000], .rdctxOpnd (c 1) [m 0])]

theorem test_decode_system_2 : systemWords2.all decodes = true := by decide +kernel

/-- Words of the system forms. -/
def systemWords3 : List (List Nat × Instr) :=
  [([0xEC304000], .rdctxLaunch (c 1) []),
    ([0xEC404000], .rdctxEnclave (c 1) []),
    ([0xEC504000], .rdctxPlace (c 1) [])]

theorem test_decode_system_3 : systemWords3.all decodes = true := by decide +kernel

/-- The words of the custom-0 instructions with a0, a1 and a2. -/
def customWords : List (Nat × Instr) :=
  [(0xC5850B, .encCreate 10 11 12),
    (0x2C5850B, .encAddpage 10 11 12),
    (0x405850B, .encMeasure 10 11),
    (0x605850B, .encEnter 10 11),
    (0x805850B, .encExit 10 11),
    (0xAC5850B, .encReport 10 11 12),
    (0xCC5850B, .encReportRk 10 11 12),
    (0xE05850B, .encDestroy 10 11),
    (0x10C5850B, .encXctlInv 10 11 12),
    (0x10C5A50B, .encXctlPfCore 10 11 12),
    (0x10C5B50B, .encXctlPfHall 10 11 12),
    (0x10C5C50B, .encXctlPinCore 10 11 12),
    (0x10C5D50B, .encXctlPinHall 10 11 12),
    (0x10C5E50B, .encXctlUnpinCore 10 11 12),
    (0x10C5F50B, .encXctlUnpinHall 10 11 12),
    (0x20C5850B, .pageOut 10 11 12),
    (0x22C5850B, .pageInClean 10 11 12),
    (0x24C5850B, .pageInImage 10 11 12),
    (0x2605850B, .pageInShare 10 11),
    (0x2805850B, .pageFree 10 11),
    (0x3005850B, .faultResolve 10 11),
    (0x32C5850B, .faultKill 10 11 12)]

theorem test_decode_custom : (customWords.all fun q => decodeCustom (BitVec.ofNat 32 q.1) == some q.2 &&
  encode q.2 == some [BitVec.ofNat 32 q.1]) = true := by decide +kernel


/-- Fates (R265): a stub, an unassigned major, an unassigned SUB, RSVZ, an operand that EXIT does not take, words that run out. -/
theorem test_decode_stub : decode [0xF0004000] = (.ok (.reservedMajorStub 0x78 0 (c 1) 0 0 []), []) := by decide +kernel
theorem test_decode_undefined_major : decode [0x3C000000] = (.undefinedMajor, []) := by decide +kernel
theorem test_decode_bad_sub : decode [0x33F00000] = (.illegal (Head.ofWord 0x33F00000), []) := by decide +kernel
theorem test_decode_rsvz : decode [0x32000001] = (.illegal (Head.ofWord 0x32000001), []) := by decide +kernel
theorem test_decode_extra : decode [0x32020000, 0x40000000] = (.malformed, []) := by decide +kernel
theorem test_decode_short : decode [0x04944000, 4] = (.malformed, []) := by decide +kernel
theorem test_decode_custom_rs2 : decodeCustom 0x04C5850B = none := by decide +kernel
theorem test_table_word : decodeTableWord 96 0x00000005_00000004_04944000 = some (.iadd (c 1) .ss .i8 [v 4, v 5]) := by
  decide +kernel
theorem test_table_custom : decodeTableWord 32 0x00C5850B = some (.encCreate 10 11 12) := by decide +kernel

end Sys2Proof.Tests

namespace Sys2Proof.Machine

/-! Changes to a state, for the tests. -/

/-- The state with its path's group changed. -/
def State.withGroup (s : State) (f : Group → Group) : State := s.setGroup 0 (f (s.group 0))
/-- The state with its path changed. -/
def State.withPath (s : State) (f : Path → Path) : State :=
  State.withGroup s fun g => { g with ctx := { g.ctx with paths := mupd g.ctx.paths 0 f } }

/-- The state with these words as the path's function, and its landings. -/
def State.withProg (s : State) (ws : List Nat) (lands : List (Nat × Nat × Nat)) : State :=
  { s with trans := mset s.trans 0 { s.translation 0 with words := ws.map (BitVec.ofNat 32), lands := lands } }
/-- The state with a field of the launch's descriptor changed. -/
def State.withDesc (s : State) (off n v : Nat) : State :=
  let l := s.launch 0
  s.setLaunch 0 { l with desc := l.desc.take off ++ leBytes n v ++ l.desc.drop (off + n) }
/-- The state with a code object of a kernel, a device function at 0x1000 and a trap entry at 0x2000; the two have translations
when `made`. -/
def State.withCode (s : State) (made : Bool) : State :=
  let fn := fun (entry kind : Nat) => (⟨BitVec.ofNat 64 entry, 88, 8, 0, 0, kind, 16⟩ : FnEntry)
  let tr := fun (k entry : Nat) => (⟨1, 0, k, BitVec.ofNat 48 entry, 16, 32, 0, [0x32000000], [], [], none, true, []⟩ : Machine.Trans)
  let s := { s with objs := [(0, ⟨true, 1, 0, [fn 0 1, fn 4096 0, fn 8192 2], [], [], [], some 2⟩)] }
  if made then { s with trans := s.trans ++ [(1, tr 1 4096), (2, tr 2 8192)] } else s

/-- The state with page tables of enclave 1 in the frames 16 and 17 of partition 0: the first GiB is mapped to itself, with all
rights, and the second one to window 1. The pages 32 and, for saved frames, 48 to 55 are frames of the enclave. -/
def State.withPages (s : State) : State :=
  { s with
    encls := mset s.encls 1 { s.encl 1 with root := 16 }
    pot := [(16, ⟨0, 0, 0, .owned, 0, 0, false, false⟩), (17, ⟨0, 0, 0, .owned, 0, 0, false, false⟩), (32, ⟨1, 32, 1, .owned, 0, 0, false, false⟩)] ++
      (List.range 8).map fun k => (48 + k, ⟨1, BitVec.ofNat 36 (48 + k), 1, .owned, 0, 0, false, false⟩)
    mem := writeBytes (writeBytes s.mem 0x10000 (leBytes 8 0x11001)) 0x11000 (leBytes 8 0xF ++ leBytes 8 0x100000000000F) }

end Sys2Proof.Machine

namespace Sys2Proof.Tests

set_option Elab.async false

open Sys2Proof Sys2Proof.Machine

/-! States for the witnesses and the single steps. -/

/-- A state in which the path at address 0 of a placed launch has these lanes, each with values of these types from id 0 on. -/
def stand (types : List Ty) (lanes : List (List Nat)) : State :=
  let s := { State.reset.withFetchWord 32 0 with cur := some (0, 0) }
  let g := s.group 0
  let mask : LaneMask := BitVec.ofNat 64 (2 ^ lanes.length - 1)
  let vals := fun (ns : List Nat) => numbered ns.length fun k => (Val.bits (BitVec.ofNat 64 (ns.getD k 0)))
  let tr := { s.translation 0 with types := types.map some }
  { s with trans := mset s.trans 0 tr }.setGroup 0 { g with
    lanes := numbered lanes.length fun l => ⟨[⟨0, 0, 0, vals (lanes.getD l []), []⟩], none⟩
    exited := BitVec.ofNat 64 0xFFFF &&& ~~~mask
    ctx := { g.ctx with paths := [(0, Path.start 0 mask modeReset [] none .core)] } }

/-- The path of the state enables no flag and meets a condition. -/
def meets (s : State) (p : Exe → Bool) : Bool := s.exe?.any fun x => modeEn x.p.mode == 0 && p x

/-- The step of an instruction in a state goes on to a state that meets a condition. -/
def goes (i : Instr) (s : State) (p : State → Bool) : Bool :=
  match exec i s with
  | .next t => p t
  | .fault _ | .refused _ => false

/-- The value of an id in a lane of the path's group. -/
def valIn (t : State) (l id : Nat) : Option Val := ((t.group 0).lane l).val id

/-- The first n operands that the active lanes read fit a type. -/
def fit (x : Exe) (i : Instr) (n : Nat) (t : Ty) : Bool :=
  (x.active i.ctl).all fun l => (List.range n).all fun k => decide (numOf (x.args i l) k < 2 ^ t.width)

/-! Integer and address instructions. -/

/-- Two lanes at the ends of the 32-bit range, and a carry. -/
def ints : State := stand [.i32, .i32, .i32, .b1] [[5, 0xFFFFFFFF, 7, 1], [0x80000000, 0, 0xFFFFFFFF, 0]]

theorem witness_AddAndSubtractByElement : meets ints (fun x => elemCount Ty.i32 == 1 &&
    fit x (.iadd (c 2) .cy .i32 [v 0, v 1, v 3]) 2 .i32 && fit x (.isub (c 2) .cy .i32 [v 0, v 1, v 3]) 2 .i32) = true := by decide +kernel

theorem witness_MultiplyAndDivide : meets ints (fun x => elemCount Ty.i32 == 1 &&
    fit x (.imad (c 1) .ss .i32 [v 0, v 1, v 2]) 3 .i32 && fit x (.imad (c 1) .us .i32 [v 0, v 1, v 2]) 3 .i32 &&
    fit x (.idiv (c 2) true .i32 [v 0, v 1]) 2 .i32) = true := by decide +kernel

theorem witness_MinMaxAndShiftByElement :
    meets ints (fun x => decide (x.opTy (.shift (c 1) .sar [v 0, v 1]) 0 = .i32)) = true := by decide +kernel

theorem witness_BitsAndLogic : meets ints (fun x => x.opTy (.bits (c 1) .popc [v 0]) 0 == .i32 &&
    fit x (.bits (c 1) .popc [v 0]) 1 .i32 && fit x (.clmul (c 1) true false [v 0, v 1]) 2 .i32) = true := by decide +kernel

theorem witness_ConstantsComparesAndConversions : meets ints (fun x =>
    (x.plan (.sel (c 1) .i32 [v 3, v 0, v 1])).own.length == 3 && x.opTy (.cvti (c 1) (.zx .i64) [v 0]) 0 == .i32 &&
    fit x (.icmp (c 1) .slt .i32 [v 0, v 1]) 2 .i32 && fit x (.cvti (c 1) (.zx .i64) [v 0]) 1 .i32 &&
    fit x (.cvti (c 1) (.ss .i8) [v 0]) 1 .i32 && fit x (.cvti (c 1) (.uu .i8) [v 1]) 1 .i32) = true := by decide +kernel

theorem witness_AddressForms : meets (stand [.i64, .i32] [[4096, 0xFFFFFFFF]]) (fun x => decide (
    ∀ l ∈ x.active (c 1), numOf (x.args (.addr (c 1) .zx [v 0, v 1, m 4, m 0]) l) 1 < 2 ^ 32)) = true := by decide +kernel

/-- R273: 5 + 0xFFFFFFFF + 1 is 5 with a carry; 0x80000000 + 0 is no carry. -/
theorem test_iadd_carry : goes (.iadd (c 2) .cy .i32 [v 0, v 1, v 3]) ints (fun t =>
    valIn t 0 0 == some (.bits 5) && valIn t 0 1 == some (.bits 1) &&
    valIn t 1 0 == some (.bits 0x80000000) && valIn t 1 1 == some (.bits 0)) = true := by decide +kernel

/-- R276: a division by zero gives all ones and the dividend, and raises DZ (flag 3). -/
theorem test_idiv_zero : goes (.idiv (c 2) true .i32 [v 0, v 1]) (stand [.i32, .i32] [[7, 0]]) (fun t =>
    valIn t 0 0 == some (.bits 0xFFFFFFFF) && valIn t 0 1 == some (.bits 7) &&
    (mget (t.group 0).ctx.paths 0).any fun p => p.mode.extractLsb' 8 6 == flagDZ) = true := by decide +kernel

/-! Floating-point and cross-lane instructions. -/

/-- Every format has encodings that are exact values: here the one, in the spacing that its mantissa gives. -/
theorem witness_FormatValuesAndRounding :
    ([fmtF64, fmtF32, fmtE8M10, fmtBF16, fmtF16, fmtE5M2, fmtE4M3, fmtE3M2, fmtE2M3, fmtE2M1].all fun f =>
      let w := (f.convert Rounding.plain (.one true)).1
      !Rounding.plain.sat && !Rounding.plain.flush && decide (w < 2 ^ f.bits) && w % 2 ^ f.low == 0 && !(f.value false w).isNan) = true ∧
    (-1 : Int) < 0 ∧ 3 % 2 ^ (0 - (-1) : Int).toNat ≠ 0 ∧ 2 * (3 % 2 ^ (0 - (-1) : Int).toNat) = 2 ^ (0 - (-1) : Int).toNat ∧
    3 % 2 * 2 ^ 1 % 2 = 0 ∧ 3 % 2 * 2 ^ (1 - 1) % 2 ≠ 0 := by decide +kernel

/-- Five f32 lanes: a NaN, an infinity, the least normal, the greatest subnormal and a negative zero. -/
def floats : State := stand [.f32, .f32, .i32]
  [[0x7FC00000, 0x3F800000, 1], [0xFF800000, 0x7FC00000, 2], [0x00800000, 0x80000000, 3], [0x007FFFFF, 0x40000000, 4], [0x80000000, 0, 5]]

theorem witness_FloatArithmetic : meets floats (fun x => x.lanes == [0, 1, 2, 3, 4]) = true := by decide +kernel

/-- Each clause of the classes has a lane. -/
theorem witness_FloatClass : meets floats (fun x =>
    let q := fun l => let n := numOf (x.args (.fclass (c 1) .f32 [v 0]) l) 0; (n / 2 ^ 23 % 2 ^ 8, n % 2 ^ 23)
    (x.active (c 1)).map q == [(255, 0x400000), (255, 0), (1, 0), (0, 0x7FFFFF), (0, 0)]) = true := by decide +kernel

/-- Comparisons of numbers and of a NaN: all clauses of minima have a lane. -/
theorem witness_FloatSignClassCompare : meets floats (fun x => decide (0 < Ty.f32.width) && fit x (.fsign (c 1) .copysign .f32 [v 0, v 1]) 2 .f32 &&
    ((x.active (c 1)).map fun l => (x.args (.fcmp (c 1) .lt .f32 [v 0, v 1]) l).map fun n => (fpIn .f32 x.p.mode n.num).isNan) ==
      [[true, false], [false, true], [false, false], [false, false], [false, false]]) = true := by decide +kernel

/-- A lane for each cast, and packed results of two and of four elements. -/
theorem witness_FloatConversions : meets (stand [.i16, .f64, .p8x4, .f32, .f32, .i8] [[0x3C00, 1, 0x04030201, 0x3F800000, 0xBF800000, 9]]) (fun x =>
    x.opTy (.cvtf (c 1) .bitsF [v 0]) 0 == .i16 && x.opTy (.cvtf (c 1) .bitsI [v 1]) 0 == .f64 && x.opTy (.pack (c 1) .ext [v 2, m 3]) 0 == .p8x4 &&
    (x.active (c 1)).all fun l => (x.args (.pack (c 1) .i8x4 [v 5, v 5, v 5, v 5]) l).length == 4 &&
      (x.args (.pack (c 1) .bf16x2 [v 3, v 4]) l).length == 2) = true := by decide +kernel

theorem witness_DotProducts : meets (stand [.p8x4, .p8x4, .i32, .p16x2, .f32] [[0x7F80FF01, 0x80808080, 7, 0x3C00BC00, 0x3F800000]]) (fun x =>
    (x.args (.dot (c 1) .f16x2 [v 3, v 3, v 4]) 0).map Val.num == [0x3C00BC00, 0x3C00BC00, 0x3F800000]) = true := by decide +kernel

theorem witness_RoundingScalingAndSpecialFunctions : meets floats (fun x =>
    (x.args (.sfu (c 1) .lg2 .f32 [v 0]) 4).map Val.num == [0x80000000]) = true := by decide +kernel

/-- A segment of 1, the least, and of 64, the greatest. -/
theorem witness_LaneMasksShufflesAndVotes : meets ints (fun x => decide (x.g.width ≤ 64) &&
    (x.active (c 1)).all (fun l => [1, 2, 4, 8, 16, 32, 64].contains (numOf (x.args (.lanemaskSeg (c 1) [m 1]) l) 0) &&
      [1, 2, 4, 8, 16, 32, 64].contains (numOf (x.args (.lanemaskSeg (c 1) [m 64]) l) 0))) = true := by decide +kernel

theorem witness_ScanAndReduce : meets ints (fun x => x.lanes.all fun l => decide (l < x.g.width)) = true := by decide +kernel

/-- R306: −0 is below +0; a maximum of a NaN and a number by MAXNUM is the number. -/
theorem test_fminmax : goes (.fminmax (c 1) .maxnum .f32 [v 0, v 1]) floats (fun t =>
    valIn t 0 0 == some (.bits 0x3F800000) && valIn t 1 0 == some (.bits 0xFF800000) && valIn t 4 0 == some (.bits 0)) = true := by
  decide +kernel

/-- R305: 1 + 2^-24 rounds to 1 (ties to even) and raises NX. -/
theorem test_fadd_tie : goes (.fadd (c 1) false .f32 [v 0, v 1]) (stand [.f32, .f32] [[0x3F800000, 0x33800000]]) (fun t =>
    valIn t 0 0 == some (.bits 0x3F800000) &&
    (mget (t.group 0).ctx.paths 0).any fun p => p.mode.extractLsb' 8 6 == flagNX) = true := by decide +kernel

/-- R317: SHFL.DOWN by 1 gives lane 0 the value of lane 1, and lane 1, whose source is not active, its own. -/
theorem test_shfl_down : goes (.shfl (c 2) .down [v 0, m 1]) ints (fun t =>
    valIn t 0 0 == some (.bits 0x80000000) && valIn t 0 1 == some (.bits 1) &&
    valIn t 1 0 == some (.bits 0x80000000) && valIn t 1 1 == some (.bits 0)) = true := by decide +kernel

/-- R319: an inclusive scan adds in lane order, modulo 2^32. -/
theorem test_scan_add : goes (.scan (c 1) .add false [v 2]) ints (fun t =>
    valIn t 0 0 == some (.bits 7) && valIn t 1 0 == some (.bits 6)) = true := by decide +kernel

/-! Modes and control flow. -/

/-- What a handler context holds while lane 0 handles a trap of this code at an instruction of two words. -/
def handling (code : BitVec 8) (ctx : Ctx) : Handler :=
  { code := code, lanes := 1, pc := 0, flags := 0, opnds := [(0, [7])], path := 0, frozen := ctx, trets := 0, skips := 0, mode := 0 }

theorem witness_ModeWordAndContext :
    meets (State.withGroup ints fun g => { g with handler := some (handling 1 g.ctx) }) (fun x => x.g.handler.isSome) = true := by
  decide +kernel

theorem witness_BranchContinuesAtTarget : meets ints (fun x => x.pid == 0) = true := by decide +kernel

/-- Lanes at a BRC at 0 whose taken arm is the JOIN at 20; in lane k the predicate is `ps[k]`. -/
def branch (ps : List Nat) (e : Nat) : State :=
  ((stand [.b1] (ps.map fun p => [p])).withProg [0x26040000, 0, 0xC0000005, 0, 0, 0x2A020000, 0xE0000000, 0x32000000] [(0, 20, 0)]).withDesc 0x24 1 e
/-- A landing of the path with number u, for these lanes. -/
def landing (u : Nat) (need arrived : LaneMask) : LandRec :=
  { uid := u, id := 0, join := 20, depth := 0, owner := 0, need := need, arrived := arrived, modes := [], timer := false, outer := []
    place := .core, waits := [], away := false }
/-- An entry of the path's landing stack. -/
def pending (lanes : LaneMask) (pend : List Nat) : Entry :=
  { rcd := none, lanes := lanes, pc := 12, owner := 0, mode := 0, pend := pend, last := none, arms := [], place := .core, runs := 0 }
/-- The hypotheses that all divergences share. -/
def diverges (x : Exe) : Bool :=
  let taken := fun l => (argOf (x.args (.brc (c 0) [v 0, t 5]) l) 0).isTrue
  x.p.arms.isEmpty && targetsOf [v 0, t 5] == [5] && (x.tr.landing x.p.pc).isSome && x.lanes.any taken && x.lanes.any fun l => !taken l
/-- The conditions under which the taken arm of lane 0 is ejected. -/
def mayEject (x : Exe) : Bool :=
  decide (0 < x.launch.eject) && decide (1 ≤ x.launch.eject) && x.g.handler.isNone && x.p.place == .core && decide (x.g.ctx.ejected < 4) &&
    x.tr.handsOver (x.tr.offset x.p.pc) [(1, x.tr.offset (x.p.pc + 20))] (x.tr.offset 20) && !(x.s.galleryBusy x.hall).contains 0

/-- One arm, either way; a predicate of BRM; a divergence that ejects; one that starts a second core path; one that pushes an entry at
the last place of the stack; and one that finds it full. -/
theorem witness_ConditionalBranches :
    meets (branch [1, 1] 0) (fun x => x.lanes == [0, 1] && x.p.arms.isEmpty && x.lanes.all fun l => (argOf (x.args (.brc (c 0) [v 0, t 5]) l) 0).isTrue) = true ∧
    meets (branch [0, 0] 0) (fun x => x.lanes.all fun l => !(argOf (x.args (.brc (c 0) [v 0, t 5]) l) 0).isTrue) = true ∧
    meets (stand [.i32] [[2], [2]]) (fun x => (targetsOf [v 0, t 1, t 2, t 3, t 4]).length == 4 &&
      x.lanes.all fun l => !(numOf (x.args (.brm (c 0) .mask [v 0, t 1, t 2, t 3, t 4]) l) 0).testBit 0 &&
        (numOf (x.args (.brm (c 0) .mask [v 0, t 1, t 2, t 3, t 4]) l) 0).testBit 1) = true ∧
    meets (branch [1, 0] 1) (fun x => diverges x && mayEject x) = true ∧
    meets (branch [1, 0] 0) (fun x => diverges x && !mayEject x && x.g.ctx.corePaths == 1 && x.g.ctx.stack.isEmpty) = true ∧
    meets (State.withGroup (branch [1, 0] 0) fun g => { g with ctx := { g.ctx with stack := List.replicate 31 (pending 4 []) } })
      (fun x => diverges x && !mayEject x && x.g.ctx.stack.length == 31) = true ∧
    meets (State.withGroup (branch [1, 0] 0) fun g => { g with ctx := { g.ctx with stack := List.replicate 32 (pending 4 []) } })
      (fun x => diverges x && !mayEject x && x.g.ctx.stack.length == 32) = true := by decide +kernel

/-- At the JOIN at 20: a path without a landing; one at its landing, on the core, and in a gallery that another path's landing
awaits. And path numbers that own a landing: a pending arm, lanes missing, and all arrived. -/
theorem witness_JoinsAndLandings :
    let at_ := fun (place : Place) (owner : Nat) => State.withGroup ((branch [1, 0] 0).withPath fun p => { p with pc := 20, pend := [7], place := place }) fun g =>
      { g with ctx := { g.ctx with recs := [{ landing 7 3 0 with owner := owner }] } }
    let here := fun (x : Exe) => (x.p.pend.head?.bind x.g.ctx.rcd).any fun r => r.id == 0 && r.depth == x.depth
    let alone := fun (c : Ctx) => c.idleOwners.all (· == 0) && c.idleOwners.contains 0 && (c.lastOwned 0).any fun r => r.need != 0
    let ctx := fun (arrived : LaneMask) (stack : List Entry) => (⟨[], stack, [landing 7 3 arrived], [], []⟩ : Ctx)
    meets ((branch [1, 0] 0).withPath fun p => { p with pc := 20 }) (fun x => !here x) = true ∧
    meets (at_ .core 0) here = true ∧ meets (at_ (.gallery 3) 5) (fun x => here x && x.p.place != .core) = true ∧
    alone (ctx 1 [pending 2 [7]]) = true ∧ (ctx 1 [pending 2 [7]]).dueEntry 0 (some (landing 7 3 1)) = some (pending 2 [7]) ∧
    alone (ctx 1 []) = true ∧ (ctx 1 []).dueEntry 0 (some (landing 7 3 1)) = none ∧
    alone (ctx 3 []) = true ∧ (landing 7 3 3).need &&& ~~~(landing 7 3 3).arrived = 0 ∧ (landing 7 3 3).away = false := by decide +kernel

/-- A loop head with one PHI: the path has come into it from the instruction before. -/
def phi1 : State :=
  ((stand [.i32, .i32] [[3, 9]]).withProg [0, 0x22344000, 0, 1, 0x24020000, 0xCFFFFFFD] []).withPath fun p => { p with pc := 4, last := some (0, 0) }

theorem witness_PhisReadThenDefine : meets phi1 (fun x =>
    (phiRun x.tr.nodes (x.tr.offset x.p.pc)).length == 1 && x.tr.edgeIndex x.p.pc (0, 0) == some 0 &&
    x.lanes.all fun l => !(x.read .i32 l (v 0)).1.shadowed) = true := by decide +kernel

/-- R287: the PHI takes the operand of the edge by which its lane came. -/
theorem test_phi_edge : goes (.phi (c 1) .i32 [v 0, v 1]) phi1 (fun t => valIn t 0 0 == some (.bits 3)) = true ∧
    goes (.phi (c 1) .i32 [v 0, v 1]) (phi1.withPath fun p => { p with last := some (16, 1) }) (fun t => valIn t 0 0 == some (.bits 9)) = true := by
  decide +kernel

/-- Calls: of a function with and without a translation, of one that has a translation fault, and at the greatest depth; an
index that names no device function; a return to a CALL of three words. -/
theorem witness_CallsAndReturns :
    let called := fun (s : State) (fn : Nat) => meets s fun x => x.device fn && joinId [b (BitVec.ofNat 28 fn), v 0] == fn
    let found := fun (s : State) => s.exe?.bind fun x => x.s.findTrans x.eid x.launch.obj 1 x.g.width (x.launch.budget x.g.role) x.hall
    let s := (stand [.i32] [[1], [1]]).withCode true
    let faulty := { s with trans := mset s.trans 1 { s.translation 1 with fault := some (3, 0x1000) } }
    let deep := State.withGroup s fun g => g.mapLanes [0, 1] fun _ y => { y with frames := List.replicate 256 y.top }
    let inside := State.withGroup (s.withProg [0x2C344000, 0xE0000001, 0] []) fun g =>
      g.mapLanes [0, 1] fun _ y => { y with frames := ⟨1, 1, 12, [(0, .bits 4)], []⟩ :: y.frames }
    called s 1 = true ∧ ((found s).any fun q => q.2.fault.isNone) = true ∧
    called ((stand [.i32] [[1]]).withCode false) 1 = true ∧ found ((stand [.i32] [[1]]).withCode false) = none ∧
    called faulty 1 = true ∧ ((found faulty).any fun q => q.2.fault == some (3, 0x1000)) = true ∧
    meets deep (fun x => x.device 1 && (x.g.lane x.first).frames.length - 1 == 255) = true ∧
    meets s (fun x => (x.lanes.map fun l => numOf (x.args (.calli (c 1) .i32 [v 0]) l) 0) == [1, 1]) = true ∧
    meets ((stand [.i32] [[2], [2]]).withCode true) (fun x => !x.device 2) = true ∧
    meets inside (fun x => ((x.s.translation 0).nodes.find? fun n => n.off + n.size == (x.s.translation 0).offset 12).isSome &&
      ((x.g.lane x.first).frames.getD 1 ⟨9, 9, 0, [], []⟩).tr == 0) = true := by decide +kernel

theorem witness_ExitEndsLanes : meets (branch [1, 0] 0) (fun x => x.g.handler.isNone && x.g.ctx.meets.isEmpty && x.g.ctx.barm.isEmpty &&
    x.team.latches.isEmpty && x.launch.gangs.isEmpty) = true := by decide +kernel

theorem witness_NopFencesAndTmask : meets ints (fun x => numOf (x.onceVals (.tmask (c 1) [v 0])) 0 == 5) = true := by decide +kernel

/-- A trap that enters its handler, at the least and the greatest code of TRAP; and those that do not: in a handler, held back,
without an entry, without a translation, and of an ejected path with and without room for its recall. -/
theorem witness_TrapsEnterOrEnd :
    let s := (stand [.i32] [[1]]).withCode true
    let found := fun (x : Exe) => x.s.trapFn x.launch == some 2 &&
      (x.s.findTrans x.eid x.launch.obj 2 x.g.width (x.launch.budget x.g.role) x.hall).isSome
    let away := s.withPath fun p => { p with place := .gallery 3 }
    let core := fun (k : Nat) => (k, Path.start 0 2 0 [] none .core)
    let full := State.withGroup away fun g =>
      { g with ctx := { g.ctx with stack := List.replicate 32 (pending 4 []), paths := g.ctx.paths ++ [core 1, core 2] } }
    meets s (fun x => x.p.place == .core && x.g.handler.isNone && found x && x.g.tmask.getLsbD 0x0D && x.g.tmask.getLsbD 0x0E && x.g.tmask.getLsbD 2) = true ∧
    (0x10 ≤ (0x10 : BitVec 30).toNat ∧ (0x7F : BitVec 30).toNat ≤ 0x7F) ∧
    meets (State.withGroup s fun g => { g with handler := some (handling 1 g.ctx) }) (fun x => x.g.handler.isSome) = true ∧
    meets (State.withGroup s fun g => { g with tmask := 0 }) (fun x => !x.g.tmask.getLsbD 1) = true ∧
    meets (stand [.i32] [[1]]) (fun x => x.s.trapFn x.launch == none) = true ∧
    meets ((stand [.i32] [[1]]).withCode false) (fun x => x.s.trapFn x.launch == some 2 &&
      (x.s.findTrans x.eid x.launch.obj 2 x.g.width (x.launch.budget x.g.role) x.hall).isNone) = true ∧
    meets away (fun x => x.p.place.galleryCore == some 3 && decide (x.g.ctx.corePaths < 2)) = true ∧
    meets full (fun x => decide (2 ≤ x.g.ctx.corePaths) && x.g.ctx.stack.length == 32 && x.g.handler.isNone && x.g.tmask.getLsbD trapOverflow && found x) =
      true := by decide +kernel

/-- A poison read whose trap is enabled; a division by zero; and an addition whose only flag is enabled, and one that raises none. -/
theorem witness_PoisonAndEnabledFlagsTrap :
    let s := fun (en : Nat) (ns : List Nat) => (stand [.i32, .i32] [ns]).withPath fun p => { p with mode := BitVec.ofNat 64 (en * 2 ^ 16) }
    let holds := fun (s : State) (p : Exe → Bool) => s.exe?.any p
    let bad := fun (x : Exe) (i : Instr) => (x.active (c 1)).any fun l => x.poison i l == flagPO
    holds (s flagPO.toNat [1]) (fun x => modeEn x.p.mode &&& flagPO != 0 && bad x (.iadd (c 1) .wrap .i32 [v 0, v 1])) = true ∧
    holds (s flagDZ.toNat [1, 0]) (fun x => modeEn x.p.mode &&& flagDZ != 0 && !bad x (.idiv (c 2) true .i32 [v 0, v 1]) &&
      numOf (x.args (.idiv (c 2) true .i32 [v 0, v 1]) 0) 1 == 0) = true ∧
    holds (s flagNX.toNat [0x3F800000, 0x33800000]) (fun x => !bad x (.fadd (c 1) false .f32 [v 0, v 1])) = true ∧
    holds (s flagNX.toNat [0x3F800000, 0x3F800000]) (fun x => !bad x (.fadd (c 1) false .f32 [v 0, v 1])) = true := by decide +kernel

/-- A path of lane 0 that is the last one in the handler of a trap of this code, raised at an IADD of three words. -/
def handler (code : BitVec 8) (away : Bool) : State :=
  let s := (((stand [.i32, .i32] [[3, 9]]).withCode true).withProg [0x04344000, 0, 1, 0x32000000] [(0, 20, 0)])
  State.withGroup s fun g =>
    let frozen : Ctx := { g.ctx with
      paths := if away then [] else [(0, Path.start 0 1 0 [] none .core)]
      recs := if away then [{ landing 7 3 1 with away := true }] else [] }
    { g with
      handler := some (handling code frozen)
      ctx := { g.ctx with paths := [(0, Path.start 8192 1 0 [] none .core)] }
      lanes := g.lanes.map fun l => (l.1, { l.2 with frames := ⟨2, 2, 0, [(0, .bits 5)], []⟩ :: l.2.frames }) }

/-- TRET, after a JOIN_TIMEOUT and after another trap, and TRET.SKIP with a result, and with none after ILLEGAL_ENCODING. -/
theorem witness_TretResumesTheGroup :
    let shared := fun (x : Exe) => x.g.ctx.meets.isEmpty && x.g.ctx.barm.isEmpty && x.team.latches.isEmpty && x.launch.gangs.isEmpty &&
      x.g.handler.any fun h => h.frozen.meets.isEmpty && h.frozen.barm.isEmpty && h.lanes &&& ~~~x.g.exited &&& ~~~x.p.mask == 0 &&
        h.trets == 0 && h.skips == 0 && x.p.mask &&& ~~~(h.lanes &&& ~~~x.g.exited) == 0 &&
        ((x.g.lane ((lanesOf h.lanes).headD 0)).frames.getD 1 ⟨0, 9, 0, [], []⟩).tr == 0 &&
        ((x.g.lane x.first).frames.getD 1 ⟨0, 9, 0, [], []⟩).tr == 0
    let skips := fun (x : Exe) => (x.s.translation 0).behind 0 == 12 && (x.s.translation 0).endAt == 16 && x.lanes.all fun l =>
      decide ((x.g.lane l).frames.length ≥ 2)
    meets (handler 3 false) (fun x => shared x && skips x && (x.s.translation 0).resultsAt 0 == (0, [.i32]) &&
      (x.plan (.tretSkip (c 0) [m 5])).own.length == 0 + 1 && (x.g.handler.bind fun h => mget h.frozen.paths h.path).isSome) = true ∧
    meets (handler 6 true) (fun x => shared x && (x.g.handler.any fun h => (h.frozen.recs.find? (·.away)).isSome)) = true ∧
    meets (handler 1 false) (fun x => shared x && skips x) = true := by decide +kernel

/-! Memory and synchronisation. -/

/-- A launch with 1 KiB of scratchpad, 4 barriers and 2 flights, whose path has these lanes. -/
def worked (types : List Ty) (lanes : List (List Nat)) : State :=
  ((((stand types lanes).withPages).withDesc 0x28 2 1).withDesc 0x27 1 4).withDesc 0x0F 1 2
/-- Where every active lane's access lies in memory, if it can be made. -/
def placed (x : Exe) (i : Instr) (k : AccessKind) (n : Nat) (addr : Nat → BitVec 64) : Bool :=
  (x.active i.ctl).all fun l => match x.s.locate (some x.unit) x.eid (addr l) k n with
    | .ok p => (localPieces p).isSome
    | .error _ => false

/-- Scratchpad: the last word, one byte beyond it, and an odd address. Memory: a word, an odd address, a line; and an address behind a
window, which is nowhere in this package. -/
theorem witness_MemoryAccesses :
    let ld := Instr.lds (c 1) (.rlx .i32 .team) [v 0]
    let at_ := Instr.atoms (c 1) .rlx .i32 .team [m 0, v 0, v 1]
    let a := fun (x : Exe) i k l => (argOf (x.args i l) k).toBits
    let g := Instr.ld (c 1) (.rlx .i32 .gang) [v 0]
    meets (worked [.i32, .i32] [[1020, 7]]) (fun x => x.p.got.isEmpty && (x.active (c 1)).all fun l =>
      x.s.spadAt x.g.team (numOf (x.args ld l) 0) 4 == some (0, 1020) && x.s.spadAt x.g.team (numOf (x.args at_ l) 1) 4 == some (0, 1020)) = true ∧
    meets (worked [.i32, .i32] [[1021, 7]]) (fun x => (x.active (c 1)).any fun l => (x.s.spadAt x.g.team (numOf (x.args ld l) 0) 4).isNone) = true ∧
    meets (worked [.i32, .i32] [[2, 7]]) (fun x => (x.active (c 1)).all fun l =>
      (x.s.spadAt x.g.team (numOf (x.args ld l) 0) 4).isSome && numOf (x.args ld l) 0 % 4 == 2) = true ∧
    meets (worked [.i64, .i32] [[0x20000, 7], [0x20FFC, 7]]) (fun x => placed x g .load 4 (a x g 0) &&
      placed x (.st (c 0) (.plain .i32) [v 0, v 1]) .store 4 (a x (.st (c 0) (.plain .i32) [v 0, v 1]) 0) &&
      placed x (.atom (c 1) .ar .i32 .gang [m 0, v 0, v 1]) .atomic 4 (a x (.atom (c 1) .ar .i32 .gang [m 0, v 0, v 1]) 1) &&
      (x.active (c 1)).all fun l => (a x g 0 l).toNat % 4 == 0) = true ∧
    meets (worked [.i64, .i32] [[0x20002, 7]]) (fun x => (x.active (c 1)).all fun l => (a x g 0 l).toNat % 4 == 2) = true ∧
    meets (worked [.i64, .i32] [[0x20041, 7]]) (fun x => placed x (.cacheZero (c 0) [v 0]) .store 64 fun l =>
      a x (.cacheZero (c 0) [v 0]) 0 l - BitVec.ofNat 64 ((a x (.cacheZero (c 0) [v 0]) 0 l).toNat % 64)) = true ∧
    meets (worked [.i64, .i32] [[0x40000000, 7]]) (fun x => !placed x g .load 4 (a x g 0)) = true := by decide +kernel

/-- The last element of a byte; a mode; and an access that meets a fault, a fatal one, a search, and a frame in MOVING. -/
theorem witness_StoredElementsAndFaults :
    let g := Instr.ld (c 1) (.plain .i32) [v 0]
    let stops := fun (s : State) (p : Found → Bool) => meets s fun x => x.p.got.isEmpty && (match x.active (c 1) with
      | [l] => (match x.s.locate (some x.unit) x.eid (argOf (x.args g l) 0).toBits .load 4 with
        | .error st => p st.found
        | .ok _ => false)
      | _ => false)
    let at_ := fun (n : Nat) => worked [.i64] [[n]]
    numOf [.bits 0, .bits 7, .bits 1] 2 = 1 ∧ numOf [.bits 0, .bits 7, .bits 3] 2 = 3 ∧ modeRM modeReset < 6 ∧
    stops (at_ 0x80000000) (fun f => match f with | .fault k => !k.kind.fatal | _ => false) = true ∧
    stops (at_ 0x21000) (fun f => match f with | .fault k => k.kind.fatal | _ => false) = true ∧
    stops { at_ 0x20040 with searches := [0x801] } (fun f => match f with | .search .. => true | _ => false) = true ∧
    stops ((at_ 0x20040).setPot 32 ⟨1, 32, 1, .moving, 0, 0, false, false⟩) (fun f => f == .moving) = true := by decide +kernel

/-- A phase that BAR.EXPECT fills, and one to which it adds the most that there is room for; BAR.INIT of 1 and 48, of 0 and 49,
and of a barrier in use; a wait that stays, one for the phase before, and one that has come to its end. -/
theorem witness_BarrierOperations :
    let s := fun (bar : Bar) (n : Nat) => (worked [.i32, .b1] [[n, 1]]).setTeam 0 { (worked [] [[]]).team 0 with bars := [(3, bar)] }
    let bar : Bar := ⟨0, 0, 1, 1, [], 0, [], []⟩
    let i := Instr.barExpect (c 0) [m 3, v 0]
    let w := Instr.barWait (c 0) [m 3, v 1]
    let name := fun (x : Exe) i => numOf (x.onceVals i) 0
    meets (s bar 0) (fun x => x.launch.nbar == 4 && name x i == 3 && numOf (x.onceVals (.barExpect (c 0) [m 4, v 0])) 0 == 4) = true ∧
    meets (s { bar with arrived := 1 } 0) (fun x => (x.team.bar 3).arrived == (x.team.bar 3).expect && (x.team.bar 3).pend + numOf (x.onceVals i) 1 == 0) = true ∧
    meets (s bar 0x7FFFFFFF) (fun x => decide ((x.team.bar 3).pend + numOf (x.onceVals i) 1 = 0x7FFFFFFF)) = true ∧
    meets (s { bar with pend := 1 } 0x7FFFFFFF) (fun x => decide (0x7FFFFFFF < (x.team.bar 3).pend + numOf (x.onceVals i) 1)) = true ∧
    ([0, 1, 48, 49].all fun n => meets (s bar n) fun x => numOf (x.onceVals (.barInit (c 0) [m 3, v 0])) 1 == n && (x.team.bar 3).arrived == 0) = true ∧
    meets (s { bar with out := 64 } 1) (fun x => (x.team.bar 3).out == 64) = true ∧
    meets (s bar 0) (fun x => !x.nameless (.barState (c 1) [m 3]) 0 && decide ((x.team.bar 3).expect < 64)) = true ∧
    meets (s bar 0) (fun x => x.p.stage == .none && (x.active (c 0)).any fun l => (argOf (x.args w l) 1).isTrue == ((x.team.bar 3).phases % 2 == 1)) = true ∧
    meets (s { bar with phases := 2 } 0) (fun x => !(x.active (c 0)).any fun l => (argOf (x.args w l) 1).isTrue == ((x.team.bar 3).phases % 2 == 1)) = true ∧
    meets ((s bar 0).withPath fun p => { p with stage := .waiting (.bar 3) 0 }) (fun x => (x.team.bar 3).phases != 0) = true ∧
    meets ((s bar 0).withPath fun p => { p with stage := .waiting (.bar 3) 1 }) (fun x => (x.team.bar 3).phases == 1) = true := by decide +kernel

/-- An arrival whose group has another live lane; the last one, of a barrier that it does not fill and of one that it does; a
flight that misses another group; a mask of the path's own lanes and a wider one; and paths that go on. -/
theorem witness_BarrierArrivalsAndReleases :
    let s := fun (expect : Nat) => (worked [.i64] [[1], [3]]).setTeam 0 { (worked [] [[]]).team 0 with bars := [(3, ⟨0, 0, 0, expect, [], 0, [], []⟩)] }
    let sync := Instr.barSync (c 0) [m 3]
    let idle := fun (x : Exe) => x.p.stage == .none && x.g.ctx.meets.isEmpty && x.g.ctx.barm.isEmpty && x.p.mask != 0 &&
      x.g.ctx.paths.all fun q => q.2.stage == .none
    let only := fun (s : State) => s.withPath fun p => { p with mask := 1 }
    let other := fun (s : State) => ({ s with groups := mset s.groups 1 (s.group 0) } : State)
    meets (only (s 1)) (fun x => idle x && x.g.live &&& ~~~x.p.mask != 0 && decide (numOf (x.onceVals sync) 0 < x.launch.nbar)) = true ∧
    meets (s 1) (fun x => idle x && x.g.live &&& ~~~x.p.mask == 0 && (x.team.bar 3).arrived + 1 == (x.team.bar 3).expect) = true ∧
    meets (s 2) (fun x => idle x && x.g.live &&& ~~~x.p.mask == 0 && (x.team.bar 3).arrived != (x.team.bar 3).expect &&
      (x.team.bar 3).arrived + 1 != (x.team.bar 3).expect) = true ∧
    meets (other (s 1)) (fun x => idle x && decide (numOf (x.onceVals (.flight (c 0) [m 1])) 0 < x.launch.nflight) &&
      decide ((x.launch.flight (dieOf x.hall) 1).length < (x.s.flightParty x.team.launch (dieOf x.hall)).length)) = true ∧
    meets (s 1) (fun x => decide (x.launch.nflight ≤ numOf (x.onceVals (.flight (c 0) [m 2])) 0)) = true ∧
    meets (only (s 1)) (fun x => idle x && x.lanes.all fun l => (argOf (x.args (.barm (c 0) [v 0]) l) 0).toBits == x.p.mask) = true ∧
    meets (only (s 1)) (fun x => x.g.live == 3 && x.p.mask &&& ~~~3 == 0 && x.lanes.all fun l => (argOf (x.args (.barm (c 0) [m 3]) l) 0).toBits == 3) = true ∧
    meets ((s 1).withPath fun p => { p with stage := .waiting (.bar 3) 0 }) (fun x => (x.team.bar 3).phases == 0) = true ∧
    meets ((s 1).withPath fun p => { p with stage := .released }) (fun x => x.p.stage == .released) = true := by decide +kernel

/-- R333, R334: an ATOM add in scratchpad gives the word that was there and stores the sum. -/
theorem test_atoms_add :
    let s := (worked [.i32, .i32] [[1020, 7]]).setTeam 0 { (worked [] [[]]).team 0 with spad := writeBytes [] 1020 (leBytes 4 5) }
    goes (.atoms (c 1) .rlx .i32 .team [m 0, v 0, v 1]) s (fun t =>
      valIn t 0 0 == some (.bits 5) && readLE (t.team 0).spad 1020 4 == 12) = true := by decide +kernel

/-- R331: a store writes its four bytes, the least significant first, and no other. -/
theorem test_st :
    goes (.st (c 0) (.plain .i32) [v 0, v 1]) (worked [.i64, .i32] [[0x20010, 0x04030201]]) (fun t =>
      readBytes t.mem 0x2000F 6 == [0, 1, 2, 3, 4, 0]) = true := by decide +kernel

/-! Engines. -/

/-- The state with these values, from id 0 on, in lane 0. -/
def holding (s : State) (vs : List Val) : State := State.withGroup s fun g => g.mapLanes [0] fun _ y =>
  y.setTop { y.top with vals := numbered vs.length fun k => vs.getD k (.bits 0) }

/-- A tensor map of a format with n dimensions of 16 elements and a box of 4: rows of 64 bytes, 1 KiB in all. -/
def tensor (spad : Bool) (base n fmt : Nat) : List Byte :=
  leBytes 8 base ++ leBytes 8 1024 ++ leBytes 8 (fmt * 2 ^ 35 + n * 2 ^ 31 + if spad then 2 ^ 29 else 0) ++ leBytes 8 0 ++
    ((List.range 5).map fun k => if k < n then leBytes 8 (16 * 2 ^ 32 + 4 * 2 ^ 16 + 2 ^ 8) ++ leBytes 8 (64 * k) else leBytes 16 0).flatten ++
    leBytes 16 0
/-- A state whose lane 0 holds these values, with 1 KiB of scratchpad, 4 barriers and memory. -/
def engined (vs : List Val) : State := holding (worked [] [[]]) vs
/-- A number as a value. -/
def num (n : Nat) : Val := .bits (BitVec.ofNat 64 n)

/-- A linear copy: a good one, with and without a barrier; names at the bound; a range that ends one byte too far; a barrier
without room. Tensors: good, of different counts, outside, and no tensor. A gather: its greatest and least counts and row bytes,
and those just beyond. -/
theorem witness_CopiesAndGathersIssue :
    let cp := Instr.copy (c 1) .g2s true .team [v 0, v 1, v 2, v 3]
    let n := fun (x : Exe) i k => numOf (x.onceVals i) k
    let s := fun (dst bytes bar : Nat) => engined [num dst, num 0x20000, num bytes, num bar]
    let tight := (s 0 64 3).setTeam 0 { (s 0 64 3).team 0 with bars := [(3, ⟨-0x7FFFFFFF, 0, 0, 1, [], 1, [], []⟩)] }
    let inside := fun (x : Exe) a k => (x.s.spadAt x.g.team a k).isSome
    let ts := Instr.copy (c 1) .tsrc false .team [v 0, v 1, m 0, m 0]
    let tens := fun (d e : Val) (p : Desc → Desc → Exe → Bool) => meets (engined [d, e]) fun x =>
      match (argOf (x.onceVals ts) 0).desc false, (argOf (x.onceVals ts) 1).desc false with
      | some d, some e => p d e x
      | _, _ => false
    let t2 := Val.tmap (tensor true 0 2 4) none
    let gt := Instr.gather (c 1) false .team [v 0, v 1, v 2, v 3, v 4]
    let rows := fun (cnt rb : Nat) (p : Nat → Int → Bool) => meets (engined [num 0, num 0x20000, num 512, num cnt, num rb]) fun x =>
      p (n x gt 3) (((x.onceVals gt).getD 4 (.bits 0)).toBits.setWidth 32 : BitVec 32).toInt && x.p.place == .core && x.active (c 1) != []
    meets (s 960 64 3) (fun x => x.p.place == .core && decide (n x cp 3 < x.launch.nbar) && n x cp 2 == 64 && inside x (n x cp 0) 64 &&
      !(x.team.bar 3).tooMany 64 && x.issueWaits 0 == false && !x.windowDown false 0x20000) = true ∧
    meets (s 961 64 4) (fun x => !decide (n x cp 3 < x.launch.nbar) && !inside x (n x cp 0) 64) = true ∧
    meets tight (fun x => (x.team.bar (n x cp 3)).tooMany 64) = true ∧
    tens t2 t2 (fun d e x => tmOk d && tmCount d == tmCount e && x.s.tmInside x.g.team d) = true ∧
    tens t2 (.tmap (tensor true 0 1 4) none) (fun d e _ => tmCount d != tmCount e) = true ∧
    tens t2 (.tmap (tensor true 1020 2 4) none) (fun _ e x => !x.s.tmInside x.g.team e) = true ∧
    meets (engined [num 0, num 0]) (fun x => ((argOf (x.onceVals ts) 0).desc false).isNone) = true ∧
    rows 65535 4096 (fun k r => k == 65535 && r == 4096) = true ∧ rows 65536 1 (fun k r => k == 65536 && r == 1) = true ∧
    rows 0 0 (fun k r => k == 0 && r == 0) = true ∧ rows 16 4097 (fun k r => k == 16 && r == 4097) = true := by decide +kernel

/-- Futures of the team in slot 0: pending, done, of another use, of another team; a YIELD, in and out of a handler; and a
parked path. -/
theorem witness_FuturesReport :
    let op : EngOp := ⟨0, 0, 0, 0, 1, 0x4A, 0, [], 0, 2, none, [], 0, [], 1, 0, 0, futPending, false, false, false, 0, [], 0, [], [], []⟩
    let s := fun (st : BitVec 8) (gen team : Nat) =>
      let s := engined [.bits (futWord 1 team 0 gen 0)]
      { s.setTeam 0 { s.team 0 with slots := [(0, ⟨1, st, 5⟩)], issues := 1 } with ops := [(5, { op with status := st })] }
    let w := Instr.futWait (c 0) [v 0]
    let y := Instr.yield (c 0) [v 0, t 4]
    let sees := fun (s : State) (p : Bool → BitVec 8 → Bool) => meets s fun x => (x.active (c 0)).all fun l =>
      p (x.s.futValid x.g.team (argOf (x.args w l) 0).toBits) (x.s.futState x.g.team (argOf (x.args w l) 0).toBits).1
    sees (s futPending 1 0) (fun valid st => valid && st == futPending) = true ∧ sees (s futOK 1 0) (fun valid st => valid && st == futOK) = true ∧
    sees (s futOK 0 0) (fun valid st => valid && st == futExpired) = true ∧ sees (s futOK 1 9) (fun valid _ => !valid) = true ∧
    meets (s futPending 1 0) (fun x => targetsOf y.ops == [4] && y.ctl.ndef == 0 && x.g.handler.isNone && x.active (c 1) != []) = true ∧
    meets (State.withGroup (s futPending 1 0) fun g => { g with handler := some (handling 1 g.ctx) }) (fun x => x.g.handler.isSome) = true ∧
    meets (((s futOK 1 0).withProg [0x9A040000, 0, 0xC0000004, 0, 0x32000000] []).withPath fun p => { p with yield := some 16 }) (fun x =>
      x.p.yield.isSome && (x.tr.fetch x.p.pc).1 == .ok y) = true := by decide +kernel

/-- A format block of INT8 with one slab of 96. -/
def block : List Byte := leBytes 2 9 ++ leBytes 2 9 ++ leBytes 2 128 ++ leBytes 2 128 ++ leBytes 12 0 ++ leBytes 1 1 ++ leBytes 11 0

/-- Blocks that pass and fail; blocks and descriptors in scratchpad and in memory, aligned, odd and outside; a cohort at its
bounds; a tile to take, none, and none at all; a map that UNFOLD takes, and one that it does not. -/
theorem witness_MatrixValues :
    let s := (engined [num 0, num 1, num 0]).withCode true
    let blocks := { s with objs := [(0, ⟨true, 1, 0, [], [], [block, leBytes 32 0], [], none⟩)] }
    let i := Instr.fmtbSp (c 1) [v 0]
    let sp := fun (a : Nat) (p : Option (Nat × Nat) → Bool) => meets (engined [num a]) fun x => p (x.s.spadAt x.g.team (argOf (x.onceVals i) 0).num 32)
    let co := Instr.cohort (c 0) [v 0, v 1, v 2]
    let tiles := fun (k team : Nat) => { s with tiles := (List.range k).map fun n => (n, (⟨false, [], team, none⟩ : Tile)) }
    let live := fun (s : State) (k : Nat) => holding s ((List.range k).map fun n => Val.acc n none)
    let taken := fun (s : State) (n : Nat) => s.exe?.any fun x => match x.s.takeTiles x.g.team 1 false [] with
      | .taken .. => n == 0
      | .wait => n == 1
      | .full => n == 2
    let u := fun (d : Desc) (g o : Nat) => tmNdim d == 3 && decide (tmFmt d ≤ 10) && decide (tmFill d ≤ 1) &&
      (BitVec.ofNat 64 g).extractLsb' 40 24 == 0 && (BitVec.ofNat 32 o).extractLsb' 0 16 != 0 && (BitVec.ofNat 32 o).extractLsb' 16 16 != 0
    meets blocks (fun x => x.p.place == .core && x.active (c 1) != [] && fbOk (x.fmtEntry (joinId [b 0])) && (x.fmtEntry (joinId [b 0])).length == 32 &&
      !fbOk (x.fmtEntry (joinId [b 1]))) = true ∧
    sp 992 Option.isSome = true ∧ sp 993 Option.isNone = true ∧ sp 960 Option.isSome = true ∧
    meets (engined [num 0x20040]) (fun x => (match x.s.locate (some x.unit) x.eid 0x20040 .load 128 with
      | .ok p => (localPieces p).isSome
      | .error _ => false)) = true ∧
    meets (engined [num 7, num 6, num 5]) (fun x => x.holdsAll && (x.onceVals co).map Val.num == [7, 6, 5]) = true ∧
    meets (engined [num 8, num 7, num 7]) (fun x => (x.onceVals co).map Val.num == [8, 7, 7]) = true ∧
    taken s 0 = true ∧ taken (live (tiles 32 0) 32) 2 = true ∧
    taken ({ live (tiles 32 1) 0 with
      teams := [(0, s.team 0), (1, { s.team 0 with index := 1 })]
      groups := [(0, s.group 0), (1, { (live s 32).group 0 with team := 1 })] } : State) 1 = true ∧
    u (tensor true 0 3 10) 0 0x10001 = true ∧ u (tensor true 0 2 10) 0 0x10001 = false := by decide +kernel

/-- An MMA that may issue with its own tile and with a fresh one, and each way in which it does not; the first member of a
cohort of two; ACC.LOAD and ACC.STORE of a box, SPBM of 8 and of 192 rows, and SPEC of a shadowed tile. -/
theorem witness_MatrixOperations :
    let fb := Val.fmtb block
    let s := { engined [fb, .acc 0 none, num 0, num 0] with tiles := [(0, ⟨true, [], 0, none⟩)] }
    let big := (s.withDesc 0x28 2 64).withProg [0xC4088800, 0, 0x20000001, 2, 3, 0x32000000] []
    let i := Instr.mma (c 2) .team [v 0, .val true false 1, v 2, v 3]
    let mayBegin := fun (x : Exe) => x.p.stage == .none && (x.team.latch (cohortLatch x.g.cohort)).isEmpty && x.p.place == .core
    let cohort := State.withGroup big fun g => { g with cohort := 1 + 2 * 64 }
    meets big (fun x => mayBegin x && x.mmaBad ⟨0, false⟩ (x.onceVals i) == none && !cohortValid x.g.cohort && x.here == some i &&
      x.issueWaits 2 == false && (argOf (x.onceVals i) 0).block == some block && argOf (x.onceVals i) 1 == .acc 0 none && x.lastUse i 0) = true ∧
    meets big (fun x => !x.lastUse (.mma (c 2) .team [v 0, v 1, v 2, v 3]) 0) = true ∧
    meets s (fun x => mayBegin x && (x.mmaBad ⟨0, false⟩ (x.onceVals i)).isSome) = true ∧
    meets (big.withPath fun p => { p with stage := .failed }) (fun x => x.p.stage == .failed) = true ∧
    meets (big.withPath fun p => { p with stage := .issued [num 1] }) (fun x => x.p.stage == .issued [num 1]) = true ∧
    meets cohort (fun x => mayBegin x && x.mmaBad ⟨0, false⟩ (x.onceVals i) == none && cohortValid x.g.cohort && decide (1 < cohortSize x.g.cohort)) = true ∧
    [8, 192].all (fun r => decide (r % 8 = 0 ∧ 8 ≤ r ∧ r ≤ 192)) = true ∧
    (let d := tensor true 0 2 9
     tmNdim d = 2 ∧ tmBox d 0 ≤ 64 ∧ tmBox d 1 ≤ 32 ∧ tmFmt d = 9) ∧
    meets { engined [.acc 0 (some 1)] with tiles := [(0, ⟨true, [], 0, none⟩), (1, ⟨true, [], 0, none⟩)] } (fun x =>
      (x.tileOf 0).isSome && (x.tileOf 1).isSome && x.lastUse (.specCommit (c 1) [.val true false 0]) 1 &&
      (((x.s.specOps x.g.team 1).foldl (fun s k => s.releaseFlags k) x.s).exeOf x.gid x.pid).isSome) = true := by decide +kernel

/-! Collectives, caches, launches and cuttings. -/

/-- The state in a fabric of three packages, this one number 1, with a stream in UP to package 2. -/
def joined (s : State) : State :=
  { s with fabricF := 1, fabricP := 3, streams := [(7, ⟨1, 2, 0, .up, 0, 5, 9, 0, false, (0, 0), 0, 77⟩)] }
/-- A group of the packages 1 and 2, in a state. -/
def group12 (st : CollState) (rekey : Bool) : Coll := ⟨1, 5, [1, 2], st, 0, rekey, 3, 0, [], listDigest [1, 2], [(0, 1)], []⟩

/-- Lists of 1, 2, 15 and 16 packages, and one behind a window that is down; a handle that names no group, and one in each
state, with elements and without; a re-key at both ends; and a lost peer. -/
theorem witness_CollectivesIssue :
    let i := Instr.collGroup (c 2) .fabric [v 0, v 1]
    let s := fun (list n : Nat) => joined (engined [num list, num n])
    let r := Instr.collRed (c 1) .fabric [m 0x21, v 0, v 1, v 2, v 3]
    let on := fun (st : CollState) (h n : Nat) (p : Option (Nat × Coll) → Nat → Bool) =>
      meets { joined (engined [num h, num 0x20000, num 0x20040, num n]) with colls := [(3, group12 st false)] } fun x =>
        p (x.s.collOf x.eid (numOf (x.onceVals r) 1)) (numOf (x.onceVals r) 4)
    [1, 2, 15, 16].all (fun n => meets (s 0x20000 n) fun x => numOf (x.onceVals i) 1 == n && x.active (c 2) != [] && !x.windowDown false 0x20000 &&
      x.issueWaits 3 == false && decide (x.encl.handles.length < 65536) && (match x.s.locate (some x.unit) x.eid 0x20000 .engRead n with
        | .ok p => (localPieces p).isSome
        | .error _ => false)) = true ∧
    meets { s 0x40000000 2 with streams := [] } (fun x => x.windowDown false 0x40000000) = true ∧
    on .valid 6 1 (fun g _ => g.isNone) = true ∧
    [CollState.building, .invalid, .lost, .valid].all (fun st => on st 5 1 fun g n => n == 1 && g.any fun q => q.2.state == st) = true ∧
    on .valid 5 0 (fun g n => n == 0 && g.any fun q => q.2.state == .valid) = true ∧
    ([2].length + 1 = (group12 .building false).members.length ∧ (group12 .valid true).rekey = true) ∧
    2 ≠ (s 0 2).fabricF ∧ 2 ∈ (group12 .valid false).members := by decide +kernel

/-- XCTL on no bytes, on a non-canonical address, and one that is waited for and has completed. -/
theorem witness_CacheAndTranslationControl :
    let i := Instr.xctlInv (c 0) [v 0, v 1]
    let s := fun (a n : Nat) => (engined [num a, num n]).withProg [0xE4040000, 0, 1, 0x32000000] []
    meets (s 0x1000 0) (fun x => x.p.place == .core && numOf (x.onceVals i) 1 == 0) = true ∧
    meets (s 0x800000000000 4) (fun x => !canonical (argOf (x.onceVals i) 0).toBits) = true ∧
    meets (s 0x1000 4) (fun x => canonical (argOf (x.onceVals i) 0).toBits && x.s.xctls.isEmpty) = true ∧
    meets { s 0x1000 4 with xctls := [(0, 0)] } (fun x => x.here == some i && xctlForm i == some .inv && x.s.xctls.contains (0, 0)) = true := by
  decide +kernel

/-- A launch on the last queue and beyond it, and of a misaligned descriptor; a seal of either algorithm, of a third, of a
misaligned record, and with 32 open; an open handle and one that is not; each kind of counter and each end of the fields of a
monitor. -/
theorem witness_LaunchSealsAndCounters :
    let l := Instr.launch (c 1) [v 0, v 1]
    let s := fun (a d : Nat) => engined [num a, num d, num 64]
    let seals := fun (s : State) (k : Nat) => s.setLaunch 0 { s.launch 0 with seals := (List.range k).map fun h => (h, ⟨false, 0, [], false, none, []⟩) }
    let n := fun (x : Exe) i k => numOf (x.onceVals i) k
    meets (s 15 0x20000) (fun x => x.active (c 1) != [] && n x l 0 == 15 && n x l 1 % 128 == 0 && !x.windowDown false 0x20000 &&
      match x.s.accept (some x.unit) x.eid 15 0x20000 with
      | .ok _ => true
      | .error _ => false) = true ∧
    meets (s 16 0x20000) (fun x => n x l 0 == 16) = true ∧ meets (s 15 0x20040) (fun x => n x l 1 % 128 == 64) = true ∧
    [0, 1, 2].all (fun a => meets (s a 0x20000) fun x => n x (.sealOpen (c 1) [v 0, v 1]) 0 == a && n x (.sealOpen (c 1) [v 0, v 1]) 1 % 4096 == 0) = true ∧
    meets (s 0 0x20080) (fun x => n x (.sealOpen (c 1) [v 0, v 1]) 1 % 4096 != 0) = true ∧
    meets (seals (s 0 0x20000) 31) (fun x => x.launch.seals.length == 31) = true ∧ meets (seals (s 0 0x20000) 32) (fun x => x.launch.seals.length == 32) = true ∧
    meets (seals (s 30 0x20000) 31) (fun x => (x.launch.openSeal (n x (.sealAbsorb (c 1) .team [v 0, v 1, v 2]) 0)).isSome) = true ∧
    meets (seals (s 31 0x20000) 31) (fun x => (x.launch.openSeal (n x (.sealClose (c 0) [v 0]) 0)).isNone) = true ∧
    [0, 2, 3, 4, 5, 7, 8, 9, 10, 11, 15, 16, 18, 19].all (fun k => meets (s k 0) fun x => n x (.cntCtr (c 1) [v 0]) 0 == k) = true ∧
    [(0, 0), (6, 18), (7, 0), (6, 19), (1, 2), (5, 3)].all (fun q => meets (s q.1 q.2) fun x =>
      n x (.cntMon (c 1) [v 0, v 1]) 0 == q.1 && n x (.cntMon (c 1) [v 0, v 1]) 1 == q.2) = true := by decide +kernel

/-- Cut marks that arrive, wait for room, depart; a collective mark whose barrier is pending, has failed, and has completed; a
copy with room in the count and without; a drain; and a flight that is full, without a mark, and at a mark. -/
theorem witness_Cuttings :
    let i := Instr.cutMarkDy (c 1) [v 0, v 1]
    let cut : Cut := ⟨1, 0, none, 0x20000, 0x20800, 0, [], 64, 1, false, false, [], 0, false⟩
    let s := engined [num 1, num 0x20000]
    let staged := fun (s : State) (st : Stage) => s.withPath fun p => { p with stage := st }
    let full := { s with cuts := (List.range 4).map fun k => (10 + k, cut) }
    let op : EngOp := ⟨3, 0, 0, 0, 1, 0x51, 3, [], 0, 7, none, [], 0, [], 1, 0, 0, futOK, false, false, false, 0, [], 0, [], [], []⟩
    let joining := fun (s : State) (o : EngOp) => staged { s with ops := [(9, o)] } (.joining 9)
    let taken := fun (h : BitVec 32) => staged { s.setEncl 1 { s.encl 1 with h := h } with cuts := [(10, cut)] } (.cutting 10)
    let flight := fun (stage : Stage) => let s := staged s stage
      s.setLaunch 0 { s.launch 0 with flights := [((0, 1), [0])] }
    meets s (fun x => x.p.stage == .none && decide (numOf (x.onceVals i) 0 < x.launch.nflight) && !x.s.cutsFull x.eid (some (x.team.launch, x.die, 1))) = true ∧
    meets (engined [num 2, num 0]) (fun x => decide (x.launch.nflight ≤ numOf (x.onceVals i) 0)) = true ∧
    meets full (fun x => x.s.cutsFull x.eid none && x.s.cutsFull x.eid (some (x.team.launch, x.die, 1))) = true ∧
    meets (staged s (.cutting 10)) (fun x => x.p.stage == .cutting 10) = true ∧ meets (staged s .released) (fun x => x.p.stage == .released) = true ∧
    [futPending, futLinkKey, futOK].all (fun st => meets (joining s { op with status := st }) fun x => x.p.stage == .joining 9 &&
      x.encl.h != 0xFFFFFFFF && (mget x.s.ops 9).any fun o => o.status == st) = true ∧
    meets (joining full op) (fun x => x.s.cutsFull x.eid none) = true ∧
    [(0 : BitVec 32), 0xFFFFFFFE, 0xFFFFFFFF].all (fun h => (taken h).cutDue 10 cut && !(taken h).waiting (.cut 10) && match (taken h).takeCut 10 cut with
      | .ok u => ((mget u.cuts 10).any fun q => q.copied && q.refused == (h == 0xFFFFFFFF)) && (u.encl 1).h == (if h = 0xFFFFFFFF then h else h + 1)
      | .error _ => false) = true ∧
    [{ op with cls := 6, status := futPending }].all (fun o => (mget ([(9, o)] : List (Nat × EngOp)) 9).map EngOp.status == some futPending) = true ∧
    (flight .none).flightFull 0 0 1 = true ∧ (flight .none).cutBy 0 0 1 = none := by decide +kernel

/-! The package and its general cores. -/

/-- Reset with a management owner, a named successor, and the functions that partition 1 needs ready. -/
def owned : State :=
  { State.reset with
    mgmt := { State.reset.mgmt with owner := some 3, successor := some 4 }
    funcs := [(.hall 0, .ready), (.hall 1, .ready), (.hbm 0, .ready), (.hbm 1, .ready), (.net 0, .ready), (.net 1, .ready), (.cores, .ready)] }

theorem witness_ManagementOwnership :
    State.reset.mgmt.owner = none ∧ (9 : Nat) ≤ 9 ∧ (∀ n ∈ [9, 12], 9 ≤ n) ∧ owned.mgmt.owner = some 3 ∧ owned.mgmt.owner ≠ some 4 ∧
    owned.mgmt.successor = some 4 ∧ owned.mgmt.successor ≠ some 3 := by decide +kernel

/-- A function in training; a specification that is ready and free; a boot key under cores in reset and beside one that runs; an
image, whose signature verifies or does not; certificates, the last way mask, a fabric of 15, the last hall. -/
theorem witness_BringUpAndPartitions :
    let key : BootKey := ⟨true, [1, 2, 3]⟩
    let f : FormSpec := ⟨[0, 1, 2, 3], [1], [3], 1, some key, [(0xC000000, 16)]⟩
    let told := ({ owned with mgmt := { owned.mgmt with lastStatus := .ok } } : State)
    let formed := owned.setPart 1 { Part.empty with formed := true, cores := [0, 1, 2, 3], bootKey := some key }
    let runs := formed.setHart 2 { formed.hart 2 with inReset := false }
    owned.fnState (.hall 19) = .training ∧ (7 < 8 ∧ (owned.part 7).formed = false ∧ told.specReady f = true ∧ told.specFree f = true) ∧
    (formed.part 1).formed = true ∧ (formed.part 1).booted = false ∧ (∀ c ∈ (formed.part 1).cores, (formed.hart c).inReset = true) ∧
    (∃ c ∈ (runs.part 1).cores, (runs.hart c).inReset = false) ∧ ((owned.part 1).bootKey = none) ∧
    (∀ image sig, Config.bootVerifies key.mldsa key.bytes image sig = true ∨ ∀ k, (formed.part 1).bootKey = some k →
      Config.bootVerifies k.mldsa k.bytes image sig = false) ∧
    (14 < 15 ∧ 15 ≤ 15 ∧ ∀ q ∈ owned.parts, q.2.formed = false) ∧ (∀ q ∈ pagesAt 0x1000 3, owned.bootable 0 q = true) := by
  refine ⟨by decide +kernel, by decide +kernel, by decide +kernel, by decide +kernel, by decide +kernel, by decide +kernel, by decide +kernel, ?_,
    by decide +kernel, by decide +kernel⟩
  intro image sig
  rcases h : Config.bootVerifies true [1, 2, 3] image sig with _ | _
  · refine .inr fun k hk => ?_
    cases (Option.some.inj hk : (⟨true, [1, 2, 3]⟩ : BootKey) = k)
    exact h
  · exact .inl rfl

/-- General core 0 of partition 0, which runs in HS-mode, with a0 to a2. -/
def general (a1 a2 : Nat) : State :=
  let s := State.withPages (State.reset.withFetchWord 32 0x00C5850B)
  let s := { s with encls := mset s.encls 1 { s.encl 1 with state := .measured, part := 0, root := 16 }, turns := [] }
  s.setHart 0 { s.hart 0 with regs := [(11, BitVec.ofNat 64 a1), (12, BitVec.ofNat 64 a2)] }
/-- The same inside of enclave 1, as its thread 0. -/
def thread (a1 a2 : Nat) : State :=
  let s := general a1 a2
  s.setHart 0 { s.hart 0 with mode := .u, inside := some ⟨1, 0, 4096, 10, [(11, 5)], ⟨[], [], []⟩⟩ }

/-- A ring that is open and one that is not; heads at the edge of the ring and beyond; an invalidation under way and none, with
an access that it awaits and without; and GO. -/
theorem witness_RegisterPageWrites :
    let s := general 0 0
    let q := s.part 0
    let free := fun (s : State) => s.partOf 0 == some 0 && !(s.hart 0).inReset && (s.hart 0).inside.isNone && (s.hart 0).wait == .nothing
    let n : Inval := ⟨some 1, 0, none⟩
    let far : FarReq := ⟨.link 7, 1, .hart 0, 1, 0, 3, false, []⟩
    free s = true ∧ (s.part 0).fqBase.getLsbD 63 = false ∧ free (s.setPart 0 { q with fqBase := 0x8000000000000000 }) = true ∧
    (({ q with fqTail := 64 }).fqTail - BitVec.setWidth 32 (0 : BitVec 64)).toNat ≤ q.ringSize ∧
    q.ringSize < (({ q with fqTail := 65 }).fqTail - BitVec.setWidth 32 (0 : BitVec 64)).toNat ∧
    free (s.setPart 0 { q with inval := some n }) = true ∧ q.inval = none ∧ q.preemptGo = false ∧
    (BitVec.extractLsb' 16 2 (0x8000000000010001 : BitVec 64) = 1 ∧ BitVec.extractLsb' 16 2 (0x8000000000020001 : BitVec 64) = 2) ∧
    (s.enclIn 0 1).isSome = true ∧
    (∃ f ∈ ({ s with far := [(0, far)] } : State).far, (s.encl f.2.enclave).part = 0 ∧ (n.enclave = some f.2.enclave ∧ n.pages = none)) ∧
    s.far = [] := by decide +kernel

/-- Accesses of the operating system: of a frame that is its own, of one that is not, and of the last register. Accesses of a
thread: of memory, through a window that is up, and of an address that is not mapped. And a KICK of a zero descriptor, of a
misaligned one, and to a full queue. -/
theorem witness_GeneralCoreAccesses :
    let s := general 0 0
    let u := joined (thread 0 0)
    let full := u.setEncl 1 { u.encl 1 with queues := [(15, List.range 64)] }
    s.partOf 0 = some 0 ∧ (s.hart 0).inReset = false ∧ (s.hart 0).wait = .nothing ∧ (s.hart 0).inside = none ∧
    s.osCheck 0 false 0x10008 8 = .ok ∧ (∃ q ∈ pagesAt 0x20000 8, s.osPage 0 q = false) ∧ 0xFF8 < 4096 ∧ 0xFF8 % 8 = 0 ∧
    ((u.hart 0).inside.any fun n => n.enclave == 1) = true ∧ (u.hart 0).answer = none ∧
    (match u.locate none 1 0x20008 .load 8 with
      | .ok p => (localPieces p).isSome
      | .error _ => false) = true ∧
    (match u.locate none 1 0x40000000 .store 8 with
      | .ok p => (localPieces p).isNone && u.windowUp 1 (windowIn p) && !u.asked (.hart 0) && !u.windowWaits 1 (windowIn p)
      | .error _ => false) = true ∧
    (match u.locate none 1 0x80000000 .load 8 with
      | .ok _ => false
      | .error st => match st.found with
        | .fault _ => true
        | _ => false) = true ∧
    (match u.accept none 1 15 0x20000 with
      | .ok q => q.2 == 0
      | .error _ => false) = true ∧
    (match full.accept none 1 15 0x20000 with
      | .ok q => q.2 == 1
      | .error _ => false) = true ∧ BitVec.extractLsb' 0 7 (0x20040 : BitVec 64) ≠ 0 := by decide +kernel

/-- R7: the lowest class of a round takes the ownership. -/
theorem test_claim : goes (.managementClaim [5, 2, 9]) State.reset (fun t => t.mgmt.owner == some 2) = true := by decide +kernel
/-- R8: a write by another master than the owner is rejected. -/
theorem test_not_owner : goes (.managementWrite 5 0x10 7) owned (fun t => t.mgmt.lastStatus == .notOwner && t.mgmt.words.isEmpty) = true := by decide +kernel
/-- The register pages lie above 0xF0_0000_0000 (R20), wherever a partition's page is: an address below it, and the last register. -/
theorem witness_RegisterPage : (0x10008 : BitVec 64).toNat < Config.registerBase 0 ∧
    ∃ va : BitVec 64, va.toNat = Config.registerBase 0 + 0xFF8 := by
  have h : Config.registerBase 0 + 0xFF8 < 2 ^ 64 ∧ 0xF000000000 ≤ Config.registerBase 0 := by
    unfold Config.registerBase
    omega
  exact ⟨Nat.lt_of_lt_of_le (by decide) h.2, BitVec.ofNat 64 (Config.registerBase 0 + 0xFF8), by simpa using h.1⟩

/-- R52: a load of a thread from an address that is not mapped takes it out of its enclave, with a load page fault (cause 13). -/
theorem test_thread_fault : goes (.riscvLoadStore 0 0x80000000 (.load 8 false 10)) (thread 0 0) (fun t =>
    (t.hart 0).inside.isNone && (t.hart 0).mode == .hs && (t.hart 0).scause == 13 && (t.hart 0).stval == 0x80000000) = true := by decide +kernel

/-! Launches on halls. -/

/-- The state after an instruction or an event. -/
def after (i : Instr) (s : State) : State :=
  match exec i s with
  | .next t => t
  | .fault _ | .refused _ => s

/-- Launch 5 of enclave 1 at the head of queue 2, with its kernel translated on hall 0, whose turn is the enclave's. -/
def queued : State :=
  let s := (State.reset.withFetchWord 32 0).withCode true
  let l := s.launch 0
  let s := State.withPages { s with launches := [(0, { l with desc := l.desc.take 0x60 ++ leBytes 8 0x30000 ++ leBytes 4 0x8000 ++ l.desc.drop 0x6C })] }
  { s with
    turns := [], next := 6, teams := [], groups := [], launches := [(5, { s.launch 0 with phase := .queued, queue := 2 })]
    encls := mset s.encls 1 { s.encl 1 with queues := [(2, [5])] }, holders := [(0, 1, .holds)] }
/-- The same with the DEP 0 at a byte of page 32. -/
def depending (n : Nat) : State :=
  let s := queued
  s.setLaunch 5 { s.launch 5 with desc := (s.launch 5).desc.take 0x48 ++ leBytes 8 n ++ (s.launch 5).desc.drop 0x50 }

/-- Launch 5 dispatched; with its gang on hall 0; and with enclave 2 waiting for the hall, so that the end of the turn pre-empts it. -/
def dispatched : State := after (.launchDispatch 1) queued
def running : State := after (.gangPlace 5 0 0 0) dispatched
def contended : State :=
  { running with
    encls := mset running.encls 2 { running.encl 1 with queues := [(1, [7])] }
    launches := mset running.launches 7 { dispatched.launch 5 with enclave := 2, gangs := [(0, ⟨.waiting, 0, 0, 0, [], [], [], [], []⟩)] } }
def stopping : State := after (.turnDeficitExhausted 0 5000000) contended
/-- Its rake has collected the acknowledgements, and its frame is written. -/
def collected : State := after (.rakeAck 5 0 0) stopping
def saved : State := after (.rakeAck 5 0 0) collected

/-- Ready heads, and none; DEPs that are ready, not yet, failed; an abandoned completion; a placement, a restore; a turn that
starts and one that goes on; a deficit that is exhausted with and without another enclave waiting; acknowledgements; a handler's
hold; and retirement. -/
theorem witness_LaunchScheduling :
    let done := fun (n : Nat) (bs : List Byte) => let s := depending n
      { s with mem := writeBytes s.mem 0x20000 bs }
    let ready := fun (s : State) => (s.encl 1).heads.filter fun q => s.depsOf q.2 == .ready
    ready queued = [(2, 5)] ∧ (queued.graftStart 5 [0]).toOption.isSome = true ∧ dispatched.startFault 5 [0] = none ∧ dispatched.flightsFit 5 = true ∧
    ready (depending 0x20001) = [] ∧ (depending 0x20001).depsOf 5 = .waits ∧ (done 0x20001 [1, 0, 1]).depsOf 5 = .failed ∧
    (done 0x20000 [1, 0, 1]).depsOf 5 = .ready ∧ (queued.launch 5).phase = .queued ∧
    ((mget dispatched.launches 5).isSome = true ∧ dispatched.mayPlace 5 0 0 0 = true ∧ (dispatched.gang 5 0).state = .waiting) ∧
    (dispatched.planWith 5 0 0 0).isSome = true ∧ ((running.gang 5 0).state = .placed ∧ running.turnOf 0 = some 1) ∧
    (({ dispatched with holders := [(0, 1, .past)] } : State).turnOrder 0 1).head? = some 1 ∧ (mget running.holders 0) = some (1, .holds) ∧
    (let u := contended.elapse 0 5000000
     u.turnOf 0 = some 1 ∧ u.deficit 0 1 ≤ 0 ∧ u.enclIds.contains 2 = true ∧ u.awaits 0 2 = true) ∧
    (running.elapse 0 5000000).turnOf 0 = some 1 ∧ (running.enclIds.all fun d => d == 1 || !running.awaits 0 d) = true ∧
    ((stopping.gang 5 0).state = .stopping ∧ stopping.rakes.map (fun r => r.2.waits) = [1] ∧ stopping.busyUnits (stopping.gang 5 0).teams = 0) ∧
    (collected.rakes.map (fun r => r.2.waits) = [0] ∧ collected.cutPending 5 = false ∧ ((collected.gang 5 0).teams.foldlM State.saveTeam
      (((collected.gang 5 0).teams.map fun t => (collected.team t).core).foldl State.sweepTiles collected)).toOption.isSome = true) ∧
    (saved.gang 5 0).state = .saved ∧ ({ saved with holders := [(0, 1, .holds)] } : State).mayPlace 5 0 0 0 = true ∧
    (let l := running.launch 5
     let s := running.setLaunch 5 { l with gangs := l.gangs.map fun g => (g.1, { g.2 with state := .finished }) }
     (s.launch 5).phase = .dispatched ∧ (s.launch 5).gangs.length = 1 ∧ s.cuts = []) := by decide +kernel

/-! Frames, faults and the ends of enclaves. -/

/-- A line of the page 32 whose stored bits are of other keys than those of the frame's generation, which are gone. -/
def replayed : State :=
  let s := general 0 0
  { s.setPot 32 ⟨1, 32, 1, .owned, 9, 0, false, false⟩ with hbm := [(0x800, ⟨List.replicate 64 0, 7, 0, 1, []⟩)] }
/-- A record of partition 0, for a load or for a fatal fault, and its fault queue: closed, or at the page of a frame. -/
def recorded (kind : FaultKind) (base : BitVec 64) : State :=
  let s := general 0 0
  s.setPart 0 { s.part 0 with fqBase := base, recs := [(4, ⟨kind, false, 1, 8, .load, 1, 0, 0, 0x1000, none, 0, [], none⟩)] }
/-- A page on its way out to slot 0xC000005, with its image for a buffer at page 16. -/
def outgoing : State :=
  let s := general 0 0
  { s.setPot 32 ⟨1, 32, 1, .moving, 0, 0, false, false⟩ with moves := [(32, .out 0xC000005 0x10000 6 0 10), (33, .free)] }

/-- A line that is searched, without stored bits of its own and with such; a line that is damaged, and one that is fine, copied,
or of a frame that waits to be scrubbed; the head of the queue of partition 0, beside a carve-out that is sound and one that is
not; a wait for the clean pool that a frame ends, of one that is next and of one that is not, and an empty pool. -/
theorem witness_FramesAndFaults :
    let s := general 0 0
    let q := s.part 0
    let search : State := { replayed with searches := [0x800] }
    let copied : State := { replayed with coreLines := [⟨0, 0x800, 1, false⟩] }
    let scrub := s.setPart 0 { q with scrub := [(0, 0), (0x40, 2)] }
    let pool : List Nat → List Nat → Nat → State := fun l waits n =>
      { (s.setHart 0 { s.hart 0 with wait := .pool }).setPart 0 { q with cores := [0, 3], pool := l, scrub := [(0, n)], extIrq := [0] } with poolWaits := waits }
    (({ s with searches := [0x800] } : State).searches = [0x800] ∧ mget s.hbm 0x800 = none) ∧
    (search.searches = [0x800] ∧ (mget search.hbm 0x800).isSome = true) ∧
    ((replayed.potOf 32).state = .owned ∧ replayed.l2 = [] ∧ replayed.coreLines = [] ∧ replayed.lineState 0x800 = .damaged) ∧
    s.lineState 0x800 = .fine ∧ (∃ c ∈ copied.coreLines, c.line = 0x800) ∧ (s.potOf 0x2000000).state ≠ .owned ∧
    (scrubHead (scrub.part 0).scrub = some (0x40, [(0x41, 1)]) ∧ scrub.mgmt.rootIntegrity = false ∧ scrub.carveBad = false ∧
      ({ scrub with carve := [(0xBE00000 * 64, ⟨1, []⟩)] } : State).carveBad = true) ∧
    ((pool [0x40] [0] 0).partOf 0 = some 0 ∧ ((pool [0x40] [0] 0).hart 0).wait = .pool ∧ (pool [0x40] [0] 0).drawsNext ((pool [0x40] [0] 0).part 0) 0 = true ∧
      (pool [0x40] [3, 0] 0).drawsNext ((pool [0x40] [3, 0] 0).part 0) 0 = false ∧ 0 ∈ ((pool [] [0] 0).part 0).extIrq ∧
      scrubLen ((pool [] [0] 0).part 0).scrub = 0 ∧ scrubLen ((pool [] [0] 2).part 0).scrub ≠ 0) := by decide +kernel
/-- Frames on their way, with lines that are searched or poisoned; a walk that is new, one too many, and one that ends at a
leaf; and a record at an open ring and at none. -/
theorem witness_FramesAndFaults_moves :
    let s := general 0 0
    let walk := (0, 1, 32)
    let walking : State := { s with walks := [walk] }
    let free := fun (r : FaultKind) => recorded r 0x8000000000010000
    (mget outgoing.moves 33 = some .free ∧ mget outgoing.moves 32 = some (.out 0xC000005 0x10000 6 0 10)) ∧
    (({ outgoing with searches := [0x801] } : State).searched (32 * 4096) 4096 = true ∧ outgoing.searched (32 * 4096) 4096 = false ∧
      outgoing.searched 0x10000 imageLen = false ∧
      (({ outgoing with lineMask := [(32, 2)] } : State).settle false (32 * 4096) 4096).masked (32 * 4096) 4096 = true ∧
      (outgoing.settle false (32 * 4096) 4096).masked (32 * 4096) 4096 = false ∧
      ((outgoing.settle false (32 * 4096) 4096).settle true 0x10000 imageLen).masked 0x10000 imageLen = false) ∧
    (canonical 0x20000 = true ∧ (s.encl 1).state = .measured ∧ 0 ∈ (s.part 0).halls ∧ walk ∉ s.walks ∧ walk ∈ walking.walks ∧
      16 ≤ (List.replicate 16 (0, 1, 33)).length ∧ (match walking.walkFrom (s.encl 1).part 0x20000 4 ((s.encl 1).root.toNat * 4096) 1 with
        | .leaf l => match walking.checkLeaf 1 0x20000 .load 1 l with
          | .ok _ m => l == m
          | _ => false
        | _ => false) = true) ∧
    ((((free .notPresent).part 0).recs.find? fun r => r.2.seq.isNone).isSome = true ∧ (free .notPresent).osFrame 0 16 = true ∧
      (free .notPresent).masked 0x10000 32 = false ∧ (free .notPresent).linesState true 0x10000 32 = .fine ∧
      FaultKind.notPresent.fatal = false ∧ FaultKind.potMismatch.fatal = true ∧
      ((recorded .notPresent 0).part 0).fqBase.getLsbD 63 = false ∧ s.osFrame 0 32 = false) := by decide +kernel

/-- An enclave in DYING with no frame, and one that a frame in MOVING keeps; a general core inside of an enclave. -/
theorem witness_EnclaveEnds :
    let dying := fun (st : PotState) =>
      let s := general 0 0
      { s with encls := mset s.encls 1 { s.encl 1 with state := .dying }, pot := [(32, ⟨0, 32, 1, st, 0, 0, false, false⟩)] }
    (((dying .scrubbing).encl 1).state = .dying ∧ ∀ q ∈ (dying .scrubbing).pot, q.2.owner.toNat = 1 →
      q.2.state ≠ .moving ∧ q.2.state ≠ .paged ∧ q.2.state ≠ .owned) ∧
    (∃ q ∈ (dying .moving).pot, q.2.owner.toNat = 1 ∧ q.2.state = .moving) ∧ ((general 0 0).encl 1).state ≠ .dying ∧
    ((thread 0 0).hart 0).inside = some ⟨1, 0, 4096, 10, [(11, 5)], ⟨[], [], []⟩⟩ := by decide +kernel

/-- R28: an enclave without a frame returns to NONE. -/
theorem test_enclave_release : goes (.enclaveRelease 1)
    (let s := general 0 0
     { s with encls := mset s.encls 1 { s.encl 1 with state := .dying }, pot := [] }) (fun t => (t.encl 1).state == .none) = true := by decide +kernel
/-- R390: a timer interrupt (cause 5) takes the thread out, with the registers that the operating system had. -/
theorem test_thread_interrupt : goes (.enclaveThreadInterrupt 0 5) (thread 0 0) (fun t =>
    (t.hart 0).inside.isNone && (t.hart 0).regs == [(11, 5)] && (t.hart 0).sepc == 4096 && (t.hart 0).scause == 0x8000000000000005) = true := by
  decide +kernel

/-! Progress of engines, of ejected paths and of translations. -/

/-- A pending operation of the team, of this class and form, with these of its one granule landed. -/
def pendingOp (cls sub : Nat) (landed : List Nat) (cancel : Bool) : EngOp :=
  ⟨cls, 0, 0, 0, 1, 0x4A, sub, [], 0, 2, none, [], 0, landed, 1, 0, 0, futPending, cancel, false, false, 0, [], landed.length, [], [], []⟩
/-- A state with it as operation 5. -/
def working (o : EngOp) : State :=
  let s := engined []
  { s.setTeam 0 { s.team 0 with slots := [(0, ⟨1, futPending, 5⟩)], issues := 1 } with ops := [(5, o)] }
/-- A building of a function of 88 bytes at page 32. -/
def grafting (marked : Bool) : State :=
  let s := (engined []).withCode false
  { s with objs := [(0, ⟨true, 1, 0, [⟨0x20000, 88, 8, 0, 0, 0, 16⟩], [], [], [], none⟩)], building := [(3, ⟨1, 0, 0, 16, 32, 0, marked⟩)] }

/-- A granule that may land, of every class, with its core's arrays sound or not; one that has landed; and operations that are
done, cancelled and not done. -/
theorem witness_EnginesAndTranslations :
    let lands := fun (o : EngOp) =>
      let s := working o
      let q := (s.beginRows 5 o).2
      q.status == futPending && decide (0 < q.total) && !q.did 0 && (s.team q.team).resident && !s.waiting (.eng 5) && !q.cancel &&
        !s.coreStalled (s.team q.team).core && !s.replayLater (s.team q.team).core (.eng 5) && s.coreErrs.isEmpty && decide (o.rows.length = numOf o.vals 3)
    [(0, 0), (0, 4), (1, 0), (1, 1), (2, 0), (3, 1), (4, 0)].all (fun q => lands (pendingOp q.1 q.2 [] false)) = true ∧
    (pendingOp 0 0 [0] false).did 0 = true ∧ (pendingOp 0 0 [] true).cancel = true ∧ { pendingOp 0 0 [] false with status := futOK }.status ≠ futPending ∧
    (working (pendingOp 2 0 [0] false)).mayRun 5 (pendingOp 2 0 [0] false) = true ∧
    (0 < { pendingOp 0 0 [] true with started := 1 }.started ∧ { pendingOp 0 0 [] true with started := 1 }.did 0 = false) := by decide +kernel
/-- A path in every stage of an ejection, within a handler and without, with and without a trap that it owes and room for its
recall. -/
theorem witness_EnginesAndTranslations_paths :
    let away := fun (place : Place) (owed : Option TrapInfo) => (stand [.i32] [[1]]).withPath fun p => { p with place := place, owed := owed, pend := [7] }
    let trap : TrapInfo := ⟨0x10, 1, 0, []⟩
    let full := fun (s : State) => State.withGroup s fun g => { g with ctx := { g.ctx with
      stack := List.replicate 32 (pending 4 []), paths := g.ctx.paths ++ [(1, Path.start 0 2 0 [] none .core), (2, Path.start 0 2 0 [] none .core)] } }
    let held := fun (s : State) => State.withGroup s fun g => { g with handler := some (handling 1 g.ctx) }
    let place : State → Place × Bool × Option TrapInfo × Bool → Bool := fun s q =>
      (s.exeOf 0 0).any fun x => x.p.place == q.1 && x.g.ctx.recallOverflows == q.2.1 && x.p.owed == q.2.2.1 && x.g.handler.isSome == q.2.2.2
    place (away (.handing 3) none) (.handing 3, false, none, false) = true ∧ place (held (away .core none)) (.core, false, none, true) = true ∧
    place (away (.copying 3) none) (.copying 3, false, none, false) = true ∧
    ((State.withGroup (away (.copying 3) none) fun g => { g with ctx := { g.ctx with recs := [landing 7 3 1] } }).exeOf 0 0).any (fun x =>
      (x.p.pend.head?.bind x.g.ctx.rcd).isSome) = true ∧
    place (away (.recalling 32) none) (.recalling 32, false, none, false) = true ∧
    place (away (.recalling 3) (some trap)) (.recalling 3, false, some trap, false) = true ∧
    place (full (away (.recalling 3) none)) (.recalling 3, true, none, false) = true := by decide +kernel
/-- A landing timer, with a watchdog and without; and a translation that is marked and one that is not. -/
theorem witness_EnginesAndTranslations_timers :
    let timed := fun (w : Nat) => State.withGroup ((branch [1, 0] 0).withDesc 0x26 1 w) fun g => { g with ctx := { g.ctx with
      recs := [{ landing 7 3 1 with timer := true }] } }
    (let g := (timed 0).group 0
     (g.ctx.rcd 7).any (·.timer) = true ∧ g.handler = none ∧ g.stopped = false ∧ ((timed 0).launch (((timed 0).team g.team).launch)).watchdog = false ∧
     ((timed 1).launch (((timed 1).team g.team).launch)).watchdog = true) ∧
    (let s := grafting false
     (s.building.filter fun b => b.2.enclave == 1 && b.2.fn == 0 && b.2.width == 16 && b.2.budget == 32 &&
       ((mget s.objs b.2.obj).map CodeObj.header) == some 0).length = 1 ∧ (s.fnEntry 0 0).isSome = true ∧
     (s.hwTake (some (hallTlb 0)) 1 0x20000 .code 88).toOption.isSome = true ∧ s.findTrans 1 0 0 16 32 0 = none ∧
     (grafting true).building.any (·.2.marked) = true) := by decide +kernel

/-! Links and streams. -/

/-- The package with stream 7 of enclave 1 to package 2 (next number 9), an access of general core 0 in flight on it, collective
group 3, and a device interface. -/
def linked : State :=
  let s := joined (general 0 0)
  { s with
    far := [(4, ⟨.link 7, 5, .hart 0, 1, 0, 64, false, []⟩), (6, ⟨.ide 2, 0, .hart 0, 1, 0, 64, false, []⟩)], colls := [(3, group12 .valid false)]
    ides := [(2, ⟨1, .up, true, []⟩), (3, ⟨1, .down, true, []⟩), (4, ⟨1, .up, false, []⟩)], funcs := [(.link 0, .ready), (.pcie, .ready)] }
/-- A flit of this kind and number, which reads at this physical address, or names this number. -/
def flit (kind seq va : Nat) : Flit := ⟨7, kind, 0, 8, seq, [], 0, true, false, BitVec.ofNat 64 va, [1, 2, 3, 4, 5, 6, 7, 8], none⟩
/-- The first outgoing number of a stream, the state of it, and its retries, changed. -/
def streamed (st : StreamState) (tx retries : Nat) : State := { linked with streams := [(7, ⟨1, 2, 0, st, 0, tx, 9, retries, false, (3, 16), 0, 77⟩)] }

/-- The tag of a flit can be right, and can be wrong, whatever the keys are (R157). -/
theorem witness_LinksAndStreams_tags (f : Flit) : ∃ t u : BitVec 128, ∀ q, mget linked.streams 7 = some q →
    linked.tagOk q { f with tag := t } = true ∧ linked.tagOk q { f with tag := u } = false := by
  obtain ⟨q, hq⟩ : ∃ q, mget linked.streams 7 = some q := ⟨_, rfl⟩
  let g := gcmTag (Config.keyBits q.key) (flitNonce f.stream f.keygen q.peer linked.fabricF f.seq) f.head f.payload
  refine ⟨g, g + 1, fun r hr => ?_⟩
  cases hq.symm.trans hr
  refine ⟨beq_self_eq_true g, beq_eq_false_iff_ne.mpr fun h => ?_⟩
  change g + 1 = g at h
  bv_omega

/-- A request in its turn for a frame of the enclave, for one that is not its own, and for one in MOVING; a stream whose
outgoing numbers are spent; a response to an access that waits; a contribution to a group, and a notice to one that is built;
and flits out of turn. -/
theorem witness_LinksAndStreams :
    let s := linked
    let is : State → StreamState → Bool → Bool := fun s st spent => (mget s.streams 7).any fun t =>
      t.state == st && t.keygen == 0 && t.rx == 9 && t.retries == 0 && t.spent == spent
    let moving := s.setPot 32 ⟨1, 32, 1, .moving, 0, 0, false, false⟩
    (is s .up false = true ∧ (flit 1 9 0x20000).crcOk = true) ∧ is (streamed .up (2 ^ 40) 0) .up true = true ∧
    ((pagesAt 0x20000 8).all (fun p => s.farPage 1 p true && (s.potOf p).state != .moving) = true ∧ s.linesState true 0x20000 8 = .fine) ∧
    (pagesAt 0x10000 8).any (fun p => !s.farPage 1 p false) = true ∧ (pagesAt 0x20000 8).any (fun p => (moving.potOf p).state == .moving) = true ∧
    ((s.far.find? fun q => q.2.via == .link 7 && q.2.seq == (flit 2 9 5).va.toNat).isSome = true) ∧
    ((mget s.colls 3).any fun g => g.enclave == 1 && g.members.contains 2 && g.state == .valid) = true ∧
    ((group12 .building false).state = .building ∧ noticeStatus 4 = some futCancelled ∧ noticeStatus 1 = none) ∧
    is (streamed .down 5 0) .down false = true ∧ (8 < 9 ∧ 9 < 10 ∧ (1 : BitVec 8) ≠ 0) := by decide +kernel

/-- A stream that is torn down while another is up, and alone; a port with 16 retries, of either kind, and with 15; keying of a
new stream, of one that is in flight, and of one in KEYING; the peers that are refused; and a device interface in and out of
RUN, with a page that it may write. -/
theorem witness_LinksAndStreams_life :
    let s := linked
    let two : State := { s with streams := s.streams ++ [(8, ⟨1, 2, 1, .up, 0, 0, 0, 0, false, (0, 0), 0, 78⟩)] }
    let down := fun (s : State) => (mget s.streams 7).bind fun t =>
      ((s.setStream 7 { t with state := .down, retries := 0, tagFailed := false, asked := (0, 0) }).cutWork 1 (.link 7)).streamUp 1 2
    down two = some 8 ∧ down s = none ∧ (streamed .up 5 0).streams.any (fun t => t.2.port == 0 && t.2.state != .down && decide (16 ≤ t.2.asked.2)) = true ∧
    (streamed .up 5 16).streams.any (fun t => decide (16 ≤ t.2.retries)) = true ∧
    s.streams.all (fun t => decide (t.2.retries < 16) && decide (t.2.asked.2 < 16)) = true ∧
    (s.peerOk 1 2 3 55 = true ∧ s.readyPorts = [0] ∧ mget s.streams 9 = none ∧ s.streams.length < 1024) ∧
    ((mget s.streams 7).any fun t => s.inFlight 7 t) = true ∧
    ((mget s.streams 7).any fun t => !({ s with far := [], colls := [] } : State).inFlight 7 t) = true ∧
    ((mget (streamed .keying 0 0).streams 7).any fun t => t.state == .keying && t.enclave == 1 && t.peer == 2) = true ∧
    (4 ≠ s.fabricP ∧ 1 = s.fabricF ∧ (∃ q ∈ [((2 : Nat), (54 : Nat))], q.1 = 2 ∧ q.2 ≠ 55) ∧ ∃ q ∈ [((5 : Nat), (55 : Nat))], q.1 ≠ 2 ∧ q.2 = 55) ∧
    (s.ides.map fun q => (q.2.state, q.2.run)) = [(.up, true), (.down, true), (.up, false)] ∧
    (pageRuns (8 / 4096 + 2) 0x20000 8).all (fun r => match s.translate none 1 r.1 .store r.2 with
      | .ok .. => true
      | _ => false) = true ∧
    ((s.encl 1).state = .measured ∧ s.fnState .pcie = .ready) ∧ (s.far.map fun q => q.2.via) = [.link 7, .ide 2] := by decide +kernel

/-! The custom-0 instructions of general cores. -/

/-- A general core may execute a custom-0 instruction. -/
def mayAct (s : State) : Bool :=
  s.partOf s.curHart == some 0 && (s.hart s.curHart).inReset == false && (s.hart s.curHart).wait == .nothing && s.mgmt.rootIntegrity == false &&
    s.moves.all (fun m => m.2 == .free) && s.carveBad == false && s.requests.head?.all (· == s.curHart)
/-- The operating system's core, with a1 and a2, and enclave 1 changed. -/
def system (a1 a2 : Nat) (f : Enclave → Enclave) : State :=
  let s := general a1 a2
  s.setEncl 1 (f (s.encl 1))
/-- The same in another mode. -/
def inMode (m : HartMode) : State :=
  let s := general 0 0
  s.setHart 0 { s.hart 0 with mode := m }
/-- The partition's clean pool and scrub queue, changed. -/
def pooled (s : State) (pool : List Nat) (n : Nat) : State := s.setPart 0 { s.part 0 with pool := pool, scrub := [(0x200, n)] }

theorem mayAct_free {s : State} (h : mayAct s = true) : s.HartFree 0 := by
  simp only [mayAct, Bool.and_eq_true, beq_iff_eq, List.all_eq_true, Option.all_eq_true] at h
  obtain ⟨⟨⟨⟨⟨⟨h1, h2⟩, h3⟩, h4⟩, h5⟩, h6⟩, h7⟩ := h
  exact ⟨h1, h2, h3, h4, h5, h6, fun k hk => by simpa using h7 k hk⟩

/-- HS-mode, each other mode, and inside of an enclave. -/
theorem witness_CustomInstructionModes :
    mayAct (general 0 0) = true ∧ ((general 0 0).hart 0).inside = none ∧ ((general 0 0).hart 0).mode = .hs ∧
    [HartMode.u, .vs, .vu].all (fun m => mayAct (inMode m) && ((inMode m).hart 0).mode != .hs && ((inMode m).hart 0).inside.isNone) = true ∧
    mayAct (thread 0 0) = true ∧ ((thread 0 0).hart 0).inside.isSome = true := by decide +kernel

/-- ENC.CREATE: reserved bits, no key slot, a root that is not the system's, reserved bits of rs2, and all good. ENC.ADDPAGE,
with an enclave in BUILDING: a reserved bit, a wrong source, a page that is held, the last value of H, and a clean frame.
ENC.ENTER of a thread that is dead, and that is inside; and ENC.DESTROY of an inhabited enclave. -/
theorem witness_EnclaveInstructions :
    let ok := fun (s : State) => mayAct s && (s.hart 0).inside.isNone && (s.hart 0).mode == .hs
    let slots := { general 0x10 0 with encls := numbered 4095 fun k => { (general 0 0).encl 1 with keySlot := k + 1 } }
    let build := system (2 ^ 48 + 0x10) 0x1000 fun e => { e with state := .building }
    let n := fun (s : State) => (s.enclIn 0 1).isSome
    [general (2 ^ 40) 0, general 0x20 0, general 0x10 1, general 0x10 0].all ok = true ∧
    (slots.encls.map (fun q => q.2.keySlot) == (List.range 4095).map (· + 1) && ok slots) = true ∧
    ((general 0x10 0).osFrame 0 0x10 = true ∧ (general 0x20 0).osFrame 0 0x20 = false ∧ ((general 0x10 0).encls.all fun q => q.2.keySlot != 1) = true) ∧
    (ok build && n build && !build.vpnHeld 1 0x1000 && build.vpnHeld 1 32 && build.osFrame 0 0x10 && !(build.potOf 0x10).poison &&
      !build.searched 0x10000 4096 && !(build.settle false 0x10000 4096).masked 0x10000 4096) = true ∧
    (let s := pooled build [0x40] 0
     (s.part 0).pool = [0x40] ∧ s.drawsNext (s.part 0) 0 = true ∧ ((s.encl 1).h.toNat ≠ 0xFFFFFFFF)) ∧
    ((system 1 0 fun e => { e with h := 0xFFFFFFFF }).encl 1).h.toNat = 0xFFFFFFFF ∧ (general 9 0).enclIn 0 9 = none ∧
    ((({ general 0 0 with } : State).encl 1).setThread 63 ⟨true, true, [], 0, ⟨[], [], []⟩⟩).thread 63 = ⟨true, true, [], 0, ⟨[], [], []⟩⟩ ∧
    ((thread 0 0).harts.any fun q => q.2.inside.any fun k => k.enclave == 1 && k.thread == 0) = true ∧
    (general 1 0).inhabited 1 = false ∧ (thread 1 0).inhabited 1 = true := by decide +kernel

/-- Inside of an enclave: ENC.EXIT with reserved bits and without; a report with reserved bits, with frames of an older
generation, and with the two ranges in memory; and XCTL on a range that is not canonical, that is empty, and that is not. -/
theorem witness_EnclaveInstructions_thread :
    let old := thread 0x20000 0x30000
    let old := (old.setEncl 1 { old.encl 1 with gen := 1 }).setPot 33 ⟨1, 33, 1, .owned, 0, 0, false, false⟩
    let inside := fun (s : State) => mayAct s && ((s.hart 0).inside.any fun n => n.enclave == 1)
    let lies := fun (s : State) a k n => match s.locate none 1 a k n with
      | .ok p => (localPieces p).isSome
      | .error _ => false
    [thread (2 ^ 48) 0, thread 7 0, thread 2 0, thread 0x20000 0x30000, thread 0x800000000000 0, thread 0x1000 0, thread 0x1000 4, old].all inside = true ∧
    old.oldFrames 1 = true ∧ (thread 0x20000 0x30000).oldFrames 1 = false ∧
    (lies (thread 0 0) 0x20000 .load 64 && lies (thread 0 0) 0x30000 .store 4096) = true ∧ canonical 0x800000000000 = false ∧ canonical 0x1000 = true ∧
    (let s := thread 0x1000 4
     (s.xctl 1 [0] none (s.formsOf 1) (0x1000, 4) .inv).toOption.isSome = true) := by decide +kernel

/-- PAGE.OUT of a frame: reserved bits, of a frame of another partition, of one that is not OWNED, or of no enclave; with a slot
that is taken, a buffer that is misaligned; poisoned, at the last H, and good. PAGE.IN, clean: reserved bits; a frame for the
system; an empty pool. PAGE.FREE in each state; and fault records that are open and that do not exist. -/
theorem witness_PagingAndFaultInstructions :
    let ok := fun (s : State) => mayAct s && (s.hart 0).inside.isNone && (s.hart 0).mode == .hs
    let st := fun (s : State) f => (s.potOf f).state
    let out := general (0xC000005 * 2 ^ 28 + 32) 0x10000
    let wide := out.setPot 17 ⟨0, 17, 0, .owned, 0, 0, false, false⟩
    let rec_ := fun (nc : Bool) => out.setPart 0 { out.part 0 with recs := [(4, ⟨.notPresent, nc, 1, 8, .load, 1, 0, 0, 0x1000, some 1, 0, [], none⟩)] }
    (ok out && ok (general (2 ^ 56) 0) && st out 32 == .owned && st out 0x40 == .scrubbing && (out.potOf 16).owner == 0 &&
      st out 0xC000005 == .free && (out.potOf 32).part == 0 && ((out.setPot 32 ⟨1, 32, 1, .owned, 0, 3, false, false⟩).potOf 32).part != 0) = true ∧
    (wide.bufferOk 0 0x10000 && !wide.bufferOk 0 0x10008 && !(wide.potOf 32).poison && decide ((wide.encl 1).h.toNat ≠ 0xFFFFFFFF)) = true ∧
    ((pooled (general 0 0) [0x40] 0).part 0).pool = [0x40] ∧ scrubLen ((pooled (general 0 0) [] 0).part 0).scrub = 0 ∧
    scrubLen ((pooled (general 0 0) [] 2).part 0).scrub = 2 ∧ ok (general (2 ^ 16) 0) = true ∧
    [PotState.paged, .owned, .sharedRo, .moving, .scrubbing].all (fun q => st (out.setPot 32 ⟨1, 32, 1, q, 0, 0, false, false⟩) 32 == q) = true ∧
    ((out.part 0).recNo 1).isNone = true ∧ [true, false].all (fun nc => ((rec_ nc).part 0).recNo 1 |>.any fun r => r.2.nc == nc) = true := by decide +kernel

/-- An image of a page, whatever the key is, is whole, of its slot and current (R57, R59). -/
theorem witness_PagingAndFaultInstructions_image (key : BitVec 256) (meas : Bool) (plain : List Byte) (hp : plain.length = 4096) :
    let se : PotEntry := ⟨6, 32, 1, .paged, 0, 0, meas, false⟩
    imageStatus key se (imageOf key 1 32 6 meas plain) = 0 ∧ imageNames se (imageHeader 1 32 6 meas) = true := by
  have h32 : (imageHeader 1 32 6 meas).length = 32 := by cases meas <;> rfl
  have hc : ∀ n, (gcmCrypt key n plain).length = 4096 := fun n => by simpa [gcmCrypt] using hp
  refine ⟨?_, by cases meas <;> decide +kernel⟩
  have hh : (imageOf key 1 32 6 meas plain).take 32 = imageHeader 1 32 6 meas := by simp [imageOf, h32]
  have hb : ∀ off n, off + n ≤ 32 →
      fieldAt (imageOf key 1 32 6 meas plain) off n = fieldAt (imageHeader 1 32 6 meas) off n := by
    intro off n h
    rw [← hh]
    simp only [fieldAt, List.drop_take, List.take_take]
    rw [Nat.min_eq_left (by omega)]
  have hd : ((imageOf key 1 32 6 meas plain).drop 32).take 4096 = gcmCrypt key (imageNonce 1 32 6) plain := by
    simp [imageOf, h32, hc]
  have ht : (imageOf key 1 32 6 meas plain).drop 0x1020 =
      bvBytes 16 (gcmTag key (imageNonce 1 32 6) (imageHeader 1 32 6 meas) (gcmCrypt key (imageNonce 1 32 6) plain)) := by
    rw [show (0x1020 : Nat) = (imageHeader 1 32 6 meas ++ gcmCrypt key (imageNonce 1 32 6) plain).length by rw [List.length_append, h32, hc]]
    exact List.drop_left
  have f2 : fieldAt (imageHeader 1 32 6 meas) 6 2 = 1 := by cases meas <;> rfl
  have f3 : fieldAt (imageHeader 1 32 6 meas) 8 8 = 32 := by cases meas <;> rfl
  have f4 : fieldAt (imageHeader 1 32 6 meas) 0x10 4 = 6 := by cases meas <;> rfl
  unfold imageStatus
  simp only [hh, hd, ht, hb 6 2 (by decide), hb 8 8 (by decide), hb 0x10 4 (by decide), f2, f3, f4, ne_eq, not_true_eq_false, if_false]
  rfl

/-! Encoding, fetching, memory and operands. -/

/-- An instruction with a key of the tables, a stub, and a custom-0 instruction, each well-formed; and words that decode. -/
theorem witness_DecodingAndEncodingAgree :
    let i := Instr.iadd (c 1) .wrap .i32 [v 1, v 2]
    let stub := Instr.reservedMajorStub 0x78 0 (c 1) 0 0 []
    (i.check = none ∧ i.key ≠ none) ∧ stub.check = none ∧ (Instr.encCreate 10 11 12).custom.isSome = true ∧
    decode [0xF0004000] = (.ok stub, []) := by decide +kernel

/-- An event's turn; a path that is ready, on a core whose arrays are sound and not, with no spill, and one that another's
access keeps waiting; a general core before a custom-0 word, before another word, before a word of no instruction, in reset, and
at an address that is not the system's. -/
theorem witness_StepRunsTheInstruction :
    let s := State.reset.withFetchWord 32 0x32000000
    let core : Nat → State := fun w => { State.reset.withFetchWord 32 0x00C5850B with mem := writeBytes State.reset.mem 4096 (leBytes 4 w) }
    let fetched := fun (s : State) (p : Word → Bool) => match s.hartFetch 0 0 with
      | .ok q => p q.2
      | .error _ => false
    let exe := fun (s : State) (p : Exe → Bool) => ({ s with cur := some (0, 0) } : State).exe?.any p
    (State.reset.turns = [] ∧ State.reset.cur = none ∧ s.turns.head? = some (.path 0 0) ∧ s.ready 0 0 = true ∧ 0 ∉ s.coreErrs) ∧
    ((Instr.hallTlbWalk 0 1 0).isEvent = true ∧ (Instr.nop (c 0) []).isEvent = false) ∧
    exe s (fun x => x.spillBytes == 0 && (decode (x.tr.words.drop (x.tr.offset x.p.pc))).1 == .ok (.exit (c 0) [])) = true ∧
    exe (State.reset.withFetchWord 32 0x33F00000) (fun x =>
      (decode (x.tr.words.drop (x.tr.offset x.p.pc))).1 == .illegal (Head.ofWord 0x33F00000)) = true ∧
    ({ s with moving := [(0, 0)] } : State).ready 0 0 = false ∧
    (s.partOf 0 = some 0 ∧ ((core 0x13).hart 0).inReset = false ∧ ((core 0x13).hart 0).wait = .nothing) ∧
    fetched (core 0x00C5850B) (fun w => isCustomWord w.toNat && (decodeCustom w).isSome) = true ∧
    fetched (core 0x13) (fun w => !isCustomWord w.toNat) = true ∧
    fetched (core 0x04C5850B) (fun w => isCustomWord w.toNat && (decodeCustom w).isNone) = true ∧
    (match ((core 0).setHart 0 { (core 0).hart 0 with pc := 0x20000 }).hartFetch 0 0 with
      | .ok _ => false
      | .error _ => true) = true ∧ (State.reset.hart 0).inReset = true ∧ State.reset.partOf 0 = none := by decide +kernel

/-- R267: the path's step executes EXIT, which leaves no lane. -/
theorem test_step_exit : (match step (State.reset.withFetchWord 32 0x32000000) with
    | .next t => t.turns.isEmpty && t.free == 1
    | _ => false) = true := by decide +kernel
/-- R387: ENC.CREATE of a reserved bit of rs1 completes with BAD_OPERAND in the upper 16 bits of rd. -/
theorem test_step_custom : (match step (let s := State.reset.withFetchWord 32 0x00C5850B
      s.setHart 0 { s.hart 0 with regs := [(11, 2 ^ 40)] }) with
    | .next t => (t.hart 0).reg 10 == 0x15000000000000 && (t.hart 0).pc == 4100
    | _ => false) = true := by decide +kernel

/-- Reset, from which a step goes on; and two memories in canonical form that read alike, of which none lists a byte that reads
as unwritten ones do. -/
theorem witness_MemoryStaysCanonical : State.reset.memOk = true ∧ (match step State.reset with
    | .next _ => true
    | _ => false) = true ∧ (general 0 0).memOk = true := by decide +kernel
theorem witness_CanonicalMemoriesAreUnique :
    let x := writeBytes (writeBytes [] 5 [7]) 3 [9]
    let y := writeBytes (writeBytes (writeBytes [] 3 [9]) 9 [1]) 4 [0, 7, 0, 0, 0, 0]
    Memory.wf x = true ∧ Memory.wf y = true ∧ (∀ a < 16, readByte x a = readByte y a) ∧ x = y := by decide +kernel

/-- R36 to R38: the last frame that can be allocated, the ends of the carve-out, and the first slot. -/
theorem test_reset_pot : (State.reset.potOf 0xBDFFFFF).state = .scrubbing ∧ (State.reset.potOf 0xBE00000).state = .fixed ∧
    (State.reset.potOf 0xBFFFFFF).state = .fixed ∧ (State.reset.potOf 0xC000000).state = .free := by decide +kernel
/-- R18: an address whose bits [63:48] all equal bit 47, and one in which they do not. -/
theorem test_canonical : canonical 0xFFFF800000000000 = true ∧ canonical 0x0000800000000000 = false ∧ low48 0xFFFF800000001234 = 0x800000001234 := by
  decide +kernel

/-- Parameters of each size, at the last byte of the launch's and beyond; a team's size; and arguments that were passed and that
were not. -/
theorem witness_SpecialOperands :
    let s := (stand [.i32] [[1]]).withCode true
    let tys := [Ty.b1, .i8, .f16, .f32, .f64]
    let s := { s with objs := s.objs.map fun o => (o.1, { o.2 with params := numbered 5 fun k => (tys.getD k .i8, k) }) }
    meets s (fun x => (List.range 5).all (fun k => x.paramTy k == tys[k]?) && decide (0 < x.launch.nteam 0) && decide (0 < x.launch.nteam 1) &&
      (x.g.lane 0).top.args[15]?.isNone) = true ∧
    meets (State.withGroup s fun g => g.mapLanes [0] fun _ y => y.setTop { y.top with args := [5] }) (fun x => (x.g.lane 0).top.args[0]? == some 5) =
      true := by decide +kernel

/-- Two lanes of one gang, at gang scope, and an execution in which the flag is seen, and x too. -/
theorem witness_MessagesArrive :
    let p := Machine.Order.Party.lane 0 0 0
    let q := Machine.Order.Party.lane 0 1 0
    let a : Machine.Order.Place := ⟨1, 0, 0, 0, 0, 0, 0⟩
    let b : Machine.Order.Place := ⟨1, 0, 0, 0, 0, 0, 1⟩
    let stores : Machine.Order.Ev := { party := p, place := a, act := .store .plain, scope := .lane, locs := [7] }
    let raises : Machine.Order.Ev := { party := p, place := a, act := .store .rel, scope := .gang, locs := [8] }
    let sees : Machine.Order.Ev := { party := q, place := b, act := .load .acq, scope := .gang, locs := [8] }
    let loads : Machine.Order.Ev := { party := q, place := b, act := .load .plain, scope := .lane, locs := [7] }
    let e : Machine.Order.Exec := { evs := [stores, raises, sees, loads], rf := [(2, 8, 1), (3, 7, 0)], co := [(7, [0]), (8, [1])] }
    p ≠ q ∧ Machine.Order.Exec.threadOp p = none ∧ Machine.Order.Exec.threadOp q = none ∧
    Machine.Order.linked .gang .gang raises sees = true ∧ e.allowed = true ∧ e.source 2 8 = some 1 := by decide +kernel

/-- R367: the array cycles of the two-group cohort of spec/12_matrix_instructions.md, with 2, 0, 24 and 24 of each step's 24
blocks unmarked. -/
theorem test_step_cycles : [2, 0, 24, 24].map (fun u => stepCycles 1 u 24) = [1, 0, 8, 8] := by decide +kernel

end Sys2Proof.Tests
end

section
/-! SUPPORT. Management ownership, bring-up and partitions (R3 to R17, R36, R69, R155): what each instruction and event of the
package does, and the settled statements about them. -/

namespace Sys2Proof.Machine

/-! Management ownership (R7 to R9). -/

/-- The state after an accepted management write: its status is OK (R8). -/
def State.told (s : State) : State := s.setMgmt { s.mgmt with lastStatus := .ok }

theorem asOwner_told {s : State} {m : Master} (h : s.mgmt.owner = some m) (f : State → State) : s.asOwner m f = f s.told :=
  asOwner_ok h f

/-- Of the claims of a round, the lowest class that exists takes ownership that is open (R7). -/
theorem exec_managementClaim_open {s : State} {m : Master} {ms : List Master} (ho : s.mgmt.owner = none) (hm : m ∈ ms) (h9 : m ≤ 9)
    (hl : ∀ n ∈ ms, m ≤ n) : exec (.managementClaim ms) s = .next (s.setMgmt { s.mgmt with owner := some m }) := by
  have hlow : lowest (ms.filter fun n => decide (n ≤ 9)) = some m :=
    lowest_le _ m (List.mem_filter.2 ⟨hm, decide_eq_true h9⟩) fun n hn => hl n (List.mem_filter.1 hn).1
  show execManagementClaim ms s = _
  simp [execManagementClaim, ho, hlow]

theorem exec_managementClaim_owned {s : State} (ms : List Master) (ho : s.mgmt.owner ≠ none) :
    exec (.managementClaim ms) s = .next s :=
  congrArg Host.Outcome.next (if_pos (Option.isSome_iff_ne_none.2 ho))

/-- The writes of device-level management state, by the master that makes them. -/
inductive ManagementWrite (m : Master) : Instr → Prop
  | handover (n : Master) : ManagementWrite m (.ownershipHandover m n)
  | word (a : Nat) (v : BitVec 64) : ManagementWrite m (.managementWrite m a v)
  | form (p : Nat) (f : FormSpec) : ManagementWrite m (.partitionForm m p f)
  | key (p : Nat) (k : BootKey) : ManagementWrite m (.bootKeyReplace m p k)
  | ways (p d : Nat) (w : BitVec 24) : ManagementWrite m (.partitionWayMaskWrite m p d w)
  | fabric (f n : Nat) : ManagementWrite m (.fabricNumberWrite m f n)

/-- Whatever a master that is not the owner writes, it gets NOT_OWNER and nothing else changes (R8). -/
theorem ManagementWrite.rejected {s : State} {m : Master} {i : Instr} (hi : ManagementWrite m i) (ho : s.mgmt.owner ≠ some m) :
    exec i s = .next (s.setMgmt { s.mgmt with lastStatus := .notOwner }) := by
  cases hi <;> exact congrArg Host.Outcome.next (asOwner_not ho _)

theorem exec_ownershipHandover_owner {s : State} {m : Master} (n : Master) (ho : s.mgmt.owner = some m) :
    exec (.ownershipHandover m n) s = .next (s.setMgmt { s.mgmt with lastStatus := .ok, successor := some n }) :=
  congrArg Host.Outcome.next (asOwner_ok ho _)

theorem exec_managementWrite_owner {s : State} {m : Master} (a : Nat) (v : BitVec 64) (ho : s.mgmt.owner = some m) :
    exec (.managementWrite m a v) s =
      .next (s.setMgmt { s.mgmt with lastStatus := .ok, words := mset s.mgmt.words a v }) :=
  congrArg Host.Outcome.next (asOwner_ok ho _)

section
variable {s : State} {m : Master}

theorem exec_ownershipAccept_named (h : s.mgmt.successor = some m) :
    exec (.ownershipAccept m) s = .next (s.setMgmt { s.mgmt with owner := some m, successor := none }) :=
  congrArg Host.Outcome.next (if_pos h)

theorem exec_ownershipRefuse_named (h : s.mgmt.successor = some m) :
    exec (.ownershipRefuse m) s = .next (s.setMgmt { s.mgmt with successor := none }) :=
  congrArg Host.Outcome.next (if_pos h)

theorem exec_ownershipAccept_other (h : s.mgmt.successor ≠ some m) : exec (.ownershipAccept m) s = .next s :=
  congrArg Host.Outcome.next (if_neg h)

theorem exec_ownershipRefuse_other (h : s.mgmt.successor ≠ some m) : exec (.ownershipRefuse m) s = .next s :=
  congrArg Host.Outcome.next (if_neg h)

end

/-- Settles O39: every write of management state goes through the check of the owner (`ManagementWrite.rejected`), and a claim
through the lowest of its round. -/
theorem managementOwnership : Obligations.ManagementOwnership := by
  intro s m m0 having
  refine ⟨fun ms ho hm h9 hl => exec_managementClaim_open ho hm h9 hl, exec_managementClaim_owned, ?_, ?_, ?_, ?_, rfl⟩
  · intro n p d f a v spec key ways i hi ho
    have hw : ManagementWrite m i := by
      simp only [List.mem_cons, List.not_mem_nil, or_false] at hi
      obtain rfl | rfl | rfl | rfl | rfl | rfl := hi <;> constructor
    exact hw.rejected ho
  · exact fun ho => ⟨fun n => exec_ownershipHandover_owner n ho, fun a v =>
      ⟨_, exec_managementWrite_owner a v ho, mget_mset_self _ a v, fun b hb => mget_mset_ne hb _ v⟩⟩
  · exact fun hs => ⟨exec_ownershipAccept_named hs, exec_ownershipRefuse_named hs⟩
  · exact fun hs => ⟨exec_ownershipAccept_other hs, exec_ownershipRefuse_other hs⟩

/-! Reset (R7, R27, R36 to R38). -/

theorem reset_potOf (f : Nat) : State.reset.potOf f = ⟨0, 0, 0, potDefault f, 0, 0, false, false⟩ := rfl

theorem potDefault_allocable {f : Nat} (h : f ≤ 0xBDFFFFF) : potDefault f = .scrubbing := if_pos (by omega)

theorem potDefault_carveOut {f : Nat} (hl : 0xBE00000 ≤ f) (hh : f ≤ 0xBFFFFFF) : potDefault f = .fixed := by
  rw [potDefault, if_neg (by omega), if_pos (by omega)]

theorem potDefault_slot {f : Nat} (hl : 0xC000000 ≤ f) (hh : f ≤ 0xFFFFFFF) : potDefault f = .free := by
  rw [potDefault, if_neg (by omega), if_neg (by omega), if_pos (by omega)]

/-- Settles O57: every table of the state after reset is empty, and the POT reads as its default. -/
theorem resetLeaves : Obligations.ResetLeaves := by
  refine ⟨rfl, rfl, fun _ => rfl, fun _ => rfl, fun f => ?_, rfl, rfl, rfl, rfl, rfl⟩
  rw [reset_potOf]
  exact ⟨rfl, rfl, rfl, rfl, rfl, rfl, potDefault_allocable, potDefault_carveOut, potDefault_slot⟩

/-! Bring-up (R11, R12). -/

section
variable {s : State} {f : FnId}

theorem exec_functionTrainingDone_ok (reason : Nat) (h : s.fnState f = .training) :
    exec (.functionTrainingDone f true reason) s = .next (s.enterFn f .ready) := by
  show execFunctionTrainingDone f true reason s = _
  simp [execFunctionTrainingDone, h]

theorem exec_functionTrainingDone_stack {k : Nat} (reason : Nat) (h : s.fnState (.hbm k) = .training) :
    exec (.functionTrainingDone (.hbm k) false reason) s = .next (s.failStack k reason) := by
  show execFunctionTrainingDone (.hbm k) false reason s = _
  simp [execFunctionTrainingDone, h]

theorem exec_functionTrainingDone_fail (reason : Nat) (h : s.fnState f = .training) (hk : ∀ k, f ≠ .hbm k) :
    exec (.functionTrainingDone f false reason) s = .next (s.enterFn f (.failed reason)) := by
  show execFunctionTrainingDone f false reason s = _
  cases f with
  | hbm k => exact absurd rfl (hk k)
  | hall | link | pcie | net | cores => simp [execFunctionTrainingDone, h]

end

theorem exec_hbmStackFailed_fitted {k : Nat} (s : State) (reason : Nat) (hk : k < 12) :
    exec (.hbmStackFailed k reason) s = .next (s.failStack k reason) :=
  congrArg Host.Outcome.next (if_pos (decide_eq_true hk))

/-! Forming a partition (R3, R6, R12, R37, R38). -/

theorem disjoint_iff {a b : List Nat} : disjoint a b = true ↔ ∀ x ∈ a, x ∉ b := by
  simp [disjoint]

theorem specReady_units {s : State} {f : FormSpec} (h : s.specReady f = true) :
    f.cores.length % 4 = 0 ∧ f.cores ≠ [] ∧ f.halls ≠ [] ∧ f.sets ≠ [] ∧ (∀ h ∈ f.halls, s.fnState (.hall h) = .ready) ∧
      (∀ c ∈ f.sets, s.fnState (.hbm (c / 2)) = .ready) ∧ s.fnState (.net f.port) = .ready ∧ s.fnState .cores = .ready := by
  simp only [State.specReady, Bool.and_eq_true, beq_iff_eq, Bool.not_eq_true', List.isEmpty_eq_false_iff, List.all_eq_true] at h
  obtain ⟨⟨⟨⟨⟨⟨⟨⟨⟨⟨⟨⟨hc, h4⟩, -⟩, -⟩, hh⟩, -⟩, hhr⟩, hs⟩, -⟩, hsr⟩, hn⟩, hg⟩, -⟩ := h
  exact ⟨h4, hc, hh, hs, hhr, fun c m => (hsr c m).2, hn, hg⟩

theorem specFree_apart {s : State} {f : FormSpec} (h : s.specFree f = true) :
    ∀ q ∈ s.parts, q.2.formed = true → (∀ c ∈ f.cores, c ∉ q.2.cores) ∧ (∀ h ∈ f.halls, h ∉ q.2.halls) ∧
      (∀ c ∈ f.sets, c ∉ q.2.sets) ∧ f.port ≠ q.2.port := by
  intro q hq hf
  have hp := List.all_eq_true.1 ((Bool.and_eq_true _ _).mp h).1 q hq
  simp only [hf, Bool.not_true, Bool.false_or, Bool.and_eq_true, disjoint_iff, bne_iff_ne] at hp
  obtain ⟨⟨⟨hc, hh⟩, hs⟩, hn⟩ := hp
  exact ⟨hc, hh, hs, hn⟩

/-- The record of a partition as it is formed (R3, R6): the way masks stay, and the rest is the specification's. -/
def Part.forming (old : Part) (p : Nat) (f : FormSpec) : Part :=
  Part.withKey { Part.empty with
    formed := true, cores := f.cores, halls := f.halls, sets := f.sets, port := f.port, wayMask := old.wayMask
    rejected := f.bootKey.isNone, scrub := f.sets.map setPages } p f.bootKey

/-- The state in which a partition has been formed: PART is written for its frames and slots, and its cores are in reset. -/
def State.formPart (s : State) (p : Nat) (f : FormSpec) : State :=
  { s.setPart p ((s.part p).forming p f) with
    potParts := s.potParts ++ (f.sets.map setPages ++ f.slots).map fun r => (r.1, r.2, p)
    harts := f.cores.foldl (fun hs c => mset hs c Hart.reset) s.harts }

theorem exec_partitionForm_free {s : State} {m : Master} {p : Nat} {f : FormSpec} (ho : s.mgmt.owner = some m) (hp : p < 8)
    (hu : (s.part p).formed = false) (hr : s.told.specReady f = true) (hf : s.told.specFree f = true) :
    exec (.partitionForm m p f) s = .next (s.told.formPart p f) := by
  refine congrArg Host.Outcome.next ((asOwner_told ho _).trans (if_neg ?_))
  rintro (h | h | h | h)
  · omega
  · exact Bool.false_ne_true (hu.symm.trans h)
  · exact Bool.false_ne_true (h.symm.trans hr)
  · exact Bool.false_ne_true (h.symm.trans hf)

@[simp] theorem part_formPart (s : State) (p : Nat) (f : FormSpec) : (s.formPart p f).part p = (s.part p).forming p f :=
  State.part_setPart s p _

theorem part_formPart_ne {p q : Nat} (h : q ≠ p) (s : State) (f : FormSpec) : (s.formPart p f).part q = s.part q :=
  State.part_setPart_ne h s _

theorem hart_formPart (s : State) (p : Nat) (f : FormSpec) (c : Nat) :
    (s.formPart p f).hart c = if c ∈ f.cores then Hart.reset else s.hart c := by
  show (mget (f.cores.foldl (fun hs c => mset hs c Hart.reset) s.harts) c).getD Hart.reset = _
  rw [foldl_mset_in fun _ => Hart.reset]
  split <;> rfl

/-! Boot keys and boot (R5, R6). -/

theorem allInReset_iff {s : State} {x : Part} : s.allInReset x = true ↔ ∀ c ∈ x.cores, (s.hart c).inReset = true :=
  List.all_eq_true

section
variable {s : State} {m : Master} {p : Nat} {key : BootKey}

theorem exec_bootKeyReplace_inReset (ho : s.mgmt.owner = some m) (hf : (s.part p).formed = true)
    (hc : ∀ c ∈ (s.part p).cores, (s.hart c).inReset = true) :
    exec (.bootKeyReplace m p key) s = .next (s.told.setPart p ((s.part p).withKey p (some key))) :=
  congrArg Host.Outcome.next
    ((asOwner_told ho _).trans (if_pos ((Bool.and_eq_true _ _).mpr ⟨hf, allInReset_iff.2 hc⟩)))

theorem exec_bootKeyReplace_running (ho : s.mgmt.owner = some m) (hc : ∃ c ∈ (s.part p).cores, (s.hart c).inReset = false) :
    exec (.bootKeyReplace m p key) s = .next s.told := by
  obtain ⟨c, hm, hr⟩ := hc
  refine congrArg Host.Outcome.next ((asOwner_told ho _).trans (if_neg fun h => ?_))
  have hall := allInReset_iff.1 ((Bool.and_eq_true _ _).mp h).2 c hm
  exact Bool.false_ne_true (hr.symm.trans hall)

end

/-- The state with the boot image in its frames, where they can take it (R5; assumption log 104). -/
def State.loadImage (s : State) (p : Nat) (image : List Byte) (entry : BitVec 64) : State :=
  let pages := pagesAt entry.toNat image.length
  if pages.all (s.bootable p) then
    let s := pages.foldl (State.bootFrame p) s
    { s with mem := writeBytes s.mem entry.toNat image }
  else s

/-- The state in which general cores have left reset at an address (R5). -/
def State.startCores (s : State) (cs : List Nat) (entry : BitVec 64) : State :=
  { s with harts := cs.foldl (fun hs c => mset hs c { s.hart c with inReset := false, pc := entry, mode := .hs }) s.harts }

/-- The record of a partition whose image has been accepted: the image's digest is the first measurement (R5). -/
def Part.measured (x : Part) (image : List Byte) : Part :=
  { x with booted := true, rejected := false, firstMeas := sha384 image }

section
variable {s : State} {p : Nat} {image sig : List Byte} {entry : BitVec 64}

theorem exec_partitionBoot_rejected (hf : (s.part p).formed = true) (hb : (s.part p).booted = false)
    (hc : ∀ c ∈ (s.part p).cores, (s.hart c).inReset = true)
    (hk : ∀ k, (s.part p).bootKey = some k → Config.bootVerifies k.mldsa k.bytes image sig = false) :
    exec (.partitionBoot p image sig entry) s = .next (s.setPart p { s.part p with rejected := true }) := by
  have hv : ((s.part p).bootKey.any fun k => Config.bootVerifies k.mldsa k.bytes image sig) = false := by
    simpa [Option.any_eq_false] using hk
  show execPartitionBoot p image sig entry s = _
  simp [execPartitionBoot, hf, hb, allInReset_iff.2 hc, hv]

theorem exec_partitionBoot_accepted {k : BootKey} (hf : (s.part p).formed = true) (hb : (s.part p).booted = false)
    (hc : ∀ c ∈ (s.part p).cores, (s.hart c).inReset = true) (hk : (s.part p).bootKey = some k)
    (hv : Config.bootVerifies k.mldsa k.bytes image sig = true) :
    exec (.partitionBoot p image sig entry) s =
      let u := s.loadImage p image entry
      .next ((u.setPart p ((u.part p).measured image)).startCores (s.part p).cores entry) := by
  show execPartitionBoot p image sig entry s = _
  simp only [execPartitionBoot, hf, hb, allInReset_iff.2 hc, hk, Option.any_some, hv]
  rfl

end

theorem hart_startCores (s : State) {cs : List Nat} (entry : BitVec 64) {c : Nat} (hc : c ∈ cs) :
    (s.startCores cs entry).hart c = { s.hart c with inReset := false, pc := entry, mode := .hs } :=
  bootCores cs (fun c => { s.hart c with inReset := false, pc := entry, mode := .hs }) s s.harts c hc

/-- An image that the frames at its entry can take reads back from there. -/
theorem readBytes_loadImage {s : State} {p : Nat} {image : List Byte} {entry : BitVec 64} (hw : Memory.wf s.mem = true)
    (hp : ∀ q ∈ pagesAt entry.toNat image.length, s.bootable p q = true) :
    readBytes (s.loadImage p image entry).mem entry.toNat image.length = image := by
  have hl : (s.loadImage p image entry).mem =
      writeBytes ((pagesAt entry.toNat image.length).foldl (State.bootFrame p) s).mem entry.toNat image :=
    congrArg State.mem (if_pos (List.all_eq_true.2 hp))
  rw [hl]
  exact readBytes_writeBytes image (bootFrame_mem p _ s hw) _

/-! Answers, way masks, the fabric's numbers and clocks (R5, R6, R17, R69, R155). -/

section
variable {s : State} {p : Nat}

theorem exec_getCertificate_chain (hf : (s.part p).formed = true) : exec (.getCertificate p 0) s = .next (s.reply p .chain) := by
  show execGetCertificate p 0 s = _
  simp [execGetCertificate, hf]

theorem exec_getCertificate_sealKey (hf : (s.part p).formed = true) :
    exec (.getCertificate p 1) s = .next (s.reply p (.sealKey p (s.part p).bootDigest (s.part p).sealKey)) := by
  show execGetCertificate p 1 s = _
  simp [execGetCertificate, hf]

theorem exec_spdmGetMeasurements_formed (hf : (s.part p).formed = true) :
    exec (.spdmGetMeasurements p) s =
      .next (s.reply p (.measurements (if (s.part p).booted then [(s.part p).firstMeas] else []))) :=
  congrArg Host.Outcome.next (if_pos hf)

end

section
variable {s : State} {m : Master}

theorem exec_partitionWayMaskWrite_owner {p d : Nat} (ways : BitVec 24) (ho : s.mgmt.owner = some m) (hp : p < 8) (hd : d < 4) :
    exec (.partitionWayMaskWrite m p d ways) s =
      .next (s.told.setPart p { s.part p with wayMask := mset (s.part p).wayMask d ways }) :=
  congrArg Host.Outcome.next ((asOwner_told ho _).trans (if_pos ⟨hp, hd⟩))

/-- The owner numbers the package within its fabric before any partition is formed (R155). -/
theorem exec_fabricNumberWrite_owner {f n : Nat} (ho : s.mgmt.owner = some m) (hf : f < n) (hn : n ≤ 15)
    (hp : ∀ q ∈ s.parts, q.2.formed = false) :
    exec (.fabricNumberWrite m f n) s = .next { s.told with fabricF := f, fabricP := n } := by
  refine congrArg Host.Outcome.next ((asOwner_told ho _).trans (if_neg ?_))
  rintro (h | h | h | h)
  · obtain ⟨q, hq, hqf⟩ := List.any_eq_true.1 h
    exact Bool.false_ne_true ((hp q hq).symm.trans hqf)
  · omega
  · omega
  · omega

end

/-- Beyond the hall's clock, the fall of a clock changes samples of the power monitors only (R14, R17). -/
theorem exec_clockLower_sampled (s : State) {hall : Nat} (steps halfWatts : Nat) (h : hall < 20) :
    ∃ t, exec (.clockLower hall steps halfWatts) s = .next t ∧
      State.Sampled { s with clocks := mset s.clocks hall (max 1 (s.clock hall - steps)) } t :=
  ⟨_, congrArg Host.Outcome.next (if_neg (by omega)), (clockFold halfWatts _ _).trans (clockTail _ hall halfWatts)⟩

/-- Settles O40: each clause is the lemma above about its instruction or event. -/
theorem bringUpAndPartitions : Obligations.BringUpAndPartitions := by
  intro s m told reports
  refine ⟨rfl, ?training, ?stack, ?form, ?key, ?boot, ?answers, ?ways, ?fabric, ?clock⟩
  case training =>
    intro f reason hf
    refine ⟨exec_functionTrainingDone_ok reason hf, exec_functionTrainingDone_fail reason hf, ?_⟩
    rintro k rfl
    exact ⟨_, exec_functionTrainingDone_stack reason hf, reportStack_spec s k reason⟩
  case stack =>
    exact fun k reason hk => ⟨_, exec_hbmStackFailed_fitted s reason hk, reportStack_spec s k reason⟩
  case form =>
    intro p f ho hp hu hr hf
    obtain ⟨h4, hc, hh, hs, hhr, hsr, hn, hg⟩ := specReady_units hr
    refine ⟨⟨h4, hc, hh, hs, hhr, hsr, hn, hg, specFree_apart hf⟩, _, exec_partitionForm_free ho hp hu hr hf, ?_, rfl, ?_, ?_, ?_⟩
    · rw [part_formPart]
      exact ⟨rfl, rfl, rfl, rfl, rfl, rfl, rfl, rfl, rfl, rfl⟩
    · exact fun c hc => (hart_formPart _ p f c).trans (if_pos hc)
    · exact fun c hc => (hart_formPart _ p f c).trans (if_neg hc)
    · exact fun q hq => part_formPart_ne hq _ f
  case key =>
    exact fun p key ho => ⟨exec_bootKeyReplace_inReset ho, exec_bootKeyReplace_running ho⟩
  case boot =>
    intro p image sig entry x hf hb hc
    refine ⟨exec_partitionBoot_rejected hf hb hc, fun k hk hv => ⟨_, exec_partitionBoot_accepted hf hb hc hk hv, ?_, ?_, ?_, ?_⟩⟩
    · exact congrArg Part.booted (State.part_setPart _ p _)
    · exact congrArg Part.firstMeas (State.part_setPart _ p _)
    · intro c hm
      rw [hart_startCores _ entry hm]
      exact ⟨rfl, rfl, rfl⟩
    · exact readBytes_loadImage
  case answers =>
    exact fun p hf => ⟨exec_getCertificate_chain hf, exec_getCertificate_sealKey hf, exec_spdmGetMeasurements_formed hf⟩
  case ways => exact fun p d ways ho hp hd => exec_partitionWayMaskWrite_owner ways ho hp hd
  case fabric => exact fun f n ho hf hn hp => exec_fabricNumberWrite_owner ho hf hn hp
  case clock => exact fun hall steps halfWatts h => exec_clockLower_sampled s steps halfWatts h

end Sys2Proof.Machine
end

section
/-! SUPPORT. Addresses and the canonical form of memories (R18, R20; log 3): the fields of an enclave virtual address, and memories
that read the same are one list. -/

namespace Sys2Proof.Machine

/-! The fields of an enclave virtual address (R18). -/

theorem low48_eq_extract (va : BitVec 64) : low48 va = (va.extractLsb' 0 48).toNat := by
  simp [low48, BitVec.extractLsb'_toNat]

theorem vpn_eq_extract (va : BitVec 64) : low48 va / 4096 = (va.extractLsb' 12 36).toNat := by
  simp only [low48, BitVec.extractLsb'_toNat, Nat.shiftRight_eq_div_pow]
  omega

/-- A sign extension repeats bit 47 above it, so an address is its own one exactly when its bits [63:48] all equal that bit. -/
theorem canonical_iff (va : BitVec 64) : canonical va = true ↔ ∀ b, 48 ≤ b → b ≤ 63 → va.getLsbD b = va.getLsbD 47 := by
  have bit : ∀ b < 64, ((va.extractLsb' 0 48).signExtend 64).getLsbD b = if b < 48 then va.getLsbD b else va.getLsbD 47 := by
    intro b hb
    rw [BitVec.getLsbD_signExtend, BitVec.msb_eq_getLsbD_last]
    by_cases h : b < 48 <;> simp [hb, h]
  rw [canonical, beq_iff_eq]
  constructor
  · intro h b hl hh
    have := bit b (by omega)
    rw [h] at this
    simpa [show ¬ b < 48 by omega] using this
  · intro h
    refine BitVec.eq_of_getLsbD_eq fun b hb => ?_
    rw [bit b hb]
    split
    · rfl
    · exact (h b (by omega) (by omega)).symm

/-- Settles O58: the three fields one by one. -/
theorem addressFields : Obligations.AddressFields :=
  fun va => ⟨low48_eq_extract va, vpn_eq_extract va, canonical_iff va⟩

/-! Memories that read the same (log 3). -/

/-- The first entry of a memory is where its first byte that reads otherwise than an unlisted one is, so two memories that read the
same begin with the same entry, and beyond it they read the same again. -/
theorem eq_of_readByte_eq {lo lo' : Nat} {m n : List Host.Cell} (hm : cellsAbove lo m = true) (hn : cellsAbove lo' n = true)
    (h : ∀ a, readByte m a = readByte n a) : m = n := by
  induction m generalizing lo lo' n with
  | nil =>
    cases n with
    | nil => rfl
    | cons q n =>
      simp only [cellsAbove, Bool.and_eq_true, decide_eq_true_eq] at hn
      exact absurd (by simpa [readByte] using (h q.1).symm) hn.1.2
  | cons p m ih =>
    obtain ⟨a, v⟩ := p
    simp only [cellsAbove, Bool.and_eq_true, decide_eq_true_eq] at hm
    obtain ⟨⟨-, hv⟩, hmr⟩ := hm
    have atA : readByte n a = v := by simpa [readByte] using (h a).symm
    cases n with
    | nil => exact absurd atA.symm hv
    | cons q n =>
      obtain ⟨b, w⟩ := q
      simp only [cellsAbove, Bool.and_eq_true, decide_eq_true_eq] at hn
      obtain ⟨⟨-, hw⟩, hnr⟩ := hn
      have atB : readByte ((a, v) :: m) b = w := by simpa [readByte] using h b
      obtain rfl : a = b := by
        rcases Nat.lt_trichotomy a b with hab | hab | hab
        · exact absurd (atA.symm.trans (by simp [readByte, hab, Nat.ne_of_gt hab])) hv
        · exact hab
        · exact absurd (atB.symm.trans (by simp [readByte, hab, Nat.ne_of_gt hab])) hw
      obtain rfl : w = v := by simpa [readByte] using atA
      refine congrArg _ (ih hmr hnr fun c => ?_)
      rcases Nat.lt_or_ge a c with hc | hc
      · simpa [readByte, Nat.ne_of_lt hc, Nat.not_lt_of_gt hc] using h c
      · rw [readByte_below hmr (Nat.lt_succ_of_le hc), readByte_below hnr (Nat.lt_succ_of_le hc)]

/-- Settles O56: from the first entry on, by induction on the list. -/
theorem canonicalMemoriesAreUnique : Obligations.CanonicalMemoriesAreUnique :=
  fun _ _ hm hn h => eq_of_readByte_eq hm hn h

end Sys2Proof.Machine
end

section
/-! SUPPORT. The canonical form of memories: what a result, a bind and a fold keep of it. -/

namespace Sys2Proof.Machine

/-- The state that a step answers, if it answers one, has the form. -/
def nextOk : Host.Outcome State Fault Refusal → Prop
  | .next t => t.memOk = true
  | .fault _ | .refused _ => True

/-- A result whose error is the state that the step ends in: that state has the form, and the property holds of any other result. -/
def endsOk {α : Type} (P : α → Prop) : Except State α → Prop
  | .ok a => P a
  | .error t => t.memOk = true

theorem endsOk_bind {α β : Type} {P : α → Prop} {Q : β → Prop} {r : Except State α} {f : α → Except State β} (hr : endsOk P r)
    (hf : ∀ a, P a → endsOk Q (f a)) : endsOk Q (r >>= f) := by
  cases r with
  | ok a => exact hf a hr
  | error t => exact hr

theorem endsOk_map {α β : Type} {P : α → Prop} {Q : β → Prop} {r : Except State α} {f : α → β} (hr : endsOk P r)
    (hf : ∀ a, P a → Q (f a)) : endsOk Q (r.map f) := by
  cases r with
  | ok a => exact hf a hr
  | error t => exact hr

theorem endsOk_mapM {α β : Type} {f : α → Except State β} (hf : ∀ a, endsOk (fun _ => True) (f a)) (l : List α) :
    endsOk (fun _ => True) (l.mapM f) := by
  induction l with
  | nil => trivial
  | cons a l ih =>
    rw [List.mapM_cons]
    exact endsOk_bind (hf a) fun _ _ => endsOk_bind ih fun _ _ => trivial

theorem endsOk_elim {r : Except State State} (hr : endsOk (fun t => t.memOk = true) r) :
    (match r with | .ok t => t | .error t => t).memOk = true := by
  cases r <;> exact hr

theorem foldl_fst_memOk {α β : Type} {f : State × β → α → State × β} (hf : ∀ q a, q.1.memOk = true → (f q a).1.memOk = true) :
    ∀ (l : List α) {q : State × β}, q.1.memOk = true → (l.foldl f q).1.memOk = true
  | [], _, h => h
  | a :: l, q, h => foldl_fst_memOk hf l (hf q a h)

theorem okAll_map {ε α β : Type} {P : α → Prop} {Q : β → Prop} {r : Except ε α} {f : α → β} (hr : okAll P r)
    (hf : ∀ a, P a → Q (f a)) : okAll Q (r.map f) := by
  cases r with
  | ok a => exact hf a hr
  | error e => trivial

theorem okAll_mapError {ε ε' α : Type} {P : α → Prop} {r : Except ε α} {f : ε → ε'} (hr : okAll P r) :
    okAll P (r.mapError f) := by
  cases r with
  | ok a => exact hr
  | error e => trivial

theorem State.OnlyCaches.memOk {s t : State} (k : s.OnlyCaches t) (h : s.memOk = true) : t.memOk = true := by
  obtain ⟨c, rfl⟩ := k; exact h

theorem okAll_true {ε α : Type} (r : Except ε α) : okAll (fun _ => True) r := by
  cases r <;> trivial

theorem okState_bind {ε β : Type} {Q : β → Prop} {r : Except ε State} {f : State → Except ε β} (hr : okState r)
    (hf : ∀ t, t.memOk = true → okAll Q (f t)) : okAll Q (r >>= f) := okAll_bind hr hf

theorem okPair_bind {ε α β : Type} {Q : β → Prop} {r : Except ε (State × α)} {f : State × α → Except ε β} (hr : okPair r)
    (hf : ∀ q : State × α, q.1.memOk = true → okAll Q (f q)) : okAll Q (r >>= f) := okAll_bind hr hf

theorem okState_foldlM {ε α : Type} {f : State → α → Except ε State} (hf : ∀ t a, t.memOk = true → okState (f t a)) (l : List α)
    {s : State} (h : s.memOk = true) : okState (l.foldlM f s) := okAll_foldlM hf l h

theorem okPair_foldlM {ε α β : Type} {f : State × β → α → Except ε (State × β)} (hf : ∀ q a, q.1.memOk = true → okPair (f q a))
    (l : List α) {q : State × β} (h : q.1.memOk = true) : okPair (l.foldlM f q) := okAll_foldlM hf l h

theorem okPair_map {ε α β : Type} {r : Except ε (State × α)} {f : State × α → β} {Q : β → Prop} (hr : okPair r)
    (hf : ∀ q : State × α, q.1.memOk = true → Q (f q)) : okAll Q (r.map f) := okAll_map hr hf

end Sys2Proof.Machine
end

section
/-! SUPPORT. Every function of the model that answers a state keeps memories in canonical form, in the order of the model:
one that writes no byte answers the memories it was given, and any other is made of functions that keep the form. -/

namespace Sys2Proof.Machine

theorem State.setPot_memOk {s : State} {page e} (ok : s.memOk = true) : (s.setPot page e).memOk = true := ok

theorem State.setEncl_memOk {s : State} {e x} (ok : s.memOk = true) : (s.setEncl e x).memOk = true := ok

theorem State.setPart_memOk {s : State} {p x} (ok : s.memOk = true) : (s.setPart p x).memOk = true := ok

theorem State.dropFrame_memOk {s : State} {page} (ok : s.memOk = true) : (s.dropFrame page).memOk = true := ok

theorem State.poisonLine_memOk {s : State} {line} (ok : s.memOk = true) : (s.poisonLine line).memOk = true := ok

theorem State.refresh_memOk {s : State} {line} (ok : s.memOk = true) : (s.refresh line).memOk = true := by
  unfold State.refresh
  grind [State.memOk, wf_writeBytes]

theorem State.meetLine_memOk {s : State} {line} (ok : s.memOk = true) : (s.meetLine line).memOk = true := by
  unfold State.meetLine
  grind [State.poisonLine_memOk, State.refresh_memOk, State.memOk]

theorem State.startSearch_memOk {s : State} {pa n} (ok : s.memOk = true) : (s.startSearch pa n).memOk = true :=
  foldl_memOk (fun _ _ h => State.meetLine_memOk h) _ ok

theorem State.onMons_memOk {s : State} {line} {f : PathMon → PathMon} (ok : s.memOk = true) : (s.onMons line f).memOk = true := ok

theorem State.readArray_memOk {s : State} {part corrected} (ok : s.memOk = true) : (s.readArray part corrected).memOk = true := ok

theorem State.readHbm_memOk {s : State} {line} (ok : s.memOk = true) : (s.readHbm line).memOk = true := ok

theorem State.countSearch_memOk {s : State} {line fixed} (ok : s.memOk = true) : (s.countSearch line fixed).memOk = true := by
  unfold State.countSearch
  grind [State.onMons_memOk, State.setPart_memOk]

theorem State.settleSearch_memOk {s : State} {line} (ok : s.memOk = true) : (s.settleSearch line).memOk = true := by
  unfold State.settleSearch
  split
  · exact ok
  · split
    · exact State.countSearch_memOk (State.memOk_mk (wf_writeBytes _ (State.wf_mem ok) _) (State.wf_teams ok))
    · exact State.countSearch_memOk (State.poisonLine_memOk ok)

theorem State.settleLine_memOk {s : State} {line} (ok : s.memOk = true) : (s.settleLine line).memOk = true := by
  unfold State.settleLine
  grind [State.settleSearch_memOk, State.poisonLine_memOk, State.refresh_memOk]

theorem State.keepOld_memOk {s : State} {line} (ok : s.memOk = true) : (s.keepOld line).memOk = true := by
  unfold State.keepOld
  grind [State.memOk]

theorem State.share_memOk {s : State} {line} (ok : s.memOk = true) : (s.share line).memOk = true := by
  unfold State.share
  grind [State.memOk]

theorem State.claim_memOk {s : State} {line} {mine : L2Line → Bool} {core : CoreLine → Bool} (ok : s.memOk = true) :
    (s.claim line mine core).memOk = true :=
  ok

theorem State.obtain_memOk {s : State} {line write whole} (ok : s.memOk = true) : (s.obtain line write whole).memOk = true := by
  unfold State.obtain
  grind [State.readHbm_memOk, State.claim_memOk, State.share_memOk]

theorem State.l2Touch_memOk {s : State} {part d line world cls hint write whole} (ok : s.memOk = true) :
    (s.l2Touch part d line world cls hint write whole).memOk = true :=
  (s.l2Touch_only ..).memOk ok

theorem State.touch_memOk {s : State} {part d pa n world cls hint write} (ok : s.memOk = true) :
    (s.touch part d pa n world cls hint write).memOk = true :=
  foldl_memOk (fun _ _ h => State.l2Touch_memOk h) _ ok

theorem State.coreTouch_memOk {s : State} {h line write whole} (ok : s.memOk = true) :
    (s.coreTouch h line write whole).memOk = true := by
  unfold State.coreTouch
  grind [State.keepOld_memOk, State.claim_memOk, State.obtain_memOk, State.memOk]

theorem State.coreTouchAll_memOk {s : State} {h pa n write} (ok : s.memOk = true) : (s.coreTouchAll h pa n write).memOk = true :=
  foldl_memOk (fun _ _ h => State.coreTouch_memOk h) _ ok

theorem State.formFault_memOk {s : State} {part r} (ok : s.memOk = true) : (s.formFault part r).memOk = true := by
  unfold State.formFault
  grind [State.setPart_memOk, State.memOk]

theorem State.setLaunch_memOk {s : State} {n x} (ok : s.memOk = true) : (s.setLaunch n x).memOk = true := ok

theorem State.setGroup_memOk {s : State} {n x} (ok : s.memOk = true) : (s.setGroup n x).memOk = true := ok

theorem Exe.put_memOk {x : Exe} {g} (ok : x.s.memOk = true) : (x.put g).memOk = true := ok

theorem State.sampleEncl_memOk {s : State} {e k v} (ok : s.memOk = true) : (s.sampleEncl e k v).memOk = true := ok

theorem State.sendFlit_memOk {s : State} {n kind write va data atomic} (ok : s.memOk = true) :
    (s.sendFlit n kind write va data atomic).memOk = true := by
  unfold State.sendFlit
  grind [State.sampleEncl_memOk, State.memOk]

theorem State.sendFar_memOk {s : State} {e w pa page who write data atomic} (ok : s.memOk = true) :
    (s.sendFar e w pa page who write data atomic).memOk = true := by
  unfold State.sendFar
  grind [State.sendFlit_memOk, State.memOk]

theorem State.askWindow_memOk {s : State} {e w pa write bs} (ok : s.memOk = true) :
    (s.askWindow e w pa write bs).memOk = true := by
  unfold State.askWindow
  split
  · exact foldl_memOk (fun _ _ h => State.sendFlit_memOk h) _ ok
  all_goals exact ok

theorem State.bump_memOk {s : State} {e k core n} (ok : s.memOk = true) : (s.bump e k core n).memOk = true := ok

theorem State.hwTouch_memOk {s : State} {unit e va k bs} (ok : s.memOk = true) : (s.hwTouch unit e va k bs).memOk = true := by
  refine foldl_memOk (fun t r h => ?_) _ ok
  split
  · split
    · exact State.touch_memOk h
    · split
      · exact h
      · exact foldl_memOk (fun _ _ h => State.obtain_memOk h) _ h
  · exact State.askWindow_memOk h
  all_goals exact h

theorem State.hwTake_memOk {s : State} {unit e va k n} (ok : s.memOk = true) : okPair (s.hwTake unit e va k n) := by
  unfold State.hwTake
  exact okAll_map (okAll_true _) fun _ _ => State.hwTouch_memOk ok

theorem State.hwWrite_memOk {s : State} {unit e va bs} (ok : s.memOk = true) : okState (s.hwWrite unit e va bs) := by
  unfold State.hwWrite
  dsimp only
  split
  · trivial
  · refine foldl_memOk (fun t q h => ?_) _ (State.hwTouch_memOk ok)
    grind [State.store_memOk, State.poke_memOk]

theorem State.waitOn_memOk {s : State} {e at_ k w st} (ok : s.memOk = true) : (s.waitOn e at_ k w st).memOk = true := by
  unfold State.waitOn
  grind [State.formFault_memOk, State.startSearch_memOk]

theorem State.elapse_memOk {s : State} {hall n} (ok : s.memOk = true) : (s.elapse hall n).memOk = true := ok

theorem State.elapsed_memOk {s : State} {hall} (ok : s.memOk = true) : (s.elapsed hall).memOk = true := ok

theorem State.endTurn_memOk {s : State} {h} (ok : s.memOk = true) : (s.endTurn h).memOk = true := by
  unfold State.endTurn
  grind [State.memOk]

theorem State.endTurns_memOk {s : State} (ok : s.memOk = true) : (s.endTurns).memOk = true :=
  foldl_memOk (fun _ _ h => State.endTurn_memOk h) _ ok

theorem State.writeDone_memOk {s : State} {l} (ok : s.memOk = true) : (s.writeDone l).memOk = true := by
  have := State.hwWrite_memOk (unit := none) (e := (s.launch l).enclave) (va := (s.launch l).doneAddr)
    (bs := (s.launch l).doneBytes) ok
  grind [State.writeDone, okAll, State.setLaunch_memOk, State.waitOn_memOk]

theorem State.writeSeal_memOk {s : State} {l kind cause c} (ok : s.memOk = true) : (s.writeSeal l kind cause c).memOk = true := by
  unfold State.writeSeal
  split
  · next h => exact okState_elim h (State.hwWrite_memOk ok)
  · exact ok

theorem State.writeSeals_memOk {s : State} {l normal cause} (ok : s.memOk = true) :
    (s.writeSeals l normal cause).memOk = true := by
  refine foldl_memOk (fun t c h => ?_) _ ok
  grind [State.writeSeal_memOk]

theorem State.dropTeams_memOk {s : State} {ts} (ok : s.memOk = true) : (s.dropTeams ts).memOk = true := by
  unfold State.dropTeams
  grind [State.memOk]

theorem State.unpinLaunch_memOk {s : State} {l} (ok : s.memOk = true) : (s.unpinLaunch l).memOk = true := ok

theorem State.clearGo_memOk {s : State} {part} (ok : s.memOk = true) : (s.clearGo part).memOk = true := by
  unfold State.clearGo
  grind [State.setPart_memOk]

theorem State.vacate_memOk {s : State} {l} (ok : s.memOk = true) : (s.vacate l).memOk = true := by
  have turns : ∀ {t : State} (cs : List Nat), t.memOk = true → (cs.foldl State.elapsed t).memOk = true :=
    fun cs h => foldl_memOk (fun _ _ h => State.elapsed_memOk h) cs h
  unfold State.vacate
  grind [State.setPart_memOk, State.dropTeams_memOk, State.unpinLaunch_memOk, State.sampleEncl_memOk, State.setEncl_memOk,
    State.endTurns_memOk, State.memOk]

theorem State.collSend_memOk {s : State} {e number members bs} (ok : s.memOk = true) :
    (s.collSend e number members bs).memOk = true := by
  refine foldl_memOk (fun t m h => ?_) _ ok
  split
  · exact h
  · exact foldl_memOk (fun _ _ h => State.sendFlit_memOk h) _ h

theorem State.quitColl_memOk {s : State} {k o} (ok : s.memOk = true) : (s.quitColl k o).memOk = true := by
  unfold State.quitColl
  grind [State.collSend_memOk, State.memOk]

theorem State.quitColls_memOk {s : State} {l} (ok : s.memOk = true) : (s.quitColls l).memOk = true :=
  foldl_memOk (fun _ _ h => State.quitColl_memOk h) _ ok

theorem State.endLaunch_memOk {s : State} {l status detail addr trap} (ok : s.memOk = true) :
    (s.endLaunch l status detail addr trap).memOk = true := by
  unfold State.endLaunch
  grind [State.setLaunch_memOk, State.writeSeals_memOk, State.quitColls_memOk, State.vacate_memOk, State.clearGo_memOk,
    State.writeDone_memOk, State.memOk]

theorem State.coreRead_memOk {s : State} {core} (ok : s.memOk = true) : (s.coreRead core).memOk = true := by
  unfold State.coreRead
  grind [State.readArray_memOk, State.memOk]

theorem State.arrayFault_memOk {s : State} {core} (ok : s.memOk = true) : (s.arrayFault core).memOk = true :=
  foldl_memOk (fun _ _ h => State.endLaunch_memOk h) _ (State.memOk_of rfl rfl ok)

theorem State.replayed_memOk {s : State} {w} (ok : s.memOk = true) : (s.replayed w).memOk = true := ok

theorem State.faultAccess_memOk {s : State} {l core slot k w va f} (ok : s.memOk = true) :
    (s.faultAccess l core slot k w va f).memOk = true := by
  unfold State.faultAccess
  dsimp only
  split
  · exact foldl_memOk (fun _ _ h => State.endLaunch_memOk h) _ (State.formFault_memOk ok)
  · exact State.formFault_memOk ok

theorem State.useTrans_memOk {s : State} {n} (ok : s.memOk = true) : (s.useTrans n).memOk = true := by
  unfold State.useTrans
  grind [State.memOk]

theorem State.askTrans_memOk {s : State} {e obj fn width budget hall} (ok : s.memOk = true) :
    (s.askTrans e obj fn width budget hall).memOk = true := by
  unfold State.askTrans
  grind [State.memOk]

theorem State.awaitTrans_memOk {s : State} {gid pid fn p} (ok : s.memOk = true) : (s.awaitTrans gid pid fn p).memOk = true := by
  unfold State.awaitTrans
  grind [State.askTrans_memOk, State.bump_memOk, State.setGroup_memOk]

theorem State.countEntry_memOk {s : State} {e core stage} (ok : s.memOk = true) : (s.countEntry e core stage).memOk = true := by
  unfold State.countEntry
  grind [State.bump_memOk]

theorem State.takeTrapOr_memOk {s : State} {gid pid p t} {wait : Nat → State} (ok : s.memOk = true)
    (hwait : ∀ v, (wait v).memOk = true) :
    (s.takeTrapOr gid pid p t wait).memOk = true := by
  unfold State.takeTrapOr
  grind [State.endLaunch_memOk, State.useTrans_memOk, State.countEntry_memOk, State.setGroup_memOk, State.bump_memOk]

theorem State.takeTrap_memOk {s : State} {gid pid p t} (ok : s.memOk = true) : (s.takeTrap gid pid p t).memOk = true := by
  unfold State.takeTrap
  grind [State.takeTrapOr_memOk, State.awaitTrans_memOk]

theorem State.recall_memOk {s : State} {gid pid p k opnds owed} (ok : s.memOk = true) :
    (s.recall gid pid p k opnds owed).memOk = true := by
  unfold State.recall
  grind [State.takeTrap_memOk, State.setGroup_memOk]

theorem State.raiseTrap_memOk {s : State} {gid pid p t} (ok : s.memOk = true) : (s.raiseTrap gid pid p t).memOk = true := by
  unfold State.raiseTrap
  grind [State.takeTrap_memOk, State.recall_memOk]

theorem State.leaveHandler_memOk {s : State} {gid} (ok : s.memOk = true) : (s.leaveHandler gid).memOk = true := by
  unfold State.leaveHandler
  grind [State.endLaunch_memOk, State.setGroup_memOk]

theorem Exe.complete_memOk {x : Exe} {i g mode} (ok : x.s.memOk = true) : (x.complete i g mode).memOk = true := ok

theorem Exe.commit_memOk {x : Exe} {i res flags} (ok : x.s.memOk = true) : (x.commit i res flags).memOk = true := ok

theorem Exe.trap_memOk {x : Exe} {i code lanes flags} (ok : x.s.memOk = true) : (x.trap i code lanes flags).memOk = true :=
  State.raiseTrap_memOk ok

theorem Exe.onCore_memOk {x : Exe} {i} {k : Exe → State} (ok : x.s.memOk = true)
    (hk : ∀ y, y.s.memOk = true → (k y).memOk = true) :
    (x.onCore i k).memOk = true := by
  unfold Exe.onCore
  grind [State.recall_memOk]

theorem Exe.obey_memOk {x : Exe} {i a2} (ok : x.s.memOk = true) : (x.obey i a2).memOk = true := by
  unfold Exe.obey
  grind [Exe.commit_memOk, Exe.trap_memOk]

theorem Exe.lanewise_memOk {x : Exe} {i} {f : List (Nat × List Val) → Nat → List Val → LaneOut} (ok : x.s.memOk = true) :
    (x.lanewise i f).memOk = true :=
  Exe.obey_memOk ok

theorem Exe.commitAll_memOk {x : Exe} {i res flags} (ok : x.s.memOk = true) : (x.commitAll i res flags).memOk = true := ok

theorem Exe.upon_memOk {x : Exe} {s : State} (ok : s.memOk = true) : (x.upon s).s.memOk = true := ok

theorem State.trapAt_memOk {s : State} {gid pid code} (ok : s.memOk = true) : (s.trapAt gid pid code).memOk = true := by
  unfold State.trapAt
  grind [State.raiseTrap_memOk]

theorem Exe.trapAll_memOk {x : Exe} {i code} (ok : x.s.memOk = true) : (x.trapAll i code).memOk = true := Exe.trap_memOk ok

theorem Exe.once_memOk {x : Exe} {i} {k : List Val → State} (ok : x.s.memOk = true) (hk : ∀ v, (k v).memOk = true) :
    (x.once i k).memOk = true := by
  unfold Exe.once
  grind [Exe.trap_memOk]

theorem State.setBar_memOk {s : State} {team b x} (ok : s.memOk = true) : (s.setBar team b x).memOk = true :=
  State.setTeam_same_spad ok team team rfl

theorem State.meetStep_memOk {s : State} {gid m} (ok : s.memOk = true) : (s.meetStep gid m).memOk = true := by
  unfold State.meetStep
  grind [State.trapAt_memOk, State.setGroup_memOk, State.setBar_memOk, State.setLaunch_memOk]

theorem Exe.arriveAt_memOk {x : Exe} {m} (ok : x.s.memOk = true) : (x.arriveAt m).memOk = true := State.meetStep_memOk ok

theorem Exe.depart_memOk {x : Exe} {i b n res} (ok : x.s.memOk = true) : (x.depart i b n res).memOk = true := ok

theorem Exe.barArrive_memOk {x : Exe} {i sync} (ok : x.s.memOk = true) : (x.barArrive i sync).memOk = true := by
  unfold Exe.barArrive
  grind [Exe.depart_memOk, Exe.commitAll_memOk, Exe.once_memOk, Exe.trapAll_memOk, Exe.arriveAt_memOk]

theorem Exe.barWait_memOk {x : Exe} {i} (ok : x.s.memOk = true) : (x.barWait i).memOk = true := by
  unfold Exe.barWait
  grind [Exe.commitAll_memOk, Exe.trap_memOk, Exe.trapAll_memOk, Exe.put_memOk]

theorem Exe.flight_memOk {x : Exe} {i} (ok : x.s.memOk = true) : (x.flight i).memOk = true := by
  unfold Exe.flight
  grind [Exe.commitAll_memOk, Exe.once_memOk, Exe.trapAll_memOk, Exe.arriveAt_memOk]

theorem State.maskMismatch_memOk {s : State} {gid also} (ok : s.memOk = true) : (s.maskMismatch gid also).memOk = true := by
  unfold State.maskMismatch
  grind [State.trapAt_memOk, State.setGroup_memOk]

theorem Exe.barm_memOk {x : Exe} {i} (ok : x.s.memOk = true) : (x.barm i).memOk = true := by
  unfold Exe.barm
  grind [Exe.commitAll_memOk, Exe.trap_memOk, State.bump_memOk, State.maskMismatch_memOk, State.setGroup_memOk]

theorem State.meetAll_memOk {s : State} {gid} (ok : s.memOk = true) : (s.meetAll gid).memOk = true := by
  unfold State.meetAll
  have := foldl_memOk (fun t m h => State.meetStep_memOk (gid := gid) (m := m) h) ((s.group gid).ctx.meets.map Prod.fst) ok
  grind [State.maskMismatch_memOk]

theorem Exe.count_memOk {x : Exe} {s : State} {n} (ok : s.memOk = true) : (x.count s n).memOk = true := State.bump_memOk ok

theorem Exe.phis_memOk {x : Exe} {run} (ok : x.s.memOk = true) : (x.phis run).memOk = true := by
  unfold Exe.phis
  grind [State.raiseTrap_memOk, Exe.count_memOk, Exe.put_memOk]

theorem Exe.branch_memOk {x : Exe} {i arms flags again} (ok : x.s.memOk = true) : (x.branch i arms flags again).memOk = true := by
  unfold Exe.branch
  grind [Exe.trapAll_memOk, Exe.put_memOk, State.setLaunch_memOk, Exe.count_memOk]

theorem Exe.choose_memOk {x : Exe} {i} {pick : List Val → Nat} (ok : x.s.memOk = true) : (x.choose i pick).memOk = true := by
  unfold Exe.choose
  grind [Exe.branch_memOk, Exe.trap_memOk]

theorem State.sampleJoins_memOk {s : State} {e} (ok : s.memOk = true) : ∀ n, (s.sampleJoins e n).memOk = true
  | 0 => ok
  | n + 1 => State.sampleEncl_memOk (State.sampleJoins_memOk ok n)

theorem State.settleGroup_memOk {s : State} {gid} (ok : s.memOk = true) : (s.settleGroup gid).memOk = true := by
  unfold State.settleGroup
  grind [State.setGroup_memOk, State.sampleJoins_memOk]

theorem Exe.land_memOk {x : Exe} {r} (ok : x.s.memOk = true) : (x.land r).memOk = true := State.settleGroup_memOk ok

theorem Exe.join_memOk {x : Exe} {i id} (ok : x.s.memOk = true) : (x.join i id).memOk = true := by
  unfold Exe.join
  grind [Exe.land_memOk, Exe.put_memOk, Exe.count_memOk]

theorem State.onFrozen_memOk {s : State} {gid} {f : State → State} (ok : s.memOk = true)
    (hf : ∀ t, t.memOk = true → (f t).memOk = true) :
    (s.onFrozen gid f).memOk = true := by
  unfold State.onFrozen
  grind [State.setGroup_memOk]

theorem State.onPlaced_memOk {s : State} {gid pid} {f : Exe → State} (ok : s.memOk = true)
    (hf : ∀ y, y.s.memOk = true → (f y).memOk = true) :
    (s.onPlaced gid pid f).memOk = true := by
  unfold State.onPlaced
  grind [State.onFrozen_memOk]

theorem Exe.reeject_memOk {x : Exe} (ok : x.s.memOk = true) : (x.reeject).memOk = true := by
  unfold Exe.reeject
  grind [Exe.put_memOk, State.settleGroup_memOk]

theorem Exe.recallDone_memOk {x : Exe} {k} (ok : x.s.memOk = true) : (x.recallDone k).memOk = true := by
  unfold Exe.recallDone
  grind [Exe.reeject_memOk, Exe.put_memOk, State.settleGroup_memOk, State.takeTrapOr_memOk, State.awaitTrans_memOk]

theorem Exe.enter_memOk {x : Exe} {i fn from_ flags} (ok : x.s.memOk = true) : (x.enter i fn from_ flags).memOk = true := by
  unfold Exe.enter
  grind [State.endLaunch_memOk, State.awaitTrans_memOk, Exe.count_memOk, State.useTrans_memOk, State.countEntry_memOk,
    Exe.put_memOk, State.memOk]

theorem Exe.unlessPoison_memOk {x : Exe} {i} {k : BitVec 6 → State} (ok : x.s.memOk = true) (hk : ∀ v, (k v).memOk = true) :
    (x.unlessPoison i k).memOk = true := by
  unfold Exe.unlessPoison
  grind [Exe.trap_memOk]

theorem State.finishGangs_memOk {s : State} {l} (ok : s.memOk = true) : (s.finishGangs l).memOk = true := by
  refine foldl_memOk (fun t g h => ?_) _ ok
  split
  · exact State.endTurns_memOk (State.memOk_of rfl rfl (State.dropTeams_memOk (State.setLaunch_memOk (State.elapsed_memOk h))))
  · exact h

theorem State.failLatch_memOk {s : State} {team n} (ok : s.memOk = true) : (s.failLatch team n).memOk = true := by
  unfold State.failLatch
  refine foldl_memOk (fun t w h => ?_) _ (State.setTeam_same_spad ok team team rfl)
  grind [State.trapAt_memOk, State.setGroup_memOk]

theorem State.checkLatches_memOk {s : State} {team} (ok : s.memOk = true) : (s.checkLatches team).memOk = true := by
  refine foldl_memOk (fun t n h => ?_) _ ok
  grind [State.failLatch_memOk]

theorem State.afterLeave_memOk {s : State} {gid} (ok : s.memOk = true) : (s.afterLeave gid).memOk = true := by
  unfold State.afterLeave
  grind [State.checkLatches_memOk, State.meetAll_memOk, State.leaveHandler_memOk, State.settleGroup_memOk,
    State.finishGangs_memOk]

theorem Exe.setm_memOk {x : Exe} {i} {f : List Val → BitVec 64 → BitVec 64} (ok : x.s.memOk = true) :
    (x.setm i f).memOk = true := by
  unfold Exe.setm
  grind [Exe.once_memOk, Exe.complete_memOk]

theorem Exe.cycles_memOk {x : Exe} (ok : x.s.memOk = true) : x.cycles.2.memOk = true := by
  unfold Exe.cycles
  dsimp only
  split <;> exact ok

theorem Exe.arith_memOk {x : Exe} {i t} {f : Nat → List Num → Num × BitVec 6} (ok : x.s.memOk = true) :
    (x.arith i t f).memOk = true :=
  Exe.lanewise_memOk ok

theorem Exe.scan_memOk {x : Exe} {i k ex} (ok : x.s.memOk = true) : (x.scan i k ex).memOk = true := by
  unfold Exe.scan
  grind [Exe.trap_memOk, Exe.commit_memOk]

theorem Exe.touchAll_memOk {x : Exe} {hint write ps} {s : State} (ok : s.memOk = true) :
    (x.touchAll hint write s ps).memOk = true :=
  (x.touchAll_only ..).memOk ok

theorem Exe.access_memOk {x : Exe} {run : Run} {hint farData atomic r} (ok : run.s.memOk = true) :
    (x.access hint farData atomic run r).s.memOk = true := by
  grind [Exe.access, State.faultAccess_memOk, State.startSearch_memOk, Exe.touchAll_memOk, State.writePieces_memOk,
    State.endLaunch_memOk,
    State.sendFar_memOk, State.memOk]

theorem Exe.settleRun_memOk {x : Exe} {i lanes finish flags} {run : Run} (ok : run.s.memOk = true) :
    (x.settleRun i lanes finish flags run).memOk = true := by
  unfold Exe.settleRun
  split
  · exact ok
  · split
    · exact Exe.commit_memOk ok
    · exact State.setGroup_memOk ok

theorem Exe.accessSpad_memOk {x : Exe} {run : Run} {r} (ok : run.s.memOk = true) : (x.accessSpad run r).s.memOk = true := by
  grind [Exe.accessSpad, State.spadWrite_memOk]

theorem Exe.memory_memOk {x : Exe} {i o} (ok : x.s.memOk = true) : (x.memory i o).memOk = true := by
  unfold Exe.memory
  split
  · exact Exe.trap_memOk ok
  · refine Exe.settleRun_memOk ?_
    refine List.foldlRecOn (motive := fun run : Run => run.s.memOk = true) _ _ ok fun run h r _ => ?_
    split
    · exact Exe.accessSpad_memOk h
    · exact Exe.access_memOk h

theorem Exe.cacheOp_memOk {x : Exe} {i} {f : State → List (Nat × Nat) → State} (ok : x.s.memOk = true)
    (hf : ∀ t v, t.memOk = true → (f t v).memOk = true) :
    (x.cacheOp i f).memOk = true := by
  unfold Exe.cacheOp
  grind [Exe.trap_memOk, Exe.commit_memOk, Exe.upon_memOk]

theorem State.evictLines_memOk {s : State} {ls} (ok : s.memOk = true) : (s.evictLines ls).memOk = true :=
  State.memOk_of rfl rfl (foldl_memOk (f := State.share) (fun _ _ h => State.share_memOk h) ls ok)

theorem State.engTouch_memOk {s : State} {w va write bs ps} (ok : s.memOk = true) :
    (s.engTouch w va write bs ps).memOk = true := by
  refine foldl_memOk (fun t p h => ?_) _ ok
  grind [State.touch_memOk, State.askWindow_memOk]

theorem State.engRead_memOk {s : State} {w spad va n} (ok : s.memOk = true) : okPair (s.engRead w spad va n) := by
  unfold State.engRead
  split
  · split <;> exact ok
  · split
    · trivial
    · exact State.engTouch_memOk ok

theorem State.engWrite_memOk {s : State} {w spad va bs} (ok : s.memOk = true) : okState (s.engWrite w spad va bs) := by
  unfold State.engWrite
  split
  · split
    · exact State.spadWrite_memOk _ _ _ _ ok
    · exact ok
  · split
    · trivial
    · refine foldl_memOk (fun t p h => ?_) _ (State.engTouch_memOk ok)
      grind [State.store_memOk]

theorem State.keepSeen_memOk {s : State} {op key bs} (ok : s.memOk = true) : (s.keepSeen op key bs).memOk = true := ok

theorem State.readPart_memOk {s : State} {w spad a n} (ok : s.memOk = true) : okPair (s.readPart w spad a n) := by
  unfold State.readPart
  dsimp only
  split
  · split
    · exact ok
    · exact okAll_map (State.engRead_memOk ok) fun _ h => State.keepSeen_memOk h
  · exact State.engRead_memOk ok

theorem State.engSource_memOk {s : State} {w spad va n} (ok : s.memOk = true) : okPair (s.engSource w spad va n) := by
  refine okPair_foldlM (fun q p h => ?_) _ (show (s, ([] : List Byte)).1.memOk = true from ok)
  exact okPair_map (State.readPart_memOk h) fun _ h => h

theorem State.writeGranule_memOk {s : State} {w spad u v m} (ok : s.memOk = true) : okState (s.writeGranule w spad u v m) := by
  refine okAll_foldlM (fun t r h => ?_) _ ok
  dsimp only
  split
  · exact State.engWrite_memOk h
  · exact okAll_bind (State.engRead_memOk h) fun _ h => State.engWrite_memOk h

theorem State.readElt_memOk {s : State} {w d a3} (ok : s.memOk = true) : okPair (s.readElt w d a3) := by
  unfold State.readElt
  split
  · exact ok
  · exact ok
  · refine okAll_bind (State.engRead_memOk ok) fun _ h => ?_
    dsimp only
    split
    · exact okAll_bind (State.engRead_memOk h) fun _ h => h
    · exact h

theorem State.writeElt_memOk {s : State} {w d off bit v} (ok : s.memOk = true) : okState (s.writeElt w d off bit v) := by
  unfold State.writeElt
  dsimp only
  split
  · exact State.engWrite_memOk ok
  · exact okAll_bind (State.engRead_memOk ok) fun _ h => State.engWrite_memOk h

theorem Exe.issue_memOk {x : Exe} {o} {k : Exe → BitVec 64 → Nat → State} (ok : x.s.memOk = true)
    (hk : ∀ y v1 v, y.s.memOk = true → (k y v1 v).memOk = true) : (x.issue o k).memOk = true := by
  unfold Exe.issue
  split
  · exact ok
  · exact hk _ _ _ (State.memOk_of rfl rfl (State.setTeam_same_spad ok x.g.team x.g.team rfl))

theorem State.dropWaiter_memOk {s : State} {w} (ok : s.memOk = true) : (s.dropWaiter w).memOk = true := ok

theorem State.landOn_memOk {s : State} {k n} (ok : s.memOk = true) : (s.landOn k n).memOk = true := by
  unfold State.landOn
  grind [State.setBar_memOk]

theorem State.setStatus_memOk {s : State} {k st} (ok : s.memOk = true) : (s.setStatus k st).memOk = true := by
  unfold State.setStatus
  split
  · exact ok
  · next o _ =>
    have h : (if st = futCancelled then s.landOn k o.bytes else s).memOk = true := by grind [State.landOn_memOk]
    generalize (if st = futCancelled then s.landOn k o.bytes else s) = t at h
    have h : ({ t with ops := mset t.ops k { o with status := st } } : State).memOk = true := h
    dsimp only
    split
    · exact State.setTeam_same_spad h o.team o.team rfl
    · exact h

theorem State.combineAll_memOk : ∀ (fuel : Nat) {s : State}, s.memOk = true → (State.combineAll fuel s).memOk = true
  | 0, _, ok => ok
  | fuel + 1, s, ok => by
    unfold State.combineAll
    dsimp only
    split
    · exact ok
    · split
      · exact ok
      · exact State.combineAll_memOk fuel (State.setStatus_memOk ok)

theorem State.copyTiles_memOk {s : State} {k} (ok : s.memOk = true) : (s.copyTiles k).memOk = true := ok

theorem State.sealEnd_memOk {s : State} {k o st} (ok : s.memOk = true) : (s.sealEnd k o st).memOk = true := by
  unfold State.sealEnd
  grind [State.setLaunch_memOk]

theorem State.finishOp_memOk {s : State} {k st} (ok : s.memOk = true) : (s.finishOp k st).memOk = true := by
  unfold State.finishOp
  grind [State.sealEnd_memOk, State.copyTiles_memOk, State.setStatus_memOk, State.dropWaiter_memOk, State.finishGangs_memOk,
    State.combineAll_memOk, State.memOk]

theorem State.engStop_memOk {s : State} {k o e} (ok : s.memOk = true) : (s.engStop k o e).memOk = true := by
  unfold State.engStop
  grind [State.finishOp_memOk, State.faultAccess_memOk, State.startSearch_memOk]

theorem State.startEarlier_memOk {s : State} {k o} (ok : s.memOk = true) : (s.startEarlier k o).memOk = true := ok

theorem State.stepDone_memOk {s : State} {k n bytes flags} (ok : s.memOk = true) : (s.stepDone k n bytes flags).memOk = true := by
  unfold State.stepDone
  grind [State.dropWaiter_memOk, State.landOn_memOk, State.startEarlier_memOk, State.finishOp_memOk, State.memOk]

theorem State.stepOp_memOk {s : State} {k n o f} (ok : s.memOk = true) (hf : okPair f) : (s.stepOp k n o f).memOk = true := by
  unfold State.stepOp
  split
  · exact State.engStop_memOk ok
  · exact State.stepDone_memOk hf

theorem State.linearStep_memOk {s : State} {k o i} (ok : s.memOk = true) : okPair (s.linearStep k o i) :=
  okPair_bind (State.engSource_memOk ok) fun _ h => okState_bind (State.engWrite_memOk h) fun _ h => h

theorem State.sourceElt_memOk {s : State} {w c j} (ok : s.memOk = true) : okPair (s.sourceElt w c j) := by
  unfold State.sourceElt
  split
  · exact State.readElt_memOk ok
  · exact State.readElt_memOk ok
  · dsimp only
    split
    · split
      · exact ok
      · refine okState_bind (okState_foldlM (fun t i h => ?_) _ ok) fun _ h => h
        exact okPair_map (State.readElt_memOk h) fun _ h => State.keepSeen_memOk h
    · exact State.readElt_memOk ok

theorem State.copyElts_memOk {k o w} : ∀ (js : List Nat) {s : State}, s.memOk = true → okPair (s.copyElts k o w js)
  | [], _, ok => ok
  | _ :: js, _, ok =>
    okAll_bind (State.sourceElt_memOk ok) fun _ h => okAll_bind (State.copyElts_memOk js h) fun _ h => h

theorem State.putGranule_memOk {s : State} {w d u es} (ok : s.memOk = true) : okState (s.putGranule w d u es) :=
  State.writeGranule_memOk ok

theorem State.blockElts_memOk {k o w} : ∀ (js : List Nat) {s : State}, s.memOk = true → okPair (s.blockElts k o w js)
  | [], _, ok => ok
  | _ :: js, _, ok =>
    okAll_bind (State.sourceElt_memOk ok) fun _ h => okAll_bind (State.blockElts_memOk js h) fun _ h => h

theorem State.storedElts_memOk {k o d u} : ∀ (es : List Nat) {s : State}, s.memOk = true → okPair (s.storedElts k o d u es)
  | [], _, ok => ok
  | _ :: es, _, ok =>
    okAll_bind (State.engRead_memOk ok) fun _ h => okAll_bind (State.storedElts_memOk es h) fun _ h => h

theorem State.putBlock_memOk {k o d u} : ∀ (es : List (Nat × Nat)) {s : State}, s.memOk = true → okState (s.putBlock k o d u es)
  | [], _, ok => ok
  | _ :: es, _, ok => okAll_bind (State.writeElt_memOk ok) fun _ h => State.putBlock_memOk es h

theorem State.encodeUnit_memOk {s : State} {k o d u got} {kept : Nat → Rounding} (ok : s.memOk = true) :
    okPair (s.encodeUnit k o d u got kept) := by
  unfold State.encodeUnit
  dsimp only
  split
  · exact okPair_bind (r := .ok (s, [127])) ok fun q h => okPair_bind (State.storedElts_memOk _ h) fun q h =>
      okState_bind (State.putBlock_memOk _ h) fun t h => okState_bind (State.engWrite_memOk h) fun t h => h
  · exact okPair_bind (State.engRead_memOk ok) fun q h => okPair_bind (State.storedElts_memOk _ h) fun q h =>
      okState_bind (State.putBlock_memOk _ h) fun t h => okState_bind (State.engWrite_memOk h) fun t h => h

theorem State.copyBlock_memOk {s : State} {k o w u js} (ok : s.memOk = true) : okPair (s.copyBlock k o w u js) := by
  refine okAll_bind (State.blockElts_memOk _ ok) fun _ h => ?_
  dsimp only
  split
  · exact okAll_bind (State.putBlock_memOk _ h) fun _ h => okAll_bind (State.engWrite_memOk h) fun _ h => h
  · exact State.encodeUnit_memOk h

theorem State.tensorStep_memOk {s : State} {k o i} (ok : s.memOk = true) : okPair (s.tensorStep k o i) := by
  unfold State.tensorStep
  dsimp only
  split
  · exact ok
  · split
    · exact okPair_bind (State.copyBlock_memOk ok) fun _ h => h
    · exact okPair_bind (State.copyElts_memOk _ ok) fun _ h => okState_bind (State.putGranule_memOk h) fun _ h => h

theorem Exe.engine_memOk {x : Exe} {i barAt} {k : List Val → State} (ok : x.s.memOk = true) (hk : ∀ v, (k v).memOk = true) :
    (x.engine i barAt k).memOk = true := by
  unfold Exe.engine
  grind [Exe.trapAll_memOk, Exe.commit_memOk, Exe.once_memOk]

theorem Exe.launchOp_memOk {x : Exe} {i o} (ok : x.s.memOk = true) : (x.launchOp i o).memOk = true := by
  unfold Exe.launchOp
  grind [Exe.trap_memOk, Exe.issue_memOk, Exe.commitAll_memOk]

theorem Exe.copyLinear_memOk {x : Exe} {i sub scope vs} (ok : x.s.memOk = true) : (x.copyLinear i sub scope vs).memOk = true := by
  unfold Exe.copyLinear
  grind [Exe.trap_memOk, Exe.launchOp_memOk, Exe.onCore_memOk]

theorem Exe.copyTensor_memOk {x : Exe} {i sub scope vs} (ok : x.s.memOk = true) : (x.copyTensor i sub scope vs).memOk = true := by
  unfold Exe.copyTensor
  grind [Exe.trap_memOk, Exe.launchOp_memOk, Exe.onCore_memOk]

theorem State.beginRows_memOk {s : State} {k o} (ok : s.memOk = true) : (s.beginRows k o).1.memOk = true := by
  unfold State.beginRows
  grind [State.memOk]

theorem State.gatherStep_memOk {s : State} {k o i} (ok : s.memOk = true) : okPair (s.gatherStep k o i) := by
  unfold State.gatherStep
  refine okPair_bind (okPair_foldlM (fun q p h => ?_) _ ?_) fun q h => okState_bind (State.engWrite_memOk h) fun _ h => h
  · exact okPair_map (State.engSource_memOk h) fun _ h => h
  · exact ok

theorem State.scatterStep_memOk {s : State} {k o i} (ok : s.memOk = true) : okPair (s.scatterStep k o i) := by
  unfold State.scatterStep
  refine okPair_bind (okPair_foldlM (fun q p h => ?_) _ ?_) fun q h => okState_bind (State.writeGranule_memOk h) fun _ h => h
  · exact okPair_map (State.engSource_memOk h) fun _ h => h
  · exact ok

theorem Exe.gather_memOk {x : Exe} {i scatter bar scope} (ok : x.s.memOk = true) :
    (x.gather i scatter bar scope).memOk = true := by
  unfold Exe.gather
  grind [Exe.engine_memOk, Exe.trap_memOk, Exe.launchOp_memOk]

theorem Exe.stopped_memOk {x : Exe} {kind st} (ok : x.s.memOk = true) : (x.stopped kind st).memOk = true := by
  unfold Exe.stopped
  grind [State.faultAccess_memOk, State.startSearch_memOk, State.endLaunch_memOk, State.memOk]

theorem Exe.plainRead_memOk {x : Exe} {va kind n} {k : State → List Byte → State} (ok : x.s.memOk = true)
    (hk : ∀ t v, t.memOk = true → (k t v).memOk = true) :
    (x.plainRead va kind n k).memOk = true := by
  unfold Exe.plainRead
  grind [Exe.stopped_memOk, Exe.touchAll_memOk, State.endLaunch_memOk, State.askWindow_memOk]

theorem Exe.futures_memOk {x : Exe} {i} {k : FutViews → BitVec 6 → State} (ok : x.s.memOk = true)
    (hk : ∀ v0 v, (k v0 v).memOk = true) :
    (x.futures i k).memOk = true := by
  unfold Exe.futures
  grind [Exe.trapAll_memOk, Exe.trap_memOk]

theorem Exe.observing_memOk {x : Exe} {fs} (ok : x.s.memOk = true) : (x.observing fs).s.memOk = true := ok

theorem Exe.resume_memOk {x : Exe} {i fs flags} (ok : x.s.memOk = true) : (x.resume i fs flags).memOk = true := ok

theorem Exe.collBuild_memOk {x : Exe} {i scope vs down ms} (ok : x.s.memOk = true) :
    (x.collBuild i scope vs down ms).memOk = true := by
  unfold Exe.collBuild
  grind [Exe.issue_memOk, Exe.commitAll_memOk, State.setEncl_memOk, Exe.upon_memOk, State.memOk]

theorem Exe.collIssueTo_memOk {x : Exe} {i scope form op h n root vs} {k : Exe → BitVec 64 → Nat → State} (ok : x.s.memOk = true)
    (hk : ∀ y v1 v, y.s.memOk = true → (k y v1 v).memOk = true) :
    (x.collIssueTo i scope form op h n root vs k).memOk = true := by
  unfold Exe.collIssueTo
  grind [Exe.issue_memOk, State.collSend_memOk, Exe.upon_memOk, State.memOk]

theorem Exe.collIssue_memOk {x : Exe} {i scope form op h n root vs} (ok : x.s.memOk = true) :
    (x.collIssue i scope form op h n root vs).memOk = true := by
  unfold Exe.collIssue
  grind [Exe.collIssueTo_memOk, Exe.commitAll_memOk]

theorem State.collAbort_memOk {s : State} {k o st} (ok : s.memOk = true) : (s.collAbort k o st).memOk = true := by
  unfold State.collAbort
  grind [State.finishOp_memOk, State.collSend_memOk, State.memOk]

theorem State.collStep_memOk {s : State} {k o i} (ok : s.memOk = true) : (s.collStep k o i).memOk = true := by
  unfold State.collStep
  dsimp only
  split
  · exact ok
  · split
    · exact State.collAbort_memOk ok
    · split
      · split
        · exact State.engStop_memOk ok
        · next h =>
          refine State.stepDone_memOk ?_
          have := okPair_elim h (State.engRead_memOk ok)
          split
          · exact State.collSend_memOk (State.memOk_of rfl rfl this)
          · exact State.memOk_of rfl rfl this
      · split
        · exact State.stepOp_memOk (State.memOk_of rfl rfl ok)
            (okAll_map (State.engWrite_memOk (State.memOk_of rfl rfl ok)) fun _ h => h)
        · exact ok

theorem State.collFinish_memOk {s : State} {k o} (ok : s.memOk = true) : (s.collFinish k o).memOk = true := by
  unfold State.collFinish
  grind [State.collAbort_memOk, State.finishOp_memOk, State.memOk]

theorem State.cancelOp_memOk {s : State} {k} (ok : s.memOk = true) : (s.cancelOp k).memOk = true := by
  unfold State.cancelOp
  grind [State.collAbort_memOk, State.finishOp_memOk, State.memOk]

theorem State.loadObj_memOk {s : State} {unit e va} (ok : s.memOk = true) : okPair (s.loadObj unit e va) := by
  unfold State.loadObj
  split
  · exact ok
  · refine okAll_bind (okAll_true _) fun _ _ => okAll_bind (okAll_true _) fun _ _ => ?_
    exact State.memOk_of rfl rfl (foldl_memOk (fun _ _ h => State.hwTouch_memOk h) _ ok)

theorem State.enterLaunch_memOk {s : State} {q l status} (ok : s.memOk = true) : (s.enterLaunch q l status).memOk = true := by
  unfold State.enterLaunch
  grind [State.setEncl_memOk, State.setLaunch_memOk, State.writeDone_memOk, State.memOk]

theorem State.accept_memOk {s : State} {unit e q va} (ok : s.memOk = true) : okPair (s.accept unit e q va) := by
  unfold State.accept
  split
  · exact ok
  · split
    · trivial
    · exact ok
    · have ok := State.hwTouch_memOk (unit := unit) (e := e) (va := va) (k := .load) (bs := leBytes 128 0) ok
      generalize s.hwTouch unit e va .load (leBytes 128 0) = t at ok ⊢
      dsimp only
      split
      · trivial
      · exact State.enterLaunch_memOk ok
      · next h =>
        have ok := okPair_elim h (okAll_bind (okAll_true _) fun ps _ => okAll_bind (okAll_true _) fun _ _ =>
          okPair_bind (State.loadObj_memOk (State.hwTouch_memOk ok)) fun _ h => h)
        split
        · trivial
        · exact State.enterLaunch_memOk ok
        · exact State.enterLaunch_memOk (State.hwTouch_memOk ok)

theorem State.evict_memOk {hall keep} : ∀ (fuel : Nat) {s : State}, s.memOk = true → (State.evict hall keep fuel s).memOk = true
  | 0, _, ok => ok
  | fuel + 1, s, ok => by
    unfold State.evict
    dsimp only
    split
    · exact ok
    · split
      · exact ok
      · exact State.evict_memOk fuel (State.memOk_of rfl rfl ok)

theorem State.chargeGraft_memOk {s : State} {t} (ok : s.memOk = true) : (s.chargeGraft t).memOk = true :=
  foldl_memOk (fun _ _ h => State.bump_memOk h) _ ok

theorem State.install_memOk {s : State} {t} (ok : s.memOk = true) : (s.install t).memOk = true := by
  unfold State.install
  grind [State.evict_memOk, State.chargeGraft_memOk, State.memOk]

theorem State.grafted_memOk {s : State} {e obj fn width budget hall} (ok : s.memOk = true) :
    okPair (s.grafted e obj fn width budget hall) := by
  unfold State.grafted
  split
  · exact okAll_map (State.hwTake_memOk ok) fun _ h => h
  · exact ok

theorem State.graft_memOk {s : State} {e obj fn width budget hall} (ok : s.memOk = true) :
    okState (s.graft e obj fn width budget hall) := by
  unfold State.graft
  split
  · exact ok
  · refine okAll_map (State.grafted_memOk ok) fun r h => ?_
    cases r.2 with
    | none => exact h
    | some t => exact State.install_memOk h

theorem State.endBuilding_memOk {s : State} {n b} (ok : s.memOk = true) : (s.endBuilding n b).memOk = true := by
  have ok : ({ s with building := mdel s.building n } : State).memOk = true := ok
  unfold State.endBuilding
  dsimp only
  split
  · split
    · next h => exact State.chargeGraft_memOk (okPair_elim h (State.grafted_memOk ok))
    · next h => exact okPair_elim h (State.grafted_memOk ok)
    · exact ok
  · split
    · next h => exact okState_elim h (State.graft_memOk ok)
    · split
      · exact foldl_memOk (fun _ _ h => State.faultAccess_memOk h) _ ok
      · exact State.startSearch_memOk ok
      · exact foldl_memOk (fun _ _ h => State.endLaunch_memOk h) _ ok
      · exact ok
      · exact ok

theorem Exe.leaveAs_memOk {x : Exe} {g skip mode} (ok : x.s.memOk = true) : (x.leaveAs g skip mode).memOk = true :=
  State.afterLeave_memOk (State.settleGroup_memOk ok)

theorem Exe.inHandler_memOk {x : Exe} {i} {k : Handler → State} (ok : x.s.memOk = true) (hk : ∀ v, (k v).memOk = true) :
    (x.inHandler i k).memOk = true := by
  unfold Exe.inHandler
  grind [Exe.commit_memOk, Exe.trap_memOk]

theorem State.invalidate_memOk {s : State} {e r} (ok : s.memOk = true) : (s.invalidate e r).memOk = true := ok

theorem State.prefetch_memOk {s : State} {e halls forms r} (ok : s.memOk = true) : okState (s.prefetch e halls forms r) := by
  refine okState_foldlM (fun t f h => okState_foldlM (fun t hall h => okState_foldlM (fun t w h => ?_) _ h) _ h) _ ok
  split
  · exact h
  · split
    · exact h
    · exact State.graft_memOk h

theorem State.pinAll_memOk {e by_} : ∀ (ps : List (Nat × Option Nat)) {s : State}, s.memOk = true →
    (State.pinAll e by_ ps s).1.memOk = true
  | [], _, ok => ok
  | (n, core) :: rest, s, ok => by
    have next : ∀ {t : State}, t.memOk = true → (State.pinAll e by_ rest t).1.memOk = true := State.pinAll_memOk rest
    unfold State.pinAll
    grind [State.memOk]

theorem State.unpin_memOk {s : State} {e levels r} (ok : s.memOk = true) : (s.unpin e levels r).memOk = true := ok

theorem State.xctl_memOk {s : State} {e cores by_ forms r a6} (ok : s.memOk = true) : okPair (s.xctl e cores by_ forms r a6) := by
  cases a6 with
  | inv => exact State.invalidate_memOk ok
  | pf => exact okAll_map (State.prefetch_memOk ok) fun _ h => h
  | pin hall => exact okAll_bind (State.prefetch_memOk ok) fun _ h => State.pinAll_memOk _ h
  | unpin hall => exact State.unpin_memOk ok

theorem Exe.xctl_memOk {x : Exe} {i} (ok : x.s.memOk = true) : (x.xctl i).memOk = true := by
  unfold Exe.xctl
  grind [Exe.onCore_memOk, Exe.once_memOk, Exe.commitAll_memOk, Exe.trap_memOk, State.memOk]

theorem Exe.setSeals_memOk {x : Exe} {cs} (ok : x.s.memOk = true) : (x.setSeals cs).s.memOk = true := ok

theorem State.sealStep_memOk {s : State} {k o i} (ok : s.memOk = true) : (s.sealStep k o i).memOk = true := by
  unfold State.sealStep
  dsimp only
  split
  · exact ok
  · split
    · exact ok
    · split
      · exact State.engStop_memOk ok
      · next h => exact State.stepDone_memOk (State.setLaunch_memOk (okPair_elim h (State.engSource_memOk ok)))

theorem Exe.onceActive_memOk {x : Exe} {i} {k : List Val → State} (ok : x.s.memOk = true) (hk : ∀ v, (k v).memOk = true) :
    (x.onceActive i k).memOk = true := by
  unfold Exe.onceActive
  grind [Exe.commit_memOk, Exe.once_memOk]

theorem Exe.cutCheck_memOk {x : Exe} {i c} {k : Exe → State} (ok : x.s.memOk = true)
    (hk : ∀ y, y.s.memOk = true → (k y).memOk = true) :
    (x.cutCheck i c k).memOk = true := by
  unfold Exe.cutCheck
  grind [Exe.trap_memOk, State.endLaunch_memOk, Exe.plainRead_memOk, Exe.upon_memOk]

theorem State.addCut_memOk {s : State} {e l spot c} (ok : s.memOk = true) : (s.addCut e l spot c).memOk = true := ok

theorem Exe.awaitCut_memOk {x : Exe} {f c} {s : State} (ok : s.memOk = true) : (x.awaitCut f c s).memOk = true := by
  unfold Exe.awaitCut
  grind [State.addCut_memOk]

theorem Exe.cutDepart_memOk {x : Exe} {i vs k} (ok : x.s.memOk = true) : (x.cutDepart i vs k).memOk = true := by
  unfold Exe.cutDepart
  grind [Exe.issue_memOk, Exe.commitAll_memOk, Exe.upon_memOk, State.memOk]

theorem State.copyRegion_memOk {e dest r} {q : State × Nat} (ok : q.1.memOk = true) : okPair (State.copyRegion e dest q r) := by
  unfold State.copyRegion
  split
  · trivial
  · next h =>
    have := okPair_elim h (State.hwTake_memOk ok)
    split
    · trivial
    · next h => exact okState_elim h (State.hwWrite_memOk this)

theorem State.takeCut_memOk {s : State} {k c} (ok : s.memOk = true) : okState (s.takeCut k c) := by
  unfold State.takeCut
  split
  · exact ok
  · refine okPair_bind (okAll_mapError (State.hwTake_memOk ok)) fun _ h => okPair_bind
      (okAll_mapError (State.hwTake_memOk h)) fun _ h => ?_
    refine okPair_bind (okPair_foldlM (fun _ _ h => State.copyRegion_memOk h) _ h) fun q h => ?_
    exact okState_bind (okAll_mapError (State.hwWrite_memOk h)) fun t h => h

theorem State.freeFlight_memOk {s : State} {l die f stage} (ok : s.memOk = true) : (s.freeFlight l die f stage).memOk = true := ok

theorem State.drain_memOk {k} : ∀ (n : Nat) {s : State}, s.memOk = true → (State.drain k n s).1.memOk = true
  | 0, _, ok => ok
  | n + 1, s, ok => by
    unfold State.drain
    split
    · exact ok
    · dsimp only
      split
      · exact ok
      · split
        · split
          · exact State.startSearch_memOk ok
          all_goals exact ok
        · next h =>
          have := okPair_elim h (State.hwTake_memOk ok)
          exact State.drain_memOk n this

theorem State.drainSome_memOk {s : State} {fs} (ok : s.memOk = true) : (s.drainSome fs).memOk = true := by
  refine foldl_memOk (fun t k h => ?_) _ ok
  split
  · exact h
  · split
    · exact h
    · exact State.drain_memOk _ h

theorem State.setHart_memOk {s : State} {h x} (ok : s.memOk = true) : (s.setHart h x).memOk = true := ok

theorem State.leave_memOk {s : State} {h n pc} (ok : s.memOk = true) : (s.leave h n pc).memOk = true := ok

theorem State.hartTrap_memOk {s : State} {h cause tval} (ok : s.memOk = true) : (s.hartTrap h cause tval).memOk = true := by
  unfold State.hartTrap
  grind [State.leave_memOk, State.setHart_memOk, State.memOk]

theorem State.hartInterrupt_memOk {s : State} {h cause} (ok : s.memOk = true) : (s.hartInterrupt h cause).memOk = true := by
  unfold State.hartInterrupt
  grind [State.hartTrap_memOk, State.setPart_memOk]

theorem State.hartIllegal_memOk {s : State} {h} (ok : s.memOk = true) : (s.hartIllegal h).memOk = true := State.hartTrap_memOk ok

theorem State.threadFault_memOk {s : State} {h k va kind} (ok : s.memOk = true) : (s.threadFault h k va kind).memOk = true := by
  unfold State.threadFault
  grind [State.setEncl_memOk, State.hartTrap_memOk]

theorem State.threadStop_memOk {s : State} {h k st} (ok : s.memOk = true) : (s.threadStop h k st).memOk = true := by
  unfold State.threadStop
  grind [State.threadFault_memOk, State.startSearch_memOk, State.hartTrap_memOk]

theorem State.threadAccess_memOk {s : State} {h e va k n} {f : List (Found × Nat) → State} (ok : s.memOk = true)
    (hf : ∀ v, (f v).memOk = true) :
    (s.threadAccess h e va k n f).memOk = true := by
  unfold State.threadAccess
  grind [State.threadStop_memOk]

theorem State.behindWindow_memOk {s : State} {h e va k ps} {f : State} (ok : s.memOk = true) (hf : f.memOk = true) :
    (s.behindWindow h e va k ps f).memOk = true := by
  unfold State.behindWindow
  grind [State.hartTrap_memOk]

theorem State.placeRead_memOk {s : State} {e n ps} (ok : s.memOk = true) : (s.placeRead e n ps).1.memOk = true := by
  unfold State.placeRead
  grind [State.askWindow_memOk]

theorem State.placeWrite_memOk {s : State} {e ps bs} (ok : s.memOk = true) : (s.placeWrite e ps bs).memOk = true := by
  unfold State.placeWrite
  grind [State.writePieces_memOk, State.askWindow_memOk]

theorem State.coreTouches_memOk {s : State} {h write ps} (ok : s.memOk = true) : (s.coreTouches h write ps).memOk = true :=
  foldl_memOk (fun _ _ h => State.coreTouchAll_memOk h) _ ok

theorem State.hartFetch_memOk {s : State} {h part} (ok : s.memOk = true) :
    endsOk (fun q => q.1.memOk = true) (s.hartFetch h part) := by
  unfold State.hartFetch
  grind [State.hartTrap_memOk, State.startSearch_memOk, State.coreTouchAll_memOk, State.threadStop_memOk, State.coreTouches_memOk,
    State.askWindow_memOk, endsOk]

theorem State.retire_memOk {s : State} {h rd v} (ok : s.memOk = true) : (s.retire h rd v).memOk = true := ok

theorem State.answer_memOk {s : State} {h rd status value} (ok : s.memOk = true) : (s.answer h rd status value).memOk = true := ok

theorem State.rootStop_memOk {s : State} (ok : s.memOk = true) : (s.rootStop).memOk = true :=
  foldl_memOk (fun _ _ h => State.endLaunch_memOk h) _ (State.memOk_of rfl rfl ok)

theorem State.served_memOk {s : State} {h} (ok : s.memOk = true) : (s.served h).memOk = true := ok

theorem Exe.illegal_memOk {x : Exe} (ok : x.s.memOk = true) : (x.illegal).memOk = true := State.raiseTrap_memOk ok

theorem Exe.defineBlock_memOk {x : Exe} {i b} (ok : x.s.memOk = true) : (x.defineBlock i b).memOk = true := by
  unfold Exe.defineBlock
  grind [Exe.commitAll_memOk, Exe.trap_memOk]

theorem State.sweepTiles_memOk {s : State} {core} (ok : s.memOk = true) : (s.sweepTiles core).memOk = true := ok

theorem State.orphanSpec_memOk {s : State} {core n} (ok : s.memOk = true) : (s.orphanSpec core n).memOk = true := ok

theorem State.takeTiles_memOk {s t : State} {team n int els ts} (ok : s.memOk = true)
    (h : s.takeTiles team n int els = .taken t ts) :
    t.memOk = true := by
  have := foldl_memOk (f := fun s k => s.orphanSpec (s.team team).core k) (fun _ _ h => State.orphanSpec_memOk h)
  unfold State.takeTiles at h
  dsimp only at h
  split at h
  · obtain ⟨rfl, -⟩ := h
    exact State.memOk_of rfl rfl (foldl_memOk (fun _ _ h => State.orphanSpec_memOk h) _ (State.sweepTiles_memOk ok))
  · split at h <;> cases h

theorem Exe.withTiles_memOk {x : Exe} {i n int els} {k : Exe → List Nat → State} (ok : x.s.memOk = true)
    (hk : ∀ y v, y.s.memOk = true → (k y v).memOk = true) : (x.withTiles i n int els k).memOk = true := by
  unfold Exe.withTiles
  split
  · next h => exact hk _ _ (State.takeTiles_memOk ok h)
  · exact ok
  · exact Exe.trap_memOk ok

theorem Exe.accZero_memOk {x : Exe} {i int} (ok : x.s.memOk = true) : (x.accZero i int).memOk = true := by
  unfold Exe.accZero
  grind [Exe.onCore_memOk, Exe.withTiles_memOk, Exe.commitAll_memOk]

theorem State.giveResults_memOk {s : State} {gid pid res} (ok : s.memOk = true) : (s.giveResults gid pid res).memOk = true := by
  unfold State.giveResults
  grind [State.setGroup_memOk]

theorem Exe.mmaIssue_memOk {x : Exe} {i f scope js vs} {drop : State → State} (ok : x.s.memOk = true)
    (hdrop : ∀ t, t.memOk = true → (drop t).memOk = true) : (x.mmaIssue i f scope js vs drop).memOk = true := by
  unfold Exe.mmaIssue
  split
  · exact ok
  · refine Exe.withTiles_memOk ok fun x ts h => Exe.issue_memOk h fun y fut v h => Exe.commitAll_memOk
      (foldl_memOk (fun t q h => ?_) _ (hdrop _ h))
    grind [State.giveResults_memOk]

theorem Exe.mma_memOk {x : Exe} {i f scope} (ok : x.s.memOk = true) : (x.mma i f scope).memOk = true := by
  unfold Exe.mma
  split
  · exact Exe.commitAll_memOk ok
  · exact Exe.trap_memOk ok
  · refine Exe.onCore_memOk ok fun x ok => Exe.once_memOk ok fun vs => ?_
    have latched : ∀ (n : Nat) (l : List LatchWait),
      (x.s.setTeam x.g.team { x.team with latches := mset x.team.latches n l }).memOk = true :=
      fun n l => State.setTeam_same_spad ok _ x.g.team rfl
    generalize (if f.spec then 4 else 0) = spec
    dsimp only
    split
    · exact ok
    · split
      · exact Exe.trap_memOk ok
      · split
        · exact Exe.mmaIssue_memOk ok fun _ h => h
        · split
          · exact State.failLatch_memOk (latched _ _)
          · split
            · exact Exe.mmaIssue_memOk ok fun t h => State.setTeam_same_spad h _ x.g.team rfl
            · exact latched _ _

theorem State.markClipped_memOk {s : State} {k} (ok : s.memOk = true) : (s.markClipped k).memOk = true := ok

theorem State.rowA_memOk {q o b sub a i} : ∀ (ks : List Nat) {s : State}, s.memOk = true → okPair (s.rowA q o b sub a i ks)
  | [], _, ok => ok
  | k :: ks, s, ok => by
    unfold State.rowA
    extract_lets rest
    have rest_ok : ∀ t v, t.memOk = true → okPair (rest (t, v)) := fun t v h => okPair_bind (State.rowA_memOk ks h) fun _ h => h
    split
    · split
      · split
        · exact rest_ok s _ ok
        · refine okPair_bind (okPair_map (State.readElt_memOk ?_) fun _ h => ?_) fun p h => rest_ok p.1 p.2 h
          · split
            · exact State.markClipped_memOk ok
            · exact ok
          · exact h
      · exact rest_ok s _ ok
    · exact rest_ok s _ ok

theorem State.mmaCopy_memOk {s : State} {o} (ok : s.memOk = true) : (s.mmaCopy o).memOk = true := by
  refine foldl_memOk (fun t m h => ?_) _ ok
  dsimp only
  split
  · exact h
  · split <;> exact h

theorem State.bandRows_memOk {q o b p slab cols} : ∀ (is : List Nat) {t f} {s : State}, s.memOk = true →
    okPair (s.bandRows q o b p slab cols is t f)
  | [], _, _, _, ok => ok
  | _ :: is, _, _, _, ok => okPair_bind (State.rowA_memOk _ ok) fun _ h => State.bandRows_memOk is h

theorem State.mmaStep_memOk {s : State} {k o i} (ok : s.memOk = true) : okPair (s.mmaStep k o i) := by
  unfold State.mmaStep
  have copied : (if o.landed = [] then s.mmaCopy o else s).memOk = true := by
    split
    · exact State.mmaCopy_memOk ok
    · exact ok
  generalize (if o.landed = [] then s.mmaCopy o else s) = t at copied
  dsimp only
  split
  · exact copied
  · exact okPair_bind (State.bandRows_memOk _ copied) fun _ h => h

theorem State.spbmStep_memOk {s : State} {k o g} (ok : s.memOk = true) : okPair (s.spbmStep k o g) :=
  okAll_map (State.engWrite_memOk ok) fun _ h => h

theorem State.loadRow_memOk {k o w int i} : ∀ (js : List Nat) {s : State}, s.memOk = true → okPair (s.loadRow k o w int i js)
  | [], _, ok => ok
  | j :: js, s, ok => by
    unfold State.loadRow
    dsimp only
    split
    · exact okPair_bind (State.sourceElt_memOk ok) fun q h => okPair_bind (State.loadRow_memOk js h) fun _ h => h
    · exact okPair_bind (State.readElt_memOk ok) fun q h => okPair_bind (State.loadRow_memOk js h) fun _ h => h

theorem State.accLoadStep_memOk {s : State} {k o i} (ok : s.memOk = true) : okPair (s.accLoadStep k o i) := by
  unfold State.accLoadStep
  dsimp only
  split
  · exact okPair_bind (State.loadRow_memOk _ ok) fun _ h => h
  · exact ok

theorem State.accStoreStep_memOk {s : State} {k o i} (ok : s.memOk = true) : okPair (s.accStoreStep k o i) := by
  unfold State.accStoreStep
  dsimp only
  split
  · split
    · exact okPair_map (State.encodeUnit_memOk ok) fun _ h => h
    · exact okAll_map (State.putGranule_memOk ok) fun _ h => h
  · exact ok

theorem State.releaseFlags_memOk {s : State} {k} (ok : s.memOk = true) : (s.releaseFlags k).memOk = true := by
  unfold State.releaseFlags
  split
  · exact ok
  · refine foldl_memOk (fun t w h => ?_) _ ?_
    · exact h
    · exact ok

theorem State.dropSpec_memOk {s : State} {k} (ok : s.memOk = true) : (s.dropSpec k).memOk = true := by
  unfold State.dropSpec
  grind [State.cancelOp_memOk, State.memOk]

theorem Exe.specKeep_memOk {x : Exe} {i commit} (ok : x.s.memOk = true) : (x.specKeep i commit).memOk = true := by
  refine Exe.onCore_memOk ok fun x ok => Exe.once_memOk ok fun vs => ?_
  have last : ∀ (y : Exe) (sp : Nat), y.s.memOk = true →
      ((y.s.specOps y.g.team sp).foldl (fun s k => if commit then s.releaseFlags k else s.dropSpec k) y.s).memOk = true := by
    refine fun y sp h => foldl_memOk (fun t k h => ?_) _ h
    split
    · exact State.releaseFlags_memOk h
    · exact State.dropSpec_memOk h
  split
  · next t sp _ =>
    generalize (if commit then sp else t) = kept
    dsimp only
    split
    · split
      · refine Exe.commitAll_memOk ?_
        exact last x _ ok
      · refine Exe.withTiles_memOk ok fun y ts h => Exe.commitAll_memOk ?_
        refine last (y.upon _) _ ?_
        split
        · exact h
        · exact h
    · exact Exe.trap_memOk ok
  · exact Exe.trap_memOk ok

theorem State.matrixStep_memOk {s : State} {k o i} (ok : s.memOk = true) : (s.matrixStep k o i).memOk = true := by
  unfold State.matrixStep
  split
  · exact ok
  · split
    · split
      · exact State.stepOp_memOk ok (State.mmaStep_memOk ok)
      · exact ok
    · refine State.stepOp_memOk ok ?_
      split
      · exact State.spbmStep_memOk ok
      · split
        · exact State.accStoreStep_memOk ok
        · exact State.accLoadStep_memOk ok

theorem State.matrixCancel_memOk {s : State} {k o} (ok : s.memOk = true) : (s.matrixCancel k o).memOk = true := by
  unfold State.matrixCancel
  grind [State.mmaCopy_memOk, State.finishOp_memOk]

theorem State.setGang_memOk {s : State} {l gang g} (ok : s.memOk = true) : (s.setGang l gang g).memOk = true := ok

theorem State.stopOne_memOk {s : State} {l gang} (ok : s.memOk = true) : (s.stopOne l gang).memOk = true := by
  unfold State.stopOne
  dsimp only
  split
  · exact ok
  · refine foldl_memOk (fun _ _ h => State.collAbort_memOk h) _ ?_
    exact ok

theorem State.stopGang_memOk {s : State} {l gang} (ok : s.memOk = true) : (s.stopGang l gang).memOk = true := by
  unfold State.stopGang
  split
  · exact State.stopOne_memOk ok
  · exact foldl_memOk (fun _ _ h => State.stopOne_memOk h) _ ok

theorem State.evictBorrowers_memOk {s : State} {hall} (ok : s.memOk = true) : (s.evictBorrowers hall).memOk = true := by
  unfold State.evictBorrowers
  split
  · exact ok
  · dsimp only
    split
    · exact ok
    · split
      · exact ok
      · exact foldl_memOk (fun _ _ h => State.stopGang_memOk h) _ ok

theorem State.evictAll_memOk {s : State} (ok : s.memOk = true) : (s.evictAll).memOk = true :=
  foldl_memOk (f := State.evictBorrowers) (fun _ _ h => State.evictBorrowers_memOk h) _ ok

theorem State.saveTeam_memOk {s : State} {t} (ok : s.memOk = true) : okState (s.saveTeam t) := by
  unfold State.saveTeam
  dsimp only
  split
  · trivial
  · exact okAll_mapError (State.hwWrite_memOk ok)

theorem State.leaveCores_memOk {s : State} {l gang} (ok : s.memOk = true) : (s.leaveCores l gang).memOk = true := by
  unfold State.leaveCores
  have kept : ∀ (l' : List Nat), (s.teams.map fun t => if l'.contains t.1 then
    (t.1, { t.2 with resident := false, spad := [], latches := [] }) else t).all (fun t => Memory.wf t.2.spad) = true := by
    refine fun l' => all_spads_map (fun t _ ht => ?_) (State.wf_teams ok)
    split
    · rfl
    · exact ht
  exact State.memOk_mk (State.wf_mem ok) (kept _)

theorem State.afterLeaving_memOk {s : State} {l} (ok : s.memOk = true) : (s.afterLeaving l).memOk = true := by
  unfold State.afterLeaving
  grind [State.evictAll_memOk, State.clearGo_memOk, State.endTurns_memOk]

theorem State.saveGang_memOk {s : State} {l gang} (ok : s.memOk = true) : (s.saveGang l gang).memOk = true := by
  have swept : ∀ {t : State} (cs : List Nat), t.memOk = true → (cs.foldl State.sweepTiles t).memOk = true :=
    fun cs h => foldl_memOk (fun _ _ h => State.sweepTiles_memOk h) cs h
  unfold State.saveGang
  dsimp only
  split
  · next h =>
    exact State.afterLeaving_memOk
      (State.leaveCores_memOk (okState_elim h (okState_foldlM (fun _ _ h => State.saveTeam_memOk h) _ (swept _ ok))))
  · exact State.endLaunch_memOk (swept _ ok)
  · split
    · exact State.faultAccess_memOk (swept _ ok)
    · exact State.startSearch_memOk (swept _ ok)
    · exact State.endLaunch_memOk (swept _ ok)
    · exact swept _ ok
    · exact swept _ ok

theorem State.preempt_memOk {s : State} {part e} (ok : s.memOk = true) : (s.preempt part e).memOk = true :=
  State.clearGo_memOk (State.setPart_memOk (foldl_memOk (fun _ _ h => State.stopGang_memOk h) _ ok))

theorem State.writeFqBase_memOk {s : State} {part v} (ok : s.memOk = true) : (s.writeFqBase part v).memOk = true := ok

theorem State.writeFqHead_memOk {s : State} {part v} (ok : s.memOk = true) : (s.writeFqHead part v).memOk = true := by
  unfold State.writeFqHead
  grind [State.setPart_memOk]

theorem State.writeXltCtl_memOk {s : State} {part v} (ok : s.memOk = true) : (s.writeXltCtl part v).memOk = true := by
  unfold State.writeXltCtl
  grind [State.setPart_memOk]

theorem State.writePreempt_memOk {s : State} {part v} (ok : s.memOk = true) : (s.writePreempt part v).memOk = true := by
  unfold State.writePreempt
  grind [State.preempt_memOk, State.setPart_memOk]

theorem State.writeWeight_memOk {s : State} {part v} (ok : s.memOk = true) : (s.writeWeight part v).memOk = true := by
  unfold State.writeWeight
  grind [State.evictAll_memOk, State.endTurns_memOk, State.setEncl_memOk]

theorem State.writeReg_memOk {s : State} {part off v} (ok : s.memOk = true) : (s.writeReg part off v).memOk = true := by
  unfold State.writeReg
  grind [State.writeFqBase_memOk, State.writeFqHead_memOk, State.setPart_memOk, State.writeXltCtl_memOk,
    State.writeWeight_memOk, State.writePreempt_memOk, State.memOk]

theorem State.settle_memOk {s : State} {write pa n} (ok : s.memOk = true) : (s.settle write pa n).memOk = true :=
  foldl_memOk (fun _ _ h => State.settleLine_memOk h) _ ok

theorem State.dropOldKey_memOk {s : State} {e} (ok : s.memOk = true) : (s.dropOldKey e).memOk = true := by
  unfold State.dropOldKey
  grind [State.setEncl_memOk]

theorem State.toScrub_memOk {s : State} {frame} (ok : s.memOk = true) : (s.toScrub frame).memOk = true :=
  State.dropOldKey_memOk ok

theorem State.fillFrame_memOk {s : State} {frame bs} (ok : s.memOk = true) : (s.fillFrame frame bs).memOk = true :=
  State.memOk_mk (wf_writeBytes _ (wf_clearBytes (State.wf_mem ok) _ _) _) (State.wf_teams ok)

theorem State.draw_memOk {s : State} {s0 : State} {h part rd} {k : State → Nat → State} (ok : s.memOk = true)
    (hS0 : s0.memOk = true) (hk : ∀ t v, t.memOk = true → (k t v).memOk = true) :
    (s.draw s0 h part rd k).memOk = true := by
  unfold State.draw
  grind [State.setHart_memOk, State.setPart_memOk, State.answer_memOk, State.memOk]

theorem State.ownFrame_memOk {s : State} {frame e vpn version gen meas bs} (ok : s.memOk = true) :
    (s.ownFrame frame e vpn version gen meas bs).memOk = true :=
  State.fillFrame_memOk ok

theorem State.endOut_memOk {s : State} {frame h rd status value} (ok : s.memOk = true) :
    (s.endOut frame h rd status value).memOk = true :=
  ok

theorem State.pokeLine_memOk {buf bs} {s : State} {line} (ok : s.memOk = true) : (s.pokeLine buf bs line).memOk = true := by
  unfold State.pokeLine
  grind [State.poke_memOk]

theorem State.sealOut_memOk {s : State} {frame slot buf v h rd} (ok : s.memOk = true) :
    (s.sealOut frame slot buf v h rd).memOk = true := by
  unfold State.sealOut
  dsimp only
  split
  · exact State.endOut_memOk (State.setPot_memOk (State.settle_memOk ok))
  · split
    · exact State.endOut_memOk (State.setPot_memOk (foldl_memOk (fun _ _ h => State.pokeLine_memOk h) _ (State.settle_memOk
        (State.settle_memOk ok))))
    · exact State.endOut_memOk (State.toScrub_memOk (State.setPot_memOk (State.poke_memOk _ _ _ (State.settle_memOk
        (State.settle_memOk ok)))))

theorem State.readBuffer_memOk {s : State} {s0 : State} {buf n h rd} {k : State → State} (ok : s.memOk = true)
    (hS0 : s0.memOk = true) (hk : ∀ t, t.memOk = true → (k t).memOk = true) :
    (s.readBuffer s0 buf n h rd k).memOk = true := by
  unfold State.readBuffer
  grind [State.settle_memOk, State.answer_memOk]

theorem State.freeFrame_memOk {s : State} {frame} (ok : s.memOk = true) : (s.freeFrame frame).memOk = true := ok

theorem State.freeSlot_memOk {s : State} {slot} (ok : s.memOk = true) : (s.freeSlot slot).memOk = true := ok

theorem State.fillTlbs_memOk {s : State} {hall e vpn l} (ok : s.memOk = true) : (s.fillTlbs hall e vpn l).memOk = true := ok

theorem State.endWalk_memOk {s : State} {hall e va} (ok : s.memOk = true) : (s.endWalk hall e va).memOk = true := by
  unfold State.endWalk
  grind [State.startSearch_memOk, State.fillTlbs_memOk, State.memOk]

theorem State.admitFaults_memOk {part} : ∀ (n : Nat) {s : State}, s.memOk = true → (State.admitFaults part n s).memOk = true
  | 0, _, ok => ok
  | n + 1, s, ok => by
    unfold State.admitFaults
    dsimp only
    split
    · exact ok
    · split
      · exact ok
      · refine State.admitFaults_memOk n ?_
        split
        · exact State.setPart_memOk ok
        · exact State.formFault_memOk (State.setPart_memOk ok)

theorem State.closeRec_memOk {s : State} {part r} (ok : s.memOk = true) : (s.closeRec part r).memOk = true := by
  unfold State.closeRec
  grind [State.setPart_memOk, State.sampleEncl_memOk, State.admitFaults_memOk]

theorem State.replayAll_memOk {s : State} {r} (ok : s.memOk = true) : (s.replayAll r).memOk = true := ok

theorem State.killWaiter_memOk {status} {s : State} {w} (ok : s.memOk = true) : (s.killWaiter status w).memOk = true := by
  unfold State.killWaiter
  grind [State.setLaunch_memOk, State.endLaunch_memOk]

theorem State.killRaiser_memOk {status r} {s : State} (ok : s.memOk = true) : (s.killRaiser status r).memOk = true := by
  unfold State.killRaiser
  grind [State.endLaunch_memOk]

theorem State.enterFn_memOk {s : State} {f x} (ok : s.memOk = true) : (s.enterFn f x).memOk = true := ok

theorem State.failStack_memOk {s : State} {k reason} (ok : s.memOk = true) : (s.failStack k reason).memOk = true := ok

theorem State.setMgmt_memOk {s : State} {m} (ok : s.memOk = true) : (s.setMgmt m).memOk = true := ok

theorem State.asOwner_memOk {s : State} {m} {f : State → State} (ok : s.memOk = true)
    (hf : ∀ t, t.memOk = true → (f t).memOk = true) :
    (s.asOwner m f).memOk = true := by
  unfold State.asOwner
  grind [State.setMgmt_memOk]

theorem State.bootFrame_memOk {part} {s : State} {page} (ok : s.memOk = true) : (s.bootFrame part page).memOk = true :=
  State.fillFrame_memOk ok

theorem State.reply_memOk {s : State} {p r} (ok : s.memOk = true) : (s.reply p r).memOk = true := ok

theorem State.rejectPath_memOk {s : State} {gid pid} (ok : s.memOk = true) : (s.rejectPath gid pid).memOk = true := by
  unfold State.rejectPath
  split
  · exact ok
  · exact Exe.reeject_memOk ok

theorem State.reject_memOk {s : State} {gid} (ok : s.memOk = true) : (s.reject gid).memOk = true := by
  refine State.onFrozen_memOk ok fun t h => ?_
  exact foldl_memOk (fun _ _ h => State.rejectPath_memOk h) _ (State.setGroup_memOk h)

theorem State.retranslate_memOk {s : State} {l hall g fns} (ok : s.memOk = true) : okPair (s.retranslate l hall g fns) := by
  refine okPair_foldlM (fun q fn h => ?_) _ ok
  split
  · trivial
  · next hg =>
    have := okState_elim hg (State.graft_memOk h)
    split
    · trivial
    · split
      · trivial
      · exact State.useTrans_memOk this

theorem State.groupIn_memOk {s : State} {l hall map tiles k recs} (ok : s.memOk = true) :
    okPair (s.groupIn l hall map tiles k recs) := by
  refine okAll_bind (okAll_true _) fun _ _ => okPair_bind (State.retranslate_memOk ok) fun q h => okAll_bind
    (okAll_true _) fun _ _ => ?_
  split
  · trivial
  · exact h

theorem State.addGroup_memOk {s : State} {l t slot flights gid g} (ok : s.memOk = true) :
    (s.addGroup l t slot flights gid g).memOk = true :=
  ok

theorem State.restoreTeam_memOk {l g hall tc} {s : State} (ok : s.memOk = true) : okState (State.restoreTeam l g hall s tc) := by
  unfold State.restoreTeam
  dsimp only
  refine okAll_bind (okAll_true _) fun f _ => okAll_bind (okAll_true _) fun _ _ => ?_
  have ok : ∀ {c : Nat}, (s.hwTouch (some c) (s.launch l).enclave (s.saveBase tc.1) .engRead
    (leBytes f.len 0)).memOk = true := State.hwTouch_memOk ok
  split
  · trivial
  · refine okPair_bind (okPair_foldlM (fun q k h => ?_) _ ok) fun q h => okAll_bind (okAll_true _) fun back _ => ?_
    · exact okPair_bind (State.groupIn_memOk h) fun _ h => h
    · have h := State.sweepTiles_memOk (core := tc.2) h
      refine foldl_memOk (f := State.reject) (fun _ _ h => State.reject_memOk h) _ ?_
      refine foldl_memOk (fun _ _ h => State.addGroup_memOk h) _ ?_
      refine State.setTeam_memOk ?_ _ (wf_writeBytes _ wf_nil _)
      exact h

theorem State.machineryStop_memOk {s : State} {l kind st} (ok : s.memOk = true) : (s.machineryStop l kind st).memOk = true := by
  unfold State.machineryStop
  grind [State.waitOn_memOk, State.endLaunch_memOk]

theorem State.checkHead_memOk {s : State} {l} (ok : s.memOk = true) : (s.checkHead l).memOk = true := by
  unfold State.checkHead
  grind [State.hwTouch_memOk, State.endLaunch_memOk, State.machineryStop_memOk]

theorem State.graftStart_memOk {s : State} {l halls} (ok : s.memOk = true) : okState (s.graftStart l halls) :=
  okState_foldlM (fun _ _ h => State.graft_memOk h) _ ok

theorem State.dispatch_memOk {s : State} {q l} (ok : s.memOk = true) : (s.dispatch q l).memOk = true := by
  unfold State.dispatch
  dsimp only
  split
  · exact State.machineryStop_memOk ok
  · next t h =>
    have ok := okState_elim h (State.graftStart_memOk ok)
    have ok : ∀ u : State, u.mem = t.mem → u.teams = t.teams → u.memOk = true := fun u hm ht => State.memOk_of hm ht ok
    split
    · exact State.endLaunch_memOk (ok _ rfl rfl)
    · split
      · exact State.evictAll_memOk (ok _ rfl rfl)
      · exact State.endLaunch_memOk (ok _ rfl rfl)

theorem State.startGroup_memOk {s : State} {l t k slot} (ok : s.memOk = true) : (s.startGroup l t k slot).memOk = true := by
  unfold State.startGroup
  grind [State.useTrans_memOk, State.bump_memOk, State.memOk]

theorem State.startTeam_memOk {l gang mc} {s : State} (ok : s.memOk = true) : (State.startTeam l gang s mc).memOk = true := by
  refine foldl_memOk (fun _ _ h => State.startGroup_memOk h) _ (State.setGang_memOk (State.setTeam_memOk ?_ _ rfl))
  exact State.memOk_of rfl rfl ok

theorem State.startGang_memOk {s : State} {l gang hall block} (ok : s.memOk = true) :
    (s.startGang l gang hall block).memOk = true :=
  foldl_memOk (fun _ _ h => State.startTeam_memOk h) _ (State.setGang_memOk ok)

theorem State.restoreGang_memOk {s : State} {l gang hall block} (ok : s.memOk = true) :
    okState (s.restoreGang l gang hall block) :=
  okState_bind (okState_foldlM (fun _ _ h => State.restoreTeam_memOk h) _ ok) fun _ h => State.setGang_memOk h

theorem State.putGang_memOk {s : State} {l gang hall block} (ok : s.memOk = true) : okState (s.putGang l gang hall block) := by
  unfold State.putGang
  split
  · exact State.startGang_memOk ok
  · exact State.restoreGang_memOk ok
  all_goals exact ok

theorem State.haltPlace_memOk {s : State} {l a2} (ok : s.memOk = true) : (s.haltPlace l a2).memOk = true := by
  unfold State.haltPlace
  grind [State.endLaunch_memOk, State.machineryStop_memOk]

theorem State.place_memOk {s : State} {l gang hall block} (ok : s.memOk = true) : (s.place l gang hall block).memOk = true := by
  have elapsed : ∀ {t : State} (hs : List Nat), t.memOk = true → (hs.foldl State.elapsed t).memOk = true :=
    fun hs h => foldl_memOk (fun _ _ h => State.elapsed_memOk h) hs h
  unfold State.place
  dsimp only
  split
  · exact elapsed _ ok
  · split
    · exact State.haltPlace_memOk (elapsed _ ok)
    · next h =>
      exact State.evictAll_memOk (State.finishGangs_memOk (okState_elim h (okState_foldlM (fun _ _ h => State.putGang_memOk h) _
        (elapsed _ ok))))

theorem State.joinTimeout_memOk {s : State} {gid r} (ok : s.memOk = true) : (s.joinTimeout gid r).memOk = true := by
  unfold State.joinTimeout
  grind [State.setGroup_memOk, State.takeTrapOr_memOk, State.askTrans_memOk]

theorem State.freePages_memOk {s : State} {e} (ok : s.memOk = true) : (s.freePages e).memOk = true := by
  refine foldl_memOk (fun t q h => ?_) _ ok
  grind [State.freeFrame_memOk, State.freeSlot_memOk]

theorem State.discardFaults_memOk {s : State} {part e} (ok : s.memOk = true) : (s.discardFaults part e).memOk = true := by
  unfold State.discardFaults
  grind [State.setPart_memOk, State.admitFaults_memOk, State.memOk]

theorem State.kick_memOk {s : State} {h e q v rd} (ok : s.memOk = true) : (s.kick h e q v rd).memOk = true := by
  unfold State.kick
  split
  · exact State.retire_memOk ok
  · split
    · exact State.threadStop_memOk ok
    · next h => exact State.retire_memOk (okPair_elim h (State.accept_memOk ok))

theorem State.perform_memOk {s : State} {h ps a} (ok : s.memOk = true) : (s.perform h ps a).memOk = true := by
  unfold State.perform
  grind [State.coreTouches_memOk, State.retire_memOk, State.writePieces_memOk, State.memOk]

theorem State.kickAccess_memOk {s : State} {h e off a} (ok : s.memOk = true) : (s.kickAccess h e off a).memOk = true := by
  unfold State.kickAccess
  grind [State.hartTrap_memOk, State.retire_memOk, State.kick_memOk]

theorem State.farRetire_memOk {s : State} {h a bs} (ok : s.memOk = true) : (s.farRetire h a bs).memOk = true := by
  unfold State.farRetire
  grind [State.retire_memOk]

theorem State.farPerform_memOk {s : State} {h n va ps a} (ok : s.memOk = true) : (s.farPerform h n va ps a).memOk = true := by
  unfold State.farPerform
  grind [State.farRetire_memOk, State.hartTrap_memOk, State.sendFar_memOk]

theorem State.threadStep_memOk {s : State} {h n va a} (ok : s.memOk = true) : (s.threadStep h n va a).memOk = true := by
  unfold State.threadStep
  grind [State.kickAccess_memOk, State.threadAccess_memOk, State.perform_memOk, State.farPerform_memOk]

theorem State.pageAccess_memOk {s : State} {h part off a} (ok : s.memOk = true) : (s.pageAccess h part off a).memOk = true := by
  unfold State.pageAccess
  grind [State.hartTrap_memOk, State.retire_memOk, State.writeReg_memOk]

theorem State.osStep_memOk {s : State} {h part pa a} (ok : s.memOk = true) : (s.osStep h part pa a).memOk = true := by
  unfold State.osStep
  grind [State.hartTrap_memOk, State.startSearch_memOk, State.perform_memOk]

theorem State.hartAccess_memOk {s : State} {h part va a} (ok : s.memOk = true) : (s.hartAccess h part va a).memOk = true := by
  unfold State.hartAccess
  grind [State.threadStep_memOk, State.pageAccess_memOk, State.osStep_memOk]

theorem State.performStep_memOk {s : State} {k o i} (ok : s.memOk = true) : (s.performStep k o i).memOk = true := by
  unfold State.performStep
  split
  · refine State.stepOp_memOk ok ?_
    split
    · exact State.linearStep_memOk ok
    · exact State.tensorStep_memOk ok
  · refine State.stepOp_memOk ok ?_
    split
    · exact State.scatterStep_memOk ok
    · exact State.gatherStep_memOk ok
  · exact State.matrixStep_memOk ok
  · exact State.collStep_memOk ok
  · exact State.sealStep_memOk ok
  · exact ok

theorem State.cancelNow_memOk {s : State} {k o} (ok : s.memOk = true) : (s.cancelNow k o).memOk = true := by
  unfold State.cancelNow
  grind [State.matrixCancel_memOk, State.finishOp_memOk]

theorem State.setStream_memOk {s : State} {n t} (ok : s.memOk = true) : (s.setStream n t).memOk = true := ok

theorem State.setIde_memOk {s : State} {k d} (ok : s.memOk = true) : (s.setIde k d).memOk = true := ok

theorem State.farDone_memOk {s : State} {key bs} (ok : s.memOk = true) : (s.farDone key bs).memOk = true := by
  unfold State.farDone
  grind [State.setHart_memOk, State.setGroup_memOk, State.memOk]

theorem State.cutAsker_memOk {s : State} {f} (ok : s.memOk = true) : (s.cutAsker f).memOk = true := by
  unfold State.cutAsker
  grind [State.endLaunch_memOk, State.hartTrap_memOk]

theorem State.cutWork_memOk {s : State} {e via} (ok : s.memOk = true) : (s.cutWork e via).memOk = true := by
  refine foldl_memOk (fun _ _ h => State.cutAsker_memOk h) _
    (foldl_memOk (fun _ _ h => State.finishOp_memOk h) _ (State.memOk_of rfl rfl ok))

theorem State.collLink_memOk {s : State} {op} (ok : s.memOk = true) : (s.collLink op).memOk = true := by
  unfold State.collLink
  grind [State.finishOp_memOk, State.collAbort_memOk]

theorem State.streamDown_memOk {s : State} {n} (ok : s.memOk = true) : (s.streamDown n).memOk = true := by
  unfold State.streamDown
  split
  · exact ok
  · split
    · exact ok
    · dsimp only
      split
      · exact State.cutWork_memOk (State.setStream_memOk ok)
      · exact foldl_memOk (fun _ _ h => State.collLink_memOk h) _ (State.cutWork_memOk (State.setStream_memOk ok))

theorem State.ideDown_memOk {s : State} {k} (ok : s.memOk = true) : (s.ideDown k).memOk = true := by
  unfold State.ideDown
  grind [State.cutWork_memOk, State.setIde_memOk]

theorem State.askAgain_memOk {s : State} {n t tagFailed} (ok : s.memOk = true) : (s.askAgain n t tagFailed).memOk = true := ok

theorem State.arrive_memOk {s : State} {f kind} (ok : s.memOk = true) : (s.arrive f kind).1.memOk = true := by
  unfold State.arrive
  grind [State.askAgain_memOk, State.setStream_memOk, State.streamDown_memOk, State.sendFlit_memOk]

theorem State.rvCsr_memOk {s : State} {h n rd} {change : Option (BitVec 64 → BitVec 64)} (ok : s.memOk = true) :
    (s.rvCsr h n rd change).memOk = true := by
  unfold State.rvCsr
  grind [State.hartIllegal_memOk, State.retire_memOk, State.setHart_memOk]

theorem State.rvReturn_memOk {s : State} {h} (ok : s.memOk = true) : (s.rvReturn h).memOk = true := by
  unfold State.rvReturn
  grind [State.hartIllegal_memOk, State.setHart_memOk]

theorem State.rvPlace_memOk {s : State} {h part k va n} (ok : s.memOk = true) :
    endsOk (fun _ => True) (s.rvPlace h part k va n) := by
  unfold State.rvPlace
  grind [State.startSearch_memOk, State.hartTrap_memOk, State.threadStop_memOk, endsOk]

theorem State.rvBytes_memOk {s : State} {h ps} (ok : s.memOk = true) : (s.rvBytes h ps).1.memOk = true := by
  refine foldl_fst_memOk (fun q p h => ?_) _ ok
  split
  · exact State.coreTouches_memOk h
  · exact State.askWindow_memOk h

theorem State.rvStores_memOk {s : State} {h ws} (ok : s.memOk = true) : (s.rvStores h ws).memOk = true := by
  refine foldl_memOk (fun t q h => ?_) _ ok
  split
  · exact State.writePieces_memOk _ _ _ (State.coreTouches_memOk h)
  · exact State.askWindow_memOk h

theorem State.rvOther_memOk {s : State} {h part w} (ok : s.memOk = true) : (s.rvOther h part w).memOk = true := by
  have place : ∀ {k a n}, endsOk (fun _ => True) (s.rvPlace h part k a n) := State.rvPlace_memOk ok
  unfold State.rvOther
  refine endsOk_elim ?_
  refine endsOk_bind (endsOk_mapM (fun r => endsOk_map place fun _ _ => trivial) _) fun ps _ => ?_
  have read := State.rvBytes_memOk (h := h) (ps := ps) ok
  refine endsOk_bind (endsOk_mapM (fun r => endsOk_map place fun _ _ => trivial) _) fun ws _ => ?_
  split
  · exact State.hartTrap_memOk ok
  · exact State.setHart_memOk (State.rvStores_memOk read)

theorem State.riscv_memOk {s : State} {h part w} (ok : s.memOk = true) : (s.riscv h part w).memOk = true := by
  unfold State.riscv
  grind [State.setHart_memOk, State.hartAccess_memOk, State.hartTrap_memOk, State.rvCsr_memOk, State.rvReturn_memOk,
    State.rvOther_memOk, State.memOk]

theorem Exe.spill_memOk {x : Exe} (ok : x.s.memOk = true) : endsOk (fun t => t.memOk = true) x.spill := by
  unfold Exe.spill
  grind [Exe.stopped_memOk, Exe.touchAll_memOk, State.bump_memOk, State.writePieces_memOk, endsOk]

end Sys2Proof.Machine
end

section
/-! SUPPORT. Every instruction and every event keeps memories in canonical form. -/

namespace Sys2Proof.Machine

theorem exe_s {s : State} {x : Exe} (hx : s.exe? = some x) : x.s = s := by
  unfold State.exe? at hx
  split at hx
  · cases hx
  · split at hx
    · cases hx
    · obtain ⟨p, -, rfl⟩ := Option.map_eq_some_iff.mp hx
      rfl

theorem onPath_memOk {s : State} {k : Exe → State} (ok : s.memOk = true) (hk : ∀ x, x.s.memOk = true → (k x).memOk = true) :
    nextOk (onPath s k) := by
  unfold onPath
  split
  · trivial
  · next x hx => exact hk x (by rw [exe_s hx]; exact ok)

theorem onHart_memOk {s : State} {k : Nat → Nat → Hart → State} (ok : s.memOk = true) (hk : ∀ h p x, (k h p x).memOk = true) :
    nextOk (onHart s k) := by
  unfold onHart nextOk
  grind [State.rootStop_memOk, State.served_memOk, State.memOk]

theorem asOs_memOk {s : State} {k : Nat → Nat → Hart → State} (ok : s.memOk = true) (hk : ∀ h p x, (k h p x).memOk = true) :
    nextOk (asOs s k) :=
  onHart_memOk ok fun h p x => by grind [State.hartIllegal_memOk]

theorem asThread_memOk {s : State} {k : Nat → Nat → Hart → Inside → State} (ok : s.memOk = true)
    (hk : ∀ h p x n, (k h p x n).memOk = true) : nextOk (asThread s k) :=
  onHart_memOk ok fun h p x => by grind [State.hartIllegal_memOk]

theorem osStore_memOk {s : State} {h} {f : Nat → State} (ok : s.memOk = true) (hf : ∀ p, (f p).memOk = true) :
    nextOk (osStore h s f) := by
  unfold osStore nextOk
  grind [State.retire_memOk]

theorem execBarExpect_memOk {s : State} {c ops} (ok : s.memOk = true) : nextOk (execBarExpect c ops s) := by
  refine onPath_memOk ok fun x ok => Exe.once_memOk ok fun vs => ?_
  dsimp only
  split
  · exact Exe.trapAll_memOk ok
  · split
    · exact Exe.trapAll_memOk ok
    · exact Exe.commitAll_memOk (State.setBar_memOk ok)

theorem execBarInit_memOk {s : State} {c ops} (ok : s.memOk = true) : nextOk (execBarInit c ops s) := by
  refine onPath_memOk ok fun x ok => Exe.once_memOk ok fun vs => ?_
  dsimp only
  split
  · exact Exe.trapAll_memOk ok
  · split
    · exact Exe.trapAll_memOk ok
    · exact Exe.commitAll_memOk (State.setBar_memOk ok)

theorem execExit_memOk {s : State} {c ops} (ok : s.memOk = true) : nextOk (execExit c ops s) :=
  onPath_memOk ok fun _ ok => State.afterLeave_memOk (Exe.count_memOk (State.settleGroup_memOk (Exe.put_memOk ok)))

theorem execPref_memOk {s : State} {c ops} (ok : s.memOk = true) : nextOk (execPref c ops s) := by
  refine onPath_memOk ok fun x ok => Exe.cacheOp_memOk ok fun t ls h => foldl_memOk (fun t q h => ?_) _ h
  split
  · exact State.l2Touch_memOk h
  · exact h

theorem execCacheZero_memOk {s : State} {c ops} (ok : s.memOk = true) : nextOk (execCacheZero c ops s) := by
  refine onPath_memOk ok fun x ok => ?_
  dsimp only
  split
  · exact Exe.trap_memOk ok
  · exact Exe.settleRun_memOk (List.foldlRecOn
      (motive := fun run : Run => run.s.memOk = true) _ _ ok fun run h _ _ => Exe.access_memOk h)

theorem execCopy_memOk {s : State} {c k bar scope ops} (ok : s.memOk = true) : nextOk (execCopy c k bar scope ops s) := by
  refine onPath_memOk ok fun x ok => Exe.engine_memOk ok fun vs => ?_
  split
  · exact Exe.copyTensor_memOk ok
  · exact Exe.copyLinear_memOk ok

theorem execTmap_memOk {s : State} {c sp ops} (ok : s.memOk = true) : nextOk (execTmap c sp ops s) := by
  refine onPath_memOk ok fun x ok => Exe.engine_memOk ok fun vs => ?_
  grind [Exe.plainRead_memOk, Exe.trap_memOk, Exe.commitAll_memOk, Exe.upon]

theorem execYieldResume_memOk {s : State} {g p} (ok : s.memOk = true) : nextOk (execYieldResume g p s) := by
  unfold execYieldResume
  show State.memOk _ = true
  split
  · exact ok
  · dsimp only
    split
    · split
      · exact Exe.resume_memOk ok
      · exact ok
    · exact ok

theorem execCollPeerLost_memOk {s : State} {k member} (ok : s.memOk = true) : nextOk (execCollPeerLost k member s) := by
  unfold execCollPeerLost
  show State.memOk _ = true
  split
  · exact ok
  · split
    · exact ok
    · exact foldl_memOk (fun _ _ h => State.finishOp_memOk h) _ (by exact ok)

theorem execFutCancel_memOk {s : State} {c ops} (ok : s.memOk = true) : nextOk (execFutCancel c ops s) :=
  onPath_memOk ok fun _ ok => Exe.futures_memOk ok fun _ _ =>
    Exe.commit_memOk (foldl_memOk (f := State.cancelOp) (fun _ _ h => State.cancelOp_memOk h) _ ok)

theorem execTret_memOk {s : State} {c ops} (ok : s.memOk = true) : nextOk (execTret c ops s) := by
  refine onPath_memOk ok fun x ok => ?_
  split
  · exact ok
  · exact Exe.leaveAs_memOk ok

theorem execTretSkip_memOk {s : State} {c ops} (ok : s.memOk = true) : nextOk (execTretSkip c ops s) := by
  refine onPath_memOk ok fun x ok => ?_
  dsimp only
  split
  · exact ok
  · refine Exe.unlessPoison_memOk ok fun f => ?_
    split
    · exact Exe.trap_memOk ok
    · exact Exe.leaveAs_memOk ok

theorem execLaunch_memOk {s : State} {c ops} (ok : s.memOk = true) : nextOk (execLaunch c ops s) := by
  refine onPath_memOk ok fun x ok => Exe.once_memOk ok fun vs => ?_
  dsimp only
  split
  · exact Exe.trap_memOk ok
  · split
    · exact Exe.trap_memOk ok
    · split
      · exact State.endLaunch_memOk ok
      · split
        · exact Exe.stopped_memOk ok
        · next h => exact Exe.commitAll_memOk (okPair_elim h (State.accept_memOk ok))

theorem execXctlComplete_memOk {s : State} {g p} (ok : s.memOk = true) : nextOk (execXctlComplete g p s) := by
  unfold execXctlComplete
  show State.memOk _ = true
  split
  · exact ok
  · split
    · exact ok
    · dsimp only
      split
      · split
        · exact ok
        · split
          · exact Exe.stopped_memOk ok
          · next h =>
            have := okPair_elim h (State.xctl_memOk ok)
            exact Exe.commitAll_memOk this
      all_goals exact ok

theorem execSealOpen_memOk {s : State} {c ops} (ok : s.memOk = true) : nextOk (execSealOpen c ops s) := by
  refine onPath_memOk ok fun x ok => Exe.once_memOk ok fun vs => ?_
  dsimp only
  split
  · exact Exe.trap_memOk ok
  · split
    · exact Exe.trap_memOk ok
    · exact Exe.commitAll_memOk (Exe.setSeals_memOk ok)

theorem execSealClose_memOk {s : State} {c ops} (ok : s.memOk = true) : nextOk (execSealClose c ops s) := by
  refine onPath_memOk ok fun x ok => Exe.once_memOk ok fun vs => ?_
  split
  · exact Exe.trap_memOk ok
  · exact Exe.commitAll_memOk (Exe.setSeals_memOk ok)

theorem execSealAbort_memOk {s : State} {c ops} (ok : s.memOk = true) : nextOk (execSealAbort c ops s) := by
  refine onPath_memOk ok fun x ok => Exe.once_memOk ok fun vs => ?_
  dsimp only
  split
  · exact Exe.trap_memOk ok
  · refine Exe.commitAll_memOk (Exe.setSeals_memOk (State.writeSeal_memOk ?_))
    exact foldl_memOk (fun _ _ h => State.finishOp_memOk h) _ ok

theorem execCutMarkDy_memOk {s : State} {c ops} (ok : s.memOk = true) : nextOk (execCutMarkDy c ops s) := by
  refine onPath_memOk ok fun x ok => Exe.once_memOk ok fun vs => ?_
  grind [Exe.cutDepart_memOk, Exe.awaitCut_memOk, Exe.trapAll_memOk, Exe.cutCheck_memOk, Exe.arriveAt_memOk]

theorem execCutMarkFb_memOk {s : State} {c ops} (ok : s.memOk = true) : nextOk (execCutMarkFb c ops s) := by
  refine onPath_memOk ok fun x ok => Exe.once_memOk ok fun vs => ?_
  dsimp only
  split
  · split
    · exact Exe.cutDepart_memOk ok
    · exact ok
  · split
    · exact Exe.cutDepart_memOk ok
    · split
      · exact ok
      · split
        · exact Exe.cutDepart_memOk ok
        · split
          · exact ok
          · exact State.addCut_memOk ok
  all_goals
    split
    · exact ok
    · exact Exe.cutCheck_memOk ok fun y h => Exe.collIssueTo_memOk h fun z _ _ h => h

theorem execCutCopyDone_memOk {s : State} {k} (ok : s.memOk = true) : nextOk (execCutCopyDone k s) := by
  unfold execCutCopyDone
  show State.memOk _ = true
  split
  · exact ok
  · split
    · exact ok
    · split
      · next h => exact okState_elim h (State.takeCut_memOk ok)
      · split
        · exact State.faultAccess_memOk ok
        · exact State.startSearch_memOk ok
        · exact State.endLaunch_memOk ok
        · exact ok
        · exact ok

theorem execCutDrainDone_memOk {s : State} {k done} (ok : s.memOk = true) : nextOk (execCutDrainDone k done s) := by
  unfold execCutDrainDone
  show State.memOk _ = true
  split
  · exact ok
  · extract_lets live close
    have close_memOk : ∀ t : State, t.memOk = true → (close t).memOk = true := by
      intro t h
      show State.memOk (match mget t.cuts k with | none => t | some c => _) = true
      split
      · exact h
      · exact foldl_memOk (fun _ _ h => State.finishOp_memOk h) _ (by exact h)
    split
    · exact ok
    · split
      · exact close_memOk _ ok
      · split
        · exact State.drain_memOk _ ok
        · exact close_memOk _ (State.drain_memOk _ ok)

theorem execFmtbSp_memOk {s : State} {c ops} (ok : s.memOk = true) : nextOk (execFmtbSp c ops s) := by
  refine onPath_memOk ok fun x ok => Exe.once_memOk ok fun vs => ?_
  grind [Exe.trap_memOk, Exe.defineBlock_memOk]

theorem execUnfold_memOk {s : State} {c ops} (ok : s.memOk = true) : nextOk (execUnfold c ops s) := by
  refine onPath_memOk ok fun x ok => Exe.once_memOk ok fun vs => ?_
  grind [Exe.trap_memOk, Exe.commitAll_memOk]

theorem execTurnDeficitExhausted_memOk {s : State} {hall cycles} (ok : s.memOk = true) :
    nextOk (execTurnDeficitExhausted hall cycles s) := by
  have elapsed := State.elapse_memOk (hall := hall) (n := cycles) ok
  unfold execTurnDeficitExhausted
  show State.memOk _ = true
  dsimp only
  split
  · exact elapsed
  · split
    · exact elapsed
    · exact State.endTurns_memOk (foldl_memOk (fun _ _ h => State.stopGang_memOk h) _ (by exact elapsed))

theorem execRakeAck_memOk {s : State} {l gang cycles} (ok : s.memOk = true) : nextOk (execRakeAck l gang cycles s) := by
  have elapsed := State.elapse_memOk (hall := (s.gang l gang).hall) (n := cycles) ok
  unfold execRakeAck
  show State.memOk _ = true
  dsimp only
  split
  · exact ok
  · split
    · exact elapsed
    · split
      · split <;> exact elapsed
      · split
        · exact elapsed
        · exact State.saveGang_memOk elapsed

theorem xltStart_memOk {s : State} {h v scopes} (ok : s.memOk = true) : nextOk (xltStart h v scopes s) := by
  unfold xltStart
  split
  · exact osStore_memOk ok fun _ => State.writeXltCtl_memOk ok
  · exact ok

theorem execPageInImage_memOk {s : State} {rd rs1 rs2} (ok : s.memOk = true) : nextOk (execPageInImage rd rs1 rs2 s) := by
  refine asOs_memOk ok fun h p x => ?_
  dsimp only
  split
  · exact State.answer_memOk ok
  · split
    · exact State.answer_memOk ok
    · split
      · exact State.answer_memOk ok
      · split
        · exact State.answer_memOk ok
        · refine State.readBuffer_memOk ok ok fun t h => ?_
          split
          · exact State.answer_memOk h
          · refine State.readBuffer_memOk h ok fun u h => ?_
            split
            · exact State.answer_memOk h
            · exact State.draw_memOk h ok fun v f h => State.answer_memOk (State.setPot_memOk (State.ownFrame_memOk h))

theorem execFaultKill_memOk {s : State} {rd rs1 rs2} (ok : s.memOk = true) : nextOk (execFaultKill rd rs1 rs2 s) := by
  refine asOs_memOk ok fun h p x => ?_
  dsimp only
  split
  · exact State.answer_memOk ok
  · split
    · exact State.answer_memOk ok
    · refine State.answer_memOk (State.closeRec_memOk (State.killRaiser_memOk ?_))
      exact foldl_memOk (fun _ _ h => State.killWaiter_memOk h) _ ok

theorem execFunctionTrainingDone_memOk {s : State} {f done reason} (ok : s.memOk = true) :
    nextOk (execFunctionTrainingDone f done reason s) := by
  unfold execFunctionTrainingDone nextOk
  grind [State.enterFn_memOk, State.failStack_memOk]

theorem execPartitionBoot_memOk {s : State} {p image sig entry} (ok : s.memOk = true) :
    nextOk (execPartitionBoot p image sig entry s) := by
  have loaded : ∀ (ps : List Nat) (a : Nat), let t := ps.foldl (State.bootFrame p) s
      ({ t with mem := writeBytes t.mem a image } : State).memOk = true := fun ps a =>
    have framed := foldl_memOk (fun _ _ h => State.bootFrame_memOk h) ps ok
    State.memOk_mk (wf_writeBytes _ (State.wf_mem framed) _) (State.wf_teams framed)
  unfold execPartitionBoot nextOk
  dsimp only
  split
  · exact ok
  · split
    · split
      · exact loaded _ _
      · exact ok
    · exact ok

theorem execClockLower_memOk {s : State} {hall steps halfWatts} (ok : s.memOk = true) :
    nextOk (execClockLower hall steps halfWatts s) := by
  have sampled : ∀ (es : List Nat) (f : State → Nat → Enclave), (es.foldl (fun (t : State) e => t.setEncl e (f t e))
      { s with clocks := mset s.clocks hall (max 1 (s.clock hall - steps)) }).memOk = true :=
    fun es f => foldl_memOk (fun _ _ h => State.setEncl_memOk h) es (by exact ok)
  unfold execClockLower nextOk
  dsimp only
  split
  · exact ok
  · split
    · exact sampled _ _
    · exact State.setPart_memOk (sampled _ _)

theorem execLaunchDispatch_memOk {s : State} {e} (ok : s.memOk = true) : nextOk (execLaunchDispatch e s) := by
  have checked := foldl_memOk (f := State.checkHead) (fun _ _ h => State.checkHead_memOk h) ((s.encl e).heads.map Prod.snd) ok
  unfold execLaunchDispatch nextOk
  dsimp only
  split
  · exact checked
  · exact State.dispatch_memOk checked

theorem execGangPlace_memOk {s : State} {l gang hall block} (ok : s.memOk = true) :
    nextOk (execGangPlace l gang hall block s) := by
  unfold execGangPlace nextOk
  dsimp only
  by_cases stays : s.mayPlace l gang hall block = false ∨ (s.gang l gang).state ≠ .waiting
  · rw [if_pos stays]
    exact ok
  · rw [if_neg stays]
    split
    · exact State.machineryStop_memOk ok
    · next u h =>
      have : u.memOk = true := okState_elim h (State.graftStart_memOk ok)
      split
      · exact State.endLaunch_memOk this
      · exact State.place_memOk this

theorem execEncAddpage_memOk {s : State} {rd rs1 rs2} (ok : s.memOk = true) : nextOk (execEncAddpage rd rs1 rs2 s) := by
  refine asOs_memOk ok fun h p x => ?_
  have settled := State.settle_memOk (write := false) (pa := 4096 * bitsOf (x.reg rs1).toNat 39 0) (n := 4096) ok
  grind [State.answer_memOk, State.draw_memOk, State.setEncl_memOk, State.ownFrame_memOk]

theorem execEncDestroy_memOk {s : State} {rd rs1} (ok : s.memOk = true) : nextOk (execEncDestroy rd rs1 s) := by
  refine asOs_memOk ok fun h p x => ?_
  dsimp only
  split
  · exact State.answer_memOk ok
  · split
    · exact State.answer_memOk ok
    · split
      · exact State.answer_memOk ok
      · refine State.answer_memOk (State.setEncl_memOk (State.discardFaults_memOk (State.freePages_memOk ?_)))
        exact foldl_memOk (fun _ _ h => State.endLaunch_memOk h) _ ok

theorem report_memOk {s : State} {rekey rd rs1 rs2} (ok : s.memOk = true) : nextOk (report rekey rd rs1 rs2 s) := by
  refine asThread_memOk ok fun h p x n => ?_
  dsimp only
  split
  · exact State.answer_memOk ok
  · split
    · exact State.answer_memOk ok
    · split
      · exact State.answer_memOk ok
      · refine State.threadAccess_memOk ok fun ps => State.threadAccess_memOk ok fun qs => ?_
        refine State.behindWindow_memOk ok (State.behindWindow_memOk ok ?_)
        have read := State.placeRead_memOk (e := n.enclave) (n := 64) (ps := ps) ok
        refine State.answer_memOk (State.placeWrite_memOk (State.dropOldKey_memOk (State.setEncl_memOk ?_)))
        split <;> exact read

theorem encXctl_memOk {s : State} {form rd rs1 rs2} (ok : s.memOk = true) : nextOk (encXctl form rd rs1 rs2 s) := by
  refine asThread_memOk ok fun h p x n => ?_
  dsimp only
  split
  · exact State.answer_memOk ok
  · split
    · exact State.answer_memOk ok
    · split
      · exact State.threadStop_memOk ok
      · next h => exact State.answer_memOk (okPair_elim h (State.xctl_memOk ok))

theorem State.serve_memOk {s t : State} {e f bs} (ok : s.memOk = true) (h : s.serve e f = .done t bs) : t.memOk = true := by
  unfold State.serve at h
  grind [State.poke_memOk]

theorem execRequestFlit_memOk {s : State} {f} (ok : s.memOk = true) : nextOk (execRequestFlit f s) := by
  have arrived := State.arrive_memOk (f := f) (kind := 1) ok
  unfold execRequestFlit
  show State.memOk _ = true
  split
  · next h => rw [h] at arrived; exact arrived
  · next h =>
    rw [h] at arrived
    split
    · exact ok
    · split
      · exact ok
      · exact State.startSearch_memOk ok
      · exact State.sendFlit_memOk arrived
      · next h => exact State.sendFlit_memOk (State.serve_memOk arrived h)

theorem execResponseFlit_memOk {s : State} {f} (ok : s.memOk = true) : nextOk (execResponseFlit f s) := by
  have arrived := State.arrive_memOk (f := f) (kind := 2) ok
  unfold execResponseFlit nextOk
  grind [State.farDone_memOk]

theorem execCollectiveFlit_memOk {s : State} {f c} (ok : s.memOk = true) : nextOk (execCollectiveFlit f c s) := by
  have arrived := State.arrive_memOk (f := f) (kind := 3) ok
  unfold execCollectiveFlit
  show State.memOk _ = true
  split
  · next h => rw [h] at arrived; exact arrived
  · next h =>
    rw [h] at arrived
    split
    · exact arrived
    · split
      · split
        · exact State.finishOp_memOk arrived
        · exact arrived
      · exact arrived

theorem execLinkPortDown_memOk {s : State} {port} (ok : s.memOk = true) : nextOk (execLinkPortDown port s) := by
  unfold execLinkPortDown
  show State.memOk _ = true
  dsimp only
  split
  · exact foldl_memOk (f := State.streamDown) (fun _ _ h => State.streamDown_memOk h) _ (State.enterFn_memOk ok)
  · exact ok

theorem execIdeStreamRequest_memOk {s : State} {k write va data} (ok : s.memOk = true) :
    nextOk (execIdeStreamRequest k write va data s) := by
  unfold execIdeStreamRequest
  show State.memOk _ = true
  split
  · exact ok
  · dsimp only
    split
    · exact ok
    · split
      · split
        · exact State.writePieces_memOk _ _ _ ok
        · exact State.setIde_memOk ok
      · split
        · exact State.startSearch_memOk ok
        · exact ok
        all_goals
          split
          · exact ok
          · exact State.setIde_memOk ok

theorem execBarState_memOk {c ops} {s : State} (ok : s.memOk = true) : nextOk (execBarState c ops s) := by
  refine onPath_memOk ok fun x ok => ?_
  grind [Exe.commit_memOk, Exe.once_memOk, Exe.trapAll_memOk, Exe.commitAll_memOk, State.memOk, Exe.upon]

theorem execEjectHandoverDone_memOk {g p} {s : State} (ok : s.memOk = true) : nextOk (execEjectHandoverDone g p s) := by
  unfold execEjectHandoverDone
  grind [State.onPlaced_memOk, Exe.put_memOk, State.memOk, nextOk]

theorem execCopyBackDone_memOk {g p} {s : State} (ok : s.memOk = true) : nextOk (execCopyBackDone g p s) := by
  unfold execCopyBackDone
  grind [State.onPlaced_memOk, Exe.land_memOk, State.memOk, nextOk]

theorem execRecallDone_memOk {g p} {s : State} (ok : s.memOk = true) : nextOk (execRecallDone g p s) := by
  unfold execRecallDone
  grind [State.onPlaced_memOk, Exe.recallDone_memOk, State.memOk, nextOk]

theorem execCall_memOk {c t ops} {s : State} (ok : s.memOk = true) : nextOk (execCall c t ops s) := by
  refine onPath_memOk ok fun x ok => ?_
  grind [Exe.unlessPoison_memOk, Exe.enter_memOk, State.memOk, Exe.upon]

theorem execCalli_memOk {c t ops} {s : State} (ok : s.memOk = true) : nextOk (execCalli c t ops s) := by
  refine onPath_memOk ok fun x ok => ?_
  grind [Exe.unlessPoison_memOk, Exe.trapAll_memOk, Exe.enter_memOk, State.memOk, Exe.upon]

theorem execRet_memOk {c ops} {s : State} (ok : s.memOk = true) : nextOk (execRet c ops s) := by
  refine onPath_memOk ok fun x ok => ?_
  grind [Exe.unlessPoison_memOk, Exe.count_memOk, Exe.put_memOk, State.memOk, Exe.upon]

theorem execSetmGuard_memOk {c ops} {s : State} (ok : s.memOk = true) : nextOk (execSetmGuard c ops s) := by
  refine onPath_memOk ok fun x ok => ?_
  grind [Exe.unlessPoison_memOk, Exe.complete_memOk, State.memOk, Exe.upon]

theorem execCacheDemote_memOk {c ops} {s : State} (ok : s.memOk = true) : nextOk (execCacheDemote c ops s) := by
  refine onPath_memOk ok fun x ok => ?_
  grind [Exe.cacheOp_memOk, State.memOk, Exe.upon]

theorem execCacheEvict_memOk {c ops} {s : State} (ok : s.memOk = true) : nextOk (execCacheEvict c ops s) := by
  refine onPath_memOk ok fun x ok => ?_
  grind [Exe.cacheOp_memOk, State.evictLines_memOk, State.memOk, Exe.upon]

theorem execFutTest_memOk {c ops} {s : State} (ok : s.memOk = true) : nextOk (execFutTest c ops s) := by
  refine onPath_memOk ok fun x ok => ?_
  grind [Exe.futures_memOk, Exe.commit_memOk, Exe.observing_memOk, State.memOk, Exe.upon]

theorem execFutWait_memOk {c ops} {s : State} (ok : s.memOk = true) : nextOk (execFutWait c ops s) := by
  refine onPath_memOk ok fun x ok => ?_
  grind [Exe.futures_memOk, Exe.commit_memOk, Exe.observing_memOk, State.memOk, Exe.upon]

theorem execFutStatus_memOk {c ops} {s : State} (ok : s.memOk = true) : nextOk (execFutStatus c ops s) := by
  refine onPath_memOk ok fun x ok => ?_
  grind [Exe.futures_memOk, Exe.commit_memOk, Exe.observing_memOk, State.memOk, Exe.upon]

theorem execFutAll_memOk {c ops} {s : State} (ok : s.memOk = true) : nextOk (execFutAll c ops s) := by
  refine onPath_memOk ok fun x ok => ?_
  grind [Exe.engine_memOk, Exe.trapAll_memOk, Exe.issue_memOk, Exe.commitAll_memOk, Exe.upon_memOk, State.combineAll_memOk,
    State.memOk, Exe.upon]

theorem execYield_memOk {c ops} {s : State} (ok : s.memOk = true) : nextOk (execYield c ops s) := by
  refine onPath_memOk ok fun x ok => ?_
  grind [Exe.futures_memOk, Exe.resume_memOk, Exe.put_memOk, State.memOk, Exe.upon]

theorem execCollGroup_memOk {c scope ops} {s : State} (ok : s.memOk = true) : nextOk (execCollGroup c scope ops s) := by
  refine onPath_memOk ok fun x ok => ?_
  grind [Exe.engine_memOk, Exe.collBuild_memOk, Exe.plainRead_memOk, Exe.upon_memOk, State.memOk, Exe.upon]

theorem execCollRed_memOk {c scope ops} {s : State} (ok : s.memOk = true) : nextOk (execCollRed c scope ops s) := by
  refine onPath_memOk ok fun x ok => ?_
  grind [Exe.engine_memOk, Exe.collIssue_memOk, State.memOk, Exe.upon]

theorem execCollBcast_memOk {c scope ops} {s : State} (ok : s.memOk = true) : nextOk (execCollBcast c scope ops s) := by
  refine onPath_memOk ok fun x ok => ?_
  grind [Exe.engine_memOk, Exe.collIssue_memOk, State.memOk, Exe.upon]

theorem execCollBar_memOk {c scope ops} {s : State} (ok : s.memOk = true) : nextOk (execCollBar c scope ops s) := by
  refine onPath_memOk ok fun x ok => ?_
  grind [Exe.engine_memOk, Exe.collIssue_memOk, State.memOk, Exe.upon]

theorem execCollGroupBuildDone_memOk {k digests} {s : State} (ok : s.memOk = true) :
    nextOk (execCollGroupBuildDone k digests s) := by
  unfold execCollGroupBuildDone
  grind [State.finishOp_memOk, State.memOk, nextOk]

theorem execCollGroupRekey_memOk {k done} {s : State} (ok : s.memOk = true) : nextOk (execCollGroupRekey k done s) := by
  unfold execCollGroupRekey
  grind [State.memOk, nextOk]

theorem execTmask_memOk {c ops} {s : State} (ok : s.memOk = true) : nextOk (execTmask c ops s) := by
  refine onPath_memOk ok fun x ok => ?_
  grind [Exe.once_memOk, Exe.complete_memOk, State.memOk, Exe.upon]

theorem execRdctxTrap_memOk {c ops} {s : State} (ok : s.memOk = true) : nextOk (execRdctxTrap c ops s) := by
  refine onPath_memOk ok fun x ok => ?_
  grind [Exe.inHandler_memOk, Exe.commitAll_memOk, State.memOk, Exe.upon]

theorem execRdctxLanes_memOk {c ops} {s : State} (ok : s.memOk = true) : nextOk (execRdctxLanes c ops s) := by
  refine onPath_memOk ok fun x ok => ?_
  grind [Exe.inHandler_memOk, Exe.commitAll_memOk, State.memOk, Exe.upon]

theorem execRdctxOpnd_memOk {c ops} {s : State} (ok : s.memOk = true) : nextOk (execRdctxOpnd c ops s) := by
  refine onPath_memOk ok fun x ok => ?_
  grind [Exe.inHandler_memOk, Exe.commit_memOk, State.memOk, Exe.upon]

theorem execSealAbsorb_memOk {c scope ops} {s : State} (ok : s.memOk = true) : nextOk (execSealAbsorb c scope ops s) := by
  refine onPath_memOk ok fun x ok => ?_
  grind [Exe.engine_memOk, Exe.trap_memOk, Exe.launchOp_memOk, State.memOk, Exe.upon]

theorem execSpbm_memOk {c scope ops} {s : State} (ok : s.memOk = true) : nextOk (execSpbm c scope ops s) := by
  refine onPath_memOk ok fun x ok => ?_
  grind [Exe.engine_memOk, Exe.trap_memOk, Exe.launchOp_memOk, State.memOk, Exe.upon]

theorem execCntCtr_memOk {c ops} {s : State} (ok : s.memOk = true) : nextOk (execCntCtr c ops s) := by
  refine onPath_memOk ok fun x ok => ?_
  grind [Exe.onceActive_memOk, Exe.trap_memOk, State.bump_memOk, Exe.commitAll_memOk, Exe.upon_memOk, State.memOk, Exe.upon]

theorem execCntMon_memOk {c ops} {s : State} (ok : s.memOk = true) : nextOk (execCntMon c ops s) := by
  refine onPath_memOk ok fun x ok => ?_
  grind [Exe.onceActive_memOk, Exe.trap_memOk, Exe.commitAll_memOk, State.memOk, Exe.upon]

theorem execFlightRelease_memOk {l die f} {s : State} (ok : s.memOk = true) : nextOk (execFlightRelease l die f s) := by
  unfold execFlightRelease
  grind [State.freeFlight_memOk, State.memOk, nextOk]

theorem execCutStatus_memOk {c ops} {s : State} (ok : s.memOk = true) : nextOk (execCutStatus c ops s) := by
  refine onPath_memOk ok fun x ok => ?_
  grind [Exe.futures_memOk, State.drainSome_memOk, Exe.upon_memOk, Exe.commit_memOk, State.memOk, Exe.upon]

theorem execFmtbSc_memOk {c ops} {s : State} (ok : s.memOk = true) : nextOk (execFmtbSc c ops s) := by
  refine onPath_memOk ok fun x ok => ?_
  grind [Exe.once_memOk, Exe.defineBlock_memOk, State.memOk, Exe.upon]

theorem execCohort_memOk {c ops} {s : State} (ok : s.memOk = true) : nextOk (execCohort c ops s) := by
  refine onPath_memOk ok fun x ok => ?_
  grind [Exe.onCore_memOk, Exe.once_memOk, Exe.trap_memOk, Exe.complete_memOk, State.memOk, Exe.upon]

theorem execCohortClear_memOk {c ops} {s : State} (ok : s.memOk = true) : nextOk (execCohortClear c ops s) := by
  refine onPath_memOk ok fun x ok => ?_
  grind [Exe.onCore_memOk, Exe.trap_memOk, Exe.complete_memOk, State.memOk, Exe.upon]

theorem execAccLoad_memOk {c int scope ops} {s : State} (ok : s.memOk = true) : nextOk (execAccLoad c int scope ops s) := by
  refine onPath_memOk ok fun x ok => ?_
  grind [Exe.onCore_memOk, Exe.engine_memOk, Exe.trap_memOk, Exe.withTiles_memOk, Exe.issue_memOk, Exe.commitAll_memOk,
    State.memOk, Exe.upon]

theorem execAccStore_memOk {c scope ops} {s : State} (ok : s.memOk = true) : nextOk (execAccStore c scope ops s) := by
  refine onPath_memOk ok fun x ok => ?_
  grind [Exe.onCore_memOk, Exe.engine_memOk, Exe.trap_memOk, Exe.launchOp_memOk, State.memOk, Exe.upon]

theorem execTurnStart_memOk {hall e} {s : State} (ok : s.memOk = true) : nextOk (execTurnStart hall e s) := by
  unfold execTurnStart
  grind [State.endTurns_memOk, State.evictBorrowers_memOk, State.memOk, nextOk]

theorem execHandlerHoldExpiry_memOk {g} {s : State} (ok : s.memOk = true) : nextOk (execHandlerHoldExpiry g s) := by
  unfold execHandlerHoldExpiry
  grind [State.setGroup_memOk, State.memOk, nextOk]

theorem execXltInvDone_memOk {p} {s : State} (ok : s.memOk = true) : nextOk (execXltInvDone p s) := by
  unfold execXltInvDone
  grind [State.setPart_memOk, State.memOk, nextOk]

theorem execCorrectionSearchDone_memOk {line} {s : State} (ok : s.memOk = true) : nextOk (execCorrectionSearchDone line s) := by
  unfold execCorrectionSearchDone
  grind [State.settleSearch_memOk, State.memOk, nextOk]

theorem execPatrolRead_memOk {line} {s : State} (ok : s.memOk = true) : nextOk (execPatrolRead line s) := by
  unfold execPatrolRead
  grind [State.meetLine_memOk, State.readHbm_memOk, State.memOk, nextOk]

theorem execScrubFrame_memOk {p} {s : State} (ok : s.memOk = true) : nextOk (execScrubFrame p s) := by
  unfold execScrubFrame
  grind [State.rootStop_memOk, State.fillFrame_memOk, State.setPot_memOk, State.setPart_memOk, State.memOk, nextOk]

theorem execCleanPoolWaitDone_memOk {h interrupted} {s : State} (ok : s.memOk = true) :
    nextOk (execCleanPoolWaitDone h interrupted s) := by
  unfold execCleanPoolWaitDone
  grind [State.hartInterrupt_memOk, State.setHart_memOk, State.memOk, nextOk]

theorem execFrameDrainDone_memOk {frame} {s : State} (ok : s.memOk = true) : nextOk (execFrameDrainDone frame s) := by
  unfold execFrameDrainDone
  grind [State.toScrub_memOk, State.sealOut_memOk, State.memOk, nextOk]

theorem execPageInClean_memOk {rd rs1 rs2} {s : State} (ok : s.memOk = true) : nextOk (execPageInClean rd rs1 rs2 s) := by
  refine asOs_memOk ok fun h p x => ?_
  grind [State.answer_memOk, State.draw_memOk, State.ownFrame_memOk, State.setEncl_memOk, State.memOk]

theorem execPageInShare_memOk {rd rs1} {s : State} (ok : s.memOk = true) : nextOk (execPageInShare rd rs1 s) := by
  refine asOs_memOk ok fun h p x => ?_
  grind [State.answer_memOk, State.setPot_memOk, State.dropFrame_memOk, State.memOk]

theorem execPageFree_memOk {rd rs1} {s : State} (ok : s.memOk = true) : nextOk (execPageFree rd rs1 s) := by
  refine asOs_memOk ok fun h p x => ?_
  grind [State.answer_memOk, State.freeSlot_memOk, State.freeFrame_memOk, State.memOk]

theorem execHallTlbWalk_memOk {hall e va} {s : State} (ok : s.memOk = true) : nextOk (execHallTlbWalk hall e va s) := by
  unfold execHallTlbWalk
  grind [State.endWalk_memOk, State.memOk, nextOk]

theorem execFaultRecordPost_memOk {p} {s : State} (ok : s.memOk = true) : nextOk (execFaultRecordPost p s) := by
  unfold execFaultRecordPost
  grind [State.setPart_memOk, State.startSearch_memOk, State.poke_memOk, State.memOk, nextOk]

theorem execFaultResolve_memOk {rd rs1} {s : State} (ok : s.memOk = true) : nextOk (execFaultResolve rd rs1 s) := by
  refine asOs_memOk ok fun h p x => ?_
  grind [State.answer_memOk, State.replayAll_memOk, State.closeRec_memOk, State.memOk]

theorem execHbmStackFailed_memOk {k reason} {s : State} (ok : s.memOk = true) : nextOk (execHbmStackFailed k reason s) := by
  unfold execHbmStackFailed
  grind [State.failStack_memOk, State.memOk, nextOk]

theorem execManagementClaim_memOk {ms} {s : State} (ok : s.memOk = true) : nextOk (execManagementClaim ms s) := by
  unfold execManagementClaim
  grind [State.setMgmt_memOk, State.memOk, nextOk]

theorem execOwnershipHandover_memOk {m successor} {s : State} (ok : s.memOk = true) :
    nextOk (execOwnershipHandover m successor s) := by
  unfold execOwnershipHandover
  grind [State.asOwner_memOk, State.setMgmt_memOk, State.memOk, nextOk]

theorem execOwnershipAccept_memOk {m} {s : State} (ok : s.memOk = true) : nextOk (execOwnershipAccept m s) := by
  unfold execOwnershipAccept
  grind [State.setMgmt_memOk, State.memOk, nextOk]

theorem execOwnershipRefuse_memOk {m} {s : State} (ok : s.memOk = true) : nextOk (execOwnershipRefuse m s) := by
  unfold execOwnershipRefuse
  grind [State.setMgmt_memOk, State.memOk, nextOk]

theorem execManagementWrite_memOk {m addr v} {s : State} (ok : s.memOk = true) : nextOk (execManagementWrite m addr v s) := by
  unfold execManagementWrite
  grind [State.asOwner_memOk, State.setMgmt_memOk, State.memOk, nextOk]

theorem execPartitionForm_memOk {m p f} {s : State} (ok : s.memOk = true) : nextOk (execPartitionForm m p f s) := by
  unfold execPartitionForm
  grind [State.asOwner_memOk, State.setPart_memOk, State.memOk, nextOk]

theorem execBootKeyReplace_memOk {m p key} {s : State} (ok : s.memOk = true) : nextOk (execBootKeyReplace m p key s) := by
  unfold execBootKeyReplace
  grind [State.asOwner_memOk, State.setPart_memOk, State.memOk, nextOk]

theorem execGetCertificate_memOk {p slot} {s : State} (ok : s.memOk = true) : nextOk (execGetCertificate p slot s) := by
  unfold execGetCertificate
  grind [State.reply_memOk, State.memOk, nextOk]

theorem execSpdmGetMeasurements_memOk {p} {s : State} (ok : s.memOk = true) : nextOk (execSpdmGetMeasurements p s) := by
  unfold execSpdmGetMeasurements
  grind [State.reply_memOk, State.memOk, nextOk]

theorem execPartitionWayMaskWrite_memOk {m p d ways} {s : State} (ok : s.memOk = true) :
    nextOk (execPartitionWayMaskWrite m p d ways s) := by
  unfold execPartitionWayMaskWrite
  grind [State.asOwner_memOk, State.setPart_memOk, State.memOk, nextOk]

theorem execFabricNumberWrite_memOk {m f p} {s : State} (ok : s.memOk = true) : nextOk (execFabricNumberWrite m f p s) := by
  unfold execFabricNumberWrite
  grind [State.asOwner_memOk, State.memOk, nextOk]

theorem execDepReadResume_memOk {l} {s : State} (ok : s.memOk = true) : nextOk (execDepReadResume l s) := by
  unfold execDepReadResume
  grind [State.writeDone_memOk, State.checkHead_memOk, State.memOk, nextOk]

theorem execGangRestore_memOk {l gang hall block} {s : State} (ok : s.memOk = true) :
    nextOk (execGangRestore l gang hall block s) := by
  unfold execGangRestore
  grind [State.place_memOk, State.memOk, nextOk]

theorem execLaunchRetire_memOk {l} {s : State} (ok : s.memOk = true) : nextOk (execLaunchRetire l s) := by
  unfold execLaunchRetire
  grind [State.writeSeals_memOk, State.setLaunch_memOk, State.writeDone_memOk, State.vacate_memOk, State.memOk, nextOk]

theorem execLandingTimerExpiry_memOk {g r} {s : State} (ok : s.memOk = true) : nextOk (execLandingTimerExpiry g r s) := by
  unfold execLandingTimerExpiry
  grind [State.joinTimeout_memOk, State.setGroup_memOk, State.memOk, nextOk]

theorem execEncCreate_memOk {rd rs1 rs2} {s : State} (ok : s.memOk = true) : nextOk (execEncCreate rd rs1 rs2 s) := by
  refine asOs_memOk ok fun h p x => ?_
  grind [State.answer_memOk, State.memOk]

theorem execEncMeasure_memOk {rd rs1} {s : State} (ok : s.memOk = true) : nextOk (execEncMeasure rd rs1 s) := by
  refine asOs_memOk ok fun h p x => ?_
  grind [State.answer_memOk, State.setEncl_memOk, State.memOk]

theorem execEnclaveRelease_memOk {e} {s : State} (ok : s.memOk = true) : nextOk (execEnclaveRelease e s) := by
  unfold execEnclaveRelease
  grind [State.memOk, nextOk]

theorem execEncEnter_memOk {rd rs1} {s : State} (ok : s.memOk = true) : nextOk (execEncEnter rd rs1 s) := by
  refine asOs_memOk ok fun h p x => ?_
  grind [State.answer_memOk, State.setEncl_memOk, State.setHart_memOk, State.memOk]

theorem execEncExit_memOk {rd rs1} {s : State} (ok : s.memOk = true) : nextOk (execEncExit rd rs1 s) := by
  refine asThread_memOk ok fun h p x n => ?_
  grind [State.answer_memOk, State.leave_memOk, State.memOk]

theorem execEnclaveThreadInterrupt_memOk {h cause} {s : State} (ok : s.memOk = true) :
    nextOk (execEnclaveThreadInterrupt h cause s) := by
  unfold execEnclaveThreadInterrupt
  grind [State.hartInterrupt_memOk, State.memOk, nextOk]

theorem execKick_memOk {h q v rd} {s : State} (ok : s.memOk = true) : nextOk (execKick h q v rd s) := by
  unfold execKick
  grind [State.kick_memOk, State.memOk, nextOk]

theorem execRiscvLoadStore_memOk {h va a} {s : State} (ok : s.memOk = true) : nextOk (execRiscvLoadStore h va a s) := by
  unfold execRiscvLoadStore
  grind [State.retire_memOk, State.hartAccess_memOk, State.memOk, nextOk]

theorem execEngineGranuleLand_memOk {op i} {s : State} (ok : s.memOk = true) : nextOk (execEngineGranuleLand op i s) := by
  unfold execEngineGranuleLand
  grind [State.beginRows_memOk, State.arrayFault_memOk, State.performStep_memOk, State.coreRead_memOk, State.replayed_memOk,
    State.memOk, nextOk]

theorem execEngineOpComplete_memOk {op} {s : State} (ok : s.memOk = true) : nextOk (execEngineOpComplete op s) := by
  unfold execEngineOpComplete
  grind [State.collFinish_memOk, State.cancelNow_memOk, State.finishOp_memOk, State.memOk, nextOk]

theorem execTeardownFlit_memOk {stream} {s : State} (ok : s.memOk = true) : nextOk (execTeardownFlit stream s) :=
  State.streamDown_memOk ok

theorem execFlitRetry_memOk {stream seq} {s : State} (ok : s.memOk = true) : nextOk (execFlitRetry stream seq s) := by
  unfold execFlitRetry
  grind [State.setStream_memOk, State.memOk, nextOk]

theorem execStreamKeying_memOk {stream e q} {s : State} (ok : s.memOk = true) : nextOk (execStreamKeying stream e q s) := by
  unfold execStreamKeying
  grind [State.setStream_memOk, State.memOk, nextOk]

theorem execIdeStreamFailure_memOk {k} {s : State} (ok : s.memOk = true) : nextOk (execIdeStreamFailure k s) :=
  State.ideDown_memOk ok

theorem execTdispBinding_memOk {k e run} {s : State} (ok : s.memOk = true) : nextOk (execTdispBinding k e run s) := by
  unfold execTdispBinding
  grind [State.setIde_memOk, State.ideDown_memOk, State.memOk, nextOk]

theorem execTranslationDone_memOk {e hdr fn width budget} {s : State} (ok : s.memOk = true) :
    nextOk (execTranslationDone e hdr fn width budget s) :=
  foldl_memOk (f := fun (s : State) (b : Nat × Building) => s.endBuilding b.1 b.2) (fun _ _ h => State.endBuilding_memOk h) _ ok

theorem State.setMoves_memOk {s : State} {m : List (Nat × Move)} (ok : s.memOk = true) :
    ({ s with moves := m } : State).memOk = true :=
  ok

theorem execPageOut_memOk {rd rs1 rs2} {s : State} (ok : s.memOk = true) : nextOk (execPageOut rd rs1 rs2 s) := by
  refine asOs_memOk ok fun h p x => ?_
  dsimp only
  iterate 7
    split
    · exact State.answer_memOk ok
  exact State.setHart_memOk (State.setMoves_memOk (State.setEncl_memOk (State.dropFrame_memOk (State.setPot_memOk ok))))

theorem execReset_memOk {s : State} : nextOk (execReset s) := rfl

theorem execIdeStreamCompletion_memOk {op good data} {s : State} (ok : s.memOk = true) :
    nextOk (execIdeStreamCompletion op good data s) := by
  unfold execIdeStreamCompletion nextOk
  grind [State.farDone_memOk]

end Sys2Proof.Machine
end

section
/-! PROOF. A step keeps memories in canonical form: the case of each instruction, then each kind of step. -/

namespace Sys2Proof.Machine

theorem exec_memOk {s : State} (i : Instr) (ok : s.memOk = true) : nextOk (exec i s) := by
  unfold exec
  cases i with
  | barSync | barArrive => exact onPath_memOk ok fun _ => Exe.barArrive_memOk
  | barWait => exact onPath_memOk ok fun _ => Exe.barWait_memOk
  | flight => exact onPath_memOk ok fun _ => Exe.flight_memOk
  | barm => exact onPath_memOk ok fun _ => Exe.barm_memOk
  | phi => exact onPath_memOk ok fun _ => Exe.phis_memOk
  | br => exact onPath_memOk ok fun _ h => h
  | brc | brm => exact onPath_memOk ok fun _ => Exe.choose_memOk
  | join => exact onPath_memOk ok fun _ => Exe.join_memOk
  | unreach => exact onPath_memOk ok fun _ => Exe.trapAll_memOk
  | reservedMajorStub => exact onPath_memOk ok fun _ => State.raiseTrap_memOk
  | setmCtl | setmFlags | setmEn | setmStep | setmStepadd => exact onPath_memOk ok fun _ => Exe.setm_memOk
  | getmCtl | getmStep | getmGmask | rdctxLaunch | rdctxEnclave | rdctxPlace => exact onPath_memOk ok fun _ => Exe.commitAll_memOk
  | getmGuard | nop | fenceAcq | fenceRel | fenceAr | fenceSc => exact onPath_memOk ok fun _ => Exe.commit_memOk
  | rdcycI64 | rdcycI32 => exact onPath_memOk ok fun _ => Exe.cycles_memOk
  | const | iadd | isub | imul | imad | idiv | iminmax | logic | shift | bits | clmul | icmp | plogic | addr | cvti
  | fminmax | fsign | fcmp | fclass | sfu | cvtf | pack | dot | shfl | vote | reduce | matchLanes | lanemaskOwn
  | lanemaskBefore | lanemaskAfter | lanemaskSeg | lanemaskWidth | lanemaskAct | frnd | fscale | rndbits =>
    exact onPath_memOk ok fun _ => Exe.lanewise_memOk
  | sel => exact onPath_memOk ok fun _ => Exe.obey_memOk
  | fadd | fmul | ffma | fdiv | fsqrt => exact onPath_memOk ok fun _ => Exe.arith_memOk
  | voteLevel | trap => exact onPath_memOk ok fun _ => Exe.trap_memOk
  | scan => exact onPath_memOk ok fun _ => Exe.scan_memOk
  | ld | st | lds | sts | atom | atoms => exact onPath_memOk ok fun _ => Exe.memory_memOk
  | gather | scatter => exact onPath_memOk ok fun _ => Exe.gather_memOk
  | engineIssueResume | movingWaitEnd | ownershipReclaim => exact ok
  | xctlInv | xctlPfCore | xctlPfHall | xctlPinCore | xctlPinHall | xctlUnpinCore | xctlUnpinHall =>
    exact onPath_memOk ok fun _ => Exe.xctl_memOk
  | fmtb => exact onPath_memOk ok fun _ => Exe.defineBlock_memOk
  | accZeroF32 | accZeroI32 => exact onPath_memOk ok fun _ => Exe.accZero_memOk
  | mma | mmaSp | mmaUf | mmaSpec | mmaSpecSp | mmaSpecUf => exact onPath_memOk ok fun _ => Exe.mma_memOk
  | specCommit | specDiscard => exact onPath_memOk ok fun _ => Exe.specKeep_memOk
  | registerWrite => exact osStore_memOk ok fun _ => State.writeReg_memOk ok
  | xltInvEnclave | xltInvPages | xltInvPartition => exact xltStart_memOk ok
  | fqBaseWrite => exact osStore_memOk ok fun _ => State.writeFqBase_memOk ok
  | fqHeadWrite => exact osStore_memOk ok fun _ => State.writeFqHead_memOk ok
  | preemptGo => exact osStore_memOk ok fun _ => State.writePreempt_memOk ok
  | encReport | encReportRk => exact report_memOk ok
  | encXctlInv | encXctlPfCore | encXctlPfHall | encXctlPinCore | encXctlPinHall | encXctlUnpinCore | encXctlUnpinHall =>
    exact encXctl_memOk ok
  | barExpect => exact execBarExpect_memOk ok
  | barInit => exact execBarInit_memOk ok
  | exit => exact execExit_memOk ok
  | pref => exact execPref_memOk ok
  | cacheZero => exact execCacheZero_memOk ok
  | copy => exact execCopy_memOk ok
  | tmap => exact execTmap_memOk ok
  | yieldResume => exact execYieldResume_memOk ok
  | collPeerLost => exact execCollPeerLost_memOk ok
  | futCancel => exact execFutCancel_memOk ok
  | tret => exact execTret_memOk ok
  | tretSkip => exact execTretSkip_memOk ok
  | launch => exact execLaunch_memOk ok
  | xctlComplete => exact execXctlComplete_memOk ok
  | sealOpen => exact execSealOpen_memOk ok
  | sealClose => exact execSealClose_memOk ok
  | sealAbort => exact execSealAbort_memOk ok
  | cutMarkDy => exact execCutMarkDy_memOk ok
  | cutMarkFb => exact execCutMarkFb_memOk ok
  | cutCopyDone => exact execCutCopyDone_memOk ok
  | cutDrainDone => exact execCutDrainDone_memOk ok
  | fmtbSp => exact execFmtbSp_memOk ok
  | unfold => exact execUnfold_memOk ok
  | turnDeficitExhausted => exact execTurnDeficitExhausted_memOk ok
  | rakeAck => exact execRakeAck_memOk ok
  | pageInImage => exact execPageInImage_memOk ok
  | faultKill => exact execFaultKill_memOk ok
  | functionTrainingDone => exact execFunctionTrainingDone_memOk ok
  | partitionBoot => exact execPartitionBoot_memOk ok
  | clockLower => exact execClockLower_memOk ok
  | launchDispatch => exact execLaunchDispatch_memOk ok
  | gangPlace => exact execGangPlace_memOk ok
  | encAddpage => exact execEncAddpage_memOk ok
  | encDestroy => exact execEncDestroy_memOk ok
  | requestFlit => exact execRequestFlit_memOk ok
  | responseFlit => exact execResponseFlit_memOk ok
  | collectiveFlit => exact execCollectiveFlit_memOk ok
  | linkPortDown => exact execLinkPortDown_memOk ok
  | ideStreamRequest => exact execIdeStreamRequest_memOk ok
  | barState => exact execBarState_memOk ok
  | ejectHandoverDone => exact execEjectHandoverDone_memOk ok
  | copyBackDone => exact execCopyBackDone_memOk ok
  | recallDone => exact execRecallDone_memOk ok
  | call => exact execCall_memOk ok
  | calli => exact execCalli_memOk ok
  | ret => exact execRet_memOk ok
  | setmGuard => exact execSetmGuard_memOk ok
  | cacheDemote => exact execCacheDemote_memOk ok
  | cacheEvict => exact execCacheEvict_memOk ok
  | futTest => exact execFutTest_memOk ok
  | futWait => exact execFutWait_memOk ok
  | futStatus => exact execFutStatus_memOk ok
  | futAll => exact execFutAll_memOk ok
  | yield => exact execYield_memOk ok
  | collGroup => exact execCollGroup_memOk ok
  | collRed => exact execCollRed_memOk ok
  | collBcast => exact execCollBcast_memOk ok
  | collBar => exact execCollBar_memOk ok
  | collGroupBuildDone => exact execCollGroupBuildDone_memOk ok
  | collGroupRekey => exact execCollGroupRekey_memOk ok
  | tmask => exact execTmask_memOk ok
  | rdctxTrap => exact execRdctxTrap_memOk ok
  | rdctxLanes => exact execRdctxLanes_memOk ok
  | rdctxOpnd => exact execRdctxOpnd_memOk ok
  | sealAbsorb => exact execSealAbsorb_memOk ok
  | spbm => exact execSpbm_memOk ok
  | cntCtr => exact execCntCtr_memOk ok
  | cntMon => exact execCntMon_memOk ok
  | flightRelease => exact execFlightRelease_memOk ok
  | cutStatus => exact execCutStatus_memOk ok
  | fmtbSc => exact execFmtbSc_memOk ok
  | cohort => exact execCohort_memOk ok
  | cohortClear => exact execCohortClear_memOk ok
  | accLoad => exact execAccLoad_memOk ok
  | accStore => exact execAccStore_memOk ok
  | turnStart => exact execTurnStart_memOk ok
  | handlerHoldExpiry => exact execHandlerHoldExpiry_memOk ok
  | xltInvDone => exact execXltInvDone_memOk ok
  | correctionSearchDone => exact execCorrectionSearchDone_memOk ok
  | patrolRead => exact execPatrolRead_memOk ok
  | scrubFrame => exact execScrubFrame_memOk ok
  | cleanPoolWaitDone => exact execCleanPoolWaitDone_memOk ok
  | frameDrainDone => exact execFrameDrainDone_memOk ok
  | pageInClean => exact execPageInClean_memOk ok
  | pageInShare => exact execPageInShare_memOk ok
  | pageFree => exact execPageFree_memOk ok
  | hallTlbWalk => exact execHallTlbWalk_memOk ok
  | faultRecordPost => exact execFaultRecordPost_memOk ok
  | faultResolve => exact execFaultResolve_memOk ok
  | hbmStackFailed => exact execHbmStackFailed_memOk ok
  | managementClaim => exact execManagementClaim_memOk ok
  | ownershipHandover => exact execOwnershipHandover_memOk ok
  | ownershipAccept => exact execOwnershipAccept_memOk ok
  | ownershipRefuse => exact execOwnershipRefuse_memOk ok
  | managementWrite => exact execManagementWrite_memOk ok
  | partitionForm => exact execPartitionForm_memOk ok
  | bootKeyReplace => exact execBootKeyReplace_memOk ok
  | getCertificate => exact execGetCertificate_memOk ok
  | spdmGetMeasurements => exact execSpdmGetMeasurements_memOk ok
  | partitionWayMaskWrite => exact execPartitionWayMaskWrite_memOk ok
  | fabricNumberWrite => exact execFabricNumberWrite_memOk ok
  | depReadResume => exact execDepReadResume_memOk ok
  | gangRestore => exact execGangRestore_memOk ok
  | launchRetire => exact execLaunchRetire_memOk ok
  | landingTimerExpiry => exact execLandingTimerExpiry_memOk ok
  | encCreate => exact execEncCreate_memOk ok
  | encMeasure => exact execEncMeasure_memOk ok
  | enclaveRelease => exact execEnclaveRelease_memOk ok
  | encEnter => exact execEncEnter_memOk ok
  | encExit => exact execEncExit_memOk ok
  | enclaveThreadInterrupt => exact execEnclaveThreadInterrupt_memOk ok
  | kick => exact execKick_memOk ok
  | riscvLoadStore => exact execRiscvLoadStore_memOk ok
  | engineGranuleLand => exact execEngineGranuleLand_memOk ok
  | engineOpComplete => exact execEngineOpComplete_memOk ok
  | teardownFlit => exact execTeardownFlit_memOk ok
  | flitRetry => exact execFlitRetry_memOk ok
  | streamKeying => exact execStreamKeying_memOk ok
  | ideStreamFailure => exact execIdeStreamFailure_memOk ok
  | tdispBinding => exact execTdispBinding_memOk ok
  | translationDone => exact execTranslationDone_memOk ok
  | pageOut => exact execPageOut_memOk ok
  | reset => exact execReset_memOk
  | ideStreamCompletion => exact execIdeStreamCompletion_memOk ok

theorem issueStep_memOk {s : State} (ok : s.memOk = true) : nextOk (issueStep s) := by
  unfold issueStep
  split
  · exact ok
  · next x hx =>
    have xok : x.s.memOk = true := by rw [exe_s hx]; exact ok
    have spilled := Exe.spill_memOk xok
    split
    · next h => rw [h] at spilled; exact spilled
    · next h =>
      rw [h] at spilled
      split
      · exact exec_memOk _ spilled
      · exact Exe.illegal_memOk spilled
      all_goals exact spilled

theorem pathStep_memOk {s : State} {gid pid} (ok : s.memOk = true) : nextOk (pathStep s gid pid) := by
  have read : ∀ core, ((s.replayed (.path gid pid)).coreRead core).memOk = true :=
    fun _ => State.coreRead_memOk (State.replayed_memOk ok)
  unfold pathStep
  split
  · dsimp only
    split
    · exact State.arrayFault_memOk (read _)
    · exact issueStep_memOk (read _)
  · exact ok

theorem hartStep_memOk {s : State} {h} (ok : s.memOk = true) : nextOk (hartStep s h) := by
  unfold hartStep
  dsimp only
  split
  · exact ok
  · next p _ =>
    split
    · exact ok
    · have fetched := State.hartFetch_memOk (h := h) (part := p) ok
      split
      · next hf => rw [hf] at fetched; exact fetched
      · next hf =>
        rw [hf] at fetched
        split
        · split
          · exact exec_memOk _ fetched
          · exact State.hartIllegal_memOk fetched
        · exact State.riscv_memOk fetched

theorem step_memOk {s : State} (ok : s.memOk = true) : nextOk (step s) := by
  have begun : ({ s with turns := s.turns.tail, free := s.free + 1 } : State).memOk = true := ok
  unfold step
  dsimp only
  split
  · split
    · exact exec_memOk _ begun
    · exact begun
  · exact pathStep_memOk begun
  · exact hartStep_memOk begun
  · split
    · exact pathStep_memOk begun
    · exact begun

/-- Settles O55: every function that a step is made of keeps the form. -/
theorem memoryStaysCanonical : Obligations.MemoryStaysCanonical := by
  unfold Obligations.MemoryStaysCanonical
  intro s t ok moved
  have kept := step_memOk ok
  rw [moved] at kept
  exact kept

end Sys2Proof.Machine
end

section
/-! PROOF. Every step goes on: an instruction has its executor wherever a step runs it. -/

namespace Sys2Proof.Machine

/-- Whether a path executes depends on the path that moved last and on the groups alone. -/
theorem State.exe?_isSome_congr {s t : State} (hcur : t.cur = s.cur) (hgroups : t.groups = s.groups) :
    t.exe?.isSome = s.exe?.isSome := by
  unfold State.exe?
  rw [hcur, hgroups]
  cases s.cur with
  | none => rfl
  | some c =>
    dsimp only
    cases mget s.groups c.1 with
    | none => rfl
    | some g => simp only [Option.isSome_map]

theorem State.writePieces_turn : ∀ (ps : List (Nat × Nat × Nat)) (s : State) (bs : List Byte),
    (s.writePieces ps bs).cur = s.cur ∧ (s.writePieces ps bs).groups = s.groups
  | [], _, _ => ⟨rfl, rfl⟩
  | p :: ps, s, bs => State.writePieces_turn ps (s.store p.1 (bs.take p.2.2)) (bs.drop p.2.2)

/-- A spill access that is made leaves the executing path and the groups as they are. -/
theorem Exe.spill_turn {x : Exe} {t : State} (h : x.spill = .ok t) : t.cur = x.s.cur ∧ t.groups = x.s.groups := by
  unfold Exe.spill at h
  dsimp only at h
  split at h
  · cases h
    exact ⟨rfl, rfl⟩
  · split at h
    · cases h
    · split at h
      · cases h
      · next ps _ =>
        obtain ⟨c, touched⟩ := x.touchAll_only 0 (Config.freeNat (.spillAt 0) x.s.free % 3 == 2) x.s ps
        rw [touched] at h
        cases h
        split
        · exact ⟨rfl, rfl⟩
        · exact State.writePieces_turn ps _ _

/-- An instruction goes on where a path executes, where it is an event, and where it is a general core's. -/
theorem exec_goesOn {i : Instr} {s : State} (h : s.exe?.isSome = true ∨ i.isEvent = true ∨ i.custom ≠ none) :
    ∃ t, exec i s = .next t := by
  rcases exec_answers i s with goesOn | ⟨-, noPath, noEvent, noCustom⟩
  · exact goesOn
  · simp [noPath, noEvent, noCustom] at h

theorem issueStep_goesOn (s : State) : ∃ t, issueStep s = .next t := by
  unfold issueStep
  split
  · exact ⟨_, rfl⟩
  · next x hx =>
    split
    · exact ⟨_, rfl⟩
    · next t hspill =>
      split
      · refine exec_goesOn (.inl ?_)
        obtain ⟨hcur, hgroups⟩ := Exe.spill_turn hspill
        rw [exe_s hx] at hcur hgroups
        rw [State.exe?_isSome_congr hcur hgroups, hx]
        rfl
      all_goals exact ⟨_, rfl⟩

theorem pathStep_goesOn (s : State) (gid pid : Nat) : ∃ t, pathStep s gid pid = .next t := by
  unfold pathStep
  dsimp only
  split
  · split
    · exact ⟨_, rfl⟩
    · exact issueStep_goesOn _
  · exact ⟨_, rfl⟩

theorem hartStep_goesOn (s : State) (h : Nat) : ∃ t, hartStep s h = .next t := by
  unfold hartStep
  dsimp only
  split
  · exact ⟨_, rfl⟩
  · split
    · exact ⟨_, rfl⟩
    · split
      · exact ⟨_, rfl⟩
      · split
        · split
          · next hi => exact exec_goesOn (.inr (.inr (decodeCustom_custom _ _ hi)))
          · exact ⟨_, rfl⟩
        · exact ⟨_, rfl⟩

/-- Settles O54: each kind of step goes on. -/
theorem everyStepGoesOn : Obligations.EveryStepGoesOn := by
  unfold Obligations.EveryStepGoesOn step
  intro s
  dsimp only
  split
  · split
    · next isEvent => exact exec_goesOn (.inr (.inl isEvent))
    · exact ⟨_, rfl⟩
  · exact pathStep_goesOn _ _ _
  · exact hartStep_goesOn _ _
  · split
    · exact pathStep_goesOn _ _ _
    · exact ⟨_, rfl⟩

end Sys2Proof.Machine
end

section
/-! PROOF. An interrupt of an enclave CPU thread waits for the far end that the thread has asked (O45). -/

namespace Sys2Proof.Machine

/-- A general core takes no interrupt while a load or a store of its own waits for a far end. -/
theorem State.hartInterrupt_asked {s : State} {h : Nat} (cause : BitVec 64) (asked : s.asked (.hart h) = true) :
    s.hartInterrupt h cause = s := by
  unfold State.hartInterrupt
  rw [if_pos asked]

theorem execEnclaveThreadInterrupt_asked {s : State} {h : Nat} (cause : BitVec 64) (asked : s.asked (.hart h) = true) :
    exec (.enclaveThreadInterrupt h cause) s = .next s := by
  show Host.Outcome.next (if (s.hart h).inside.isNone then s else s.hartInterrupt h cause) = .next s
  rw [State.hartInterrupt_asked cause asked, ite_self]

/-- General core 0 executes thread 0 of enclave 1, and a load of the thread waits for the far end of stream 7. -/
def threadThatAsks : State :=
  { State.reset with
    harts := [(0, { Hart.reset with mode := .u, inside := some ⟨1, 0, 0x1000, 10, [], ⟨[], [], []⟩⟩ })]
    far := [(0, ⟨.link 7, 1, .hart 0, 1, 0, 3, false, []⟩)] }

/-- Refutes O45: the thread stays in its enclave when the interrupt comes while a load of it waits for a far end. -/
theorem not_enclaveEnds : ¬ Obligations.EnclaveEnds := by
  unfold Obligations.EnclaveEnds
  rintro ⟨-, -, interrupts⟩
  obtain ⟨t, step, ⟨left, -⟩, -⟩ := interrupts threadThatAsks 0 0 ⟨1, 0, 0x1000, 10, [], ⟨[], [], []⟩⟩ rfl
  rw [execEnclaveThreadInterrupt_asked 0 rfl] at step
  cases step
  exact absurd left (by decide)

end Sys2Proof.Machine
end

section
/-! PROOF. The partition register page (R43, R44, R46, R70, R401, R403): what each register takes of a value, what a store of the
operating system to it does, and how an invalidation ends. -/

namespace Sys2Proof.Machine

/-! What the registers take. -/

theorem State.writeFqBase_of_closed {s : State} {p : Nat} (v : BitVec 64) (closed : (s.part p).fqBase.getLsbD 63 = false) :
    s.writeFqBase p v = s.setPart p { s.part p with
      fqBase := (v &&& 0xBF00000000000000#64) ||| (v &&& 0x000FFFFFFFFFF00F#64) } := by
  unfold State.writeFqBase
  simp only [closed, Bool.false_eq_true, if_false]

theorem State.writeFqBase_of_open {s : State} {p : Nat} (v : BitVec 64) (isOpen : (s.part p).fqBase.getLsbD 63 = true) :
    s.writeFqBase p v = s.setPart p { s.part p with
      fqBase := (v &&& 0xBF00000000000000#64) ||| ((s.part p).fqBase &&& 0x000FFFFFFFFFF00F#64) } := by
  unfold State.writeFqBase
  simp only [isOpen, if_true]

theorem State.writeFqHead_inside {s : State} {p : Nat} {v : BitVec 64}
    (inside : ((s.part p).fqTail - v.setWidth 32).toNat ≤ (s.part p).ringSize) :
    s.writeFqHead p v = s.setPart p { s.part p with fqHead := v.setWidth 32 } :=
  if_neg (Nat.not_lt.mpr inside)

theorem State.writeFqHead_outside {s : State} {p : Nat} {v : BitVec 64}
    (outside : (s.part p).ringSize < ((s.part p).fqTail - v.setWidth 32).toNat) : s.writeFqHead p v = s :=
  if_pos outside

theorem State.writeXltCtl_busy {s : State} {p : Nat} (v : BitVec 64) (busy : (s.part p).inval ≠ none) : s.writeXltCtl p v = s :=
  if_pos (Option.isSome_iff_ne_none.mpr busy)

theorem State.writeXltCtl_idle {s : State} {p : Nat} (v : BitVec 64) (idle : (s.part p).inval = none) :
    s.writeXltCtl p v = s.setPart p { s.part p with
      xltCtl := v &&& 0x3FFFF#64, inval := if v.getLsbD 63 then some ((s.part p).invalOf v) else none } :=
  if_neg (by simp [idle])

/-- A write without BUSY starts no invalidation. -/
theorem State.writeXltCtl_rests {s : State} {p : Nat} {v : BitVec 64} (idle : (s.part p).inval = none)
    (rests : v.getLsbD 63 = false) :
    s.writeXltCtl p v = s.setPart p { s.part p with xltCtl := v &&& 0x3FFFF#64 } := by
  rw [State.writeXltCtl_idle v idle, rests, ← idle]
  rfl

theorem State.writeXltCtl_starts {s : State} {p : Nat} {v : BitVec 64} {n : Inval} (idle : (s.part p).inval = none)
    (starts : v.getLsbD 63 = true) (names : (s.part p).invalOf v = n) :
    s.writeXltCtl p v = s.setPart p { s.part p with xltCtl := v &&& 0x3FFFF#64, inval := some n } := by
  rw [State.writeXltCtl_idle v idle, starts, names]
  rfl

theorem Part.invalOf_enclave (q : Part) {v : BitVec 64} (scope : v.extractLsb' 16 2 = 0) :
    q.invalOf v = ⟨some (v.extractLsb' 0 16).toNat, 0, none⟩ := by
  unfold Part.invalOf
  rw [bits_toNat v 17 16 2 rfl, bits_toNat v 15 0 16 rfl, scope]
  rfl

theorem Part.invalOf_pages (q : Part) {v : BitVec 64} (scope : v.extractLsb' 16 2 = 1) :
    q.invalOf v = ⟨some (v.extractLsb' 0 16).toNat, (q.xltAddr.extractLsb' 12 36).toNat,
      some ((q.xltAddr.extractLsb' 0 12).toNat + 1)⟩ := by
  unfold Part.invalOf
  rw [bits_toNat v 17 16 2 rfl, bits_toNat v 15 0 16 rfl, bits_toNat q.xltAddr 47 12 36 rfl, bits_toNat q.xltAddr 11 0 12 rfl, scope]
  rfl

theorem Part.invalOf_partition (q : Part) {v : BitVec 64} (scope : 2 ≤ (v.extractLsb' 16 2).toNat) :
    q.invalOf v = ⟨none, 0, none⟩ := by
  unfold Part.invalOf
  rw [bits_toNat v 17 16 2 rfl]
  split
  · omega
  · omega
  · rfl

theorem State.writePreempt_going {s : State} {p : Nat} (v : BitVec 64) (going : (s.part p).preemptGo = true) :
    s.writePreempt p v = s :=
  if_pos going

theorem State.writePreempt_names {s : State} {p : Nat} {v : BitVec 64} (idle : (s.part p).preemptGo = false)
    (rests : v.getLsbD 16 = false) : s.writePreempt p v = s.setPart p { s.part p with preemptEnc := v.setWidth 16 } := by
  unfold State.writePreempt
  simp only [idle, rests, Bool.false_eq_true, if_false]

theorem State.writePreempt_goes {s : State} {p : Nat} {v : BitVec 64} (idle : (s.part p).preemptGo = false)
    (goes : v.getLsbD 16 = true) : s.writePreempt p v = s.preempt p (v.extractLsb' 0 16).toNat := by
  unfold State.writePreempt
  simp only [idle, goes, Bool.false_eq_true, if_false, if_true]
  rw [bits_toNat v 15 0 16 rfl]

theorem State.writeReg_xltAddr_busy {s : State} {p : Nat} (v : BitVec 64) (busy : (s.part p).inval ≠ none) :
    s.writeReg p 0x018 v = s :=
  if_pos (Option.isSome_iff_ne_none.mpr busy)

theorem State.writeReg_xltAddr {s : State} {p : Nat} (v : BitVec 64) (idle : (s.part p).inval = none) :
    s.writeReg p 0x018 v = s.setPart p { s.part p with xltAddr := v &&& 0x0000FFFFFFFFFFFF#64 } :=
  if_neg (by simp [idle])

theorem State.writeReg_l2Class (s : State) (p : Nat) (v : BitVec 64) {d c : Nat} (hd : d < 4) (hc : c < 4) :
    s.writeReg p (0x100 + 0x20 * d + 0x08 * c) v =
      s.setPart p { s.part p with l2Class := mset (s.part p).l2Class (4 * d + c) (v &&& 0x3FFFFFF#64) } := by
  have place : (0x100 + 0x20 * d + 0x08 * c - 0x100) / 8 = 4 * d + c := by omega
  unfold State.writeReg
  dsimp only
  rw [if_neg (by omega), if_neg (by omega), if_neg (by omega), if_neg (by omega), if_pos (by omega), place]

theorem State.writeReg_weight {s : State} {p : Nat} {y : Enclave} (v : BitVec 64)
    (named : s.enclIn p (s.part p).sel.toNat = some y) :
    s.writeReg p 0x210 v = ((s.setEncl (s.part p).sel.toNat { y with weight := v.setWidth 8 }).endTurns).evictAll := by
  show s.writeWeight p v = _
  unfold State.writeWeight
  dsimp only
  rw [named]

/-! What a store of the operating system to a register does. -/

section
variable {s : State} {h p : Nat} (part : s.partOf h = some p) (running : (s.hart h).inReset = false)
  (outside : (s.hart h).inside = none) (ready : (s.hart h).wait = .nothing)
include part running outside ready

theorem exec_registerWrite (off : Nat) (v : BitVec 64) :
    exec (.registerWrite h off v) s = .next ((s.writeReg p off v).gone h 0 0) :=
  osStore_eq part running outside ready fun p => s.writeReg p off v

theorem exec_fqBase (v : BitVec 64) : ∀ i ∈ [Instr.registerWrite h 0x000 v, .fqBaseWrite h v],
    exec i s = .next ((s.writeFqBase p v).gone h 0 0) :=
  have stores := osStore_eq part running outside ready fun p => s.writeFqBase p v
  List.forall_mem_cons.mpr ⟨stores, List.forall_mem_singleton.mpr stores⟩

theorem exec_fqHead (v : BitVec 64) : ∀ i ∈ [Instr.registerWrite h 0x010 v, .fqHeadWrite h v],
    exec i s = .next ((s.writeFqHead p v).gone h 0 0) :=
  have stores := osStore_eq part running outside ready fun p => s.writeFqHead p v
  List.forall_mem_cons.mpr ⟨stores, List.forall_mem_singleton.mpr stores⟩

theorem exec_preempt (v : BitVec 64) : ∀ i ∈ [Instr.registerWrite h 0x218 v, .preemptGo h v],
    exec i s = .next ((s.writePreempt p v).gone h 0 0) :=
  have stores := osStore_eq part running outside ready fun p => s.writePreempt p v
  List.forall_mem_cons.mpr ⟨stores, List.forall_mem_singleton.mpr stores⟩

theorem exec_xltCtl (v : BitVec 64) : exec (.registerWrite h 0x020 v) s = .next ((s.writeXltCtl p v).gone h 0 0) :=
  osStore_eq part running outside ready fun p => s.writeXltCtl p v

/-- An event that starts an invalidation stores to XLT_INV_CTL where the value has BUSY and one of the event's scopes. -/
theorem xltStart_stores {v : BitVec 64} {scopes : List Nat} (starts : v.getLsbD 63 = true)
    (scope : (v.extractLsb' 16 2).toNat ∈ scopes) : xltStart h v scopes s = .next ((s.writeXltCtl p v).gone h 0 0) := by
  unfold xltStart
  rw [bits_toNat v 17 16 2 rfl, if_pos (by simpa [starts] using scope)]
  exact osStore_eq part running outside ready _

end

/-! How an invalidation ends. -/

/-- What an invalidation names of an enclave's pages
  (R43): the enclave is the partition's and, where it names one, that one; and the
pages overlap those that it names, where it names some. -/
theorem State.named_iff {s : State} {p : Nat} {n : Inval} {e : Nat} {pages : Nat × Nat} :
    s.named p n e pages = true ↔ (s.encl e).part = p ∧ (n.enclave = none ∨ n.enclave = some e) ∧
      (n.pages = none ∨ ∃ k, n.pages = some k ∧ overlaps pages (n.first, k) = true) := by
  unfold State.named
  cases n.pages <;> simp [and_assoc]

theorem exec_xltInvDone_waits {s : State} {p : Nat} {n : Inval} (inval : (s.part p).inval = some n)
    (waits : s.farNamed p n = true) :
    exec (.xltInvDone p) s = .next { s with tlb := s.tlb.filter fun t => !s.invalidates p n t } := by
  show execXltInvDone p s = _
  unfold execXltInvDone
  rw [inval]
  exact congrArg _ (if_pos waits)

theorem exec_xltInvDone_ends {s : State} {p : Nat} {n : Inval} (inval : (s.part p).inval = some n)
    (ends : s.farNamed p n = false) :
    exec (.xltInvDone p) s =
      .next
        (({ s with tlb := s.tlb.filter fun t => !s.invalidates p n t } : State).setPart p { s.part p with inval := none }) := by
  show execXltInvDone p s = _
  unfold execXltInvDone
  rw [inval]
  exact congrArg _ (if_neg (Bool.not_eq_true _ ▸ ends))

/-- Settles O41: a register's write is one store of the operating system, and what the register takes decides the rest. -/
theorem registerPageWrites : Obligations.RegisterPageWrites := by
  unfold Obligations.RegisterPageWrites
  intro s h p v
  dsimp only
  refine ⟨fun part running outside ready => ?_, fun n inval => ?_⟩
  · have writes := exec_registerWrite part running outside ready
    have ctl := exec_xltCtl part running outside ready v
    refine ⟨fun i hi => ?_, fun i hi => ?_, fun busy => ?_, fun idle => ?_, fun d c hd hc => ?_, ?_, ?_, fun y named => ?_,
      fun i hi => ?_⟩
    case refine_1 =>
      rw [exec_fqBase part running outside ready v i hi]
      exact ⟨fun closed => by rw [State.writeFqBase_of_closed v closed], fun isOpen => by rw [State.writeFqBase_of_open v isOpen]⟩
    case refine_2 =>
      rw [exec_fqHead part running outside ready v i hi]
      exact ⟨fun inRing => by rw [State.writeFqHead_inside inRing], fun beyond => by rw [State.writeFqHead_outside beyond]⟩
    case refine_3 =>
      rw [writes, ctl]
      exact ⟨by rw [State.writeReg_xltAddr_busy v busy], by rw [State.writeXltCtl_busy v busy]⟩
    case refine_4 =>
      refine ⟨by rw [writes, State.writeReg_xltAddr v idle], fun rests => by rw [ctl, State.writeXltCtl_rests idle rests],
        fun starts => ?_⟩
      have event := fun scopes scope => xltStart_stores (scopes := scopes) part running outside ready starts scope
      refine ⟨fun scope => List.forall_mem_cons.mpr ⟨?_, List.forall_mem_singleton.mpr ?_⟩,
        fun scope => List.forall_mem_cons.mpr ⟨?_, List.forall_mem_singleton.mpr ?_⟩,
        fun scope => List.forall_mem_cons.mpr ⟨?_, List.forall_mem_singleton.mpr ?_⟩⟩
      · rw [ctl, State.writeXltCtl_starts idle starts (Part.invalOf_enclave _ scope)]
      · refine (event [0] (by simp [scope])).trans ?_
        rw [State.writeXltCtl_starts idle starts (Part.invalOf_enclave _ scope)]
      · rw [ctl, State.writeXltCtl_starts idle starts (Part.invalOf_pages _ scope)]
      · refine (event [1] (by simp [scope])).trans ?_
        rw [State.writeXltCtl_starts idle starts (Part.invalOf_pages _ scope)]
      · rw [ctl, State.writeXltCtl_starts idle starts (Part.invalOf_partition _ scope)]
      · have : (v.extractLsb' 16 2).toNat < 4 := (v.extractLsb' 16 2).isLt
        refine (event [2, 3] (by simp only [List.mem_cons, List.not_mem_nil, or_false]; omega)).trans ?_
        rw [State.writeXltCtl_starts idle starts (Part.invalOf_partition _ scope)]
    case refine_5 => rw [writes, State.writeReg_l2Class s p v hd hc]
    case refine_6 => exact writes 0x200 v
    case refine_7 => exact writes 0x208 v
    case refine_8 => rw [writes, State.writeReg_weight v named]
    case refine_9 =>
      rw [exec_preempt part running outside ready v i hi]
      exact ⟨fun going => by rw [State.writePreempt_going v going],
        fun idle rests => by rw [State.writePreempt_names idle rests], fun idle goes => by rw [State.writePreempt_goes idle goes]⟩
  · refine ⟨s.tlb.filter fun t => !s.invalidates p n t, fun t => ?_, fun far => ?_, fun noFar => ?_⟩
    · rw [List.mem_filter, ← State.named_iff]
      simp [State.invalidates]
    · refine exec_xltInvDone_waits inval (List.any_eq_true.mpr ?_)
      obtain ⟨f, hf, names⟩ := far
      exact ⟨f, hf, State.named_iff.mpr names⟩
    · refine exec_xltInvDone_ends inval (List.any_eq_false.mpr fun f hf named => ?_)
      exact noFar f hf (State.named_iff.mp named)

end Sys2Proof.Machine
end

section
/-! PROOF. What an access of a general core does
  (R20, R39, R40, R52, R84, R119, R397): outside of an enclave, inside of one, and to the
register and kick pages. -/

namespace Sys2Proof.Machine

/-! The operating system's accesses. -/

theorem State.osCheck_forbidden {s : State} {p pa n : Nat} (write : Bool) (forbidden : ∃ q ∈ pagesAt pa n, s.osPage p q = false) :
    s.osCheck p write pa n = .fault :=
  if_pos (by simpa [List.all_eq_true] using forbidden)

theorem State.osStep_performed {s : State} {h p pa : Nat} {a : HartAccess}
    (allowed : s.osCheck p (accKind a).writes pa (accSize a) = .ok) : s.osStep h p pa a = s.perform h [(pa, 0, accSize a)] a := by
  unfold State.osStep
  rw [allowed]

theorem State.osStep_forbidden {s : State} {h p pa : Nat} {a : HartAccess}
    (forbidden : ∃ q ∈ pagesAt pa (accSize a), s.osPage p q = false) :
    s.osStep h p pa a = s.hartTrap h (accessCause (accKind a)) (BitVec.ofNat 64 pa) := by
  unfold State.osStep
  rw [State.osCheck_forbidden _ forbidden]

theorem State.hartAccess_memory {s : State} {h p : Nat} {va : BitVec 64} (a : HartAccess) (outside : (s.hart h).inside = none)
    (memory : va.toNat < Config.registerBase p ∨ Config.registerBase p + 4096 ≤ va.toNat) :
    s.hartAccess h p va a = s.osStep h p va.toNat a := by
  unfold State.hartAccess
  rw [outside]
  exact if_neg (by omega)

theorem State.hartAccess_page {s : State} {h p off : Nat} {va : BitVec 64} (a : HartAccess) (outside : (s.hart h).inside = none)
    (place : va.toNat = Config.registerBase p + off) (inPage : off < 4096) : s.hartAccess h p va a = s.pageAccess h p off a := by
  unfold State.hartAccess
  rw [outside]
  dsimp only
  rw [if_pos (by omega), show va.toNat - Config.registerBase p = off by omega]

theorem State.hartAccess_inside {s : State} {h p : Nat} {n : Inside} (va : BitVec 64) (a : HartAccess)
    (inside : (s.hart h).inside = some n) :
    s.hartAccess h p va a = s.threadStep h n va a := by
  unfold State.hartAccess
  rw [inside]

theorem State.pageAccess_load {s : State} {off : Nat} (h p : Nat) (signed : Bool) (rd : BitVec 5) (aligned : off % 8 = 0) :
    s.pageAccess h p off (.load 8 signed rd) = s.gone h rd (s.readReg p off) :=
  if_neg (by simp [aligned, accSize])

theorem State.pageAccess_store {s : State} {off : Nat} (h p : Nat) (rs : BitVec 5) (aligned : off % 8 = 0) :
    s.pageAccess h p off (.store 8 rs) = (s.writeReg p off ((s.hart h).reg rs)).gone h 0 0 :=
  if_neg (by simp [aligned, accSize])

/-! An enclave CPU thread's accesses. -/

theorem State.threadStep_memory {s : State} {h : Nat} {n : Inside} {va : BitVec 64} {a : HartAccess} {ps : List (Found × Nat)}
    {qs : List (Nat × Nat × Nat)} (mapped : 4096 ≤ va.toNat)
      (located : s.locate none n.enclave va (accKind a) (accSize a) = .ok ps)
    (here : localPieces ps = some qs) : s.threadStep h n va a = s.perform h qs a := by
  unfold State.threadStep State.threadAccess
  rw [if_neg (by omega), located]
  dsimp only
  rw [here]

theorem State.threadStep_window {s : State} {h : Nat} {n : Inside} {va : BitVec 64} {a : HartAccess} {ps : List (Found × Nat)}
    (mapped : 4096 ≤ va.toNat) (located : s.locate none n.enclave va (accKind a) (accSize a) = .ok ps)
    (away : localPieces ps = none) : s.threadStep h n va a = s.farPerform h n va ps a := by
  unfold State.threadStep State.threadAccess
  rw [if_neg (by omega), located]
  dsimp only
  rw [away]

theorem State.threadStep_faults {s : State} {h : Nat} {n : Inside} {va : BitVec 64} {a : HartAccess} {st : Stop} {f : FaultInfo}
    (mapped : 4096 ≤ va.toNat) (stopped : s.locate none n.enclave va (accKind a) (accSize a) = .error st)
      (fault : st.found = .fault f) :
    s.threadStep h n va a = s.threadFault h (accKind a) st.va f.kind := by
  unfold State.threadStep State.threadAccess
  rw [if_neg (by omega), stopped]
  dsimp only
  unfold State.threadStop
  rw [fault]

/-- An access through a window that is up is sent, where nothing is under way for the core and the stream takes it. -/
theorem State.farPerform_sends {s : State} {h : Nat} {n : Inside} {ps : List (Found × Nat)} (va : BitVec 64) (a : HartAccess)
    (unanswered : (s.hart h).answer = none) (up : s.windowUp n.enclave (windowIn ps) = true) (free : s.asked (.hart h) = false)
    (takes : s.windowWaits n.enclave (windowIn ps) = false) :
    s.farPerform h n va ps a = s.sendFar n.enclave (windowIn ps) (windowAddr ps) (low48 va / 4096) (.hart h) (accKind a).writes
      ((s.hart h).sent a).1 ((s.hart h).sent a).2 := by
  unfold State.farPerform
  dsimp only
  rw [unanswered]
  dsimp only
  rw [if_neg (by simp [up]), if_neg (by simp [free, takes])]

/-- A load of QSTAT. -/
theorem State.threadStep_qstat {s : State} {q : Nat} (h : Nat) (n : Inside) (signed : Bool) (rd : BitVec 5) (isQueue : q < 16) :
    s.threadStep h n (BitVec.ofNat 64 (16 * q + 8)) (.load 8 signed rd) = s.gone h rd ((s.encl n.enclave).qstat q) := by
  have place : (BitVec.ofNat 64 (16 * q + 8)).toNat = 16 * q + 8 := Nat.mod_eq_of_lt (by omega)
  have queue : (16 * q + 8) / 16 = q := by omega
  unfold State.threadStep State.kickAccess
  dsimp only
  rw [place, if_pos (by omega), if_neg (by simp only [accSize]; omega), if_neg (by omega), queue]
  rfl

/-! KICK. -/

theorem State.kick_misaligned {s : State} {v : BitVec 64} (h e q : Nat) (rd : BitVec 5) (misaligned : v.extractLsb' 0 7 ≠ 0) :
    s.kick h e q v rd = s.gone h rd 2 :=
  if_pos fun aligned => misaligned ((bits_zero v 6 0 7 rfl).mp aligned)

theorem State.kick_accepts {s u : State} {v : BitVec 64} {h e q r : Nat} (rd : BitVec 5) (aligned : v.extractLsb' 0 7 = 0)
    (accepts : s.accept none e q v = .ok (u, r)) : s.kick h e q v rd = u.gone h rd (BitVec.ofNat 64 r) := by
  unfold State.kick
  rw [if_neg (not_not_intro ((bits_zero v 6 0 7 rfl).mpr aligned)), accepts]
  rfl

/-! The steps of a general core that runs. -/

section
variable {s : State} {h p : Nat} (part : s.partOf h = some p) (running : (s.hart h).inReset = false)
  (ready : (s.hart h).wait = .nothing)
include part running ready

theorem exec_riscvLoadStore_fence {va : BitVec 64} {a : HartAccess} (fence : isFence a = true) :
    exec (.riscvLoadStore h va a) s = .next (s.gone h 0 0) := by
  show execRiscvLoadStore h va a s = _
  unfold execRiscvLoadStore
  dsimp only
  rw [part]
  dsimp only
  rw [if_neg (by simp [running, ready]), if_pos fence]
  rfl

theorem exec_riscvLoadStore_sized {a : HartAccess} (va : BitVec 64) (sized : accSized a = true) :
    exec (.riscvLoadStore h va a) s = .next (s.hartAccess h p va a) := by
  have noFence : isFence a = false := by
    cases a with
    | fence | fenceTso => cases sized
    | _ => rfl
  show execRiscvLoadStore h va a s = _
  unfold execRiscvLoadStore
  dsimp only
  rw [part]
  dsimp only
  rw [if_neg (by simp [running, ready]), if_neg (by simp [noFence]), if_pos sized]

omit part in
theorem exec_kick {n : Inside} {q : Nat} (v : BitVec 64) (rd : Option (BitVec 5)) (inside : (s.hart h).inside = some n)
    (isQueue : q < 16) :
    exec (.kick h q v rd) s = .next (s.kick h n.enclave q v (rd.getD 0)) := by
  show execKick h q v rd s = _
  unfold execKick
  dsimp only
  rw [inside]
  dsimp only
  rw [if_neg (by simp [running, ready, isQueue])]

end

/-- Settles O42: a general core that runs either goes on at once or makes its access, and where the address lies decides which. -/
theorem generalCoreAccesses : Obligations.GeneralCoreAccesses := by
  unfold Obligations.GeneralCoreAccesses
  intro s h p
  dsimp only
  intro part running ready
  have accesses := fun {a} va sized => exec_riscvLoadStore_sized (a := a) part running ready va sized
  refine ⟨fun va pr pw sr sw => ?_, fun va a sized outside => ⟨fun memory => ?_, fun off place inPage aligned => ?_⟩,
    fun n inside => ⟨fun va a sized mapped => ⟨fun ps located => ?_, fun st f stopped fault => ?_⟩, fun q v rd isQueue => ?_,
      fun q signed rd isQueue => ?_⟩⟩
  case refine_1 =>
    exact ⟨exec_riscvLoadStore_fence part running ready rfl, exec_riscvLoadStore_fence part running ready rfl⟩
  case refine_2 =>
    rw [accesses va sized, State.hartAccess_memory a outside memory]
    refine ⟨fun allowed => ⟨_, rfl, ?_⟩, fun forbidden => ?_⟩
    · rw [State.osStep_performed allowed]
      exact perform_does ..
    · rw [State.osStep_forbidden forbidden, BitVec.ofNat_toNat, BitVec.setWidth_eq]
  case refine_3 =>
    rw [accesses va sized, State.hartAccess_page a outside place inPage]
    refine ⟨fun signed rd isLoad => ?_, fun rs isStore => ?_⟩
    · rw [isLoad, State.pageAccess_load h p signed rd aligned]
    · rw [isStore, State.pageAccess_store h p rs aligned]
  case refine_4 =>
    rw [accesses va sized, State.hartAccess_inside va a inside]
    refine ⟨fun qs here => ⟨_, rfl, ?_⟩, fun away unanswered up free takes => ?_⟩
    · rw [State.threadStep_memory mapped located here]
      exact perform_does ..
    · rw [State.threadStep_window mapped located away, State.farPerform_sends va a unanswered up free takes]
  case refine_5 =>
    rw [accesses va sized, State.hartAccess_inside va a inside, State.threadStep_faults mapped stopped fault]
  case refine_6 =>
    refine ⟨fun misaligned => ?_, fun u r aligned accepts => ⟨?_, ?_⟩⟩
    · rw [exec_kick running ready v (some rd) inside isQueue, State.kick_misaligned _ _ _ _ misaligned]
      rfl
    · rw [exec_kick running ready v (some rd) inside isQueue, State.kick_accepts _ aligned accepts]
      rfl
    · rw [exec_kick running ready v none inside isQueue, State.kick_accepts _ aligned accepts]
      rfl
  case refine_7 =>
    rw [accesses _ rfl, State.hartAccess_inside _ _ inside, State.threadStep_qstat h n signed rd isQueue]

end Sys2Proof.Machine
end

section
/-! PROOF. The events of memory
  (R41, R46, R53 to R56, R60, R82, R85, R87, R88): searches, patrol reads, scrubbing, waits for frames,
drained frames, walks and the posting of fault records. -/

namespace Sys2Proof.Machine

/-! Searches and patrol reads (R82, R87). -/

theorem exec_correctionSearchDone {s : State} {line : Nat} (searched : line ∈ s.searches) :
    exec (.correctionSearchDone line) s =
      .next (({ s with searches := s.searches.filter (· != line) } : State).settleSearch line) :=
  congrArg _ (if_pos (List.contains_iff_mem.mpr searched))

theorem State.settleSearch_clean {s : State} {line : Nat} (clean : mget s.hbm line = none) : s.settleSearch line = s := by
  unfold State.settleSearch
  rw [clean]

theorem State.settleSearch_corrects {s : State} {line i : Nat} {b : Sealed} (held : mget s.hbm line = some b)
    (one : s.searchHits line (b.bits line) = [i]) :
    s.settleSearch line = ({ s with
      mem := writeBytes s.mem (line * 64)
        (s.openBits line (flipBit (b.bits line) i)), hbm := mdel s.hbm line } : State).countSearch
        line true := by
  unfold State.settleSearch
  rw [held]
  dsimp only
  rw [one]

theorem State.settleSearch_poisons {s : State} {line : Nat} {b : Sealed} (held : mget s.hbm line = some b)
    (others : ∀ i, s.searchHits line (b.bits line) ≠ [i]) : s.settleSearch line = (s.poisonLine line).countSearch line false := by
  unfold State.settleSearch
  rw [held]
  dsimp only
  split
  · next i one => exact absurd one (others i)
  · rfl

/-- A line that is poisoned reads as poisoned. -/
theorem State.linePoisoned_poisonLine (s : State) (line : Nat) : (s.poisonLine line).linePoisoned line = true := by
  have bit : line % 64 < 64 := Nat.mod_lt _ (by decide)
  show ((mget (mset s.lineMask (line / 64) _) (line / 64)).getD 0).getLsbD (line % 64) = true
  rw [mget_mset_self]
  simp [bit]

theorem State.meetLine_damaged {s : State} {line : Nat} (damaged : s.lineState line = .damaged) :
    s.meetLine line = { s with searches := s.searches ++ [line] } := by
  unfold State.meetLine
  rw [damaged]

theorem State.meetLine_fine {s : State} {line : Nat} (fine : s.lineState line = .fine) : s.meetLine line = s := by
  unfold State.meetLine
  rw [fine]

/-- A copy of a line stands in the L2 or at a general core. -/
def State.copied (s : State) (line : Nat) : Prop := (∃ l ∈ s.l2, l.line = line) ∨ ∃ c ∈ s.coreLines, c.line = line

theorem State.not_copied_iff {s : State} {line : Nat} : ¬ s.copied line ↔
    (s.l2.any fun l => l.line == line) = false ∧ (s.coreLines.any fun c => c.line == line) = false := by
  simp [State.copied]

theorem exec_patrolRead_reads {s : State} {line : Nat}
    (page : (s.potOf (line / 64)).state = .owned ∨ (s.potOf (line / 64)).state = .sharedRo)
    (alone : ¬ s.copied line) : exec (.patrolRead line) s = .next ((s.readHbm line).meetLine line) :=
  congrArg _ (if_pos ⟨page, State.not_copied_iff.mp alone⟩)

theorem exec_patrolRead_passes {s : State} {line : Nat}
    (passes : s.copied line ∨ ((s.potOf (line / 64)).state ≠ .owned ∧ (s.potOf (line / 64)).state ≠ .sharedRo)) :
    exec (.patrolRead line) s = .next s := by
  refine congrArg _ (if_neg fun ⟨page, alone⟩ => ?_)
  rcases passes with copied | ⟨notOwned, notShared⟩
  · exact State.not_copied_iff.mpr alone copied
  · exact page.elim notOwned notShared

/-! Scrubbing and waits for frames (R53 to R55, R60, R88). -/

theorem exec_scrubFrame_carveBad {s : State} {p : Nat} {head : Nat × List (Nat × Nat)}
    (queue : scrubHead (s.part p).scrub = some head)
    (root : s.mgmt.rootIntegrity = false) (bad : s.carveBad = true) : exec (.scrubFrame p) s = .next s.rootStop := by
  show execScrubFrame p s = _
  unfold execScrubFrame
  rw [queue]
  dsimp only
  rw [if_neg (by simp [root]), if_pos bad]

theorem State.waitCause_mem (s : State) (p h : Nat) : s.waitCause p h ∈ [(1 : BitVec 64), 5, 9] := by
  unfold State.waitCause
  split
  · decide
  · have : Config.freeNat (.choice 4004) s.free % 3 < 3 := Nat.mod_lt _ (by decide)
    generalize Config.freeNat (.choice 4004) s.free % 3 = k at this
    match k, this with
    | 0, _ | 1, _ | 2, _ => decide

theorem State.waitCause_external {s : State} {p h : Nat} (pending : h ∈ (s.part p).extIrq) : s.waitCause p h = 9 :=
  if_pos (List.contains_iff_mem.mpr pending)

section
variable {s : State} {h p : Nat} (part : s.partOf h = some p) (waits : (s.hart h).wait = .pool)
include part waits

theorem exec_cleanPoolWaitDone_interrupted :
    exec (.cleanPoolWaitDone h true) s = .next (s.hartInterrupt h (s.waitCause p h)) := by
  show execCleanPoolWaitDone h true s = _
  unfold execCleanPoolWaitDone
  dsimp only
  rw [part]
  dsimp only
  rw [if_neg (not_not_intro waits), if_pos rfl]

theorem exec_cleanPoolWaitDone_stays
    (stays : ((s.part p).pool.isEmpty && scrubLen (s.part p).scrub != 0) = true ∨
      (!(s.part p).pool.isEmpty && !s.drawsNext (s.part p) h) = true) :
    exec (.cleanPoolWaitDone h false) s = .next s := by
  show execCleanPoolWaitDone h false s = _
  unfold execCleanPoolWaitDone
  dsimp only
  rw [part]
  dsimp only
  rw [if_neg (not_not_intro waits), if_neg (by decide)]
  rcases stays with empty | later
  · rw [if_pos empty]
  · rw [if_pos later, ite_self]

theorem exec_cleanPoolWaitDone_goes
    (goes : ((s.part p).pool.isEmpty && scrubLen (s.part p).scrub != 0) = false ∧
      (!(s.part p).pool.isEmpty && !s.drawsNext (s.part p) h) = false) :
    exec (.cleanPoolWaitDone h false) s = .next (s.setHart h { s.hart h with wait := .nothing }) := by
  show execCleanPoolWaitDone h false s = _
  unfold execCleanPoolWaitDone
  dsimp only
  rw [part]
  dsimp only
  rw [if_neg (not_not_intro waits), if_neg (by decide), if_neg (by simp [goes.1]), if_neg (by simp [goes.2])]

end

/-! Drained frames (R56). -/

/-- Dropping an enclave's old page key changes the enclave alone. -/
theorem State.dropOldKey_encls (s : State) (e : Nat) : ({ s.dropOldKey e with encls := s.encls } : State) = s := by
  unfold State.dropOldKey
  split <;> rfl

theorem State.toScrub_rest (s : State) (frame : Nat) :
    let e := s.potOf frame
    (s.toScrub frame).moves = s.moves ∧ ((s.toScrub frame).potOf frame).state = .scrubbing ∧
      ((s.toScrub frame).part e.part.toNat).scrub = (s.part e.part.toNat).scrub ++ [(frame, 1)] ∧
        (s.toScrub frame).mem = s.mem := by
  intro e
  have keyed := State.dropOldKey_encls
    ((((s.dropFrame frame).dropLines frame).setPot frame { e with state := .scrubbing }).setPart
    e.part.toNat { s.part e.part.toNat with scrub := (s.part e.part.toNat).scrub ++ [(frame, 1)] }) e.owner.toNat
  have same : ∀ {α : Type} (f : State → α), f { s.toScrub frame with encls := s.encls } =
      f ((((s.dropFrame frame).dropLines frame).setPot frame { e with state := .scrubbing }).setPart
        e.part.toNat { s.part e.part.toNat with scrub :=
          (s.part e.part.toNat).scrub ++ [(frame, 1)] }) := fun f => congrArg f keyed
  refine ⟨same State.moves, (same fun u => (u.potOf frame).state).trans ?_,
    (same fun u => (u.part e.part.toNat).scrub).trans ?_, same State.mem⟩
  · exact congrArg PotEntry.state (potOf_setPot _ _ _)
  · rw [State.part_setPart]

theorem exec_frameDrainDone_free {s : State} {frame : Nat} (drains : mget s.moves frame = some .free) :
    exec (.frameDrainDone frame) s = .next (({ s with moves := mdel s.moves frame } : State).toScrub frame) := by
  show execFrameDrainDone frame s = _
  unfold execFrameDrainDone
  rw [drains]

section
variable {s : State} {frame slot buf v h : Nat} {rd : BitVec 5} (drains : mget s.moves frame = some (.out slot buf v h rd))
include drains

theorem exec_frameDrainDone_searched (searched : s.searched (frame * 4096) 4096 = true ∨ s.searched buf imageLen = true) :
    exec (.frameDrainDone frame) s = .next s := by
  show execFrameDrainDone frame s = _
  unfold execFrameDrainDone
  rw [drains]
  exact congrArg _ (if_pos (by simpa using searched))

theorem exec_frameDrainDone_seals (frameFree : s.searched (frame * 4096) 4096 = false)
    (bufferFree : s.searched buf imageLen = false) :
    exec (.frameDrainDone frame) s = .next (s.sealOut frame slot buf v h rd) := by
  show execFrameDrainDone frame s = _
  unfold execFrameDrainDone
  rw [drains]
  exact congrArg _ (if_neg (by simp [frameFree, bufferFree]))

end

/-! Walks (R41). -/

section
variable {s : State} {hall e : Nat} {va : BitVec 64} (isCanonical : canonical va = true) (measured : (s.encl e).state = .measured)
  (lends : hall ∈ (s.part (s.encl e).part).halls)
include isCanonical measured lends

theorem exec_hallTlbWalk_starts (fresh : (hall, e, low48 va / 4096) ∉ s.walks) :
    exec (.hallTlbWalk hall e va) s = .next (if (s.walks.filter fun w => w.1 == hall).length < 16 then
      { s with walks := s.walks ++ [(hall, e, low48 va / 4096)] } else s) := by
  show execHallTlbWalk hall e va s = _
  unfold execHallTlbWalk
  dsimp only
  rw [if_neg (by simp [isCanonical, measured, lends]), if_neg (by simpa using fresh)]

theorem exec_hallTlbWalk_ends (walks : (hall, e, low48 va / 4096) ∈ s.walks) :
    exec (.hallTlbWalk hall e va) s = .next (s.endWalk hall e va) := by
  show execHallTlbWalk hall e va s = _
  unfold execHallTlbWalk
  dsimp only
  rw [if_neg (by simp [isCanonical, measured, lends]), if_pos (by simpa using walks)]

end

theorem State.endWalk_fills {s : State} {hall e pa : Nat} {va : BitVec 64} {l : Leaf}
    (leaf : s.walkFrom (s.encl e).part (low48 va) 4 ((s.encl e).root.toNat * 4096) 1 = .leaf l)
    (allowed : s.checkLeaf e va .load 1 l = .ok pa l) :
    s.endWalk hall e va =
      ({ s with walks := s.walks.filter (· != (hall, e, low48 va / 4096)) } : State).fillTlbs hall e (low48 va / 4096) l := by
  unfold State.endWalk
  dsimp only
  rw [leaf]
  dsimp only
  rw [allowed]

/-! Fault records (R46). -/

/-- The fault queue takes a record: EN is 1, ERR is 0, and the ring has an entry that the operating system has read. -/
def Part.takesRecord (x : Part) : Prop :=
  x.fqBase.getLsbD 63 = true ∧ x.fqBase.getLsbD 62 = false ∧
    (x.fqTail - x.fqHead).toNat < 2 ^ (min (x.fqBase.extractLsb' 0 4).toNat 10 + 6)

/-- The address of the ring's entry at TAIL. -/
def Part.tailAddr (x : Part) : Nat :=
  (x.fqBase.extractLsb' 12 40).toNat * 4096 + x.fqTail.toNat % 2 ^ (min (x.fqBase.extractLsb' 0 4).toNat 10 + 6) * 32

theorem Part.ringSize_eq (x : Part) : x.ringSize = 2 ^ (min (x.fqBase.extractLsb' 0 4).toNat 10 + 6) := by
  unfold Part.ringSize
  rw [bits_toNat x.fqBase 3 0 4 rfl]

section
variable {s : State} {p k : Nat} {r : FaultRec} (oldest : ((s.part p).recs.find? fun r => r.2.seq.isNone) = some (k, r))
include oldest

theorem exec_faultRecordPost_closed (closed : ¬ (s.part p).takesRecord) : exec (.faultRecordPost p) s = .next s := by
  show execFaultRecordPost p s = _
  unfold execFaultRecordPost
  dsimp only
  rw [oldest]
  refine congrArg _ (if_pos ?_)
  rw [Part.ringSize_eq]
  by_contra isOpen
  simp only [not_or, Bool.not_eq_false, Bool.not_eq_true, not_le] at isOpen
  exact closed isOpen

/-- What the post of a record does once the queue takes it: it is an error, waits for lines, or writes the record. -/
theorem exec_faultRecordPost_open (isOpen : (s.part p).takesRecord) :
    let x := s.part p
    let pa := x.tailAddr
    let hart := (x.fqBase.extractLsb' 56 6).toNat
    exec (.faultRecordPost p) s = .next (
      if s.osFrame p (pa / 4096) = false ∨ s.masked pa 32 then s.setPart p { x with fqBase := x.fqBase ||| 0x4000000000000000#64 }
      else if s.linesState true pa 32 ≠ .fine then s.startSearch pa 32
      else
        let v := s.poke pa (r.bytes x.faultSeq)
        { v.setPart p { x with
            recs := if r.keeps then mset x.recs k { r with seq := some x.faultSeq } else mdel x.recs k
            fqTail := x.fqTail + 1, faultSeq := x.faultSeq + 1
            extIrq := if x.cores.contains hart && !x.extIrq.contains hart then x.extIrq ++ [hart] else x.extIrq } with
          tlb := s.tlb.filter fun t => !(t.enclave == r.enclave && overlaps t.pages (r.va.toNat / 4096, 1)) }) := by
  obtain ⟨enabled, noError, room⟩ := isOpen
  intro x pa hart
  show execFaultRecordPost p s = _
  unfold execFaultRecordPost
  dsimp only
  rw [oldest]
  dsimp only
  rw [Part.ringSize_eq, bits_toNat _ 51 12 40 rfl, bits_toNat _ 61 56 6 rfl]
  refine congrArg _ (if_neg ?_)
  simp only [enabled, noError, room, not_or, Bool.true_eq_false, Bool.false_eq_true, not_le, not_false_eq_true, and_self]

end

/-- Settles O44: each event is decided by what it finds, case by case. -/
theorem framesAndFaults : Obligations.FramesAndFaults := by
  unfold Obligations.FramesAndFaults
  refine ⟨fun s line searched => ?search, fun s line => ?patrol, fun s p frame rest queue root => ?scrub,
    fun s h p part waits => ?pool, fun s frame drains => ?free, fun s frame slot buf v h rd drains => ?out, fun s hall e va l => ?walk,
    fun s g p => ?moving, fun s p k r => ?record⟩
  case search =>
    intro u
    have settles := exec_correctionSearchDone searched
    refine ⟨fun clean => settles.trans (congrArg _ (State.settleSearch_clean clean)), fun b held => ?_⟩
    intro hits
    have sameHits : u.searchHits line (b.bits line) = hits := rfl
    refine ⟨fun i one => settles.trans (congrArg _ (State.settleSearch_corrects held (sameHits.trans one))), fun others =>
      ⟨?_, ?_, ?_⟩⟩
    · exact settles.trans (congrArg _ (State.settleSearch_poisons held fun i => sameHits ▸ others i))
    · exact State.linePoisoned_poisonLine u line
    · rw [poison_potOf]
  case patrol =>
    refine ⟨fun page alone => ?_, exec_patrolRead_passes⟩
    rw [exec_patrolRead_reads page alone]
    exact ⟨fun damaged => congrArg _ (State.meetLine_damaged damaged), fun fine => congrArg _ (State.meetLine_fine fine)⟩
  case scrub => exact ⟨exec_scrubFrame_carveBad queue root, scrub_head queue root⟩
  case pool =>
    refine ⟨⟨exec_cleanPoolWaitDone_interrupted part waits, State.waitCause_mem s p h, State.waitCause_external⟩,
      fun frames => ⟨fun next => ?_, fun later => ?_⟩, fun empty => ⟨fun nothing => ?_, fun scrubbed => ?_⟩⟩
    · exact exec_cleanPoolWaitDone_goes part waits (by simp [frames, next])
    · exact exec_cleanPoolWaitDone_stays part waits (by simp [frames, later])
    · exact exec_cleanPoolWaitDone_goes part waits (by simp [empty, nothing])
    · exact exec_cleanPoolWaitDone_stays part waits (by simp [empty, scrubbed])
  case free =>
    obtain ⟨moves, state, scrub, mem⟩ := State.toScrub_rest { s with moves := mdel s.moves frame } frame
    exact ⟨_, exec_frameDrainDone_free drains, by rw [moves, mget_mdel_self], state, scrub, mem⟩
  case out =>
    refine ⟨exec_frameDrainDone_searched drains, fun frameFree bufferFree => ?_⟩
    rw [exec_frameDrainDone_seals drains frameFree bufferFree]
    exact pageOut_sealed s frame slot buf v h rd
  case walk =>
    intro x walk isCanonical measured lends
    refine ⟨fun fresh => ?_, fun walks leaf pa allowed => ?_⟩
    · rw [exec_hallTlbWalk_starts isCanonical measured lends fresh]
      exact ⟨fun room => by rw [if_pos room], fun full => by rw [if_neg (by omega)]⟩
    · refine ⟨_, (exec_hallTlbWalk_ends isCanonical measured lends walks).trans
        (congrArg _ (State.endWalk_fills leaf allowed)), ?_, fun t ht => ?_, fun t ht => ?_⟩
      · simp
      · simp [ht]
      · rcases List.mem_append.mp ht with filled | old
        · obtain ⟨unit, -, rfl⟩ := List.mem_map.mp filled
          exact .inr ⟨unit, rfl⟩
        · exact .inl old
  case moving => exact ⟨s.moving.filter (· != (g, p)), rfl, fun q => by simp [List.mem_filter]⟩
  case record =>
    intro x oldest size pa open_
    refine ⟨exec_faultRecordPost_closed oldest, fun isOpen bad => ?_, fun isOpen frame clear fine => ?_⟩
    · refine (exec_faultRecordPost_open oldest isOpen).trans (congrArg _ (if_pos bad))
    · refine ⟨_, (exec_faultRecordPost_open oldest isOpen).trans (congrArg _ ((if_neg ?_).trans (if_neg (not_not_intro fine)))),
        fault_posted s _ p k _ r⟩
      simp only [not_or, Bool.not_eq_false, Bool.not_eq_true]
      exact ⟨frame, clear⟩

end Sys2Proof.Machine
end

section
/-! PROOF. The paging and fault instructions
  (R49, R50, R53 to R60, R388, R432): the check that an instruction fails, in their order,
or what it does. -/

namespace Sys2Proof.Machine

/-! What the instructions do once their checks pass. -/

/-- A general core that waits for a drain: nothing but it and the moves has changed in what a step of it leaves. -/
theorem State.drains (u : State) (h : Nat) (m : List (Nat × Move)) (x : Hart) :
    let t := (({ u with moves := m } : State).setHart h x).served h
    t.pot = u.pot ∧ t.encls = u.encls ∧ t.moves = m ∧ t.mem = u.mem ∧ t.hart h = x :=
  ⟨rfl, rfl, rfl, rfl, hart_setHart _ h x⟩

/-- PAGE.OUT has put a frame in MOVING under the enclave's next version, and waits for the drain (R56). -/
theorem pageOut_moves {s : State} {frame slot buf : Nat} {fe : PotEntry} {e : Enclave} (rd : BitVec 5)
    (room : e.h.toNat ≠ 0xFFFFFFFF) :
    let h := s.curHart
    let u := ((s.setPot frame { fe with state := .moving }).dropFrame frame).setEncl fe.owner.toNat
      { e with h := BitVec.ofNat 32 (e.h.toNat + 1) }
    let moves := mset s.moves frame (.out slot buf (e.h.toNat + 1) h rd)
    let t := (State.setHart { u with moves := moves } h { s.hart h with wait := .drain }).served h
    (t.potOf frame).state = .moving ∧ (t.encl fe.owner.toNat).h.toNat = e.h.toNat + 1 ∧ (t.hart h).wait = .drain ∧
      (t.hart h).pc = (s.hart h).pc ∧ mget t.moves frame = some (.out slot buf (e.h.toNat + 1) h rd) ∧ t.mem = s.mem := by
  intro h u moves t
  obtain ⟨pot, encls, movesT, mem, hart⟩ := u.drains h moves { s.hart h with wait := .drain }
  have potU : u.pot = mset s.pot frame { fe with state := .moving } := rfl
  have enclsU : u.encls = mset s.encls fe.owner.toNat { e with h := BitVec.ofNat 32 (e.h.toNat + 1) } := rfl
  have memU : u.mem = s.mem := rfl
  have version : (BitVec.ofNat 32 (e.h.toNat + 1)).toNat = e.h.toNat + 1 := by
    have := e.h.isLt
    exact Nat.mod_eq_of_lt (by omega)
  refine ⟨?_, ?_, ?_, ?_, ?_, mem.trans memU⟩
  · unfold State.potOf
    rw [pot, potU, mget_mset_self]
  · unfold State.encl
    rw [encls, enclsU, mget_mset_self]
    exact version
  · rw [hart]
  · rw [hart]
  · rw [movesT, mget_mset_self]

/-- A freed frame is in MOVING until it has drained (R53). -/
theorem State.freeFrame_moves (s : State) (frame : Nat) :
    ((s.freeFrame frame).potOf frame).state = .moving ∧ mget (s.freeFrame frame).moves frame = some .free ∧
      (s.freeFrame frame).mem = s.mem :=
  ⟨congrArg PotEntry.state (potOf_setPot s frame _), mget_mset_self _ _ _, rfl⟩

theorem State.readBuffer_reads {s s0 : State} {buf n h : Nat} {rd : BitVec 5} {k : State → State}
    (free : s.searched buf n = false)
    (whole : (s.settle false buf n).masked buf n = false) : s.readBuffer s0 buf n h rd k = k (s.settle false buf n) := by
  unfold State.readBuffer
  rw [if_neg (by simp [free])]
  exact if_neg (by simp [whole])

theorem State.readBuffer_masked {s s0 : State} {buf n h : Nat} {rd : BitVec 5} {k : State → State}
    (free : s.searched buf n = false)
    (masked : (s.settle false buf n).masked buf n = true) :
    s.readBuffer s0 buf n h rd k = (s.settle false buf n).answer h rd enBadBuffer 0 := by
  unfold State.readBuffer
  rw [if_neg (by simp [free])]
  exact if_pos masked

/-- The low half of a register whose high half is 0 is the whole of it. -/
theorem toNat_extract_low {a : BitVec 64} (high : a.extractLsb' 16 48 = 0) : (a.extractLsb' 0 16).toNat = a.toNat := by
  have high := congrArg BitVec.toNat high
  rw [BitVec.extractLsb'_toNat, Nat.shiftRight_eq_div_pow] at high ⊢
  have zero : (0 : BitVec 48).toNat = 0 := rfl
  rw [zero] at high
  have := a.isLt
  omega

theorem bits_not_zero {v : BitVec 64} {hi lo n : Nat} (width : hi + 1 - lo = n) (set : v.extractLsb' lo n ≠ 0) :
    bitsOf v.toNat hi lo ≠ 0 :=
  mt (bits_zero v hi lo n width).mp set

theorem bits_are_zero {v : BitVec 64} {hi lo n : Nat} (width : hi + 1 - lo = n) (clear : v.extractLsb' lo n = 0) :
    ¬ bitsOf v.toNat hi lo ≠ 0 :=
  not_not_intro ((bits_zero v hi lo n width).mpr clear)

/-- Settles O50: an instruction's checks in the order of its body, and what it does behind them. -/
theorem pagingAndFaultInstructions : Obligations.PagingAndFaultInstructions := by
  unfold Obligations.PagingAndFaultInstructions
  intro s p rd rs1 rs2 free
  dsimp only
  intro outside system
  have runs := asOs_free free outside system
  generalize ha : (s.hart s.curHart).reg rs1 = a
  generalize hb : (s.hart s.curHart).reg rs2 = b
  refine ⟨?out, ?clean, ?image, ?share, ?free, ?resolve, ?kill⟩
  case out =>
    have run : exec (.pageOut rd rs1 rs2) s = _ := show execPageOut rd rs1 rs2 s = _ from runs _
    dsimp only at run
    rw [ha, hb, bits_toNat a 27 0 28 rfl, bits_toNat a 55 28 28 rfl, bits_toNat b 51 0 52 rfl, show maxH = 0xFFFFFFFF from rfl] at run
    refine ⟨fun operands => ?_, fun upper mine slotMine => ?_⟩
    · rw [run, if_pos (operands.imp_left (bits_not_zero rfl)), answer_eq]
      rfl
    rw [if_neg (not_or.mpr ⟨bits_are_zero rfl upper, not_or.mpr ⟨not_not_intro mine, not_not_intro slotMine⟩⟩)] at run
    refine ⟨fun notOwned => ?_, fun owned someone => ?_⟩
    · rw [run, if_pos notOwned, answer_eq]
      rfl
    rw [if_neg (not_or.mpr ⟨not_not_intro owned, someone⟩)] at run
    refine ⟨fun notMeasured => ?_, fun measured busy => ?_, fun measured slotFree bad => ?_, fun measured slotFree good => ?_⟩
    · rw [run, if_pos notMeasured, answer_eq]
      rfl
    · rw [run, if_neg (not_not_intro measured), if_pos busy, answer_eq]
      rfl
    · rw [run, if_neg (not_not_intro measured), if_neg (not_not_intro slotFree), if_pos bad, answer_eq]
      rfl
    rw [if_neg (not_not_intro measured), if_neg (not_not_intro slotFree), if_neg (not_true_true good)] at run
    refine ⟨fun poisoned => ?_, fun clean full => ?_, fun clean room => ?_⟩
    · rw [run, if_pos poisoned, answer_eq]
      rfl
    · rw [run, if_neg (not_true_eq clean), if_pos full, answer_eq]
      rfl
    · rw [run, if_neg (not_true_eq clean), if_neg room]
      exact ⟨_, rfl, pageOut_moves rd room⟩
  case clean =>
    have run : exec (.pageInClean rd rs1 rs2) s = _ := show execPageInClean rd rs1 rs2 s = _ from runs _
    dsimp only at run
    rw [ha, hb, bits_toNat b 35 0 36 rfl, show maxH = 0xFFFFFFFF from rfl] at run
    refine ⟨fun operands => ?_, fun zero f rest pool => ?_, fun zero empty => ?_, fun upper something => ?_⟩
    · rw [run, if_pos (bits_not_zero rfl operands), answer_eq]
      rfl
    · rw [if_neg (bits_are_zero rfl (extract_zero zero)), if_pos (toNat_zero_eq zero)] at run
      refine ⟨fun next => ?_, fun later => ?_⟩
      · rw [run, draw_cons _ _ _ _ pool next, answer_eq]
        rfl
      · rw [run, draw_later _ _ _ _ pool later]
    · rw [if_neg (bits_are_zero rfl (extract_zero zero)), if_pos (toNat_zero_eq zero), draw_nil _ _ _ _ empty] at run
      refine ⟨fun nothing => ?_, fun scrubbed => ?_⟩
      · rw [run, if_pos nothing, answer_eq]
        rfl
      · rw [run, if_neg scrubbed]
    rw [if_neg (bits_are_zero rfl upper), if_neg (mt zero64_eq something), ← toNat_extract_low upper] at run
    refine ⟨fun unknown => ?_, fun e known => ?_⟩
    · rw [run, unknown]
      exact congrArg _ (answer_eq ..)
    rw [known] at run
    dsimp only at run
    refine ⟨fun notMeasured => ?_, fun measured held => ?_, fun measured unused full => ?_,
      fun measured unused room f rest pool next => ?_⟩
    · rw [run, if_pos notMeasured, answer_eq]
      rfl
    · rw [run, if_neg (not_not_intro measured), if_pos held, answer_eq]
      rfl
    · rw [run, if_neg (not_not_intro measured), if_neg (not_true_eq unused), if_pos full, answer_eq]
      rfl
    · rw [run, if_neg (not_not_intro measured), if_neg (not_true_eq unused), if_neg room, draw_cons _ _ _ _ pool next, answer_eq]
      rfl
  case image =>
    have run : exec (.pageInImage rd rs1 rs2) s = _ := show execPageInImage rd rs1 rs2 s = _ from runs _
    dsimp only at run
    rw [ha, hb, bits_toNat a 27 0 28 rfl, bits_toNat b 51 0 52 rfl, show enOK = 0 from rfl] at run
    refine ⟨fun operands => ?_, fun upper mine => ?_⟩
    · rw [run, if_pos (operands.imp_left (bits_not_zero rfl)), answer_eq]
      rfl
    rw [if_neg (not_or.mpr ⟨bits_are_zero rfl upper, not_not_intro mine⟩)] at run
    refine ⟨fun notPaged good => ?_, fun either bad => ?_, fun paged notMeasured => ?_, fun paged measured good quiet => ?_⟩
    · rw [run, if_neg fun h => notPaged h.1, if_neg (not_true_true good), if_pos notPaged, answer_eq]
      rfl
    · rw [run, if_neg fun h => either.elim (· h.1) h.2, if_pos bad, answer_eq]
      rfl
    · rw [run, if_pos ⟨paged, notMeasured⟩, answer_eq]
      rfl
    intro head
    rw [if_neg fun h => h.2 measured, if_neg (not_true_true good), if_neg
      (not_not_intro paged), State.readBuffer_reads quiet head] at run
    refine ⟨fun foreign => ?_, fun named quietImage => ?_⟩
    · rw [run, if_pos foreign, answer_eq]
      rfl
    rw [if_neg (not_true_true named)] at run
    refine ⟨fun masked => ?_, fun whole => ?_⟩
    · rw [run, State.readBuffer_masked quietImage masked, answer_eq]
      rfl
    rw [State.readBuffer_reads quietImage whole] at run
    refine ⟨fun refused => ?_, fun current f rest pool next => ?_⟩
    · rw [run, if_pos refused, answer_eq]
    · rw [run, if_neg (not_not_intro current), draw_cons _ _ _ _ pool next, answer_eq]
  case share =>
    have run : exec (.pageInShare rd rs1) s = _ := show execPageInShare rd rs1 s = _ from runs _
    dsimp only at run
    rw [ha, bits_toNat a 27 0 28 rfl] at run
    refine ⟨fun operands => ?_, fun upper mine => ?_⟩
    · rw [run, if_pos (operands.imp_left (bits_not_zero rfl)), answer_eq]
      rfl
    rw [if_neg (not_or.mpr ⟨bits_are_zero rfl upper, not_not_intro mine⟩)] at run
    refine ⟨fun notMine => ?_, fun owned => ?_⟩
    · rw [run, if_pos notMine, answer_eq]
      rfl
    · rw [run, if_neg (not_true_true owned), answer_eq]
      rfl
  case free =>
    have run : exec (.pageFree rd rs1) s = _ := show execPageFree rd rs1 s = _ from runs _
    dsimp only at run
    rw [ha, bits_toNat a 27 0 28 rfl] at run
    refine ⟨fun operands => ?_, fun upper mine => ?_⟩
    · rw [run, if_pos (operands.imp_left (bits_not_zero rfl)), answer_eq]
      rfl
    rw [if_neg (not_or.mpr ⟨bits_are_zero rfl upper, not_not_intro mine⟩)] at run
    refine ⟨fun paged => ?_, fun held someone ending => ?_, fun freeable => ?_, fun notPaged notOwned notShared notEnding => ?_⟩
    · rw [run, if_pos paged, answer_eq]
      rfl
    · have notPaged : ¬ (s.potOf (a.extractLsb' 0 28).toNat).state = .paged := by rcases held with h | h <;> rw [h] <;> decide
      rw [run, if_neg notPaged, if_pos ⟨held, someone, ending⟩, answer_eq]
      rfl
    · have notPaged : ¬ (s.potOf (a.extractLsb' 0 28).toNat).state = .paged := by
        rcases freeable with h | ⟨h, -⟩ <;> rw [h] <;> decide
      rw [run, if_neg notPaged, if_neg ?_, if_pos (freeable.elim .inr fun h => .inl h.1), answer_eq]
      · exact ⟨_, rfl, State.freeFrame_moves s _⟩
      · rintro ⟨held, someone, ending⟩
        rcases freeable with shared | ⟨-, nobody | ⟨notBuilding, notDying⟩⟩
        · rw [shared] at held
          exact held.elim nofun nofun
        · exact someone nobody
        · exact ending.elim notBuilding notDying
    · rw [run, if_neg notPaged, if_neg ?_, if_neg (not_or.mpr ⟨notOwned, notShared⟩), answer_eq]
      · rfl
      · rintro ⟨held, someone, ending⟩
        rcases notEnding with notMoving | nobody | ⟨notBuilding, notDying⟩
        · exact held.elim notOwned notMoving
        · exact someone nobody
        · exact ending.elim notBuilding notDying
  case resolve =>
    have run : exec (.faultResolve rd rs1) s = _ := show execFaultResolve rd rs1 s = _ from runs _
    rw [ha] at run
    refine ⟨fun unknown => ?_, fun r known => ?_⟩
    · rw [run, unknown]
      exact congrArg _ (answer_eq ..)
    rw [known] at run
    dsimp only at run
    refine ⟨fun noCpu => ?_, fun pending => ?_⟩
    · rw [run, if_pos noCpu, answer_eq]
      rfl
    · rw [run, if_neg (not_true_eq pending), answer_eq]
      rfl
  case kill =>
    have run : exec (.faultKill rd rs1 rs2) s = _ := show execFaultKill rd rs1 rs2 s = _ from runs _
    dsimp only at run
    rw [ha, hb] at run
    refine ⟨fun operands => ?_, fun something small => ?_⟩
    · rw [run, if_pos (operands.imp_left toNat_zero_eq), answer_eq]
      rfl
    rw [if_neg (not_or.mpr ⟨mt zero64_eq something, Nat.not_lt.mpr small⟩)] at run
    refine ⟨fun unknown => ?_, fun r known => ?_⟩
    · rw [run, unknown]
      exact congrArg _ (answer_eq ..)
    · rw [run, known]
      exact congrArg _ (answer_eq ..)

end Sys2Proof.Machine
end

section
/-! PROOF. The lifecycle and the threads of enclaves
  (R24 to R29, R31, R388, R390, R391, R392): the check that an instruction fails, in
their order, or what it does. -/

namespace Sys2Proof.Machine

/-! Key slots and identifiers (R24). -/

theorem freeSlotIn_keys_none {s : State} (used : ∀ k, 1 ≤ k → k ≤ 4095 → ∃ q ∈ s.encls, q.2.keySlot = k) :
    freeSlotIn (s.encls.map fun e => e.2.keySlot) = none :=
  freeSlot_none fun k low high => List.mem_map.mpr (used k low high)

theorem freeSlotIn_keys_lowest {s : State} {slot : Nat} (low : 1 ≤ slot) (high : slot ≤ 4095)
    (free : ∀ q ∈ s.encls, q.2.keySlot ≠ slot)
    (lowest : ∀ k, 1 ≤ k → k < slot → ∃ q ∈ s.encls, q.2.keySlot = k) :
    freeSlotIn (s.encls.map fun e => e.2.keySlot) = some slot := by
  refine freeSlot_some low high (fun used => ?_) fun k hk lt => List.mem_map.mpr (lowest k hk lt)
  obtain ⟨q, mem, eq⟩ := List.mem_map.mp used
  exact free q mem eq

/-- CREATE takes an identifier that no enclave has, from wherever it starts to look. -/
theorem nextEncl_encls_fresh {s : State} (room : s.encls.length < 65535) (choice : Nat) :
    let e := nextEncl (s.encls.map Prod.fst) (s.encls.map Prod.fst).length (choice % 65535 + 1)
    1 ≤ e ∧ e ≤ 65535 ∧ ∀ q ∈ s.encls, q.1 ≠ e := by
  have lt := Nat.mod_lt choice (show 65535 > 0 by decide)
  obtain ⟨low, high, fresh⟩ := nextEncl_fresh (s.encls.map Prod.fst) (by rwa [List.length_map]) (choice % 65535 + 1) (by omega)
    (by omega)
  exact ⟨low, high, fun q mem eq => fresh (List.mem_map.mpr ⟨q, mem, eq⟩)⟩

/-! Threads (R31, R390). -/

/-- A thread of an enclave is executed by a general core. -/
theorem insideThread_iff {s : State} {n t : Nat} :
    (s.harts.any fun q => q.2.inside.any fun i => i.enclave == n && i.thread == t) = true ↔
      ∃ q ∈ s.harts, ∃ k, q.2.inside = some k ∧ k.enclave = n ∧ k.thread = t := by
  simp [List.any_eq_true, Option.any_eq_true]

/-- A value without bits [63:48] is a result with status OK. -/
theorem resultWord_ok {a : BitVec 64} (clear : a.extractLsb' 48 16 = 0) : resultWord enOK a.toNat = a := by
  have clear := congrArg BitVec.toNat clear
  have zero : (0 : BitVec 16).toNat = 0 := rfl
  rw [BitVec.extractLsb'_toNat, Nat.shiftRight_eq_div_pow, zero] at clear
  have := a.isLt
  apply BitVec.eq_of_toNat_eq
  unfold resultWord enOK
  rw [BitVec.toNat_ofNat]
  omega

theorem State.leave_hart (s : State) (h : Nat) (n : Inside) (pc : BitVec 64) :
    (s.leave h n pc).hart h =
      { s.hart h with regs := n.outer, more := n.outerMore, pc := n.enter, mode := .hs, inside := none } :=
  hart_setHart ..

theorem State.leave_thread (s : State) (h : Nat) (n : Inside) (pc : BitVec 64) :
    mget ((s.leave h n pc).encl n.enclave).threads n.thread =
      some { (s.encl n.enclave).thread n.thread with started := true, regs := (s.hart h).regs, pc := pc, more :=
        (s.hart h).more } := by
  show mget (State.encl (State.setEncl _ _ _) n.enclave).threads n.thread = _
  rw [State.encl_setEncl]
  exact mget_mset_self ..

theorem State.hart_answer_served (u : State) (h : Nat) (rd : BitVec 5) (st v : Nat) :
    ((u.answer h rd st v).served h).hart h =
      { (u.hart h).setReg rd (resultWord st v) with pc := (u.hart h).pc + 4, answer := none } :=
  hart_setHart ..

/-- ENC.EXIT seals the thread behind itself, and the ENC.ENTER completes with the thread's value. -/
theorem exit_seals {s : State} {n : Inside} {a : BitVec 64} (h : Nat) (clear : a.extractLsb' 48 16 = 0) :
    let x := s.hart h
    let t := ((s.leave h n (x.pc + 4)).answer h n.rd enOK a.toNat).served h
    t.hart h = { ({ x with regs := n.outer } : Hart).setReg n.rd a with
      pc := n.enter + 4, mode := .hs, inside := none, more := n.outerMore, answer := none } ∧
    mget (t.encl n.enclave).threads n.thread =
      some { (s.encl n.enclave).thread n.thread with started := true, regs := x.regs, pc := x.pc + 4, more := x.more } := by
  refine ⟨?_, s.leave_thread h n _⟩
  dsimp only
  rw [State.hart_answer_served, resultWord_ok clear, State.leave_hart]
  unfold Hart.setReg
  split <;> rfl

/-! Reports (R391). -/

/-- The enclave after a report: under a fresh memory key, where the report rekeys. -/
def reported (rekey : Bool) (e : Enclave) (key : Nat) : Enclave :=
  if rekey then { e with gen := e.gen + 1, keyPrev := some e.keyMem, keyMem := key } else e

theorem State.threadAccess_located {s : State} {h e n : Nat} {va : BitVec 64} {k : AccessKind} {ps : List (Found × Nat)}
    (located : s.locate none e va k n = .ok ps) (f : List (Found × Nat) → State) : s.threadAccess h e va k n f = f ps := by
  unfold State.threadAccess
  rw [located]

theorem State.behindWindow_local {s : State} {ps : List (Found × Nat)} {qs : List (Nat × Nat × Nat)}
    (here : localPieces ps = some qs)
    (h e : Nat) (va : BitVec 64) (k : AccessKind) (f : State) : s.behindWindow h e va k ps f = f :=
  if_pos (by simp [here])

theorem State.placeRead_local {s : State} {ps : List (Found × Nat)} {qs : List (Nat × Nat × Nat)}
    (here : localPieces ps = some qs)
    (e n : Nat) : s.placeRead e n ps = (s, s.readPieces qs) := by
  unfold State.placeRead
  rw [here]

theorem State.placeWrite_local {s : State} {ps : List (Found × Nat)} {qs : List (Nat × Nat × Nat)}
    (here : localPieces ps = some qs)
    (e : Nat) (bs : List Byte) : s.placeWrite e ps bs = s.writePieces qs bs := by
  unfold State.placeWrite
  rw [here]

section
variable {s : State} {p : Nat} {n : Inside} {rd rs1 rs2 : BitVec 5} {rekey : Bool} {a b : BitVec 64} (free : s.HartFree p)
  (inside : (s.hart s.curHart).inside = some n) (ha : (s.hart s.curHart).reg rs1 = a) (hb : (s.hart s.curHart).reg rs2 = b)
include free inside ha hb

theorem report_badOperand (bad : a.extractLsb' 1 5 ≠ 0 ∨ b.toNat % 4096 ≠ 0) :
    report rekey rd rs1 rs2 s = .next (s.answered s.curHart rd enBadOperand 0) := by
  have run : report rekey rd rs1 rs2 s = _ := asThread_free free inside _
  dsimp only at run
  rw [run, ha, hb, if_pos (bad.imp_left (bits_not_zero rfl)), answer_eq]

section
variable (aligned : a.extractLsb' 1 5 = 0) (page : b.toNat % 4096 = 0) (measured : (s.encl n.enclave).state = .measured)
include aligned page measured

theorem report_rekeyBusy (rekeys : rekey = true) (old : s.oldFrames n.enclave = true) :
    report rekey rd rs1 rs2 s = .next (s.answered s.curHart rd enRekeyBusy 0) := by
  have run : report rekey rd rs1 rs2 s = _ := asThread_free free inside _
  dsimp only at run
  rw [run, ha, hb, if_neg (not_or.mpr ⟨bits_are_zero rfl aligned, not_not_intro page⟩), if_neg (not_not_intro measured),
    if_pos (by simp [rekeys, old]), answer_eq]

theorem report_writes {ps qs : List (Found × Nat)} {ps' qs' : List (Nat × Nat × Nat)}
    (may : rekey = false ∨ s.oldFrames n.enclave = false)
    (data : s.locate none n.enclave (a &&& ~~~0x3F#64) .load 64 = .ok ps) (out : s.locate none n.enclave b .store 4096 = .ok qs)
    (dataHere : localPieces ps = some ps') (outHere : localPieces qs = some qs') :
    let y := reported rekey (s.encl n.enclave) s.keys
    let u := State.setEncl { s with keys := if rekey then s.keys + 3 else s.keys } n.enclave y
    report rekey rd rs1 rs2 s = .next (((u.dropOldKey n.enclave).writePieces qs'
      (reportOf (a.getLsbD 0) n.enclave y (s.readPieces ps'))).answered s.curHart rd enOK y.gen.toNat) := by
  have free' : ¬ (rekey && s.oldFrames n.enclave) = true := by rcases may with h | h <;> simp [h]
  have run : report rekey rd rs1 rs2 s = _ := asThread_free free inside _
  dsimp only at run ⊢
  rw [run, ha, hb, if_neg (not_or.mpr ⟨bits_are_zero rfl aligned, not_not_intro page⟩), if_neg
    (not_not_intro measured), if_neg free',
    State.threadAccess_located data, State.threadAccess_located out, State.behindWindow_local dataHere,
    State.behindWindow_local outHere, State.placeRead_local dataHere, State.placeWrite_local outHere, answer_eq]
  cases rekey <;> rfl

end
end

/-! XCTL (R392). -/

section
variable {s : State} {p : Nat} {n : Inside} {rd rs1 rs2 : BitVec 5} {form : XctlForm} {a b : BitVec 64} (free : s.HartFree p)
  (inside : (s.hart s.curHart).inside = some n) (ha : (s.hart s.curHart).reg rs1 = a) (hb : (s.hart s.curHart).reg rs2 = b)
include free inside ha hb

/-- The XCTL forms of a general core: the checks, and the operation for every core of the partition's halls. -/
theorem encXctl_cases :
    let status := fun st => encXctl form rd rs1 rs2 s = .next (s.answered s.curHart rd st 0)
    let len := (b.extractLsb' 0 31).toNat
    (canonical a = false → status 0x15) ∧ (canonical a = true → len = 0 → status 0) ∧
      (canonical a = true → len ≠ 0 → ∀ u room,
        s.xctl n.enclave ((s.part p).halls.flatMap fun k => (List.range 8).map (8 * k + ·)) none (s.formsOf n.enclave)
          (low48 a, len) form =
          .ok (u, room) → encXctl form rd rs1 rs2 s = .next (u.answered s.curHart rd (if room then 0 else 0x16) 0)) := by
  have run : encXctl form rd rs1 rs2 s = _ := asThread_free free inside _
  dsimp only at run ⊢
  rw [ha, hb, bits_toNat b 30 0 31 rfl] at run
  refine ⟨fun bad => ?_, fun good empty => ?_, fun good some u room done => ?_⟩
  · rw [run, if_pos bad, answer_eq]
    rfl
  · rw [run, if_neg (not_true_true good), if_pos empty, answer_eq]
    rfl
  · rw [run, if_neg (not_true_true good), if_neg some, done]
    exact congrArg _ (answer_eq ..)

end

/-- Settles O49: an instruction's checks in the order of its body, and what it does behind them. -/
theorem enclaveInstructions : Obligations.EnclaveInstructions := by
  unfold Obligations.EnclaveInstructions
  intro s p rd rs1 rs2 free
  dsimp only
  generalize ha : (s.hart s.curHart).reg rs1 = a
  generalize hb : (s.hart s.curHart).reg rs2 = b
  refine ⟨fun outside system => ?_, fun n inside => ⟨?exit, ?report, ?xctl⟩⟩
  · have runs := asOs_free free outside system
    refine ⟨?create, ?addpage, ?measure, ?enter, ?destroy⟩
    case create =>
      have run : exec (.encCreate rd rs1 rs2) s = _ := show execEncCreate rd rs1 rs2 s = _ from runs _
      dsimp only at run
      rw [ha, hb] at run
      refine ⟨fun operand => ?_, fun upper => ?_⟩
      · rw [run, if_pos (bits_not_zero rfl operand), answer_eq]
        rfl
      rw [if_neg (bits_are_zero rfl upper)] at run
      refine ⟨fun used => ?_, fun slot low high unused lowest => ?_⟩
      · rw [run, freeSlotIn_keys_none used]
        exact congrArg _ (answer_eq ..)
      rw [freeSlotIn_keys_lowest low high unused lowest] at run
      dsimp only at run
      refine ⟨fun foreign => ?_, fun mine attr => ?_, fun mine noAttr room => ?_⟩
      · rw [run, if_pos foreign, answer_eq]
        rfl
      · rw [run, if_neg (not_true_true mine), if_pos attr, answer_eq]
        rfl
      · obtain ⟨least, most, fresh⟩ := nextEncl_encls_fresh room (Config.freeNat (.choice 4002) s.free)
        refine ⟨_, least, most, fresh, ?_⟩
        rw [run, if_neg (not_true_true mine), if_neg (not_not_intro noAttr), answer_eq]
        rfl
    case addpage =>
      have run : exec (.encAddpage rd rs1 rs2) s = _ := show execEncAddpage rd rs1 rs2 s = _ from runs _
      dsimp only at run
      rw [ha, hb, bits_toNat a 63 48 16 rfl, bits_toNat a 39 0 40 rfl, bits_toNat b 35 0 36 rfl,
        show maxH = 0xFFFFFFFF from rfl] at run
      refine ⟨fun operands => ?_, fun e known upper => ?_⟩
      · rw [run]
        split
        · exact congrArg _ (answer_eq ..)
        · next known =>
          rw [if_pos (bits_not_zero rfl (operands.resolve_left (by rw [known]; exact Option.some_ne_none _))), answer_eq]
          rfl
      rw [known] at run
      dsimp only at run
      rw [if_neg (bits_are_zero rfl upper)] at run
      refine ⟨fun notBuilding => ?_, fun building => ?_⟩
      · rw [run, if_pos notBuilding, answer_eq]
        rfl
      rw [if_neg (not_not_intro building)] at run
      refine ⟨fun bad => ?_, fun mine sound quiet => ?_⟩
      · rw [run, if_pos bad, answer_eq]
        rfl
      intro whole
      rw [if_neg (not_or.mpr ⟨not_true_true mine, not_true_eq sound⟩), if_neg (not_true_eq quiet), if_neg
        (not_true_eq whole)] at run
      refine ⟨fun held => ?_, fun unused full => ?_, fun f rest unused room pool next => ?_⟩
      · rw [run, if_pos held, answer_eq]
        rfl
      · rw [run, if_neg (not_true_eq unused), if_pos full, answer_eq]
        rfl
      · rw [run, if_neg (not_true_eq unused), if_neg room, draw_cons _ _ _ _ pool next, answer_eq]
        rfl
    case measure =>
      have run : exec (.encMeasure rd rs1) s = _ := show execEncMeasure rd rs1 s = _ from runs _
      dsimp only at run
      rw [ha] at run
      refine ⟨fun unknown => ?_, fun e known => ?_⟩
      · rw [run, unknown]
        exact congrArg _ (answer_eq ..)
      rw [known] at run
      dsimp only at run
      refine ⟨fun notBuilding => ?_, fun building => ?_⟩
      · rw [run, if_pos notBuilding, answer_eq]
        rfl
      · rw [run, if_neg (not_not_intro building), answer_eq]
        rfl
    case enter =>
      have run : exec (.encEnter rd rs1) s = _ := show execEncEnter rd rs1 s = _ from runs _
      dsimp only at run
      rw [ha, bits_toNat a 15 0 16 rfl, bits_toNat a 21 16 6 rfl] at run
      refine ⟨fun operands => ?_, fun e known upper => ?_⟩
      · rw [run]
        split
        · exact congrArg _ (answer_eq ..)
        · next known =>
          rw [if_pos (bits_not_zero rfl (operands.resolve_left (by rw [known]; exact Option.some_ne_none _))), answer_eq]
          rfl
      rw [known] at run
      dsimp only at run
      rw [if_neg (bits_are_zero rfl upper)] at run
      refine ⟨fun notMeasured => ?_, fun measured => ⟨fun dead => ?_, fun alive => ⟨fun executed => ?_, fun free => ?_⟩⟩⟩
      · rw [run, if_pos notMeasured, answer_eq]
        rfl
      · rw [run, if_neg (not_not_intro measured), if_pos dead, answer_eq]
        rfl
      · rw [run, if_neg (not_not_intro measured), if_neg (not_true_eq alive), if_pos (insideThread_iff.mpr executed), answer_eq]
        rfl
      · rw [run, if_neg (not_not_intro measured), if_neg (not_true_eq alive), if_neg (mt insideThread_iff.mp free)]
    case destroy =>
      have run : exec (.encDestroy rd rs1) s = _ := show execEncDestroy rd rs1 s = _ from runs _
      dsimp only at run
      rw [ha] at run
      refine ⟨fun unknown => ?_, fun e known => ?_⟩
      · rw [run, unknown]
        exact congrArg _ (answer_eq ..)
      rw [known] at run
      dsimp only at run
      refine ⟨fun dying => ?_, fun lives => ?_⟩
      · rw [run, if_pos (by rw [dying]; exact ⟨nofun, nofun⟩), answer_eq]
        rfl
      rw [if_neg fun h => lives.elim h.1 h.2] at run
      refine ⟨fun inhabited => ?_, fun empty => ?_⟩
      · rw [run, if_pos inhabited, answer_eq]
        rfl
      · rw [run, if_neg (not_true_eq empty), answer_eq]
        rfl
  case exit =>
    have run : exec (.encExit rd rs1) s = _ := show execEncExit rd rs1 s = _ from asThread_free free inside _
    dsimp only at run
    rw [ha] at run
    refine ⟨fun operand => ?_, fun clear => ?_⟩
    · rw [run, if_pos (bits_not_zero rfl operand), answer_eq]
      rfl
    · rw [run, if_neg (bits_are_zero rfl clear)]
      exact ⟨_, rfl, exit_seals s.curHart clear⟩
  case report =>
    have forms : ∀ q ∈ [(false, Instr.encReport rd rs1 rs2),
      (true, Instr.encReportRk rd rs1 rs2)], exec q.2 s = report q.1 rd rs1 rs2 s :=
      List.forall_mem_cons.mpr ⟨rfl, List.forall_mem_singleton.mpr rfl⟩
    intro q mem
    rw [forms q mem]
    exact ⟨report_badOperand free inside ha hb, fun aligned page measured =>
      ⟨report_rekeyBusy free inside ha hb aligned page measured, fun may _ _ _ _ data out dataHere outHere =>
        report_writes free inside ha hb aligned page measured may data out dataHere outHere⟩⟩
  case xctl =>
    have forms : ∀ q ∈ [(Instr.encXctlInv rd rs1 rs2, XctlForm.inv), (.encXctlPfCore rd rs1 rs2, .pf),
      (.encXctlPfHall rd rs1 rs2, .pf),
        (.encXctlPinCore rd rs1 rs2, .pin false), (.encXctlPinHall rd rs1 rs2, .pin true),
          (.encXctlUnpinCore rd rs1 rs2, .unpin false),
        (.encXctlUnpinHall rd rs1 rs2, .unpin true)], exec q.1 s = encXctl q.2 rd rs1 rs2 s := by
      simp only [List.forall_mem_cons]
      exact ⟨rfl, rfl, rfl, rfl, rfl, rfl, rfl, List.forall_mem_nil _⟩
    intro q mem
    rw [forms q mem]
    exact encXctl_cases free inside ha hb

end Sys2Proof.Machine
end

section
/-! PROOF. Loads, stores and atomics
  (R22, R40, R326, R329 to R331, R333, R349): which bytes they read and write, and when they trap. -/

namespace Sys2Proof.Machine

/-! The steps of the instructions. -/

theorem exec_lds_memory {s : State} {x : Exe} (hx : s.exe? = some x) (c : Ctl) (f : MemForm) (ops : List Opnd) :
    exec (.lds c f ops) s = .next (x.memory (.lds c f ops) (loadOp true f)) :=
  onPath_next hx _

theorem exec_sts_memory {s : State} {x : Exe} (hx : s.exe? = some x) (c : Ctl) (f : MemForm) (ops : List Opnd) :
    exec (.sts c f ops) s = .next (x.memory (.sts c f ops) (storeOp true f)) :=
  onPath_next hx _

theorem exec_atoms_memory {s : State} {x : Exe} (hx : s.exe? = some x) (c : Ctl) (o : AtomOrder) (t : AtomTy) (scope : Scope)
    (ops : List Opnd) : exec (.atoms c o t scope ops) s = .next (x.memory (.atoms c o t scope ops) (atomOp true t x.p.mode)) :=
  onPath_next hx _

theorem exec_ld_memory {s : State} {x : Exe} (hx : s.exe? = some x) (c : Ctl) (f : MemForm) (ops : List Opnd) :
    exec (.ld c f ops) s = .next (x.memory (.ld c f ops) (loadOp false f)) :=
  onPath_next hx _

theorem exec_st_memory {s : State} {x : Exe} (hx : s.exe? = some x) (c : Ctl) (f : MemForm) (ops : List Opnd) :
    exec (.st c f ops) s = .next (x.memory (.st c f ops) (storeOp false f)) :=
  onPath_next hx _

theorem exec_atom_memory {s : State} {x : Exe} (hx : s.exe? = some x) (c : Ctl) (o : AtomOrder) (t : AtomTy) (scope : Scope)
    (ops : List Opnd) : exec (.atom c o t scope ops) s = .next (x.memory (.atom c o t scope ops) (atomOp false t x.p.mode)) :=
  onPath_next hx _

/-- CACHE.ZERO has no check, and then each lane's access zeros its line. -/
theorem exec_cacheZero_settles {s : State} {x : Exe} (hx : s.exe? = some x) (calm : x.calm) (fresh : x.p.got = []) (c : Ctl)
    (ops : List Opnd) :
    let i := Instr.cacheZero c ops
    exec i s = .next (x.settleRun i (x.active i.ctl) (fun _ => []) (x.raised i fun _ => 0) ((x.active i.ctl).foldl (fun run l =>
      let a := (argOf (x.args i l) 0).toBits
      x.access 0 (leBytes 64 0) none run ⟨l, a - BitVec.ofNat 64 (a.toNat % 64), 64, .store, some fun _ => leBytes 64 0, false⟩)
      ⟨x.s, [], false⟩)) := by
  intro i
  have judged : x.judge i (fun _ _ _ => .done [] 0) = .done ((x.active i.ctl).map fun l => (l, [])) (x.raised i fun _ => 0) :=
    x.judge_calm i _ calm (fun _ => []) (fun _ => 0) fun _ _ => rfl
  have todo : ((x.active i.ctl).filter fun l => (mget ([] : List (Nat × List Val)) l).isNone) = x.active i.ctl :=
    List.filter_eq_self.mpr fun _ _ => rfl
  refine (onPath_next hx _).trans (congrArg _ ?_)
  dsimp only
  rw [judged, fresh]
  dsimp only
  rw [show x.active c = x.active i.ctl from rfl, todo]
  rfl

theorem cacheZero_yields {s : State} {x : Exe} (hx : s.exe? = some x) (calm : x.calm) (fresh : x.p.got = []) (c : Ctl)
    (ops : List Opnd) (ps : Nat → List (Nat × Nat × Nat)) :
    let i := Instr.cacheZero c ops
    let a := fun l => (argOf (x.args i l) 0).toBits
    x.Located i .store 64 (fun l => a l - BitVec.ofNat 64 ((a l).toNat % 64)) ps →
      x.YieldsAccesses s i (fun u l => u.readPieces (ps l)) (fun u l bs => u.writePieces (ps l) bs)
        (some fun _ _ => List.replicate 64 0) false fun _ => [] := by
  intro i a located
  refine accesses_yield i _ _ _ _ (fun _ => false) false (fun _ => []) _ _ (.refl _) nofun (fun _ => rfl) nofun
    (exec_cacheZero_settles hx calm fresh c ops) fun ls l v got _ _ active _ => ?_
  obtain ⟨p, found, here⟩ := located l active
  obtain ⟨v', made⟩ := access_eq x 0 (leBytes 64 0) none (x.performed (fun u l => u.readPieces (ps l))
    (fun u l bs => u.writePieces (ps l) bs) (some fun _ _ => List.replicate 64 0) ls) v got
    ⟨l, a l - BitVec.ofNat 64 ((a l).toNat % 64), 64, .store, some fun _ => leBytes 64 0, false⟩ p (ps l) found here
  refine ⟨v', made.trans ?_⟩
  rw [performed_snoc]
  rfl

/-- A byte outside of every lane's pieces keeps its value. -/
theorem readByte_performed {x : Exe} {rd : State → Nat → List Byte} {ps : Nat → List (Nat × Nat × Nat)} {a : Nat}
    (outside : ∀ l p, p ∈ ps l → ¬ (p.1 ≤ a ∧ a < p.1 + p.2.2)) (wf : Memory.wf x.s.mem = true)
    (new : Option (Nat → List Byte → List Byte)) (ls : List (Nat × Bool)) :
    readByte (x.performed rd (fun u l bs => u.writePieces (ps l) bs) new ls).mem a = readByte x.s.mem a := by
  cases new with
  | none => rfl
  | some f =>
    suffices kept : ∀ t : State, Memory.wf t.mem = true →
        readByte (ls.foldl (fun t q => t.writePieces (ps q.1) (f q.1 (rd
          (if q.2 then x.s else t) q.1))) t).mem a = readByte t.mem a from
      kept x.s wf
    induction ls with
    | nil => exact fun _ _ => rfl
    | cons q ls ih =>
      intro t ht
      obtain ⟨same, wf'⟩ := readByte_writePieces a (ps q.1) t (f q.1 (rd (if q.2 then x.s else t) q.1)) ht (outside q.1)
      rw [List.foldl_cons, ih _ wf', same]

/-- Settles O27: the accesses of scratchpads and of memory by the lemmas of one access, instruction by instruction. -/
theorem memoryAccesses : Obligations.MemoryAccesses := by
  unfold Obligations.MemoryAccesses
  refine ⟨fun s x c f o t scope ops spot hx calm fresh => ?_, fun s x c f o t scope ops ps hx calm fresh => ?_⟩
  · intro ld st at_ form q mem
    have hform : form = (memSize f, memAligned f, memLoose f) := by cases f <;> rfl
    rw [hform] at mem ⊢
    have load := spad_access calm fresh ld (loadOp true f) (exec_lds_memory hx c f ops) rfl
    have store := spad_access calm fresh st (storeOp true f) (exec_sts_memory hx c f ops) rfl
    have atomic := spad_access calm fresh at_ (atomOp true t x.p.mode) (exec_atoms_memory hx c o t scope ops) rfl
    simp only [List.mem_cons, List.not_mem_nil, or_false] at mem
    rcases mem with rfl | rfl | rfl
    · refine ⟨load.1, load.2.1, fun inBounds aligned spots => ⟨fun _ => ?_, nofun, nofun⟩⟩
      exact load.2.2 inBounds aligned spot spots (loadedFrom f) (memLoaded_raw f) nofun
    · refine ⟨store.1, store.2.1, fun inBounds aligned spots => ⟨nofun, fun _ => ?_, nofun⟩⟩
      exact store.2.2 inBounds aligned spot spots (fun _ => []) (fun _ => rfl) fun _ _ _ => rfl
    · refine ⟨atomic.1, atomic.2.1, fun inBounds aligned spots => ⟨nofun, nofun, fun _ => ?_⟩⟩
      exact atomic.2.2 inBounds aligned spot spots (fun bs => [ofTy t.ty (leNat bs)])
        (fun bs => congrArg (fun v => [v]) (ofTy_raw t.ty bs)) nofun
  · intro ld st at_ zero form n rd wr addr odd raises
    have hform : form = (memSize f, memAligned f, memLoose f) := by cases f <;> rfl
    rw [hform]
    obtain ⟨loadOdd, load⟩ := memory_access calm fresh ld (loadOp false f) (exec_ld_memory hx c f ops) rfl
    obtain ⟨storeOdd, store⟩ := memory_access calm fresh st (storeOp false f) (exec_st_memory hx c f ops) rfl
    obtain ⟨atomOdd, atomic⟩ := memory_access calm fresh at_ (atomOp false t x.p.mode) (exec_atom_memory hx c o t scope ops) rfl
    refine ⟨loadOdd, storeOdd, atomOdd rfl, fun aligned located => ?_, ?_, ?_, cacheZero_yields hx calm fresh c ops ps,
      fun new ls a outside wf => readByte_performed outside wf new ls⟩
    · exact load aligned ps none rfl located (loadedFrom f) (memLoaded_raw f) nofun
    · intro new aligned located
      exact store aligned ps new rfl located (fun _ => []) (fun _ => rfl) fun _ _ _ => rfl
    · intro v new aligned located
      exact atomic (fun _ => aligned) ps new rfl located (fun bs => [ofTy t.ty (leNat bs)])
        (fun bs => congrArg (fun v => [v]) (ofTy_raw t.ty bs)) nofun

end Sys2Proof.Machine
end

section
/-! PROOF. What stores and atomics make of the bytes that were there (R331, R334, R335), and what an access that does not translate does
(R45 to R48). -/

namespace Sys2Proof.Machine

/-! Elements within a byte (R331). -/

theorem memStored_element {f : MemForm} {w k : Nat} (vs : List Val) (b : Byte)
    (form : (f = .n4 ∧ w = 4 ∧ k < 2) ∨ (f = .n2 ∧ w = 2 ∧ k < 4)) (place : numOf vs 2 = k) :
    ∃ b' : Byte, memStored f vs [b] = [b'] ∧
      ∀ j, j < 8 → b'.getLsbD j = if j / w = k then (numOf vs 1).testBit (j % w) else b.getLsbD j := by
  rcases form with ⟨rfl, rfl, inByte⟩ | ⟨rfl, rfl, inByte⟩ <;> subst place
  · exact ⟨_, rfl, putElem_bit 4 _ _ b (.inl ⟨rfl, inByte⟩)⟩
  · exact ⟨_, rfl, putElem_bit 2 _ _ b (.inr ⟨rfl, inByte⟩)⟩

/-! Integer operations of ATOM (R334). -/

section
variable {w : Nat} (a v : BitVec w)

theorem ofNat_ite_toNat {c : Prop} [Decidable c] (b : BitVec w) :
    BitVec.ofNat w (if c then a.toNat else b.toNat) = if c then a else b := by
  split <;> simp

/-- INC: the next value, or 0 from the bound on. -/
theorem ofNat_inc : BitVec.ofNat w (if v.toNat ≤ a.toNat then 0 else a.toNat + 1) = if v ≤ a then 0 else a + 1 := by
  simp only [BitVec.le_def]
  split
  · rfl
  · simp [BitVec.ofNat_add]

/-- DEC: the value before, or the bound from 0 and from above it. -/
theorem ofNat_dec : BitVec.ofNat w (if a.toNat = 0 ∨ v.toNat < a.toNat then v.toNat else a.toNat - 1) =
    if a = 0 ∨ v < a then v else a - 1 := by
  have zero : a.toNat = 0 ↔ a = 0 := by simp [← BitVec.toNat_inj]
  simp only [zero, BitVec.lt_def]
  split
  · simp
  · next h =>
    have positive : a.toNat ≠ 0 := fun e => h (.inl (zero.mp e))
    have small := a.isLt
    rw [← BitVec.ofNat_sub_ofNat_of_le a.toNat 1 (by omega) (by omega), BitVec.ofNat_toNat, BitVec.setWidth_eq]
    rfl

end

theorem atomNew_integer (t : AtomTy) (m : BitVec 64) {w : Nat} (a v v2 : BitVec w) (width : w = t.ty.width) :
    let op := fun k => BitVec.ofNat w (atomNew k t m a.toNat v.toNat v2.toNat)
    op 0 = a + v ∧ op 1 = a &&& v ∧ op 2 = a ||| v ∧ op 3 = a ^^^ v ∧ op 4 = minMaxOf .smin a v ∧ op 5 = minMaxOf .smax a v ∧
      op 6 = minMaxOf .umin a v ∧ op 7 = minMaxOf .umax a v ∧ op 8 = v ∧ op 9 = (if a = v then v2 else a) ∧
      (op 13 = if v ≤ a then 0 else a + 1) ∧ (op 14 = if a = 0 ∨ v < a then v else a - 1) := by
  subst width
  intro op
  refine ⟨?_, ?_, ?_, ?_, minMaxElem_bv .smin _ a v, minMaxElem_bv .smax _ a v, minMaxElem_bv .umin _ a v, minMaxElem_bv .umax _ a v,
    ?_, ?_, ofNat_inc a v, ofNat_dec a v⟩
  · exact BitVec.eq_of_toNat_eq (by simp [op, atomNew])
  · exact BitVec.eq_of_toNat_eq (by simp [op, atomNew])
  · exact BitVec.eq_of_toNat_eq (by simp [op, atomNew])
  · exact BitVec.eq_of_toNat_eq (by simp [op, atomNew])
  · exact BitVec.eq_of_toNat_eq (by simp [op, atomNew])
  · show BitVec.ofNat _ (if a.toNat = v.toNat then v2.toNat else a.toNat) = _
    rw [ofNat_ite_toNat]
    simp only [BitVec.toNat_inj]

/-! Floating operations of ATOM (R335). -/

/-- STO acts as RNE in an atomic. -/
theorem atomRounding_eq {m : BitVec 64} (mode : modeRM m < 6) :
    atomRounding m = { roundingOf m 0 with rm := if modeRM m = 5 then 0 else modeRM m } := by
  have : (5 ≤ modeRM m) = (modeRM m = 5) := by
    apply propext
    omega
  unfold atomRounding roundingOf
  simp only [this]

theorem atomFloat_add {m : BitVec 64} (mode : modeRM m < 6) (ty : Ty) (a v : Nat) :
    let rm := if modeRM m = 5 then 0 else modeRM m
    atomFloat 10 ty m a v =
      ((fmtOf ty).convert { roundingOf m 0 with rm := rm } (Num.add rm (fpIn ty m a) (fpIn ty m v)).1).1 := by
  show ((fmtOf ty).convert (atomRounding m) (Num.add (atomRounding m).rm (fpIn ty m a) (fpIn ty m v)).1).1 = _
  rw [atomRounding_eq mode]

theorem atomFloat_minnum (ty : Ty) (m : BitVec 64) (a v : Nat) : atomFloat 11 ty m a v = fminmaxWord .minnum ty m a v := rfl

theorem atomFloat_maxnum (ty : Ty) (m : BitVec 64) (a v : Nat) : atomFloat 12 ty m a v = fminmaxWord .maxnum ty m a v := rfl

theorem atomNew_float {t : AtomTy} {ty : Ty} {n j : Nat} {m : BitVec 64}
    (mem : (t, ty, n) ∈ [(AtomTy.f32, Ty.f32, 1), (.f64, .f64, 1), (.bf16x2, .bf16, 2), (.f16x2, .f16, 2)]) (a v : Nat)
    (mode : modeRM m < 6) (inWord : j < n) :
    let el := fun n j => n / 2 ^ (ty.width * j) % 2 ^ ty.width
    let rm := if modeRM m = 5 then 0 else modeRM m
    (∃ e, ExactSum rm (fpIn ty m (el a j)) (fpIn ty m (el v j)) e ∧
      el (atomNew 10 t m a v 0) j = ((fmtOf ty).convert { roundingOf m 0 with rm := rm } e.1).1 % 2 ^ ty.width) ∧
    el (atomNew 11 t m a v 0) j = fminmaxWord .minnum ty m (el a j) (el v j) % 2 ^ ty.width ∧
    el (atomNew 12 t m a v 0) j = fminmaxWord .maxnum ty m (el a j) (el v j) % 2 ^ ty.width := by
  have elements := fun k hk => atomFloat_el t ty n mem k hk m a v j inWord
  dsimp only
  refine ⟨⟨_, exactSum _ _ _ (fpIn_exact ty m _) (fpIn_exact ty m _), ?_⟩, ?_, ?_⟩
  · rw [elements 10 (.inl rfl), atomFloat_add mode]
  · rw [elements 11 (.inr (.inl rfl)), atomFloat_minnum]
  · rw [elements 12 (.inr (.inr rfl)), atomFloat_maxnum]

/-! An access that does not translate (R45 to R48). -/

section
variable {s : State} {x : Exe} {i : Instr} {o : MemOp} {l : Nat} {va : BitVec 64} (calm : x.calm) (fresh : x.p.got = [])
  (alone : x.active i.ctl = [l]) (runs : exec i s = .next (x.memory i o)) (global : o.spad = false)
  (aligned : o.aligned = true → numOf (x.args i l) o.at_ % o.n = 0)
include calm fresh alone runs global aligned

theorem one_lane_faults {k : FaultInfo}
    (stops : x.s.locate (some x.unit) x.eid (argOf (x.args i l) o.at_).toBits o.kind o.n = .error ⟨va, .fault k⟩) :
    let u := x.s.faultAccess x.team.launch x.team.core x.g.slot o.kind (.path x.gid x.pid) va k
    exec i s = .next (if k.kind.fatal then u else u.setGroup x.gid (x.having { x.p with done := 0, got := [] })) := by
  intro u
  rw [one_lane calm fresh i o l alone runs global aligned]
  refine congrArg _ ?_
  unfold Exe.access
  dsimp only [Exe.request]
  rw [if_neg (by decide), stops]
  dsimp only
  unfold Exe.settleRun
  dsimp only
  cases k.kind.fatal <;> rfl

theorem one_lane_searches {pa n : Nat}
    (stops : x.s.locate (some x.unit) x.eid (argOf (x.args i l) o.at_).toBits o.kind o.n = .error ⟨va, .search pa n⟩) :
    exec i s = .next ((x.s.startSearch pa n).setGroup x.gid (x.having { x.p with done := 0, got := [] })) := by
  rw [one_lane calm fresh i o l alone runs global aligned]
  refine congrArg _ ?_
  unfold Exe.access
  dsimp only [Exe.request]
  rw [if_neg (by decide), stops]
  rfl

theorem one_lane_moving (once : (x.gid, x.pid) ∉ x.s.moving)
    (stops : x.s.locate (some x.unit) x.eid (argOf (x.args i l) o.at_).toBits o.kind o.n = .error ⟨va, .moving⟩) :
    exec i s = .next (({ x.s with moving := x.s.moving ++ [(x.gid, x.pid)] } : State).setGroup x.gid
      (x.having { x.p with done := 0, got := [] })) := by
  rw [one_lane calm fresh i o l alone runs global aligned]
  refine congrArg _ ?_
  unfold Exe.access
  dsimp only [Exe.request]
  rw [if_neg (by decide), stops]
  dsimp only
  rw [if_neg (by simpa using once)]
  rfl

/-- The three ways in which an access does not translate, for any memory instruction with one active lane. -/
theorem one_lane_stops :
    let stops := x.s.locate (some x.unit) x.eid (argOf (x.args i l) o.at_).toBits o.kind o.n
    let waits := { x.p with done := 0, got := [] }
    (∀ k, stops = .error ⟨va, .fault k⟩ →
      let u := x.s.faultAccess x.team.launch x.team.core x.g.slot o.kind (.path x.gid x.pid) va k
      exec i s = .next (if k.kind.fatal then u else u.setGroup x.gid (x.having waits))) ∧
    (∀ pa n, stops = .error ⟨va, .search pa n⟩ → exec i s = .next ((x.s.startSearch pa n).setGroup x.gid (x.having waits))) ∧
    (stops = .error ⟨va, .moving⟩ → (x.gid, x.pid) ∉ x.s.moving →
      exec i s = .next (({ x.s with moving := x.s.moving ++ [(x.gid, x.pid)] } : State).setGroup x.gid (x.having waits))) :=
  ⟨fun _ stops => one_lane_faults calm fresh alone runs global aligned stops,
    fun _ _ stops => one_lane_searches calm fresh alone runs global aligned stops,
    fun stops once => one_lane_moving calm fresh alone runs global aligned once stops⟩

end

/-- Settles O28: elements, integers and floats by their operation, and the stops of an access by the lemmas of one lane. -/
theorem storedElementsAndFaults : Obligations.StoredElementsAndFaults := by
  unfold Obligations.StoredElementsAndFaults
  refine ⟨⟨fun f vs w k b form place => memStored_element vs b form place, fun t m w a v v2 width => atomNew_integer t m a v v2 width,
    fun t mem m a v => ?_⟩, fun s x c f o t scope ops l va hx calm fresh alone => ?_⟩
  · obtain ⟨t, ty, n⟩ := t
    exact fun mode j inWord => atomNew_float mem a v mode inWord
  · intro form q mem
    have hform : form = (memSize f, memAligned f) := by cases f <;> rfl
    rw [hform] at mem
    simp only [List.mem_cons, List.not_mem_nil, or_false] at mem
    have load := one_lane_stops (va := va) (i := .ld c f ops) (o := loadOp false f) calm fresh alone (exec_ld_memory hx c f ops) rfl
    have store := one_lane_stops (va := va) (i := .st c f ops) (o := storeOp false f) calm fresh alone (exec_st_memory hx c f ops) rfl
    have atomic := one_lane_stops (va := va) (i := .atom c o t scope ops) (o := atomOp false t x.p.mode) calm fresh alone
      (exec_atom_memory hx c o t scope ops) rfl
    rcases mem with rfl | rfl | rfl
    · exact load
    · exact store
    · exact atomic

end Sys2Proof.Machine
end

section
/-! PROOF. Cache maintenance and translation control (R74, R216, R218, R348, R349, R381): what PREF, CACHE.DEMOTE, CACHE.EVICT and
XCTL do, and what stays of lines, translations and pins. -/

namespace Sys2Proof.Machine

/-- Where `f` changes only what satisfies `p`, and leaves that so, an element outside of `p` is in the image exactly if it was
there before. -/
theorem mem_map_ite_of_not {α : Type} {p : α → Prop} [DecidablePred p] {f : α → α} (keeps : ∀ a, p a → p (f a)) {a : α} (other : ¬ p a)
    (l : List α) : (a ∈ l.map fun b => if p b then f b else b) ↔ a ∈ l := by
  rw [List.mem_map]
  constructor
  · rintro ⟨b, hb, rfl⟩
    by_cases changed : p b
    · rw [if_pos changed] at other
      exact absurd (keeps b changed) other
    · rwa [if_neg changed]
  · exact fun ha => ⟨a, ha, if_neg other⟩

/-! Prefetch and cache maintenance (R74, R348, R349). -/

theorem State.OnlyCaches.eq {s t : State} (only : s.OnlyCaches t) : t = s.caching t := by
  obtain ⟨c, rfl⟩ := only
  rfl

/-- Filling lines changes the caches alone, whichever of them are filled. -/
theorem Exe.prefetches_only (x : Exe) (c : Ctl) (fills : State → Nat → Bool) (s : State) (ls : List (Nat × Nat)) :
    s.OnlyCaches (ls.foldl (fun s q =>
      if fills s q.1 then s.l2Touch x.encl.part (dieOf x.hall) q.1 (s.worldOf (q.1 / 64)) q.2 c.hint false false else s) s) := by
  refine .foldl (fun s q => ?_) ls s
  split
  · exact s.l2Touch_only ..
  · exact .refl s

/-- Sharing a line makes its dirty copies clean, and leaves the other lines of every cache. -/
theorem State.share_spares (s : State) (line : Nat) :
    (∀ l : L2Line, l.line ≠ line → (l ∈ (s.share line).l2 ↔ l ∈ s.l2)) ∧
      ∀ c : CoreLine, c.line ≠ line → (c ∈ (s.share line).coreLines ↔ c ∈ s.coreLines) := by
  unfold State.share
  split
  · refine ⟨fun l other => ?_, fun c other => ?_⟩
    · exact mem_map_ite_of_not (p := fun l : L2Line => (l.line == line) = true) (f := fun l => { l with dirty := false })
        (fun _ same => same) (by simpa using other) s.l2
    · exact mem_map_ite_of_not (p := fun c : CoreLine => (c.line == line) = true) (f := fun c => { c with dirty := false })
        (fun _ same => same) (by simpa using other) s.coreLines
  · exact ⟨fun _ _ => .rfl, fun _ _ => .rfl⟩

theorem State.shares_spare : ∀ (lines : List Nat) (s : State),
    (∀ l : L2Line, l.line ∉ lines → (l ∈ (lines.foldl State.share s).l2 ↔ l ∈ s.l2)) ∧
      ∀ c : CoreLine, c.line ∉ lines → (c ∈ (lines.foldl State.share s).coreLines ↔ c ∈ s.coreLines)
  | [], _ => ⟨fun _ _ => .rfl, fun _ _ => .rfl⟩
  | line :: lines, s => by
    obtain ⟨l2, core⟩ := s.share_spares line
    obtain ⟨restL2, restCore⟩ := State.shares_spare lines (s.share line)
    exact ⟨fun l other => (restL2 l (List.not_mem_of_not_mem_cons other)).trans (l2 l (List.ne_of_not_mem_cons other)),
      fun c other => (restCore c (List.not_mem_of_not_mem_cons other)).trans (core c (List.ne_of_not_mem_cons other))⟩

theorem State.evictLines_only (s : State) (lines : List Nat) : s.OnlyCaches (s.evictLines lines) :=
  (State.OnlyCaches.foldl State.share_only lines s).trans (.mk _ _ _ _ _)

/-- Evicted lines are in no cache, and no other line leaves one. -/
theorem State.evictLines_lines (s : State) (lines : List Nat) :
    (∀ l : L2Line, (l.line ∈ lines → l ∉ (s.evictLines lines).l2) ∧
        (l.line ∉ lines → (l ∈ (s.evictLines lines).l2 ↔ l ∈ s.l2))) ∧
      ∀ c : CoreLine, (c.line ∈ lines → c ∉ (s.evictLines lines).coreLines) ∧
        (c.line ∉ lines → (c ∈ (s.evictLines lines).coreLines ↔ c ∈ s.coreLines)) := by
  obtain ⟨l2, core⟩ := State.shares_spare lines s
  refine ⟨fun l => ⟨fun gone => ?_, fun stays => ?_⟩, fun c => ⟨fun gone => ?_, fun stays => ?_⟩⟩
  · simp [State.evictLines, gone]
  · simpa [State.evictLines, stays] using l2 l stays
  · simp [State.evictLines, gone]
  · simpa [State.evictLines, stays] using core c stays

section
variable {s : State} {x : Exe} (hx : s.exe? = some x) (calm : x.calm) (c : Ctl) (ops : List Opnd)
include hx calm

theorem exec_pref_completes : ∃ (c' : State) (t : State), exec (.pref c ops) s = .next t ∧
    Exe.Completes { x with s := x.s.caching c' } (.pref c ops) (x.flagged (x.raised (.pref c ops) fun _ => 0)) (fun _ => none) t := by
  obtain ⟨t, runs, done⟩ := cacheOp_next hx calm (.pref c ops) _ (onPath_next hx _)
  rw [(x.prefetches_only c (fun s line => (Config.freeBits (.choice (1000 + line)) s.free).getLsbD 0) x.s
    (x.allLines (.pref c ops))).eq] at done
  exact ⟨_, t, runs, done⟩

theorem exec_cacheEvict_completes :
    let i := Instr.cacheEvict c ops
    let lines := (x.allLines i).map Prod.fst
    ∃ t, exec i s = .next t ∧ Exe.Completes { x with s := x.s.caching (x.s.evictLines lines) } i
      (x.flagged (x.raised i fun _ => 0)) (fun _ => none) t := by
  intro i lines
  obtain ⟨t, runs, done⟩ := cacheOp_next hx calm i _ (onPath_next hx _)
  rw [(x.s.evictLines_only lines).eq] at done
  exact ⟨t, runs, done⟩

end

/-! Translation control (R216, R218, R381). -/

/-- After an invalidation no translation of the range is live. -/
theorem State.invalidate_ends {s : State} {e : Nat} {r : Nat × Nat} {q : Nat × Trans} (mem : q ∈ (s.invalidate e r).trans)
    (mine : q.2.enclave = e) (inRange : overlaps q.2.extent r = true) : q.2.live = false := by
  obtain ⟨t, -, rfl⟩ := List.mem_map.mp mem
  by_cases hit : (t.2.enclave == e && overlaps t.2.extent r) = true
  · rw [if_pos hit]
  · rw [if_neg hit] at mine inRange
    exact absurd (by simp [mine, inRange]) hit

/-- After UNPIN no translation of the range has a pin of the levels. -/
theorem State.unpin_ends {s : State} {e : Nat} {levels : List (Option Nat)} {r : Nat × Nat} {q : Nat × Trans}
    (mem : q ∈ (s.unpin e levels r).trans) (mine : q.2.enclave = e) (inRange : overlaps q.2.extent r = true) :
    ∀ p ∈ q.2.pins, p.1 ∉ levels := by
  obtain ⟨t, -, rfl⟩ := List.mem_map.mp mem
  by_cases hit : (t.2.enclave == e && overlaps t.2.extent r) = true
  · rw [if_pos hit]
    exact fun p hp => by simpa using (List.mem_filter.mp hp).2
  · rw [if_neg hit] at mine inRange
    exact absurd (by simp [mine, inRange]) hit

/-- Settles O36: the cache operations through the rules for lines, XCTL through the lemma of its seven forms. -/
theorem cacheAndTranslationControl : Obligations.CacheAndTranslationControl := by
  unfold Obligations.CacheAndTranslationControl
  intro s x c ops hx calm goes flags
  refine ⟨?pref, ?demote, ?evict, fun i mem place => ?xctl, fun e cores by_ forms r => ?effects⟩
  case pref => exact exec_pref_completes hx calm c ops
  case demote =>
    refine ⟨_, cacheOp_next hx calm (.cacheDemote c ops) _ (onPath_next hx _), List.length_map _, fun k l at_ => ?_⟩
    refine ⟨_, by rw [List.getElem?_map, at_]; rfl, fun named => if_pos ?_, fun other => if_neg ?_⟩
    · simpa using named
    · simpa using other
  case evict =>
    obtain ⟨l2, core⟩ := x.s.evictLines_lines ((x.allLines (.cacheEvict c ops)).map Prod.fst)
    exact ⟨_, exec_cacheEvict_completes hx calm c ops, l2, core⟩
  case xctl =>
    simp only [List.mem_cons, List.not_mem_nil, or_false] at mem
    rcases mem with rfl | rfl | rfl | rfl | rfl | rfl | rfl <;> exact xctl_form _ s x hx calm place (onPath_next hx _)
  case effects =>
    exact ⟨rfl, fun q mem mine inRange => State.invalidate_ends mem mine inRange, fun hall => rfl,
      fun levels q mem mine inRange => State.unpin_ends mem mine inRange⟩

end Sys2Proof.Machine
end

section
/-! PROOF. Link streams and the host link (R20, R67, R120, R155 to R161, R163): what an arriving flit does, and the life of streams
and of device interfaces. -/

namespace Sys2Proof.Machine

/-! Arriving flits (R157 to R159). -/

/-- The event of a flit's arrival, by the flit's type. -/
inductive FlitEvent (f : Flit) (c : Contrib) : Nat → Instr → Prop
  | request : FlitEvent f c 1 (.requestFlit f)
  | response : FlitEvent f c 2 (.responseFlit f)
  | collective : FlitEvent f c 3 (.collectiveFlit f c)

theorem FlitEvent.of_mem {f : Flit} {c : Contrib} {i : Nat × Instr}
    (mem : i ∈ [(1, Instr.requestFlit f), (2, .responseFlit f), (3, .collectiveFlit f c)]) : FlitEvent f c i.1 i.2 := by
  simp only [List.mem_cons, List.not_mem_nil, or_false] at mem
  rcases mem with rfl | rfl | rfl
  · exact .request
  · exact .response
  · exact .collective

/-- A flit that is not accepted has done what it does. -/
theorem FlitEvent.exec_rejected {f : Flit} {c : Contrib} {kind : Nat} {i : Instr} {s u : State} (event : FlitEvent f c kind i)
    (rejected : s.arrive f kind = (u, none)) : exec i s = .next u := by
  cases event
  case request =>
    show execRequestFlit f s = _
    unfold execRequestFlit
    rw [rejected]
  case response =>
    show execResponseFlit f s = _
    unfold execResponseFlit
    rw [rejected]
  case collective =>
    show execCollectiveFlit f c s = _
    unfold execCollectiveFlit
    rw [rejected]

section
variable {s : State} {f : Flit} {t : Stream} (stream : mget s.streams f.stream = some t)
include stream

theorem arrive_down {kind : Nat} (down : t.state ≠ .up) : s.arrive f kind = (s, none) := by
  unfold State.arrive
  rw [stream]
  exact if_pos (.inr (.inl down))

section
variable {kind : Nat} (type : f.kind = kind) (up : t.state = .up) (retries : t.retries < 16)
include type up retries

/-- A flit for a stream in UP that has not failed 16 times: the CRC, the generation and the sequence are checked, then the tag. -/
theorem arrive_live :
    s.arrive f kind =
      if f.crcOk = false then (s.askAgain f.stream t t.tagFailed, none)
      else if f.keygen ≠ t.keygen ∨ f.seq < t.rx then (s, none)
      else if t.rx < f.seq then (s.askAgain f.stream t t.tagFailed, none)
      else if s.tagOk t f then (s.setStream f.stream { t with rx := t.rx + 1, retries := 0, tagFailed := false }, some t)
      else if t.tagFailed then ((s.sendFlit f.stream 4 false 0 [] none).streamDown f.stream, none)
      else (s.askAgain f.stream t true, none) := by
  unfold State.arrive
  rw [stream]
  exact if_neg (by simp [type, up, retries])

theorem arrive_badCrc (crc : f.crcOk = false) : s.arrive f kind = (s.askAgain f.stream t t.tagFailed, none) := by
  rw [arrive_live stream type up retries, if_pos crc]

variable (crc : f.crcOk = true)
include crc

theorem arrive_stale (stale : f.keygen ≠ t.keygen ∨ f.seq < t.rx) : s.arrive f kind = (s, none) := by
  rw [arrive_live stream type up retries, if_neg (by simp [crc]), if_pos stale]

variable (gen : f.keygen = t.keygen)
include gen

theorem arrive_ahead (ahead : t.rx < f.seq) : s.arrive f kind = (s.askAgain f.stream t t.tagFailed, none) := by
  rw [arrive_live stream type up retries, if_neg (by simp [crc]), if_neg (by simp [gen]; omega), if_pos ahead]

/-- The first failure of a tag asks for a retry, the second one tears the stream down. -/
theorem arrive_badTag (seq : f.seq = t.rx) (tag : s.tagOk t f = false) :
    s.arrive f kind = if t.tagFailed then ((s.sendFlit f.stream 4 false 0 [] none).streamDown f.stream, none)
      else (s.askAgain f.stream t true, none) := by
  rw [arrive_live stream type up retries, if_neg (by simp [crc]), if_neg (by simp [gen, seq]), if_neg (by omega), if_neg (by simp [tag])]

end

end

/-! Accepted flits (R20, R67, R156, R163). -/

section
variable {s u : State} {f : Flit} {t : Stream}

theorem exec_requestFlit_spent (accepted : s.arrive f 1 = (u, some t)) (spent : t.spent = true) :
    exec (.requestFlit f) s = .next s := by
  show execRequestFlit f s = _
  unfold execRequestFlit
  rw [accepted]
  exact congrArg _ (if_pos spent)

/-- An accepted request is performed, and what becomes of it is answered. -/
theorem exec_requestFlit_serves (accepted : s.arrive f 1 = (u, some t)) (fresh : t.spent = false) :
    exec (.requestFlit f) s = .next (match u.serve t.enclave f with
      | .wait => s
      | .search => s.startSearch (f.va.toNat % 2 ^ 48) (askBytes f)
      | .refused => u.sendFlit f.stream 2 false (BitVec.ofNat 64 f.seq) [] none
      | .done v bs => v.sendFlit f.stream 2 false (BitVec.ofNat 64 f.seq) bs none) := by
  show execRequestFlit f s = _
  unfold execRequestFlit
  rw [accepted]
  exact congrArg _ (if_neg (by simp [fresh]))

theorem exec_responseFlit_completes {k : Nat} {r : FarReq} (accepted : s.arrive f 2 = (u, some t))
    (names : (u.far.find? fun q => q.2.via == .link f.stream && q.2.seq == f.va.toNat) = some (k, r)) :
    exec (.responseFlit f) s = .next (u.farDone k f.data) := by
  show execResponseFlit f s = _
  unfold execResponseFlit
  rw [accepted]
  dsimp only
  rw [names]

section
variable {c : Contrib} {g : Coll} (accepted : s.arrive f 3 = (u, some t)) (group : mget u.colls c.group = some g)
  (mine : g.enclave = t.enclave) (member : t.peer ∈ g.members)
include accepted group mine member

theorem exec_collectiveFlit_contributes (isOpen : g.state = .valid ∨ g.state = .building)
    (contributes : g.state = .valid ∨ noticeStatus c.form = none) :
    exec (.collectiveFlit f c) s = .next { u with colls := mset u.colls c.group (g.receive t.peer c f.data) } := by
  show execCollectiveFlit f c s = _
  unfold execCollectiveFlit
  rw [accepted]
  dsimp only
  rw [group]
  refine congrArg _ ((if_pos ⟨mine, by simpa using member, isOpen⟩).trans ?_)
  rcases contributes with valid | noNotice
  · rw [valid]
  · rw [noNotice]
    cases g.state <;> rfl

theorem exec_collectiveFlit_givesUp {st : BitVec 8} (building : g.state = .building) (notice : noticeStatus c.form = some st) :
    exec (.collectiveFlit f c) s =
      .next (({ u with colls := mset u.colls c.group { g with state := .invalid } } : State).finishOp g.build st) := by
  show execCollectiveFlit f c s = _
  unfold execCollectiveFlit
  rw [accepted]
  dsimp only
  rw [group]
  refine congrArg _ ((if_pos ⟨mine, by simpa using member, .inr building⟩).trans ?_)
  rw [building, notice]

end

/-! A request is performed on pages that are not moving, of the bound enclave, in lines without an error (R20, R156). -/

theorem State.serve_waits {e : Nat} (moving : ∃ p ∈ pagesAt (f.va.toNat % 2 ^ 48) (askBytes f), (u.potOf p).state = .moving) :
    u.serve e f = .wait := by
  unfold State.serve
  exact if_pos (by simpa using moving)

section
variable {e : Nat} (still : ∀ p ∈ pagesAt (f.va.toNat % 2 ^ 48) (askBytes f), (u.potOf p).state ≠ .moving)
include still

theorem State.serve_refuses
    (foreign : ∃ p ∈ pagesAt (f.va.toNat % 2 ^ 48) (askBytes f), u.farPage e p (f.write || f.atomic.isSome) = false) :
    u.serve e f = .refused := by
  unfold State.serve
  dsimp only
  rw [if_neg (by simpa using still)]
  exact if_pos (by simpa using foreign)

theorem State.serve_performs (mine : ∀ p ∈ pagesAt (f.va.toNat % 2 ^ 48) (askBytes f), u.farPage e p (f.write || f.atomic.isSome) = true)
    (fine : u.linesState (f.write || f.atomic.isSome) (f.va.toNat % 2 ^ 48) (askBytes f) = .fine) :
    u.serve e f =
      let pa := f.va.toNat % 2 ^ 48
      let old := readBytes u.mem pa (askBytes f)
      match f.atomic with
      | some a => .done (u.poke pa (leBytes (askBytes f) (atomNew a.op a.t a.mode (leNat old) a.v a.v2))) old
      | none => .done (if f.write then u.poke pa f.data else u) old := by
  unfold State.serve
  dsimp only
  rw [if_neg (by simpa using still), if_neg (by simpa using mine), fine] <;> rfl

end

end

/-! The life of streams (R155, R156, R158 to R161). -/

section
variable {s : State} {n : Nat} {t : Stream} (stream : mget s.streams n = some t)
include stream

theorem exec_teardownFlit_down (down : t.state = .down) : exec (.teardownFlit n) s = .next s := by
  show Host.Outcome.next (s.streamDown n) = _
  unfold State.streamDown
  rw [stream]
  exact congrArg _ (if_pos down)

/-- A teardown ends the work that used the stream, and the collectives of its enclave with the peer unless another stream leads
there. -/
theorem exec_teardownFlit_falls (live : t.state ≠ .down) :
    let u := (s.setStream n { t with state := .down, retries := 0, tagFailed := false, asked := (0, 0) }).cutWork t.enclave (.link n)
    exec (.teardownFlit n) s = .next (if (u.streamUp t.enclave t.peer).isSome then u
      else (u.collsWith t.enclave t.peer).foldl State.collLink u) := by
  intro u
  show Host.Outcome.next (s.streamDown n) = _
  unfold State.streamDown
  rw [stream]
  exact congrArg _ (if_neg live)

theorem exec_flitRetry_up (seq : Nat) (up : t.state = .up) :
    exec (.flitRetry n seq) s = .next (s.setStream n { t with
      asked := (seq, if t.asked.1 = seq then t.asked.2 + 1 else 1), retried := t.retried + 1 }) := by
  show execFlitRetry n seq s = _
  unfold execFlitRetry
  rw [stream]
  refine congrArg _ ((if_neg (not_not_intro up)).trans ?_)
  split <;> rfl

theorem exec_flitRetry_other (seq : Nat) (other : t.state ≠ .up) : exec (.flitRetry n seq) s = .next s := by
  show execFlitRetry n seq s = _
  unfold execFlitRetry
  rw [stream]
  exact congrArg _ (if_pos other)

end

theorem Stream.exhausted_iff {t : Stream} : t.exhausted = true ↔ 16 ≤ t.retries ∨ 16 ≤ t.asked.2 := by
  simp [Stream.exhausted]

/-- The streams of a port that are not down. -/
def State.portStreams (s : State) (port : Nat) : List (Nat × Stream) :=
  s.streams.filter fun t => t.2.port == port && t.2.state != .down

theorem exec_linkPortDown_fails {s : State} {port : Nat}
    (exhausted : ∃ t ∈ s.portStreams port, 16 ≤ t.2.retries ∨ 16 ≤ t.2.asked.2) :
    exec (.linkPortDown port) s = .next (((s.portStreams port).map Prod.fst).foldl State.streamDown
      { s with funcs := mset s.funcs (.link port) (.failed 0) }) := by
  obtain ⟨t, mem, many⟩ := exhausted
  exact congrArg _ (if_pos (List.any_eq_true.mpr ⟨t, mem, Stream.exhausted_iff.mpr many⟩))

theorem exec_linkPortDown_stays {s : State} {port : Nat}
    (few : ∀ t ∈ s.portStreams port, t.2.retries < 16 ∧ t.2.asked.2 < 16) :
    exec (.linkPortDown port) s = .next s := by
  refine congrArg _ (if_neg fun any => ?_)
  obtain ⟨t, mem, many⟩ := List.any_eq_true.mp any
  have := few t mem
  have := Stream.exhausted_iff.mp many
  omega

/-! Keying (R155, R156, R160). -/

theorem getD_mod_mem {l : List Nat} (ready : l ≠ []) (k d : Nat) : l.getD (k % l.length) d ∈ l := by
  have inside : k % l.length < l.length := Nat.mod_lt _ (List.length_pos_iff.mpr ready)
  rw [List.getD_eq_getElem _ _ inside]
  exact List.getElem_mem inside

/-- The port of a stream that is keyed: its own while it is ready, else a ready one. -/
theorem keyedPort_mem {ports : List Nat} (ready : ports ≠ []) (old k : Nat) :
    let port := if ports.contains old then old else ports.getD (k % ports.length) 0
    port ∈ ports ∧ (old ∈ ports → port = old) := by
  intro port
  by_cases mem : old ∈ ports
  · have same : port = old := if_pos (by simpa using mem)
    exact ⟨same ▸ mem, fun _ => same⟩
  · have other : port = _ := if_neg (by simpa using mem)
    exact ⟨other ▸ getD_mod_mem ready k 0, fun h => absurd h mem⟩

section
variable {s : State} {n e peer p dev : Nat}

/-- The root of trust refuses a peer of another P, one of this package's F, and one whose F or identity another peer has. -/
theorem State.peerOk_refuses
    (refused : p ≠ s.fabricP ∨ peer = s.fabricF ∨ ∃ q ∈ s.peers, (q.1 = peer ∧ q.2 ≠ dev) ∨ (q.1 ≠ peer ∧ q.2 = dev)) :
    s.peerOk e peer p dev = false := by
  rw [Bool.eq_false_iff]
  intro ok
  simp only [State.peerOk, Bool.and_eq_true, beq_iff_eq, bne_iff_ne, decide_eq_true_eq, List.all_eq_true] at ok
  obtain ⟨⟨⟨⟨-, sameP⟩, -⟩, otherF⟩, known⟩ := ok
  rcases refused with otherP | sameF | ⟨q, mem, ⟨same, other⟩ | ⟨other, same⟩⟩
  · exact otherP sameP
  · exact otherF sameF
  · simpa [same, other] using known q mem
  · simpa [same, other] using known q mem

theorem exec_streamKeying_refuses (refused : s.peerOk e peer p dev = false) (done : Bool) :
    exec (.streamKeying n e ⟨peer, p, dev, done⟩) s = .next s :=
  congrArg _ (if_pos (.inl refused))

variable (ok : s.peerOk e peer p dev = true) (ready : s.readyPorts ≠ [])
include ok ready

theorem exec_streamKeying_begins (fresh : mget s.streams n = none) (room : s.streams.length < 1024) (number : n < 65536) :
    ∃ port ∈ s.readyPorts, exec (.streamKeying n e ⟨peer, p, dev, false⟩) s =
      .next (({ s with peers := mset s.peers peer dev } : State).setStream n ⟨e, peer, port, .keying, 0, 0, 0, 0, false, (0, 0), 0, 0⟩) := by
  refine ⟨_, getD_mod_mem ready (Config.freeNat (.choice 4003) s.free) 0, ?_⟩
  show execStreamKeying n e ⟨peer, p, dev, false⟩ s = _
  unfold execStreamKeying
  dsimp only
  rw [if_neg (by simp [ok, ready]), fresh]
  exact congrArg _ (if_neg (by simp; omega))

section
variable {t : Stream} (stream : mget s.streams n = some t) (mine : t.enclave = e) (same : t.peer = peer)
include stream mine same

/-- A stream that is not keyed is taken into KEYING, on its own port while that is ready, once nothing is in flight on it. -/
theorem exec_streamKeying_drains :
    let known := { s with peers := mset s.peers peer dev }
    let port := if s.readyPorts.contains t.port then t.port
      else s.readyPorts.getD (Config.freeNat (.choice 4003) s.free % s.readyPorts.length) 0
    exec (.streamKeying n e ⟨peer, p, dev, false⟩) s = .next (
      if t.state = .keying ∨ s.inFlight n t then known else known.setStream n { t with state := .keying, port := port }) := by
  intro known port
  show execStreamKeying n e ⟨peer, p, dev, false⟩ s = _
  unfold execStreamKeying
  dsimp only
  rw [if_neg (by simp [ok, ready]), stream]
  exact congrArg _ ((if_neg (by simp [mine, same])).trans (if_neg Bool.false_ne_true))

theorem exec_streamKeying_establishes :
    let known := { s with peers := mset s.peers peer dev }
    exec (.streamKeying n e ⟨peer, p, dev, true⟩) s = .next (
      if t.state = .keying then
        ({ known with keys := s.keys + 1 } : State).setStream n ⟨e, peer, t.port, .up, t.keygen + 1, 0, 0, 0, false, (0, 0), t.retried, s.keys⟩
      else known) := by
  subst mine same
  show execStreamKeying n t.enclave ⟨t.peer, p, dev, true⟩ s = _
  unfold execStreamKeying
  dsimp only
  rw [if_neg (by simp [ok, ready]), stream]
  exact congrArg _ ((if_neg (by simp)).trans (if_pos rfl))

end

end

/-! The host link (R67, R120, R161). -/

section
variable {s : State} {k : Nat} {d : Ide} (interface : mget s.ides k = some d)
include interface

theorem exec_ideStreamFailure_falls (live : d.state ≠ .down) :
    exec (.ideStreamFailure k) s = .next ((s.setIde k { d with state := .down, run := false }).cutWork d.enclave (.ide k)) := by
  show Host.Outcome.next (s.ideDown k) = _
  unfold State.ideDown
  rw [interface]
  exact congrArg _ (if_neg live)

theorem exec_ideStreamFailure_down (down : d.state = .down) : exec (.ideStreamFailure k) s = .next s := by
  show Host.Outcome.next (s.ideDown k) = _
  unfold State.ideDown
  rw [interface]
  exact congrArg _ (if_pos down)

theorem exec_ideStreamRequest_idle (write : Bool) (va : BitVec 64) (data : List Byte) (idle : d.state ≠ .up ∨ d.run = false) :
    exec (.ideStreamRequest k write va data) s = .next s := by
  show execIdeStreamRequest k write va data s = _
  unfold execIdeStreamRequest
  rw [interface]
  exact congrArg _ (if_pos (by tauto))

/-- A device in RUN reads and writes the memory of the enclave that it is bound to, where every page of the range translates. -/
theorem exec_ideStreamRequest_performs {write : Bool} {va : BitVec 64} {data : List Byte} {ps : List (Nat × Nat × Nat)}
    (up : d.state = .up) (run : d.run = true) (carries : data ≠ [])
    (translates : (pageRuns (data.length / 4096 + 2) va data.length).mapM (fun r =>
      match s.translate none d.enclave r.1 (if write then .store else .load) r.2 with
      | .ok pa leaf => some (pa, leaf.cls, r.2)
      | _ => none) = some ps) :
    exec (.ideStreamRequest k write va data) s =
      .next (if write then s.writePieces ps data else s.setIde k { d with answer := s.readPieces ps }) := by
  show execIdeStreamRequest k write va data s = _
  unfold execIdeStreamRequest
  rw [interface]
  dsimp only
  rw [if_neg (by simp [up, run, carries]), mapM_bridge _ _ (fun r place found => ?_) _ ps translates]
  split at found
  · next translated =>
    rw [translated]
    cases found
    rfl
  · cases found

end

theorem exec_tdispBinding_binds {s : State} {k e : Nat} (run : Bool) (number : k < 64) (measured : (s.encl e).state = .measured)
    (ready : s.fnState .pcie = .ready) :
    exec (.tdispBinding k e run) s = .next ((s.ideDown k).setIde k ⟨e, .up, run, []⟩) :=
  congrArg _ (if_neg (by simp [number, measured, ready]))

section
variable {s : State} {k : Nat} {r : FarReq} (ok : Bool) (data : List Byte) (waits : mget s.far k = some r)
include waits

theorem exec_ideStreamCompletion_answers {d : Nat} (device : r.via = .ide d) :
    exec (.ideStreamCompletion k ok data) s = .next (s.farDone k (if ok then data else [])) := by
  show execIdeStreamCompletion k ok data s = _
  unfold execIdeStreamCompletion
  rw [waits]
  dsimp only
  rw [device]

theorem exec_ideStreamCompletion_link {n : Nat} (link : r.via = .link n) : exec (.ideStreamCompletion k ok data) s = .next s := by
  show execIdeStreamCompletion k ok data s = _
  unfold execIdeStreamCompletion
  rw [waits]
  dsimp only
  rw [link]

end

/-- Settles O47: a flit by its checks and its type, the other events by the stream, port or device interface that they find. -/
theorem linksAndStreams : Obligations.LinksAndStreams := by
  unfold Obligations.LinksAndStreams
  refine ⟨fun s f t c stream => ?flits, fun s n t stream => ?streams, fun s port => ⟨exec_linkPortDown_fails, exec_linkPortDown_stays⟩,
    fun s n e peer p dev => ?keying, fun s k d interface => ?devices,
    fun s k e run number measured ready => exec_tdispBinding_binds run number measured ready, fun s k r ok data waits =>
      ⟨fun d device => exec_ideStreamCompletion_answers ok data waits device,
        fun n link => exec_ideStreamCompletion_link ok data waits link⟩⟩
  case streams =>
    refine ⟨exec_teardownFlit_down stream, fun live => ?_, fun up seq => exec_flitRetry_up stream seq up,
      fun other seq => exec_flitRetry_other stream seq other⟩
    have falls := exec_teardownFlit_falls stream live
    exact ⟨fun another => falls.trans (congrArg _ (if_pos (Option.isSome_iff_ne_none.mpr another))), fun last =>
      falls.trans (congrArg _ (if_neg (by simp [last])))⟩
  case keying =>
    refine ⟨fun refused done => exec_streamKeying_refuses (State.peerOk_refuses refused) done, fun ok ready =>
      ⟨exec_streamKeying_begins ok ready, fun t stream mine same => ?_⟩⟩
    have drains := exec_streamKeying_drains ok ready stream mine same
    have establishes := exec_streamKeying_establishes ok ready stream mine same
    refine ⟨fun other busy => ?_, fun other idle => ?_, fun keying => ?_, fun other => ?_⟩
    · exact drains.trans (congrArg _ (if_pos (.inr busy)))
    · obtain ⟨isReady, keeps⟩ := keyedPort_mem ready t.port (Config.freeNat (.choice 4003) s.free)
      exact ⟨_, isReady, keeps, drains.trans (congrArg _ (if_neg (by simp [other, idle])))⟩
    · exact establishes.trans (congrArg _ (if_pos keying))
    · exact establishes.trans (congrArg _ (if_neg other))
  case devices =>
    refine ⟨exec_ideStreamFailure_falls interface, exec_ideStreamFailure_down interface,
      fun write va data idle => exec_ideStreamRequest_idle interface write va data idle, fun write va data up run carries ps translates => ?_⟩
    have performs := exec_ideStreamRequest_performs interface up run carries translates
    exact ⟨fun writes => performs.trans (congrArg _ (if_pos writes)), fun reads => performs.trans (congrArg _ (if_neg (by simp [reads])))⟩
  case flits =>
    intro u again live inTurn pa n write answers
    refine ⟨fun ⟨up, retries⟩ ⟨crc, gen, seq⟩ tag => ?accepted, fun i mem type => ?rejected⟩
    case accepted =>
      have accepted : ∀ kind, f.kind = kind → s.arrive f kind = (u, some t) := fun kind type =>
        arrive_ok stream type up retries crc gen seq tag
      refine ⟨fun type spent => exec_requestFlit_spent (accepted 1 type) spent, fun type fresh => ?request,
        fun type k r names => exec_responseFlit_completes (accepted 2 type) names,
        fun type g group mine member isOpen => ?collective⟩
      case request =>
        have serves := exec_requestFlit_serves (accepted 1 type) fresh
        refine ⟨fun moving => ?_, fun still => ⟨fun foreign => ?_, fun mine fine => ?_⟩⟩
        · rw [serves, State.serve_waits (u := u) moving]
        · exact serves.trans (by rw [State.serve_refuses (u := u) still foreign])
        · have performs := State.serve_performs (u := u) still mine fine
          refine ⟨fun plain reads => ?_, fun plain writes => ?_, fun a atomic => ?_⟩
          · rw [plain, reads] at performs
            exact serves.trans (by rw [performs] <;> rfl)
          · rw [plain, writes] at performs
            exact serves.trans (by rw [performs] <;> rfl)
          · rw [atomic] at performs
            exact serves.trans (by rw [performs] <;> rfl)
      case collective =>
        exact ⟨exec_collectiveFlit_contributes (accepted 3 type) group mine member isOpen, fun building st notice =>
          exec_collectiveFlit_givesUp (accepted 3 type) group mine member building notice⟩
    case rejected =>
      have event := FlitEvent.of_mem mem
      refine ⟨fun down => event.exec_rejected (arrive_down stream down), fun ⟨up, retries⟩ =>
        ⟨fun crc => event.exec_rejected (arrive_badCrc stream type up retries crc),
        fun crc stale => event.exec_rejected (arrive_stale stream type up retries crc stale),
        fun crc gen ahead => event.exec_rejected (arrive_ahead stream type up retries crc gen ahead), ?_, ?_⟩⟩
      · exact fun ⟨crc, gen, seq⟩ tag first =>
          event.exec_rejected ((arrive_badTag stream type up retries crc gen seq tag).trans (if_neg (by simp [first])))
      · exact fun ⟨crc, gen, seq⟩ tag second =>
          event.exec_rejected ((arrive_badTag stream type up retries crc gen seq tag).trans (if_pos second))

end Sys2Proof.Machine
end

section
/-! PROOF. The progress of engine operations (R79, R121, R127, R132, R133, R135, R149), the events of ejected paths and of landings
(R189, R192, R193, R198), and the ends of translations (R209, R219). -/

namespace Sys2Proof.Machine

/-! The beginning of a gather or scatter (R344). -/

theorem State.beginRows_begun {s : State} {k : Nat} {o : EngOp} (begun : o.cls ≠ 1 ∨ o.rows.length = numOf o.vals 3) :
    s.beginRows k o = (s, o) :=
  if_pos begun

/-- Beginning changes the operation alone, and not its team. -/
theorem State.beginRows_ops {s : State} {k : Nat} {o : EngOp} (op : mget s.ops k = some o) :
    ∃ ops : List (Nat × EngOp), (s.beginRows k o).1 = { s with ops := ops } ∧ (s.beginRows k o).2.team = o.team ∧
      ∀ j, (mget ops j).map EngOp.team = (mget s.ops j).map EngOp.team := by
  by_cases begun : o.cls ≠ 1 ∨ o.rows.length = numOf o.vals 3
  · rw [State.beginRows_begun begun]
    exact ⟨s.ops, rfl, rfl, fun _ => rfl⟩
  · unfold State.beginRows
    dsimp only
    rw [if_neg begun]
    refine ⟨_, rfl, rfl, fun j => ?_⟩
    rw [mget_mset]
    split
    · next same =>
      rw [same, op]
      rfl
    · rfl

section
variable {s : State} {ops : List (Nat × EngOp)} (teams : ∀ j, (mget ops j).map EngOp.team = (mget s.ops j).map EngOp.team)
include teams

/-- Of the operations, only their teams bear on which cores an access stalls. -/
theorem State.waiterCores_ops (w : Waiter) : ({ s with ops := ops } : State).waiterCores w = s.waiterCores w := by
  cases w
  case eng op =>
    have cores := congrArg (fun t : Option Nat => (t.map fun n => (s.team n).core).toList) (teams op)
    simp only [Option.map_map] at cores
    exact cores
  all_goals rfl

theorem State.coreStalled_ops (core : Nat) : ({ s with ops := ops } : State).coreStalled core = s.coreStalled core := by
  unfold State.coreStalled
  simp only [State.waiterCores_ops teams]

theorem State.replayLater_ops (core : Nat) (w : Waiter) : ({ s with ops := ops } : State).replayLater core w = s.replayLater core w := by
  unfold State.replayLater State.replaysOf
  simp only [State.waiterCores_ops teams]

end

/-! Steps (R121). -/

theorem State.mayLand_iff {s : State} {k n : Nat} {o : EngOp} :
    s.mayLand k o n = true ↔ o.status = futPending ∧ n < o.total ∧ o.did n = false ∧ (s.team o.team).resident = true ∧
      s.waiting (.eng k) = false ∧ (o.cancel = true → o.cls < 2 → n < o.started) ∧
      (o.cls < 3 → s.coreStalled (s.team o.team).core = false) ∧ s.replayLater (s.team o.team).core (.eng k) = false := by
  have stops : ((o.cancel = false ∨ 2 ≤ o.cls) ∨ n < o.started) ↔ (o.cancel = true → o.cls < 2 → n < o.started) := by
    cases o.cancel
    · simp
    · simp only [Bool.true_eq_false, false_or, true_imp_iff]
      omega
  have stalls : (3 ≤ o.cls ∨ s.coreStalled (s.team o.team).core = false) ↔ (o.cls < 3 → s.coreStalled (s.team o.team).core = false) := by
    rw [← not_lt, ← imp_iff_not_or]
  unfold State.mayLand
  simp only [Bool.and_eq_true, Bool.or_eq_true, beq_iff_eq, decide_eq_true_eq, Bool.not_eq_true', and_assoc, stops, stalls]

section
variable {s : State} {k : Nat} {o : EngOp} (op : mget s.ops k = some o)
include op

theorem exec_engineGranuleLand (n : Nat) :
    let core := (s.team o.team).core
    let u := (s.beginRows k o).1
    let q := (s.beginRows k o).2
    exec (.engineGranuleLand k n) s = .next (if u.mayLand k q n = false then u
      else if q.cls < 3 && u.coreErrs.contains core then u.arrayFault core
      else ((u.replayed (.eng k)).coreRead core).performStep k q n) := by
  intro core u q
  show execEngineGranuleLand k n s = _
  unfold execEngineGranuleLand
  rw [op]

/-- Whether a step may land is decided as if the operation had begun already. -/
theorem State.mayLand_beginRows {n : Nat} :
    let t := s.team o.team
    let q := (s.beginRows k o).2
    (s.beginRows k o).1.mayLand k q n = true ↔ q.status = futPending ∧ n < q.total ∧ q.did n = false ∧ t.resident = true ∧
      s.waiting (.eng k) = false ∧ (q.cancel = true → q.cls < 2 → n < q.started) ∧
      (q.cls < 3 → s.coreStalled t.core = false) ∧ s.replayLater t.core (.eng k) = false := by
  intro t q
  obtain ⟨ops, same, team, teams⟩ := State.beginRows_ops op
  rw [State.mayLand_iff, same, State.coreStalled_ops teams, State.replayLater_ops teams, team]
  rfl

theorem State.coreErrs_beginRows : (s.beginRows k o).1.coreErrs = s.coreErrs := by
  obtain ⟨ops, same, -⟩ := State.beginRows_ops op
  rw [same]

end

/-- A step is performed by the class of its operation. -/
theorem State.performStep_by_class (s : State) (k : Nat) (o : EngOp) (n : Nat) :
    (o.cls = 0 → s.performStep k o n = s.stepOp k n o (if o.sub % 8 < 4 then s.linearStep k o n else s.tensorStep k o n)) ∧
    (o.cls = 1 → s.performStep k o n = s.stepOp k n o (if o.sub % 8 = 1 then s.scatterStep k o n else s.gatherStep k o n)) ∧
    (o.cls = 2 → s.performStep k o n = s.matrixStep k o n) ∧ (o.cls = 3 → s.performStep k o n = s.collStep k o n) ∧
    (o.cls = 4 → s.performStep k o n = s.sealStep k o n) := by
  refine ⟨fun cls => ?_, fun cls => ?_, fun cls => ?_, fun cls => ?_, fun cls => ?_⟩ <;> simp only [State.performStep, cls]

/-! Completion (R132, R133, R135). -/

theorem EngOp.settled_iff {o : EngOp} : o.settled = true ↔ ∀ n, n < o.started → o.did n = true := by
  simp [EngOp.settled, List.all_eq_true]

section
variable {s : State} {k : Nat} {o : EngOp} (op : mget s.ops k = some o) (pending : o.status = futPending)
  (resident : (s.team o.team).resident = true) (free : s.waiting (.eng k) = false) (class_ : o.cls < 5)
include op pending resident free class_

theorem exec_engineOpComplete :
    exec (.engineOpComplete k) s = .next (if o.cls = 3 then s.collFinish k o
      else if o.cancel then s.cancelNow k o
      else if (List.range o.total).all o.did && (o.cls != 2 || s.mayRun k o) then s.finishOp k o.final
      else s) := by
  show execEngineOpComplete k s = _
  unfold execEngineOpComplete
  rw [op]
  exact congrArg _ (if_neg (by simp [pending, resident, free]; omega))

end

/-! Ejected paths (R189, R192, R198). They go on while a handler has the group frozen. -/

/-- The state with a group's frozen context as its running one. -/
def State.thawed (s : State) (gid : Nat) : State :=
  match (s.group gid).handler with
  | none => s
  | some h => s.setGroup gid { s.group gid with ctx := h.frozen, handler := none }

/-- A state that was reached from the thawed one, with the group's context frozen again under its handler. -/
def State.refrozen (s : State) (gid : Nat) (u : State) : State :=
  match (s.group gid).handler with
  | none => u
  | some h => u.setGroup gid { u.group gid with ctx := (s.group gid).ctx, handler := some { h with frozen := (u.group gid).ctx } }

theorem State.onFrozen_eq (s : State) (gid : Nat) (f : State → State) : s.onFrozen gid f = s.refrozen gid (f (s.thawed gid)) := by
  unfold State.onFrozen State.refrozen State.thawed
  dsimp only
  cases (s.group gid).handler <;> rfl

theorem exeOf_fields {s : State} {gid pid : Nat} {x : Exe} (hx : s.exeOf gid pid = some x) :
    x.gid = gid ∧ x.pid = pid ∧ s.group gid = x.g ∧ mget x.g.ctx.paths pid = some x.p := by
  obtain ⟨group, path, -, cur⟩ := exe_group hx
  cases cur
  exact ⟨rfl, rfl, group, path⟩

section
variable {s : State} {gid pid : Nat} {x : Exe} (hx : (s.thawed gid).exeOf gid pid = some x)
include hx

theorem State.onPlaced_eq (f : Exe → State) : s.onPlaced gid pid f = s.refrozen gid (f (x.upon (s.thawed gid))) := by
  unfold State.onPlaced
  rw [State.onFrozen_eq, hx]
  rfl

theorem exec_ejectHandoverDone_hands {k : Nat} (place : x.p.place = .handing k) :
    exec (.ejectHandoverDone gid pid) s =
      .next (s.refrozen gid ((x.upon (s.thawed gid)).put (x.g.setPath x.pid { x.p with place := .gallery k }))) := by
  refine congrArg Host.Outcome.next ((State.onPlaced_eq hx _).trans (congrArg _ ?_))
  dsimp only [Exe.upon]
  rw [place]

theorem exec_copyBackDone_lands {k : Nat} {r : LandRec} (place : x.p.place = .copying k)
    (landing : x.p.pend.head?.bind x.g.ctx.rcd = some r) :
    exec (.copyBackDone gid pid) s = .next (s.refrozen gid ((x.upon (s.thawed gid)).land r)) := by
  refine congrArg Host.Outcome.next ((State.onPlaced_eq hx _).trans (congrArg _ ?_))
  dsimp only [Exe.upon]
  rw [place]
  dsimp only
  rw [landing]

/-- Whether a path owes a trap that waits for the end of a handler. -/
theorem owes_iff :
    (((s.group gid).handler.bind fun h => mget h.frozen.paths pid).any fun q => q.owed.isSome) = true ↔
      (s.group gid).handler ≠ none ∧ x.p.owed ≠ none := by
  obtain ⟨-, -, group, path⟩ := exeOf_fields hx
  unfold State.thawed at group
  cases frozen : (s.group gid).handler with
  | none => simp
  | some h =>
    rw [frozen] at group
    simp only [State.group_setGroup] at group
    have same : mget h.frozen.paths pid = some x.p := by
      rw [← path, ← group]
    simp [same, Option.isSome_iff_ne_none]

theorem exec_recallDone_waits (handler : (s.group gid).handler ≠ none) (owed : x.p.owed ≠ none) :
    exec (.recallDone gid pid) s = .next s :=
  congrArg Host.Outcome.next (if_pos ((owes_iff hx).mpr ⟨handler, owed⟩))

section
variable (goes : (s.group gid).handler = none ∨ x.p.owed = none)
include goes

theorem exec_recallDone :
    exec (.recallDone gid pid) s = .next (s.refrozen gid (match x.p.place with
      | .recalling k => (x.upon (s.thawed gid)).recallDone k
      | .core | .handing _ | .gallery _ | .copying _ => s.thawed gid)) := by
  refine congrArg Host.Outcome.next ((if_neg fun owes => ?_).trans (State.onPlaced_eq hx _))
  obtain ⟨handler, owed⟩ := (owes_iff hx).mp owes
  exact goes.elim handler owed

theorem exec_recallDone_recalls {k : Nat} (place : x.p.place = .recalling k) :
    exec (.recallDone gid pid) s = .next (s.refrozen gid ((x.upon (s.thawed gid)).recallDone k)) := by
  rw [exec_recallDone hx goes, place]

/-- None of the events changes a path that is on its core. -/
theorem exec_onCore_stays (place : x.p.place = .core) :
    ∀ i ∈ [Instr.ejectHandoverDone gid pid, .copyBackDone gid pid, .recallDone gid pid],
      exec i s = .next (s.refrozen gid (s.thawed gid)) := by
  have placed : ∀ f : Exe → State, f (x.upon (s.thawed gid)) = s.thawed gid → s.onPlaced gid pid f = s.refrozen gid (s.thawed gid) :=
    fun f stays => (State.onPlaced_eq hx f).trans (congrArg _ stays)
  refine List.forall_mem_cons.mpr ⟨congrArg Host.Outcome.next (placed _ ?_),
    List.forall_mem_cons.mpr ⟨congrArg Host.Outcome.next (placed _ ?_), List.forall_mem_singleton.mpr ?_⟩⟩
  · dsimp only [Exe.upon]
    rw [place]
  · dsimp only [Exe.upon]
    rw [place]
  · rw [exec_recallDone hx goes, place]

end

end

theorem Exe.recallDone_32 (x : Exe) : x.recallDone 32 = x.reeject := if_pos rfl

section
variable {x : Exe} {k : Nat} (core : k ≠ 32)
include core

theorem Exe.recallDone_overflows (full : x.g.ctx.recallOverflows = true) :
    x.recallDone k = x.put (x.g.setPath x.pid { x.p with place := .gallery k, owed := none }) :=
  (if_neg core).trans (if_pos full)

section
variable (room : x.g.ctx.recallOverflows = false)
include room

theorem Exe.recallDone_returns (free : x.p.owed = none) : x.recallDone k = (x.put x.recalled).settleGroup x.gid := by
  refine (if_neg core).trans ((if_neg (by simp [room])).trans ?_)
  dsimp only
  rw [free]

/-- A path that was recalled for a trap takes it once it is on the core. -/
theorem Exe.recallDone_traps {t : TrapInfo} (owes : x.p.owed = some t) :
    x.recallDone k = ((x.put x.recalled).settleGroup x.gid).takeTrapOr x.gid x.pid { x.p with place := .core } t
      fun fn => x.s.awaitTrans x.gid x.pid fn x.p := by
  refine (if_neg core).trans ((if_neg (by simp [room])).trans ?_)
  split
  · next free => exact absurd (free.symm.trans owes) (by simp)
  · next t' same =>
    cases same.symm.trans owes
    rfl

end

end

/-! Landing timers (R193, R194). -/

section
variable {s : State} {gid u : Nat} {r : LandRec} (landing : (s.group gid).ctx.rcd u = some r) (timer : r.timer = true)
  (running : (s.group gid).handler = none) (runs : (s.group gid).stopped = false)
include landing timer running runs

theorem exec_landingTimerExpiry :
    exec (.landingTimerExpiry gid u) s = .next (
      if (s.launch (s.team (s.group gid).team).launch).watchdog then s.joinTimeout gid r
      else s.setGroup gid { s.group gid with ctx := (s.group gid).ctx.setRcd { r with timer := false } }) := by
  show execLandingTimerExpiry gid u s = _
  unfold execLandingTimerExpiry
  dsimp only
  rw [landing]
  exact congrArg _ (if_neg (by simp [timer, running, runs]))

end

/-! Ends of translations (R209, R219). -/

section
variable {s v : State} {b : Building} {o : CodeObj} {f : FnEntry} {bs : List Byte} (obj : mget s.objs b.obj = some o)
  (entry : s.fnEntry b.obj b.fn = some f) (n : Nat)
  (code : State.hwTake { s with building := mdel s.building n } (some (hallTlb b.hall)) b.enclave f.entry .code f.len = .ok (v, bs))
include obj entry code

theorem State.grafted_ok :
    State.grafted { s with building := mdel s.building n } b.enclave b.obj b.fn b.width b.budget b.hall =
      .ok (v, some (graftOf b.enclave b.obj o b.fn f b.width b.budget b.hall (wordsIn bs))) := by
  have same : State.fnEntry { s with building := mdel s.building n } b.obj b.fn = some f := entry
  unfold State.grafted
  rw [same]
  dsimp only
  rw [obj]
  dsimp only
  rw [code]
  rfl

theorem State.endBuilding_marked (marked : b.marked = true) :
    s.endBuilding n b = v.chargeGraft (graftOf b.enclave b.obj o b.fn f b.width b.budget b.hall (wordsIn bs)) := by
  unfold State.endBuilding
  dsimp only
  rw [if_pos marked, State.grafted_ok obj entry n code]

theorem State.endBuilding_installs (unmarked : b.marked = false)
    (fresh : s.findTrans b.enclave b.obj b.fn b.width b.budget b.hall = none) :
    s.endBuilding n b = v.install (graftOf b.enclave b.obj o b.fn f b.width b.budget b.hall (wordsIn bs)) := by
  have graft : State.graft { s with building := mdel s.building n } b.enclave b.obj b.fn b.width b.budget b.hall =
      .ok (v.install (graftOf b.enclave b.obj o b.fn f b.width b.budget b.hall (wordsIn bs))) := by
    have same : State.findTrans { s with building := mdel s.building n } b.enclave b.obj b.fn b.width b.budget b.hall = none := fresh
    unfold State.graft
    rw [if_neg (by simp [same]), State.grafted_ok obj entry n code, Except.map, Option.map_some, Option.getD_some]
  unfold State.endBuilding
  dsimp only
  rw [if_neg (by simp [unmarked]), graft]

end

/-- Settles O46: steps and completions by the state of the operation, the events of paths by the path's place, the other events by
the landing or the building that they find. -/
theorem enginesAndTranslations : Obligations.EnginesAndTranslations := by
  unfold Obligations.EnginesAndTranslations
  refine ⟨fun s k o op => ?engines, fun s gid pid x => ?paths, fun s gid u r => ?timers, fun s e fn width budget n hdr b found => ?translations⟩
  case engines =>
    intro t u q
    have step := exec_engineGranuleLand op
    have may := fun n => State.mayLand_beginRows op (n := n)
    refine ⟨fun begun => ?begun, fun n pending inRange undone resident free stop goes first => ?lands, fun n idle => ?idle,
      fun pending resident free class_ => ?ends, fun g p => rfl⟩
    case begun =>
      have same : s.beginRows k o = (s, o) := State.beginRows_begun begun
      exact ⟨congrArg Prod.fst same, congrArg Prod.snd same⟩
    case lands =>
      have landing := (step n).trans (congrArg _ (if_neg (by
        rw [Bool.not_eq_false]
        exact (may n).mpr ⟨pending, inRange, undone, resident, free, stop, goes, first⟩)))
      have errs : u.coreErrs = s.coreErrs := State.coreErrs_beginRows op
      refine ⟨fun near bad => landing.trans (congrArg _ (if_pos (by simpa [near, q, u, errs] using bad))), fun sound => ?_⟩
      intro v lands
      have performs : lands (v.performStep k q n) := landing.trans (congrArg _ (if_neg (by simpa [u, q, errs] using sound)))
      obtain ⟨copy, gather, matrix, coll, absorb⟩ := v.performStep_by_class k q n
      exact ⟨fun cls => copy cls ▸ performs, fun cls => gather cls ▸ performs, fun cls => matrix cls ▸ performs,
        fun cls => coll cls ▸ performs, fun cls => absorb cls ▸ performs⟩
    case idle =>
      refine (step n).trans (congrArg _ (if_pos ?_))
      rw [← Bool.not_eq_true]
      intro lands
      obtain ⟨pending, inRange, undone, resident, free, -⟩ := (may n).mp lands
      rcases idle with other | beyond | done | away | waits
      · exact other pending
      · exact Nat.not_lt.mpr beyond inRange
      · exact absurd (done.symm.trans undone) (by decide)
      · exact absurd (away.symm.trans resident) (by decide)
      · exact absurd (waits.symm.trans free) (by decide)
    case ends =>
      have ends := exec_engineOpComplete op pending resident free class_
      refine ⟨fun coll => ends.trans (congrArg _ (if_pos coll)), fun other cancel => ?stops, fun other goes done runs => ?done,
        fun other goes left => ?left⟩
      case stops =>
        have stopped := ends.trans (congrArg _ ((if_neg other).trans (if_pos cancel)))
        refine ⟨fun matrix => stopped.trans (congrArg _ (if_pos matrix)), fun notMatrix => ⟨fun settled => ?_, fun unsettled => ?_⟩⟩ <;>
          refine stopped.trans (congrArg _ ((if_neg notMatrix).trans ?_))
        · exact if_pos (EngOp.settled_iff.mpr settled)
        · obtain ⟨n, started, undone⟩ := unsettled
          exact if_neg fun settled => absurd (undone.symm.trans (EngOp.settled_iff.mp settled n started)) (by decide)
      case done =>
        refine ends.trans (congrArg _ ((if_neg other).trans ((if_neg (by simp [goes])).trans (if_pos ?_))))
        simp only [Bool.and_eq_true, List.all_eq_true, List.mem_range, Bool.or_eq_true, bne_iff_ne]
        exact ⟨done, (em (o.cls = 2)).symm.imp_right runs⟩
      case left =>
        obtain ⟨n, inRange, undone⟩ := left
        refine ends.trans (congrArg _ ((if_neg other).trans ((if_neg (by simp [goes])).trans (if_neg fun all => ?_))))
        simp only [Bool.and_eq_true, List.all_eq_true, List.mem_range] at all
        exact absurd (undone.symm.trans (all.1 n inRange)) (by decide)
  case paths =>
    intro g running back hx y moves
    obtain ⟨rfl, rfl, -⟩ := exeOf_fields hx
    refine ⟨fun k => exec_ejectHandoverDone_hands (s := s) hx, fun k r => exec_copyBackDone_lands (s := s) hx,
      exec_recallDone_waits (s := s) hx, fun goes => ?_⟩
    have recalls : ∀ k u, x.p.place = .recalling k → y.recallDone k = u → exec (.recallDone x.gid x.pid) s = .next (back u) :=
      fun k u place comes => (exec_recallDone_recalls (s := s) hx goes place).trans (congrArg (fun u => Host.Outcome.next (back u)) comes)
    intro recalled reject
    refine ⟨fun place => recalls 32 _ place y.recallDone_32, fun k core place => ⟨fun full => ?_, fun room => ?_⟩,
      exec_onCore_stays (s := s) hx goes⟩
    · exact recalls k _ place (Exe.recallDone_overflows (x := y) core full)
    · exact ⟨fun free => recalls k _ place (Exe.recallDone_returns (x := y) core room free),
        fun t owes => recalls k _ place (Exe.recallDone_traps (x := y) core room owes)⟩
  case timers =>
    intro g landing timer running runs team l
    have expires := exec_landingTimerExpiry landing timer running runs
    exact ⟨fun none => expires.trans (congrArg _ (if_neg (by simpa using none))), fun watchdog => expires.trans (congrArg _ (if_pos watchdog))⟩
  case translations =>
    intro u o f v bs obj entry code t
    have mem : (n, b) ∈ s.building.filter _ := found ▸ List.mem_singleton_self (n, b)
    have named := (List.mem_filter.mp mem).2
    simp only [Bool.and_eq_true, beq_iff_eq] at named
    obtain ⟨⟨⟨⟨rfl, rfl⟩, rfl⟩, rfl⟩, -⟩ := named
    have ends : exec (.translationDone b.enclave hdr b.fn b.width b.budget) s = .next (s.endBuilding n b) := by
      show Host.Outcome.next (List.foldl _ _ _) = _
      rw [found]
      rfl
    exact ⟨fun marked => ends.trans (congrArg _ (State.endBuilding_marked obj entry n code marked)),
      fun unmarked fresh => ends.trans (congrArg _ (State.endBuilding_installs obj entry n code unmarked fresh))⟩

end Sys2Proof.Machine
end

section
/-! PROOF. Launches on halls (R103, R398, R399, R402, R408, R409, R411, R416, R432): dispatch, the reading of DEPs, placement and
restore, turns, pre-emption and retirement. -/

namespace Sys2Proof.Machine

/-! Dispatch (R398). -/

/-- The state once the DEPs of an enclave's queue heads are read. -/
def State.headsRead (s : State) (e : Nat) : State := ((s.encl e).heads.map Prod.snd).foldl State.checkHead s

theorem exec_launchDispatch_none {s : State} {e : Nat} (idle : (s.headsRead e).nextHead e = none) :
    exec (.launchDispatch e) s = .next (s.headsRead e) := by
  show execLaunchDispatch e s = _
  unfold execLaunchDispatch
  rw [State.headsRead] at idle ⊢
  dsimp only
  rw [idle]

theorem exec_launchDispatch_some {s : State} {e q l : Nat} (head : (s.headsRead e).nextHead e = some (q, l)) :
    exec (.launchDispatch e) s = .next ((s.headsRead e).dispatch q l) := by
  show execLaunchDispatch e s = _
  unfold execLaunchDispatch
  rw [State.headsRead] at head ⊢
  dsimp only
  rw [head]

/-- A launch, as it stood before its code was translated, has left queue q, and its gangs wait for cores. -/
def State.dequeued (s : State) (q l : Nat) (x : Launch) : State :=
  let y := s.encl x.enclave
  let s := s.setEncl x.enclave { y with
    queues := mset y.queues q (y.queue q).tail, disp := mset y.disp q ((mget y.disp q).getD 0 + 1), robin := (q + 1) % 16 }
  let s := s.setLaunch l { x with
    phase := .dispatched, dispatchNo := s.next
    gangs := numbered (x.teamCount / x.gangSize) fun _ => ⟨.waiting, 0, 0, 0, [], [], [], [], []⟩ }
  { s with next := s.next + 1 }

section
variable {s u : State} {q l : Nat}
  (grafts : s.graftStart l (s.part (s.encl (s.launch l).enclave).part).halls = .ok u)
include grafts

theorem State.dispatch_faults {f : Nat × BitVec 48}
    (fault : (u.dequeued q l (s.launch l)).startFault l (s.part (s.encl (s.launch l).enclave).part).halls = some f) :
    s.dispatch q l = (u.dequeued q l (s.launch l)).endLaunch l stTranslation f.1 f.2 0 := by
  unfold State.dispatch
  dsimp only
  rw [grafts]
  dsimp only
  rw [State.dequeued] at fault ⊢
  rw [fault]

theorem State.dispatch_goes
    (sound : (u.dequeued q l (s.launch l)).startFault l (s.part (s.encl (s.launch l).enclave).part).halls = none) :
    s.dispatch q l = if (u.dequeued q l (s.launch l)).flightsFit l then (u.dequeued q l (s.launch l)).evictAll
      else (u.dequeued q l (s.launch l)).endLaunch l stFlight 0 0 0 := by
  unfold State.dispatch
  dsimp only
  rw [grafts]
  dsimp only
  rw [State.dequeued] at sound ⊢
  rw [sound]

end

/-! DEPs and completion objects (R432). -/

theorem exec_depReadResume_queued {s : State} {l : Nat} (queued : (s.launch l).phase = .queued) :
    exec (.depReadResume l) s = .next (s.checkHead l) := by
  show execDepReadResume l s = _
  unfold execDepReadResume
  rw [queued]

theorem exec_depReadResume_over {s : State} {l : Nat} (known : (mget s.launches l).isSome = true)
    (final : (s.launch l).phase = .ended ∨ (s.launch l).phase = .retired) (free : s.waiting (.done l) = false) :
    exec (.depReadResume l) s = .next (s.writeDone l) := by
  show execDepReadResume l s = _
  unfold execDepReadResume
  rcases final with ended | retired
  · rw [ended]
    exact congrArg _ (if_pos (by simp [known, free]))
  · rw [retired]
    exact congrArg _ (if_pos (by simp [known, free]))

/-- The state once the launch machinery has read the object that a DEP of a launch names. -/
def State.depTouched (s : State) (x : Launch) (i : Nat) : State :=
  if x.dep i = 0 then s else s.hwTouch none x.enclave (x.dep i &&& ~~~31#64) .load [0, 0, 0, 0]

theorem State.checkHead_failed {s : State} {l : Nat} (failed : s.depsOf l = .failed) :
    s.checkHead l = ((s.depTouched (s.launch l) 0).depTouched (s.launch l) 1).endLaunch l stDepFailed 0 0 0 := by
  unfold State.checkHead
  rw [failed]
  rfl

theorem State.checkHead_stays {s : State} {l : Nat} (stays : s.depsOf l = .ready ∨ s.depsOf l = .waits) :
    s.checkHead l = (s.depTouched (s.launch l) 0).depTouched (s.launch l) 1 := by
  unfold State.checkHead
  rcases stays with ready | waits
  · rw [ready]
    rfl
  · rw [waits]
    rfl

/-! Placement and restore (R399, R416). -/

theorem State.mayPlace_iff {s : State} {l gang hall block : Nat} : s.mayPlace l gang hall block = true ↔
    (s.launch l).phase = .dispatched ∧ s.timeFor (s.launch l).enclave hall = true ∧
      s.nextOn (s.launch l).enclave hall = some (l, gang) ∧ (hall, block) ∈ s.placesFor l gang hall ∧ s.waiting (.dep l) = false := by
  simp [State.mayPlace, and_assoc]

/-- The halls for which a launch's start is translated when a gang of it is placed on one. -/
def State.startHalls (s : State) (l hall : Nat) : List Nat :=
  if (s.launch l).nflight = 0 then [hall] else (s.part (s.encl (s.launch l).enclave).part).halls

section
variable {s : State} {l gang hall block : Nat} (may : s.mayPlace l gang hall block = true)
include may

theorem exec_gangPlace_starts {u : State} (waiting : (s.gang l gang).state = .waiting)
    (grafts : s.graftStart l (s.startHalls l hall) = .ok u) (sound : u.startFault l (s.startHalls l hall) = none) :
    exec (.gangPlace l gang hall block) s = .next (u.place l gang hall block) := by
  show execGangPlace l gang hall block s = _
  unfold execGangPlace
  rw [if_neg (by simp [may, waiting])]
  dsimp only
  rw [State.startHalls] at grafts sound
  rw [grafts]
  dsimp only
  rw [sound]

theorem exec_gangRestore_restores (saved : (s.gang l gang).state = .saved) :
    exec (.gangRestore l gang hall block) s = .next (s.place l gang hall block) :=
  congrArg Host.Outcome.next (if_neg (by simp [may, saved]))

end

theorem State.planWith_head {s : State} {l gang hall block : Nat} {plan : List (Nat × Nat × Nat)}
    (planned : s.planWith l gang hall block = some plan) : plan.head? = some (gang, hall, block) := by
  obtain ⟨rest, -, rfl⟩ := Option.map_eq_some_iff.mp planned
  rfl

theorem State.place_puts {s v : State} {l gang hall block : Nat} {plan : List (Nat × Nat × Nat)}
    (planned : (((s.part (s.encl (s.launch l).enclave).part).halls).foldl State.elapsed s).planWith l gang hall block = some plan)
    (puts : plan.foldlM (fun t p => t.putGang l p.1 p.2.1 p.2.2)
      (((s.part (s.encl (s.launch l).enclave).part).halls).foldl State.elapsed s) = .ok v) :
    s.place l gang hall block = (v.finishGangs l).evictAll := by
  unfold State.place
  dsimp only
  rw [planned]
  dsimp only
  rw [puts]

/-! Turns (R402). -/

/-- The enclave that held the last turn on a hall, from which the turn order goes on. -/
def State.lastHolder (s : State) (hall : Nat) : Nat := ((mget s.holders hall).map Prod.fst).getD 0

/-- An enclave's turn on a hall begins: its deficit is credited with its weight times the quantum. -/
def State.credited (s : State) (hall e : Nat) : State :=
  { s with
    deficits := mset s.deficits (hall, e)
      (s.deficit hall e + ((s.encl e).weight.toNat * max 1 (s.part (s.encl e).part).quantum.toNat * 1024 : Nat))
    holders := mset s.holders hall (e, .holds) }

theorem exec_turnStart_starts {s : State} {hall e : Nat} (first : (s.endTurns.turnOrder hall (s.endTurns.lastHolder hall)).head? = some e)
    (past : ∀ q, mget s.endTurns.holders hall = some q → q.2 = .past) :
    exec (.turnStart hall e) s = .next ((s.endTurns.credited hall e).evictBorrowers hall) := by
  show execTurnStart hall e s = _
  unfold execTurnStart
  unfold State.lastHolder at first
  cases held : mget s.endTurns.holders hall with
  | none =>
    rw [held] at first
    exact congrArg _ (if_neg (by simpa [held] using first))
  | some q =>
    rw [held] at first
    exact congrArg _ (if_neg (by simpa [held, past q held] using first))

theorem exec_turnStart_held {s : State} {hall e : Nat} {q : Nat × Hold} (held : mget s.endTurns.holders hall = some q) (lasts : q.2 ≠ .past) :
    exec (.turnStart hall e) s = .next s.endTurns := by
  show execTurnStart hall e s = _
  unfold execTurnStart
  exact congrArg _ (if_pos (by simp [held, lasts]))

/-- A turn ends by its deficit: it is used up, and another enclave awaits the hall. -/
def State.exhausted (s : State) (hall e : Nat) : Prop :=
  s.deficit hall e ≤ 0 ∧ ∃ d ∈ s.enclIds, d ≠ e ∧ s.awaits hall d = true

theorem exec_turnDeficitExhausted_none {s : State} {hall cycles : Nat} (noTurn : (s.elapse hall cycles).turnOf hall = none) :
    exec (.turnDeficitExhausted hall cycles) s = .next (s.elapse hall cycles) := by
  show execTurnDeficitExhausted hall cycles s = _
  unfold execTurnDeficitExhausted
  dsimp only
  rw [noTurn]

section
variable {s : State} {hall cycles e : Nat} (turn : (s.elapse hall cycles).turnOf hall = some e)
include turn

theorem exec_turnDeficitExhausted_goesOn (goesOn : ¬ (s.elapse hall cycles).exhausted hall e) :
    exec (.turnDeficitExhausted hall cycles) s = .next (s.elapse hall cycles) := by
  show execTurnDeficitExhausted hall cycles s = _
  unfold execTurnDeficitExhausted
  dsimp only
  rw [turn]
  refine congrArg _ (if_pos ?_)
  simpa [State.exhausted, imp_iff_not_or] using goesOn

theorem exec_turnDeficitExhausted_ends (ends : (s.elapse hall cycles).exhausted hall e) :
    exec (.turnDeficitExhausted hall cycles) s = .next
      (let u := s.elapse hall cycles
       let v : State := { u with holders := mset u.holders hall (e, .leaves) }
       ((v.gangsOn hall e).foldl (fun s g => s.stopGang g.1 g.2) v).endTurns) := by
  show execTurnDeficitExhausted hall cycles s = _
  unfold execTurnDeficitExhausted
  dsimp only
  rw [turn]
  refine congrArg _ (if_neg ?_)
  simpa [State.exhausted] using ends

end

/-! Pre-emption (R408, R409, R411). -/

section
variable {s : State} {l gang cycles k : Nat} {r : Rake} (stopping : (s.gang l gang).state = .stopping)
  (rake : ((s.elapse (s.gang l gang).hall cycles).rakes.find? fun r => r.2.launch == l && r.2.gang == gang) = some (k, r))
include stopping rake

theorem exec_rakeAck_unit (awaits : r.waits ≠ 0) : exec (.rakeAck l gang cycles) s = .next
    (let u := s.elapse (s.gang l gang).hall cycles
     if u.busyUnits (s.gang l gang).teams < r.waits then { u with rakes := mset u.rakes k { r with waits := r.waits - 1 } } else u) := by
  show execRakeAck l gang cycles s = _
  unfold execRakeAck
  dsimp only
  rw [if_neg (not_not_intro stopping), rake]
  exact congrArg _ (if_pos awaits)

theorem exec_rakeAck_saves (all : r.waits = 0) (idle : (s.elapse (s.gang l gang).hall cycles).busyUnits (s.gang l gang).teams = 0)
    (cuts : (s.elapse (s.gang l gang).hall cycles).cutPending l = false)
    (writers : ∀ t ∈ (s.gang l gang).teams, (s.elapse (s.gang l gang).hall cycles).waiting (.save t) = false) :
    exec (.rakeAck l gang cycles) s = .next ((s.elapse (s.gang l gang).hall cycles).saveGang l gang) := by
  show execRakeAck l gang cycles s = _
  unfold execRakeAck
  dsimp only
  rw [if_neg (not_not_intro stopping), rake]
  exact congrArg _ ((if_neg (not_not_intro all)).trans (if_neg (by simpa [idle, cuts] using writers)))

end

theorem State.saveGang_writes {s v : State} {l gang : Nat}
    (writes : (s.gang l gang).teams.foldlM State.saveTeam (((s.gang l gang).teams.map fun t => (s.team t).core).foldl State.sweepTiles s) =
      .ok v) : s.saveGang l gang = (v.leaveCores l gang).afterLeaving l := by
  unfold State.saveGang
  dsimp only
  rw [writes]

theorem exec_handlerHoldExpiry {s : State} {g : Nat} {x : Group} (group : mget s.groups g = some x) :
    exec (.handlerHoldExpiry g) s = .next (if x.stopped then s.setGroup g { x with held := false } else s) := by
  show execHandlerHoldExpiry g s = _
  unfold execHandlerHoldExpiry
  rw [group]

/-! Retirement (R103, R170). -/

/-- A cutting of a launch that is copied is not drained yet. -/
def State.draining (s : State) (l : Nat) : Prop := ∃ c ∈ s.cuts, c.2.launch = l ∧ c.2.copied = true ∧ c.2.ended = false

theorem State.draining_iff {s : State} {l : Nat} :
    s.draining l ↔ (s.cuts.any fun c => c.2.launch == l && c.2.copied && !c.2.ended) = true := by
  simp [State.draining, and_assoc]

theorem exec_launchRetire_drains {s : State} {l : Nat} (drains : s.draining l) : exec (.launchRetire l) s = .next s :=
  congrArg Host.Outcome.next (if_pos (.inr (.inl (State.draining_iff.mp drains))))

theorem exec_launchRetire_retires {s : State} {l : Nat} (dispatched : (s.launch l).phase = .dispatched)
    (finished : ∀ g ∈ (s.launch l).gangs, g.2.state = .finished) (drained : ¬ s.draining l) :
    exec (.launchRetire l) s = .next
      ((((s.setLaunch l { s.launch l with phase := .retired, status := 0 }).writeSeals l true 0).vacate l).writeDone l) := by
  refine congrArg Host.Outcome.next (if_neg ?_)
  rintro (otherwise | drains | runs)
  · exact otherwise dispatched
  · exact drained (State.draining_iff.mpr drains)
  · exact absurd (runs.symm.trans (List.all_eq_true.mpr fun g mem => beq_iff_eq.mpr (finished g mem))) (by decide)

/-- Settles O43: each event by what it finds: the ready heads, the DEPs, the plan of a placement, the turn's holder and deficit, the
rake, and the gangs and cuttings of a launch. -/
theorem launchScheduling : Obligations.LaunchScheduling := by
  unfold Obligations.LaunchScheduling
  refine ⟨fun s0 e => ?dispatch, fun s l queued => ?deps, fun s l => exec_depReadResume_over, fun s l gang hall block may => ?place,
    ?plan, fun s hall e => ?starts, fun s hall cycles e => ?exhausted, fun s l gang cycles stopping => ?rake,
    fun s g x => exec_handlerHoldExpiry, fun s l => ?retire⟩
  case dispatch =>
    intro s ready
    obtain ⟨idle, best⟩ := nextHead_spec s e
    refine ⟨fun empty => exec_launchDispatch_none (idle empty), fun nonempty => ?_⟩
    obtain ⟨q, l, next, mem, highest⟩ := best nonempty
    have dispatches : exec (.launchDispatch e) s0 = .next (s.dispatch q l) := exec_launchDispatch_some next
    refine ⟨q, l, mem, highest, fun u grafts => ?_⟩
    intro x halls y v w w'
    refine ⟨fun f fault => dispatches.trans (congrArg _ (State.dispatch_faults grafts fault)), fun sound => ?_⟩
    have goes := dispatches.trans (congrArg _ (State.dispatch_goes grafts sound))
    exact ⟨fun fit => goes.trans (congrArg _ (if_pos fit)), fun unfit => goes.trans (congrArg _ (if_neg (Bool.not_eq_true _ ▸ unfit)))⟩
  case deps =>
    intro x read
    have checks := exec_depReadResume_queued queued
    exact ⟨fun failed => checks.trans (congrArg _ (State.checkHead_failed failed)),
      fun stays => checks.trans (congrArg _ (State.checkHead_stays stays))⟩
  case place =>
    intro x
    exact ⟨State.mayPlace_iff.mp may, fun waiting u => exec_gangPlace_starts may waiting, exec_gangRestore_restores may⟩
  case plan =>
    rintro s u v l gang hall block plan rfl planned
    exact ⟨State.planWith_head planned, State.place_puts planned⟩
  case starts =>
    intro u
    exact ⟨exec_turnStart_starts, fun q => exec_turnStart_held⟩
  case exhausted =>
    intro u
    refine ⟨exec_turnDeficitExhausted_none, fun turn => ⟨fun goesOn => exec_turnDeficitExhausted_goesOn turn ?_,
      fun used others => exec_turnDeficitExhausted_ends turn ⟨used, others⟩⟩⟩
    rintro ⟨used, d, mem, other, awaits⟩
    rcases goesOn with left | alone
    · exact absurd left (not_lt.mpr used)
    · exact absurd ((alone d mem other).symm.trans awaits) (by decide)
  case rake =>
    intro u ts k r rake
    refine ⟨fun awaits idle => ?_, fun awaits busy => ?_, fun all idle cuts writers v writes => ?_⟩
    · exact (exec_rakeAck_unit stopping rake awaits).trans (congrArg _ (if_pos idle))
    · exact (exec_rakeAck_unit stopping rake awaits).trans (congrArg _ (if_neg (not_lt.mpr busy)))
    · exact (exec_rakeAck_saves stopping rake all idle cuts writers).trans (congrArg _ (State.saveGang_writes writes))
  case retire =>
    intro x dispatched finished
    refine ⟨exec_launchRetire_drains, fun drained => exec_launchRetire_retires dispatched finished ?_⟩
    rintro ⟨c, mem, launch, copied, drains⟩
    exact absurd (drains.symm.trans (drained c mem launch copied)) (by decide)

end Sys2Proof.Machine
end

section
/-! PROOF. Message passing (R101, R107, R111 to R118): where a flag is raised by a release and seen by an acquire, and the scopes of
both take in both parties, a load behind the acquire that missed the store before the release would close a cycle of R107. -/

namespace Sys2Proof.Machine.Order

/-! Scopes and kinds (R92, R94, R95, R108). -/

theorem mem_scopes (s : Scope) : s ∈ scopes := by cases s <;> decide

theorem within_iff {s : Scope} {v w : Ev} : within s v w = true ↔ ∃ k, k ∈ v.keys s ∧ k ∈ w.keys s := by simp [within]

/-- At the narrower of two scopes that link two events, the two share a key. -/
theorem exists_key_of_linked {s t : Scope} {v w : Ev} (both : linked s t v w = true) :
    ∃ m k, rank m ≤ rank s ∧ rank m ≤ rank t ∧ k ∈ v.keys m ∧ k ∈ w.keys m := by
  obtain ⟨first, second⟩ := (Bool.and_eq_true _ _).mp both
  rcases Nat.le_total (rank s) (rank t) with le | le
  · obtain ⟨k, hv, hw⟩ := within_iff.mp first
    exact ⟨s, k, Nat.le_refl _, le, hv, hw⟩
  · obtain ⟨k, hv, hw⟩ := within_iff.mp second
    exact ⟨t, k, le, Nat.le_refl _, hv, hw⟩

/-- At a scope no wider than an event's own, none of its kinds is demoted. -/
theorem Ev.mem_kindsAt {v : Ev} {k : Kind} {s eff : Scope} (kind : k ∈ v.kinds) (le : rank s ≤ rank eff) : k ∈ v.kindsAt s eff :=
  List.mem_filterMap.mpr ⟨k, kind, if_pos le⟩

/-- A plain access is not demoted. -/
theorem Ev.plain_mem_kindsAt {v : Ev} {k : Kind} (s eff : Scope) (kind : k ∈ v.kinds) (plain : k = .pl ∨ k = .ps) :
    k ∈ v.kindsAt s eff := by
  refine List.mem_filterMap.mpr ⟨k, kind, ?_⟩
  rcases plain with rfl | rfl <;> exact ite_self _

theorem keptKinds_ps_rel (s : Scope) (v w : Ev) : keptKinds s v w .ps .rel = true := ite_self _

theorem keptKinds_acq (s : Scope) (v w : Ev) (k : Kind) : keptKinds s v w .acq k = true := ite_self _

/-- The parties whose releases are spelt as such: the other parties' stores are plain or RISC-V's (R119, R120). -/
def Party.spells : Party → Bool
  | .lane .. | .machinery .. => true
  | .engine _ | .collective _ | .cpu _ | .os .. | .outside .. => false

theorem Exec.spells_of_release {e : Exec} {v : Ev} (proper : e.proper v = true) (act : v.act = .store .rel) (rv : v.rv = none) :
    v.party.spells = true := by
  simp only [Exec.proper, Bool.and_eq_true] at proper
  obtain ⟨-, performs⟩ := proper
  cases party : v.party <;> simp [party, act, rv, Party.spells] at performs ⊢

theorem Ev.general_of_spells {v : Ev} (spells : v.party.spells = true) : v.general = false := by
  unfold Ev.general
  cases party : v.party <;> simp [party, Party.spells] at spells ⊢

theorem Ev.kinds_store_plain {v : Ev} (spells : v.party.spells = true) (act : v.act = .store .plain) (rv : v.rv = none) :
    v.kinds = [.ps] := by
  unfold Ev.kinds
  cases party : v.party <;> simp [party, act, rv, Party.spells] at spells ⊢

theorem Ev.kinds_store_rel {v : Ev} (act : v.act = .store .rel) (rv : v.rv = none) : v.kinds = [.rel] := by
  unfold Ev.kinds
  cases party : v.party <;> simp [act, rv]

theorem Ev.kinds_load_acq {v : Ev} (act : v.act = .load .acq) (rv : v.rv = none) : v.kinds = [.acq] := by
  simp [Ev.kinds, act, rv]

theorem Ev.kinds_load_plain {v : Ev} (act : v.act = .load .plain) (rv : v.rv = none) : v.kinds = [.pl] := by
  simp [Ev.kinds, act, rv]

theorem Ev.engine_of_threadOp {v : Ev} (none : Exec.threadOp v.party = none) : v.engine = false := by
  unfold Ev.engine
  cases party : v.party <;> simp [party, Exec.threadOp] at none ⊢

namespace Exec

variable {e : Exec}

/-! What an allowed execution keeps (R97, R107). -/

theorem wellFormed_of_allowed (ok : e.allowed = true) : e.wellFormed = true := by
  simp only [allowed, Bool.and_eq_true] at ok
  obtain ⟨⟨⟨⟨⟨formed, -⟩, -⟩, -⟩, -⟩, -⟩ := ok
  exact formed

theorem ordered_of_allowed (ok : e.allowed = true) {s : Scope} {k : List Nat} {v : Ev} (mem : v ∈ e.evs) (key : k ∈ v.keys s) :
    e.ordered s k = true := by
  simp only [allowed, Bool.and_eq_true, List.all_eq_true] at ok
  obtain ⟨⟨-, ordered⟩, -⟩ := ok
  exact ordered s (mem_scopes s) k (List.mem_eraseDups.mpr (List.mem_flatMap.mpr ⟨v, mem, key⟩))

section
variable (formed : e.wellFormed = true)
include formed

theorem proper_of_wellFormed {v : Ev} (mem : v ∈ e.evs) : e.proper v = true := by
  simp only [wellFormed, Bool.and_eq_true, List.all_eq_true] at formed
  obtain ⟨⟨⟨proper, -⟩, -⟩, -⟩ := formed
  exact proper v mem

/-- What a read takes a location's value from is a write of that location. -/
theorem writes_of_source {r l w : Nat} (source : e.source r l = some w) : (e.ev w).writes = true ∧ l ∈ (e.ev w).locs := by
  simp only [wellFormed, Bool.and_eq_true, List.all_eq_true, List.contains_iff_mem] at formed
  obtain ⟨⟨-, reads⟩, -⟩ := formed
  obtain ⟨a, found, rfl⟩ := Option.map_eq_some_iff.mp source
  obtain ⟨⟨⟨-, writes⟩, loc⟩, -⟩ := reads a (List.mem_of_find?_eq_some found)
  have named := List.find?_some found
  simp only [Bool.and_eq_true, beq_iff_eq] at named
  exact ⟨writes, named.2 ▸ loc⟩

/-- Coherence orders every write of a location. -/
theorem mem_coOf {i l : Nat} (range : i < e.evs.length) (writes : (e.ev i).writes = true) (loc : l ∈ (e.ev i).locs) : i ∈ e.coOf l := by
  have mem : e.ev i ∈ e.evs := by
    rw [ev, List.getD_eq_getElem _ _ range]
    exact List.getElem_mem range
  simp only [wellFormed, Bool.and_eq_true, List.all_eq_true, List.contains_iff_mem] at formed
  obtain ⟨-, locations⟩ := formed
  obtain ⟨-, ordersAll⟩ := locations _ mem l loc
  exact ordersAll i (List.mem_filter.mpr ⟨List.mem_range.mpr range, by simp [writes, loc]⟩)

/-- A read of the initial value comes before every write of its location. -/
theorem frE_of_initial {i j l : Nat} (other : i ≠ j) (reads : (e.ev i).reads = true) (readLoc : l ∈ (e.ev i).locs)
    (initial : e.source i l = none) (range : j < e.evs.length) (writes : (e.ev j).writes = true) (loc : l ∈ (e.ev j).locs) :
    e.frE i j = true := by
  refine List.any_eq_true.mpr ⟨l, readLoc, ?_⟩
  simp [frAt, other, reads, readLoc, initial, mem_coOf formed range writes loc]

end

/-! The relation of R107 between whole events, each the node of twice its number. -/

section
variable {s : Scope} {rows : List (List Nat)} {scs : List Nat} {i j : Nat}

theorem ob_of_kinds {kx ky : Kind} (po : e.po i j = true) (first : kx ∈ e.kindsAt s i) (second : ky ∈ e.kindsAt s j)
    (keeps : keptKinds s (e.ev i) (e.ev j) kx ky = true) : e.ob s rows scs (2 * i) (2 * j) = true := by
  have kept : e.kept s i j = true := by
    refine (Bool.or_eq_true _ _).mpr (.inr (List.any_eq_true.mpr ⟨kx, first, List.any_eq_true.mpr ⟨ky, second, keeps⟩⟩))
  simp [ob, keptNode, keptPo, po, kept]

theorem ob_of_rfE (other : (e.ev i).party ≠ (e.ev j).party) (writes : (e.ev i).writes = true) (reads : (e.ev j).reads = true)
    (whole : (e.ev i).isRmw = false) (rf : e.rfE i j = true) : e.ob s rows scs (2 * i) (2 * j) = true := by
  simp [ob, rfN, writeNode, readNode, other, writes, reads, whole, rf]

theorem ob_of_frE (reads : (e.ev i).reads = true) (writes : (e.ev j).writes = true) (whole : (e.ev j).isRmw = false)
    (fr : e.frE i j = true) : e.ob s rows scs (2 * i) (2 * j) = true := by
  simp [ob, frN, writeNode, readNode, writes, reads, whole, fr]

end

theorem rfE_of_source {i j l : Nat} (reads : (e.ev j).reads = true) (loc : l ∈ (e.ev j).locs) (source : e.source j l = some i) :
    e.rfE i j = true :=
  List.any_eq_true.mpr ⟨l, loc, by simp [rfAt, reads, loc, source]⟩

/-- A cycle of the four nodes under a key of a scope, through an event that is no general core's, forbids an execution (R107). -/
theorem ordered_of_four {s : Scope} {key : List Nat} {a b c d : Nat} (nodes : e.nodesOf (e.members s key) = [a, b, c, d])
    (own : (e.ev (a / 2)).general = false) (ab : ∀ o, e.ob s e.hbRows o a b = true) (bc : ∀ o, e.ob s e.hbRows o b c = true)
    (cd : ∀ o, e.ob s e.hbRows o c d = true) (da : ∀ o, e.ob s e.hbRows o d a = true) : e.ordered s key = false := by
  refine Bool.eq_false_iff.mpr fun ordered => ?_
  obtain ⟨o, -, free⟩ := List.any_eq_true.mp ordered
  rw [nodes] at free
  have cycle := onCycle_of_four (e.ob s e.hbRows o) [a, b, c, d] a b c d (by simp) (by simp) (by simp) (by simp) (ab o) (bc o) (cd o) (da o)
    (by simp)
  have noCycle := List.all_eq_true.mp free a (by simp)
  simp [own, cycle] at noCycle

end Exec

/-! The four events. -/

/-- Four events that share a key of a scope, none an RMW, are its four nodes. -/
theorem nodesOf_members_of_four {e : Exec} {s : Scope} {key : List Nat} {u v w z : Ev} (evs : e.evs = [u, v, w, z])
    (keys : ∀ n ∈ [u, v, w, z], key ∈ n.keys s) (whole : ∀ n ∈ [u, v, w, z], n.isRmw = false) :
    e.nodesOf (e.members s key) = [2 * 0, 2 * 1, 2 * 2, 2 * 3] := by
  have idxs : e.idxs = [0, 1, 2, 3] := by
    rw [Exec.idxs, evs]
    rfl
  simp only [List.forall_mem_cons] at keys whole
  obtain ⟨k0, k1, k2, k3, -⟩ := keys
  obtain ⟨w0, w1, w2, w3, -⟩ := whole
  simp [Exec.members, Exec.nodesOf, idxs, Exec.ev, evs, k0, k1, k2, k3, w0, w1, w2, w3]

/-- Settles O60: were the initial value of x read, then the store of x, the raise of the flag, its sight and the load of x would
close a cycle of R107 at the narrower of the two scopes. -/
theorem messagesArrive : Obligations.MessagesArrive := by
  intro p q a b s t x f e others apart pOrdered qOrdered stores raises sees loads both evs ok seen
  have ev0 : e.ev 0 = stores := by rw [Exec.ev, evs]; rfl
  have ev1 : e.ev 1 = raises := by rw [Exec.ev, evs]; rfl
  have ev2 : e.ev 2 = sees := by rw [Exec.ev, evs]; rfl
  have ev3 : e.ev 3 = loads := by rw [Exec.ev, evs]; rfl
  have formed := Exec.wellFormed_of_allowed ok
  cases source : e.source 3 x with
  | some w =>
    obtain ⟨writes, loc⟩ := Exec.writes_of_source formed source
    match w with
    | 0 => rfl
    | 1 =>
      rw [ev1] at loc
      exact absurd (List.mem_singleton.mp loc) apart
    | 2 =>
      rw [ev2] at writes
      exact Bool.noConfusion writes
    | 3 =>
      rw [ev3] at writes
      exact Bool.noConfusion writes
    | w + 4 =>
      rw [Exec.ev, evs] at writes
      exact Bool.noConfusion writes
  | none =>
    obtain ⟨m, k, leS, leT, keyP, keyQ⟩ := exists_key_of_linked both
    have ordered := Exec.ordered_of_allowed ok (v := raises) (by simp [evs]) keyP
    have nodes : e.nodesOf (e.members m k) = [2 * 0, 2 * 1, 2 * 2, 2 * 3] :=
      nodesOf_members_of_four evs (by simpa using ⟨keyP, keyP, keyQ, keyQ⟩) (by simp [stores, raises, sees, loads, Ev.isRmw])
    have spells : p.spells = true := Exec.spells_of_release (Exec.proper_of_wellFormed formed (v := raises) (by simp [evs])) rfl rfl
    have plainStore : .ps ∈ e.kindsAt m 0 := by
      rw [Exec.kindsAt, ev0]
      exact Ev.plain_mem_kindsAt _ _ (by simp [Ev.kinds_store_plain (v := stores) spells rfl rfl]) (.inr rfl)
    have release : .rel ∈ e.kindsAt m 1 := by
      rw [Exec.kindsAt, Exec.scopeOf, ev1]
      exact Ev.mem_kindsAt (by simp [Ev.kinds_store_rel (v := raises) rfl rfl]) leS
    have acquire : .acq ∈ e.kindsAt m 2 := by
      rw [Exec.kindsAt, Exec.scopeOf, ev2]
      exact Ev.mem_kindsAt (by simp [Ev.kinds_load_acq (v := sees) rfl rfl]) leT
    have plainLoad : .pl ∈ e.kindsAt m 3 := by
      rw [Exec.kindsAt, ev3]
      exact Ev.plain_mem_kindsAt _ _ (by simp [Ev.kinds_load_plain (v := loads) rfl rfl]) (.inl rfl)
    refine absurd (ordered.symm.trans (Exec.ordered_of_four nodes ?own (fun o => ?stored) (fun o => ?raised) (fun o => ?seen)
      (fun o => ?missed))) (by decide)
    case own =>
      rw [ev0]
      exact Ev.general_of_spells spells
    case stored =>
      refine Exec.ob_of_kinds ?_ plainStore release (keptKinds_ps_rel _ _ _)
      simp [Exec.po, ev0, ev1, stores, raises, Ev.engine_of_threadOp (v := stores) pOrdered]
    case raised =>
      refine Exec.ob_of_rfE ?_ ?_ ?_ ?_ (Exec.rfE_of_source ?_ ?_ seen) <;>
        simp [ev1, ev2, raises, sees, others, Ev.writes, Ev.reads, Ev.isRmw]
    case seen =>
      refine Exec.ob_of_kinds ?_ acquire plainLoad (keptKinds_acq _ _ _ _)
      simp [Exec.po, ev2, ev3, sees, loads, Ev.engine_of_threadOp (v := sees) qOrdered]
    case missed =>
      refine Exec.ob_of_frE ?_ ?_ ?_ (Exec.frE_of_initial formed (by decide) ?_ ?_ source ?_ ?_ ?_) <;>
        simp [ev0, ev3, evs, stores, loads, Ev.writes, Ev.reads, Ev.isRmw]

end Sys2Proof.Machine.Order
end

section
/-! PROOF. Engine instructions that name no barrier, and the issue of their operations (R127, R128, R132). -/

namespace Sys2Proof.Machine

/-- An engine instruction that names no barrier goes on with the operands that it reads once. -/
theorem Exe.engine_none {x : Exe} (calm : x.calm) (i : Instr) (acts : x.active i.ctl ≠ []) (k : List Val → State) :
    x.engine i none k = k (x.onceVals i) := by
  rw [Exe.engine_calm calm i acts]
  exact if_neg Bool.false_ne_true

/-- A step that issues and then completes with results that hold the future. -/
theorem Exe.issues_of_issue {s : State} {x : Exe} (i : Instr) (o : EngOp) (after : State → State) (res : BitVec 64 → List Val)
    (step : exec i s = .next (x.issue o fun y fut _ => (x.upon (after y.s)).commitAll i (res fut) (x.onceFlags i))) :
    x.Issues s i x o after res :=
  Exe.issue_issues i o after res x step

/-- A step whose check fails. -/
theorem next_of_pos {s : State} {i : Instr} {p : Prop} [Decidable p] {a b : State} (step : exec i s = .next (if p then a else b)) (h : p) :
    exec i s = .next a :=
  step.trans (congrArg _ (if_pos h))

/-- A step whose check passes. -/
theorem next_of_neg {s : State} {i : Instr} {p : Prop} [Decidable p] {a b : State} (step : exec i s = .next (if p then a else b))
    (h : ¬ p) : exec i s = .next b :=
  step.trans (congrArg _ (if_neg h))

end Sys2Proof.Machine
end

section
/-! PROOF. EXIT: the lanes that leave, and what goes on without them (R148, R185, R186, R295). -/

namespace Sys2Proof.Machine

/-- Lanes leave a context in which no lane stands at a meeting (R148). -/
theorem Ctx.without_unmet {c : Ctx} (meets : c.meets = []) (barm : c.barm = []) (lanes : LaneMask) :
    c.without lanes = {
      paths := (c.paths.map fun p => (p.1, { p.2 with mask := p.2.mask &&& ~~~lanes })).filter fun p => p.2.mask != 0
      stack := (c.stack.map fun e => { e with lanes := e.lanes &&& ~~~lanes }).filter fun e => e.lanes != 0
      recs := c.recs.map fun r => { r with need := r.need &&& ~~~lanes, arrived := r.arrived &&& ~~~lanes }
      meets := [], barm := [] } := by
  unfold Ctx.without
  rw [meets, barm]
  rfl

/-- What follows in a group without meetings leaves it without meetings. -/
theorem State.follows_unmet (s : State) {g : Group} (meets : g.ctx.meets = []) (barm : g.ctx.barm = []) :
    (s.follows g).meets = [] ∧ (s.follows g).barm = [] := by
  have settled := settle_meets (2 * (g.ctx.recs.length + g.ctx.stack.length) + 2) g.ctx
  have follows := State.follows_meets (s := s) (g := g)
  exact ⟨follows.1.trans (settled.1.trans meets), follows.2.trans (settled.2.trans barm)⟩

theorem State.meetAll_unmet {s : State} {gid : Nat} (meets : (s.group gid).ctx.meets = []) (barm : (s.group gid).ctx.barm = []) :
    s.meetAll gid = s := by
  unfold State.meetAll
  simp only [meets, barm, List.map_nil, List.foldl_nil, List.any_nil, Bool.false_eq_true, if_false]

theorem State.checkLatches_nil {s : State} {team : Nat} (latches : (s.team team).latches = []) : s.checkLatches team = s := by
  unfold State.checkLatches
  rw [latches]
  rfl

theorem State.leaveHandler_none {s : State} {gid : Nat} (handler : (s.group gid).handler = none) : s.leaveHandler gid = s := by
  unfold State.leaveHandler
  simp only [handler]

/-- Nothing follows the exit of lanes where no meeting, latch or handler waited for them and their gang has something left to do. -/
theorem State.afterLeave_quiet {s : State} {gid : Nat} (handler : (s.group gid).handler = none) (meets : (s.group gid).ctx.meets = [])
    (barm : (s.group gid).ctx.barm = []) (latches : (s.team (s.group gid).team).latches = [])
    (left : ∀ q ∈ (s.launch (s.team (s.group gid).team).launch).gangs, q.2.state = .placed → s.gangOver q.2.teams = false) :
    s.afterLeave gid = s := by
  unfold State.afterLeave
  simp only [State.meetAll_unmet meets barm, State.checkLatches_nil latches, State.leaveHandler_none handler, handler,
    Option.isSome_none, Bool.false_and, Bool.false_eq_true, if_false]
  exact finishGangs_none s _ left

/-- Whether a gang is over depends on the groups and the operations alone. -/
theorem State.gangOver_same {s t : State} (groups : t.groups = s.groups) (ops : t.ops = s.ops) (teams : List Nat) :
    t.gangOver teams = s.gangOver teams := by
  unfold State.gangOver
  rw [groups, ops]

/-- Settles O22: the lanes leave and the group settles; nothing waits for them elsewhere, so that nothing else follows. -/
theorem exitEndsLanes : Obligations.ExitEndsLanes := by
  unfold Obligations.ExitEndsLanes
  intro s x c ops hx handler meets barm latches out left g live
  let parted : Group := { x.g with exited := x.g.exited ||| x.p.mask, ctx := left }
  let u := (x.put g).bump x.eid 4 x.team.core 1
  let t := x.count ((x.put parted).settleGroup x.gid) 1
  have follows : x.s.follows parted = x.s.follows { x.g with ctx := left } := rfl
  obtain ⟨noMeets, noBarm⟩ := x.s.follows_unmet (g := { x.g with ctx := left }) rfl rfl
  have sampled : u.Sampled t := by
    have settle := ((x.put parted).settleGroup_sampled x.gid).1
    rw [show (x.put parted).group x.gid = parted from State.group_setGroup ..] at settle
    rw [show (x.put parted).setGroup x.gid { parted with ctx := (x.put parted).follows parted } = x.put g from
      setGroup_setGroup ..] at settle
    exact settle.bump x.eid 4 x.team.core 1
  have groups : t.groups = (x.put g).groups := by
    have same := congrArg State.groups sampled.rest
    exact same
  have ops' : t.ops = (x.put g).ops := by
    have same := congrArg State.ops sampled.rest
    exact same
  have teams : t.teams = x.s.teams := by
    have same := congrArg State.teams sampled.rest
    exact same
  have launches : t.launches = x.s.launches := by
    have same := congrArg State.launches sampled.rest
    exact same
  have group : t.group x.gid = g := by
    unfold State.group
    rw [groups]
    exact State.group_setGroup x.s x.gid g
  have team : ∀ n, t.team n = x.s.team n := fun n => by unfold State.team; rw [teams]
  have quiet : t.afterLeave x.gid = t := by
    refine State.afterLeave_quiet ?_ ?_ ?_ ?_ ?_
    · rw [group]
      exact handler
    · rw [group]
      exact noMeets
    · rw [group]
      exact noBarm
    · rw [group, team]
      exact latches
    · have launch : t.launch (t.team (t.group x.gid).team).launch = x.launch := by
        rw [group, team]
        unfold State.launch
        rw [launches]
        rfl
      intro q mem placed
      rw [launch] at mem
      rw [State.gangOver_same groups ops']
      exact live q mem placed
  refine ⟨t, u, ?step, sampled, Exe.group_put_bump .., x.counted_put g 1, ?keeps⟩
  case step =>
    refine (onPath_next hx _).trans (congrArg _ ?_)
    dsimp only
    rw [Ctx.without_unmet meets barm, handler]
    show State.afterLeave (x.count ((x.put { parted with handler := none }).settleGroup x.gid) 1) x.gid = t
    rw [show ({ parted with handler := none } : Group) = parted by rw [← show parted.handler = none from handler]]
    exact quiet
  case keeps =>
    rw [show u.setGroup x.gid x.g = (x.put x.g).bump x.eid 4 x.team.core 1 from Exe.setGroup_put_bump ..]
    exact x.keeps_put' rfl (fun _ _ => rfl) [] (fun _ _ _ => rfl) (fun _ => rfl) (fun _ _ => .refl _) fun _ _ _ _ => rfl

end Sys2Proof.Machine
end

section
/-! PROOF. Barriers: what their operations make of the state word's fields, and when a path departs (R145 to R149). -/

namespace Sys2Proof.Machine

/-! The operations of a barrier (R146, R147). -/

theorem Bar.tryComplete_full {b : Bar} (full : b.arrived = b.expect ∧ b.pend = 0) :
    b.tryComplete = { b with phases := b.phases + 1, arrived := 0, marks := [], counted := [],
                             observed := mset b.observed b.phases b.counted } :=
  if_pos full

theorem Bar.tryComplete_partial {b : Bar} (missing : ¬ (b.arrived = b.expect ∧ b.pend = 0)) : b.tryComplete = b := if_neg missing

/-! BAR.EXPECT, BAR.INIT and BAR.STATE: the checks in their order. -/

section
variable {s : State} {x : Exe} (hx : s.exe? = some x) (calm : x.calm) (c : Ctl) (ops : List Opnd)
include hx calm

theorem exec_barExpect_eq :
    let i := Instr.barExpect c ops
    let b := numOf (x.onceVals i) 0
    exec i s = .next (if x.launch.nbar ≤ b then x.trapAll i trapHandle
      else match (x.team.bar b).expectBytes (numOf (x.onceVals i) 1) with
        | none => x.trapAll i 0x0A
        | some v => ({ x with s := x.s.setBar x.g.team b v } : Exe).commitAll i [] (x.onceFlags i)) :=
  (onPath_next hx _).trans (congrArg _ (Exe.once_calm calm _ _))

theorem exec_barInit_eq :
    let i := Instr.barInit c ops
    let b := numOf (x.onceVals i) 0
    let n := numOf (x.onceVals i) 1
    exec i s = .next (if x.launch.nbar ≤ b ∨ n = 0 ∨ 48 < n then x.trapAll i trapHandle
      else match (x.team.bar b).init n with
        | none => x.trapAll i 0x0A
        | some v => ({ x with s := x.s.setBar x.g.team b v } : Exe).commitAll i [] (x.onceFlags i)) :=
  (onPath_next hx _).trans (congrArg _ (Exe.once_calm calm _ _))

theorem exec_barState_eq (named : x.nameless (.barState c ops) 0 = false) :
    let i := Instr.barState c ops
    let b := numOf (x.onceVals i) 0
    exec i s = .next (if x.launch.nbar ≤ b then x.trapAll i trapHandle
      else x.commitAll i [.bits (x.team.bar b).word] (x.onceFlags i)) := by
  refine (onPath_next hx _).trans (congrArg _ ?_)
  dsimp only
  rw [named, Exe.once_calm calm]
  rfl

end

/-! BAR.WAIT (R147, R149). -/

/-- The path departs from its wait in phase k with the flags f of its operands: with what that phase observed, and the phase before
where a lane waited for that one. -/
def Exe.waited (x : Exe) (i : Instr) (f : BitVec 6) (k : Nat) : State :=
  let bar := x.team.bar (numOf (x.onceVals i) 0)
  let early := (x.active i.ctl).any fun l => (argOf (x.args i l) 1).isTrue != (k % 2 == 1)
  x.commitAll i [] (f ||| x.s.phaseFlags bar k ||| if early then x.s.phaseFlags bar (k - 1) else 0)

/-- A lane that reads no poison reads none in a single operand. -/
theorem Exe.reads_clean {x : Exe} {i : Instr} {l : Nat} (clean : x.poison i l = 0) (k : Nat) :
    (((x.reads (x.plan i) l)[k]?).map Prod.snd).getD false = false := by
  have none : x.readsPoison (x.plan i) l = false := by
    unfold Exe.poison at clean
    cases poison : x.readsPoison (x.plan i) l with
    | false => rfl
    | true =>
      rw [poison] at clean
      exact absurd clean (by decide)
  cases read : (x.reads (x.plan i) l)[k]? with
  | none => rfl
  | some r => exact List.any_eq_false.mp none r (List.mem_of_getElem? read) |> eq_false_of_ne_true

/-- A lane waits while PHASE is the parity that it gives. -/
theorem Exe.blocks_iff (x : Exe) (i : Instr) (b : Bar) :
    (((x.active i.ctl).map fun l => (l, x.reads (x.plan i) l)).any fun r => (argOf (r.2.map Prod.fst) 1).isTrue == b.phase) = true ↔
      ∃ l ∈ x.active i.ctl, ((argOf (x.args i l) 1).isTrue = true ↔ b.phases % 2 = 1) := by
  rw [List.any_map, List.any_eq_true]
  refine exists_congr fun l => and_congr_right fun _ => ?_
  show ((argOf (x.args i l) 1).isTrue == (b.phases % 2 == 1)) = true ↔ _
  rw [beq_iff_eq, Bool.eq_iff_iff, beq_iff_eq]

/-- The lanes of a wait ask for the parity of a phase, or for that of the one before it. -/
theorem Exe.early_eq (x : Exe) (i : Instr) (k : Nat) :
    (((x.active i.ctl).map fun l => (l, x.reads (x.plan i) l)).any fun r => (argOf (r.2.map Prod.fst) 1).isTrue != (k % 2 == 1)) =
      (x.active i.ctl).any fun l => (argOf (x.args i l) 1).isTrue != (k % 2 == 1) := by
  rw [List.any_map, Function.comp_def]
  rfl

/-- The flags of the operands that BAR.WAIT reads: the barrier's name once, the parity in every lane. -/
def Exe.waitFlags (x : Exe) (i : Instr) : BitVec 6 :=
  flagIf (!(((x.active i.ctl).map fun l => (l, x.reads (x.plan i) l)).filter fun r =>
    (r.1 == x.onceLane i && ((r.2[0]?).map Prod.snd).getD false) || ((r.2[1]?).map Prod.snd).getD false).isEmpty) flagPO

theorem Exe.waitFlags_clean {x : Exe} {i : Instr} (clean : ∀ l ∈ x.active i.ctl, x.poison i l = 0) : x.waitFlags i = 0 := by
  have good : ∀ r : Nat × List (Val × Bool), r ∈ (x.active i.ctl).map (fun l => (l, x.reads (x.plan i) l)) →
      ¬ ((r.1 == x.onceLane i && ((r.2[0]?).map Prod.snd).getD false) || ((r.2[1]?).map Prod.snd).getD false) = true := by
    rintro r mem
    obtain ⟨l, active, rfl⟩ := List.mem_map.mp mem
    simp only [Exe.reads_clean (clean l active), Bool.and_false, Bool.or_false, Bool.false_eq_true, not_false_eq_true]
  unfold Exe.waitFlags
  rw [List.filter_eq_nil_iff.mpr good]
  rfl

/-- A path at its wait departs when the phase in which it arrived is over (R147). -/
theorem Exe.barWait_waiting {x : Exe} {i : Instr} {m : Meet} {k : Nat} (stage : x.p.stage = .waiting m k) :
    x.barWait i = if (x.team.bar (numOf (x.onceVals i) 0)).phases = k then x.s else x.waited i (x.waitFlags i) k := by
  unfold Exe.barWait
  rw [stage]
  simp only [x.early_eq]
  rfl

/-- A path that comes to its wait stays when a lane asks for the parity of PHASE, and departs otherwise. -/
theorem Exe.barWait_first {x : Exe} {i : Instr} (calm : x.calm) (fresh : ∀ m k, x.p.stage ≠ .waiting m k) :
    let b := numOf (x.onceVals i) 0
    let bar := x.team.bar b
    x.barWait i = if x.launch.nbar ≤ b then x.trapAll i trapHandle
      else if ∃ l ∈ x.active i.ctl, ((argOf (x.args i l) 1).isTrue = true ↔ bar.phases % 2 = 1) then
        x.put (x.having { x.p with stage := .waiting (.bar b) bar.phases })
      else x.waited i (x.waitFlags i) (bar.phases - 1) := by
  intro b bar
  have noTrap : (modeEn x.p.mode &&& flagPO != 0) = false := by
    rw [show modeEn x.p.mode = 0 from calm]
    rfl
  unfold Exe.barWait
  dsimp only
  split
  · next m k stage => exact absurd stage (fresh m k)
  · rw [noTrap, Bool.and_false, if_neg Bool.false_ne_true]
    simp only [x.blocks_iff, x.early_eq]
    rfl

/-- Settles O29: each operation by its checks in order; a wait by the path's stage. -/
theorem barrierOperations : Obligations.BarrierOperations := by
  unfold Obligations.BarrierOperations
  intro s x c ops hx calm b n bar observed having goes poison traps
  refine ⟨?named, ?expect, ?init, ?state, ?wait⟩
  case named =>
    intro i mem outside
    simp only [List.mem_cons, List.not_mem_nil, or_false] at mem
    rcases mem with rfl | rfl
    · exact (exec_barExpect_eq hx calm c ops).trans (congrArg _ (if_pos outside))
    · exact (exec_barInit_eq hx calm c ops).trans (congrArg _ (if_pos (.inl outside)))
  case expect =>
    intro i v named
    have step := exec_barExpect_eq hx calm c ops
    dsimp only at step
    rw [if_neg (Nat.not_le.mpr named)] at step
    refine ⟨fun excess => ?_, fun fits => ?_⟩
    · rw [show (x.team.bar (b i)).expectBytes (n i) = none from if_pos excess] at step
      exact step
    · rw [show (x.team.bar (b i)).expectBytes (n i) = some v.tryComplete from if_neg (Int.not_lt.mpr fits)] at step
      refine ⟨fun full => ?_, fun missing => ?_⟩
      · rw [Bar.tryComplete_full full] at step
        exact ⟨_, step, Exe.commitAll_completes _ i _ _⟩
      · rw [Bar.tryComplete_partial missing] at step
        exact ⟨_, step, Exe.commitAll_completes _ i _ _⟩
  case init =>
    intro i named
    have step := exec_barInit_eq hx calm c ops
    dsimp only at step
    refine ⟨fun bad => step.trans (congrArg _ (if_pos (.inr bad))), fun low high => ?_⟩
    rw [if_neg (show ¬ (x.launch.nbar ≤ b i ∨ n i = 0 ∨ 48 < n i) by omega)] at step
    refine ⟨fun idle => ?_, fun busy => ?_⟩
    · rw [show (x.team.bar (b i)).init (n i) = some { bar i with expect := n i } from if_neg (by simpa using idle)] at step
      exact ⟨_, step, Exe.commitAll_completes _ i _ _⟩
    · rw [show (x.team.bar (b i)).init (n i) = none from if_pos (by simpa only [ne_eq, ← not_and_or] using busy)] at step
      exact step
  case state =>
    intro i named
    have step := exec_barState_eq hx calm c ops named
    refine ⟨fun outside => step.trans (congrArg _ (if_pos outside)), fun inside expect arrived => ?_⟩
    refine ⟨(x.team.bar (b i)).word, completes_of i _ _ (step.trans (congrArg _ ?_)), word_fields (x.team.bar (b i)) expect arrived⟩
    exact if_neg (Nat.not_le.mpr inside)
  case wait =>
    intro i stays fresh
    have step : exec i s = .next (x.barWait i) := onPath_next hx _
    have first := fun new => Exe.barWait_first (i := i) calm new
    refine ⟨fun new outside => ?_, fun new inside stay => ?_, fun k leaves => ⟨x.waitFlags i, Exe.waitFlags_clean (i := i), ?_⟩,
      fun m stage => ?_⟩
    · exact step.trans (congrArg _ ((first new).trans (if_pos outside)))
    · exact step.trans (congrArg _ ((first new).trans ((if_neg (Nat.not_le.mpr inside)).trans (if_pos stay))))
    · refine completes_of i _ _ (step.trans (congrArg _ ?_))
      rcases leaves with ⟨new, inside, go, rfl⟩ | ⟨m, stage, passed⟩
      · exact (first new).trans ((if_neg (Nat.not_le.mpr inside)).trans (if_neg go))
      · rw [Exe.barWait_waiting stage, if_neg passed]
        rfl
    · rw [step, Exe.barWait_waiting stage, if_pos rfl]

end Sys2Proof.Machine
end

section
/-! PROOF. Arrivals of a group at barriers and flights, the mask barrier, and the paths that go on behind them (R147 to R154, R338,
R339). -/

namespace Sys2Proof.Machine

/-- The executing path's group is one of the state's. -/
theorem exe_listed {s : State} {x : Exe} (hx : s.exe? = some x) : (mget x.s.groups x.gid).isSome = true := by
  obtain ⟨-, -, here, cur⟩ := exe_group hx
  rw [here]
  unfold State.exe? at hx
  rw [cur] at hx
  cases listed : mget s.groups x.gid with
  | none =>
    dsimp only at hx
    rw [listed] at hx
    cases hx
  | some g => rfl

theorem exe_here {s : State} {x : Exe} (hx : s.exe? = some x) : x.s.group x.gid = x.g := by
  obtain ⟨group, -, here, -⟩ := exe_group hx
  rw [here]
  exact group

/-! The group's arrival at a barrier (R147, R148). -/

/-- The path executes its arrive at a barrier while lanes of the group are missing. -/
theorem barArrive_missing {s : State} {x : Exe} (hx : s.exe? = some x) (calm : x.calm) (i : Instr) (sync : Bool)
    (first : x.p.stage = .none) (unmet : mget x.g.ctx.meets (.bar (numOf (x.onceVals i) 0)) = none) (holds : x.p.mask ≠ 0)
    (named : numOf (x.onceVals i) 0 < x.launch.nbar) (missing : x.g.live &&& ~~~x.p.mask ≠ 0) :
    let m := Meet.bar (numOf (x.onceVals i) 0)
    x.barArrive i sync = x.s.setGroup x.gid
      { x.g with ctx := { (x.having { x.p with stage := .arriving m }).ctx with meets := mset x.g.ctx.meets m x.p.mask } } := by
  intro m
  unfold Exe.barArrive
  rw [first]
  dsimp only
  rw [Exe.once_calm calm, if_neg (Nat.not_le.mpr named), (arriveAt_eq x (exe_here hx) m unmet holds).1 missing,
    exeOf_setGroup x.s x.gid x.pid _ { x.p with stage := .arriving m } (mget_mset_self _ _ _)]

/-- The path whose arrive was the group's last, as it stands at the barrier. -/
def Exe.metAt (x : Exe) (b : Nat) (v : Bar) : Exe :=
  let p : Path := { x.p with stage := .waiting (.bar b) (x.team.bar b).phases }
  ⟨(x.s.setTeam x.g.team { x.team with bars := mset x.team.bars b v }).setGroup x.gid (x.having p), x.gid, x.pid, x.having p, p⟩

/-- The last lanes of the group execute their arrive at a barrier: it counts, and the path leaves or waits. -/
theorem barArrive_last {s : State} {x : Exe} (hx : s.exe? = some x) (calm : x.calm) (i : Instr) (sync : Bool)
    (first : x.p.stage = .none) (unmet : mget x.g.ctx.meets (.bar (numOf (x.onceVals i) 0)) = none) (holds : x.p.mask ≠ 0)
    (others : ∀ q ∈ x.g.ctx.paths, q.2.stage ≠ .arriving (.bar (numOf (x.onceVals i) 0)))
    (named : numOf (x.onceVals i) 0 < x.launch.nbar) (last : x.g.live &&& ~~~x.p.mask = 0) (v : Bar)
    (arrived : (x.team.bar (numOf (x.onceVals i) 0)).arrive x.g.index = some v) :
    let b := numOf (x.onceVals i) 0
    let n := (x.team.bar b).phases
    let y := x.metAt b v
    x.barArrive i sync =
      if sync then if (y.team.bar b).phases = n then y.s else y.depart i b n []
      else y.commitAll i [.ofBool (n % 2 == 1)] (y.onceFlags i) := by
  intro b n y
  unfold Exe.barArrive
  rw [first]
  dsimp only
  rw [Exe.once_calm calm, if_neg (Nat.not_le.mpr named), ((arriveAt_eq x (exe_here hx) (.bar b) unmet holds).2 last).1,
    meetStep_bar x b unmet holds others last v arrived,
    exeOf_setGroup _ x.gid x.pid _ { x.p with stage := .waiting (.bar b) n } (mget_mset_self _ _ _)]
  rfl

theorem Exe.metAt_bar (x : Exe) (b : Nat) (v : Bar) : (x.metAt b v).team.bar b = v := by
  have team : (x.metAt b v).team = { x.team with bars := mset x.team.bars b v } := by
    show Option.getD (mget (mset x.s.teams x.g.team _) x.g.team) _ = _
    rw [mget_mset_self]
    rfl
  rw [team]
  show Option.getD (mget (mset x.team.bars b v) b) _ = v
  rw [mget_mset_self]
  rfl

theorem Exe.metAt_onceFlags (x : Exe) (b : Nat) (v : Bar) (i : Instr) : (x.metAt b v).onceFlags i = x.onceFlags i := by
  have staged : (x.metAt b v).oncePoison i = x.oncePoison i :=
    Exe.oncePoison_staged x (x.metAt b v).s (x.metAt b v).g (x.metAt b v).p rfl rfl i rfl rfl
  exact congrArg (flagIf · flagPO) staged

/-- The path at the barrier completes as it would have before its arrive. -/
theorem Exe.metAt_commitAll (x : Exe) (b : Nat) (v : Bar) (i : Instr) (lane : isCrossLane i = false) (vs : List Val) (f : BitVec 6) :
    (x.metAt b v).commitAll i vs f =
      Exe.commitAll { x with s := x.s.setTeam x.g.team { x.team with bars := mset x.team.bars b v } } i vs f := by
  unfold Exe.commitAll
  rw [show (x.metAt b v).active i.ctl = x.active i.ctl from rfl]
  exact commit_staged x _ _ _ i lane _ f

/-- A barrier whose phase the arrival completes, and one that it does not. -/
theorem Bar.arrive_full {b : Bar} (k : Nat) (room : b.arrived ≠ b.expect) (full : b.arrived + 1 = b.expect ∧ b.pend = 0) :
    b.arrive k = some { b with
      phases := b.phases + 1, arrived := 0, marks := [], counted := [], observed := mset b.observed b.phases b.counted } := by
  rw [arrive_some k room, Bar.tryComplete_full full]

theorem Bar.arrive_partial {b : Bar} (k : Nat) (room : b.arrived ≠ b.expect) (missing : ¬ (b.arrived + 1 = b.expect ∧ b.pend = 0)) :
    b.arrive k = some { b with
      arrived := b.arrived + 1, marks := if b.marks.contains k then b.marks else b.marks ++ [k] } := by
  rw [arrive_some k room, Bar.tryComplete_partial missing]

/-! The mask barrier (R154). -/

theorem maskSub_iff {a b : LaneMask} : maskSub a b = true ↔ a &&& ~~~b = 0 := by
  unfold maskSub
  rw [beq_iff_eq]

/-- Masks that each hold the other's lanes are one. -/
theorem LaneMask.eq_of_sub {a b : LaneMask} (ab : a &&& ~~~b = 0) (ba : b &&& ~~~a = 0) : a = b := by
  rw [and_not_eq] at ab ba
  refine BitVec.eq_of_getLsbD_eq fun j hj => ?_
  rw [Bool.eq_iff_iff]
  exact ⟨ab j hj, ba j hj⟩

theorem lanesOf_ne_nil {m : LaneMask} (holds : m ≠ 0) : lanesOf m ≠ [] := fun none =>
  holds (by rw [← maskOf_lanesOf m, none]; rfl)

/-- The masks of a path's lanes match where each is the same mask, which names all of them and live lanes alone. -/
theorem Group.maskBad_same {g : Group} (first : g.ctx.barm = []) {mask m : LaneMask} (names : mask &&& ~~~m = 0)
    (live : m &&& ~~~g.live = 0) : g.maskBad ((lanesOf mask).map fun l => (l, m)) = false := by
  unfold Group.maskBad
  rw [first]
  simp only [List.nil_append, List.any_map, Bool.or_eq_false_iff, List.any_eq_false]
  refine ⟨fun l mem => ?_, fun l _ => by simp⟩
  obtain ⟨small, holds⟩ := mem_lanesOf.mp mem
  simp [and_not_eq.mp names l small holds, live]

/-- The path executes a BARM whose mask names live lanes, its own among them, before any other path of the group: it goes on where the
mask names no other lane, and waits at the mask barrier where it does. -/
theorem barm_first {x : Exe} (calm : x.calm) (i : Instr) (lane : isCrossLane i = false) (first : x.p.stage = .none) (holds : x.p.mask ≠ 0)
    (empty : x.g.ctx.barm = []) (others : ∀ q ∈ x.g.ctx.paths, q.2.stage ≠ .masked) (m : BitVec 64)
    (same : ∀ l ∈ x.lanes, (argOf (x.args i l) 0).toBits = m) (names : x.p.mask &&& ~~~m = 0) (live : m &&& ~~~x.g.live = 0) :
    let u := x.s.bump x.eid 16 x.team.core 1
    let f := flagIf (!(x.lanes.filter (x.readsPoison (x.plan i))).isEmpty) flagPO
    (m = x.p.mask → x.barm i = Exe.commitAll { x with s := u } i [] f) ∧
    (m ≠ x.p.mask → x.barm i = u.setGroup x.gid { x.g with
      ctx := { (x.having { x.p with stage := .masked }).ctx with barm := x.lanes.map fun l => (l, m) } }) := by
  intro u f
  have masks : (x.lanes.map fun l => (l, (argOf (x.vals (x.plan i) l) 0).toBits)) = x.lanes.map fun l => (l, m) :=
    List.map_congr_left fun l mem => by rw [show (argOf (x.vals (x.plan i) l) 0).toBits = m from same l mem]
  have noTrap : (modeEn x.p.mode &&& flagPO != 0) = false := by
    rw [show modeEn x.p.mode = 0 from calm]
    rfl
  have good : x.g.maskBad (x.lanes.map fun l => (l, m)) = false := Group.maskBad_same empty names live
  have named : ((x.lanes.map fun l => (l, m)).map Prod.snd).headD 0 = m := by
    cases lanes : x.lanes with
    | nil => exact absurd lanes (lanesOf_ne_nil holds)
    | cons => rfl
  have here : maskOf ((x.lanes.map fun l => (l, m)).map Prod.fst) = x.p.mask := by
    rw [List.map_map, show (Prod.fst ∘ fun l : Nat => (l, m)) = id from rfl, List.map_id]
    exact maskOf_lanesOf _
  have step : x.barm i = if maskSub m x.p.mask then
      Exe.commitAll ⟨u, x.gid, x.pid, x.having { x.p with stage := .released }, x.p⟩ i [] f
    else u.setGroup x.gid { x.g with
      ctx := { (x.having { x.p with stage := .masked }).ctx with barm := x.lanes.map fun l => (l, m) } } := by
    have freed := map_mset (fun p : Path => if p.stage = .masked then { p with stage := .released } else p) x.g.ctx.paths x.pid
      { x.p with stage := .masked } fun q mem => if_neg (others q mem)
    unfold Exe.barm
    rw [first]
    dsimp only
    rw [noTrap, Bool.and_false, if_neg Bool.false_ne_true, masks, good, if_neg Bool.false_ne_true]
    simp only [Group.setPath, empty, List.nil_append, named, here, Ctx.mapPaths, freed, if_true]
    rw [← empty]
    rfl
  refine ⟨fun all => ?_, fun more => ?_⟩
  · rw [step, if_pos (maskSub_iff.mpr (all ▸ names))]
    exact commit_having x u _ i lane _ f
  · rw [step, if_neg fun sub => more (LaneMask.eq_of_sub (maskSub_iff.mp sub) names)]

/-! Paths that go on. -/

theorem flight_first {x : Exe} (calm : x.calm) (i : Instr) (first : x.p.stage = .none) :
    x.flight i = if x.launch.nflight ≤ numOf (x.onceVals i) 0 then x.trapAll i trapHandle
      else x.arriveAt (.flight (numOf (x.onceVals i) 0)) := by
  unfold Exe.flight
  rw [first]
  exact Exe.once_calm calm i _

theorem barArrive_named {x : Exe} (calm : x.calm) (i : Instr) (sync : Bool) (first : x.p.stage = .none)
    (outside : x.launch.nbar ≤ numOf (x.onceVals i) 0) : x.barArrive i sync = x.trapAll i trapHandle := by
  unfold Exe.barArrive
  rw [first]
  exact (Exe.once_calm calm i _).trans (if_pos outside)

theorem barArrive_waiting {x : Exe} {b n : Nat} (i : Instr) (sync : Bool) (stage : x.p.stage = .waiting (.bar b) n) :
    x.barArrive i sync =
      if sync then if (x.team.bar b).phases = n then x.s else x.depart i b n []
      else x.commitAll i [.ofBool (n % 2 == 1)] (x.onceFlags i) := by
  unfold Exe.barArrive
  rw [stage]

theorem flight_released {x : Exe} (i : Instr) (stage : x.p.stage = .released) :
    x.flight i = x.commitAll i [] (x.onceFlags i) := by
  unfold Exe.flight
  rw [stage]

theorem barm_released {x : Exe} (i : Instr) (stage : x.p.stage = .released) :
    x.barm i = x.commitAll i [] (flagIf (x.lanes.any (x.readsPoison (x.plan i))) flagPO) := by
  unfold Exe.barm
  rw [stage]

/-- No lane that reads no poison reads any. -/
theorem Exe.any_clean {x : Exe} {i : Instr} {ls : List Nat} (clean : ∀ l ∈ ls, x.poison i l = 0) :
    ls.any (x.readsPoison (x.plan i)) = false := by
  rw [List.any_eq_false]
  intro l mem poison
  have flag := clean l mem
  unfold Exe.poison at flag
  rw [poison] at flag
  exact absurd flag (by decide)

/-- Settles O30: an arrival by the lanes that are missing and by the barrier's phase; a path that waited by its stage. -/
theorem barrierArrivalsAndReleases : Obligations.BarrierArrivalsAndReleases := by
  unfold Obligations.BarrierArrivalsAndReleases
  refine ⟨?arrivals, ?releases⟩
  case arrivals =>
    intro s x c ops hx calm n sync arrive flight barm goes poison stops left first unmet holds
    have syncs : exec sync s = .next (x.barArrive sync true) := onPath_next hx _
    have arrives : exec arrive s = .next (x.barArrive arrive false) := onPath_next hx _
    have flies : exec flight s = .next (x.flight flight) := onPath_next hx _
    have masks : exec barm s = .next (x.barm barm) := onPath_next hx _
    refine ⟨?bars, ?flights, ?masks⟩
    case bars =>
      intro i mem
      simp only [List.mem_cons, List.not_mem_nil, or_false] at mem
      rcases mem with rfl | rfl
      · refine ⟨fun outside => ?_, fun named missing => ?_, fun named last room => ?_⟩
        · exact syncs.trans (congrArg _ (barArrive_named calm sync true first outside))
        · exact syncs.trans (congrArg _ (barArrive_missing hx calm sync true first (unmet _).1 holds named missing))
        · intro b v full v' having past
          refine ⟨nofun, fun _ phase => ?_, fun _ part => ?_⟩
          · rw [barArrive_last hx calm sync true first (unmet _).1 holds (unmet _).2 named last v' (Bar.arrive_full _ room phase)] at syncs
            rw [if_pos rfl, Exe.metAt_bar, if_neg (Nat.succ_ne_self _)] at syncs
            unfold Exe.depart at syncs
            rw [Exe.metAt_commitAll x _ _ sync rfl, Exe.metAt_onceFlags, Exe.metAt_bar] at syncs
            refine ⟨_, syncs.trans (congrArg _ ?_), Exe.commitAll_completes { x with s := having v' } sync [] (poison sync ||| past)⟩
            unfold State.phaseFlags
            rw [mget_mset_self]
            rfl
          · rw [barArrive_last hx calm sync true first (unmet _).1 holds (unmet _).2 named last v (Bar.arrive_partial _ room part)] at syncs
            rw [if_pos rfl, Exe.metAt_bar, if_pos rfl] at syncs
            exact syncs
      · refine ⟨fun outside => ?_, fun named missing => ?_, fun named last room => ?_⟩
        · exact arrives.trans (congrArg _ (barArrive_named calm arrive false first outside))
        · exact arrives.trans (congrArg _ (barArrive_missing hx calm arrive false first (unmet _).1 holds named missing))
        · intro b v full v' having past
          refine ⟨fun _ w phase => ?_, nofun, nofun⟩
          have arrived : b.arrive x.g.index = some w := by
            rcases phase with ⟨phase, rfl⟩ | ⟨part, rfl⟩
            · exact Bar.arrive_full _ room phase
            · exact Bar.arrive_partial _ room part
          rw [barArrive_last hx calm arrive false first (unmet _).1 holds (unmet _).2 named last w arrived] at arrives
          rw [if_neg Bool.false_ne_true, Exe.metAt_commitAll x _ _ arrive rfl, Exe.metAt_onceFlags] at arrives
          exact ⟨_, arrives, Exe.commitAll_completes { x with s := having w } arrive [.ofBool (b.phases % 2 == 1)] (poison arrive)⟩
    case flights =>
      intro die
      rw [flight_first calm flight first] at flies
      refine ⟨fun outside => ?_, fun named missing => ?_, fun named last room => ?_⟩
      · exact next_of_pos flies outside
      · exact (next_of_neg flies (Nat.not_le.mpr named)).trans
          (congrArg _ ((arriveAt_eq x (exe_here hx) _ (unmet _).1 holds).1 missing))
      · have listed : (mget x.s.groups x.gid).isSome := exe_listed hx
        exact (next_of_neg flies (Nat.not_le.mpr named)).trans (congrArg _
          (((arriveAt_eq x (exe_here hx) _ (unmet _).1 holds).2 last).1.trans
            (meetStep_flight x _ (unmet _).1 holds (exe_here hx) listed (unmet _).2 last room)))
    case masks =>
      intro m empty others same names live u
      obtain ⟨all, more⟩ := barm_first calm barm rfl first holds empty others m same names live
      refine ⟨_, (x.poison_flag barm x.lanes).2, fun eq => ?_, fun ne => ?_⟩
      · exact ⟨_, masks.trans (congrArg _ (all eq)), Exe.commitAll_completes { x with s := u } barm [] _⟩
      · exact masks.trans (congrArg _ (more ne))
  case releases =>
    intro s x c ops hx goes poison
    refine ⟨fun b n stage => ?_, fun stage => ?_⟩
    · intro past sync arrive
      have syncs : exec sync s = .next (x.barArrive sync true) := onPath_next hx _
      have arrives : exec arrive s = .next (x.barArrive arrive false) := onPath_next hx _
      rw [barArrive_waiting _ _ stage] at syncs arrives
      refine ⟨fun passed => ?_, fun open_ => ?_, completes_of arrive _ _ arrives⟩
      · rw [if_pos rfl, if_neg passed] at syncs
        exact completes_of sync _ _ syncs
      · rw [if_pos rfl, if_pos open_] at syncs
        exact syncs
    · have flies : exec (.flight c ops) s = .next (x.flight (.flight c ops)) := onPath_next hx _
      have masks : exec (.barm c ops) s = .next (x.barm (.barm c ops)) := onPath_next hx _
      rw [flight_released _ stage] at flies
      rw [barm_released _ stage] at masks
      refine ⟨completes_of (.flight c ops) _ _ flies, _, fun clean => ?_, completes_of (.barm c ops) _ _ masks⟩
      rw [Exe.any_clean clean]
      rfl

end Sys2Proof.Machine
end

section
/-! PROOF. Collectives: what COLL.GROUP, RED, BCAST and BAR issue, and how a group changes state (R162 to R166, R350 to R352). -/

namespace Sys2Proof.Machine

/-! COLL.GROUP (R351). -/

/-- Issuing from a state with other caches. -/
theorem issues_caching {s : State} {x : Exe} (i : Instr) (o : EngOp) (c' : State) (after : State → State) (res : BitVec 64 → List Val)
    (waits : x.issueWaits o.cls = true → exec i s = .next x.s)
    (goes : x.issueWaits o.cls = false → exec i s = .next (Exe.issue { x with s := x.s.caching c' } o fun y fut _ =>
      Exe.commitAll { x with s := after y.s } i (res fut) (x.onceFlags i))) :
    x.Issues s i { x with s := x.s.caching c' } o after res := by
  refine Exe.issue_issues i o after res { x with s := x.s.caching c' } ?_
  have same : Exe.issueWaits { x with s := x.s.caching c' } o.cls = x.issueWaits o.cls := rfl
  rw [same]
  cases full : x.issueWaits o.cls with
  | true => exact (waits full).trans (congrArg _ (if_pos rfl).symm)
  | false =>
    have step := goes full
    rw [Exe.issue_eq, same, full] at step
    exact step

/-- The status with which the build of a group is issued: by its list, or for want of one. -/
def Exe.buildStatus (x : Exe) (down : Bool) (ms : Option (List Nat)) : BitVec 8 :=
  match ms with
  | none => if down then futLinkKey else futMismatch
  | some l => if !x.s.listOk l then futMismatch else if x.s.membersUp x.eid l then futPending else futLinkKey

/-- The build of a group takes a handle that the enclave has not used (R351). -/
theorem collBuild_issues {s : State} {x : Exe} (i : Instr) (scope : Nat) (vs : List Val) (c' : State) (down : Bool) (ms : Option (List Nat))
    (waits : x.issueWaits 3 = true → exec i s = .next x.s)
    (goes : x.issueWaits 3 = false → exec i s = .next (Exe.collBuild { x with s := x.s.caching c' } i scope vs down ms))
    (room : x.encl.handles.length < 65536) :
    let st := x.buildStatus down ms
    ∃ h, h < 65536 ∧ h ∉ x.encl.handles ∧ x.Issues s i { x with s := x.s.caching c' }
      { Exe.newOp { x with s := x.s.caching c' } i 3 vs scope none 0 0 with status := st }
      (fun t =>
        let t := t.setEncl x.eid { t.encl x.eid with handles := (t.encl x.eid).handles ++ [h] }
        if st = futPending then { t with colls := t.colls ++ [(x.s.next, ⟨x.eid, h, ms.getD [], .building, 0, false, x.s.next, 0, [],
          listDigest (ms.getD []), [], []⟩)] } else t)
      fun fut => [.bits fut, ofTy .i32 h] := by
  intro st
  obtain ⟨small, unused⟩ := handle_fresh x.encl.handles (Config.freeNat (.choice 2000) x.s.free % 65536) room (Nat.mod_lt _ (by decide))
  refine ⟨_, small, unused, issues_caching i _ c' _ _ waits fun free => (goes free).trans (congrArg _ ?_)⟩
  unfold Exe.collBuild
  rw [if_neg (by show ¬ 65536 ≤ x.encl.handles.length; omega)]
  cases ms with
  | none =>
    refine issue_congr_next _ _ _ _ fun fut n next => ?_
    subst next
    exact congrArg (Exe.commitAll _ i _) (Exe.onceFlags_upon x _ i rfl)
  | some l =>
    refine issue_congr_next _ _ _ _ fun fut n next => ?_
    subst next
    exact congrArg (Exe.commitAll _ i _) (Exe.onceFlags_upon x _ i rfl)

/-- A build waits at issue as every operation of its class. -/
theorem collBuild_waits {x : Exe} (i : Instr) (scope : Nat) (vs : List Val) (down : Bool) (ms : Option (List Nat))
    (full : x.issueWaits 3 = true) : x.collBuild i scope vs down ms = x.s := by
  unfold Exe.collBuild
  dsimp only
  split <;> exact if_pos full

theorem exec_collGroup_eq {s : State} {x : Exe} (hx : s.exe? = some x) (calm : x.calm) (c : Ctl) (scope : Scope) (ops : List Opnd)
    (acts : x.active c ≠ []) :
    let i := Instr.collGroup c scope ops
    let vs := x.onceVals i
    let sc := max scope.code 7
    let list := (argOf vs 0).toBits
    exec i s = .next (if numOf vs 1 < 2 ∨ 15 < numOf vs 1 then x.collBuild i sc vs false none
      else if x.windowDown false list then x.collBuild i sc vs true none
      else if x.issueWaits 3 then x.s
      else x.plainRead list .engRead (numOf vs 1) fun s bs => (x.upon s).collBuild i sc vs false (some (bs.map BitVec.toNat))) :=
  (onPath_next hx _).trans (congrArg _ (Exe.engine_none calm (.collGroup c scope ops) acts _))

/-- The list is one of packages that can form a group. -/
theorem State.listOk_iff (s : State) (ms : List Nat) :
    s.listOk ms = true ↔ (∀ m ∈ ms, m < s.fabricP) ∧ (distinct ms).length = ms.length ∧ s.fabricF ∈ ms := by
  unfold State.listOk
  simp [and_assoc]

theorem Exe.buildStatus_some (x : Exe) (ms : List Nat) :
    x.buildStatus false (some ms) =
      if ((∀ m ∈ ms, m < x.s.fabricP) ∧ (distinct ms).length = ms.length ∧ x.s.fabricF ∈ ms) then
        (if x.s.membersUp x.eid ms then futPending else futLinkKey) else futMismatch := by
  show (if (!x.s.listOk ms) = true then futMismatch else if x.s.membersUp x.eid ms then futPending else futLinkKey) = _
  rw [← ite_not]
  exact if_congr (by rw [Bool.not_eq_true', Bool.not_eq_false, x.s.listOk_iff]) rfl rfl

/-! COLL.RED, COLL.BCAST and COLL.BAR (R350, R352). -/

theorem ite_and_beq {α : Type} (b : Bool) (n : Nat) (t u : α) :
    (if (b && n == 0) = true then t else u) = if b = true ∧ n = 0 then t else u :=
  if_congr (by rw [Bool.and_eq_true, beq_iff_eq]) rfl rfl

section
variable {s : State} {x : Exe} (hx : s.exe? = some x) (calm : x.calm) (c : Ctl) (scope : Scope) (ops : List Opnd) (acts : x.active c ≠ [])
include hx calm acts

theorem exec_collRed_eq :
    let i := Instr.collRed c scope ops
    let vs := x.onceVals i
    exec i s = .next (x.collIssue i scope.code 1 (numOf vs 0) (numOf vs 1) (numOf vs 4) 0 vs) :=
  (onPath_next hx _).trans (congrArg Host.Outcome.next (Exe.engine_none calm (.collRed c scope ops) acts _))

theorem exec_collBcast_eq :
    let i := Instr.collBcast c scope ops
    let vs := x.onceVals i
    exec i s = .next (x.collIssue i scope.code 2 0 (numOf vs 0) (numOf vs 4) (numOf vs 1) vs) :=
  (onPath_next hx _).trans (congrArg Host.Outcome.next (Exe.engine_none calm (.collBcast c scope ops) acts _))

theorem exec_collBar_eq :
    let i := Instr.collBar c scope ops
    let vs := x.onceVals i
    exec i s = .next (x.collIssue i scope.code 3 0 (numOf vs 0) 0 0 vs) :=
  (onPath_next hx _).trans (congrArg Host.Outcome.next (Exe.engine_none calm (.collBar c scope ops) acts _))

/-- The three collectives take one step, by their form and the places of their operands. -/
theorem exec_collective_eq {q : Instr × Nat × Nat × Nat × Nat}
    (mem : q ∈ [(Instr.collRed c scope ops, 1, 1, 4, 0), (.collBcast c scope ops, 2, 0, 4, 1), (.collBar c scope ops, 3, 0, 0, 0)]) :
    let vs := x.onceVals q.1
    let form := q.2.1
    exec q.1 s = .next (x.collIssue q.1 scope.code form (if form = 1 then numOf vs 0 else 0) (numOf vs q.2.2.1)
      (if form = 3 then 0 else numOf vs q.2.2.2.1) (if form = 2 then numOf vs q.2.2.2.2 else 0) vs) := by
  simp only [List.mem_cons, List.not_mem_nil, or_false] at mem
  rcases mem with rfl | rfl | rfl
  · simpa using exec_collRed_eq hx calm c scope ops acts
  · simpa using exec_collBcast_eq hx calm c scope ops acts
  · simpa using exec_collBar_eq hx calm c scope ops acts

end

section
variable {x : Exe} (i : Instr) (scope form op h n root : Nat) (vs : List Val)

/-- The operation of a collective as it is issued. -/
def Exe.collOp (x : Exe) (i : Instr) (scope form : Nat) (vs : List Val) : EngOp :=
  { x.newOp i 3 vs (max scope 7) none 0 0 with maj := 0x51, sub := form }

/-- A collective that has already completed with a status. -/
def Exe.collOver (x : Exe) (i : Instr) (scope form : Nat) (vs : List Val) (st : BitVec 8) : State :=
  x.issue { x.collOp i scope form vs with status := st } fun y fut _ => y.commitAll i [.bits fut] (x.onceFlags i)

theorem collOver_issues {s : State} {st : BitVec 8} (step : exec i s = .next (x.collOver i scope form vs st)) :
    x.Issues s i x { x.collOp i scope form vs with status := st } id fun fut => [.bits fut] :=
  Exe.issue_issues i _ id _ x step

theorem collIssue_unnamed (unnamed : x.s.collOf x.eid h = none) :
    x.collIssue i scope form op h n root vs = x.collOver i scope form vs futMismatch := by
  unfold Exe.collIssue Exe.collIssueTo
  rw [unnamed]
  rfl

section
variable {key : Nat} {g : Coll} (named : x.s.collOf x.eid h = some (key, g))
include named

theorem collIssue_mismatch (bad : g.state = .building ∨ g.state = .invalid) :
    x.collIssue i scope form op h n root vs = x.collOver i scope form vs futMismatch := by
  unfold Exe.collIssue Exe.collIssueTo
  rw [named]
  rcases bad with state | state <;> (dsimp only; rw [state]; rfl)

theorem collIssue_lost (state : g.state = .lost) :
    x.collIssue i scope form op h n root vs = x.collOver i scope form vs futPeerLost := by
  unfold Exe.collIssue Exe.collIssueTo
  rw [named]
  dsimp only
  rw [state]
  rfl

theorem collIssue_empty (state : g.state = .valid) (red : form = 1) (none : n = 0) :
    x.collIssue i scope form op h n root vs = x.collOver i scope form vs futOK := by
  unfold Exe.collIssue Exe.collIssueTo
  rw [named]
  dsimp only
  rw [state]
  exact if_pos ⟨red, none⟩

/-- What follows the issue of a contribution at once: the group has received this member's own, and the members that wait for no bytes
of it are told (R164, R352). -/
def Exe.contributed (x : Exe) (g : Coll) (about : Contrib) (reads : Nat) (t : State) : State :=
  let up := x.s.membersUp x.eid g.members
  let next : Coll := { g with issued := g.issued + 1 }
  let t : State := { t with colls := mset t.colls about.group (if up then next.receive x.s.fabricF about [] else next) }
  if up = true ∧ reads = 0 then t.collSend x.eid g.issued g.members [] else t

/-- A collective on a valid handle is this member's contribution to the next meeting, under a live generation (R163). -/
theorem collIssue_contributes (state : g.state = .valid) (some_ : ¬ (form = 1 ∧ n = 0)) :
    ∃ gen, (gen = g.gen ∨ (g.rekey = true ∧ gen = g.gen + 1)) ∧
      let about : Contrib := ⟨key, g.issued, gen, form, op, n, root⟩
      let bytes := collBytes form op n
      let reads := if g.sends about x.s.fabricF then granules (numOf vs 3) bytes else 0
      let writes := if form = 3 then 0 else granules (numOf vs 2) bytes
      x.collIssue i scope form op h n root vs =
        x.issue { x.collOp i scope form vs with
            total := reads + writes, members := [(key, g.issued, [])]
            status := if x.s.membersUp x.eid g.members then futPending else futLinkKey }
          fun y fut _ => (x.upon (x.contributed g about reads y.s)).commitAll i [.bits fut] (x.onceFlags i) := by
  obtain ⟨_, _, _, st, _, _, _, _, _, _, _, _⟩ := g
  obtain rfl : st = .valid := state
  unfold Exe.collIssue Exe.collIssueTo
  rw [named]
  dsimp only
  rw [if_neg some_]
  split
  · next second =>
    refine ⟨_, .inr ⟨(Bool.and_eq_true_iff.mp second).1, rfl⟩, issue_congr _ _ _ _ fun fut n => ?_⟩
    simp only [ite_and_beq]
    rfl
  · refine ⟨_, .inl rfl, issue_congr _ _ _ _ fun fut n => ?_⟩
    simp only [ite_and_beq]
    rfl

end

end

/-! How a group changes state (R162 to R164). -/

section
variable {s : State} {k : Nat} {g : Coll} (group : mget s.colls k = some g)
include group

theorem exec_collGroupBuildDone_eq {digests : List (BitVec 384)} (building : g.state = .building)
    (whole : digests.length + 1 = g.members.length) :
    exec (.collGroupBuildDone k digests) s = .next (if digests.all (· == g.digest) then
        State.finishOp { s with keys := s.keys + 1, colls := mset s.colls k { g with state := .valid, keys := [(0, s.keys)] } } g.build futOK
      else State.finishOp { s with colls := mset s.colls k { g with state := .invalid } } g.build futMismatch) := by
  show execCollGroupBuildDone k digests s = _
  unfold execCollGroupBuildDone
  rw [group]
  exact congrArg _ (if_neg (by simp [building, whole]))

theorem exec_collGroupRekey_eq (valid : g.state = .valid) :
    exec (.collGroupRekey k g.rekey) s = .next (if g.rekey = true then
        { s with colls := mset s.colls k { g with rekey := false, gen := g.gen + 1, keys := mdel g.keys g.gen } }
      else { s with
        keys := s.keys + 1, colls := mset s.colls k { g with rekey := true, keys := mset g.keys (g.gen + 1) s.keys } }) := by
  show execCollGroupRekey k g.rekey s = _
  unfold execCollGroupRekey
  rw [group]
  exact congrArg _ (if_neg (by simp [valid]))

theorem exec_collPeerLost_eq {m : Nat} (valid : g.state = .valid) (other : m ≠ s.fabricF) (member : m ∈ g.members) :
    exec (.collPeerLost k m) s = .next
      (((s.collOps k).filter fun op => !(mget s.ops op).any fun o => o.writing (g.readSteps o s.fabricF)).foldl
        (fun t op => t.finishOp op futPeerLost) { s with colls := mset s.colls k { g with state := .lost } }) := by
  show execCollPeerLost k m s = _
  unfold execCollPeerLost
  rw [group]
  exact congrArg _ (if_neg (by simp [valid, other, member]))

end

/-- Settles O35: a build by its list, a collective by the handle's group, the events by the group's state. -/
theorem collectivesIssue : Obligations.CollectivesIssue := by
  unfold Obligations.CollectivesIssue
  intro s x c scope ops hx calm acts n op
  refine ⟨?build, fun q mem => ?issue, fun k g group => ?events⟩
  case build =>
    intro i list builds
    have step := exec_collGroup_eq hx calm c scope ops acts
    dsimp only at step
    have outside : ¬ (2 ≤ n i 1 ∧ n i 1 ≤ 15) ↔ n i 1 < 2 ∨ 15 < n i 1 := by omega
    refine ⟨fun bad room => ?_, fun low high down room => ?_, fun p ps low high up free located here => ?_⟩
    · have step := next_of_pos step (outside.mp bad)
      exact collBuild_issues i _ _ x.s false none (fun full => step.trans (congrArg _ (collBuild_waits i _ _ _ _ full))) (fun _ => step) room
    · have step := next_of_pos (next_of_neg step fun q => outside.mpr q ⟨low, high⟩) down
      exact collBuild_issues i _ _ x.s true none (fun full => step.trans (congrArg _ (collBuild_waits i _ _ _ _ full))) (fun _ => step) room
    · intro ms
      have step := next_of_neg (next_of_neg (next_of_neg step fun q => outside.mpr q ⟨low, high⟩) (ne_true_of_eq_false up))
        (ne_true_of_eq_false free)
      rw [plainRead_ok x _ _ _ _ p ps located here] at step
      obtain ⟨c', touched⟩ := x.touchAll_only 0 false x.s ps
      rw [touched] at step
      refine ⟨c', fun room => ?_⟩
      rw [← x.buildStatus_some ms]
      exact collBuild_issues i _ _ c' false (some ms) (fun full => by rw [free] at full; cases full) (fun _ => step) room
  case issue =>
    intro i form handle word count root o issues
    have step := exec_collective_eq hx calm c scope ops acts mem
    have completed : ∀ st, x.collIssue i scope.code form word handle count root (x.onceVals i) =
        x.collOver i scope.code form (x.onceVals i) st → issues { o with status := st } id :=
      fun st eq => collOver_issues i scope.code form (x.onceVals i) (step.trans (congrArg _ eq))
    cases named : x.s.collOf x.eid handle with
    | none => exact completed _ (collIssue_unnamed i _ _ _ _ _ _ _ named)
    | some q =>
      obtain ⟨key, g⟩ := q
      refine ⟨fun bad => completed _ (collIssue_mismatch i _ _ _ _ _ _ _ named bad),
        fun lost => completed _ (collIssue_lost i _ _ _ _ _ _ _ named lost), fun valid red none =>
          completed _ (collIssue_empty i _ _ _ _ _ _ _ named valid red none), fun valid some_ => ?_⟩
      obtain ⟨gen, live, issued⟩ := collIssue_contributes i scope.code form word handle count root (x.onceVals i) named valid some_
      exact ⟨gen, live, Exe.issues_of_issue i _ (x.contributed g ⟨key, g.issued, gen, form, word, count, root⟩ _) _
        (step.trans (congrArg _ issued))⟩
  case events =>
    intro having
    refine ⟨fun digests building whole => ⟨fun agree => ?_, fun ⟨d, mem, differs⟩ => ?_⟩, fun valid once => ?_, fun valid twice => ?_,
      fun m valid other member => exec_collPeerLost_eq group valid other member⟩
    · exact (exec_collGroupBuildDone_eq group building whole).trans (congrArg _ (if_pos (by simpa using agree)))
    · exact (exec_collGroupBuildDone_eq group building whole).trans (congrArg _ (if_neg (by simpa using ⟨d, mem, differs⟩)))
    · have step := exec_collGroupRekey_eq group valid
      rw [once] at step
      exact step
    · have step := exec_collGroupRekey_eq group valid
      rw [twice] at step
      exact step

end Sys2Proof.Machine
end

section
/-! PROOF. Futures: what each lane's future reports, what observes it, and the path that waits for all of them (R130 to R138, R346,
R347). -/

namespace Sys2Proof.Machine

/-! The forms that read each active lane's own future (R131, R346). -/

/-- What the futures of the active lanes report. -/
def Exe.futViews (x : Exe) (i : Instr) : FutViews :=
  (x.active i.ctl).map fun l => (l, x.s.futState x.g.team (argOf (x.args i l) 0).toBits)

/-- The active lanes whose word is none of their team's futures. -/
def Exe.wrongFutures (x : Exe) (i : Instr) : List Nat :=
  (x.active i.ctl).filter fun l => !x.s.futValid x.g.team (argOf (x.args i l) 0).toBits

theorem Exe.futures_wrong {x : Exe} (calm : x.calm) (i : Instr) (k : FutViews → BitVec 6 → State) (bad : x.wrongFutures i ≠ []) :
    x.futures i k = x.trapAll i trapHandle := by
  rw [Exe.futures_eq calm]
  exact if_neg bad

theorem Exe.futures_good {x : Exe} (calm : x.calm) (i : Instr) (k : FutViews → BitVec 6 → State) (good : x.wrongFutures i = []) :
    x.futures i k = k (x.futViews i) (x.raised i fun _ => 0) := by
  rw [Exe.futures_eq calm]
  exact if_pos good

/-- Results that each active lane takes from its own future. -/
theorem Exe.commit_views (x : Exe) (u : State) (i : Instr) (res : BitVec 8 → List Val) (f : BitVec 6) :
    Exe.Completes { x with s := u } i (x.flagged f)
      (x.only i fun l => res (x.s.futState x.g.team (argOf (x.args i l) 0).toBits).1)
      ((x.upon u).commit i ((x.futViews i).map fun v => (v.1, res v.2.1)) f) := by
  let out := fun l => res (x.s.futState x.g.team (argOf (x.args i l) 0).toBits).1
  have results : (x.futViews i).map (fun v => (v.1, res v.2.1)) = (x.active i.ctl).map fun l => (l, out l) := List.map_map ..
  rw [results]
  exact Exe.commit_completes { x with s := u } i _ f _ (fun l _ => mget_map_self out _ l) (mget_active x i.ctl out)

theorem FutViews.any_pending (x : Exe) (i : Instr) : ((x.futViews i).any fun v => v.2.1 == futPending) = true ↔
    ∃ l ∈ x.active i.ctl, (x.s.futState x.g.team (argOf (x.args i l) 0).toBits).1 = futPending := by
  unfold Exe.futViews
  simp

theorem FutViews.all_over (fs : FutViews) : (fs.all fun v => v.2.1 != futPending) = !fs.any fun v => v.2.1 == futPending := by
  simp [List.all_eq_not_any_not, bne]

/-! FUT.ALL (R136). -/

theorem exec_futAll_eq {s : State} {x : Exe} (hx : s.exe? = some x) (calm : x.calm) (c : Ctl) (ops : List Opnd) (acts : x.active c ≠ []) :
    let i := Instr.futAll c ops
    let ws := (x.onceVals i).map Val.toBits
    let parts := ws.map fun w => x.s.futState x.g.team w
    let scopes := parts.map fun v => ((v.2.bind (mget x.s.ops)).map EngOp.scope).getD 2
    exec i s = .next (if ws.any fun w => !x.s.futValid x.g.team w then x.trapAll i trapHandle
      else x.issue { x.newOp i 5 (x.onceVals i) (scopes.foldl max 0) none 0 0 with
          members := parts.map fun v => (v.2.getD 0, v.1.toNat, []) }
        fun y fut _ => (x.upon (y.s.combineAll y.s.ops.length)).commitAll i [.bits fut] (x.onceFlags i)) := by
  intro i ws parts scopes
  refine (onPath_next hx _).trans (congrArg _ ?_)
  dsimp only
  rw [Exe.engine_none calm i acts]
  have views : parts = (x.onceVals i).map fun v => x.s.futState x.g.team v.toBits := List.map_map ..
  refine if_congr ?_ rfl ?_
  · rw [List.any_map]
    rfl
  · simp only [scopes, views]
    refine issue_congr _ _ _ _ fun fut n => congrArg (Exe.commitAll _ i _) ?_
    exact Exe.onceFlags_upon x _ i rfl

/-! YIELD (R138, R347). -/

/-- An instruction without results leaves the lanes outside of its path as they are. -/
theorem Exe.writeOutside_none (x : Exe) (i : Instr) (noRes : i.ctl.ndef.toNat = 0) (l : Nat) (y : Lane) : x.writeOutside i [] l y = y := by
  unfold Exe.writeOutside Lane.within Lane.upTo
  simp only [mget, Exe.inactive_zero _ _ _ _ _ _ noRes (x.merge_none i noRes), List.take_append_drop]

/-- A path whose futures are observed goes on at the continuation of its YIELD. -/
theorem Exe.resume_goes (x : Exe) (i : Instr) (d : BitVec 28) (target : targetsOf i.ops = [d]) (noRes : i.ctl.ndef.toNat = 0) (fs : FutViews)
    (f : BitVec 6) :
    Exe.Becomes { x with s := (x.observing fs).s } i
      (x.having { x.moved (x.p.pc + d.signExtend 48 * 4) (x.p.pc, 1) (x.flagged (f ||| x.s.observed fs)) with yield := none })
      (x.resume i fs f) := by
  let y : Exe := x.observing fs
  obtain ⟨q, written⟩ := y.write_eq i []
  have lane : ∀ l, (y.write i []).lane l = if l ∈ y.lanes then (y.g.lane l).eraseAll (endsOf i.ops) else y.g.lane l := by
    intro l
    rw [Exe.lane_write]
    split
    · exact Exe.inactive_zero _ _ _ _ _ _ noRes (y.merge_none i noRes)
    · split
      · exact y.writeOutside_none i noRes l _
      · rfl
  have becomes := y.becomes_lanes i
    (x.having { x.moved (x.p.pc + d.signExtend 48 * 4) (x.p.pc, 1) (x.flagged (f ||| x.s.observed fs)) with yield := none })
    ((y.write i []).setPath y.pid
      { x.p.goto (pcTarget x.p.pc ((targetsOf i.ops).headD 0)) 1 with mode := modeRaise x.p.mode (f ||| x.s.observed fs), yield := none })
    (by rw [written, target]; rfl) lane
  exact becomes

/-- The flag of a read that some lane's poison gives, and that no poison leaves clear. -/
theorem Exe.any_poison_flag (x : Exe) (i : Instr) :
    let f := flagIf (x.lanes.any (x.readsPoison (x.plan i))) flagPO
    ((∃ l ∈ x.lanes, x.poison i l = flagPO) → f = flagPO) ∧ ((∀ l ∈ x.lanes, x.poison i l = 0) → f = 0) := by
  have any : x.lanes.any (x.readsPoison (x.plan i)) = !(x.lanes.filter (x.readsPoison (x.plan i))).isEmpty := by
    rw [Bool.eq_iff_iff]
    simp
  rw [any]
  exact x.poison_flag i x.lanes

/-- The operations that a path observes where all of its futures have completed. -/
theorem FutViews.observed_all {fs : FutViews} (ended : ∀ v ∈ fs, v.2.1 ≠ futPending) :
    (fs.filterMap fun v => if v.2.1 = futPending then none else v.2.2) = fs.filterMap fun v => v.2.2 :=
  List.filterMap_congr fun v mem => if_neg (ended v mem)

/-- A parked path resumes once all of its futures have completed. -/
theorem exec_yieldResume_eq {s : State} {g p : Nat} {y : Exe} {i : Instr} (found : s.exeOf g p = some y) (parked : y.p.yield ≠ none)
    (fetched : (y.tr.fetch y.p.pc).1 = .ok i) :
    let z := { y with s := s }
    let fs : FutViews := z.lanes.map fun l => (l, s.futState z.g.team (argOf (z.args i l) 0).toBits)
    exec (.yieldResume g p) s = .next (if fs.all fun v => v.2.1 != futPending then
      z.resume i fs (flagIf (z.lanes.any (z.readsPoison (z.plan i))) flagPO) else s) := by
  intro z fs
  have here : (z.tr.fetch z.p.pc).1 = .ok i := by
    rw [← fetched, show z.tr = y.tr by
      unfold Exe.tr
      rw [(exe_group found).2.2.1]
      rfl]
  show execYieldResume g p s = _
  unfold execYieldResume
  rw [found]
  obtain ⟨t, at_⟩ := Option.ne_none_iff_exists'.mp parked
  dsimp only
  rw [show (y.upon s).p.yield = some t from at_, show ((y.upon s).tr.fetch (y.upon s).p.pc).1 = .ok i from here]
  rfl

/-! The fields of a future (R130, R131). -/

theorem bitsOf_extract (w : BitVec 64) (hi lo : Nat) : bitsOf w.toNat hi lo = (w.extractLsb' lo (hi + 1 - lo)).toNat := by
  rw [BitVec.extractLsb'_toNat, Nat.shiftRight_eq_div_pow]
  rfl

theorem State.futValid_iff (s : State) (t : Nat) (w : BitVec 64) :
    s.futValid t w = true ↔ (w.extractLsb' 56 8).toNat = (s.launch (s.team t).launch).seq.toNat % 2 ^ 8 ∧
      (w.extractLsb' 32 24).toNat = (s.team t).index % 2 ^ 24 ∧ (w.extractLsb' 28 4).toNat < 7 := by
  unfold State.futValid
  simp only [bitsOf_extract, Bool.and_eq_true, beq_iff_eq, decide_eq_true_eq, and_assoc]
  rfl

/-- Settles O32: each form through what its lanes' futures report; a parked path by whether all have completed. -/
theorem futuresReport : Obligations.FuturesReport := by
  unfold Obligations.FuturesReport
  intro s x c ops hx calm word st views pending wrong watched flags goes test wait status cancel all yield
  refine ⟨?wrong, ?test, ?status, ?wait, ?cancel, ?all, ?yield, ?resume, fun t w => ⟨?state, x.s.futValid_iff t w⟩, futWord_fields⟩
  case wrong =>
    intro i mem bad
    simp only [List.mem_cons, List.not_mem_nil, or_false] at mem
    rcases mem with rfl | rfl | rfl | rfl | rfl <;> exact (onPath_next hx _).trans (congrArg _ (Exe.futures_wrong calm _ _ bad))
  case test =>
    intro good
    refine ⟨_, (onPath_next hx _).trans (congrArg _ (Exe.futures_good calm test _ good)), ?_⟩
    exact x.commit_views (watched test) test (fun st => [.ofBool (st != futPending)]) (flags test)
  case status =>
    intro good
    refine ⟨_, (onPath_next hx _).trans (congrArg _ (Exe.futures_good calm status _ good)), ?_⟩
    exact x.commit_views (watched status) status (fun st => [ofTy .i32 st.toNat]) (flags status)
  case wait =>
    intro good
    have step : exec wait s = .next (x.futures wait _) := onPath_next hx _
    rw [Exe.futures_good calm wait _ good] at step
    refine ⟨fun open_ => ?_, fun ended => ⟨_, ?_, x.commit_views (watched wait) wait (fun _ => []) (flags wait)⟩⟩
    · exact step.trans (congrArg _ (if_pos ((FutViews.any_pending x wait).mpr open_)))
    · exact step.trans (congrArg _ (if_neg fun any => ended ((FutViews.any_pending x wait).mp any)))
  case cancel =>
    intro ks good
    refine ⟨_, (onPath_next hx _).trans (congrArg _ (Exe.futures_good calm cancel _ good)), ?_⟩
    exact x.commit_views (ks.foldl State.cancelOp x.s) cancel (fun _ => []) (x.raised cancel fun _ => 0)
  case all =>
    intro ws parts scope acts
    have step := exec_futAll_eq hx calm c ops acts
    dsimp only at step
    refine ⟨fun ⟨w, mem, bad⟩ => ?_, fun good => ?_⟩
    · rw [if_pos (List.any_eq_true.mpr ⟨w, mem, by rw [bad]; rfl⟩)] at step
      exact step
    · rw [if_neg fun any => by
        obtain ⟨w, mem, bad⟩ := List.any_eq_true.mp any
        rw [good w mem] at bad
        cases bad] at step
      exact Exe.issues_of_issue all _ (fun u => u.combineAll u.ops.length) _ step
  case yield =>
    intro d target noRes good to_
    have step : exec yield s = .next (x.futures yield _) := onPath_next hx _
    rw [Exe.futures_good calm yield _ good] at step
    dsimp only at step
    rw [FutViews.all_over] at step
    have to_eq : pcTarget x.p.pc ((targetsOf ops).headD 0) = to_ := by rw [target]; rfl
    refine ⟨fun ended => ?_, fun open_ inside => ?_, fun open_ outside => ?_⟩
    · have none : ((x.futViews yield).any fun v => v.2.1 == futPending) = false :=
        eq_false_of_ne_true fun any => ended ((FutViews.any_pending x yield).mp any)
      rw [none] at step
      exact ⟨_, step, x.resume_goes yield d target noRes (x.futViews yield) _⟩
    all_goals
      rw [(FutViews.any_pending x yield).mpr open_, Bool.not_true, if_neg Bool.false_ne_true] at step
    · rw [if_pos (Option.isSome_iff_ne_none.mpr inside)] at step
      exact step
    · rw [outside, if_neg (by simp), to_eq] at step
      exact step
  case resume =>
    intro g p y i d found parked fetched target noRes z fs
    have step := exec_yieldResume_eq found parked fetched
    dsimp only at step
    refine ⟨fun ⟨v, mem, open_⟩ => ?_, fun ended => ?_⟩
    · rw [if_neg fun all => by
        have := List.all_eq_true.mp all v mem
        rw [open_] at this
        cases this] at step
      exact step
    · rw [if_pos (List.all_eq_true.mpr fun v mem => bne_iff_ne.mpr (ended v mem))] at step
      obtain ⟨poisoned, clean⟩ := z.any_poison_flag i
      have becomes := z.resume_goes i d target noRes fs (flagIf (z.lanes.any (z.readsPoison (z.plan i))) flagPO)
      rw [observing_s, FutViews.observed_all ended] at becomes
      exact ⟨_, _, step, poisoned, clean, becomes⟩
  case state =>
    unfold State.futState
    simp only [bitsOf_extract]

end Sys2Proof.Machine
end

section
/-! PROOF. Cuttings: cut marks by the path's stage, the copy, the release of a flight, and the drain (R152, R167 to R170, R386). -/

namespace Sys2Proof.Machine

/-! Cut marks (R386), by the stage of the path. -/

section
variable {s : State} {x : Exe} (hx : s.exe? = some x) (calm : x.calm) (c : Ctl) (ops : List Opnd)
include hx calm

theorem exec_cutMarkDy_first (first : x.p.stage = .none) :
    let i := Instr.cutMarkDy c ops
    let f := numOf (x.onceVals i) 0
    let d := (argOf (x.onceVals i) 1).toBits
    exec i s = .next (if x.launch.nflight ≤ f then x.trapAll i trapHandle
      else if x.s.cutsFull x.eid (some (x.team.launch, x.die, f)) then x.s
      else x.cutCheck i d fun x => x.awaitCut f d (x.arriveAt (.flight f))) := by
  refine (onPath_next hx _).trans (congrArg _ ?_)
  dsimp only
  rw [Exe.once_calm calm, first]

theorem exec_cutMarkDy_cutting {k : Nat} (stage : x.p.stage = .cutting k) :
    let i := Instr.cutMarkDy c ops
    exec i s = .next (x.cutDepart i (x.onceVals i) (some k)) := by
  refine (onPath_next hx _).trans (congrArg _ ?_)
  dsimp only
  rw [Exe.once_calm calm, stage]

theorem exec_cutMarkDy_released (stage : x.p.stage = .released) :
    let i := Instr.cutMarkDy c ops
    exec i s = .next (x.cutDepart i (x.onceVals i) none) := by
  refine (onPath_next hx _).trans (congrArg _ ?_)
  dsimp only
  rw [Exe.once_calm calm, stage]

theorem exec_cutMarkFb_full (first : x.p.stage = .none) (full : x.s.cutsFull x.eid none = true) :
    exec (.cutMarkFb c ops) s = .next x.s := by
  refine (onPath_next hx _).trans (congrArg _ ?_)
  dsimp only
  rw [Exe.once_calm calm, first]
  exact if_pos full

theorem exec_cutMarkFb_cutting {k : Nat} {q : Cut} (stage : x.p.stage = .cutting k) (cut : mget x.s.cuts k = some q) :
    let i := Instr.cutMarkFb c ops
    exec i s = .next (if q.copied = true then x.cutDepart i (x.onceVals i) (some k) else x.s) := by
  refine (onPath_next hx _).trans (congrArg _ ?_)
  dsimp only
  rw [Exe.once_calm calm, stage]
  dsimp only
  rw [cut]
  simp only [Option.map_some, Option.some.injEq]

theorem exec_cutMarkFb_joining {n : Nat} {o : EngOp} (stage : x.p.stage = .joining n) (op : mget x.s.ops n = some o) :
    let i := Instr.cutMarkFb c ops
    exec i s = .next (if o.status = futPending then x.s
      else if o.status ≠ futOK ∨ o.clipped = true ∨ x.encl.h = 0xFFFFFFFF then x.cutDepart i (x.onceVals i) none
      else if x.s.cutsFull x.eid none = true then x.s
      else (x.put (x.having { x.p with stage := .cutting x.s.next })).addCut x.eid x.team.launch none
        (argOf (x.onceVals i) 1).toBits) := by
  refine (onPath_next hx _).trans (congrArg _ ?_)
  dsimp only
  rw [Exe.once_calm calm, stage]
  dsimp only
  rw [op]
  rfl

end

/-! CUT.STATUS (R170). -/

/-- The bytes that a future of a cutting reports: those drained, or a free number where no operation is known. -/
def State.drainedBytes (s : State) (l : Nat) (op : Option Nat) : Nat :=
  match op with
  | none => Config.freeNat (.result l 0) s.free
  | some op => ((s.cutOf op).map fun q => q.2.drained).getD 0

/-- The word of CUT.STATUS: the bytes below the status. -/
def cutWord (bytes : Nat) (st : BitVec 8) : BitVec 64 := BitVec.ofNat 64 (bytes % 2 ^ 48 + st.toNat * 2 ^ 48)

theorem cutWord_fields (bytes : Nat) (st : BitVec 8) :
    (cutWord bytes st).extractLsb' 48 8 = st ∧ ((cutWord bytes st).extractLsb' 0 48).toNat = bytes % 2 ^ 48 := by
  have small := st.isLt
  have word : (cutWord bytes st).toNat = bytes % 2 ^ 48 + st.toNat * 2 ^ 48 := by
    unfold cutWord
    rw [BitVec.toNat_ofNat]
    omega
  refine ⟨BitVec.eq_of_toNat_eq ?_, ?_⟩
  · rw [BitVec.extractLsb'_toNat, word, Nat.shiftRight_eq_div_pow]
    omega
  · rw [BitVec.extractLsb'_toNat, word, Nat.shiftRight_eq_div_pow]
    omega

theorem exec_cutStatus_eq {s : State} {x : Exe} (hx : s.exe? = some x) (calm : x.calm) (c : Ctl) (ops : List Opnd) :
    let i := Instr.cutStatus c ops
    let st := fun l => x.s.futState x.g.team (argOf (x.args i l) 0).toBits
    let u := x.s.drainSome ((x.active c).map fun l => (l, st l))
    exec i s = .next (if ((x.active c).filter fun l => !x.s.futValid x.g.team (argOf (x.args i l) 0).toBits) = [] then
        Exe.commit { x with s := u } i ((x.active c).map fun l => (l, [.bits (cutWord (u.drainedBytes l (st l).2) (st l).1)]))
          (x.raised i fun _ => 0)
      else x.trapAll i trapHandle) := by
  intro i st u
  refine (onPath_next hx _).trans (congrArg _ ?_)
  rw [Exe.futures_eq calm]
  dsimp only
  rw [List.map_map]
  rfl

/-! The copy (R168). -/

theorem State.takeCut_refuses {s : State} {k : Nat} {c : Cut} (full : (s.encl c.enclave).h = 0xFFFFFFFF) :
    s.takeCut k c = .ok { s with cuts := mset s.cuts k { c with copied := true, refused := true, ended := true } } := by
  unfold State.takeCut
  rw [if_pos full]

/-- A copy marks the cutting as copied, with the count that it has reached. -/
theorem State.takeCut_copies {s : State} {k : Nat} {c : Cut} (room : (s.encl c.enclave).h ≠ 0xFFFFFFFF) :
    okAll (fun u => ∃ q, mget u.cuts k = some q ∧ q.copied = true ∧ q.cutId = (u.encl c.enclave).h) (s.takeCut k c) := by
  unfold State.takeCut
  rw [if_neg room]
  refine okAll_bind (okAll_true _) fun _ _ => okAll_bind (okAll_true _) fun _ _ => okAll_bind (okAll_true _) fun _ _ =>
    okAll_bind (okAll_true _) fun t _ => ⟨_, mget_mset_self _ _ _, rfl, ?_⟩
  show _ = (State.encl (State.setEncl t c.enclave _) c.enclave).h
  rw [State.encl_setEncl]

theorem exec_cutCopyDone_taken {s u : State} {k : Nat} {c : Cut} (cut : mget s.cuts k = some c) (due : s.cutDue k c = true)
    (free : s.waiting (.cut k) = false) (taken : s.takeCut k c = .ok u) : exec (.cutCopyDone k) s = .next u := by
  show execCutCopyDone k s = _
  unfold execCutCopyDone
  rw [cut]
  dsimp only
  rw [if_neg (by simp [due, free]), taken]

/-! The drain (R169, R170). -/

/-- The futures of a cutting that are still awaited. -/
def State.awaited (s : State) (c : Cut) : List Nat := c.ops.filter fun n => (mget s.ops n).map EngOp.status == some futPending

/-- The drain of an awaited cutting goes on, with all of its chunks or with fewer; it waits, or its awaited futures complete. -/
theorem exec_cutDrainDone_eq {s : State} {k : Nat} {c : Cut} (cut : mget s.cuts k = some c) (copied : c.copied = true)
    (drains : c.ended = false) (awaited : s.awaited c ≠ []) (ok : Bool) :
    let n := if ok then c.chunks - c.done else min (s.someChunks c) (c.chunks - c.done - 1)
    let u := (State.drain k n s).1
    ((State.drain k n s).2 = .waits → exec (.cutDrainDone k ok) s = .next u) ∧
    ((State.drain k n s).2 ≠ .waits → ∀ q, mget u.cuts k = some q → exec (.cutDrainDone k ok) s =
      .next ((s.awaited c).foldl (fun t m => t.finishOp m (if q.drained = q.used then futOK else futDrain))
        { u with cuts := mset u.cuts k { q with ended := true } })) := by
  intro n u
  have some_ : c.ops.isEmpty = false := by
    cases ops : c.ops with
    | nil => exact absurd (by unfold State.awaited; rw [ops]; rfl) awaited
    | cons => rfl
  have live : ¬ (c.ops.filter fun n => (mget s.ops n).map EngOp.status == some futPending).isEmpty = true := fun none =>
    awaited (List.isEmpty_iff.mp none)
  have notOver : (!c.copied || c.ended || c.ops.isEmpty) = false := by rw [copied, drains, some_]; rfl
  refine ⟨fun waits => ?_, fun goes q left => ?_⟩
  all_goals
    show execCutDrainDone k ok s = _
    unfold execCutDrainDone
    rw [cut]
    dsimp only
    rw [notOver, if_neg Bool.false_ne_true, if_neg live]
  · exact congrArg _ (if_pos waits)
  · rw [if_neg goes, left]
    rfl

/-! The release of a flight (R152). -/

theorem exec_flightRelease_plain {s : State} {l die f : Nat} (full : s.flightFull l die f = true) (plain : s.cutBy l die f = none) :
    exec (.flightRelease l die f) s = .next
      (({ s with cuts := s.cuts.filter fun q => !(q.2.launch == l && q.2.spot == some (die, f)) } : State).freeFlight l die f .released) := by
  show execFlightRelease l die f s = _
  unfold execFlightRelease
  rw [if_neg (by simp [full]), plain]

theorem exec_flightRelease_cut {s : State} {l die f : Nat} {d : BitVec 64} {k : Nat} {q : Cut} (full : s.flightFull l die f = true)
    (named : s.cutBy l die f = some d) (cut : s.cutAt l (die, f) d = some (k, q)) :
    exec (.flightRelease l die f) s = .next (if q.copied = true then
      (({ s with cuts := mset s.cuts k { q with spot := none } } : State).freeFlight l die f
        (if q.refused then .released else .cutting k)) else s) := by
  show execFlightRelease l die f s = _
  unfold execFlightRelease
  rw [if_neg (by simp [full]), named]
  dsimp only
  rw [cut]

/-- An entry of a table whose entries of some keys have changed. -/
theorem mget_map_keys {α : Type} (p : Nat → Bool) (f : α → α) (k : Nat) : ∀ m : List (Nat × α),
    mget (m.map fun q => if p q.1 then (q.1, f q.2) else q) k = (mget m k).map fun v => if p k then f v else v
  | [] => rfl
  | (a, v) :: m => by
      by_cases same : a = k
      · subst same
        rw [List.map_cons]
        cases p a <;> simp [mget]
      · have ih := mget_map_keys p f k m
        rw [List.map_cons]
        cases p a <;> simp [mget, same, ih]

/-- A participant of a flight that is released has its paths at the flight set free. -/
theorem State.freeFlight_paths {s : State} {l die f gid : Nat} {stage : Stage} {g : Group} (party : gid ∈ (s.launch l).flight die f)
    (group : mget s.groups gid = some g) :
    ∃ h, mget (s.freeFlight l die f stage).groups gid = some h ∧
      ∀ p q, mget g.ctx.paths p = some q → q.stage = .waiting (.flight f) 0 → mget h.ctx.paths p = some { q with stage := stage } := by
  let free : Path → Path := fun p => if p.stage = .waiting (.flight f) 0 then { p with stage := stage } else p
  refine ⟨g.mapPaths free, ?_, fun p q path waits => ?_⟩
  · have found := mget_map_keys ((s.launch l).flight die f).contains (fun g : Group => g.mapPaths free) gid s.groups
    rw [group, Option.map_some, if_pos (by simpa using party)] at found
    exact found
  · have found := mget_map_keys (fun _ => true) free p g.ctx.paths
    simp only [if_true, path, Option.map_some] at found
    exact found.trans (congrArg some (if_pos waits))

/-- Settles O38: a cut mark by the path's stage, the events by what they find of the cutting. -/
theorem cuttings : Obligations.Cuttings := by
  unfold Obligations.Cuttings
  refine ⟨fun s x c ops hx calm => ?marks, fun s k c cut => ?events, fun s l die f full => ?flights⟩
  case marks =>
    intro departs
    refine ⟨?dy, ?fb, ?status⟩
    case dy =>
      intro i f
      refine ⟨fun first outside => ?_, fun first named noRoom => ?_, fun k stage => ?_, fun stage => ?_⟩
      · exact next_of_pos (exec_cutMarkDy_first hx calm c ops first) outside
      · exact next_of_pos (next_of_neg (exec_cutMarkDy_first hx calm c ops first) (Nat.not_le.mpr named)) noRoom
      · exact depart_eq i 5 (some k) rfl (exec_cutMarkDy_cutting hx calm c ops stage)
      · exact depart_eq i 5 none rfl (exec_cutMarkDy_released hx calm c ops stage)
    case fb =>
      intro i
      refine ⟨exec_cutMarkFb_full hx calm c ops, fun k q stage cut => ?_, fun n o stage op => ?_⟩
      · have step := exec_cutMarkFb_cutting hx calm c ops stage cut
        refine ⟨fun copied => ?_, fun waits => ?_⟩
        · exact depart_eq i 7 (some k) rfl (next_of_pos step copied)
        · exact next_of_neg step (ne_true_of_eq_false waits)
      · have step := exec_cutMarkFb_joining hx calm c ops stage op
        refine ⟨fun pending => ?_, fun ended bad => ?_, fun ok agree room noRoom => ?_, fun ok agree room fits => ?_⟩
        · exact next_of_pos step pending
        · exact depart_eq i 7 none rfl (next_of_pos (next_of_neg step ended) bad)
        all_goals
          have pending : o.status ≠ futPending := by
            rw [ok]
            decide
          have good : ¬ (o.status ≠ futOK ∨ o.clipped = true ∨ x.encl.h = 0xFFFFFFFF) := by
            rw [not_or, not_or]
            exact ⟨not_not_intro ok, ne_true_of_eq_false agree, room⟩
          replace step := next_of_neg (next_of_neg step pending) good
        · exact next_of_pos step noRoom
        · exact next_of_neg step (ne_true_of_eq_false fits)
    case status =>
      intro i word st wrong u
      have step := exec_cutStatus_eq hx calm c ops
      dsimp only at step
      refine ⟨fun bad => ?_, fun good => ?_⟩
      · rw [if_neg bad] at step
        exact step
      · rw [if_pos good] at step
        let out := fun l => [Val.bits (cutWord (u.drainedBytes l (st l).2) (st l).1)]
        refine ⟨out, _, step, ?_, fun l _ => ⟨_, rfl, (cutWord_fields _ _).1, fun op k q names cut small => ?_⟩⟩
        · exact Exe.commit_completes { x with s := u } i _ _ _ (fun l _ => mget_map_self out _ l) (mget_active x c out)
        · rw [(cutWord_fields _ _).2, names]
          unfold State.drainedBytes
          dsimp only
          rw [cut]
          exact Nat.mod_eq_of_lt small
  case events =>
    refine ⟨fun u due free taken => ⟨exec_cutCopyDone_taken cut due free taken, ?copy⟩, fun ok copied drains awaited => ?drain⟩
    case copy =>
      by_cases full : (s.encl c.enclave).h = 0xFFFFFFFF
      · rw [State.takeCut_refuses full] at taken
        cases taken
        exact ⟨_, mget_mset_self _ _ _, rfl, fun room => absurd full room, fun _ => ⟨rfl, rfl⟩⟩
      · have copies := State.takeCut_copies (k := k) full
        rw [taken] at copies
        obtain ⟨q, found, copied, counted⟩ := copies
        exact ⟨q, found, copied, fun _ => counted, fun noRoom => absurd noRoom full⟩
    case drain =>
      intro live
      have some_ : s.awaited c ≠ [] := by
        obtain ⟨n, mem, pending⟩ := awaited
        exact List.ne_nil_of_mem (List.mem_filter.mpr ⟨mem, by simp [pending]⟩)
      refine ⟨_, fun whole => ?_, fun part => ?_, exec_cutDrainDone_eq cut copied drains some_ ok⟩
      · rw [if_pos whole]
      · rw [if_neg (by simp [part])]
        exact Nat.min_le_right ..
  case flights =>
    refine ⟨exec_flightRelease_plain full, fun d k q named cut => ?_, fun stage gid party g group => State.freeFlight_paths party group⟩
    have step := exec_flightRelease_cut full named cut
    exact ⟨fun waits => step.trans (congrArg _ (if_neg (by simp [waits]))), fun copied => step.trans (congrArg _ (if_pos copied))⟩

end Sys2Proof.Machine
end

section
/-! PROOF. COPY, GATHER and SCATTER: the checks at issue in their order, and the operation that is issued (R341 to R344). -/

namespace Sys2Proof.Machine

/-- An engine instruction reads its operands once, so that its step is that of the values read. -/
theorem Exe.engine_once {x : Exe} (calm : x.calm) (i : Instr) (acts : x.active i.ctl ≠ []) (b : Option Nat) (k : List Val → State) :
    x.engine i b k = x.engine i b fun _ => k (x.onceVals i) := by
  rw [Exe.engine_calm calm i acts, Exe.engine_calm calm i acts]

/-- A copy of the scope of general cores runs on a core as it stands. -/
theorem Exe.ite_onCore {x : Exe} (core : x.p.place = .core) (i : Instr) (scope : Nat) (k : Exe → State) :
    (if scope = 2 then x.onCore i k else k x) = k x := by
  rw [Exe.onCore_core core, ite_self]

/-- The operation of a COPY over bytes, by the spaces of its kind (R341, R342). -/
def Exe.linearOp (x : Exe) (i : Instr) (sp : Bool × Bool) (scope : Nat) (bar : Option Nat) (vs : List Val) : EngOp :=
  let d := (argOf vs 0).toBits
  let a := (argOf vs 1).toBits
  let n := numOf vs 2
  { x.newOp i 0 vs (max (max scope (x.minScope sp.1 (pagesOf d n))) (x.minScope sp.2 (pagesOf a n))) bar (granules d.toNat n) n with
    status := if n = 0 then futOK else if x.windowDown sp.1 d || x.windowDown sp.2 a then futLinkKey else futPending
    whole := if d.toNat % 64 = a.toNat % 64 then [] else wholeIn sp.2 a.toNat n }

/-- A COPY over bytes leaves the scratchpad. -/
def Exe.linearOutside (x : Exe) (sp : Bool × Bool) (vs : List Val) : Bool :=
  let n := numOf vs 2
  let inside := fun a => (x.s.spadAt x.g.team a n).isSome
  decide (n ≠ 0) && ((sp.1 && !inside (numOf vs 0)) || (sp.2 && !inside (numOf vs 1)))

/-- The step of a linear COPY on a core. -/
theorem Exe.copyLinear_core {x : Exe} (core : x.p.place = .core) (i : Instr) (sub scope : Nat) (vs : List Val) :
    x.copyLinear i sub scope vs =
      if x.linearOutside (copySpaces sub) vs then x.trap i 9 (x.active i.ctl) 0
      else x.launchOp i (x.linearOp i (copySpaces sub) scope (barName (8 ≤ sub) vs 3) vs) := by
  unfold Exe.copyLinear
  refine (Exe.ite_onCore core i _ _).trans ?_
  refine if_congr ?_ rfl rfl
  simp only [Exe.linearOutside, Bool.and_eq_true, Bool.or_eq_true, decide_eq_true_eq, Bool.not_eq_true', Option.isSome_eq_false_iff]
  rfl

/-- The operation of a COPY through maps (R341, R343, R144). -/
def Exe.tensorOp (x : Exe) (i : Instr) (scope : Nat) (bar : Option Nat) (vs : List Val) (w : Walk2) : EngOp :=
  { x.newOp i 0 vs
      (max (max scope (x.minScope (tmSpad w.d) (tmPages w.d w.dos))) (x.minScope (tmSpad w.s) (tmPages w.s w.sos))) bar
      w.units.length (w.units.map w.unitBytes).sum with
    status := if x.windowDown (tmSpad w.d) (tmAddr w.d 0) || x.windowDown (tmSpad w.s) (tmAddr w.s 0) then futLinkKey else futPending
    clipped := w.clips, whole := w.whole }

/-- The maps of a COPY do not match, or it has origins beyond the dimensions of the one that they are of. -/
def Walk2.mismatch (w : Walk2) (named : Desc) (os : List Int) : Bool :=
  (os.drop (tmNdim named)).any (· != 0) || tmCount w.d != tmCount w.s || (tmFmt w.d == 24) != (tmFmt w.s == 24)

/-- The step of a tensor COPY on a core. -/
theorem Exe.copyTensor_core {x : Exe} (core : x.p.place = .core) (i : Instr) (sub scope : Nat) (vs : List Val) (w : Walk2)
    (walk : walkOf sub vs = some w) :
    x.copyTensor i sub scope vs =
      if w.mismatch (if sub % 8 = 4 then w.s else w.d) (if sub % 8 = 4 then w.sos else w.dos) then x.trap i trapHandle (x.active i.ctl) 0
      else if !x.s.tmInside x.g.team w.d || !x.s.tmInside x.g.team w.s then x.trap i 9 (x.active i.ctl) 0
      else x.launchOp i (x.tensorOp i scope (barName (8 ≤ sub) vs 2) vs w) := by
  unfold Exe.copyTensor
  rw [walk]
  exact Exe.ite_onCore core i _ _

/-- The maps of a COPY as it walks them: the origins are those of the map in enclave memory (R343). -/
def Walk2.named (source : Prop) [Decidable source] (d s : Desc) (os : List Int) : Walk2 :=
  if source then { d := d, dos := [], s := s, sos := os } else { d := d, dos := os, s := s, sos := [] }

/-! The steps of the instructions on a core (R341 to R344): the checks of their operands, then the operation. -/

section
variable {s : State} {x : Exe} (hx : s.exe? = some x) (calm : x.calm) (core : x.p.place = .core) (c : Ctl) (bar : Bool)
  (scope : Scope) (ops : List Opnd) (acts : x.active c ≠ [])
include hx calm core acts

/-- COPY over bytes, by the spaces of its kind (R341, R342). -/
theorem exec_copyLinear_eq {k : CopyKind} {sp : Bool × Bool} (linear : k.code < 4) (spaces : copySpaces k.code = sp) :
    let i := Instr.copy c k bar scope ops
    let vs := x.onceVals i
    exec i s = .next (x.engine i (if bar then some 3 else none) fun _ => if false then x.trap i trapHandle (x.active i.ctl) 0
      else if x.linearOutside sp vs then x.trap i 9 (x.active i.ctl) 0
      else x.launchOp i (x.linearOp i sp scope.code (if bar then some (numOf vs 3) else none) vs)) := by
  intro i vs
  have bytes : ¬ decide (4 ≤ (k.code + if bar then 8 else 0) % 8) = true := by cases bar <;> simp <;> omega
  have spaces' : copySpaces (k.code + if bar then 8 else 0) = sp := by
    rw [← spaces]
    unfold copySpaces
    rw [show (k.code + if bar then 8 else 0) % 8 = k.code % 8 by cases bar <;> simp]
  have named : decide (8 ≤ k.code + if bar then 8 else 0) = bar := by
    cases bar <;> simp
    omega
  refine (onPath_next hx _).trans (congrArg _ ?_)
  show x.engine i (if bar then some (if decide (4 ≤ (k.code + if bar then 8 else 0) % 8) = true then 2 else 3) else none) _ = _
  rw [if_neg bytes, Exe.engine_once calm i acts]
  refine congrArg (x.engine i _) (funext fun _ => ?_)
  refine (if_neg bytes).trans ?_
  show x.copyLinear i (k.code + if bar then 8 else 0) scope.code vs = _
  rw [Exe.copyLinear_core core, spaces', named, if_neg Bool.false_ne_true]
  rfl

/-- COPY through maps (R341, R343): an operand that is no map, or what the two maps come to. -/
theorem exec_copyTensor_eq {k : CopyKind} (tensor : k.code = 4 ∨ k.code = 5) :
    let i := Instr.copy c k bar scope ops
    let vs := x.onceVals i
    let os := originsOf (vs.drop (if bar then 3 else 2))
    (((argOf vs 0).desc false = none ∨ (argOf vs 1).desc false = none) → exec i s = .next (
      x.engine i (if bar then some 2 else none) fun _ => x.trap i trapHandle (x.active i.ctl) 0)) ∧
    ∀ d src, (argOf vs 0).desc false = some d → (argOf vs 1).desc false = some src →
      let w := Walk2.named (k.code = 4) d src os
      exec i s = .next (x.engine i (if bar then some 2 else none) fun _ =>
        if w.mismatch (if k.code = 4 then src else d) os then x.trap i trapHandle (x.active i.ctl) 0
        else if !x.s.tmInside x.g.team d || !x.s.tmInside x.g.team src then x.trap i 9 (x.active i.ctl) 0
        else x.launchOp i (x.tensorOp i scope.code (if bar then some (numOf vs 2) else none) vs w)) := by
  intro i vs os
  have maps : decide (4 ≤ (k.code + if bar then 8 else 0) % 8) = true := by rcases tensor with code | code <;> cases bar <;> simp [code]
  have source : (k.code + if bar then 8 else 0) % 8 = k.code := by rcases tensor with code | code <;> cases bar <;> simp [code]
  have named : decide (8 ≤ k.code + if bar then 8 else 0) = bar := by rcases tensor with code | code <;> cases bar <;> simp [code]
  have step : exec i s = .next (x.engine i (if bar then some 2 else none) fun _ =>
      x.copyTensor i (k.code + if bar then 8 else 0) scope.code vs) := by
    refine (onPath_next hx _).trans (congrArg _ ?_)
    show x.engine i (if bar then some (if decide (4 ≤ (k.code + if bar then 8 else 0) % 8) = true then 2 else 3) else none) _ = _
    rw [if_pos maps, Exe.engine_once calm i acts]
    exact congrArg (x.engine i _) (funext fun _ => if_pos maps)
  refine ⟨fun none => ?_, fun d src desc srcDesc => ?_⟩
  · have walk : walkOf (k.code + if bar then 8 else 0) vs = .none := by
      unfold walkOf
      split
      · next desc srcDesc =>
        rw [desc, srcDesc] at none
        exact absurd none (by simp)
      · rfl
    unfold Exe.copyTensor at step
    rw [walk] at step
    exact step
  · intro w
    have origins : (if 8 ≤ k.code + (if bar then 8 else 0) then 3 else 2) = if bar then 3 else 2 := by
      rcases tensor with code | code <;> cases bar <;> simp [code]
    have walk : walkOf (k.code + if bar then 8 else 0) vs = some w := by
      unfold walkOf
      rw [desc, srcDesc]
      dsimp only
      rw [source, origins]
      rfl
    rw [Exe.copyTensor_core core i _ _ vs w walk, source, named] at step
    refine step.trans (congrArg _ (congrArg (x.engine i _) (funext fun _ => ?_)))
    rcases tensor with code | code
    · simp only [w, Walk2.named, code, if_true]
      rfl
    · simp only [w, Walk2.named, code, show (5 = 4) = False by decide, if_false]
      rfl

end

/-- The bytes of a row, as the check reads them: a signed 32-bit number. -/
theorem rowBytes_toInt (v : Val) : (v.toBits.setWidth 32).toInt = signedOf 32 v.num := by
  rw [signedOf_ofNat]
  refine congrArg BitVec.toInt (BitVec.eq_of_toNat_eq ?_)
  rw [BitVec.toNat_setWidth, BitVec.toNat_ofNat]
  rfl

/-- The step of GATHER and SCATTER (R344). -/
theorem Exe.gather_eq {x : Exe} (calm : x.calm) (i : Instr) (acts : x.active i.ctl ≠ []) (scatter bar : Bool) (scope : Nat) :
    let vs := x.onceVals i
    let cnt := numOf vs 3
    let rb := numOf vs 4
    let bytes := (vs.getD 4 (.bits 0)).toBits.setWidth 32
    let far := (argOf vs (if scatter then 0 else 1)).toBits
    let near := numOf vs (if scatter then 1 else 0)
    let pages := (x.s.indices x.g.team (numOf vs 2) cnt).flatMap fun j => pagesOf (far + BitVec.ofInt 64 (j * rb)) rb
    let inside := fun a n => (x.s.spadAt x.g.team a n).isSome
    x.gather i scatter bar scope = x.engine i (if bar then some 5 else none) fun _ =>
      if decide (65535 < cnt) || decide (bytes.toInt < 1) || decide (4096 < bytes.toInt) then x.trap i trapHandle (x.active i.ctl) 0
      else if decide (cnt ≠ 0) && (!inside (numOf vs 2) (4 * cnt) || !inside near (cnt * rb)) then x.trap i 9 (x.active i.ctl) 0
      else x.launchOp i { x.newOp i 1 vs (max scope (x.minScope false pages.eraseDups)) (if bar then some (numOf vs 5) else none)
          (if scatter then min cnt 1 else granules near (cnt * rb)) (cnt * rb) with
        status := if x.windowDown false far then futLinkKey else futPending } := by
  intro vs cnt rb bytes far near pages inside
  refine (Exe.engine_once calm i acts _ _).trans (congrArg _ (funext fun _ => ?_))
  refine if_congr ?_ rfl (if_congr ?_ rfl rfl)
  · rw [show bytes.toInt = signedOf 32 rb from rowBytes_toInt _]
    simp only [Bool.or_eq_true, decide_eq_true_eq, or_assoc]
    rfl
  · simp only [inside, Bool.and_eq_true, Bool.or_eq_true, decide_eq_true_eq, Bool.not_eq_true', Option.isSome_eq_false_iff]
    rfl

/-- Settles O31: the checks and the operation of each kind, for the engine's common order of checks. -/
theorem copiesAndGathersIssue : Obligations.CopiesAndGathersIssue := by
  unfold Obligations.CopiesAndGathersIssue
  intro s x c bar scope ops hx calm acts core v at_ inside name issues
  refine ⟨fun q kind => ?linear, fun k kind => ?tensor, fun q kind => ?gather⟩
  case linear =>
    intro i n outside eff whole st
    obtain ⟨linear, spaces⟩ : q.1.code < 4 ∧ copySpaces q.1.code = q.2 := by
      simp only [List.mem_cons, List.not_mem_nil, or_false] at kind
      rcases kind with rfl | rfl | rfl | rfl <;> exact ⟨by decide, rfl⟩
    have step := exec_copyLinear_eq hx calm core c bar scope ops acts linear spaces
    exact Exe.engine_issues calm i acts (if bar then some 3 else none) false (x.linearOutside q.2 (x.onceVals i))
      (x.linearOp i q.2 scope.code (if bar then some (v i 3) else none) (x.onceVals i)) (by cases bar <;> rfl) step
  case tensor =>
    intro i os
    have tensor : k.code = 4 ∨ k.code = 5 := by
      simp only [List.mem_cons, List.not_mem_nil, or_false] at kind
      rcases kind with rfl | rfl
      · exact .inl rfl
      · exact .inr rfl
    obtain ⟨unmapped, maps⟩ := exec_copyTensor_eq hx calm core c bar scope ops acts tensor
    split
    · next d src desc srcDesc =>
      intro w bad outside eff st
      have step := maps d src desc srcDesc
      simp only [List.mem_cons, List.not_mem_nil, or_false] at kind
      rcases kind with rfl | rfl <;>
        exact Exe.engine_issues calm i acts (if bar then some 2 else none) bad outside
          (x.tensorOp i scope.code (if bar then some (v i 2) else none) (x.onceVals i) w) (by cases bar <;> rfl) step
    · next other =>
      intro named
      have step := unmapped (by
        cases desc : (argOf (x.onceVals i) 0).desc false with
        | none => exact .inl rfl
        | some d => exact .inr (Option.eq_none_iff_forall_ne_some.mpr fun src srcDesc => other d src desc srcDesc))
      rw [Exe.engine_calm calm i acts] at step
      cases bar with
      | false => exact step
      | true => exact next_of_neg step (by simpa using named rfl)
  case gather =>
    intro i far cnt rb bad outside rows pages eff steps
    simp only [List.mem_cons, List.not_mem_nil, or_false] at kind
    rcases kind with rfl | rfl
    · exact Exe.engine_issues calm i acts (if bar then some 5 else none) bad outside _ (by cases bar <;> rfl)
        ((onPath_next hx _).trans (congrArg _ (Exe.gather_eq calm i acts false bar _)))
    · exact Exe.engine_issues calm i acts (if bar then some 5 else none) bad outside _ (by cases bar <;> rfl)
        ((onPath_next hx _).trans (congrArg _ (Exe.gather_eq calm i acts true bar _)))

end Sys2Proof.Machine
end

section
/-! PROOF. The matrix engine: the checks of its instructions and the operations that they issue (R358 to R363, R366 to R373). -/

namespace Sys2Proof.Machine

/-! MMA (R360 to R363, R366, R367, R370, R371). -/

section
variable {s : State} {x : Exe} (hx : s.exe? = some x)
include hx

/-- The six forms of MMA take one step, by their kind and whether they are speculative. -/
theorem exec_mma_eq {c : Ctl} {scope : Scope} {ops : List Opnd} {q : Instr × Nat × Bool}
    (form : q ∈ [(Instr.mma c scope ops, 0, false), (.mmaSp c scope ops, 1, false), (.mmaUf c scope ops, 2, false),
      (.mmaSpec c scope ops, 0, true), (.mmaSpecSp c scope ops, 1, true), (.mmaSpecUf c scope ops, 2, true)]) :
    exec q.1 s = .next (x.mma q.1 ⟨q.2.1, q.2.2⟩ scope.code) ∧ q.1.ctl = c ∧ q.2.1 ≤ 2 := by
  simp only [List.mem_cons, List.not_mem_nil, or_false] at form
  rcases form with rfl | rfl | rfl | rfl | rfl | rfl <;> exact ⟨onPath_next hx _, rfl, by norm_num⟩

end

/-- Whether a window of the unfolded tensor is down does not depend on the tiles. -/
theorem Exe.mmaStatus_taken {x : Exe} {u : State} {ts : List Nat} {int : Bool} {els : List (Nat × BitVec 32)}
    (taken : x.s.takeTiles x.g.team 1 int els = .taken u ts) (kind : Nat) (b : List Byte) (v : Val) :
    Exe.mmaStatus { x with s := u } kind b v = x.mmaStatus kind b v := by
  obtain ⟨-, tiles, ops, rfl, -⟩ := taken_eq taken
  rfl

/-! SPBM (R368). -/

/-- A range that leaves the scratchpad is the bitmap's or one of the block's. -/
theorem any_isNone_cons {α β : Type} (f : α → Option β) (a : α) (l : List α) :
    ((a :: l).any fun r => (f r).isNone) = true ↔ ¬ ((f a).isSome ∧ ∀ r ∈ l, (f r).isSome) := by
  rw [List.any_eq_true, ← List.forall_mem_cons (p := fun r => (f r).isSome = true)]
  simp only [not_forall, exists_prop, Option.isNone_iff_eq_none, Option.isSome_iff_ne_none, ne_eq, not_not]

section
variable {s : State} {x : Exe} (hx : s.exe? = some x) (calm : x.calm) (c : Ctl) (scope : Scope) (ops : List Opnd) (acts : x.active c ≠ [])
include hx calm acts

theorem exec_spbm_unblocked :
    let i := Instr.spbm c scope ops
    (argOf (x.onceVals i) 2).block = none → exec i s = .next (x.trap i trapHandle (x.active c) 0) := by
  intro i unblocked
  have step : exec i s = .next _ := (onPath_next hx _).trans (congrArg _ (Exe.engine_none calm i acts _))
  rw [show (argOf (x.onceVals i) 2).block = _ from unblocked] at step
  exact step

/-- The step of SPBM over a block of a buffer. -/
theorem exec_spbm_eq {b : List Byte} :
    let i := Instr.spbm c scope ops
    let v := fun k => argOf (x.onceVals i) k
    let rows := (v 3).num
    let bytes := (rows / 8 * (fbK b / 8) + 7) / 8
    let good := rows % 8 = 0 ∧ 8 ≤ rows ∧ rows ≤ 192
    let inside := (x.s.spadAt x.g.team (v 0).num bytes).isSome ∧ ∀ r ∈ fbRanges b false (v 1).num rows, (x.s.spadAt x.g.team r.1 r.2).isSome
    let even := (v 1).num % 8 = 0 ∧ fbPitch b false % 8 = 0
    (v 2).block = some b → exec i s = .next (
      if ¬ good then x.trap i trapHandle (x.active c) 0
      else if ¬ inside then x.trap i 9 (x.active c) 0
      else if ¬ even then x.trap i 0x0B (x.active c) 0
      else x.launchOp i (x.newOp i 2 (x.onceVals i) (max scope.code 2) none (granules (v 0).num bytes) 0)) := by
  dsimp only
  intro block
  have step : exec (.spbm c scope ops) s = .next _ := (onPath_next hx _).trans (congrArg _ (Exe.engine_none calm (.spbm c scope ops) acts _))
  rw [block] at step
  simp only [numOf, any_isNone_cons (fun r : Nat × Nat => x.s.spadAt x.g.team r.1 r.2)] at step
  refine step.trans (congrArg _ (if_congr ?_ rfl (if_congr Iff.rfl rfl (if_congr ?_ rfl rfl))))
  · omega
  · exact Decidable.not_and_iff_or_not.symm

end

/-! ACC.LOAD and ACC.STORE (R372, R373). -/

/-- A map that a tile cannot be loaded from. -/
theorem accLoad_bad (d : Desc) (int : Bool) :
    (accMapOk d = false ∨ (int = true ∧ tmFmt d ≠ 9 ∧ tmFmt d ≠ 10)) ↔
      ¬ (tmNdim d = 2 ∧ tmBox d 0 ≤ 64 ∧ tmBox d 1 ≤ 32 ∧ tmFmt d ≠ 24 ∧ (int = true → tmFmt d = 9 ∨ tmFmt d = 10)) := by
  rw [← Bool.not_eq_true, accMapOk_iff]
  tauto

/-- A map or a tile that ACC.STORE refuses. -/
theorem Exe.accStore_bad (x : Exe) (d : Desc) (t col : Nat) :
    let len := blockLen (tmFmt d) (tmBlk d)
    (accMapOk d = false ∨ (isBlocked (tmFmt d) && (signedOf 32 col % len != 0 || tmBox d 0 % len != 0)) = true ∨
      (x.tileOf t).isNone = true) ↔
      ¬ (tmNdim d = 2 ∧ tmBox d 0 ≤ 64 ∧ tmBox d 1 ≤ 32 ∧ tmFmt d ≠ 24 ∧ (x.tileOf t).isSome ∧
         (isBlocked (tmFmt d) = true → signedOf 32 col % len = 0 ∧ tmBox d 0 % len = 0)) := by
  intro len
  rw [← Bool.not_eq_true, accMapOk_iff, Bool.and_eq_true, Bool.or_eq_true, bne_iff_ne, bne_iff_ne,
    ← Option.not_isSome, Bool.not_eq_true', ← Bool.not_eq_true]
  tauto

/-- What a fresh tile holds before its load: elements that no rule gives. -/
def State.freshElts (s : State) : List (Nat × BitVec 32) :=
  (List.range 2048).map fun e => (e, (Config.freeBits (.ofOp s.next e) 0).setWidth 32)

/-- The operation of ACC.LOAD into tile k. -/
def Exe.accLoadOp (x : Exe) (i : Instr) (scope : Nat) (vs : List Val) (d : Desc) (k : Nat) : EngOp :=
  let w := accWalk d (argOf vs 1) (argOf vs 2)
  { x.newOp i 2 vs (max (max scope 2) (x.minScope (tmSpad d) (tmPages d w.dos))) none 32 0 with
    status := if x.windowDown (tmSpad d) (tmAddr d 0) then futLinkKey else futPending
    clipped := w.clips, whole := w.whole, members := [(x.gid, x.pid, [.bits 0, .acc k none])] }

/-- The operation of ACC.STORE from tile t. -/
def Exe.accStoreOp (x : Exe) (i : Instr) (scope : Nat) (vs : List Val) (d : Desc) (t : Nat) : EngOp :=
  let w := accWalk d (argOf vs 2) (argOf vs 3)
  { x.newOp i 2 vs (max (max scope 2) (x.minScope (tmSpad d) (tmPages d w.dos))) none w.units.length 0 with
    status := if x.windowDown (tmSpad d) (tmAddr d 0) then futLinkKey else futPending
    clipped := w.clips, members := [(x.gid, x.pid, [.acc t none])] }

/-- ACC.LOAD issues over the state in which its tile is taken. -/
theorem accLoad_issues {s : State} {x : Exe} (i : Instr) (sc : Nat) (vs : List Val) (int : Bool) (d : Desc) (free : x.issueWaits 2 = false)
    (step : exec i s = .next (x.withTiles i 1 int x.s.freshElts fun y ts => y.issue (y.accLoadOp i sc vs d (ts.headD 0)) fun z fut _ =>
      z.commitAll i [.bits fut, .acc (ts.headD 0) none] (z.onceFlags i)))
    {u : State} {ts : List Nat} (taken : x.s.takeTiles x.g.team 1 int x.s.freshElts = .taken u ts) :
    ∃ k, ts = [k] ∧ x.Issues s i { x with s := u } (x.accLoadOp i sc vs d k) id fun fut => [.bits fut, .acc k none] := by
  obtain ⟨k, rfl, -⟩ := taken_one taken
  obtain ⟨-, same⟩ := taken_eq taken
  refine ⟨k, rfl, issues_tiles i _ u _ same free (step.trans (congrArg _ ?_))⟩
  rw [withTiles_eq, taken]
  have op : Exe.accLoadOp { x with s := u } i sc vs d k = x.accLoadOp i sc vs d k := by
    obtain ⟨tiles, ops, rfl, -⟩ := same
    rfl
  show Exe.issue { x with s := u } (Exe.accLoadOp { x with s := u } i sc vs d k) _ = _
  rw [op]
  obtain ⟨tiles, ops, rfl, -⟩ := same
  exact issue_congr _ _ _ _ fun fut n => congrArg (Exe.commitAll _ i _) (Exe.onceFlags_upon x _ i rfl)

section
variable {s : State} {x : Exe} (hx : s.exe? = some x) (calm : x.calm) (core : x.p.place = .core) (c : Ctl) (scope : Scope)
  (ops : List Opnd) (acts : x.active c ≠ [])
include hx calm core acts

theorem exec_accLoad_eq (int : Bool) {d : Desc} :
    let i := Instr.accLoad c int scope ops
    let vs := x.onceVals i
    ((argOf vs 0).desc false = none → exec i s = .next (x.trap i trapHandle (x.active c) 0)) ∧
    ((argOf vs 0).desc false = some d → exec i s = .next (
      if accMapOk d = false ∨ (int ∧ tmFmt d ≠ 9 ∧ tmFmt d ≠ 10) then x.trap i trapHandle (x.active c) 0
      else if x.s.tmInside x.g.team d = false then x.trap i 9 (x.active c) 0
      else if x.issueWaits 2 then x.s
      else x.withTiles i 1 int x.s.freshElts fun y ts => y.issue (y.accLoadOp i scope.code vs d (ts.headD 0)) fun z fut _ =>
        z.commitAll i [.bits fut, .acc (ts.headD 0) none] (z.onceFlags i))) := by
  intro i vs
  have step : exec i s = .next _ :=
    (onPath_next hx _).trans (congrArg _ ((Exe.onCore_core core i _).trans (Exe.engine_none calm i acts _)))
  refine ⟨fun none => ?_, fun desc => ?_⟩
  · rw [show (argOf (x.onceVals i) 0).desc false = _ from none] at step
    exact step
  · rw [show (argOf (x.onceVals i) 0).desc false = _ from desc] at step
    exact step

theorem exec_accStore_eq {d : Desc} {t : Nat} :
    let i := Instr.accStore c scope ops
    let vs := x.onceVals i
    let len := blockLen (tmFmt d) (tmBlk d)
    let odd := isBlocked (tmFmt d) && (signedOf 32 (numOf vs 2) % len != 0 || tmBox d 0 % len != 0)
    ((∀ d t, (argOf vs 0).desc false = some d → argOf vs 1 ≠ .acc t none) → exec i s = .next (x.trap i trapHandle (x.active c) 0)) ∧
    ((argOf vs 0).desc false = some d → argOf vs 1 = .acc t none → exec i s = .next (
      if accMapOk d = false ∨ odd ∨ (x.tileOf t).isNone then x.trap i trapHandle (x.active c) 0
      else if x.s.tmInside x.g.team d = false then x.trap i 9 (x.active c) 0
      else x.launchOp i (x.accStoreOp i scope.code vs d t))) := by
  intro i vs len odd
  have step : exec i s = .next _ :=
    (onPath_next hx _).trans (congrArg _ ((Exe.onCore_core core i _).trans (Exe.engine_none calm i acts _)))
  refine ⟨fun other => step.trans (congrArg _ ?_), fun desc acc => ?_⟩
  · split
    · next d t desc acc => exact absurd acc (other d t desc)
    · rfl
  · rw [show (argOf (x.onceVals i) 0).desc false = _ from desc, show argOf (x.onceVals i) 1 = _ from acc] at step
    exact step

end

/-! SPEC (R371). -/

section
variable {x : Exe} (calm : x.calm) (core : x.p.place = .core) (i : Instr) (commit : Bool)
include calm core

/-- The accumulator that SPEC reads is no speculative one. -/
theorem Exe.specKeep_plain (other : ∀ t sp, argOf (x.onceVals i) 0 ≠ .acc t (some sp)) :
    x.specKeep i commit = x.trap i trapHandle (x.active i.ctl) 0 := by
  unfold Exe.specKeep
  rw [Exe.onCore_core core, Exe.once_calm calm]
  split
  · next t sp acc => exact absurd acc (other t sp)
  · rfl

variable {t sp : Nat} (acc : argOf (x.onceVals i) 0 = .acc t (some sp))
include acc

theorem Exe.specKeep_gone (gone : x.tileOf t = none ∨ x.tileOf (if commit then sp else t) = none) :
    x.specKeep i commit = x.trap i trapHandle (x.active i.ctl) 0 := by
  unfold Exe.specKeep
  rw [Exe.onCore_core core, Exe.once_calm calm, acc]
  dsimp only
  split
  · next tile kept =>
    rcases gone with none | none
    · rw [none] at tile
      cases tile
    · rw [none] at kept
      cases kept
  · rfl

/-- No other value holds the kept tile: what was speculative is kept or dropped, and the path goes on with it. -/
theorem Exe.specKeep_last (base : x.tileOf t ≠ none) (kept : x.tileOf (if commit then sp else t) ≠ none)
    (last : x.lastUse i (if commit then sp else t) = true) :
    let u := (x.s.specOps x.g.team sp).foldl (fun s k => if commit then s.releaseFlags k else s.dropSpec k) x.s
    x.specKeep i commit = Exe.commitAll { (u.exeOf x.gid x.pid).getD (x.upon u) with s := u } i
      [.acc (if commit then sp else t) none] (x.onceFlags i) := by
  intro u
  unfold Exe.specKeep
  rw [Exe.onCore_core core, Exe.once_calm calm, acc]
  dsimp only
  split
  · rw [if_pos last]
    rfl
  · next gone =>
    obtain ⟨a, tile⟩ := Option.ne_none_iff_exists'.mp base
    obtain ⟨b, keptTile⟩ := Option.ne_none_iff_exists'.mp kept
    exact absurd keptTile (gone a b tile)

end

/-- Settles O34: each instruction by its checks in order, then the operation that it issues. -/
theorem matrixOperations : Obligations.MatrixOperations := by
  unfold Obligations.MatrixOperations
  intro s x c scope ops hx calm core acts v raises withTile
  refine ⟨fun q form => ?mma, ?spbm, fun int => ?load, ?store, fun commit => ?spec⟩
  case mma =>
    obtain ⟨step, rfl, kind⟩ := exec_mma_eq hx form
    obtain ⟨done, failed, bad, full, one, cohort⟩ := mma_one hx calm core q.1 ⟨q.2.1, q.2.2⟩ scope.code step kind
    refine ⟨done, failed, bad, full, fun fresh latch good alone here room b t sp block acc => ?_, cohort⟩
    obtain ⟨own, other⟩ := one fresh latch good alone here room b t sp block acc
    refine ⟨own, fun notOwn => ?_⟩
    have issued := other notOwn
    cases taken : x.s.takeTiles x.g.team 1 (fbInt b) [] with
    | taken u ts =>
      rw [taken] at issued
      simp only [Exe.mmaStatus_taken taken] at issued
      simp only [withTile, taken]
      exact issued
    | wait =>
      rw [taken] at issued
      simp only [withTile, taken]
      exact issued
    | full =>
      rw [taken] at issued
      simp only [withTile, taken]
      exact issued
  case spbm =>
    intro i rows
    split
    · next none => exact exec_spbm_unblocked hx calm c scope ops acts none
    · next b block =>
      intro bytes good inside even
      have step := exec_spbm_eq hx calm c scope ops acts block
      refine ⟨fun h => next_of_pos step h, fun ok h => ?_, fun ok here h => ?_, fun ok here h => ?_⟩
      · exact next_of_pos (next_of_neg step (not_not_intro ok)) h
      · exact next_of_pos (next_of_neg (next_of_neg step (not_not_intro ok)) (not_not_intro here)) h
      · exact launch_issues i _ rfl (next_of_neg (next_of_neg (next_of_neg step (not_not_intro ok)) (not_not_intro here)) (not_not_intro h))
  case load =>
    intro i
    split
    · next none => exact (exec_accLoad_eq hx calm core c scope ops acts int (d := [])).1 none
    · next d desc =>
      intro good inside w st
      have step := (exec_accLoad_eq hx calm core c scope ops acts int).2 desc
      have bad := accLoad_bad d int
      refine ⟨fun h => next_of_pos step (bad.mpr h), fun ok h => ?_, fun ok here full => ?_, fun ok here free => ?_⟩
      · exact next_of_pos (next_of_neg step fun q => bad.mp q ok) (eq_false_of_ne_true h)
      · exact next_of_pos (next_of_neg (next_of_neg step fun q => bad.mp q ok) (ne_false_of_eq_true here)) full
      · replace step := next_of_neg (next_of_neg (next_of_neg step fun q => bad.mp q ok) (ne_false_of_eq_true here))
          (ne_true_of_eq_false free)
        refine ⟨x.s.freshElts, ?_⟩
        cases taken : x.s.takeTiles x.g.team 1 int x.s.freshElts with
        | taken u ts =>
          simp only [withTile, taken]
          exact accLoad_issues i scope.code (x.onceVals i) int d free step taken
        | wait =>
          simp only [withTile, taken]
          rw [withTiles_eq, taken] at step
          exact step
        | full =>
          simp only [withTile, taken]
          rw [withTiles_eq, taken] at step
          exact step
  case store =>
    intro i
    refine ⟨(exec_accStore_eq hx calm core c scope ops acts (d := []) (t := 0)).1, fun d t desc acc => ?_⟩
    intro len good inside w st
    have step := (exec_accStore_eq hx calm core c scope ops acts).2 desc acc
    have bad := x.accStore_bad d t (v i 2).num
    refine ⟨fun h => next_of_pos step (bad.mpr h), fun ok h => ?_, fun ok here => ?_⟩
    · exact next_of_pos (next_of_neg step fun q => bad.mp q ok) (eq_false_of_ne_true h)
    · have issued := next_of_neg (next_of_neg step fun q => bad.mp q ok) (ne_false_of_eq_true here)
      exact launch_issues i (x.accStoreOp i scope.code (x.onceVals i) d t) rfl issued
  case spec =>
    intro i
    have ctl : i.ctl = c := by cases commit <;> rfl
    have step : exec i s = .next (x.specKeep i commit) := by cases commit <;> exact onPath_next hx _
    refine ⟨fun other => ?_, fun t sp acc => ⟨fun gone => ?_, fun base kept last => ?_⟩⟩
    · rw [Exe.specKeep_plain calm core i commit other, ctl] at step
      exact step
    · rw [Exe.specKeep_gone calm core i commit acc gone, ctl] at step
      exact step
    · intro u y exe
      rw [Exe.specKeep_last calm core i commit acc base kept last] at step
      dsimp only at step
      rw [show State.exeOf _ x.gid x.pid = some y from exe] at step
      exact ⟨_, step, Exe.commitAll_completes { y with s := u } i _ _⟩

end Sys2Proof.Machine
end

section
/-! PROOF. Branches: the arms that lanes take, and how a divergence parts them (R183, R289, R290). -/

namespace Sys2Proof.Machine

/-! Branches whose lanes take one arm. -/

/-- An instruction moves its path to a pc, by the edge in a place; a poison read sets PO. -/
def Exe.Follows (x : Exe) (s : State) (i : Instr) (pc : BitVec 48) (place : Nat) : Prop :=
  ∃ (f : BitVec 6) (t : State), exec i s = .next t ∧
    ((∃ l ∈ x.lanes, x.poison i l = flagPO) → f = flagPO) ∧ ((∀ l ∈ x.lanes, x.poison i l = 0) → f = 0) ∧
    x.Becomes i (x.having (x.moved pc (x.p.pc, place) (x.flagged f))) t

section
variable {s : State} {x : Exe} {i : Instr} {pick : List Val → Nat} {k : Nat} (calm : x.calm) (step : exec i s = .next (x.choose i pick))
  (whole : x.p.arms = []) (holds : x.lanes ≠ []) (one : ∀ l ∈ x.lanes, pick (x.args i l) = k)
include calm step whole holds one

theorem Exe.follows_target {d : BitVec 28} (target : (targetsOf i.ops)[k]? = some d) :
    x.Follows s i (x.p.pc + d.signExtend 48 * 4) (k + 1) := by
  have follows := choose_single s x i calm pick step whole holds rfl k one (List.getElem?_eq_some_iff.mp target).1.le
  rwa [target] at follows

theorem Exe.follows_next (last : (targetsOf i.ops).length = k) : x.Follows s i (pcAdd x.p.pc (instrSize i)) 0 := by
  have follows := choose_single s x i calm pick step whole holds rfl k one last.ge
  rwa [List.getElem?_eq_none last.le] at follows

end

/-! Divergences of two arms. -/

/-- The lanes of a path for which a choice is `b`, as an arm: the first one of a BRC where `b` is true. -/
def Exe.armOf (x : Exe) (taken : Nat → Bool) (pc : Bool → BitVec 48) (b : Bool) : Arm :=
  ⟨if b then 0 else 1, maskOf (x.lanes.filter fun l => taken l == b), pc b, b.toNat⟩

theorem Exe.armsOf_two (x : Exe) (i : Instr) (taken : Nat → Bool) {d : BitVec 28} (targets : targetsOf i.ops = [d])
    (someTake : x.lanes.filter (fun l => taken l == true) ≠ []) (someFall : x.lanes.filter (fun l => taken l == false) ≠ []) :
    let pc := fun b => if b then x.p.pc + d.signExtend 48 * 4 else pcAdd x.p.pc (instrSize i)
    armsOf x i (x.lanes.map fun l => (l, if taken l = true then 0 else 1)) = [x.armOf taken pc true, x.armOf taken pc false] := by
  obtain ⟨first, second⟩ := sel_arm x.lanes taken
  have range : List.range ([d].map (pcTarget x.p.pc)).length.succ = [0, 1] := rfl
  unfold armsOf
  dsimp only
  rw [targets, range]
  simp only [List.map_cons, List.map_nil, first, second, List.getElem?_cons_zero, List.getElem?_cons_succ, List.getElem?_nil]
  rw [List.filter_eq_self.mpr]
  · rfl
  · have takers := mask_ne_filter someTake
    have fallers := mask_ne_filter someFall
    simp only [List.mem_cons, List.not_mem_nil, or_false]
    rintro a (rfl | rfl)
    · exact bne_iff_ne.mpr takers
    · exact bne_iff_ne.mpr fallers

theorem Exe.maskCount_armOf (x : Exe) (taken : Nat → Bool) (pc : Bool → BitVec 48) (b : Bool) :
    maskCount (x.armOf taken pc b).lanes = (x.lanes.filter fun l => taken l == b).length :=
  congrArg List.length (lanesOf_filter x.p.mask _)

/-- Which of two arms leaves (R183): the lesser, the first when the two are equal. -/
def lesser (arm : Bool → Arm) : Bool := decide (maskCount (arm true).lanes ≤ maskCount (arm false).lanes)

theorem Exe.divide_pair (x : Exe) (u : Nat) (join : BitVec 48) (arm : Bool → Arm) (sp : Split) (p : Path) :
    x.divide u join [arm true, arm false] sp p = (x.leave u join sp p [arm (lesser arm)]).map fun sp =>
      (sp, { p.goto (arm !lesser arm).pc (arm !lesser arm).place with mask := (arm !lesser arm).lanes }) := by
  rw [divide_two, lesser]
  by_cases least : maskCount (arm true).lanes ≤ maskCount (arm false).lanes <;> simp [least]

/-- The landing of a divergence, which awaits every lane of the path. -/
def Exe.landingOf (x : Exe) (land : BitVec 48 × Nat) : LandRec where
  uid := x.g.fresh
  id := land.2
  join := land.1
  depth := x.depth
  owner := x.pid
  need := x.p.mask
  arrived := 0
  modes := []
  timer := false
  outer := x.p.pend
  place := x.p.place
  waits := []
  away := false

/-- The group with the landing of a divergence. -/
def Exe.awaiting (x : Exe) (land : BitVec 48 × Nat) : Group :=
  { x.g with fresh := x.g.fresh + 1, ctx := { x.g.ctx with recs := x.g.ctx.recs ++ [x.landingOf land] } }

theorem Exe.ejected_awaiting (x : Exe) (land : BitVec 48 × Nat) : (x.awaiting land).ctx.ejected = x.g.ctx.ejected := rfl

theorem Exe.corePaths_awaiting (x : Exe) (land : BitVec 48 × Nat) : (x.awaiting land).ctx.corePaths = x.g.ctx.corePaths := by
  simp [Exe.awaiting, Ctx.corePaths, Exe.landingOf]

/-- The path of an arm. -/
def Exe.onArm (x : Exe) (f : BitVec 6) (a : Arm) : Path :=
  { x.moved a.pc (x.p.pc, a.place) (x.flagged f) with mask := a.lanes, pend := x.g.fresh :: x.p.pend }

/-- The path of an arm that leaves: no recall has brought it back yet. -/
def Exe.offArm (x : Exe) (f : BitVec 6) (a : Arm) : Path := { x.onArm f a with recalled := false }

/-- The gallery cores that a divergence finds in use: it looks where the launch ejects. -/
def Exe.busy (x : Exe) : List Nat := if x.launch.eject = 0 then [] else x.s.galleryBusy x.hall

/-- The group in which a path goes on by an arm: its operands with L have ended. -/
def Exe.parted (x : Exe) (i : Instr) (g : Group) (stay : Path) : Group :=
  (g.mapLanes x.lanes fun _ y => y.eraseAll (endsOf i.ops)).setPath x.pid stay

/-- The path of a divergence before its lanes part: they are pending at the landing. -/
def Exe.parting (x : Exe) (f : BitVec 6) : Path := { x.p with mode := x.flagged f, pend := x.g.fresh :: x.p.pend }

/-- A divergence of which no arm has left yet. -/
def Exe.split (x : Exe) (land : BitVec 48 × Nat) : Split := ⟨x.awaiting land, x.busy, 0, 0⟩

/-- What the arm that leaves makes of a divergence (R183); `none`: the landing stack is full. -/
def Exe.leaves (x : Exe) (land : BitVec 48 × Nat) (f : BitVec 6) (a : Arm) : Option Split :=
  x.leave x.g.fresh land.1 (x.split land) (x.parting f) [a]

theorem Exe.divide_parting (x : Exe) (land : BitVec 48 × Nat) (f : BitVec 6) (arm : Bool → Arm) :
    x.divide x.g.fresh land.1 [arm true, arm false] (x.split land) (x.parting f) =
      (x.leaves land f (arm (lesser arm))).map fun sp => (sp, x.onArm f (arm !lesser arm)) :=
  x.divide_pair ..

section
variable (x : Exe) (i : Instr) {land : BitVec 48 × Nat} (lands : x.tr.landing x.p.pc = some land) (f : BitVec 6) (arm : Bool → Arm)
include lands

theorem Exe.branch_overflows (full : x.leaves land f (arm (lesser arm)) = none) :
    x.branch i [arm true, arm false] f false = x.trapAll i trapOverflow := by
  have divided := x.divide_parting land f arm
  rw [full] at divided
  unfold Exe.branch
  dsimp only
  rw [lands]
  split
  · rfl
  · next sp q goes => cases goes.symm.trans divided

theorem Exe.branch_parts {g : Group} {busy : List Nat} {n : Nat} (goes : x.leaves land f (arm (lesser arm)) = some ⟨g, busy, n, 0⟩) :
    let s := x.put (x.parted i g (x.onArm f (arm !lesser arm)))
    x.branch i [arm true, arm false] f false =
      x.count (if n = 0 then s else s.setLaunch x.team.launch { x.launch with ejections := x.launch.ejections + n }) 1 := by
  have divided := x.divide_parting land f arm
  have every : x.p.mask &&& ~~~(0 : LaneMask) = x.p.mask := BitVec.and_allOnes
  rw [goes] at divided
  unfold Exe.branch
  dsimp only
  rw [lands]
  split
  · next full => cases full.symm.trans divided
  · next sp' q parts =>
    cases parts.symm.trans divided
    dsimp only
    rw [every]
    rfl

end

/-! The courses of the arm that leaves (R183, R189). -/

/-- To which gallery core the arm that leaves is ejected. -/
def Exe.ejects (x : Exe) (land : BitVec 48 × Nat) (f : BitVec 6) (a : Arm) : Option Nat :=
  x.ejectTo (x.split land) (x.parting f) land.1 [a]

section
variable {x : Exe} {land : BitVec 48 × Nat} {f : BitVec 6} {a : Arm}

theorem Exe.ejects_eq (whole : x.p.arms = []) :
    x.ejects land f a =
      if 0 < x.launch.eject ∧ maskCount a.lanes ≤ x.launch.eject ∧ x.g.handler = none ∧ x.p.place = .core ∧
        x.g.ctx.ejected < 4 ∧ x.tr.handsOver (x.tr.offset x.p.pc) [(a.place, x.tr.offset a.pc)] (x.tr.offset land.1) = true
      then idleGallery (x.s.galleryBusy x.hall) else none := by
  have lanes : armLanes [a] = a.lanes := by simp [armLanes]
  have arms : (x.parting f).arms = [] := whole
  have place : (x.parting f).place = x.p.place := rfl
  have ejected : (x.split land).g.ctx.ejected = x.g.ctx.ejected := x.ejected_awaiting land
  unfold Exe.ejects Exe.ejectTo
  dsimp only
  rw [lanes]
  by_cases small : x.launch.eject = 0 ∨ x.launch.eject < maskCount a.lanes
  · rw [if_pos small, if_neg]
    rintro ⟨pos, fits, -⟩
    omega
  · have busy : (x.split land).busy = x.s.galleryBusy x.hall := if_neg fun never => small (.inl never)
    rw [if_neg small]
    by_cases bound : x.g.handler.isSome ∨ x.p.place ≠ .core ∨ 4 ≤ x.g.ctx.ejected
    · rw [if_pos (by tauto), if_neg]
      rintro ⟨-, -, free, core, few, -⟩
      rw [free] at bound
      exact bound.elim (by simp) fun bound => bound.elim (· core) (by omega)
    · simp only [not_or, Bool.not_eq_true, Option.isSome_eq_false_iff, Option.isNone_iff_eq_none, ne_eq, not_not, not_le] at bound
      obtain ⟨free, core, few⟩ := bound
      rw [if_neg (by simp [arms, place, ejected, free, core, few]), busy]
      refine if_congr ?_ rfl rfl
      simp only [List.map_cons, List.map_nil, free, core, few, true_and]
      constructor
      · exact fun hands => ⟨by omega, by omega, hands⟩
      · exact fun ⟨_, _, hands⟩ => hands

/-- An arm is ejected, to an idle gallery core, where it may be (R183). -/
theorem Exe.ejects_iff (whole : x.p.arms = []) :
    x.ejects land f a ≠ none ↔ 0 < x.launch.eject ∧ maskCount a.lanes ≤ x.launch.eject ∧ x.g.handler = none ∧ x.p.place = .core ∧
      x.g.ctx.ejected < 4 ∧ x.tr.handsOver (x.tr.offset x.p.pc) [(a.place, x.tr.offset a.pc)] (x.tr.offset land.1) = true ∧
      ∃ k, k < 32 ∧ k ∉ x.s.galleryBusy x.hall := by
  rw [Exe.ejects_eq whole, idle_iff, ← Option.isSome_iff_ne_none]
  split
  · next may =>
    obtain ⟨pos, fits, free, core, few, hands⟩ := may
    exact ⟨fun idle => ⟨pos, fits, free, core, few, hands, idle⟩, fun ⟨_, _, _, _, _, _, idle⟩ => idle⟩
  · next never =>
    exact iff_of_false (by simp) fun ⟨pos, fits, free, core, few, hands, _⟩ => never ⟨pos, fits, free, core, few, hands⟩

theorem Exe.ejects_idle (whole : x.p.arms = []) {k : Nat} (ejects : x.ejects land f a = some k) :
    k < 32 ∧ k ∉ x.s.galleryBusy x.hall := by
  rw [Exe.ejects_eq whole] at ejects
  split at ejects
  · exact idle_some ejects
  · cases ejects

/-- The group with the arm that leaves as a path of its own. -/
def Exe.beside (x : Exe) (land : BitVec 48 × Nat) (q : Path) : Group :=
  { (x.awaiting land).setPath (x.g.fresh + 1) q with fresh := x.g.fresh + 2 }

/-- The landing-stack entry of a path that leaves a divergence. -/
def Exe.entryOf (x : Exe) (q : Path) : Entry where
  rcd := some x.g.fresh
  lanes := q.mask
  pc := q.pc
  owner := x.pid
  mode := q.mode
  pend := q.pend
  last := q.last
  arms := []
  place := x.p.place
  runs := x.pid

/-- The group with the arm that leaves on its landing stack. -/
def Exe.pushing (x : Exe) (land : BitVec 48 × Nat) (q : Path) : Group :=
  { x.awaiting land with ctx := { (x.awaiting land).ctx with stack := x.g.ctx.stack ++ [x.entryOf q] } }

theorem Exe.leaves_ejected {k : Nat} (ejects : x.ejects land f a = some k) :
    x.leaves land f a = some ⟨x.beside land { x.offArm f a with place := .handing k }, k :: x.busy, 1, 0⟩ := by
  unfold Exe.leaves Exe.leave
  dsimp only
  rw [show x.ejectTo (x.split land) (x.parting f) land.1 [a] = some k from ejects]
  rfl

/-- The arm that is not ejected runs beside the path where it is alone in its group, and is pushed where it is not. -/
theorem Exe.leaves_course (stays : x.ejects land f a = none) : x.leaves land f a =
    if x.g.ctx.corePaths = 1 ∧ x.g.ctx.stack = [] ∧ x.p.place = .core then some ⟨x.beside land (x.offArm f a), x.busy, 0, 0⟩
    else if 32 ≤ x.g.ctx.stack.length then none
    else some ⟨x.pushing land (x.offArm f a), x.busy, 0, 0⟩ := by
  rw [← x.corePaths_awaiting land]
  unfold Exe.leaves Exe.leave
  dsimp only
  rw [show x.ejectTo (x.split land) (x.parting f) land.1 [a] = none from stays]
  rfl

end

/-- A path goes on by its arm behind a branch that has made of the rest of its group what `g` says. -/
theorem Exe.becomes_parted (x : Exe) (i : Instr) (g : Group) (stay : Path) (lanes : g.lanes = x.g.lanes) :
    x.Becomes i (g.setPath x.pid stay) (x.count (x.put (x.parted i g stay)) 1) := by
  refine x.becomes_count i _ _ ?_ (Group.mapLanes_congr _ _ _ _ lanes)
  unfold Exe.parted
  rw [Group.mapLanes_eq]
  rfl

/-! The step of a branch. -/

/-- The flags that a branch raises: PO where a lane of its path reads poison (R237). -/
def Exe.branchFlags (x : Exe) (i : Instr) : BitVec 6 := flagIf (!(x.lanes.filter (x.readsPoison (x.plan i))).isEmpty) flagPO

theorem Exe.choose_calm {x : Exe} (calm : x.calm) (whole : x.p.arms = []) (i : Instr) (pick : List Val → Nat) :
    x.choose i pick = x.branch i (armsOf x i (x.lanes.map fun l => (l, pick (x.args i l)))) (x.branchFlags i) false := by
  have quiet : modeEn x.p.mode = 0 := calm
  unfold Exe.choose
  dsimp only
  rw [if_neg (not_not_intro whole), if_neg (by simp [quiet])]
  rfl

/-- Counting leaves the launches alone. -/
theorem State.bump_setLaunch (s : State) (n : Nat) (l : Launch) (e k c m : Nat) :
    (s.setLaunch n l).bump e k c m = { s.bump e k c m with launches := mset s.launches n l } := rfl

section
variable {x : Exe} {i : Instr} {land : BitVec 48 × Nat} {f : BitVec 6} {arm : Bool → Arm} (lands : x.tr.landing x.p.pc = some land)
include lands

theorem Exe.branch_ejects {k : Nat} (ejects : x.ejects land f (arm (lesser arm)) = some k) :
    ∃ t, x.branch i [arm true, arm false] f false = t ∧
      t.launches = mset x.s.launches x.team.launch { x.launch with ejections := x.launch.ejections + 1 } ∧
      x.Becomes i
        ((x.beside land { x.offArm f (arm (lesser arm)) with place := .handing k }).setPath x.pid (x.onArm f (arm !lesser arm)))
        { t with launches := x.s.launches } := by
  refine ⟨_, (x.branch_parts i lands f arm (Exe.leaves_ejected ejects)).trans (State.bump_setLaunch ..), rfl, ?_⟩
  exact x.becomes_parted i (x.beside land _) _ rfl

theorem Exe.branch_beside (stays : x.ejects land f (arm (lesser arm)) = none)
    (alone : x.g.ctx.corePaths = 1 ∧ x.g.ctx.stack = [] ∧ x.p.place = .core) :
    x.Becomes i ((x.beside land (x.offArm f (arm (lesser arm)))).setPath x.pid (x.onArm f (arm !lesser arm)))
      (x.branch i [arm true, arm false] f false) := by
  rw [x.branch_parts i lands f arm ((Exe.leaves_course stays).trans (if_pos alone))]
  exact x.becomes_parted i (x.beside land _) _ rfl

theorem Exe.branch_pushes (stays : x.ejects land f (arm (lesser arm)) = none)
    (nested : ¬ (x.g.ctx.corePaths = 1 ∧ x.g.ctx.stack = [] ∧ x.p.place = .core)) (room : x.g.ctx.stack.length < 32) :
    x.Becomes i ((x.pushing land (x.offArm f (arm (lesser arm)))).setPath x.pid (x.onArm f (arm !lesser arm)))
      (x.branch i [arm true, arm false] f false) := by
  rw [x.branch_parts i lands f arm ((Exe.leaves_course stays).trans ((if_neg nested).trans (if_neg (by omega))))]
  exact x.becomes_parted i (x.pushing land _) _ rfl

end

/-- Settles O18: one arm leaves nothing to divide; of two the lesser leaves, on the course that `Exe.ejects` and the landing stack
leave it. -/
theorem conditionalBranches : Obligations.ConditionalBranches := by
  unfold Obligations.ConditionalBranches
  refine ⟨fun s x c ops hx calm holds whole => ?uniform, fun s x c ops d land hx calm whole target lands => ?divergent⟩
  case uniform =>
    intro follows
    refine ⟨?brc, fun q kind => ?brm⟩
    case brc =>
      intro i taken
      have step : exec i s = .next (x.choose i fun vs => if (argOf vs 0).isTrue then 0 else 1) := onPath_next hx _
      refine ⟨fun d target all => ?_, fun d target no => ?_⟩
      · exact Exe.follows_target calm step whole holds (fun l mem => if_pos (all l mem)) (congrArg (·[0]?) target)
      · exact Exe.follows_next calm step whole holds (fun l mem => if_neg (Bool.eq_false_iff.mp (no l mem)))
          (congrArg List.length target)
    case brm =>
      intro i lane targets
      have step : exec i s = .next (x.choose i (brmPick q.1)) := onPath_next hx _
      refine ⟨fun k d target first => ?_, fun no => ?_⟩
      · have place : k < q.2 := targets ▸ (List.getElem?_eq_some_iff.mp target).1
        exact Exe.follows_target calm step whole holds
          (fun l mem => brm_first q kind _ k (.inr ⟨place, (first l mem).1⟩) (first l mem).2) target
      · exact Exe.follows_next calm step whole holds (fun l mem => brm_first q kind _ q.2 (.inl rfl) (no l mem)) targets
  case divergent =>
    intro i taken arm someTake someFall min pc e free ejects u r path stay leave added
    let arms := x.armOf taken pc
    have step : exec i s = .next (x.branch i [arms true, arms false] (x.branchFlags i) false) := by
      refine (onPath_next hx _).trans (congrArg _ ((Exe.choose_calm calm whole i _).trans ?_))
      rw [show _ = [arms true, arms false] from x.armsOf_two i taken target someTake someFall]
    have less : lesser arms = min := by
      unfold lesser
      rw [Exe.maskCount_armOf, Exe.maskCount_armOf]
    have may : x.ejects land (x.branchFlags i) (arms (lesser arms)) ≠ none ↔ ejects := by
      rw [Exe.ejects_iff whole, less, Exe.maskCount_armOf]
      exact Iff.rfl
    obtain ⟨poisons, clean⟩ := x.poison_flag i x.lanes
    have stays : ¬ ejects → x.ejects land (x.branchFlags i) (arms (lesser arms)) = none := fun kept => not_not.mp (kept ∘ may.mp)
    refine ⟨x.branchFlags i, _, step, poisons, clean, fun ejected => ?ejected, fun kept alone => ?beside,
      fun kept nested => ⟨fun room => ?pushes, fun full => ?overflows⟩⟩
    case ejected =>
      obtain ⟨k, ejected⟩ := Option.ne_none_iff_exists'.mp (may.mpr ejected)
      obtain ⟨t, rfl, launches, becomes⟩ := Exe.branch_ejects (i := i) lands ejected
      rw [less] at becomes
      exact ⟨k, Exe.ejects_idle whole ejected, launches, becomes⟩
    case beside =>
      have becomes := Exe.branch_beside (i := i) lands (stays kept) alone
      rw [less] at becomes
      exact becomes
    case pushes =>
      have becomes := Exe.branch_pushes (i := i) lands (stays kept) nested room
      rw [less] at becomes
      exact becomes
    case overflows =>
      exact x.branch_overflows i lands _ arms ((Exe.leaves_course (stays kept)).trans ((if_neg nested).trans (if_pos full)))

end Sys2Proof.Machine
end

section
/-! PROOF. JOIN and landings: arrivals, and what follows from them in a group (R185 to R189, R193, R194, R291, R298). -/

namespace Sys2Proof.Machine

/-! JOIN (R291). -/

section
variable {s : State} {x : Exe} (hx : s.exe? = some x) (c : Ctl) (id : BitVec 28)
include hx

theorem exec_join : exec (.join c [.table id]) s = .next (x.join (.join c [.table id]) id.toNat) := onPath_next hx _

/-- A path passes a JOIN that is not its landing's. -/
theorem join_passes (other : x.landingHere id.toNat = none) :
    let next := pcAdd x.p.pc 2
    let edge := if x.tr.phiAfterJoin next then x.joinEdge else (x.p.pc, 0)
    ∃ t, exec (.join c [.table id]) s = .next t ∧ x.Becomes (.join c [.table id]) (x.having (x.moved next edge x.p.mode)) t := by
  intro next edge
  have passes : x.join (.join c [.table id]) id.toNat = x.count (x.put (x.having (x.moved next edge x.p.mode))) 1 := by
    unfold Exe.join
    rw [other]
    rfl
  refine ⟨_, (exec_join hx c id).trans (congrArg _ passes), x.becomes_lanes _ _ _ rfl fun l => ?_⟩
  split
  · rfl
  · rfl

section
variable {r : LandRec} (here : x.landingHere id.toNat = some r)
include here

/-- An ejected path begins its copy-back at another path's landing (R189). -/
theorem join_copies (away : x.p.place ≠ .core) (other : r.owner ≠ x.pid) :
    ∃ k, x.p.place.galleryCore = some k ∧
      exec (.join c [.table id]) s = .next (x.put (x.having { x.p with place := .copying k })) := by
  have step := exec_join hx c id
  unfold Exe.join at step
  rw [here] at step
  cases place : x.p.place with
  | core => exact absurd place away
  | handing k | gallery k | copying k | recalling k =>
    refine ⟨k, rfl, step.trans (congrArg _ ?_)⟩
    dsimp only
    rw [place]
    exact if_neg other

theorem join_lands (own : x.p.place = .core ∨ r.owner = x.pid) : exec (.join c [.table id]) s = .next (x.land r) := by
  refine (exec_join hx c id).trans (congrArg _ ?_)
  unfold Exe.join
  rw [here]
  cases place : x.p.place with
  | core => rfl
  | handing k | gallery k | copying k | recalling k =>
    exact if_pos (own.resolve_left (by simp [place]))

end

end

/-- A landing at which the path's lanes have arrived. -/
def Exe.arriving (x : Exe) (r : LandRec) : LandRec :=
  { r.arrive x.pid x.p.place x.p.mask x.p.mode with
    timer := r.timer || (r.arrived == 0 && decide (x.launch.joinwait ≠ 0) && x.g.handler.isNone) }

/-- The group when the path has arrived at a landing, before anything follows. -/
def Exe.landed (x : Exe) (r : LandRec) (edge : BitVec 48 × Nat) : Group :=
  { (x.g.mapLanes x.lanes fun _ y => { y with edge := some edge }) with
    ctx := { x.g.ctx with paths := mdel x.g.ctx.paths x.pid }.setRcd (x.arriving r) }

theorem Exe.arriving_eq (x : Exe) (r : LandRec) :
    x.arriving r = { r with
      arrived := r.arrived ||| x.p.mask
      modes := r.modes ++ [(x.p.mask, x.p.mode)]
      timer := r.timer || decide (r.arrived = 0 ∧ x.launch.joinwait ≠ 0 ∧ x.g.handler = none)
      waits := if x.p.place = .core ∧ x.pid ∉ r.waits then r.waits ++ [x.pid] else r.waits } := by
  have waits : (!r.waits.contains x.pid) = true ↔ x.pid ∉ r.waits := by simp
  have timer : (r.arrived == 0 && decide (x.launch.joinwait ≠ 0) && x.g.handler.isNone) =
      decide (r.arrived = 0 ∧ x.launch.joinwait ≠ 0 ∧ x.g.handler = none) := by
    rw [Bool.eq_iff_iff]
    simp [and_assoc]
  unfold Exe.arriving LandRec.arrive
  simp only [timer, waits]

/-- A path that arrives leaves its lanes the edge by which they came, and what follows in the group follows. -/
theorem Exe.land_settles (x : Exe) (r : LandRec) :
    let edge := if x.tr.phiAfterJoin (pcAdd x.p.pc 2) then x.joinEdge else (x.p.pc, 0)
    let g : Group := { x.landed r edge with ctx := x.s.follows (x.landed r edge) }
    State.Sampled ((x.put g).bump x.eid 4 x.team.core 1) (x.land r) ∧
      (x.g.handler ≠ none → x.land r = (x.put g).bump x.eid 4 x.team.core 1) := by
  intro edge g
  have handler : (x.landed r edge).handler = x.g.handler := by
    unfold Exe.landed
    rw [Group.mapLanes_eq]
  have lands : x.land r = x.count ((x.put (x.landed r edge)).settleGroup x.gid) 1 := by
    unfold Exe.land Exe.landed
    dsimp only [edge]
    rw [show x.p.pc + 8 = pcAdd x.p.pc 2 from rfl, Group.mapLanes_eq]
    rfl
  obtain ⟨sampled, same⟩ := (x.put (x.landed r edge)).settleGroup_sampled x.gid
  rw [show (x.put (x.landed r edge)).group x.gid = x.landed r edge from State.group_setGroup ..] at sampled same
  rw [show (x.put (x.landed r edge)).setGroup x.gid { x.landed r edge with ctx := (x.put (x.landed r edge)).follows (x.landed r edge) } =
    x.put g from setGroup_setGroup ..] at sampled same
  rw [lands]
  exact ⟨sampled.bump .., fun held => congrArg (x.count · 1) (same (handler ▸ held))⟩

theorem Exe.lane_landed (x : Exe) (r : LandRec) (edge : BitVec 48 × Nat) (c : Ctx) (l : Nat) :
    ({ x.landed r edge with ctx := c } : Group).lane l = if l ∈ x.lanes then { x.g.lane l with edge := some edge } else x.g.lane l :=
  Group.lane_mapLanes (fun _ y => { y with edge := some edge }) _ (nodup_lanesOf _) x.g l

theorem Exe.landed_group (x : Exe) (r : LandRec) (edge : BitVec 48 × Nat) (c : Ctx) :
    ({ x.landed r edge with ctx := c } : Group) = { x.g with lanes := (x.landed r edge).lanes, ctx := c } := by
  unfold Exe.landed
  rw [Group.mapLanes_eq]

theorem Exe.ctx_landed (x : Exe) (r : LandRec) (edge : BitVec 48 × Nat) :
    (x.landed r edge).ctx = { x.g.ctx with
      paths := mdel x.g.ctx.paths x.pid
      recs := x.g.ctx.recs.map fun q => if q.uid = r.uid then x.arriving r else q } := rfl

/-- What follows depends on the group's context, handler and team alone. -/
theorem Exe.follows_landed (x : Exe) (r : LandRec) (edge : BitVec 48 × Nat) :
    x.s.follows (x.landed r edge) = x.s.follows { x.g with ctx := (x.landed r edge).ctx } := by
  unfold Exe.landed
  rw [Group.mapLanes_eq]
  rfl

/-! What follows from arrivals and exits (R185, R186). -/

/-- Nothing more follows in a settled context. -/
theorem Ctx.settled_done (c : Ctx) : ∀ o ∈ c.settled.idleOwners, c.settled.settleOne o = none := by
  have done := settle_done (2 * (c.recs.length + c.stack.length) + 2) c (by unfold Ctx.size; omega)
  exact fun o mem => List.findSome?_eq_none_iff.mp done o mem

section
variable {c : Ctx} {o : Nat}

/-- A context settles by the one step of its only idle path number, where that runs the path and leaves every other's claims. -/
theorem Ctx.settled_once {c' : Ctx} (idle : o ∈ c.idleOwners) (only : ∀ q ∈ c.idleOwners, q = o) (step : c.settleOne o = some c')
    (runs : c'.running o = true) (paths : ∀ q, c'.running q = false → c.running q = false)
    (recs : ∀ r ∈ c'.recs, ∃ r' ∈ c.recs, r'.owner = r.owner)
    (stack : ∀ e ∈ c'.stack, ∃ e' ∈ c.stack, e'.owner = e.owner)
    (blocks : ∀ e ∈ c.stack, e.runs ≠ e.owner → ∃ e' ∈ c'.stack, e'.runs = e.runs ∧ e'.owner = e.owner) : c.settled = c' := by
  refine settle_step c c' o _ idle only step (List.eq_nil_iff_forall_not_mem.mpr fun q mem => ?_)
  obtain ⟨owns, still, unblocked⟩ := mem_idle.mp mem
  have same : q = o := by
    refine only q (mem_idle.mpr ⟨?_, paths q still, fun e here runs => ?_⟩)
    · obtain ⟨r, here, owner⟩ | ⟨e, here, owner⟩ := owns
      · obtain ⟨r', here', same⟩ := recs r here
        exact .inl ⟨r', here', same.trans owner⟩
      · obtain ⟨e', here', same⟩ := stack e here
        exact .inr ⟨e', here', same.trans owner⟩
    · by_contra other
      obtain ⟨e', here', runs', owner'⟩ := blocks e here (by rw [runs]; exact Ne.symm other)
      exact other (owner' ▸ unblocked e' here' (runs'.trans runs))
  rw [same] at still
  cases still.symm.trans runs

theorem Ctx.running_mset (c : Ctx) (o : Nat) (p : Path) : ({ c with paths := mset c.paths o p } : Ctx).running o = true := by
  simp [Ctx.running]

theorem Ctx.not_running_of_mset {c : Ctx} {o q : Nat} {p : Path} (still : ({ c with paths := mset c.paths o p } : Ctx).running q = false) :
    c.running q = false := by
  unfold Ctx.running at still ⊢
  dsimp only at still
  rw [mget_mset] at still
  split at still
  · cases still
  · exact still

section
variable {r : LandRec} (last : c.lastOwned o = some r) (holds : r.need ≠ 0)
include last holds

theorem Ctx.settleOne_entry {e : Entry} (due : c.dueEntry o (some r) = some e) :
    c.settleOne o = some { c with
      paths := mset c.paths e.runs { Path.start e.pc e.lanes e.mode e.pend e.last e.place with arms := e.arms }
      stack := dropLastOf (Entry.dueAt o (some r)) c.stack } := by
  unfold Ctx.settleOne
  simp only [last, due]
  exact if_neg holds

section
variable (due : c.dueEntry o (some r) = none)
include due

theorem Ctx.settleOne_waits (waits : r.need &&& ~~~r.arrived ≠ 0 ∨ r.away = true) : c.settleOne o = none := by
  have stays : ¬ (maskSub r.need r.arrived && !r.away) = true := by
    obtain missing | away := waits
    · rw [maskSub, beq_false_of_ne missing]
      exact Bool.false_ne_true
    · simp [away]
  unfold Ctx.settleOne
  simp only [last, due, holds, stays]
  rfl

theorem Ctx.settleOne_completes (all : r.need &&& ~~~r.arrived = 0) (here : r.away = false)
    (outer : ∀ u q, r.outer.head? = some u → c.rcd u = some q → q.id = r.id → q.depth ≠ r.depth) :
    c.settleOne o = some { c.dropRcd r.uid with
      paths := mset c.paths o (Path.start (pcAdd r.join 2) r.need
        (modeMerge (r.modes.map fun a => (a.1 &&& r.need, a.2))) r.outer none r.place) } := by
  have complete : (maskSub r.need r.arrived && !r.away) = true := by simp [maskSub, all, here]
  have ends : (r.outer.head?.bind fun u => (c.rcd u).filter fun q => q.id == r.id && q.depth == r.depth) = none := by
    rw [Option.bind_eq_none_iff]
    intro u head
    rw [Option.filter_eq_none_iff]
    intro q found same
    simp only [Bool.and_eq_true, beq_iff_eq] at same
    exact outer u q head found same.1 same.2
  unfold Ctx.settleOne
  simp only [last, due, holds, complete, ends]
  rfl

end

end

end

/-- Settles O19: a JOIN by the landing that it finds; what follows, by the one step that the only idle path number can make. -/
theorem joinsAndLandings : Obligations.JoinsAndLandings := by
  unfold Obligations.JoinsAndLandings
  refine ⟨fun s x c id hx => ?joins, fun c => ⟨c.settled_done, fun o r idle only last holds =>
    ⟨fun e due runs => ?arm, fun due => ⟨?waits, ?completes⟩⟩⟩⟩
  case joins =>
    intro i here edge
    have found : ∀ r, here r → x.landingHere id.toNat = some r := fun r => (landingHere_iff x id.toNat r).mpr
    refine ⟨fun absent => ?_, fun r at_ away other => ?_, fun r at_ own => ?_⟩
    · refine join_passes hx c id (Option.eq_none_iff_forall_ne_some.mpr fun r at_ => ?_)
      exact absent ⟨r, (landingHere_iff x id.toNat r).mp at_⟩
    · obtain ⟨k, place, step⟩ := join_copies hx c id (found r at_) away other
      exact ⟨k, _, place, step, rfl⟩
    · intro r' ctx
      obtain ⟨sampled, same⟩ := x.land_settles r
      refine ⟨_, _, join_lands hx c id (found r at_) own, sampled, same, Exe.counted_put .., ?_, fun l => ?_, ?_⟩
      · rw [Exe.group_put_bump, Exe.follows_landed, Exe.ctx_landed, Exe.arriving_eq]
        exact x.landed_group r _ _
      · rw [Exe.group_put_bump]
        exact x.lane_landed ..
      · rw [Exe.setGroup_put_bump]
        exact x.keeps_put' rfl (fun _ _ => rfl) [] (fun _ _ _ => rfl) (fun _ => rfl) (fun _ _ => .refl _) fun _ _ _ _ => rfl
  case arm =>
    obtain ⟨-, mine, -⟩ := dueEntry_mem due
    have step := Ctx.settleOne_entry last holds due
    rw [runs] at step
    refine Ctx.settled_once idle only step (Ctx.running_mset ..) (fun q => Ctx.not_running_of_mset) (fun r mem => ⟨r, mem, rfl⟩)
      (fun e mem => ⟨e, mem_dropLastOf _ _ e mem, rfl⟩) fun e' mem blocks => ?_
    obtain rfl | kept := dropLastOf_mem _ e c.stack due e' mem
    · exact absurd (runs.trans mine.symm) blocks
    · exact ⟨e', kept, rfl, rfl⟩
  case waits => exact fun waits => settle_none c o _ only (Ctx.settleOne_waits last holds due waits)
  case completes =>
    intro all away outer
    refine Ctx.settled_once idle only (Ctx.settleOne_completes last holds due all away outer) (Ctx.running_mset ..)
      (fun q => Ctx.not_running_of_mset) (fun q mem => ?_) (fun e mem => ?_) fun e mem blocks => ?_
    · obtain ⟨r', kept, rfl⟩ := List.mem_map.mp mem
      exact ⟨r', (List.mem_filter.mp kept).1, rfl⟩
    · obtain ⟨e', kept, rfl⟩ := List.mem_map.mp mem
      exact ⟨e', kept, rfl⟩
    · exact ⟨_, List.mem_map_of_mem mem, rfl, rfl⟩

end Sys2Proof.Machine
end

section
/-! PROOF. Traps: what raises them, and where they are delivered (R198, R222, R265, R296, R376, R404 to R407). -/

namespace Sys2Proof.Machine

/-! What raises a trap. -/

section
variable {s : State} {x : Exe} (hx : s.exe? = some x) (c : Ctl)
include hx

theorem exec_unreach (ops : List Opnd) :
    exec (.unreach c ops) s = .next (x.s.raiseTrap x.gid x.pid x.p
      { code := 0x0D, lanes := x.p.mask, flags := 0, opnds := x.lanes.map fun l => (l, x.shownOps (.unreach c ops) l) }) := by
  refine (onPath_next hx _).trans ?_
  unfold Exe.trapAll Exe.trap
  rw [show maskOf x.lanes = x.p.mask from maskOf_lanesOf _]

theorem exec_voteLevel (ops : List Opnd) :
    exec (.voteLevel c ops) s = .next (x.s.raiseTrap x.gid x.pid x.p
      { code := 0x0E, lanes := x.p.mask, flags := 0, opnds := x.lanes.map fun l => (l, x.shownOps (.voteLevel c ops) l) }) := by
  refine (onPath_next hx _).trans ?_
  unfold Exe.trap
  rw [show maskOf x.lanes = x.p.mask from maskOf_lanesOf _]

theorem exec_reservedMajorStub (maj : BitVec 7) (sub : BitVec 5) (m r : BitVec 4) (ws : List Word) :
    exec (.reservedMajorStub maj sub c m r ws) s = .next (x.s.raiseTrap x.gid x.pid x.p
      { code := 2, lanes := x.p.mask, flags := 0, opnds := x.lanes.map fun l => (l, []) }) :=
  onPath_next hx _

/-- TRAP with its number as an immediate raises the software trap of that number (R376). -/
theorem exec_trap {n : BitVec 30} (plain : c.guarded = false) (low : 0x10 ≤ n.toNat) (high : n.toNat ≤ 0x7F) :
    exec (.trap c [.imm n]) s = .next (x.s.raiseTrap x.gid x.pid x.p
      { code := n.toNat, lanes := x.p.mask, flags := 0, opnds := x.lanes.map fun l => (l, x.shownOps (.trap c [.imm n]) l) }) := by
  refine (onPath_next hx _).trans ?_
  have every : maskOf (x.active c) = x.p.mask := by
    unfold Exe.active Exe.activeMask
    rw [plain]
    exact maskOf_lanesOf _
  unfold Exe.trap
  dsimp only
  rw [trap_vals x c n plain low high, every]

end

/-! Where a trap is delivered. -/

theorem State.raiseTrap_core {p : Path} (core : p.place = .core) (s : State) (gid pid : Nat) (h : TrapInfo) :
    s.raiseTrap gid pid p h = s.takeTrap gid pid p h := by
  unfold State.raiseTrap
  rw [core]

theorem State.raiseTrap_gallery {p : Path} {k : Nat} (gallery : p.place.galleryCore = some k) (s : State) (gid pid : Nat) (h : TrapInfo) :
    s.raiseTrap gid pid p h = s.recall gid pid p k h.opnds (some h) := by
  unfold State.raiseTrap
  cases place : p.place with
  | core =>
    rw [place] at gallery
    cases gallery
  | handing n | gallery n | copying n | recalling n =>
    rw [place] at gallery
    cases gallery
    rfl

section
variable {x : Exe} (here : x.s.group x.gid = x.g)
include here

theorem Exe.recall_begins {k : Nat} {opnds : List (Nat × List (BitVec 64))} {owed : Option TrapInfo}
    (room : x.g.ctx.corePaths < 2 ∨ x.g.ctx.stack.length < 32) :
    x.s.recall x.gid x.pid x.p k opnds owed = x.put (x.having { x.p with place := .recalling k, owed := owed }) := by
  unfold State.recall
  dsimp only
  rw [here]
  exact if_neg (by simp [Ctx.recallOverflows]; omega)

theorem Exe.recall_overflows {k : Nat} {opnds : List (Nat × List (BitVec 64))} {owed : Option TrapInfo}
    (two : 2 ≤ x.g.ctx.corePaths) (full : 32 ≤ x.g.ctx.stack.length) :
    x.s.recall x.gid x.pid x.p k opnds owed = x.s.takeTrap x.gid x.pid x.p ⟨trapOverflow, x.p.mask, 0, opnds⟩ := by
  unfold State.recall
  dsimp only
  rw [here]
  exact if_pos (by simp [Ctx.recallOverflows, two, full])

variable (h : TrapInfo)

/-- A trap inside a handler is a double trap (R407). -/
theorem Exe.takeTrap_doubles (held : x.g.handler.isSome) :
    x.s.takeTrap x.gid x.pid x.p h = x.s.endLaunch x.team.launch stDoubleTrap 0 0 h.code := by
  unfold State.takeTrap State.takeTrapOr
  dsimp only
  rw [here]
  exact if_pos held

section
variable (free : x.g.handler = none)
include free

theorem Exe.takeTrap_masked (maskable : h.code < 0x10) (masked : x.g.tmask.getLsbD h.code = false) :
    x.s.takeTrap x.gid x.pid x.p h = x.s.endLaunch x.team.launch stUnhandled h.code x.p.pc h.code := by
  unfold State.takeTrap State.takeTrapOr
  dsimp only
  rw [here]
  exact (if_neg (by simp [free])).trans (if_pos ⟨maskable, masked⟩)

section
variable (passes : h.code < 0x10 → x.g.tmask.getLsbD h.code = true)
include passes

theorem Exe.takeTrap_unhandled (bare : x.s.trapFn x.launch = none) :
    x.s.takeTrap x.gid x.pid x.p h = x.s.endLaunch x.team.launch stNoHandler 0 0 h.code := by
  unfold State.takeTrap State.takeTrapOr
  dsimp only
  rw [here]
  refine (if_neg (by simp [free])).trans ((if_neg fun ⟨maskable, masked⟩ => by simp [passes maskable] at masked).trans ?_)
  rw [show x.s.trapFn (x.s.launch (x.s.team x.g.team).launch) = none from bare]
  rfl

theorem Exe.takeTrap_awaits {fn : Nat} (entry : x.s.trapFn x.launch = some fn)
    (missing : x.s.findTrans x.eid x.launch.obj fn x.g.width (x.launch.budget x.g.role) x.hall = none) :
    x.s.takeTrap x.gid x.pid x.p h = x.s.awaitTrans x.gid x.pid fn x.p := by
  unfold State.takeTrap State.takeTrapOr
  dsimp only
  rw [here]
  refine (if_neg (by simp [free])).trans ((if_neg fun ⟨maskable, masked⟩ => by simp [passes maskable] at masked).trans ?_)
  rw [show x.s.trapFn (x.s.launch (x.s.team x.g.team).launch) = some fn from entry]
  dsimp only
  split
  · rfl
  · next found => cases found.symm.trans missing

end

end

end

/-- Settles O24: each instruction by the trap that it raises, and each trap by the checks on its way to the handler. -/
theorem trapsEnterOrEnd : Obligations.TrapsEnterOrEnd := by
  unfold Obligations.TrapsEnterOrEnd
  refine ⟨fun s x c n ops maj sub m r ws fn k tr hx plain low high => ?_, fun x h hx => ?_⟩
  · obtain ⟨group, path, rfl, -⟩ := exe_group hx
    intro trap stub q mem core free passes entry found
    have enters := trap_enters x
      { code := q.2, lanes := x.p.mask, flags := 0, opnds := x.lanes.map fun l => (l, if q.1 = stub then [] else x.shownOps q.1 l) }
      fn k tr group path free passes entry found
    refine ⟨_, ?_, enters⟩
    rw [← State.raiseTrap_core core]
    simp only [List.mem_cons, List.not_mem_nil, or_false] at mem
    obtain rfl | rfl | rfl | rfl := mem
    · exact exec_trap hx c plain low high
    · exact exec_unreach hx c ops
    · exact exec_voteLevel hx c ops
    · simpa using exec_reservedMajorStub hx c maj sub m r ws
  · obtain ⟨group, path, -⟩ := exe_group hx
    intro t ends
    refine ⟨fun core => ?_, fun k gallery => ⟨fun room => ?_, fun two full free masked fn n tr entry found => ?_⟩⟩
    · have taken : t = x.s.takeTrap x.gid x.pid x.p h := State.raiseTrap_core core ..
      simp only [ends, taken]
      exact ⟨Exe.takeTrap_doubles group h, Exe.takeTrap_masked group h, Exe.takeTrap_unhandled group h, 
        fun fn free passes => Exe.takeTrap_awaits group h free passes⟩
    · exact (State.raiseTrap_gallery gallery ..).trans (Exe.recall_begins group room)
    · have taken : t = x.s.takeTrap x.gid x.pid x.p { h with code := trapOverflow, lanes := x.p.mask, flags := 0 } :=
        (State.raiseTrap_gallery gallery ..).trans (Exe.recall_overflows group two full)
      rw [taken]
      exact trap_enters x _ fn n tr group path free (fun _ => masked) entry found

end Sys2Proof.Machine
end

section
/-! PROOF. Special operands (R172, R173, R251 to R253). -/

namespace Sys2Proof.Machine

/-- The coordinates of a team give its index back (R173). -/
theorem Exe.teamCoord_index (x : Exe) :
    x.team.index = x.teamCoord 0 + x.launch.nteam 0 * (x.teamCoord 1 + x.launch.nteam 1 * x.teamCoord 2) := by
  have z : x.teamCoord 2 = x.team.index / x.launch.nteam 0 / x.launch.nteam 1 := Nat.div_div_eq_div_mul .. |>.symm
  rw [z]
  show _ = x.team.index % x.launch.nteam 0 +
    x.launch.nteam 0 * (x.team.index / x.launch.nteam 0 % x.launch.nteam 1 + x.launch.nteam 1 * _)
  rw [Nat.mod_add_div, Nat.mod_add_div]

theorem Exe.teamCoord_lt (x : Exe) (nx : 0 < x.launch.nteam 0) (ny : 0 < x.launch.nteam 1) :
    x.teamCoord 0 < x.launch.nteam 0 ∧ x.teamCoord 1 < x.launch.nteam 1 := ⟨Nat.mod_lt _ nx, Nat.mod_lt _ ny⟩

/-- A special operand reads as its class and its index say. -/
theorem Exe.read_special (x : Exe) (t : Ty) (l : Nat) {cls idx : Nat} (class_ : cls < 2 ^ 6) (index : idx < 2 ^ 24) :
    x.read t l (.special (BitVec.ofNat 6 cls) (BitVec.ofNat 24 idx)) = x.special t l cls idx := by
  show x.special t l (BitVec.ofNat 6 cls).toNat (BitVec.ofNat 24 idx).toNat = _
  rw [BitVec.toNat_ofNat, BitVec.toNat_ofNat, Nat.mod_eq_of_lt class_, Nat.mod_eq_of_lt index]

theorem Launch.paramByte_toNat (l : Launch) (i : Nat) : (l.paramByte i).toNat = if i < l.plen then (l.params.getD i 0).toNat else 0 := by
  unfold Launch.paramByte
  split <;> rfl

section
variable (x : Exe) (t : Ty) (l n : Nat)

theorem Exe.special_arg {v : BitVec 64} (passed : (x.g.lane l).top.args[n]? = some v) :
    x.special t l 4 n = (.bits (BitVec.ofNat 64 (v.toNat % 2 ^ t.width)), false) := by
  unfold Exe.special
  dsimp only
  rw [passed]
  rfl

theorem Exe.special_no_arg (missing : (x.g.lane l).top.args[n]? = none) : x.special t l 4 n = (poisonOf t, true) := by
  unfold Exe.special
  dsimp only
  rw [missing]
  rfl

theorem Exe.special_param {ty : Ty} (typed : x.paramTy n = some ty) : x.special t l 2 n = (x.launch.param ty n, false) := by
  unfold Exe.special
  dsimp only
  rw [typed]
  rfl

end

/-- Settles O59: each special by its class and index; a parameter by the bytes of its type, an argument by its slot. -/
theorem specialOperands : Obligations.SpecialOperands := by
  unfold Obligations.SpecialOperands
  intro x t l reads i32
  refine ⟨rfl, rfl, rfl, rfl, rfl, rfl, ?grid,
    ⟨x.teamCoord 0, x.teamCoord 1, x.teamCoord 2, rfl, rfl, rfl, x.teamCoord_lt, x.teamCoord_index⟩,
    rfl, rfl, rfl, fun off small ty typed => ?param, fun n small => ?function,
    fun n small => ⟨fun v passed => ?arg, fun missing => ?none⟩, rfl, rfl, rfl, rfl⟩
  case grid =>
    refine congrArg (fun v => (Val.bits v, false)) (BitVec.eq_of_toNat_eq (y := BitVec.ofNat 64 (x.gridLane l)) ?_)
    rw [BitVec.toNat_ofNat, BitVec.toNat_ofNat]
    exact Nat.mod_mod ..
  case param =>
    intro byte
    refine Launch.param_cases x.launch off ty byte (fun k => Launch.paramByte_toNat ..) (fun k => ?_) _
      ((x.read_special t l (by omega) small).trans (x.special_param t l off typed))
    rw [show byte k = _ from (Launch.paramByte_toNat x.launch (off + k)).symm]
    exact BitVec.isLt _
  case function => exact x.read_special t l (by omega) small
  case arg => exact (x.read_special t l (by omega) (by omega)).trans (x.special_arg t l n passed)
  case none => exact (x.read_special t l (by omega) (by omega)).trans (x.special_no_arg t l n missing)

end Sys2Proof.Machine
end

section
/-! PROOF. A step runs the instruction decoded at the pc of the agent whose turn it is. -/

namespace Sys2Proof.Machine

/-! Turns. -/

/-- The state in which the agent of a turn moves: the turn is taken, and the counter of free values has advanced (log 1). -/
def State.turned (s : State) : State := { s with turns := s.turns.tail, free := s.free + 1 }

theorem step_event {s : State} {i : Instr} {rest : List Turn} (turn : s.turns = .event i :: rest) :
    step s = if i.isEvent then exec i s.turned else .next s.turned := by
  unfold step
  rw [turn]
  dsimp only
  rw [State.turned, turn]

theorem step_idle {s : State} (turn : s.turns = []) (cur : s.cur = none) : step s = .next s.turned := by
  unfold step
  rw [turn, cur]
  dsimp only
  rw [State.turned, turn, cur]

/-- A path moves in its turn, and without a turn where it moved last. -/
theorem step_path {s : State} {g p : Nat} (turn : s.turns.head? = some (.path g p) ∨ s.turns = [] ∧ s.cur = some (g, p)) :
    step s = pathStep s.turned g p := by
  rcases turn with turn | ⟨turn, cur⟩
  · obtain ⟨rest, turn⟩ := List.head?_eq_some_iff.mp turn
    unfold step
    rw [turn]
    dsimp only
    rw [State.turned, turn]
  · unfold step
    rw [turn, cur]
    dsimp only
    rw [State.turned, turn, cur]

theorem step_hart {s : State} {h : Nat} (turn : s.turns.head? = some (.hart h)) : step s = hartStep s.turned h := by
  obtain ⟨rest, turn⟩ := List.head?_eq_some_iff.mp turn
  unfold step
  rw [turn]
  dsimp only
  rw [State.turned, turn]

/-! Paths. -/

/-- The state in which a path of a group issues: what it replays has come, and its core's arrays have been read (R49, R79). -/
def State.issuing (s : State) (g p : Nat) : State := (s.replayed (.path g p)).coreRead (s.team (s.group g).team).core

theorem pathStep_waits {s : State} {g p : Nat} (ready : s.ready g p = false) : pathStep s g p = .next s := by
  unfold pathStep
  rw [ready]
  exact if_neg Bool.false_ne_true

theorem pathStep_ready {s : State} {g p : Nat} (ready : s.ready g p = true) :
    let core := (s.team (s.group g).team).core
    pathStep s g p = if (s.issuing g p).coreErrs.contains core then .next ((s.issuing g p).arrayFault core)
      else issueStep { s.issuing g p with cur := some (g, p) } := by
  unfold pathStep
  rw [ready]
  exact if_pos rfl

theorem State.coreRead_coreErrs (s : State) (core : Nat) : (s.coreRead core).coreErrs = s.coreErrs := by
  unfold State.coreRead
  split
  · dsimp only
    split <;> rfl
  · rfl

/-- Neither the replay nor a corrected error takes away the double-bit error of a core (R79). -/
theorem State.issuing_coreErrs (s : State) (g p : Nat) : (s.issuing g p).coreErrs = s.coreErrs :=
  (s.replayed (.path g p)).coreRead_coreErrs _

theorem Exe.spill_none {x : Exe} (h : x.spillBytes = 0) : x.spill = .ok x.s := by
  unfold Exe.spill
  exact if_pos (.inl h)

section
variable {s t : State} {x : Exe} (hx : s.exe? = some x)
include hx

theorem issueStep_spill_stops (spill : x.spill = .error t) : issueStep s = .next t := by
  unfold issueStep
  rw [hx]
  dsimp only
  rw [spill]

theorem issueStep_ok {i : Instr} (spill : x.spill = .ok t) (fetched : x.fetched = .ok i) : issueStep s = exec i t := by
  unfold issueStep
  rw [hx]
  dsimp only
  rw [spill]
  dsimp only
  rw [fetched]

theorem issueStep_illegal {hd : Head} (spill : x.spill = .ok t) (fetched : x.fetched = .illegal hd) :
    issueStep s = .next (x.upon t).illegal := by
  unfold issueStep
  rw [hx]
  dsimp only
  rw [spill]
  dsimp only
  rw [fetched]

end

/-! General cores. -/

theorem hartStep_waits {s : State} {h : Nat}
    (waits : (s.hart h).inReset = true ∨ (s.hart h).wait ≠ .nothing ∨ s.partOf h = none) : hartStep s h = .next s := by
  unfold hartStep
  dsimp only
  cases hp : s.partOf h with
  | none => rfl
  | some p =>
    have idle : ((s.hart h).inReset || (s.hart h).wait != .nothing) = true := by simpa [hp] using waits
    exact if_pos idle

section
variable {s t : State} {h p : Nat} {w : Word} (part : s.partOf h = some p) (running : (s.hart h).inReset = false)
  (ready : (s.hart h).wait = .nothing)
include part running ready

theorem hartStep_eq : hartStep s h =
    match s.hartFetch h p with
    | .error s => .next s
    | .ok (s, w) =>
        if isCustomWord w.toNat then
          match decodeCustom w with
          | some i => exec i { s with curHart := h }
          | none => .next (s.hartIllegal h)
        else .next (s.riscv h p w) := by
  unfold hartStep
  dsimp only
  rw [part, running, ready]
  rfl

theorem hartStep_fetch_stops (fetch : s.hartFetch h p = .error t) : hartStep s h = .next t := by
  rw [hartStep_eq part running ready, fetch]

theorem hartStep_riscv (fetch : s.hartFetch h p = .ok (t, w)) (plain : isCustomWord w.toNat = false) :
    hartStep s h = .next (t.riscv h p w) := by
  rw [hartStep_eq part running ready, fetch]
  exact if_neg (by rw [plain]; exact Bool.false_ne_true)

theorem hartStep_custom {i : Instr} (fetch : s.hartFetch h p = .ok (t, w)) (custom : isCustomWord w.toNat = true)
    (decoded : decodeCustom w = some i) : hartStep s h = exec i { t with curHart := h } := by
  rw [hartStep_eq part running ready, fetch]
  dsimp only
  rw [custom, decoded]
  rfl

theorem hartStep_illegal (fetch : s.hartFetch h p = .ok (t, w)) (custom : isCustomWord w.toNat = true)
    (undecoded : decodeCustom w = none) : hartStep s h = .next (t.hartIllegal h) := by
  rw [hartStep_eq part running ready, fetch]
  dsimp only
  rw [custom, undecoded]
  rfl

end

/-- Settles O53: by the turn, and then by what the agent's fetch gives. -/
theorem stepRunsTheInstruction : Obligations.StepRunsTheInstruction := by
  unfold Obligations.StepRunsTheInstruction
  intro s u
  refine ⟨step_idle, fun i rest => step_event, fun g p turn => ?path, fun h turn => ?hart⟩
  case path =>
    intro core w v
    have errs : w.coreErrs = s.coreErrs := State.issuing_coreErrs u g p
    rw [step_path turn]
    refine ⟨pathStep_waits, fun ready failing => ?fault, fun ready sound x hx => ?issue⟩
    case fault =>
      rw [← errs] at failing
      exact (pathStep_ready ready).trans (if_pos (List.contains_iff_mem.mpr failing))
    case issue =>
      rw [← errs, ← List.contains_iff_mem] at sound
      have issues : pathStep s.turned g p = issueStep v := (pathStep_ready ready).trans (if_neg sound)
      obtain ⟨-, -, here, cur⟩ := exe_group hx
      obtain ⟨rfl, rfl⟩ : g = x.gid ∧ p = x.pid := by simpa [v] using cur
      rw [issues]
      refine ⟨fun fits => here ▸ x.spill_none fits, fun t => issueStep_spill_stops hx,
        fun t spill => ⟨fun i rest fetched => ?_, ?_⟩⟩
      · exact issueStep_ok hx spill (congrArg Prod.fst fetched)
      · exact fun hd fetched => ⟨_, rfl, rfl, rfl, issueStep_illegal hx spill fetched⟩
  case hart =>
    rw [step_hart turn]
    refine ⟨fun p part running ready => ⟨fun t => hartStep_fetch_stops part running ready, fun t w fetch => ⟨?_, ?_, ?_⟩⟩,
      hartStep_waits (s := s.turned)⟩
    · exact hartStep_riscv part running ready fetch
    · exact fun i => hartStep_custom part running ready fetch
    · exact hartStep_illegal part running ready fetch

end Sys2Proof.Machine
end

section
/-! PROOF. Calls: the frame that CALL and CALLI enter, and what RET leaves of it (R209, R253, R292 to R294). -/

namespace Sys2Proof.Machine

/-! What a call and a return leave alone. -/

theorem Exe.group_count_put (x : Exe) (g : Group) (n : Nat) : (x.count (x.put g) n).group x.gid = g := x.group_put_bump ..

/-- A step that counts and changes of its group the lanes and the paths leaves all else as it is. -/
theorem Exe.keeps_but_lanes_paths (x : Exe) {g : Group} (same : ({ g with lanes := x.g.lanes, ctx := x.g.ctx } : Group) = x.g) :
    let u := x.count (x.put g) 1
    x.Keeps (fun _ => False) (u.setGroup x.gid { u.group x.gid with lanes := x.g.lanes, ctx := x.g.ctx }) := by
  intro u
  rw [show u.group x.gid = g from x.group_count_put g 1, same]
  rw [show u.setGroup x.gid x.g = (x.put x.g).bump x.eid 4 x.team.core 1 from x.setGroup_put_bump ..]
  exact x.keeps_put' rfl (fun _ _ => rfl) [] (fun _ _ _ => rfl) (fun _ => rfl) (fun _ _ => .refl _) fun _ _ _ _ => rfl

/-! CALL and CALLI (R292). -/

/-- The flag that an instruction raises for its poison reads alone (R237). -/
def Exe.PoisonFlag (x : Exe) (i : Instr) (f : BitVec 6) : Prop :=
  ((∃ l ∈ x.active i.ctl, x.poison i l = flagPO) → f = flagPO) ∧ ((∀ l ∈ x.active i.ctl, x.poison i l = 0) → f = 0)

theorem Exe.unlessPoison_flag {x : Exe} (calm : x.calm) (i : Instr) (k : BitVec 6 → State) :
    ∃ f, x.unlessPoison i k = k f ∧ x.PoisonFlag i f :=
  ⟨_, Exe.unlessPoison_calm calm i k, x.poison_flag i _⟩

/-- The check of CALLI passes where the indices are one, and it names a function of KIND 0 (R204). -/
theorem Exe.calli_passes (x : Exe) (fns : List Nat) :
    ¬ (fns.any (· != fns.headD 0) || !x.device (fns.headD 0)) = true ↔
      (∀ m ∈ fns, m = fns.headD 0) ∧ x.device (fns.headD 0) = true := by
  simp

section
variable {s : State} {x : Exe} (hx : s.exe? = some x) (calm : x.calm) (c : Ctl) (t : Ty) (ops : List Opnd)
include hx calm

theorem exec_call_enters :
    ∃ f, exec (.call c t ops) s = .next (x.enter (.call c t ops) (joinId ops) 1 f) ∧ x.PoisonFlag (.call c t ops) f := by
  obtain ⟨f, goes, flag⟩ := Exe.unlessPoison_flag calm (.call c t ops) fun f => x.enter (.call c t ops) (joinId ops) 1 f
  exact ⟨f, (onPath_next hx _).trans (congrArg _ goes), flag⟩

/-- The step of CALLI over the indices that the path's lanes hold. -/
theorem exec_calli_eq : let i := Instr.calli c t ops
    let fns := x.lanes.map fun l => numOf (x.args i l) 0
    ∃ f, exec i s = .next (if fns.any (· != fns.headD 0) || !x.device (fns.headD 0) then x.trapAll i trapHandle
        else x.enter i (fns.headD 0) 1 f) ∧ x.PoisonFlag i f := by
  intro i fns
  obtain ⟨f, goes, flag⟩ := Exe.unlessPoison_flag calm i fun f =>
    if fns.any (· != fns.headD 0) || !x.device (fns.headD 0) then x.trapAll i trapHandle else x.enter i (fns.headD 0) 1 f
  exact ⟨f, (onPath_next hx _).trans (congrArg _ goes), flag⟩

theorem exec_calli_traps : let i := Instr.calli c t ops
    let fns := x.lanes.map fun l => numOf (x.args i l) 0
    (¬ ∃ n, fns.headD 0 = n ∧ (∀ m ∈ fns, m = n) ∧ x.device n = true) → exec i s = .next (x.trapAll i trapHandle) := by
  intro i fns unnamed
  obtain ⟨f, step, -⟩ := exec_calli_eq hx calm c t ops
  refine next_of_pos step ?_
  by_contra named
  exact unnamed ⟨_, rfl, (x.calli_passes _).mp named⟩

theorem exec_calli_enters {fn : Nat} : let i := Instr.calli c t ops
    let fns := x.lanes.map fun l => numOf (x.args i l) 0
    fns.headD 0 = fn ∧ (∀ n ∈ fns, n = fn) ∧ x.device fn = true →
    ∃ f, exec i s = .next (x.enter i fn 1 f) ∧ x.PoisonFlag i f := by
  rintro i fns ⟨head, one, device⟩
  obtain ⟨f, step, flag⟩ := exec_calli_eq hx calm c t ops
  subst head
  exact ⟨f, next_of_neg step ((x.calli_passes fns).mpr ⟨one, device⟩), flag⟩

end

/-- CALL, and CALLI whose index names a function, enter it. -/
theorem exec_call_forms {s : State} {x : Exe} (hx : s.exe? = some x) (calm : x.calm) (c : Ctl) (t : Ty) (ops : List Opnd) {fn : Nat}
    {i : Instr} :
    let calli := Instr.calli c t ops
    let fns := x.lanes.map fun l => numOf (x.args calli l) 0
    (i = .call c t ops ∧ joinId ops = fn) ∨ (i = calli ∧ fns.headD 0 = fn ∧ (∀ n ∈ fns, n = fn) ∧ x.device fn = true) →
    i.ctl = c ∧ i.ops = ops ∧ ∃ f, exec i s = .next (x.enter i fn 1 f) ∧ x.PoisonFlag i f := by
  rintro calli fns (⟨rfl, rfl⟩ | ⟨rfl, named⟩)
  · exact ⟨rfl, rfl, exec_call_enters hx calm c t ops⟩
  · exact ⟨rfl, rfl, exec_calli_enters hx calm c t ops named⟩

/-! Entering a function (R209, R294). -/

section
variable (x : Exe) (i : Instr) (fn n : Nat) (f : BitVec 6)

/-- A lane in the function that it enters: a new frame above its own, where the operands with L have ended (R253). -/
def Exe.called (tr l : Nat) (y : Lane) : Lane :=
  { y.eraseAll (endsOf i.ops) with
    frames := { fn := fn, tr := tr, ret := pcAdd x.p.pc (instrSize i), vals := [], args := ((x.args i l).drop 1).map Val.toBits } ::
      (y.eraseAll (endsOf i.ops)).frames }

/-- The group in which the lanes of the path have entered a function. -/
def Exe.calledGroup (tr : Nat) (entry : BitVec 48) : Group :=
  (x.g.mapLanes x.lanes (x.called i fn tr)).setPath x.pid (x.moved entry (x.p.pc, 0) (x.flagged f))

theorem Exe.lane_calledGroup (tr : Nat) (entry : BitVec 48) (l : Nat) :
    (x.calledGroup i fn f tr entry).lane l = if l ∈ x.lanes then x.called i fn tr l (x.g.lane l) else x.g.lane l := by
  unfold Exe.calledGroup
  rw [Group.lane_setPath, Group.lane_mapLanes _ x.lanes (nodup_lanesOf _)]

/-- A call changes of the group the lanes, and of its context the path. -/
theorem Exe.calledGroup_eq (tr : Nat) (entry : BitVec 48) :
    x.calledGroup i fn f tr entry =
      { x.having (x.moved entry (x.p.pc, 0) (x.flagged f)) with lanes := (x.calledGroup i fn f tr entry).lanes } := by
  unfold Exe.calledGroup
  rw [Group.mapLanes_eq]
  rfl

/-- The path's own objects are the same after an entry of a translation. -/
theorem Exe.count_entered (s : State) (k : Nat) : Exe.count { x with s := x.entered n } s k = x.count s k := by
  obtain ⟨teams, launches⟩ := x.entered_same n
  have team : Exe.team { x with s := x.entered n } = x.team := by
    show (x.entered n).team x.g.team = _
    unfold State.team
    rw [teams]
    rfl
  have eid : Exe.eid { x with s := x.entered n } = x.eid := by
    show ((x.entered n).launch (Exe.team { x with s := x.entered n }).launch).enclave = _
    rw [team]
    unfold State.launch
    rw [launches]
    rfl
  unfold Exe.count
  rw [team, eid]

theorem Exe.enter_tooDeep (deep : 255 ≤ x.calls) : x.enter i fn 1 f = x.s.endLaunch x.team.launch stCallDepth 0 0 0 := by
  unfold Exe.enter
  exact if_pos deep

section
variable {x} (room : x.calls < 255)
include room

theorem Exe.enter_awaits (missing : x.s.findTrans x.eid x.launch.obj fn x.g.width (x.launch.budget x.g.role) x.hall = none) :
    x.enter i fn 1 f = x.s.awaitTrans x.gid x.pid fn x.p := by
  unfold Exe.enter
  refine (if_neg (Nat.not_le_of_lt room)).trans ?_
  rw [missing]

section
variable {n} {tr : Trans} (found : x.s.findTrans x.eid x.launch.obj fn x.g.width (x.launch.budget x.g.role) x.hall = some (n, tr))
include found

theorem Exe.enter_faults {d : Nat × BitVec 48} (fault : tr.fault = some d) :
    x.enter i fn 1 f = x.s.endLaunch x.team.launch stTranslation d.1 d.2 0 := by
  unfold Exe.enter
  refine (if_neg (Nat.not_le_of_lt room)).trans ?_
  rw [found]
  dsimp only
  rw [fault]

/-- The state of a call: the lanes stand in the function's frame, and the path at its ENTRY. -/
theorem Exe.enter_calls (whole : tr.fault = none) :
    let y : Exe := { x with s := x.entered n }
    x.enter i fn 1 f = y.count (y.put (x.calledGroup i fn f n tr.entry)) 1 := by
  intro y
  rw [x.count_entered]
  unfold Exe.enter
  refine (if_neg (Nat.not_le_of_lt room)).trans ?_
  rw [found]
  dsimp only
  rw [whole]
  exact congrArg (x.count · 1) (x.entered_eq _ n)

end
end

end

/-! RET (R293). -/

/-- One more result of a call. -/
theorem Lane.returned_succ (y : Lane) (base n : Nat) (types : Nat → Ty) (vs : List Val) :
    y.returned base (n + 1) types vs = match vs[n]? with
      | some v => (y.returned base n types vs).define (base + n) (ofTy (types n) v.num)
      | none => (y.returned base n types vs).erase (base + n) := by
  unfold Lane.returned
  rw [List.range_succ, List.foldl_append]
  rfl

theorem Lane.keeps_returned (y : Lane) (base n : Nat) (types : Nat → Ty) (vs : List Val) :
    ({ y with frames := y.frames.tail } : Lane).Keeps (y.returned base n types vs) := by
  induction n with
  | zero => exact .refl _
  | succ n ih =>
    rw [Lane.returned_succ]
    split
    · exact ih.trans (Lane.keeps_define ..)
    · exact ih.trans (Lane.keeps_erase ..)

/-- A value of the caller's frame after RET: a result, or poison for a result that RET does not pass, or what it was (R293). -/
theorem Lane.val_returned (y : Lane) (base n id : Nat) (types : Nat → Ty) (vs : List Val) :
    (y.returned base n types vs).val id =
      if base ≤ id ∧ id < base + n then (vs[id - base]?).map fun v => ofTy (types (id - base)) v.num
      else ({ y with frames := y.frames.tail } : Lane).val id := by
  induction n with
  | zero =>
    rw [if_neg (by omega)]
    rfl
  | succ n ih =>
    have step : (y.returned base (n + 1) types vs).val id =
        if id = base + n then vs[n]?.map fun v => ofTy (types n) v.num else (y.returned base n types vs).val id := by
      rw [Lane.returned_succ]
      cases vs[n]? with
      | some v => exact Lane.val_define ..
      | none => exact Lane.val_erase ..
    rw [step, ih]
    by_cases last : id = base + n
    · rw [if_pos last, if_pos (by omega), show id - base = n by omega]
    · rw [if_neg last]
      exact if_congr (by omega) rfl rfl

/-- The types of a call's results, as the caller holds them (R293). -/
def Node.resultTy (call : Node) (caller : Trans) (k : Nat) : Ty := (caller.typeOf (call.base + k)).getD .i64

section
variable (x : Exe) (i : Instr) (f : BitVec 6) (caller : Trans) (call : Node)

/-- The group in which the lanes of the path have returned from a function to the call that they entered it by. -/
def Exe.returnedGroup : Group :=
  (x.g.mapLanes x.lanes fun l y => y.returned call.base call.ndef (call.resultTy caller) (x.args i l)).setPath x.pid
    (x.moved (x.g.lane x.first).top.ret (pcAdd caller.entry call.off, 0) (x.flagged f))

theorem Exe.lane_returnedGroup (l : Nat) : (x.returnedGroup i f caller call).lane l =
    if l ∈ x.lanes then (x.g.lane l).returned call.base call.ndef (call.resultTy caller) (x.args i l) else x.g.lane l := by
  unfold Exe.returnedGroup
  rw [Group.lane_setPath, Group.lane_mapLanes _ x.lanes (nodup_lanesOf _)]

/-- A return changes of the group the lanes, and of its context the path. -/
theorem Exe.returnedGroup_eq : x.returnedGroup i f caller call =
    { x.having (x.moved (x.g.lane x.first).top.ret (pcAdd caller.entry call.off, 0) (x.flagged f)) with
      lanes := (x.returnedGroup i f caller call).lanes } := by
  unfold Exe.returnedGroup
  rw [Group.mapLanes_eq]
  rfl

end

section
variable {s : State} {x : Exe} (hx : s.exe? = some x) (calm : x.calm) (c : Ctl) (ops : List Opnd)
include hx calm

theorem exec_ret_returns {call : Node} :
    let i := Instr.ret c ops
    let caller := x.s.translation ((x.g.lane x.first).frames.getD 1 ⟨0, 0, 0, [], []⟩).tr
    caller.nodes.find? (fun n => n.off + n.size == caller.offset (x.g.lane x.first).top.ret) = some call →
    ∃ f, exec i s = .next (x.count (x.put (x.returnedGroup i f caller call)) 1) ∧ x.PoisonFlag i f := by
  intro i caller found
  obtain ⟨f, goes, flag⟩ := Exe.unlessPoison_flag calm i fun f =>
    x.count (x.put (x.returnedGroup i f caller ((caller.nodes.find? fun n => n.off + n.size == caller.offset
      (x.g.lane x.first).top.ret).getD ⟨0, 0, 0, 0, .malformed, none⟩))) 1
  refine ⟨f, (onPath_next hx _).trans (congrArg _ (goes.trans ?_)), flag⟩
  rw [found]
  rfl

end

/-- Settles O21: CALL and CALLI by the checks of an entry, RET by the call that it returns to. -/
theorem callsAndReturns : Obligations.CallsAndReturns := by
  unfold Obligations.CallsAndReturns
  refine ⟨fun s x c t ops fn hx calm => ?calls, fun s x c ops call hx calm => ?returns⟩
  case calls =>
    intro call calli indices named
    refine ⟨exec_calli_traps hx calm c t ops, fun i form => ?_⟩
    obtain ⟨rfl, rfl, f, step, flag⟩ := exec_call_forms hx calm c t ops form
    intro calls found
    refine ⟨fun deep => ?_, fun room missing => ?_, fun n tr d room found fault => ?_, fun n tr room found whole => ?_⟩
    · rw [step, x.enter_tooDeep i fn f deep]
    · rw [step, Exe.enter_awaits i fn f room missing]
    · rw [step, Exe.enter_faults i fn f room found fault]
    · obtain ⟨poison, clean⟩ := flag
      have group := x.calledGroup_eq i fn f n tr.entry
      refine ⟨f, _, step.trans (congrArg _ (Exe.enter_calls i fn f room found whole)), poison, clean, ?_⟩
      intro y caller
      refine ⟨?_, fun l => ?_, y.counted_put _ 1, y.keeps_but_lanes_paths ?_⟩
      · rw [y.group_count_put, group]
      · rw [y.group_count_put]
        exact x.lane_calledGroup ..
      · rw [group]
        rfl
  case returns =>
    intro i ret caller found
    obtain ⟨f, step, poison, clean⟩ := exec_ret_returns hx calm c ops found
    have group := x.returnedGroup_eq i f caller call
    refine ⟨f, _, step, poison, clean, ?_, fun l mem => ?_, fun l away => ?_, x.counted_put _ 1, x.keeps_but_lanes_paths ?_⟩
    · rw [x.group_count_put, group]
    · rw [x.group_count_put, x.lane_returnedGroup, if_pos mem]
      intro y outer
      have kept : outer.Keeps y := Lane.keeps_returned ..
      have val : ∀ id, y.val id = _ := fun id => Lane.val_returned ..
      refine ⟨fun k v t defined passed typed => ?_, fun k defined missing => ?_, fun id apart => ?_, kept.edge, kept.tail, kept.top⟩
      · rw [val, if_pos (by omega), Nat.add_sub_cancel_left, passed, Node.resultTy, typed]
        rfl
      · rw [val, if_pos (by omega), Nat.add_sub_cancel_left, missing]
        rfl
      · rw [val, if_neg apart]
    · rw [x.group_count_put, x.lane_returnedGroup, if_neg away]
    · rw [group]
      rfl

end Sys2Proof.Machine
end

section
/-! PROOF. Device-side launch, seal contexts, counters and monitors (R210 to R215, R380, R382 to R385). -/

namespace Sys2Proof.Machine

/-- The step of an instruction that reads its operands once. -/
theorem exec_once {s : State} {x : Exe} (hx : s.exe? = some x) (calm : x.calm) {i : Instr} {k : Exe → List Val → State}
    (meaning : exec i s = onPath s fun x => x.once i (k x)) : exec i s = .next (k x (x.onceVals i)) :=
  meaning.trans ((onPath_next hx _).trans (congrArg _ (Exe.once_calm calm i (k x))))

/-- The step of an instruction that reads its operands once, where a lane is active. -/
theorem exec_onceActive {s : State} {x : Exe} (hx : s.exe? = some x) (calm : x.calm) {i : Instr} (acts : x.active i.ctl ≠ [])
    {k : Exe → List Val → State} (meaning : exec i s = onPath s fun x => x.onceActive i (k x)) :
    exec i s = .next (k x (x.onceVals i)) :=
  meaning.trans ((onPath_next hx _).trans (congrArg _ (onceActive_calm calm i acts (k x))))

/-- The step completes over a state with the same results in every active lane. -/
def Exe.Gives (x : Exe) (s : State) (i : Instr) (u : State) (vs : List Val) : Prop :=
  ∃ t, exec i s = .next t ∧
    Exe.Completes { x with s := u } i (x.flagged (flagIf (x.oncePoison i) flagPO)) (x.only i fun _ => vs) t

theorem Exe.gives_of_commitAll {s : State} {x : Exe} {i : Instr} {u : State} {vs : List Val}
    (step : exec i s = .next ((x.upon u).commitAll i vs (x.onceFlags i))) : x.Gives s i u vs :=
  completes_of (x := x.upon u) i vs (x.onceFlags i) step

/-! The operations and states that the instructions come to. -/

/-- The state in which the incomplete absorptions of a context are cancelled and its abort record is written (R382). -/
def Exe.sealAborted (x : Exe) (h : Nat) (q : Seal) : State :=
  let mine := x.s.ops.filter fun o =>
    o.2.cls == 4 && o.2.status == futPending && (x.s.team o.2.team).launch == x.team.launch && numOf o.2.vals 0 == h
  (mine.foldl (fun u o => u.finishOp o.1 futCancelled) x.s).writeSeal x.team.launch 1 1 q

/-- The operation of an absorption. -/
def Exe.sealAbsorbOp (x : Exe) (i : Instr) (scope : Scope) : EngOp :=
  let vs := x.onceVals i
  let a := (argOf vs 1).toBits
  let n := numOf vs 2
  { x.newOp i 4 vs (max scope.code (x.minScope false (pagesOf a n))) none (sealBlocks n) 0 with
    status := if n = 0 then futOK else if x.windowDown false a then futLinkKey else futPending
    whole := if a.toNat % 64 = 0 then [] else wholeIn false a.toNat n }

/-- A counter of die code has advanced by a free count when it is read (log 32); no other counter changes by a read. -/
def Exe.counterRead (x : Exe) (k : Nat) : State :=
  if uncounted k then x.s.bump x.eid k x.team.core (Config.freeNat (.counter k) x.s.free) else x.s

theorem Exe.counterRead_counted {x : Exe} {k : Nat} (counted : k ≤ 2 ∨ k = 4 ∨ k = 8 ∨ k = 9 ∨ (16 ≤ k ∧ k ≤ 18)) :
    x.counterRead k = x.s :=
  if_neg (by simp [uncounted]; omega)

theorem Exe.counterRead_free {x : Exe} {k : Nat} (free : k = 3 ∨ (5 ≤ k ∧ k ≤ 7) ∨ k = 10) :
    x.counterRead k = x.s.bump x.eid k x.team.core (Config.freeNat (.counter k) x.s.free) :=
  if_pos (by simp [uncounted]; omega)

/-- A counter never falls: it saturates (R214). -/
theorem State.bump_grows (s : State) (e k core m : Nat) :
    ((mget (s.encl e).counters (counterKey k core)).getD 0).toNat ≤
      ((mget ((s.bump e k core m).encl e).counters (counterKey k core)).getD 0).toNat := by
  unfold State.bump
  rw [State.encl_setEncl]
  dsimp only
  rw [mget_mset_self, Option.getD_some, BitVec.toNat_ofNat]
  have small := BitVec.isLt ((mget (s.encl e).counters (counterKey k core)).getD 0)
  omega

theorem Monitor.field_bin (m : Monitor) (b : Nat) : m.field (b + 3) = (mget m.bins b).getD 0 := rfl

section
variable {s : State} {x : Exe} (hx : s.exe? = some x) (calm : x.calm) (c : Ctl) (ops : List Opnd)
include hx calm

/-! LAUNCH (R380). -/

theorem launch_raises_handle : let i := Instr.launch c ops
    15 < numOf (x.onceVals i) 0 → x.Raises s i trapHandle (x.active c) := by
  intro i big
  have step : exec i s = .next _ := exec_once hx calm rfl
  exact next_of_pos step big

theorem launch_raises_align : let i := Instr.launch c ops
    numOf (x.onceVals i) 0 ≤ 15 → (argOf (x.onceVals i) 1).toBits.toNat % 128 ≠ 0 → x.Raises s i 0x0B (x.active c) := by
  intro i small misaligned
  have step : exec i s = .next _ := exec_once hx calm rfl
  exact next_of_pos (next_of_neg step (Nat.not_lt_of_le small)) misaligned

/-- An accepted launch gives its result. -/
theorem launch_gives {u : State} {r : Nat} : let i := Instr.launch c ops
    let d := (argOf (x.onceVals i) 1).toBits
    numOf (x.onceVals i) 0 ≤ 15 → d.toNat % 128 = 0 → x.windowDown false d = false →
    x.s.accept (some x.unit) x.eid (numOf (x.onceVals i) 0) d = .ok (u, r) → x.Gives s i u [ofTy .i32 r] := by
  intro i d small aligned up accepted
  have step : exec i s = .next _ := exec_once hx calm rfl
  dsimp only at step
  rw [if_neg (Nat.not_lt_of_le small), if_neg (not_not_intro aligned), if_neg (ne_true_of_eq_false up), accepted] at step
  exact Exe.gives_of_commitAll step

/-! SEAL.OPEN, SEAL.CLOSE and SEAL.ABORT (R382). -/

theorem sealOpen_raises_handle : let i := Instr.sealOpen c ops
    1 < numOf (x.onceVals i) 0 ∨ 32 ≤ x.launch.seals.length → x.Raises s i trapHandle (x.active c) := by
  intro i refused
  have step : exec i s = .next _ := exec_once hx calm rfl
  exact next_of_pos step refused

theorem sealOpen_raises_align : let i := Instr.sealOpen c ops
    numOf (x.onceVals i) 0 ≤ 1 → x.launch.seals.length < 32 → (argOf (x.onceVals i) 1).toBits.toNat % 4096 ≠ 0 →
    x.Raises s i 0x0B (x.active c) := by
  intro i kind room misaligned
  have step : exec i s = .next _ := exec_once hx calm rfl
  exact next_of_pos (next_of_neg step (by omega)) misaligned

/-- A context is opened under a handle that no open one has. -/
theorem sealOpen_gives : let i := Instr.sealOpen c ops
    let d := (argOf (x.onceVals i) 1).toBits
    numOf (x.onceVals i) 0 ≤ 1 → x.launch.seals.length < 32 → d.toNat % 4096 = 0 →
    ∃ h, h < 32 ∧ h ∉ x.launch.seals.map Prod.fst ∧
      x.Gives s i (x.setSeals (x.launch.seals ++ [(h, ⟨numOf (x.onceVals i) 0 == 1, d, [], false, none, []⟩)])).s [ofTy .i32 h] := by
  intro i d kind room aligned
  have step : exec i s = .next _ := exec_once hx calm rfl
  obtain ⟨small, fresh⟩ := seal_fresh (x.launch.seals.map Prod.fst) (Config.freeNat (.choice 2002) x.s.free % 32)
    (by rwa [List.length_map]) (Nat.mod_lt _ (by decide))
  exact ⟨_, small, fresh, Exe.gives_of_commitAll (next_of_neg (next_of_neg step (by omega)) (not_not_intro aligned))⟩

theorem sealClose_raises : let i := Instr.sealClose c ops
    x.launch.openSeal (numOf (x.onceVals i) 0) = none → x.Raises s i trapHandle (x.active c) := by
  intro i shut
  have step : exec i s = .next _ := exec_once hx calm rfl
  rwa [shut] at step

theorem sealAbort_raises : let i := Instr.sealAbort c ops
    x.launch.openSeal (numOf (x.onceVals i) 0) = none → x.Raises s i trapHandle (x.active c) := by
  intro i shut
  have step : exec i s = .next _ := exec_once hx calm rfl
  dsimp only at step
  rwa [shut] at step

theorem sealClose_gives {q : Seal} : let i := Instr.sealClose c ops
    let h := numOf (x.onceVals i) 0
    x.launch.openSeal h = some q → x.Gives s i (x.setSeals (mset x.launch.seals h { q with closed := true })).s [] := by
  intro i h named
  have step : exec i s = .next _ := exec_once hx calm rfl
  rw [named] at step
  exact Exe.gives_of_commitAll step

theorem sealAbort_gives {q : Seal} : let i := Instr.sealAbort c ops
    let h := numOf (x.onceVals i) 0
    let u := x.sealAborted h q
    x.launch.openSeal h = some q → x.Gives s i ((x.upon u).setSeals (mdel (u.launch x.team.launch).seals h)).s [] := by
  intro i h u named
  have step : exec i s = .next _ := exec_once hx calm rfl
  dsimp only at step
  rw [named] at step
  exact Exe.gives_of_commitAll step

variable (acts : x.active c ≠ [])
include acts

/-! SEAL.ABSORB (R382). -/

theorem sealAbsorb_raises (scope : Scope) : let i := Instr.sealAbsorb c scope ops
    x.launch.openSeal (numOf (x.onceVals i) 0) = none → x.Raises s i trapHandle (x.active c) := by
  intro i shut
  have step : exec i s = .next _ := (onPath_next hx _).trans (congrArg _ (Exe.engine_none calm i acts _))
  exact next_of_pos step (by rw [shut]; rfl)

theorem sealAbsorb_issues (scope : Scope) : let i := Instr.sealAbsorb c scope ops
    x.launch.openSeal (numOf (x.onceVals i) 0) ≠ none → x.Issues s i x (x.sealAbsorbOp i scope) id fun fut => [.bits fut] := by
  intro i named
  have step : exec i s = .next _ := (onPath_next hx _).trans (congrArg _ (Exe.engine_none calm i acts _))
  exact launch_issues i (x.sealAbsorbOp i scope) rfl (next_of_neg step (by rwa [Option.isNone_iff_eq_none]))

/-! CNT.CTR and CNT.MON (R385). -/

theorem cntCtr_raises : let i := Instr.cntCtr c ops
    let k := numOf (x.onceVals i) 0
    10 < k → k < 16 ∨ 18 < k → x.Raises s i trapHandle (x.active c) := by
  intro i k above apart
  have step : exec i s = .next _ := exec_onceActive hx calm (i := i) acts rfl
  exact next_of_pos step ⟨above, apart⟩

/-- A counter is read. -/
theorem cntCtr_gives {k : Nat} {u : State} : let i := Instr.cntCtr c ops
    numOf (x.onceVals i) 0 = k → k ≤ 10 ∨ 16 ≤ k ∧ k ≤ 18 → x.counterRead k = u →
    x.Gives s i u [.bits ((mget (u.encl x.eid).counters (counterKey k x.team.core)).getD 0)] := by
  rintro i rfl known rfl
  have step : exec i s = .next _ := exec_onceActive hx calm (i := i) acts rfl
  exact Exe.gives_of_commitAll (next_of_neg step (by omega))

theorem cntMon_raises : let i := Instr.cntMon c ops
    6 < numOf (x.onceVals i) 0 ∨ 18 < numOf (x.onceVals i) 1 → x.Raises s i trapHandle (x.active c) := by
  intro i unknown
  have step : exec i s = .next _ := exec_onceActive hx calm (i := i) acts rfl
  exact next_of_pos step unknown

/-- A field of a monitor is read. -/
theorem cntMon_gives {f : Nat} : let i := Instr.cntMon c ops
    let k := numOf (x.onceVals i) 0
    k ≤ 6 → numOf (x.onceVals i) 1 = f → f ≤ 18 → x.Gives s i x.s [.bits ((x.s.monitorOf x.eid k).field f)] := by
  rintro i k monitor rfl field
  have step : exec i s = .next _ := exec_onceActive hx calm (i := i) acts rfl
  exact Exe.gives_of_commitAll (next_of_neg step (not_or.mpr ⟨Nat.not_lt_of_le monitor, Nat.not_lt_of_le field⟩))

end

/-- Settles O37: each instruction by its checks in order, and what it gives past them. -/
theorem launchSealsAndCounters : Obligations.LaunchSealsAndCounters := by
  unfold Obligations.LaunchSealsAndCounters
  intro s x c scope ops hx calm acts v n raises goes having
  refine ⟨⟨launch_raises_handle hx calm c ops, launch_raises_align hx calm c ops, fun u r => launch_gives hx calm c ops⟩,
    ⟨sealOpen_raises_handle hx calm c ops, sealOpen_raises_align hx calm c ops, sealOpen_gives hx calm c ops⟩,
    ⟨sealAbsorb_raises hx calm c ops acts scope, sealAbsorb_issues hx calm c ops acts scope⟩, ?shut,
    fun q => sealClose_gives hx calm c ops, fun q => sealAbort_gives hx calm c ops, ?counters, ?monitors⟩
  case shut =>
    intro i form
    simp only [List.mem_cons, List.not_mem_nil, or_false] at form
    rcases form with rfl | rfl
    · exact sealClose_raises hx calm c ops
    · exact sealAbort_raises hx calm c ops
  case counters =>
    intro i k
    refine ⟨cntCtr_raises hx calm c ops acts, ?_⟩
    intro count
    have read : ∀ u, k ≤ 10 ∨ 16 ≤ k ∧ k ≤ 18 → x.counterRead k = u → goes i u [.bits (count u)] :=
      fun u => cntCtr_gives hx calm c ops acts rfl
    exact ⟨fun counted => read x.s (by omega) (Exe.counterRead_counted counted),
      fun free => ⟨_, x.s.bump_grows .., read _ (by omega) (Exe.counterRead_free free)⟩⟩
  case monitors =>
    intro i k f m
    refine ⟨cntMon_raises hx calm c ops acts, fun monitor => ?_⟩
    have read : ∀ j, f = j → j ≤ 18 → goes i x.s [.bits ((x.s.monitorOf x.eid k).field j)] :=
      fun j => cntMon_gives hx calm c ops acts monitor
    refine ⟨fun least => read 0 least (by decide), fun most => read 1 most (by decide), fun count => read 2 count (by decide),
      fun b bin small => ?_⟩
    rw [Nat.add_comm 3 b] at bin
    have bins := read (b + 3) bin (by omega)
    rwa [Monitor.field_bin] at bins

end Sys2Proof.Machine
end

section
/-! PROOF. Number formats (R224, R227, R232) and RoundMag (R233): Convert gives an encoding back from its value, and what each
rounding mode makes of a magnitude between two spacings. -/

namespace Sys2Proof.Machine

/-! Encodings and their values (R224, R227). -/

/-- A word whose ignored bits are zero consists of its sign, its stored exponent and its mantissa. -/
theorem FpFmt.word_fields (f : FpFmt) {w : Nat} (small : w < 2 ^ f.bits) (low : w % 2 ^ f.low = 0) :
    let v := w / 2 ^ f.low % 2 ^ (1 + f.ebits + f.mbits)
    f.word (v / 2 ^ (f.ebits + f.mbits) == 1) (v / 2 ^ f.mbits % 2 ^ f.ebits * 2 ^ f.mbits + v % 2 ^ f.mbits) = w := by
  intro v
  have size : w / 2 ^ f.low < 2 ^ (1 + f.ebits + f.mbits) :=
    Nat.div_lt_of_lt_mul (by rwa [← Nat.pow_add, Nat.add_comm f.low])
  have whole : v = w / 2 ^ f.low := Nat.mod_eq_of_lt size
  have sign : (v / 2 ^ (f.ebits + f.mbits) == 1).toNat = v / 2 ^ (f.ebits + f.mbits) := by
    have : v / 2 ^ (f.ebits + f.mbits) < 2 :=
      Nat.div_lt_of_lt_mul (by rw [whole, ← Nat.pow_succ]; convert size using 2; omega)
    interval_cases v / 2 ^ (f.ebits + f.mbits) <;> rfl
  have fields : v / 2 ^ (f.ebits + f.mbits) * 2 ^ (f.ebits + f.mbits) +
      (v / 2 ^ f.mbits % 2 ^ f.ebits * 2 ^ f.mbits + v % 2 ^ f.mbits) = v := by
    have split : v / 2 ^ (f.ebits + f.mbits) = v / 2 ^ f.mbits / 2 ^ f.ebits := by
      rw [Nat.div_div_eq_div_mul, ← Nat.pow_add, Nat.add_comm]
    calc _ = (v / 2 ^ f.mbits / 2 ^ f.ebits * 2 ^ f.ebits + v / 2 ^ f.mbits % 2 ^ f.ebits) * 2 ^ f.mbits + v % 2 ^ f.mbits := by
            rw [split, Nat.pow_add]; ring
      _ = v := by rw [Nat.div_add_mod', Nat.div_add_mod']
  rw [FpFmt.word, sign, fields, whole]
  exact Nat.div_mul_cancel (Nat.dvd_of_mod_eq_zero low)

/-- A stored exponent and mantissa that spell neither an infinity nor a NaN are at most those of the largest finite value. -/
theorem FpFmt.code_le_maxCode {f : FpFmt} {exp man : Nat} (expFits : exp < 2 ^ f.ebits) (manFits : man < 2 ^ f.mbits)
    (below : f.nan = .ieee → exp ≠ f.eOnes) (number : f.nan = .top → ¬ (exp = f.eOnes ∧ man = 2 ^ f.mbits - 1)) :
    exp * 2 ^ f.mbits + man ≤ f.maxCode := by
  have ones : f.eOnes + 1 = 2 ^ f.ebits := Nat.sub_add_cancel Nat.one_le_two_pow
  have top : (f.eOnes + 1) * 2 ^ f.mbits = f.eOnes * 2 ^ f.mbits + 2 ^ f.mbits := Nat.succ_mul ..
  have under : exp < f.eOnes → exp * 2 ^ f.mbits + 2 ^ f.mbits ≤ f.eOnes * 2 ^ f.mbits := fun h => by
    rw [← Nat.succ_mul]
    exact Nat.mul_le_mul_right _ h
  have atTop : exp = f.eOnes → exp * 2 ^ f.mbits = f.eOnes * 2 ^ f.mbits := congrArg (· * 2 ^ f.mbits)
  unfold FpFmt.maxCode
  cases kind : f.nan with
  | ieee =>
    have := below kind
    dsimp only
    omega
  | top =>
    have := number kind
    dsimp only
    omega
  | never =>
    dsimp only
    omega

/-- What is not a NaN is an infinity of a format that has them, or a finite value. -/
theorem FpFmt.value_cases (f : FpFmt) (infs : f.nan = .ieee → f.inf = true) (w : Nat) (number : (f.value false w).isNan = false) :
    let v := w / 2 ^ f.low % 2 ^ (1 + f.ebits + f.mbits)
    let neg := v / 2 ^ (f.ebits + f.mbits) == 1
    let exp := v / 2 ^ f.mbits % 2 ^ f.ebits
    let man := v % 2 ^ f.mbits
    (f.inf = true ∧ exp = f.eOnes ∧ man = 0 ∧ f.value false w = .inf neg) ∨
    (exp * 2 ^ f.mbits + man ≤ f.maxCode ∧ f.value false w =
      if exp = 0 then .fin neg man (f.emin - f.mbits) false
      else .fin neg (2 ^ f.mbits + man) ((exp : Int) - f.bias - f.mbits) false) := by
  intro v neg exp man
  have finite := FpFmt.code_le_maxCode (Nat.mod_lt (v / 2 ^ f.mbits) (Nat.two_pow_pos f.ebits))
    (Nat.mod_lt v (Nat.two_pow_pos f.mbits))
  unfold FpFmt.value at number ⊢
  dsimp only at number ⊢
  cases kind : f.nan with
  | ieee =>
    simp only [kind] at number ⊢
    by_cases top : exp = f.eOnes
    · rw [if_pos top] at number ⊢
      by_cases zero : man = 0
      · exact .inl ⟨infs kind, top, zero, if_pos zero⟩
      · rw [if_neg zero] at number
        cases number
    · exact .inr ⟨finite (fun _ => top) (by simp [kind]), if_neg top⟩
  | top =>
    simp only [kind] at number ⊢
    by_cases nan : exp = f.eOnes ∧ man = 2 ^ f.mbits - 1
    · rw [if_pos nan] at number
      cases number
    · exact .inr ⟨finite (by simp [kind]) fun _ => nan, if_neg nan⟩
  | never => exact .inr ⟨finite (by simp [kind]) (by simp [kind]), rfl⟩

/-- Convert of the value of an encoding gives back the encoding and raises nothing (R232). -/
theorem FpFmt.convert_value_self {f : FpFmt} {r : Rounding} {w : Nat} (biased : 1 ≤ f.bias) (infs : f.nan = .ieee → f.inf = true)
    (unsaturated : r.sat = false) (unflushed : r.flush = false) (small : w < 2 ^ f.bits) (low : w % 2 ^ f.low = 0)
    (number : (f.value false w).isNan = false) : f.convert r (f.value false w) = (w, 0) := by
  have fields := f.word_fields small low
  dsimp only at fields
  rcases f.value_cases infs w number with ⟨inf, exp, man, value⟩ | ⟨finite, value⟩
  · rw [exp, man] at fields
    rw [value, FpFmt.convert, unsaturated, inf]
    exact congrArg (·, 0) fields
  · rw [value, convert_value_gen f r _ _ _ unsaturated unflushed biased (Nat.mod_lt _ (Nat.two_pow_pos _)) finite, fields]

/-! RoundMag (R233). -/

/-- No magnitude far below half a spacing rounds away from zero but by the directed modes, wherever it lies. -/
theorem roundsUp_far (r : Rounding) (neg : Bool) {m k : Nat} (far : m < 2 ^ (k - 65)) (deep : 65 ≤ k) :
    roundsUp r neg 0 0 1 true = roundsUp r neg 0 m k false := by
  have split : 2 ^ k = 2 ^ (k - 65) * 2 ^ 65 := by rw [← Nat.pow_add, Nat.sub_add_cancel deep]
  have less : 2 * m < 2 ^ k := by omega
  have lost : ∀ d ≤ 32, m * 2 ^ d / 2 ^ k = 0 := fun d le => Nat.div_eq_of_lt (by
    calc m * 2 ^ d ≤ m * 2 ^ 32 := Nat.mul_le_mul_left _ (Nat.pow_le_pow_right (by decide) le)
      _ < 2 ^ k := by omega)
  have never : ∀ d, ¬ 2 ^ d ≤ 0 + r.z % 2 ^ d := fun d => by
    have := Nat.mod_lt r.z (Nat.two_pow_pos d)
    omega
  unfold roundsUp
  simp only [Nat.zero_mul, Nat.zero_div, lost _ (Nat.min_le_left ..), never, ↓reduceIte, Bool.false_eq_true,
    beq_eq_false_iff_ne.mpr less.ne, decide_eq_false (Nat.not_lt_of_lt less)]
  split <;> rfl

/-- A magnitude of whole spacings is exact. -/
theorem roundMag_whole (r : Rounding) (neg : Bool) {m : Nat} {e sp : Int} (finer : e < sp) (whole : m % 2 ^ (sp - e).toNat = 0) :
    roundMag r neg m e false sp = (m / 2 ^ (sp - e).toNat, false) := by
  unfold roundMag
  rw [if_neg (by omega)]
  dsimp only
  split
  next deep =>
    have small := (big_shift deep).2
    have zero : m = 0 := by rwa [Nat.mod_eq_of_lt small] at whole
    rw [if_pos ⟨zero, rfl⟩, Nat.div_eq_of_lt small]
  next => rw [if_pos ⟨whole, rfl⟩]

/-- Any other magnitude is inexact, and is one of the two multiples of the spacing next to it. -/
theorem roundMag_between (r : Rounding) (neg : Bool) {m : Nat} {e sp : Int} (finer : e < sp) (between : m % 2 ^ (sp - e).toNat ≠ 0) :
    let k := (sp - e).toNat
    roundMag r neg m e false sp = (m / 2 ^ k + if roundsUp r neg (m / 2 ^ k) (m % 2 ^ k) k false then 1 else 0, true) := by
  intro k
  unfold roundMag
  rw [if_neg (by omega)]
  dsimp only
  split
  next deep =>
    have small := (big_shift deep).2
    have nonzero : m ≠ 0 := fun h => between (by rw [h, Nat.zero_mod])
    rw [if_neg (fun h => nonzero h.1), roundsUp_far r neg (big_shift deep).1 (by omega), Nat.div_eq_of_lt small, Nat.mod_eq_of_lt small,
      Nat.zero_add]
  next =>
    rw [if_neg (fun h => between h.1)]
    split <;> rfl

/-- The stochastic mode compares as many bits of the generator's word as the fraction has. -/
theorem roundsUp_stochastic {r : Rounding} (neg : Bool) (q : Nat) {rem k b : Nat} (mode : r.rm = 5) (pos : 0 < b) (few : b ≤ 32)
    (ends : rem * 2 ^ b % 2 ^ k = 0) (last : rem * 2 ^ (b - 1) % 2 ^ k ≠ 0) :
    roundsUp r neg q rem k false = decide (2 ^ b ≤ rem * 2 ^ b / 2 ^ k + r.z % 2 ^ b) := by
  have inside : b ≤ k := by
    by_contra beyond
    exact last (Nat.mod_eq_zero_of_dvd ((Nat.pow_dvd_pow 2 (by omega)).mul_left rem))
  have zeros : twos k rem = k - b := by
    refine twos_eq b k rem k le_rfl inside ?_ (fun _ more => last ?_) fun _ => trivial
    · refine Nat.dvd_of_mul_dvd_mul_right (Nat.two_pow_pos b) ?_
      rw [← Nat.pow_add, Nat.sub_add_cancel inside]
      exact Nat.dvd_of_mod_eq_zero ends
    · have := Nat.mul_dvd_mul_right more (2 ^ (b - 1))
      rw [← Nat.pow_add, show k - b + 1 + (b - 1) = k by omega] at this
      exact Nat.mod_eq_zero_of_dvd this
  have bits : min 32 (k - twos k rem) = b := by omega
  simp [roundsUp, mode, bits]

/-- Both nearest modes round to the nearer spacing. -/
theorem roundsUp_nearer {r : Rounding} (neg : Bool) (q : Nat) {rem k : Nat} (shift : 0 < k) (mode : r.rm = 0 ∨ r.rm = 4) (apart : 2 * rem ≠ 2 ^ k) :
    roundsUp r neg q rem k false = decide (2 ^ k < 2 * rem) := by
  rcases mode with even | away
  · rw [roundUp_nearestEven shift even, beq_eq_false_iff_ne.mpr apart, Bool.false_and, Bool.or_false]
  · rw [roundUp_nearestAway shift away, beq_eq_false_iff_ne.mpr apart, Bool.or_false]

/-- Of two spacings as near, mode 0 takes the even one. -/
theorem roundsUp_tie_even {r : Rounding} (neg : Bool) (q : Nat) {rem k : Nat} (shift : 0 < k) (mode : r.rm = 0) (tie : 2 * rem = 2 ^ k) :
    roundsUp r neg q rem k false = (q % 2 == 1) := by
  rw [roundUp_nearestEven shift mode, tie]
  simp

/-- Of two spacings as near, mode 4 takes the one away from zero. -/
theorem roundsUp_tie_away {r : Rounding} (neg : Bool) (q : Nat) {rem k : Nat} (shift : 0 < k) (mode : r.rm = 4) (tie : 2 * rem = 2 ^ k) :
    roundsUp r neg q rem k false = true := by
  rw [roundUp_nearestAway shift mode, tie]
  simp

/-- Mode 1 rounds towards zero, 2 towards the positive and 3 towards the negative infinity. -/
theorem roundsUp_directed {r : Rounding} (neg : Bool) (q rem k : Nat) :
    (r.rm = 1 → roundsUp r neg q rem k false = false) ∧ (r.rm = 2 → roundsUp r neg q rem k false = !neg) ∧
      (r.rm = 3 → roundsUp r neg q rem k false = neg) :=
  ⟨fun mode => by simp [roundsUp, mode], fun mode => by simp [roundsUp, mode], fun mode => by simp [roundsUp, mode]⟩

/-- Settles O7: by the two kinds of values that are not NaN, and by the rounding modes between two spacings. -/
theorem formatValuesAndRounding : Obligations.FormatValuesAndRounding := by
  unfold Obligations.FormatValuesAndRounding
  refine ⟨?values, ?rounding⟩
  case values =>
    intro f form r w unsaturated unflushed small low number
    obtain ⟨biased, -, -, infs⟩ := convert_value f form
    exact FpFmt.convert_value_self biased infs unsaturated unflushed small low number
  case rounding =>
    intro r neg m e sp finer d q
    refine ⟨roundMag_whole r neg finer, fun between => ?_⟩
    have shift : 0 < (sp - e).toNat := by omega
    have rounded : q = (m / d + if roundsUp r neg (m / d) (m % d) (sp - e).toNat false then 1 else 0, true) := roundMag_between r neg finer between
    obtain ⟨zero, up, down⟩ := roundsUp_directed (r := r) neg (m / d) (m % d) (sp - e).toNat
    rw [rounded]
    dsimp only
    refine ⟨rfl, ?sides, fun mode => ?nearer, fun tie => ⟨fun even => ?even, fun away => ?away⟩, fun mode => ?zero, fun mode => ?up,
      fun mode => ?down, fun mode b pos few ends last => ?stochastic⟩
    case sides => split <;> simp
    case nearer =>
      refine ⟨fun less => ?_, fun more => ?_⟩
      · rw [roundsUp_nearer neg _ shift mode less.ne, decide_eq_false (Nat.not_lt_of_lt less)]
        rfl
      · rw [roundsUp_nearer neg _ shift mode more.ne', decide_eq_true more]
        rfl
    case even =>
      rw [roundsUp_tie_even neg _ shift even tie]
      split
      next odd => rw [Nat.add_mod, beq_iff_eq.mp odd]
      next notOdd =>
        rw [beq_iff_eq] at notOdd
        omega
    case away => rw [roundsUp_tie_away neg _ shift away tie]; rfl
    case zero => rw [zero mode]; rfl
    case up => rw [up mode]; cases neg <;> rfl
    case down => rw [down mode]
    case stochastic =>
      rw [roundsUp_stochastic neg _ mode pos few ends last]
      simp only [decide_eq_true_eq]
      rfl

end Sys2Proof.Machine
end

section
/-! PROOF. Poison reads and enabled flags (R236, R237, R276, R405): which trap an instruction that acts lane by lane raises, and in
which lanes. -/

namespace Sys2Proof.Machine

/-- The active lanes that read poison in an operand of an instruction. -/
def Exe.poisoned (x : Exe) (i : Instr) : List Nat := (x.active i.ctl).filter fun l => x.poison i l == flagPO

/-- A poison read of an instruction traps: some active lane reads poison, and PO is enabled (R237). -/
def Exe.PoisonTraps (x : Exe) (i : Instr) : Prop := modeEn x.p.mode &&& flagPO ≠ 0 ∧ x.poisoned i ≠ []

/-- The lanes, of some, that raise an enabled flag: `raised` tells which flags each raises. -/
def Exe.hits (x : Exe) (ls : List Nat) (raised : Nat → BitVec 6) : List Nat := ls.filter fun l => raised l &&& modeEn x.p.mode != 0

/-- The verdict on lanes that all have results: FP_FLAG in the lanes that raise an enabled flag, if there are any (R236). -/
theorem verdictOf_done (m : BitVec 64) (ls : List Nat) (out : Nat → List Val) (fl : Nat → BitVec 6) :
    let hits := ls.filter fun l => fl l &&& modeEn m != 0
    verdictOf m (ls.map fun l => (l, .done (out l) (fl l))) =
      if hits = [] then .done (ls.map fun l => (l, out l)) (ls.foldl (fun f l => f ||| fl l) 0)
      else .trap 4 hits (hits.foldl (fun f l => f ||| fl l) 0) := by
  intro hits
  have unfailed : (ls.map fun l => ((l, .done (out l) (fl l)) : Nat × LaneOut)).filterMap
      (fun o => o.2.failed.map fun f => (o.1, f)) = [] := by
    rw [List.filterMap_map]
    exact List.filterMap_eq_nil_iff.mpr fun _ _ => rfl
  have hit : (ls.map fun l => ((l, .done (out l) (fl l)) : Nat × LaneOut)).filter (fun o => modeTraps m o.2.flags != 0) =
      hits.map fun l => (l, .done (out l) (fl l)) := List.filter_map
  have flags : ∀ ks : List Nat, (ks.map fun l => ((l, .done (out l) (fl l)) : Nat × LaneOut)).foldl (fun f o => f ||| o.2.flags) 0 =
      ks.foldl (fun f l => f ||| fl l) 0 := fun ks => foldl_or ks _ fl (fun _ _ => rfl) 0
  unfold verdictOf
  simp only [unfailed, hit, flags, List.isEmpty_map, List.map_map]
  cases hits with
  | nil => rfl
  | cons l ks => simp [Function.comp_def]

section
variable {s : State} {x : Exe} (hx : s.exe? = some x) {i : Instr} {f : Exe → List (Nat × List Val) → Nat → List Val → LaneOut}
  (meaning : exec i s = onPath s fun x => x.lanewise i (f x))
include hx meaning

/-- POISON_READ comes before what any lane comes to. -/
theorem raises_poison (traps : x.PoisonTraps i) : x.Raises s i 3 (x.poisoned i) :=
  meaning.trans ((onPath_next hx _).trans (congrArg _ (lanewise_poison x i (f x) traps.1 traps.2)))

/-- Where no poison read traps, an instruction comes to the verdict on its lanes. -/
theorem exec_judged (clean : ¬ x.PoisonTraps i) : exec i s = .next (x.obey i (verdictOf x.p.mode
    ((x.active i.ctl).map fun l => (l, (f x (x.allArgs i) l (x.args i l)).withPO (x.readsPoison (x.plan i) l))))) := by
  rw [meaning, onPath_next hx, lanewise_judged x i (f x) clean, Exe.allArgs, List.map_map]
  rfl

/-- The own check of an instruction traps in the lanes that fail it. -/
theorem raises_check (clean : ¬ x.PoisonTraps i) (bad : Nat → Bool) (code : Nat) (fails : (x.active i.ctl).filter bad ≠ [])
    (failing : ∀ l, bad l = true → f x (x.allArgs i) l (x.args i l) = .trap 0 code)
    (passing : ∀ l, bad l = false → (f x (x.allArgs i) l (x.args i l)).failed = none) :
    x.Raises s i code ((x.active i.ctl).filter bad) := by
  have unfailed : ∀ (o : LaneOut) p, o.failed = none → (o.withPO p).failed = none := fun o p h => by
    cases o with
    | done => rfl
    | trap => cases h
  have verdict := verdict_fails x.p.mode (x.active i.ctl)
    (fun l => (f x (x.allArgs i) l (x.args i l)).withPO (x.readsPoison (x.plan i) l)) bad 0 code
    (fun l _ h => by rw [failing l h]; rfl) (fun l _ h => .inr (unfailed _ _ (passing l h))) fails
  rw [Exe.Raises, exec_judged hx meaning clean, verdict]
  rfl

/-- Where every lane has results, FP_FLAG traps in the lanes that raise an enabled flag, and names their flags. -/
theorem raises_flags (clean : ¬ x.PoisonTraps i) (out : Nat → List Val) (fl : Nat → BitVec 6)
    (done : ∀ l, f x (x.allArgs i) l (x.args i l) = .done (out l) (fl l)) :
    let raised := fun l => fl l ||| x.poison i l
    let hits := x.hits (x.active i.ctl) raised
    exec i s = .next (if hits = [] then x.commit i ((x.active i.ctl).map fun l => (l, out l)) (x.raised i fl)
      else x.trap i 4 hits (hits.foldl (fun f l => f ||| raised l) 0)) := by
  intro raised hits
  have verdict := verdictOf_done x.p.mode (x.active i.ctl) out raised
  rw [exec_judged hx meaning clean]
  simp only [done]
  exact congrArg _ ((congrArg (x.obey i) verdict).trans (apply_ite (x.obey i) ..))

end

/-- Where DZ is enabled, IDIV traps in the lanes whose divisor is zero (R276). -/
theorem idiv_raises {s : State} {x : Exe} (hx : s.exe? = some x) (c : Ctl) (signed : Bool) (t : Ty) (ops : List Opnd) :
    let i := Instr.idiv c signed t ops
    let zero := (x.active c).filter fun l => numOf (x.args i l) 1 == 0
    ¬ x.PoisonTraps i → modeEn x.p.mode &&& flagDZ ≠ 0 → zero ≠ [] → x.Raises s i 5 zero := by
  intro i zero clean enabled divides
  refine raises_check hx (i := i) (f := fun x _ _ vs => divLane ((modeEn x.p.mode &&& flagDZ) != 0) signed t vs) rfl clean
    (fun l => numOf (x.args i l) 1 == 0) 5 divides (fun l divisor => ?_) fun l divisor => ?_
  · rw [divLane, if_pos (beq_iff_eq.mp divisor), if_pos (bne_iff_ne.mpr enabled)]
  · rw [divLane, if_neg (beq_eq_false_iff_ne.mp divisor)]
    split <;> rfl

/-- Settles O25: every instruction acts lane by lane, so its poison reads come before its lanes; IDIV has the check, FADD the flags. -/
theorem poisonAndEnabledFlagsTrap : Obligations.PoisonAndEnabledFlagsTrap := by
  unfold Obligations.PoisonAndEnabledFlagsTrap
  intro s x c t ops hx raises en bad poisons
  refine ⟨?poison, fun signed => idiv_raises hx c signed t ops, ?flags⟩
  case poison =>
    intro m md k cond sub ms fmm fs fc signed i form traps
    simp only [List.mem_cons, List.not_mem_nil, or_false] at form
    rcases form with rfl | rfl | rfl | rfl | rfl | rfl | rfl | rfl | rfl | rfl | rfl | rfl | rfl | rfl | rfl | rfl <;>
      exact raises_poison hx rfl traps
  case flags =>
    intro sub i v
    let e := fun l => Num.add (modeRM x.p.mode) (v l 0) (if sub then (v l 1).opp else v l 1)
    have short : ∀ l k, ShortNum (v l k) := fun l k => ex_numAt t x.p.mode (x.args i l) k
    have addend : ∀ l, ShortNum (if sub then (v l 1).opp else v l 1) := fun l => by
      split
      · exact ex_opp (short l 1)
      · exact short l 1
    refine ⟨e, fun l => exactSum _ _ _ (fun p m d t h => (short l 0 p m d t h).1) fun p m d t h => (addend l p m d t h).1, ?_⟩
    intro w raised hits
    have step := fun clean => raises_flags hx (i := i) rfl clean (fun l => [ofTy t (w l).1]) (fun l => (e l).2 ||| (w l).2) fun l => rfl
    refine ⟨fun clean hit => (step clean).trans ?_, fun clean quiet => ⟨_, (step clean).trans ?_, x.commit_acts ..⟩⟩
    · exact congrArg _ (if_neg hit)
    · exact congrArg _ (if_pos quiet)

end Sys2Proof.Machine
end

section
/-! PROOF. Encoding and decoding (R240 to R244, R250, R265, R266, R387): a word sequence that decodes is a head word with its operand
words, and it decodes to the instruction whose head word and operand words these are. -/

namespace Sys2Proof

/-! Head words. -/

/-- The head word of an instruction is the one with its codes, its modifiers and its number of operands, and with RSVZ zero (R241). -/
theorem Instr.head_eq {i : Instr} {h : Head} (ctl : i.ctl = h.ctl) (count : i.ops.length = h.nops.toNat) (zero : h.rsvz = 0) :
    i.head ⟨h.maj.toNat, h.sub.toNat, h.mod.toNat⟩ = h := by
  unfold Instr.head
  rw [ctl, count]
  simp only [BitVec.ofNat_toNat, BitVec.setWidth_eq, ← zero]
  rfl

/-- Decoding a head word of these fields, with operand words that can be taken (R240). -/
theorem decode_word {h : Head} {ws rest : List Word} {gs : List (List Word)} (take : takeOpnds h.nops.toNat ws = some (gs, rest)) :
    decode (h.word :: ws) = (classify h gs, rest) := by
  have fields := h.ofWord_word
  rw [decode_cons h.word ws rest gs (by rwa [fields]), fields]

/-- Words that decode to an instruction are a head word with the operand words that it calls for. -/
theorem decode_ok {ws rest : List Word} {i : Instr} (ok : decode ws = (.ok i, rest)) :
    ∃ (h : Head) (us : List Word) (gs : List (List Word)),
      ws = h.word :: us ∧ takeOpnds h.nops.toNat us = some (gs, rest) ∧ classify h gs = .ok i := by
  cases ws with
  | nil => cases ok
  | cons w us =>
    unfold decode at ok
    dsimp only at ok
    split at ok
    · split at ok <;> cases ok
    · next gs rest' take =>
      obtain ⟨classified, rfl⟩ := Prod.mk.inj ok
      exact ⟨Head.ofWord w, us, gs, by rw [Head.word_ofWord], take, classified⟩

/-- A head word and its operand words are an instruction in two cases (R265, R266): a stub of a reserved major, or the form of the
codes, where operands and guard fit it and RSVZ is zero. -/
theorem classify_cases {h : Head} {gs : List (List Word)} {i : Instr} (ok : classify h gs = .ok i) :
    (0x78 ≤ h.maj.toNat ∧ i = .reservedMajorStub h.maj h.sub h.ctl h.mod h.rsvz gs.flatten) ∨
      ∃ ops, gs.mapM Opnd.ofWords = some ops ∧ Instr.ofKey ⟨h.maj.toNat, h.sub.toNat, h.mod.toNat⟩ h.ctl ops = some i ∧
        i.fitsForm = true ∧ h.rsvz = 0 ∧ (h.g = true → i.shape.guardable = true) := by
  by_cases reserved : 0x78 ≤ h.maj.toNat
  · rw [classify_stub h gs reserved] at ok
    exact .inl ⟨reserved, (Fetched.ok.inj ok).symm⟩
  · right
    unfold classify at ok
    dsimp only at ok
    rw [if_neg reserved] at ok
    split at ok
    · cases ok
    split at ok
    · cases ok
    split at ok
    · cases ok
    next ops operands =>
      split at ok
      · next j form =>
        split at ok
        · next fits =>
          split at ok
          · next proper =>
            cases ok
            exact ⟨ops, operands, form, fits, proper⟩
          · cases ok
        · cases ok
      · split at ok
        · split at ok <;> cases ok
        · cases ok

/-! Instructions with codes. -/

/-- Codes fit the fields of a head word, below the reserved majors (R241, R266). -/
theorem key_bounds {i : Instr} {q : Key} (key : i.key = some q) : q.maj < 0x78 ∧ q.sub < 2 ^ 5 ∧ q.mod < 2 ^ 4 := by
  obtain ⟨-, -, -, bounds⟩ := i.key_keyed q key
  simp only [Bool.and_eq_true, decide_eq_true_eq] at bounds
  obtain ⟨⟨maj, sub⟩, mod⟩ := bounds
  exact ⟨maj, sub, mod⟩

/-- The head word of an instruction of at most seven operands holds its codes and their number (R241). -/
theorem Instr.head_codes {i : Instr} {q : Key} (key : i.key = some q) (few : i.ops.length ≤ 7) :
    (i.head q).maj.toNat = q.maj ∧ (i.head q).sub.toNat = q.sub ∧ (i.head q).mod.toNat = q.mod ∧
      (i.head q).nops.toNat = i.ops.length := by
  obtain ⟨maj, sub, mod⟩ := key_bounds key
  have fits : ∀ {w n : Nat}, n < 2 ^ w → (BitVec.ofNat w n).toNat = n := fun small =>
    (BitVec.toNat_ofNat ..).trans (Nat.mod_eq_of_lt small)
  exact ⟨fits (by omega), fits sub, fits mod, fits (by omega)⟩

theorem decode_key {i : Instr} {q : Key} (key : i.key = some q) (wf : i.check = none) (rest : List Word) :
    decode ((i.head q).word :: (i.ops.flatMap Opnd.words ++ rest)) = (.ok i, rest) := by
  rw [check_key i q key] at wf
  obtain ⟨guard, fits, few, special⟩ := (checkForm_none i q key).mp wf
  obtain ⟨form, assigned, major, -⟩ := i.key_keyed q key
  obtain ⟨j, assigned⟩ := Option.isSome_iff_exists.mp assigned
  obtain ⟨maj, sub, mod, nops⟩ := Instr.head_codes key few
  have take : takeOpnds (i.head q).nops.toNat (i.ops.flatMap Opnd.words ++ rest) = some (i.ops.map Opnd.words, rest) := by
    rw [nops]
    exact takeOpnds_words _ _ special
  rw [decode_word take]
  refine congrArg (·, rest) (classify_ok (i.head q) _ i.ops i j ?_ ?_ ?_ (mapM_words _ special) ?_ fits rfl guard)
  · rw [maj]
    exact (key_bounds key).1
  · rwa [maj]
  · rwa [maj, sub]
  · rwa [maj, sub, mod]

theorem encode_decoded_form {h : Head} {gs : List (List Word)} {us rest : List Word} {ops : List Opnd} {i : Instr}
    (take : takeOpnds h.nops.toNat us = some (gs, rest)) (operands : gs.mapM Opnd.ofWords = some ops)
    (form : Instr.ofKey ⟨h.maj.toNat, h.sub.toNat, h.mod.toNat⟩ h.ctl ops = some i) (fits : i.fitsForm = true)
    (zero : h.rsvz = 0) (guard : h.g = true → i.shape.guardable = true) :
    i.check = none ∧ ∃ vs, encode i = some vs ∧ h.word :: us = vs ++ rest := by
  obtain ⟨flat, groups, whole⟩ := takeOpnds_some _ us gs rest take
  obtain ⟨length, words, special⟩ := mapM_ofWords gs ops operands whole
  obtain ⟨key, ctl, rfl⟩ := i.ofKey_key _ h.ctl ops form
  have count : i.ops.length = h.nops.toNat := length.trans groups
  have few : i.ops.length ≤ 7 := by have := h.nops.isLt; omega
  constructor
  · rw [check_key i _ key, checkForm_none i _ key, ctl]
    exact ⟨guard, fits, few, special⟩
  · refine ⟨_, encode_key i _ key, ?_⟩
    rw [Instr.head_eq ctl count zero, words, flat]
    rfl

/-! Stubs (R266). -/

/-- The stub of a head word with some operand words. -/
def Head.stub (h : Head) (ws : List Word) : Instr := .reservedMajorStub h.maj h.sub h.ctl h.mod h.rsvz ws

theorem check_stub (h : Head) (ws : List Word) :
    (h.stub ws).check = none ↔ 0x78 ≤ h.maj.toNat ∧ (stubCount ws).isSome = true := by
  refine ⟨fun wf => ?_, fun proper => if_pos proper⟩
  by_contra improper
  cases (if_neg improper).symm.trans wf

theorem encode_stub {h : Head} {ws : List Word} (count : stubCount ws = some h.nops.toNat) :
    encode (h.stub ws) = some (h.word :: ws) := by
  refine (congrArg (Option.map _) count).trans (congrArg some ?_)
  dsimp only
  rw [BitVec.ofNat_toNat, BitVec.setWidth_eq]
  rfl

theorem decode_stub {h : Head} {ws : List Word} (reserved : 0x78 ≤ h.maj.toNat) (count : stubCount ws = some h.nops.toNat)
    (rest : List Word) : decode (h.word :: ws ++ rest) = (.ok (h.stub ws), rest) := by
  obtain ⟨-, gs, take⟩ := (stubCount_some ws _).mp count
  obtain ⟨flat, -⟩ := takeOpnds_some _ ws gs [] take
  rw [List.append_nil] at flat
  rw [List.cons_append, decode_word (takeOpnds_append _ ws gs [] rest take), classify_stub h gs reserved, ← flat]
  rfl

theorem encode_decoded_stub {h : Head} {us rest : List Word} {gs : List (List Word)} (take : takeOpnds h.nops.toNat us = some (gs, rest))
    (reserved : 0x78 ≤ h.maj.toNat) :
    (h.stub gs.flatten).check = none ∧ ∃ vs, encode (h.stub gs.flatten) = some vs ∧ h.word :: us = vs ++ rest := by
  obtain ⟨flat, groups, whole⟩ := takeOpnds_some _ us gs rest take
  have count : stubCount gs.flatten = some h.nops.toNat :=
    (stubCount_some _ _).mpr ⟨h.nops.isLt, gs, takeOpnds_flatten gs whole _ groups⟩
  exact ⟨(check_stub h _).mpr ⟨reserved, Option.isSome_of_eq_some count⟩, _, encode_stub count, congrArg _ flat⟩

theorem decode_encode_stub (h : Head) (ws : List Word) (wf : (h.stub ws).check = none) :
    ∃ us, encode (h.stub ws) = some us ∧ ∀ rest, decode (us ++ rest) = (.ok (h.stub ws), rest) := by
  obtain ⟨reserved, whole⟩ := (check_stub h ws).mp wf
  obtain ⟨n, count⟩ := Option.isSome_iff_exists.mp whole
  let counted : Head := { h with nops := BitVec.ofNat 3 n }
  have nops : counted.nops.toNat = n :=
    (BitVec.toNat_ofNat ..).trans (Nat.mod_eq_of_lt ((stubCount_some ws n).mp count).1)
  rw [← nops] at count
  exact ⟨_, encode_stub (h := counted) count, decode_stub (h := counted) reserved count⟩

/-! Custom-0 instructions (R387). -/

/-- The codes of a custom-0 instruction fit the fields of its word, which is its encoding. -/
theorem encode_custom {i : Instr} {f7 f3 : Nat} {rd a b : BitVec 5} (custom : i.custom = some (f7, f3, rd, a, b)) :
    f7 < 128 ∧ f3 < 8 ∧ encode i = some [customWord f7 f3 rd a b] := by
  cases i <;> cases custom <;> exact ⟨by decide, by decide, rfl⟩

theorem decodeCustom_encode {i : Instr} {f7 f3 : Nat} {rd a b : BitVec 5} (custom : i.custom = some (f7, f3, rd, a, b)) :
    ∃ w, encode i = some [w] ∧ isCustomWord w.toNat = true ∧ decodeCustom w = some i := by
  obtain ⟨small7, small3, encoded⟩ := encode_custom custom
  obtain ⟨low, funct7, funct3, dest, first, second⟩ := customWord_fields f7 f3 rd a b small7 small3
  exact ⟨_, encoded, beq_iff_eq.mpr low, decodeCustom_fields _ i f7 f3 rd a b custom low funct7 funct3 dest first second⟩

end Sys2Proof

namespace Sys2Proof.Machine

/-- Settles O51: an instruction is encoded by its codes or is a stub; words that decode are one of the two by `classify_cases`. -/
theorem decodingAndEncodingAgree : Obligations.DecodingAndEncodingAgree := by
  unfold Obligations.DecodingAndEncodingAgree
  refine ⟨fun i wf kind => ?encoded, fun ws rest i ok => ?decoded, fun i q custom => decodeCustom_encode custom⟩
  case encoded =>
    obtain coded | ⟨maj, sub, c, m, r, ws, rfl⟩ := kind
    · obtain ⟨q, key⟩ := Option.ne_none_iff_exists'.mp coded
      exact ⟨_, encode_key i q key, decode_key key wf⟩
    · exact decode_encode_stub ⟨maj, sub, 0, c.guarded, c.ndef, m, c.hint, c.xhint, r⟩ ws wf
  case decoded =>
    obtain ⟨h, us, gs, rfl, take, classified⟩ := decode_ok ok
    obtain ⟨reserved, rfl⟩ | ⟨ops, operands, form, fits, zero, guard⟩ := classify_cases classified
    · exact encode_decoded_stub take reserved
    · exact encode_decoded_form take operands form fits zero guard

/-- Settles O52: each word sequence by evaluating the decoder on it. -/
theorem writtenWordsDecode : Obligations.WrittenWordsDecode := by
  unfold Obligations.WrittenWordsDecode
  exact ⟨rfl, rfl, rfl, rfl, rfl, rfl, rfl, rfl, rfl, rfl, rfl, rfl, rfl, rfl⟩

/-! BR (R288). -/

/-- Settles O17: BR ends no operand, and leaves of the group all but the place of its path. -/
theorem branchContinuesAtTarget : Obligations.BranchContinuesAtTarget := by
  intro s x c d hx i
  refine ⟨rfl, _, onPath_next hx _, x.becomes_count i _ _ ?_ rfl⟩
  rw [Group.mapLanes_eq]
  rfl

end Sys2Proof.Machine
end

section
/-! PROOF. Integer arithmetic (R269, R273 to R277, R279): an element-by-element instruction wraps or clamps the exact result of each
element, and a scalar one that of its lane. -/

namespace Sys2Proof.Machine

section
variable {s : State} {x : Exe} (hx : s.exe? = some x) (calm : x.calm) {i : Instr} {t : Ty} {g : Exe → List Val → LaneOut}
  (meaning : exec i s = onPath s fun x => x.lanewise i fun _ _ vs => g x vs)
include hx calm meaning

/-- An instruction whose lanes give their results and raise no flag. -/
theorem Exe.yields_quiet {out : Nat → List Val} (lane : ∀ l ∈ x.active i.ctl, g x (x.args i l) = .done (out l) 0) :
    x.Yields s i out fun _ => 0 :=
  Exe.yields hx calm i (fun x _ _ vs => g x vs) out _ meaning lane

/-- An instruction that acts element by element and raises no flag. -/
theorem Exe.yieldsElems_quiet {f : List Val → Nat → Nat} {E : Nat → Nat → BitVec (elemWidth t)}
    (lane : ∀ vs, g x vs = onElems t fun j => (f vs j, 0))
    (element : ∀ l j, BitVec.ofNat (elemWidth t) (f (x.args i l) j) = E l j) :
    x.YieldsElems s i t E fun _ _ => False :=
  Exe.yieldsElems hx calm i t g (fun vs j => (f vs j, 0)) E _ meaning lane element (fun _ _ h => h.elim) fun _ _ _ => rfl

/-- An instruction that clamps the exact result of each element, with OF where that changes it (R269). -/
theorem Exe.yieldsElems_clamped (signed : Bool) {f : List Val → Nat → Int} {e : Nat → Nat → Int}
    (lane : ∀ vs, g x vs = onElems t fun j => clampElem (elemWidth t) signed (f vs j))
    (value : ∀ l j, f (x.args i l) j = e l j) :
    x.YieldsElems s i t (fun l j => saturated signed (elemWidth t) (e l j)) fun l j => outOf signed (elemWidth t) (e l j) := by
  obtain rfl : (fun l j => f (x.args i l) j) = e := funext₂ value
  exact Exe.yieldsElems hx calm i t g (fun vs j => clampElem (elemWidth t) signed (f vs j)) _ _ meaning lane
    (fun _ _ => clampElem_fst ..) (fun _ _ => (clampElem_snd ..).1) fun _ _ => (clampElem_snd ..).2

/-- An instruction whose lanes clamp an exact result to a type, with OF where that changes it. -/
theorem Exe.yields_clamped (signed : Bool) (e : Nat → Int)
    (lane : ∀ l ∈ x.active i.ctl, g x (x.args i l) =
      .done [ofTy t (clampElem t.width signed (e l)).1] (clampElem t.width signed (e l)).2) :
    ∃ fl, x.Yields s i (fun l => [.ofBV (saturated signed t.width (e l))]) fl ∧
      ∀ l ∈ x.active i.ctl, (outOf signed t.width (e l) → fl l = flagOF) ∧ (¬ outOf signed t.width (e l) → fl l = 0) := by
  refine ⟨fun l => (clampElem t.width signed (e l)).2, Exe.yields hx calm i (fun x _ _ vs => g x vs) _ _ meaning fun l acts => ?_,
    fun l _ => clampElem_snd ..⟩
  rw [lane l acts, ofTy_saturated]

end

/-- An element of an operand as an integer, wrapped to its width. -/
theorem ofInt_elem (x : Exe) (i : Instr) (w l k j : Nat) :
    BitVec.ofInt w (elemOf w (numOf (x.args i l) k) j : Nat) = x.el i w l k j := by
  rw [BitVec.ofInt_natCast, ofNat_elem]

/-- Settles O1: the sum or the difference of two elements is exact, and each form wraps or clamps it. -/
theorem addAndSubtractByElement : Obligations.AddAndSubtractByElement := by
  unfold Obligations.AddAndSubtractByElement
  intro s x c t ops hx calm w
  refine ⟨?addWrap, ?subWrap, ?addSigned, ?subSigned, ?addUnsigned, ?subUnsigned, fun single => ⟨?carry, ?borrow⟩⟩
  case addWrap =>
    refine Exe.yieldsElems_quiet hx calm rfl (fun _ => rfl) fun l j => ?_
    simp only [ofNat_wrapTo, Bool.false_eq_true, ↓reduceIte, BitVec.ofInt_add, ofInt_elem, w]
  case subWrap =>
    refine Exe.yieldsElems_quiet hx calm rfl (fun _ => rfl) fun l j => ?_
    simp only [ofNat_wrapTo, ↓reduceIte, ofInt_sub, ofInt_elem, w]
  case addSigned =>
    refine Exe.yieldsElems_clamped hx calm rfl true (fun _ => rfl) fun l j => ?_
    simp only [Bool.false_eq_true, ↓reduceIte, signedOf_elem, w]
  case subSigned =>
    refine Exe.yieldsElems_clamped hx calm rfl true (fun _ => rfl) fun l j => ?_
    simp only [↓reduceIte, signedOf_elem, w]
  case addUnsigned =>
    refine Exe.yieldsElems_clamped hx calm rfl false (fun _ => rfl) fun l j => ?_
    simp only [Bool.false_eq_true, ↓reduceIte, elem_toNat, w]
  case subUnsigned =>
    refine Exe.yieldsElems_clamped hx calm rfl false (fun _ => rfl) fun l j => ?_
    simp only [↓reduceIte, elem_toNat, w]
  case carry =>
    intro i carry fits
    refine Exe.yields_quiet hx calm (g := fun _ vs => addLane false .cy t vs) rfl fun l acts => ?_
    rw [addLane_carry single, ofTy_ofBV, ofNat_wrapTo, BitVec.ofInt_add, BitVec.ofInt_add, fits_toNat fits acts (by omega),
      fits_toNat fits acts (by omega)]
    simp only [BitVec.ofInt_natCast]
    rfl
  case borrow =>
    intro i carry fits
    refine Exe.yields_quiet hx calm (g := fun _ vs => addLane true .cy t vs) rfl fun l acts => ?_
    rw [subLane_borrow single _ (fits l acts 0 (by omega)), ofTy_ofBV, ofNat_wrapTo, ofInt_sub, ofInt_sub,
      fits_toNat fits acts (by omega), fits_toNat fits acts (by omega)]
    simp only [BitVec.ofInt_natCast]
    rfl

/-! IMUL, IMAD and IDIV. -/

/-- The low bits of a number are the number as a bit vector. -/
theorem ofNat_mod_width (w n : Nat) : BitVec.ofNat w (n % 2 ^ w) = BitVec.ofNat w n :=
  BitVec.eq_of_toNat_eq (by simp)

/-- The saturating forms of IMAD clamp the exact a × b + c (R275). -/
theorem madLane_clamped (signed : Bool) (t : Ty) (vs : List Val) :
    let a := fun k => if signed then signedOf t.width (numOf vs k) else (numOf vs k : Int)
    let r := clampElem t.width signed (a 0 * a 1 + a 2)
    madLane (if signed then .ss else .us) t vs = .done [ofTy t r.1] r.2 := by
  cases signed
  · simp only [madLane, Bool.false_eq_true, ↓reduceIte]
    push_cast
    rfl
  · rfl

/-- While the DZ enable is clear, a lane of IDIV gives a result. -/
theorem divLane_done (signed : Bool) (t : Ty) (vs : List Val) :
    divLane false signed t vs = .done (divLane false signed t vs).res (divLane false signed t vs).flags := by
  simp only [divLane, Bool.false_eq_true, ↓reduceIte]
  split
  · rfl
  · split <;> rfl

/-- Settles O2: the exact product of each element, in its half or clamped; the exact sum of IMAD, and IDIV by its divisor. -/
theorem multiplyAndDivide : Obligations.MultiplyAndDivide := by
  unfold Obligations.MultiplyAndDivide
  refine ⟨?products, ?sums, ?divides⟩
  case products =>
    intro s x c t ops hx calm w
    refine ⟨?low, ?highSigned, ?highUnsigned, ?clamped⟩
    case low =>
      refine Exe.yieldsElems_quiet hx calm rfl (fun _ => rfl) fun l j => ?_
      rw [← ofNat_elem, ← ofNat_elem, ← BitVec.ofNat_mul, ofNat_mod_width]
    case highSigned =>
      refine Exe.yieldsElems_quiet hx calm rfl (fun _ => rfl) fun l j => ?_
      rw [high_signed, ofNat_wrapTo, signedOf_elem, signedOf_elem]
    case highUnsigned =>
      refine Exe.yieldsElems_quiet hx calm rfl (fun _ => rfl) fun l j => ?_
      rw [high_unsigned, elem_toNat, elem_toNat]
    case clamped =>
      refine Exe.yieldsElems_clamped hx calm rfl true (fun _ => rfl) fun l j => ?_
      rw [signedOf_elem, signedOf_elem]
  case sums =>
    intro s x c t ops hx calm single
    refine ⟨?wrapped, ?saturates⟩
    case wrapped =>
      intro i
      refine Exe.yields_quiet hx calm (g := fun _ vs => madLane .wrap t vs) rfl fun l _ => ?_
      rw [madLane, ofTy_ofBV, ofNat_mod_width, BitVec.ofNat_add, BitVec.ofNat_mul]
      rfl
    case saturates =>
      intro signed i a e fits
      refine Exe.yields_clamped hx calm (g := fun _ vs => madLane (if signed then .ss else .us) t vs) rfl signed e fun l acts => ?_
      have value : ∀ k, k < 3 → a l k = if signed then signedOf t.width (numOf (x.args i l) k) else (numOf (x.args i l) k : Int) :=
        fun k low => by simp only [a, arg_toInt, fits_toNat fits acts low]
      rw [madLane_clamped]
      simp only [e, value 0 (by omega), value 1 (by omega), value 2 (by omega)]
  case divides =>
    intro s x c signed t ops hx calm i fits
    let lane := fun l => divLane false signed t (x.args i l)
    have clear : ((modeEn x.p.mode &&& flagDZ) != 0) = false := by rw [show modeEn x.p.mode = 0 from calm]; rfl
    refine ⟨fun l => (lane l).res, fun l => (lane l).flags, Exe.yields hx calm i
      (fun x _ _ vs => divLane ((modeEn x.p.mode &&& flagDZ) != 0) signed t vs) _ _ rfl fun l _ => ?_, fun l acts => ?_⟩
    · rw [clear]
      exact divLane_done ..
    intro a b
    have zero : b = 0 ↔ numOf (x.args i l) 1 = 0 := by
      rw [← fits_toNat fits acts (by omega), ← BitVec.toNat_inj]; rfl
    refine ⟨fun divisor => ?_, fun divisor => ?_⟩
    · simp only [lane, divLane_zero signed t _ (zero.mp divisor)]
      exact ⟨rfl, rfl⟩
    · have nonzero := mt zero.mpr divisor
      cases signed
      · simp only [lane, divLane_unsigned t _ nonzero (fits l acts 0 (by omega)) (fits l acts 1 (by omega))]
        exact ⟨rfl, rfl⟩
      · simp only [lane, divLane_signed t _ nonzero]
        exact ⟨rfl, rfl⟩

/-- Settles O3: the element of either kind as a bit vector. -/
theorem minMaxAndShiftByElement : Obligations.MinMaxAndShiftByElement := by
  unfold Obligations.MinMaxAndShiftByElement
  intro s x c t ops hx calm w
  refine ⟨fun k => ?_, fun k type => ?_⟩
  · refine Exe.yieldsElems_quiet hx calm rfl (fun _ => rfl) fun l j => ?_
    rw [← elem_toNat, ← elem_toNat, minMaxElem_bv]
  · refine Exe.yieldsElems_quiet hx calm (g := fun x vs => shiftLane k (x.opTy (.shift c k ops) 0) vs) rfl
      (fun vs => by rw [type]; rfl) fun l j => ?_
    rw [← elem_toNat, shiftElem_bv]

end Sys2Proof.Machine
end

section
/-! PROOF. Logic and bit fields (R278, R280, R281, R283), bit by bit. -/

namespace Sys2Proof.Machine

/-- An i32 as the value of a bit vector. -/
theorem ofTy_i32 (n : Nat) : ofTy .i32 n = .ofBV (BitVec.ofNat 32 n) := ofTy_ofBV .i32 n

/-- LOGIC and PLOGIC give the result of a kind bit by bit, in their type. -/
theorem logic_yields {s : State} {x : Exe} (hx : s.exe? = some x) (calm : x.calm) {i : Instr} (k : LogicKind) {ty : Exe → Ty}
    (meaning : exec i s = onPath s fun x => x.lanewise i fun _ _ vs => logicLane k (ty x) vs) :
    let w := (ty x).width
    ∃ out, x.Yields s i out (fun _ => 0) ∧ ∀ l ∈ x.active i.ctl, ∃ r : BitVec w, out l = [.ofBV r] ∧
      ∀ n, n < w →
        let v := fun k => (argOf (x.args i l) k).toBits
        r.getLsbD n = logicBit k (v 3) ((v 0).getLsbD n) ((v 1).getLsbD n) ((v 2).getLsbD n) := by
  intro w
  refine ⟨fun l => [.ofBV (BitVec.ofNat w (logicBits k (x.args i l)).toNat)],
    Exe.yields_quiet hx calm meaning fun l _ => ?_, fun l _ => ⟨_, rfl, fun n low => ?_⟩⟩
  · rw [logicLane, ofTy_ofBV]
  · rw [bit_of_ofBV low, BitVec.testBit_toNat]
    exact logicBits_bit k _ n (low.trans_le (width_le _))

/-- A lane of BITS gives a result and raises nothing (R280). -/
theorem bitsLane_done (k : BitsKind) (t : Ty) (vs : List Val) : bitsLane k t vs = .done (bitsLane k t vs).res 0 := by
  cases k <;> rfl

/-- Settles O4: each bit of a result by the lemmas about the bits of the numbers that the lanes compute. -/
theorem bitsAndLogic : Obligations.BitsAndLogic := by
  unfold Obligations.BitsAndLogic
  refine ⟨?logic, ?bits, ?clmul⟩
  case logic =>
    intro s x c k ops hx calm q form
    simp only [List.mem_cons, List.not_mem_nil, or_false] at form
    rcases form with rfl | rfl
    · exact logic_yields hx calm k (ty := fun x => x.opTy (.logic c k ops) 0) rfl
    · exact logic_yields hx calm k (ty := fun _ => .b1) rfl
  case bits =>
    intro s x c k ops hx calm i t w wide fits
    refine ⟨fun l => (bitsLane k t (x.args i l)).res,
      Exe.yields_quiet hx calm (g := fun x vs => bitsLane k (x.opTy i 0) vs) rfl fun l _ => bitsLane_done ..,
      fun l acts => ?_⟩
    intro a count field
    have small : numOf (x.args i l) 0 < 2 ^ w := fits l acts 0 (by omega)
    have bit : a.getLsbD = (numOf (x.args i l) 0).testBit := funext fun n => fits_bit small
    have counts : ∀ n, (bitsLane k t (x.args i l)).res = [ofTy .i32 n] → count n :=
      fun n result => result.trans (congrArg (fun v => [v]) (ofTy_i32 n))
    have fields : ∀ f n, (bitsLane k t (x.args i l)).res = [ofTy t n] →
        (∀ b, b < w → (BitVec.ofNat w n).getLsbD b = f b) → field f :=
      fun f n result bits => ⟨BitVec.ofNat w n, result.trans (by rw [ofTy_ofBV]), bits⟩
    cases k with
    | popc => exact counts _ (by rw [bit, ← popCount_eq]; rfl)
    | clz =>
      obtain ⟨most, zeros, one⟩ := leadZeros_spec w _ small wide
      exact ⟨_, most, counts _ rfl, by rwa [bit], by rwa [bit]⟩
    | ctz =>
      obtain ⟨most, zeros, one⟩ := trailZeros_spec w (numOf (x.args i l) 0)
      exact ⟨_, most, counts _ rfl, by rwa [bit], by rwa [bit]⟩
    | brev => exact fields _ _ rfl fun n low => by rw [bit_of_ofBV low, brev_bit w _ n low, bit]
    | extz => exact fields _ _ rfl fun n low => by rw [bit_of_ofBV low, extz_bit, bit]; rfl
    | exts => exact fields _ _ rfl fun n low => by rw [exts_bit w _ _ _ n low, bit]; rfl
    | ins =>
      refine fields _ _ rfl fun n low => ?_
      rw [bit_of_ofBV low, ins_bit, bit, Exe.arg, bit_of_ofBV (by omega)]
      rfl
  case clmul =>
    intro s x c hi wide ops hx calm i w
    let product := fun l => clmulOf w (numOf (x.args i l) 0) (numOf (x.args i l) 1)
    refine ⟨fun l => [.ofBV (BitVec.ofNat w (if hi then product l / 2 ^ w else product l))],
      Exe.yields_quiet hx calm (g := fun _ vs => clmulLane hi wide vs) rfl fun l _ => ?_, fun l _ small => ⟨_, rfl, fun n low => ?_⟩⟩
    · simp only [clmulLane, ofTy_ofBV]
      cases wide <;> rfl
    · intro k
      have half : (if hi then product l / 2 ^ w else product l).testBit n = (product l).testBit k := by
        cases hi
        · rfl
        · simp only [↓reduceIte, Nat.testBit_div_two_pow, k, Nat.add_comm]
      rw [bit_of_ofBV low, half]
      simp only [product, clmulOf, xor_fold, Exe.arg, fits_bit (small 0 (by omega)), fits_bit (small 1 (by omega)),
        Nat.zero_testBit, Bool.false_bne]

end Sys2Proof.Machine
end

section
/-! PROOF. Constants, compares, selection, addresses and integer conversions (R272, R282, R284 to R286). -/

namespace Sys2Proof.Machine

/-- The flags of lanes that raise nothing but the poison reads of `poison`. -/
theorem foldl_po_flag {poison : Nat → Bool} {bad : Nat → Prop} (ls : List Nat) (same : ∀ l, poison l = true ↔ bad l) :
    let f := ls.foldl (fun a l => a ||| ((0 : BitVec 6) ||| flagIf (poison l) flagPO)) 0
    ((∃ l ∈ ls, bad l) → f = flagPO) ∧ ((¬ ∃ l ∈ ls, bad l) → f = 0) := by
  simp only [← same, foldl_po]
  exact ⟨fun hit => (if_pos hit).trans BitVec.zero_or, fun clean => if_neg clean⟩

/-- Operand k of a lane's values is what the lane reads in it. -/
theorem argOf_args (x : Exe) (i : Instr) (l k : Nat) :
    argOf (x.args i l) k = ((x.reads (x.plan i) l)[k]?.getD (.bits 0, false)).1 := by
  rw [argOf, Exe.args, Exe.vals, List.getD_eq_getElem?_getD, List.getElem?_map]
  cases (x.reads (x.plan i) l)[k]? <;> rfl

/-- SEL reads its condition and the operand that this selects (R284; log 10). -/
theorem selPoison_iff (x : Exe) (q : Plan) (l : Nat) (three : q.own.length = 3) :
    let reads := fun k => (x.reads q l)[k]?.getD (.bits 0, false)
    selPoison x q l = true ↔ (reads 0).2 ∨ (if (reads 0).1.isTrue then reads 1 else reads 2).2 := by
  intro reads
  obtain ⟨a, b, c, own⟩ := List.length_eq_three.mp three
  have list : x.reads q l = [x.read a.1 l a.2, x.read b.1 l b.2, x.read c.1 l c.2] := by rw [Exe.reads, own]; rfl
  simp only [selPoison, reads, list, Bool.or_eq_true, List.getElem?_cons_zero, List.getElem?_cons_succ, Option.getD_some,
    apply_ite Prod.snd]

/-- SEL takes the operand that its condition selects, and sets PO where it reads poison (R284). -/
theorem sel_completes {s : State} {x : Exe} (hx : s.exe? = some x) (calm : x.calm) (c : Ctl) (t : Ty) (ops : List Opnd)
    (pick : Nat → Val) :
    let i := Instr.sel c t ops
    let f := (x.active c).foldl (fun a l => a ||| ((0 : BitVec 6) ||| flagIf (selPoison x (x.plan i) l) flagPO)) 0
    (∀ l, pick l = if (argOf (x.args i l) 0).isTrue then argOf (x.args i l) 1 else argOf (x.args i l) 2) →
    ∃ u, exec i s = .next u ∧ x.Completes i (x.flagged f) (x.only i fun l => [pick l]) u := by
  intro i f picked
  refine ⟨x.commit i ((x.active c).map fun l => (l, [pick l])) f, (onPath_next hx _).trans (congrArg _ ?_),
    x.commit_completes i _ f _ (fun l _ => mget_map_self _ _ l) (mget_active x c _)⟩
  rw [x.judgeWith_calm i _ _ calm (fun l => [pick l]) (fun _ => 0) fun l _ => by rw [picked l]]
  rfl

/-- The kinds of CVTI that clamp (R286). -/
theorem cvtiLane_clamped (signed : Bool) (d t : Ty) (vs : List Val) :
    let r := clampElem d.width signed (if signed then signedOf t.width (numOf vs 0) else (numOf vs 0 : Int))
    cvtiLane (if signed then .ss d else .uu d) t vs = .done [ofTy d r.1] r.2 := by
  cases signed <;> rfl

/-- Settles O5: each instruction by what its lane computes; SEL by the operand that its condition selects. -/
theorem constantsComparesAndConversions : Obligations.ConstantsComparesAndConversions := by
  unfold Obligations.ConstantsComparesAndConversions
  refine ⟨fun s x c t ops hx calm => ⟨?const, ?icmp, ?sel⟩,
    fun s x c ops hx calm => ⟨?zeroExtended, ?signExtended, ?clamped, ?truth, ?ofTruth, ?packed⟩⟩
  case const => exact Exe.yields_quiet hx calm rfl fun _ _ => rfl
  case icmp =>
    intro k i fits
    refine Exe.yields_quiet hx calm (g := fun _ vs => .done [.ofBool (intCond k t.width (numOf vs 0) (numOf vs 1))] 0) rfl
      fun l acts => ?_
    rw [intCond_bv k _ _ _ (fits l acts 0 (by omega)) (fits l acts 1 (by omega))]
    rfl
  case sel =>
    intro i reads pick three
    obtain ⟨u, goes, completes⟩ := sel_completes hx calm c t ops (fun l => (pick l).1) fun l => by
      simp only [pick, reads, i, argOf_args, apply_ite Prod.fst]
    have flag := foldl_po_flag (bad := fun l => (reads l 0).2 ∨ (pick l).2) (x.active c) fun l => selPoison_iff x (x.plan i) l three
    exact ⟨_, u, goes, completes, flag⟩
  case zeroExtended =>
    intro d i fits
    refine Exe.yields_quiet hx calm (g := fun x vs => cvtiLane (.zx d) (x.opTy i 0) vs) rfl fun l acts => ?_
    rw [← BitVec.ofNat_toNat, fits_toNat fits acts (by omega), ← ofTy_ofBV]
    rfl
  case signExtended =>
    intro d i
    refine Exe.yields_quiet hx calm (g := fun x vs => cvtiLane (.sx d) (x.opTy i 0) vs) rfl fun l acts => ?_
    rw [cvtiLane, ofTy_ofBV, ofNat_wrapTo, signedOf_ofNat]
    rfl
  case clamped =>
    intro d signed i a e fits
    refine Exe.yields_clamped hx calm (g := fun x vs => cvtiLane (if signed then .ss d else .uu d) (x.opTy i 0) vs) rfl signed e
      fun l acts => ?_
    rw [cvtiLane_clamped]
    simp only [e, a, arg_toInt, fits_toNat fits acts (by omega : 0 < 1)]
  case truth => exact Exe.yields_quiet hx calm (g := fun x vs => cvtiLane .toB1 (x.opTy (.cvti c .toB1 ops) 0) vs) rfl fun _ _ => rfl
  case ofTruth =>
    intro d i
    refine Exe.yields_quiet hx calm (g := fun x vs => cvtiLane (.fromB d) (x.opTy i 0) vs) rfl fun l _ => ?_
    rw [cvtiLane, ofTy_ofBV]
    cases (argOf (x.args i l) 0).isTrue <;> rfl
  case packed =>
    intro k form i
    refine Exe.yields_quiet hx calm (g := fun x vs => cvtiLane k.1 (x.opTy i 0) vs) rfl fun l _ => ?_
    simp only [List.mem_cons, List.not_mem_nil, or_false] at form
    rcases form with rfl | rfl <;>
    · rw [cvtiLane, ofTy_ofBV]
      rfl

/-- Settles O6: each form of address is a sum of numbers, which wraps as the sum of its bit vectors does. -/
theorem addressForms : Obligations.AddressForms := by
  unfold Obligations.AddressForms
  intro s x c ops hx calm v ix small
  have address : ∀ (k : AddrKind) (out : Nat → List Val),
      (∀ l ∈ x.active c, addrLane k (x.args (.addr c k ops) l) = .done (out l) 0) → x.Yields s (.addr c k ops) out fun _ => 0 :=
    fun k out lane => Exe.yields_quiet hx calm (g := fun _ vs => addrLane k vs) rfl lane
  refine ⟨address .sx _ fun l _ => ?_, address .zx _ fun l acts => ?_, address .i64 _ fun l _ => ?_, address .sp _ fun l _ => ?_,
    address .gw _ fun l _ => ?_⟩
  · simp only [addrLane, ofTy_ofBV, Ty.width, ofNat_wrapTo, signedOf_ofNat, BitVec.ofInt_add, BitVec.ofInt_mul, BitVec.ofInt_natCast]
    rfl
  · have index : (ix .zx l).zeroExtend 64 = v .zx 64 l 1 := by
      rw [BitVec.zeroExtend, ← BitVec.ofNat_toNat]
      simp only [ix, v, Exe.arg, BitVec.toNat_ofNat, Nat.mod_eq_of_lt (small l acts)]
    rw [index]
    simp only [addrLane, ofTy_ofBV, BitVec.ofNat_add, BitVec.ofNat_mul]
    rfl
  all_goals
    simp only [addrLane, ofTy_ofBV, BitVec.ofNat_add, BitVec.ofNat_mul]
    rfl

end Sys2Proof.Machine
end

section
/-! PROOF. The mode word, cycle counters, the context of a path, fences and the delivery mask (R271, R297 to R301, R337, R378, R379). -/

namespace Sys2Proof.Machine

/-- The SETM forms that read their operands once complete with what the form makes of the mode word (R299). -/
theorem setm_completes {s : State} {x : Exe} (hx : s.exe? = some x) (calm : x.calm) {i : Instr} {f : List Val → BitVec 64 → BitVec 64}
    (meaning : exec i s = onPath s fun x => x.setm i f) {bit : Nat → Bool}
    (bits : ∀ b, b < 64 → (f (x.onceVals i) x.p.mode).getLsbD b = bit b) :
    ∃ (m' : BitVec 64) (u : State), exec i s = .next u ∧
      x.Completes i (modeRaise m' (flagIf (x.oncePoison i) flagPO)) (fun _ => none) u ∧ ∀ b, b < 64 → m'.getLsbD b = bit b :=
  ⟨_, _, meaning.trans ((onPath_next hx _).trans (congrArg _ (Exe.once_calm calm i _))),
    x.complete_completes i [] _ _ (fun _ _ => rfl) fun _ _ => rfl, bits⟩

/-- A bit of a mode word that a field replaces, as a bit of the field's new value. -/
theorem modePut_field {m : BitVec 64} {lo n b : Nat} (v : BitVec n) (low : b < 64) :
    (modePut m lo n v.toNat).getLsbD b = if lo ≤ b ∧ b < lo + n then v.getLsbD (b - lo) else m.getLsbD b :=
  modePut_bit m lo n v.toNat b low

/-- A bit of a field of the mode word, within the field. -/
theorem mode_field {m : BitVec 64} {lo n b : Nat} (inside : lo ≤ b ∧ b < lo + n) :
    (m.extractLsb' lo n).getLsbD (b - lo) = m.getLsbD b := by
  rw [BitVec.getLsbD_extractLsb', show lo + (b - lo) = b by omega, decide_eq_true (by omega), Bool.true_and]

/-- SETM_CTL replaces bits [6:0] under a mask, RM only by a mode that there is (R299). -/
theorem modeSetCtl_bit {m : BitVec 64} (mask v : BitVec 7) {b : Nat} (low : b < 64) :
    let new := (m.extractLsb' 0 7 &&& ~~~mask) ||| (v &&& mask)
    (modeSetCtl m mask v).getLsbD b = if b < 7 ∧ (3 ≤ b ∨ (new.extractLsb' 0 3).toNat < 6) then new.getLsbD b else m.getLsbD b := by
  intro new
  have three : ∀ b, b < 7 → (7#7).getLsbD b = decide (b < 3) := by decide
  have old : ∀ b, b < 7 → (m.extractLsb' 0 7).getLsbD b = m.getLsbD b := fun b inside => mode_field ⟨b.zero_le, by omega⟩
  unfold modeSetCtl
  rw [modePut_field _ low]
  by_cases inside : b < 7
  · rw [if_pos ⟨b.zero_le, by omega⟩, Nat.sub_zero]
    by_cases reserved : 6 ≤ (new.extractLsb' 0 3).toNat
    · rw [if_pos reserved, BitVec.getLsbD_or, BitVec.getLsbD_and, BitVec.getLsbD_and, BitVec.getLsbD_not, three b inside, old b inside]
      by_cases rm : b < 3
      · rw [if_neg (by omega)]
        simp [rm]
      · rw [if_pos (by omega)]
        simp [rm, inside, new]
    · rw [if_neg reserved, if_pos (by omega)]
  · rw [if_neg (by omega), if_neg (by omega)]

/-- SETM_FLAGS clears flags and sets others (R299). -/
theorem modeSetFlags_bit {m : BitVec 64} (clear set : BitVec 6) {b : Nat} (low : b < 64) :
    (modeSetFlags m ((modeFlags m &&& ~~~clear) ||| set)).getLsbD b =
      if 8 ≤ b ∧ b < 14 then (m.getLsbD b && !clear.getLsbD (b - 8)) || set.getLsbD (b - 8) else m.getLsbD b := by
  rw [modeSetFlags, modePut_field _ low]
  split
  next inside =>
    have field : b - 8 < 6 := by omega
    rw [BitVec.getLsbD_or, BitVec.getLsbD_and, BitVec.getLsbD_not, modeFlags, mode_field inside, decide_eq_true field, Bool.true_and]
  next => rfl

/-- SETM_EN replaces enables under a mask (R299). -/
theorem modeSetEn_bit {m : BitVec 64} (mask v : BitVec 6) {b : Nat} (low : b < 64) :
    (modeSetEn m ((modeEn m &&& ~~~mask) ||| (v &&& mask))).getLsbD b =
      if 16 ≤ b ∧ b < 22 ∧ mask.getLsbD (b - 16) then v.getLsbD (b - 16) else m.getLsbD b := by
  rw [modeSetEn, modePut_field _ low]
  split
  next inside =>
    have field : b - 16 < 6 := by omega
    rw [BitVec.getLsbD_or, BitVec.getLsbD_and, BitVec.getLsbD_and, BitVec.getLsbD_not, modeEn, mode_field inside, decide_eq_true field,
      Bool.true_and]
    cases mask.getLsbD (b - 16)
    · simp
    · simp [inside]
  next outside => rw [if_neg fun h => outside ⟨h.1, h.2.1⟩]

/-- SETM_STEP and SETM_STEPADD replace bits [63:32] (R299). -/
theorem modeSetStep_bit {m : BitVec 64} (v : BitVec 32) {b : Nat} (low : b < 64) :
    (modeSetStep m v).getLsbD b = if 32 ≤ b then v.getLsbD (b - 32) else m.getLsbD b := by
  rw [modeSetStep, modePut_field v low]
  simp only [low, Nat.reduceAdd, and_true]

/-- A counter does not fall when it advances (R301). -/
theorem advance_le (old : BitVec 64) (n : Nat) : old.toNat ≤ (advance old n).toNat := by
  have room : n % (2 ^ 64 - old.toNat) < 2 ^ 64 - old.toNat := Nat.mod_lt _ (by omega)
  rw [advance, BitVec.toNat_ofNat, Nat.mod_eq_of_lt (by omega)]
  omega

/-- RDCYC counts the cycles of the core that executes the path, and they have advanced (R301). -/
theorem Exe.cycles_advance (x : Exe) : ∃ n : BitVec 64,
    let old := match x.p.place.galleryCore with
      | none => mget x.s.cycles x.team.core
      | some k => mget x.s.gcycles (x.hall * 32 + k)
    let v := old.getD 0 + n
    (old.getD 0).toNat ≤ v.toNat ∧ x.cycles = (v, match x.p.place.galleryCore with
      | none => { x.s with cycles := mset x.s.cycles x.team.core v }
      | some k => { x.s with gcycles := mset x.s.gcycles (x.hall * 32 + k) v }) := by
  have step : ∀ (old : BitVec 64) n, old.toNat ≤ (old + (advance old n - old)).toNat ∧ advance old n = old + (advance old n - old) :=
    fun old n => by
      rw [add_sub_cancel]
      exact ⟨advance_le old n, rfl⟩
  unfold Exe.cycles
  cases x.p.place.galleryCore with
  | none =>
    obtain ⟨rises, sum⟩ := step ((mget x.s.cycles x.team.core).getD 0) (Config.freeNat (.cycles 0) x.s.free)
    exact ⟨_, rises, by rw [← sum]⟩
  | some k =>
    obtain ⟨rises, sum⟩ := step ((mget x.s.gcycles (x.hall * 32 + k)).getD 0) (Config.freeNat (.cycles 0) x.s.free)
    exact ⟨_, rises, by rw [← sum]⟩

/-- A bit of the word of RDCTX.TRAP: the code, the flags and the pc of the trap (R379). -/
theorem trapWord_bit (pc : BitVec 48) (flags : BitVec 6) (code : BitVec 8) {b : Nat} (low : b < 64) :
    (pc.setWidth 64 <<< 16 ||| (flags.setWidth 64 <<< 8) ||| code.setWidth 64).getLsbD b =
      if b < 8 then code.getLsbD b else if b < 16 then flags.getLsbD (b - 8) else pc.getLsbD (b - 16) := by
  simp only [BitVec.getLsbD_or, BitVec.getLsbD_shiftLeft, BitVec.getLsbD_setWidth]
  by_cases inCode : b < 8
  · simp [inCode, low, show b < 16 by omega]
  · rw [if_neg inCode, BitVec.getLsbD_of_ge code b (by omega)]
    by_cases inFlags : b < 16
    · simp [inCode, inFlags, low, show b - 8 < 64 by omega]
    · rw [if_neg inFlags, BitVec.getLsbD_of_ge flags (b - 8) (by omega)]
      simp [inFlags, low, show b - 16 < 64 by omega]

/-- The fields of that word. -/
theorem trapWord_fields (pc : BitVec 48) (flags : BitVec 6) (code : BitVec 8) :
    let v := pc.setWidth 64 <<< 16 ||| (flags.setWidth 64 <<< 8) ||| code.setWidth 64
    v.extractLsb' 0 8 = code ∧ v.extractLsb' 8 6 = flags ∧ v.extractLsb' 14 2 = 0 ∧ v.extractLsb' 16 48 = pc := by
  intro v
  have field : ∀ (lo n : Nat) (w : BitVec n), (∀ b, b < n → v.getLsbD (lo + b) = w.getLsbD b) → v.extractLsb' lo n = w :=
    fun lo n w bits => BitVec.eq_of_getLsbD_eq fun b inside => by
      rw [BitVec.getLsbD_extractLsb', decide_eq_true inside, Bool.true_and, bits b inside]
  refine ⟨field 0 8 code fun b inside => ?_, field 8 6 flags fun b inside => ?_, field 14 2 0 fun b inside => ?_,
    field 16 48 pc fun b inside => ?_⟩ <;>
  rw [trapWord_bit _ _ _ (by omega)]
  · rw [if_pos (by omega), Nat.zero_add]
  · rw [if_neg (by omega), if_pos (by omega), Nat.add_sub_cancel_left]
  · rw [if_neg (by omega), if_pos (by omega), BitVec.getLsbD_of_ge _ _ (by omega)]
    simp
  · rw [if_neg (by omega), if_neg (by omega), Nat.add_sub_cancel_left]

/-! Instructions that also change a register of the group. -/

/-- The path of a group after an instruction of it completes. -/
def Exe.donePath (x : Exe) (i : Instr) (mode : BitVec 64) : Path := { x.p with mode := mode }.past (pcAdd x.p.pc (instrSize i))

theorem Exe.group_complete (x : Exe) (i : Instr) (g : Group) (mode : BitVec 64) :
    (x.complete i g mode).group x.gid = g.setPath x.pid (x.donePath i mode) := x.group_put_bump ..

theorem Exe.setGroup_complete (x : Exe) (i : Instr) (g g' : Group) (mode : BitVec 64) :
    (x.complete i g mode).setGroup x.gid (g'.setPath x.pid (x.donePath i mode)) = x.complete i g' mode := x.setGroup_put_bump ..

/-- An instruction that completes and makes a change to its group besides, which `restore` takes back. -/
theorem Exe.completes_besides (x : Exe) {i : Instr} {res : List (Nat × List Val)} {g : Group} {mode : BitVec 64}
    {out : Nat → Option (List Val)} (restore : Group → Group)
    (apart : ∀ h p, restore (Group.setPath h x.pid p) = (restore h).setPath x.pid p) (restored : restore g = x.write i res)
    (results : ∀ l ∈ x.lanes, mget res l = out l) (outside : ∀ l, l ∉ x.lanes → mget res l = none) :
    x.Completes i mode out ((x.complete i g mode).setGroup x.gid (restore ((x.complete i g mode).group x.gid))) := by
  rw [x.group_complete, apart, x.setGroup_complete, restored]
  exact x.complete_completes i res mode out results outside

/-- Writing results leaves the guards and the delivery mask of the group. -/
theorem Exe.write_registers (x : Exe) (i : Instr) (res : List (Nat × List Val)) :
    ({ x.write i res with guard := x.g.guard } : Group) = x.write i res ∧
      ({ x.write i res with tmask := x.g.tmask } : Group) = x.write i res := by
  obtain ⟨lanes, written⟩ := x.write_eq i res
  rw [written]
  exact ⟨rfl, rfl⟩

/-- The guards that SETM_GUARD leaves: those of the path's lanes by their operands (R299). -/
theorem guards_bit (x : Exe) (on : Nat → Bool) {l : Nat} (low : l < 64) :
    ((x.g.guard &&& ~~~x.p.mask) ||| maskOf (x.lanes.filter on)).getLsbD l = if l ∈ x.lanes then on l else x.g.guard.getLsbD l := by
  have member : l ∈ x.lanes ↔ x.p.mask.getLsbD l = true := mem_lanesOf.trans (and_iff_right low)
  rw [BitVec.getLsbD_or, BitVec.getLsbD_and, BitVec.getLsbD_not, getLsbD_maskOf]
  simp only [List.mem_filter, member, low]
  cases x.p.mask.getLsbD l <;> simp

/-- In a handler a context read goes on with its context. -/
theorem Exe.inHandler_some {x : Exe} {h : Handler} (inside : x.g.handler = some h) (i : Instr) (k : Handler → State) :
    x.inHandler i k = k h := by
  unfold Exe.inHandler
  rw [inside]

/-- Settles O16: each SETM form by the bits of the mode word that it writes, SETM_GUARD by the guards, and each read by what it reads. -/
theorem modeWordAndContext : Obligations.ModeWordAndContext := by
  unfold Obligations.ModeWordAndContext
  refine ⟨fun s x c ops hx calm => ?sets, fun s x c ops hx => ?reads⟩
  case sets =>
    intro m v sets
    refine ⟨?ctl, ?flags, ?en, ?step, ?stepadd, ?guard⟩
    case ctl => refine setm_completes hx calm rfl fun b low => ?_; exact modeSetCtl_bit _ _ low
    case flags => refine setm_completes hx calm rfl fun b low => ?_; exact modeSetFlags_bit _ _ low
    case en => refine setm_completes hx calm rfl fun b low => ?_; exact modeSetEn_bit _ _ low
    case step => refine setm_completes hx calm rfl fun b low => ?_; exact modeSetStep_bit _ low
    case stepadd => refine setm_completes hx calm rfl fun b low => ?_; exact modeSetStep_bit _ low
    case guard =>
      intro i
      let guards := ((x.write i []).guard &&& ~~~x.p.mask) ||| maskOf (x.lanes.filter fun l => (argOf (x.args i l) 0).isTrue)
      obtain ⟨f, goes, poisoned, clean⟩ := Exe.unlessPoison_flag calm i fun f =>
        x.complete i { x.write i [] with guard := guards } (x.flagged f)
      refine ⟨f, _, (onPath_next hx _).trans (congrArg _ goes), ?_, fun l low => ?_, poisoned, clean⟩
      · exact x.completes_besides (fun h => { h with guard := x.g.guard }) (fun _ _ => rfl) (x.write_registers i []).1
          (fun _ _ => rfl) fun _ _ => rfl
      · rw [x.group_complete]
        have same : (x.write i []).guard = x.g.guard := (congrArg Group.guard (x.write_registers i []).1 :).symm
        simp only [Group.setPath, guards, same]
        exact guards_bit x _ low
  case reads =>
    intro gives
    refine ⟨?ctl, ?step, ?guard, ?gmask, ?cycles, ?handler, ?launch, ?enclave, ?place⟩
    case ctl => exact ⟨_, onPath_next hx _, x.commit_quiet _ _⟩
    case step => exact ⟨_, onPath_next hx _, x.commit_quiet _ _⟩
    case guard => exact ⟨_, onPath_next hx _, x.commit_quiet _ _⟩
    case gmask =>
      refine ⟨x.g.guard &&& x.p.mask, ⟨_, onPath_next hx _, x.commit_quiet _ _⟩, fun l => ?_⟩
      rw [BitVec.getLsbD_and, Bool.and_eq_true, Exe.lanes, mem_lanesOf]
      exact and_congr_right fun _ => ⟨fun own => ⟨BitVec.lt_of_getLsbD own, own⟩, And.right⟩
    case cycles =>
      obtain ⟨n, rises, counted⟩ := x.cycles_advance
      intro i form
      refine ⟨n, rises, ?_⟩
      simp only [List.mem_cons, List.not_mem_nil, or_false] at form
      rcases form with rfl | rfl
      on_goal 1 => rw [if_pos rfl, BitVec.setWidth_eq]
      on_goal 2 => rw [if_neg nofun, ← BitVec.ofNat_toNat, ← ofTy_i32]
      all_goals
        refine ⟨_, onPath_next hx _, ?_⟩
        rw [counted]
        exact Exe.commit_quiet { x with s := _ } _ fun _ => _
    case handler =>
      intro h inside
      have goes : ∀ (i : Instr) (k : Exe → Handler → State), exec i s = onPath s (fun x => x.inHandler i (k x)) →
          exec i s = .next (k x h) :=
        fun i k meaning => meaning.trans ((onPath_next hx _).trans (congrArg _ (Exe.inHandler_some inside i _)))
      refine ⟨⟨_, ⟨_, goes _ _ rfl, x.commit_quiet _ _⟩, trapWord_fields ..⟩, ⟨_, goes _ _ rfl, x.commit_quiet _ _⟩,
        ⟨_, goes _ _ rfl, x.commit_quiet _ _⟩⟩
    case launch => exact ⟨_, onPath_next hx _, x.commit_quiet _ _⟩
    case enclave =>
      rw [← ofTy_i32]
      exact ⟨_, onPath_next hx _, x.commit_quiet _ _⟩
    case place =>
      rw [← ofTy_i32]
      exact ⟨_, onPath_next hx _, x.commit_quiet _ _⟩

/-- The delivery mask holds bits 1 to 14 of the operand (R378). -/
theorem deliveryMask_bit (m b : Nat) : (BitVec.ofNat 16 m &&& 0x7FFE).getLsbD b = (decide (1 ≤ b ∧ b ≤ 14) && m.testBit b) := by
  have mask : ∀ b, b < 16 → (0x7FFE : BitVec 16).getLsbD b = decide (1 ≤ b ∧ b ≤ 14) := by decide
  rw [BitVec.getLsbD_and, bit_ofNat]
  by_cases low : b < 16
  · rw [mask b low, decide_eq_true low, Bool.true_and, Bool.and_comm]
  · simp [low, show ¬ b ≤ 14 by omega]

/-- TMASK gives the old delivery mask, and sets the new one besides (R378). -/
theorem exec_tmask {s : State} {x : Exe} (hx : s.exe? = some x) (calm : x.calm) (c : Ctl) (ops : List Opnd) :
    let i := Instr.tmask c ops
    exec i s = .next (x.complete i
      { x.write i ((x.active c).map fun l => (l, [.ofBV x.g.tmask])) with tmask := BitVec.ofNat 16 (numOf (x.onceVals i) 0) &&& 0x7FFE }
      (x.flagged (flagIf (x.oncePoison i) flagPO))) := by
  intro i
  have old : ofTy .i32 x.g.tmask.toNat = .ofBV x.g.tmask := by
    have small := x.g.tmask.isLt
    refine congrArg Val.bits (BitVec.eq_of_toNat_eq ?_)
    rw [BitVec.toNat_ofNat, BitVec.toNat_setWidth, Ty.width]
    omega
  rw [← old]
  exact (onPath_next hx _).trans (congrArg _ (Exe.once_calm calm i _))

/-- Settles O23: a fence completes without results; TMASK completes so too, once its new mask is taken back. -/
theorem nopFencesAndTmask : Obligations.NopFencesAndTmask := by
  unfold Obligations.NopFencesAndTmask
  refine ⟨fun s x c scope ops hx i form => ?goesOn, fun s x c ops hx calm => ?tmask⟩
  case goesOn =>
    have step : exec i s = .next (x.commit i [] 0) := by
      simp only [List.mem_cons, List.not_mem_nil, or_false] at form
      rcases form with rfl | rfl | rfl | rfl | rfl <;> exact onPath_next hx _
    have done := x.commit_completes i [] 0 (fun _ => none) (fun _ _ => rfl) fun _ _ => rfl
    rw [Exe.flagged, modeRaise_zero] at done
    exact ⟨_, step, done⟩
  case tmask =>
    intro i m
    refine ⟨_, exec_tmask hx calm c ops, ?_, fun b => ?_⟩
    · exact x.completes_besides (fun h => { h with tmask := x.g.tmask }) (fun _ _ => rfl) (x.write_registers i _).2
        (fun l _ => mget_map_self (fun _ => [Val.ofBV x.g.tmask]) _ l) (mget_active x c fun _ => [Val.ofBV x.g.tmask])
    · rw [x.group_complete]
      exact deliveryMask_bit m b

end Sys2Proof.Machine
end

section
/-! PROOF. PHI (R287): the PHIs of a block read together and then define. -/

namespace Sys2Proof.Machine

/-- What the path's lanes read in the PHIs of a block. -/
def Exe.phiReads (x : Exe) (run : List (Ty × List Opnd)) : List (Nat × List (Val × Bool)) :=
  x.lanes.map fun l => (l, run.map (x.phiRead l (x.phiPlace l)))

/-- The group after its path's lanes have defined the PHIs of a block. -/
def Exe.phiGroup (x : Exe) (run : List (Ty × List Opnd)) : Group :=
  x.g.mapLanes x.lanes fun l y => (y.eraseAll (phiEnds (x.phiPlace l) run)).defineAll (x.tr.baseAt x.p.pc)
    (((mget (x.phiReads run) l).getD []).map Prod.fst)

/-- The path behind the PHIs of a block, which it leaves at the last of them. -/
def Exe.phiPath (x : Exe) (run : List (Ty × List Opnd)) (f : BitVec 6) : Path :=
  let next := pcAdd x.p.pc (run.map phiSize).sum
  x.moved next (next - BitVec.ofNat 48 (4 * phiSize (run.getLastD (.i32, []))), 0) (x.flagged f)

/-- PO, if a lane of the path reads poison in one of the PHIs of a block. -/
def Exe.phiFlag (x : Exe) (run : List (Ty × List Opnd)) : BitVec 6 :=
  flagIf (!((x.phiReads run).filter fun r => r.2.any Prod.snd).isEmpty) flagPO

theorem Exe.phiReads_filter_nil {x : Exe} {run : List (Ty × List Opnd)} {p : Val × Bool → Bool} :
    (x.phiReads run).filter (fun r => r.2.any p) = [] ↔ ∀ l ∈ x.lanes, ∀ q ∈ run, p (x.phiRead l (x.phiPlace l) q) = false := by
  rw [List.filter_eq_nil_iff, Exe.phiReads, List.forall_mem_map]
  simp only [List.any_map, Bool.not_eq_true, List.any_eq_false, Function.comp_apply]

/-- Where no lane reads a shadowed acc, and no poison read traps, the PHIs of a block define what its lanes have read. -/
theorem Exe.phis_define {x : Exe} (calm : x.calm) (run : List (Ty × List Opnd))
    (plain : ∀ l ∈ x.lanes, ∀ q ∈ run, (x.phiRead l (x.phiPlace l) q).1.shadowed = false) :
    x.phis run = x.count (x.put ((x.phiGroup run).setPath x.pid (x.phiPath run (x.phiFlag run)))) run.length := by
  have unshadowed := Exe.phiReads_filter_nil (p := fun v => v.1.shadowed) |>.mpr plain
  have disabled : ((modeEn x.p.mode &&& flagPO) != 0) = false := by rw [show modeEn x.p.mode = 0 from calm]; rfl
  unfold Exe.phis
  dsimp only
  rw [disabled, Bool.and_false, if_neg Bool.false_ne_true, if_neg]
  · rfl
  · simp only [Exe.phiReads] at unshadowed
    rw [unshadowed]
    exact Bool.false_ne_true

theorem Exe.phiFlag_eq (x : Exe) (run : List (Ty × List Opnd)) :
    ((∃ l ∈ x.lanes, ∃ q ∈ run, (x.phiRead l (x.phiPlace l) q).2 = true) → x.phiFlag run = flagPO) ∧
      ((∀ l ∈ x.lanes, ∀ q ∈ run, (x.phiRead l (x.phiPlace l) q).2 = false) → x.phiFlag run = 0) := by
  unfold Exe.phiFlag
  constructor
  · rintro ⟨l, own, q, mem, poison⟩
    cases bad : (x.phiReads run).filter fun r => r.2.any Prod.snd with
    | nil => exact absurd (Exe.phiReads_filter_nil.mp bad l own q mem) (by simp [poison])
    | cons => rfl
  · intro clean
    rw [Exe.phiReads_filter_nil.mpr clean]
    rfl

theorem Exe.lane_phiGroup (x : Exe) (run : List (Ty × List Opnd)) (l : Nat) :
    (x.phiGroup run).lane l =
      if l ∈ x.lanes then ((x.g.lane l).eraseAll (phiEnds (x.phiPlace l) run)).defineAll (x.tr.baseAt x.p.pc)
        (run.map fun q => (x.phiRead l (x.phiPlace l) q).1)
      else x.g.lane l := by
  rw [Exe.phiGroup, Group.lane_mapLanes _ x.lanes (nodup_lanesOf _)]
  split
  next own =>
    rw [Exe.phiReads, mget_map_self, if_pos own, Option.getD_some, List.map_map]
    rfl
  next => rfl

/-- A value of a lane of the path after the PHIs of a block. -/
theorem Exe.val_phiGroup (x : Exe) (run : List (Ty × List Opnd)) {l : Nat} (own : l ∈ x.lanes) (id : Nat) :
    ((x.phiGroup run).lane l).val id =
      if x.tr.baseAt x.p.pc ≤ id ∧ id < x.tr.baseAt x.p.pc + run.length then
        run[id - x.tr.baseAt x.p.pc]?.map fun q => (x.phiRead l (x.phiPlace l) q).1
      else if id ∈ phiEnds (x.phiPlace l) run then none else (x.g.lane l).val id := by
  rw [x.lane_phiGroup, if_pos own, Lane.val_defineAll, Lane.val_eraseAll, List.length_map, List.getElem?_map]

theorem Exe.keeps_phiGroup (x : Exe) (run : List (Ty × List Opnd)) (l : Nat) : (x.g.lane l).Keeps ((x.phiGroup run).lane l) := by
  rw [x.lane_phiGroup]
  split
  · exact (Lane.keeps_eraseAll _ _).trans (Lane.keeps_defineAll _ _ _)
  · exact .refl _

/-- An id ends in a lane at the PHIs of a block where an operand that the lane reads there ends it (R287). -/
theorem mem_phiEnds {place : Option Nat} {run : List (Ty × List Opnd)} {id : Nat} :
    id ∈ phiEnds place run ↔ ∃ q ∈ run, ∃ o, (place.bind fun k => q.2[k]?) = some o ∧ id ∈ endsOf [o] := by
  have ends : ∀ o, id ∈ endsOf [o] ↔ opndEnds o = some id := fun o => by
    simp [endsOf]
  simp only [phiEnds, List.mem_filterMap, Option.bind_eq_some_iff, ends]

/-- The PHIs of a block change only their own values and end only the operands that their lanes read. -/
theorem Exe.keeps_phis (x : Exe) (run : List (Ty × List Opnd)) (p : Path) :
    x.Keeps (fun id => (∃ l ∈ x.lanes, id ∈ phiEnds (x.phiPlace l) run) ∨
      x.tr.baseAt x.p.pc ≤ id ∧ id < x.tr.baseAt x.p.pc + run.length)
      (x.count (x.put ((x.phiGroup run).setPath x.pid p)) run.length) := by
  refine x.keeps_put' ?group (fun p other => ?paths) [] (fun l other _ => ?others)
    (fun l => (x.keeps_phiGroup run l).edge) (fun l _ => x.keeps_phiGroup run l) fun l _ id kept => ?values
  case group => rw [Exe.phiGroup, Group.mapLanes_eq]; rfl
  case paths => rw [Exe.phiGroup, Group.mapLanes_eq]; exact mget_mset_ne other ..
  case others => rw [Group.lane_setPath, x.lane_phiGroup, if_neg other]
  case values =>
    rw [Group.lane_setPath]
    by_cases own : l ∈ x.lanes
    · rw [x.val_phiGroup run own, if_neg fun inside => kept (.inr inside), if_neg fun ends => kept (.inl ⟨l, own, ends⟩)]
    · rw [x.lane_phiGroup, if_neg own]

/-- Settles O20: the PHIs of the block define what their lanes have read, in which only the operands of each lane's edge have ended. -/
theorem phisReadThenDefine : Obligations.PhisReadThenDefine := by
  unfold Obligations.PhisReadThenDefine
  intro s x c t ops hx calm run edge operand read base next final plain
  have edges : edge = x.edgeOf := by
    funext l
    simp only [edge, Exe.edgeOf]
    cases x.p.last <;> rfl
  have operands : operand = fun l q => (x.phiPlace l).bind fun k => q.2[k]? := by
    funext l q
    simp only [operand, edges, Exe.phiPlace]
  have reads : read = fun l q => x.phiRead l (x.phiPlace l) q := by
    funext l q
    simp only [read, operands, Exe.phiRead]
  clear_value read operand
  subst reads operands
  obtain ⟨poisoned, clean⟩ := x.phiFlag_eq run
  have group : (x.count (x.put ((x.phiGroup run).setPath x.pid (x.phiPath run (x.phiFlag run)))) run.length).group x.gid =
      (x.phiGroup run).setPath x.pid (x.phiPath run (x.phiFlag run)) := x.group_put_bump ..
  refine ⟨x.phiFlag run, _, (onPath_next hx _).trans (congrArg _ (Exe.phis_define calm run plain)), poisoned, clean, ?path, ?defined,
    ?ended, x.counted_put _ _, ?kept⟩
  case path =>
    have last : run.getLastD (.i32, []) = run.getLastD (t, ops) := by simp only [run, List.getLastD_cons]
    rw [group, Exe.phiPath, last]
    exact mget_mset_self ..
  case defined =>
    intro l own k q place
    obtain ⟨inside, -⟩ := List.getElem?_eq_some_iff.mp place
    rw [group, Group.lane_setPath, x.val_phiGroup run own, if_pos (by omega), Nat.add_sub_cancel_left, place]
    rfl
  case ended =>
    intro l own q mem o reads id ends outside
    rw [group, Group.lane_setPath, x.val_phiGroup run own, if_neg outside, if_pos (mem_phiEnds.mpr ⟨q, mem, o, reads, ends⟩)]
  case kept =>
    have keeps := x.keeps_phis run (x.phiPath run (x.phiFlag run))
    simp only [mem_phiEnds] at keeps
    exact keeps

end Sys2Proof.Machine
end

section
/-! PROOF. Floating-point arithmetic (R305, R310): an instruction that rounds once rounds the exact result of its operands. -/

namespace Sys2Proof.Machine

/-- The sum and the product of values without a sticky part are exact. -/
theorem ShortNum.exactSum {a b : Num} (rm : Nat) (sa : ShortNum a) (sb : ShortNum b) : ExactSum rm a b (Num.add rm a b) :=
  Machine.exactSum rm a b (fun p m e t eq => (sa p m e t eq).1) fun p m e t eq => (sb p m e t eq).1

theorem ShortNum.exactProduct {a b : Num} (sa : ShortNum a) (sb : ShortNum b) : ExactProduct a b (Num.mul a b) :=
  Machine.exactProduct a b (fun p m e t eq => (sa p m e t eq).1) fun p m e t eq => (sb p m e t eq).1

theorem ShortNum.negateIf {a : Num} (negate : Bool) (short : ShortNum a) : ShortNum (if negate then a.opp else a) := by
  cases negate
  · exact short
  · exact ex_opp short

/-- An instruction that rounds once, whose exact result is right for all operand values that formats have. -/
theorem arith_rounds {s : State} {x : Exe} (hx : s.exe? = some x) (calm : x.calm) {i : Instr} {t : Ty}
    {f : Nat → List Num → Num × BitVec 6} (meaning : exec i s = onPath s fun x => x.arith i t f)
    (P : (Nat → Num) → Num × BitVec 6 → Prop)
    (value : ∀ vs, (∀ k, ShortNum (numAt vs k)) → P (numAt vs) (f (modeRM x.p.mode) vs)) :
    ∃ e, x.YieldsRounded s i t e ∧ ∀ l, P (fun k => numAt ((x.args i l).map fun v => fpIn t x.p.mode v.num) k) (e l) :=
  ⟨_, arith_yields hx calm i t f meaning, fun _ => value _ fun k => ex_numAt t _ _ k⟩

/-- Settles O8: each instruction rounds what its operation gives, which is the exact result of the values of its operands. -/
theorem floatArithmetic : Obligations.FloatArithmetic := by
  unfold Obligations.FloatArithmetic
  intro s x c t ops hx calm v rm
  refine ⟨fun sub => ?sum, ?product, fun ms => ?fma, ?quotient, ?root⟩
  case sum =>
    exact arith_rounds hx calm rfl (fun v r => ExactSum rm (v 0) (if sub then (v 1).opp else v 1) r)
      fun _ short => (short 0).exactSum rm ((short 1).negateIf sub)
  case product =>
    exact arith_rounds hx calm rfl (fun v r => ExactProduct (v 0) (v 1) r) fun _ short => (short 0).exactProduct (short 1)
  case fma =>
    exact arith_rounds hx calm rfl (fun v r => ExactFma rm (v 0) (v 1) (if ms then (v 2).opp else v 2) r)
      fun _ short => exactFma rm _ _ _ (short 0) (short 1) ((short 2).negateIf ms)
  case quotient =>
    exact arith_rounds hx calm rfl (fun v r => ExactQuotient (v 0) (v 1) r) fun _ short => exactQuot _ _ (short 0) (short 1)
  case root => exact arith_rounds hx calm rfl (fun v r => ExactRoot (v 0) r) fun _ short => exactRoot _ (short 0)

end Sys2Proof.Machine
end

section
/-! PROOF. The class of an encoding (R309), by its stored exponent and mantissa. -/

namespace Sys2Proof.Machine

/-- The value of an encoding of a format without ignored bits that keeps its top exponent for infinities and NaNs (R224). -/
theorem FpFmt.value_ieee {f : FpFmt} (ieee : f.nan = .ieee) (full : f.low = 0) (w : Nat) :
    let neg := decide (w / 2 ^ (f.ebits + f.mbits) % 2 = 1)
    let exp := w / 2 ^ f.mbits % 2 ^ f.ebits
    let man := w % 2 ^ f.mbits
    f.value false w =
      if exp = f.eOnes then if man = 0 then .inf neg else .nan neg f.mbits man
      else if exp = 0 then .fin neg man (f.emin - f.mbits) false
      else .fin neg (2 ^ f.mbits + man) ((exp : Int) - f.bias - f.mbits) false := by
  intro neg exp man
  have size : 2 ^ (1 + f.ebits + f.mbits) = 2 ^ (f.ebits + f.mbits) * 2 := by rw [← Nat.pow_succ]; congr 1; omega
  have sign : (w % 2 ^ (1 + f.ebits + f.mbits) / 2 ^ (f.ebits + f.mbits) == 1) = neg := by
    rw [size, Nat.mod_mul_right_div_self]
    rfl
  have stored : w % 2 ^ (1 + f.ebits + f.mbits) / 2 ^ f.mbits % 2 ^ f.ebits = exp := by
    rw [Nat.add_comm, Nat.pow_add, Nat.mod_mul_right_div_self, Nat.mod_mod_of_dvd _ (Nat.pow_dvd_pow 2 (by omega))]
  have mantissa : w % 2 ^ (1 + f.ebits + f.mbits) % 2 ^ f.mbits = man := Nat.mod_mod_of_dvd _ (Nat.pow_dvd_pow 2 (by omega))
  unfold FpFmt.value
  simp only [ieee, full, Nat.pow_zero, Nat.div_one, sign, stored, mantissa, Bool.false_eq_true, ↓reduceIte]

/-- The bit that FCLASS sets, by the fields of the encoding (R309). -/
theorem fclassBit_cases {f : FpFmt} (ieee : f.nan = .ieee) (full : f.low = 0) (ones : f.eOnes ≠ 0) (w : Nat) :
    let neg := w / 2 ^ (f.ebits + f.mbits) % 2 = 1
    let exp := w / 2 ^ f.mbits % 2 ^ f.ebits
    let man := w % 2 ^ f.mbits
    (exp = f.eOnes → man ≠ 0 → fclassBit f w = 8) ∧
    (exp = f.eOnes → man = 0 → fclassBit f w = if neg then 0 else 7) ∧
    (exp ≠ 0 → exp ≠ f.eOnes → fclassBit f w = if neg then 1 else 6) ∧
    (exp = 0 → man ≠ 0 → fclassBit f w = if neg then 2 else 5) ∧
    (exp = 0 → man = 0 → fclassBit f w = if neg then 3 else 4) := by
  intro neg exp man
  have value := FpFmt.value_ieee ieee full w
  have small : man < 2 ^ f.mbits := Nat.mod_lt _ (Nat.two_pow_pos _)
  have lead : 2 ^ f.mbits + man ≠ 0 := by omega
  have bottom : exp = 0 → exp ≠ f.eOnes := fun zero top => ones (top.symm.trans zero)
  unfold fclassBit
  rw [value]
  simp only [exp, man, neg] at small lead bottom ⊢
  refine ⟨fun top some => ?nan, fun top zero => ?infinity, fun low high => ?normal, fun zero some => ?subnormal,
    fun zero none => ?zero⟩
  case nan => simp only [if_pos top, if_neg some]
  case infinity => simp only [if_pos top, if_pos zero, decide_eq_true_eq]
  case normal =>
    simp only [if_neg high, if_neg low, if_neg lead, Nat.not_lt.mpr (Nat.le_add_right ..), ↓reduceIte, decide_eq_true_eq]
  case subnormal => simp only [if_neg (bottom zero), if_pos zero, if_neg some, if_pos small, decide_eq_true_eq]
  case zero => simp only [if_neg (bottom zero), if_pos zero, if_pos none, decide_eq_true_eq]

/-- A number with one bit set. -/
theorem ofNat_two_pow (w k : Nat) : BitVec.ofNat w (2 ^ k) = BitVec.twoPow w k :=
  BitVec.eq_of_toNat_eq (by rw [BitVec.toNat_ofNat, BitVec.toNat_twoPow])

/-- Settles O9: the four types have formats of this kind. -/
theorem floatClass : Obligations.FloatClass := by
  unfold Obligations.FloatClass
  intro s x c ops hx calm q form i
  let f := fmtOf q.1
  have fields : f.ebits = q.2.1 ∧ f.mbits = q.2.2 ∧ f.nan = .ieee ∧ f.low = 0 ∧ f.eOnes ≠ 0 := by
    simp only [List.mem_cons, List.not_mem_nil, or_false] at form
    rcases form with rfl | rfl | rfl | rfl <;> decide
  obtain ⟨ebits, mbits, ieee, full, ones⟩ := fields
  refine ⟨fun l => fclassBit f (numOf (x.args i l) 0), Exe.yields_quiet hx calm
    (g := fun _ vs => .done [ofTy .i32 (2 ^ fclassBit f (numOf vs 0))] 0) rfl fun l _ => ?_, fun l _ => ?_⟩
  · rw [ofTy_i32, ofNat_two_pow]
  · rw [← ebits, ← mbits]
    exact fclassBit_cases ieee full ones _

end Sys2Proof.Machine
end


section
/-! PROOF. FSIGN, FCMP and FMINMAX (R306 to R308): the sign bit, and the order of values. -/

namespace Sys2Proof.Machine

/-! FSIGN (R307). -/

/-- The sign that a kind of FSIGN makes of the signs of its operands. -/
def signMade (k : FSignKind) (a b : Bool) : Bool :=
  match k with
  | .abs => false
  | .neg => !a
  | .copysign => b
  | .xorsign => a != b

/-- FSIGN puts its sign above the bits below that of its first operand. -/
theorem fsignWord_eq (k : FSignKind) (t : Ty) (a b : Nat) :
    let top := t.width - 1
    fsignWord k t a b = a % 2 ^ top + (signMade k (a.testBit top) (b.testBit top)).toNat * 2 ^ top := by
  intro top
  have sign : ∀ v : Nat, v / 2 ^ top % 2 = (v.testBit top).toNat := fun v => (Nat.toNat_testBit v top).symm
  cases k <;> simp only [fsignWord, signMade, top, sign]
  · rw [Bool.toNat_false, Nat.zero_mul, Nat.add_zero]
  · cases a.testBit (t.width - 1) <;> rfl
  · cases a.testBit (t.width - 1) <;> cases b.testBit (t.width - 1) <;> rfl

/-- The sign bit of FSIGN's result is the sign that it makes, every other bit that of its first operand. -/
theorem fsignWord_bit (k : FSignKind) {t : Ty} (wide : 0 < t.width) (a b : Nat) {n : Nat} (low : n < t.width) :
    (fsignWord k t a b).testBit n = if n = t.width - 1 then signMade k (a.testBit n) (b.testBit n) else a.testBit n := by
  rw [fsignWord_eq, body_add _ wide (Bool.toNat_lt _)]
  by_cases top : n = t.width - 1
  · subst top
    rw [if_neg (Nat.lt_irrefl _), if_pos rfl, if_pos rfl]
    cases signMade k (a.testBit (t.width - 1)) (b.testBit (t.width - 1)) <;> rfl
  · rw [if_pos (by omega), if_neg top]

/-- FSIGN on bit vectors. -/
theorem fsignWord_bv (k : FSignKind) {t : Ty} (wide : 0 < t.width) (a b : Nat) :
    let w := t.width
    let sign := BitVec.ofNat w (2 ^ (w - 1))
    let a' := BitVec.ofNat w a
    let b' := BitVec.ofNat w b
    BitVec.ofNat w (fsignWord k t a b) = match k with
      | .abs => a' &&& ~~~sign
      | .neg => a' ^^^ sign
      | .copysign => (a' &&& ~~~sign) ||| (b' &&& sign)
      | .xorsign => a' ^^^ (b' &&& sign) := by
  intro w sign a' b'
  refine BitVec.eq_of_getLsbD_eq fun n low => ?_
  have top : sign.getLsbD n = decide (n = w - 1) := by
    rw [bit_of_ofBV low, Nat.testBit_two_pow]
    exact decide_eq_decide.mpr eq_comm
  have operand : ∀ v : Nat, (BitVec.ofNat w v).getLsbD n = v.testBit n := fun v => bit_of_ofBV low
  rw [operand, fsignWord_bit k wide a b low]
  by_cases last : n = w - 1
  · rw [if_pos last]
    cases k <;> simp [-BitVec.getLsbD_eq_getElem, signMade, top, last.symm, low, operand, a', b']
  · rw [if_neg last]
    cases k <;> simp [-BitVec.getLsbD_eq_getElem, top, last, low, operand, a', b']

/-! FCMP (R308). -/

/-- A comparison with a NaN. -/
theorem fcmpOf_unordered (k : FCond) {a b : Num} (nan : a.isNan ∨ b.isNan) :
    (fcmpOf k a b).1 = decide (k = .ne ∨ k = .uno) ∧
      (fcmpOf k a b).2 = flagIf (decide (k = .lt ∨ k = .le ∨ k = .gt ∨ k = .ge)) flagNV := by
  have uno : (a.isNan || b.isNan) = true := by rwa [Bool.or_eq_true]
  cases k <;> simp only [fcmpOf, uno] <;> exact ⟨rfl, rfl⟩

/-- A comparison of two numbers raises nothing, and is that of their values. -/
theorem fcmpOf_ordered (k : FCond) {a b : Num} (na : a.isNan = false) (nb : b.isNan = false) :
    (fcmpOf k a b).2 = 0 ∧ ((fcmpOf k a b).1 = true ↔ match k with
      | .eq => ¬ a.less b ∧ ¬ b.less a
      | .ne => a.less b ∨ b.less a
      | .lt => a.less b
      | .le => ¬ b.less a
      | .gt => b.less a
      | .ge => ¬ a.less b
      | .ord => True
      | .uno => False) := by
  have before := lt_iff na nb
  have after := lt_iff nb na
  have uno : (a.isNan || b.isNan) = false := by rw [na, nb]; rfl
  cases k <;> simp only [fcmpOf, uno, flagIf, Num.same, ← before, ← after, Bool.not_false, Bool.true_and, Bool.false_or,
    Bool.not_eq_true, Bool.not_eq_true', Bool.and_eq_true, Bool.not_and, Bool.not_not, Bool.or_eq_true, Bool.false_eq_true,
    ↓reduceIte, and_self]

/-! FMINMAX (R306). -/

/-- The order of FMINMAX: by value, −0 below +0. -/
theorem below_iff {a b : Num} (na : a.isNan = false) (nb : b.isNan = false) :
    a.below b = true ↔ a.less b ∨ (a.isZero ∧ b.isZero ∧ a.neg = true ∧ b.neg = false) := by
  simp only [Num.below, Bool.or_eq_true, Bool.and_eq_true, Bool.not_eq_true', lt_iff na nb, and_assoc]

section
variable (k : FMinMax) (t : Ty) (m : BitVec 64) (v w : Nat)

/-- Two NaNs give a NaN, and one does unless the kind passes over it. -/
theorem fminmaxWord_nan
    (nan : ((fpIn t m v).isNan ∧ (fpIn t m w).isNan) ∨
      (¬ (k = .minnum ∨ k = .maxnum) ∧ ((fpIn t m v).isNan ∨ (fpIn t m w).isNan))) :
    fminmaxWord k t m v w = nanOf t m [fpIn t m v, fpIn t m w] := by
  rcases nan with ⟨first, second⟩ | ⟨strict, either⟩
  · cases k <;> simp only [fminmaxWord, first, second, Bool.or_self, Bool.and_self, ↓reduceIte]
  · cases k with
    | min | max => exact if_pos ((Bool.or_eq_true ..).mpr either)
    | minnum => exact absurd (.inl rfl) strict
    | maxnum => exact absurd (.inr rfl) strict

/-- The kinds that pass over a NaN give the other operand (R306). -/
theorem fminmaxWord_num (nums : k = .minnum ∨ k = .maxnum) :
    ((fpIn t m v).isNan → (fpIn t m w).isNan = false → fminmaxWord k t m v w = flushed t m w) ∧
      ((fpIn t m v).isNan = false → (fpIn t m w).isNan → fminmaxWord k t m v w = flushed t m v) := by
  refine ⟨fun first second => ?_, fun first second => ?_⟩ <;> rcases nums with rfl | rfl <;>
    simp only [fminmaxWord, first, second, Bool.and_true, Bool.and_false, Bool.false_eq_true, ↓reduceIte]

/-- The minimum and the maximum of two numbers, of which the first is taken when they are alike (R306). -/
theorem fminmaxWord_number (first : (fpIn t m v).isNan = false) (second : (fpIn t m w).isNan = false) :
    (k = .min ∨ k = .minnum → fminmaxWord k t m v w = flushed t m (if (fpIn t m w).below (fpIn t m v) then w else v)) ∧
      (k = .max ∨ k = .maxnum → fminmaxWord k t m v w = flushed t m (if (fpIn t m v).below (fpIn t m w) then w else v)) := by
  refine ⟨?_, ?_⟩ <;> rintro (rfl | rfl) <;>
    simp only [fminmaxWord, first, second, Bool.or_self, Bool.and_self, Bool.false_eq_true, ↓reduceIte]

end

/-- Settles O10: FSIGN bit by bit; FCMP and FMINMAX by whether an operand is a NaN, and else by the order of the values. -/
theorem floatSignClassCompare : Obligations.FloatSignClassCompare := by
  unfold Obligations.FloatSignClassCompare
  refine ⟨fun s x c t ops hx calm => ?sign, fun s x c t ops hx calm => ⟨fun k => ?compare, fun k => ?order⟩⟩
  case sign =>
    intro w k i sign a b wide _
    refine Exe.yields_quiet hx calm (g := fun _ vs => .done [ofTy t (fsignWord k t (numOf vs 0) (numOf vs 1))] 0) rfl fun l _ => ?_
    rw [ofTy_ofBV, fsignWord_bv k wide]
    rfl
  case compare =>
    intro i a b
    refine ⟨fun l => (fcmpOf k (a l) (b l)).1, fun l => (fcmpOf k (a l) (b l)).2,
      Exe.yields hx calm i (fun x _ _ vs =>
        let r := fcmpOf k (fpIn t x.p.mode (numOf vs 0)) (fpIn t x.p.mode (numOf vs 1))
        .done [.ofBool r.1] r.2) _ _ rfl fun _ _ => rfl,
      fun l _ => ⟨fcmpOf_unordered k, fun ordered => ?_⟩⟩
    obtain ⟨na, nb⟩ := not_or.mp ordered
    exact fcmpOf_ordered k (Bool.eq_false_iff.mpr na) (Bool.eq_false_iff.mpr nb)
  case order =>
    intro i v
    refine ⟨fun l => fminmaxWord k t x.p.mode (numOf (x.args i l) 0) (numOf (x.args i l) 1),
      Exe.yields_quiet hx calm (g := fun x vs => .done [ofTy t (fminmaxWord k t x.p.mode (numOf vs 0) (numOf vs 1))] 0) rfl
        fun _ _ => rfl, fun l _ => ?_⟩
    intro a b wa wb before nums
    refine ⟨fminmaxWord_nan k t _ _ _, fun nums => (fminmaxWord_num k t _ _ _ nums).1, fun nums => (fminmaxWord_num k t _ _ _ nums).2,
      fun na nb => ?_⟩
    obtain ⟨least, greatest⟩ := fminmaxWord_number k t _ _ _ na nb
    refine ⟨fun kind => ⟨fun is => ?_, fun isnt => ?_⟩, fun kind => ⟨fun is => ?_, fun isnt => ?_⟩⟩
    · exact (least kind).trans (congrArg _ (if_pos ((below_iff nb na).mpr is)))
    · exact (least kind).trans (congrArg _ (if_neg (mt (below_iff nb na).mp isnt)))
    · exact (greatest kind).trans (congrArg _ (if_pos ((below_iff na nb).mpr is)))
    · exact (greatest kind).trans (congrArg _ (if_neg (mt (below_iff na nb).mp isnt)))

end Sys2Proof.Machine
end

section
/-! PROOF. CVTF and PACK (R313, R314): one Convert for each result, or for each element of a packed one. -/

namespace Sys2Proof.Machine

/-- What an exact value without a flag of its own comes to is what Convert makes of it. -/
theorem fpOut_quiet (t : Ty) (r : Rounding) (n : Num) :
    fpOut t r (n, 0) = .done [ofTy t ((fmtOf t).convert r n).1] ((fmtOf t).convert r n).2 := by
  rw [fpOut_eq]
  exact congrArg (LaneOut.done _) BitVec.zero_or

section
variable {s : State} {x : Exe} (hx : s.exe? = some x) (calm : x.calm) (c : Ctl) (ops : List Opnd)
include hx calm

/-- CVTF gives what each of its lanes comes to. -/
theorem cvtf_yields {k : CvtfKind} {out : Nat → List Val} {fl : Nat → BitVec 6}
    (lane : let i := Instr.cvtf c k ops
      ∀ l ∈ x.active c, cvtfLane k (x.opTy i 0) x.p.mode (x.rounding l) (numOf (x.args i l) 0) = .done (out l) (fl l)) :
    x.Yields s (.cvtf c k ops) out fl :=
  Exe.yields hx calm _ (fun x _ l vs => cvtfLane k (x.opTy (.cvtf c k ops) 0) x.p.mode (x.rounding l) (numOf vs 0)) out fl rfl lane

/-- The kinds of CVTF that round to an integer (R232, R313). -/
theorem cvtf_integer {k : CvtfKind} {d : Ty} {signed : Bool} {w : Nat} (wide : 0 < w) (fits : w ≤ d.width)
    (kind : ∀ t m r v, cvtfLane k t m r v =
      .done [ofTy d (convertInt w signed r (fpIn t m v)).1] (convertInt w signed r (fpIn t m v)).2) :
    let i := Instr.cvtf c k ops
    let n := fun l => toInteger (x.rounding l) (intRange signed w).1 (intRange signed w).2
      (fpIn (x.opTy i 0) x.p.mode (numOf (x.args i l) 0))
    x.Yields s i (fun l => [.ofBV (BitVec.ofInt w (n l).1)]) fun l => (n l).2 :=
  cvtf_yields hx calm c ops fun _ _ => (kind ..).trans (toInt_lane x (.cvtf c k ops) w signed d wide fits _ _ (fpIn_exact _ _ _) _ rfl)

/-- The kinds of CVTF that read an integer: its value is exact (R313). -/
theorem cvtf_ofInteger (d : Ty) (signed : Bool) :
    let i := Instr.cvtf c (if signed then .sToF d else .uToF d) ops
    let v := fun l => x.arg i (x.opTy i 0).width l 0
    ∃ e, x.YieldsRounded s i d e ∧ ∀ l ∈ x.active c, ∃ neg m, e l = (.fin neg m 0 false, 0) ∧
      (Num.fin neg m 0 false).units 0 = if signed then (v l).toInt else ((v l).toNat : Int) := by
  intro i v
  refine ⟨fun l => (.ofInt (x.opTy i 0).width signed (numOf (x.args i l) 0), 0), cvtf_yields hx calm c ops fun l _ => ?_,
    fun l _ => ?_⟩
  · cases signed <;> exact fpOut_eq ..
  · obtain ⟨neg, m, value, units⟩ := ofScaled_int
      (if signed then signedOf (x.opTy i 0).width (numOf (x.args i l) 0) else (numOf (x.args i l) 0 % 2 ^ (x.opTy i 0).width : Nat))
    refine ⟨neg, m, congrArg (·, 0) value, units.trans ?_⟩
    simp only [v, Exe.arg, BitVec.toNat_ofNat, signedOf_ofNat]

/-- The kinds of CVTF that keep the bits (R313). -/
theorem cvtf_cast {k : CvtfKind} {source d : Ty} (type : x.opTy (.cvtf c k ops) 0 = source)
    (kind : ∀ m r v, cvtfLane k source m r v = .done [ofTy d v] 0) :
    x.Yields s (.cvtf c k ops) (fun l => [.ofBV (x.arg (.cvtf c k ops) d.width l 0)]) fun _ => 0 :=
  cvtf_yields hx calm c ops fun l _ => by rw [type, kind, ofTy_ofBV]; rfl

/-- PACK gives what each of its lanes comes to. -/
theorem pack_yields {k : PackKind} {out : Nat → List Val} {fl : Nat → BitVec 6}
    (lane : let i := Instr.pack c k ops
      ∀ l ∈ x.active c, packLane k (x.opTy i 0) x.p.mode (x.rounding l) (x.args i l) = .done (out l) (fl l)) :
    x.Yields s (.pack c k ops) out fl :=
  Exe.yields hx calm _ (fun x _ l vs => packLane k (x.opTy (.pack c k ops) 0) x.p.mode (x.rounding l) vs) out fl rfl lane

end

/-- What is made of the values of a lane, operand by operand. -/
theorem map_args {α : Type} (f : Val → α) {vs : List Val} {n : Nat} (count : vs.length = n) :
    vs.map f = (List.range n).map fun j => f (argOf vs j) := by
  refine List.ext_getElem (by simp [count]) fun j inside _ => ?_
  rw [List.length_map] at inside
  simp [argOf, List.getD_eq_getElem?_getD, inside]

/-- A packed value of the operands of a lane, each as a number (R314). -/
theorem packs_args {t : Ty} (f : Val → Nat) {vs : List Val} (count : vs.length = elemCount t) :
    Packs t (fun j => BitVec.ofNat (elemWidth t) (f (argOf vs j))) (ofTy t (ofElems (elemWidth t) (vs.map f))) := by
  rw [map_args f count]
  exact packs_ofElems t _ _ fun _ _ => rfl

/-- A flag is raised by a list if one of its members raises it. -/
theorem foldl_or_bit {α : Type} (f : α → BitVec 6) (b : Nat) : ∀ (vs : List α) (a : BitVec 6),
    (vs.foldl (fun a v => a ||| f v) a).getLsbD b = true ↔ a.getLsbD b = true ∨ ∃ v ∈ vs, (f v).getLsbD b = true
  | [], a => by simp
  | v :: vs, a => by simp [foldl_or_bit f b vs, or_assoc]

/-- Settles O11: each kind by what its lane computes. -/
theorem floatConversions : Obligations.FloatConversions := by
  unfold Obligations.FloatConversions
  intro s x c ops hx calm src one r
  refine ⟨fun d => ?toFloat, ?e8m10, fun n => ?toNarrow, fun n => ?fromNarrow, fun q form => ?integers, fun d signed => ?ofIntegers,
    fun q form => ?casts, fun q form => ?packs, fun q form => ?converts, fun q form => ?element⟩
  case toFloat => exact cvtf_yields hx calm c ops fun l _ => fpOut_quiet ..
  case e8m10 => exact cvtf_yields hx calm c ops fun l _ => rfl
  case toNarrow => exact cvtf_yields hx calm c ops fun l _ => rfl
  case fromNarrow =>
    refine cvtf_yields hx calm c ops fun l _ => (fpOut_quiet ..).trans ?_
    have widens : (fmtOf .f32).holds (fmtNarrow n) = true := by cases n <;> decide
    rw [Rounding.into, widens]
    rfl
  case integers =>
    simp only [List.mem_cons, List.not_mem_nil, or_false] at form
    rcases form with rfl | rfl | rfl | rfl | rfl | rfl <;>
      exact cvtf_integer hx calm c ops (by decide) (by decide) fun _ _ _ _ => rfl
  case ofIntegers => exact cvtf_ofInteger hx calm c ops d signed
  case casts =>
    intro i type
    simp only [List.mem_cons, List.not_mem_nil, or_false] at form
    rcases form with rfl | rfl | rfl | rfl | rfl | rfl | rfl | rfl <;>
      exact cvtf_cast hx calm c ops type fun _ _ _ => rfl
  case packs =>
    intro i count
    refine ⟨fun l => ofTy q.2 (ofElems (elemWidth q.2) ((x.args i l).map Val.num)), pack_yields hx calm c ops fun l _ => ?_,
      fun l acts => packs_args Val.num (count l acts)⟩
    simp only [List.mem_cons, List.not_mem_nil, or_false] at form
    rcases form with rfl | rfl <;> rfl
  case converts =>
    intro i t e count
    let es := fun l => (x.args i l).map fun v => q.2.1.convert (x.rounding l) (fpIn .f32 x.p.mode v.num)
    refine ⟨fun l => ofTy t (ofElems (elemWidth t) ((es l).map Prod.fst)), fun l => (es l).foldl (fun a e => a ||| e.2) 0,
      pack_yields hx calm c ops fun l _ => ?_, fun l acts => ⟨?_, fun b => ?_⟩⟩
    · simp only [List.mem_cons, List.not_mem_nil, or_false] at form
      rcases form with rfl | rfl | rfl | rfl <;> rfl
    · simp only [es, List.map_map]
      exact packs_args _ (count l acts)
    · simp only [es, map_args _ (count l acts), foldl_or_bit Prod.snd]
      simp [e, numOf]
  case element =>
    intro i type
    refine pack_yields hx calm c ops fun l _ => ?_
    simp only [List.mem_cons, List.not_mem_nil, or_false] at form
    rcases form with rfl | rfl <;>
    · rw [type, packLane, ofTy_ofBV]
      exact congrArg (fun v => LaneOut.done [.ofBV v] 0) (ofNat_elem ..)

end Sys2Proof.Machine
end

section
/-! PROOF. LANEMASK, MATCH, SHFL and VOTE (R316 to R318, R321, R322) over the active lanes of the path. -/

namespace Sys2Proof.Machine

section
variable {s : State} {x : Exe} (hx : s.exe? = some x) (calm : x.calm) {i : Instr}
  {f : Exe → List (Nat × List Val) → Nat → List Val → LaneOut} (meaning : exec i s = onPath s fun x => x.lanewise i (f x))
include hx calm meaning

/-- A cross-lane instruction whose lanes give their results and raise no flag. -/
theorem Exe.yields_lanes {out : Nat → List Val}
    (lane : ∀ l ∈ x.active i.ctl, f x (x.allArgs i) l (x.args i l) = .done (out l) 0) : x.Yields s i out fun _ => 0 :=
  Exe.yields hx calm i f out _ meaning lane

/-- An instruction whose lanes each give a mask of lanes. -/
theorem Exe.yields_mask (m : Nat → LaneMask) {p : Nat → Nat → Prop}
    (lane : ∀ l, f x (x.allArgs i) l (x.args i l) = .done [.bits (m l)] 0)
    (bit : ∀ l ∈ x.active i.ctl, ∀ j, j < 64 → ((m l).getLsbD j = true ↔ p l j)) :
    ∃ m : Nat → BitVec 64, x.Yields s i (fun l => [.bits (m l)]) (fun _ => 0) ∧
      ∀ l ∈ x.active i.ctl, ∀ j, j < 64 → ((m l).getLsbD j = true ↔ p l j) :=
  ⟨m, Exe.yields_lanes hx calm meaning fun l _ => lane l, bit⟩

end

/-! MATCH (R321). -/

/-- Every active lane is its own peer. -/
theorem peersOf_self (x : Exe) (i : Instr) {l : Nat} (acts : l ∈ x.active i.ctl) :
    (peersOf (x.allArgs i) (x.args i l)).getLsbD l = true :=
  (peersOf_bit x i _ l).mpr ⟨acts, rfl⟩

/-- The number of the peers of a lane below it. -/
theorem peersBelow_count (x : Exe) (i : Instr) {l : Nat} (acts : l ∈ x.active i.ctl) :
    maskCount (peersOf (x.allArgs i) (x.args i l) &&& lanesBelow l) =
      (x.active i.ctl).countP fun j => decide (argOf (x.args i j) 0 = argOf (x.args i l) 0 ∧ j < l) := by
  let peer := fun j => decide (argOf (x.args i j) 0 = argOf (x.args i l) 0 ∧ j < l)
  have mask : peersOf (x.allArgs i) (x.args i l) &&& lanesBelow l = maskOf ((x.active i.ctl).filter peer) := by
    refine BitVec.eq_of_getLsbD_eq fun j low => ?_
    rw [BitVec.getLsbD_and, getLsbD_lanesBelow (active_lt acts), getLsbD_maskOf, Bool.eq_iff_iff]
    simp only [Bool.and_eq_true, peersOf_bit, List.mem_filter, decide_eq_true_eq, low, true_and, and_assoc, peer]
  rw [mask]
  exact maskCount_filter (x.activeMask i.ctl) peer

/-- The number of the distinct values of the active lanes, each counted at its last lane. -/
theorem distinct_count (x : Exe) (i : Instr) :
    (distinct ((x.allArgs i).map fun q => argOf q.2 0)).length = (x.active i.ctl).countP fun j =>
      (x.active i.ctl).all fun q => decide (j < q → ¬ argOf (x.args i q) 0 = argOf (x.args i j) 0) := by
  have values : (x.allArgs i).map (fun q => argOf q.2 0) = (x.active i.ctl).map fun l => argOf (x.args i l) 0 := by
    simp only [Exe.allArgs, List.map_map, Function.comp_def]
  have sorted : (x.active i.ctl).Pairwise (· < ·) := sorted_lanesOf _
  rw [values, distinct_len _ _ sorted]
  refine List.countP_congr fun j _ => ?_
  simp only [List.all_eq_true, decide_eq_true_eq]
  exact forall₂_congr fun q _ => imp_congr_right fun _ => not_congr eq_comm

/-! SHFL (R317). -/

/-- The lane from which a lane takes a value. -/
theorem shflSource_iff (k : ShflKind) (w l n j : Nat) :
    let base := l / w * w
    shflSource k w l n = some j ↔ match k with
      | .idx => j = base + n % w
      | .up => n < w ∧ base + n ≤ l ∧ j + n = l
      | .down => n < w ∧ l + n < base + w ∧ j = l + n
      | .xor => j = l ^^^ (n % w) := by
  intro base
  cases k with
  | idx => exact Option.some_inj.trans eq_comm
  | up =>
    simp only [shflSource, Option.ite_none_right_eq_some, Option.some.injEq, base]
    omega
  | down =>
    simp only [shflSource, Option.ite_none_right_eq_some, Option.some.injEq, base]
    omega
  | xor => exact Option.some_inj.trans eq_comm

section
variable {x : Exe} {i : Instr} {k : ShflKind} {w l : Nat} {vs : List Val}

/-- A lane whose source is active takes the value of its source. -/
theorem shflLane_active {j : Nat} (acts : j ∈ x.active i.ctl) (source : shflSource k w l (numOf vs 1) = some j) :
    shflLane k w (x.allArgs i) l vs = .done [argOf (x.args i j) 0, .ofBool true] 0 := by
  rw [shflLane, source, Option.bind_some, mget_allArgs, if_pos acts]

/-- A lane without an active source keeps its own value. -/
theorem shflLane_alone (alone : ∀ j ∈ x.active i.ctl, shflSource k w l (numOf vs 1) ≠ some j) :
    shflLane k w (x.allArgs i) l vs = .done [argOf vs 0, .ofBool false] 0 := by
  have none : (shflSource k w l (numOf vs 1)).bind (mget (x.allArgs i)) = none := by
    rw [Option.bind_eq_none_iff]
    intro j source
    rw [mget_allArgs, if_neg fun acts => alone j acts source]
  rw [shflLane, none]

/-- A lane of SHFL gives a result and raises nothing. -/
theorem shflLane_done (all : List (Nat × List Val)) : shflLane k w all l vs = .done (shflLane k w all l vs).res 0 := by
  unfold shflLane
  split <;> rfl

end

/-- SHFL gives each active lane the value of its source, where that is active, and else its own. -/
theorem shfl_yields {s : State} {x : Exe} (hx : s.exe? = some x) (calm : x.calm) {i : Instr} {k : ShflKind} (w : Exe → Nat)
    (meaning : exec i s = onPath s fun x => x.lanewise i (shflLane k (w x))) :
    let source := fun l => shflSource k (w x) l (numOf (x.args i l) 1)
    ∃ out, x.Yields s i out (fun _ => 0) ∧ ∀ l ∈ x.active i.ctl,
      (∀ j ∈ x.active i.ctl, source l = some j → out l = [argOf (x.args i j) 0, .ofBool true]) ∧
      ((∀ j ∈ x.active i.ctl, source l ≠ some j) → out l = [argOf (x.args i l) 0, .ofBool false]) := by
  intro source
  refine ⟨fun l => (shflLane k (w x) (x.allArgs i) l (x.args i l)).res, Exe.yields_lanes hx calm meaning fun _ _ => shflLane_done _,
    fun l _ => ⟨fun j acts found => ?_, fun alone => ?_⟩⟩
  · exact congrArg LaneOut.res (shflLane_active acts found)
  · exact congrArg LaneOut.res (shflLane_alone alone)

/-! VOTE (R318). -/

section
variable (x : Exe) (i : Instr)

/-- The lanes in which the predicate holds are all of the active ones. -/
theorem trueLanes_all : (trueLanes (x.allArgs i) == maskOf ((x.allArgs i).map Prod.fst)) =
    (x.active i.ctl).all fun l => (argOf (x.args i l) 0).isTrue := by
  rw [trueLanes_eq, lanes_allMask]
  exact maskOf_filter_all (x.activeMask i.ctl) _

/-- The predicate holds in none of the active lanes. -/
theorem trueLanes_none : (trueLanes (x.allArgs i) == 0) = !(x.active i.ctl).any fun l => (argOf (x.args i l) 0).isTrue := by
  rw [trueLanes_eq]
  exact maskOf_filter_none (x.activeMask i.ctl) _

theorem voteOf_all : voteOf .all (x.allArgs i) = .ofBool ((x.active i.ctl).all fun l => (argOf (x.args i l) 0).isTrue) :=
  congrArg Val.ofBool (trueLanes_all x i)

theorem voteOf_any : voteOf .any (x.allArgs i) = .ofBool ((x.active i.ctl).any fun l => (argOf (x.args i l) 0).isTrue) :=
  congrArg Val.ofBool ((congrArg not (trueLanes_none x i)).trans (Bool.not_not _))

theorem voteOf_eq : voteOf .eq (x.allArgs i) = .ofBool (((x.active i.ctl).all fun l => (argOf (x.args i l) 0).isTrue) ||
    !(x.active i.ctl).any fun l => (argOf (x.args i l) 0).isTrue) :=
  congrArg Val.ofBool (congrArg₂ or (trueLanes_all x i) (trueLanes_none x i))

theorem voteOf_mask : ∃ m : BitVec 64, voteOf .mask (x.allArgs i) = .bits m ∧
    ∀ j, m.getLsbD j = true ↔ j ∈ x.active i.ctl ∧ (argOf (x.args i j) 0).isTrue = true := by
  refine ⟨_, rfl, fun j => ?_⟩
  rw [trueLanes_eq, getLsbD_maskOf, decide_eq_true_eq, List.mem_filter]
  exact and_iff_right_of_imp fun h => active_lt h.1

theorem voteOf_count : voteOf .count (x.allArgs i) =
    .ofBV (BitVec.ofNat 32 ((x.active i.ctl).countP fun l => (argOf (x.args i l) 0).isTrue)) := by
  rw [← ofTy_i32, voteOf, trueLanes_eq]
  exact congrArg (ofTy .i32) (maskCount_filter (x.activeMask i.ctl) _)

end

/-- Settles O14: a mask bit by bit, SHFL by its source, and VOTE by the mask of the lanes in which it holds. -/
theorem laneMasksShufflesAndVotes : Obligations.LaneMasksShufflesAndVotes := by
  unfold Obligations.LaneMasksShufflesAndVotes
  refine ⟨?masks, ?moves⟩
  case masks =>
    intro s x c ops hx calm bits peer
    refine ⟨?own, ?before, ?after, ?seg, ?width, ?act, ?peers, ?lead, ?rank, ?groups⟩
    case own =>
      refine Exe.yields_mask hx calm (i := .lanemaskOwn c ops) rfl _ (fun _ => rfl) fun l acts j low => ?_
      rw [getLsbD_one_shl, decide_eq_true_eq, and_iff_right low]
    case before =>
      refine Exe.yields_mask hx calm (i := .lanemaskBefore c ops) rfl _ (fun _ => rfl) fun l acts j low => ?_
      rw [BitVec.getLsbD_and, getLsbD_lanesBelow (active_lt acts), Bool.and_eq_true, ← mem_active_iff, decide_eq_true_eq]
    case after =>
      refine Exe.yields_mask hx calm (i := .lanemaskAfter c ops) rfl _ (fun _ => rfl) fun l acts j low => ?_
      rw [BitVec.getLsbD_and, BitVec.getLsbD_not, BitVec.getLsbD_or, getLsbD_lanesBelow (active_lt acts), getLsbD_one_shl,
        Bool.and_eq_true, ← mem_active_iff]
      simp only [low, decide_true, Bool.true_and, true_and, Bool.not_eq_true', Bool.or_eq_false_iff, decide_eq_false_iff_not]
      exact and_congr_right fun _ => by omega
    case seg =>
      intro i width
      refine Exe.yields_mask hx calm (i := i) rfl (fun l => widthMask (numOf (x.args i l) 0) <<< (l / numOf (x.args i l) 0 * numOf (x.args i l) 0))
        (fun _ => rfl) fun l acts j low => ?_
      rw [BitVec.getLsbD_shiftLeft, getLsbD_widthMask]
      simp only [Bool.and_eq_true, Bool.not_eq_true', decide_eq_true_eq, decide_eq_false_iff_not]
      omega
    case width =>
      intro narrow
      refine Exe.yields_mask hx calm (i := .lanemaskWidth c ops) rfl _ (fun _ => rfl) fun l acts j low => ?_
      rw [getLsbD_widthMask, decide_eq_true_eq, and_iff_right low]
    case act => exact Exe.yields_mask hx calm (i := .lanemaskAct c ops) rfl _ (fun _ => rfl) fun l acts j low => mem_active_iff.symm
    case peers =>
      let i := Instr.matchLanes c .peers ops
      exact Exe.yields_mask hx calm (f := fun _ => matchLane .peers) (i := i) rfl (fun l => peersOf (x.allArgs i) (x.args i l))
        (fun _ => rfl) fun l _ j _ => peersOf_bit x i (x.args i l) j
    case lead =>
      let i := Instr.matchLanes c .lead ops
      refine ⟨fun l => leastLane (peersOf (x.allArgs i) (x.args i l)),
        Exe.yields_lanes hx calm (i := i) (f := fun _ => matchLane .lead) rfl fun l _ => ?_, fun l acts => ?_⟩
      · rw [← ofTy_i32]
        rfl
      · have peers := peersOf_bit x i (x.args i l)
        obtain ⟨own, least⟩ := leastLane_spec (peersOf_self x i acts)
        obtain ⟨leads, same⟩ := (peers _).mp own
        exact ⟨leads, same, fun j other equal => least j ((peers j).mpr ⟨other, equal⟩)⟩
    case rank =>
      refine Exe.yields_lanes hx calm (i := .matchLanes c .rank ops) (f := fun _ => matchLane .rank) rfl fun l acts => ?_
      rw [matchLane, peersBelow_count x _ acts, ofTy_i32]
      rfl
    case groups =>
      refine Exe.yields_lanes hx calm (i := .matchLanes c .groups ops) (f := fun _ => matchLane .groups) rfl fun l acts => ?_
      rw [matchLane, distinct_count, ofTy_i32]
      rfl
  case moves =>
    intro s x c ops hx calm
    refine ⟨fun k => ?shfl, ?vote⟩
    case shfl =>
      intro i w n base source
      have found : ∀ l j, shflSource k w l (n l) = some j ↔ source l j := fun l j => shflSource_iff k w l (n l) j
      obtain ⟨out, yields, lanes⟩ := shfl_yields hx calm (i := i)
        (fun x => if (x.plan i).own.length = 3 then numOf (x.onceVals i) 2 else x.g.width) rfl
      exact ⟨out, yields, fun l acts => ⟨fun j other is => (lanes l acts).1 j other ((found l j).mpr is),
        fun alone => (lanes l acts).2 fun j other is => alone j other ((found l j).mp is)⟩⟩
    case vote =>
      intro p yields
      have votes : ∀ k v, voteOf k (x.allArgs (.vote c k ops)) = v → yields k v := fun k v vote =>
        Exe.yields_lanes hx calm (i := .vote c k ops) (f := fun _ all _ _ => .done [voteOf k all] 0) rfl fun _ _ => by rw [vote]
      obtain ⟨m, mask, bit⟩ := voteOf_mask x (.vote c .mask ops)
      exact ⟨votes .all _ (voteOf_all ..), votes .any _ (voteOf_any ..), ⟨m, votes .mask _ mask, bit⟩, votes .eq _ (voteOf_eq ..),
        votes .count _ (voteOf_count ..)⟩

end Sys2Proof.Machine
end

section
/-! PROOF. SCAN gives its running value to the lanes outside of its path too (R316, R319): they are inactive to it, and an inactive lane
of a scan is never poison. -/

namespace Sys2Proof.Machine

/-- Lane 0 executes on path 0, with the value 5 under id 7; lane 1 stands in the same call on path 1. -/
def twoPaths : State :=
  { State.reset with
    cur := some (0, 0)
    groups := [(0, ⟨0, 0, 0, 0, 16, [(0, ⟨[⟨0, 0, 0, [(7, .bits 5)], []⟩], none⟩), (1, ⟨[⟨0, 0, 0, [], []⟩], none⟩)], 0xFFFC,
      ⟨[(0, Path.start 0 1 modeReset [] none .core), (1, Path.start 8 2 modeReset [] none .core)], [], [], [], []⟩,
      none, 0xFFFF, 0x7FFE, 0, 2, false, false⟩)] }

/-- Refutes O15: an inclusive sum on path 0 defines 5 in lane 1, as R319 has it, where the completion that the statement asks for
leaves lane 1 as an instruction without a result for it does: poison (`Exe.Completes.outside`). -/
theorem not_scanAndReduce : ¬ Obligations.ScanAndReduce := by
  unfold Obligations.ScanAndReduce
  intro holds
  let c : Ctl := ⟨false, 1, 0, 0⟩
  let ops : List Opnd := [.val false false 7]
  let i := Instr.scan c .add false ops
  obtain ⟨runs, -, -⟩ := holds twoPaths (twoPaths.exe?.get rfl) c .add ops rfl rfl (by decide)
  obtain ⟨acc, fl, u, -, -, -, -, step, completes⟩ := runs i (by decide)
  have idle : (u.group 0).lane 1 = _ := completes.outside 1 (by decide)
  have taken : (u.group 0).lane 1 = ⟨[⟨0, 0, 0, [(0, .bits 5)], []⟩], none⟩ := by
    cases step
    decide
  rw [taken] at idle
  exact absurd idle (by decide)

end Sys2Proof.Machine
end

section
/-! PROOF. Custom-0 instructions outside of their mode: the exception that they take (R387). -/

namespace Sys2Proof.Machine

/-- An instruction of the operating system in another mode, or inside of an enclave, takes its exception (R387). -/
theorem asOs_illegal {s : State} {p : Nat} (free : s.HartFree p)
    (elsewhere : ¬ ((s.hart s.curHart).inside = none ∧ (s.hart s.curHart).mode = .hs)) (k : Nat → Nat → Hart → State) :
    asOs s k = .next ((s.hartIllegal s.curHart).served s.curHart) :=
  (onHart_free free _).trans (congrArg (fun u : State => Host.Outcome.next (u.served s.curHart)) (if_neg elsewhere))

/-- An instruction of an enclave's thread outside of any enclave takes its exception (R387). -/
theorem asThread_illegal {s : State} {p : Nat} (free : s.HartFree p) (outside : (s.hart s.curHart).inside = none)
    (k : Nat → Nat → Hart → Inside → State) : asThread s k = .next ((s.hartIllegal s.curHart).served s.curHart) := by
  refine (onHart_free free _).trans (congrArg (fun u : State => Host.Outcome.next (u.served s.curHart)) ?_)
  rw [outside]

/-- The exception of R387 is no interrupt, so that its handler's address is not vectored. -/
theorem illegalCause_exception (vs : Prop) [Decidable vs] : (if vs then 22 else 2 : BitVec 64).getLsbD 63 = false := by
  split <;> decide

/-- An exception taken by a general core that waits for nothing leaves its waiting alone. -/
theorem Hart.take_ready {x : Hart} (ready : x.wait = .nothing) (c pc : BitVec 64) (exception : c.getLsbD 63 = false) :
    x.take c 0 pc = { x with
      sepc := pc, scause := c, stval := 0
      spp := x.mode == .hs || x.mode == .vs, spv := x.mode == .vs || x.mode == .vu, spie := x.sie, sie := false, mode := .hs, answer := none
      pc := x.stvec &&& ~~~3#64 } := by
  simp only [take_quiet x c pc exception, ready]

/-- Outside of any enclave an exception is taken at once. -/
theorem State.hartTrap_outside {s : State} {h : Nat} (outside : (s.hart h).inside = none) (cause tval : BitVec 64) :
    s.hartTrap h cause tval = { s.setHart h ((s.hart h).take cause tval (s.hart h).pc) with
      requests := s.requests.filter (· != h), poolWaits := s.poolWaits.filter (· != h)
      far := s.far.filter fun q => q.2.who != .hart h } := by
  unfold State.hartTrap
  dsimp only
  rw [outside]

/-- What the illegal-instruction exception leaves outside of any enclave: the general core at its handler, which waits for nothing
any more. -/
theorem State.hartIllegal_outside {s : State} {h : Nat} (outside : (s.hart h).inside = none) (ready : (s.hart h).wait = .nothing) :
    let x := s.hart h
    let u := s.setHart h { x with
      sepc := x.pc, scause := if x.mode = .vs ∨ x.mode = .vu then 22 else 2, stval := 0
      spp := x.mode == .hs || x.mode == .vs, spv := x.mode == .vs || x.mode == .vu, spie := x.sie, sie := false, mode := .hs
      pc := x.stvec &&& ~~~3#64, answer := none }
    s.hartIllegal h = { u with
      requests := u.requests.filter (· != h), poolWaits := u.poolWaits.filter (· != h)
      far := u.far.filter fun q => q.2.who != .hart h } := by
  unfold State.hartIllegal
  rw [State.hartTrap_outside outside, Hart.take_ready ready _ _ (illegalCause_exception _)]
  rfl

/-- A general core that waits for no request and no frame has nothing left for the root of trust to serve. -/
theorem State.served_idle {s : State} {h : Nat} (requests : h ∉ s.requests) (waits : h ∉ s.poolWaits) : s.served h = s := by
  have unlisted : ∀ l : List Nat, h ∉ l → l.filter (· != h) = l := fun l absent =>
    List.filter_eq_self.mpr fun g mem => bne_iff_ne.mpr fun same => absent (same ▸ mem)
  unfold State.served
  rw [unlisted _ requests, unlisted _ waits, ite_self]

/-- An exception inside of an enclave takes the thread out of it first, and is then taken at its ENC.ENTER (R387, R390). -/
theorem State.hartIllegal_inside {s : State} {h : Nat} {n : Inside} (inside : (s.hart h).inside = some n) :
    let x := ((s.hartIllegal h).served h).hart h
    x.inside = none ∧ x.sepc = n.enter ∧ x.regs = n.outer ∧ x.pc = (s.hart h).stvec &&& ~~~3#64 := by
  have taken : ((s.hartIllegal h).served h).hart h = ((s.leave h n (s.hart h).pc).hart h).take
      (if (s.hart h).mode = .vs ∨ (s.hart h).mode = .vu then 22 else 2) 0 ((s.leave h n (s.hart h).pc).hart h).pc := by
    unfold State.hartIllegal State.hartTrap
    dsimp only
    rw [inside]
    exact hart_setHart ..
  intro x
  rw [show x = _ from taken, take_quiet _ _ _ (illegalCause_exception _), State.leave_hart]
  exact ⟨rfl, rfl, rfl, rfl⟩

section
variable {s : State} {p : Nat} (free : s.HartFree p) (rd rs1 rs2 : BitVec 5)
include free

/-- The instructions of the operating system check their mode first (R387). -/
theorem exec_os_illegal (elsewhere : ¬ ((s.hart s.curHart).inside = none ∧ (s.hart s.curHart).mode = .hs)) :
    ∀ i ∈ [Instr.encCreate rd rs1 rs2, .encAddpage rd rs1 rs2, .encMeasure rd rs1, .encEnter rd rs1, .encDestroy rd rs1,
      .pageOut rd rs1 rs2, .pageInClean rd rs1 rs2, .pageInImage rd rs1 rs2, .pageInShare rd rs1, .pageFree rd rs1, .faultResolve rd rs1,
      .faultKill rd rs1 rs2], exec i s = .next ((s.hartIllegal s.curHart).served s.curHart) := by
  have illegal := asOs_illegal free elsewhere
  simp only [List.forall_mem_cons]
  exact ⟨show execEncCreate rd rs1 rs2 s = _ from illegal _,
    show execEncAddpage rd rs1 rs2 s = _ from illegal _,
    show execEncMeasure rd rs1 s = _ from illegal _,
    show execEncEnter rd rs1 s = _ from illegal _,
    show execEncDestroy rd rs1 s = _ from illegal _,
    show execPageOut rd rs1 rs2 s = _ from illegal _,
    show execPageInClean rd rs1 rs2 s = _ from illegal _,
    show execPageInImage rd rs1 rs2 s = _ from illegal _,
    show execPageInShare rd rs1 s = _ from illegal _,
    show execPageFree rd rs1 s = _ from illegal _,
    show execFaultResolve rd rs1 s = _ from illegal _,
    show execFaultKill rd rs1 rs2 s = _ from illegal _, List.forall_mem_nil _⟩

/-- ENC.EXIT, ENC.REPORT and ENC.XCTL check first that a thread executes them (R387). -/
theorem exec_thread_illegal (outside : (s.hart s.curHart).inside = none) :
    ∀ i ∈ [Instr.encExit rd rs1, .encReport rd rs1 rs2, .encReportRk rd rs1 rs2, .encXctlInv rd rs1 rs2, .encXctlPfCore rd rs1 rs2,
      .encXctlPfHall rd rs1 rs2, .encXctlPinCore rd rs1 rs2, .encXctlPinHall rd rs1 rs2, .encXctlUnpinCore rd rs1 rs2,
      .encXctlUnpinHall rd rs1 rs2], exec i s = .next ((s.hartIllegal s.curHart).served s.curHart) := by
  have illegal := asThread_illegal free outside
  have reports : ∀ rekey, report rekey rd rs1 rs2 s = _ := fun _ => illegal _
  have xctl : ∀ form, encXctl form rd rs1 rs2 s = _ := fun _ => illegal _
  simp only [List.forall_mem_cons]
  exact ⟨show execEncExit rd rs1 s = _ from illegal _, reports false, reports true, xctl .inv, xctl .pf, xctl .pf,
    xctl (.pin false), xctl (.pin true), xctl (.unpin false), xctl (.unpin true), List.forall_mem_nil _⟩

end

/-- Settles O48: outside of its mode an instruction does nothing but take its exception, which is what the lemmas above say of one
outside of any enclave and of one inside. -/
theorem customInstructionModes : Obligations.CustomInstructionModes := by
  unfold Obligations.CustomInstructionModes
  intro s p rd rs1 rs2 free
  dsimp only
  refine ⟨fun i wrong outside => ?_, fun i os n inside => ?_⟩
  · have illegal : exec i s = .next ((s.hartIllegal s.curHart).served s.curHart) := by
      rcases wrong with thread | ⟨os, mode⟩
      · exact exec_thread_illegal free rd rs1 rs2 outside i thread
      · exact exec_os_illegal free rd rs1 rs2 (fun system => mode system.2) i os
    rw [illegal, State.hartIllegal_outside outside free.ready, State.served_idle] <;> simp
  · have elsewhere : ¬ ((s.hart s.curHart).inside = none ∧ (s.hart s.curHart).mode = .hs) := fun system =>
      Option.some_ne_none n (inside.symm.trans system.1)
    exact ⟨_, exec_os_illegal free rd rs1 rs2 elsewhere i os, State.hartIllegal_inside inside⟩

end Sys2Proof.Machine
end

section
/-! PROOF. The values of the matrix engine: format blocks, tensor maps, cohorts, fresh tiles and unfolding maps (R345, R357 to R359, R361,
R369). -/

namespace Sys2Proof.Machine

/-! Format blocks (R357, R358). -/

/-- A format block that passes its checks is the value; one that fails them traps. -/
theorem Exe.defineBlock_cases {s : State} {x : Exe} {i : Instr} {b : List Byte} (step : exec i s = .next (x.defineBlock i b)) :
    (fbOk b = true → x.Gives s i x.s [.fmtb b]) ∧ (fbOk b = false → x.Raises s i trapHandle (x.active i.ctl)) :=
  ⟨fun good => completes_of (x := x) i _ _ (next_of_pos step good), fun bad => next_of_neg step (not_true_eq bad)⟩

/-- FMTB_SC replaces the two scale addresses of the entry (R358). -/
theorem putBytes_scales {entry : List Byte} (whole : entry.length = 32) (a b : Nat) :
    putBytes entry 8 (leBytes 4 a ++ leBytes 4 b) = entry.take 8 ++ leBytes 4 a ++ leBytes 4 b ++ entry.drop 16 := by
  have scales : (leBytes 4 a ++ leBytes 4 b).length = 8 := by simp [leBytes]
  rw [putBytes_mid _ _ _ (by omega), scales, ← List.append_assoc]

section
variable {s : State} {x : Exe} (hx : s.exe? = some x) (calm : x.calm) (c : Ctl) (ops : List Opnd)
include hx calm

/-- FMTB_SP takes its block from the scratchpad, once the block's checks and the alignment pass (R358). -/
theorem exec_fmtbSp_cases :
    let i := Instr.fmtbSp c ops
    let a := (argOf (x.onceVals i) 0).num
    (x.s.spadAt x.g.team a 32 = none → x.Raises s i 9 (x.active c)) ∧
    (∀ u o, x.s.spadAt x.g.team a 32 = some (u, o) →
      let b := readBytes (x.s.team u).spad o 32
      (fbOk b = true ∧ a % 32 ≠ 0 → x.Raises s i 0x0B (x.active c)) ∧
      (¬ (fbOk b = true ∧ a % 32 ≠ 0) → exec i s = .next (x.defineBlock i b))) := by
  intro i a
  have step : exec i s = .next _ := exec_once hx calm rfl
  refine ⟨fun outside => ?_, fun u o inside => ?_⟩
  · rw [show x.s.spadAt x.g.team (numOf (x.onceVals i) 0) 32 = _ from outside] at step
    exact step
  · rw [show x.s.spadAt x.g.team (numOf (x.onceVals i) 0) 32 = _ from inside] at step
    have check : (fbOk (x.s.spadRead u o 32) && a % 32 != 0) = true ↔
        fbOk (readBytes (x.s.team u).spad o 32) = true ∧ a % 32 ≠ 0 := by
      rw [Bool.and_eq_true, bne_iff_ne, spadRead_eq]
    exact ⟨fun odd => next_of_pos step (check.mpr odd), fun even => next_of_neg step fun odd => even (check.mp odd)⟩

/-! Cohorts (R359). -/

variable (core : x.p.place = .core)
include core

/-- COHORT by the check of its operands: the path holds every live lane, and the place lies in the cohort. -/
theorem exec_cohort_cases :
    let i := Instr.cohort c ops
    let v := fun k => (argOf (x.onceVals i) k).num
    let ok := x.holdsAll = true ∧ v 0 ≤ 7 ∧ 1 ≤ v 1 ∧ v 1 ≤ 6 ∧ v 2 < v 1
    (¬ ok → x.Raises s i trapHandle (x.active c)) ∧
    (ok → exec i s = .next (x.complete i
      { x.write i [] with cohort := BitVec.ofNat 32 (v 0 * 512 + v 1 * 64 + v 2 * 8 + 1) }
      (x.flagged (flagIf (x.oncePoison i) flagPO)))) := by
  intro i v ok
  have step : exec i s = .next _ :=
    (onPath_next hx _).trans (congrArg _ ((Exe.onCore_core core i _).trans (Exe.once_calm calm i _)))
  have check : (x.holdsAll = false ∨ 7 < v 0 ∨ v 1 < 1 ∨ 6 < v 1 ∨ v 1 ≤ v 2) ↔ ¬ ok := by
    simp only [ok, not_and_or, Bool.not_eq_true, not_le, not_lt]
  exact ⟨fun bad => next_of_pos step (check.mpr bad), fun good => next_of_neg step fun bad => check.mp bad good⟩

omit calm in
/-- COHORT_CLEAR by whether the path holds every live lane. -/
theorem exec_cohortClear_cases :
    let i := Instr.cohortClear c ops
    (x.holdsAll = false → x.Raises s i trapHandle (x.active c)) ∧
    (x.holdsAll = true → exec i s = .next (x.complete i { x.write i [] with cohort := x.g.cohort &&& ~~~1#32 } x.p.mode)) := by
  intro i
  have step : exec i s = .next _ := (onPath_next hx _).trans (congrArg _ (Exe.onCore_core core i _))
  refine ⟨fun some => next_of_pos step some, fun all => ?_⟩
  rw [← write_same x i rfl]
  exact next_of_neg step (not_true_true all)

end

/-- What COHORT_CLEAR leaves of the cohort word: all but its valid bit. -/
theorem cohort_cleared (w : BitVec 32) :
    (w &&& ~~~1#32).getLsbD 0 = false ∧ (w &&& ~~~1#32).extractLsb' 1 31 = w.extractLsb' 1 31 := by
  have kept : ∀ k, k < 31 → (~~~1#32).getLsbD (1 + k) = true := by decide
  refine ⟨by simp, BitVec.eq_of_getLsbD_eq fun k low => ?_⟩
  rw [BitVec.getLsbD_extractLsb', BitVec.getLsbD_extractLsb', BitVec.getLsbD_and, kept k low, Bool.and_true]

/-! Tensor maps (R345). -/

/-- A descriptor that passes its checks is the value, over whatever state its read has left; one that fails them traps. -/
theorem Exe.giveMap_cases {s : State} {x : Exe} {i : Instr} {d : Desc} {u : State}
    (step : exec i s = .next (if tmOk d then (x.upon u).commitAll i [.tmap d none] (x.onceFlags i)
      else (x.upon u).trap i trapHandle (x.active i.ctl) 0)) :
    (tmOk d = true → x.Gives s i u [.tmap d none]) ∧
      (tmOk d = false → Exe.Raises { x with s := u } s i trapHandle (x.active i.ctl)) :=
  ⟨fun good => Exe.gives_of_commitAll (next_of_pos step good), fun bad => next_of_neg step (not_true_eq bad)⟩

/-- TMAP of a descriptor in the scratchpad, by whether an allocation contains it. -/
theorem exec_tmapSp_cases {s : State} {x : Exe} (hx : s.exe? = some x) (calm : x.calm) (c : Ctl) (ops : List Opnd)
    (acts : x.active c ≠ []) :
    let i := Instr.tmap c true ops
    let a := (argOf (x.onceVals i) 0).toBits.toNat
    (x.s.spadAt x.g.team a 128 = none → x.Raises s i 9 (x.active c)) ∧
    (∀ u o, x.s.spadAt x.g.team a 128 = some (u, o) →
      let d := x.s.spadRead u o 128
      exec i s = .next (if a % 64 ≠ 0 then x.trap i 0x0B (x.active c) 0
        else if tmOk d then (x.upon x.s).commitAll i [.tmap d none] (x.onceFlags i)
        else (x.upon x.s).trap i trapHandle (x.active c) 0)) := by
  intro i a
  have step := tmap_eq hx calm c true ops acts
  dsimp only at step
  refine ⟨fun outside => ?_, fun u o inside => ?_⟩
  · rw [show x.s.spadAt x.g.team (argOf (x.onceVals i) 0).toBits.toNat 128 = _ from outside] at step
    exact step
  · rw [show x.s.spadAt x.g.team (argOf (x.onceVals i) 0).toBits.toNat 128 = _ from inside] at step
    exact step

/-! Unfolding maps (R369). -/

/-- A field of a number is 0 where the same bits of its bit vector are. -/
theorem bitsOf_eq_zero_iff {w : Nat} (v : BitVec w) (hi lo n : Nat) (width : hi + 1 - lo = n) :
    bitsOf v.toNat hi lo = 0 ↔ v.extractLsb' lo n = 0 := by
  subst width
  rw [← BitVec.toNat_inj, BitVec.extractLsb'_toNat, Nat.shiftRight_eq_div_pow]
  rfl

/-- UNFOLD by its map and the check of the map and its geometry. -/
theorem exec_unfold_cases {s : State} {x : Exe} (hx : s.exe? = some x) (calm : x.calm) (c : Ctl) (ops : List Opnd) :
    let i := Instr.unfold c ops
    let g := (argOf (x.onceVals i) 1).toBits
    let o := (argOf (x.onceVals i) 2).toBits.setWidth 32
    let ok := fun d => tmNdim d = 3 ∧ tmFmt d ≤ 10 ∧ tmFill d ≤ 1 ∧ g.extractLsb' 40 24 = 0 ∧ o.extractLsb' 0 16 ≠ 0 ∧
      o.extractLsb' 16 16 ≠ 0
    (∀ d, (argOf (x.onceVals i) 0).desc false = some d → ok d → x.Gives s i x.s [.tmap d (some (g, o))]) ∧
    ((∀ d, (argOf (x.onceVals i) 0).desc false = some d → ¬ ok d) → x.Raises s i trapHandle (x.active c)) := by
  intro i g o ok
  have step : exec i s = .next _ := exec_once hx calm rfl
  have check : ∀ d, (tmNdim d == 3 && decide (tmFmt d ≤ 10) && decide (tmFill d ≤ 1) && bitsOf g.toNat 63 40 == 0 &&
      bitsOf o.toNat 15 0 != 0 && bitsOf o.toNat 31 16 != 0) = true ↔ ok d := fun d => by
    simp only [Bool.and_eq_true, beq_iff_eq, bne_iff_ne, decide_eq_true_eq, ne_eq, bitsOf_eq_zero_iff g 63 40 24 rfl,
      bitsOf_eq_zero_iff o 15 0 16 rfl, bitsOf_eq_zero_iff o 31 16 16 rfl, and_assoc, ok]
  cases map : (argOf (x.onceVals i) 0).desc false with
  | none =>
    rw [map] at step
    exact ⟨nofun, fun _ => step⟩
  | some d =>
    rw [map] at step
    refine ⟨fun d' same good => ?_, fun bad => next_of_neg step fun good => bad d rfl ((check d).mp good)⟩
    cases same
    exact completes_of (x := x) i _ _ (next_of_pos step ((check d).mpr good))

/-- Settles O33: each instruction by its checks in order, and the value that it defines past them. -/
theorem matrixValues : Obligations.MatrixValues := by
  unfold Obligations.MatrixValues
  intro s x c ops hx calm core acts v goes raises block entry sets
  refine ⟨?fmtb, ?scales, ?spad, fun sp => ?tmap, ?cohort, ?clear, fun int => ?zero, ?unfolds⟩
  case fmtb => exact Exe.defineBlock_cases (onPath_next hx _)
  case scales =>
    intro i whole
    have step : exec i s = .next _ := exec_once hx calm rfl
    rw [putBytes_scales whole] at step
    exact Exe.defineBlock_cases step
  case spad =>
    intro i
    obtain ⟨outside, inside⟩ := exec_fmtbSp_cases hx calm c ops
    split
    · next none => exact outside none
    · next u o some =>
      obtain ⟨odd, even⟩ := inside u o some
      intro b
      split
      · next bad => exact odd bad
      · next good => exact Exe.defineBlock_cases (even good)
  case tmap =>
    intro i a gives
    obtain ⟨outside, within⟩ := exec_tmapSp_cases hx calm c ops acts
    refine ⟨fun spad none => ?_, fun odd inside => ?_, fun u o spad even some => ?_, fun p ps far even located here => ?_⟩
    · subst spad
      exact outside none
    · cases sp with
      | false => exact next_of_pos (tmap_eq hx calm c false ops acts) odd
      | true =>
        obtain ⟨⟨u, o⟩, some⟩ := Option.isSome_iff_exists.mp (inside rfl)
        exact next_of_pos (within u o some) odd
    · subst spad
      exact Exe.giveMap_cases (next_of_neg (within u o some) (not_not_intro even))
    · subst far
      have step := next_of_neg (tmap_eq hx calm c false ops acts) (not_not_intro even)
      rw [plainRead_ok _ _ _ _ _ _ _ located here, (x.touchAll_only 0 false x.s ps).eq] at step
      exact ⟨_, Exe.giveMap_cases step⟩
  case cohort =>
    intro i ok
    obtain ⟨bad, good⟩ := exec_cohort_cases hx calm c ops core
    refine ⟨bad, fun holds => ?_⟩
    have step := good holds
    obtain ⟨-, l, -, n, p⟩ := holds
    obtain ⟨w, word, fields⟩ := words_fields _ _ _ l n p
    rw [← word] at step
    exact ⟨w, ⟨_, step, complete_cohort x i rfl w _⟩, fields⟩
  case clear =>
    intro i
    obtain ⟨bad, good⟩ := exec_cohortClear_cases hx c ops core
    obtain ⟨invalid, rest⟩ := cohort_cleared x.g.cohort
    exact ⟨bad, fun all => ⟨_, invalid, rest, _, good all, complete_cohort x i rfl _ _⟩⟩
  case zero =>
    intro i
    have ctl : i.ctl = c := by cases int <;> rfl
    have step : exec i s = .next (x.withTiles i 1 int [] fun y ts => y.commitAll i [.acc (ts.headD 0) none] 0) := by
      cases int <;> exact (onPath_next hx _).trans (congrArg _ (Exe.onCore_core core _ _))
    rw [withTiles_eq, ctl] at step
    cases taken : x.s.takeTiles x.g.team 1 int [] with
    | taken u ts =>
      rw [taken] at step
      obtain ⟨k, rfl, small, free, held⟩ := taken_one taken
      exact ⟨k, rfl, small, free, held, completes_of (x := x.upon u) i _ _ step⟩
    | wait =>
      rw [taken] at step
      exact step
    | full =>
      rw [taken] at step
      exact step
  case unfolds => exact exec_unfold_cases hx calm c ops

end Sys2Proof.Machine
end

section
/-! PROOF. TRET and TRET.SKIP: the last lanes leave a handler, and the frozen path state returns (R194, R377, R406). -/

namespace Sys2Proof.Machine

/-! Leaving a handler. -/

theorem Ctx.without_meets {c : Ctx} (meets : c.meets = []) (barm : c.barm = []) (lanes : LaneMask) :
    (c.without lanes).meets = [] ∧ (c.without lanes).barm = [] := by
  rw [Ctx.without_unmet meets barm]
  exact ⟨rfl, rfl⟩

/-- The handler context when lanes have left it, by TRET or TRET.SKIP. -/
def Handler.left (h : Handler) (m : LaneMask) (skip : Bool) (mode : BitVec 64) : Handler :=
  { h with mode := mode, trets := if skip then h.trets else h.trets ||| m, skips := if skip then h.skips ||| m else h.skips }

/-- The frozen path state as it returns, before the lanes that skip part (R377, R406). -/
def Handler.thawed (h : Handler) (exited : LaneMask) : Ctx :=
  Ctx.without (if h.code = 6 then h.frozen else { h.frozen with
    paths := mupd h.frozen.paths h.path fun p => { p with mode := h.mode }
    stack := h.frozen.stack.map fun e => if e.holds h.lanes then { e with mode := h.mode } else e }) (h.lanes &&& exited)

/-- Where the lanes go on that left the handler, those of `skips` behind the trapping instruction. -/
def Handler.resumed (h : Handler) (exited : LaneMask) (next : BitVec 48) (fresh : Nat) : Option Ctx :=
  (if h.code = 6 then backToJoin else partSkips) h next fresh (h.skips &&& ~~~(h.lanes &&& exited)) (h.thawed exited)

/-- The group back outside of its handler, in a path state and what follows from it. -/
def Exe.back (x : Exe) (c : Ctx) : Group :=
  { x.g with ctx := x.s.follows { x.g with ctx := c, handler := none }, handler := none, fresh := x.g.fresh + 1 }

/-- The group in its handler, its path state empty of the lanes that have left, and its lanes perhaps changed. -/
def Exe.emptied (x : Exe) (lanes : List (Nat × Lane)) (h : Handler) : Group :=
  let g : Group := { x.g with lanes := lanes, ctx := x.g.ctx.without x.p.mask, handler := some h }
  { g with ctx := x.s.follows g }

section
variable {x : Exe} {h : Handler} (inside : x.g.handler = some h) (lanes : List (Nat × Lane)) (skip : Bool) (mode : BitVec 64)
include inside

/-- The lanes of the path leave the handler: what remains in it settles, and then its end may follow. -/
theorem Exe.leaveAs_eq : x.leaveAs { x.g with lanes := lanes } skip mode =
    State.afterLeave ((x.put (x.emptied lanes (h.left x.p.mask skip mode))).bump x.eid 4 x.team.core 1) x.gid := by
  let g : Group := { x.g with lanes := lanes, ctx := x.g.ctx.without x.p.mask, handler := some (h.left x.p.mask skip mode) }
  have settle := ((x.put g).settleGroup_sampled x.gid).2
  rw [show (x.put g).group x.gid = g from State.group_setGroup ..] at settle
  have settled : (x.put g).settleGroup x.gid = x.put (x.emptied lanes (h.left x.p.mask skip mode)) :=
    (settle (Option.some_ne_none _)).trans (setGroup_setGroup ..)
  unfold Exe.leaveAs
  dsimp only
  rw [inside]
  exact congrArg (fun t => State.afterLeave (x.count t 1) x.gid) settled

/-- The last lanes leave a handler (R377, R406): the lanes drop its frame, and the group goes on in the path state that returns. -/
theorem Exe.leaveAs_last {tr : Machine.Trans} {c : Ctx} (meets : x.g.ctx.meets = []) (barm : x.g.ctx.barm = [])
    (latches : x.team.latches = []) (last : h.lanes &&& ~~~x.g.exited &&& ~~~x.p.mask = 0)
    (trans : tr = x.s.translation
      (({ x.g with lanes := lanes } : Group).lane ((lanesOf h.lanes).headD 0) |>.frames.getD 1 ⟨0, 0, 0, [], []⟩).tr)
    (stay : skip = true → tr.behind h.pc ≠ tr.endAt) (trets : h.trets = 0) (skips : h.skips = 0)
    (resumed : ∀ fresh, (h.left x.p.mask skip mode).resumed x.g.exited (tr.behind h.pc) fresh = some c)
    (unmet : c.meets = []) (unmasked : c.barm = [])
    (stays : ∀ q ∈ x.launch.gangs, q.2.state = .placed → (x.put (x.back c)).gangOver q.2.teams = false) :
    ∃ u : State, u.Sampled (x.leaveAs { x.g with lanes := lanes } skip mode) ∧ x.Counted 1 u ∧
      ({ u.group x.gid with lanes := x.g.lanes } : Group) = x.back c ∧
      (∀ l, (u.group x.gid).lane l =
        let y := ({ x.g with lanes := lanes } : Group).lane l
        if l ∈ lanesOf h.lanes then { y with frames := y.frames.tail } else y) ∧
      x.Keeps (fun _ => False) (u.setGroup x.gid x.g) := by
  let h' := h.left x.p.mask skip mode
  let g0 := x.emptied lanes h'
  obtain ⟨dropped, drop⟩ := Group.mapLanes_lanes (fun _ y => { y with frames := y.frames.tail }) (lanesOf h.lanes) g0
  let g1 : Group := { x.g with lanes := dropped, ctx := c, handler := none, fresh := x.g.fresh + 1 }
  have gone : maskSub (h'.lanes &&& ~~~g0.exited) (h'.trets ||| h'.skips) = true := by
    have out : h'.trets ||| h'.skips = x.p.mask := by
      cases skip <;> simp [h', Handler.left, trets, skips]
    rw [out]
    exact beq_iff_eq.mpr last
  have on : (if tr.behind h'.pc = tr.endAt then h'.skips else 0) = 0 := by
    cases skip with
    | false => simp [h', Handler.left, skips]
    | true => exact if_neg (stay rfl)
  have leaves := leave_eq ((x.put g0).bump x.eid 4 x.team.core 1) x.gid g0 h' tr c (Exe.group_put_bump ..) rfl gone trans.symm on resumed
  rw [show h'.lanes = h.lanes from rfl, drop, Exe.setGroup_put_bump] at leaves
  obtain ⟨noMeets, noBarm⟩ := x.s.follows_unmet
    (g := { x.g with lanes := lanes, ctx := x.g.ctx.without x.p.mask, handler := some h' })
    (Ctx.without_meets meets barm _).1 (Ctx.without_meets meets barm _).2
  have unfinished : ∀ q ∈ x.launch.gangs, q.2.state = .placed →
      (x.put { g1 with ctx := x.s.follows g1 }).gangOver q.2.teams = false := fun q mem placed =>
    (gangOver_congr x { g1 with ctx := x.s.follows g1 } (x.back c) q.2.teams rfl rfl rfl).trans (stays q mem placed)
  have sampled := after_leave x g0 g1 h' rfl noMeets noBarm rfl latches leaves rfl rfl unmet unmasked unfinished
  rw [← Exe.leaveAs_eq inside] at sampled
  refine ⟨_, sampled, x.counted_put _ 1, ?group, fun l => ?lane, ?keeps⟩
  case group =>
    rw [Exe.group_put_bump]
    rfl
  case lane =>
    have lane := Group.lane_mapLanes (fun _ y => { y with frames := y.frames.tail }) _ (nodup_lanesOf h.lanes) g0 l
    rw [drop] at lane
    rw [Exe.group_put_bump]
    exact lane
  case keeps =>
    rw [Exe.setGroup_put_bump]
    exact x.keeps_put' rfl (fun _ _ => rfl) [] (fun _ _ _ => rfl) (fun _ => rfl) (fun _ _ => .refl _) fun _ _ _ _ => rfl

end

/-! The path state that returns. -/

/-- The frozen path state with a mode word for the trapping path, or the entry that it has become, and without exited lanes (R406). -/
def Handler.restored (h : Handler) (exited : LaneMask) (mode : BitVec 64) : Ctx :=
  ({ h.frozen with
    paths := mupd h.frozen.paths h.path fun p => { p with mode := mode }
    stack := h.frozen.stack.map fun e => if e.lanes &&& h.lanes ≠ 0 then { e with mode := mode } else e } : Ctx).without
      (h.lanes &&& exited)

section
variable {h : Handler} (m exited : LaneMask) (skip : Bool) (mode : BitVec 64)

theorem Handler.thawed_left (trap : h.code ≠ 6) : (h.left m skip mode).thawed exited = h.restored exited mode := by
  have holds : ∀ e : Entry, (if e.holds h.lanes then { e with mode := mode } else e) =
      if e.lanes &&& h.lanes ≠ 0 then { e with mode := mode } else e := fun e => if_congr bne_iff_ne rfl rfl
  show Ctx.without (if h.code = 6 then _ else _) _ = _
  rw [if_neg trap]
  show Ctx.without { h.frozen with
    paths := _, stack := h.frozen.stack.map fun e => if e.holds h.lanes then { e with mode := mode } else e } _ = _
  simp only [holds]
  rfl

theorem Handler.thawed_joinTimeout (timeout : h.code = 6) : (h.left m skip mode).thawed exited = h.frozen.without (h.lanes &&& exited) := by
  show Ctx.without (if h.code = 6 then _ else _) _ = _
  rw [if_pos timeout]
  rfl

/-- No lane skips the trapping instruction by TRET. -/
theorem Handler.skips_left_tret (skips : h.skips = 0) (gone : LaneMask) : (h.left m false mode).skips &&& gone = 0 := by
  show h.skips &&& gone = 0
  rw [skips]
  exact BitVec.zero_and

/-- The lanes of a TRET go on where they trapped (R377). -/
theorem Handler.resumed_tret (skips : h.skips = 0) (trap : h.code ≠ 6) (next : BitVec 48) (fresh : Nat) :
    (h.left m false mode).resumed exited next fresh = some (h.restored exited mode) := by
  unfold Handler.resumed
  rw [Handler.thawed_left m exited false mode trap, Handler.skips_left_tret m mode skips, show (h.left m false mode).code = h.code from rfl,
    if_neg trap]
  rfl

/-- The lanes of a TRET wait again at the landing of their JOIN_TIMEOUT, whose timer starts from zero (R194). -/
theorem Handler.resumed_joinTimeout (skips : h.skips = 0) (timeout : h.code = 6) {r : LandRec} (next : BitVec 48) (fresh : Nat)
    (away : (h.frozen.without (h.lanes &&& exited)).recs.find? (·.away) = some r) :
    (h.left m false mode).resumed exited next fresh = some ((h.frozen.without (h.lanes &&& exited)).setRcd { r with
      away := false, timer := true, modes := (h.lanes, mode) :: r.modes.filter fun m => m.1 &&& h.lanes == 0
      waits := if r.arrived &&& h.lanes = 0 then [] else r.waits }) := by
  unfold Handler.resumed
  rw [Handler.thawed_joinTimeout m exited false mode timeout, Handler.skips_left_tret m mode skips,
    show (h.left m false mode).code = h.code from rfl, if_pos timeout]
  have all : ∀ a : LaneMask, a &&& ~~~0 = a := fun a => show a &&& BitVec.allOnes 64 = a from BitVec.and_allOnes
  unfold backToJoin
  simp only [away, all, if_true]
  rfl

/-- The lanes of a TRET.SKIP, all of the trapping path, go on at the next head word (R377). -/
theorem Handler.resumed_tretSkip (skips : h.skips = 0) (trap : h.code ≠ 6) {p : Path} (next : BitVec 48) (fresh : Nat)
    (live : m &&& ~~~(h.lanes &&& ~~~exited) = 0) (skipping : m ≠ 0) (whole : p.mask &&& ~~~m = 0)
    (path : mget (h.restored exited mode).paths h.path = some p) :
    (h.left m true mode).resumed exited next fresh = some { h.restored exited mode with
      paths := mset (h.restored exited mode).paths h.path (Path.start next p.mask p.mode p.pend (some (h.pc, 0)) p.place) } := by
  have kept : (h.skips ||| m) &&& ~~~(h.lanes &&& exited) = m := by
    refine BitVec.eq_of_getLsbD_eq fun j low => ?_
    cases set : m.getLsbD j with
    | false => simp [skips, set]
    | true =>
      have held : h.lanes[j] = true ∧ exited[j] = false := by simpa [low] using and_not_eq.mp live j low set
      simp [skips, set, low, held.2]
  unfold Handler.resumed
  rw [Handler.thawed_left m exited true mode trap]
  rw [show (h.left m true mode).code = h.code from rfl, if_neg trap, show (h.left m true mode).skips = h.skips ||| m from rfl,
    show (h.left m true mode).lanes = h.lanes from rfl, kept]
  unfold partSkips
  rw [if_neg skipping, show mget (h.restored exited mode).paths (h.left m true mode).path = _ from path]
  exact if_pos whole

theorem Handler.restored_unmet (meets : h.frozen.meets = []) (barm : h.frozen.barm = []) :
    (h.restored exited mode).meets = [] ∧ (h.restored exited mode).barm = [] :=
  Ctx.without_meets meets barm _

end

/-! The lanes of a TRET.SKIP (R377). -/

/-- A lane that skips an instruction has its results: the values, and poison beyond them. -/
def Lane.skip (y : Lane) (results : Nat × List Ty) (vs : List Val) : Lane :=
  (y.defineAll results.1 vs).poisonAll (results.1 + vs.length) (results.2.length - vs.length)

theorem Lane.below_skip {y : Lane} (deep : y.frames.length ≥ 2) (results : Nat × List Ty) (vs : List Val) (d : Frame) :
    ((y.below (·.skip results vs)).frames.getD 1 d).tr = (y.frames.getD 1 d).tr ∧
      ({ y.below (·.skip results vs) with frames := (y.below (·.skip results vs)).frames.tail } : Lane) =
        Lane.skip { y with frames := y.frames.tail } results vs :=
  below_keeps y (·.skip results vs) (fun z => (z.keeps_defineAll vs _).trans (Lane.keeps_poisonAll _ _ _))
    (fun z some => val_poisonAll_ne _ _ _ (val_defineAll_ne vs z _ some)) deep d

/-- The group whose path skips an instruction: its lanes have the results below the handler's frame. -/
def Exe.skipping (x : Exe) (results : Nat × List Ty) (vs : Nat → List Val) : Group :=
  x.g.mapLanes x.lanes fun l y => y.below (·.skip results (vs l))

section
variable (x : Exe) (results : Nat × List Ty) (vs : Nat → List Val)

theorem Exe.skipping_eq : ∃ lanes, x.skipping results vs = { x.g with lanes := lanes } := Group.mapLanes_lanes _ x.lanes x.g

theorem Exe.lane_skipping (l : Nat) : (x.skipping results vs).lane l =
    if l ∈ x.lanes then (x.g.lane l).below (·.skip results (vs l)) else x.g.lane l :=
  Group.lane_mapLanes (fun l y => y.below (·.skip results (vs l))) _ (nodup_lanesOf _) x.g l

/-- The results leave the call in which the lane trapped. -/
theorem Exe.caller_skipping (deep : ∀ l ∈ x.lanes, (x.g.lane l).frames.length ≥ 2) (l : Nat) (d : Frame) :
    (((x.skipping results vs).lane l).frames.getD 1 d).tr = ((x.g.lane l).frames.getD 1 d).tr := by
  rw [x.lane_skipping]
  split
  · next mem => exact (Lane.below_skip (deep l mem) results (vs l) d).1
  · rfl

end

/-- Lanes that are left of a handler's are lanes of its trap. -/
theorem lanesOf_left {m trapped exited : LaneMask} (live : m &&& ~~~(trapped &&& ~~~exited) = 0) {l : Nat} (mem : l ∈ lanesOf m) :
    l ∈ lanesOf trapped := by
  obtain ⟨low, set⟩ := mem_lanesOf.mp mem
  have held := and_not_eq.mp live l low set
  rw [BitVec.getLsbD_and, Bool.and_eq_true] at held
  exact mem_lanesOf.mpr ⟨low, held.1⟩

/-- An instruction's poison flag is determined: a lane either reads poison or raises nothing. -/
theorem Exe.PoisonFlag.unique {x : Exe} {i : Instr} {f f' : BitVec 6} (flag : x.PoisonFlag i f) (flag' : x.PoisonFlag i f') : f = f' := by
  by_cases poisoned : ∃ l ∈ x.active i.ctl, x.poison i l = flagPO
  · exact (flag.1 poisoned).trans (flag'.1 poisoned).symm
  · have clean : ∀ l ∈ x.active i.ctl, x.poison i l = 0 := fun l acts => by
      have unflagged := fun po => poisoned ⟨l, acts, po⟩
      unfold Exe.poison at unflagged ⊢
      cases reads : x.readsPoison (x.plan i) l with
      | false => rfl
      | true => exact absurd (congrArg (flagIf · flagPO) reads) unflagged
    exact (flag.2 clean).trans (flag'.2 clean).symm

/-- The operands have the types of the results that they stand for. -/
theorem types_mismatch_false {own : List (Ty × Opnd)} {types : List Ty}
    (fit : ∀ (k : Nat) (q : Ty × Opnd), own[k]? = some q → types[k]? = some q.1) :
    (own.mapIdx fun k q => types[k]? != some q.1).any id = false := by
  rw [List.any_eq_false]
  intro b mem
  obtain ⟨k, low, rfl⟩ := List.mem_mapIdx.mp mem
  simp [fit k own[k] (List.getElem?_eq_getElem low)]

/-- TRET.SKIP by the types of its operands: the path's lanes take the results, and leave the handler. -/
theorem exec_tretSkip {s : State} {x : Exe} (hx : s.exe? = some x) (calm : x.calm) {h : Handler} (inside : x.g.handler = some h)
    (c : Ctl) (ops : List Opnd) {tr : Machine.Trans} (trans : tr = x.s.translation ((x.g.lane x.first).frames.getD 1 ⟨0, 0, 0, [], []⟩).tr)
    {f : BitVec 6} (flag : x.PoisonFlag (.tretSkip c ops) f) :
    let i := Instr.tretSkip c ops
    let results := tr.resultsAt h.pc
    let dead := h.code = 1 ∨ h.code = 2
    let vs := fun l => if dead then [] else x.args i l
    (dead ∨ ∀ (k : Nat) (q : Ty × Opnd), (x.plan i).own[k]? = some q → results.2[k]? = some q.1) →
    exec i s = .next (x.leaveAs (x.skipping results vs) true (x.flagged f)) := by
  intro i results dead vs fit
  have isDead : (h.code == 1 || h.code == 2) = true ↔ dead := by simp [dead]
  have passes : ¬ (!(h.code == 1 || h.code == 2) && ((x.plan i).own.mapIdx fun k q => results.2[k]? != some q.1).any id) = true := by
    obtain yes | types := fit
    · rw [isDead.mpr yes]
      exact Bool.false_ne_true
    · simp [types_mismatch_false types]
  refine (onPath_next hx _).trans (congrArg _ ?_)
  simp only [inside, ← trans]
  rw [Exe.unlessPoison_calm calm, Exe.PoisonFlag.unique (x.poison_flag i _) flag]
  refine (if_neg passes).trans ?_
  simp only [isDead]
  rfl

/-- Settles O26: the last lanes leave the handler, and the path state that returns is the one of their instruction and trap. -/
theorem tretResumesTheGroup : Obligations.TretResumesTheGroup := by
  unfold Obligations.TretResumesTheGroup
  intro s x c ops h tr hx calm inside meets barm frozenMeets frozenBarm latches last trets skips live transLanes transFirst
    left back stays resumes
  have unmet := h.restored_unmet x.g.exited
  have tret : ∀ ctx : Ctx, (∀ fresh, (h.left x.p.mask false x.p.mode).resumed x.g.exited (tr.behind h.pc) fresh = some ctx) →
      ctx.meets = [] → ctx.barm = [] → stays (back ctx) → resumes (.tret c ops) (back ctx) fun _ y => y := by
    intro ctx resumed noMeets noBarm unfinished
    have step : exec (.tret c ops) s = .next (x.leaveAs x.g false x.p.mode) :=
      (onPath_next hx _).trans (congrArg _ (if_neg (by simp [inside])))
    obtain ⟨u, sampled, counted, group, lane, keeps⟩ := Exe.leaveAs_last inside x.g.lanes false x.p.mode meets barm latches last
      transLanes nofun trets skips resumed noMeets noBarm unfinished
    exact ⟨_, u, step, sampled, counted, group, lane, keeps⟩
  refine ⟨fun trap unfinished => ?tret, fun r => ?timeout, fun f p => ?skip⟩
  case tret =>
    obtain ⟨noMeets, noBarm⟩ := unmet x.p.mode frozenMeets frozenBarm
    exact tret _ (Handler.resumed_tret _ _ _ skips trap _) noMeets noBarm unfinished
  case timeout =>
    intro waiting r' g timeout away unfinished
    obtain ⟨noMeets, noBarm⟩ := Ctx.without_meets frozenMeets frozenBarm (h.lanes &&& x.g.exited)
    exact tret _ (fun fresh => Handler.resumed_joinTimeout _ _ _ skips timeout _ fresh away) noMeets noBarm unfinished
  case skip =>
    intro i results dead vs fit poisoned clean more trap deep path whole skipping on g unfinished
    have step := exec_tretSkip hx calm inside c ops transFirst ⟨poisoned, clean⟩ fit
    rw [← x.caller_skipping results vs deep] at transLanes
    obtain ⟨skipped, taken⟩ := x.skipping_eq results vs
    have lane := x.lane_skipping results vs
    rw [taken] at step lane transLanes
    obtain ⟨noMeets, noBarm⟩ := unmet (x.flagged f) frozenMeets frozenBarm
    obtain ⟨u, sampled, counted, group, dropped, keeps⟩ := Exe.leaveAs_last inside skipped true (x.flagged f) meets barm latches last
      transLanes (fun _ => more) trets skips (fun fresh => Handler.resumed_tretSkip _ _ _ skips trap _ fresh live skipping whole path)
      noMeets noBarm unfinished
    refine ⟨_, u, step, sampled, counted, group, fun l => ?_, keeps⟩
    rw [dropped, lane]
    by_cases mem : l ∈ x.lanes
    · simp only [mem, lanesOf_left live mem, if_true]
      exact (Lane.below_skip (deep l mem) results (vs l) ⟨0, 0, 0, [], []⟩).2
    · simp only [mem, if_false]

end Sys2Proof.Machine
end
